-- ==== Sys2Proof/Word.lean ====
section
/-! DEFINITION. The word types of the CX-40 (R8: bit 0 is least significant, memory is little-endian)
and the sparse table that every indexed register file of the model is held in. -/

namespace Sys2Proof

/-- One byte of memory. -/
abbrev Byte := BitVec 8
/-- A 32-bit register or instruction word. -/
abbrev Word := BitVec 32
/-- A 64-bit register, address or counter. -/
abbrev DWord := BitVec 64
/-- A 96-lane mask: bit i is lane i (R4). -/
abbrev LaneMask := BitVec 96

/-- A table indexed by Nat. Indexes strictly rise; an index that is not listed holds the table's
reset value, which each use names (`Tbl.get`). -/
abbrev Tbl (α : Type) := List (Nat × α)

end Sys2Proof
end

