-- ==== Sys2Proof/Syntax.lean ====
section
/-! DEFINITION. The syntax of the model: one constructor of `Instr` for every row of the table of operations and
events. Instruction rows carry the fields of their words (R100, R127, R344 to R347, R350 to R353); event rows
carry what the outside of the modelled device decides about the event (a packet, a measured delay, ...). -/

namespace Sys2Proof

/-- The fields that every lane word but the clause header carries (R350). -/
structure LaneCtl where
  pneg : Bool
  pidx : BitVec 4
  qneg : Bool
  qidx : BitVec 4
  /-- RUN: lookahead; never changes a result. -/
  look : BitVec 3
  cede : Bool
  free : BitVec 4
  /-- SF: the set-flag, 15 for none. -/
  sf   : BitVec 4
  /-- CH: cache hint (R256). -/
  ch   : BitVec 3
  deriving DecidableEq, Repr

/-- Operand fields and modifier of the formats L-R and L-X (R350, R352, R353). -/
structure LR where
  d    : BitVec 9
  a    : BitVec 9
  b    : BitVec 9
  c    : BitVec 9
  e    : BitVec 9
  modf : BitVec 16
  deriving DecidableEq, Repr

/-- Fields of the format L-I (R352): IM 0 puts imm in place of B, IM 1 in place of C. -/
structure LI where
  d   : BitVec 9
  a   : BitVec 9
  b   : BitVec 9
  im  : BitVec 2
  imm : Word
  deriving DecidableEq, Repr

/-- Fields of the format L-M (R352, R355): a signed byte offset and the memory modifier. -/
structure LM where
  d    : BitVec 9
  a    : BitVec 9
  b    : BitVec 9
  off  : BitVec 18
  modf : BitVec 16
  deriving DecidableEq, Repr

/-- A clause header (R356). -/
structure ClauseHeader where
  lenm1 : BitVec 4
  wait  : BitVec 12
  seta  : BitVec 4
  setb  : BitVec 4
  deriving DecidableEq, Repr

/-- Fields of a collective step word (R127). EV is told by the constructor. -/
structure Step where
  ci  : Bool
  ls  : Bool
  dbl : Bool
  pk  : BitVec 2
  pv  : BitVec 10
  buf : BitVec 8
  cnt : Word
  deriving DecidableEq, Repr

/-- The cause of a start that fails (R172). -/
structure BootFail where
  reason : BitVec 8
  step   : BitVec 8
  unit   : BitVec 8
  detail : DWord
  deriving DecidableEq, Repr

/-- What the hardware decides about one start (R170, R171, R185): its failure, if it fails; the UCIe modules that fail
training, as link (coded as in R182) and module; and the units whose selected image fails verification while the other one
passes. -/
structure Boot where
  fail   : Option BootFail
  downs  : List (Nat × Nat)
  swaps  : List Nat
  deriving DecidableEq, Repr

/-- Whose state an uncorrectable error is in (R184): a context's, a microcontroller's, or no one's. -/
inductive ErrorOwner where
  | context (x : BitVec 8)
  | unit (u : BitVec 8)
  | none
  deriving DecidableEq, Repr

/-- An ECC error (R184): array class, die, whether it was corrected, and whose state an uncorrectable one is in. -/
structure SoftError where
  cls       : BitVec 3
  die       : BitVec 8
  corrected : Bool
  owner     : ErrorOwner
  deriving DecidableEq, Repr

/-- What the far end of a port sends in its training sequence or handshake flits (R41, R42): the groups with
light, whether its TARGET is LIVE, and the topology version of its circuit. -/
structure FarEnd where
  groups : BitVec 4
  live   : Bool
  ver    : BitVec 16
  deriving DecidableEq, Repr

/-- One flit at a receiver (R35 to R38): its 256 bytes; how many of its codewords were uncorrectable, and how many were
corrected; and, for a handshake flit, whose payload the manual does not lay out, what it says. -/
structure FlitArrival where
  bytes : List Byte
  uncorr : Nat
  corrected : Nat
  far   : Option FarEnd
  deriving DecidableEq, Repr

/-- One packet of the electrical packet plane (R58): its header fields, body and trailer, and the number under which it crosses
its link (R57), which stands outside the packet. -/
structure Packet where
  typ  : BitVec 4
  cls  : BitVec 4
  hops : BitVec 8
  src  : BitVec 16
  dst  : BitVec 16
  tver : BitVec 16
  pseq : BitVec 16
  /-- Header byte 1 bits beside HOPS do not exist; bytes 12 to 15 are reserved. -/
  rsv  : BitVec 32
  body : List Byte
  /-- the trailer. -/
  fcs  : Word := 0
  /-- the link's sequence number; none for a packet from this device to itself, which crosses no link (R61). -/
  lseq : Option (BitVec 16) := none
  deriving DecidableEq, Repr

/-- What a link's control stream carries for a class (R57, R494): returned credits, the number of the last packet accepted in
order, and whether the receiver asks for replay from the next one. -/
structure LinkCtl where
  n   : Nat
  ack : BitVec 16
  nak : Bool
  deriving DecidableEq, Repr

/-- The queue pair of a request and its packet sequence number (R178). -/
structure RdmaAt where
  qp  : BitVec 6
  psn : BitVec 24
  deriving DecidableEq, Repr

/-- One crucible program slot: crucible and slot (R122). -/
structure Slot where
  cru  : BitVec 1
  slot : BitVec 4
  deriving DecidableEq, Repr

/-- A wave by its core and wave slot; slot 32 is the core's handler slot (R304). -/
structure WaveRef where
  core : Nat
  slot : Nat
  deriving DecidableEq, Repr

/-- Who waits on a counter that a full marver refused to watch (R157, R135). -/
inductive CounterWaiter where
  | stream (st : BitVec 10)
  | slot (u : Slot)
  deriving DecidableEq, Repr

/-- One Yutar Command Transport packet (R151): header fields and payload. -/
structure HostPacket where
  ver    : BitVec 4
  typ    : BitVec 4
  rsv    : BitVec 30
  stream : BitVec 10
  seq    : Word
  ackseq : Word
  payload : List Byte
  deriving DecidableEq, Repr

/-- One management request that has passed the checks of the flow (R176). -/
structure MgmtReq where
  tag     : DWord
  rsv     : Bool
  len     : Nat
  payload : List Byte
  deriving DecidableEq, Repr

/-- What a frame on the host port carries (R144, R145); an RDMA request names its queue pair and its packet sequence number. -/
inductive FrameBody where
  | yct (k : HostPacket)
  | mgmt (src : BitVec 128) (op : BitVec 8) (m : MgmtReq)
  | rdmaWrite (qp psn : BitVec 24) (key : Word) (at_ : DWord) (data : List Byte)
  | rdmaRead (qp psn : BitVec 24) (key : Word) (at_ : DWord) (len : Nat)
  | rdmaOther (qp psn : BitVec 24)
  /-- a neighbour solicitation: who asks, and for which address. -/
  | neighbour (src target : BitVec 128)
  /-- a priority flow control frame: the priorities it pauses, and for how many quanta. -/
  | pause (prios : BitVec 8) (quanta : List (BitVec 16))
  deriving DecidableEq, Repr

/-- One Ethernet frame (R144): its length, tags, addressing and body. -/
structure Frame where
  length   : Nat
  tags     : Nat
  ipv6     : Bool
  extHdr   : Bool
  udpCsum  : Bool
  port     : BitVec 16
  body     : FrameBody
  deriving DecidableEq, Repr

/-- One constructor per row of the table of operations and events. -/
inductive Instr where
  /-- PWRCAP_LOWER, R223. Every 100 µs while power is projected above 2,600 W, CAP is lowered by 1, down to 4. -/
  | pwrcapLower
  /-- PWRCAP_RAISE, R223. A 1 ms window that averages below 2,500 W ends and CAP is raised by 1, up to 16. -/
  | pwrcapRaise
  /-- FLASH_COMMIT, R180. Every 60 s the lifetime records are committed to the older of two flash pages. -/
  | flashCommit
  /-- FAILED_START, R171. 30 s pass without boot-complete and the start of that number is recorded as failed. -/
  | failedStart (start : Nat)
  /-- PATROL_SCRUB, R184. A patrol scrub of near memory or of the L2 falls due and runs at lowest priority. -/
  | patrolScrub (running : Bool)
  /-- LASER_WAKE_DONE, R39. 3.0 µs after the trigger the requested laser groups are lit and the port enters LOCKING. -/
  | laserWakeDone (p : BitVec 5)
  /-- HANDSHAKE_LIVE, R42. 0.5 µs after both ends agree on LIVE and the topology version, the port enters LIVE. -/
  | handshakeLive (p : BitVec 5)
  /-- VERMIS, R42. The ends still disagree on the topology version after 20 µs plus RTTC, and the port sets VERMIS and clears TARGET to TRAINED. -/
  | vermis (p : BitVec 5)
  /-- LOCK_TIMEOUT, R40. A port has stayed 200 µs in LOCKING; it goes DARK, sets LOCKFAIL and clears TARGET. -/
  | lockTimeout (p : BitVec 5)
  /-- GROUP_MISMATCH, R41. Far-end light stays 2 µs on a group that is not lit here; the port goes DARK with LASTERR 0x08. -/
  | groupMismatch (p : BitVec 5)
  /-- DRAIN_END, R43. The drain from LIVE ends when the marker is acknowledged or 1 µs has passed, and unacknowledged flits are reported not delivered. -/
  | drainEnd (p : BitVec 5)
  /-- PORT_GATED, R39. 0.2 µs after TARGET DARK, every lit group of the port is gated and the port is DARK. -/
  | portGated (p : BitVec 5)
  /-- COPY_FLIT_WRITE, R406. An accepted copy data flit has its bytes written in the bound context and is acknowledged, or it waits or is NACKed. -/
  | copyFlitWrite (p : BitVec 5)
  /-- CRUCIBLE_FLIT_RECEIVE, R132. An accepted crucible flit of stream data or credit is delivered to the addressed instance's landing ring. -/
  | crucibleFlitReceive (p : BitVec 5)
  /-- ACK_ONLY_FLIT, R38. A receiver with nothing to send back sends an acknowledge-only flit within every 128 flit times. -/
  | ackOnlyFlit (p : BitVec 5)
  /-- FLIT_RECEIVE, R38. A flit arrives and is checked, accepted in SEQ order or discarded, acknowledged, and NAK or replay is handled. -/
  | flitReceive (p : BitVec 5) (a : FlitArrival)
  /-- BEACON_PERIOD, R78. Every BPER ns the time master sends a beacon. -/
  | beaconPeriod
  /-- ECHO_PERIOD, R63. Every 1 ms each link end sends an echo request. -/
  | echoPeriod
  /-- ECHO_TIMEOUT, R84. An echo request goes 20 µs without reply and a peer-down notice is sent. -/
  | echoTimeout (l : BitVec 3)
  /-- RTTC_CORRECTION, R81. Every 10 ms the corrected round trip of each port is recomputed from the latest beacon's PLANT. -/
  | rttcCorrection
  /-- CIRCUIT_PORT_WRITE, R66. At READYAT minus 3.0 µs each end writes OPCTL with the circuit's groups and TARGET LIVE. -/
  | circuitPortWrite (e : BitVec 6)
  /-- RSV_ATTEMPT_TIMEOUT, R68. An attempt has no answer within 500 µs; TEAR is sent and the entry backs off or fails. -/
  | rsvAttemptTimeout (e : BitVec 6)
  /-- BACKOFF_EXPIRY, R68. A back-off ends and RSV is sent again. -/
  | backoffExpiry (e : BitVec 6)
  /-- CPRE_START, R109. The time scheduled by CPRE is reached and the first RSV is sent. -/
  | cpreStart (e : BitVec 6)
  /-- TEAR_TIMEOUT, R71. 500 µs after its TEAR was sent without TACK, a RELEASING entry becomes FREE. -/
  | tearTimeout (e : BitVec 6)
  /-- SLOT_START, R80. A slot of a SLOTTED circuit begins and is opened, or is not opened because ERREST exceeds GUARD. -/
  | slotStart (e : BitVec 6)
  /-- DRAIN_WINDOW_END, R76. The drain window of a circuit of the old topology version closes. -/
  | drainWindowEnd (e : BitVec 6)
  /-- XSEND_TIMEOUT, R404. An XSEND receives no answer within 1 ms and ends with TIMEOUT. -/
  | xsendTimeout (op : Nat)
  /-- GAFFER_DEADLINE, R108. The deadline of a waiting CAWAIT or CWAIT is reached and the instruction completes. -/
  | gafferDeadline (t : BitVec 2)
  /-- INSTANCE_PAUSED, R140. A PAUSING instance reaches its step boundary and enters PAUSED. -/
  | instancePaused (u : Slot)
  /-- INSTANCE_LOADED, R125. Loading of a collective program finishes and the slot enters RUN at step 0, or the start is refused. -/
  | instanceLoaded (u : Slot)
  /-- DATA_STEP_COMPLETE, R134. A data step of an instance has every byte acknowledged and written, and makes its countdown. -/
  | dataStepComplete (u : Slot) (k : Nat)
  /-- STEP_TIMEOUT, R133. A step waits on one circuit longer than TMO without progress and the instance ends with TIMEOUT. -/
  | stepTimeout (u : Slot)
  /-- CPL_RETRANSMIT, R154. Every 100 µs an unacknowledged completion packet is sent again, and after 16 sends the stream is STALLED. -/
  | cplRetransmit (st : BitVec 10)
  /-- LAUNCH_CMD, R157. The LAUNCH command places a launch record pointer at the tail of a hardware queue. -/
  | launchCmd (st : BitVec 10)
  /-- EVENT_WRITE, R157. EVENT-WRITE sets or adds a value to a 64-bit counter atomically at its home slice. -/
  | eventWrite (st : BitVec 10)
  /-- EVENT_WAIT, R157. EVENT-WAIT waits by a watch until a counter reaches a value. -/
  | eventWait (st : BitVec 10)
  /-- EVENT_WAIT_TIMEOUT, R157. An EVENT-WAIT's TMO expires and it completes with TIMEOUT. -/
  | eventWaitTimeout (st : BitVec 10)
  /-- SCRIPT_START, R86. SCRIPT-START starts a gaffer thread at an address with a context and four arguments, or is refused. -/
  | scriptStart (st : BitVec 10)
  /-- COLL_START, R125. COLL-START starts a collective instance from a descriptor. -/
  | collStart (st : BitVec 10)
  /-- FENCE_CMD, R163. The FENCE command completes once earlier records and acknowledged RDMA writes are visible at .dev. -/
  | fenceCmd (st : BitVec 10)
  /-- RESOLVE, R159. RESOLVE ends a pending memory fault by retrying or failing the access. -/
  | resolve (st : BitVec 10)
  /-- SHOOTDOWN, R161. RESOLVE with FAULTID 0 invalidates every translation of a range of the context. -/
  | shootdown (st : BitVec 10)
  /-- CONTEXT_CREATE, R162. CONTEXT-CREATE makes a context with its page tables, queues, streams, fault queue and windows. -/
  | contextCreate (st : BitVec 10)
  /-- CONTEXT_RESET, R165. CONTEXT-RESET ends all work of the context at one reset point. -/
  | contextReset (st : BitVec 10)
  /-- CONTEXT_DESTROY, R167. CONTEXT-DESTROY resets the context and frees its queues, streams, windows and handle. -/
  | contextDestroy (st : BitVec 10)
  /-- QUERY, R168. QUERY returns one item as completion data. -/
  | query (st : BitVec 10)
  /-- RESYNC, R169. RESYNC returns a summary of contexts, queues, streams, circuits, ports and errors captured at one instant. -/
  | resync (st : BitVec 10)
  /-- FW_SWITCH_TIMEOUT, R183. The quiescent point is not reached within 10 s and FW-SWITCH replies REFUSED. -/
  | fwSwitchTimeout (unit : BitVec 8)
  /-- RECORD_START, R188. The head record of a queue has its dependences met and its QWAKE gate open, is read and checked, and starts or is rejected. -/
  | recordStart (q : BitVec 6)
  /-- DEPENDENCE_WAKE, R201. The dispatcher takes a watch wake from its event queue and reads the counter again. -/
  | dependenceWake (d : BitVec 1)
  /-- DEPENDENCE_BACKOFF, R201. A back-off after a refused watch ends and the dispatcher reads the counter again. -/
  | dependenceBackoff (q : BitVec 6) (i : BitVec 2)
  /-- BLOCK_PLACE, R198. The dispatcher places a block, cluster group or gang on cores when room exists. -/
  | blockPlace (q : BitVec 6)
  /-- CARVE_OUT_CHANGE_DONE, R252. Resident blocks fit the new division, the L1 is dropped and drained, and SCR takes the new value. -/
  | carveOutChangeDone (core : BitVec 8)
  /-- LEAD_PHASE_START, R204. A parked block begins its next phase once its neighbours are within the lead allowance. -/
  | leadPhaseStart (run : Nat) (blk : Nat)
  /-- COMPLETION_ACTIONS, R209. The dispatcher processes a launch completion and runs ADD, POST and SIGQ. -/
  | completionActions (d : BitVec 1)
  /-- COMM_RESERVE_FALL, R206. A 20 µs interval with W at 0 ends and CUR falls by 1. -/
  | commReserveFall (d : BitVec 1)
  /-- GATE_SEQUENCE_START, R207. A cluster idle for IDLEFC front cycles begins its gate sequence. -/
  | gateSequenceStart (n : BitVec 4)
  /-- GATE_SEQUENCE_END, R207. The gate sequence ends 32 front cycles after its start and the cluster is gated. -/
  | gateSequenceEnd (n : BitVec 4)
  /-- CLUSTER_WAKE, R207. A gated cluster's 300 ns wake ends and a waiting dispatch proceeds. -/
  | clusterWake (n : BitVec 4)
  /-- CALIBRATION_PASS, R226. A cluster due for calibration runs a margin pass at its idle point. -/
  | calibrationPass (n : BitVec 4)
  /-- RAIL_RAISED, R215. On a rise of level the regulator has raised the cluster rail and the clock switch begins. -/
  | railRaised (n : BitVec 4)
  /-- LEVEL_SWITCH_DONE, R215. The 256-front-cycle lane-clock switch ends and paused work resumes. -/
  | levelSwitchDone (n : BitVec 4)
  /-- REGULATOR_READY, R220. The regulator reports ready for a burst announcement. -/
  | regulatorReady (w : WaveRef)
  /-- BURST_ADMIT, R220. The lehr admits a pending declaration once onset, readiness and the ramp window allow. -/
  | burstAdmit (n : BitVec 4)
  /-- DECLARATION_END, R217. A running declaration's length runs out and it ends. -/
  | declarationEnd (w : WaveRef)
  /-- THROTTLE_END, R222. A throttle's 2 µs end and the core issues freely again. -/
  | throttleEnd (core : BitVec 8)
  /-- RELEASE_GROUP, R221. RELSP front cycles pass and the next group of waiters of a block-wide barrier is released. -/
  | releaseGroup (core : BitVec 8) (b : BitVec 6)
  /-- HALVED_ISSUE_END, R224. The 64 front cycles of halved issue after a droop alarm end. -/
  | halvedIssueEnd (core : BitVec 8)
  /-- CLAUSE_START, R238. A queued clause starts once its header's wait flags are clear and the clause before it has issued its last instruction. -/
  | clauseStart (w : WaveRef) (f : Nat)
  /-- LONG_LATENCY_RESULT, R240. A long-latency instruction writes its result or performs its access and releases its set-flag. -/
  | longLatencyResult (w : WaveRef) (op : Nat)
  /-- ASYNC_RETIRE, R277. An asynchronous operation completes or ends in error and retires in order on its counter. -/
  | asyncRetire (w : WaveRef) (cls : BitVec 3)
  /-- COPY_COMPLETE, R406. A local or circuit copy has every byte written or acknowledged and makes its countdown. -/
  | copyComplete (op : Nat)
  /-- GATHER_COMPLETE, R407. A gather has written every row and makes its countdown. -/
  | gatherComplete (op : Nat)
  /-- MATRIX_COMPLETE, R474. Every row of every active octet is written and the matrix instruction releases its flag and retires on mx. -/
  | matrixComplete (op : Nat)
  /-- SWEEP_COMPLETE, R483. Every write of a sweep is performed at its scope and it releases its flag and retires on sw. -/
  | sweepComplete (op : Nat)
  /-- WCB_DRAIN, R254. A write-combining entry drains to the L2 128 front cycles after its first store. -/
  | wcbDrain (core : BitVec 8) (line : Nat)
  /-- FRAGMENT_WAKE, R284. A write to a watched line wakes a sleeping fragment, which reruns from its outermost TXB. -/
  | fragmentWake (w : WaveRef) (f : Nat)
  /-- WATCH_BACKOFF_WAKE, R285. A back-off after a refused watch ends and the fragment is woken. -/
  | watchBackoffWake (w : WaveRef) (f : Nat)
  /-- EMPTY_READ_SET_WAKE, R284. A TXR with an empty read set wakes after 64 µs. -/
  | emptyReadSetWake (w : WaveRef) (f : Nat)
  /-- HANDLER_LAUNCH, R303. A compactor group of held lanes reaches 96 lanes or 512 front cycles and a handler wave starts when the slot is free. -/
  | handlerLaunch (core : BitVec 8)
  /-- WATCHDOG_EXPIRY, R311. A fragment waits at an interlock for WDT µs and its context is ended. -/
  | watchdogExpiry (w : WaveRef) (f : Nat)
  /-- BLOCK_SAVE, R313. A draining block or cluster group reaches a boundary and its image is written to the save area. -/
  | blockSave (x : BitVec 8) (blk : Nat)
  /-- PREEMPTION_DEADLINE, R313. DEADLINE µs pass in DRAINING and the context is ended with CAUSE 0x04. -/
  | preemptionDeadline (x : BitVec 8)
  /-- RESTORE_PLACE, R315. The dispatchers place saved images on cores and STATE becomes RUN when all are placed. -/
  | restorePlace (x : BitVec 8)
  /-- OCTET_OPERATION, R473. The matrix engine starts a ready octet operation once its WAIT flags are released. -/
  | octetOperation (op : Nat) (octet : Nat)
  /-- SLOT_USABLE_PART_END, R77. The usable part of a slot of a SLOTTED circuit ends at its end minus GUARD, and the circuit-live barrier closes. -/
  | slotUsablePartEnd (e : BitVec 6)
  /-- ERREST_GROWTH, R79. Each 1 ms without a beacon ERREST grows by 2 ns, and SYNC clears once it exceeds 25 ns. -/
  | errestGrowth
  /-- COUNTER_WAIT_BACKOFF, R157. The back-off of an EVENT-WAIT or a WAIT.ev step after a full marver refused its watch ends, and the counter is read again. -/
  | counterWaitBackoff (w : CounterWaiter)
  /-- SCALAR_ACCESS_RETURN, R374. A scalar load or atomic returns its value to its destination register, or a scalar store is performed, some time after issue. -/
  | scalarAccessReturn (w : WaveRef) (op : Nat)
  /-- POWER_ON_HOURS, R179. Each powered hour, power-on hours and laser hours are counted and the per-hour droop and throttle histograms take their bins. -/
  | powerOnHours
  /-- VADD, R426. Integer add per lane. -/
  | vadd (c : LaneCtl) (r : LR)
  /-- VADD_I, R421. Integer add with a 32-bit immediate. -/
  | vaddI (c : LaneCtl) (r : LI)
  /-- VSUB, R426. Integer subtract per lane. -/
  | vsub (c : LaneCtl) (r : LR)
  /-- VSUB_I, R421. Integer subtract with an immediate. -/
  | vsubI (c : LaneCtl) (r : LI)
  /-- VADD3, R426. Adds three operands exactly. -/
  | vadd3 (c : LaneCtl) (r : LR)
  /-- VMUL, R426. Integer multiply per lane. -/
  | vmul (c : LaneCtl) (r : LR)
  /-- VMUL_I, R421. Integer multiply with an immediate. -/
  | vmulI (c : LaneCtl) (r : LI)
  /-- VMULH, R426. High 32 bits of the exact product. -/
  | vmulh (c : LaneCtl) (r : LR)
  /-- VMAD, R426. Integer multiply-add. -/
  | vmad (c : LaneCtl) (r : LR)
  /-- VMAD_I, R421. Integer multiply-add with an immediate. -/
  | vmadI (c : LaneCtl) (r : LI)
  /-- VMADW, R426. Multiply-add into a 64-bit pair. -/
  | vmadw (c : LaneCtl) (r : LR)
  /-- VMIN, R426. Integer minimum. -/
  | vmin (c : LaneCtl) (r : LR)
  /-- VMIN_I, R421. Signed minimum with an immediate. -/
  | vminI (c : LaneCtl) (r : LI)
  /-- VMAX, R426. Integer maximum. -/
  | vmax (c : LaneCtl) (r : LR)
  /-- VMAX_I, R421. Signed maximum with an immediate. -/
  | vmaxI (c : LaneCtl) (r : LI)
  /-- VABS, R426. Integer absolute value. -/
  | vabs (c : LaneCtl) (r : LR)
  /-- VNEG, R426. Integer negation. -/
  | vneg (c : LaneCtl) (r : LR)
  /-- VAND, R426. Bitwise and. -/
  | vand (c : LaneCtl) (r : LR)
  /-- VAND_I, R421. Bitwise and with an immediate. -/
  | vandI (c : LaneCtl) (r : LI)
  /-- VOR, R426. Bitwise or. -/
  | vor (c : LaneCtl) (r : LR)
  /-- VOR_I, R421. Bitwise or with an immediate. -/
  | vorI (c : LaneCtl) (r : LI)
  /-- VXOR, R426. Bitwise exclusive or. -/
  | vxor (c : LaneCtl) (r : LR)
  /-- VXOR_I, R421. Bitwise exclusive or with an immediate. -/
  | vxorI (c : LaneCtl) (r : LI)
  /-- VLOP3, R427. Any three-input logic function by a lookup table. -/
  | vlop3 (c : LaneCtl) (r : LR)
  /-- VLOP3_I, R427. Three-input logic of A, B and the old D with an immediate table. -/
  | vlop3I (c : LaneCtl) (r : LI)
  /-- VSHL, R426. Shift left. -/
  | vshl (c : LaneCtl) (r : LR)
  /-- VSHL_I, R421. Shift left by an immediate. -/
  | vshlI (c : LaneCtl) (r : LI)
  /-- VSHR, R426. Logical shift right. -/
  | vshr (c : LaneCtl) (r : LR)
  /-- VSHR_I, R421. Logical shift right by an immediate. -/
  | vshrI (c : LaneCtl) (r : LI)
  /-- VSRA, R426. Arithmetic shift right. -/
  | vsra (c : LaneCtl) (r : LR)
  /-- VSRA_I, R421. Arithmetic shift right by an immediate. -/
  | vsraI (c : LaneCtl) (r : LI)
  /-- VSHF, R428. Funnel shift of two registers. -/
  | vshf (c : LaneCtl) (r : LR)
  /-- VBFX, R428. Bit-field extract. -/
  | vbfx (c : LaneCtl) (r : LR)
  /-- VBFI, R428. Bit-field insert. -/
  | vbfi (c : LaneCtl) (r : LR)
  /-- VCLZ, R426. Counts leading zeros. -/
  | vclz (c : LaneCtl) (r : LR)
  /-- VPOPC, R426. Counts one bits. -/
  | vpopc (c : LaneCtl) (r : LR)
  /-- VBREV, R426. Reverses bits. -/
  | vbrev (c : LaneCtl) (r : LR)
  /-- VCMP, R429. Integer compare into a guard predicate. -/
  | vcmp (c : LaneCtl) (r : LR)
  /-- VCMP_I, R429. Signed compare with an immediate into a predicate. -/
  | vcmpI (c : LaneCtl) (r : LI)
  /-- VSEL, R426. Selects one of two operands by a third. -/
  | vsel (c : LaneCtl) (r : LR)
  /-- VSEL_I, R421. Select with an immediate operand. -/
  | vselI (c : LaneCtl) (r : LI)
  /-- VMOV, R426. Copies a 32- or 64-bit operand. -/
  | vmov (c : LaneCtl) (r : LR)
  /-- VMOV_I, R421. Moves a 32-bit immediate. -/
  | vmovI (c : LaneCtl) (r : LI)
  /-- VLEA, R428. Adds a shifted extended register to an address pair. -/
  | vlea (c : LaneCtl) (r : LR)
  /-- VADD2, R430. Packed 16-bit add. -/
  | vadd2 (c : LaneCtl) (r : LR)
  /-- VADD2_I, R430. Packed 16-bit add with an immediate. -/
  | vadd2I (c : LaneCtl) (r : LI)
  /-- VSUB2, R430. Packed 16-bit subtract. -/
  | vsub2 (c : LaneCtl) (r : LR)
  /-- VSUB2_I, R430. Packed 16-bit subtract with an immediate. -/
  | vsub2I (c : LaneCtl) (r : LI)
  /-- VMUL2, R430. Packed 16-bit multiply. -/
  | vmul2 (c : LaneCtl) (r : LR)
  /-- VMUL2_I, R430. Packed 16-bit multiply with an immediate. -/
  | vmul2I (c : LaneCtl) (r : LI)
  /-- VMAC2, R431. Two 16-bit products added to a saturating 32-bit accumulator. -/
  | vmac2 (c : LaneCtl) (r : LR)
  /-- VSAT, R430. Saturates to an 8- or 16-bit range. -/
  | vsat (c : LaneCtl) (r : LR)
  /-- VSHRR, R431. Rounding shift right. -/
  | vshrr (c : LaneCtl) (r : LR)
  /-- VSHRR_I, R431. Rounding shift right by an immediate. -/
  | vshrrI (c : LaneCtl) (r : LI)
  /-- VDOT4, R432. Four-byte dot product into an accumulator. -/
  | vdot4 (c : LaneCtl) (r : LR)
  /-- VDOT8, R432. Eight-nibble dot product into an accumulator. -/
  | vdot8 (c : LaneCtl) (r : LR)
  /-- VDOTT, R432. Twenty-trit by nibble dot product into an accumulator. -/
  | vdott (c : LaneCtl) (r : LR)
  /-- VFADD, R433. FP32 add. -/
  | vfadd (c : LaneCtl) (r : LR)
  /-- VFADD_I, R433. FP32 add with an immediate. -/
  | vfaddI (c : LaneCtl) (r : LI)
  /-- VFSUB, R433. FP32 subtract. -/
  | vfsub (c : LaneCtl) (r : LR)
  /-- VFSUB_I, R433. FP32 subtract with an immediate. -/
  | vfsubI (c : LaneCtl) (r : LI)
  /-- VFMUL, R433. FP32 multiply. -/
  | vfmul (c : LaneCtl) (r : LR)
  /-- VFMUL_I, R433. FP32 multiply with an immediate. -/
  | vfmulI (c : LaneCtl) (r : LI)
  /-- VFMA, R433. FP32 fused multiply-add. -/
  | vfma (c : LaneCtl) (r : LR)
  /-- VFMA_I, R433. FP32 fused multiply-add with an immediate. -/
  | vfmaI (c : LaneCtl) (r : LI)
  /-- VFMIN, R434. FP32 minimum. -/
  | vfmin (c : LaneCtl) (r : LR)
  /-- VFMIN_I, R434. FP32 minimum with an immediate. -/
  | vfminI (c : LaneCtl) (r : LI)
  /-- VFMAX, R434. FP32 maximum. -/
  | vfmax (c : LaneCtl) (r : LR)
  /-- VFMAX_I, R434. FP32 maximum with an immediate. -/
  | vfmaxI (c : LaneCtl) (r : LI)
  /-- VFABS, R434. FP32 absolute value. -/
  | vfabs (c : LaneCtl) (r : LR)
  /-- VFCMP, R435. FP32 compare into a predicate. -/
  | vfcmp (c : LaneCtl) (r : LR)
  /-- VFCMP_I, R435. FP32 compare with an immediate into a predicate. -/
  | vfcmpI (c : LaneCtl) (r : LI)
  /-- VFCLASS, R436. Classifies an FP32 value. -/
  | vfclass (c : LaneCtl) (r : LR)
  /-- VFRND, R433. Rounds to an integral FP32 value. -/
  | vfrnd (c : LaneCtl) (r : LR)
  /-- VFDIV, R433. Correctly rounded FP32 division. -/
  | vfdiv (c : LaneCtl) (r : LR)
  /-- VFSQRT, R433. Correctly rounded FP32 square root. -/
  | vfsqrt (c : LaneCtl) (r : LR)
  /-- VFRCP, R342. Reciprocal. -/
  | vfrcp (c : LaneCtl) (r : LR)
  /-- VFRSQ, R342. Reciprocal square root. -/
  | vfrsq (c : LaneCtl) (r : LR)
  /-- VFEX2, R342. Power of two. -/
  | vfex2 (c : LaneCtl) (r : LR)
  /-- VFLG2, R342. Base-2 logarithm. -/
  | vflg2 (c : LaneCtl) (r : LR)
  /-- VFSIN, R342. Sine. -/
  | vfsin (c : LaneCtl) (r : LR)
  /-- VFCOS, R342. Cosine. -/
  | vfcos (c : LaneCtl) (r : LR)
  /-- VFTANH, R342. Hyperbolic tangent. -/
  | vftanh (c : LaneCtl) (r : LR)
  /-- VHFMA2, R433. Packed BF16 or FP16 fused multiply-add. -/
  | vhfma2 (c : LaneCtl) (r : LR)
  /-- VHADD2, R433. Packed BF16 or FP16 add. -/
  | vhadd2 (c : LaneCtl) (r : LR)
  /-- VHMUL2, R433. Packed BF16 or FP16 multiply. -/
  | vhmul2 (c : LaneCtl) (r : LR)
  /-- VCVT, R439. Converts one element per lane. -/
  | vcvt (c : LaneCtl) (r : LR)
  /-- VPACK, R440. Converts several elements and packs them. -/
  | vpack (c : LaneCtl) (r : LR)
  /-- VUNPK, R441. Unpacks and converts packed elements. -/
  | vunpk (c : LaneCtl) (r : LR)
  /-- VQNT, R442. Quantises against an E8M0 scale. -/
  | vqnt (c : LaneCtl) (r : LR)
  /-- VDQNT, R442. Dequantises with an E8M0 scale. -/
  | vdqnt (c : LaneCtl) (r : LR)
  /-- VSLIDE, R443. Slides elements across lanes with fill. -/
  | vslide (c : LaneCtl) (r : LR)
  /-- VSLIDE_I, R443. Slides 32-bit elements by an immediate. -/
  | vslideI (c : LaneCtl) (r : LI)
  /-- VSHFL, R444. Reads another lane's register by index. -/
  | vshfl (c : LaneCtl) (r : LR)
  /-- VBCAST, R445. Broadcasts one lane's value. -/
  | vbcast (c : LaneCtl) (r : LR)
  /-- VBCAST_I, R445. Broadcasts the lane named by an immediate. -/
  | vbcastI (c : LaneCtl) (r : LI)
  /-- VSCAN, R446. Fixed-order scan across 96 lanes. -/
  | vscan (c : LaneCtl) (r : LR)
  /-- VRED, R446. Fixed-order reduction across 96 lanes. -/
  | vred (c : LaneCtl) (r : LR)
  /-- VBALLOT, R447. Forms a 96-bit ballot and its population count. -/
  | vballot (c : LaneCtl) (r : LR)
  /-- VPUT, R448. Writes an exchange slot from the lowest active lane. -/
  | vput (c : LaneCtl) (r : LR)
  /-- GLOP, R449. Logic over three predicates into a predicate. -/
  | glop (c : LaneCtl) (r : LR)
  /-- GMOV, R450. Moves values between predicates and registers. -/
  | gmov (c : LaneCtl) (r : LR)
  /-- VRAND, R451. Writes splitmix64 random values and advances rngs. -/
  | vrand (c : LaneCtl) (r : LR)
  /-- VLD, R457. Loads 1 to 16 bytes per lane. -/
  | vld (c : LaneCtl) (r : LM)
  /-- VST, R458. Stores 1 to 16 bytes per lane. -/
  | vst (c : LaneCtl) (r : LM)
  /-- VATOM, R459. Performs one atomic per lane at its home and returns the old value. -/
  | vatom (c : LaneCtl) (r : LM)
  /-- VATOM_CAS, R459. Performs a compare and swap per lane. -/
  | vatomCas (c : LaneCtl) (r : LR)
  /-- VREDM, R461. Performs a reduction at memory per lane without a return value. -/
  | vredm (c : LaneCtl) (r : LM)
  /-- VPREF, R462. Prefetches the line of each lane's address. -/
  | vpref (c : LaneCtl) (r : LM)
  /-- VORGLD, R464. Reads a register of a held origin lane. -/
  | vorgld (c : LaneCtl) (r : LR)
  /-- VORGST, R464. Writes a register of a held origin lane. -/
  | vorgst (c : LaneCtl) (r : LR)
  /-- VRESUME, R465. Resumes, re-executes or kills a held origin lane. -/
  | vresume (c : LaneCtl) (r : LR)
  /-- MMA, R469. Issues octet matrix multiply-accumulate operations. -/
  | mma (c : LaneCtl) (r : LR)
  /-- MMASP, R471. Issues sparse octet matrix multiply-accumulate operations. -/
  | mmasp (c : LaneCtl) (r : LR)
  /-- TSWEEP, R480. Element-wise operation over tiles described by iterator records. -/
  | tsweep (c : LaneCtl) (r : LR)
  /-- TCVT, R481. Converts a tile, with optional scaling. -/
  | tcvt (c : LaneCtl) (r : LR)
  /-- TRED, R482. Reduces each row of a tile in fixed order. -/
  | tred (c : LaneCtl) (r : LR)
  /-- TSCAN, R482. Scans each row of a tile in fixed order. -/
  | tscan (c : LaneCtl) (r : LR)
  /-- SEND, R134. Appends the region to the stream to the peer. -/
  | send (f : Step)
  /-- RECV, R134. Receives the region from the peer's stream and counts it down. -/
  | recv (f : Step)
  /-- RRS, R134. Reduces received elements into the region and passes the result to the mirror peer. -/
  | rrs (f : Step)
  /-- RRD, R134. Reduces received elements into the region and counts it down. -/
  | rrd (f : Step)
  /-- COPY, R134. Copies the region into another buffer and counts it down. -/
  | copy (f : Step)
  /-- BCAST, R134. Broadcasts the region from the root to every other live rank. -/
  | bcast (f : Step)
  /-- WAIT, R135. Waits until at most CNT data steps are outstanding. -/
  | wait (f : Step)
  /-- WAIT_EV, R135. Waits until an event counter reaches a value. -/
  | waitEv (f : Step)
  /-- LOOP, R135. Pushes a loop with counter 0 and a limit. -/
  | loop (f : Step)
  /-- ENDL, R135. Advances the loop counter and loops or pops. -/
  | endl (f : Step)
  /-- PEER, R129. Sets a peer register to a resolved rank. -/
  | peer (f : Step)
  /-- SETOP, R135. Sets the reduction operator and format. -/
  | setop (f : Step)
  /-- SETCH, R135. Sets the chunk size. -/
  | setch (f : Step)
  /-- NOTIFY, R135. Adds atomically to an event counter once no data step is outstanding. -/
  | notify (f : Step)
  /-- DONE, R135. Ends the instance once no data step is outstanding. -/
  | done (f : Step)
  /-- SNOP, R348. The all-zero word, which does nothing. -/
  | snop
  /-- SADD, R378. Adds two scalar registers. -/
  | sadd (d : BitVec 6) (a : BitVec 6) (b : BitVec 6)
  /-- SSUB, R378. Subtracts two scalar registers. -/
  | ssub (d : BitVec 6) (a : BitVec 6) (b : BitVec 6)
  /-- SADC, R379. Writes the carry of an addition with incoming carry. -/
  | sadc (d : BitVec 6) (a : BitVec 6) (b : BitVec 6)
  /-- SSBC, R379. Writes the borrow of a subtraction with incoming borrow. -/
  | ssbc (d : BitVec 6) (a : BitVec 6) (b : BitVec 6)
  /-- SMUL, R378. Writes the low 32 bits of a product. -/
  | smul (d : BitVec 6) (a : BitVec 6) (b : BitVec 6)
  /-- SMULH, R378. Writes the high 32 bits of a signed or unsigned product. -/
  | smulh (d : BitVec 6) (a : BitVec 6) (b : BitVec 6) (u : BitVec 1)
  /-- SDIV, R380. Divides, truncating toward zero, and traps DIVZERO on a zero divisor. -/
  | sdiv (d : BitVec 6) (a : BitVec 6) (b : BitVec 6) (u : BitVec 1)
  /-- SREM, R380. Writes the remainder, and traps DIVZERO on a zero divisor. -/
  | srem (d : BitVec 6) (a : BitVec 6) (b : BitVec 6) (u : BitVec 1)
  /-- SAND, R378. Bitwise and. -/
  | sand (d : BitVec 6) (a : BitVec 6) (b : BitVec 6)
  /-- SOR, R378. Bitwise or. -/
  | sor (d : BitVec 6) (a : BitVec 6) (b : BitVec 6)
  /-- SXOR, R378. Bitwise exclusive or. -/
  | sxor (d : BitVec 6) (a : BitVec 6) (b : BitVec 6)
  /-- SANDN, R378. And with the complement of the second register. -/
  | sandn (d : BitVec 6) (a : BitVec 6) (b : BitVec 6)
  /-- SSHL, R381. Shifts left by a register amount. -/
  | sshl (d : BitVec 6) (a : BitVec 6) (b : BitVec 6)
  /-- SSHR, R381. Shifts right logically by a register amount. -/
  | sshr (d : BitVec 6) (a : BitVec 6) (b : BitVec 6)
  /-- SSRA, R381. Shifts right arithmetically by a register amount. -/
  | ssra (d : BitVec 6) (a : BitVec 6) (b : BitVec 6)
  /-- SROL, R381. Rotates left by a register amount. -/
  | srol (d : BitVec 6) (a : BitVec 6) (b : BitVec 6)
  /-- SMIN, R378. Writes the signed or unsigned minimum. -/
  | smin (d : BitVec 6) (a : BitVec 6) (b : BitVec 6) (u : BitVec 1)
  /-- SMAX, R378. Writes the signed or unsigned maximum. -/
  | smax (d : BitVec 6) (a : BitVec 6) (b : BitVec 6) (u : BitVec 1)
  /-- SCLZ, R378. Counts leading zeros. -/
  | sclz (d : BitVec 6) (a : BitVec 6)
  /-- SPOPC, R378. Counts one bits. -/
  | spopc (d : BitVec 6) (a : BitVec 6)
  /-- SBREV, R378. Reverses the bits. -/
  | sbrev (d : BitVec 6) (a : BitVec 6)
  /-- SCMP, R378. Writes -1, 0 or 1 from a signed or unsigned comparison. -/
  | scmp (d : BitVec 6) (a : BitVec 6) (b : BitVec 6) (u : BitVec 1)
  /-- SLHI, R383. Sets a register to a 20-bit immediate shifted left by 12. -/
  | slhi (h : BitVec 1) (d : BitVec 6) (i : BitVec 19)
  /-- SSEL, R378. Selects one of two registers by a third. -/
  | ssel (d : BitVec 6) (a : BitVec 6) (b : BitVec 6) (c : BitVec 6)
  /-- SLEA, R378. Adds a shifted extended register to a 64-bit pair. -/
  | slea (d : BitVec 6) (a : BitVec 6) (b : BitVec 6) (s : BitVec 1) (n : BitVec 3)
  /-- SADD_IMM, R382. Adds a sign-extended immediate. -/
  | saddImm (d : BitVec 6) (a : BitVec 6) (i : BitVec 13)
  /-- SAND_IMM, R382. And with a zero-extended immediate. -/
  | sandImm (d : BitVec 6) (a : BitVec 6) (i : BitVec 13)
  /-- SOR_IMM, R382. Or with a zero-extended immediate. -/
  | sorImm (d : BitVec 6) (a : BitVec 6) (i : BitVec 13)
  /-- SXOR_IMM, R382. Exclusive or with a zero-extended immediate. -/
  | sxorImm (d : BitVec 6) (a : BitVec 6) (i : BitVec 13)
  /-- SSHL_IMM, R382. Shifts left by an immediate amount. -/
  | sshlImm (d : BitVec 6) (a : BitVec 6) (n : BitVec 5)
  /-- SSHR_IMM, R382. Shifts right logically by an immediate amount. -/
  | sshrImm (d : BitVec 6) (a : BitVec 6) (n : BitVec 5)
  /-- SSRA_IMM, R382. Shifts right arithmetically by an immediate amount. -/
  | ssraImm (d : BitVec 6) (a : BitVec 6) (n : BitVec 5)
  /-- SROL_IMM, R382. Rotates left by an immediate amount. -/
  | srolImm (d : BitVec 6) (a : BitVec 6) (n : BitVec 5)
  /-- SMUL_IMM, R382. Multiplies by a sign-extended immediate. -/
  | smulImm (d : BitVec 6) (a : BitVec 6) (i : BitVec 13)
  /-- SCMP_IMM, R382. Compares, signed, with a sign-extended immediate. -/
  | scmpImm (d : BitVec 6) (a : BitVec 6) (i : BitVec 13)
  /-- SLD, R385. Loads 1 to 8 bytes into a register or pair. -/
  | sld (d : BitVec 6) (a : BitVec 6) (z : BitVec 2) (p : BitVec 2) (o : BitVec 2) (s : BitVec 3) (f : BitVec 4)
  /-- SST, R385. Stores 1 to 8 bytes from a register or pair. -/
  | sst (d : BitVec 6) (a : BitVec 6) (z : BitVec 2) (p : BitVec 2) (o : BitVec 2) (s : BitVec 3) (f : BitVec 4)
  /-- SLDK, R386. Loads a word of the launch's argument block. -/
  | sldk (d : BitVec 6) (a : BitVec 6) (i : BitVec 13)
  /-- SATOM, R387. Performs one atomic at the home of its address and returns the old value. -/
  | satom (d : BitVec 6) (a : BitVec 6) (z : BitVec 2) (p : BitVec 2) (o : BitVec 2) (s : BitVec 3) (x : BitVec 4)
  /-- SBR, R389. Branches when two registers satisfy a condition. -/
  | sbr (a : BitVec 6) (b : BitVec 6) (c : BitVec 3) (o : BitVec 10)
  /-- SJMP, R389. Jumps by a signed word offset. -/
  | sjmp (o : BitVec 25)
  /-- SJMPX, R390. Jumps to a register address within the 4 GiB region. -/
  | sjmpx (a : BitVec 6)
  /-- SCALL, R389. Sets s55 to the return address and jumps. -/
  | scall (o : BitVec 25)
  /-- SRET, R390. Jumps to the address in s55 or a named register. -/
  | sret (a : BitVec 6)
  /-- SPLIT, R391. Splits the fragment by a lane mask with a target and a join address. -/
  | split (m : BitVec 6) (j : BitVec 9) (t : BitVec 10)
  /-- SYIELD, R392. Passes over this fragment at the next issue opportunity. -/
  | syield
  /-- SEXIT, R393. Exits the fragment, and the wave when no fragment remains. -/
  | sexit
  /-- LRUN, R394. Enqueues a clause with captured arguments and mask. -/
  | lrun (n : BitVec 3) (a : BitVec 6) (c : BitVec 16)
  /-- LRUNX, R395. Enqueues a clause at a register offset. -/
  | lrunx (a : BitVec 6) (b : BitVec 6) (n : BitVec 3)
  /-- SGETX, R396. Waits for an exchange slot and reads it. -/
  | sgetx (d : BitVec 6) (k : BitVec 3)
  /-- SWAITF, R397. Waits for earlier clauses to issue and named flags to clear. -/
  | swaitf (m : BitVec 12)
  /-- SWAITC, R398. Waits until at most n operations of a class are outstanding. -/
  | swaitc (c : BitVec 3) (n : BitVec 6)
  /-- BARA, R296. Arrives at a named barrier with a count and returns the old generation. -/
  | bara (d : BitVec 6) (n : BitVec 6) (b : BitVec 6)
  /-- BARW, R297. Waits in a transaction for a barrier's generation to change. -/
  | barw (a : BitVec 6) (b : BitVec 6)
  /-- PHEND, R202. Ends the current phase and parks the wave. -/
  | phend
  /-- TXB, R280. Opens a transaction or nests one. -/
  | txb (o : BitVec 25)
  /-- TXC, R283. Commits at depth 1 or leaves an inner level. -/
  | txc
  /-- TXR, R284. Retries at a pending alternative, or discards the writes, turns reads into watches and sleeps. -/
  | txr
  /-- TXALT, R282. Records a pending alternative. -/
  | txalt (o : BitVec 25)
  /-- TXA, R282. Aborts the transaction with EXPLICIT and a code. -/
  | txa (c : BitVec 8)
  /-- FENCE, R274. Waits for earlier accesses at core scope, or as a heavy fence serialises cores within a scope. -/
  | fence (h : BitVec 1) (s : BitVec 3)
  /-- XCOPY, R406. Starts a local or circuit copy. -/
  | xcopy (a : BitVec 6) (s : BitVec 3)
  /-- XGATH, R407. Starts a gather of indexed rows. -/
  | xgath (a : BitVec 6) (s : BitVec 3)
  /-- XCOLL, R408. Starts a collective instance. -/
  | xcoll (a : BitVec 6) (s : BitVec 3)
  /-- XSEND, R409. Sends a message or recurrent-state carry to an endpoint. -/
  | xsend (a : BitVec 6) (c : BitVec 1) (s : BitVec 3)
  /-- LAUNCH, R410. Pushes a launch record into a hardware queue and writes a result code. -/
  | launch (d : BitVec 6) (a : BitVec 6) (b : BitVec 6)
  /-- SIGQ, R411. ORs a value into a permitted wake register. -/
  | sigq (a : BitVec 6) (b : BitVec 6)
  /-- TRAP, R412. Raises the user trap TRAP. -/
  | trap (i : BitVec 13)
  /-- TIME, R413. Reads the time base into a pair. -/
  | time (d : BitVec 6)
  /-- CYC, R413. Reads the cluster's lane-edge count into a pair. -/
  | cyc (d : BitVec 6)
  /-- SRSR, R414. Reads a special register. -/
  | srsr (d : BitVec 6) (c : BitVec 6)
  /-- SWSR, R414. Writes a special register. -/
  | swsr (a : BitVec 6) (c : BitVec 6)
  /-- BRK, R412. Raises the user trap BREAK. -/
  | brk (i : BitVec 13)
  /-- BURST, R216. Announces a matrix burst declaration. -/
  | burst (a : BitVec 6)
  /-- BURSTX, R217. Ends the wave's burst declaration. -/
  | burstx
  /-- PERFL, R214. Writes the context's performance level request for the cluster. -/
  | perfl (a : BitVec 6)
  /-- CMOV, R104. Copies a gaffer register. -/
  | cmov (d : BitVec 4) (a : BitVec 4)
  /-- CMOV_IMM, R104. Loads a sign-extended immediate shifted by four times ca. -/
  | cmovImm (d : BitVec 4) (n : BitVec 4) (i : BitVec 18)
  /-- CADD, R103. Adds two gaffer registers modulo 2^64. -/
  | cadd (d : BitVec 4) (a : BitVec 4) (b : BitVec 4)
  /-- CADD_IMM, R103. Adds a sign-extended immediate. -/
  | caddImm (d : BitVec 4) (a : BitVec 4) (i : BitVec 18)
  /-- CSUB, R103. Subtracts two gaffer registers. -/
  | csub (d : BitVec 4) (a : BitVec 4) (b : BitVec 4)
  /-- CSUB_IMM, R103. Subtracts a sign-extended immediate. -/
  | csubImm (d : BitVec 4) (a : BitVec 4) (i : BitVec 18)
  /-- CAND, R103. Bitwise and of two gaffer registers. -/
  | cand (d : BitVec 4) (a : BitVec 4) (b : BitVec 4)
  /-- CAND_IMM, R103. Bitwise and with a zero-extended immediate. -/
  | candImm (d : BitVec 4) (a : BitVec 4) (i : BitVec 18)
  /-- COR, R103. Bitwise or of two gaffer registers. -/
  | cor (d : BitVec 4) (a : BitVec 4) (b : BitVec 4)
  /-- COR_IMM, R103. Bitwise or with a zero-extended immediate. -/
  | corImm (d : BitVec 4) (a : BitVec 4) (i : BitVec 18)
  /-- CSHL, R103. Shifts left or logically right by a signed register amount. -/
  | cshl (d : BitVec 4) (a : BitVec 4) (b : BitVec 4)
  /-- CSHL_IMM, R103. Shifts left or logically right by a signed immediate. -/
  | cshlImm (d : BitVec 4) (a : BitVec 4) (i : BitVec 18)
  /-- CCMP, R103. Writes -1, 0 or 1 from a signed comparison of two registers. -/
  | ccmp (d : BitVec 4) (a : BitVec 4) (b : BitVec 4)
  /-- CCMP_IMM, R103. Writes -1, 0 or 1 from a signed comparison with an immediate. -/
  | ccmpImm (d : BitVec 4) (a : BitVec 4) (i : BitVec 18)
  /-- CBR, R105. Branches when a register satisfies a signed condition against zero. -/
  | cbr (d : BitVec 4) (c : BitVec 4) (i : BitVec 18)
  /-- CJMP, R105. Branches by a signed word offset. -/
  | cjmp (i : BitVec 18)
  /-- CCALL, R105. Sets c15 to the return address and branches. -/
  | ccall (i : BitVec 18)
  /-- CRET, R105. Sets the program counter to c15. -/
  | cret
  /-- CLD, R106. Loads 32 or 64 bits from local memory, fabric registers or device memory. -/
  | cld (d : BitVec 4) (a : BitVec 4) (s : BitVec 1) (p : BitVec 17)
  /-- CST, R106. Stores 32 or 64 bits to local memory, fabric registers or device memory. -/
  | cst (d : BitVec 4) (a : BitVec 4) (s : BitVec 1) (p : BitVec 17)
  /-- CTIME, R107. Reads the 64-bit time base. -/
  | ctime (d : BitVec 4)
  /-- CHALT, R89. Returns the thread to IDLE and completes its SCRIPT-START with c1. -/
  | chalt
  /-- CREQ, R109. Requests a circuit table entry. -/
  | creq (d : BitVec 4) (a : BitVec 4)
  /-- CAWAIT, R110. Waits until an entry is FREE, LIVE or FAILED, or a deadline. -/
  | cawait (d : BitVec 4) (a : BitVec 4) (b : BitVec 4)
  /-- CSTAT, R111. Returns the result word of an entry. -/
  | cstat (d : BitVec 4) (a : BitVec 4)
  /-- CBIND, R112. Binds an entry to a context and makes the thread its owner. -/
  | cbind (d : BitVec 4) (a : BitVec 4) (b : BitVec 4)
  /-- CREL, R113. Releases an entry in order, draining before TEAR. -/
  | crel (d : BitVec 4) (a : BitVec 4)
  /-- CTEAR, R113. Tears an entry down at once. -/
  | ctear (d : BitVec 4) (a : BitVec 4)
  /-- CPRE, R109. Requests an entry with the first RSV scheduled for a given time. -/
  | cpre (d : BitVec 4) (a : BitVec 4) (b : BitVec 4)
  /-- CGATE, R114. Writes OPCTL of a port that no circuit names. -/
  | cgate (d : BitVec 4) (a : BitVec 4) (b : BitVec 4)
  /-- CSLOT, R115. Returns the start of the usable part of the next slot of an entry. -/
  | cslot (d : BitVec 4) (a : BitVec 4)
  /-- CVER, R116. Advances TVERCUR if the value is newer and sends a version notice. -/
  | cver (d : BitVec 4) (a : BitVec 4)
  /-- CRTT, R117. Returns RTTC of a port. -/
  | crtt (d : BitVec 4) (a : BitVec 4)
  /-- CNOTE, R118. Adds atomically to an event counter in the bound context. -/
  | cnote (d : BitVec 4) (a : BitVec 4) (b : BitVec 4)
  /-- CWAIT, R119. Waits for an event, a wake or a deadline. -/
  | cwait (d : BitVec 4) (a : BitVec 4)
  /-- POWER_ON, R170. Power is applied and boot runs from ROM on XD1 through the boot sequence. -/
  | powerOn (b : Boot)
  /-- MODRST_N_ASSERT, R25. MODRST_N is held low for at least 10 µs and every die is reset as at a loss of power. -/
  | modrstNAssert (b : Boot)
  /-- UVWARN, R26. The input stays below 48.0 V for more than 1 ms and UVWARN is set. -/
  | uvwarn
  /-- INPUT_SHUTDOWN, R26. The input falls below 46.0 V and the module shuts down with the effect of a reset. -/
  | inputShutdown
  /-- OVOFF, R26. The input exceeds 60.0 V, the input stage disconnects, and OVOFF is set. -/
  | ovoff
  /-- INPUT_RECONNECT, R26. After an overvoltage the input returns below 58.0 V and the input stage reconnects. -/
  | inputReconnect (b : Boot)
  /-- ELS_REMOVE, R50. An external laser source module is removed and the ports it feeds leave their states as on laser loss. -/
  | elsRemove (n : BitVec 2)
  /-- ELS_INSERT, R50. An external laser source module is inserted and its ports stay DARK until TARGET is written. -/
  | elsInsert (n : BitVec 2) (ok : Bool)
  /-- SOFT_ERROR, R184. An ECC error is found in an SRAM array; a corrected one is rewritten and counted, and an uncorrectable one ends a context or restarts a unit. -/
  | softError (e : SoftError)
  /-- OPCTL_TARGET_WRITE, R46. A write of TARGET of OPCTL moves the port towards the new target, or is refused with BADREQ. -/
  | opctlTargetWrite (p : BitVec 5) (t : BitVec 2)
  /-- OPCTL_GRPMASK_WRITE, R46. A write of GRPMASK of OPCTL changes the lit groups in DARK, or narrows them in TRAINED, or is refused. -/
  | opctlGrpmaskWrite (p : BitVec 5) (g : BitVec 4)
  /-- CALREQ, R47. Writing CALREQ in TRAINED starts a full recalibration through LOCKING; in any other state BADREQ is set. -/
  | calreq (p : BitVec 5)
  /-- CLRCNT, R54. Writing CLRCNT clears the port's error and replay counters. -/
  | clrcnt (p : BitVec 5)
  /-- LOCK_ACHIEVED, R39. 14 µs after far-end light arrives on every lit wavelength the port is locked, equalised and TRAINED, and the round trip is recorded. -/
  | lockAchieved (p : BitVec 5) (rtt : BitVec 24)
  /-- LOSS_OF_LOCK, R44. Lock is lost on a lit wavelength in LIVE or TRAINED; traffic stops and the port relocks. -/
  | lossOfLock (p : BitVec 5)
  /-- LASER_LIGHT_LOSS, R45. Laser light from the ELS is lost; the port goes DARK, sets LASERLOST, and reports every flit as not delivered. -/
  | laserLightLoss (p : BitVec 5)
  /-- BERHIGH, R49. A 1 ms window in which corrected symbols exceed BERTH × 256 ends; BERHIGH is set and a port event is posted. -/
  | berhigh (p : BitVec 5) (corrected : Nat)
  /-- PACKET_FORWARD, R61. A packet not addressed to this device is forwarded on its route-table link or discarded and counted in EPDROP. -/
  | packetForward (l : BitVec 3) (k : Packet)
  /-- CREDIT_RETURN, R494. Returned credits of a class reach the sender and allow a new packet to begin. -/
  | creditReturn (l : BitVec 3) (cls : BitVec 4) (c : LinkCtl)
  /-- BEACON, R78. A time beacon arrives; the time base is stepped or slowed and the beacon is forwarded once per PSEQ. -/
  | beacon (l : BitVec 3) (k : Packet)
  /-- ECHO_REQUEST, R63. An echo request arrives and is answered within 2 µs with an echo reply. -/
  | echoRequest (l : BitVec 3) (k : Packet)
  /-- ECHO_REPLY, R63. An echo reply arrives and the link's one-way delay is computed. -/
  | echoReply (l : BitVec 3) (k : Packet)
  /-- RSV, R67. A reserve packet arrives at the destination and is accepted into a FREE entry with an ARRIVAL event, or denied. -/
  | rsv (l : BitVec 3) (k : Packet)
  /-- ACK, R66. An ACK arrives at the requester; the entry enters RESERVED and the port write is scheduled. -/
  | ack (l : BitVec 3) (k : Packet)
  /-- DENY, R68. A DENY arrives; the requester draws a back-off and enters BACKOFF, or enters FAILED when attempts are exhausted. -/
  | deny (l : BitVec 3) (k : Packet)
  /-- TEAR, R71. A TEAR from the far end acts on the entry it names and is answered with TACK. -/
  | tear (l : BitVec 3) (k : Packet)
  /-- TACK, R71. A TACK arrives and a RELEASING entry becomes FREE. -/
  | tack (l : BitVec 3) (k : Packet)
  /-- CARRY, R83. A recurrent-state carry arrives and is written at its endpoint with a countdown, or rejected with a NACK. -/
  | carry (l : BitVec 3) (k : Packet)
  /-- SMALL_MESSAGE, R83. A small message arrives and is written at its endpoint with a countdown, or rejected with a NACK. -/
  | smallMessage (l : BitVec 3) (k : Packet)
  /-- VERSION_NOTICE, R75. A version notice arrives, TVERSEEN is updated if newer, and the gaffer is told. -/
  | versionNotice (l : BitVec 3) (k : Packet)
  /-- DELIVERY_NACK, R76. A delivery NACK arrives and the sender treats the named flit or packet as not delivered. -/
  | deliveryNack (l : BitVec 3) (k : Packet)
  /-- PEER_DOWN_NOTICE, R84. A peer-down notice arrives and PEERDOWN events go to the gaffer threads. -/
  | peerDownNotice (l : BitVec 3) (k : Packet)
  /-- MESSAGE_ACKNOWLEDGEMENT, R409. A message acknowledgement arrives and the XSEND that it names completes. -/
  | messageAcknowledgement (l : BitVec 3) (k : Packet)
  /-- FDIDCFG_WRITE, R60. A write of FDIDCFG sets or changes the device's fabric node number. -/
  | fdidcfgWrite (v : Word)
  /-- GWAKE_WRITE, R94. A write ORs a value into a gaffer thread's wake register. -/
  | gwakeWrite (t : BitVec 2) (v : Word)
  /-- CRCTL_PAUSE, R140. PAUSE moves an instance from RUN to PAUSING. -/
  | crctlPause (u : Slot)
  /-- CRCTL_RESUME, R140. RESUME rereads the rank map, handles a grown skip mask, and continues the instance. -/
  | crctlResume (u : Slot)
  /-- CRCTL_ABORT, R141. ABORT ends the instance with ABORTED. -/
  | crctlAbort (u : Slot)
  /-- ETHERNET_FRAME, R144. A frame arrives on the host port and is passed to its flow or discarded and counted. -/
  | ethernetFrame (f : Frame)
  /-- CMD_PACKET, R152. A CMD packet arrives and is accepted, treated as a duplicate, or discarded, and is answered with an ACK. -/
  | cmdPacket (k : HostPacket)
  /-- HOST_ACK, R154. An ACK from the host acknowledges completion packets of a stream. -/
  | hostAck (k : HostPacket)
  /-- RDMA_WRITE, R149. An RDMA WRITE writes bytes through a window at .dev scope or is refused with a NAK. -/
  | rdmaWrite (h : RdmaAt) (key : Word) (at_ : DWord) (data : List Byte)
  /-- RDMA_READ, R149. An RDMA READ returns bytes through a window or is refused with a NAK. -/
  | rdmaRead (h : RdmaAt) (key : Word) (at_ : DWord) (len : Nat)
  /-- READ_COUNTERS, R181. The management operation returns the 832-byte lifetime counter block. -/
  | readCounters (m : MgmtReq)
  /-- READ_HIST, R181. The management operation returns the 32 bins of one histogram. -/
  | readHist (m : MgmtReq)
  /-- CLEAR_STICKY, R177. The management operation clears named sticky bits of MODPWR. -/
  | clearSticky (m : MgmtReq)
  /-- FW_STAGE, R183. The management operation writes image bytes into the inactive slot of a unit. -/
  | fwStage (m : MgmtReq)
  /-- FW_SWITCH, R183. The management operation verifies the staged image and schedules the unit's switch at its quiescent point. -/
  | fwSwitch (m : MgmtReq) (verified : Bool)
  /-- FIRMWARE_SWITCH_DONE, R183. A unit reaches its quiescent point and switches image, or returns to its old slot if the new one fails to start. -/
  | firmwareSwitchDone (unit : BitVec 8) (started : Bool)
  /-- RECAL, R177. The management operation writes CALREQ of a port. -/
  | recal (m : MgmtReq)
  /-- REBOOT, R177. The management operation starts a new boot, clearing the failed-start count with CLEARFAIL. -/
  | reboot (m : MgmtReq) (b : Boot)
  /-- QP_SETUP, R178. The management operation places a RoCE v2 queue pair in service. -/
  | qpSetup (m : MgmtReq)
  /-- QP_TEARDOWN, R178. The management operation returns a queue pair to unused. -/
  | qpTeardown (m : MgmtReq)
  /-- READ_LOG, R182. The management operation returns up to 340 service log entries. -/
  | readLog (m : MgmtReq)
  /-- MBWAKE_WRITE, R175. A write ORs a value into MBWAKE and the management core logs a MARK entry. -/
  | mbwakeWrite (v : Word)
  /-- QWAKE_WRITE, R211. A write ORs a value into a queue's wake register. -/
  | qwakeWrite (q : BitVec 6) (v : Word)
  /-- COMRES_WRITE, R211. A write of COMRES sets MIN and MAX and moves CUR into the new range. -/
  | comresWrite (d : BitVec 1) (v : Word)
  /-- PMCTL_REQ, R313. Writing REQ to PMCTL starts the pre-emption drain of a context. -/
  | pmctlReq (x : BitVec 8)
  /-- PMCTL_RESTORE, R315. Writing RESTORE to PMCTL in SAVED starts the restore of a context's images. -/
  | pmctlRestore (x : BitVec 8)
  /-- REGISTER_WRITE, R11. A write to a register that has no row of its own acts by the access types of its fields. -/
  | registerWrite (off : BitVec 24) (v : Word)
  /-- CALIBRATION_DONE, R226. A margin pass completes, MARGIN is written, and the gate sequence starts. -/
  | calibrationDone (n : BitVec 4) (mdbl meq mhalf : BitVec 5)
  /-- DROOP_ALARM, R224. A core's rail falls DRPTH below its set point; the clock is stretched and issue is halved. -/
  | droopAlarm (core : BitVec 8)
  /-- FAR_END_LIGHT_ARRIVAL, R39. Light from the far end appears on the lit wavelengths of a port in LOCKING, and the 14 µs of lock and equalisation start from it. -/
  | farEndLightArrival (p : BitVec 5) (far : FarEnd)
  /-- LINK_ENTERS_SERVICE, R494. A packet-plane link comes into service and each sender takes the full credits of every class of the far end. -/
  | linkEntersService (l : BitVec 3)
  /-- MODPWR_UPDATE, R29. Every 100 µs VIN and PIN of MODPWR are updated from the measured input. -/
  | modpwrUpdate (vin : BitVec 16) (pin : BitVec 12)
  /-- RAIL_OUT_OF_REGULATION, R24. A die rail leaves or regains regulation, changing PGOOD and the MODPGOOD output. -/
  | railOutOfRegulation (die : BitVec 2) (ok : Bool)
  /-- TEMPERATURE_SAMPLE, R179. Once per minute the temperature of each logic die is sampled into its lifetime histogram. -/
  | temperatureSample (cd0 cd1 xd0 xd1 : Int)
  deriving DecidableEq, Repr

end Sys2Proof
end

