-- ==== Sys2Proof/Machine/Legal.lean ====
section
/-! DEFINITION. Which instruction words are legal: the conditions of R101 (gaffer), R126 and R127 (collective steps),
R348 (scalar words) and R233, R256, R352 to R360 with the entries of the lane chapters (lane words). `legalIn nr` is the
check for a wave whose allocation holds `nr` lane registers. What depends on the clause header, the handler wave or the
instance (R357's SETA and SETB, R463, N and NBUF) is checked where they are known. -/

namespace Sys2Proof.Machine

/-- A scalar pair register is even (R347, R348). -/
def even6 (r : BitVec 6) : Bool := r.toNat % 2 == 0

/-- NARG and the first argument register of LRUN and LRUNX (R346, R395). -/
def okArgs (n : BitVec 3) (a : BitVec 6) : Bool :=
  decide (n.toNat ≤ 4) && (n != 0 || a == 0) && decide (a.toNat + n.toNat ≤ 64)

/-- The uses of SATOM that R387 leaves legal. -/
def okSatom (d a : BitVec 6) (z p : BitVec 2) (s : BitVec 3) (x : BitVec 4) : Bool :=
  decide (p.toNat ≤ 2) && decide (s.toNat ≤ 5) && even6 a && decide (x.toNat ≤ 0xD) &&
  (if z == 3 then even6 d && decide (x.toNat ≤ 9) && (x != 9 || d.toNat % 4 == 0)
   else z == 2 && (x != 9 || even6 d))

/-- The peer kinds 01, 10 and 11 with the register index of R127. -/
def okPeer (f : Step) : Bool := f.pk != 0 && (f.pk != 3 || decide (f.pv.toNat < 4))

/-- CI, LS and DBL are all clear. -/
def noFlags (f : Step) : Bool := !f.ci && !f.ls && !f.dbl

/-- SETOP's count (R126, R135): a valid operator and format, reserved bits zero, D only with the softmax combine. -/
def okSetop (cnt : Word) : Bool :=
  let n := cnt.toNat
  let op := n % 16
  let fmt := n / 16 % 16
  decide (op ≤ 4) && decide (fmt ≤ 3) && (op != 4 || fmt == 0) && n / 256 % 256 == 0 && n / 67108864 == 0 &&
  (op == 4 || n / 65536 % 1024 == 0)

end Sys2Proof.Machine

namespace Sys2Proof

/-- TYPE of the L-R modifier (R353). -/
def LR.ty (r : LR) : Nat := r.modf.toNat / 2048
/-- RND of the L-R modifier. -/
def LR.rnd (r : LR) : Nat := r.modf.toNat / 256 % 8
/-- POL of the L-R modifier. -/
def LR.pol (r : LR) : Nat := r.modf.toNat / 64 % 4
/-- AX of the L-R modifier. -/
def LR.ax (r : LR) : Bool := r.modf.toNat / 32 % 2 == 1
/-- SUB of the L-R modifier. -/
def LR.sub (r : LR) : Nat := r.modf.toNat % 32

/-- SF, CH of one lane word: `long` for the long-latency instructions of R357, `h5` where R256 allows hint 5. -/
def LaneCtl.ok (c : LaneCtl) (long h5 : Bool) : Bool :=
  (if long then decide (c.sf.toNat ≤ 11) else c.sf == 15) && (decide (c.ch.toNat ≤ 4) || (h5 && c.ch == 5))

end Sys2Proof

namespace Sys2Proof.Machine

/-- A written position: a v register of the allocation (R360, R233). -/
def wr (nr : Nat) (x : BitVec 9) : Bool := decide (x.toNat < 256) && decide (x.toNat < nr)

/-- A read position takes any code of R359. -/
def rd (nr : Nat) (x : BitVec 9) : Bool :=
  let n := x.toNat
  if n < 0x100 then decide (n < nr)
  else decide (n ≤ 0x103) || (decide (0x110 ≤ n) && decide (n ≤ 0x128)) ||
    (decide (0x130 ≤ n) && decide (n ≤ 0x13F)) || (decide (0x180 ≤ n) && decide (n ≤ 0x186))

/-- A written pair: an even v register (R360). -/
def wrPair (nr : Nat) (x : BitVec 9) : Bool := decide (x.toNat < 256) && x.toNat % 2 == 0 && decide (x.toNat + 1 < nr)

/-- A read pair: an even v register, a0 or a2 (R360). -/
def rdPair (nr : Nat) (x : BitVec 9) : Bool := wrPair nr x || x == 0x100 || x == 0x102

/-- Four registers from a multiple of 4 (R360). -/
def blk4 (nr : Nat) (x : BitVec 9) : Bool := decide (x.toNat < 256) && x.toNat % 4 == 0 && decide (x.toNat + 3 < nr)

/-- A field that the instruction does not use. -/
def z (x : BitVec 9) : Bool := x == 0

/-- A predicate index (R422). -/
def gi (x : BitVec 9) : Bool := decide (x.toNat < 16)

/-- The D field of VCMP and VFCMP (R422): PD and a condition up to `top`. -/
def pd (x : BitVec 9) (top : Nat) : Bool := decide (x.toNat / 16 ≤ top)

/-- A uniform operand (R443): a clause argument or an integer constant. -/
def uni (x : BitVec 9) : Bool :=
  let n := x.toNat
  (decide (0x100 ≤ n) && decide (n ≤ 0x103)) || (decide (0x110 ≤ n) && decide (n ≤ 0x128))

def tyIn (r : LR) (l : List Nat) : Bool := l.contains r.ty
def subIn (r : LR) (l : List Nat) : Bool := l.contains r.sub
def subLt (r : LR) (n : Nat) : Bool := decide (r.sub < n)
def rndLe (r : LR) (n : Nat) : Bool := decide (r.rnd ≤ n)
def noRnd (r : LR) : Bool := r.rnd == 0
def noPol (r : LR) : Bool := r.pol == 0
def noAx (r : LR) : Bool := !r.ax
/-- A 64-bit type: pairs in D, A and B (R426). -/
def wide (ty : Nat) : Bool := ty == 6 || ty == 7
/-- Destination of an instruction whose width follows its type. -/
def wd (nr : Nat) (r : LR) (x : BitVec 9) : Bool := if wide r.ty then wrPair nr x else wr nr x
/-- Source of an instruction whose width follows its type. -/
def rdT (nr : Nat) (r : LR) (x : BitVec 9) : Bool := if wide r.ty then rdPair nr x else rd nr x
/-- One source, in A. -/
def un (nr : Nat) (r : LR) : Bool := wr nr r.d && rd nr r.a && z r.b && z r.c && z r.e
def im0 (r : LI) : Bool := r.im == 0
def im01 (r : LI) : Bool := r.im == 0 || r.im == 1

/-- VCVT (R439): every target and source from 0x00 to 0x0F. -/
def okVcvt (nr : Nat) (r : LR) : Bool :=
  decide (r.ty < 16) && decide (r.sub < 16) && rndLe r 4 &&
  (if wide r.ty then wrPair nr r.d else wr nr r.d) && (if wide r.sub then rdPair nr r.a else rd nr r.a) &&
  z r.b && z r.c && z r.e

/-- VPACK (R440). -/
def okVpack (nr : Nat) (r : LR) : Bool :=
  let four := rd nr r.c && rd nr r.e
  let two := z r.c && z r.e
  wr nr r.d && rd nr r.a && rd nr r.b &&
  (if r.ty == 16 then r.sub == 4 && noRnd r && noAx r && two
   else subIn r [0,1,2,3,4,5,8,9,10,11,12,13,14,15] && rndLe r 4 &&
     (if tyIn r [2,3,9,10] then two else tyIn r [4,5,11,12,13,14,15] && four))

/-- VUNPK (R441). -/
def okVunpk (nr : Nat) (r : LR) : Bool :=
  rd nr r.a && z r.b && z r.c && z r.e &&
  (if r.sub == 16 then r.ty == 4 && noRnd r && noPol r && noAx r && wrPair nr r.d
   else tyIn r [0,1,8,9,10] && rndLe r 4 &&
     (if subIn r [2,3,9,10] then wrPair nr r.d else subIn r [4,5,11,12,13,14,15] && blk4 nr r.d))

/-- Operator, CY and EX of VSCAN, VRED, TSCAN and TRED (R446, R482); SUB below `top`. -/
def okScanOp (r : LR) (top : Nat) : Bool := tyIn r [8,0,1] && subLt r top && r.sub % 4 != 3
/-- With R446's rounding rule: RND applies to float add only. -/
def okScan (r : LR) (top : Nat) : Bool :=
  okScanOp r top && (if r.ty == 8 && r.sub % 4 == 0 then rndLe r 3 else noRnd r)
/-- Without CY, C is 0x000. -/
def okCarry (nr : Nat) (r : LR) : Bool := if r.sub / 4 % 2 == 1 then rd nr r.c else z r.c

/-- SIZE, SX, SPACE, ORD, SCOPE and AOP of the memory modifier (R355). -/
def sizeOf (m : BitVec 16) : Nat := m.toNat / 8192
def sxOf (m : BitVec 16) : Bool := m.toNat / 4096 % 2 == 1
def spaceOf (m : BitVec 16) : Nat := m.toNat / 1024 % 4
def ordOf (m : BitVec 16) : Nat := m.toNat / 256 % 4
def scopeOf (m : BitVec 16) : Nat := m.toNat / 32 % 8
def aop (m : BitVec 16) : Nat := m.toNat % 16
def szIn (m : BitVec 16) (l : List Nat) : Bool := l.contains (sizeOf m)
/-- No reserved code and no reserved bit; SX only below 32 bits (R355, R453). -/
def okModf (m : BitVec 16) : Bool :=
  decide (sizeOf m ≤ 4) && (!sxOf m || decide (sizeOf m < 2)) && decide (spaceOf m ≤ 2) && decide (scopeOf m ≤ 5) &&
  m.toNat / 16 % 2 == 0
/-- AOP and size of the L-M atomics (R355, R459). -/
def okAop (m : BitVec 16) : Bool :=
  szIn m [2,3] && decide (aop m ≤ 0xD) && aop m != 9 && (sizeOf m == 2 || decide (aop m ≤ 8))
/-- A written position whose width is SIZE (R453). -/
def wrS (nr : Nat) (m : BitVec 16) (x : BitVec 9) : Bool :=
  if sizeOf m == 4 then blk4 nr x else if sizeOf m == 3 then wrPair nr x else wr nr x
/-- A read position whose width is SIZE. -/
def rdS (nr : Nat) (m : BitVec 16) (x : BitVec 9) : Bool :=
  if sizeOf m == 4 then blk4 nr x else if sizeOf m == 3 then rdPair nr x else rd nr x

/-- D, A, B, C and MODF of MMA and MMASP (R466). -/
def okMatrix (nr : Nat) (r : LR) : Bool :=
  decide (r.d.toNat < 256) && r.d.toNat % 16 == 0 && decide (r.d.toNat + 15 < nr) && rdPair nr r.a && rdPair nr r.b &&
  rdPair nr r.c && r.modf.toNat / 4 % 4 == 0

/-- What the four sweeps share (R477): SCOPE in D, pairs in A and B, no `.trp`. -/
def okSweep (nr : Nat) (r : LR) : Bool :=
  decide (r.d.toNat ≤ 5) && rdPair nr r.a && rdPair nr r.b && decide (r.pol ≤ 2)

/-- The legality of one instruction in a wave whose allocation holds `nr` lane registers. -/
def legalIn (nr : Nat) : Instr → Bool
  | .powerOn _ => true
  | .modrstNAssert _ => true
  | .failedStart _ => true
  | .uvwarn => true
  | .inputShutdown => true
  | .ovoff => true
  | .inputReconnect _ => true
  | .pwrcapLower => true
  | .pwrcapRaise => true
  | .elsRemove _ => true
  | .elsInsert _ _ => true
  | .flashCommit => true
  | .patrolScrub _ => true
  | .softError _ => true
  | .opctlTargetWrite _ _ => true
  | .opctlGrpmaskWrite _ _ => true
  | .calreq _ => true
  | .clrcnt _ => true
  | .laserWakeDone _ => true
  | .lockAchieved _ _ => true
  | .handshakeLive _ => true
  | .vermis _ => true
  | .lockTimeout _ => true
  | .groupMismatch _ => true
  | .drainEnd _ => true
  | .portGated _ => true
  | .lossOfLock _ => true
  | .laserLightLoss _ => true
  | .berhigh _ _ => true
  | .flitReceive _ _ => true
  | .copyFlitWrite _ => true
  | .crucibleFlitReceive _ => true
  | .ackOnlyFlit _ => true
  | .packetForward _ _ => true
  | .creditReturn _ _ _ => true
  | .beacon _ _ => true
  | .beaconPeriod => true
  | .echoPeriod => true
  | .echoRequest _ _ => true
  | .echoReply _ _ => true
  | .echoTimeout _ => true
  | .rttcCorrection => true
  | .rsv _ _ => true
  | .ack _ _ => true
  | .circuitPortWrite _ => true
  | .deny _ _ => true
  | .rsvAttemptTimeout _ => true
  | .backoffExpiry _ => true
  | .cpreStart _ => true
  | .tear _ _ => true
  | .tack _ _ => true
  | .tearTimeout _ => true
  | .slotStart _ => true
  | .drainWindowEnd _ => true
  | .carry _ _ => true
  | .smallMessage _ _ => true
  | .versionNotice _ _ => true
  | .deliveryNack _ _ => true
  | .peerDownNotice _ _ => true
  | .messageAcknowledgement _ _ => true
  | .xsendTimeout _ => true
  | .fdidcfgWrite _ => true
  | .gwakeWrite _ _ => true
  | .gafferDeadline _ => true
  | .crctlPause _ => true
  | .instancePaused _ => true
  | .crctlResume _ => true
  | .crctlAbort _ => true
  | .instanceLoaded _ => true
  | .dataStepComplete _ _ => true
  | .stepTimeout _ => true
  | .ethernetFrame _ => true
  | .cmdPacket _ => true
  | .hostAck _ => true
  | .cplRetransmit _ => true
  | .launchCmd _ => true
  | .eventWrite _ => true
  | .eventWait _ => true
  | .eventWaitTimeout _ => true
  | .scriptStart _ => true
  | .collStart _ => true
  | .fenceCmd _ => true
  | .resolve _ => true
  | .shootdown _ => true
  | .contextCreate _ => true
  | .contextReset _ => true
  | .contextDestroy _ => true
  | .query _ => true
  | .resync _ => true
  | .rdmaWrite _ _ _ _ => true
  | .rdmaRead _ _ _ _ => true
  | .readCounters _ => true
  | .readHist _ => true
  | .clearSticky _ => true
  | .fwStage _ => true
  | .fwSwitch _ _ => true
  | .firmwareSwitchDone _ _ => true
  | .fwSwitchTimeout _ => true
  | .recal _ => true
  | .reboot _ _ => true
  | .qpSetup _ => true
  | .qpTeardown _ => true
  | .readLog _ => true
  | .mbwakeWrite _ => true
  | .qwakeWrite _ _ => true
  | .comresWrite _ _ => true
  | .pmctlReq _ => true
  | .pmctlRestore _ => true
  | .registerWrite _ _ => true
  | .recordStart _ => true
  | .dependenceWake _ => true
  | .dependenceBackoff _ _ => true
  | .blockPlace _ => true
  | .carveOutChangeDone _ => true
  | .leadPhaseStart _ _ => true
  | .completionActions _ => true
  | .commReserveFall _ => true
  | .gateSequenceStart _ => true
  | .gateSequenceEnd _ => true
  | .clusterWake _ => true
  | .calibrationPass _ => true
  | .calibrationDone _ _ _ _ => true
  | .railRaised _ => true
  | .levelSwitchDone _ => true
  | .regulatorReady _ => true
  | .burstAdmit _ => true
  | .declarationEnd _ => true
  | .throttleEnd _ => true
  | .releaseGroup _ _ => true
  | .droopAlarm _ => true
  | .halvedIssueEnd _ => true
  | .clauseStart _ _ => true
  | .longLatencyResult _ _ => true
  | .asyncRetire _ _ => true
  | .copyComplete _ => true
  | .gatherComplete _ => true
  | .matrixComplete _ => true
  | .sweepComplete _ => true
  | .wcbDrain _ _ => true
  | .fragmentWake _ _ => true
  | .watchBackoffWake _ _ => true
  | .emptyReadSetWake _ _ => true
  | .handlerLaunch _ => true
  | .watchdogExpiry _ _ => true
  | .blockSave _ _ => true
  | .preemptionDeadline _ => true
  | .restorePlace _ => true
  | .cmov _ _ => true
  | .cmovImm _ _ _ => true
  | .cadd _ _ _ => true
  | .caddImm _ _ _ => true
  | .csub _ _ _ => true
  | .csubImm _ _ _ => true
  | .cand _ _ _ => true
  | .candImm _ _ _ => true
  | .cor _ _ _ => true
  | .corImm _ _ _ => true
  | .cshl _ _ _ => true
  | .cshlImm _ _ _ => true
  | .ccmp _ _ _ => true
  | .ccmpImm _ _ _ => true
  | .cbr _ c _ => decide (c.toNat ≤ 5)
  | .cjmp _ => true
  | .ccall _ => true
  | .cret => true
  | .cld _ _ _ _ => true
  | .cst _ _ _ _ => true
  | .ctime _ => true
  | .chalt => true
  | .creq _ _ => true
  | .cawait _ _ _ => true
  | .cstat _ _ => true
  | .cbind _ _ _ => true
  | .crel _ _ => true
  | .ctear _ _ => true
  | .cpre _ _ _ => true
  | .cgate _ _ _ => true
  | .cslot _ _ => true
  | .cver _ _ => true
  | .crtt _ _ => true
  | .cnote _ _ _ => true
  | .cwait _ _ => true
  | .send f => okPeer f && !f.dbl
  | .recv f => okPeer f && !f.dbl
  | .rrs f => okPeer f && !f.dbl && f.pk != 2
  | .rrd f => okPeer f && !f.dbl
  | .copy f => f.pk == 0 && decide (f.pv.toNat < 256) && !f.dbl
  | .bcast f => okPeer f && !f.dbl
  | .wait f => noFlags f && f.pk == 0 && f.pv == 0 && f.buf == 0 && decide (f.cnt.toNat ≤ 7)
  | .waitEv f => !f.ci && !f.dbl && f.pk == 0 && f.pv == 0
  | .loop f => noFlags f && f.pk == 0 && f.pv == 0 && f.buf == 0
  | .endl f => noFlags f && f.pk == 0 && f.pv == 0 && f.buf == 0 && f.cnt == 0
  | .peer f => !f.ci && okPeer f && decide (f.buf.toNat < 4) && f.cnt == 0
  | .setop f => noFlags f && f.pk == 0 && f.pv == 0 && f.buf == 0 && okSetop f.cnt
  | .setch f => noFlags f && f.pk == 0 && f.pv == 0 && f.buf == 0
  | .notify f => noFlags f && f.pk == 0 && f.pv == 0
  | .done f => noFlags f && f.pk == 0 && f.pv == 0 && f.buf == 0 && f.cnt == 0
  | .snop => true
  | .sadd d a b => !(d == 0 && a == 0 && b == 0)
  | .ssub _ _ _ => true
  | .sadc _ _ _ => true
  | .ssbc _ _ _ => true
  | .smul _ _ _ => true
  | .smulh _ _ _ _ => true
  | .sdiv _ _ _ _ => true
  | .srem _ _ _ _ => true
  | .sand _ _ _ => true
  | .sor _ _ _ => true
  | .sxor _ _ _ => true
  | .sandn _ _ _ => true
  | .sshl _ _ _ => true
  | .sshr _ _ _ => true
  | .ssra _ _ _ => true
  | .srol _ _ _ => true
  | .smin _ _ _ _ => true
  | .smax _ _ _ _ => true
  | .sclz _ _ => true
  | .spopc _ _ => true
  | .sbrev _ _ => true
  | .scmp _ _ _ _ => true
  | .slhi _ _ _ => true
  | .ssel _ _ _ _ => true
  | .slea d a _ _ _ => even6 d && even6 a
  | .saddImm _ _ _ => true
  | .sandImm _ _ _ => true
  | .sorImm _ _ _ => true
  | .sxorImm _ _ _ => true
  | .sshlImm _ _ _ => true
  | .sshrImm _ _ _ => true
  | .ssraImm _ _ _ => true
  | .srolImm _ _ _ => true
  | .smulImm _ _ _ => true
  | .scmpImm _ _ _ => true
  | .sld d a z p _ s _ => decide (p.toNat ≤ 2) && decide (s.toNat ≤ 5) && even6 a && (z != 3 || even6 d)
  | .sst d a z p _ s _ => decide (p.toNat ≤ 2) && decide (s.toNat ≤ 5) && even6 a && (z != 3 || even6 d)
  | .sldk _ _ _ => true
  | .satom d a z p _ s x => okSatom d a z p s x
  | .sbr _ _ c _ => decide (c.toNat ≤ 5)
  | .sjmp _ => true
  | .sjmpx _ => true
  | .scall _ => true
  | .sret _ => true
  | .split m _ _ => decide (m.toNat ≤ 61)
  | .syield => true
  | .sexit => true
  | .lrun n a _ => okArgs n a
  | .lrunx _ b n => okArgs n b
  | .sgetx _ _ => true
  | .swaitf _ => true
  | .swaitc c _ => c != 6
  | .bara _ _ _ => true
  | .barw _ _ => true
  | .phend => true
  | .txb _ => true
  | .txc => true
  | .txr => true
  | .txalt _ => true
  | .txa _ => true
  | .fence h s => decide (s.toNat ≤ 5) && (h == 1 || s == 0)
  | .xcopy a s => even6 a && decide (s.toNat ≤ 5)
  | .xgath a s => even6 a && decide (s.toNat ≤ 5)
  | .xcoll a s => even6 a && decide (s.toNat ≤ 5)
  | .xsend a _ s => even6 a && decide (s.toNat ≤ 5)
  | .launch _ a _ => even6 a
  | .sigq _ _ => true
  | .trap _ => true
  | .time d => even6 d
  | .cyc d => even6 d
  | .srsr _ c => decide (c.toNat < 0x1E)
  | .swsr _ c => decide (c.toNat < 0x1E)
  | .brk _ => true
  | .burst _ => true
  | .burstx => true
  | .perfl _ => true
  | .vadd c r => c.ok false false && tyIn r [0,1,6,7] && noRnd r && noPol r && noAx r && subLt r 2 && wd nr r r.d && rdT nr r r.a && rdT nr r r.b && z r.c && z r.e
  | .vaddI c r => c.ok false false && im0 r && wr nr r.d && rd nr r.a && z r.b
  | .vsub c r => c.ok false false && tyIn r [0,1,6,7] && noRnd r && noPol r && noAx r && subLt r 2 && wd nr r r.d && rdT nr r r.a && rdT nr r r.b && z r.c && z r.e
  | .vsubI c r => c.ok false false && im0 r && wr nr r.d && rd nr r.a && z r.b
  | .vadd3 c r => c.ok false false && tyIn r [0,1] && noRnd r && noPol r && noAx r && subLt r 2 && wr nr r.d && rd nr r.a && rd nr r.b && rd nr r.c && z r.e
  | .vmul c r => c.ok false false && tyIn r [0,1] && noRnd r && noPol r && noAx r && subLt r 2 && wr nr r.d && rd nr r.a && rd nr r.b && z r.c && z r.e
  | .vmulI c r => c.ok false false && im0 r && wr nr r.d && rd nr r.a && z r.b
  | .vmulh c r => c.ok false false && tyIn r [0,1] && noRnd r && noPol r && noAx r && subLt r 1 && wr nr r.d && rd nr r.a && rd nr r.b && z r.c && z r.e
  | .vmad c r => c.ok false false && tyIn r [0,1] && noRnd r && noPol r && noAx r && subLt r 2 && wr nr r.d && rd nr r.a && rd nr r.b && rd nr r.c && z r.e
  | .vmadI c r => c.ok false false && im01 r && wr nr r.d && rd nr r.a && rd nr r.b
  | .vmadw c r => c.ok false false && tyIn r [0,1] && noRnd r && noPol r && noAx r && subLt r 2 && wrPair nr r.d && rd nr r.a && rd nr r.b && rdPair nr r.c && z r.e
  | .vmin c r => c.ok false false && tyIn r [0,1,6,7] && noRnd r && noPol r && noAx r && subLt r 1 && wd nr r r.d && rdT nr r r.a && rdT nr r r.b && z r.c && z r.e
  | .vminI c r => c.ok false false && im0 r && wr nr r.d && rd nr r.a && z r.b
  | .vmax c r => c.ok false false && tyIn r [0,1,6,7] && noRnd r && noPol r && noAx r && subLt r 1 && wd nr r r.d && rdT nr r r.a && rdT nr r r.b && z r.c && z r.e
  | .vmaxI c r => c.ok false false && im0 r && wr nr r.d && rd nr r.a && z r.b
  | .vabs c r => c.ok false false && tyIn r [0,6] && noRnd r && noPol r && noAx r && subLt r 2 && wd nr r r.d && rdT nr r r.a && z r.b && z r.c && z r.e
  | .vneg c r => c.ok false false && tyIn r [0,6] && noRnd r && noPol r && noAx r && subLt r 2 && wd nr r r.d && rdT nr r r.a && z r.b && z r.c && z r.e
  | .vand c r => c.ok false false && tyIn r [0,1] && noRnd r && noPol r && noAx r && subLt r 1 && wr nr r.d && rd nr r.a && rd nr r.b && z r.c && z r.e
  | .vandI c r => c.ok false false && im0 r && wr nr r.d && rd nr r.a && z r.b
  | .vor c r => c.ok false false && tyIn r [0,1] && noRnd r && noPol r && noAx r && subLt r 1 && wr nr r.d && rd nr r.a && rd nr r.b && z r.c && z r.e
  | .vorI c r => c.ok false false && im0 r && wr nr r.d && rd nr r.a && z r.b
  | .vxor c r => c.ok false false && tyIn r [0,1] && noRnd r && noPol r && noAx r && subLt r 1 && wr nr r.d && rd nr r.a && rd nr r.b && z r.c && z r.e
  | .vxorI c r => c.ok false false && im0 r && wr nr r.d && rd nr r.a && z r.b
  | .vlop3 c r => c.ok false false && tyIn r [0,1] && noRnd r && wr nr r.d && rd nr r.a && rd nr r.b && rd nr r.c && z r.e
  | .vlop3I c r => c.ok false false && im0 r && decide (r.imm.toNat < 256) && wr nr r.d && rd nr r.a && rd nr r.b
  | .vshl c r => c.ok false false && tyIn r [0,1,6,7] && noRnd r && noPol r && noAx r && subLt r 1 && wd nr r r.d && rdT nr r r.a && rd nr r.b && z r.c && z r.e
  | .vshlI c r => c.ok false false && im0 r && wr nr r.d && rd nr r.a && z r.b
  | .vshr c r => c.ok false false && tyIn r [0,1,6,7] && noRnd r && noPol r && noAx r && subLt r 1 && wd nr r r.d && rdT nr r r.a && rd nr r.b && z r.c && z r.e
  | .vshrI c r => c.ok false false && im0 r && wr nr r.d && rd nr r.a && z r.b
  | .vsra c r => c.ok false false && tyIn r [0,1,6,7] && noRnd r && noPol r && noAx r && subLt r 1 && wd nr r r.d && rdT nr r r.a && rd nr r.b && z r.c && z r.e
  | .vsraI c r => c.ok false false && im0 r && wr nr r.d && rd nr r.a && z r.b
  | .vshf c r => c.ok false false && tyIn r [0,1] && noRnd r && noPol r && noAx r && subLt r 2 && wr nr r.d && rd nr r.a && rd nr r.b && rd nr r.c && z r.e
  | .vbfx c r => c.ok false false && tyIn r [0,1] && noRnd r && noPol r && noAx r && subLt r 1 && wr nr r.d && rd nr r.a && rd nr r.b && rd nr r.c && z r.e
  | .vbfi c r => c.ok false false && tyIn r [0,1] && noRnd r && noPol r && noAx r && subLt r 1 && wr nr r.d && rd nr r.a && rd nr r.b && rd nr r.c && rd nr r.e
  | .vclz c r => c.ok false false && tyIn r [0,1] && noRnd r && noPol r && noAx r && subLt r 1 && wr nr r.d && rd nr r.a && z r.b && z r.c && z r.e
  | .vpopc c r => c.ok false false && tyIn r [0,1] && noRnd r && noPol r && noAx r && subLt r 1 && wr nr r.d && rd nr r.a && z r.b && z r.c && z r.e
  | .vbrev c r => c.ok false false && tyIn r [0,1] && noRnd r && noPol r && noAx r && subLt r 1 && wr nr r.d && rd nr r.a && z r.b && z r.c && z r.e
  | .vcmp c r => c.ok false false && tyIn r [0,1,6,7] && noRnd r && noPol r && noAx r && subLt r 1 && pd r.d 5 && rdT nr r r.a && rdT nr r r.b && z r.c && z r.e
  | .vcmpI c r => c.ok false false && im0 r && pd r.d 5 && rd nr r.a && z r.b
  | .vsel c r => c.ok false false && tyIn r [0,1] && noRnd r && noPol r && noAx r && subLt r 1 && wr nr r.d && rd nr r.a && rd nr r.b && rd nr r.c && z r.e
  | .vselI c r => c.ok false false && im01 r && wr nr r.d && rd nr r.a && rd nr r.b
  | .vmov c r => c.ok false false && tyIn r [0,1,7] && noRnd r && noPol r && noAx r && subLt r 1 && wd nr r r.d && rdT nr r r.a && z r.b && z r.c && z r.e
  | .vmovI c r => c.ok false false && im0 r && wr nr r.d && z r.a && z r.b
  | .vlea c r => c.ok false false && tyIn r [0] && noRnd r && noPol r && noAx r && subLt r 16 && wrPair nr r.d && rdPair nr r.a && rd nr r.b && z r.c && z r.e
  | .vadd2 c r => c.ok false false && tyIn r [2,3] && noRnd r && noPol r && noAx r && subLt r 2 && wr nr r.d && rd nr r.a && rd nr r.b && z r.c && z r.e
  | .vadd2I c r => c.ok false false && im0 r && wr nr r.d && rd nr r.a && z r.b
  | .vsub2 c r => c.ok false false && tyIn r [2,3] && noRnd r && noPol r && noAx r && subLt r 2 && wr nr r.d && rd nr r.a && rd nr r.b && z r.c && z r.e
  | .vsub2I c r => c.ok false false && im0 r && wr nr r.d && rd nr r.a && z r.b
  | .vmul2 c r => c.ok false false && tyIn r [2,3] && noRnd r && noPol r && noAx r && subLt r 2 && wr nr r.d && rd nr r.a && rd nr r.b && z r.c && z r.e
  | .vmul2I c r => c.ok false false && im0 r && wr nr r.d && rd nr r.a && z r.b
  | .vmac2 c r => c.ok false false && tyIn r [2,3] && noRnd r && noPol r && noAx r && subLt r 1 && wr nr r.d && rd nr r.a && rd nr r.b && rd nr r.c && z r.e
  | .vsat c r => c.ok false false && tyIn r [2,3,4,5] && noRnd r && noPol r && noAx r && subLt r 1 && wr nr r.d && rd nr r.a && z r.b && z r.c && z r.e
  | .vshrr c r => c.ok false false && tyIn r [0,1,2,3] && noRnd r && noPol r && noAx r && subLt r 1 && wr nr r.d && rd nr r.a && rd nr r.b && z r.c && z r.e
  | .vshrrI c r => c.ok false false && im0 r && wr nr r.d && rd nr r.a && z r.b
  | .vdot4 c r => c.ok false false && tyIn r [4,5] && noRnd r && noPol r && noAx r && subLt r 2 && wr nr r.d && rd nr r.a && rd nr r.b && rd nr r.c && z r.e
  | .vdot8 c r => c.ok false false && tyIn r [4,5] && noRnd r && noPol r && noAx r && subLt r 2 && wr nr r.d && rd nr r.a && rd nr r.b && rd nr r.c && z r.e
  | .vdott c r => c.ok false false && tyIn r [4,5] && noRnd r && noPol r && noAx r && subLt r 2 && wr nr r.d && rd nr r.a && blk4 nr r.b && rd nr r.c && z r.e
  | .vfadd c r => c.ok false false && tyIn r [8] && rndLe r 4 && noPol r && noAx r && subLt r 1 && wr nr r.d && rd nr r.a && rd nr r.b && z r.c && z r.e
  | .vfaddI c r => c.ok false false && im0 r && wr nr r.d && rd nr r.a && z r.b
  | .vfsub c r => c.ok false false && tyIn r [8] && rndLe r 4 && noPol r && noAx r && subLt r 1 && wr nr r.d && rd nr r.a && rd nr r.b && z r.c && z r.e
  | .vfsubI c r => c.ok false false && im0 r && wr nr r.d && rd nr r.a && z r.b
  | .vfmul c r => c.ok false false && tyIn r [8] && rndLe r 4 && noPol r && noAx r && subLt r 1 && wr nr r.d && rd nr r.a && rd nr r.b && z r.c && z r.e
  | .vfmulI c r => c.ok false false && im0 r && wr nr r.d && rd nr r.a && z r.b
  | .vfma c r => c.ok false false && tyIn r [8] && rndLe r 4 && noPol r && noAx r && subLt r 1 && wr nr r.d && rd nr r.a && rd nr r.b && rd nr r.c && z r.e
  | .vfmaI c r => c.ok false false && im01 r && wr nr r.d && rd nr r.a && rd nr r.b
  | .vfmin c r => c.ok false false && tyIn r [8] && noRnd r && noPol r && noAx r && subLt r 1 && wr nr r.d && rd nr r.a && rd nr r.b && z r.c && z r.e
  | .vfminI c r => c.ok false false && im0 r && wr nr r.d && rd nr r.a && z r.b
  | .vfmax c r => c.ok false false && tyIn r [8] && noRnd r && noPol r && noAx r && subLt r 1 && wr nr r.d && rd nr r.a && rd nr r.b && z r.c && z r.e
  | .vfmaxI c r => c.ok false false && im0 r && wr nr r.d && rd nr r.a && z r.b
  | .vfabs c r => c.ok false false && tyIn r [8] && noRnd r && noPol r && noAx r && subLt r 1 && un nr r
  | .vfcmp c r => c.ok false false && tyIn r [8] && noRnd r && noPol r && noAx r && subLt r 1 && pd r.d 6 && rd nr r.a && rd nr r.b && z r.c && z r.e
  | .vfcmpI c r => c.ok false false && im0 r && pd r.d 6 && rd nr r.a && z r.b
  | .vfclass c r => c.ok false false && tyIn r [8] && noRnd r && noPol r && noAx r && subLt r 1 && un nr r
  | .vfrnd c r => c.ok false false && tyIn r [8] && rndLe r 3 && noPol r && noAx r && subLt r 1 && un nr r
  | .vfdiv c r => c.ok true false && tyIn r [8] && rndLe r 3 && noPol r && noAx r && subLt r 1 && wr nr r.d && rd nr r.a && rd nr r.b && z r.c && z r.e
  | .vfsqrt c r => c.ok true false && tyIn r [8] && rndLe r 3 && noPol r && noAx r && subLt r 1 && un nr r
  | .vfrcp c r => c.ok true false && tyIn r [8] && noRnd r && noPol r && noAx r && subLt r 1 && un nr r
  | .vfrsq c r => c.ok true false && tyIn r [8] && noRnd r && noPol r && noAx r && subLt r 1 && un nr r
  | .vfex2 c r => c.ok true false && tyIn r [8] && noRnd r && noPol r && noAx r && subLt r 1 && un nr r
  | .vflg2 c r => c.ok true false && tyIn r [8] && noRnd r && noPol r && noAx r && subLt r 1 && un nr r
  | .vfsin c r => c.ok true false && tyIn r [8] && noRnd r && noPol r && noAx r && subLt r 1 && un nr r
  | .vfcos c r => c.ok true false && tyIn r [8] && noRnd r && noPol r && noAx r && subLt r 1 && un nr r
  | .vftanh c r => c.ok true false && tyIn r [8] && noRnd r && noPol r && noAx r && subLt r 1 && un nr r
  | .vhfma2 c r => c.ok false false && tyIn r [9,10] && rndLe r 4 && noPol r && noAx r && subLt r 1 && wr nr r.d && rd nr r.a && rd nr r.b && rd nr r.c && z r.e
  | .vhadd2 c r => c.ok false false && tyIn r [9,10] && rndLe r 4 && noPol r && noAx r && subLt r 1 && wr nr r.d && rd nr r.a && rd nr r.b && z r.c && z r.e
  | .vhmul2 c r => c.ok false false && tyIn r [9,10] && rndLe r 4 && noPol r && noAx r && subLt r 1 && wr nr r.d && rd nr r.a && rd nr r.b && z r.c && z r.e
  | .vcvt c r => c.ok false false && okVcvt nr r
  | .vpack c r => c.ok false false && okVpack nr r
  | .vunpk c r => c.ok false false && okVunpk nr r
  | .vqnt c r => c.ok false false && tyIn r [4,5,11,12,13,14,15] && subIn r [8,9,10] && rndLe r 4 && wr nr r.d && rd nr r.a && rd nr r.b && z r.c && z r.e
  | .vdqnt c r => c.ok false false && tyIn r [8,9,10] && subIn r [4,5,11,12,13,14,15] && rndLe r 3 && noAx r && wr nr r.d && rd nr r.a && rd nr r.b && z r.c && z r.e
  | .vslide c r => c.ok false false && tyIn r [0,1,3,5] && noRnd r && noPol r && noAx r && subLt r 1 && wr nr r.d && rd nr r.a && uni r.b && rd nr r.c && z r.e
  | .vslideI c r => c.ok false false && wr nr r.d && rd nr r.a && (if r.im == 0 then rd nr r.b else r.im == 1 && uni r.b)
  | .vshfl c r => c.ok false false && tyIn r [0,1] && noRnd r && noPol r && noAx r && subLt r 1 && wr nr r.d && rd nr r.a && rd nr r.b && rd nr r.c && z r.e
  | .vbcast c r => c.ok false false && tyIn r [0,1] && noRnd r && noPol r && noAx r && subLt r 1 && wr nr r.d && rd nr r.a && uni r.b && z r.c && z r.e
  | .vbcastI c r => c.ok false false && im0 r && wr nr r.d && rd nr r.a && z r.b
  | .vscan c r => c.ok false false && okScan r 16 && noPol r && noAx r && wr nr r.d && rd nr r.a && z r.b && okCarry nr r && z r.e
  | .vred c r => c.ok false false && okScan r 8 && noPol r && noAx r && wr nr r.d && rd nr r.a && z r.b && okCarry nr r && z r.e
  | .vballot c r => c.ok false false && tyIn r [0] && noRnd r && noPol r && noAx r && blk4 nr r.d && (if 16 ≤ r.sub then z r.a else r.sub == 0 && rd nr r.a) && z r.b && z r.c && z r.e
  | .vput c r => c.ok true false && tyIn r [0,1] && noRnd r && noPol r && noAx r && subLt r 8 && z r.d && rd nr r.a && z r.b && z r.c && z r.e
  | .glop c r => c.ok false false && decide (r.modf.toNat < 256) && gi r.d && gi r.a && gi r.b && gi r.c && z r.e
  | .gmov c r => c.ok false false && tyIn r [0,1] && noRnd r && noPol r && noAx r && subLt r 3 && (if r.sub == 1 then wr nr r.d && gi r.a else gi r.d && rd nr r.a) && z r.b && z r.c && z r.e
  | .vrand c r => c.ok false false && r.modf == 0 && wr nr r.d && z r.a && z r.b && z r.c && z r.e
  | .vld c r => c.ok true true && okModf r.modf && aop r.modf == 0 && wrS nr r.modf r.d && rdPair nr r.a && z r.b
  | .vst c r => c.ok true false && okModf r.modf && aop r.modf == 0 && z r.d && rdPair nr r.a && rdS nr r.modf r.b
  | .vatom c r => c.ok true false && okModf r.modf && okAop r.modf && wrS nr r.modf r.d && rdPair nr r.a && rdS nr r.modf r.b
  | .vatomCas c r => c.ok true false && okModf r.modf && szIn r.modf [2,3] && aop r.modf == 9 && wrS nr r.modf r.d && rdPair nr r.a && rdS nr r.modf r.b && rdS nr r.modf r.c && z r.e
  | .vredm c r => c.ok true false && okModf r.modf && okAop r.modf && aop r.modf != 8 && z r.d && rdPair nr r.a && rdS nr r.modf r.b
  | .vpref c r => c.ok false false && okModf r.modf && sizeOf r.modf == 0 && !sxOf r.modf && ordOf r.modf == 0 && scopeOf r.modf == 0 && aop r.modf == 0 && z r.d && rdPair nr r.a && z r.b
  | .vorgld c r => c.ok true false && r.modf == 0 && wr nr r.d && rd nr r.a && rd nr r.b && z r.c && z r.e
  | .vorgst c r => c.ok true false && r.modf == 0 && z r.d && rd nr r.a && rd nr r.b && rd nr r.c && z r.e
  | .vresume c r => c.ok false false && r.modf == 0 && z r.d && rd nr r.a && rd nr r.b && z r.c && z r.e
  | .mma c r => c.ok true true && okMatrix nr r && rdPair nr r.e
  | .mmasp c r => c.ok true true && okMatrix nr r && blk4 nr r.e
  | .octetOperation _ _ => true
  | .tsweep c r => c.ok true false && okSweep nr r && subLt r 7 && noAx r && (if r.ty == 8 then rndLe r 3 else r.ty == 0 && noRnd r) && (if r.sub ≤ 5 then rdPair nr r.c else z r.c) && (if r.sub == 3 then rdPair nr r.e else z r.e)
  | .tcvt c r => c.ok true false && okSweep nr r && r.ty == 0 && subLt r 3 && rndLe r 3 && (if r.sub == 0 then z r.c else rd nr r.c) && z r.e
  | .tred c r => c.ok true false && okSweep nr r && okScanOp r 8 && rndLe r 3 && noAx r && okCarry nr r && z r.e
  | .tscan c r => c.ok true false && okSweep nr r && okScanOp r 16 && rndLe r 3 && noAx r && okCarry nr r && z r.e
  | .farEndLightArrival _ _ => true
  | .linkEntersService _ => true
  | .slotUsablePartEnd _ => true
  | .errestGrowth => true
  | .counterWaitBackoff _ => true
  | .scalarAccessReturn _ _ => true
  | .modpwrUpdate _ _ => true
  | .railOutOfRegulation _ _ => true
  | .temperatureSample _ _ _ _ => true
  | .powerOnHours => true

end Sys2Proof.Machine
end

