-- ==== Sys2Proof/WellFormed.lean ====
section
/-! DEFINITION. Well-formed instructions: those whose words the decoder accepts. -/

namespace Sys2Proof

/-- A well-formed instruction: its fields keep the rules of its entry, in a wave with all 256 lane registers. Events
carry no encoding and are all well-formed. -/
def Instr.wf (i : Instr) : Bool := Machine.legalIn 256 i

end Sys2Proof
end

