-- ==== Sys2Proof/Decode.lean ====
section
/-! DEFINITION. Reading instruction words (gaffer and scalar words, collective steps, lane words and clause headers),
rejecting by `none` every word that R101, R126, R348 or R358 makes ILLEGAL, and the encoder from the same tables. -/

namespace Sys2Proof

/-- Bits [lo + n - 1 : lo] of a word. -/
def fld (n lo w : Nat) : BitVec n := BitVec.ofNat n (w >>> lo)

/-- One bit of a word. -/
def bitAt (lo w : Nat) : Bool := (w >>> lo) % 2 == 1

/-- A field's contribution to a word. -/
def put {n : Nat} (lo : Nat) (x : BitVec n) : Nat := x.toNat <<< lo

/-- A one-bit field's contribution to a word. -/
def putb (lo : Nat) (b : Bool) : Nat := if b then 1 <<< lo else 0

/-- One row of a 32-bit opcode map: its fixed fields, each as (lowest bit, width, value), the opcode first, and how the
others are read. -/
structure Row32 where
  fixed : List (Nat × Nat × Nat)
  read  : Nat → Instr

/-- Gaffer rows (R100, R101): the fixed bits of each word, and its reading. -/
noncomputable def gafferRows : List Row32 := [
  Row32.mk [(26, 6, 1), (0, 18, 0)] (fun w => .cmov (fld 4 22 w) (fld 4 18 w)),
  Row32.mk [(26, 6, 2)] (fun w => .cmovImm (fld 4 22 w) (fld 4 18 w) (fld 18 0 w)),
  Row32.mk [(26, 6, 3), (0, 14, 0)] (fun w => .cadd (fld 4 22 w) (fld 4 18 w) (fld 4 14 w)),
  Row32.mk [(26, 6, 4)] (fun w => .caddImm (fld 4 22 w) (fld 4 18 w) (fld 18 0 w)),
  Row32.mk [(26, 6, 5), (0, 14, 0)] (fun w => .csub (fld 4 22 w) (fld 4 18 w) (fld 4 14 w)),
  Row32.mk [(26, 6, 6)] (fun w => .csubImm (fld 4 22 w) (fld 4 18 w) (fld 18 0 w)),
  Row32.mk [(26, 6, 7), (0, 14, 0)] (fun w => .cand (fld 4 22 w) (fld 4 18 w) (fld 4 14 w)),
  Row32.mk [(26, 6, 8)] (fun w => .candImm (fld 4 22 w) (fld 4 18 w) (fld 18 0 w)),
  Row32.mk [(26, 6, 9), (0, 14, 0)] (fun w => .cor (fld 4 22 w) (fld 4 18 w) (fld 4 14 w)),
  Row32.mk [(26, 6, 0xa)] (fun w => .corImm (fld 4 22 w) (fld 4 18 w) (fld 18 0 w)),
  Row32.mk [(26, 6, 0xb), (0, 14, 0)] (fun w => .cshl (fld 4 22 w) (fld 4 18 w) (fld 4 14 w)),
  Row32.mk [(26, 6, 0xc)] (fun w => .cshlImm (fld 4 22 w) (fld 4 18 w) (fld 18 0 w)),
  Row32.mk [(26, 6, 0xd), (0, 14, 0)] (fun w => .ccmp (fld 4 22 w) (fld 4 18 w) (fld 4 14 w)),
  Row32.mk [(26, 6, 0xe)] (fun w => .ccmpImm (fld 4 22 w) (fld 4 18 w) (fld 18 0 w)),
  Row32.mk [(26, 6, 0xf)] (fun w => .cbr (fld 4 22 w) (fld 4 18 w) (fld 18 0 w)),
  Row32.mk [(26, 6, 0x10), (18, 8, 0)] (fun w => .cjmp (fld 18 0 w)),
  Row32.mk [(26, 6, 0x11), (18, 8, 0)] (fun w => .ccall (fld 18 0 w)),
  Row32.mk [(26, 6, 0x12), (0, 26, 0)] (fun _ => .cret),
  Row32.mk [(26, 6, 0x13)] (fun w => .cld (fld 4 22 w) (fld 4 18 w) (fld 1 17 w) (fld 17 0 w)),
  Row32.mk [(26, 6, 0x14)] (fun w => .cst (fld 4 22 w) (fld 4 18 w) (fld 1 17 w) (fld 17 0 w)),
  Row32.mk [(26, 6, 0x15), (0, 22, 0)] (fun w => .ctime (fld 4 22 w)),
  Row32.mk [(26, 6, 0x16), (0, 26, 0)] (fun _ => .chalt),
  Row32.mk [(26, 6, 0x20), (0, 18, 0)] (fun w => .creq (fld 4 22 w) (fld 4 18 w)),
  Row32.mk [(26, 6, 0x21), (0, 14, 0)] (fun w => .cawait (fld 4 22 w) (fld 4 18 w) (fld 4 14 w)),
  Row32.mk [(26, 6, 0x22), (0, 18, 0)] (fun w => .cstat (fld 4 22 w) (fld 4 18 w)),
  Row32.mk [(26, 6, 0x23), (0, 14, 0)] (fun w => .cbind (fld 4 22 w) (fld 4 18 w) (fld 4 14 w)),
  Row32.mk [(26, 6, 0x24), (0, 18, 0)] (fun w => .crel (fld 4 22 w) (fld 4 18 w)),
  Row32.mk [(26, 6, 0x25), (0, 18, 0)] (fun w => .ctear (fld 4 22 w) (fld 4 18 w)),
  Row32.mk [(26, 6, 0x26), (0, 14, 0)] (fun w => .cpre (fld 4 22 w) (fld 4 18 w) (fld 4 14 w)),
  Row32.mk [(26, 6, 0x27), (0, 14, 0)] (fun w => .cgate (fld 4 22 w) (fld 4 18 w) (fld 4 14 w)),
  Row32.mk [(26, 6, 0x28), (0, 18, 0)] (fun w => .cslot (fld 4 22 w) (fld 4 18 w)),
  Row32.mk [(26, 6, 0x29), (0, 18, 0)] (fun w => .cver (fld 4 22 w) (fld 4 18 w)),
  Row32.mk [(26, 6, 0x2a), (0, 18, 0)] (fun w => .crtt (fld 4 22 w) (fld 4 18 w)),
  Row32.mk [(26, 6, 0x2b), (0, 14, 0)] (fun w => .cnote (fld 4 22 w) (fld 4 18 w) (fld 4 14 w)),
  Row32.mk [(26, 6, 0x2c), (0, 18, 0)] (fun w => .cwait (fld 4 22 w) (fld 4 18 w))]

/-- Scalar rows (R344 to R349): the fixed bits of each word, and its reading. The all-zero word stands first (R348). -/
noncomputable def scalarRows : List Row32 := [
  Row32.mk [(25, 7, 0), (0, 25, 0)] (fun _ => .snop),
  Row32.mk [(25, 7, 0), (0, 7, 0)] (fun w => .sadd (fld 6 19 w) (fld 6 13 w) (fld 6 7 w)),
  Row32.mk [(25, 7, 1), (0, 7, 0)] (fun w => .ssub (fld 6 19 w) (fld 6 13 w) (fld 6 7 w)),
  Row32.mk [(25, 7, 2), (0, 7, 0)] (fun w => .sadc (fld 6 19 w) (fld 6 13 w) (fld 6 7 w)),
  Row32.mk [(25, 7, 3), (0, 7, 0)] (fun w => .ssbc (fld 6 19 w) (fld 6 13 w) (fld 6 7 w)),
  Row32.mk [(25, 7, 4), (0, 7, 0)] (fun w => .smul (fld 6 19 w) (fld 6 13 w) (fld 6 7 w)),
  Row32.mk [(25, 7, 5), (1, 6, 0)] (fun w => .smulh (fld 6 19 w) (fld 6 13 w) (fld 6 7 w) (fld 1 0 w)),
  Row32.mk [(25, 7, 6), (1, 6, 0)] (fun w => .sdiv (fld 6 19 w) (fld 6 13 w) (fld 6 7 w) (fld 1 0 w)),
  Row32.mk [(25, 7, 7), (1, 6, 0)] (fun w => .srem (fld 6 19 w) (fld 6 13 w) (fld 6 7 w) (fld 1 0 w)),
  Row32.mk [(25, 7, 8), (0, 7, 0)] (fun w => .sand (fld 6 19 w) (fld 6 13 w) (fld 6 7 w)),
  Row32.mk [(25, 7, 9), (0, 7, 0)] (fun w => .sor (fld 6 19 w) (fld 6 13 w) (fld 6 7 w)),
  Row32.mk [(25, 7, 0xa), (0, 7, 0)] (fun w => .sxor (fld 6 19 w) (fld 6 13 w) (fld 6 7 w)),
  Row32.mk [(25, 7, 0xb), (0, 7, 0)] (fun w => .sandn (fld 6 19 w) (fld 6 13 w) (fld 6 7 w)),
  Row32.mk [(25, 7, 0xc), (0, 7, 0)] (fun w => .sshl (fld 6 19 w) (fld 6 13 w) (fld 6 7 w)),
  Row32.mk [(25, 7, 0xd), (0, 7, 0)] (fun w => .sshr (fld 6 19 w) (fld 6 13 w) (fld 6 7 w)),
  Row32.mk [(25, 7, 0xe), (0, 7, 0)] (fun w => .ssra (fld 6 19 w) (fld 6 13 w) (fld 6 7 w)),
  Row32.mk [(25, 7, 0xf), (0, 7, 0)] (fun w => .srol (fld 6 19 w) (fld 6 13 w) (fld 6 7 w)),
  Row32.mk [(25, 7, 0x10), (1, 6, 0)] (fun w => .smin (fld 6 19 w) (fld 6 13 w) (fld 6 7 w) (fld 1 0 w)),
  Row32.mk [(25, 7, 0x11), (1, 6, 0)] (fun w => .smax (fld 6 19 w) (fld 6 13 w) (fld 6 7 w) (fld 1 0 w)),
  Row32.mk [(25, 7, 0x12), (0, 13, 0)] (fun w => .sclz (fld 6 19 w) (fld 6 13 w)),
  Row32.mk [(25, 7, 0x12), (0, 13, 1)] (fun w => .spopc (fld 6 19 w) (fld 6 13 w)),
  Row32.mk [(25, 7, 0x12), (0, 13, 2)] (fun w => .sbrev (fld 6 19 w) (fld 6 13 w)),
  Row32.mk [(25, 7, 0x13), (1, 6, 0)] (fun w => .scmp (fld 6 19 w) (fld 6 13 w) (fld 6 7 w) (fld 1 0 w)),
  Row32.mk [(26, 6, 0xa)] (fun w => .slhi (fld 1 25 w) (fld 6 19 w) (fld 19 0 w)),
  Row32.mk [(25, 7, 0x16), (6, 1, 0)] (fun w => .ssel (fld 6 19 w) (fld 6 13 w) (fld 6 7 w) (fld 6 0 w)),
  Row32.mk [(25, 7, 0x17), (4, 3, 0)] (fun w => .slea (fld 6 19 w) (fld 6 13 w) (fld 6 7 w) (fld 1 3 w) (fld 3 0 w)),
  Row32.mk [(25, 7, 0x18)] (fun w => .saddImm (fld 6 19 w) (fld 6 13 w) (fld 13 0 w)),
  Row32.mk [(25, 7, 0x19)] (fun w => .sandImm (fld 6 19 w) (fld 6 13 w) (fld 13 0 w)),
  Row32.mk [(25, 7, 0x1a)] (fun w => .sorImm (fld 6 19 w) (fld 6 13 w) (fld 13 0 w)),
  Row32.mk [(25, 7, 0x1b)] (fun w => .sxorImm (fld 6 19 w) (fld 6 13 w) (fld 13 0 w)),
  Row32.mk [(25, 7, 0x1c), (5, 8, 0)] (fun w => .sshlImm (fld 6 19 w) (fld 6 13 w) (fld 5 0 w)),
  Row32.mk [(25, 7, 0x1c), (5, 8, 1)] (fun w => .sshrImm (fld 6 19 w) (fld 6 13 w) (fld 5 0 w)),
  Row32.mk [(25, 7, 0x1c), (5, 8, 2)] (fun w => .ssraImm (fld 6 19 w) (fld 6 13 w) (fld 5 0 w)),
  Row32.mk [(25, 7, 0x1c), (5, 8, 3)] (fun w => .srolImm (fld 6 19 w) (fld 6 13 w) (fld 5 0 w)),
  Row32.mk [(25, 7, 0x1d)] (fun w => .smulImm (fld 6 19 w) (fld 6 13 w) (fld 13 0 w)),
  Row32.mk [(25, 7, 0x1e)] (fun w => .scmpImm (fld 6 19 w) (fld 6 13 w) (fld 13 0 w)),
  Row32.mk [(25, 7, 0x20)] (fun w => .sld (fld 6 19 w) (fld 6 13 w) (fld 2 11 w) (fld 2 9 w) (fld 2 7 w) (fld 3 4 w) (fld 4 0 w)),
  Row32.mk [(25, 7, 0x21)] (fun w => .sst (fld 6 19 w) (fld 6 13 w) (fld 2 11 w) (fld 2 9 w) (fld 2 7 w) (fld 3 4 w) (fld 4 0 w)),
  Row32.mk [(25, 7, 0x22)] (fun w => .sldk (fld 6 19 w) (fld 6 13 w) (fld 13 0 w)),
  Row32.mk [(25, 7, 0x23)] (fun w => .satom (fld 6 19 w) (fld 6 13 w) (fld 2 11 w) (fld 2 9 w) (fld 2 7 w) (fld 3 4 w) (fld 4 0 w)),
  Row32.mk [(25, 7, 0x30)] (fun w => .sbr (fld 6 19 w) (fld 6 13 w) (fld 3 10 w) (fld 10 0 w)),
  Row32.mk [(25, 7, 0x31)] (fun w => .sjmp (fld 25 0 w)),
  Row32.mk [(25, 7, 0x32), (19, 6, 0), (0, 13, 0)] (fun w => .sjmpx (fld 6 13 w)),
  Row32.mk [(25, 7, 0x33)] (fun w => .scall (fld 25 0 w)),
  Row32.mk [(25, 7, 0x34), (19, 6, 0), (0, 13, 0)] (fun w => .sret (fld 6 13 w)),
  Row32.mk [(25, 7, 0x35)] (fun w => .split (fld 6 19 w) (fld 9 10 w) (fld 10 0 w)),
  Row32.mk [(25, 7, 0x36), (0, 25, 0)] (fun _ => .syield),
  Row32.mk [(25, 7, 0x37), (0, 25, 0)] (fun _ => .sexit),
  Row32.mk [(25, 7, 0x38)] (fun w => .lrun (fld 3 22 w) (fld 6 16 w) (fld 16 0 w)),
  Row32.mk [(25, 7, 0x39), (19, 6, 0), (3, 4, 0)] (fun w => .lrunx (fld 6 13 w) (fld 6 7 w) (fld 3 0 w)),
  Row32.mk [(25, 7, 0x3a), (3, 16, 0)] (fun w => .sgetx (fld 6 19 w) (fld 3 0 w)),
  Row32.mk [(25, 7, 0x3b), (12, 13, 0)] (fun w => .swaitf (fld 12 0 w)),
  Row32.mk [(25, 7, 0x3c), (13, 12, 0), (6, 4, 0)] (fun w => .swaitc (fld 3 10 w) (fld 6 0 w)),
  Row32.mk [(25, 7, 0x40), (12, 7, 0)] (fun w => .bara (fld 6 19 w) (fld 6 6 w) (fld 6 0 w)),
  Row32.mk [(25, 7, 0x41), (19, 6, 0), (6, 7, 0)] (fun w => .barw (fld 6 13 w) (fld 6 0 w)),
  Row32.mk [(25, 7, 0x42), (0, 25, 0)] (fun _ => .phend),
  Row32.mk [(25, 7, 0x43)] (fun w => .txb (fld 25 0 w)),
  Row32.mk [(25, 7, 0x44), (0, 25, 0)] (fun _ => .txc),
  Row32.mk [(25, 7, 0x45), (0, 25, 0)] (fun _ => .txr),
  Row32.mk [(25, 7, 0x46)] (fun w => .txalt (fld 25 0 w)),
  Row32.mk [(25, 7, 0x47), (8, 17, 0)] (fun w => .txa (fld 8 0 w)),
  Row32.mk [(25, 7, 0x48), (4, 21, 0)] (fun w => .fence (fld 1 3 w) (fld 3 0 w)),
  Row32.mk [(25, 7, 0x50), (19, 6, 0), (3, 10, 0)] (fun w => .xcopy (fld 6 13 w) (fld 3 0 w)),
  Row32.mk [(25, 7, 0x51), (19, 6, 0), (3, 10, 0)] (fun w => .xgath (fld 6 13 w) (fld 3 0 w)),
  Row32.mk [(25, 7, 0x52), (19, 6, 0), (3, 10, 0)] (fun w => .xcoll (fld 6 13 w) (fld 3 0 w)),
  Row32.mk [(25, 7, 0x53), (19, 6, 0), (4, 9, 0)] (fun w => .xsend (fld 6 13 w) (fld 1 3 w) (fld 3 0 w)),
  Row32.mk [(25, 7, 0x60), (0, 7, 0)] (fun w => .launch (fld 6 19 w) (fld 6 13 w) (fld 6 7 w)),
  Row32.mk [(25, 7, 0x61), (19, 6, 0), (0, 7, 0)] (fun w => .sigq (fld 6 13 w) (fld 6 7 w)),
  Row32.mk [(25, 7, 0x62), (13, 12, 0)] (fun w => .trap (fld 13 0 w)),
  Row32.mk [(25, 7, 0x63), (0, 19, 0)] (fun w => .time (fld 6 19 w)),
  Row32.mk [(25, 7, 0x64), (0, 19, 0)] (fun w => .cyc (fld 6 19 w)),
  Row32.mk [(25, 7, 0x65), (6, 13, 0)] (fun w => .srsr (fld 6 19 w) (fld 6 0 w)),
  Row32.mk [(25, 7, 0x66), (19, 6, 0), (6, 7, 0)] (fun w => .swsr (fld 6 13 w) (fld 6 0 w)),
  Row32.mk [(25, 7, 0x67), (13, 12, 0)] (fun w => .brk (fld 13 0 w)),
  Row32.mk [(25, 7, 0x68), (19, 6, 0), (0, 13, 0)] (fun w => .burst (fld 6 13 w)),
  Row32.mk [(25, 7, 0x69), (0, 25, 0)] (fun _ => .burstx),
  Row32.mk [(25, 7, 0x6a), (19, 6, 0), (0, 13, 0)] (fun w => .perfl (fld 6 13 w))]

/-- The lane opcodes of the formats L-R and L-X (R362). -/
def lrRows : List (Nat × (LaneCtl → LR → Instr)) := [
  (0x000, .vadd),
  (0x001, .vsub),
  (0x002, .vadd3),
  (0x003, .vmul),
  (0x004, .vmulh),
  (0x005, .vmad),
  (0x006, .vmadw),
  (0x007, .vmin),
  (0x008, .vmax),
  (0x009, .vabs),
  (0x00A, .vneg),
  (0x00B, .vand),
  (0x00C, .vor),
  (0x00D, .vxor),
  (0x00E, .vlop3),
  (0x00F, .vshl),
  (0x010, .vshr),
  (0x011, .vsra),
  (0x012, .vshf),
  (0x013, .vbfx),
  (0x014, .vbfi),
  (0x015, .vclz),
  (0x016, .vpopc),
  (0x017, .vbrev),
  (0x018, .vcmp),
  (0x019, .vsel),
  (0x01A, .vmov),
  (0x01B, .vlea),
  (0x080, .vadd2),
  (0x081, .vsub2),
  (0x082, .vmul2),
  (0x083, .vmac2),
  (0x084, .vsat),
  (0x085, .vshrr),
  (0x086, .vdot4),
  (0x087, .vdot8),
  (0x088, .vdott),
  (0x100, .vfadd),
  (0x101, .vfsub),
  (0x102, .vfmul),
  (0x103, .vfma),
  (0x104, .vfmin),
  (0x105, .vfmax),
  (0x106, .vfabs),
  (0x107, .vfcmp),
  (0x108, .vfclass),
  (0x109, .vfrnd),
  (0x10A, .vfdiv),
  (0x10B, .vfsqrt),
  (0x10C, .vfrcp),
  (0x10D, .vfrsq),
  (0x10E, .vfex2),
  (0x10F, .vflg2),
  (0x110, .vfsin),
  (0x111, .vfcos),
  (0x112, .vftanh),
  (0x113, .vhfma2),
  (0x114, .vhadd2),
  (0x115, .vhmul2),
  (0x1C0, .vcvt),
  (0x1C1, .vpack),
  (0x1C2, .vunpk),
  (0x1C3, .vqnt),
  (0x1C4, .vdqnt),
  (0x200, .vslide),
  (0x201, .vshfl),
  (0x202, .vbcast),
  (0x203, .vscan),
  (0x204, .vred),
  (0x205, .vballot),
  (0x206, .vput),
  (0x210, .glop),
  (0x211, .gmov),
  (0x220, .vrand),
  (0x243, .vatomCas),
  (0x280, .vorgld),
  (0x281, .vorgst),
  (0x282, .vresume),
  (0x2C0, .mma),
  (0x2C1, .mmasp),
  (0x2E0, .tsweep),
  (0x2E1, .tcvt),
  (0x2E2, .tred),
  (0x2E3, .tscan)]

/-- The lane opcodes of the format L-I (R362). -/
def liRows : List (Nat × (LaneCtl → LI → Instr)) := [
  (0x040, .vaddI),
  (0x041, .vsubI),
  (0x043, .vmulI),
  (0x045, .vmadI),
  (0x047, .vminI),
  (0x048, .vmaxI),
  (0x04B, .vandI),
  (0x04C, .vorI),
  (0x04D, .vxorI),
  (0x04E, .vlop3I),
  (0x04F, .vshlI),
  (0x050, .vshrI),
  (0x051, .vsraI),
  (0x058, .vcmpI),
  (0x059, .vselI),
  (0x05A, .vmovI),
  (0x0C0, .vadd2I),
  (0x0C1, .vsub2I),
  (0x0C2, .vmul2I),
  (0x0C5, .vshrrI),
  (0x160, .vfaddI),
  (0x161, .vfsubI),
  (0x162, .vfmulI),
  (0x163, .vfmaI),
  (0x164, .vfminI),
  (0x165, .vfmaxI),
  (0x167, .vfcmpI),
  (0x208, .vslideI),
  (0x209, .vbcastI)]

/-- The lane opcodes of the format L-M (R362). -/
def lmRows : List (Nat × (LaneCtl → LM → Instr)) := [
  (0x240, .vld),
  (0x241, .vst),
  (0x242, .vatom),
  (0x244, .vredm),
  (0x245, .vpref)]

/-- A word has the value of every fixed field. -/
def hasFields (w : Nat) : List (Nat × Nat × Nat) → Bool
  | [] => true
  | (lo, n, v) :: rest => (w >>> lo) % 2 ^ n == v && hasFields w rest

/-- The first row whose fixed bits the word has. -/
def findRow (w : Nat) : List Row32 → Option Instr
  | [] => none
  | r :: rest => if hasFields w r.fixed then some (r.read w) else findRow w rest

/-- A row's reading, refused where the fields break a rule of their entry. -/
def checked (o : Option Instr) : Option Instr :=
  match o with
  | some i => if i.wf then some i else none
  | none => none

/-- A gaffer word (R100, R101); none is ILLEGAL. -/
noncomputable def decodeGaffer (w : Nat) : Option Instr := checked (findRow w gafferRows)

/-- A scalar word (R344 to R349); none is ILLEGAL (R348). -/
noncomputable def decodeScalar (w : Nat) : Option Instr := checked (findRow w scalarRows)

/-- The fields of a step word (R127). -/
def readStep (w : Nat) : Step :=
  { ci := bitAt 57 w, ls := bitAt 56 w, dbl := bitAt 55 w, pk := fld 2 50 w, pv := fld 10 40 w, buf := fld 8 32 w,
    cnt := fld 32 0 w }

/-- The step that an opcode and the EV bit name (R127). -/
def stepOf (opc : Nat) (ev : Bool) (f : Step) : Option Instr :=
  match opc, ev with
  | 1, false => some (.send f)
  | 2, false => some (.recv f)
  | 3, false => some (.rrs f)
  | 4, false => some (.rrd f)
  | 5, false => some (.copy f)
  | 6, false => some (.bcast f)
  | 7, false => some (.wait f)
  | 7, true => some (.waitEv f)
  | 8, false => some (.loop f)
  | 9, false => some (.endl f)
  | 10, false => some (.peer f)
  | 11, false => some (.setop f)
  | 12, false => some (.setch f)
  | 13, false => some (.notify f)
  | 14, false => some (.done f)
  | _, _ => none

/-- A collective step word (R127), with the checks of R126 that need no more than the word. -/
def decodeStep (w : Nat) : Option Instr :=
  if (w >>> 53) % 4 == 0 then checked (stepOf ((w >>> 58) % 64) (bitAt 52 w) (readStep w)) else none

/-- The word of a collective step (R127). -/
def encodeStep (opc : Nat) (ev : Bool) (f : Step) : Nat :=
  opc <<< 58 + putb 57 f.ci + putb 56 f.ls + putb 55 f.dbl + putb 52 ev + put 50 f.pk + put 40 f.pv + put 32 f.buf +
    put 0 f.cnt

/-- The fields that every lane word carries (R350). -/
def readCtl (w : Nat) : LaneCtl :=
  { pneg := bitAt 85 w, pidx := fld 4 81 w, qneg := bitAt 80 w, qidx := fld 4 76 w, look := fld 3 73 w,
    cede := bitAt 72 w, free := fld 4 68 w, sf := fld 4 64 w, ch := fld 3 61 w }

/-- The operand fields of L-R and L-X (R350). -/
def readLR (w : Nat) : LR :=
  { d := fld 9 52 w, a := fld 9 43 w, b := fld 9 34 w, c := fld 9 25 w, e := fld 9 16 w, modf := fld 16 0 w }

/-- The fields of L-I (R352). -/
def readLI (w : Nat) : LI :=
  { d := fld 9 52 w, a := fld 9 43 w, b := fld 9 34 w, im := fld 2 32 w, imm := fld 32 0 w }

/-- The fields of L-M (R352). -/
def readLM (w : Nat) : LM :=
  { d := fld 9 52 w, a := fld 9 43 w, b := fld 9 34 w, off := fld 18 16 w, modf := fld 16 0 w }

/-- The entry of an opcode in a list of lane opcodes. -/
def findOp {α : Type} (opc : Nat) : List (Nat × α) → Option α
  | [] => none
  | (k, f) :: rest => if opc == k then some f else findOp opc rest

/-- A lane word read without its legality check: none where the opcode is unassigned (R362). -/
def readLane (w : Nat) : Option Instr :=
  let opc := w >>> 86
  match findOp opc lrRows with
  | some f => some (f (readCtl w) (readLR w))
  | none =>
    match findOp opc liRows with
    | some f => some (f (readCtl w) (readLI w))
    | none =>
      match findOp opc lmRows with
      | some f => some (f (readCtl w) (readLM w))
      | none => none

/-- A lane word in a wave of `nr` lane registers (R358). -/
def decodeLaneIn (nr w : Nat) : Option Instr :=
  match readLane w with
  | some i => if Machine.legalIn nr i then some i else none
  | none => none

/-- A lane word in a wave with all 256 lane registers. -/
def decodeLane (w : Nat) : Option Instr := decodeLaneIn 256 w

/-- A clause header (R356): none where its opcode is not 0x3FF, a reserved bit is set, or SETA or SETB is in 12 to 14
(R358). -/
def decodeHeader (w : Nat) : Option ClauseHeader :=
  let h : ClauseHeader := { lenm1 := fld 4 82 w, wait := fld 12 70 w, seta := fld 4 66 w, setb := fld 4 62 w }
  let okSet (x : BitVec 4) : Bool := decide (x.toNat ≤ 11) || x == 15
  if w >>> 86 == 0x3FF && w % 0x4000000000000000 == 0 && okSet h.seta && okSet h.setb then some h else none

/-- The word of a clause header. -/
def encodeHeader (h : ClauseHeader) : Nat :=
  0x3FF <<< 86 + put 82 h.lenm1 + put 70 h.wait + put 66 h.seta + put 62 h.setb

/-- The common lane fields of a word (R350). -/
def encodeCtl (opc : Nat) (c : LaneCtl) : Nat :=
  opc <<< 86 + putb 85 c.pneg + put 81 c.pidx + putb 80 c.qneg + put 76 c.qidx + put 73 c.look + putb 72 c.cede +
    put 68 c.free + put 64 c.sf + put 61 c.ch

def encodeLR (opc : Nat) (c : LaneCtl) (r : LR) : Nat :=
  encodeCtl opc c + put 52 r.d + put 43 r.a + put 34 r.b + put 25 r.c + put 16 r.e + put 0 r.modf

def encodeLI (opc : Nat) (c : LaneCtl) (r : LI) : Nat :=
  encodeCtl opc c + put 52 r.d + put 43 r.a + put 34 r.b + put 32 r.im + put 0 r.imm

def encodeLM (opc : Nat) (c : LaneCtl) (r : LM) : Nat :=
  encodeCtl opc c + put 52 r.d + put 43 r.a + put 34 r.b + put 16 r.off + put 0 r.modf

/-- The words of an instruction that has an encoding, as one number with bit 0 of the first word lowest, from the
encoding tables (R100, R127, R344, R350 to R353); none for an event. -/
def encode : Instr → Option Nat
  | .cmov d a => some (0x04000000 + put 22 d + put 18 a)
  | .cmovImm d n i => some (0x08000000 + put 22 d + put 18 n + put 0 i)
  | .cadd d a b => some (0x0C000000 + put 22 d + put 18 a + put 14 b)
  | .caddImm d a i => some (0x10000000 + put 22 d + put 18 a + put 0 i)
  | .csub d a b => some (0x14000000 + put 22 d + put 18 a + put 14 b)
  | .csubImm d a i => some (0x18000000 + put 22 d + put 18 a + put 0 i)
  | .cand d a b => some (0x1C000000 + put 22 d + put 18 a + put 14 b)
  | .candImm d a i => some (0x20000000 + put 22 d + put 18 a + put 0 i)
  | .cor d a b => some (0x24000000 + put 22 d + put 18 a + put 14 b)
  | .corImm d a i => some (0x28000000 + put 22 d + put 18 a + put 0 i)
  | .cshl d a b => some (0x2C000000 + put 22 d + put 18 a + put 14 b)
  | .cshlImm d a i => some (0x30000000 + put 22 d + put 18 a + put 0 i)
  | .ccmp d a b => some (0x34000000 + put 22 d + put 18 a + put 14 b)
  | .ccmpImm d a i => some (0x38000000 + put 22 d + put 18 a + put 0 i)
  | .cbr d c i => some (0x3C000000 + put 22 d + put 18 c + put 0 i)
  | .cjmp i => some (0x40000000 + put 0 i)
  | .ccall i => some (0x44000000 + put 0 i)
  | .cret => some (0x48000000)
  | .cld d a s p => some (0x4C000000 + put 22 d + put 18 a + put 17 s + put 0 p)
  | .cst d a s p => some (0x50000000 + put 22 d + put 18 a + put 17 s + put 0 p)
  | .ctime d => some (0x54000000 + put 22 d)
  | .chalt => some (0x58000000)
  | .creq d a => some (0x80000000 + put 22 d + put 18 a)
  | .cawait d a b => some (0x84000000 + put 22 d + put 18 a + put 14 b)
  | .cstat d a => some (0x88000000 + put 22 d + put 18 a)
  | .cbind d a b => some (0x8C000000 + put 22 d + put 18 a + put 14 b)
  | .crel d a => some (0x90000000 + put 22 d + put 18 a)
  | .ctear d a => some (0x94000000 + put 22 d + put 18 a)
  | .cpre d a b => some (0x98000000 + put 22 d + put 18 a + put 14 b)
  | .cgate d a b => some (0x9C000000 + put 22 d + put 18 a + put 14 b)
  | .cslot d a => some (0xA0000000 + put 22 d + put 18 a)
  | .cver d a => some (0xA4000000 + put 22 d + put 18 a)
  | .crtt d a => some (0xA8000000 + put 22 d + put 18 a)
  | .cnote d a b => some (0xAC000000 + put 22 d + put 18 a + put 14 b)
  | .cwait d a => some (0xB0000000 + put 22 d + put 18 a)
  | .snop => some (0x00000000)
  | .sadd d a b => some (0x00000000 + put 19 d + put 13 a + put 7 b)
  | .ssub d a b => some (0x02000000 + put 19 d + put 13 a + put 7 b)
  | .sadc d a b => some (0x04000000 + put 19 d + put 13 a + put 7 b)
  | .ssbc d a b => some (0x06000000 + put 19 d + put 13 a + put 7 b)
  | .smul d a b => some (0x08000000 + put 19 d + put 13 a + put 7 b)
  | .smulh d a b u => some (0x0A000000 + put 19 d + put 13 a + put 7 b + put 0 u)
  | .sdiv d a b u => some (0x0C000000 + put 19 d + put 13 a + put 7 b + put 0 u)
  | .srem d a b u => some (0x0E000000 + put 19 d + put 13 a + put 7 b + put 0 u)
  | .sand d a b => some (0x10000000 + put 19 d + put 13 a + put 7 b)
  | .sor d a b => some (0x12000000 + put 19 d + put 13 a + put 7 b)
  | .sxor d a b => some (0x14000000 + put 19 d + put 13 a + put 7 b)
  | .sandn d a b => some (0x16000000 + put 19 d + put 13 a + put 7 b)
  | .sshl d a b => some (0x18000000 + put 19 d + put 13 a + put 7 b)
  | .sshr d a b => some (0x1A000000 + put 19 d + put 13 a + put 7 b)
  | .ssra d a b => some (0x1C000000 + put 19 d + put 13 a + put 7 b)
  | .srol d a b => some (0x1E000000 + put 19 d + put 13 a + put 7 b)
  | .smin d a b u => some (0x20000000 + put 19 d + put 13 a + put 7 b + put 0 u)
  | .smax d a b u => some (0x22000000 + put 19 d + put 13 a + put 7 b + put 0 u)
  | .sclz d a => some (0x24000000 + put 19 d + put 13 a)
  | .spopc d a => some (0x24000001 + put 19 d + put 13 a)
  | .sbrev d a => some (0x24000002 + put 19 d + put 13 a)
  | .scmp d a b u => some (0x26000000 + put 19 d + put 13 a + put 7 b + put 0 u)
  | .slhi h d i => some (0x28000000 + put 25 h + put 19 d + put 0 i)
  | .ssel d a b c => some (0x2C000000 + put 19 d + put 13 a + put 7 b + put 0 c)
  | .slea d a b s n => some (0x2E000000 + put 19 d + put 13 a + put 7 b + put 3 s + put 0 n)
  | .saddImm d a i => some (0x30000000 + put 19 d + put 13 a + put 0 i)
  | .sandImm d a i => some (0x32000000 + put 19 d + put 13 a + put 0 i)
  | .sorImm d a i => some (0x34000000 + put 19 d + put 13 a + put 0 i)
  | .sxorImm d a i => some (0x36000000 + put 19 d + put 13 a + put 0 i)
  | .sshlImm d a n => some (0x38000000 + put 19 d + put 13 a + put 0 n)
  | .sshrImm d a n => some (0x38000020 + put 19 d + put 13 a + put 0 n)
  | .ssraImm d a n => some (0x38000040 + put 19 d + put 13 a + put 0 n)
  | .srolImm d a n => some (0x38000060 + put 19 d + put 13 a + put 0 n)
  | .smulImm d a i => some (0x3A000000 + put 19 d + put 13 a + put 0 i)
  | .scmpImm d a i => some (0x3C000000 + put 19 d + put 13 a + put 0 i)
  | .sld d a z p o s f => some (0x40000000 + put 19 d + put 13 a + put 11 z + put 9 p + put 7 o + put 4 s + put 0 f)
  | .sst d a z p o s f => some (0x42000000 + put 19 d + put 13 a + put 11 z + put 9 p + put 7 o + put 4 s + put 0 f)
  | .sldk d a i => some (0x44000000 + put 19 d + put 13 a + put 0 i)
  | .satom d a z p o s x => some (0x46000000 + put 19 d + put 13 a + put 11 z + put 9 p + put 7 o + put 4 s + put 0 x)
  | .sbr a b c o => some (0x60000000 + put 19 a + put 13 b + put 10 c + put 0 o)
  | .sjmp o => some (0x62000000 + put 0 o)
  | .sjmpx a => some (0x64000000 + put 13 a)
  | .scall o => some (0x66000000 + put 0 o)
  | .sret a => some (0x68000000 + put 13 a)
  | .split m j t => some (0x6A000000 + put 19 m + put 10 j + put 0 t)
  | .syield => some (0x6C000000)
  | .sexit => some (0x6E000000)
  | .lrun n a c => some (0x70000000 + put 22 n + put 16 a + put 0 c)
  | .lrunx a b n => some (0x72000000 + put 13 a + put 7 b + put 0 n)
  | .sgetx d k => some (0x74000000 + put 19 d + put 0 k)
  | .swaitf m => some (0x76000000 + put 0 m)
  | .swaitc c n => some (0x78000000 + put 10 c + put 0 n)
  | .bara d n b => some (0x80000000 + put 19 d + put 6 n + put 0 b)
  | .barw a b => some (0x82000000 + put 13 a + put 0 b)
  | .phend => some (0x84000000)
  | .txb o => some (0x86000000 + put 0 o)
  | .txc => some (0x88000000)
  | .txr => some (0x8A000000)
  | .txalt o => some (0x8C000000 + put 0 o)
  | .txa c => some (0x8E000000 + put 0 c)
  | .fence h s => some (0x90000000 + put 3 h + put 0 s)
  | .xcopy a s => some (0xA0000000 + put 13 a + put 0 s)
  | .xgath a s => some (0xA2000000 + put 13 a + put 0 s)
  | .xcoll a s => some (0xA4000000 + put 13 a + put 0 s)
  | .xsend a c s => some (0xA6000000 + put 13 a + put 3 c + put 0 s)
  | .launch d a b => some (0xC0000000 + put 19 d + put 13 a + put 7 b)
  | .sigq a b => some (0xC2000000 + put 13 a + put 7 b)
  | .trap i => some (0xC4000000 + put 0 i)
  | .time d => some (0xC6000000 + put 19 d)
  | .cyc d => some (0xC8000000 + put 19 d)
  | .srsr d c => some (0xCA000000 + put 19 d + put 0 c)
  | .swsr a c => some (0xCC000000 + put 13 a + put 0 c)
  | .brk i => some (0xCE000000 + put 0 i)
  | .burst a => some (0xD0000000 + put 13 a)
  | .burstx => some (0xD2000000)
  | .perfl a => some (0xD4000000 + put 13 a)
  | .powerOn _ => none
  | .modrstNAssert _ => none
  | .failedStart _ => none
  | .uvwarn => none
  | .inputShutdown => none
  | .ovoff => none
  | .inputReconnect _ => none
  | .pwrcapLower => none
  | .pwrcapRaise => none
  | .elsRemove _ => none
  | .elsInsert _ _ => none
  | .flashCommit => none
  | .patrolScrub _ => none
  | .softError _ => none
  | .opctlTargetWrite _ _ => none
  | .opctlGrpmaskWrite _ _ => none
  | .calreq _ => none
  | .clrcnt _ => none
  | .laserWakeDone _ => none
  | .lockAchieved _ _ => none
  | .handshakeLive _ => none
  | .vermis _ => none
  | .lockTimeout _ => none
  | .groupMismatch _ => none
  | .drainEnd _ => none
  | .portGated _ => none
  | .lossOfLock _ => none
  | .laserLightLoss _ => none
  | .berhigh _ _ => none
  | .flitReceive _ _ => none
  | .copyFlitWrite _ => none
  | .crucibleFlitReceive _ => none
  | .ackOnlyFlit _ => none
  | .packetForward _ _ => none
  | .creditReturn _ _ _ => none
  | .beacon _ _ => none
  | .beaconPeriod => none
  | .echoPeriod => none
  | .echoRequest _ _ => none
  | .echoReply _ _ => none
  | .echoTimeout _ => none
  | .rttcCorrection => none
  | .rsv _ _ => none
  | .ack _ _ => none
  | .circuitPortWrite _ => none
  | .deny _ _ => none
  | .rsvAttemptTimeout _ => none
  | .backoffExpiry _ => none
  | .cpreStart _ => none
  | .tear _ _ => none
  | .tack _ _ => none
  | .tearTimeout _ => none
  | .slotStart _ => none
  | .drainWindowEnd _ => none
  | .carry _ _ => none
  | .smallMessage _ _ => none
  | .versionNotice _ _ => none
  | .deliveryNack _ _ => none
  | .peerDownNotice _ _ => none
  | .messageAcknowledgement _ _ => none
  | .xsendTimeout _ => none
  | .fdidcfgWrite _ => none
  | .gwakeWrite _ _ => none
  | .gafferDeadline _ => none
  | .crctlPause _ => none
  | .instancePaused _ => none
  | .crctlResume _ => none
  | .crctlAbort _ => none
  | .instanceLoaded _ => none
  | .dataStepComplete _ _ => none
  | .stepTimeout _ => none
  | .ethernetFrame _ => none
  | .cmdPacket _ => none
  | .hostAck _ => none
  | .cplRetransmit _ => none
  | .launchCmd _ => none
  | .eventWrite _ => none
  | .eventWait _ => none
  | .eventWaitTimeout _ => none
  | .scriptStart _ => none
  | .collStart _ => none
  | .fenceCmd _ => none
  | .resolve _ => none
  | .shootdown _ => none
  | .contextCreate _ => none
  | .contextReset _ => none
  | .contextDestroy _ => none
  | .query _ => none
  | .resync _ => none
  | .rdmaWrite _ _ _ _ => none
  | .rdmaRead _ _ _ _ => none
  | .readCounters _ => none
  | .readHist _ => none
  | .clearSticky _ => none
  | .fwStage _ => none
  | .fwSwitch _ _ => none
  | .firmwareSwitchDone _ _ => none
  | .fwSwitchTimeout _ => none
  | .recal _ => none
  | .reboot _ _ => none
  | .qpSetup _ => none
  | .qpTeardown _ => none
  | .readLog _ => none
  | .mbwakeWrite _ => none
  | .qwakeWrite _ _ => none
  | .comresWrite _ _ => none
  | .pmctlReq _ => none
  | .pmctlRestore _ => none
  | .registerWrite _ _ => none
  | .recordStart _ => none
  | .dependenceWake _ => none
  | .dependenceBackoff _ _ => none
  | .blockPlace _ => none
  | .carveOutChangeDone _ => none
  | .leadPhaseStart _ _ => none
  | .completionActions _ => none
  | .commReserveFall _ => none
  | .gateSequenceStart _ => none
  | .gateSequenceEnd _ => none
  | .clusterWake _ => none
  | .calibrationPass _ => none
  | .calibrationDone _ _ _ _ => none
  | .railRaised _ => none
  | .levelSwitchDone _ => none
  | .regulatorReady _ => none
  | .burstAdmit _ => none
  | .declarationEnd _ => none
  | .throttleEnd _ => none
  | .releaseGroup _ _ => none
  | .droopAlarm _ => none
  | .halvedIssueEnd _ => none
  | .clauseStart _ _ => none
  | .longLatencyResult _ _ => none
  | .asyncRetire _ _ => none
  | .copyComplete _ => none
  | .gatherComplete _ => none
  | .matrixComplete _ => none
  | .sweepComplete _ => none
  | .wcbDrain _ _ => none
  | .fragmentWake _ _ => none
  | .watchBackoffWake _ _ => none
  | .emptyReadSetWake _ _ => none
  | .handlerLaunch _ => none
  | .watchdogExpiry _ _ => none
  | .blockSave _ _ => none
  | .preemptionDeadline _ => none
  | .restorePlace _ => none
  | .send f => some (encodeStep 1 false f)
  | .recv f => some (encodeStep 2 false f)
  | .rrs f => some (encodeStep 3 false f)
  | .rrd f => some (encodeStep 4 false f)
  | .copy f => some (encodeStep 5 false f)
  | .bcast f => some (encodeStep 6 false f)
  | .wait f => some (encodeStep 7 false f)
  | .waitEv f => some (encodeStep 7 true f)
  | .loop f => some (encodeStep 8 false f)
  | .endl f => some (encodeStep 9 false f)
  | .peer f => some (encodeStep 10 false f)
  | .setop f => some (encodeStep 11 false f)
  | .setch f => some (encodeStep 12 false f)
  | .notify f => some (encodeStep 13 false f)
  | .done f => some (encodeStep 14 false f)
  | .vadd c r => some (encodeLR 0x000 c r)
  | .vaddI c r => some (encodeLI 0x040 c r)
  | .vsub c r => some (encodeLR 0x001 c r)
  | .vsubI c r => some (encodeLI 0x041 c r)
  | .vadd3 c r => some (encodeLR 0x002 c r)
  | .vmul c r => some (encodeLR 0x003 c r)
  | .vmulI c r => some (encodeLI 0x043 c r)
  | .vmulh c r => some (encodeLR 0x004 c r)
  | .vmad c r => some (encodeLR 0x005 c r)
  | .vmadI c r => some (encodeLI 0x045 c r)
  | .vmadw c r => some (encodeLR 0x006 c r)
  | .vmin c r => some (encodeLR 0x007 c r)
  | .vminI c r => some (encodeLI 0x047 c r)
  | .vmax c r => some (encodeLR 0x008 c r)
  | .vmaxI c r => some (encodeLI 0x048 c r)
  | .vabs c r => some (encodeLR 0x009 c r)
  | .vneg c r => some (encodeLR 0x00A c r)
  | .vand c r => some (encodeLR 0x00B c r)
  | .vandI c r => some (encodeLI 0x04B c r)
  | .vor c r => some (encodeLR 0x00C c r)
  | .vorI c r => some (encodeLI 0x04C c r)
  | .vxor c r => some (encodeLR 0x00D c r)
  | .vxorI c r => some (encodeLI 0x04D c r)
  | .vlop3 c r => some (encodeLR 0x00E c r)
  | .vlop3I c r => some (encodeLI 0x04E c r)
  | .vshl c r => some (encodeLR 0x00F c r)
  | .vshlI c r => some (encodeLI 0x04F c r)
  | .vshr c r => some (encodeLR 0x010 c r)
  | .vshrI c r => some (encodeLI 0x050 c r)
  | .vsra c r => some (encodeLR 0x011 c r)
  | .vsraI c r => some (encodeLI 0x051 c r)
  | .vshf c r => some (encodeLR 0x012 c r)
  | .vbfx c r => some (encodeLR 0x013 c r)
  | .vbfi c r => some (encodeLR 0x014 c r)
  | .vclz c r => some (encodeLR 0x015 c r)
  | .vpopc c r => some (encodeLR 0x016 c r)
  | .vbrev c r => some (encodeLR 0x017 c r)
  | .vcmp c r => some (encodeLR 0x018 c r)
  | .vcmpI c r => some (encodeLI 0x058 c r)
  | .vsel c r => some (encodeLR 0x019 c r)
  | .vselI c r => some (encodeLI 0x059 c r)
  | .vmov c r => some (encodeLR 0x01A c r)
  | .vmovI c r => some (encodeLI 0x05A c r)
  | .vlea c r => some (encodeLR 0x01B c r)
  | .vadd2 c r => some (encodeLR 0x080 c r)
  | .vadd2I c r => some (encodeLI 0x0C0 c r)
  | .vsub2 c r => some (encodeLR 0x081 c r)
  | .vsub2I c r => some (encodeLI 0x0C1 c r)
  | .vmul2 c r => some (encodeLR 0x082 c r)
  | .vmul2I c r => some (encodeLI 0x0C2 c r)
  | .vmac2 c r => some (encodeLR 0x083 c r)
  | .vsat c r => some (encodeLR 0x084 c r)
  | .vshrr c r => some (encodeLR 0x085 c r)
  | .vshrrI c r => some (encodeLI 0x0C5 c r)
  | .vdot4 c r => some (encodeLR 0x086 c r)
  | .vdot8 c r => some (encodeLR 0x087 c r)
  | .vdott c r => some (encodeLR 0x088 c r)
  | .vfadd c r => some (encodeLR 0x100 c r)
  | .vfaddI c r => some (encodeLI 0x160 c r)
  | .vfsub c r => some (encodeLR 0x101 c r)
  | .vfsubI c r => some (encodeLI 0x161 c r)
  | .vfmul c r => some (encodeLR 0x102 c r)
  | .vfmulI c r => some (encodeLI 0x162 c r)
  | .vfma c r => some (encodeLR 0x103 c r)
  | .vfmaI c r => some (encodeLI 0x163 c r)
  | .vfmin c r => some (encodeLR 0x104 c r)
  | .vfminI c r => some (encodeLI 0x164 c r)
  | .vfmax c r => some (encodeLR 0x105 c r)
  | .vfmaxI c r => some (encodeLI 0x165 c r)
  | .vfabs c r => some (encodeLR 0x106 c r)
  | .vfcmp c r => some (encodeLR 0x107 c r)
  | .vfcmpI c r => some (encodeLI 0x167 c r)
  | .vfclass c r => some (encodeLR 0x108 c r)
  | .vfrnd c r => some (encodeLR 0x109 c r)
  | .vfdiv c r => some (encodeLR 0x10A c r)
  | .vfsqrt c r => some (encodeLR 0x10B c r)
  | .vfrcp c r => some (encodeLR 0x10C c r)
  | .vfrsq c r => some (encodeLR 0x10D c r)
  | .vfex2 c r => some (encodeLR 0x10E c r)
  | .vflg2 c r => some (encodeLR 0x10F c r)
  | .vfsin c r => some (encodeLR 0x110 c r)
  | .vfcos c r => some (encodeLR 0x111 c r)
  | .vftanh c r => some (encodeLR 0x112 c r)
  | .vhfma2 c r => some (encodeLR 0x113 c r)
  | .vhadd2 c r => some (encodeLR 0x114 c r)
  | .vhmul2 c r => some (encodeLR 0x115 c r)
  | .vcvt c r => some (encodeLR 0x1C0 c r)
  | .vpack c r => some (encodeLR 0x1C1 c r)
  | .vunpk c r => some (encodeLR 0x1C2 c r)
  | .vqnt c r => some (encodeLR 0x1C3 c r)
  | .vdqnt c r => some (encodeLR 0x1C4 c r)
  | .vslide c r => some (encodeLR 0x200 c r)
  | .vslideI c r => some (encodeLI 0x208 c r)
  | .vshfl c r => some (encodeLR 0x201 c r)
  | .vbcast c r => some (encodeLR 0x202 c r)
  | .vbcastI c r => some (encodeLI 0x209 c r)
  | .vscan c r => some (encodeLR 0x203 c r)
  | .vred c r => some (encodeLR 0x204 c r)
  | .vballot c r => some (encodeLR 0x205 c r)
  | .vput c r => some (encodeLR 0x206 c r)
  | .glop c r => some (encodeLR 0x210 c r)
  | .gmov c r => some (encodeLR 0x211 c r)
  | .vrand c r => some (encodeLR 0x220 c r)
  | .vld c r => some (encodeLM 0x240 c r)
  | .vst c r => some (encodeLM 0x241 c r)
  | .vatom c r => some (encodeLM 0x242 c r)
  | .vatomCas c r => some (encodeLR 0x243 c r)
  | .vredm c r => some (encodeLM 0x244 c r)
  | .vpref c r => some (encodeLM 0x245 c r)
  | .vorgld c r => some (encodeLR 0x280 c r)
  | .vorgst c r => some (encodeLR 0x281 c r)
  | .vresume c r => some (encodeLR 0x282 c r)
  | .mma c r => some (encodeLR 0x2C0 c r)
  | .mmasp c r => some (encodeLR 0x2C1 c r)
  | .octetOperation _ _ => none
  | .tsweep c r => some (encodeLR 0x2E0 c r)
  | .tcvt c r => some (encodeLR 0x2E1 c r)
  | .tred c r => some (encodeLR 0x2E2 c r)
  | .tscan c r => some (encodeLR 0x2E3 c r)
  | .farEndLightArrival _ _ => none
  | .linkEntersService _ => none
  | .slotUsablePartEnd _ => none
  | .errestGrowth => none
  | .counterWaitBackoff _ => none
  | .scalarAccessReturn _ _ => none
  | .modpwrUpdate _ _ => none
  | .railOutOfRegulation _ _ => none
  | .temperatureSample _ _ _ _ => none
  | .powerOnHours => none

/-- Which stream reads an instruction's words. -/
inductive Stream where
  | gaffer
  | step
  | scalar
  | lane
  deriving DecidableEq, Repr

/-- The reading of a stream's word. -/
noncomputable def Stream.decode : Stream → Nat → Option Instr
  | .gaffer => decodeGaffer
  | .step => decodeStep
  | .scalar => decodeScalar
  | .lane => decodeLane

/-- The instruction that the decoder reads from a word of a row of the table of operations. Scalar words and gaffer
words share one space of 32 bits: a word that both streams assign is read as a scalar word. -/
noncomputable def decodeTableWord (nbits w : Nat) : Option Instr :=
  if nbits == 32 then
    match decodeScalar (w % 4294967296) with
    | some i => some i
    | none => decodeGaffer (w % 4294967296)
  else if nbits == 64 then decodeStep (w % 18446744073709551616)
  else if nbits == 96 then decodeLane (w % 79228162514264337593543950336)
  else none

end Sys2Proof
end

