-- ==== Sys2Proof/Config.lean ====
section
/-! DEFINITION. What the manual leaves open (free values: opaque constants, no body, so that no proof can
see what they are) and what an implementation fixes. Each is named in a row of the assumption log. -/

namespace Sys2Proof.Config

/-- Lane register `reg` of lane `lane` of the wave that was placed as number `seed`: not defined at
placement (R199, R235) and in a handler wave (R304). -/
opaque freeLane (seed reg lane : Nat) : Word

/-- Guard `g` of lane `lane` of handler wave number `seed`: undefined at its start (R304). -/
opaque freeGuard (seed g lane : Nat) : Bool

/-- The `n`-th back-off draw of the hardware source of R68, before it is reduced below its bound. -/
opaque freeBackoff (n : Nat) : Nat
/-- How many ns after the link's acknowledgement a flit counts as acknowledged: a NACK for it may come that late (R76, log 20). -/
opaque freeNackWait (n : Nat) : Nat

/-- The key of window `w` handed out by the `n`-th CONTEXT-CREATE (R147, R162: the manual gives no rule). -/
opaque freeKey (n w : Nat) : Word

/-- The flash contents the manual leaves to the module: key of window 0 (R147). -/
opaque window0Key : Word

/-- The management allow list in flash: whether requests from a source address are accepted (R175). -/
opaque allowed (src : BitVec 128) : Bool

/-- Silicon stepping of the package, per die set (R29). -/
opaque modStep : BitVec 4

/-- Byte `i` of the identity certificate chain, QUERY item 0x0A, and its length (R168): the manual does not lay it out. -/
opaque freeChain (i : Nat) : Byte
opaque freeChainLen : Nat

/-- Byte `i` of the firmware versions, QUERY item 0x08, and their length (R168), by what runs: unit, slot, and the number under which
the image was staged. The manual does not lay them out. -/
opaque freeVersions (running : List (Nat × Nat × Nat)) (i : Nat) : Byte
opaque freeVersionsLen (running : List (Nat × Nat × Nat)) : Nat

/-- The MAC address and the IPv6 address of the host port, which boot reads from flash (R144). -/
opaque hostMac : BitVec 48
opaque hostIp : BitVec 128

/-- SHA-384 digest byte `i` of the image in slot `slot` of unit `unit`, staged `n`-th (R173). -/
opaque freeDigest (unit slot n i : Nat) : Byte

/-- Byte `i` of the `n`-th attestation signature (R173): a fused secret makes it. -/
opaque freeSignature (n i : Nat) : Byte

/-- The engine's internal loop delay that a port whose LOOPBK is set measures (R81), in 0.1 ns. -/
opaque loopDelay (port : Nat) : BitVec 24

/-- The contents that the manual calls internal to the device: byte `i` of a saved image or of the save
header beyond its fields (R314). -/
opaque freeImage (n i : Nat) : Byte

/-- Byte `i` of the payload of a handshake flit that shows TARGET `target`: the manual does not lay it out (R35, R42). -/
opaque handshakeByte (target : BitVec 2) (i : Nat) : Byte

/-- SEQ of a flit that is not numbered, unused, and byte `i` of its payload, which no engine reads (R35). -/
opaque unusedSeq : BitVec 16
opaque idleByte (i : Nat) : Byte

/-- The fibre plant temperature that a time master measures for its `n`-th beacon (R78), in 0.1 °C. -/
opaque freePlant (n : Nat) : BitVec 16

/-- Whether a lane register with a result on its way reads as its new value, number `n` (R240, R417: old or new). -/
opaque freeBit (n : Nat) : Bool

end Sys2Proof.Config
end

