-- ==== Sys2Proof/Machine/CoreTypes.lean ====
section
/-! DEFINITION. The state of contexts, launches, waves, fragments and cores as plain data (chapters 8 to 12 of the manual).
Default values are those at module reset or at placement, as each docstring says. -/

namespace Sys2Proof.Machine

/-! Waves and fragments -/

/-- Where a fragment is (R243 to R246). `ready`: in a path slot and running. `waiting`: in a split-table entry for want of
a slot. `joined`: parked at a join, in an entry. `phase`: parked at PHEND. `sleeping`: asleep after TXR, in its slot.
`heldSlot`: held by a scalar trap, in its slot. `heldEntry`: held by a lane trap, in an entry. An exited fragment is not listed. -/
inductive FragState where
  | ready
  | waiting
  | joined
  | phase
  | sleeping
  | heldSlot
  | heldEntry
  deriving DecidableEq, Repr

/-- A clause that LRUN enqueued (R237, R394): what it captured, the scalar address P of the instruction after the LRUN and
the depth of the join stack at the LRUN (R301). -/
structure Clause where
  off   : DWord
  args  : List Word
  mask  : LaneMask
  ret   : DWord
  depth : Nat
  /-- enqueued inside the open transaction (R280). -/
  txn   : Bool
  /-- the number that the next operation had when it was enqueued: the accesses issued before have lower ones (R268). -/
  born  : Nat
  deriving DecidableEq, Repr

/-- The running clause: its words as fetched and decoded at its start, and the index of the next one. -/
structure Running where
  cl   : Clause
  base : DWord
  hdr  : ClauseHeader
  code : List Instr
  idx  : Nat
  deriving DecidableEq, Repr

/-- One entry of a join stack (R242): join address, split number, and whether this fragment is the split's parent. -/
structure Join where
  addr   : DWord
  split  : Nat
  parent : Bool
  deriving DecidableEq, Repr

/-- A fragment held by a trap (R300 to R302): the value of v1, the trap address, the clause parts that a continue and a
re-execute run, and which lanes have been given each action. -/
structure Held where
  code : Word
  addr : DWord
  cont : Option Running
  redo : Option Running
  contMask : LaneMask
  redoMask : LaneMask
  killMask : LaneMask
  /-- the activity mask at the trap. -/
  active : LaneMask
  deriving DecidableEq, Repr

/-- A sleeping fragment's watches (R284, R285): the watched lines, how many consecutive wakes came from refused watches,
and whether a write has already fallen on a watched line. -/
structure Sleep where
  lines   : List Nat
  refused : Bool
  woken   : Bool
  since   : Nat
  /-- the barrier word that its BARW waits on (R221, R297). -/
  bar     : Option Nat := none
  /-- when a write fell on a watched line, or a release group let it go (R491). -/
  wokenAt : Option Nat := none
  deriving DecidableEq, Repr

/-- A fragment (R241). Path-local registers s56 to s60 stand in `path`; s61 to s63 are the activity mask. -/
structure Fragment where
  id    : Nat
  pc    : DWord
  lanes : LaneMask
  mask  : LaneMask
  path  : List Word
  joins : List Join
  queue : List Clause
  run   : Option Running
  st    : FragState
  /-- Since when it waits at an interlock (R311). -/
  waitSince : Option Nat
  held  : Option Held
  sleep : Option Sleep
  /-- Order of arrival in the split table (R243). -/
  order : Nat
  /-- Consecutive wakes because a home could not hold a watch (R285). -/
  refusals : Nat
  /-- Opportunities in a row at which it was ready and did not issue: scalar, and at each lane issue point (R208, R238). -/
  aged  : Nat := 0
  agedLane : Nat := 0
  /-- SYIELDs for which it has not been passed over (R392). -/
  yields : Nat := 0
  /-- fragments, and the number before which their clauses were enqueued, whose accesses precede what it accesses from that number on:
  a split found these clauses in the queue (R268). -/
  after  : List (Nat × Nat) := []
  /-- the clause whose recorded rest runs before its scalar stream goes on (R302). -/
  restOf : Option Nat := none
  deriving DecidableEq, Repr

/-- What an operation of a wave that is still under way does when it completes. -/
inductive OpKind where
  | load
  | store
  | atomic
  | reduce
  /-- a long-latency computation or VORGLD: the values to write stand in `result`. -/
  | value
  /-- VPUT into slot `k`. -/
  | put (k : Nat)
  | orgLoad
  | orgStore
  deriving DecidableEq, Repr

/-- One lane's part of an access (lane 0 for a scalar access): its address, the byte keys it was resolved to (empty while
a fault keeps it waiting), its data, the second operand of a compare and swap, and the fault it waits for. -/
structure Part where
  lane  : Nat
  va    : DWord
  keys  : List Nat
  data  : List Byte
  cmp   : List Byte
  fault : Option Nat
  deriving DecidableEq, Repr

/-- An operation under way (R240, R307): accesses of both streams and the other long-latency lane instructions. -/
structure Op where
  id     : Nat
  frag   : Nat
  scalar : Bool
  kind   : OpKind
  /-- bytes of one element, or 0. -/
  size   : Nat
  sx     : Bool
  /-- destination register (scalar number, or lane register), or none. -/
  dst    : Option Nat
  aop    : Nat
  parts  : List Part
  /-- ORD and SCOPE (R347). -/
  ord    : Nat
  scope  : Nat
  hint   : Nat
  flag   : Option Nat
  /-- transactional (R280). -/
  txn    : Bool
  /-- lanes to write and their values, for `value`, `put`, and the VORG instructions. -/
  lanes  : LaneMask
  result : List Word
  /-- flags to OR into `vstat` at completion. -/
  raised : BitVec 6
  /-- the memory space that its addresses resolve in (R250). -/
  space  : Nat := 0
  /-- the fragments whose accesses from some number on it precedes, beside its own stream's: sides of a split made after it, and what its
  fragment has fused into (R268). -/
  also   : List (Nat × Nat) := []
  /-- its number, or that of its clause. -/
  born   : Nat := 0
  /-- fragments that a trap has parted from its own since: its scalar result is theirs too (R374). -/
  heirs  : List Nat := []
  /-- the splits in which its fragment took part when it exited (R245). -/
  sides  : List Nat := []
  deriving DecidableEq, Repr

/-- An open transaction (R280 to R289). -/
structure Txn where
  frag   : Nat
  start  : DWord
  target : DWord
  depth  : Nat
  alt    : Option DWord
  prio   : Bool
  age    : Nat
  /-- read set: lines. -/
  reads  : List Nat
  /-- buffered bytes by address key; their lines are the write set. -/
  writes : List (Nat × Byte)
  /-- barrier words that an arrival inside it opens for the whole block (R221). -/
  opens  : List Nat
  /-- the fault of a barrier word for which its fragment waits (R291). -/
  held   : Option Nat := none
  deriving DecidableEq, Repr

/-- A burst declaration (R216, R217). `told`: the lehr has announced it to the regulator (R183, R220); `order`: the key of the order
of announcement; `admitted` holds the time it ends. -/
structure Decl where
  int    : Nat
  length : Nat
  onset  : Nat
  order  : Nat
  told   : Bool
  ready  : Bool
  admitted : Option Nat
  deriving DecidableEq, Repr

/-- One asynchronous operation on a wave's counter, in issue order (R277), and whether it has completed. -/
structure Ticket where
  op   : Nat
  scope : Nat
  done : Bool
  deriving DecidableEq, Repr

/-- A wave (R232, R234). Values at placement are those of R235. -/
structure Wave where
  /-- resident block slot, wave index in the block and context. -/
  bslot : Nat
  widx  : Nat
  ctx   : Nat
  /-- the launch it belongs to. -/
  launch : Nat
  kid   : Nat
  nregs : Nat
  /-- placement order (R208). -/
  order : Nat
  seed  : Nat
  handler : Bool
  sreg  : Tbl Word
  vreg  : Tbl (List Word)
  guards : Tbl LaneMask
  xslot : Tbl Word
  flags : Tbl Nat
  xmax  : Word
  vstat : Word
  rngs  : DWord
  trapv : DWord
  ix    : List Word
  nx    : List Word
  fdid  : Nat
  rank  : Word
  args  : DWord
  /-- asynchronous counters by class: cp, mx, gt, sw, cl, ms. -/
  tickets : Tbl (List Ticket)
  /-- classes that have retired an operation of scope `.clus` or wider (R277). -/
  wideRet : List Nat
  /-- `brst` beside the declaration. -/
  clamp : Bool
  thr   : Bool
  bad   : Bool
  decl  : Option Decl
  /-- `txst` beside the open transaction. -/
  woke  : Bool
  ccnt  : Nat
  txcode : Nat
  txcause : Nat
  txn   : Option Txn
  frags : List Fragment
  ops   : List Op
  /-- fragments and splits are numbered. -/
  nextFrag : Nat
  nextSplit : Nat
  /-- scalar registers with a pending result, by the operation that will write each. -/
  pendS : List (Nat × Nat)
  /-- the phase the wave is in (R202). -/
  phase : Nat
  /-- partition (R198), and the fragment that issued last (R208). -/
  part  : Nat
  lastFrag : Tbl Nat := []
  deriving DecidableEq, Repr

/-! Handler groups (R303) -/

/-- One held lane on its way to a handler wave. -/
structure HeldLane where
  slot : Nat
  frag : Nat
  lane : Nat
  bslot : Nat
  v1   : Word
  addr : DWord
  time : Nat
  deriving DecidableEq, Repr

/-- A group of the trap compactor: context, trap entry and lanes, oldest first. -/
structure Group where
  ctx   : Nat
  entry : DWord
  lanes : List HeldLane
  /-- since when it is ready, or none. -/
  ready : Option Nat
  deriving DecidableEq, Repr

/-! Matrix operations and sweeps -/

/-- One octet of a matrix instruction (R469): its leader's addresses, its active rows, and its progress. -/
structure Octet where
  j     : Nat
  pa    : DWord
  pb    : DWord
  pf    : DWord
  sa    : DWord
  sb    : DWord
  meta_ : DWord
  rows  : List Nat
  next  : Nat
  fault : Option Nat
  done  : Bool
  deriving DecidableEq, Repr

/-- A matrix instruction in the engine's queue (R473). `waits`: the operations, issued before it, that its WAIT mask
names, and the earlier accesses of its fragment. `block`: the format blocks read, by address, and the columns of B of each fusion
group, at 2^64 + its first octet. -/
structure MatrixOp where
  id     : Nat
  slot   : Nat
  frag   : Nat
  ctx    : Nat
  d      : Nat
  zero   : Bool
  sat    : Bool
  sparse : Bool
  hint   : Nat
  flag   : Nat
  active : LaneMask
  waits  : List Nat
  octets : List Octet
  block  : Tbl (List Byte)
  raised : BitVec 6
  taken  : Bool
  bad    : Bool
  /-- it reached issue while a declaration of its wave was pending (R218). -/
  held   : Bool
  deriving DecidableEq, Repr

/-- A sweep (R477 to R484): its kind (0 TSWEEP, 1 TCVT, 2 TRED, 3 TSCAN) and fields, its operands, and its progress. -/
structure SweepOp where
  id     : Nat
  slot   : Nat
  frag   : Nat
  ctx    : Nat
  kind   : Nat
  lr     : LR
  scope  : Nat
  waits  : List Nat
  ra     : DWord
  rb     : DWord
  rc     : DWord
  re     : DWord
  /-- the records (destination first), once read. -/
  recs   : List (List Byte)
  /-- elements done, and the running carry of TRED and TSCAN. -/
  next   : Nat
  carry  : Option Nat
  flag   : Nat
  hint   : Nat
  raised : BitVec 6
  mag    : Nat
  nan    : Bool
  fault  : Option Nat
  done   : Bool
  /-- the record that failed its check. -/
  bad    : Option Nat
  deriving DecidableEq, Repr

/-! Cores -/

/-- One 32-byte L1 sector (R253): address space, sector of virtual address, physical sector, bytes and time of fill. -/
structure Sector where
  asid : Nat
  vsec : Nat
  psec : Nat
  data : List Byte
  time : Nat
  deriving DecidableEq, Repr

/-- One entry of a write-combining buffer (R254): line, address space, bytes by key, time of its first store. -/
structure WcLine where
  line : Nat
  asid : Nat
  data : List (Nat × Byte)
  time : Nat
  deriving DecidableEq, Repr

/-- A resident block (R196 to R199). -/
structure Block where
  launch : Nat
  kid    : Nat
  ctx    : Nat
  sbase  : Nat
  scrq   : Nat
  l1floor : Nat
  wpb    : Nat
  /-- relabel row, and entry within it. -/
  row    : Option Nat
  entry  : Nat
  /-- the slots of its waves that have not exited; the partition of every one of its waves, and their lane registers in sixteens,
  which it holds until it exits (R209, R393). -/
  waves  : List Nat
  parts  : List Nat
  lregq  : Nat
  deriving DecidableEq, Repr

/-- A core (R229). -/
structure Core where
  waves : Tbl Wave := []
  blocks : Tbl Block := []
  /-- context that each bound barrier word belongs to (R295). -/
  bound : Tbl Nat := []
  /-- CARVE (R252) and the request taken up after the present one. -/
  scr   : Nat := 0
  tgt   : Nat := 0
  pend  : Bool := false
  nextTgt : Option Nat := none
  l1    : List Sector := []
  wcb   : List WcLine := []
  groups : List Group := []
  /-- the lanes that the running handler took, and whether each has been resumed (R304, R305). -/
  handling : List (HeldLane × Bool) := []
  matrix : List MatrixOp := []
  sweeps : List SweepOp := []
  /-- units of issue by time of the lane clock, newest first, and the slot, seed and context of the wave that issued the newest
  (R222). -/
  units : List Nat := []
  issuer : Option (Nat × Nat × Nat) := none
  /-- end of the throttle and its C. -/
  throttle : Option (Nat × Nat) := none
  /-- units issued in the present aligned group of 16 lane cycles: group number and count. -/
  issued : Nat × Nat := (0, 0)
  drpth : BitVec 8 := 30
  drpcnt : BitVec 8 := 0
  /-- end of the halved issue (R224). -/
  halved : Option Nat := none
  /-- release groups of block-wide barriers still to come: barrier, waves in order (R221). -/
  release : List (Nat × List (Nat × Nat)) := []
  deriving DecidableEq, Repr

/-- A cluster's power and scheduling registers (R211, R215, R220, R226). -/
structure Cluster where
  relsp  : BitVec 8 := 16
  relgrp : BitVec 4 := 4
  ramp   : BitVec 8 := 48
  intv   : BitVec 8 := 64
  cur    : Nat := 1
  tgt    : Nat := 1
  /-- a level change is under way, towards this level; whether the lane clock has begun to switch. -/
  change : Option Nat := none
  switching : Bool := false
  calen  : Bool := true
  gband  : BitVec 5 := 4
  calper : BitVec 16 := 3600
  valid  : Bool := false
  mdbl   : BitVec 5 := 0
  meq    : BitVec 5 := 0
  mhalf  : BitVec 5 := 0
  lastCal : Nat := 0
  calibrating : Bool := false
  /-- performance requests by context (R213). -/
  slots  : Tbl Nat := []
  /-- admissions: front cycle and INT. -/
  admits : List (Nat × Nat) := []
  thrcnt : Nat := 0
  /-- lane-edge count in tenths of an edge at a real time in ns, and that time (R225). -/
  edges  : Nat := 0
  edgeAt : Nat := 0
  /-- when the clock began to switch. -/
  switchAt : Nat := 0
  /-- relabel rows: row × 12 + entry to (valid, core, sbase). -/
  relabel : Tbl (Nat × Nat) := []
  rows   : List Nat := []
  /-- idle since, gate sequence start, gated, wake end (R207). -/
  idleSince : Option Nat := some 0
  gateStart : Option Nat := none
  gated  : Bool := false
  wakeAt : Option Nat := none
  /-- the dispatches that wait for the gate sequence or the wake: a queue's, or 64 + the handle of a context that is restored. -/
  wanted : List Nat := []
  /-- an alarm raised during a level change (R224). -/
  alarms : List Nat := []
  /-- end of the latest stretch, in quarters of a real nanosecond. -/
  stretchTo : Nat := 0
  deriving DecidableEq, Repr

/-! Launches -/

/-- A level entry (R191). -/
structure Level where
  extent : Nat
  lead   : Nat
  ldir   : Nat
  leaden : Bool
  scope  : Nat
  domain : Nat
  deriving DecidableEq, Repr

/-- A launch record as the dispatcher read it (R189 to R192). -/
structure LaunchRec where
  addr   : DWord
  sentry : DWord
  lentry : DWord
  trape  : DWord
  args   : DWord
  wakegate : Bool
  prio   : Nat
  priov  : Bool
  plreq  : Nat
  bint   : Nat
  fidx   : Nat
  levels : List Level
  l1floor : Nat
  scrq   : Nat
  lregq  : Nat
  wpb    : Nat
  deps   : List (DWord × DWord)
  caddr  : DWord
  cval   : DWord
  sval   : Word
  stgt   : Nat
  sidx   : Nat
  pstrm  : Nat
  act    : Nat
  /-- entry address and ENDLEV of each phase after the first. -/
  phases : List (DWord × Nat)
  deriving DecidableEq, Repr

/-- Where a block of a launch is. -/
inductive BlockPlace where
  | unplaced
  | on (core bslot : Nat)
  | saved (image : Nat)
  | exited
  deriving DecidableEq, Repr

/-- A launch that has started (R188): its blocks and their phases. `parked`: the phase after which the block is parked. -/
structure Run where
  id     : Nat
  queue  : Nat
  ctx    : Nat
  prio   : Nat
  comm   : Bool
  lrec   : LaunchRec
  blocks : List BlockPlace
  parked : Tbl Nat
  phaseOf : Tbl Nat
  /-- lead counters: level, unit, last phase ended + 1 (R204). -/
  lead   : Tbl Nat
  /-- its completion waits: for this fault of CADDR, or (0) for an earlier launch of its queue (R209). -/
  acting : Option Nat
  /-- how many writes `written` held when its record was read (R260). -/
  seen   : Nat := 0
  deriving DecidableEq, Repr

/-- The head record of a queue (R188, R201). -/
structure Head where
  lrec   : LaunchRec
  /-- dependence i is met. -/
  met    : List Bool
  /-- watched lines of dependence i; refusal counts. -/
  watch  : List (Option Nat)
  refusals : List Nat
  seen   : Nat := 0
  deriving DecidableEq, Repr

/-- A hardware queue (R186). -/
structure Queue where
  ctx   : Option Nat := none
  comm  : Bool := false
  prio  : Nat := 0
  ptrs  : List DWord := []
  wake  : Word := 0
  rejcnt : BitVec 8 := 0
  head  : Option Head := none
  /-- the read of the head waits for this fault. -/
  fault : Option Nat := none
  /-- the started launches with blocks still to be placed, in record order. -/
  placing : List Nat := []
  /-- the cores whose carve-out change its next placement waits for (R198). -/
  asked  : List Nat := []
  /-- the time of the latest pushes by waves, and their cores and slots, for the last pointers in order (R410). -/
  pushedAt : Nat := 0
  pushed : List Nat := []
  deriving DecidableEq, Repr

/-- A die's scheduler registers (R206, R211, R311) and its event queue. -/
structure Die where
  cur    : Nat := 0
  max    : BitVec 8 := 8
  min    : BitVec 8 := 0
  /-- since when W has been 0 (R206). -/
  wzero  : Option Nat := some 0
  gateen : Bool := true
  idlefc : BitVec 20 := 16000
  gcoll  : Word := 0
  /-- event queue: a wake of (queue, dependence), or the completion of a launch. -/
  evq    : List (Sum (Nat × Nat) Nat) := []
  /-- wakes and completions that wait in home slices and blocks while it is full (R210). -/
  evwait : List (Sum (Nat × Nat) Nat) := []
  wden   : Bool := true
  wdt    : BitVec 20 := 100000
  deriving DecidableEq, Repr

/-! Contexts -/

/-- A fault record (R158). -/
structure FaultRec where
  id    : Nat
  kind  : Nat
  cause : Nat
  acc   : Nat
  src   : Nat
  who   : Nat
  va    : DWord
  time  : Nat
  deriving DecidableEq, Repr

/-- Who waits for a pending memory fault (R159). -/
inductive Waiter where
  | op (w : WaveRef) (op : Nat)
  | fetch (w : WaveRef) (frag : Nat)
  | clause (w : WaveRef) (frag : Nat)
  | octet (core : Nat) (op : Nat)
  | sweep (core : Nat) (op : Nat)
  | async (op : Nat)
  | gaffer (t : Nat)
  | slot (c s : Nat)
  | stream (st : Nat)
  | queue (q : Nat)
  | completion (d : Nat)
  | flit (p : Nat)
  | save (x : Nat)
  | txn (w : WaveRef) (frag : Nat)
  | rdma
  deriving DecidableEq, Repr

/-- A pending memory fault. -/
structure Pending where
  frec : FaultRec
  ctx : Nat
  waiter : Waiter
  /-- the record has been written to the fault queue (false while the queue is full). -/
  posted : Bool
  deriving DecidableEq, Repr

/-- A saved block image (R314): the block's waves and everything they hold, its scratchpad bytes, and its watches. -/
structure Image where
  id     : Nat
  off    : Nat
  launch : Nat
  kid    : Nat
  block  : Block
  waves  : List Wave
  bytes  : List (Nat × Byte)
  core   : Nat
  /-- whether a write fell on a line or scratchpad unit that the saved waves watch (R292). -/
  woken  : Bool
  /-- the drain in which it was saved. -/
  drain  : Nat := 0
  deriving DecidableEq, Repr

/-- The set that an image was saved with: its core and its drain (R495). -/
def Image.home (im : Image) : Nat := im.drain * 192 + im.core

/-- A live context (R162). -/
structure Ctx where
  ptroot : Nat
  save   : DWord
  savelen : DWord
  fq     : DWord
  fqn    : Nat
  fqnote : Nat
  ept    : DWord
  qmask  : DWord
  plcap  : Nat
  strm0  : Nat
  nstrm  : Nat
  windows : List Nat
  /-- the device's copy of TAIL and of DROPPED. -/
  tail   : DWord
  dropped : DWord
  deadline : BitVec 20
  pmst   : BitVec 2
  nospace : Bool
  badreq : Bool
  images : List Image
  used   : Nat
  drainBy : Option Nat
  /-- a save or restore waits for this fault (R496). -/
  savefault : Option Nat
  /-- barrier words carried with a set of images saved from one core: the images' home, index, value (R495). -/
  words  : List (Nat × Nat × DWord)
  ending : Bool
  /-- the lines that its fetch caches hold, by physical line (R260). -/
  code   : Tbl (List Byte) := []
  /-- drains begun so far: the sets of images saved from one core are told apart by them (R495). -/
  drains : Nat := 0
  deriving DecidableEq, Repr

/-! Asynchronous operations of the copy, gather and message engines -/

inductive AsyncKind where
  | copy
  | gather
  | message (carry : Bool)
  | coll
  deriving DecidableEq, Repr

/-- An operation of an asynchronous engine (R403 to R409). `desc`: descriptor bytes once read; `stage`: 0 to read the
descriptor, 1 to run, 2 waiting (circuit, acknowledgement), 3 done, 4 ended in error. -/
structure AsyncOp where
  id    : Nat
  kind  : AsyncKind
  w     : WaveRef
  ctx   : Nat
  scope : Nat
  addr  : DWord
  desc  : List Byte
  stage : Nat
  /-- progress in bytes, rows or elements. -/
  next  : Nat
  fault : Option Nat
  /-- the message's PSEQ and when its answer is due; the flits not yet acknowledged of a circuit copy. -/
  pseq  : Nat
  due   : Nat
  flits : List Nat
  /-- offsets reported not delivered, to be sent again (R73). -/
  resend : List Nat
  entry : Nat
  /-- the issuing core, SBASE, SCRQ and relabel row, for the windows. -/
  bslot : Nat
  cause : Nat
  /-- bytes of a copy that have been read from offset `next` on and are not written or sent yet (R267). -/
  carry : List Byte := []
  deriving DecidableEq, Repr

end Sys2Proof.Machine
end

