-- ==== Sys2Proof/Machine/FabricTypes.lean ====
section
/-! DEFINITION. The state of the module, ports, circuits, packet plane, gaffer, crucibles, host port and management core as
plain data (chapters 1 to 7 of the manual). Default values are those at module reset. -/

namespace Sys2Proof.Machine

/-! The module (R24 to R30) -/

/-- Module power and laser sources. -/
structure Module where
  vin    : BitVec 16 := 0
  pin    : BitVec 12 := 0
  uvwarn : Bool := false
  ovoff  : Bool := false
  plimev : Bool := false
  /-- the input is inside its operating range, and which dies' rails are in regulation (CD0, CD1, XD0, XD1). -/
  inputOk : Bool := true
  rails  : BitVec 4 := 0b1111
  elspres : BitVec 4 := 0b1111
  elsok  : BitVec 4 := 0b1111
  /-- the start has brought up the dies: until then PGOOD reads its reset value, 0 (R29). -/
  railsUp : Bool := false
  /-- powered; the input stage is connected. -/
  on     : Bool := true
  connected : Bool := true
  /-- the carrier's latch of MODRST_N (R171). -/
  latch  : Bool := false
  deriving DecidableEq, Repr

/-! Ports (R31 to R55) -/

/-- Who sent a flit: for a crucible its slot, the streams that the flit belongs to, by their number, and the rank it goes to. -/
inductive FlitOwner where
  | none
  | copy (op : Nat)
  | cru (c s gen rank : Nat)
  deriving DecidableEq, Repr

/-- One flit in a transmitter's replay buffer (R38): SEQ, type, TVER and payload, and who sent it. -/
structure Flit where
  seq   : BitVec 16
  typ   : Nat
  tver  : BitVec 16
  /-- 244 bytes in a data flit or a drain marker; empty in the types whose payload the manual does not lay out. -/
  payload : List Byte
  owner : FlitOwner
  /-- the TARGET that a handshake flit shows (R42). -/
  shows : BitVec 2 := 0
  deriving DecidableEq, Repr

/-- A port. Its registers (R52 to R54), its state machine and its link. -/
structure Port where
  target : BitVec 2 := 0
  grpmask : BitVec 4 := 0
  /-- STATE: 0 DARK, 1 LOCKING, 2 TRAINED, 3 LIVE. -/
  st     : BitVec 2 := 0
  lit    : BitVec 4 := 0
  /-- the transition under way: 1 laser wake, 2 gating, 3 drain, and when it ends. -/
  trans  : Option (Nat × Nat) := none
  lasterr : BitVec 8 := 0
  vermis : Bool := false
  laserlost : Bool := false
  lockfail : Bool := false
  lockloss : Bool := false
  drainlost : Bool := false
  berhigh : Bool := false
  badreq : Bool := false
  caldone : Bool := false
  berth  : BitVec 16 := 0x0100
  loopbk : Bool := false
  fecc   : Word := 0
  fecu   : Word := 0
  crce   : Word := 0
  rply   : Word := 0
  loss   : Word := 0
  /-- when CLRCNT was last written: a count that falls in that cycle is lost (R54). -/
  clearedAt : Option Nat := none
  /-- BERHIGH events since the last clear, for the lifetime record (R179). -/
  berEvents : Nat := 0
  /-- entry into the present state; whether the lock follows a loss of lock; a recalibration is under way. -/
  since  : Nat := 0
  relock : Bool := false
  recal  : Bool := false
  /-- loop back in effect since the entry to LOCKING (R53). -/
  looped : Bool := false
  /-- what the far end has shown, and since when light has been on exactly the lit groups; by group that is not lit here,
  since when it has had light without a break. -/
  far    : Option FarEnd := none
  lightAt : Option Nat := none
  mismatchAt : Tbl Nat := []
  farAt  : Option Nat := none
  targetAt : Nat := 0
  /-- link-level replay (R38). -/
  txSeq  : BitVec 16 := 0
  unacked : List Flit := []
  /-- types of the port's own numbered flits that wait for room in the replay buffer, oldest first. -/
  stalled : List Nat := []
  /-- when the transmitter will have sent everything handed to it, in 1/100 ns. -/
  txFree : Nat := 0
  rxSeq  : BitVec 16 := 0
  nak    : Bool := false
  /-- accepted data flits not yet handed on, oldest first: SEQ and bytes. -/
  inbox  : List (BitVec 16 × List Byte) := []
  /-- pending fault that the oldest one waits for. -/
  inFault : Option Nat := none
  /-- the marker of a drain has been accepted: discard until the next handshake. -/
  markerSeen : Bool := false
  /-- the marker's SEQ while the drain of R43 runs. -/
  marker : Option (BitVec 16) := none
  down   : Bool := false
  /-- fibre-delay entry (R81). -/
  rtt0   : BitVec 24 := 0
  tcoef  : BitVec 16 := 0
  tref   : BitVec 16 := 0
  valid  : Bool := false
  rttc   : BitVec 24 := 0
  tused  : BitVec 16 := 0
  /-- a beacon has arrived since the last measurement. -/
  corrected : Bool := false
  deriving DecidableEq, Repr

/-! Circuits (R64 to R73, R96) -/

/-- One circuit table entry with its binding register. STATE: 0 FREE … 6 FAILED. -/
structure Circuit where
  st      : BitVec 4 := 0
  status  : BitVec 4 := 0
  retrymax : BitVec 4 := 4
  grpmask : BitVec 4 := 0
  slotted : Bool := false
  side    : Bool := false
  attempts : BitVec 4 := 0
  port    : BitVec 5 := 0
  peerdev : BitVec 12 := 0
  peerport : BitVec 5 := 0
  tver    : BitVec 16 := 0
  hopcnt  : BitVec 4 := 0
  swtime  : Word := 0
  readyat : DWord := 0
  slotbase : DWord := 0
  slotper : Word := 0
  slotlen : Word := 0
  guard   : BitVec 16 := 50
  route   : List Word := [0, 0, 0, 0, 0, 0, 0, 0]
  owner   : BitVec 2 := 0
  bind    : BitVec 16 := 0xFFFF
  /-- send time of the last RSV; time of a scheduled start, end of a back-off, or of a TEAR's wait. -/
  sentAt  : Nat := 0
  due     : Nat := 0
  /-- the requester's entry index, which control packets of this circuit name (R64). -/
  reqEntry : BitVec 6 := 0
  /-- the entry waits for its port to be DARK: then FREE without a TACK (R71). -/
  freeOnDark : Bool := false
  /-- a release waits for the drain before its TEAR is sent. -/
  tearPending : Bool := false
  /-- a slot is open now (R80). -/
  slotOpen : Bool := false
  /-- the number of the slot last found not to be opened, when, and SLOTMISS before it (R80). -/
  missed  : Option Nat := none
  missAt  : Option Nat := none
  missWas : Bool := false
  /-- end of the drain window of R76. -/
  window  : Option Nat := none
  deriving DecidableEq, Repr

/-! Packet plane (R56 to R63, R494) -/

/-- A packet that waits on a link: the link it came over, none for one of this device; and since when, in real nanoseconds. -/
structure Waiting where
  pkt   : Packet
  from_ : Option Nat
  since : Nat
  deriving DecidableEq, Repr

/-- One link E0 to E7: in service, credits held by class, one-way delay in 1/16 ns, the echo under way. -/
structure Link where
  up     : Bool := false
  credits : List Nat := [0, 0, 0, 0, 0]
  waiting : List Waiting := []
  /-- link-level replay (R57): the last number sent and the packets not yet acknowledged, oldest first; the last number
  accepted, and NAK from a discard until the expected packet arrives. -/
  txSeq  : BitVec 16 := 0
  unacked : List Packet := []
  rxSeq  : BitVec 16 := 0
  nak    : Bool := false
  delay  : Int := 0
  echo   : Option Nat := none
  /-- FDID of the neighbour, from its last reply. -/
  peer   : BitVec 12 := 0
  deriving DecidableEq, Repr

/-! Gaffer (R85 to R95) -/

/-- What a thread in WAIT waits for. -/
inductive GWait where
  | none
  | circuit (e : Nat) (d : Nat) (deadline : Nat)
  | event (d : Nat) (deadline : Nat)
  | access (fault : Nat)
  deriving DecidableEq, Repr

/-- A script thread. STATE: 0 IDLE, 1 RUN, 2 WAIT, 3 FAULT. -/
structure GThread where
  st     : BitVec 2 := 0
  pc     : DWord := 0
  regs   : Tbl DWord := []
  ctx    : Option Nat := none
  wake   : Word := 0
  evq    : List DWord := []
  dropped : BitVec 16 := 0
  overflow : Bool := false
  fcause : BitVec 8 := 0
  wait   : GWait := .none
  /-- the stream and SEQ of the SCRIPT-START that it runs. -/
  cmd    : Option (Nat × Word) := none
  deriving DecidableEq, Repr

/-! Crucibles (R122 to R143) -/

/-- A collective descriptor (R124); `status` is the address of its STATUS word. -/
structure CollDesc where
  addr   : DWord
  prog   : DWord
  n      : Nat
  rank   : Nat
  cru    : Nat
  slot   : Nat
  nsteps : Nat
  rmap   : DWord
  btab   : DWord
  tmo    : Nat
  lz     : Nat
  nbuf   : Nat
  skip   : DWord
  doneev : DWord
  status : DWord
  deriving DecidableEq, Repr

/-- A buffer table entry (R124). -/
structure CollBuf where
  addr  : DWord
  block : Nat
  kind  : Nat
  len   : Nat
  bobj  : DWord
  deriving DecidableEq, Repr

/-- One byte stream to a peer rank (R131, R132). -/
structure OutStream where
  sent   : Nat := 0
  /-- bytes accepted by the peer, and consumed by it. -/
  credit : Nat := 0
  /-- bytes appended and not yet handed to the port. -/
  queue  : List Byte := []
  /-- flits handed to the port and not acknowledged, and flits reported not delivered: stream offset and bytes. -/
  flying : List (Nat × List Byte) := []
  resend : List (Nat × List Byte) := []
  /-- flits acknowledged by the link that the peer has not consumed: a NACK may still name them (R76). -/
  kept   : List (Nat × List Byte) := []
  /-- offsets of flits just acknowledged by the link, and until when a NACK for each may still come. -/
  fresh  : List (Nat × Nat) := []
  /-- circuit entries that its flits have gone through. -/
  via    : List Nat := []
  deriving DecidableEq, Repr

structure InStream where
  /-- bytes landed, and consumed. -/
  next   : Nat := 0
  used   : Nat := 0
  ring   : List Byte := []
  /-- bytes landed ahead of order: offset and byte. -/
  early  : List (Nat × Byte) := []
  /-- the consumed count of the last credit flit formed, and the counts of those that have not left (R132). -/
  credited : Nat := 0
  due    : List Nat := []
  deriving DecidableEq, Repr

/-- An outstanding data step (R134). -/
structure DataStep where
  id     : Nat
  idx    : Nat
  op     : Instr
  oper   : Nat
  fmt    : Nat
  smD    : Nat
  buf    : Nat
  first  : Nat
  bytes  : Nat
  dst    : Nat
  /-- peer received from and peers sent to; bytes received and applied. -/
  src    : Option Nat
  to_    : List Nat
  done   : Nat
  /-- every sent byte must be acknowledged up to these stream offsets. -/
  ends   : List (Nat × Nat)
  writes : Bool
  fault  : Option Nat
  /-- its start, or the last bytes it received, or the end of its last fault (R133). -/
  since  : Nat
  deriving DecidableEq, Repr

/-- A program slot. STATE: 0 FREE, 1 LOADING, 2 RUN, 3 PAUSING, 4 PAUSED, 5 ENDING. -/
structure Crux where
  st     : BitVec 3 := 0
  degraded : Bool := false
  step   : Nat := 0
  ctx    : Option Nat := none
  skip   : Tbl Word := []
  desc   : Option CollDesc := none
  prog   : List Instr := []
  rmap   : List (Nat × Nat) := []
  bufs   : List CollBuf := []
  /-- active loops, innermost first: index of the LOOP, counter, limit. -/
  loops  : List (Nat × Nat × Nat) := []
  peers  : Tbl Nat := []
  oper   : Nat := 0
  fmt    : Nat := 0
  smD    : Nat := 1024
  ch     : Nat := 1
  inv    : Bool := false
  ovf    : Bool := false
  leftover : Bool := false
  outst  : List DataStep := []
  outs   : Tbl OutStream := []
  ins    : Tbl InStream := []
  /-- who started it: a wave's operation, or a command's stream and SEQ. -/
  byOp   : Option Nat := none
  byCmd  : Option (Nat × Word) := none
  core   : Nat := 0
  /-- the skip mask at the entry to PAUSED; the fault that a RESUME's read of the rank map waits for. -/
  skipWas : Tbl Word := []
  resuming : Option Nat := none
  /-- the last progress of each stream, by 2 × rank, plus 1 for the stream to it; when its time-out is looked at next (R133). -/
  heard  : Tbl Nat := []
  tmoAt  : Option Nat := none
  nextStep : Nat := 0
  /-- a WAIT.ev's watched line, refusals and end of its back-off. -/
  watch  : Option Nat := none
  refusals : Nat := 0
  backUntil : Nat := 0
  fault  : Option Nat := none
  /-- when the instance started (R76); the number of its present streams, which a RESUME that restarts them renews (R133, R140). -/
  since  : Nat := 0
  gen    : Nat := 0
  /-- end sequence: cause and the part reached (R142). -/
  ending : Option (Nat × Nat) := none
  deriving DecidableEq, Repr

/-! Host port (R144 to R169) -/

/-- What a started command waits for. -/
inductive CmdWait where
  | none
  | queueSpace
  /-- EVENT-WAIT: the line watched, if a watch stands; its deadline; refusals in a row. -/
  | event (line : Option Nat) (deadline : Option Nat) (refusals : Nat)
  | script (t : Nat)
  | coll
  /-- COLL-START before a slot runs it: the fault waited for; a refusal's cause and STATUS address, once known. -/
  | collFault (fault cause at_ : Nat)
  | fence
  /-- its own access waits for a fault; the deadline of an EVENT-WAIT. -/
  | access (fault : Nat) (deadline : Option Nat)
  /-- held while the unit that it needs switches its image (R183). -/
  | firmware
  deriving DecidableEq, Repr

/-- A started command record that has not completed. -/
structure Cmd where
  seq   : Word
  data  : List Byte
  ctx   : Option Nat
  wait  : CmdWait
  deriving DecidableEq, Repr

/-- A command stream (R150 to R154). -/
structure CmdStream where
  ctx    : Option Nat := none
  open_  : Bool := false
  lastSeq : Word := 0
  buffer : List (Word × List Byte) := []
  started : Word := 0
  completed : Word := 0
  running : List Cmd := []
  cplSeq : Word := 0
  ackedSeq : Word := 0
  unacked : List (HostPacket × Nat × Nat) := []
  /-- completions held back while 64 packets are unacknowledged. -/
  held   : List (Nat × List Byte) := []
  stalled : Bool := false
  deriving DecidableEq, Repr

/-- A device memory window (R147). -/
structure Window where
  key  : Word
  ctx  : Option Nat
  va   : DWord
  len  : Nat
  access : BitVec 2
  deriving DecidableEq, Repr

/-- What the device answers to an RDMA request (R146 to R148). -/
inductive RdmaAnswer where
  | ack
  | data (bytes : List Byte)
  | nakSequence
  | nakInvalid
  | nakAccess
  | nakOperation
  deriving DecidableEq, Repr

/-- A queue pair in service (R178): its QP-SETUP payload, the next number expected from the host, and that of the next response. -/
structure Qp where
  setup : List Byte
  epsn  : BitVec 24
  spsn  : BitVec 24
  deriving DecidableEq, Repr

/-- One response packet of a queue pair, with the addressing that its setup gives (R178). -/
structure RdmaReply where
  qp     : Nat
  dqpn   : BitVec 24
  psn    : BitVec 24
  mac    : BitVec 48
  /-- PCP and VID of the tag, where frames carry one. -/
  vlan   : Option (BitVec 3 × BitVec 12)
  ip     : List Byte
  tclass : BitVec 8
  hopLim : BitVec 8
  answer : RdmaAnswer
  deriving DecidableEq, Repr

/-- An answer of neighbour discovery (R144): to whom, for which address, and the MAC address. -/
structure NdAnswer where
  dst    : BitVec 128
  target : BitVec 128
  mac    : BitVec 48
  deriving DecidableEq, Repr

/-- A read of the module sideband's I3C target (R24). -/
inductive SideAccess where
  | readModid
  | readModpwr
  | readElsst
  | other
  deriving DecidableEq, Repr

/-- A management reply: OP, STATUS, TAG, data. -/
structure MgmtReply where
  op     : Nat
  status : Nat
  tag    : DWord
  data   : List Byte
  deriving DecidableEq, Repr

/-- One service log entry (R182). -/
structure LogEntry where
  index : Word
  kind  : Nat
  unit  : Nat
  time  : Nat
  data  : DWord
  deriving DecidableEq, Repr

/-- A pending firmware switch (R183): unit, its deadline, the TAG of the request. -/
structure FwSwitch where
  unit : Nat
  due  : Nat
  tag  : DWord
  deriving DecidableEq, Repr

/-- Management core, flash and service records. -/
structure Mgmt where
  mbwake : Word := 0
  linkdn : BitVec 8 := 0
  rejsrc : BitVec 8 := 0
  updpend : BitVec 8 := 0xFF
  scrub  : Bool := false
  ucerr  : Bool := false
  minimal : Bool := false
  bootComplete : Bool := true
  bootStep : Nat := 5
  /-- a start has begun that has neither reached boot-complete nor been recorded as failed (flash, R171). -/
  startOpen : Bool := false
  /-- the lifetime number of the start; whether it has incremented the failed-start count; and whether the count holds an increment of
  a start that a reset ended, for the next start to remove (flash, R171). -/
  startNo : Nat := 0
  startIncr : Bool := false
  resetIncr : Bool := false
  /-- why the start does not reach boot-complete, for its record at 30 s (R172). -/
  startFail : Option BootFail := none
  /-- when the temperatures were sampled last (R179). -/
  tempAt : Option Nat := none
  /-- requests passed on by the flow that have not run: OP and request, oldest first (R176). -/
  inbox  : List (BitVec 8 × MgmtReq) := []
  /-- selected slot of a unit; by unit × 2 + slot, the number and the bytes of the image last staged there. -/
  slots  : Tbl Nat := []
  staged : Tbl (Nat × List Byte) := []
  nextImage : Nat := 1
  /-- the units whose image runs, and the slot it runs from. -/
  running : Tbl Nat := []
  pendingSwitch : List FwSwitch := []
  failed : Nat := 0
  bootFails : List (Nat × BootFail) := []
  /-- lifetime counters and histograms: committed and pending (R180); pages of the last two commits. -/
  counters : Tbl Nat := []
  hist   : Tbl Nat := []
  pages  : List (Tbl Nat × Tbl Nat) := []
  log    : List LogEntry := []
  nextLog : Word := 0
  /-- events of the present hour. -/
  hourDroop : Tbl Nat := []
  hourThrottle : Nat := 0
  discarded : Nat := 0
  replies : List MgmtReply := []
  qps    : Tbl Qp := []
  deriving DecidableEq, Repr

end Sys2Proof.Machine
end

