-- ==== Sys2Proof/Machine/State.lean ====
section
/-! DEFINITION. The state of one CX-40 as plain data, its reset, and the reasons a step can stop. -/

namespace Sys2Proof.Machine

/-- Why the machine stops. -/
inductive Fault where
  /-- Raised by `exec` of an instruction of a wave, a gaffer thread or a program slot when the agent that executes is not
  of that kind or does not exist; no step of the machine raises it for a decoded word. Safe: nothing happens. -/
  | noAgent
  deriving DecidableEq, Repr

/-- Why an instruction has no meaning. -/
inductive Refusal where
  /-- Raised by a row of `exec` that has no meaning yet. Safe: nothing happens. -/
  | notModelled (mnemonic : String)
  deriving DecidableEq, Repr

/-- Who executes an instruction: a scalar stream or a lane stream of a fragment, a gaffer thread, a program slot. -/
inductive Actor where
  | none
  | scalar (core slot frag : Nat)
  | lane (core slot frag : Nat)
  | gaffer (t : Nat)
  | crux (c s : Nat)
  deriving DecidableEq, Repr

/-- One turn of the machine: time passes, a tray controller reads over the sideband (R24), an event comes about, or an agent executes
its next instruction. -/
inductive Turn where
  | elapse (ns : Nat)
  | sideband (a : SideAccess)
  | event (i : Instr)
  | agent (a : Actor)
  deriving DecidableEq, Repr

/-- An event that falls due at a time. -/
structure Timer where
  due  : Nat
  what : Instr
  deriving DecidableEq, Repr

/-- A leaf translation held in a TLB (R264). -/
structure TlbEntry where
  asid  : Nat
  level : Nat
  page  : Nat
  base  : Nat
  perm  : BitVec 3
  deriving DecidableEq, Repr

/-- The machine. -/
structure State where
  /-- The time base in ns (R78). -/
  now    : Nat := 0
  /-- Until when the time base runs at half rate (R79): nanoseconds it is ahead. -/
  ahead  : Nat := 0
  /-- Real nanoseconds since power-on, which front and lane clocks follow. -/
  ticks  : Nat := 0
  /-- The agent that executes the present instruction. -/
  cur    : Actor := .none
  /-- Who moves next; empty: the machine's own order of events, agents and timers. -/
  agenda : List Turn := []
  /-- Events that have become possible and have not come about, oldest first. -/
  queue  : List Instr := []
  timers : List Timer := []
  /-- Agents that have had their turn in the present round, and whether one of them moved. -/
  round  : List Actor := []
  moved  : Bool := false
  /-- Counter of free values (R68's draws and every other value the manual leaves open). -/
  free   : Nat := 0
  nextId : Nat := 1
  mem    : List Host.Cell := []
  /-- bytes of memory overwritten while a record is read or a launch under way, with what they held before, newest first (R260). -/
  written : List (Nat × Byte) := []
  cores  : Tbl Core := []
  clusters : Tbl Cluster := []
  dies   : Tbl Die := []
  queues : Tbl Queue := []
  runs   : List Run := []
  ctxs   : Tbl Ctx := []
  /-- UBCNT of each context handle (R222, R223). -/
  ubcnt  : Tbl Word := []
  tlb    : Tbl (List TlbEntry) := []
  pend   : List Pending := []
  /-- the next FAULTID, and the latest 256 fault records by context (R158, R169). -/
  faultId : Nat := 1
  errors : List (Nat × FaultRec) := []
  asyncs : List AsyncOp := []
  pwrcap : BitVec 5 := 16
  modl   : Module := {}
  ports  : Tbl Port := []
  circuits : Tbl Circuit := []
  links  : Tbl Link := []
  fdidValid : Bool := false
  fdid   : BitVec 12 := 0
  epdrop : Word := 0
  route  : Tbl (Bool × BitVec 3) := []
  /-- broadcast packets already forwarded: SRC and PSEQ. -/
  seen   : List (BitVec 12 × BitVec 16) := []
  pseq   : BitVec 16 := 0
  tvercur : BitVec 16 := 0
  tverseen : BitVec 16 := 0
  slotmiss : Bool := false
  errest : BitVec 16 := 0xFFFF
  master : Bool := false
  bper   : BitVec 20 := 100000
  plant  : BitVec 16 := 0
  /-- last growth of ERREST or beacon. -/
  beaconAt : Nat := 0
  gaffer : Tbl GThread := []
  cru    : Tbl Crux := []
  streams : Tbl CmdStream := []
  windows : Tbl Window := []
  /-- CONTEXT-CREATE commands so far, for the keys. -/
  creations : Nat := 0
  mgmt   : Mgmt := {}
  /-- packets from this device to its own FDID, on their way (R61). -/
  loopback : List Packet := []
  /-- what the device has sent: host packets, RDMA answers, answers of neighbour discovery and of sideband reads, packets on links,
  flits on fibres, the links' control streams. -/
  outHost : List HostPacket := []
  outRdma : List RdmaReply := []
  outNd  : List NdAnswer := []
  outSide : List (Option Word) := []
  outPkt : List (Nat × Packet) := []
  outFlit : List (Nat × List Byte) := []
  outCtl : List (Nat × BitVec 4 × LinkCtl) := []
  /-- frames discarded on the host port (R144). -/
  badFrames : Nat := 0
  deriving DecidableEq, Repr

/-- The units that hold images (R183). -/
def units : List Nat := [0, 1, 2, 3, 4, 5] ++ (List.range 16).map (fun n => 16 + n)

/-- What falls due by itself after a start: echoes (R63), the fibre-delay correction (R81), the growth of ERREST (R79), the
flash commit (R180), the powered hour (R179), the patrol scrub (R184: hourly for the L2, every 24th time for near memory too), and the idle clusters' calibration and gating (R207, R226: IDLEFC is 16,000
front cycles, 10 µs). -/
def bootTimers : List Timer :=
  [⟨1000000, .echoPeriod⟩, ⟨10000000, .rttcCorrection⟩, ⟨1000000, .errestGrowth⟩, ⟨60000000000, .flashCommit⟩,
    ⟨3600000000000, .powerOnHours⟩, ⟨3600000000000, .patrolScrub true⟩] ++
  (List.range 16).map (fun n => ⟨10000, .gateSequenceStart (BitVec.ofNat 4 n)⟩) ++
  (List.range 16).map (fun n => ⟨3600000000000, .calibrationPass (BitVec.ofNat 4 n)⟩)

/-- Right after module reset and a boot that completed (R170): every table at its reset values, memory with nothing
listed, no context, stream 0 open, window 0 valid. -/
def State.reset : State :=
  { streams := [(0, { open_ := true })]
    windows := [(0, { key := Config.window0Key, ctx := none, va := 0, len := 262144, access := 3 })]
    mgmt := { running := units.map (fun u => (u, 0)) }
    timers := bootTimers }

end Sys2Proof.Machine
end

