-- ==== Sys2Proof/Machine/Tbl.lean ====
section
/-! DEFINITION. Sparse tables, memory in its one canonical form, and byte order (R8). -/

namespace Sys2Proof.Machine

/-- What index `k` of a table holds, if it is listed. -/
def tfind {α : Type} : Tbl α → Nat → Option α
  | [], _ => none
  | (i, x) :: t, k => if i = k then some x else tfind t k

/-- What index `k` holds; `d` is the table's reset value. -/
def tget {α : Type} (d : α) (t : Tbl α) (k : Nat) : α := (tfind t k).getD d

/-- Index `k` is set to `v`; indexes stay in rising order. -/
def tset {α : Type} : Tbl α → Nat → α → Tbl α
  | [], k, v => [(k, v)]
  | (i, x) :: t, k, v => if k < i then (k, v) :: (i, x) :: t else if i = k then (k, v) :: t else (i, x) :: tset t k v

/-- Index `k` is no longer listed. -/
def tdel {α : Type} (t : Tbl α) (k : Nat) : Tbl α := t.filter (fun p => p.1 != k)

/-- The listed indexes. -/
def tkeys {α : Type} (t : Tbl α) : List Nat := t.map (fun p => p.1)

/-- Every listed value, changed by `f` from its index and value. -/
def tmap {α : Type} (t : Tbl α) (f : Nat → α → α) : Tbl α := t.map (fun p => (p.1, f p.1 p.2))

/-! Memory (R269): a list of cells with strictly rising keys and no cell that equals what an unlisted key reads as. -/

/-- What an unlisted byte reads as. DESIGN CHOICE, log 2: contents after power-on are undefined (R25). -/
def Memory.empty : Byte := 0

/-- The byte at a key. -/
def Memory.read : List Host.Cell → Nat → Byte
  | [], _ => Memory.empty
  | (i, b) :: m, k => if i = k then b else if k < i then Memory.empty else Memory.read m k

/-- The byte at key `k` becomes `b`; writing what an unlisted key reads as removes the cell. -/
def Memory.write : List Host.Cell → Nat → Byte → List Host.Cell
  | [], k, b => if b = Memory.empty then [] else [(k, b)]
  | (i, x) :: m, k, b =>
    if k < i then (if b = Memory.empty then (i, x) :: m else (k, b) :: (i, x) :: m)
    else if i = k then (if b = Memory.empty then m else (k, b) :: m)
    else (i, x) :: Memory.write m k b

/-- Bytes are written in list order. -/
def Memory.writes (m : List Host.Cell) (l : List (Nat × Byte)) : List Host.Cell :=
  l.foldl (fun m p => Memory.write m p.1 p.2) m

/-- Keys rise strictly from `lo` and no cell holds the empty value. -/
def Memory.wfFrom : Nat → List Host.Cell → Bool
  | _, [] => true
  | lo, (i, b) :: m => decide (lo ≤ i) && b != Memory.empty && Memory.wfFrom (i + 1) m

/-- The canonical form. -/
def Memory.wf (m : List Host.Cell) : Bool := Memory.wfFrom 0 m

/-! Byte order: little-endian (R8). -/

/-- The `n` low bytes of a number, least significant first. -/
def leBytes : Nat → Nat → List Byte
  | 0, _ => []
  | n + 1, x => BitVec.ofNat 8 x :: leBytes n (x / 256)

/-- The number that little-endian bytes stand for. -/
def leNat : List Byte → Nat
  | [] => 0
  | b :: l => b.toNat + 256 * leNat l

/-- `n` bytes of a list from `off`, read as a number; bytes past the end read 0. -/
def field (l : List Byte) (off n : Nat) : Nat := leNat ((l.drop off).take n)

/-- Bits [hi:lo] of a number. -/
def bits (x hi lo : Nat) : Nat := (x >>> lo) % (1 <<< (hi + 1 - lo))

/-- One bit of a number. -/
def bit (x i : Nat) : Bool := (x >>> i) % 2 == 1

/-- A bit as a number. -/
def bnat (b : Bool) : Nat := if b then 1 else 0

/-- `x` in bits from `lo` up: the building of register words. -/
def at_ (x lo : Nat) : Nat := x <<< lo

/-- Keys paired with bytes from key `k` up. -/
def cells (k : Nat) (l : List Byte) : List (Nat × Byte) :=
  (List.range l.length).zipWith (fun i b => (k + i, b)) l

/-- Ordered pairs kept first occurrence only. -/
def dedup (l : List Nat) : List Nat := l.foldl (fun acc x => if acc.contains x then acc else acc ++ [x]) []

/-- The sum of a list. -/
def sumNat (l : List Nat) : Nat := l.foldl (· + ·) 0

/-- The element of a list with the least key, the first on a tie. -/
def minBy {α : Type} (key : α → Nat) : List α → Option α
  | [] => none
  | x :: l => some (l.foldl (fun best y => if key y < key best then y else best) x)

end Sys2Proof.Machine
end

