-- ==== Sys2Proof/Machine/Base.lean ====
section
/-! DEFINITION. Access to the parts of the state, events and timers, and numbering (R3, R5, R6). -/

namespace Sys2Proof.Machine

/-- What a meaning answers. -/
abbrev Out := Host.Outcome State Fault Refusal

/-! Numbering (R3). -/
/-- Die of a core. -/
def dieOf (core : Nat) : Nat := core / 96
/-- Cluster of a core across the device. -/
def clusterOf (core : Nat) : Nat := core / 12

/-- Nanoseconds of `n` front cycles at 1.6 GHz, rounded up (R5). -/
def front (n : Nat) : Nat := (n * 5 + 7) / 8

/-! Parts of the state. -/
def State.core (s : State) (c : Nat) : Core := tget {} s.cores c
def State.setCore (s : State) (c : Nat) (x : Core) : State := { s with cores := tset s.cores c x }
def State.updCore (s : State) (c : Nat) (f : Core → Core) : State := s.setCore c (f (s.core c))
def State.cluster (s : State) (n : Nat) : Cluster := tget {} s.clusters n
def State.setCluster (s : State) (n : Nat) (x : Cluster) : State := { s with clusters := tset s.clusters n x }
def State.updCluster (s : State) (n : Nat) (f : Cluster → Cluster) : State := s.setCluster n (f (s.cluster n))
def State.die (s : State) (d : Nat) : Die := tget {} s.dies d
def State.setDie (s : State) (d : Nat) (x : Die) : State := { s with dies := tset s.dies d x }
def State.hq (s : State) (q : Nat) : Queue := tget {} s.queues q
def State.setHq (s : State) (q : Nat) (x : Queue) : State := { s with queues := tset s.queues q x }
def State.ctx? (s : State) (x : Nat) : Option Ctx := tfind s.ctxs x
def State.setCtx (s : State) (x : Nat) (c : Ctx) : State := { s with ctxs := tset s.ctxs x c }
def State.updCtx (s : State) (x : Nat) (f : Ctx → Ctx) : State :=
  match s.ctx? x with
  | some c => s.setCtx x (f c)
  | none => s
def State.port (s : State) (p : Nat) : Port := tget {} s.ports p
def State.setPort (s : State) (p : Nat) (x : Port) : State := { s with ports := tset s.ports p x }
def State.circuit (s : State) (e : Nat) : Circuit := tget {} s.circuits e
def State.setCircuit (s : State) (e : Nat) (x : Circuit) : State := { s with circuits := tset s.circuits e x }
def State.link (s : State) (l : Nat) : Link := tget {} s.links l
def State.setLink (s : State) (l : Nat) (x : Link) : State := { s with links := tset s.links l x }
def State.gth (s : State) (t : Nat) : GThread := tget {} s.gaffer t
def State.setGth (s : State) (t : Nat) (x : GThread) : State := { s with gaffer := tset s.gaffer t x }
def State.cx (s : State) (i : Nat) : Crux := tget {} s.cru i
def State.setCx (s : State) (i : Nat) (x : Crux) : State := { s with cru := tset s.cru i x }
def State.stream (s : State) (st : Nat) : CmdStream := tget {} s.streams st
def State.setStream (s : State) (st : Nat) (x : CmdStream) : State := { s with streams := tset s.streams st x }
def State.win (s : State) (w : Nat) : Option Window := tfind s.windows w

/-- Table index of a program slot: crucible × 16 + slot. -/
def slotIx (u : Slot) : Nat := u.cru.toNat * 16 + u.slot.toNat
/-- The program slot of an index. -/
def slotAt (i : Nat) : Slot := ⟨BitVec.ofNat 1 (i / 16), BitVec.ofNat 4 i⟩

def State.wave? (s : State) (w : WaveRef) : Option Wave := tfind (s.core w.core).waves w.slot
def State.setWave (s : State) (w : WaveRef) (x : Wave) : State :=
  s.updCore w.core (fun c => { c with waves := tset c.waves w.slot x })
def State.updWave (s : State) (w : WaveRef) (f : Wave → Wave) : State :=
  match s.wave? w with
  | some x => s.setWave w (f x)
  | none => s
def Wave.frag? (w : Wave) (id : Nat) : Option Fragment := w.frags.find? (fun f => f.id == id)
def Wave.setFrag (w : Wave) (f : Fragment) : Wave := { w with frags := w.frags.map (fun g => if g.id == f.id then f else g) }
def Wave.updFrag (w : Wave) (id : Nat) (f : Fragment → Fragment) : Wave :=
  { w with frags := w.frags.map (fun g => if g.id == id then f g else g) }
def State.updFrag (s : State) (w : WaveRef) (id : Nat) (f : Fragment → Fragment) : State :=
  s.updWave w (fun x => x.updFrag id f)

/-! Events and time. -/

/-- An event has become possible. -/
def State.post (s : State) (i : Instr) : State :=
  if s.queue.contains i then s else { s with queue := s.queue ++ [i] }
/-- Several events. -/
def State.posts (s : State) (l : List Instr) : State := l.foldl State.post s
/-- An event falls due at a time of the time base (R6). -/
def State.atTime (s : State) (t : Nat) (i : Instr) : State := { s with timers := s.timers ++ [⟨t, i⟩] }
/-- An event falls due after `ns`. -/
def State.after (s : State) (ns : Nat) (i : Instr) : State := s.atTime (s.now + ns) i
/-- Time passes: `now` reaches `t` (R79: at half rate while the time base is ahead). -/
def State.advance (s : State) (t : Nat) : State :=
  let d := t - s.now
  let half := min d s.ahead
  { s with now := s.now + d, ahead := s.ahead - half, ticks := s.ticks + d + half }

/-- A new number for an operation. -/
def State.fresh (s : State) : Nat × State := (s.nextId, { s with nextId := s.nextId + 1 })

/-- Folding a state over a list. -/
def State.each {α : Type} (s : State) (l : List α) (f : State → α → State) : State := l.foldl f s

/-! Free values (log 3): the counter `free` numbers them. -/
def State.takeFree (s : State) : Nat × State := (s.free, { s with free := s.free + 1 })

/-! The lane clock (R212, R225): level k runs 0.8 · 2^k edges per ns, a stretched cycle takes two periods, and no edge
comes while the cluster is gated or switching. -/

/-- Lane edges at a real time, in tenths of an edge. -/
def Cluster.edgesAt (c : Cluster) (ticks : Nat) : Nat :=
  if c.gated || c.switching then c.edges
  else
    let q := 4 * (ticks - c.edgeAt)
    let st := min q (c.stretchTo - 4 * c.edgeAt)
    c.edges + (2 * q - st) * 2 ^ c.cur
/-- The lane clock of a core runs: its cluster is neither gated nor switching (R207, R212, R215). -/
def State.laneClock (s : State) (core : Nat) : Bool := !(s.cluster (clusterOf core)).gated && !(s.cluster (clusterOf core)).switching
/-- The count is brought up to the present, before its rate changes. -/
def State.syncEdges (s : State) (n : Nat) : State :=
  s.updCluster n (fun c => { c with edges := c.edgesAt s.ticks, edgeAt := s.ticks })
/-- Lane edges of a cluster so far. -/
def State.laneCycle (s : State) (n : Nat) : Nat := (s.cluster n).edgesAt s.ticks / 10

/-! Saturating counters. -/
def satInc {n : Nat} (x : BitVec n) : BitVec n := if x.toNat + 1 < 2 ^ n then x + 1 else x
def satAdd {n : Nat} (x : BitVec n) (k : Nat) : BitVec n := BitVec.ofNat n (min (x.toNat + k) (2 ^ n - 1))
/-- Bits of `v` that are 1 are cleared in `x` (W1C, R11). -/
def w1c (x : Bool) (v i : Nat) : Bool := x && !bit v i

/-- All waves of the machine. -/
def State.allWaves (s : State) : List (WaveRef × Wave) :=
  s.cores.flatMap (fun p => p.2.waves.map (fun q => (⟨p.1, q.1⟩, q.2)))

/-- The topology version `a` is newer than `b` (R75). -/
def newer (a b : BitVec 16) : Bool := decide (1 ≤ (a - b).toNat) && decide ((a - b).toNat ≤ 32767)

/-- A sequence number `a` is later than `b` (R151). -/
def later (a b : Word) : Bool := decide (1 ≤ (a - b).toNat) && decide ((a - b).toNat ≤ 2147483647)

/-! Lifetime counters and the service log (R179, R182). -/
/-- Lifetime counter `i` grows by `n`. -/
def State.count (s : State) (i n : Nat) : State :=
  { s with mgmt := { s.mgmt with counters := tset s.mgmt.counters i (min 0xFFFFFFFF (tget 0 s.mgmt.counters i + n)) } }
/-- Histogram bin `i` grows by one. -/
def State.bin (s : State) (i : Nat) : State :=
  { s with mgmt := { s.mgmt with hist := tset s.mgmt.hist i (min 0xFFFFFFFF (tget 0 s.mgmt.hist i + 1)) } }
/-- A service log entry is written; the log keeps the latest 4,096 (R182). -/
def State.logEntry (s : State) (kind unit : Nat) (data : DWord) : State :=
  let m := s.mgmt
  let l := m.log ++ [⟨m.nextLog, kind, unit, s.now, data⟩]
  { s with mgmt := { m with log := l.drop (l.length - 4096), nextLog := m.nextLog + 1 } }

/-! The host transport (R151 to R156). -/

/-- A packet from the device to the host on a stream. -/
def hostPacket (typ st : Nat) (seq ack : Word) (payload : List Byte) : HostPacket :=
  ⟨1, BitVec.ofNat 4 typ, 0, BitVec.ofNat 10 st, seq, ack, payload⟩

/-- An ACK (R152). -/
def State.sendAck (s : State) (st : Nat) (ack : Word) : State :=
  { s with outHost := s.outHost ++ [hostPacket 2 st 0 ack []] }

/-- A CPL (3) or NOTE (4) packet: numbered, kept until acknowledged, held back while 64 are unacknowledged (R154).
Kind 0 is a completion for which no packet is asked. A record that names another stream, one that has closed (R167), is none of this
stream's completions. -/
def State.sendCpl (s : State) (st typ : Nat) (payload : List Byte) : State :=
  let c := s.stream st
  if 64 ≤ c.unacked.length then s.setStream st { c with held := c.held ++ [(typ, payload)] }
  else if typ == 0 then s.setStream st { c with completed := BitVec.ofNat 32 (field payload 8 4) }
  else
    let k := hostPacket typ st (c.cplSeq + 1) 0 payload
    let done := if typ == 3 && field payload 12 2 == st then BitVec.ofNat 32 (field payload 8 4) else c.completed
    let s := s.setStream st { c with cplSeq := c.cplSeq + 1, completed := done, unacked := c.unacked ++ [(k, s.now, 1)] }
    ({ s with outHost := s.outHost ++ [k] }).after 100000 (.cplRetransmit (BitVec.ofNat 10 st))

/-- Data of a completion in segments of at most 8,160 bytes (R156). -/
def segments : Nat → List Byte → List (List Byte)
  | 0, l => [l]
  | n + 1, l => if l.length ≤ 8160 then [l] else l.take 8160 :: segments n (l.drop 8160)

/-- A completion record (R156). TAG and OPC of a record too short to hold them are zero (DEDUCED, log 95). -/
def cplRecord (st : Nat) (seq : Word) (rec : List Byte) (status : Nat) (value : Nat) (dlen seg nseg : Nat) : List Byte :=
  let cmd := rec ++ List.replicate (16 - rec.length) 0
  (cmd.drop 8).take 8 ++ leBytes 4 seq.toNat ++ leBytes 2 st ++ leBytes 1 status ++ cmd.take 1 ++ leBytes 8 value ++
    leBytes 2 dlen ++ leBytes 2 seg ++ leBytes 2 nseg ++ leBytes 2 0

/-- A command completes: with CPL set, or with a STATUS other than OK, a completion is sent (R155, R156); the record
leaves its stream. -/
def State.complete (s : State) (st : Nat) (seq : Word) (rec : List Byte) (status value : Nat) (data : List Byte) : State :=
  let c := s.stream st
  let s := s.setStream st { c with running := c.running.filter (fun r => r.seq != seq) }
  if field rec 1 1 % 2 == 1 || status != 0 then
    let segs := segments 16 data
    s.each ((List.range segs.length).zip segs) (fun s p =>
      s.sendCpl st 3 (cplRecord st seq rec status value p.2.length p.1 segs.length ++ p.2))
  else s.sendCpl st 0 (cplRecord st seq rec status value 0 0 1)

/-- A NOTE packet (R158, R209). -/
def State.note (s : State) (st : Nat) (payload : List Byte) : State := s.sendCpl st 4 payload

end Sys2Proof.Machine
end

