-- ==== Sys2Proof/Machine/Packet.lean ====
section
/-! DEFINITION. Gaffer events (R98), the electrical packet plane (R56 to R63, R494) and the frame check sequence. -/

namespace Sys2Proof.Machine

/-! Gaffer events -/

/-- An event word is posted to a thread's queue (R98). -/
def State.gEvent (s : State) (t kind fields : Nat) : State :=
  let g := s.gth t
  if g.st == 0 || g.st == 3 then s
  else if 64 ≤ g.evq.length then s.setGth t { g with dropped := satInc g.dropped, overflow := true }
  else s.setGth t { g with evq := g.evq ++ [BitVec.ofNat 64 (at_ kind 56 + fields + s.now % 2 ^ 40)] }

/-- An event for every thread in RUN or WAIT. -/
def State.gEventAll (s : State) (kind fields : Nat) : State := s.each [0, 1, 2, 3] (fun s t => s.gEvent t kind fields)

/-- The entry in use that names a port (R98); one whose port is coming up, up or going down before one that still asks
(a crossed request, R67). -/
def State.entryOf (s : State) (p : Nat) : Option Nat :=
  let l := s.circuits.filter (fun e => e.2.port.toNat == p && e.2.st != 0 && e.2.st != 6)
  match l.find? (fun e => decide (3 ≤ e.2.st.toNat)) with
  | some e => some e.1
  | none => l.head?.map (fun e => e.1)

/-- The owner of a port's events (R98). -/
def State.portOwner (s : State) (p : Nat) : Nat :=
  match s.entryOf p with
  | some e => (s.circuit e).owner.toNat
  | none => 0

/-- A PORT event: the OPSTAT bit number of the flag that was set. -/
def State.portEvent (s : State) (p b : Nat) : State := s.gEvent (s.portOwner p) 3 (at_ p 48 + at_ b 40)

/-! The frame check sequence of IEEE 802.3 (R35, R58) -/

/-- Eight steps of the reflected polynomial. -/
def crcStep : Nat → Nat → Nat
  | 0, c => c
  | k + 1, c => crcStep k (if c % 2 == 1 then (c >>> 1) ^^^ 0xEDB88320 else c >>> 1)
/-- The check sequence of bytes, as the number whose little-endian bytes follow them. -/
def crc32 (l : List Byte) : Nat := (l.foldl (fun c b => crcStep 8 (c ^^^ b.toNat)) 0xFFFFFFFF) ^^^ 0xFFFFFFFF

/-! Packets -/

/-- Header and body as bytes (R58). -/
def packetBytes (k : Packet) : List Byte :=
  leBytes 1 (at_ k.typ.toNat 4 + k.cls.toNat) ++ [k.hops] ++ leBytes 2 k.body.length ++ leBytes 2 k.src.toNat ++ leBytes 2 k.dst.toNat ++
    leBytes 2 k.tver.toNat ++ leBytes 2 k.pseq.toNat ++ leBytes 4 k.rsv.toNat ++ k.body
/-- The frame check sequence of a packet (R58). -/
def packetFcs (k : Packet) : Word := BitVec.ofNat 32 (crc32 (packetBytes k))
/-- A packet as it crosses a link: header, body and trailer (R58). -/
def packetWire (k : Packet) : List Byte := packetBytes k ++ leBytes 4 k.fcs.toNat

/-- An echo packet (R62, R63). -/
def isEcho (k : Packet) : Bool := k.cls == 1 && (k.typ == 2 || k.typ == 3)

/-- Credits of 64 bytes that a packet needs (R494). -/
def pktCredits (k : Packet) : Nat := (20 + k.body.length + 63) / 64
/-- Full credits of class `c` (R494). -/
def fullCredits : List Nat := [8, 32, 256, 16, 256]

/-- The highest-priority packet of a link whose class holds the credit it needs (R59); without an FDID only echoes go (R60). -/
def Link.pick (x : Link) (valid : Bool) : Option Waiting :=
  [1, 2, 3, 4, 5].findSome? (fun c =>
    match x.waiting.find? (fun w => w.pkt.cls.toNat == c && (valid || isEcho w.pkt)) with
    | some w => if pktCredits w.pkt ≤ x.credits.getD (c - 1) 0 then some w else none
    | none => none)

/-- The FDID that this device's packets carry (R63). -/
def State.ownFdid (s : State) : BitVec 16 := if s.fdidValid then s.fdid.zeroExtend 16 else 0

/-- What a packet gets as it begins on a link: the device's present FDID (R60), the times of an echo and RFDID (R63), the send time of a
master's beacon, and in CORR the link's delay and the real time that a forwarded one has stayed here (R78), its number on the link
(R57) and its check sequence (R58). -/
def State.stamp (s : State) (l : Nat) (w : Waiting) : Packet :=
  let x := s.link l
  let k := w.pkt
  let b := k.body
  let corr : Int := (field b 8 4 : Int) + x.delay + (if w.from_.isNone then 0 else 16 * ((s.ticks - w.since : Nat) : Int))
  let body := match k.cls.toNat, k.typ.toNat with
    | 1, 1 => (if w.from_.isNone then leBytes 8 s.now else b.take 8) ++ leBytes 4 (corr % 4294967296).toNat ++ b.drop 12
    | 1, 2 => leBytes 8 s.now ++ b.drop 8
    | 1, 3 => b.take 16 ++ leBytes 8 s.now ++ leBytes 2 s.ownFdid.toNat ++ b.drop 26
    | _, _ => b
  let k := { k with
    body := body, lseq := some (x.txSeq + 1), src := if w.from_.isNone then s.ownFdid else k.src
    dst := if isEcho k && k.typ == 2 then s.ownFdid else k.dst }
  { k with fcs := packetFcs k }

/-- An entry of a link's control stream leaves (R57, R494): credits, and the last packet accepted or a request for replay. -/
def State.control (s : State) (l : Nat) (cls : BitVec 4) (n : Nat) : State :=
  { s with outCtl := s.outCtl ++ [(l, cls, ⟨n, (s.link l).rxSeq, (s.link l).nak⟩)] }

/-- A packet leaves the buffer of the link it came over, and its credits go back (R494). -/
def State.freed (s : State) (l : Nat) (k : Packet) : State := if k.lseq.isNone then s else s.control l k.cls (pktCredits k)

/-- A packet begins on a link. -/
def State.sendOn (s : State) (l : Nat) (w : Waiting) : State :=
  let x := s.link l
  let i := w.pkt.cls.toNat - 1
  let k := s.stamp l w
  let request := isEcho k && k.typ == 2
  let x := { x with
    waiting := x.waiting.erase w, credits := x.credits.set i (x.credits.getD i 0 - pktCredits k)
    txSeq := x.txSeq + 1, unacked := x.unacked ++ [k], echo := if request then some s.now else x.echo }
  let s := { s.setLink l x with outPkt := s.outPkt ++ [(l, k)] }
  let s := match w.from_ with
    | some i => s.freed i w.pkt
    | none => s
  if request then s.after 20000 (.echoTimeout (BitVec.ofNat 3 l)) else s

/-- A link sends while a packet is ready and has credit, and stalls while 64 are unacknowledged (R57, R59, R494). -/
def State.pumpGo (s : State) (l : Nat) : Nat → State
  | 0 => s
  | n + 1 =>
    let x := s.link l
    if !x.up || decide (64 ≤ x.unacked.length) then s
    else match x.pick s.fdidValid with
      | none => s
      | some w => (s.sendOn l w).pumpGo l n
def State.pump (s : State) (l : Nat) : State := s.pumpGo l (s.link l).waiting.length

/-- A packet waits on a link. It stays there while the link is not in service (DESIGN CHOICE, log 79). -/
def State.toLink (s : State) (l : Nat) (k : Packet) (from_ : Option Nat) : State :=
  (s.setLink l { s.link l with waiting := (s.link l).waiting ++ [⟨k, from_, s.ticks⟩] }).pump l

/-- A packet is discarded and counted. -/
def State.epDrop (s : State) : State := { s with epdrop := satInc s.epdrop }

/-- The link that the route table names, if a packet from link `inl` may take it (R61). -/
def State.routeTo (s : State) (dst : Nat) (inl : Option Nat) : Option Nat :=
  match tfind s.route dst with
  | some (true, l) => if inl == some l.toNat then none else some l.toNat
  | _ => none

/-- A broadcast that this device has sent or sent on is noted, until its source's PSEQ is a quarter of its range away (R61; DESIGN
CHOICE, log 79). -/
def State.noteSeen (s : State) (k : Packet) : State :=
  let src : BitVec 12 := k.src.truncate 12
  let near (q : BitVec 16) : Bool := decide ((k.pseq - q).toNat < 16384) || decide (49152 ≤ (k.pseq - q).toNat)
  { s with seen := s.seen.filter (fun p => p.1 != src || near p.2) ++ [(src, k.pseq)] }

/-- A packet of this device begins its way (R60, R61); one to this device is delivered here. -/
def State.sendPacket (s : State) (k : Packet) : State :=
  if !s.fdidValid then s
  else if k.dst.toNat % 4096 == 0xFFF then (s.noteSeen k).each (List.range 8) (fun s l => s.toLink l k none)
  else if k.dst == s.fdid.zeroExtend 16 then { s with loopback := s.loopback ++ [k] }
  else match s.routeTo (k.dst.toNat % 4096) none with
    | some l => s.toLink l k none
    | none => s.epDrop

/-- A packet built by this device. -/
def State.packet (s : State) (cls typ dst : Nat) (pseq : BitVec 16) (body : List Byte) : Packet :=
  { typ := BitVec.ofNat 4 typ, cls := BitVec.ofNat 4 cls, hops := 0, src := s.ownFdid, dst := BitVec.ofNat 16 dst
    tver := s.tvercur, pseq := pseq, rsv := 0, body := body }

/-- The next number of PSEQ. -/
def State.nextPseq (s : State) : BitVec 16 × State := (s.pseq, { s with pseq := s.pseq + 1 })

/-- A delivery NACK to a device (R76). -/
def State.sendNack (s : State) (dst xfer off fail : Nat) : State :=
  s.sendPacket (s.packet 4 2 dst 0 (leBytes 2 xfer ++ leBytes 4 off ++ leBytes 1 fail ++ List.replicate 25 0))

/-- The largest body and the allowed types of a class (R59, R62). -/
def pktShapeOk (k : Packet) : Bool :=
  let n := k.body.length
  match k.cls.toNat, k.typ.toNat with
  | 1, 1 | 1, 2 | 1, 3 => decide (n ≤ 32)
  | 2, 1 | 2, 2 | 2, 3 | 2, 4 | 2, 5 => decide (n ≤ 64)
  | 3, 1 | 5, 1 => decide (n ≤ 4096)
  | 4, 1 | 4, 2 | 4, 3 | 4, 4 => decide (n ≤ 32)
  | _, _ => false

/-- No reserved field of the header is nonzero (R58). -/
def pktReservedOk (k : Packet) : Bool :=
  k.rsv == 0 && decide (k.src.toNat < 4096) && decide (k.dst.toNat < 4096)

/-! Arrival -/

/-- Link replay accepts a packet (R38, R57, R58): its check sequence holds and its number is the one expected. -/
def State.linkTakes (s : State) (l : Nat) (k : Packet) : Bool :=
  match k.lseq with
  | some q => k.fcs == packetFcs k && q == (s.link l).rxSeq + 1
  | none => true

/-- The link after an accepted packet, which its control stream acknowledges (R38, R57). -/
def State.took (s : State) (l : Nat) (k : Packet) : State :=
  match k.lseq with
  | some q => (s.setLink l { s.link l with rxSeq := q, nak := false }).control l 0 0
  | none => s

/-- A packet that link replay does not accept is discarded, and the link asks for replay (R38, R57). -/
def State.linkRefuse (s : State) (l : Nat) : State :=
  let s := s.setLink l { s.link l with nak := true }
  s.control l 0 0

/-- Whether a packet of a class and type other than an echo is delivered here: the checks of R58, R60 and R61 made for
every row that takes a delivered packet. A broadcast is delivered too. -/
def State.delivered (s : State) (k : Packet) (cls typ : Nat) : Bool :=
  s.fdidValid && pktShapeOk k && pktReservedOk k && k.cls.toNat == cls && k.typ.toNat == typ && k.hops != 15 &&
    (k.dst == s.fdid.zeroExtend 16 || k.dst == 0xFFF)

/-- A broadcast goes on, on every link but the one it came from, once per SRC and PSEQ (R61). It has left its buffer by its delivery:
the copies that go on hold no credit of the link it came from (R494; DESIGN CHOICE, log 8). -/
def State.broadcastOn (s : State) (inl : Nat) (k : Packet) : State :=
  if k.dst != 0xFFF || s.seen.contains (k.src.truncate 12, k.pseq) then s
  else (s.noteSeen k).each ((List.range 8).filter (fun l => l != inl)) (fun s l =>
    s.toLink l { k with hops := k.hops + 1, lseq := none } (some inl))

/-- The state after a packet delivered here has left its link's buffer and, if it is a broadcast, has gone on (R57, R61, R494). -/
def State.received (s : State) (l : Nat) (k : Packet) : State := ((s.took l k).freed l k).broadcastOn l k

/-- An arriving packet of one row (R57, R58, R60, R61): whether the row takes it, and the state after link replay, the checks, the
return of its credits and the forwarding of a broadcast. `bodyOk`: no reserved field of its body is nonzero. -/
def State.receive (s : State) (l : Nat) (k : Packet) (cls typ : Nat) (bodyOk : Bool) : Bool × State :=
  let bad := !pktShapeOk k || !pktReservedOk k || k.hops == 15 || !bodyOk
  if k.cls.toNat != cls || k.typ.toNat != typ then (false, s)
  else if !s.linkTakes l k then (false, s.linkRefuse l)
  else
    let t := (s.took l k).freed l k
    if !s.fdidValid then (false, t)
    else if s.delivered k cls typ && bodyOk then (true, s.received l k)
    else if bad then (false, t.epDrop)
    else (false, s)

end Sys2Proof.Machine
end

