-- ==== Sys2Proof/Machine/PortOps.lean ====
section
/-! DEFINITION. What ports and circuit entries do on their own: transitions, flits, states of entries, control packets
(R31 to R55, R64 to R73). -/

namespace Sys2Proof.Machine

/-! Flits -/

/-- The bytes of a flit (R35). -/
def flitBytes (typ : Nat) (nak : Bool) (tver seq ack : Nat) (payload : List Byte) : List Byte :=
  let l := leBytes 1 (at_ typ 4 + bnat nak) ++ leBytes 1 0 ++ leBytes 2 tver ++ leBytes 2 seq ++ leBytes 2 ack ++ payload
  l ++ leBytes 4 (crc32 l)

/-- The 244 bytes of a flit's payload (R35): an engine's; or, where the manual lays none out, free bytes, which for a handshake
flit show a TARGET (R42, log 63). -/
def Flit.bytes (f : Flit) : List Byte :=
  if f.typ == 2 then (List.range 244).map (Config.handshakeByte f.shows)
  else if f.typ == 4 then (List.range 244).map Config.idleByte
  else f.payload

/-- The last SEQ that may be acknowledged: flits whose bytes are not yet performed hold it back (R406). -/
def Port.ackSeq (x : Port) : BitVec 16 := match x.inbox with | (q, _) :: _ => q - 1 | [] => x.rxSeq

/-- The topology version a port shows: its circuit's, or TVERCUR (R42). -/
def State.portVer (s : State) (p : Nat) : BitVec 16 :=
  match s.entryOf p with
  | some e => (s.circuit e).tver
  | none => s.tvercur

/-- Whether a port takes a new flit from an engine (R38, R43). -/
def State.portTakes (s : State) (p : Nat) : Bool :=
  let x := s.port p
  x.st == 3 && x.trans.isNone && decide (x.unacked.length < 64)

/-- The lit wavelengths of a port (R33). -/
def litWaves (lit : BitVec 4) : Nat := 4 * ((List.range 4).filter (fun i => bit lit.toNat i)).length
/-- The time of one flit on the lit wavelengths at 200 Gb/s each, in 1/100 ns (R34). -/
def flitTime (lit : BitVec 4) : Nat := 1024 / max (litWaves lit) 1
/-- The time of 128 flits in ns (R38). -/
def flitTimes (lit : BitVec 4) : Nat :=
  let w := litWaves lit
  (131072 + 100 * w - 1) / (100 * max w 1)

/-- What this end shows the far end (R41, R42): its lit groups, whether its TARGET is LIVE, its version. A port whose loop back is in
effect receives it itself (R53). -/
def State.shown (s : State) (p : Nat) : FarEnd := ⟨(s.port p).lit, (s.port p).target == 2, s.portVer p⟩

/-- The training sequence that a port in LOCKING sends (R42): its TARGET and version. -/
def State.training (s : State) (p : Nat) : Option (BitVec 2 × BitVec 16) :=
  if (s.port p).st == 1 then some ((s.port p).target, s.portVer p) else none

/-- Flits go onto the fibre of a port, one after another. Each carries the port's ACKSEQ of that time, and NAK from a discard until
the expected flit arrives (R35, R38). With loop back in effect they reach the port's own receiver after the loop's delay (R53). -/
def State.emit (s : State) (p : Nat) (l : List Flit) : State :=
  let x := s.port p
  let out := l.map (fun f => (f, flitBytes f.typ x.nak f.tver.toNat f.seq.toNat x.ackSeq.toNat f.bytes))
  let s := { s.setPort p { x with txFree := max (100 * s.now) x.txFree + l.length * flitTime x.lit } with
    outFlit := s.outFlit ++ out.map (fun f => (p, f.2)) }
  if x.looped then
    s.each out (fun s f => s.after ((Config.loopDelay p).toNat / 10)
      (.flitReceive (BitVec.ofNat 5 p) ⟨f.2, 0, 0, if f.1.typ == 2 then some (s.shown p) else none⟩))
  else s

/-- A numbered flit is handed to a port (R38). -/
def State.sendFlit (s : State) (p typ : Nat) (payload : List Byte) (owner : FlitOwner) (shows : BitVec 2 := 0) : State :=
  let x := s.port p
  let f : Flit := ⟨x.txSeq + 1, typ, s.portVer p, payload, owner, shows⟩
  (s.setPort p { x with txSeq := x.txSeq + 1, unacked := x.unacked ++ [f] }).emit p [f]

/-- The next handshake flit or drain marker of a port that waits for room in the replay buffer (R38): a handshake flit shows the
TARGET of its sending (R42), a marker has a payload of zeros (R74). -/
def State.sendStalled (s : State) (p : Nat) : Nat → State
  | 0 => s
  | n + 1 =>
    let x := s.port p
    match x.stalled with
    | [] => s
    | t :: l =>
      if 64 ≤ x.unacked.length then s
      else
        let s := s.setPort p { x with stalled := l, marker := if t == 3 then some (x.txSeq + 1) else x.marker }
        (s.sendFlit p t (if t == 3 then List.replicate 244 0 else []) .none (if t == 2 then x.target else 0)).sendStalled p n

/-- A port sends a handshake flit (2) or a drain marker (3) as soon as the replay buffer has room (R38). -/
def State.sendOwn (s : State) (p typ : Nat) : State :=
  let x := s.port p
  let l := x.stalled ++ [typ]
  (s.setPort p { x with stalled := l }).sendStalled p l.length

/-- A TRAINED port sends its TARGET and version in a handshake flit (R38, R42): on entry, and whenever one of them changes. -/
def State.sendHandshake (s : State) (p : Nat) : State := if (s.port p).st != 2 then s else s.sendOwn p 2

/-- An unnumbered acknowledge-only flit (R38). -/
def State.sendAckOnly (s : State) (p : Nat) : State := s.emit p [⟨Config.unusedSeq, 4, s.portVer p, [], .none, 0⟩]

/-- The next acknowledge-only flit is due within 128 flit times (R38). -/
def State.armAck (s : State) (p : Nat) : State :=
  let i := Instr.ackOnlyFlit (BitVec.ofNat 5 p)
  if s.timers.any (fun t => t.what == i) then s else s.after (flitTimes (s.port p).lit) i

/-- Counters change, but a count that falls in the cycle of a clear is lost (R54; cycles of one ns are taken as one, log 80). -/
def Port.tally (x : Port) (now : Nat) (f : Port → Port) : Port := if x.clearedAt == some now then x else f x

/-- Updates one operation of the asynchronous engines. -/
def State.updAsync (s : State) (id : Nat) (f : AsyncOp → AsyncOp) : State :=
  { s with asyncs := s.asyncs.map (fun o => if o.id == id then f o else o) }

/-- Class of the counter an engine counts on (R232, R403): cp 0, gt 2, cl 4, ms 5. -/
def asyncClass : AsyncKind → Nat
  | .copy => 0
  | .gather => 2
  | .coll => 4
  | .message _ => 5

/-- An operation ends with a cause (R404): it moves no further byte and retires in order. -/
def State.endAsync (s : State) (id cause : Nat) : State :=
  match s.asyncs.find? (fun o => o.id == id) with
  | none => s
  | some o =>
    if o.stage == 4 then s
    else (s.updAsync id (fun o => { o with stage := 4, cause := cause, flits := [], resend := [] })).post
      (.asyncRetire o.w (BitVec.ofNat 3 (asyncClass o.kind)))

/-- Everything below stream offset `e` has been acknowledged. -/
def OutStream.ackedTo (o : OutStream) (now e : Nat) : Bool :=
  o.flying.all (fun p => decide (e ≤ p.1)) && o.fresh.all (fun p => decide (e ≤ p.1) || decide (p.2 ≤ now)) && o.resend.all (fun p => decide (e ≤ p.1)) && decide (e ≤ o.sent - o.queue.length)

/-- A data step with every byte received, applied, sent and acknowledged. -/
def Crux.stepDone (x : Crux) (now : Nat) (d : DataStep) : Bool :=
  decide (d.bytes ≤ d.done) && d.fault.isNone && d.ends.all (fun p => (tget {} x.outs p.1).ackedTo now p.2)

/-- Complete data steps make their countdowns (R134). -/
def State.checkSteps (s : State) (i : Nat) : State :=
  let x := s.cx i
  s.posts ((x.outst.filter (fun d => x.stepDone s.now d)).map (fun d => .dataStepComplete (slotAt i) d.id))

/-- The crucible slot that a data flit names (R132). -/
def flitSlot (l : List Byte) : Nat := bits (field l 16 8) 4 4 * 16 + bits (field l 16 8) 3 0

/-- The rank that an instance reaches over a circuit entry (R124). -/
def Crux.rankOf (x : Crux) (e : Nat) : Option Nat :=
  match x.desc with
  | none => none
  | some d => (List.range d.n).find? (fun r => r != d.rank && (x.rmap.getD r (0, 0)).1 == e)

/-- A stream has made progress now: data landed, or bytes sent, acknowledged or credited (R133). -/
def Crux.hear (x : Crux) (key now : Nat) : Crux := { x with heard := tset x.heard key now }

/-- A circuit copy has had every flit acknowledged (R406). -/
def AsyncOp.allAcked (o : AsyncOp) : Bool := o.flits.isEmpty && o.resend.isEmpty && decide (field o.desc 16 4 ≤ o.next)

/-- A flit of an engine was acknowledged; a crucible's of streams that are gone changes nothing. It counts as acknowledged a free time later: a
NACK of R76 that names it, which the link acknowledged all the same (R37, R406), may still be on its way over the packet plane, and no
rule bounds how late it comes (DESIGN CHOICE, log 20). -/
def State.flitAcked (s : State) (f : Flit) : State :=
  let off := field f.payload 4 4
  match f.owner with
  | .none => s
  | .copy id =>
    let s := s.updAsync id (fun o => { o with flits := o.flits.erase off })
    match s.asyncs.find? (fun o => o.id == id) with
    | some o => if o.stage == 2 && o.allAcked then
        let (n, s) := s.takeFree
        let d := Config.freeNackWait n
        (s.updAsync id (fun o => { o with due := s.now + d })).after d (.copyComplete id)
      else s
    | none => s
  | .cru c k gen r =>
    let i := c * 16 + k
    let x := s.cx i
    if x.gen != gen || field f.payload 8 8 / 32 % 8 != 0 then s
    else
        let o := tget {} x.outs r
        let so := bits (field f.payload 8 8) 39 8
        let hit := o.flying.filter (fun q => q.1 % 4294967296 == so)
        let kept := (o.kept ++ hit).filter (fun q => decide (o.credit < q.1 + q.2.length))
        let (n, s) := s.takeFree
        let wait := Config.freeNackWait n
        let fresh := o.fresh.filter (fun q => decide (s.now < q.2)) ++ hit.map (fun q => (q.1, s.now + wait))
        let s := s.setCx i { x.hear (2 * r + 1) s.now with outs := tset x.outs r { o with
          flying := o.flying.filter (fun q => q.1 % 4294967296 != so), kept := kept, fresh := fresh } }
        s.each (x.outst.filter (fun d => d.ends.any (fun e => e.1 == r))) (fun s d =>
          s.after wait (.dataStepComplete (slotAt i) d.id))

/-- A flit of an engine was reported not delivered: it is to be sent again (R73, R133). -/
def State.flitLost (s : State) (f : Flit) : State :=
  let off := field f.payload 4 4
  match f.owner with
  | .none => s
  | .copy id => s.updAsync id (fun o => { o with flits := o.flits.erase off, resend := if o.flits.contains off then o.resend ++ [off] else o.resend })
  | .cru c k gen r =>
    let i := c * 16 + k
    let x := s.cx i
    if x.gen != gen then s
    else if field f.payload 8 8 / 32 % 8 != 0 then
        let n := tget {} x.ins r
        s.setCx i { x with ins := tset x.ins r { n with due := field f.payload 24 4 :: n.due } }
    else
        let o := tget {} x.outs r
        let so := bits (field f.payload 8 8) 39 8
        let hit := o.flying.filter (fun q => q.1 % 4294967296 == so)
        s.setCx i { x with outs := tset x.outs r { o with flying := o.flying.filter (fun q => q.1 % 4294967296 != so), resend := o.resend ++ hit } }

/-- Every flit of the replay buffer is reported not delivered (R43 to R45), and DRAINLOST is set: for any flit where a drain, a loss of
light or a relock's end loses it (`all`), else for a data flit or a marker. Numbering goes on past the flits dropped here, which the
far end still expects (DESIGN CHOICE, log 9). -/
def State.loseFlits (s : State) (p : Nat) (all : Bool) : State :=
  let x := s.port p
  let l := x.unacked
  let s := s.setPort p { x with
    unacked := [], stalled := [], marker := none, drainlost := x.drainlost || l.any (fun f => all || f.typ != 2) }
  s.each l (fun s f => s.flitLost f)

/-! Circuit entries -/

/-- A control packet of a circuit (R64, R65): the requester sends to the first switch, the accepting end to the last one. -/
def State.sendCtl (s : State) (e typ code : Nat) (readyat : DWord) : State :=
  let c := s.circuit e
  let n := c.hopcnt.toNat
  let hop := if c.side then n - 1 else 0
  let dst := bits (c.route.getD hop 0).toNat 31 20
  let req := if c.side then c.peerport else c.port
  let far := if c.side then c.port else c.peerport
  s.sendPacket (s.packet 2 typ dst 0
    (leBytes 1 c.reqEntry.toNat ++ leBytes 1 hop ++ leBytes 1 c.grpmask.toNat ++ leBytes 1 code ++ leBytes 1 req.toNat ++
      leBytes 1 far.toNat ++ leBytes 2 n ++ leBytes 8 readyat.toNat ++ List.replicate 16 0 ++
      c.route.flatMap (fun w => leBytes 4 w.toNat)))

/-- Copies waiting at or sending through the barrier of an entry end with CIRCLOST (R73). -/
def State.circLost (s : State) (e : Nat) : State :=
  s.each (s.asyncs.filter (fun o => o.kind == .copy && o.entry == e && o.stage == 2 && !o.allAcked)) (fun s o => s.endAsync o.id 3)

/-- An entry is rewritten; a change of STATE posts an ENTRY event to its OWNER (R71, R98), and an entry that enters
FREE or FAILED ends the copies at its barrier. -/
def State.moveEntry (s : State) (e : Nat) (c : Circuit) : State :=
  let old := s.circuit e
  let s := s.setCircuit e c
  if old.st == c.st then s
  else
    let s := s.gEvent c.owner.toNat 1 (at_ e 48 + at_ c.st.toNat 44 + at_ c.status.toNat 40)
    if c.st == 0 || c.st == 6 then s.circLost e else s

/-- An entry fails with a status and, where the rule says so, sends TEAR with that code (R71). -/
def State.failEntry (s : State) (e : Nat) (status : BitVec 4) (tear : Bool) : State :=
  let s := s.moveEntry e { s.circuit e with st := 6, status := status, slotOpen := false, window := none }
  if tear then s.sendCtl e 4 status.toNat 0 else s

/-- A TEAR is sent and its TACK awaited for 500 µs (R71). -/
def State.sendTear (s : State) (e code : Nat) : State :=
  let s := s.sendCtl e 4 code 0
  (s.setCircuit e { s.circuit e with due := s.now + 500000, tearPending := false }).after 500000 (.tearTimeout (BitVec.ofNat 6 e))

/-- Entries that a release put into RELEASING send their TEAR, once their port carries nothing any more (R71, R113). -/
def State.releasedTears (s : State) (p : Nat) : State :=
  s.each (s.circuits.filter (fun e => e.2.port.toNat == p && e.2.tearPending && e.2.st == 5)) (fun s e => s.sendTear e.1 0)

/-- The drain of a port is over, however it ended: drain windows close (R76), and released entries send their TEAR. -/
def State.drainOver (s : State) (p : Nat) : State :=
  (s.each (s.circuits.filter (fun e => e.2.port.toNat == p)) (fun s e =>
    s.setCircuit e.1 { s.circuit e.1 with window := none })).releasedTears p

/-- A port event of R40, R41, R42 or R45: entries of the port in RESERVED or LIVE fail (R71); a loss of a peer is
counted by R84's rule in FAILED with STATUS 0x6. -/
def State.portFailed (s : State) (p : Nat) (status : BitVec 4) : State :=
  match s.entryOf p with
  | none => s
  | some e => if (s.circuit e).st == 3 || (s.circuit e).st == 4 then s.failEntry e status true else s

/-- A port has become DARK: entries that waited for it become FREE (R71). -/
def State.portDark (s : State) (p : Nat) : State :=
  s.each (s.circuits.filter (fun e => e.2.port.toNat == p && e.2.freeOnDark)) (fun s e =>
    s.moveEntry e.1 { s.circuit e.1 with st := 0, freeOnDark := false })

/-- An entry that waits for a port which is DARK already is FREE at once. -/
def State.freeIfDark (s : State) (p : Nat) : State := if (s.port p).st == 0 && (s.port p).trans.isNone then s.portDark p else s

/-! The port state machine -/

/-- The sets of groups that carry traffic (R33). -/
def grpOk (g : BitVec 4) : Bool := [1, 2, 4, 8, 3, 12, 15].contains g.toNat

/-- The port's laser source is present and passes its self-test (R39, R45). -/
def State.elsOk (s : State) (p : Nat) : Bool := bit (s.modl.elspres &&& s.modl.elsok).toNat (p / 8)

/-- An OPCTL write is refused (R45 to R47). -/
def Port.refuse (x : Port) (code : BitVec 8) : Port := { x with badreq := true, lasterr := code }

/-- The number of the slot of a SLOTTED circuit that holds the present time (R77). -/
def State.slotNow (s : State) (c : Circuit) : Option Nat :=
  if !c.slotted || c.slotper == 0 || s.now < c.slotbase.toNat then none
  else if (s.now - c.slotbase.toNat) % c.slotper.toNat < c.slotlen.toNat then some ((s.now - c.slotbase.toNat) / c.slotper.toNat) else none

/-- The circuit of a port is in a slot that was not opened (R80). -/
def State.portMissed (s : State) (p : Nat) : Bool :=
  match s.entryOf p with
  | some e => (s.circuit e).missed.isSome && (s.circuit e).missed == s.slotNow (s.circuit e)
  | none => false

/-- A port in LOCKING whose loop back is in effect receives its own light and training sequence (R53): its 14 µs run from its
entry. -/
def State.loopLight (s : State) (p : Nat) : State :=
  let x := s.port p
  if x.st != 1 || !x.looped then s
  else
    let x := { x with far := some (s.shown p), farAt := some s.now }
    if x.lightAt.isSome || (match x.trans with | some (2, _) => true | _ => false) then s.setPort p x
    else (s.setPort p { x with lightAt := some s.now, trans := some (5, s.now + 14000) })

/-- A handshake of a TRAINED port whose TARGET is LIVE, once the far end agrees (R42): LIVE 0.5 µs after the later of its
entry into TRAINED and the moment it learned. In a slot that was not opened the port stays TRAINED (R80). -/
def State.tryHandshake (s : State) (p : Nat) : State :=
  let x := s.port p
  match x.far with
  | none => s
  | some f =>
    if x.st == 2 && x.target == 2 && x.trans.isNone && f.live && f.ver == s.portVer p && !s.portMissed p then
      let t := max (max x.since (x.farAt.getD 0)) x.targetAt + 500
      (s.setPort p { x with trans := some (4, t) }).atTime t (.handshakeLive (BitVec.ofNat 5 p))
    else s

/-- A port moves towards its TARGET along the table of R39; a transition under way runs to its end, but LOCKING is
abandoned at once (R46). -/
def State.portMove (s : State) (p : Nat) : State :=
  let x := s.port p
  let i := BitVec.ofNat 5 p
  let gate := (s.setPort p { x with trans := some (2, s.now + 200), relock := false, lightAt := none, mismatchAt := [] }).after 200 (.portGated i)
  match x.st.toNat with
  | 0 =>
    if x.trans.isNone && x.target != 0 && grpOk x.grpmask && s.elsOk p && !x.down then
      (s.setPort p { x with trans := some (1, s.now + 3000) }).after 3000 (.laserWakeDone i)
    else s
  | 1 => if x.target == 0 && (match x.trans with | some (2, _) => false | _ => true) then gate else s
  | 2 =>
    if x.trans.isSome then s
    else if x.target == 0 then gate
    else if x.target == 2 then s.tryHandshake p
    else s
  | _ =>
    if x.trans.isNone && x.target != 2 then
      (((s.setPort p { x with trans := some (3, s.now + 1000) }).sendOwn p 3)).after 1000 (.drainEnd i)
    else s

/-- A TRAINED port whose TARGET is LIVE keeps trying for 20 µs plus RTTC (R42). -/
def State.armVermis (s : State) (p : Nat) : State :=
  let x := s.port p
  if x.st == 2 && x.target == 2 then s.after (20000 + x.rttc.toNat / 10) (.vermis (BitVec.ofNat 5 p)) else s

/-- The TARGET that names a state of R39; none for LOCKING. -/
def stateTarget (st : BitVec 2) : Option (BitVec 2) := match st.toNat with | 0 => some 0 | 2 => some 1 | 3 => some 2 | _ => none

/-- A write of TARGET (R45, R46). One that names the state of a port with no transition under way has no effect; while one is under
way, the port moves towards the new TARGET after it (DEDUCED, log 80). A write to a port whose engine is down is refused (R185). -/
def State.writeTarget (s : State) (p : Nat) (t : BitVec 2) : State :=
  let x := s.port p
  if x.down || t == 3 then s.setPort p (x.refuse 1)
  else if t != 0 && !s.elsOk p then s.setPort p { x.refuse 1 with target := if x.st == 0 then 0 else x.target }
  else if t == x.target || (x.trans.isNone && stateTarget x.st == some t) then s
  else
    let s := ((s.setPort p { x with target := t, targetAt := s.now }).sendHandshake p).portMove p
    let s := s.loopLight p
    if t == 2 && x.st == 2 then s.armVermis p else s

/-- A write of GRPMASK (R46). In DARK it takes effect in a wake too: the wake's end lights the groups then requested. Where TARGET is
already set, the write of a valid set starts the wake (DESIGN CHOICE, log 80). -/
def State.writeGrp (s : State) (p : Nat) (g : BitVec 4) : State :=
  let x := s.port p
  if g == x.grpmask then s
  else if !grpOk g then s.setPort p (x.refuse 4)
  else if x.st == 0 then (s.setPort p { x with grpmask := g }).portMove p
  else if x.st == 2 && g &&& x.lit == g then s.setPort p { x with grpmask := g, lit := g }
  else s.setPort p (x.refuse 4)

/-- A write of CALREQ: a TRAINED port passes through LOCKING again, and a handshake under way is taken up after it (R47); one whose
groups are being gated goes on to DARK. -/
def State.writeCal (s : State) (p : Nat) : State :=
  let x := s.port p
  if x.st == 2 then
    let gating := match x.trans with | some (2, _) => true | _ => false
    let far := if x.looped then none else x.far
    let light := match far with | some f => f.groups == x.lit | none => false
    let s := s.setPort p { x with
      st := 1, recal := true, relock := false, since := s.now, looped := x.loopbk, far := far
      lightAt := if light && !gating then some s.now else none
      trans := if gating then x.trans else if light then some (5, s.now + 14000) else none }
    (((s.portMove p).loopLight p).after 200000 (.lockTimeout (BitVec.ofNat 5 p))).releasedTears p
  else s.setPort p (x.refuse 6)

/-- CLRCNT (R54); the lifetime record accumulates OPLOSS and the BERHIGH events at each clear (R179, R181). -/
def State.clearCounts (s : State) (p : Nat) : State :=
  let x := s.port p
  ((s.setPort p { x with fecc := 0, fecu := 0, crce := 0, rply := 0, loss := 0, clearedAt := some s.now, berEvents := 0 }).count
    (144 + 2 * p) x.loss.toNat).count (145 + 2 * p) x.berEvents

/-- A write of OPCTL as one word: GRPMASK, then TARGET, then CALREQ and CLRCNT. -/
def State.writeOpctl (s : State) (p : Nat) (v : Nat) : State :=
  let s := s.writeGrp p (BitVec.ofNat 4 (v / 16))
  let s := s.writeTarget p (BitVec.ofNat 2 v)
  let s := if bit v 2 then s.writeCal p else s
  if bit v 3 then s.clearCounts p else s

/-- OPSTAT (R52). BUSY shows a transition of R39 from its trigger on: in LOCKING from the arrival of far-end light (DESIGN CHOICE,
log 80). -/
def Port.opstat (x : Port) : Nat :=
  at_ x.st.toNat 30 + at_ x.lit.toNat 26 + at_ (bnat x.trans.isSome) 25 +
  at_ (bnat (match x.trans with | some (3, _) => true | _ => false)) 24 + at_ x.lasterr.toNat 16 +
  at_ (bnat x.vermis) 8 + at_ (bnat x.laserlost) 7 + at_ (bnat x.lockfail) 6 + at_ (bnat x.lockloss) 5 +
  at_ (bnat x.drainlost) 4 + at_ (bnat x.berhigh) 3 + at_ (bnat x.badreq) 2 + bnat x.caldone

/-- A loss of laser light (R45). A DARK port has no light to lose: only its TARGET is cleared, so that it stays DARK until TARGET is
written (R50); in a wake it loses the light it waits for, with LASERLOST and LASTERR but no entry to DARK to count (R54; DESIGN
CHOICE, log 80). -/
def State.loseLight (s : State) (p : Nat) : State :=
  let x := s.port p
  if x.st == 0 && x.trans.isNone then s.setPort p { x with target := 0 }
  else
    let x := if x.st == 0 then x else x.tally s.now (fun x => { x with loss := satInc x.loss })
    let s := s.setPort p { x with
      st := 0, lit := 0, trans := none, target := 0, laserlost := true, lasterr := 2
      recal := false, relock := false, far := none, farAt := none, lightAt := none, mismatchAt := [] }
    ((((s.loseFlits p true).drainOver p).portFailed p 6).portDark p)

/-! Circuit-live barriers, requests, releases -/

/-- The slot of a SLOTTED circuit whose usable part holds the present time (R77). -/
def State.inSlot (s : State) (c : Circuit) : Bool :=
  let b := c.slotbase.toNat
  let per := c.slotper.toNat
  if per == 0 || s.now < b then false
  else
    let o := (s.now - b) % per
    decide (c.guard.toNat ≤ o) && decide (o + c.guard.toNat < c.slotlen.toNat)

/-- The circuit-live barrier of an entry is open (R72). -/
def State.barrierOpen (s : State) (e : Nat) : Bool :=
  let c := s.circuit e
  c.st == 4 && c.tver == s.tvercur && (!c.slotted || (c.slotOpen && s.inSlot c))

/-- A flit handed to a port now leaves whole before the usable part of the slot ends (R77). -/
def State.flitFits (s : State) (c : Circuit) : Bool :=
  let x := s.port c.port.toNat
  let o := (s.now - c.slotbase.toNat) % max 1 c.slotper.toNat
  decide (max (100 * s.now) x.txFree + flitTime x.lit + 100 * (o + c.guard.toNat) ≤ 100 * (s.now + c.slotlen.toNat))

/-- A port carries a new flit of an entry now: the barrier is open, and the flit's last byte leaves before the usable
part of the slot ends (R77). -/
def State.canSend (s : State) (e : Nat) : Bool :=
  let c := s.circuit e
  s.barrierOpen e && s.portTakes c.port.toNat && (!c.slotted || s.flitFits c)

/-- The usable part of slot `k` at a circuit's receiving end, in 0.1 ns: later by one half of the port's corrected round trip, rounded
down (R77). -/
def State.rxUsable (s : State) (c : Circuit) (k : Nat) : Nat × Nat :=
  let start := c.slotbase.toNat + k * c.slotper.toNat
  let late := (s.port c.port.toNat).rttc.toNat / 2
  (10 * (start + c.guard.toNat) + late, 10 * (start + c.slotlen.toNat - c.guard.toNat) + late)

/-- The checks of R70 on an entry. -/
def State.requestOk (s : State) (e : Nat) : Bool :=
  let c := s.circuit e
  grpOk c.grpmask && decide (1 ≤ c.hopcnt.toNat) && decide (c.hopcnt.toNat ≤ 8) && c.peerdev != 0 && c.peerdev != 0xFFF &&
  !(s.circuits.any (fun p => p.1 != e && p.2.port == c.port && p.2.st != 0 && p.2.st != 6)) &&
  !(c.slotted && (decide (c.slotlen.toNat ≤ 2 * c.guard.toNat) || decide (c.slotper.toNat < c.slotlen.toNat) || c.slotper == 0))

/-- RSV is sent: one more attempt, answered within 500 µs or abandoned (R65, R68). -/
def State.sendRsv (s : State) (e : Nat) : State :=
  let c := s.circuit e
  let s := s.moveEntry e { c with st := 1, attempts := satInc c.attempts, sentAt := s.now, reqEntry := BitVec.ofNat 6 e, side := false }
  (s.sendCtl e 1 0 (BitVec.ofNat 64 s.now)).after 500000 (.rsvAttemptTimeout (BitVec.ofNat 6 e))

/-- After an attempt that failed: a back-off drawn from the hardware source, or FAILED when none remains (R68). -/
def State.backOff (s : State) (e : Nat) (status : BitVec 4) : State :=
  let c := s.circuit e
  if c.attempts.toNat < max 1 c.retrymax.toNat then
    let (n, s) := s.takeFree
    let d := Config.freeBackoff n % (1000 * 2 ^ min c.attempts.toNat 6)
    (s.moveEntry e { c with st := 2, due := s.now + d }).after d (.backoffExpiry (BitVec.ofNat 6 e))
  else s.moveEntry e { c with st := 6, status := status }

/-- CTEAR on an entry (R113). -/
def State.tearEntry (s : State) (e : Nat) : State :=
  let c := s.circuit e
  match c.st.toNat with
  | 1 => (s.moveEntry e { c with st := 5 }).sendTear e 7
  | 2 | 6 => s.moveEntry e { c with st := 0 }
  | 3 => ((s.moveEntry e { c with st := 5 }).writeTarget c.port.toNat 0).sendTear e 7
  | 4 => (((s.moveEntry e { c with st := 5, slotOpen := false }).circLost e).writeTarget c.port.toNat 0).sendTear e 7
  | _ => s

/-- CREL on an entry (R113). A port that is LIVE, or on its way from TRAINED to LIVE, drains before the TEAR (R46). -/
def State.releaseEntry (s : State) (e : Nat) : State :=
  let c := s.circuit e
  match c.st.toNat with
  | 1 => (s.moveEntry e { c with st := 5 }).sendTear e 0
  | 2 | 6 => s.moveEntry e { c with st := 0 }
  | 3 => ((s.moveEntry e { c with st := 5 }).writeTarget c.port.toNat 0).sendTear e 0
  | 4 =>
    let s := (s.moveEntry e { c with st := 5, tearPending := true, slotOpen := false }).writeTarget c.port.toNat 0
    let busy := (s.port c.port.toNat).st == 3 || (match (s.port c.port.toNat).trans with | some (4, _) => true | _ => false)
    if busy then s else s.sendTear e 0
  | _ => s

/-- An entry that is LIVE inside a slot which was not missed has it open (R72, R80): one that has become LIVE there, or whose time base
has been stepped into it. -/
def State.enterSlot (s : State) (e : Nat) : State :=
  let c := s.circuit e
  match s.slotNow c with
  | some k =>
    if c.st != 4 || c.slotOpen || c.missed == some k then s
    else
      let fin := c.slotbase.toNat + k * c.slotper.toNat + c.slotlen.toNat - c.guard.toNat
      (s.setCircuit e { c with slotOpen := true }).atTime fin (.slotUsablePartEnd (BitVec.ofNat 6 e))
  | none => s

/-- The next slot of a SLOTTED entry: its start, and the start of its usable part (R77, R80). -/
def State.armSlot (s : State) (e : Nat) : State :=
  let c := s.circuit e
  if !c.slotted || c.slotper == 0 || (c.st != 3 && c.st != 4) then s
  else
    let b := c.slotbase.toNat
    let per := c.slotper.toNat
    let k := if s.now < b then 0 else (s.now - b) / per + 1
    let t := b + k * per
    ((s.atTime t (.slotStart (BitVec.ofNat 6 e))).atTime (t + c.guard.toNat) (.slotStart (BitVec.ofNat 6 e)))

/-- The start of the usable part of the earliest slot that has not ended (R115). -/
def State.nextSlot (s : State) (c : Circuit) : Nat :=
  let b := c.slotbase.toNat
  let per := c.slotper.toNat
  let g := c.guard.toNat
  if !c.slotted || per == 0 then 0
  else
    let len := c.slotlen.toNat
    let k := if s.now + g < b + len then 0 else (s.now + g - b - len) / per + 1
    b + k * per + g

end Sys2Proof.Machine
end

