-- ==== Sys2Proof/Machine/Ports.lean ====
section
/-! DEFINITION. The rows of the optical ports: transitions, flits, recalibration, laser sources (R31 to R55, R81). -/

namespace Sys2Proof.Machine

/-- A time has been reached. -/
def State.past (s : State) (t : Nat) : Bool := decide (t ≤ s.now)

/-- The transition `k` of a port has run its time. -/
def State.transDone (s : State) (p k : Nat) : Bool :=
  match (s.port p).trans with
  | some (j, t) => j == k && s.past t
  | none => false

/-- LASER_WAKE_DONE (R39): the requested groups are lit and the port enters LOCKING. Link numbering starts afresh here
(DESIGN CHOICE, log 9). -/
def execLaserWakeDone (p : BitVec 5) (s : State) : Out :=
  let n := p.toNat
  let x := s.port n
  if s.transDone n 1 then
    let s := s.setPort n { x with
      st := 1, lit := x.grpmask, trans := none, since := s.now, relock := false, recal := false, looped := x.loopbk
      far := none, farAt := none, lightAt := none, mismatchAt := [], txSeq := 0, rxSeq := 0, nak := false
      unacked := [], stalled := [], inbox := [], markerSeen := false }
    .next (((s.after 200000 (.lockTimeout p)).portMove n).loopLight n)
  else .next s

/-- The groups that are not lit here and have far-end light, each since when it has had it without a break (R41). -/
def Port.strayLight (x : Port) (now : Nat) (groups : BitVec 4) : Tbl Nat :=
  ((List.range 4).filter (fun g => bit (groups &&& ~~~x.lit).toNat g)).map (fun g => (g, tget now x.mismatchAt g))

/-- FAR_END_LIGHT_ARRIVAL (R39, R41): light that is there already, with another TARGET or version in its training
sequence (R42), starts no new lock. A port whose loop back is in effect receives its own light only (R53). -/
def execFarEndLightArrival (p : BitVec 5) (far : FarEnd) (s : State) : Out :=
  let n := p.toNat
  let x := s.port n
  if x.st != 1 || x.looped || (match x.trans with | some (2, _) => true | _ => false) then .next s
  else
    let stray := x.strayLight s.now far.groups
    let new := stray.any (fun g => (tfind x.mismatchAt g.1).isNone)
    let x := { x with far := some far, farAt := some s.now, mismatchAt := stray }
    if far.groups == x.lit then
      if x.lightAt.isSome && x.trans.isSome then .next (s.setPort n x)
      else .next (s.setPort n { x with lightAt := some s.now, trans := some (5, s.now + 14000) })
    else
      let s := s.setPort n { x with lightAt := none, trans := none }
      .next (if new then s.after 2000 (.groupMismatch p) else s)

/-- LOCK_ACHIEVED (R39, R42, R47, R81): TRAINED, with the round trip measured. After a loss of lock with a TARGET other than LIVE
replay does not resume: the flits that were kept are reported not delivered (R44; DESIGN CHOICE, log 80). -/
def execLockAchieved (p : BitVec 5) (rtt : BitVec 24) (s : State) : Out :=
  let n := p.toNat
  let x := s.port n
  if x.st == 1 && s.transDone n 5 then
    let r := if x.looped then Config.loopDelay n else rtt
    let recal := x.recal
    let s := s.setPort n { x with
      st := 2, trans := none, since := s.now, rtt0 := r, rttc := r, valid := true, corrected := false
      recal := false, caldone := x.caldone || recal }
    let s := if recal then s.portEvent n 0 else s
    let s := if x.target != 2 then s.loseFlits n false else s
    let s := ((s.sendHandshake n).portMove n).armAck n
    .next (s.armVermis n)
  else .next s

/-- HANDSHAKE_LIVE (R42, R71, R73): the port enters LIVE, its circuit is LIVE, and replay resumes. -/
def execHandshakeLive (p : BitVec 5) (s : State) : Out :=
  let n := p.toNat
  let x := s.port n
  if x.st == 2 && s.transDone n 4 && s.portMissed n then .next (((s.setPort n { x with trans := none }).portMove n).releasedTears n)
  else if x.st == 2 && s.transDone n 4 then
    let again : List Flit := if x.unacked.all (fun f => f.typ == 2) then [] else x.unacked
    let x := x.tally s.now (fun x => { x with rply := satAdd x.rply again.length })
    let s := s.setPort n { x with st := 3, trans := none, since := s.now, markerSeen := false, relock := false }
    let s := s.emit n again
    let s := match s.entryOf n with
      | some e => if (s.circuit e).st == 3 then (s.moveEntry e { s.circuit e with st := 4 }).enterSlot e else s
      | none => s
    .next ((s.armAck n).portMove n)
  else .next s

/-- VERMIS (R42, R71). -/
def execVermis (p : BitVec 5) (s : State) : Out :=
  let n := p.toNat
  let x := s.port n
  let differ := match x.far with | some f => f.ver != s.portVer n | none => true
  if x.st == 2 && x.target == 2 && differ && s.past (max x.since x.targetAt + 20000 + x.rttc.toNat / 10) then
    let s := (s.setPort n { x with vermis := true, lasterr := 5, target := 1, trans := none }).loseFlits n false
    .next ((s.sendHandshake n).portFailed n 5)
  else .next s

/-- LOCK_TIMEOUT (R40, R44). The entry to DARK that follows a relock is counted when it comes about. -/
def execLockTimeout (p : BitVec 5) (s : State) : Out :=
  let n := p.toNat
  let x := s.port n
  if x.st == 1 && s.past (x.since + 200000) && (match x.trans with | some (2, _) => false | _ => true) then
    let s := s.setPort n { x with
      lockfail := true, lasterr := if x.relock then 7 else 3, target := 0, trans := some (2, s.now + 200)
      lightAt := none, mismatchAt := [], recal := false }
    let s := (s.loseFlits n true).portFailed n 6
    .next (s.after 200 (.portGated p))
  else .next s

/-- GROUP_MISMATCH (R41): one group has had light for 2 µs. Flits that a relock had kept are reported not delivered (DESIGN CHOICE, log
80), and the entry to DARK is none of R44's. -/
def execGroupMismatch (p : BitVec 5) (s : State) : Out :=
  let n := p.toNat
  let x := s.port n
  if x.st == 1 && x.mismatchAt.any (fun g => s.past (g.2 + 2000)) && x.trans.isNone then
    let s := s.setPort n { x with
      lockfail := true, lasterr := 8, target := 0, trans := some (2, s.now + 200), mismatchAt := [], recal := false, relock := false }
    let s := (s.loseFlits n true).portFailed n 6
    .next (s.after 200 (.portGated p))
  else .next s

/-- DRAIN_END (R43): the marker is acknowledged or 1 µs has passed. -/
def execDrainEnd (p : BitVec 5) (s : State) : Out :=
  let n := p.toNat
  let x := s.port n
  match x.trans with
  | some (3, t) =>
    if x.st == 3 && ((x.marker.isNone && !x.stalled.contains 3) || s.past t) then
      let s := ((s.setPort n { x with st := 2, trans := none, since := s.now }).loseFlits n true).drainOver n
      .next (((s.sendHandshake n).portMove n).armVermis n)
    else .next s
  | _ => .next s

/-- PORT_GATED (R39, R54): OPLOSS counts the entry to DARK after a relock that timed out (R44). -/
def execPortGated (p : BitVec 5) (s : State) : Out :=
  let n := p.toNat
  let x := s.port n
  if s.transDone n 2 then
    let x := if x.relock then x.tally s.now (fun x => { x with loss := satInc x.loss }) else x
    let s := s.setPort n { x with st := 0, lit := 0, trans := none, since := s.now, relock := false, far := none, farAt := none }
    .next ((((s.loseFlits n false).releasedTears n).portDark n).portMove n)
  else .next s

/-- LOSS_OF_LOCK (R44). -/
def execLossOfLock (p : BitVec 5) (s : State) : Out :=
  let n := p.toNat
  let x := s.port n
  if x.st == 2 || x.st == 3 then
    let s := s.setPort n { x with
      st := 1, trans := none, since := s.now, relock := true, lockloss := true, looped := x.loopbk
      far := none, farAt := none, lightAt := none, mismatchAt := [] }
    let s := match x.trans with
      | some (3, _) => s.drainOver n
      | _ => s.releasedTears n
    .next ((((s.portEvent n 5).after 200000 (.lockTimeout p)).portMove n).loopLight n)
  else .next s

/-- LASER_LIGHT_LOSS (R45). -/
def execLaserLightLoss (p : BitVec 5) (s : State) : Out := .next (s.loseLight p.toNat)

/-- BERHIGH (R49). -/
def execBerhigh (p : BitVec 5) (corrected : Nat) (s : State) : Out :=
  let n := p.toNat
  let x := s.port n
  if x.berth.toNat * 256 < corrected then
    .next ((s.setPort n { x with berhigh := true, berEvents := x.berEvents + 1 }).portEvent n 3)
  else .next s

/-- OPCTL_TARGET_WRITE (R46). -/
def execOpctlTargetWrite (p : BitVec 5) (t : BitVec 2) (s : State) : Out := .next (s.writeTarget p.toNat t)
/-- OPCTL_GRPMASK_WRITE (R46). -/
def execOpctlGrpmaskWrite (p : BitVec 5) (g : BitVec 4) (s : State) : Out := .next (s.writeGrp p.toNat g)
/-- CALREQ (R47). -/
def execCalreq (p : BitVec 5) (s : State) : Out := .next (s.writeCal p.toNat)
/-- CLRCNT (R54). -/
def execClrcnt (p : BitVec 5) (s : State) : Out := .next (s.clearCounts p.toNat)

/-- ELS_REMOVE (R50). -/
def execElsRemove (n : BitVec 2) (s : State) : Out :=
  let m : BitVec 4 := ~~~(1 <<< n.toNat)
  let s := { s with modl := { s.modl with elspres := s.modl.elspres &&& m, elsok := s.modl.elsok &&& m } }
  .next (s.each (List.range 8) (fun s i => s.loseLight (8 * n.toNat + i)))

/-- ELS_INSERT (R50): its ports stay DARK until TARGET is written. -/
def execElsInsert (n : BitVec 2) (ok : Bool) (s : State) : Out :=
  let b : BitVec 4 := 1 <<< n.toNat
  .next { s with modl := { s.modl with elspres := s.modl.elspres ||| b, elsok := if ok then s.modl.elsok ||| b else s.modl.elsok } }

/-! Flits at the receiver -/

/-- Flits up to ACKSEQ are acknowledged. -/
def State.ackFlits (s : State) (p : Nat) (ack : BitVec 16) : State :=
  let x := s.port p
  let isAcked (f : Flit) : Bool := decide ((ack - f.seq).toNat < 32768)
  let hit := x.unacked.filter isAcked
  let s := s.setPort p { x with
    unacked := x.unacked.filter (fun f => !isAcked f)
    marker := if hit.any (fun f => f.typ == 3) then none else x.marker }
  let s := s.each hit (fun s f => s.flitAcked f)
  let s := s.sendStalled p x.stalled.length
  if x.marker.isSome && (s.port p).marker.isNone then s.post (.drainEnd (BitVec.ofNat 5 p)) else s

/-- A NAK asks for replay from ACKSEQ + 1. A port in TRAINED carries no data flit (R42): one that a loss of lock has kept goes again
when the port is LIVE (R44). -/
def State.replay (s : State) (p : Nat) : State :=
  let x := s.port p
  let again := if x.st == 3 then x.unacked else x.unacked.takeWhile (fun f => f.typ != 1)
  (s.setPort p (x.tally s.now (fun x => { x with rply := satAdd x.rply again.length }))).emit p again

/-- A flit is discarded for what it holds, and counted in OPCRCE (R37, R54). -/
def Port.countBad (x : Port) (now : Nat) : Port := x.tally now (fun x => { x with crce := satInc x.crce })

/-- The payload checks of R74 and R132. -/
def dataOk (l : List Byte) : Bool :=
  let dest := field l 8 1 % 16
  let len := field l 24 2
  (dest == 1 || dest == 2) && field l 8 1 / 16 % 8 == 0 && field l 9 1 == 0 && decide (1 ≤ len) && decide (len ≤ 220) &&
    field l 26 6 == 0 && (dest == 1 || decide (field l 16 1 / 32 % 8 ≤ 1))

/-- An accepted data flit: discarded for good (R37, R74, R132), refused for its version (R76), or handed on. A crucible flit of an older
version counts as for the same program instance when the instance of its slot has run since before TVERCUR changed, 10 µs before the
window's latest end; the flit names no instance (DEDUCED, log 98). -/
def State.takeData (s : State) (p : Nat) (seq : BitVec 16) (l : List Byte) : State :=
  let x := s.port p
  if x.markerSeen then s
  else if !dataOk l then s.setPort p (x.countBad s.now)
  else
    let tver := BitVec.ofNat 16 (field l 2 2)
    let inWin := match s.entryOf p with
      | some e => (s.circuit e).tver == tver && (match (s.circuit e).window with
        | some t => decide (s.now ≤ t) && (field l 8 1 % 16 == 1 || decide ((s.cx (flitSlot l)).since + 10000 ≤ t))
        | none => false)
      | none => false
    if tver != s.tvercur && !(newer s.tvercur tver && inWin) then
      match s.entryOf p with
      | some e => s.sendNack (s.circuit e).peerdev.toNat (field l 10 2) (field l 12 4) 0
      | none => s
    else
      let s := s.setPort p { x with inbox := x.inbox ++ [(seq, l)] }
      s.post (if field l 8 1 % 16 == 1 then .copyFlitWrite (BitVec.ofNat 5 p) else .crucibleFlitReceive (BitVec.ofNat 5 p))

/-- FLIT_RECEIVE (R37, R38, R42, R43, R74, R76). A data flit that the far end, LIVE already, sends again to a port which is still
TRAINED after its relock is delivered too: no accepted flit is lost (R44). -/
def execFlitReceive (p : BitVec 5) (a : FlitArrival) (s : State) : Out :=
  let n := p.toNat
  let x := s.port n
  let l := a.bytes
  if x.st != 3 && x.st != 2 then .next s
  else
    let x := x.tally s.now (fun x => { x with fecc := satAdd x.fecc a.corrected, fecu := satAdd x.fecu a.uncorr })
    if a.uncorr != 0 then .next (s.setPort n { x with nak := true })
    else if l.length != 256 || crc32 (l.take 252) != field l 252 4 then .next (s.setPort n { x.countBad s.now with nak := true })
    else
      let typ := field l 0 1 / 16
      let bad := decide (4 < typ) || field l 0 1 / 2 % 8 != 0 || field l 1 1 != 0
      let seq := BitVec.ofNat 16 (field l 4 2)
      let s := (s.setPort n x).ackFlits n (BitVec.ofNat 16 (field l 6 2))
      let s := if bit (field l 0 1) 0 then s.replay n else s
      let x := if bad then (s.port n).countBad s.now else s.port n
      if (typ == 0 || typ == 4) then .next (s.setPort n x)
      else if seq != x.rxSeq + 1 then .next (s.setPort n { x with nak := true })
      else
        let s := (s.setPort n { x with rxSeq := seq, nak := false }).armAck n
        if bad then .next s
        else match typ with
          | 1 => .next (s.takeData n seq l)
          | 2 =>
            match a.far with
            | some f => .next ((s.setPort n { s.port n with far := some f, farAt := some s.now, markerSeen := false }).tryHandshake n)
            | none => .next s
          | _ => .next (s.setPort n { s.port n with markerSeen := true })

/-- ACK_ONLY_FLIT (R38): again within every 128 flit times, while the port is TRAINED, whose handshake flits are numbered too, or
LIVE. It carries the NAK of a discard. -/
def execAckOnlyFlit (p : BitVec 5) (s : State) : Out :=
  let n := p.toNat
  .next (if (s.port n).st == 2 || (s.port n).st == 3 then (s.sendAckOnly n).armAck n else s)

/-! The fibre-delay table (R81) -/

/-- n / d rounded to the nearest integer, ties to even. -/
def roundHalfEven (n : Int) (d : Nat) : Int :=
  let q := n / (d : Int)
  let r := n % (d : Int)
  if (d : Int) < 2 * r || (2 * r == (d : Int) && q % 2 == 1) then q + 1 else q

/-- RTTC of one port. -/
def Port.correct (x : Port) (plant : BitVec 16) : Port :=
  if !x.valid || !x.corrected then x
  else
    let d := roundHalfEven (x.tcoef.toInt * (plant.toInt - x.tref.toInt)) 1000
    { x with rttc := BitVec.ofInt 24 ((x.rtt0.toNat : Int) + d), tused := plant }

/-- RTTC_CORRECTION (R81): every 10 ms. -/
def execRttcCorrection (s : State) : Out :=
  let s := { s with ports := tmap s.ports (fun _ (x : Port) => x.correct s.plant) }
  .next (s.after 10000000 .rttcCorrection)

end Sys2Proof.Machine
end

