-- ==== Sys2Proof/Machine/Circuits.lean ====
section
/-! DEFINITION. The rows of circuits, the packet plane and fabric time (R56 to R84, R494). -/

namespace Sys2Proof.Machine

/-! Control-mesh bodies (R64) -/

/-- The body of a control-mesh packet has its length and no nonzero reserved field. -/
def ctlBodyOk (k : Packet) : Bool :=
  let b := k.body
  b.length == 64 && decide (field b 2 1 < 16) && decide (field b 4 1 < 32) && decide (field b 5 1 < 32) &&
    decide (field b 6 2 < 16) && field b 16 16 == 0 && decide (field b 0 1 < 64)
/-- A packet of the control mesh that is delivered here and has no nonzero reserved field. -/
def State.ctlFor (s : State) (k : Packet) (typ : Nat) : Bool := s.delivered k 2 typ && ctlBodyOk k

/-- The entry of this device that a control packet names (R64, R71): as the requester, by its index; as the accepting end,
by what the RSV filled in; in both by ports and route, which two circuits never share. One in use comes before one that has FAILED. A
DENY may come from a switch controller on the way (R65), so its SRC is not compared. -/
def State.named (s : State) (k : Packet) : Option Nat :=
  let b := k.body
  let src := k.src.toNat % 4096
  let mine (p : Nat × Circuit) : Bool :=
    p.2.st != 0 && (p.2.peerdev.toNat == src || k.typ == 3) && p.2.route.flatMap (fun w => leBytes 4 w.toNat) == b.drop 32 &&
      (if p.2.side then p.2.reqEntry.toNat == field b 0 1 && p.2.port.toNat == field b 5 1 && p.2.peerport.toNat == field b 4 1
       else p.1 == field b 0 1 && p.2.port.toNat == field b 4 1 && p.2.peerport.toNat == field b 5 1)
  match s.circuits.find? (fun p => mine p && p.2.st != 6) with
  | some p => some p.1
  | none => (s.circuits.find? mine).map (fun p => p.1)

/-- The answer to an RSV travels back along the route (R65). -/
def State.answer (s : State) (k : Packet) (typ code : Nat) (readyat : Nat) : State :=
  let b := k.body
  let n := field b 6 2
  let dst := field b (32 + 4 * (n - 1)) 4 / 1048576
  s.sendPacket (s.packet 2 typ dst 0
    (b.take 1 ++ leBytes 1 (n - 1) ++ (b.drop 2).take 1 ++ leBytes 1 code ++ (b.drop 4).take 4 ++ leBytes 8 readyat ++
      (b.drop 16).take 16 ++ b.drop 32))

/-- The write of OPCTL of R66 at its time: the later of the present and READYAT - 3.0 µs. -/
def State.armPort (s : State) (e : Nat) : State :=
  let t := max s.now ((s.circuit e).readyat.toNat - 3000)
  (s.setCircuit e { s.circuit e with due := t }).atTime t (.circuitPortWrite (BitVec.ofNat 6 e))

/-- RSV (R67): accepted into the lowest FREE entry, or denied with the first reason that applies. -/
def execRsv (l : BitVec 3) (k : Packet) (s : State) : Out :=
  match s.receive l.toNat k 2 1 (ctlBodyOk k) with
  | (false, s) => .next s
  | (true, s) =>
    let b := k.body
    let p := field b 5 1
    let ready := field b 8 8
    let src := k.src.toNat % 4096
    let mine := s.circuits.find? (fun e => e.2.port.toNat == p && e.2.st == 1 && !e.2.side)
    let crossed := mine.isSome
    let other := s.circuits.any (fun e => e.2.port.toNat == p && e.2.st != 0 && e.2.st != 6 && !(e.2.st == 1 && !e.2.side))
    let freeE := (List.range 64).find? (fun e => (s.circuit e).st == 0)
    if k.tver != s.tvercur then .next (s.answer k 3 5 ready)
    else if crossed && s.fdid.toNat ≤ src then .next (s.answer k 3 3 ready)
    else match freeE with
      | none => .next (s.answer k 3 2 ready)
      | some e =>
        if (s.port p).st != 0 || other then .next (s.answer k 3 2 ready)
        else
          let c := s.circuit e
          let c := { c with
            st := 3, side := true, status := 0, attempts := 0, port := BitVec.ofNat 5 p, peerdev := BitVec.ofNat 12 src
            peerport := BitVec.ofNat 5 (field b 4 1), grpmask := BitVec.ofNat 4 (field b 2 1), tver := k.tver
            hopcnt := BitVec.ofNat 4 (field b 6 2), readyat := BitVec.ofNat 64 ready
            swtime := BitVec.ofNat 32 (ready - s.now)
            route := (List.range 8).map (fun h => BitVec.ofNat 32 (field b (32 + 4 * h) 4))
            reqEntry := BitVec.ofNat 6 (field b 0 1), freeOnDark := false, tearPending := false, slotOpen := false, window := none }
          let s := s.moveEntry e c
          let s := s.gEvent c.owner.toNat 2 (at_ e 48)
          let s := s.answer k 2 0 ready
          .next ((s.armPort e).armSlot e)

/-- ACK (R66): the requester's entry enters RESERVED. -/
def execAck (l : BitVec 3) (k : Packet) (s : State) : Out :=
  match s.receive l.toNat k 2 2 (ctlBodyOk k) with
  | (false, s) => .next s
  | (true, s) => match s.named k with
    | none => .next s
    | some e =>
      let c := s.circuit e
      if c.st == 1 && !c.side then
        let ready := field k.body 8 8
        let s := s.moveEntry e { c with st := 3, readyat := BitVec.ofNat 64 ready, swtime := BitVec.ofNat 32 (ready - c.sentAt) }
        .next ((s.armPort e).armSlot e)
      else .next s

/-- DENY (R68). -/
def execDeny (l : BitVec 3) (k : Packet) (s : State) : Out :=
  match s.receive l.toNat k 2 3 (ctlBodyOk k) with
  | (false, s) => .next s
  | (true, s) => match s.named k with
    | none => .next s
    | some e => if (s.circuit e).st == 1 && !(s.circuit e).side then .next (s.backOff e (BitVec.ofNat 4 (field k.body 3 1))) else .next s

/-- The hop to which the TACK of a TEAR goes back: the first one from the requester, the last one from the accepting end. Where the
device has no entry for the circuit any more, HOPIDX says which end the TEAR has reached: it counts up towards the destination and
down towards the requester (R64, R65). -/
def State.tearHop (s : State) (k : Packet) : Nat :=
  let n := field k.body 6 2
  match s.named k with
  | some e => if (s.circuit e).side then n - 1 else 0
  | none => if n ≤ field k.body 1 1 then n - 1 else 0

/-- Another entry has missed a slot in this cycle. -/
def State.otherMiss (s : State) (e : Nat) : Option Circuit :=
  (s.circuits.find? (fun p => p.1 != e && p.2.missAt == some s.now)).map (fun p => p.2)

/-- A TEAR that takes effect in the cycle of a slot's test: the slot-miss event is not posted, and SLOTMISS is as it would be without
it (R80). -/
def State.unmiss (s : State) (e : Nat) : State :=
  let c := s.circuit e
  if c.missAt != some s.now then s
  else
    let t := c.owner.toNat
    let s := { s.setGth t { s.gth t with evq := (s.gth t).evq.erase (BitVec.ofNat 64 (at_ 4 56 + at_ e 48 + s.now % 2 ^ 40)) } with
      slotmiss := c.missWas || (s.otherMiss e).isSome }
    s.setCircuit e { c with missAt := none }

/-- TEAR (R71): the table "TEAR from the far end"; TACK in every case. -/
def execTear (l : BitVec 3) (k : Packet) (s : State) : Out :=
  match s.receive l.toNat k 2 4 (ctlBodyOk k) with
  | (false, s) => .next s
  | (true, s) =>
    let code := field k.body 3 1
    let hop := s.tearHop k
    let dst := field k.body (32 + 4 * hop) 4 / 1048576
    let s := match s.named k with
      | some e => s.unmiss e
      | none => s
    let s' := match s.named k with
      | none => s
      | some e =>
        let c := s.circuit e
        match c.st.toNat with
        | 1 => s.moveEntry e { c with st := 6, status := 7 }
        | 3 =>
          if code == 0 then
            ((s.setCircuit e { c with freeOnDark := true }).writeTarget c.port.toNat 0).freeIfDark c.port.toNat
          else (s.moveEntry e { c with st := 6, status := 7 }).writeTarget c.port.toNat 0
        | 4 =>
          if code == 0 then
            ((s.moveEntry e { c with st := 5, freeOnDark := true, tearPending := false, slotOpen := false }).writeTarget c.port.toNat
              0).freeIfDark c.port.toNat
          else (s.moveEntry e { c with st := 6, status := 7, slotOpen := false }).writeTarget c.port.toNat 0
        | _ => s
    .next (s'.sendPacket (s'.packet 2 5 dst 0 (k.body.take 1 ++ leBytes 1 hop ++ (k.body.drop 2).take 1 ++ leBytes 1 0 ++ k.body.drop 4)))

/-- TACK (R71). -/
def execTack (l : BitVec 3) (k : Packet) (s : State) : Out :=
  match s.receive l.toNat k 2 5 (ctlBodyOk k) with
  | (false, s) => .next s
  | (true, s) => match s.named k with
    | none => .next s
    | some e => if (s.circuit e).st == 5 && !(s.circuit e).freeOnDark && !(s.circuit e).tearPending then .next (s.moveEntry e { s.circuit e with st := 0 }) else .next s

/-- CIRCUIT_PORT_WRITE (R66): a refusal is a port event (R71). -/
def execCircuitPortWrite (e : BitVec 6) (s : State) : Out :=
  let n := e.toNat
  let c := s.circuit n
  let p := c.port.toNat
  if c.st != 3 || c.freeOnDark || !s.past c.due then .next s
  else if !s.elsOk p || (s.port p).down then
    let s := s.writeTarget p 2
    .next (s.failEntry n 6 true)
  else .next ((s.writeGrp p c.grpmask).writeTarget p 2)

/-- RSV_ATTEMPT_TIMEOUT (R68). -/
def execRsvAttemptTimeout (e : BitVec 6) (s : State) : Out :=
  let n := e.toNat
  let c := s.circuit n
  if c.st == 1 && s.past (c.sentAt + 500000) then .next ((s.sendCtl n 4 4 0).backOff n 4) else .next s

/-- BACKOFF_EXPIRY (R68). -/
def execBackoffExpiry (e : BitVec 6) (s : State) : Out :=
  let n := e.toNat
  let c := s.circuit n
  if c.st == 2 && c.attempts != 0 && s.past c.due then .next (s.sendRsv n) else .next s

/-- CPRE_START (R109). -/
def execCpreStart (e : BitVec 6) (s : State) : Out :=
  let n := e.toNat
  let c := s.circuit n
  if c.st == 2 && c.attempts == 0 && s.past c.due then .next (s.sendRsv n) else .next s

/-- TEAR_TIMEOUT (R71). -/
def execTearTimeout (e : BitVec 6) (s : State) : Out :=
  let n := e.toNat
  let c := s.circuit n
  if c.st == 5 && !c.tearPending && !c.freeOnDark && s.past c.due then .next (s.moveEntry n { c with st := 0 }) else .next s

/-- SLOT_START (R77, R80): opened, or a slot-miss event; a circuit whose port is not LIVE yet has the test made too. -/
def execSlotStart (e : BitVec 6) (s : State) : Out :=
  let n := e.toNat
  let c := s.circuit n
  let b := c.slotbase.toNat
  let per := c.slotper.toNat
  let armed := s.timers.any (fun t => match t.what with | .slotStart i => i == e | _ => false)
  if (c.st != 3 && c.st != 4) || !c.slotted || per == 0 || s.now < b then .next s
  else if (s.now - b) % per != 0 then .next (if armed then s else s.armSlot n)
  else
    let s := s.armSlot n
    if c.guard.toNat < s.errest.toNat then
      let was := match s.otherMiss n with | some d => d.missWas | none => s.slotmiss
      let c := { c with slotOpen := false, missed := some ((s.now - b) / per), missAt := some s.now, missWas := was }
      let s := { s.setCircuit n c with slotmiss := true }
      .next ((s.gEvent c.owner.toNat 4 (at_ n 48)).after c.slotlen.toNat (.slotUsablePartEnd e))
    else if c.st == 3 then .next (s.setCircuit n { c with missed := none })
    else
      .next ((s.setCircuit n { c with slotOpen := true, missed := none }).after (c.slotlen.toNat - c.guard.toNat) (.slotUsablePartEnd e))

/-- SLOT_USABLE_PART_END (R77). At the end of a slot that was not opened its port may become LIVE again (R80). -/
def execSlotUsablePartEnd (e : BitVec 6) (s : State) : Out :=
  let n := e.toNat
  let c := s.circuit n
  if c.slotOpen && !s.inSlot c then .next (s.setCircuit n { c with slotOpen := false })
  else if c.missed.isSome && c.missed != s.slotNow c then .next (s.tryHandshake c.port.toNat)
  else .next s

/-- DRAIN_WINDOW_END (R76). -/
def execDrainWindowEnd (e : BitVec 6) (s : State) : Out :=
  let n := e.toNat
  let c := s.circuit n
  match c.window with
  | some t => .next (if s.past t then s.setCircuit n { c with window := none } else s)
  | none => .next s

/-- A circuit whose port can still deliver flits of its version when TVERCUR changes (R76): reserved, live, or draining. -/
def State.inDrainWindow (s : State) (c : Circuit) : Bool :=
  c.st == 3 || c.st == 4 || (c.st == 5 && (s.port c.port.toNat).st == 3)

/-- TVERCUR moves to a newer version (R116, R75, R76): a notice goes out and drain windows open for circuits of other
versions. -/
def State.setVersion (s : State) (v : BitVec 16) : State :=
  let s := { s with tvercur := v }
  let (q, s) := s.nextPseq
  let s := s.sendPacket (s.packet 4 1 0xFFF q (leBytes 2 v.toNat ++ List.replicate 30 0))
  let s := s.each (List.range 32) (fun s p =>
    if (s.port p).st == 2 && (s.entryOf p).isNone then
      ((s.setPort p { s.port p with farAt := some s.now }).sendHandshake p).tryHandshake p
    else s.loopLight p)
  s.each ((s.circuits.filter (fun e => s.inDrainWindow e.2 && e.2.tver != v)).map (fun e => e.1)) (fun s e =>
    (s.setCircuit e { s.circuit e with window := some (s.now + 10000) }).after 10000 (.drainWindowEnd (BitVec.ofNat 6 e)))

/-- VERSION_NOTICE (R75). -/
def execVersionNotice (l : BitVec 3) (k : Packet) (s : State) : Out :=
  match s.receive l.toNat k 4 1 (leNat (k.body.drop 2) == 0) with
  | (false, s) => .next s
  | (true, s) =>
    let v := BitVec.ofNat 16 (field k.body 0 2)
    if newer v s.tverseen then .next ({ s with tverseen := v }.gEventAll 5 (at_ v.toNat 40)) else .next s

/-- PEER_DOWN_NOTICE (R84): the RESERVED and LIVE entries of the lost device fail with STATUS 0x7 and send TEAR (DESIGN CHOICE, log
10: the manual gives the code's meaning only). -/
def execPeerDownNotice (l : BitVec 3) (k : Packet) (s : State) : Out :=
  match s.receive l.toNat k 4 3 (decide (field k.body 0 2 < 4096) && leNat (k.body.drop 2) == 0) with
  | (false, s) => .next s
  | (true, s) =>
    let f := field k.body 0 2
    let s := s.each ((s.circuits.filter (fun e => e.2.peerdev.toNat == f && (e.2.st == 3 || e.2.st == 4))).map (fun e => e.1))
      (fun s e => s.failEntry e 7 true)
    .next (s.gEventAll 6 (at_ f 40))

/-! Time (R78, R79) -/

/-- BEACON_PERIOD (R78): only the master sends. PLANT is what it measures: a free value (log 31). -/
def execBeaconPeriod (s : State) : Out :=
  if !s.master then .next s
  else
    let s := s.after (max 10000 s.bper.toNat) .beaconPeriod
    if !s.fdidValid then .next s
    else
      let (q, s) := s.nextPseq
      let (n, s) := s.takeFree
      let body := leBytes 8 s.now ++ leBytes 4 0 ++ leBytes 2 (Config.freePlant n).toNat ++ List.replicate 18 0
      .next (s.sendPacket (s.packet 1 1 0xFFF q body))

/-- BEACON (R78, R79, R81). Only the time base is stepped, which may come to lie in a slot then (R72). -/
def execBeacon (l : BitVec 3) (k : Packet) (s : State) : Out :=
  match s.receive l.toNat k 1 1 (k.body.length == 32 && field k.body 14 18 == 0) with
  | (false, s) => .next s
  | (true, s) =>
    let t := field k.body 0 8 + field k.body 8 4 / 16
    let s := { s with
      ahead := s.now - t
      plant := BitVec.ofNat 16 (field k.body 12 2)
      errest := BitVec.ofNat 16 (1 + 2 * (k.hops.toNat + 1))
      beaconAt := max s.now t
      ports := tmap s.ports (fun _ (x : Port) => { x with corrected := true }) }
    let s := ({ s with now := max s.now t }).after 1000000 .errestGrowth
    .next (s.each (tkeys s.circuits) State.enterSlot)

/-- ERREST_GROWTH (R79): 2 ns for each 1 ms after a beacon without another, in every device, the master too (DESIGN CHOICE, log 10). -/
def execErrestGrowth (s : State) : Out :=
  if s.now < s.beaconAt + 1000000 then .next s
  else .next ({ s with errest := satAdd s.errest 2, beaconAt := s.now }.after 1000000 .errestGrowth)

/-- ECHO_PERIOD (R63): every 1 ms each link end sends a request. -/
def execEchoPeriod (s : State) : Out :=
  let s := s.after 1000000 .echoPeriod
  .next (s.each ((List.range 8).filter (fun l => (s.link l).up)) (fun s l =>
    s.toLink l { s.packet 1 2 s.ownFdid.toNat 0 (List.replicate 32 0) with tver := s.tvercur } none))

/-- An echo packet whose check fields pass (R58, R63). -/
def echoOk (k : Packet) (typ : Nat) : Bool :=
  pktShapeOk k && pktReservedOk k && k.cls == 1 && k.typ.toNat == typ && k.hops != 15 && k.body.length == 32 &&
    (if typ == 2 then leNat (k.body.drop 8) == 0 else leNat (k.body.drop 26) == 0 && decide (field k.body 24 2 < 4096))

/-- An arriving echo packet (R57, R58, R63): delivered whatever its DST, and without an FDID too. -/
def State.receiveEcho (s : State) (l : Nat) (k : Packet) (typ : Nat) : Bool × State :=
  if !isEcho k || k.typ.toNat != typ then (false, s)
  else if !s.linkTakes l k then (false, s.linkRefuse l)
  else
    let s := (s.took l k).freed l k
    if echoOk k typ then (true, s) else (false, s.epDrop)

/-- ECHO_REQUEST (R63): answered with a reply on the same link, which leaves at T3. -/
def execEchoRequest (l : BitVec 3) (k : Packet) (s : State) : Out :=
  match s.receiveEcho l.toNat k 2 with
  | (false, s) => .next s
  | (true, s) =>
    let body := k.body.take 8 ++ leBytes 8 s.now ++ leBytes 8 s.now ++ leBytes 2 s.ownFdid.toNat ++ List.replicate 6 0
    .next (s.toLink l.toNat (s.packet 1 3 (k.src.toNat % 4096) 0 body) none)

/-- ECHO_REPLY (R63): the link's one-way delay, in 1/16 ns. -/
def execEchoReply (l : BitVec 3) (k : Packet) (s : State) : Out :=
  match s.receiveEcho l.toNat k 3 with
  | (false, s) => .next s
  | (true, s) =>
    let n := l.toNat
    let x := s.link n
    let t1 : Int := field k.body 0 8
    let d := ((s.now : Int) - t1 - ((field k.body 16 8 : Int) - field k.body 8 8)) * 8
    let answered := x.echo == some (field k.body 0 8)
    .next (s.setLink n { x with delay := d, peer := BitVec.ofNat 12 (field k.body 24 2), echo := if answered then none else x.echo })

/-- ECHO_TIMEOUT (R63, R84): a peer-down notice to every device that the route table names. A link whose echo has never been answered has
no known neighbour: its notices name FDID 0x000 (DESIGN CHOICE, log 10). -/
def execEchoTimeout (l : BitVec 3) (s : State) : Out :=
  let n := l.toNat
  let x := s.link n
  match x.echo with
  | some t =>
    if s.past (t + 20000) then
      let s := s.setLink n { x with echo := none }
      let dsts := (s.route.filter (fun r => r.2.1 && r.1 != x.peer.toNat && r.1 != s.fdid.toNat)).map (fun r => r.1)
      .next (s.each dsts (fun s d => s.sendPacket (s.packet 4 3 d 0 (leBytes 2 x.peer.toNat ++ List.replicate 30 0))))
    else .next s
  | none => .next s

/-! Forwarding and credits -/

/-- PACKET_FORWARD (R57, R58, R60, R61): a packet that is not addressed to this device. Its credits go back as it leaves. -/
def execPacketForward (l : BitVec 3) (k : Packet) (s : State) : Out :=
  let n := l.toNat
  let dst := k.dst.toNat % 4096
  let bad := !pktShapeOk k || !pktReservedOk k || k.hops.toNat == 15
  if !bad && (isEcho k || (s.fdidValid && (dst == s.fdid.toNat || dst == 0xFFF))) then .next s
  else if !s.linkTakes n k then .next (s.linkRefuse n)
  else
    let s := s.took n k
    if !s.fdidValid && !isEcho k then .next (s.freed n k)
    else if bad then .next (s.freed n k).epDrop
    else match s.routeTo dst (some n) with
      | some o => .next (s.toLink o { k with hops := k.hops + 1 } (some n))
      | none => .next (s.freed n k).epDrop

/-- CREDIT_RETURN (R57, R494): what the far end's control stream carries. Credits never go beyond the class's full ones; packets up
to ACK are acknowledged, and a request for replay sends the others again. -/
def execCreditReturn (l : BitVec 3) (cls : BitVec 4) (c : LinkCtl) (s : State) : Out :=
  let n := l.toNat
  let x := s.link n
  let i := cls.toNat - 1
  let credits := if cls == 0 || 5 < cls.toNat then x.credits else x.credits.set i (min (fullCredits.getD i 0) (x.credits.getD i 0 + c.n))
  let left := x.unacked.filter (fun k => match k.lseq with | some q => !decide ((c.ack - q).toNat < 32768) | none => false)
  let s := s.setLink n { x with credits := credits, unacked := left }
  .next ({ s with outPkt := if c.nak then s.outPkt ++ left.map (fun k => (n, k)) else s.outPkt }.pump n)

/-- LINK_ENTERS_SERVICE (R494): full credits, and numbering afresh (DESIGN CHOICE, log 9). -/
def execLinkEntersService (l : BitVec 3) (s : State) : Out :=
  .next ((s.setLink l.toNat { s.link l.toNat with
    up := true, credits := fullCredits, txSeq := 0, unacked := [], rxSeq := 0, nak := false }).pump l.toNat)

/-- FDIDCFG (R60): a write that sets VALID with FDID 0x000 or 0xFFF is ignored. Packets that wait on a link begin after the write:
without an FDID only echoes go, and the others wait (DESIGN CHOICE, log 79). -/
def State.writeFdid (s : State) (v : Nat) : State :=
  let f := v % 4096
  if bit v 31 && (f == 0 || f == 0xFFF) then s
  else ({ s with fdidValid := bit v 31, fdid := BitVec.ofNat 12 f }).each (List.range 8) State.pump

/-- FDIDCFG_WRITE (R60). -/
def execFdidcfgWrite (v : Word) (s : State) : Out := .next (s.writeFdid v.toNat)

end Sys2Proof.Machine
end

