-- ==== Sys2Proof/Machine/Num.lean ====
section
/-! DEFINITION. Number formats and arithmetic (R319 to R343): exact values, decoding, rounding, encoding, the sticky
flags, the matrix accumulator, and the scan order. Every operation computes exactly and narrows once. -/

namespace Sys2Proof.Machine

/-- The six sticky flags in `vstat`'s order (R333). -/
abbrev Flags := BitVec 6
def fINV : Flags := 1
def fDZ : Flags := 2
def fOVF : Flags := 4
def fUNF : Flags := 8
def fINX : Flags := 16
def fSAT : Flags := 32

/-- An exact value: NaN, an infinity, or (-1)^neg · m · 2^e. A zero keeps its sign. A value that is not dyadic is held
with enough bits below every rounding step and its last bit set when bits were dropped, so it rounds as the exact one. -/
inductive Val where
  | nan (signalling : Bool)
  | inf (neg : Bool)
  | fin (neg : Bool) (m : Nat) (e : Int)
  deriving DecidableEq, Repr

/-- One row of the table of floating formats (R320). -/
structure Fmt where
  w    : Nat
  eb   : Nat
  fb   : Nat
  bias : Nat
  /-- The format has infinities and NaNs with an all-ones exponent. -/
  infs : Bool
  /-- The format has NaN encodings. -/
  nans : Bool
  /-- Magnitude bits of the largest finite value. -/
  maxb : Nat
  /-- The canonical NaN (R322). -/
  qnan : Nat
  deriving DecidableEq, Repr

def fp32 : Fmt := ⟨32, 8, 23, 127, true, true, 0x7F7FFFFF, 0x7FC00000⟩
def bf16 : Fmt := ⟨16, 8, 7, 127, true, true, 0x7F7F, 0x7FC0⟩
def fp16 : Fmt := ⟨16, 5, 10, 15, true, true, 0x7BFF, 0x7E00⟩
def e5m2 : Fmt := ⟨8, 5, 2, 15, true, true, 0x7B, 0x7E⟩
def e4m3 : Fmt := ⟨8, 4, 3, 7, false, true, 0x7E, 0x7F⟩
def e3m2 : Fmt := ⟨6, 3, 2, 3, false, false, 0x1F, 0⟩
def e2m3 : Fmt := ⟨6, 2, 3, 1, false, false, 0x1F, 0⟩
def e2m1 : Fmt := ⟨4, 2, 1, 1, false, false, 0x7, 0⟩

/-- `decode(fmt, b)` of R321. -/
def Fmt.decode (f : Fmt) (b : Nat) : Val :=
  let s := (b >>> (f.w - 1)) % 2 == 1
  let e := (b >>> f.fb) % (1 <<< f.eb)
  let fr := b % (1 <<< f.fb)
  if f.infs && e == (1 <<< f.eb) - 1 then
    if fr == 0 then .inf s else .nan ((fr >>> (f.fb - 1)) % 2 == 0)
  else if f.nans && !f.infs && e == (1 <<< f.eb) - 1 && fr == (1 <<< f.fb) - 1 then .nan false
  else if e == 0 then .fin s fr (1 - (f.bias : Int) - f.fb)
  else .fin s ((1 <<< f.fb) + fr) ((e : Int) - f.bias - f.fb)

/-- floor(log2 |v|) of a nonzero m · 2^e. -/
def ilog (m : Nat) (e : Int) : Int := (Nat.log2 m : Int) + e

/-- Whether the magnitude is rounded away from zero, from the mode (R330), the sign, the dropped part `rem` of `2^sh`,
the parity of the kept part and the draw of R331. -/
def roundUp (mode : Nat) (neg : Bool) (odd : Bool) (rem sh draw : Nat) : Bool :=
  let full := 1 <<< sh
  match mode with
  | 0 => full < 2 * rem || (full == 2 * rem && odd)
  | 1 => false
  | 2 => !neg && rem != 0
  | 3 => neg && rem != 0
  | _ => if neg then !(draw < ((full - rem) <<< 24) / full) && rem != 0 else draw < (rem <<< 24) / full

/-- |v| = m · 2^e rounded to a multiple of 2^q: the multiple, and whether it differs from v. -/
def roundTo (q : Int) (neg : Bool) (m : Nat) (e : Int) (mode draw : Nat) : Nat × Bool :=
  if q ≤ e then (m <<< (e - q).toNat, false)
  else
    let sh := (q - e).toNat
    let n := m >>> sh
    let rem := m % (1 <<< sh)
    (if roundUp mode neg (n % 2 == 1) rem sh draw then n + 1 else n, rem != 0)

/-- The grid exponent of R330. -/
def Fmt.step (f : Fmt) (m : Nat) (e : Int) : Int := max (ilog m e) (1 - (f.bias : Int)) - f.fb

/-- The bits of the nonnegative n · 2^q that lies on the grid of `f`, below the overflow bound. -/
def Fmt.pack (f : Fmt) (n : Nat) (q : Int) : Nat :=
  if n == 0 then 0
  else
    let l := ilog n q
    let emin : Int := 1 - (f.bias : Int)
    if l < emin then n <<< (q - (emin - f.fb)).toNat
    else
      let fr := if (f.fb : Int) ≤ l - q then n >>> (l - q - f.fb).toNat else n <<< (f.fb - (l - q)).toNat
      ((l + f.bias).toNat <<< f.fb) + fr % (1 <<< f.fb)

/-- What an encoding answers: the bits, the flags raised and whether it traps with CVTOVF. -/
structure Enc where
  bits  : Nat
  flags : Flags
  trap  : Bool
  deriving DecidableEq, Repr

/-- The sign bit of a format. -/
def Fmt.sgn (f : Fmt) (neg : Bool) : Nat := if neg then 1 <<< (f.w - 1) else 0

/-- The result of a float overflow (R334); `directed` is the case in which IEEE 754 keeps the largest finite value. -/
def Fmt.overflow (f : Fmt) (neg : Bool) (mode pol : Nat) : Nat :=
  let directed := mode == 1 || (mode == 3 && !neg) || (mode == 2 && neg)
  let big := f.sgn neg + f.maxb
  if pol == 1 then
    if directed then big
    else if f.infs then f.sgn neg + (((1 <<< f.eb) - 1) <<< f.fb)
    else if f.nans then f.sgn neg + f.qnan else big
  else if pol == 2 then if f.nans then f.qnan else big
  else big

/-- The row of R336 for a float target. -/
def Fmt.special (f : Fmt) (pol : Nat) : Val → Enc
  | .nan sig => if f.nans then ⟨f.qnan, if sig then fINV else 0, false⟩ else ⟨0, fINV, pol == 3⟩
  | .inf neg =>
    if f.infs then ⟨f.sgn neg + (((1 <<< f.eb) - 1) <<< f.fb), 0, false⟩
    else if f.nans then ⟨f.sgn neg + (if pol == 1 || pol == 2 then f.qnan else f.maxb), fOVF, pol == 3⟩
    else ⟨f.sgn neg + f.maxb, fOVF, pol == 3⟩
  | .fin neg _ _ => ⟨f.sgn neg, 0, false⟩

/-- `encode` of R335 for a float target. -/
def Fmt.encode (f : Fmt) (v : Val) (mode pol draw : Nat) : Enc :=
  match v with
  | .fin neg m e =>
    if m == 0 then f.special pol v
    else
      let q := f.step m e
      let (n, inx) := roundTo q neg m e mode draw
      let i : Flags := if inx then fINX else 0
      let b := f.pack n q
      if f.maxb < b then ⟨f.overflow neg mode pol, fOVF ||| fINX, pol == 3⟩
      else
        let u : Flags := if ilog m e < 1 - (f.bias : Int) && inx then fUNF else 0
        ⟨f.sgn neg + b, i ||| u, false⟩
  | _ => f.special pol v

/-- The range of an integer format (R319). -/
def intMin (w : Nat) (signed : Bool) : Int := if signed then -(1 <<< (w - 1) : Nat) else 0
def intMax (w : Nat) (signed : Bool) : Int := if signed then ((1 <<< (w - 1) : Nat) : Int) - 1 else ((1 <<< w : Nat) : Int) - 1

/-- An integer as the w-bit two's-complement pattern. -/
def wrapInt (w : Nat) (x : Int) : Nat := (x % ((1 <<< w : Nat) : Int)).toNat

/-- `sat(v, n, signed)` of R333: the clamped value and its flag. -/
def satInt (w : Nat) (signed : Bool) (x : Int) : Int × Flags :=
  if x < intMin w signed then (intMin w signed, fSAT)
  else if intMax w signed < x then (intMax w signed, fSAT)
  else (x, 0)

/-- `encode` of R335 for an integer target; the bits are the w-bit pattern. -/
def encodeInt (w : Nat) (signed : Bool) (v : Val) (mode pol draw : Nat) : Enc :=
  match v with
  | .nan _ => ⟨0, fINV, pol == 3⟩
  | .inf neg => ⟨wrapInt w (if neg then intMin w signed else intMax w signed), fSAT, pol == 3⟩
  | .fin neg m e =>
    if m == 0 then ⟨0, 0, false⟩
    else
      let (n, inx) := roundTo 0 neg m e mode draw
      let x : Int := if neg then -(n : Int) else n
      let i : Flags := if inx then fINX else 0
      let (y, s) := satInt w signed x
      ⟨wrapInt w y, i ||| s, s != 0 && pol == 3⟩

/-- Width of a type code (R353). -/
def tyWidth (ty : Nat) : Nat :=
  match ty with
  | 0 | 1 => 32
  | 2 | 3 => 16
  | 4 | 5 => 8
  | 6 | 7 => 64
  | 8 => 32
  | 9 | 10 => 16
  | 11 | 12 => 8
  | 13 | 14 => 6
  | 15 => 4
  | _ => 8

/-- The floating format of a type code. -/
def tyFmt (ty : Nat) : Fmt :=
  match ty with
  | 9 => bf16
  | 10 => fp16
  | 11 => e4m3
  | 12 => e5m2
  | 13 => e3m2
  | 14 => e2m3
  | 15 => e2m1
  | _ => fp32

/-- A type code of an integer format. -/
def tyInt (ty : Nat) : Bool := ty < 8
/-- A type code read as signed. -/
def tySigned (ty : Nat) : Bool := ty % 2 == 0

/-- A w-bit pattern as an integer. -/
def intOf (w : Nat) (signed : Bool) (b : Nat) : Int :=
  let x := b % (1 <<< w)
  if signed && 1 <<< (w - 1) ≤ x then (x : Int) - ((1 <<< w : Nat) : Int) else x

/-- An integer as an exact value; zero is +0. -/
def valInt (x : Int) : Val := .fin (decide (x < 0)) x.natAbs 0

/-- The exact value of an element of a type (R321, R334): type codes 0x00 to 0x0F. -/
def decodeTy (ty b : Nat) : Val :=
  if tyInt ty then valInt (intOf (tyWidth ty) (tySigned ty) b) else (tyFmt ty).decode (b % (1 <<< tyWidth ty))

/-- `encode` into an element of a type: type codes 0x00 to 0x0F. -/
def encodeTy (ty : Nat) (v : Val) (mode pol draw : Nat) : Enc :=
  if tyInt ty then encodeInt (tyWidth ty) (tySigned ty) v mode pol draw else (tyFmt ty).encode v mode pol draw

/-- v × 2^k, exact. -/
def Val.scale (v : Val) (k : Int) : Val :=
  match v with
  | .fin n m e => .fin n m (e + k)
  | x => x

/-- The five trits of a T5 byte and whether its code is reserved (R325). -/
def trits (b : Nat) : List Int × Bool :=
  if 243 ≤ b then ([0, 0, 0, 0, 0], true)
  else
    let d (k : Nat) : Int := match b / 3 ^ k % 3 with | 0 => 0 | 1 => 1 | _ => -1
    ([d 0, d 1, d 2, d 3, d 4], false)

/-- The byte of up to five trits (R325). -/
def packTrits (l : List Int) : Nat :=
  l.foldr (fun t acc => (if t == 0 then 0 else if 0 < t then 1 else 2) + 3 * acc) 0

/-- The E8M0 code of a value (R326): rounded on v to a neighbouring power of two. -/
def encodeE8M0 (v : Val) (mode pol draw : Nat) : Enc :=
  match v with
  | .nan _ => ⟨0xFF, fINV, false⟩
  | .inf neg => if neg then ⟨0xFF, fINV, false⟩ else ⟨if pol == 0 then 0xFE else 0xFF, fOVF, pol == 3⟩
  | .fin neg m e =>
    if neg || m == 0 then ⟨0xFF, fINV, false⟩
    else
      let l := ilog m e
      let lo := Nat.log2 m
      let exact := m == 1 <<< lo
      let rem := m - (1 <<< lo)
      let up := !exact && roundUp mode false ((l + 127) % 2 == 1) rem lo draw
      let k := if up then l + 1 else l
      let inx : Flags := if exact then 0 else fINX
      if k < -127 then ⟨0, fUNF ||| fINX, false⟩
      else if 127 < k then if pol == 0 then ⟨0xFE, fINX, false⟩ else ⟨0xFF, fOVF, pol == 3⟩
      else ⟨(k + 127).toNat, inx, false⟩

/-! Exact arithmetic (R338). -/

/-- The smaller exponent and both magnitudes at it. -/
def align (m : Nat) (e : Int) (m' : Nat) (e' : Int) : Nat × Nat × Int :=
  if e ≤ e' then (m, m' <<< (e' - e).toNat, e) else (m <<< (e - e').toNat, m', e')

/-- A signed magnitude as an integer. -/
def sgnInt (neg : Bool) (m : Nat) : Int := if neg then -(m : Int) else m

/-- The exact sum of two finite values; an exact zero of opposite signs is +0, or -0 under RD (mode 3). -/
def addFin (mode : Nat) (n : Bool) (m : Nat) (e : Int) (n' : Bool) (m' : Nat) (e' : Int) : Val :=
  let (x, y, q) := align m e m' e'
  let s := sgnInt n x + sgnInt n' y
  if s == 0 then
    if n == n' then .fin n 0 0 else .fin (mode == 3) 0 0
  else .fin (decide (s < 0)) s.natAbs q

/-- An operation's exact result with the flags raised before rounding. -/
abbrev ValF := Val × Flags

def anySig : Val → Bool
  | .nan s => s
  | _ => false

def isNan : Val → Bool
  | .nan _ => true
  | _ => false

def invIf (b : Bool) : Flags := if b then fINV else 0

/-- Exact a + b. -/
def vAdd (mode : Nat) (a b : Val) : ValF :=
  if isNan a || isNan b then (.nan false, invIf (anySig a || anySig b))
  else match a, b with
  | .inf x, .inf y => if x == y then (.inf x, 0) else (.nan false, fINV)
  | .inf x, _ => (.inf x, 0)
  | _, .inf y => (.inf y, 0)
  | .fin n m e, .fin n' m' e' => (addFin mode n m e n' m' e', 0)
  | _, _ => (.nan false, 0)

/-- -v. -/
def Val.negate : Val → Val
  | .nan s => .nan s
  | .inf n => .inf (!n)
  | .fin n m e => .fin (!n) m e

/-- Exact a × b. -/
def vMul (a b : Val) : ValF :=
  if isNan a || isNan b then (.nan false, invIf (anySig a || anySig b))
  else match a, b with
  | .inf x, .inf y => (.inf (x != y), 0)
  | .inf x, .fin n m _ => if m == 0 then (.nan false, fINV) else (.inf (x != n), 0)
  | .fin n m _, .inf y => if m == 0 then (.nan false, fINV) else (.inf (n != y), 0)
  | .fin n m e, .fin n' m' e' => (.fin (n != n') (m * m') (e + e'), 0)
  | _, _ => (.nan false, 0)

/-- Exact a × b + c. -/
def vFma (mode : Nat) (a b c : Val) : ValF :=
  let (p, f) := vMul a b
  if isNan p then (.nan false, f ||| invIf (anySig c))
  else
    let (s, g) := vAdd mode p c
    (s, f ||| g)

/-- A quotient with `bits` significant bits and a last bit that says whether it is inexact. -/
def divJam (m m' bits : Nat) : Nat × Int :=
  let sh := bits + Nat.log2 m' + 1
  let n := m <<< sh
  let q := n / m'
  (2 * q + (if n % m' == 0 then 0 else 1), -(sh : Int) - 1)

/-- a / b (R338). -/
def vDiv (a b : Val) : ValF :=
  if isNan a || isNan b then (.nan false, invIf (anySig a || anySig b))
  else match a, b with
  | .inf _, .inf _ => (.nan false, fINV)
  | .inf x, .fin n _ _ => (.inf (x != n), 0)
  | .fin n _ _, .inf y => (.fin (n != y) 0 0, 0)
  | .fin n m e, .fin n' m' e' =>
    if m' == 0 then if m == 0 then (.nan false, fINV) else (.inf (n != n'), fDZ)
    else if m == 0 then (.fin (n != n') 0 0, 0)
    else
      let (q, k) := divJam m m' 80
      (.fin (n != n') q (e - e' + k), 0)
  | _, _ => (.nan false, 0)

/-- Integer square root by bits, from bit `k` down. -/
def isqrtGo (n : Nat) : Nat → Nat → Nat
  | 0, r => r
  | k + 1, r =>
    let t := r + (1 <<< k)
    isqrtGo n k (if t * t ≤ n then t else r)

/-- floor(√n). -/
def isqrt (n : Nat) : Nat := isqrtGo n (Nat.log2 n / 2 + 1) 0

/-- √(m · 2^e) with at least 64 significant bits and a sticky last bit. -/
def sqrtJam (m : Nat) (e : Int) : Nat × Int :=
  let m0 := if e % 2 == 0 then m else 2 * m
  let e0 := if e % 2 == 0 then e else e - 1
  let n := m0 <<< 160
  let r := isqrt n
  (2 * r + (if r * r == n then 0 else 1), (e0 - 160) / 2 - 1)

/-- √a (R338). -/
def vSqrt : Val → ValF
  | .nan s => (.nan false, invIf s)
  | .inf n => if n then (.nan false, fINV) else (.inf false, 0)
  | .fin n m e =>
    if m == 0 then (.fin n 0 0, 0)
    else if n then (.nan false, fINV)
    else
      let (r, k) := sqrtJam m e
      (.fin false r k, 0)

/-- An arithmetic result in `f`: R338's overflow is that of `.inf`. -/
def finish (f : Fmt) (r : ValF) (mode draw : Nat) : Nat × Flags :=
  let x := f.encode r.1 mode 1 draw
  (x.bits, x.flags ||| r.2)

/-- A total order of two non-NaN values with -0 below +0 (R434): a < b. -/
def ltVal (a b : Val) : Bool :=
  match a, b with
  | .inf true, .inf true => false
  | .inf true, _ => true
  | _, .inf true => false
  | .inf false, _ => false
  | _, .inf false => true
  | .fin n m e, .fin n' m' e' =>
    if m == 0 && m' == 0 then n && !n'
    else
      let (x, y, _) := align m e m' e'
      decide (sgnInt n x < sgnInt n' y)
  | _, _ => false

/-- Numeric comparison of two non-NaN values, zeros equal: -1, 0 or 1. -/
def cmpVal (a b : Val) : Int :=
  match a, b with
  | .fin _ 0 _, .fin _ 0 _ => 0
  | _, _ => if ltVal a b then -1 else if ltVal b a then 1 else 0

/-- VFMIN and VFMAX (R434). -/
def vMinMax (isMax : Bool) (a b : Val) : ValF :=
  if isNan a || isNan b then (.nan false, invIf (anySig a || anySig b))
  else if isMax then (if ltVal a b then b else a, 0) else (if ltVal b a then b else a, 0)

/-- VFABS (R434). -/
def vAbs : Val → ValF
  | .nan s => (.nan false, invIf s)
  | .inf _ => (.inf false, 0)
  | .fin _ m e => (.fin false m e, 0)

/-- The larger magnitude, as a non-negative value (R137, R387). -/
def vAmax (a b : Val) : ValF :=
  if isNan a || isNan b then (.nan false, invIf (anySig a || anySig b))
  else vMinMax true (vAbs a).1 (vAbs b).1

/-- The magnitude of a source element for `.ax` (R337): FP32 bits, or none for a NaN. -/
def axMag (v : Val) : Option Nat :=
  match v with
  | .nan _ => none
  | .inf _ => some 0x7F800000
  | .fin _ m e => some (fp32.encode (.fin false m e) 2 1 0).bits

/-! The matrix accumulator (R339). -/

/-- Whether any term is -infinity, +infinity. -/
def anyInf (neg : Bool) (l : List Val) : Bool := l.any (fun v => v == .inf neg)

/-- One term truncated toward zero on the window's grid 2^q: its multiple, and whether it changed. -/
def windowTerm (q : Int) (n : Bool) (m : Nat) (e : Int) : Int × Bool :=
  if q ≤ e then (sgnInt n (m <<< (e - q).toNat), false)
  else (sgnInt n (m >>> (q - e).toNat), m % (1 <<< (q - e).toNat) != 0)

/-- `acc40(products, c)`: the FP32 bits and flags. A product of 0 and an infinity comes as a NaN. -/
def acc40 (terms : List Val) : Nat × Flags :=
  if terms.any isNan || (anyInf true terms && anyInf false terms) then (0x7FC00000, fINV)
  else if anyInf true terms then (0xFF800000, 0)
  else if anyInf false terms then (0x7F800000, 0)
  else
    let nz := terms.filterMap (fun v => match v with | .fin n m e => if m == 0 then none else some (n, m, e) | _ => none)
    if nz.isEmpty then (if terms.all (fun v => match v with | .fin n _ _ => n | _ => false) then 0x80000000 else 0, 0)
    else
      let top := nz.foldl (fun acc t => max acc (ilog t.2.1 t.2.2)) (-100000)
      let q := top - 39
      let parts := nz.map (fun t => windowTerm q t.1 t.2.1 t.2.2)
      let sum : Int := parts.foldl (fun acc p => acc + p.1) 0
      let i : Flags := if parts.any (fun p => p.2) then fINX else 0
      if sum == 0 then (0, i)
      else
        let r := fp32.encode (.fin (decide (sum < 0)) sum.natAbs q) 0 1 0
        (r.bits, r.flags ||| i)

/-! Random (R343). -/

/-- `splitmix64`. -/
def splitmix64 (x : DWord) : DWord :=
  let z := (x ^^^ (x >>> 30)) * 0xBF58476D1CE4E5B9
  let z := (z ^^^ (z >>> 27)) * 0x94D049BB133111EB
  z ^^^ (z >>> 31)

/-- The increment of the generator. -/
def golden : DWord := 0x9E3779B97F4A7C15

/-- The 24-bit draw of result element k of lane i under `.rs` (R331). -/
def draw24 (state : DWord) (i k : Nat) : Nat :=
  ((splitmix64 (state + BitVec.ofNat 64 (i + 96 * k) * golden)).toNat >>> 40)

end Sys2Proof.Machine
end

