-- ==== Sys2Proof/Machine/Special.lean ====
section
/-! DEFINITION. The special functions (R342), correctly rounded: each is bracketed between two fixed-point numbers that
are close enough to round alike, at a precision that grows until they do. -/

namespace Sys2Proof.Machine

/-- A bracket: true value · 2^p lies strictly between `lo` and `hi`. -/
structure Bracket where
  lo : Int
  hi : Int
  p  : Nat

/-- The width that absorbs the truncation of every series below. -/
def slack : Int := 4096

/-- ln 2 · 2^p by ln 2 = 2 · atanh(1/3), `n` terms. -/
def ln2Go (p : Nat) : Nat → Nat → Nat → Nat
  | 0, _, acc => acc
  | n + 1, k, acc => ln2Go p n (k + 1) (acc + (2 <<< p) / ((2 * k + 1) * 3 ^ (2 * k + 1)))

/-- floor-like ln 2 · 2^p. -/
def ln2Fix (p : Nat) : Nat := ln2Go p (p / 3 + 4) 0 0

/-- Alternating arctangent series of 1/x, scaled. -/
def atanGo (p x : Nat) : Nat → Nat → Int → Int
  | 0, _, acc => acc
  | n + 1, k, acc =>
    let t : Int := ((1 <<< p) / ((2 * k + 1) * x ^ (2 * k + 1)) : Nat)
    atanGo p x n (k + 1) (if k % 2 == 0 then acc + t else acc - t)

/-- π · 2^p by Machin's formula. -/
def piFix (p : Nat) : Int := 16 * atanGo p 5 (p / 4 + 4) 0 0 - 4 * atanGo p 239 (p / 15 + 4) 0 0

/-- Terms y^k / k! of the exponential, scaled by 2^p. -/
def expGo (p : Nat) (y : Int) : Nat → Nat → Int → Int → Int
  | 0, _, _, acc => acc
  | n + 1, k, t, acc =>
    let t' := t * y / ((1 <<< p : Nat) : Int) / ((k + 1 : Nat) : Int)
    expGo p y n (k + 1) t' (acc + t')

/-- e^(y/2^p) · 2^p for |y/2^p| < 1. -/
def expFix (p : Nat) (y : Int) : Int :=
  let one : Int := ((1 <<< p : Nat) : Int)
  expGo p y (p / 2 + 8) 0 one one

/-- atanh series z^(2k+1)/(2k+1), scaled. -/
def atanhGo (p : Nat) (z2 : Int) : Nat → Nat → Int → Int → Int
  | 0, _, _, acc => acc
  | n + 1, k, t, acc =>
    let t' := t * z2 / ((1 <<< p : Nat) : Int)
    atanhGo p z2 n (k + 1) t' (acc + t' / ((2 * k + 3 : Nat) : Int))

/-- atanh(z/2^p) · 2^p for |z/2^p| ≤ 1/3. -/
def atanhFix (p : Nat) (z : Int) : Int :=
  atanhGo p (z * z / ((1 <<< p : Nat) : Int)) (p / 3 + 8) 0 z z

/-- The alternating series of sine and cosine: t_{k+1} = -t_k · r² / ((d)(d+1)). -/
def trigGo (p : Nat) (r2 : Int) : Nat → Nat → Int → Int → Int
  | 0, _, _, acc => acc
  | n + 1, d, t, acc =>
    let t' := -(t * r2 / ((1 <<< p : Nat) : Int) / ((d * (d + 1) : Nat) : Int))
    trigGo p r2 n (d + 2) t' (acc + t')

/-- sin(r/2^p) · 2^p. -/
def sinFix (p : Nat) (r : Int) : Int := trigGo p (r * r / ((1 <<< p : Nat) : Int)) (p / 4 + 12) 2 r r
/-- cos(r/2^p) · 2^p. -/
def cosFix (p : Nat) (r : Int) : Int :=
  let one : Int := ((1 <<< p : Nat) : Int)
  trigGo p (r * r / one) (p / 4 + 12) 1 one one

/-- A bracket around a series value. -/
def around (x : Int) (p : Nat) : Bracket := ⟨x - slack, x + slack, p⟩

/-- x = m · 2^e as fixed point at p bits, truncated. -/
def fixOf (p : Nat) (m : Nat) (e : Int) : Nat :=
  let k := e + p
  if 0 ≤ k then m <<< k.toNat else m >>> (-k).toNat

/-- 2^x, x = ±m · 2^e not an integer: 2^floor · e^(frac · ln 2); the bracket is of the fraction's part, the exponent is
returned beside it. -/
def exp2At (p : Nat) (neg : Bool) (m : Nat) (e : Int) : Bracket × Int :=
  let q := p + 40
  let x : Int := sgnInt neg (fixOf (q + 160) m e)
  let one : Int := ((1 <<< (q + 160) : Nat) : Int)
  let n := x / one
  let f := (x - n * one) / ((1 <<< 160 : Nat) : Int)
  let y := f * (ln2Fix q : Int) / ((1 <<< q : Nat) : Int)
  (around (expFix q y) q, n)

/-- log2 x, x = m · 2^e, not a power of two. -/
def log2At (p : Nat) (m : Nat) (e : Int) : Bracket :=
  let q := p + 60
  let l := Nat.log2 m
  let up := decide (3 * (1 <<< l) < 2 * m)
  let den := if up then 2 <<< l else 1 <<< l
  let k : Int := (l : Int) + e + (if up then 1 else 0)
  let z : Int := (((m : Int) - den) * ((1 <<< q : Nat) : Int)) / ((m + den : Nat) : Int)
  let ln := 2 * atanhFix q z
  let one : Int := ((1 <<< q : Nat) : Int)
  around (k * one + ln * one / (ln2Fix q : Int)) q

/-- The quadrant and the remainder of |x| = m · 2^e below π/2, at q bits. -/
def reduce (q : Nat) (m : Nat) (e : Int) : Nat × Int :=
  let w := q + 320
  let x : Int := (fixOf w m e : Nat)
  let half := piFix w / 2
  let k := x / half
  ((k % 4).toNat, (x - k * half) / ((1 <<< 320 : Nat) : Int))

/-- sin of m · 2^e. -/
def sinAt (p : Nat) (m : Nat) (e : Int) : Bracket :=
  let q := p + 40
  let (k, r) := reduce q m e
  let v := if k % 2 == 0 then sinFix q r else cosFix q r
  around (if k < 2 then v else -v) q

/-- cos of m · 2^e. -/
def cosAt (p : Nat) (m : Nat) (e : Int) : Bracket :=
  let q := p + 40
  let (k, r) := reduce q m e
  let v := if k % 2 == 0 then cosFix q r else sinFix q r
  around (if k == 0 || k == 3 then v else -v) q

/-- tanh of m · 2^e, below 16: (E - 1)/(E + 1) with E = e^(2x). -/
def tanhAt (p : Nat) (m : Nat) (e : Int) : Bracket :=
  let q := p + 60
  let y : Int := 2 * (fixOf q m e : Nat)
  let ln := (ln2Fix q : Int)
  let n := y / ln
  let big := expFix q (y - n * ln) * ((1 <<< n.toNat : Nat) : Int)
  let one : Int := ((1 <<< q : Nat) : Int)
  around ((big - one) * one / (big + one)) q

/-- Both ends of a bracket, times 2^k, rounded to FP32 by RNE, when they agree. -/
def settle (b : Bracket) (k : Int) : Option (Nat × Flags) :=
  let enc (x : Int) : Enc := fp32.encode (.fin (decide (x < 0)) x.natAbs (k - b.p)) 0 1 0
  let l := enc b.lo
  let h := enc b.hi
  if l.bits == h.bits && (decide (b.lo < 0) == decide (b.hi < 0)) then some (l.bits, l.flags ||| fINX) else none

/-- The first precision of the list at which the bracket settles; the last one's lower end where none does. -/
def ziv (f : Nat → Bracket × Int) : List Nat → Nat × Flags
  | [] => (0, 0)
  | [p] => let (b, k) := f p
           match settle b k with
           | some r => r
           | none => ((fp32.encode (.fin (decide (b.lo < 0)) b.lo.natAbs (k - b.p)) 0 1 0).bits, fINX)
  | p :: rest =>
    let (b, k) := f p
    match settle b k with
    | some r => r
    | none => ziv f rest

def precisions : List Nat := [96, 192, 384, 768]

/-- A value just below the magnitude m · 2^e, by less than any rounding step sees. -/
def justBelow (neg : Bool) (m : Nat) (e : Int) : Nat × Flags :=
  let r := fp32.encode (.fin neg ((m <<< 80) - 1) (e - 80)) 0 1 0
  (r.bits, r.flags)

def nanResult (s : Bool) : Nat × Flags := (0x7FC00000, invIf s)

/-- VFEX2. -/
def fex2 (b : Nat) : Nat × Flags :=
  match fp32.decode b with
  | .nan s => nanResult s
  | .inf n => (if n then 0 else 0x7F800000, 0)
  | .fin n m e =>
    if m == 0 then (0x3F800000, 0)
    else if 8 < ilog m e then
      if n then (let r := fp32.encode (.fin false 1 (-400)) 0 1 0; (r.bits, r.flags))
      else (0x7F800000, fOVF ||| fINX)
    else
      let k := m >>> (-e).toNat
      if e < 0 && m % (1 <<< (-e).toNat) != 0 then ziv (fun p => exp2At p n m e) precisions
      else
        let x : Int := if e < 0 then k else (m <<< e.toNat : Nat)
        let r := fp32.encode (.fin false 1 (if n then -x else x)) 0 1 0
        (r.bits, r.flags)

/-- VFLG2. -/
def flg2 (b : Nat) : Nat × Flags :=
  match fp32.decode b with
  | .nan s => nanResult s
  | .inf n => if n then (0x7FC00000, fINV) else (0x7F800000, 0)
  | .fin n m e =>
    if m == 0 then (0xFF800000, fDZ)
    else if n then (0x7FC00000, fINV)
    else if m == 1 <<< Nat.log2 m then
      let r := fp32.encode (valInt (ilog m e)) 0 1 0
      (r.bits, r.flags)
    else ziv (fun p => (log2At p m e, 0)) precisions

/-- VFRCP. -/
def frcp (b : Nat) : Nat × Flags :=
  match fp32.decode b with
  | .nan s => nanResult s
  | .inf n => (if n then 0x80000000 else 0, 0)
  | v => finish fp32 (vDiv (.fin false 1 0) v) 0 0

/-- VFRSQ. -/
def frsq (b : Nat) : Nat × Flags :=
  match fp32.decode b with
  | .nan s => nanResult s
  | .inf n => if n then (0x7FC00000, fINV) else (0, 0)
  | .fin n m e =>
    if m == 0 then (if n then 0xFF800000 else 0x7F800000, fDZ)
    else if n then (0x7FC00000, fINV)
    else
      let m0 := if e % 2 == 0 then m else 2 * m
      let e0 := if e % 2 == 0 then e else e - 1
      -- 1/√m0 = √(2^240 / m0) · 2^-120, with the division and the root both sticky
      let num := (1 <<< 240) / m0
      let r := isqrt num
      let exact := r * r == num && (1 <<< 240) % m0 == 0
      let x := fp32.encode (.fin false (2 * r + (if exact then 0 else 1)) (-121 - e0 / 2)) 0 1 0
      (x.bits, x.flags)

/-- VFSIN. -/
def fsin (b : Nat) : Nat × Flags :=
  match fp32.decode b with
  | .nan s => nanResult s
  | .inf _ => (0x7FC00000, fINV)
  | .fin n m e =>
    if m == 0 then (b, 0)
    else if ilog m e < -12 then justBelow n m e
    else
      let (r, f) := ziv (fun p => (sinAt p m e, 0)) precisions
      (if n then r ^^^ 0x80000000 else r, f)

/-- VFCOS. -/
def fcos (b : Nat) : Nat × Flags :=
  match fp32.decode b with
  | .nan s => nanResult s
  | .inf _ => (0x7FC00000, fINV)
  | .fin _ m e =>
    if m == 0 then (0x3F800000, 0)
    else if ilog m e < -13 then justBelow false 1 0
    else ziv (fun p => (cosAt p m e, 0)) precisions

/-- VFTANH. -/
def ftanh (b : Nat) : Nat × Flags :=
  match fp32.decode b with
  | .nan s => nanResult s
  | .inf n => (if n then 0xBF800000 else 0x3F800000, 0)
  | .fin n m e =>
    if m == 0 then (b, 0)
    else if ilog m e < -13 then justBelow n m e
    else if 4 ≤ ilog m e then justBelow n 1 0
    else
      let (r, f) := ziv (fun p => (tanhAt p m e, 0)) precisions
      (if n then r ^^^ 0x80000000 else r, f)

end Sys2Proof.Machine
end

