-- ==== Sys2Proof/Machine/Mem.lean ====
section
/-! DEFINITION. The address space, homes, writes and what they wake and abort, the write-combining buffer, translation,
and accesses at `.dev` scope (R248 to R264, R269 to R286). Every byte has one key: physical memory below 2^48, then the
scratchpads, the gaffer's local memory, the chunk SRAMs and the barrier words, each in a range of its own. -/

namespace Sys2Proof.Machine

/-- Key of scratchpad byte `off` of a core. -/
def scrKey (core off : Nat) : Nat := 0x1000000000000 + core * 0x100000 + off
/-- Key of a byte of the gaffer's local memory (R90). -/
def gafKey (off : Nat) : Nat := 0x2000000000000 + off
/-- Key of a byte of a crucible's chunk SRAM (R122). -/
def chunkKey (c off : Nat) : Nat := 0x4000000000000 + c * 0x4000000 + off
/-- Key of byte `off` of a core's barrier array (R295). -/
def barKey (core off : Nat) : Nat := 0x8000000000000 + core * 512 + off
/-- The 128-byte line of a key. -/
def lineOf (k : Nat) : Nat := k / 128

/-- The physical memory map (R257). -/
def backed (pa : Nat) : Bool :=
  decide (pa < 0x300000000) || (decide (0x400000000 ≤ pa) && decide (pa < 0x700000000)) ||
    (decide (0x10000000000 ≤ pa) && decide (pa < 0x20000000000))

/-- The home slice of a physical address: die × 64 + h (R258). -/
def sliceOf (pa : Nat) : Nat :=
  let die := if pa < 0x400000000 then 0 else if pa < 0x700000000 then 1
    else bnat (bit pa 12 ^^ bit pa 21 ^^ bit pa 30 ^^ bit pa 39)
  let h := bits pa 12 7 ^^^ bits pa 18 13 ^^^ bits pa 24 19 ^^^ bits pa 30 25 ^^^ bits pa 36 31 ^^^ bits pa 42 37 ^^^ bits pa 47 43
  die * 64 + h

/-- The home of a key: slices 0 to 127, then 128 + core for scratchpads and barrier words (R269). -/
def homeOf (k : Nat) : Nat :=
  if k < 0x1000000000000 then sliceOf k
  else if k < 0x2000000000000 then 128 + (k - 0x1000000000000) / 0x100000
  else if 0x8000000000000 ≤ k then 128 + (k - 0x8000000000000) / 512
  else 1000

/-- A byte of a scratchpad, a barrier word: never in L1 or a write-combining buffer. -/
def onCore (k : Nat) : Bool := decide (0x1000000000000 ≤ k)

/-- Bytes at keys. -/
def State.peek (s : State) (keys : List Nat) : List Byte := keys.map (Memory.read s.mem)
/-- Consecutive keys. -/
def keysFrom (k n : Nat) : List Nat := (List.range n).map (fun i => k + i)
/-- `n` bytes from a key. -/
def State.bytesAt (s : State) (k n : Nat) : List Byte := s.peek (keysFrom k n)

/-! Transactions: abort and wake of one wave. -/

/-- One completion flag falls by one (R240). -/
def Wave.lower (w : Wave) (f : Option Nat) : Wave :=
  match f with
  | some k => { w with flags := tset w.flags k (tget 0 w.flags k - 1) }
  | none => w

/-- An abort of any cause (R287). -/
def Wave.abort (w : Wave) (cause code : Nat) : Wave :=
  match w.txn with
  | none => w
  | some t =>
    let gone := w.ops.filter (fun o => o.txn)
    let ids := gone.map (fun o => o.id)
    let w := gone.foldl (fun w o => w.lower o.flag) w
    let w := { w with
      txn := none
      ops := w.ops.filter (fun o => !o.txn)
      pendS := w.pendS.filter (fun p => !ids.contains p.2)
      txcause := cause
      txcode := code
      woke := false
      ccnt := if cause == 1 then min 15 (w.ccnt + 1) else 0 }
    w.updFrag t.frag (fun f => { f with queue := [], run := none, pc := t.target, waitSince := none })

/-- A write was performed on lines: an open transaction that read one aborts with CONFLICT (R286), and a fragment that
watches one is to wake (R284). -/
def Wave.touch (w : Wave) (lines : List Nat) : Wave :=
  let w := match w.txn with
    | some t => if t.reads.any (fun l => lines.contains l) then w.abort 1 0 else w
    | none => w
  { w with frags := w.frags.map (fun f =>
      match f.sleep with
      | some sl => if sl.lines.any (fun l => lines.contains l) then { f with sleep := some { sl with woken := true } } else f
      | none => f) }

/-- The time of the wake is noted in the fragments that are to wake (R491). -/
def Wave.stampWakes (w : Wave) (now : Nat) : Wave :=
  { w with frags := w.frags.map (fun f =>
      match f.sleep with
      | some sl => if sl.woken && sl.wokenAt.isNone then { f with sleep := some { sl with wokenAt := some now } } else f
      | none => f) }

/-- The fragments of a wave that are to wake. -/
def Wave.wakes (r : WaveRef) (w : Wave) : List Instr :=
  w.frags.filterMap (fun f => match f.sleep with | some sl => if sl.woken then some (.fragmentWake r f.id) else none | none => none)

/-- Entries for the event queue of a dispatcher: it holds 1,024, and the rest wait in order (R210; DESIGN CHOICE, log 52). -/
def Die.enqueue (d : Die) (l : List (Sum (Nat × Nat) Nat)) : Die :=
  let all := d.evq ++ d.evwait ++ l
  { d with evq := all.take 1024, evwait := all.drop 1024 }

/-- The watch of a queue head falls: an entry in the die's event queue (R201). -/
def State.touchQueue (s : State) (lines : List Nat) (q : Nat) : State :=
  let h := s.hq q
  match h.head with
  | none => s
  | some hd =>
    let hits := (List.range hd.watch.length).filter (fun i => match hd.watch.getD i none with | some l => lines.contains l | none => false)
    if hits.isEmpty then s
    else
      let watch := (List.range hd.watch.length).map (fun i => if hits.contains i then none else hd.watch.getD i none)
      let refs := (List.range hd.refusals.length).map (fun i => if hits.contains i then 0 else hd.refusals.getD i 0)
      let s := s.setHq q { h with head := some { hd with watch := watch, refusals := refs } }
      let d := q / 32
      let s := s.setDie d ((s.die d).enqueue (hits.map (fun i => Sum.inl (q, i))))
      s.post (.dependenceWake (BitVec.ofNat 1 d))

/-- The watches of EVENT-WAIT commands of one stream. -/
def State.touchStream (s : State) (lines : List Nat) (st : Nat) : State :=
  let hit := (s.stream st).running.any (fun r => match r.wait with | .event (some l) _ _ => lines.contains l | _ => false)
  if hit then s.post (.eventWait (BitVec.ofNat 10 st)) else s

/-- Lines on which the watches of a context's saved image still act (R292, R495): memory, and barrier words that the context still
holds; not those whose values are carried with the image's set. -/
def State.imageLine (s : State) (x : Nat) (c : Ctx) (im : Image) (l : Nat) : Bool :=
  decide (l * 128 < 0x1000000000000) ||
    (decide (0x8000000000000 ≤ l * 128) &&
      (let core := (l * 128 - 0x8000000000000) / 512
       let first := (l * 128 - 0x8000000000000) % 512 / 8
       (List.range 16).any (fun i => tfind (s.core core).bound (first + i) == some x &&
         !(c.words.any (fun w => w.1 == im.home && w.2.1 == first + i)))))

/-- A write was performed on lines at their homes: every agent's watches and read marks on them act (R284, R286). -/
def State.touch (s : State) (lines : List Nat) : State :=
  let s := { s with
    cores := tmap s.cores (fun _ (c : Core) => { c with waves := tmap c.waves (fun _ w => (w.touch lines).stampWakes s.now) })
    ctxs := tmap s.ctxs (fun i (x : Ctx) => { x with images := x.images.map (fun (im : Image) =>
      let mine := lines.filter (s.imageLine i x im)
      let ws := im.waves.map (fun (w : Wave) => w.touch mine)
      { im with waves := ws, woken := ws.any (fun (w : Wave) => w.frags.any (fun f => match f.sleep with | some sl => sl.woken | none => false)) }) })
    cru := tmap s.cru (fun _ (x : Crux) => match x.watch with | some l => if lines.contains l then { x with watch := none, refusals := 0 } else x | none => x) }
  let s := s.posts (s.allWaves.flatMap (fun (p : WaveRef × Wave) => Wave.wakes p.1 p.2))
  let s := s.each (tkeys s.queues) (fun s q => s.touchQueue lines q)
  s.each (tkeys s.streams) (fun s st => s.touchStream lines st)

/-- A launch record has been read whose launch is not over (R260). -/
def State.coded (s : State) : Bool := !s.runs.isEmpty || s.queues.any (fun (q : Nat × Queue) => q.2.head.isSome)
/-- The overwritten bytes of memory after a store: instruction fetch of the launches under way goes on to see them (R260). -/
def State.writtenWith (s : State) (l : List (Nat × Byte)) : List (Nat × Byte) :=
  if s.coded then (l.filter (fun p => !onCore p.1)).map (fun p => (p.1, Memory.read s.mem p.1)) ++ s.written else []

/-- Bytes are performed at their homes, in order: the one way in which memory changes (R269, R271). -/
def State.store (s : State) (l : List (Nat × Byte)) : State :=
  if l.isEmpty then s
  else ({ s with mem := Memory.writes s.mem l, written := s.writtenWith l }).touch (dedup (l.map (fun (p : Nat × Byte) => lineOf p.1)))

/-- Bytes stored without any watch or mark acting: contents that are discarded (R25, R165). -/
def State.scrub (s : State) (l : List (Nat × Byte)) : State := { s with mem := Memory.writes s.mem l }

/-! The write-combining buffer and the L1 (R253, R254). -/

/-- One entry drains to the L2. -/
def State.drainLine (s : State) (core line : Nat) : State :=
  let c := s.core core
  match c.wcb.find? (fun e => e.line == line) with
  | none => s
  | some e => (s.setCore core { c with wcb := c.wcb.filter (fun x => x.line != line) }).store e.data
/-- The whole buffer drains, in order of first store. -/
def State.drainAll (s : State) (core : Nat) : State :=
  s.each ((s.core core).wcb.map (fun e => e.line)) (fun s l => s.drainLine core l)

/-- Bytes merged over others with the same keys; the later prevail. -/
def overlay (old new : List (Nat × Byte)) : List (Nat × Byte) :=
  old.filter (fun p => !(new.map (fun q => q.1)).contains p.1) ++ new

/-- The L1 sectors of a core that hold stored bytes are updated (R253). -/
def l1Update (l1 : List Sector) (asid : Nat) (l : List (Nat × Byte)) : List Sector :=
  l1.map (fun x => if x.asid != asid then x
    else { x with data := (List.range 32).map (fun i => match l.find? (fun p => p.1 == x.psec * 32 + i) with
      | some p => p.2
      | none => x.data.getD i 0) })

/-- Stored bytes of one memory line enter the write-combining buffer (R254). -/
def State.combine (s : State) (core asid line : Nat) (l : List (Nat × Byte)) : State :=
  let c := s.core core
  let c := { c with l1 := l1Update c.l1 asid l }
  match c.wcb.find? (fun e => e.line == line && e.asid == asid) with
  | some e =>
    let d := overlay e.data l
    let s := s.setCore core { c with wcb := c.wcb.map (fun x => if x.line == line && x.asid == asid then { x with data := d } else x) }
    if d.length == 128 then s.drainLine core line else s
  | none =>
    let s := (s.setCore core c).drainLine core line
    let s := if 32 ≤ (s.core core).wcb.length then
        match (s.core core).wcb with
        | e :: _ => s.drainLine core e.line
        | [] => s
      else s
    let s := s.updCore core (fun c => { c with wcb := c.wcb ++ [⟨line, asid, l, s.now⟩] })
    let s := s.after (front 128) (.wcbDrain (BitVec.ofNat 8 core) line)
    if l.length == 128 then s.drainLine core line else s

/-- Bytes are performed at `.core`: scratchpad bytes at their homes, memory bytes in the write-combining buffer (R270). -/
def State.storeCore (s : State) (core asid : Nat) (l : List (Nat × Byte)) : State :=
  let own := l.filter (fun p => onCore p.1)
  let mem := l.filter (fun p => !onCore p.1)
  let s := s.store own
  s.each (dedup (mem.map (fun p => lineOf p.1))) (fun s ln => s.combine core asid ln (mem.filter (fun p => lineOf p.1 == ln)))

/-- Bytes are performed at the home, for a scope of `.clus` or wider: earlier bytes of the line drain first. -/
def State.storeHome (s : State) (core asid : Nat) (l : List (Nat × Byte)) : State :=
  let s := s.each (dedup (l.map (fun p => lineOf p.1))) (fun s ln => s.drainLine core ln)
  (s.updCore core (fun c => { c with l1 := l1Update c.l1 asid l })).store l

/-- One byte as the core sees it without the L1: its write-combining buffer, else the home. -/
def State.byteVia (s : State) (core k : Nat) : Byte :=
  match (s.core core).wcb.findSome? (fun e => if e.line == lineOf k then (e.data.find? (fun p => p.1 == k)).map (fun p => p.2) else none) with
  | some b => b
  | none => Memory.read s.mem k
/-- Bytes as a core's engines see them. -/
def State.peekVia (s : State) (core : Nat) (keys : List Nat) : List Byte := keys.map (s.byteVia core)

/-- L1 lines of an address space are dropped on a core. -/
def State.dropL1 (s : State) (core asid : Nat) : State :=
  s.updCore core (fun c => { c with l1 := c.l1.filter (fun x => x.asid != asid) })

/-! Translation (R261 to R264). -/

/-- The outcome of a translation: a physical address, or a fault kind of R158 (1 translation, 2 not present,
3 permission). -/
abbrev Tr := Except Nat Nat

/-- Bits below the page at each level. -/
def levelShift : Nat → Nat
  | 1 => 34
  | 2 => 25
  | _ => 16

/-- One page-table entry read: the leaf, or the next table, or a fault (R262, R263). -/
def walkFrom (s : State) (va need : Nat) : Nat → Nat → Nat → Except Nat TlbEntry
  | 0, _, _ => .error 1
  | fuel + 1, level, table =>
    let idx := (va >>> (43 - 9 * level)) % 512
    let e := leNat (s.bytesAt (table + 8 * idx) 8)
    let leaf := bit e 1
    let base := bits e 47 12 <<< 12
    let sh := levelShift level
    if !bit e 0 then .error 2
    else if bits e 63 48 != 0 || bits e 11 5 != 0 || (leaf && level == 0) || (!leaf && level == 3) ||
        (leaf && base % (1 <<< sh) != 0) then .error 1
    else if !leaf then walkFrom s va need fuel (level + 1) base
    else if !backed base then .error 3
    else
      let perm := bits e 4 2
      if perm &&& need != need then .error 3
      else .ok ⟨0, level, va >>> sh, base, BitVec.ofNat 3 perm⟩

/-- Bits of a permission: load, store, fetch. -/
def needRD : Nat := 1
def needW : Nat := 2
def needX : Nat := 4
def needRW : Nat := 3

/-- The translation unit of a core (R264). -/
def unitOf (core : Nat) : Nat := dieOf core * 4 + core % 96 / 24

/-- An address of the window region (R248). -/
def inWindow (va : Nat) : Bool := decide (0xFFFF000000000 ≤ va) && decide (va < 0x10000000000000)

/-- Translation in context `x` through a unit: a TLB entry that grants the access, else a walk whose leaf is kept. -/
def State.translate (s : State) (unit x va need : Nat) : Tr × State :=
  if 0x10000000000000 ≤ va then (.error 1, s)
  else if inWindow va then (.error 3, s)
  else
    let tlb := tget [] s.tlb unit
    match tlb.find? (fun e => e.asid == x && e.page == va >>> levelShift e.level && (e.perm.toNat &&& need == need)) with
    | some e => (.ok (e.base + va % (1 <<< levelShift e.level)), s)
    | none =>
      match s.ctx? x with
      | none => (.error 2, s)
      | some c =>
        match walkFrom s va need 4 0 c.ptroot with
        | .error k => (.error k, s)
        | .ok e =>
          let tlb := tlb ++ [{ e with asid := x }]
          (.ok (e.base + va % (1 <<< levelShift e.level)),
            { s with tlb := tset s.tlb unit (tlb.drop (tlb.length - 2048)) })

/-- Every translation and L1 line of context `x` in [lo, hi) is removed, in every unit and core, and every line of its fetch caches
(R161, R260, R264). -/
def State.invalidate (s : State) (x lo hi : Nat) : State :=
  { s with
    ctxs := tmap s.ctxs (fun i (c : Ctx) => if i == x then { c with code := [] } else c)
    tlb := tmap s.tlb (fun _ l => l.filter (fun e => e.asid != x ||
      !(decide (e.page <<< levelShift e.level < hi) && decide (lo < (e.page + 1) <<< levelShift e.level))))
    cores := tmap s.cores (fun _ c => { c with l1 := c.l1.filter (fun l => l.asid != x ||
      !(decide (l.vsec * 32 < hi) && decide (lo < l.vsec * 32 + 32))) }) }

/-! Resolving an address to keys (R248 to R250). -/

/-- Where a window access comes from: the core and the resident block slot; a slot of 16 or more is a handler wave. -/
abbrev Place := Option (Nat × Nat)

/-- The barrier word is bound to the context, or becomes so (R295). -/
def State.bindWord (s : State) (core b x : Nat) : Option State :=
  match tfind (s.core core).bound b with
  | some y => if y == x then some s else none
  | none => some (s.updCore core (fun c => { c with bound := tset c.bound b x }))

/-- The key of an address of the window region, for an access of `n` bytes that stays in one 4 KiB piece. -/
def State.windowKey (s : State) (p : Place) (x va n : Nat) : Tr × State :=
  match p with
  | none => (.error 3, s)
  | some (core, bslot) =>
    let blk := tfind (s.core core).blocks bslot
    let lim := match blk with | some b => b.scrq * 4096 | none => 0
    let o := va - 0xFFFF000000000
    if o + n ≤ lim then (.ok (scrKey core ((match blk with | some b => b.sbase | none => 0) * 4096 + o)), s)
    else if 0xF0000 ≤ o && o + n ≤ 0xF0200 then
      let first := (o - 0xF0000) / 8
      let last := (o + n - 1 - 0xF0000) / 8
      match (List.range (last + 1 - first)).foldl (fun acc i => acc.bind (fun s => s.bindWord core (first + i) x)) (some s) with
      | some s => (.ok (barKey core (o - 0xF0000)), s)
      | none => (.error 3, s)
    else if 0x100000000 ≤ o && o < 0x100000000 + 12 * 0x100000 then
      let c := (o - 0x100000000) / 0x100000
      let o' := (o - 0x100000000) % 0x100000
      if lim < o' + n then (.error 3, s)
      else match blk with
        | none => (.error 3, s)
        | some b =>
          match b.row with
          | none => if c == 0 then (.ok (scrKey core (b.sbase * 4096 + o')), s) else (.error 3, s)
          | some r =>
            match tfind (s.cluster (clusterOf core)).relabel (r * 12 + c) with
            | some (k, sb) => (.ok (scrKey (clusterOf core * 12 + k) (sb * 4096 + o')), s)
            | none => (.error 3, s)
    else (.error 3, s)

/-- The key of a piece of an access in a memory space: 0 `.gen`, 1 `.scr`, 2 `.glb` (R250). -/
def State.resolvePiece (s : State) (p : Place) (unit x space va n need : Nat) : Tr × State :=
  if space == 1 then
    if 0x100000 ≤ va then (.error 3, s) else s.windowKey p x (0xFFFF000000000 + va) n
  else if 0x10000000000000 ≤ va then (.error 1, s)
  else if inWindow va then (if space == 2 then (.error 3, s) else s.windowKey p x va n)
  else s.translate unit x va need

/-- The keys of `n` bytes from `va`, piece by 4 KiB piece; a fault comes with the address of its piece. -/
def State.resolveGo (s : State) (p : Place) (unit x space need : Nat) : Nat → Nat → Nat → List Nat → Except (Nat × Nat) (List Nat) × State
  | 0, _, _, acc => (.ok acc, s)
  | fuel + 1, va, n, acc =>
    if n == 0 then (.ok acc, s)
    else
      let m := min n (4096 - va % 4096)
      match s.resolvePiece p unit x space va m need with
      | (.error k, s) => (.error (k, va), s)
      | (.ok k, s) => s.resolveGo p unit x space need fuel (va + m) (n - m) (acc ++ keysFrom k m)

/-- The keys of an access of `n` bytes. -/
def State.resolve (s : State) (p : Place) (unit x space va n need : Nat) : Except (Nat × Nat) (List Nat) × State :=
  s.resolveGo p unit x space need (n / 4096 + 2) va n []

/-! Accesses of agents beside the waves, at `.dev` scope (R92, R149, R158, R189). -/

/-- A load at `.dev`. -/
def State.devRead (s : State) (unit x va n : Nat) : Except (Nat × Nat) (List Byte) × State :=
  match s.resolve none unit x 2 va n needRD with
  | (.ok ks, s) => (.ok (s.peek ks), s)
  | (.error e, s) => (.error e, s)

/-- A store at `.dev`. -/
def State.devWrite (s : State) (unit x va : Nat) (l : List Byte) : Except (Nat × Nat) Unit × State :=
  match s.resolve none unit x 2 va l.length needW with
  | (.ok ks, s) => (.ok (), s.store (ks.zip l))
  | (.error e, s) => (.error e, s)

/-- A 64-bit atomic update at the home; answers the old value. -/
def State.devUpdate (s : State) (unit x va : Nat) (f : Nat → Nat) : Except (Nat × Nat) Nat × State :=
  match s.resolve none unit x 2 va 8 needRW with
  | (.ok ks, s) =>
    let old := leNat (s.peek ks)
    (.ok old, s.store (ks.zip (leBytes 8 (f old))))
  | (.error e, s) => (.error e, s)

/-! Barrier objects (R278). -/

/-- The bytes of a barrier object after `n` bytes are counted down. -/
def countDown (old : List Byte) (n : Nat) : List Byte :=
  let c : BitVec 64 := BitVec.ofNat 64 (field old 0 8) - BitVec.ofNat 64 n
  let nd : BitVec 32 := BitVec.ofNat 32 (field old 8 4) + 1
  let w := field old 12 4
  leBytes 8 c.toNat ++ leBytes 4 nd.toNat ++ leBytes 4 (if c.msb then w ||| 0x80000000 else w)

/-! Watches (R259, R279, R285). -/

/-- Watches that stand at a home. -/
def State.watchesAt (s : State) (home : Nat) : Nat :=
  let here (l : Nat) : Bool := homeOf (l * 128) == home
  let ofWave (w : Wave) : Nat := sumNat (w.frags.map (fun f => match f.sleep with | some sl => (sl.lines.filter here).length | none => 0))
  sumNat (s.allWaves.map (fun p => ofWave p.2)) +
  sumNat (s.ctxs.map (fun x => sumNat (x.2.images.map (fun im => sumNat (im.waves.map ofWave))))) +
  sumNat (s.queues.map (fun q => match q.2.head with | some h => (h.watch.filter (fun l => match l with | some l => here l | none => false)).length | none => 0)) +
  sumNat (s.streams.map (fun c => (c.2.running.filter (fun r => match r.wait with | .event (some l) _ _ => here l | _ => false)).length)) +
  sumNat (s.cru.map (fun x => match x.2.watch with | some l => bnat (here l) | none => 0))

/-- Whether the home of a line can hold one more watch: 1,024 at a slice, 256 at a scratchpad (R279). -/
def State.canWatch (s : State) (line : Nat) : Bool :=
  let h := homeOf (line * 128)
  decide (s.watchesAt h < (if h < 128 then 1024 else 256))

/-- The back-off after `k` consecutive refusals: 1 µs × 2^k, not doubling beyond 64 µs (R285, R201). -/
def watchBackoff (k : Nat) : Nat := 1000 * 2 ^ min k 6

/-- Whether the read-mark directories of the homes of some lines hold them beside every mark that stands: 4,096 lines at a slice, 512 at
a scratchpad (R279). -/
def State.canMark (s : State) (lines : List Nat) : Bool :=
  let marks := s.allWaves.flatMap (fun p => match p.2.txn with | some t => t.reads | none => [])
  (dedup (lines.map (fun l => homeOf (l * 128)))).all (fun h =>
    decide ((dedup ((marks ++ lines).filter (fun l => homeOf (l * 128) == h))).length ≤ (if h < 128 then 4096 else 512)))

/-! Instruction fetch (R260) -/

/-- A byte of memory as it was when a launch's record was read, after `seen` writes of `written` (DEDUCED, log 92). -/
def State.codeByte (s : State) (seen k : Nat) : Byte :=
  match (s.written.take (s.written.length - seen)).reverse.find? (fun p => p.1 == k) with
  | some p => p.2
  | none => Memory.read s.mem k
/-- The fetch caches of a context hold the lines of some keys. -/
def State.cacheCode (s : State) (x seen : Nat) (keys : List Nat) : State :=
  s.each (dedup (keys.map lineOf)) (fun s ln =>
    s.updCtx x (fun c => if (tfind c.code ln).isSome then c else { c with code := tset c.code ln ((List.range 128).map (fun i => s.codeByte seen (ln * 128 + i))) }))
/-- Fetched bytes: from the fetch caches of the context, which are filled first. -/
def State.fetchCode (s : State) (x seen : Nat) (keys : List Nat) : List Byte × State :=
  let s := s.cacheCode x seen keys
  match s.ctx? x with
  | some c => (keys.map (fun k => (tget [] c.code (lineOf k)).getD (k % 128) 0), s)
  | none => (keys.map (s.codeByte seen), s)

end Sys2Proof.Machine
end

