-- ==== Sys2Proof/Machine/Faults.lean ====
section
/-! DEFINITION. Fault records and the fault queue (R158), the end of crucible instances (R142), blocks that leave their
core, performance levels (R213, R215), and the end of a context (R165 to R167, R310). -/

namespace Sys2Proof.Machine

/-! The fault queue -/

/-- The bytes of a fault record (R158). -/
def recordBytes (r : FaultRec) : List Byte :=
  leBytes 8 r.id ++ leBytes 1 r.kind ++ leBytes 1 r.cause ++ leBytes 1 r.acc ++ leBytes 1 r.src ++ leBytes 2 r.who ++
    leBytes 2 0 ++ leBytes 8 r.va.toNat ++ leBytes 8 r.time

/-- What became of a record. -/
inductive Posted where
  | written
  | full
  | unusable
  deriving DecidableEq, Repr

/-- The latest 256 records of all contexts, for RESYNC (R169). -/
def State.keepError (s : State) (x : Nat) (r : FaultRec) : State :=
  let l := s.errors ++ [(x, r)]
  { s with errors := l.drop (l.length - 256) }

/-- A record is written at TAIL, unless the queue is full or cannot be reached (R158). -/
def State.fqWrite (s : State) (x : Nat) (r : FaultRec) (note : Bool) : Posted × State :=
  match s.ctx? x with
  | none => (.written, s)
  | some c =>
    match s.devRead 0 x c.fq.toNat 8 with
    | (.error _, s) => (.unusable, s)
    | (.ok hd, s) =>
      let used := (c.tail - BitVec.ofNat 64 (leNat hd)).toNat
      if used == c.fqn then (.full, s)
      else match s.devWrite 0 x (c.fq.toNat + 64 + 32 * (c.tail.toNat % c.fqn)) (recordBytes r) with
        | (.error _, s) => (.unusable, s)
        | (.ok _, s) =>
          match s.devWrite 0 x (c.fq.toNat + 8) (leBytes 8 (c.tail + 1).toNat) with
          | (.error _, s) => (.unusable, s)
          | (.ok _, s) =>
            let s := (s.updCtx x (fun c => { c with tail := c.tail + 1 })).keepError x r
            (.written, if used == 0 && note && c.fqnote != 0 then s.note c.fqnote (recordBytes r) else s)

/-- The fault queue cannot be used: the context is to end with CAUSE 0x05 before this step is over (R158, `State.settle`). -/
def State.markUnusable (s : State) (x : Nat) : State := s.updCtx x (fun c => { c with ending := true })

/-- A record that found the queue full is dropped and counted (R158). -/
def State.dropRecord (s : State) (x : Nat) : State :=
  match s.ctx? x with
  | none => s
  | some c =>
    let s := s.updCtx x (fun c => { c with dropped := c.dropped + 1 })
    match s.devWrite 0 x (c.fq.toNat + 16) (leBytes 8 (c.dropped + 1).toNat) with
    | (.ok _, s) => s
    | (.error _, s) => s.markUnusable x

/-- The next FAULTID and a record with it. -/
def State.newRecord (s : State) (kind cause acc src who va : Nat) : FaultRec × State :=
  (⟨s.faultId, kind, cause, acc, src, who, BitVec.ofNat 64 va, s.now⟩, { s with faultId := s.faultId + 1 })

/-- A translation, not-present or permission fault is posted and waits for RESOLVE (R158, R308); answers its number. -/
def State.memFault (s : State) (x kind acc src who va : Nat) (w : Waiter) : Nat × State :=
  let (r, s) := s.newRecord kind 0 acc src who va
  let (p, s) := s.fqWrite x r true
  let s := { s with pend := s.pend ++ [⟨r, x, w, p == .written⟩] }
  (r.id, if p == .unusable then s.markUnusable x else s)

/-- A memory fault that nothing waits for (R148). -/
def State.plainFault (s : State) (x kind acc src who va : Nat) : State :=
  let (r, s) := s.newRecord kind 0 acc src who va
  match s.fqWrite x r true with
  | (.written, s) => s
  | (.full, s) => s.dropRecord x
  | (.unusable, s) => s.markUnusable x

/-- A fabric error record (R158, KIND 0x10). -/
def State.fabricErr (s : State) (x cause src who va : Nat) : State :=
  let (r, s) := s.newRecord 0x10 cause 0 src who va
  match s.fqWrite x r true with
  | (.written, s) => s
  | (.full, s) => s.dropRecord x
  | (.unusable, s) => s.markUnusable x

/-- A context-fault record: always a NOTE, always kept for RESYNC, always in the service log (R158, R310). -/
def State.ctxFault (s : State) (x cause : Nat) : State :=
  let (r, s) := s.newRecord 0x20 cause 0 0 0 0
  let c := s.ctx? x
  let s := if cause == 5 then s.keepError x r
    else match s.fqWrite x r false with
      | (.written, s) => s
      | (.full, s) => (s.keepError x r).dropRecord x
      | (.unusable, s) => s.keepError x r
  match c with
  | some c => if c.fqnote != 0 then s.note c.fqnote (recordBytes r) else s
  | none => s

/-- Memory-fault records that found the queue full are tried again (R158). -/
def State.repost (s : State) : State :=
  s.each (s.pend.filter (fun p => !p.posted)) (fun s p =>
    let r := { p.frec with time := s.now }
    match s.fqWrite p.ctx r true with
    | (.written, s) => { s with pend := s.pend.map (fun q => if q.frec.id == p.frec.id then { q with frec := r, posted := true } else q) }
    | (.full, s) => s
    | (.unusable, s) => s.markUnusable p.ctx)

/-! The end of an instance (R142) -/

/-- The STATUS word of an instance (R142). -/
def Crux.statusWord (x : Crux) (cause : Nat) : Nat :=
  at_ x.step 16 + at_ (bnat x.ovf) 11 + at_ (bnat x.inv) 10 + at_ (bnat x.leftover) 9 + at_ (bnat x.degraded) 8 + cause

/-- Start causes: the end causes that refuse a start (R125, R142). -/
def startCause (x : Crux) : Bool := x.st == 1

/-- The start retires (R142, R125): on the wave's `cl` counter, or as the command's completion. -/
def State.retireStart (s : State) (byOp : Option Nat) (byCmd : Option (Nat × Word)) (code status : Nat) : State :=
  let s := match byOp with
    | some id => match s.asyncs.find? (fun o => o.id == id) with
      | some o => (s.updAsync id (fun o => { o with stage := 3 })).post (.asyncRetire o.w 4)
      | none => s
    | none => s
  match byCmd with
  | some (st, seq) =>
    match (s.stream st).running.find? (fun r => r.seq == seq) with
    | some r => s.complete st seq r.data code status []
    | none => s
  | none => s

/-- Step 5: the start retires, and the slot is FREE. `quiet`: the end is that of a reset, and a command completes with
ABORTED (R166); it completes with REFUSED where the start is refused (R125), and else with OK. -/
def State.retireInstance (s : State) (i status : Nat) (quiet : Bool) : State :=
  let x := s.cx i
  (s.setCx i {}).retireStart x.byOp x.byCmd (if quiet then 6 else if startCause x then 4 else 0) status

/-- Step 4 and what follows. -/
def State.endPart4 (s : State) (i cause : Nat) (quiet : Bool) : State :=
  let x := s.cx i
  let s := if cause != 0 then match x.ctx with | some c => s.fabricErr c cause 4 i 0 | none => s else s
  s.retireInstance i (x.statusWord cause) quiet

/-- Step 3 and what follows: the addition to DONEEV. `quiet`: a fault loses the addition (R142, R165). -/
def State.endPart3 (s : State) (i cause : Nat) (quiet : Bool) : State :=
  let x := s.cx i
  match x.ctx, x.desc with
  | some c, some d =>
    if cause != 0 || d.doneev == 0 then s.endPart4 i cause quiet
    else match s.devUpdate (i / 16 * 4) c d.doneev.toNat (fun v => v + 1) with
      | (.ok _, s) => s.endPart4 i cause quiet
      | (.error (k, va), s) =>
        if k == 3 || quiet then (s.fabricErr c 7 4 i d.doneev.toNat).endPart4 i cause quiet
        else
          let (id, s) := s.memFault c k 5 4 i va (.slot (i / 16) (i % 16))
          s.setCx i { s.cx i with fault := some id, ending := some (cause, 3) }
  | _, _ => s.endPart4 i cause quiet

/-- The end sequence from step 1: rings released, STATUS written. -/
def State.endInstance (s : State) (i cause : Nat) (quiet : Bool) : State :=
  let x := s.cx i
  let start := startCause x
  let s := s.setCx i { x with st := if start then 1 else 5, outs := [], ins := [], outst := [], ending := some (cause, 2), fault := none, watch := none, resuming := none }
  match x.ctx, x.desc with
  | some c, some d =>
    match s.devWrite (i / 16 * 4) c d.status.toNat (leBytes 8 (x.statusWord cause)) with
    | (.ok _, s) => s.endPart3 i cause quiet
    | (.error (k, va), s) =>
      if k == 3 || quiet then (s.fabricErr c 7 4 i d.status.toNat).endPart3 i cause quiet
      else
        let (id, s) := s.memFault c k 1 4 i va (.slot (i / 16) (i % 16))
        s.setCx i { s.cx i with fault := some id }
  | _, _ => s.endPart4 i cause quiet

/-- The end sequence of an instance after the loss of the write that it waited for (R142). -/
def State.loseWrite (s : State) (i : Nat) (quiet : Bool) : State :=
  let x := s.cx i
  match x.ctx, x.desc, x.ending with
  | some c, some d, some (cause, 2) => ((s.fabricErr c 7 4 i d.status.toNat).setCx i { x with fault := none }).endPart3 i cause quiet
  | some c, some d, some (cause, _) => ((s.fabricErr c 7 4 i d.doneev.toNat).setCx i { x with fault := none }).endPart4 i cause quiet
  | _, _, _ => s

/-- An instance is taken away with its context or its crucible: it ends as ABORT ends it (R141, R165, R184); one already in its end
sequence keeps its own cause, and a write that waits for RESOLVE is lost (DEDUCED, log 81). -/
def State.stopInstance (s : State) (i : Nat) : State :=
  if (s.cx i).ending.isSome then s.loseWrite i true else s.endInstance i 11 true

/-- An image switch of a unit is pending (R183). -/
def State.switching (s : State) (unit : Nat) : Bool := s.mgmt.pendingSwitch.any (fun (f : FwSwitch) => f.unit == unit)

/-! Levels of a cluster (R213, R215) -/

/-- The target level of R213. -/
def State.targetLevel (s : State) (n : Nat) : Nat :=
  match (s.cluster n).slots with
  | [] => 1
  | l => l.foldl (fun m p => max m (min p.2 (match s.ctx? p.1 with | some c => c.plcap | none => 1))) 0

/-- A change of target is taken up when no change runs (R215). -/
def State.retarget (s : State) (n : Nat) : State :=
  let t := s.targetLevel n
  let c := { s.cluster n with tgt := t }
  let i := BitVec.ofNat 4 n
  if c.change.isSome || t == c.cur then s.setCluster n c
  else if c.cur < t then (s.setCluster n { c with change := some t }).after 2000 (.railRaised i)
  else
    let s := (s.setCluster n { c with change := some t }).syncEdges n
    (s.updCluster n (fun c => { c with switching := true, switchAt := s.now })).after (front 256) (.levelSwitchDone i)

/-! Blocks that leave a core -/

/-- The blocks of a cluster. -/
def State.clusterBlocks (s : State) (n : Nat) : List Block :=
  (List.range 12).flatMap (fun i => (s.core (n * 12 + i)).blocks.map (fun b => b.2))

/-- Images to be restored, and queues whose records hold blocks unplaced, look for room again (R315: images first). -/
def State.tryPlace (s : State) : State :=
  let s := s.posts ((s.ctxs.filter (fun c => c.2.pmst == 3)).map (fun c => .restorePlace (BitVec.ofNat 8 c.1)))
  s.posts ((s.queues.filter (fun q => !q.2.placing.isEmpty)).map (fun q => .blockPlace (BitVec.ofNat 6 q.1)))

/-- A cluster without a resident block: idle from now; its gate sequence or calibration falls due (R207, R226). -/
def State.idleCheck (s : State) (n : Nat) : State :=
  if (s.clusterBlocks n).isEmpty && (s.cluster n).idleSince.isNone then
    let d := s.die (n / 8)
    let t := front (max 1 d.idlefc.toNat)
    ((s.setCluster n { s.cluster n with idleSince := some s.now }).after t (.calibrationPass (BitVec.ofNat 4 n))).after t (.gateSequenceStart (BitVec.ofNat 4 n))
  else s

/-- Barrier words that a context holds on a core are unbound and zeroed (R295). -/
def State.freeWords (s : State) (core x : Nat) : State :=
  let bs := ((s.core core).bound.filter (fun p => p.2 == x)).map (fun p => p.1)
  let s := s.updCore core (fun c => { c with bound := c.bound.filter (fun p => p.2 != x) })
  s.scrub (bs.flatMap (fun b => (List.range 8).map (fun i => (barKey core (8 * b + i), 0))))

/-- A block leaves its core: waves, scratchpad, relabel entry and, with the context's last block, its barrier words and its
performance request are freed. -/
def State.removeBlock (s : State) (core bslot : Nat) : State :=
  match tfind (s.core core).blocks bslot with
  | none => s
  | some b =>
    let n := clusterOf core
    let s := s.updCore core (fun c => { c with
      blocks := tdel c.blocks bslot
      waves := c.waves.filter (fun w => w.2.bslot != bslot || w.2.handler)
      matrix := c.matrix.filter (fun m => !b.waves.contains m.slot)
      sweeps := c.sweeps.filter (fun m => !b.waves.contains m.slot)
      groups := (c.groups.map (fun g => { g with lanes := g.lanes.filter (fun l => l.bslot != bslot) })).filter (fun g => !g.lanes.isEmpty)
      handling := c.handling.filter (fun p => p.1.bslot != bslot)
      release := (c.release.map (fun e => (e.1, e.2.filter (fun p => !b.waves.contains p.1)))).filter (fun e => !e.2.isEmpty) })
    let s := s.scrub ((List.range (b.scrq * 4096)).map (fun o => (scrKey core (b.sbase * 4096 + o), Memory.empty)))
    let s := match b.row with
      | some r =>
        let left := (s.clusterBlocks n).any (fun c => c.row == some r)
        s.updCluster n (fun c => { c with relabel := tdel c.relabel (r * 12 + b.entry), rows := if left then c.rows else c.rows.erase r })
      | none => s
    let s := if (s.core core).blocks.any (fun c => c.2.ctx == b.ctx) then s else s.freeWords core b.ctx
    let s := if (s.clusterBlocks n).any (fun c => c.ctx == b.ctx) then s
      else (s.updCluster n (fun c => { c with slots := tdel c.slots b.ctx })).retarget n
    let s := s.idleCheck n
    let s := if (s.core core).pend then s.post (.carveOutChangeDone (BitVec.ofNat 8 core)) else s
    s.tryPlace

/-! The end of a context -/

/-- Started records of a context complete with ABORTED (R166); `self` is the record that runs. -/
def State.abortRecords (s : State) (x : Nat) (self : Option (Nat × Word)) : State :=
  s.each (s.streams.map (fun p => p.1)) (fun s st =>
    s.each ((s.stream st).running.filter (fun r => r.ctx == some x && self != some (st, r.seq))) (fun s r =>
      s.complete st r.seq r.data 6 (match r.wait with | .script _ => 0xFFFFFFFF | _ => 0) []))

/-- CONTEXT-RESET (R165): all work of the context ends at this instant. A received copy flit that waited for a fault is taken up
again (DESIGN CHOICE, log 83). -/
def State.resetCtx (s : State) (x : Nat) (self : Option (Nat × Word)) : State :=
  let qs := (s.queues.filter (fun q => q.2.ctx == some x)).map (fun q => q.1)
  let gone := (s.runs.filter (fun r => r.ctx == x)).map (fun r => r.id)
  let s := { s with
    queues := tmap s.queues (fun _ (q : Queue) => if q.ctx == some x then { q with ptrs := [], head := none, fault := none, placing := [], asked := [] } else q)
    runs := s.runs.filter (fun r => r.ctx != x)
    dies := tmap s.dies (fun _ (d : Die) =>
      let keep (e : Sum (Nat × Nat) Nat) : Bool := match e with
        | .inl p => !qs.contains p.1
        | .inr r => !gone.contains r
      ({ d with evq := d.evq.filter keep, evwait := [] } : Die).enqueue (d.evwait.filter keep)) }
  let s := s.each (s.cores.map (fun p => p.1)) (fun s c =>
    let s := if (s.core c).waves.any (fun (w : Nat × Wave) => w.2.handler && w.2.ctx == x) then s.post (.handlerLaunch (BitVec.ofNat 8 c)) else s
    let s := s.updCore c (fun k => { k with
      handling := if k.waves.any (fun (w : Nat × Wave) => w.2.handler && w.2.ctx == x) then [] else k.handling
      waves := k.waves.filter (fun w => !(w.2.handler && w.2.ctx == x))
      groups := k.groups.filter (fun g => g.ctx != x)
      matrix := k.matrix.filter (fun m => m.ctx != x)
      sweeps := k.sweeps.filter (fun m => m.ctx != x) })
    s.each (((s.core c).blocks.filter (fun b => b.2.ctx == x)).map (fun b => b.1)) (fun s b => s.removeBlock c b))
  let s := { s with gaffer := tmap s.gaffer (fun _ (g : GThread) => if g.ctx == some x then { g with st := 0, wait := .none, cmd := none } else g) }
  let s := s.each ((s.circuits.filter (fun e => e.2.bind.toNat == x)).map (fun e => e.1)) (fun s e => s.tearEntry e)
  let s := s.each ((s.cru.filter (fun p => p.2.ctx == some x && p.2.st != 0)).map (fun p => p.1)) (fun s i => s.stopInstance i)
  let flits := (s.pend.filter (fun p => p.ctx == x)).filterMap (fun p => match p.waiter with | .flit q => some q | _ => none)
  let s := (flits.foldl (fun (s : State) q => s.setPort q { s.port q with inFault := none }) s).posts
    (flits.map (fun q => .copyFlitWrite (BitVec.ofNat 5 q)))
  let s := { s with asyncs := s.asyncs.filter (fun o => o.ctx != x), pend := s.pend.filter (fun p => p.ctx != x) }
  let s := s.invalidate x 0 0x10000000000000
  let s := s.updCtx x (fun c => { c with images := [], used := 0, pmst := 0, words := [], drainBy := none, savefault := none })
  s.abortRecords x self

/-- What CONTEXT-DESTROY does after the reset (R167): queues unbound, streams closed, windows and the handle free. A closed stream
keeps the packets that the host has not acknowledged (R154), and a queue its rejection count and wake register (R211). -/
def State.dropCtx (s : State) (x : Nat) : State :=
  match s.ctx? x with
  | none => s
  | some c =>
    let sts := (List.range c.nstrm).map (fun i => c.strm0 + i)
    let s := { s with queues := tmap s.queues (fun _ (q : Queue) => if q.ctx == some x then { ({} : Queue) with rejcnt := q.rejcnt, wake := q.wake } else q) }
    let s := s.each sts (fun s st =>
      let k := s.stream st
      let s := s.each k.buffer (fun s r => s.sendCpl 0 3 (cplRecord st r.1 r.2 6 0 0 0 1))
      if k.unacked.isEmpty && k.held.isEmpty then { s with streams := tdel s.streams st }
      else s.setStream st { ({} : CmdStream) with
        cplSeq := k.cplSeq, ackedSeq := k.ackedSeq, unacked := k.unacked, held := k.held, stalled := k.stalled })
    { s with
      windows := s.windows.filter (fun w => w.2.ctx != some x)
      ctxs := tdel s.ctxs x }

/-- A fatal context error (R310): the context's work ends, the error is reported, and the handle is released. `report` is
false where the pending memory-fault record is the report (R309). -/
def State.fatalCtx (s : State) (x cause : Nat) (report : Bool) : State :=
  if (s.ctx? x).isNone then s
  else
    let s := s.updCtx x (fun c => { c with ending := false })
    let s := s.resetCtx x none
    let s := if report then s.ctxFault x cause else s
    let s := s.logEntry 6 0xFF (BitVec.ofNat 64 (x + 256 * cause))
    s.dropCtx x

/-- What the device does by itself before a step is over: contexts with an unusable fault queue end (R158), and records
that wait for space are tried again. -/
def State.settle (s : State) : State :=
  let s := if s.pend.any (fun p => !p.posted) then s.repost else s
  s.each ((s.ctxs.filter (fun p => p.2.ending)).map (fun p => p.1)) (fun s x => s.fatalCtx x 5 true)

end Sys2Proof.Machine
end

