-- ==== Sys2Proof/Machine/Ops.lean ====
section
/-! DEFINITION. The named operations over waves, fragments and their memory accesses; taking a user trap (R299 to R303) and
resuming from it (R302); transactions (R280 to R289). -/

namespace Sys2Proof.Machine

/-! Who executes -/

/-- A scalar instruction of the present fragment. -/
def asScalar (s : State) (k : WaveRef → Wave → Fragment → Out) : Out :=
  match s.cur with
  | .scalar c sl f =>
    match s.wave? ⟨c, sl⟩ with
    | some w => match w.frag? f with
      | some g => if g.st == .ready then k ⟨c, sl⟩ w g else .fault .noAgent
      | none => .fault .noAgent
    | none => .fault .noAgent
  | _ => .fault .noAgent

/-- A lane instruction of the running clause of the present fragment. -/
def asLane (s : State) (k : WaveRef → Wave → Fragment → Running → Out) : Out :=
  match s.cur with
  | .lane c sl f =>
    match s.wave? ⟨c, sl⟩ with
    | some w => match w.frag? f with
      | some g => match g.run with
        | some r => k ⟨c, sl⟩ w g r
        | none => .fault .noAgent
      | none => .fault .noAgent
    | none => .fault .noAgent
  | _ => .fault .noAgent

/-! Scalar registers (R232, R241) -/

/-- Word k of a 96-lane mask. -/
def maskWord (m : LaneMask) (k : Nat) : Word := BitVec.ofNat 32 (m.toNat >>> (32 * k))
/-- A 96-lane mask from three words. -/
def maskOf (a b c : Word) : LaneMask := BitVec.ofNat 96 (a.toNat + at_ b.toNat 32 + at_ c.toNat 64)
/-- Every lane. -/
def allLanes : LaneMask := BitVec.allOnes 96
/-- Lane `i` of a mask. -/
def lane (m : LaneMask) (i : Nat) : Bool := m.getLsbD i
/-- The lanes of a mask, in ascending order. -/
def lanesOf (m : LaneMask) : List Nat := (List.range 96).filter (fun i => lane m i)
/-- The mask of a predicate over lanes. -/
def maskFrom (f : Nat → Bool) : LaneMask := BitVec.ofNat 96 ((List.range 96).foldl (fun n i => if f i then n + at_ 1 i else n) 0)

/-- A scalar register as a fragment reads it: s0 reads 0, s56 to s60 are path-local, s61 to s63 are m0 to m2. -/
def Wave.rd (w : Wave) (f : Fragment) (r : Nat) : Word :=
  if r == 0 then 0
  else if 61 ≤ r then maskWord f.mask (r - 61)
  else if 56 ≤ r then f.path.getD (r - 56) 0
  else tget 0 w.sreg r
/-- The pair r:r + 1. -/
def Wave.rdPair (w : Wave) (f : Fragment) (r : Nat) : DWord := (w.rd f (r + 1)) ++ (w.rd f r)

/-- One word of a mask replaced. -/
def setMaskWord (m : LaneMask) (k : Nat) (v : Word) : LaneMask :=
  let keep : LaneMask := ~~~(BitVec.ofNat 96 (at_ 0xFFFFFFFF (32 * k)))
  (m &&& keep) ||| BitVec.ofNat 96 (at_ v.toNat (32 * k))

/-- The five path-local words with word k replaced (R241). -/
def setPath (l : List Word) (k : Nat) (v : Word) : List Word := (List.range 5).map (fun i => if i = k then v else l.getD i 0)

/-- A scalar register is written: s0 discards, a mask word is ANDed with that of the lane set (R241). -/
def Wave.wr (w : Wave) (fid r : Nat) (v : Word) : Wave :=
  if r == 0 then w
  else if 61 ≤ r then w.updFrag fid (fun f => { f with mask := setMaskWord f.mask (r - 61) (v &&& maskWord f.lanes (r - 61)) })
  else if 56 ≤ r then w.updFrag fid (fun f => { f with path := setPath f.path (r - 56) v })
  else { w with sreg := tset w.sreg r v }
/-- The pair r:r + 1 is written. -/
def Wave.wrPair (w : Wave) (fid r : Nat) (v : DWord) : Wave :=
  (w.wr fid r (v.truncate 32)).wr fid (r + 1) ((v >>> 32).truncate 32)

/-! Interlocks and progress (R311, R374) -/

/-- The fragment waits at an interlock: nothing else changes, and the watchdog of its die counts from the first wait. -/
def State.wait (s : State) (r : WaveRef) (fid : Nat) : State :=
  match (s.wave? r).bind (fun w => w.frag? fid) with
  | some f =>
    if f.waitSince.isSome then s
    else
      let d := s.die (dieOf r.core)
      let s := s.updFrag r fid (fun f => { f with waitSince := some s.now })
      if d.wden then s.after (1000 * max 1 d.wdt.toNat) (.watchdogExpiry r fid) else s
  | none => s

/-- The fragment has issued. -/
def State.issued (s : State) (r : WaveRef) (fid : Nat) : State := s.updFrag r fid (fun f => { f with waitSince := none })

/-- The scalar stream goes on at an address. -/
def State.goto (s : State) (r : WaveRef) (fid : Nat) (pc : DWord) : State :=
  s.updFrag r fid (fun f => { f with pc := pc, waitSince := none })
/-- The scalar stream goes on with the next word. -/
def State.next (s : State) (r : WaveRef) (fid : Nat) : State :=
  s.updFrag r fid (fun f => { f with pc := f.pc + 4, waitSince := none })

/-- A scalar register has a pending result (R374). -/
def Wave.pending (w : Wave) (f : Fragment) (l : List Nat) : Bool :=
  w.pendS.any (fun p => l.contains p.1 && (decide (p.1 < 56) || w.ops.any (fun o => o.id == p.2 && (o.frag == f.id || o.heirs.contains f.id))))

/-- A scalar instruction that reads and writes the named registers: it waits while one is pending. -/
def scalarOp (s : State) (regs : List Nat) (k : WaveRef → Wave → Fragment → Out) : Out :=
  asScalar s (fun r w f => if w.pending f regs then .next (s.wait r f.id) else k r w f)

/-- The common form of a scalar instruction: one result register, the next word. -/
def scalarResult (s : State) (srcs : List Nat) (d : Nat) (v : Wave → Fragment → Word) : Out :=
  scalarOp s (d :: srcs) (fun r w f => .next ((s.setWave r (w.wr f.id d (v w f))).next r f.id))

/-- The next clause instruction of a fragment. -/
def State.laneNext (s : State) (r : WaveRef) (fid : Nat) : State :=
  s.updFrag r fid (fun f => { f with
    run := match f.run with
      | some x => if x.idx + 1 < x.code.length then some { x with idx := x.idx + 1 } else none
      | none => none
    waitSince := none })

/-! Path slots and the split table (R243) -/

/-- A fragment in a path slot. -/
def Fragment.inSlot (f : Fragment) : Bool := f.st == .ready || f.st == .sleeping || f.st == .heldSlot
/-- A fragment in a split-table entry. -/
def Fragment.inEntry (f : Fragment) : Bool := f.st == .waiting || f.st == .joined || f.st == .heldEntry
/-- Path slots in use. -/
def Wave.slotsUsed (w : Wave) : Nat := (w.frags.filter (fun f => f.inSlot)).length
/-- Split-table entries of a core in use. -/
def State.splitUsed (s : State) (core : Nat) : Nat :=
  sumNat ((s.core core).waves.map (fun w => (w.2.frags.filter (fun f => f.inEntry)).length))
/-- An entry is free. -/
def State.splitFree (s : State) (core : Nat) : Bool := decide (s.splitUsed core < 256)

/-- The oldest waiting fragment takes a free path slot. -/
def Wave.refillGo (w : Wave) : Nat → Wave
  | 0 => w
  | n + 1 =>
    if 2 ≤ w.slotsUsed then w
    else match minBy (fun f => f.order) (w.frags.filter (fun f => f.st == .waiting)) with
      | none => w
      | some f => (w.updFrag f.id (fun g => { g with st := .ready })).refillGo n
def Wave.refill (w : Wave) : Wave := w.refillGo 2

/-- A fragment joins the wave: in a free path slot, else in an entry. -/
def Wave.addFrag (w : Wave) (f : Fragment) : Wave :=
  let st := if w.slotsUsed < 2 then FragState.ready else FragState.waiting
  { w with frags := w.frags ++ [{ f with id := w.nextFrag, order := w.nextFrag, st := st }], nextFrag := w.nextFrag + 1 }

/-- Whether a fragment still takes part in a split. -/
def Fragment.inSplit (f : Fragment) (sp : Nat) : Bool := f.joins.any (fun j => j.split == sp)

/-- An operation of a fragment, or of one that has become part of it. -/
def Op.within (o : Op) (fid : Nat) : Bool := o.frag == fid || o.also.any (fun k => k.1 == fid)

/-- The accesses of some fragments precede whatever others access, each from some number on (R268). -/
def Wave.precede (w : Wave) (of : List Nat) (ids : List (Nat × Nat)) : Wave :=
  { w with ops := w.ops.map (fun o => if of.any o.within then { o with also := o.also ++ ids } else o) }

/-- A fragment goes on alone after a split whose other side has exited: its accesses and those of that side precede what it accesses from
now on (R245, R268). -/
def Wave.fuseAlone (w : Wave) (now fid split : Nat) : Wave :=
  { w with ops := w.ops.map (fun o => if o.within fid || o.sides.contains split then { o with also := o.also ++ [(fid, now)] } else o) }

/-- The split at whose join a fragment is parked with nobody left on the other side. -/
def Wave.lonely (w : Wave) (f : Fragment) : Option Join :=
  match f.st, f.joins with
  | FragState.joined, j :: _ => if w.frags.any (fun g => g.id != f.id && g.inSplit j.split) then none else some j
  | _, _ => none

/-- Parked sides whose other side is gone go on alone (R245). -/
def Wave.releaseJoins (w : Wave) (now : Nat) : Wave :=
  (w.frags.foldl (fun (v : Wave) (f : Fragment) => match w.lonely f with
    | some j => (v.setFrag { f with st := .waiting, joins := f.joins.drop 1, pc := j.addr }).fuseAlone now f.id j.split
    | none => v) w).refill

/-- The fragment leaves the wave (R245, R393); `now`: the number of the next operation. -/
def Wave.dropFrag (w : Wave) (now fid : Nat) : Wave :=
  let sps := match w.frag? fid with | some f => f.joins.map (fun (j : Join) => j.split) | none => []
  ({ w with
    frags := w.frags.filter (fun f => f.id != fid)
    ops := w.ops.map (fun (o : Op) => if o.within fid then { o with sides := o.sides ++ sps } else o) } : Wave).refill.releaseJoins now

/-- A fragment `new` parts from one by a trap: pending scalar results are both's (R374). -/
def Wave.bequeath (w : Wave) (fid new : Nat) : Wave :=
  { w with ops := w.ops.map (fun o => if o.scalar && (o.frag == fid || o.heirs.contains fid) then { o with heirs := o.heirs ++ [new] } else o) }

/-- Clauses of a fragment enqueued before a number are left to issue. -/
def Wave.unissued (w : Wave) (a : Nat × Nat) : Bool :=
  w.frags.any (fun g => g.id == a.1 && (g.queue.any (fun c => decide (c.born < a.2)) || g.run.any (fun x => decide (x.cl.born < a.2))))
/-- Accesses that precede those of a fragment from number `n` on are still to come (R268). -/
def Wave.toCome (w : Wave) (f : Fragment) (n : Nat) : Bool := f.after.any (fun a => decide (a.2 ≤ n) && w.unissued a)
/-- What the sides of a split made now come after: the clauses that the fragment's queue holds. -/
def Wave.splitAfter (w : Wave) (f : Fragment) (now : Nat) : List (Nat × Nat) :=
  f.after.filter w.unissued ++ (if f.queue.isEmpty && f.run.isNone then [] else [(f.id, now)])

/-- A fragment whose program counter is the address at the top of its join stack (R244): it parks, or fuses with the
parked side, or goes on alone; it waits while its lane queue is not empty, a path-local register or mask word awaits a result (R374), or
no entry is free. -/
def State.arrive (s : State) (r : WaveRef) (w : Wave) (f : Fragment) (j : Join) (js : List Join) : State :=
  if !f.queue.isEmpty || f.run.isSome || w.pending f [56, 57, 58, 59, 60, 61, 62, 63] then s.wait r f.id
  else
    match w.frags.find? (fun g => g.id != f.id && g.st == .joined && (match g.joins with | t :: _ => t.split == j.split | [] => false)) with
    | some g =>
      let path := if j.parent then f.path else g.path
      let f' := { f with
        lanes := f.lanes ||| g.lanes, mask := f.mask ||| g.mask, path := path, joins := js, after := f.after ++ g.after, waitSince := none }
      s.setWave r ((({ w with frags := w.frags.filter (fun x => x.id != g.id) }).setFrag f').precede [f.id, g.id] [(f.id, s.nextId)])
    | none =>
      if w.frags.any (fun g => g.id != f.id && g.inSplit j.split) then
        if s.splitFree r.core then
          s.setWave r ((w.setFrag { f with st := .joined, waitSince := none }).refill)
        else s.wait r f.id
      else s.setWave r ((w.setFrag { f with joins := js, waitSince := none }).fuseAlone s.nextId f.id j.split)

/-! User traps (R299 to R303) -/

/-- The origin tag of a held lane (R304). -/
def originTag (h : HeldLane) : Word := BitVec.ofNat 32 (at_ h.slot 16 + at_ h.lane 8 + h.bslot)

/-- The order in which the compactor takes held lanes: of arrival, and of one time in ascending wave slot, then lane (R303). -/
def HeldLane.before (h g : HeldLane) : Bool :=
  decide (h.time < g.time) || (h.time == g.time && (decide (h.slot < g.slot) || (h.slot == g.slot && decide (h.lane ≤ g.lane))))
/-- Held lanes join those of a group in their order. -/
def joinLanes (old new : List HeldLane) : List HeldLane :=
  new.foldl (fun l h => l.filter (fun g => g.before h) ++ h :: l.filter (fun g => !g.before h)) old

/-- When a group of these lanes is ready at the latest: 512 front cycles after its first lane (R303). -/
def lanesDue (l : List HeldLane) : Nat := match l with | h :: _ => h.time + front 512 | [] => 0
/-- When a group that has come to hold these lanes is ready: at once where there are 96, but no later than it would have been. -/
def lanesReady (now : Nat) (l : List HeldLane) : Option Nat := if 96 ≤ l.length then some (min now (lanesDue l)) else none

/-- Held lanes reach the compactor, grouped by context and trap entry; 96 lanes make a group ready at once, 512 front
cycles after its first lane otherwise (R303). -/
def State.compact (s : State) (core x : Nat) (entry : DWord) (l : List HeldLane) : State :=
  let c := s.core core
  let i := BitVec.ofNat 8 core
  match c.groups.find? (fun g => g.ctx == x && g.entry == entry) with
  | some g =>
    let lanes := joinLanes g.lanes l
    let s := s.setCore core { c with groups := c.groups.map (fun h => if h.ctx == x && h.entry == entry
      then { h with lanes := lanes, ready := if h.ready.isNone then lanesReady s.now lanes else h.ready } else h) }
    if 96 ≤ lanes.length then s.post (.handlerLaunch i) else s
  | none =>
    let s := s.setCore core { c with groups := c.groups ++ [⟨x, entry, l, lanesReady s.now l⟩] }
    let s := s.after (front 512) (.handlerLaunch i)
    if 96 ≤ l.length then s.post (.handlerLaunch i) else s

/-- The held lanes of a fragment, in ascending lane order. -/
def heldLanes (s : State) (r : WaveRef) (w : Wave) (fid : Nat) (lanes : LaneMask) (v1 : Word) (addr : DWord) : List HeldLane :=
  (lanesOf lanes).map (fun i => ⟨r.slot, fid, i, w.bslot, v1, addr, s.now⟩)

/-- TAKING A USER TRAP at a scalar site (R299, R300): inside its own open transaction the fragment aborts with TRAP and the
cause as CODE (R290); in a handler wave it is a double fault (R306); otherwise the whole fragment is held at the
instruction, in its path slot, and every lane of its lane set goes to the compactor with v1 = code and imm and the
instruction's address. -/
def State.scalarTrap (s : State) (r : WaveRef) (fid code imm : Nat) : State :=
  match s.wave? r with
  | none => s
  | some w =>
    match w.frag? fid with
    | none => s
    | some f =>
      if w.txn.any (fun t => t.frag == fid) then s.setWave r (w.abort 7 code)
      else if w.handler then s.fatalCtx w.ctx 1 true
      else
        let v1 : Word := BitVec.ofNat 32 (code + at_ imm 16)
        let h : Held := ⟨v1, f.pc, none, none, 0, 0, 0, f.mask⟩
        let s := s.setWave r (w.setFrag { f with st := .heldSlot, held := some h, waitSince := none })
        s.compact r.core w.ctx w.trapv (heldLanes s r w fid f.lanes v1 f.pc)

/-- The lanes of a mask leave a running clause. -/
def Running.without (x : Running) (t : LaneMask) : Running := { x with cl := { x.cl with mask := x.cl.mask &&& ~~~t } }

/-- TAKING A USER TRAP at a lane site (R301), after the instruction has completed for the other lanes: the lanes T leave the
fragment and its clauses, and form a held fragment in a split-table entry that records the rest of the clause. -/
def State.laneTrap (s : State) (r : WaveRef) (fid code : Nat) (t : LaneMask) (x : Running) (addr : DWord)
    (cont redo : Option Running) : State :=
  match s.wave? r with
  | none => s
  | some w =>
    match w.frag? fid with
    | none => s
    | some f =>
      if w.txn.any (fun q => q.frag == fid && x.cl.txn) then s.setWave r (w.abort 7 code)
      else if w.handler then s.fatalCtx w.ctx 1 true
      else
        let v1 : Word := BitVec.ofNat 32 code
        let cut := f.joins.drop (f.joins.length - x.cl.depth)
        let sp := w.nextSplit
        let (joinsF, joinsH) : List Join × List Join := match cut with
          | j :: _ => (⟨j.addr, sp, true⟩ :: f.joins, ⟨j.addr, sp, false⟩ :: cut)
          | [] => (f.joins, [])
        let only (y : Running) : Running := { y with cl := { y.cl with mask := y.cl.mask &&& t } }
        let h : Held := ⟨v1, addr, cont.map only, redo.map only, 0, 0, 0, f.mask⟩
        let g : Fragment := { f with
          id := w.nextFrag, order := w.nextFrag, pc := x.cl.ret, lanes := t, mask := f.mask &&& t, joins := joinsH
          queue := [], run := none, st := .heldEntry, held := some h, sleep := none, waitSince := none }
        let f' := { f with
          lanes := f.lanes &&& ~~~t, mask := f.mask &&& ~~~t, joins := joinsF
          queue := f.queue.map (fun (c : Clause) => { c with mask := c.mask &&& ~~~t })
          run := f.run.map (fun (y : Running) => y.without t) }
        let w' := { ((w.setFrag f').precede [fid] [(w.nextFrag, 0)]).bequeath fid w.nextFrag with nextFrag := w.nextFrag + 1, nextSplit := sp + 1 }
        let s := s.setWave r { w' with frags := w'.frags ++ [g] }
        s.compact r.core w.ctx w.trapv (heldLanes s r w g.id t v1 addr)

/-- RETURN FROM A TRAP (R302): a held fragment all of whose lanes have been resumed or killed runs on. The lanes that
continue and the lanes that re-execute each form one fragment; where both remain they are split, with the top of the join
stack as the join. The rest of a lane site's clause runs before the scalar stream goes on. -/
def Wave.resumeHeld (w : Wave) (now fid : Nat) : Wave :=
  match w.frag? fid with
  | none => w
  | some f =>
    match f.held with
    | none => w
    | some h =>
      if (h.contMask ||| h.redoMask ||| h.killMask) &&& f.lanes != f.lanes then w
      else
        let only (m : LaneMask) (y : Option Running) : Option Running := y.map (fun y => { y with cl := { y.cl with mask := y.cl.mask &&& m } })
        let scalarSite := f.st == .heldSlot
        let c := h.contMask &&& f.lanes
        let e := h.redoMask &&& f.lanes
        let back (m : LaneMask) (redo : Bool) : Fragment := { f with
          lanes := m, mask := h.active &&& m, held := none, waitSince := none
          st := if scalarSite then .ready else .waiting
          pc := if scalarSite then (if redo then f.pc else f.pc + 4) else f.pc
          queue := f.queue.map (fun (y : Clause) => { y with mask := y.mask &&& (c ||| e) })
          run := if scalarSite then only (c ||| e) f.run else only m (if redo then h.redo else h.cont)
          restOf := if scalarSite then none else (if redo then h.redo else h.cont).map (fun y => y.cl.born) }
        if c == 0 && e == 0 then w.dropFrag now fid
        else if e == 0 then (w.setFrag (back c false)).refill
        else if c == 0 then (w.setFrag (back e true)).refill
        else
          let sp := w.nextSplit
          let (jc, je) : List Join × List Join := match f.joins with
            | j :: _ => (⟨j.addr, sp, true⟩ :: f.joins, ⟨j.addr, sp, false⟩ :: f.joins)
            | [] => ([], [])
          let after := if scalarSite then w.splitAfter f now else f.after
          let a := { back c false with joins := jc, after := after }
          let b := { back e true with joins := je, queue := [], run := if scalarSite then none else (back e true).run, after := after }
          (({ ((w.setFrag a).precede [fid] [(fid, now), (w.nextFrag, 0)]).bequeath fid w.nextFrag with nextSplit := sp + 1 }).refill).addFrag b

/-! Memory accesses of waves (R265 to R279, R307, R308) -/

/-- ORD with `.acq`; ORD with `.rel`. -/
def isAcq (ord : Nat) : Bool := ord == 1 || ord == 3
def isRel (ord : Nat) : Bool := ord == 2 || ord == 3
/-- An operation that writes memory. -/
def OpKind.writes : OpKind → Bool
  | .store | .atomic | .reduce => true
  | _ => false
/-- An operation that reads memory. -/
def OpKind.reads : OpKind → Bool
  | .load | .atomic => true
  | _ => false
/-- A memory access. -/
def OpKind.isMem : OpKind → Bool
  | .load | .store | .atomic | .reduce => true
  | _ => false

/-- Where a wave's window accesses come from. -/
def Wave.place (w : Wave) (r : WaveRef) : Place := some (r.core, if w.handler then 16 else w.bslot)

/-- Whether a later access of the wave must not issue: an acquire has not returned (R272). -/
def Wave.acqHeld (w : Wave) : Bool := w.ops.any (fun o => o.kind.isMem && isAcq o.ord)

/-- Bytes of the replay array that are held on a core (R307): by the accesses and octets that wait for a translation, and by the sweeps
under way, whose lines are translated as they run. Where nothing waits, an access and an octet have their lines translated in the step
that issues them, and so hold no entry beyond it. -/
def State.replayUsed (s : State) (core : Nat) : Nat :=
  sumNat ((s.core core).waves.map (fun w => sumNat ((w.2.ops.filter (fun o => o.parts.any (fun p => p.fault.isSome))).map (fun o =>
    if o.scalar then 32 else (32 + 12 * o.parts.length + 31) / 32 * 32)))) +
  64 * sumNat ((s.core core).matrix.map (fun m => (m.octets.filter (fun o => o.fault.isSome)).length)) +
  64 * ((s.core core).sweeps.filter (fun m => !m.done)).length

/-- What translation an access needs (R262). -/
def needOf (k : OpKind) : Nat :=
  match k with
  | .load => needRD
  | .store => needW
  | _ => needRW
/-- The ACC byte of its fault record (R158). -/
def accOf (k : OpKind) : Nat :=
  match k with
  | .load => 0
  | .store => 1
  | _ => 5

/-- The keys of bytes that the L1 of a core holds under an address space, if it holds them all (R253): sectors younger than 10 µs
(R270). -/
def State.l1Keys (s : State) (core asid va n : Nat) : Option (List Nat) :=
  let l := (List.range n).map (fun i =>
    ((s.core core).l1.find? (fun x => x.asid == asid && x.vsec == (va + i) / 32 && s.now < x.time + 10000)).map (fun x => x.psec * 32 + (va + i) % 32))
  if l.all Option.isSome then some (l.map (fun k => k.getD 0)) else none

/-- An operation that looks its bytes up in the L1: a load outside a transaction that is no acquire of wide scope. -/
def Op.viaL1 (o : Op) : Bool := o.kind == .load && !o.txn && !(isAcq o.ord && decide (2 ≤ o.scope)) && o.space != 1

/-- One part is resolved, or its fault is posted; parts of one 64 KiB page share a record. A load that hits in the L1 needs no
translation (R253). -/
def State.resolvePart (s : State) (r : WaveRef) (w : Wave) (o : Op) (faults : List (Nat × Nat)) (p : Part) : Part × List (Nat × Nat) × State :=
  match (if o.viaL1 then s.l1Keys r.core w.ctx p.va.toNat o.size else none) with
  | some ks => ({ p with keys := ks, fault := none }, faults, s)
  | none =>
    match s.resolve (w.place r) (unitOf r.core) w.ctx o.space p.va.toNat o.size (needOf o.kind) with
    | (.ok ks, s) => ({ p with keys := ks, fault := none }, faults, s)
    | (.error (kind, va), s) =>
      match faults.find? (fun f => f.1 == va / 65536) with
      | some f => ({ p with keys := [], fault := some f.2 }, faults, s)
      | none =>
        let (fid, s) := s.memFault w.ctx kind (accOf o.kind) 1 r.core va (.op r o.id)
        ({ p with keys := [], fault := some fid }, faults ++ [(va / 65536, fid)], s)

/-- Every part of an operation. -/
def State.resolveParts (s : State) (r : WaveRef) (w : Wave) (o : Op) : List Part → List (Nat × Nat) → List Part × State
  | [], _ => ([], s)
  | p :: l, fs =>
    let (p, fs, s) := s.resolvePart r w o fs p
    let (l, s) := s.resolveParts r w o l fs
    (p :: l, s)

/-- The event by which an operation completes. -/
def Op.event (r : WaveRef) (o : Op) : Instr := if o.scalar then .scalarAccessReturn r o.id else .longLatencyResult r o.id

/-- The events of every operation of a wave that is under way. -/
def State.wakeOps (s : State) (r : WaveRef) : State :=
  match s.wave? r with
  | some w => s.posts (w.ops.map (fun o => o.event r))
  | none => s

/-- An operation is issued: its parts are resolved, its flag rises, its scalar destination becomes pending. -/
def State.issueOp (s : State) (r : WaveRef) (w : Wave) (space : Nat) (o : Op) : State :=
  let (id, s) := s.fresh
  let o := { o with id := id, space := space }
  let (parts, s) := if o.kind.isMem then s.resolveParts r w o o.parts [] else (o.parts, s)
  let run := (w.frag? o.frag).bind (fun f => f.run)
  let born := if o.scalar then id else match run with | some x => x.cl.born | none => id
  let also := if o.scalar then [] else w.frags.flatMap (fun g => (g.after.filter (fun a => a.1 == o.frag && decide (born < a.2))).map (fun a => (g.id, a.2)))
  let o := { o with parts := parts, born := born, also := also }
  let regs := match o.dst with
    | some d => if o.scalar then (if o.size == 8 then [d, d + 1] else [d]) else []
    | none => []
  let s := s.updWave r (fun w => { w with
    ops := w.ops ++ [o]
    flags := match o.flag with | some k => tset w.flags k (tget 0 w.flags k + 1) | none => w.flags
    pendS := w.pendS ++ (regs.filter (fun d => d != 0)).map (fun d => (d, id)) })
  s.post (o.event r)

/-- Memory requests of a core that are outstanding (R229): one for each lane of an access that does not wait in the replay array
(DESIGN CHOICE, log 91). -/
def State.requests (s : State) (core : Nat) : Nat :=
  sumNat ((s.core core).waves.map (fun w => sumNat ((w.2.ops.filter (fun o => o.kind.isMem)).map (fun o =>
    (o.parts.filter (fun p => p.fault.isNone)).length))))

/-- No room for `bytes` in the replay array or for `n` requests: memory issue of the core stalls (R231, R307). -/
def State.memFull (s : State) (core bytes n : Nat) : Bool :=
  decide (65536 < s.replayUsed core + bytes) || decide (1024 < s.requests core + n)

/-- Whether a new memory access has to wait at issue: an acquire not yet returned, or no room. -/
def State.memHeld (s : State) (r : WaveRef) (w : Wave) (bytes n : Nat) : Bool := w.acqHeld || s.memFull r.core bytes n

/-- An operation of number `o` belongs to a fragment, or to one that has fused or left. -/
def Wave.owns (w : Wave) (f : Fragment) (o : Nat) : Bool := o == f.id || !(w.frags.any (fun g => g.id == o))

/-- Operations issued earlier. -/
def Wave.before (w : Wave) (o : Op) : List Op := w.ops.takeWhile (fun p => p.id != o.id)
/-- An access issued earlier precedes another in wave order (R268): those of one stream of a fragment in order, a scalar access what the
clauses enqueued after it access, and those before a split or a fusion. A lane access precedes a scalar one only where the scalar stream
has seen its set-flag clear, and then it has been performed. -/
def Op.precedes (p o : Op) : Bool :=
  p.kind.isMem && ((p.frag == o.frag && (p.scalar == o.scalar || (p.scalar && decide (p.id < o.born)))) ||
    p.also.any (fun k => k.1 == o.frag && decide (k.2 ≤ o.born)))

/-- The virtual address of a part, with a local-window offset at its place in the address space. -/
def Op.vaOf (o : Op) (p : Part) : Nat := (if o.space == 1 then 0xFFFF000000000 else 0) + p.va.toNat
/-- Two operations touch a common byte; where one waits for its translation, by virtual address. -/
def Op.overlaps (a b : Op) : Bool :=
  a.parts.any (fun p => b.parts.any (fun q =>
    if p.fault.isSome || q.fault.isSome then decide (a.vaOf p < b.vaOf q + b.size) && decide (b.vaOf q < a.vaOf p + a.size)
    else p.keys.any (fun k => q.keys.contains k)))

/-- An operation may be performed: no part waits, no access that precedes it is still to come, none to a byte of it is open (R269), no
load for a store (R273), none for a release (R272). -/
def Wave.mayPerform (w : Wave) (o : Op) : Bool :=
  let e := (w.before o).filter (fun p => p.precedes o)
  o.parts.all (fun p => p.fault.isNone) && !((w.frag? o.frag).any (fun f => w.toCome f o.born)) &&
  !(e.any (fun p => p.overlaps o)) &&
  !(o.kind.writes && e.any (fun p => p.kind.reads)) && !(isRel o.ord && !e.isEmpty)

/-! Values of loads -/

/-- A byte through the L1: a hit on a sector younger than 10 µs, else the write-combining buffer and the home. -/
def State.l1Byte (s : State) (core asid va k : Nat) : Byte :=
  match (s.core core).l1.find? (fun x => x.asid == asid && x.vsec == va / 32 && x.psec == k / 32 && s.now < x.time + 10000) with
  | some x => x.data.getD (va % 32) 0
  | none => s.byteVia core k

/-- The sectors of loaded bytes are brought into the L1 (R253, R256): kept within the L1's size, oldest out first. -/
def State.l1Fill (s : State) (core asid : Nat) (vaKeys : List (Nat × Nat)) : State :=
  let secs := (vaKeys.filter (fun p => !onCore p.2)).foldl (fun (acc : List (Nat × Nat)) p =>
    if acc.contains (p.1 / 32, p.2 / 32) then acc else acc ++ [(p.1 / 32, p.2 / 32)]) []
  s.each secs (fun s p =>
    let c := s.core core
    if c.l1.any (fun x => x.asid == asid && x.vsec == p.1 && x.psec == p.2 && s.now < x.time + 10000) then s
    else
      let keep := c.l1.filter (fun x => !(x.asid == asid && x.vsec == p.1))
      let l := keep ++ [⟨asid, p.1, p.2, s.peekVia core (keysFrom (p.2 * 32) 32), s.now⟩]
      s.setCore core { c with l1 := l.drop (l.length - (8 - c.scr) * 4096) })

/-- What a load's cache hint does to the L1 (R256): hints 0 and 2 allocate, 5 drops the lines after use. -/
def State.l1Hint (s : State) (core asid hint : Nat) (vaKeys : List (Nat × Nat)) : State :=
  if hint == 0 || hint == 2 then s.l1Fill core asid vaKeys
  else if hint == 5 then
    s.updCore core (fun c => { c with l1 := c.l1.filter (fun x => !(x.asid == asid && vaKeys.any (fun p => p.1 / 128 == x.vsec / 4))) })
  else s

/-- Bytes that a load without acquire, or an engine's load pipe, reads at an address (R247): through the L1, but for bytes on a core. -/
def State.loadBytes (s : State) (core asid va : Nat) (keys : List Nat) : List Byte :=
  ((List.range keys.length).zip keys).map (fun p => if onCore p.2 then Memory.read s.mem p.2 else s.l1Byte core asid (va + p.1) p.2)

/-- L1 copies of bytes read or written at their home are dropped on the core (R269). -/
def State.l1Forget (s : State) (core asid : Nat) (keys : List Nat) : State :=
  s.updCore core (fun c => { c with l1 := c.l1.filter (fun x => !(x.asid == asid && keys.any (fun k => k / 32 == x.psec))) })

/-- The bytes that one part of a load returns, outside a transaction. -/
def State.loadPart (s : State) (core asid : Nat) (acqHome : Bool) (p : Part) : List Byte :=
  if acqHome then s.peek p.keys else s.loadBytes core asid p.va.toNat p.keys

/-! Transactional accesses (R280, R281, R288, R289) -/

/-- A byte as the transaction sees it: its own buffered write, else the home. -/
def State.txnByte (s : State) (t : Txn) (k : Nat) : Byte :=
  match t.writes.find? (fun p => p.1 == k) with
  | some p => p.2
  | none => Memory.read s.mem k

/-- The lines of a transaction's buffered writes. -/
def Txn.wlines (t : Txn) : List Nat := dedup (t.writes.map (fun p => lineOf p.1))

/-- Lines taken from the core's shared pool by the open transactions of the other waves (R288). -/
def State.poolUsed (s : State) (r : WaveRef) : Nat :=
  sumNat (((s.core r.core).waves.filter (fun w => w.1 != r.slot)).map (fun w => match w.2.txn with | some t => t.wlines.length - 8 | none => 0))

/-- A read joins the read set, or there is no place for it. -/
def State.txnRead (s : State) (t : Txn) (lines : List Nat) : Option Txn :=
  let reads := t.reads ++ lines.filter (fun l => !t.reads.contains l)
  if 64 < reads.length || !s.canMark reads then none else some { t with reads := reads }

/-- A write is buffered, or there is no place for it. -/
def State.txnWrite (s : State) (r : WaveRef) (t : Txn) (l : List (Nat × Byte)) : Option Txn :=
  let t' := { t with writes := overlay t.writes l }
  if 64 < t'.wlines.length || 384 < s.poolUsed r + (t'.wlines.length - 8) then none else some t'

/-- A PRIO transaction of wave `r` takes the directory entries that its marks need from younger transactions, the youngest first, which
abort with CONFLICT (R289). -/
def State.claimGo (s : State) (r : WaveRef) (t : Txn) (lines : List Nat) : Nat → State
  | 0 => s
  | n + 1 =>
    if s.canMark (t.reads ++ lines) then s
    else
      let homes := lines.map (fun l => homeOf (l * 128))
      let young := s.allWaves.filterMap (fun (p : WaveRef × Wave) => match p.2.txn with
        | some u => if p.1 != r && t.age < u.age && u.reads.any (fun l => homes.contains (homeOf (l * 128))) then some (p.1, u.age) else none
        | none => none)
      match minBy (fun (p : WaveRef × Nat) => 2 ^ 64 - p.2) young with
      | some p => (s.updWave p.1 (fun w => w.abort 1 0)).claimGo r t lines n
      | none => s
def State.claim (s : State) (r : WaveRef) (t : Txn) (lines : List Nat) : State :=
  if t.prio then s.claimGo r t lines s.allWaves.length else s

/-! Atomic operations (R355, R387) -/

/-- One atomic on integers of n bytes, or on FP32. -/
def atomicOp (op n old x : Nat) : Nat :=
  let m := 256 ^ n
  let so := intOf (8 * n) true old
  let sx := intOf (8 * n) true x
  let fl (r : ValF) : Nat := (finish fp32 r 0 0).1
  match op with
  | 0 => (old + x) % m
  | 1 => old &&& x
  | 2 => old ||| x
  | 3 => old ^^^ x
  | 4 => if so ≤ sx then old else x
  | 5 => if sx ≤ so then old else x
  | 6 => min old x
  | 7 => max old x
  | 8 => x
  | 10 => fl (vAdd 0 (fp32.decode old) (fp32.decode x))
  | 11 => fl (vMinMax false (fp32.decode old) (fp32.decode x))
  | 12 => fl (vMinMax true (fp32.decode old) (fp32.decode x))
  | 13 => fl (vAmax (fp32.decode old) (fp32.decode x))
  | _ => old

/-- The new bytes of an atomic part, if it writes: a compare and swap that fails is a read only. -/
def atomicBytes (aop n : Nat) (p : Part) (old : List Byte) : Option (List Byte) :=
  if aop == 9 then (if leNat old == leNat p.data then some p.cmp else none)
  else some (leBytes n (atomicOp aop n (leNat old) (leNat p.data)))

/-! Performing -/

/-- The value of a load of n bytes as 32-bit words, extended (R385, R453). -/
def loadWords (size : Nat) (sx : Bool) (l : List Byte) : List Word :=
  let v := leNat l
  let one (w : Nat) : Word := if sx then BitVec.ofInt 32 (intOf w true v) else BitVec.ofNat 32 v
  match size with
  | 1 => [one 8]
  | 2 => [one 16]
  | 4 => [BitVec.ofNat 32 v]
  | 8 => [BitVec.ofNat 32 v, BitVec.ofNat 32 (v >>> 32)]
  | _ => [BitVec.ofNat 32 v, BitVec.ofNat 32 (v >>> 32), BitVec.ofNat 32 (v >>> 64), BitVec.ofNat 32 (v >>> 96)]

/-- The 96 values of a lane register: what is listed, else values the manual does not define (R199, R304). -/
def Wave.vreg96 (w : Wave) (reg : Nat) : List Word :=
  match tfind w.vreg reg with
  | some l => l
  | none => (List.range 96).map (fun i => Config.freeLane w.seed reg i)
/-- Lane register `reg` of lane `i`. -/
def Wave.vget (w : Wave) (reg i : Nat) : Word :=
  match tfind w.vreg reg with
  | some l => l.getD i 0
  | none => Config.freeLane w.seed reg i
/-- Lane register `reg` is written in the lanes of a mask. -/
def Wave.vput (w : Wave) (reg : Nat) (m : LaneMask) (v : Nat → Word) : Wave :=
  if m == 0 then w
  else
    let old := w.vreg96 reg
    { w with vreg := tset w.vreg reg ((List.range 96).map (fun i => if lane m i then v i else old.getD i 0)) }

/-- Words written from register `d` up in one lane. -/
def Wave.vputWords (w : Wave) (d i : Nat) (l : List Word) : Wave :=
  (List.range l.length).foldl (fun w k => w.vput (d + k) (BitVec.ofNat 96 (at_ 1 i)) (fun _ => l.getD k 0)) w

/-- The result of one part is written to its destination. -/
def Wave.deliver (w : Wave) (o : Op) (p : Part) (l : List Byte) : Wave :=
  match o.dst with
  | none => w
  | some d =>
    let ws := loadWords o.size o.sx l
    if o.scalar then (List.range ws.length).foldl (fun w k => (o.frag :: o.heirs).foldl (fun w f => w.wr f (d + k) (ws.getD k 0)) w) w
    else w.vputWords d p.lane ws

/-- An operation leaves the wave: its flag falls, its destinations are no longer pending. -/
def Wave.finishOp (w : Wave) (o : Op) : Wave :=
  { w.lower o.flag with ops := (w.lower o.flag).ops.filter (fun p => p.id != o.id), pendS := (w.lower o.flag).pendS.filter (fun p => p.2 != o.id) }

/-- One part of an atomic or reduction at its home. -/
def State.performAtomic (s : State) (r : WaveRef) (o : Op) (p : Part) : State :=
  match s.wave? r with
  | none => s
  | some w =>
    let s := s.each (dedup (p.keys.map lineOf)) (fun s ln => s.drainLine r.core ln)
    let s := s.l1Forget r.core w.ctx p.keys
    let old := s.peek p.keys
    let s := match atomicBytes o.aop o.size p old with
      | some new => s.store (p.keys.zip new)
      | none => s
    s.updWave r (fun w => if o.kind == .atomic then w.deliver o p old else w)

/-- Of several bytes for one key the last remains: the highest lane's (R266). -/
def lastOnly (l : List (Nat × Byte)) : List (Nat × Byte) :=
  l.foldr (fun (p : Nat × Byte) acc => if acc.any (fun q => q.1 == p.1) then acc else p :: acc) []

/-- The parts of an operation outside a transaction are performed. -/
def State.plainParts (s : State) (r : WaveRef) (w : Wave) (o : Op) : State :=
  let wide := decide (2 ≤ o.scope)
  let s := if isRel o.ord && wide then s.drainAll r.core else s
  match o.kind with
    | .load =>
      let home := isAcq o.ord && wide
      let s := if home then s.each (dedup (o.parts.flatMap (fun (p : Part) => p.keys.map lineOf))) (fun s ln => s.drainLine r.core ln) else s
      let s := if home then s.dropL1 r.core w.ctx else s
      let vals := o.parts.map (fun (p : Part) => (p, s.loadPart r.core w.ctx home p))
      let s := if home then s else s.l1Hint r.core w.ctx o.hint (o.parts.flatMap (fun (p : Part) =>
        ((List.range p.keys.length).zip p.keys).map (fun (q : Nat × Nat) => (p.va.toNat + q.1, q.2))))
      s.updWave r (fun w => vals.foldl (fun (w : Wave) (v : Part × List Byte) => w.deliver o v.1 v.2) w)
    | .store =>
      let l := lastOnly (o.parts.flatMap (fun (p : Part) => p.keys.zip p.data))
      let s := if isRel o.ord && wide then s.storeHome r.core w.ctx l else s.storeCore r.core w.ctx l
      if isAcq o.ord && wide then s.dropL1 r.core w.ctx else s
    | _ =>
      let s := s.each o.parts (fun s p => s.performAtomic r o p)
      if isAcq o.ord && wide then s.dropL1 r.core w.ctx else s

/-- An operation is over. -/
def State.finishOp (s : State) (r : WaveRef) (o : Op) : State := (s.updWave r (fun w => w.finishOp o)).wakeOps r

/-- The parts of an operation inside a transaction are performed: the lines of reads and atomics join the read set, writes are buffered;
CAPACITY, which aborts, where there is no place. -/
def State.txnParts (s : State) (r : WaveRef) (w : Wave) (t : Txn) (o : Op) : Bool × State :=
  let s := if o.kind.reads || o.kind == .reduce then s.claim r t (dedup (o.parts.flatMap (fun (p : Part) => p.keys.map lineOf))) else s
  let step (acc : Option (Txn × List (Part × List Byte))) (p : Part) : Option (Txn × List (Part × List Byte)) :=
    acc.bind (fun (t, out) =>
      let lines := dedup (p.keys.map lineOf)
      let old := p.keys.map (s.txnByte t)
      match o.kind with
      | .load => (s.txnRead t lines).map (fun t => (t, out ++ [(p, old)]))
      | .store => (s.txnWrite r t (p.keys.zip p.data)).map (fun t => (t, out))
      | _ => (s.txnRead t lines).bind (fun t =>
          match atomicBytes o.aop o.size p old with
          | some new => (s.txnWrite r t (p.keys.zip new)).map (fun t => (t, out ++ [(p, old)]))
          | none => some (t, out ++ [(p, old)])))
  match o.parts.foldl step (some (t, [])) with
  | none => (false, s.setWave r (w.abort 2 0))
  | some (t, out) =>
    let s := s.l1Forget r.core w.ctx (o.parts.flatMap (fun (p : Part) => p.keys))
    let w := { w with txn := some t }
    (true, s.setWave r (out.foldl (fun w v => w.deliver o v.1 v.2) w))

/-- The parts of an operation that RESOLVE let go on, marked 0, are issued again when the core has that many requests free (R231, R308). -/
def State.reissue (s : State) (r : WaveRef) (w : Wave) (o : Op) : State :=
  if s.memFull r.core 0 (o.parts.filter (fun p => p.fault == some 0)).length then s.after 1 (o.event r)
  else
    let (l, s) : List (Part × List (Nat × Nat)) × State := o.parts.foldl (fun (acc : List (Part × List (Nat × Nat)) × State) (p : Part) =>
      let fs := match acc.1.getLast? with | some q => q.2 | none => []
      if p.fault == some 0 then
        let (q, fs, s) := acc.2.resolvePart r w o fs { p with fault := none }
        (acc.1 ++ [(q, fs)], s)
      else (acc.1 ++ [(p, fs)], acc.2)) ([], s)
    (s.updWave r (fun (w : Wave) => { w with ops := w.ops.map (fun (x : Op) => if x.id == o.id then { x with parts := l.map (fun q => q.1) } else x) })).post
      (o.event r)

/-- An access under way is performed when nothing holds it. -/
def State.perform (s : State) (r : WaveRef) (id : Nat) : State :=
  match s.wave? r with
  | none => s
  | some w =>
    match w.ops.find? (fun o => o.id == id) with
    | none => s
    | some o =>
      if o.kind.isMem && o.parts.any (fun p => p.fault == some 0) then s.reissue r w o
      else if !o.kind.isMem || !w.mayPerform o then s
      else match o.txn, w.txn with
        | true, some t => let (ok, s) := s.txnParts r w t o; if ok then s.finishOp r o else s
        | true, none => s.setWave r (w.finishOp o)
        | false, _ => (s.plainParts r w o).finishOp r o

/-- Lanes of an access under way have returned before the others: those of `pick` among them, with the lower lanes that read or write the
same bytes (R266, R460). -/
def State.returnLanes (s : State) (r : WaveRef) (id : Nat) (pick : Nat → Bool) : State :=
  match s.wave? r with
  | none => s
  | some w =>
    match w.ops.find? (fun o => o.id == id) with
    | none => s
    | some o =>
      let same (p q : Part) : Bool := p.keys.any (fun k => q.keys.contains k)
      let chosen (p : Part) : Bool := o.parts.all (fun q => pick q.lane || !(q.lane == p.lane || (same p q && (o.kind == .load || decide (q.lane ≤ p.lane)))))
      let back := o.parts.filter chosen
      if back.isEmpty || !w.mayPerform o then s
      else
        let (ok, s) := match o.txn, w.txn with
          | true, some t => s.txnParts r w t { o with parts := back }
          | true, none => (false, s)
          | false, _ => (true, s.plainParts r w { o with parts := back })
        if ok then s.updWave r (fun w => { w with ops := w.ops.map (fun (x : Op) => if x.id == id then { x with parts := x.parts.filter (fun p => !chosen p) } else x) })
        else s

/-! Transactions -/

/-- Whether an access of a fragment is transactional (R280): the fragment owns the open transaction, and a lane access
belongs to a clause enqueued inside it. -/
def Wave.inTxn (w : Wave) (fid : Nat) : Bool := w.txn.any (fun t => t.frag == fid)

/-- Open transactions of a core (R280). -/
def State.txnsOf (s : State) (core : Nat) : Nat := ((s.core core).waves.filter (fun w => w.2.txn.isSome)).length

/-- Nothing of the fragment's clauses is left to issue, and every access of its lanes has returned (R280, R283). -/
def Wave.quiet (w : Wave) (f : Fragment) : Bool :=
  f.queue.isEmpty && f.run.isNone && !(w.ops.any (fun o => w.owns f o.frag && !o.scalar && o.kind.isMem))

/-- An older PRIO transaction has marked a line that a commit would lock (R289). -/
def State.prioHolds (s : State) (r : WaveRef) (t : Txn) : Bool :=
  s.allWaves.any (fun p => p.1 != r && (match p.2.txn with
    | some u => u.prio && decide (u.age < t.age) && t.wlines.any (fun l => u.reads.contains l)
    | none => false))

/-- COMMIT (R283): every buffered write is performed at its home as one; L1 copies of the context go, as the commit is an
acquire at `.dev`. A store of another wave to such a line that a write-combining buffer holds is performed behind it, when the line is
unlocked (R281). -/
def State.commit (s : State) (r : WaveRef) (w : Wave) (t : Txn) : State :=
  if s.prioHolds r t then s.setWave r (w.abort 1 0)
  else
    ((s.setWave r { w with txn := none, ccnt := 0, woke := false }).store t.writes).dropL1 r.core w.ctx

/-- The lines that a transaction's reads in flight will have read, and whether one waits for its translation (DEDUCED, log 93). -/
def Wave.readsInFlight (w : Wave) : List Nat × Bool :=
  let l := (w.ops.filter (fun o => o.txn && o.kind != .store)).flatMap (fun o => o.parts)
  (dedup (l.flatMap (fun p => p.keys.map lineOf)), l.any (fun p => p.fault.isSome))

/-- The lines of some watches that their homes can hold, beside what stands there, and whether one cannot (R279, R285). -/
def State.holdable (s : State) (lines : List Nat) (blind : Bool) : List Nat × Bool :=
  lines.foldl (fun (acc : List Nat × Bool) l =>
    let h := homeOf (l * 128)
    let mine := (acc.1.filter (fun m => homeOf (m * 128) == h)).length
    if s.watchesAt h + mine < (if h < 128 then 1024 else 256) then (acc.1 ++ [l], acc.2) else (acc.1, true)) ([], blind)

/-- TXR without an alternative (R284, R285): writes discarded, the lines read, and those that reads in flight read, become watches, the
fragment sleeps. A home that cannot hold a watch wakes it after a back-off, and so does a read that had no translation yet; an empty
read set wakes after 64 µs. -/
def State.txnSleep (s : State) (r : WaveRef) (w : Wave) (t : Txn) (bar : Option Nat) : State :=
  let (more, blind) := w.readsInFlight
  let reads := t.reads ++ more.filter (fun l => !t.reads.contains l)
  let ids := (w.ops.filter (fun o => o.txn)).map (fun o => o.id)
  let w := (w.ops.filter (fun o => o.txn)).foldl (fun w o => w.lower o.flag) w
  let w := { w with
    txn := none, ops := w.ops.filter (fun o => !o.txn), pendS := w.pendS.filter (fun p => !ids.contains p.2) }
  let held := s.holdable reads blind
  let s := s.setWave r w
  let k := match w.frag? t.frag with | some f => f.refusals | none => 0
  let s := s.updFrag r t.frag (fun f => { f with
    pc := t.start, st := .sleeping, waitSince := none, sleep := some ⟨held.1, held.2, false, s.now, bar, none⟩
    queue := [], run := none
    refusals := if held.2 then k + 1 else k })
  if reads.isEmpty && !blind then s.after 64000 (.emptyReadSetWake r t.frag)
  else if held.2 then s.after (watchBackoff k) (.watchBackoffWake r t.frag)
  else s

/-- A sleeping fragment runs again from its outermost TXB; its watches are gone and WOKE is set (R284). -/
def State.wake (s : State) (r : WaveRef) (fid : Nat) (byWrite : Bool) : State :=
  match (s.wave? r).bind (fun w => w.frag? fid) with
  | some f =>
    if f.st == .sleeping then
      (s.updWave r (fun w => { w with woke := true })).updFrag r fid (fun f => { f with
        st := .ready, sleep := none, refusals := if byWrite then 0 else f.refusals })
    else s
  | none => s

end Sys2Proof.Machine
end

