-- ==== Sys2Proof/Machine/Targets.lean ====
section
/-! DEFINITION. Targets that follow a block (R83, R124): the scratchpad of a placed block, or its saved image. -/

namespace Sys2Proof.Machine

/-- Where bytes of a buffer lie: keys of memory, or offsets of a saved image's scratchpad. -/
inductive Target where
  | keys (l : List Nat)
  | image (x id off n : Nat)
  deriving DecidableEq, Repr

/-- Scratchpad bytes [off, off + n) of block `b` of a context (R83): the block of that number of the context's oldest
launch that has it placed or saved (DESIGN CHOICE, log 13); none where the block does not exist or the bytes lie outside. -/
def State.blockTarget (s : State) (x b off n : Nat) : Option Target :=
  (s.runs.filter (fun (r : Run) => r.ctx == x)).findSome? (fun (r : Run) =>
    match r.blocks[b]? with
    | some (.on core bs) =>
      match tfind (s.core core).blocks bs with
      | some k => if off + n ≤ k.scrq * 4096 then some (.keys (keysFrom (scrKey core (k.sbase * 4096 + off)) n)) else none
      | none => none
    | some (.saved id) =>
      match (s.ctx? x).bind (fun c => c.images.find? (fun im => im.id == id)) with
      | some im => if off + n ≤ im.block.scrq * 4096 then some (.image x id off n) else none
      | none => none
    | _ => none)

/-- The image of a target. -/
def State.image? (s : State) (x id : Nat) : Option Image := (s.ctx? x).bind (fun c => c.images.find? (fun im => im.id == id))

/-- The bytes at a target. -/
def State.tread (s : State) : Target → List Byte
  | .keys l => s.peek l
  | .image x id off n =>
    match s.image? x id with
    | some im => (List.range n).map (fun i => match im.bytes.find? (fun (p : Nat × Byte) => p.1 == off + i) with | some p => p.2 | none => Memory.empty)
    | none => []

/-- Bytes are written to a target at `.dev`; a write to an image acts on the watches of its waves (R292). -/
def State.twrite (s : State) (t : Target) (l : List Byte) : State :=
  match t with
  | .keys ks => s.store (ks.zip l)
  | .image x id off n =>
    match s.image? x id with
    | none => s
    | some t =>
      let lines := dedup ((List.range n).map (fun i => lineOf (scrKey t.core (t.block.sbase * 4096 + off + i))))
      s.updCtx x (fun (c : Ctx) => { c with images := c.images.map (fun (im : Image) =>
        let ws := im.waves.map (fun (w : Wave) => w.touch lines)
        { im with
          bytes := if im.id == id then overlay im.bytes (cells off (l.take n)) else im.bytes
          waves := ws
          woken := im.woken || ws.any (fun (w : Wave) => w.frags.any (fun f => match f.sleep with | some sl => sl.woken | none => false)) }) })

/-- A barrier object at a target is counted down (R278). -/
def State.tcount (s : State) (t : Target) (n : Nat) : State := s.twrite t (countDown (s.tread t) n)

end Sys2Proof.Machine
end

