-- ==== Sys2Proof/Machine/Crucible.lean ====
section
/-! DEFINITION. The crucibles: starting an instance, its steps, streams and reductions, pause and end (R122 to R143). -/

namespace Sys2Proof.Machine

/-! The descriptor and its tables (R124) -/

/-- Fields of the descriptor. -/
def readDesc (addr : DWord) (l : List Byte) : CollDesc :=
  let a := field l 8 8
  let b := field l 0x20 8
  { addr := addr, prog := BitVec.ofNat 64 (field l 0 8), n := bits a 58 48, rank := bits a 41 32, cru := bits a 20 20
    slot := bits a 19 16, nsteps := bits a 15 0, rmap := BitVec.ofNat 64 (field l 0x10 8), btab := BitVec.ofNat 64 (field l 0x18 8)
    tmo := bits b 63 32, lz := bits b 31 16, nbuf := bits b 8 0, skip := BitVec.ofNat 64 (field l 0x28 8)
    doneev := BitVec.ofNat 64 (field l 0x30 8), status := addr + 0x38 }

/-- Its checks: reserved fields, ranges, alignment (BADDESC). -/
def descOk (l : List Byte) : Bool :=
  let d := readDesc 0 l
  let a := field l 8 8
  bits a 63 59 == 0 && bits a 47 42 == 0 && bits a 31 21 == 0 && bits (field l 0x20 8) 15 9 == 0 && field l 0x40 64 == 0 &&
    decide (1 ≤ d.n) && decide (d.n ≤ 1024) && decide (d.rank < d.n) && decide (1 ≤ d.nsteps) && decide (d.nsteps ≤ 1024) &&
    decide (64 ≤ d.lz) && decide (d.lz ≤ 4096) && decide (1 ≤ d.nbuf) && decide (d.nbuf ≤ 256) &&
    d.prog.toNat % 8 == 0 && d.rmap.toNat % 8 == 0 && d.btab.toNat % 32 == 0 && d.skip.toNat % 128 == 0 && d.doneev.toNat % 8 == 0

/-- Rank map entries as (ENTRY, FDID). -/
def readRmap (n : Nat) (l : List Byte) : List (Nat × Nat) :=
  (List.range n).map (fun r => (bits (field l (8 * r) 8) 21 16, bits (field l (8 * r) 8) 11 0))
/-- Reserved fields of the rank map; the own rank's entry is not read. -/
def rmapOk (n rank : Nat) (l : List Byte) : Bool :=
  (List.range n).all (fun r => r == rank || (bits (field l (8 * r) 8) 63 22 == 0 && bits (field l (8 * r) 8) 15 12 == 0))

/-- Buffer table entries. -/
def readBtab (n : Nat) (l : List Byte) : List CollBuf :=
  (List.range n).map (fun i =>
    let b := field l (32 * i + 8) 8
    ⟨BitVec.ofNat 64 (field l (32 * i) 8), bits b 63 48, bits b 33 32, bits b 31 0, BitVec.ofNat 64 (field l (32 * i + 16) 8)⟩)
/-- Their checks: reserved fields, KIND, a barrier object at a multiple of 16 bytes (R278), and a KIND 0 buffer in the half of the
chunk SRAM that holds buffers (R122). -/
def btabOk (n : Nat) (l : List Byte) : Bool :=
  ((List.range n).zip (readBtab n l)).all (fun (p : Nat × CollBuf) =>
    bits (field l (32 * p.1 + 8) 8) 47 34 == 0 && field l (32 * p.1 + 24) 8 == 0 && p.2.kind != 3 &&
      p.2.bobj.toNat % 16 == 0 && (p.2.kind != 0 || (p.2.bobj == 0 && decide (p.2.addr.toNat + p.2.len ≤ 0x2000000))))

/-- Who started an instance. -/
inductive StartBy where
  | op (id : Nat)
  | cmd (st : Nat) (seq : Word)
  deriving DecidableEq, Repr

def StartBy.op? : StartBy → Option Nat | .op id => some id | .cmd _ _ => none
def StartBy.cmd? : StartBy → Option (Nat × Word) | .op _ => none | .cmd st q => some (st, q)

/-- The started command record is changed. -/
def State.updCmd (s : State) (st : Nat) (seq : Word) (f : Cmd → Cmd) : State :=
  let c := s.stream st
  s.setStream st { c with running := c.running.map (fun (r : Cmd) => if r.seq == seq then f r else r) }

/-- The start waits for a fault; `cause` and `at_` are those of a refusal that is being written, or 0. -/
def State.startWaits (s : State) (who : StartBy) (fault cause at_ : Nat) : State :=
  match who with
  | .op id => s.updAsync id (fun (o : AsyncOp) => { o with fault := some fault, cause := cause, next := at_ })
  | .cmd st q => s.updCmd st q (fun (r : Cmd) => { r with wait := .collFault fault cause at_ })

/-- The start is held while its crucible switches its image (R183). -/
def State.startHeld (s : State) (who : StartBy) : State :=
  match who with
  | .op id => s.updAsync id (fun (o : AsyncOp) => { o with stage := 0 })
  | .cmd st q => s.updCmd st q (fun (r : Cmd) => { r with wait := .firmware })

/-- The waiter of a start's faults. -/
def StartBy.waiter : StartBy → Waiter | .op id => .async id | .cmd st _ => .stream st

/-- A descriptor that cannot be used starts no instance (R125). -/
def State.startUnusable (s : State) (who : StartBy) (x core addr cause : Nat) : State :=
  match who with
  | .op id => ((s.fabricErr x cause 1 core addr).retireStart (some id) none 0 0)
  | .cmd st q =>
    match (s.stream st).running.find? (fun (r : Cmd) => r.seq == q) with
    | some r => s.complete st q r.data (if cause == 2 then 3 else 9) 0 []
    | none => s

/-- What follows the STATUS write of a refused start: the record and the retirement. -/
def State.refuseEnd (s : State) (who : StartBy) (x i cause : Nat) : State :=
  (s.fabricErr x (cause % 256) 4 i 0).retireStart who.op? who.cmd? 4 cause

/-- A start refused before it has a slot (R125): STATUS, the error record, the retirement. `cause` holds the STATUS word. -/
def State.refuseStart (s : State) (who : StartBy) (x i cause status : Nat) : State :=
  match s.devWrite (i / 16 * 4) x status (leBytes 8 cause) with
  | (.ok _, s) => s.refuseEnd who x i cause
  | (.error (k, va), s) =>
    if k == 3 then (s.fabricErr x 7 4 i status).refuseEnd who x i cause
    else
      let (f, s) := s.memFault x k 1 4 i va who.waiter
      s.startWaits who f (cause + 65536 * (i + 1)) status

/-- The crucible's read of the rank map (R124): every entry but the own rank's, whose bytes stand as 0. -/
def State.readRanks (s : State) (x i : Nat) (d : CollDesc) : Except (Nat × Nat) (List Byte) × State :=
  let u := i / 16 * 4
  match (if d.rank == 0 then (.ok [], s) else s.devRead u x d.rmap.toNat (8 * d.rank) : Except (Nat × Nat) (List Byte) × State) with
  | (.error e, s) => (.error e, s)
  | (.ok a, s) =>
    if d.n ≤ d.rank + 1 then (.ok (a ++ leBytes 8 0), s)
    else match s.devRead u x (d.rmap.toNat + 8 * (d.rank + 1)) (8 * (d.n - d.rank - 1)) with
      | (.error e, s) => (.error e, s)
      | (.ok b, s) => (.ok (a ++ leBytes 8 0 ++ b), s)

/-- What the reads of an instance's tables give: a fault, a table that breaks a rule, or the tables. -/
inductive Tables where
  | fault (kind va : Nat)
  | bad
  | ok (ranks buffers skip : List Byte)
  deriving DecidableEq, Repr

/-- The crucible's reads of the rank map, the buffer table and the skip mask, each checked as it is read (R125). -/
def State.readTables (s : State) (x i : Nat) (d : CollDesc) : Tables × State :=
  let u := i / 16 * 4
  match s.readRanks x i d with
  | (.error (k, va), s) => (.fault k va, s)
  | (.ok a, s) =>
    if !rmapOk d.n d.rank a then (.bad, s)
    else match s.devRead u x d.btab.toNat (32 * d.nbuf) with
      | (.error (k, va), s) => (.fault k va, s)
      | (.ok b, s) =>
        if !btabOk d.nbuf b then (.bad, s)
        else if d.skip == 0 then (.ok a b (List.replicate 128 0), s)
        else match s.devRead u x d.skip.toNat 128 with
          | (.error (k, va), s) => (.fault k va, s)
          | (.ok c, s) => (.ok a b c, s)

/-- A start (R125): the descriptor, its tables, SLOTBUSY; then the slot is LOADING. `core`: the issuing core, or the
stream. -/
def State.collStart (s : State) (who : StartBy) (x core addr : Nat) : State :=
  let (unit, src) := match who with | .op _ => (unitOf core, 1) | .cmd _ _ => (0, 6)
  if addr % 128 != 0 then s.startUnusable who x core addr 2
  else match s.devRead unit x addr 128 with
    | (.error (k, va), s) =>
      if k == 3 then s.startUnusable who x core addr 7
      else
        let (f, s) := s.memFault x k 0 src core va who.waiter
        s.startWaits who f 0 0
    | (.ok l, s) =>
      let d := readDesc (BitVec.ofNat 64 addr) l
      let i := d.cru * 16 + d.slot
      if !descOk l then s.refuseStart who x i 2 d.status.toNat
      else if s.mgmt.pendingSwitch.any (fun (f : FwSwitch) => f.unit == 4 + d.cru) then s.startHeld who
      else match s.readTables x i d with
        | (.fault k va, s) =>
          if k == 3 then s.refuseStart who x i 7 d.status.toNat
          else
            let (f, s) := s.memFault x k 0 4 i va who.waiter
            s.startWaits who f 0 0
        | (.bad, s) => s.refuseStart who x i 2 d.status.toNat
        | (.ok a b c, s) =>
          if (s.cx i).st != 0 then s.refuseStart who x i 3 d.status.toNat
          else
            let (g, s) := s.fresh
            let s := s.setCx i {
              st := 1, since := s.now, gen := g, ctx := some x, desc := some d, rmap := readRmap d.n a, bufs := readBtab d.nbuf b
              skip := (List.range 32).map (fun w => (w, BitVec.ofNat 32 (field c (4 * w) 4)))
              byOp := who.op?, byCmd := who.cmd?, core := core }
            s.post (.instanceLoaded (slotAt i))

/-! Loading (R125, R126) -/

/-- The operand checks of R126 on one step. -/
def stepFits (d : CollDesc) (i : Instr) : Bool :=
  let peerOk (f : Step) : Bool := f.pk != 2 || decide (f.pv.toNat < d.n)
  let bufOk (f : Step) : Bool := decide (f.buf.toNat < d.nbuf)
  match i with
  | .send f | .recv f | .rrs f | .rrd f | .bcast f => peerOk f && bufOk f
  | .copy f => bufOk f && decide (f.pv.toNat % 256 < d.nbuf)
  | .peer f => peerOk f
  | .waitEv f | .notify f => bufOk f
  | _ => true

/-- The index of the first step that breaks the nesting of LOOP and ENDL; an unclosed LOOP is the fault of the last one
open. -/
def nesting : List Instr → Nat → List Nat → Option Nat
  | [], _, [] => none
  | [], _, o :: _ => some o
  | i :: l, k, opened =>
    match i with
    | .loop _ => if 4 ≤ opened.length then some k else nesting l (k + 1) (k :: opened)
    | .endl _ => match opened with | [] => some k | _ :: o => nesting l (k + 1) o
    | _ => nesting l (k + 1) opened

/-- The program as loaded, or the index of the first step that fails a check. -/
def loadSteps (d : CollDesc) (l : List Byte) : Except Nat (List Instr) :=
  let ws := (List.range d.nsteps).map (fun k => decodeStep (field l (8 * k) 8))
  match (List.range d.nsteps).find? (fun k => match ws.getD k none with | some i => !stepFits d i | none => true) with
  | some k => .error k
  | none =>
    let p := ws.filterMap id
    match nesting p 0 [] with
    | some k => .error k
    | none => .ok p

/-- Bytes of the landing pool that an instance reserves: LZ KiB for each distinct ENTRY of the other ranks. -/
def Crux.ringBytes (x : Crux) : Nat :=
  match x.desc with
  | some d => (dedup (((List.range d.n).filter (fun r => r != d.rank)).map (fun r => (x.rmap.getD r (0, 0)).1))).length * d.lz * 1024
  | none => 0

/-- Every ENTRY of the other ranks is bound to the crucible and reaches its rank's device (NOLINK). -/
def State.linksOk (s : State) (x : Crux) (d : CollDesc) : Bool :=
  (List.range d.n).all (fun r => r == d.rank ||
    (let e := x.rmap.getD r (0, 0)
     (s.circuit e.1).bind == 0xFFFE && (s.circuit e.1).peerdev.toNat == e.2))

/-- INSTANCE_LOADED (R125, R126): RUN at step 0, or the start is refused. -/
def execInstanceLoaded (u : Slot) (s : State) : Out :=
  let i := slotIx u
  let x := s.cx i
  match x.ctx, x.desc with
  | some c, some d =>
    if x.st != 1 || x.ending.isSome || x.fault.isSome then .next s
    else match s.devRead (i / 16 * 4) c d.prog.toNat (8 * d.nsteps) with
      | (.error (k, va), s) =>
        if k == 3 then .next (s.endInstance i 7 false)
        else
          let (f, s) := s.memFault c k 0 4 i va (.slot (i / 16) (i % 16))
          .next (s.setCx i { s.cx i with fault := some f })
      | (.ok l, s) =>
        match loadSteps d l with
        | .error k => .next ((s.setCx i { x with step := k }).endInstance i 1 false)
        | .ok p =>
          if !s.linksOk x d then .next (s.endInstance i 5 false)
          else
            let others := (List.range 16).filter (fun k => k != i % 16)
            let used := sumNat (others.map (fun k =>
              let y := s.cx (i / 16 * 16 + k)
              if 2 ≤ y.st.toNat && y.st.toNat ≤ 4 then y.ringBytes else 0))
            if 0x2000000 < used + x.ringBytes then .next (s.endInstance i 4 false)
            else .next (s.setCx i { x with st := 2, step := 0, prog := p })
  | _, _ => .next s

/-! Peers and the skip mask (R128) -/

/-- A rank is skipped. -/
def Crux.skipped (x : Crux) (r : Nat) : Bool := bit (tget 0 x.skip (r / 32)).toNat (r % 32)
/-- The live ranks, ascending. -/
def Crux.live (x : Crux) (d : CollDesc) : List Nat := (List.range d.n).filter (fun r => !x.skipped r)
/-- The instance's position among them. -/
def Crux.pos (x : Crux) (d : CollDesc) : Nat := ((x.live d).takeWhile (fun r => r != d.rank)).length
/-- The live rank `k` places on. -/
def Crux.relative (x : Crux) (d : CollDesc) (k : Int) : Nat :=
  let l := x.live d
  l.getD (((x.pos d : Int) + k) % (l.length : Int)).toNat 0
/-- The counter of the innermost loop (R129). -/
def Crux.lc (x : Crux) : Nat := match x.loops with | (_, c, _) :: _ => c | [] => 0
/-- The rank a peer field names; `k'` is the relative offset to use. -/
def Crux.peerOf (x : Crux) (d : CollDesc) (f : Step) (k' : Int) : Nat :=
  match f.pk.toNat with
  | 1 => x.relative d k'
  | 2 => f.pv.toNat
  | _ => tget 0 x.peers f.pv.toNat
/-- The mirror peer of RRS (R134). -/
def Crux.mirror (x : Crux) (d : CollDesc) (f : Step) : Nat :=
  if f.pk == 1 then x.relative d (-f.pv.toInt) else tget 0 x.peers (f.pv.toNat ^^^ 1)

/-- The element size of the present operator and format (R136). -/
def elemSize (oper fmt smD : Nat) : Nat := if oper == 4 then (2 + smD) * 4 else if fmt == 1 || fmt == 2 then 2 else 4

/-! One step of an instance -/

/-- A step of a running instance; an instance whose own rank is skipped ends (R128). -/
def crucibleStep (s : State) (k : Nat → Crux → CollDesc → Out) : Out :=
  match s.cur with
  | .crux c t =>
    let i := c * 16 + t
    let x := s.cx i
    match x.desc with
    | some d => if x.st != 2 then .fault .noAgent else if x.skipped d.rank then .next (s.endInstance i 9 false) else k i x d
    | none => .fault .noAgent
  | _ => .fault .noAgent

/-- The instance goes on at a step. -/
def State.stepTo (s : State) (i k : Nat) : State := s.setCx i { s.cx i with step := k }

/-- The region of a data step (R130): first element and count. -/
def Crux.region (x : Crux) (d : CollDesc) (f : Step) : Nat × Nat :=
  if f.ci then
    let l : Int := ((x.live d).length : Int)
    let idx := ((x.pos d : Int) + f.cnt.toInt - (if f.ls then (x.lc : Int) else 0)) % l
    (idx.toNat * x.ch, x.ch)
  else (0, f.cnt.toNat)

/-- The byte ranges of its buffers that an outstanding step uses: buffer, first, end, whether it writes. -/
def DataStep.uses (t : DataStep) : List (Nat × Nat × Nat × Bool) :=
  match t.op with
  | .copy _ => [(t.buf, t.first, t.first + t.bytes, false), (t.dst, t.first, t.first + t.bytes, true)]
  | _ => [(t.buf, t.first, t.first + t.bytes, t.writes)]
/-- Two steps' regions of one buffer overlap and one writes (R134). -/
def DataStep.clashes (a b : DataStep) : Bool :=
  a.uses.any (fun p => b.uses.any (fun q => p.1 == q.1 && decide (p.2.1 < q.2.2.1) && decide (q.2.1 < p.2.2.1) && (p.2.2.2 || q.2.2.2)))

/-- The time-outs of a slot's steps are looked at then, unless TMO is 0 or they are to be looked at already (R133). -/
def State.armTimeout (s : State) (i at_ : Nat) : State :=
  let x := s.cx i
  match x.desc, x.tmoAt with
  | some d, none => if d.tmo == 0 then s else (s.setCx i { x with tmoAt := some at_ }).atTime at_ (.stepTimeout (slotAt i))
  | _, _ => s

/-- A data step starts, or waits to start, and only then are its own peer, format and region checked (R128, R130, R134): `src` is the peer received from, `to_` the peers sent to; `named` are the peers
its fields name. -/
def State.startData (s : State) (i : Nat) (x : Crux) (d : CollDesc) (f : Step) (op : Instr) (dst : Nat) (src : Option Nat)
    (to_ named : List Nat) (selfOk writes : Bool) : State :=
  if f.pk != 1 && named.any (fun r => x.skipped r) then s.stepTo i (x.step + 1)
  else
    let esz := elemSize x.oper x.fmt x.smD
    let (first, count) := x.region d f
    let len (b : Nat) : Nat := match x.bufs[b]? with | some b => b.len | none => 0
    let t : DataStep := {
      id := x.nextStep, idx := x.step, op := op, oper := x.oper, fmt := x.fmt, smD := x.smD, buf := f.buf.toNat
      first := first * esz, bytes := count * esz, dst := dst, src := src, to_ := to_, done := 0, ends := [], writes := writes, fault := none
      since := s.now }
    if 8 ≤ x.outst.length || x.outst.any (fun o => o.clashes t) then s
    else if !selfOk && named.contains d.rank then s.endInstance i 8 false
    else if x.oper == 4 && x.fmt != 0 then s.endInstance i 13 false
    else if len f.buf.toNat < (first + count) * esz || len dst < (first + count) * esz then s.endInstance i 6 false
    else if count == 0 then s.stepTo i (x.step + 1)
    else
      (s.setCx i { x with step := x.step + 1, nextStep := x.nextStep + 1, outst := x.outst ++ [t] }).armTimeout i (s.now + 1000 * d.tmo)

/-- SEND (R134). -/
def execSend (f : Step) (s : State) : Out :=
  crucibleStep s (fun i x d =>
    let p := x.peerOf d f f.pv.toInt
    .next (s.startData i x d f (.send f) f.buf.toNat none [p] [p] false false))

/-- RECV (R134). -/
def execRecv (f : Step) (s : State) : Out :=
  crucibleStep s (fun i x d =>
    let p := x.peerOf d f f.pv.toInt
    .next (s.startData i x d f (.recv f) f.buf.toNat (some p) [] [p] false true))

/-- RRS (R134): received, reduced, passed to the mirror peer. -/
def execRrs (f : Step) (s : State) : Out :=
  crucibleStep s (fun i x d =>
    let p := x.peerOf d f f.pv.toInt
    let m := x.mirror d f
    .next (s.startData i x d f (.rrs f) f.buf.toNat (some p) [m] [p, m] false true))

/-- RRD (R134). -/
def execRrd (f : Step) (s : State) : Out :=
  crucibleStep s (fun i x d =>
    let p := x.peerOf d f f.pv.toInt
    .next (s.startData i x d f (.rrd f) f.buf.toNat (some p) [] [p] false true))

/-- COPY (R134). -/
def execCopy (f : Step) (s : State) : Out :=
  crucibleStep s (fun i x d => .next (s.startData i x d f (.copy f) (f.pv.toNat % 256) none [] [] true false))

/-- BCAST (R128, R134): the root sends to every other live rank. -/
def execBcast (f : Step) (s : State) : Out :=
  crucibleStep s (fun i x d =>
    let p := x.peerOf d f f.pv.toInt
    if p == d.rank then .next (s.startData i x d f (.bcast f) f.buf.toNat none ((x.live d).filter (fun r => r != d.rank)) [] true false)
    else .next (s.startData i x d f (.bcast f) f.buf.toNat (some p) [] [p] true true))

/-- WAIT (R135). -/
def execWait (f : Step) (s : State) : Out :=
  crucibleStep s (fun i x _ => .next (if x.outst.length ≤ f.cnt.toNat then s.stepTo i (x.step + 1) else s))

/-- A control step's access faults: permission ends the instance, others wait for RESOLVE (R123). -/
def State.slotFault (s : State) (i x k acc va : Nat) : State :=
  if k == 3 then s.endInstance i 7 false
  else
    let (f, s) := s.memFault x k acc 4 i va (.slot (i / 16) (i % 16))
    s.setCx i { s.cx i with fault := some f }

/-- WAIT.ev (R135): the counter is read, else watched, else read again after a back-off (R201). -/
def execWaitEv (f : Step) (s : State) : Out :=
  crucibleStep s (fun i x _ =>
    match x.bufs[f.buf.toNat]? with
    | none => .next (s.endInstance i 6 false)
    | some b =>
      if b.kind != 1 then .next (s.endInstance i 6 false)
      else if s.now < x.backUntil || x.watch.isSome || x.fault.isSome then .next s
      else
        let c := x.ctx.getD 0
        match s.resolve none (i / 16 * 4) c 2 b.addr.toNat 8 needRD with
        | (.error (k, va), s) => .next (s.slotFault i c k 0 va)
        | (.ok ks, s) =>
          if f.cnt.toNat + (if f.ls then x.lc else 0) ≤ leNat (s.peek ks) then
            .next (s.setCx i { x with step := x.step + 1, watch := none, refusals := 0 })
          else
            let ln := lineOf (ks.getD 0 0)
            if s.canWatch ln then .next (s.setCx i { x with watch := some ln })
            else
              let t := s.now + watchBackoff x.refusals
              .next ((s.setCx i { x with refusals := x.refusals + 1, backUntil := t }).atTime t (.counterWaitBackoff (.slot (slotAt i)))))

/-- The index after the ENDL that closes the LOOP at `k`. -/
def afterEndl (p : List Instr) (k : Nat) : Nat :=
  go (p.drop (k + 1)) (k + 1) 0
where
  /-- Scans with the depth of inner loops. -/
  go : List Instr → Nat → Nat → Nat
    | [], j, _ => j
    | i :: l, j, n =>
      match i with
      | .loop _ => go l (j + 1) (n + 1)
      | .endl _ => if n == 0 then j + 1 else go l (j + 1) (n - 1)
      | _ => go l (j + 1) n

/-- LOOP (R135). -/
def execLoop (f : Step) (s : State) : Out :=
  crucibleStep s (fun i x _ =>
    if f.cnt == 0 then .next (s.stepTo i (afterEndl x.prog x.step))
    else .next (s.setCx i { x with loops := (x.step, 0, f.cnt.toNat) :: x.loops, step := x.step + 1 }))

/-- ENDL (R135). -/
def execEndl (_ : Step) (s : State) : Out :=
  crucibleStep s (fun i x _ =>
    match x.loops with
    | (k, c, n) :: l =>
      if c + 1 < n then .next (s.setCx i { x with loops := (k, c + 1, n) :: l, step := k + 1 })
      else .next (s.setCx i { x with loops := l, step := x.step + 1 })
    | [] => .next (s.stepTo i (x.step + 1)))

/-- PEER (R129). -/
def execPeer (f : Step) (s : State) : Out :=
  crucibleStep s (fun i x d =>
    let k : Int := if f.dbl then f.pv.toInt * 2 ^ x.lc else if f.ls then f.pv.toInt + x.lc else f.pv.toInt
    let p := x.peerOf d f k
    if p == d.rank then .next (s.endInstance i 8 false)
    else .next (s.setCx i { x with peers := tset x.peers f.buf.toNat p, step := x.step + 1 }))

/-- SETOP (R135). -/
def execSetop (f : Step) (s : State) : Out :=
  crucibleStep s (fun i x _ =>
    let n := f.cnt.toNat
    let dd := bits n 25 16
    .next (s.setCx i { x with oper := bits n 3 0, fmt := bits n 7 4, smD := if dd == 0 then 1024 else dd, step := x.step + 1 }))

/-- SETCH (R135). -/
def execSetch (f : Step) (s : State) : Out :=
  crucibleStep s (fun i x _ =>
    if f.cnt == 0 || 16777216 < f.cnt.toNat then .next (s.endInstance i 6 false)
    else .next (s.setCx i { x with ch := f.cnt.toNat, step := x.step + 1 }))

/-- NOTIFY (R135). -/
def execNotify (f : Step) (s : State) : Out :=
  crucibleStep s (fun i x _ =>
    match x.bufs[f.buf.toNat]? with
    | none => .next (s.endInstance i 6 false)
    | some b =>
      if b.kind != 1 then .next (s.endInstance i 6 false)
      else if !x.outst.isEmpty || x.fault.isSome then .next s
      else
        let c := x.ctx.getD 0
        match s.devUpdate (i / 16 * 4) c b.addr.toNat (fun v => v + f.cnt.toNat) with
        | (.error (k, va), s) => .next (s.slotFault i c k 5 va)
        | (.ok _, s) => .next (s.stepTo i (x.step + 1)))

/-- DONE (R135, R131): bytes left unconsumed in a stream set LEFTOVER. -/
def execDone (_ : Step) (s : State) : Out :=
  crucibleStep s (fun i x _ =>
    if !x.outst.isEmpty then .next s
    else
      let left := x.ins.any (fun (p : Nat × InStream) => !p.2.ring.isEmpty || !p.2.early.isEmpty)
      .next ((s.setCx i { x with leftover := left }).endInstance i 0 false))

/-! Buffers of an instance -/

/-- Where bytes of a buffer lie (R124). A block that does not exist fails as a permission fault does (DEDUCED, log 22). -/
def State.bufTarget (s : State) (i c : Nat) (b : CollBuf) (a n need : Nat) : Except (Nat × Nat) Target × State :=
  match b.kind with
  | 0 => (.ok (.keys (keysFrom (chunkKey (i / 16) a) n)), s)
  | 1 =>
    match s.resolve none (i / 16 * 4) c 2 a n need with
    | (.ok ks, s) => (.ok (.keys ks), s)
    | (.error e, s) => (.error e, s)
  | _ =>
    match s.blockTarget c b.block a n with
    | some t => (.ok t, s)
    | none => (.error (3, a), s)

/-- An outstanding step is changed. -/
def State.updStep (s : State) (i id : Nat) (f : DataStep → DataStep) : State :=
  let x := s.cx i
  s.setCx i { x with outst := x.outst.map (fun (t : DataStep) => if t.id == id then f t else t) }

/-- A fault of a data step: it alone stalls (R123). -/
def State.stepFault (s : State) (i c id k acc va : Nat) : State :=
  if k == 3 then s.endInstance i 7 false
  else
    let (f, s) := s.memFault c k acc 4 i va (.slot (i / 16) (i % 16))
    s.updStep i id (fun t => { t with fault := some f })

/-! Reductions (R136 to R138) -/

/-- The float format of a code. -/
def collFmt (k : Nat) : Fmt := if k == 1 then bf16 else if k == 2 then fp16 else fp32

/-- One element: recv and local as bits; the result, INV, OVF. -/
def reduceOne (oper fmt r l : Nat) : Nat × Bool × Bool :=
  if fmt == 3 then
    let a := intOf 32 true r
    let b := intOf 32 true l
    match oper with
    | 0 => ((r + l) % 4294967296, false, false)
    | 1 => (if a < b then l else r, false, false)
    | 2 => (if a < b then r else l, false, false)
    | _ =>
      let m := max a.natAbs b.natAbs
      (min m 0x7FFFFFFF, false, decide (0x7FFFFFFF < m))
  else
    let f := collFmt fmt
    let a := f.decode r
    let b := f.decode l
    let v := match oper with
      | 0 => vAdd 0 a b
      | 1 => vMinMax true a b
      | 2 => vMinMax false a b
      | _ => vAmax a b
    let (x, g) := finish f v 0 0
    (x, g &&& fINV != 0, g &&& fOVF != 0)

/-- FP32 words of an element. -/
def words (l : List Byte) (n : Nat) : List Nat := (List.range n).map (fun k => field l (4 * k) 4)

/-- w1 · a + w2 · b, with a term of no weight left out, rounded once (R138). -/
def softTerm (w1 w2 a b : Nat) : Nat × Flags :=
  let x := vMul (fp32.decode w1) (fp32.decode a)
  let y := vMul (fp32.decode w2) (fp32.decode b)
  let zero (w : Nat) : Bool := w % 0x80000000 == 0
  if zero w1 && zero w2 then (0, 0)
  else if zero w1 then finish fp32 y 0 0
  else if zero w2 then finish fp32 x 0 0
  else
    let z := vAdd 0 x.1 y.1
    finish fp32 (z.1, z.2 ||| x.2 ||| y.2) 0 0

/-- The rescaled softmax combine of two triples of 2 + D words (R138). -/
def softmaxCombine (dd : Nat) (t1 t2 : List Nat) : List Nat × Bool × Bool :=
  let m1 := t1.getD 0 0
  let m2 := t2.getD 0 0
  let bad (m : Nat) : Bool := isNan (fp32.decode m) || m == 0x7F800000
  let ninf := 0xFF800000
  if bad m1 || bad m2 then (List.replicate (2 + dd) 0x7FC00000, true, false)
  else if m1 == ninf && m2 == ninf then (ninf :: List.replicate (1 + dd) 0, false, false)
  else
    let m := (finish fp32 (vMinMax true (fp32.decode m1) (fp32.decode m2)) 0 0).1
    let weight (k : Nat) : Nat :=
      if k == ninf then 0 else (fex2 (finish fp32 (vAdd 0 (fp32.decode k) (fp32.decode m).negate) 0 0).1).1
    let w1 := weight m1
    let w2 := weight m2
    let r := (List.range (1 + dd)).map (fun k => softTerm w1 w2 (t1.getD (k + 1) 0) (t2.getD (k + 1) 0))
    (m :: r.map (fun p => p.1), r.any (fun p => p.2 &&& fINV != 0), r.any (fun p => p.2 &&& fOVF != 0))

/-- op(recv, local) on bytes of whole elements. -/
def reduceBytes (oper fmt smD : Nat) (recv local_ : List Byte) : List Byte × Bool × Bool :=
  let esz := elemSize oper fmt smD
  (List.range (recv.length / esz)).foldl (fun (acc : List Byte × Bool × Bool) k =>
    let r := (recv.drop (k * esz)).take esz
    let l := (local_.drop (k * esz)).take esz
    let (o, i, v) :=
      if oper == 4 then
        let (ws, i, v) := softmaxCombine smD (words r (2 + smD)) (words l (2 + smD))
        (ws.flatMap (fun w => leBytes 4 w), i, v)
      else
        let (w, i, v) := reduceOne oper fmt (leNat r) (leNat l)
        (leBytes esz w, i, v)
    (acc.1 ++ o, acc.2.1 || i, acc.2.2 || v)) ([], false, false)

/-! Progress of outstanding steps -/

/-- Bytes are appended to the stream to a rank. -/
def Crux.append (x : Crux) (r : Nat) (l : List Byte) : Crux :=
  let o := tget {} x.outs r
  { x with outs := tset x.outs r { o with sent := o.sent + l.length, queue := o.queue ++ l } }

/-- An earlier outstanding step still has bytes to append to one of these ranks, or to receive from this one. -/
def Crux.earlierTo (x : Crux) (t : DataStep) : Bool :=
  x.outst.any (fun o => decide (o.id < t.id) && decide (o.done < o.bytes) && o.to_.any (fun r => t.to_.contains r))
def Crux.earlierFrom (x : Crux) (t : DataStep) : Bool :=
  x.outst.any (fun o => decide (o.id < t.id) && decide (o.done < o.bytes) && o.src.isSome && o.src == t.src)

/-- Whether a step's operator takes the region's old bytes. -/
def DataStep.reduces (t : DataStep) : Bool := match t.op with | .rrs _ | .rrd _ => true | _ => false

/-- A step that reads its region: SEND, COPY, BCAST at the root. -/
def State.sendRegion (s : State) (i c : Nat) (x : Crux) (t : DataStep) (b : CollBuf) : State :=
  if x.earlierTo t then s
  else match s.bufTarget i c b (b.addr.toNat + t.first) t.bytes needRD with
    | (.error (k, va), s) => s.stepFault i c t.id k 0 va
    | (.ok src, s) =>
      let l := s.tread src
      match t.op with
      | .copy _ =>
        let e := x.bufs.getD t.dst b
        (match s.bufTarget i c e (e.addr.toNat + t.first) t.bytes needW with
         | (.error (k, va), s) => s.stepFault i c t.id k 1 va
         | (.ok dst, s) => (s.twrite dst l).updStep i t.id (fun t => { t with done := t.bytes }))
      | _ =>
        let y := t.to_.foldl (fun (y : Crux) r => y.append r l) (s.cx i)
        (s.setCx i y).updStep i t.id (fun t => { t with done := t.bytes, ends := t.to_.map (fun r => (r, (tget {} y.outs r).sent)) })

/-- A receiving step consumes bytes of a ring: a credit count falls due for each 4 KiB consumed since the last one, and one at the
step's end (R132). -/
def InStream.consume (n : InStream) (k : Nat) (last : Bool) : InStream :=
  let used := n.used + k
  let m := (used - n.credited) / 4096
  let top := n.credited + 4096 * m
  { n with
    ring := n.ring.drop k, used := used, credited := if last then used else top
    due := n.due ++ (List.range m).map (fun j => n.credited + 4096 * (j + 1)) ++ (if last && top != used then [used] else []) }

/-- A step that receives: as many whole elements as have landed. -/
def State.recvRegion (s : State) (i c : Nat) (x : Crux) (t : DataStep) (b : CollBuf) (r : Nat) : State :=
  let esz := elemSize t.oper t.fmt t.smD
  let inn := tget {} x.ins r
  let n := min (inn.ring.length / esz * esz) (t.bytes - t.done)
  if n == 0 || x.earlierFrom t || x.earlierTo t then s
  else match s.bufTarget i c b (b.addr.toNat + t.first + t.done) n (if t.reduces then needRW else needW) with
    | (.error (k, va), s) => s.stepFault i c t.id k 1 va
    | (.ok dst, s) =>
      let recv := inn.ring.take n
      let (o, iv, ov) := if t.reduces then reduceBytes t.oper t.fmt t.smD recv (s.tread dst) else (recv, false, false)
      let s := s.twrite dst o
      let y := s.cx i
      let last := decide (t.bytes ≤ t.done + n)
      let y := { y with
        inv := y.inv || iv, ovf := y.ovf || ov
        ins := tset y.ins r (inn.consume n last) }
      let y := t.to_.foldl (fun (y : Crux) q => y.append q o) y
      (s.setCx i y).updStep i t.id (fun t => { t with
        done := t.done + n, since := s.now, ends := if last then t.to_.map (fun q => (q, (tget {} y.outs q).sent)) else [] })

/-- One outstanding step moves as far as it can. -/
def State.runStep (s : State) (i id : Nat) : State :=
  let x := s.cx i
  match x.ctx, x.outst.find? (fun t => t.id == id) with
  | some c, some t =>
    if t.fault.isSome || t.bytes ≤ t.done then s
    else match x.bufs[t.buf]?, t.src with
      | some b, some r => s.recvRegion i c x t b r
      | some b, none => s.sendRegion i c x t b
      | none, _ => s
  | _, _ => s

/-! Flits of streams (R132, R133) -/

/-- The payload of a crucible flit (R74, R132). LAST is 0 in every one: R74 marks the last flit of a transfer with it, and a stream has
no last byte until its instance ends (DESIGN CHOICE, log 98). -/
def cruPayload (i e kind off : Nat) (l : List Byte) : List Byte :=
  [2, 0] ++ leBytes 2 (0x8000 + at_ (i % 16) 6 + e) ++ leBytes 4 off ++ leBytes 8 (i % 16 + at_ (i / 16) 4 + at_ kind 5 + at_ (off % 4294967296) 8) ++
    leBytes 2 l.length ++ List.replicate 6 0 ++ l ++ List.replicate (220 - l.length) 0

/-- Whether a flit of this instance may enter an entry now (R123). -/
def State.cruMay (s : State) (e : Nat) : Bool := (s.circuit e).bind == 0xFFFE && s.canSend e

/-- A flit of the stream goes through an entry. -/
def OutStream.over (o : OutStream) (e : Nat) : OutStream := { o with via := if o.via.contains e then o.via else e :: o.via }

/-- One flit of stream data to a rank, if one may go. -/
def State.pumpOne (s : State) (i r : Nat) : Option State :=
  let x := s.cx i
  let e := (x.rmap.getD r (0, 0)).1
  let o := tget {} x.outs r
  let lz := match x.desc with | some d => d.lz * 1024 | none => 0
  if !s.cruMay e then none
  else match o.resend with
    | (off, l) :: rest =>
      let s := s.setCx i { x with outs := tset x.outs r { o.over e with resend := rest, flying := o.flying ++ [(off, l)] } }
      some (s.sendFlit (s.circuit e).port.toNat 1 (cruPayload i e 0 off l) (.cru (i / 16) (i % 16) x.gen r))
    | [] =>
      let n := min 220 o.queue.length
      let off := o.sent - o.queue.length
      if n == 0 || o.credit + lz < off + n then none
      else
        let l := o.queue.take n
        let s := s.setCx i { x.hear (2 * r + 1) s.now with outs := tset x.outs r { o.over e with queue := o.queue.drop n, flying := o.flying ++ [(off, l)] } }
        some (s.sendFlit (s.circuit e).port.toNat 1 (cruPayload i e 0 off l) (.cru (i / 16) (i % 16) x.gen r))

/-- Flits of one stream while they may go. -/
def State.pumpStream (s : State) (i r : Nat) : Nat → State
  | 0 => s
  | n + 1 => match s.pumpOne i r with | some s => s.pumpStream i r n | none => s

/-- A credit flit that is due, if it may go (R132). -/
def State.pumpCredit (s : State) (i r : Nat) : State :=
  let x := s.cx i
  let e := (x.rmap.getD r (0, 0)).1
  let inn := tget {} x.ins r
  match inn.due with
  | [] => s
  | k :: rest =>
    if !s.cruMay e then s
    else
      let s := s.setCx i { x with ins := tset x.ins r { inn with due := rest } }
      s.sendFlit (s.circuit e).port.toNat 1 (cruPayload i e 1 0 (leBytes 4 k)) (.cru (i / 16) (i % 16) x.gen r)

/-- What an instance does between steps: outstanding steps move, flits go, complete steps are found. -/
def State.cruxRun (s : State) (i : Nat) : State :=
  let x := s.cx i
  if x.st != 2 && x.st != 3 && x.st != 4 then s
  else
    let s := s.each (x.outst.map (fun t => t.id)) (fun s id => s.runStep i id)
    let s := s.each (tkeys (s.cx i).outs) (fun s r => s.pumpStream i r 64)
    let s := s.each (tkeys (s.cx i).ins) (fun s r => s.each (tget {} (s.cx i).ins r).due (fun s _ => s.pumpCredit i r))
    s.checkSteps i

/-- Bytes of a stream land (R131, R133): each is accepted once; bytes ahead of order wait. -/
def InStream.land (n : InStream) (so : Nat) (l : List Byte) : InStream :=
  let d := (so + 4294967296 - n.next % 4294967296) % 4294967296
  let base := if d < 2147483648 then n.next + d else n.next + d - 4294967296
  let new := (cells base l).filter (fun (p : Nat × Byte) => decide (n.next ≤ p.1) && !(n.early.any (fun (q : Nat × Byte) => q.1 == p.1)))
  drainEarly (n.early.length + new.length) { n with early := n.early ++ new }
where
  /-- Bytes in order move to the ring. -/
  drainEarly : Nat → InStream → InStream
    | 0, n => n
    | k + 1, n =>
      match n.early.find? (fun (p : Nat × Byte) => p.1 == n.next) with
      | some p => drainEarly k { n with ring := n.ring ++ [p.2], next := n.next + 1, early := n.early.filter (fun (q : Nat × Byte) => q.1 != p.1) }
      | none => n

/-- CRUCIBLE_FLIT_RECEIVE (R97, R132): the oldest accepted flit, if it is the crucible's. -/
def execCrucibleFlitReceive (p : BitVec 5) (s : State) : Out :=
  let n := p.toNat
  let q := s.port n
  match q.inbox with
  | [] => .next s
  | (_, l) :: rest =>
    if field l 8 1 % 16 != 2 then .next s
    else
      let s := s.setPort n { q with inbox := rest }
      let a := field l 16 8
      let i := flitSlot l
      let x := s.cx i
      let e := s.entryOf n
      let r := if (x.st == 2 || x.st == 3 || x.st == 4) && e.any (fun e => (s.circuit e).bind == 0xFFFE) then e.bind x.rankOf else none
      let next := match rest with
        | (_, m) :: _ => [if field m 8 1 % 16 == 1 then Instr.copyFlitWrite p else .crucibleFlitReceive p]
        | [] => []
      let s := s.posts next
      match r with
      | none =>
        (match e with
         | some e => .next (s.sendNack (s.circuit e).peerdev.toNat (field l 10 2) (field l 12 4) 0)
         | none => .next s)
      | some r =>
        let data := (l.drop 32).take (field l 24 2)
        if bits a 7 5 == 0 then
          .next (s.setCx i { x.hear (2 * r) s.now with ins := tset x.ins r ((tget {} x.ins r).land (bits a 39 8) data) })
        else
          let o := tget {} x.outs r
          let d := (field data 0 4 + 4294967296 - o.credit % 4294967296) % 4294967296
          .next (s.setCx i (if d == 0 || 2147483648 ≤ d then x else { x.hear (2 * r + 1) s.now with outs := tset x.outs r { o with credit := o.credit + d } }))

/-- DATA_STEP_COMPLETE (R134): the countdown of what the step wrote, then the step is no longer outstanding. -/
def execDataStepComplete (u : Slot) (k : Nat) (s : State) : Out :=
  let i := slotIx u
  let x := s.cx i
  match x.ctx, x.outst.find? (fun t => t.id == k) with
  | some c, some t =>
    if !x.stepDone s.now t then .next s
    else
      let drop (s : State) : State := s.setCx i { s.cx i with outst := (s.cx i).outst.filter (fun t => t.id != k) }
      let b := x.bufs[t.dst]?
      let counts := match t.op with | .rrs _ | .send _ => false | .bcast _ => t.writes | _ => true
      match b with
      | some b =>
        if !counts || b.bobj == 0 then .next (drop s)
        else match s.bufTarget i c b b.bobj.toNat 16 needRW with
          | (.error (k', va), s) => .next (s.stepFault i c k k' 5 va)
          | (.ok o, s) => .next (drop (s.tcount o t.bytes))
      | none => .next (drop s)
  | _, _ => .next s

/-- The streams that a step waits on: the one it still receives from, and those that hold bytes of it that the link has not
acknowledged; a stalled step waits for its access. -/
def Crux.waitsOn (x : Crux) (t : DataStep) : List Nat :=
  if t.fault.isSome then []
  else
    (match t.src with | some r => if t.done < t.bytes then [2 * r] else [] | none => []) ++
      (t.ends.filter (fun p => !({ tget {} x.outs p.1 with fresh := [] } : OutStream).ackedTo 0 p.2)).map (fun p => 2 * p.1 + 1)

/-- The moments at which steps have waited TMO on a circuit without progress (R133; log 44). -/
def Crux.deadlines (x : Crux) (tmo : Nat) : List Nat :=
  x.outst.flatMap (fun t => (x.waitsOn t).map (fun k => max t.since (tget 0 x.heard k) + 1000 * tmo))

/-- STEP_TIMEOUT (R133): a step has waited too long, or the steps are looked at again when the next one may have. -/
def execStepTimeout (u : Slot) (s : State) : Out :=
  let i := slotIx u
  let x := s.cx i
  match x.desc, x.tmoAt with
  | some d, some t =>
    if s.now < t then .next s
    else
      let x : Crux := { x with tmoAt := none }
      let l := x.deadlines d.tmo
      if x.st != 2 && x.st != 3 && x.st != 4 then .next s
      else if l.any (fun t => decide (t ≤ s.now)) then .next (s.endInstance i 10 false)
      else if x.outst.isEmpty then .next (s.setCx i x)
      else .next ((s.setCx i x).armTimeout i (l.foldl min (s.now + 1000 * d.tmo)))
  | _, _ => .next s

/-- COUNTER_WAIT_BACKOFF of a WAIT.ev step: the step reads the counter again; a stream's EVENT-WAIT is in the host port. -/
def State.slotBackoff (s : State) (u : Slot) : State :=
  let i := slotIx u
  if (s.cx i).backUntil ≤ s.now then s.setCx i { s.cx i with backUntil := 0 } else s

/-! Pause, resume, abort (R139 to R141) -/

/-- PAUSE. -/
def State.cruPause (s : State) (i : Nat) : State :=
  let x := s.cx i
  if x.st == 2 then (s.setCx i { x with st := 3 }).post (.instancePaused (slotAt i)) else s

/-- INSTANCE_PAUSED (R140): no step is under way between two turns, so the boundary is reached. -/
def execInstancePaused (u : Slot) (s : State) : Out :=
  let i := slotIx u
  let x := s.cx i
  .next (if x.st == 3 then s.setCx i { x with st := 4, skipWas := x.skip } else s)

/-- RESUME: the rank map again, then on: a step that waits goes on waiting. A grown skip mask gives up the data steps under way and
restarts the streams; it goes on at the ENDL of the innermost loop, giving up a control step that waits, or, with no loop, where it is,
so that a control step that waits there goes on waiting for its access. A map with a reserved bit ends the instance with
BADDESC, as at a start (R12, R142; DEDUCED, log 82). -/
def State.cruResume (s : State) (i : Nat) : State :=
  let x := s.cx i
  match x.ctx, x.desc with
  | some c, some d =>
    if x.st != 4 || x.resuming.isSome then s
    else match s.readRanks c i d with
      | (.error (k, va), s) =>
        if k == 3 then s.endInstance i 7 false
        else
          let (f, s) := s.memFault c k 0 4 i va (.slot (i / 16) (i % 16))
          s.setCx i { s.cx i with resuming := some f }
      | (.ok l, s) =>
        let gained := (List.range 32).any (fun w => tget 0 x.skip w &&& ~~~tget 0 x.skipWas w != 0)
        let x := { x with st := 2, rmap := readRmap d.n l }
        if !rmapOk d.n d.rank l then s.endInstance i 2 false
        else if !gained then s.setCx i x
        else
          let (g, s) := s.fresh
          let x := { x with degraded := true, outst := [], outs := [], ins := [], gen := g }
          s.setCx i (match x.loops with
            | (k, _, _) :: _ => { x with step := afterEndl x.prog k - 1, fault := none, watch := none, refusals := 0, backUntil := 0 }
            | [] => x)
  | _, _ => s

/-- ABORT. -/
def State.cruAbort (s : State) (i : Nat) : State :=
  let x := s.cx i
  if x.st == 2 || x.st == 3 || x.st == 4 then s.endInstance i 11 false else s

/-- CRCTL_PAUSE (R140). -/
def execCrctlPause (u : Slot) (s : State) : Out := .next (s.cruPause (slotIx u))
/-- CRCTL_RESUME (R140). -/
def execCrctlResume (u : Slot) (s : State) : Out := .next (s.cruResume (slotIx u))
/-- CRCTL_ABORT (R141). -/
def execCrctlAbort (u : Slot) (s : State) : Out := .next (s.cruAbort (slotIx u))

end Sys2Proof.Machine
end

