-- ==== Sys2Proof/Machine/Scheduler.lean ====
section
/-! DEFINITION. Hardware queues, launch records, placement, phases, completion and power gating (R186 to R211, R318). -/

namespace Sys2Proof.Machine

/-- The translation unit that a die's dispatcher uses. -/
def dispUnit (d : Nat) : Nat := d * 4

/-! Pushes (R187) -/

/-- A wave's pointer is appended: of one time in ascending core, then slot (R410). -/
def Queue.append (h : Queue) (now key : Nat) (a : DWord) : Queue :=
  let keys := if h.pushedAt == now then h.pushed else []
  let k := min keys.length (h.ptrs.length - bnat (h.head.isSome || h.fault.isSome))
  let n := h.ptrs.length - k
  let l := (keys.drop (keys.length - k)).zip (h.ptrs.drop n)
  let l := l.filter (fun p => decide (p.1 ≤ key)) ++ (key, a) :: l.filter (fun p => decide (key < p.1))
  { h with ptrs := h.ptrs.take n ++ l.map (fun p => p.2), pushedAt := now, pushed := l.map (fun p => p.1) }

/-- The outcome codes of R410; `who`: the pushing wave, whose record is taken up when the pushes of its cycle have come. -/
def State.push (s : State) (x q : Nat) (a : DWord) (who : Option WaveRef) : Nat × State :=
  let h := s.hq q
  if 64 ≤ q || h.ctx != some x then (2, s)
  else if a.toNat % 256 != 0 then (3, s)
  else if 256 ≤ h.ptrs.length then (1, s)
  else match who with
    | some r => (0, (s.setHq q (h.append s.now (r.core * 64 + r.slot) a)).after 1 (.recordStart (BitVec.ofNat 6 q)))
    | none => (0, (s.setHq q { h with ptrs := h.ptrs ++ [a], pushed := [] }).post (.recordStart (BitVec.ofNat 6 q)))

/-! Wake registers (R318) -/

/-- A write to GWAKE (R94). -/
def State.writeGwake (s : State) (t : Nat) (v : Word) : State := s.setGth t { s.gth t with wake := (s.gth t).wake ||| v }
/-- A write to QWAKE (R211). -/
def State.writeQwake (s : State) (q : Nat) (v : Word) : State :=
  (s.setHq q { s.hq q with wake := (s.hq q).wake ||| v }).post (.recordStart (BitVec.ofNat 6 q))
/-- A write to MBWAKE (R175): it ORs the value into MARK, which the management core reads later. -/
def State.writeMbwake (s : State) (v : Word) : State := { s with mgmt := { s.mgmt with mbwake := s.mgmt.mbwake ||| v } }
/-- The management core reads MARK, clears it and logs a MARK entry, unless its own image switches (R175, R183). It reads MARK when it is
nonzero: a write of 0 makes no entry (DESIGN CHOICE, log 87). -/
def State.readMark (s : State) : State :=
  if s.mgmt.mbwake == 0 || !s.modl.on || s.mgmt.bootStep == 0 || s.mgmt.pendingSwitch.any (fun (f : FwSwitch) => f.unit == 0) then s
  else ({ s with mgmt := { s.mgmt with mbwake := 0 } }).logEntry 1 0xFF (s.mgmt.mbwake.zeroExtend 64)

/-- The target of a soft interrupt in a context, if R318 permits it: kind 0 QWAKE, 1 GWAKE, 2 MBWAKE. -/
def State.sigWrite (s : State) (x kind idx : Nat) (v : Word) : Option State :=
  match kind with
  | 0 => if idx < 64 && (s.hq idx).ctx == some x then some (s.writeQwake idx v) else none
  | 1 => if idx < 4 && ((s.gth idx).ctx == some x || (s.gth idx).ctx.isNone) then some (s.writeGwake idx v) else none
  | 2 => if idx == 0 then some (s.writeMbwake v) else none
  | _ => none

/-! The launch record (R190 to R194) -/

/-- A level entry. -/
def readLevel (l : List Byte) (k : Nat) : Level :=
  let w := field l (0x40 + 16 * (k - 2)) 8
  { extent := bits w 63 32, lead := bits w 31 24, ldir := bits w 23 22, leaden := bit w 21, scope := bits w 18 16, domain := bits w 12 10 }

/-- NLEV of a record; its level entries are those of levels 2 to at most 7 (R190). -/
def recLevels (l : List Byte) : Nat := bits (field l 0x28 8) 3 0
/-- NPHASE of a record. -/
def recPhases (l : List Byte) : Nat := bits (field l 0x28 8) 47 32

/-- The fields of a record; `ph` are the bytes of its phase table. -/
def readRecord (addr : DWord) (l ph : List Byte) : LaunchRec :=
  let w (o : Nat) : DWord := BitVec.ofNat 64 (field l o 8)
  let a := field l 0x28 8
  let r := field l 0x48 8
  let c := field l 0xF0 8
  { addr := addr, sentry := w 0, lentry := w 8, trape := w 0x10, args := w 0x18, wakegate := bit a 27, prio := bits a 26 24
    priov := bit a 23, plreq := bits a 22 21, bint := bits a 20 16, fidx := bits (field l 0x30 8) 15 0
    levels := (List.range (min 8 (recLevels l) - 2)).map (fun k => readLevel l (k + 2))
    l1floor := bits r 27 24, scrq := bits r 23 16, lregq := bits r 12 8, wpb := bits r 4 0
    deps := (List.range 4).map (fun i => (w (0xA0 + 16 * i), w (0xA8 + 16 * i)))
    caddr := w 0xE0, cval := w 0xE8, sval := BitVec.ofNat 32 (bits c 63 32), stgt := bits c 31 30, sidx := bits c 29 24
    pstrm := bits c 19 10, act := bits c 2 0
    phases := (List.range (ph.length / 8)).map (fun j => (BitVec.ofNat 64 (bits (field ph (8 * j) 8) 51 0), bits (field ph (8 * j) 8) 54 52)) }

/-- EXTENT of level k on this device. -/
def LaunchRec.ext (r : LaunchRec) (k : Nat) : Nat :=
  match r.levels[k - 2]? with
  | some v => if v.domain == 4 then 1 else v.extent
  | none => 1
/-- Blocks in one unit of level k: the product of EXTENT over levels 2 to k - 1. -/
def LaunchRec.unitBlocks (r : LaunchRec) (k : Nat) : Nat := (List.range (k - 2)).foldl (fun n i => n * r.ext (i + 2)) 1
/-- Blocks on this device (R194). -/
def LaunchRec.nblocks (r : LaunchRec) : Nat := r.unitBlocks (r.levels.length + 2)
/-- The level of the cluster group, if there is one (R196). -/
def LaunchRec.groupLevel (r : LaunchRec) : Option Nat :=
  (List.range r.levels.length).findSome? (fun i => if 1 ≤ i && (r.levels[i]?.any (fun v => v.domain == 1)) then some (i + 2) else none)
/-- Blocks of a cluster group. -/
def LaunchRec.groupSize (r : LaunchRec) : Nat := match r.groupLevel with | some k => r.unitBlocks k | none => 1
/-- The gang level (R197); 2 for none. -/
def LaunchRec.gangLevel (r : LaunchRec) : Nat :=
  (List.range r.levels.length).foldl (fun m i =>
    if r.phases.any (fun p => p.2 == i + 2) || r.levels[i]?.any (fun v => v.leaden) then max m (i + 2) else m) 2
/-- DOMAIN of a level. -/
def LaunchRec.domain (r : LaunchRec) (k : Nat) : Nat := match r.levels[k - 2]? with | some v => v.domain | none => 0

/-! What fits where (R198) -/

/-- A core as placement sees it: waves and sixteens of lane registers of each partition, scratchpad segments in 4 KiB units,
the largest L1FLOOR, SCR, and whether a carve-out change holds it. -/
structure CoreRes where
  core  : Nat
  nblk  : Nat
  parts : List (Nat × Nat)
  segs  : List (Nat × Nat)
  floor : Nat
  scr   : Nat
  pend  : Bool
  deriving DecidableEq, Repr

/-- Resident waves. -/
def CoreRes.waves (c : CoreRes) : Nat := sumNat (c.parts.map (fun p => p.1))
/-- An empty core. -/
def CoreRes.empty (core : Nat) : CoreRes := ⟨core, 0, [(0, 0), (0, 0), (0, 0), (0, 0)], [], 0, 7, false⟩

/-- A core of the machine. A wave that has exited holds no slot, but its registers are its block's until that exits (R209, R393). -/
def State.coreRes (s : State) (core : Nat) : CoreRes :=
  let c := s.core core
  let ws := (c.waves.map (fun (p : Nat × Wave) => p.2)).filter (fun (w : Wave) => !w.handler)
  { core := core, nblk := c.blocks.length
    parts := (List.range 4).map (fun p =>
      ((ws.filter (fun (w : Wave) => w.part == p)).length,
        sumNat (c.blocks.map (fun (b : Nat × Block) => (b.2.parts.filter (fun q => q == p)).length * b.2.lregq))))
    segs := (c.blocks.filter (fun (b : Nat × Block) => b.2.scrq != 0)).map (fun (b : Nat × Block) => (b.2.sbase, b.2.scrq))
    floor := c.blocks.foldl (fun m (b : Nat × Block) => max m b.2.l1floor) 0
    scr := c.scr, pend := c.pend }

/-- The partition of each wave of a block, if all fit. -/
def CoreRes.partitions (c : CoreRes) (r : LaunchRec) : Option (List Nat) :=
  let b := match minBy (fun i => (c.parts.getD i (0, 0)).1) [0, 1, 2, 3] with | some i => i | none => 0
  let ps := (List.range r.wpb).map (fun w => (b + w) % 4)
  if (List.range 4).all (fun p =>
      let n := (ps.filter (fun q => q == p)).length
      let old := c.parts.getD p (0, 0)
      decide (old.1 + n ≤ 8) && decide (old.2 + n * r.lregq ≤ 32)) then some ps else none

/-- The lowest offset at which `n` units fit contiguously below `lim` (R251). -/
def fitBase (segs : List (Nat × Nat)) (n lim : Nat) : Option Nat :=
  let free (b : Nat) : Bool := decide (b + n ≤ lim) && segs.all (fun g => decide (b + n ≤ g.1) || decide (g.1 + g.2 ≤ b))
  if n == 0 then some 0
  else match (0 :: segs.map (fun g => g.1 + g.2)).filter free with
    | [] => none
    | l => minBy id l

/-- SBASE of a block on a core with a given SCR, if it fits. -/
def CoreRes.fits (c : CoreRes) (r : LaunchRec) (scr : Nat) : Option Nat :=
  if 16 ≤ c.nblk || 32 < c.waves + r.wpb || 8 - scr < max c.floor r.l1floor || (c.partitions r).isNone then none
  else fitBase c.segs r.scrq (scr * 32)

/-- The smallest carve-out at which the block's scratchpad fits, where the core fits with it. -/
def CoreRes.carve (c : CoreRes) (r : LaunchRec) : Option Nat :=
  match (List.range 8).find? (fun k => (fitBase c.segs r.scrq (k * 32)).isSome) with
  | some k => if (c.fits r k).isSome then some k else none
  | none => none

/-- The core with the block added. -/
def CoreRes.add (c : CoreRes) (r : LaunchRec) (base : Nat) : CoreRes :=
  let ps := (c.partitions r).getD []
  { c with
    nblk := c.nblk + 1
    parts := (List.range 4).map (fun p =>
      let n := (ps.filter (fun q => q == p)).length
      let old := c.parts.getD p (0, 0)
      (old.1 + n, old.2 + n * r.lregq))
    segs := if r.scrq == 0 then c.segs else c.segs ++ [(base, r.scrq)]
    floor := max c.floor r.l1floor }

/-- How many blocks of a record an empty core takes. -/
def coreCapacity (r : LaunchRec) : Nat :=
  go 16 (CoreRes.empty 0) 0
where
  /-- One block after another. -/
  go : Nat → CoreRes → Nat → Nat
    | 0, _, n => n
    | k + 1, c, n =>
      match c.carve r with
      | some scr => match c.fits r scr with
        | some b => go k (c.add r b) (n + 1)
        | none => n
      | none => n

/-- The extents of the levels below level k are in range (R191): the blocks of a unit of level k can be counted. -/
def LaunchRec.counts (r : LaunchRec) (k : Nat) : Bool :=
  (r.levels.take (k - 2)).all (fun v => v.extent != 0 && decide (v.extent ≤ 16777216))

/-- A cluster group fits in no cluster (R196): it needs more cores than there are, or holds gangs of several blocks that must stand on
one core. -/
def LaunchRec.groupMisfit (r : LaunchRec) : Bool :=
  match r.groupLevel with
  | some k => r.counts k && (decide (12 < r.groupSize) || (decide (r.gangLevel < k) && decide (1 < r.unitBlocks r.gangLevel)))
  | none => false

/-- A gang fits in no instance of its domain (R197). `12 * cap / g` groups of `g` distinct cores fit in a cluster. -/
def LaunchRec.gangMisfit (r : LaunchRec) : Bool :=
  let cap := coreCapacity r
  let g := r.groupSize
  let gl := r.gangLevel
  let inCluster := if r.groupLevel.isSome then (min 64 (12 * cap / max 1 g)) * g else 12 * cap
  decide (2 < gl) && r.counts gl && r.groupLevel.all (fun k => decide (k ≤ gl)) && decide ((match r.domain gl with
    | 0 => cap
    | 1 => inCluster
    | 2 => 8 * inCluster
    | _ => 16 * inCluster) < r.unitBlocks gl)

/-- A reserved field of a record, or a level entry at or beyond NLEV, is nonzero (R190, R191). -/
def recReserved (l : List Byte) : Bool :=
  let a := field l 0x28 8
  let n := min 8 (recLevels l)
  let fl := field l 0xF0 8
  let ks := (List.range (n - 2)).map (fun k => k + 2)
  bits a 63 48 != 0 || bits a 31 28 != 0 || bits a 15 4 != 0 || bits (field l 0x30 8) 63 16 != 0 || field l 0x38 8 != 0 ||
    bits fl 23 20 != 0 || bits fl 9 3 != 0 ||
    ks.any (fun k => let w := field l (0x40 + 16 * (k - 2)) 8; bits w 20 19 != 0 || bits w 15 13 != 0 || bits w 9 0 != 0) ||
    (let w := field l 0x48 8; bits w 63 28 != 0 || bits w 15 13 != 0 || bits w 7 5 != 0) ||
    ks.any (fun k => k != 2 && field l (0x48 + 16 * (k - 2)) 8 != 0) ||
    (List.range 6).any (fun i => decide (max n 2 ≤ i + 2) && field l (0x40 + 16 * i) 16 != 0)

/-- A level has a fabric domain. -/
def LaunchRec.fabric (r : LaunchRec) : Bool := r.levels.any (fun v => v.domain == 4)

/-- A level rule of R194 is broken; ENDLEV names no fabric-domain level. A reserved DOMAIN stands for no domain, and breaks only the rule
that level 2 is of DOMAIN core. -/
def LaunchRec.badLevels (r : LaunchRec) : Bool :=
  let n := r.levels.length + 2
  let lv (k : Nat) : Level := r.levels.getD (k - 2) ⟨0, 0, 0, false, 0, 0⟩
  let ks := (List.range r.levels.length).map (fun k => k + 2)
  (decide (3 ≤ n) && (lv 2).domain != 0) ||
    ks.any (fun k => decide (3 ≤ k) && decide ((lv k).domain < (lv (k - 1)).domain) && decide ((lv (k - 1)).domain ≤ 4)) ||
    ks.any (fun k => decide ((lv k).scope < (lv k).domain + 1) && decide ((lv k).domain ≤ 4)) ||
    ks.any (fun k => (lv k).domain == 4 && (k + 1 != n || (lv k).leaden || decide ((lv k).extent ≤ r.fidx))) ||
    r.phases.any (fun p => r.domain p.2 == 4)

/-- A field that says what a block holds is outside its range (R191). -/
def LaunchRec.badBlock (r : LaunchRec) : Bool :=
  r.l1floor == 0 || decide (8 < r.l1floor) || decide (224 < r.scrq) || r.lregq == 0 || decide (16 < r.lregq) || r.wpb == 0 || decide (16 < r.wpb)
/-- A field that says how many blocks stand where is outside its range (R190, R191). -/
def LaunchRec.badExtents (r : LaunchRec) (n : Nat) : Bool :=
  decide (n < 3) || decide (8 < n) || r.levels.any (fun v => v.extent == 0 || decide (16777216 < v.extent) || decide (4 < v.domain))


/-- A block, a cluster group or a gang cannot fit in an empty domain of its kind, as far as the fields that say so are in range (DEDUCED,
log 90). -/
def LaunchRec.misfit (r : LaunchRec) (n : Nat) : Bool :=
  let levels := decide (3 ≤ n) && decide (n ≤ 8)
  (levels && r.groupMisfit) || (!r.badBlock && (coreCapacity r == 0 || (levels && r.gangMisfit)))

/-- An address is misaligned, or another field is outside its range (R190). -/
def LaunchRec.badField (r : LaunchRec) (phtab nphase : Nat) : Bool :=
  r.levels.any (fun v => v.ldir == 3 || v.scope == 0 || decide (5 < v.scope)) || decide (nphase < 1) || decide (64 < nphase) || decide (16 < r.bint) || (!r.fabric && r.fidx != 0) ||
    r.sentry.toNat % 4 != 0 || r.lentry.toNat % 16 != 0 || r.trape.toNat % 4 != 0 || phtab % 8 != 0 ||
    r.deps.any (fun d => d.1.toNat % 8 != 0) || r.caddr.toNat % 8 != 0

/-- PSTRM, STGT or SIDX is invalid for an action of ACT. -/
def LaunchRec.badAction (r : LaunchRec) (c : Ctx) : Bool :=
  (bit r.act 1 && !(decide (c.strm0 ≤ r.pstrm) && decide (r.pstrm < c.strm0 + c.nstrm))) ||
    (bit r.act 2 && (r.stgt == 3 || (r.stgt == 1 && decide (4 ≤ r.sidx)) || (r.stgt == 2 && r.sidx != 0)))

/-- The phase table that a record names can be read. -/
def hasTable (l : List Byte) : Bool :=
  decide (2 ≤ recPhases l) && decide (recPhases l ≤ 64) && field l 0x20 8 != 0 && field l 0x20 8 % 8 == 0

/-- A phase table entry is invalid (R192), or PHTAB disagrees with NPHASE. -/
def badTable (l ph : List Byte) : Bool :=
  (recPhases l == 1) != (field l 0x20 8 == 0) ||
    (List.range (ph.length / 8)).any (fun j =>
      let w := field ph (8 * j) 8
      bits w 63 55 != 0 || decide (bits w 54 52 < 2) || decide (recLevels l ≤ bits w 54 52) || bits w 51 0 % 4 != 0)

/-- The lowest rejection code of R193 for a record and the phase table that it names. -/
def recCode (c : Ctx) (l ph : List Byte) : Option Nat :=
  let r := readRecord 0 l ph
  let n := recLevels l
  if recReserved l then some 1
  else if r.badLevels then some 2
  else if r.misfit n then some 3
  else if r.badBlock || r.badExtents n || r.badField (field l 0x20 8) (recPhases l) then some 4
  else if badTable l ph then some 6
  else if r.badAction c then some 7
  else none

/-! The head of a queue (R188, R189, R193, R201) -/

/-- The head record is rejected: LSTATUS, REJCNT, the pointer goes, no completion action. -/
def State.reject (s : State) (q x : Nat) (a : DWord) (code : Nat) : State :=
  let s := match s.devWrite (dispUnit (q / 32)) x (a.toNat + 0xF8) (leBytes 8 code) with
    | (.ok _, s) => s
    | (.error _, s) => s
  let h := s.hq q
  (s.setHq q { h with ptrs := h.ptrs.drop 1, rejcnt := satInc h.rejcnt, head := none, fault := none }).post (.recordStart (BitVec.ofNat 6 q))

/-- A dispatcher's read fault (R189): permission rejects with 0x05 or a lower code that applies, others stall the queue until
RESOLVE. -/
def State.headFault (s : State) (q x : Nat) (a : DWord) (k va code : Nat) : State :=
  if k == 3 then s.reject q x a code
  else
    let (f, s) := s.memFault x k 0 6 (q / 32) va (.queue q)
    s.setHq q { s.hq q with fault := some f }

/-- A checked record stands at the head, or is rejected. -/
def State.takeHead (s : State) (q x : Nat) (c : Ctx) (a : DWord) (l ph : List Byte) : State :=
  match recCode c l ph with
  | some k => s.reject q x a k
  | none => s.setHq q { s.hq q with head := some ⟨readRecord a l ph, [false, false, false, false], [none, none, none, none], [0, 0, 0, 0], s.written.length⟩ }

/-- A head of which something could not be read is rejected: with 0x05, or a lower code that applies to the record (R189, R193). -/
def State.rejectUnread (s : State) (q x : Nat) (a : DWord) : State :=
  match s.ctx? x, s.devRead (dispUnit (q / 32)) x a.toNat 256 with
  | some c, (.ok l, s) => s.reject q x a (min 5 ((recCode c l []).getD 5))
  | _, (_, s) => s.reject q x a 5

/-- The record and the phase table that it names are read, and checked. -/
def State.readHead (s : State) (q x : Nat) (c : Ctx) (a : DWord) : State :=
  let u := dispUnit (q / 32)
  match s.devRead u x a.toNat 256 with
  | (.error (k, va), s) => s.headFault q x a k va 5
  | (.ok l, s) =>
    if !hasTable l then s.takeHead q x c a l []
    else match s.devRead u x (field l 0x20 8) (8 * (recPhases l - 1)) with
      | (.error (k, va), s) => s.headFault q x a k va (min 5 ((recCode c l []).getD 5))
      | (.ok ph, s) => s.takeHead q x c a l ph

/-- Dependence i of the head is read: met, watched, or to be read again after a back-off (R201). -/
def State.checkDep (s : State) (q i : Nat) : State :=
  let h := s.hq q
  match h.head, h.ctx with
  | some hd, some x =>
    let d := hd.lrec.deps.getD i (0, 0)
    if h.fault.isSome || hd.met.getD i true then s
    else if d.1 == 0 then s.setHq q { h with head := some { hd with met := hd.met.set i true } }
    else match s.resolve none (dispUnit (q / 32)) x 2 d.1.toNat 8 needRD with
      | (.error (k, va), s) => s.headFault q x (h.ptrs.headD 0) k va 5
      | (.ok ks, s) =>
        if d.2.toNat ≤ leNat (s.peek ks) then
          s.setHq q { h with head := some { hd with met := hd.met.set i true, watch := hd.watch.set i none } }
        else if (hd.watch.getD i none).isSome then s
        else
          let ln := lineOf (ks.getD 0 0)
          if s.canWatch ln then s.setHq q { h with head := some { hd with watch := hd.watch.set i (some ln) } }
          else
            let r := hd.refusals.getD i 0
            (s.setHq q { h with head := some { hd with refusals := hd.refusals.set i (r + 1) } }).after (watchBackoff r)
              (.dependenceBackoff (BitVec.ofNat 6 q) (BitVec.ofNat 2 i))
  | _, _ => s

/-- Every dependence of the head. -/
def State.checkDeps (s : State) (q : Nat) : State := s.each [0, 1, 2, 3] (fun s i => s.checkDep q i)

/-! The communication reserve (R206) -/

/-- Communication-class queues with a record that has met its dependences and still holds blocks unplaced. -/
def State.commWaiting (s : State) (d : Nat) : Nat :=
  (s.queues.filter (fun (q : Nat × Queue) => q.1 / 32 == d && q.2.comm &&
    (!q.2.placing.isEmpty || (match q.2.head with | some hd => hd.met.all id | none => false)))).length

/-- CUR rises with W; the 20 µs count runs while W is 0. -/
def State.reserve (s : State) (d : Nat) : State :=
  let w := s.commWaiting d
  let k := s.die d
  let up := min k.max.toNat (k.min.toNat + w / 8)
  let s := s.setDie d { k with
    cur := max k.cur up
    wzero := if w == 0 then (match k.wzero with | some t => some t | none => some s.now) else none }
  if w == 0 && k.wzero.isNone then s.after 20000 (.commReserveFall (BitVec.ofNat 1 d)) else s

/-- COMM_RESERVE_FALL (R206). -/
def execCommReserveFall (d : BitVec 1) (s : State) : Out :=
  let k := s.die d.toNat
  match k.wzero with
  | none => .next s
  | some t =>
    if s.now < t + 20000 || k.cur ≤ k.min.toNat then .next s
    else .next (((s.setDie d.toNat { k with cur := k.cur - 1, wzero := some (t + 20000) }).atTime (t + 40000) (.commReserveFall d)).tryPlace)

/-- A write of COMRES (R211). The 20 µs intervals run on from when W became 0, also while CUR stands at MIN. -/
def State.writeComres (s : State) (d : Nat) (v : Nat) : State :=
  let mx := bits v 15 8
  let mn := bits v 7 0
  if mx < mn || 96 < mx then s
  else
    let k := s.die d
    let s := s.setDie d { k with max := BitVec.ofNat 8 mx, min := BitVec.ofNat 8 mn, cur := max mn (min mx k.cur) }
    let s := s.reserve d
    match (s.die d).wzero with
    | none => s.tryPlace
    | some t =>
      let t := t + (s.now - t) / 20000 * 20000
      ((s.setDie d { s.die d with wzero := some t }).atTime (t + 20000) (.commReserveFall (BitVec.ofNat 1 d))).tryPlace

/-! Starting a record -/

/-- The next number of a launch; the record leaves the head of its queue (R188). -/
def State.startHead (s : State) (q x : Nat) (h : Queue) (hd : Head) : State :=
  let (id, s) := s.fresh
  let n := hd.lrec.nblocks
  let run : Run := {
    id := id, queue := q, ctx := x, prio := if hd.lrec.priov && hd.lrec.prio < h.prio then hd.lrec.prio else h.prio, comm := h.comm
    lrec := hd.lrec, blocks := List.replicate n .unplaced, parked := [], phaseOf := [], lead := []
    acting := none, seen := hd.seen }
  let s := { s with runs := s.runs ++ [run] }
  let s := s.setHq q { h with ptrs := h.ptrs.drop 1, head := none, wake := 0, placing := h.placing ++ [id] }
  (s.post (.blockPlace (BitVec.ofNat 6 q))).post (.recordStart (BitVec.ofNat 6 q))

/-- A completion of the queue waits for a fault of its CADDR, which stalls the queue (R209, R189). -/
def State.caddrFault (s : State) (q : Nat) : Bool :=
  s.runs.any (fun (r : Run) => r.queue == q && (match r.acting with | some f => f != 0 | none => false))

/-- RECORD_START (R188 to R194, R201): the head is read and checked, its dependences are looked at, and it starts. -/
def execRecordStart (q : BitVec 6) (s : State) : Out :=
  let n := q.toNat
  let h := s.hq n
  match h.ctx, h.ptrs with
  | some x, a :: _ =>
    match s.ctx? x with
    | none => .next s
    | some c =>
      if h.fault.isSome || s.caddrFault n then .next s
      else
        let s := if h.head.isNone then (s.readHead n x c a).checkDeps n else s
        let h := s.hq n
        let s := match h.head with
          | some hd => if hd.met.all id && (!hd.lrec.wakegate || h.wake != 0) && c.pmst == 0 && h.fault.isNone then s.startHead n x h hd else s
          | none => s
        .next (s.reserve (n / 32))
  | _, _ => .next s

/-- After a dependence was looked at: the head may start. -/
def State.depSeen (s : State) (q : Nat) : State :=
  match (s.hq q).head with
  | some hd => if hd.met.all id then s.post (.recordStart (BitVec.ofNat 6 q)) else s
  | none => s

/-- The next entry of a die's event queue asks for its own row. -/
def State.evNext (s : State) (d : Nat) : State :=
  match (s.die d).evq with
  | .inl _ :: _ => s.post (.dependenceWake (BitVec.ofNat 1 d))
  | .inr _ :: _ => s.post (.completionActions (BitVec.ofNat 1 d))
  | [] => s

/-- DEPENDENCE_WAKE (R201). -/
def execDependenceWake (d : BitVec 1) (s : State) : Out :=
  let n := d.toNat
  match (s.die n).evq with
  | .inl (q, i) :: l =>
    let s := s.setDie n (({ s.die n with evq := l } : Die).enqueue [])
    .next ((((s.checkDep q i).depSeen q).reserve n).evNext n)
  | _ => .next (s.evNext n)

/-- DEPENDENCE_BACKOFF (R201). -/
def execDependenceBackoff (q : BitVec 6) (i : BitVec 2) (s : State) : Out :=
  .next (((s.checkDep q.toNat i.toNat).depSeen q.toNat).reserve (q.toNat / 32))

/-! Placement (R195 to R199) -/

/-- Cores a queue's class may use on a die, in the order of choice: reserved cores come first for communication. -/
def State.candidates (s : State) (comm : Bool) (cores : List Nat) : List (List Nat) :=
  let res (c : Nat) : Bool := decide (96 - (s.die (dieOf c)).cur ≤ c % 96)
  let plain := cores.filter (fun c => !res c)
  if comm then [cores.filter res, plain] else [plain]

/-- One planned block: block, core, SBASE, or a carve-out to ask for. -/
structure Plan where
  blk  : Nat
  core : Nat
  base : Nat
  carve : Option Nat
  deriving DecidableEq, Repr

/-- The choice of R198 for one block among lists of cores. -/
def chooseCore (r : LaunchRec) (res : List CoreRes) (lists : List (List Nat)) (taken : List Nat) (blk : Nat) (allow : Bool) : Option Plan :=
  let ok (c : CoreRes) : Bool := !c.pend && !taken.contains c.core
  let pick (f : CoreRes → Bool) : Option CoreRes := lists.findSome? (fun l =>
    minBy (fun (c : CoreRes) => c.waves) (res.filter (fun c => l.contains c.core && ok c && f c)))
  match pick (fun c => (c.fits r c.scr).isSome) with
  | some c => some ⟨blk, c.core, (c.fits r c.scr).getD 0, none⟩
  | none =>
    if !allow then none
    else match pick (fun c => (c.carve r).isSome) with
      | some c => some ⟨blk, c.core, 0, c.carve r⟩
      | none => none

/-- Every choice for one block, in the order of R198. -/
def corePlans (r : LaunchRec) (res : List CoreRes) (lists : List (List Nat)) (blk : Nat) (allow : Bool) : List Plan :=
  let order (f : CoreRes → Bool) : List CoreRes := lists.flatMap (fun l => (List.range 33).flatMap (fun k =>
    res.filter (fun c => c.waves == k && !c.pend && l.contains c.core && f c)))
  (order (fun c => (c.fits r c.scr).isSome)).map (fun c => ⟨blk, c.core, (c.fits r c.scr).getD 0, none⟩) ++
    (if allow then (order (fun c => (c.fits r c.scr).isNone && (c.carve r).isSome)).map (fun c => ⟨blk, c.core, 0, c.carve r⟩) else [])

/-- The cores once a plan has been carried out. -/
def withPlan (r : LaunchRec) (res : List CoreRes) (p : Plan) : List CoreRes :=
  res.map (fun c => if c.core != p.core then c else match p.carve with
    | some k => { c with scr := k }.add r ((c.fits r k).getD 0)
    | none => c.add r p.base)

/-- How many more blocks of a record a core takes. -/
def CoreRes.room (r : LaunchRec) (allow : Bool) : Nat → CoreRes → Nat
  | 0, _ => 0
  | n + 1, c =>
    match c.fits r c.scr, (if allow then c.carve r else none) with
    | some b, _ => 1 + CoreRes.room r allow n (c.add r b)
    | none, some k => 1 + CoreRes.room r allow n ({ c with scr := k }.add r ((c.fits r k).getD 0))
    | none, none => 0

/-- Blocks one after another; `distinct`: on distinct cores; `full`: in the order of the lists before that of R198. -/
def planBlocks (r : LaunchRec) (lists : List (List Nat)) (distinct full allow : Bool) : List Nat → List CoreRes → List Nat → List Plan → Option (List Plan × List CoreRes)
  | [], res, _, acc => some (acc, res)
  | b :: l, res, taken, acc =>
    match (if full then lists.findSome? (fun l => chooseCore r res [l] taken b allow) else chooseCore r res lists taken b allow) with
    | none => none
    | some p =>
      planBlocks r lists distinct full allow l (withPlan r res p) (if distinct then p.core :: taken else taken) (acc ++ [p])

/-- Cores in lists of equal room, the most first: groups of distinct cores that choose so fill a cluster as far as it can be filled. -/
def byRoom (r : LaunchRec) (allow : Bool) (res : List CoreRes) (lists : List (List Nat)) : List (List Nat) :=
  let room := res.map (fun c => (c.core, if c.pend then 0 else CoreRes.room r allow 16 c))
  (List.range 17).flatMap (fun i => lists.map (fun l => l.filter (fun k => tget 0 room k == 16 - i)))

/-- Cluster groups one after another, each in the lowest-numbered cluster that takes it (DESIGN CHOICE, log 14); `full`: on the cores with
the most room, where the order of R198 finds no room for all. -/
def planGroups (s : State) (r : LaunchRec) (comm allow full : Bool) (clusters : List Nat) : List (List Nat) → List CoreRes → List (Nat × Nat) → List Plan → Option (List Plan × List CoreRes)
  | [], res, _, acc => some (acc, res)
  | g :: l, res, rows, acc =>
    let go := clusters.findSome? (fun n =>
      let used := (s.cluster n).rows.length + (rows.filter (fun (p : Nat × Nat) => p.1 == n)).length
      if 64 ≤ used then none
      else
        let lists := s.candidates comm ((List.range 12).map (fun i => n * 12 + i))
        (planBlocks r (if full then byRoom r allow res lists else lists) true full allow g res [] []).map (fun p => (n, p.1, p.2)))
    match go with
    | none => none
    | some (n, ps, res) => planGroups s r comm allow full clusters l res ((n, 0) :: rows) (acc ++ ps)

/-- The blocks from `b`, `n` of them, in cluster groups. -/
def groupsOf (b n g : Nat) : List (List Nat) := (List.range (n / g)).map (fun i => (List.range g).map (fun j => b + i * g + j))

/-- The domain instances in which a gang, or one block or group, may stand: lists of clusters, lowest first. -/
def domainClusters (die dom : Nat) : List (List Nat) :=
  let all (d : Nat) : List Nat := (List.range 8).map (fun i => d * 8 + i)
  match dom with
  | 1 => (all die).map (fun n => [n])
  | 3 => [all 0 ++ all 1]
  | _ => [all die]

/-- A plan for the blocks from `b` on, `n` of them, at once; `one`: all on one core (a gang of DOMAIN core). -/
def State.planUnit (s : State) (run : Run) (b n dom : Nat) (allow : Bool) : Option (List Plan) :=
  let r := run.lrec
  let die := run.queue / 32
  (domainClusters die dom).findSome? (fun cl =>
    let cores := cl.flatMap (fun c => (List.range 12).map (fun i => c * 12 + i))
    let res := cores.map s.coreRes
    match r.groupLevel with
    | some _ => [false, true].findSome? (fun full => (planGroups s r run.comm allow full cl (groupsOf b n r.groupSize) res [] []).map (fun p => p.1))
    | none =>
      if dom == 0 && 1 < n then
        (s.candidates run.comm cores).flatten.findSome? (fun c =>
          (planBlocks r [[c]] false false allow ((List.range n).map (fun i => b + i)) res [] []).map (fun p => p.1))
      else (planBlocks r (s.candidates run.comm cores) false false allow ((List.range n).map (fun i => b + i)) res [] []).map (fun p => p.1))

/-- A carve-out change is asked for (R252). -/
def State.askCarve (s : State) (core k : Nat) : State :=
  let c := s.core core
  if c.pend then s.setCore core { c with nextTgt := some k }
  else (s.setCore core { c with tgt := k, pend := true }).post (.carveOutChangeDone (BitVec.ofNat 8 core))

/-- Whether dispatch `who` to a cluster may go ahead now (R207, R226): an early gate sequence or a calibration is ended by it; a
late one, or a gated cluster, makes it wait. Each dispatch that a late gate sequence makes wait is counted once. -/
def State.rouse (s : State) (who n : Nat) : Bool × State :=
  let c := s.cluster n
  let want := if c.wanted.contains who then c.wanted else who :: c.wanted
  let d := n / 8
  let i := BitVec.ofNat 4 n
  if c.wakeAt.isSome then (false, s)
  else if c.calibrating then (false, (s.setCluster n { c with calibrating := false, wanted := want, wakeAt := some (s.now + 300) }).after 300 (.clusterWake i))
  else if c.gated then (false, (s.setCluster n { c with wanted := want, wakeAt := some (s.now + 300) }).after 300 (.clusterWake i))
  else match c.gateStart with
    | some t =>
      if s.now < t + front 8 then (true, (s.setCluster n { c with gateStart := none }).after 1 (.gateSequenceStart i))
      else
        let s := if c.wanted.contains who then s else s.setDie d { s.die d with gcoll := satInc (s.die d).gcoll }
        (false, s.setCluster n { c with wanted := want })
    | none => (true, s)

/-- Every cluster of a plan. -/
def State.rouseAll (s : State) (who : Nat) (l : List Nat) : Bool × State :=
  l.foldl (fun (acc : Bool × State) n => let (ok, s) := acc.2.rouse who n; (acc.1 && ok, s)) (true, s)

/-- The level indices of a block (R195). -/
def LaunchRec.index (r : LaunchRec) (kid widx k : Nat) : Nat :=
  if k == 0 then 0 else if k == 1 then widx
  else match r.levels[k - 2]? with
    | none => 0
    | some v => if v.domain == 4 then r.fidx else kid / r.unitBlocks k % max 1 v.extent
/-- The level extents. -/
def LaunchRec.extentAt (r : LaunchRec) (k : Nat) : Nat :=
  if k == 0 then 96 else if k == 1 then r.wpb else match r.levels[k - 2]? with | none => 1 | some v => v.extent

/-- A fragment of all 96 lanes at an address (R235). -/
def firstFragment (pc : DWord) (lanes : LaneMask) : Fragment :=
  { id := 0, pc := pc, lanes := lanes, mask := lanes, path := [0, 0, 0, 0, 0], joins := [], queue := [], run := none, st := .ready
    waitSince := none, held := none, sleep := none, order := 0, refusals := 0 }

/-- A wave at placement (R199, R235). -/
def placedWave (run : Run) (kid bslot widx part order seed fdid : Nat) : Wave :=
  let r := run.lrec
  let n (k : Nat) : Word := BitVec.ofNat 32 k
  { bslot := bslot, widx := widx, ctx := run.ctx, launch := run.id, kid := kid, nregs := 16 * r.lregq, order := order, seed := seed
    handler := false, sreg := [(2, r.args.truncate 32), (3, (r.args >>> 32).truncate 32)], vreg := [], guards := [], xslot := [], flags := []
    xmax := 0, vstat := 0, rngs := BitVec.ofNat 64 (at_ kid 32 + widx), trapv := r.trape
    ix := (List.range 8).map (fun k => n (r.index kid widx k)), nx := (List.range 8).map (fun k => n (r.extentAt k))
    fdid := fdid, rank := n r.fidx, args := r.args, tickets := [], wideRet := [], clamp := false, thr := false, bad := false, decl := none
    woke := false, ccnt := 0, txcode := 0, txcause := 0, txn := none, frags := [firstFragment r.sentry allLanes], ops := []
    nextFrag := 1, nextSplit := 1, pendS := [], phase := 0, part := part }

/-- Resident block slots and wave slots that are free, lowest first. -/
def State.freeBslot (s : State) (core : Nat) : Nat := ((List.range 16).find? (fun b => (tfind (s.core core).blocks b).isNone)).getD 0
def State.freeWslots (s : State) (core : Nat) : List Nat := (List.range 32).filter (fun w => (tfind (s.core core).waves w).isNone)

/-- The performance request of a context with a resident block on a cluster is written (R213). -/
def State.perfRequest (s : State) (n x p : Nat) : State :=
  if (s.clusterBlocks n).any (fun b => b.ctx == x) then
    (s.updCluster n (fun c => { c with slots := if p == 3 then tdel c.slots x else tset c.slots x p })).retarget n
  else s

/-- A launch is changed. -/
def State.updRun (s : State) (id : Nat) (f : Run → Run) : State :=
  { s with runs := s.runs.map (fun (r : Run) => if r.id == id then f r else r) }
/-- A launch by its number. -/
def State.run? (s : State) (id : Nat) : Option Run := s.runs.find? (fun (r : Run) => r.id == id)

/-- A block takes its place (R198, R199). -/
def State.placeBlock (s : State) (run : Run) (p : Plan) (row : Option Nat) (entry : Nat) : State :=
  let r := run.lrec
  let bs := s.freeBslot p.core
  let ws := (s.freeWslots p.core).take r.wpb
  let ps := ((s.coreRes p.core).partitions r).getD []
  let (seed, s) := s.fresh
  let waves := (List.range r.wpb).map (fun w => (ws.getD w 0, placedWave run p.blk bs w (ps.getD w 0) (seed * 16 + w) (seed * 16 + w)
    (if s.fdidValid then s.fdid.toNat else 0)))
  let blk : Block := ⟨run.id, p.blk, run.ctx, p.base, r.scrq, r.l1floor, r.wpb, row, entry, ws, ps, r.lregq⟩
  let n := clusterOf p.core
  let s := s.updCore p.core (fun c => { c with
    blocks := tset c.blocks bs blk
    waves := waves.foldl (fun t (w : Nat × Wave) => tset t w.1 w.2) c.waves })
  let s := s.updCluster n (fun c => { c with
    idleSince := none
    relabel := match row with
      | some k => tset c.relabel (k * 12 + entry) (p.core % 12, p.base)
      | none => c.relabel })
  let s := s.updRun run.id (fun (r : Run) => { r with blocks := r.blocks.set p.blk (.on p.core bs) })
  s.perfRequest n run.ctx r.plreq

/-- A plan is carried out: relabel rows for cluster groups, then the blocks. -/
def State.placeAll (s : State) (run : Run) (ps : List Plan) : State :=
  let g := run.lrec.groupSize
  match run.lrec.groupLevel with
  | none => s.each ps (fun s p => s.placeBlock run p none 0)
  | some _ =>
    s.each ((List.range (ps.length / g)).map (fun i => (ps.drop (i * g)).take g)) (fun s grp =>
      match grp with
      | [] => s
      | p0 :: _ =>
        let n := clusterOf p0.core
        let row := ((List.range 64).find? (fun k => !(s.cluster n).rows.contains k)).getD 0
        let s := s.updCluster n (fun c => { c with rows := c.rows ++ [row] })
        s.each grp (fun s p => s.placeBlock run p (some row) (p.blk % g)))

/-- The next blocks of a launch to place at once: first block, count and DOMAIN (R197); a group that holds several gangs, of one block
each, is placed as a group. -/
def Run.nextUnit (run : Run) : Option (Nat × Nat × Nat) :=
  match (List.range run.blocks.length).find? (fun b => run.blocks[b]? == some .unplaced) with
  | none => none
  | some b =>
    let r := run.lrec
    if 2 < r.gangLevel && r.groupSize ≤ r.unitBlocks r.gangLevel then some (b, r.unitBlocks r.gangLevel, r.domain r.gangLevel)
    else if r.groupLevel.isSome then some (b, r.groupSize, 2)
    else some (b, 1, 2)

/-- BLOCK_PLACE (R196 to R199, R207): one block, cluster group or gang, when there is room; not while a dispatcher that it needs switches
its image (R183), nor before the carve-out changes that it asked for (R198). -/
def execBlockPlace (q : BitVec 6) (s : State) : Out :=
  let n := q.toNat
  let h := s.hq n
  match h.placing with
  | [] => .next s
  | id :: rest =>
    if s.switching (1 + n / 32) || h.asked.any (fun c => (s.core c).pend) then .next s
    else match s.run? id with
    | none => .next ((s.setHq n { h with placing := rest, asked := [] }).post (.blockPlace q))
    | some run =>
      if (s.ctx? run.ctx).all (fun c => c.pmst != 0) then .next s
      else match run.nextUnit with
        | none => .next (((s.setHq n { h with placing := rest, asked := [] }).reserve (n / 32)).post (.blockPlace q))
        | some (b, k, dom) =>
          match s.planUnit run b k dom false with
          | some ps =>
            if ps.any (fun p => s.switching (1 + dieOf p.core)) then .next s
            else
              let (ok, s) := s.rouseAll n (dedup (ps.map (fun p => clusterOf p.core)))
              let s := s.setHq n { s.hq n with asked := [] }
              if ok then .next ((s.placeAll run ps).post (.blockPlace q)) else .next s
          | none =>
            match s.planUnit run b k dom true with
            | some ps =>
              let s := s.setHq n { h with asked := (ps.filter (fun p => p.carve.isSome)).map (fun p => p.core) }
              .next (s.each ps (fun s p => match p.carve with | some c => s.askCarve p.core c | none => s))
            | none => .next s

/-- CARVE_OUT_CHANGE_DONE (R252). -/
def execCarveOutChangeDone (core : BitVec 8) (s : State) : Out :=
  let n := core.toNat
  let c := s.core n
  if !c.pend || !(c.blocks.all (fun (b : Nat × Block) => decide (b.2.sbase + b.2.scrq ≤ c.tgt * 32 || b.2.scrq = 0) && decide (b.2.l1floor + c.tgt ≤ 8))) then .next s
  else
    let s := (s.setCore n { c with l1 := [] }).drainAll n
    let s := s.updCore n (fun k => { k with scr := c.tgt, pend := false, nextTgt := none })
    let s := match c.nextTgt with
      | some k => s.askCarve n k
      | none => s
    .next s.tryPlace

/-! Phases (R202 to R205) -/

/-- Where a block stands in phase order: exited, or the phase it has ended + 1. -/
def Run.ended (run : Run) (b : Nat) : Option Nat :=
  if run.blocks[b]? == some .exited then none
  else match tfind run.parked b with
    | some j => some (j + 1)
    | none => some (tget 0 run.phaseOf b)

/-- The blocks of unit `u` of level k. -/
def Run.unit (run : Run) (k u : Nat) : List Nat :=
  let n := run.lrec.unitBlocks k
  ((List.range n).map (fun i => u * n + i)).filter (fun b => b < run.blocks.length)

/-- Every block of a list has exited or ended `p` phases. -/
def Run.allEnded (run : Run) (l : List Nat) (p : Nat) : Bool := l.all (fun b => match run.ended b with | some e => decide (p ≤ e) | none => true)

/-- Key of a lead counter. -/
def leadKey (k u : Nat) : Nat := k * 0x1000000000000 + u

/-- The lead counters of a level's units: the number of phases each has ended (R204). -/
def Run.countLead (run : Run) (k : Nat) : Run :=
  let n := run.lrec.unitBlocks k
  let us := (List.range (run.blocks.length / max 1 n))
  { run with lead := us.foldl (fun t u =>
      let l := run.unit k u
      let e := l.foldl (fun (m : Option Nat) b => match run.ended b, m with | some e, some m => some (min e m) | some e, none => some e | none, m => m) none
      tset t (leadKey k u) (e.getD 64)) run.lead }

/-- Whether the lead allowance of level k lets block b begin phase p (R204): EXTENT of level k - 1 siblings make up a unit of level k. -/
def Run.leadOk (run : Run) (k b p : Nat) : Bool :=
  match run.lrec.levels[k - 2]? with
  | none => true
  | some v =>
    if k ≤ 2 || p ≤ v.lead then true
    else
      let u := b / run.lrec.unitBlocks (k - 1)
      let n := max 1 (run.lrec.ext (k - 1))
      let up := u / n * n
      let prev := decide (up < u) && (v.ldir == 0 || v.ldir == 1)
      let next := decide (u + 1 < up + n) && (v.ldir == 0 || v.ldir == 2)
      let ok (u : Nat) : Bool := decide (p - v.lead ≤ tget 0 run.lead (leadKey (k - 1) u))
      (!prev || ok (u - 1)) && (!next || ok (u + 1))

/-- The waves of a placed block. -/
def State.blockWaves (s : State) (core bslot : Nat) : List Nat :=
  match tfind (s.core core).blocks bslot with
  | some b => b.waves.filter (fun w => (tfind (s.core core).waves w).isSome)
  | none => []

/-- The stores that the blocks of a launch have performed reach their homes. -/
def State.drainLaunch (s : State) (run : Run) : State :=
  s.each (dedup (run.blocks.filterMap (fun b => match b with | .on core _ => some core | _ => none))) (fun s c => s.drainAll c)

/-- A parked block's waves resume at the entry of the phase after the one it parked in, with the ordering of the level's
SCOPE (R203). -/
def State.resumeBlock (s : State) (id b : Nat) : State :=
  match s.run? id with
  | none => s
  | some run =>
    match run.blocks[b]?, tfind run.parked b with
    | some (.on core bs), some j =>
      let (pc, lev) := run.lrec.phases.getD j (0, 2)
      let wide := match run.lrec.levels[lev - 2]? with | some v => decide (2 ≤ v.scope) | none => false
      let s := if wide then (s.drainLaunch run).dropL1 core run.ctx else s
      let s := s.each (s.blockWaves core bs) (fun s w => s.updWave ⟨core, w⟩ (fun x => { x with
        phase := j + 1
        frags := x.frags.map (fun (f : Fragment) => { f with pc := pc, st := .ready, waitSince := none }) }))
      s.updRun id (fun (r : Run) => { r with parked := tdel r.parked b, phaseOf := tset r.phaseOf b (j + 1) })
    | _, _ => s

/-- What the parking or the exit of block b makes possible in its launch (R203, R204). -/
def State.phaseCheck (s : State) (id b : Nat) : State :=
  match s.run? id with
  | none => s
  | some run =>
    if (s.ctx? run.ctx).all (fun c => c.pmst != 0) then s
    else
      let lead := run.lrec.levels.any (fun v => v.leaden)
      let run := if lead then (List.range run.lrec.levels.length).foldl (fun (r : Run) i => r.countLead (i + 2)) run else run
      let s := s.updRun id (fun _ => run)
      let waiting := run.parked
      s.each waiting (fun s (p : Nat × Nat) =>
        let (c, j) := p
        let lev := (run.lrec.phases.getD j (0, 2)).2
        let leaden := match run.lrec.levels[lev - 2]? with | some v => v.leaden | none => false
        if leaden then (if run.leadOk lev c (j + 1) then s.post (.leadPhaseStart id c) else s)
        else
          let u := c / run.lrec.unitBlocks lev
          if u == b / run.lrec.unitBlocks lev && run.allEnded (run.unit lev u) (j + 1) then s.resumeBlock id c else s)

/-- Every parked block of a context is looked at again, after a restore. -/
def State.phaseCheckAll (s : State) (x : Nat) : State :=
  s.each (s.runs.filter (fun (r : Run) => r.ctx == x)) (fun s (r : Run) => s.each (r.parked.map (fun p => p.1)) (fun s b => s.phaseCheck r.id b))

/-- LEAD_PHASE_START (R204, R205). -/
def execLeadPhaseStart (run blk : Nat) (s : State) : Out :=
  match s.run? run with
  | none => .next s
  | some r =>
    match tfind r.parked blk with
    | none => .next s
    | some j =>
      let lev := (r.lrec.phases.getD j (0, 2)).2
      if (s.ctx? r.ctx).all (fun c => c.pmst != 0) || !r.leadOk lev blk (j + 1) then .next s
      else .next (s.resumeBlock run blk)

/-- A block of which every wave has parked or exited is parked (R202); a wave without fragments has not exited before its counters and
flags are clear (R393). -/
def State.parkCheck (s : State) (core bslot : Nat) : State :=
  match tfind (s.core core).blocks bslot with
  | none => s
  | some b =>
    let ws := (s.blockWaves core bslot).filterMap (fun w => tfind (s.core core).waves w)
    if ws.isEmpty || !(ws.all (fun (w : Wave) => !w.frags.isEmpty && w.frags.all (fun f => f.st == .phase))) then s
    else
      let j := ws.foldl (fun m (w : Wave) => max m w.phase) 0
      (s.updRun b.launch (fun (r : Run) => { r with parked := tset r.parked b.kid j })).phaseCheck b.launch b.kid

/-! Exit and completion (R209, R393) -/

/-- A launch all of whose blocks have exited enters the event queue of its dispatcher's die. -/
def State.completeCheck (s : State) (id : Nat) : State :=
  match s.run? id with
  | none => s
  | some r =>
    let d := r.queue / 32
    if r.blocks.all (fun b => b == .exited) && !((s.die d).evq ++ (s.die d).evwait).contains (.inr id) && r.acting.isNone then
      (s.setDie d ((s.die d).enqueue [.inr id])).evNext d
    else s

/-- A wave has left its slot; with its last wave the block leaves its core. -/
def State.blockExitCheck (s : State) (core bslot : Nat) : State :=
  match tfind (s.core core).blocks bslot with
  | none => s
  | some b =>
    if !(s.blockWaves core bslot).isEmpty then s.parkCheck core bslot
    else
      let s := s.drainAll core
      let s := s.updRun b.launch (fun (r : Run) => { r with blocks := r.blocks.set b.kid .exited, parked := tdel r.parked b.kid })
      let s := s.removeBlock core bslot
      (s.phaseCheck b.launch b.kid).completeCheck b.launch

/-- The fragments of a wave that have all executed PHEND fuse into one (R202). -/
def Wave.parkFuse (w : Wave) : Wave :=
  let first (f : Fragment) : Nat := ((List.range 96).find? (fun i => f.lanes.getLsbD i)).getD 96
  match minBy first w.frags with
  | none => w
  | some g =>
    let lanes := w.frags.foldl (fun (m : LaneMask) (f : Fragment) => m ||| f.lanes) 0
    let mask := w.frags.foldl (fun (m : LaneMask) (f : Fragment) => m ||| f.mask) 0
    { w with frags := [{ g with lanes := lanes, mask := mask, joins := [] }], decl := none }

/-- A wave without fragments leaves its slot once its counters and flags are clear (R393). One whose fragments have all executed PHEND,
the others having left since, parks once its accesses and counters are done (R202). -/
def State.waveExitCheck (s : State) (r : WaveRef) : State :=
  match s.wave? r with
  | none => s
  | some w =>
    let idle := w.ops.isEmpty && w.tickets.all (fun (p : Nat × List Ticket) => p.2.isEmpty)
    if !w.handler && !w.frags.isEmpty && w.frags.all (fun f => f.st == .phase) && idle then (s.setWave r w.parkFuse).parkCheck r.core w.bslot
    else if w.handler || !w.frags.isEmpty || w.tickets.any (fun (p : Nat × List Ticket) => !p.2.isEmpty) || w.flags.any (fun p => p.2 != 0) || !w.ops.isEmpty then s
    else (s.updCore r.core (fun c => { c with
      waves := tdel c.waves r.slot
      blocks := tmap c.blocks (fun k (b : Block) => if k == w.bslot then { b with waves := b.waves.erase r.slot } else b) })).blockExitCheck
        r.core w.bslot

/-- The completion actions of a launch, in order: ADD, POST, SIGQ. -/
def State.postAndSig (s : State) (r : Run) : State :=
  let s := if bit r.lrec.act 1 then s.note r.lrec.pstrm (leBytes 8 r.lrec.addr.toNat ++ leBytes 8 s.now) else s
  let s := if bit r.lrec.act 2 then
      (match s.sigWrite r.ctx r.lrec.stgt r.lrec.sidx r.lrec.sval with | some s => s | none => s)
    else s
  let s := ({ s with runs := s.runs.filter (fun (q : Run) => q.id != r.id) }).post (.recordStart (BitVec.ofNat 6 r.queue))
  match s.runs.find? (fun (q : Run) => q.queue == r.queue && q.acting == some 0) with
  | some q => (s.updRun q.id (fun (q : Run) => { q with acting := none })).completeCheck q.id
  | none => s

/-- The actions of one completed launch (R209). -/
def State.complete1 (s : State) (r : Run) : State :=
  if s.runs.any (fun (q : Run) => q.queue == r.queue && decide (q.id < r.id)) then
    s.updRun r.id (fun (q : Run) => { q with acting := some 0 })
  else if !bit r.lrec.act 0 then s.postAndSig r
  else match s.devUpdate (dispUnit (r.queue / 32)) r.ctx r.lrec.caddr.toNat (fun v => v + r.lrec.cval.toNat) with
    | (.ok _, s) => s.postAndSig r
    | (.error (k, va), s) =>
      if k == 3 then s.postAndSig r
      else
        let (f, s) := s.memFault r.ctx k 5 6 (r.queue / 32) va (.completion r.id)
        s.updRun r.id (fun (q : Run) => { q with acting := some f })

/-- COMPLETION_ACTIONS (R209). -/
def execCompletionActions (d : BitVec 1) (s : State) : Out :=
  let n := d.toNat
  match (s.die n).evq with
  | .inr id :: l =>
    let s := s.setDie n (({ s.die n with evq := l } : Die).enqueue [])
    let s := match s.run? id with
      | some r => s.complete1 r
      | none => s
    .next (s.evNext n)
  | _ => .next (s.evNext n)

/-! Power gating (R207) -/

/-- A cluster is due for calibration (R226). -/
def State.calDue (s : State) (n : Nat) : Bool :=
  let c := s.cluster n
  c.calen && decide (c.lastCal + 1000000000 * max 1 c.calper.toNat ≤ s.now)

/-- A cluster has been without a resident block for IDLEFC front cycles. -/
def State.idleLong (s : State) (n : Nat) : Bool :=
  match (s.cluster n).idleSince with
  | some t => decide (t + front (max 1 (s.die (n / 8)).idlefc.toNat) ≤ s.now)
  | none => false

/-- The gate sequence starts. -/
def State.startGate (s : State) (n : Nat) : State :=
  (s.setCluster n { s.cluster n with gateStart := some s.now }).after (front 32) (.gateSequenceEnd (BitVec.ofNat 4 n))

/-- GATE_SEQUENCE_START (R207): a cluster due for calibration runs a pass instead. -/
def execGateSequenceStart (n : BitVec 4) (s : State) : Out :=
  let i := n.toNat
  let c := s.cluster i
  if !(s.die (i / 8)).gateen || !s.idleLong i || c.gated || c.gateStart.isSome || c.calibrating || c.wakeAt.isSome || s.calDue i then .next s
  else .next (s.startGate i)

/-- GATE_SEQUENCE_END (R207): gated; a dispatch that waited wakes it. -/
def execGateSequenceEnd (n : BitVec 4) (s : State) : Out :=
  let i := n.toNat
  let c := s.cluster i
  match c.gateStart with
  | none => .next s
  | some t =>
    if s.now < t + front 32 then .next s
    else
      let s := (s.syncEdges i).updCluster i (fun c => { c with gateStart := none, gated := true, wakeAt := if c.wanted.isEmpty then none else some (s.now + 300) })
      .next (if c.wanted.isEmpty then s else s.after 300 (.clusterWake n))

/-- CLUSTER_WAKE (R207). -/
def execClusterWake (n : BitVec 4) (s : State) : Out :=
  let i := n.toNat
  let c := s.cluster i
  match c.wakeAt with
  | none => .next s
  | some t =>
    if s.now < t then .next s
    else
      let s := (s.syncEdges i).updCluster i (fun c => { c with gated := false, wanted := [], wakeAt := none, idleSince := some s.now })
      let k := front (max 1 (s.die (i / 8)).idlefc.toNat)
      .next (((s.after k (.calibrationPass n)).after k (.gateSequenceStart n)).tryPlace)

/-- QWAKE_WRITE (R211). -/
def execQwakeWrite (q : BitVec 6) (v : Word) (s : State) : Out := .next (s.writeQwake q.toNat v)
/-- COMRES_WRITE (R211). -/
def execComresWrite (d : BitVec 1) (v : Word) (s : State) : Out := .next (s.writeComres d.toNat v.toNat)
/-- GWAKE_WRITE (R94). -/
def execGwakeWrite (t : BitVec 2) (v : Word) (s : State) : Out := .next (s.writeGwake t.toNat v)
/-- MBWAKE_WRITE (R175). -/
def execMbwakeWrite (v : Word) (s : State) : Out := .next (s.writeMbwake v)

end Sys2Proof.Machine
end

