-- ==== Sys2Proof/Machine/Power.lean ====
section
/-! DEFINITION. Performance levels, bursts, throttles, droop and calibration (R212 to R228). -/

namespace Sys2Proof.Machine

/-! Levels (R215) -/

/-- Effects of a droop alarm on a core (R224). -/
def State.applyAlarm (s : State) (core : Nat) : State :=
  let n := clusterOf core
  let s := s.syncEdges n
  let q := 60 / 2 ^ (s.cluster n).cur
  let s := s.updCluster n (fun c => { c with stretchTo := 4 * s.ticks + q })
  let t := (q + 3) / 4 + front 64
  let s := s.updCore core (fun c => { c with halved := some (s.now + t), drpcnt := satInc c.drpcnt })
  let s := { s with mgmt := { s.mgmt with hourDroop := tset s.mgmt.hourDroop n (tget 0 s.mgmt.hourDroop n + 1) } }
  s.after t (.halvedIssueEnd (BitVec.ofNat 8 core))

/-- RAIL_RAISED (R215): the clock switch begins. -/
def execRailRaised (n : BitVec 4) (s : State) : Out :=
  let i := n.toNat
  let c := s.cluster i
  if c.change.isNone || c.switching then .next s
  else
    let s := (s.syncEdges i).updCluster i (fun c => { c with switching := true, switchAt := s.now })
    .next (s.after (front 256) (.levelSwitchDone n))

/-- LEVEL_SWITCH_DONE (R215): the new level runs; a target that changed meanwhile is taken up, alarms are applied. -/
def execLevelSwitchDone (n : BitVec 4) (s : State) : Out :=
  let i := n.toNat
  let c := s.cluster i
  match c.change with
  | none => .next s
  | some t =>
    if !c.switching || s.now < c.switchAt + front 256 then .next s
    else
      let s := (s.syncEdges i).updCluster i (fun c => { c with cur := t, change := none, switching := false, alarms := [] })
      .next ((s.each c.alarms State.applyAlarm).retarget i)

/-- The declared intensity of a core (R219). -/
def State.declared (s : State) (core : Nat) : Nat :=
  min 16 (sumNat ((s.core core).waves.map (fun (w : Nat × Wave) => match w.2.decl with
    | some d => if d.admitted.isSome then d.int else 0
    | none => 0)))

/-- The units issued in the 256 lane cycles that end with one (R222). -/
def Core.window (c : Core) (k : Nat) : Nat := (c.units.filter (fun v => decide (v ≤ k) && decide (k < v + 256))).length

/-- The work under way on a cluster is covered by admitted declarations (R492): every wave that runs holds one, and on each core one
sixteenth for each of them, with the matrix units of the last 256 lane cycles, is within the declared intensity (DEDUCED, log 74). -/
def State.workCovered (s : State) (n : Nat) : Bool :=
  (List.range 12).all (fun i =>
    let c := s.core (12 * n + i)
    let busy := c.waves.filter (fun (w : Nat × Wave) => w.2.frags.any (fun f => f.st == .ready && f.sleep.isNone))
    busy.all (fun (w : Nat × Wave) => w.2.decl.any (fun d => d.admitted.isSome)) &&
      decide (16 * busy.length + c.window (s.laneCycle n) ≤ 16 * s.declared (12 * n + i)))

/-- DROOP_ALARM (R224): during a level change it is applied after the switch. With a threshold of 20 mV or more no alarm is raised in a
cluster that starts only declared work (R492). -/
def execDroopAlarm (core : BitVec 8) (s : State) : Out :=
  let n := clusterOf core.toNat
  if 20 ≤ (s.core core.toNat).drpth.toNat && s.workCovered n then .next s
  else if (s.cluster n).change.isSome then .next (s.updCluster n (fun c => { c with alarms := c.alarms ++ [core.toNat] }))
  else .next (s.applyAlarm core.toNat)

/-- HALVED_ISSUE_END (R224). -/
def execHalvedIssueEnd (core : BitVec 8) (s : State) : Out :=
  .next (s.updCore core.toNat (fun c => { c with halved := match c.halved with | some t => if t ≤ s.now then none else some t | none => none }))

/-! Bursts (R216 to R221) -/

/-- The launch's BINT (R190). -/
def State.bintOf (s : State) (w : Wave) : Nat := match s.run? w.launch with | some r => r.lrec.bint | none => 0

/-- No burst of a cluster is announced or running (R183). -/
def State.lehrIdle (s : State) (n : Nat) : Bool :=
  s.allWaves.all (fun (p : WaveRef × Wave) => clusterOf p.1.core != n || !(p.2.decl.any (fun d => d.told)))
/-- The image of a cluster's lehr switches: its announcements are held (DESIGN CHOICE, log 94), and it runs at a quarter of matrix peak
(R183). -/
def State.lehrSwitches (s : State) (n : Nat) : Bool := s.switching (16 + n) && s.lehrIdle n

/-- The lehr sends a wave's announcement to the regulator (R220). Announcements of one time go by core, then by slot. -/
def State.tell (s : State) (r : WaveRef) : State :=
  (s.updWave r (fun w => { w with decl := w.decl.map (fun d => { d with told := true, order := s.now * 16384 + r.core * 64 + r.slot }) })).after
    (front 1600) (.regulatorReady r)
/-- What was held for a lehr is announced. -/
def State.tellAll (s : State) : State :=
  s.each (s.allWaves.filter (fun (p : WaveRef × Wave) => p.2.decl.any (fun d => !d.told) && !s.lehrSwitches (clusterOf p.1.core))) (fun s p => s.tell p.1)

/-- A BURST word of a wave (R216, R217). The matrix instructions that reached issue before it are not held for its declaration (R218). -/
def State.announce (s : State) (r : WaveRef) (word : Word) : State :=
  match s.wave? r with
  | none => s
  | some w =>
    let v := word.toNat
    let int := bits v 16 12
    if bits v 31 29 != 0 || 16 < int then s.setWave r { w with bad := true, clamp := false }
    else
      let b := s.bintOf w
      let i := min int b
      let w := { w with clamp := decide (b < int) }
      if i == 0 then s.setWave r { w with decl := none }
      else
        let s := s.setWave r { w with decl := some ⟨i, bits v 28 17 + 1, s.now + front (bits v 11 0), 0, false, false, none⟩ }
        let s := s.updCore r.core (fun c => { c with matrix := c.matrix.map (fun m => if m.slot == r.slot then { m with held := false } else m) })
        if s.lehrSwitches (clusterOf r.core) then s else s.tell r

/-- Pending declarations of a cluster in order of announcement, with their waves. -/
def State.pendingDecls (s : State) (n : Nat) : List (WaveRef × Decl) :=
  (List.range 12).flatMap (fun i => (s.core (n * 12 + i)).waves.filterMap (fun (w : Nat × Wave) => match w.2.decl with
    | some d => if d.admitted.isNone then some (⟨n * 12 + i, w.1⟩, d) else none
    | none => none))

/-- REGULATOR_READY (R220). -/
def execRegulatorReady (r : WaveRef) (s : State) : Out :=
  match (s.wave? r).bind (fun w => w.decl) with
  | none => .next s
  | some d =>
    if d.admitted.isSome then .next s
    else
      let s := s.updWave r (fun w => { w with decl := some { d with ready := true } })
      .next (s.atTime (max s.now d.onset) (.burstAdmit (BitVec.ofNat 4 (clusterOf r.core))))

/-- The oldest announcement of a cluster that is not admitted, once its onset has come and the regulator is ready for it. -/
def State.nextBurst (s : State) (n : Nat) : Option (WaveRef × Decl) :=
  match minBy (fun (p : WaveRef × Decl) => p.2.order) ((s.pendingDecls n).filter (fun p => p.2.told)) with
  | some (r, d) => if d.ready && decide (d.onset ≤ s.now) then some (r, d) else none
  | none => none
/-- The admissions of a cluster within its window. -/
def State.recentAdmits (s : State) (n : Nat) : List (Nat × Nat) :=
  (s.cluster n).admits.filter (fun a => decide (8 * (s.now - a.1) < 5 * max 1 (s.cluster n).intv.toNat))
/-- The window has room for an intensity. -/
def State.burstFits (s : State) (n int : Nat) : Bool :=
  decide (sumNat ((s.recentAdmits n).map (fun a => a.2)) + int ≤ max 16 (min 192 (s.cluster n).ramp.toNat))

/-- When the oldest admission leaves the window. -/
def State.roomAt (s : State) (n : Nat) : Option Nat := (s.recentAdmits n).head?.map (fun a => a.1 + front (max 1 (s.cluster n).intv.toNat))

/-- BURST_ADMIT (R220): the oldest announcement, once its onset, its readiness and the ramp window allow. Admissions are kept for the
longest window, since a write of CSLOPE may lengthen it. -/
def execBurstAdmit (n : BitVec 4) (s : State) : Out :=
  let i := n.toNat
  match s.nextBurst i with
  | none => .next s
  | some (r, d) =>
    if s.burstFits i d.int then
      let e := s.now + 1000 * d.length
      let kept := (s.cluster i).admits.filter (fun a => decide (8 * (s.now - a.1) < 5 * 255))
      let s := s.updCluster i (fun c => { c with admits := kept ++ [(s.now, d.int)] })
      let s := s.updWave r (fun w => { w with decl := some { d with admitted := some e } })
      .next ((s.atTime e (.declarationEnd r)).post (.burstAdmit n))
    else match s.roomAt i with
      | some t => .next (s.atTime t (.burstAdmit n))
      | none => .next s

/-- DECLARATION_END (R217). -/
def execDeclarationEnd (r : WaveRef) (s : State) : Out :=
  .next (s.updWave r (fun w => match w.decl with
    | some d => (match d.admitted with
      | some e => if e ≤ s.now then { w with decl := none } else w
      | none => w)
    | none => w))

/-- `brst` as SRSR reads it (R223). -/
def State.brst (s : State) (w : Wave) : Word :=
  let f (a b int rem : Nat) : Nat := at_ a 31 + at_ b 30 + at_ (bnat w.clamp) 29 + at_ (bnat w.thr) 28 + at_ int 23 + at_ (bnat w.bad) 22 + rem
  BitVec.ofNat 32 (match w.decl with
    | none => f 0 0 0 0
    | some d => match d.admitted with
      | none => f 1 0 d.int 0
      | some e => f 0 1 d.int ((e - s.now + 999) / 1000))

/-- RELEASE_GROUP (R221): the next waves of a block-wide barrier run on. -/
def execReleaseGroup (core : BitVec 8) (b : BitVec 6) (s : State) : Out :=
  let n := core.toNat
  let c := s.core n
  match c.release.find? (fun e => e.1 == b.toNat) with
  | none => .next s
  | some (_, l) =>
    let k := s.cluster (clusterOf n)
    let size := if k.relgrp == 0 then 16 else k.relgrp.toNat
    let ws := dedup (l.map (fun p => p.1))
    let now := if k.relsp == 0 then ws else ws.take size
    let rest := l.filter (fun p => !now.contains p.1)
    let others := c.release.filter (fun e => e.1 != b.toNat)
    let s := s.setCore n { c with release := if rest.isEmpty then others else others ++ [(b.toNat, rest)] }
    let freed := l.filter (fun p => now.contains p.1)
    let s := s.each freed (fun s p => s.updFrag ⟨n, p.1⟩ p.2 (fun f => { f with sleep := f.sleep.map (fun sl => { sl with wokenAt := some s.now }) }))
    let s := s.posts (freed.map (fun p => .fragmentWake ⟨n, p.1⟩ p.2))
    .next (if rest.isEmpty then s else s.after (front k.relsp.toNat) (.releaseGroup core b))

/-! Throttles (R222, R223) -/

/-- THROTTLE_END (R222). -/
def execThrottleEnd (core : BitVec 8) (s : State) : Out :=
  .next (s.updCore core.toNat (fun c => { c with throttle := match c.throttle with | some (t, k) => if t ≤ s.now then none else some (t, k) | none => none }))

/-- Matrix units that a core may issue in an aligned group of 16 lane cycles (R183, R222, R223). -/
def State.unitLimit (s : State) (core : Nat) : Nat :=
  let cap := min (if s.lehrSwitches (clusterOf core) then 4 else 16) s.pwrcap.toNat
  match (s.core core).throttle with
  | some (_, k) => min cap k
  | none => cap

/-- The lane cycle in which the matrix engine of a core may issue its next unit, if it has come: one unit in a lane cycle, and no more
than the limit in an aligned group of 16. The cycles of the nanosecond that ends are those after its beginning. -/
def State.unitCycle (s : State) (core : Nat) : Option Nat :=
  let n := clusterOf core
  let c := s.core core
  let first := (s.cluster n).edgesAt (s.ticks - 1) / 10 + 1
  let u := match c.units with | h :: _ => max (h + 1) first | [] => first
  let u := if c.issued.1 == u / 16 && decide (s.unitLimit core ≤ c.issued.2) then (u / 16 + 1) * 16 else u
  if u ≤ s.laneCycle n && 0 < s.unitLimit core then some u else none

/-- A unit is issued in a lane cycle by a wave of context `x`; units of 512 cycles ago are in no window that is still to be counted. -/
def State.issueUnit (s : State) (r : WaveRef) (x u : Nat) : State :=
  s.updCore r.core (fun c => { c with
    units := u :: c.units.filter (fun v => decide (u < v + 512))
    issued := (u / 16, if c.issued.1 == u / 16 then c.issued.2 + 1 else 1)
    issuer := match tfind c.waves r.slot with | some w => some (r.slot, w.seed, x) | none => c.issuer })

/-- The lehr's count at every lane cycle of the nanosecond that ends (R222): above (D + 1) × 16 a throttle starts, charged to the context of
the wave that issued last (DESIGN CHOICE, log 74). -/
def State.lehrCount (s : State) (core : Nat) : State :=
  let n := clusterOf core
  let c := s.core core
  let d := s.declared core
  let last := s.laneCycle n
  let first := min last ((s.cluster n).edgesAt (s.ticks - 1) / 10 + 1)
  if c.throttle.isSome || (List.range (last + 1 - first)).all (fun j => decide (c.window (first + j) ≤ (d + 1) * 16)) then s
  else
    let s := s.updCore core (fun c => { c with throttle := some (s.now + 2000, if d == 0 then 4 else d) })
    let s := s.updCluster n (fun c => { c with thrcnt := min 65535 (c.thrcnt + 1) })
    let s := { s with mgmt := { s.mgmt with hourThrottle := s.mgmt.hourThrottle + 1 } }
    let s := match c.issuer with
      | some (slot, seed, x) =>
        ({ s with ubcnt := tset s.ubcnt x (satInc (tget 0 s.ubcnt x)) }).updWave ⟨core, slot⟩ (fun w => if w.seed == seed then { w with thr := true } else w)
      | none => s
    s.after 2000 (.throttleEnd (BitVec.ofNat 8 core))

/-- What the lehrs do by themselves: counts, announcements that were held, and admissions that an end has made possible (R217, R220,
R222). -/
def State.lehrScan (s : State) : State :=
  let s := s.each ((s.cores.filter (fun (p : Nat × Core) => !p.2.units.isEmpty)).map (fun p => p.1)) State.lehrCount
  let s := s.tellAll
  s.posts (((List.range 16).filter (fun n => match s.nextBurst n with
    | some p => s.burstFits n p.2.int || !(s.timers.any (fun (t : Timer) => some t.due == s.roomAt n && t.what == .burstAdmit (BitVec.ofNat 4 n)))
    | none => false)).map (fun n => .burstAdmit (BitVec.ofNat 4 n)))

/-- PWRCAP_LOWER (R27, R223). -/
def execPwrcapLower (s : State) : Out :=
  .next { s with pwrcap := if s.pwrcap.toNat ≤ 4 then 4 else s.pwrcap - 1, modl := { s.modl with plimev := true } }

/-- PWRCAP_RAISE (R223). -/
def execPwrcapRaise (s : State) : Out := .next { s with pwrcap := if 16 ≤ s.pwrcap.toNat then 16 else s.pwrcap + 1 }

/-! Calibration (R226) -/

/-- CALIBRATION_PASS (R226): a due cluster that meets the idle condition begins a pass. -/
def execCalibrationPass (n : BitVec 4) (s : State) : Out :=
  let i := n.toNat
  let c := s.cluster i
  if !s.calDue i || !s.idleLong i || c.gated || c.gateStart.isSome || c.calibrating || c.wakeAt.isSome then .next s
  else .next (s.setCluster i { c with calibrating := true })

/-- CALIBRATION_DONE (R226, R179): MARGIN is written, and the gate sequence starts; the next pass is due after CALPER. -/
def execCalibrationDone (n : BitVec 4) (mdbl meq mhalf : BitVec 5) (s : State) : Out :=
  let i := n.toNat
  let c := s.cluster i
  if !c.calibrating then .next s
  else
    let s := s.setCluster i { c with calibrating := false, valid := true, mdbl := mdbl, meq := meq, mhalf := mhalf, lastCal := s.now }
    let s := s.each [mdbl, meq, mhalf] (fun s (m : BitVec 5) => s.bin (6 * 32 + m.toNat))
    let s := s.after (1000000000 * max 1 c.calper.toNat) (.calibrationPass n)
    .next (if (s.die (i / 8)).gateen then s.startGate i else s)

end Sys2Proof.Machine
end

