-- ==== Sys2Proof/Machine/Preempt.lean ====
section
/-! DEFINITION. Wakes of sleeping fragments, the watchdog, the trap compactor's handler waves, and pre-emption (R284, R285,
R303 to R306, R311 to R317, R495, R496). -/

namespace Sys2Proof.Machine

/-! Wakes (R284, R285) -/

/-- A fragment still held back by a release group (R221). -/
def State.heldBack (s : State) (r : WaveRef) (f : Nat) : Bool :=
  (s.core r.core).release.any (fun e => e.2.contains (r.slot, f))

/-- FRAGMENT_WAKE (R284): a write fell on a watched line. -/
def execFragmentWake (r : WaveRef) (f : Nat) (s : State) : Out :=
  match ((s.wave? r).bind (fun w => w.frag? f)).bind (fun f => f.sleep) with
  | some sl => .next (if sl.woken && !s.heldBack r f then s.wake r f true else s)
  | none => .next s

/-- WATCH_BACKOFF_WAKE (R285). -/
def execWatchBackoffWake (r : WaveRef) (f : Nat) (s : State) : Out :=
  match (s.wave? r).bind (fun w => w.frag? f) with
  | some g => (match g.sleep with
    | some sl => .next (if sl.refused && sl.since + watchBackoff (g.refusals - 1) ≤ s.now then s.wake r f false else s)
    | none => .next s)
  | none => .next s

/-- EMPTY_READ_SET_WAKE (R284). -/
def execEmptyReadSetWake (r : WaveRef) (f : Nat) (s : State) : Out :=
  match ((s.wave? r).bind (fun w => w.frag? f)).bind (fun f => f.sleep) with
  | some sl => .next (if sl.lines.isEmpty && !sl.refused && sl.since + 64000 ≤ s.now then s.wake r f false else s)
  | none => .next s

/-- WCB_DRAIN (R254): 128 front cycles after the first store. -/
def execWcbDrain (core : BitVec 8) (line : Nat) (s : State) : Out :=
  match (s.core core.toNat).wcb.find? (fun e => e.line == line) with
  | some e => .next (if e.time + front 128 ≤ s.now then s.drainLine core.toNat line else s)
  | none => .next s

/-! The watchdog (R311) -/

/-- An access or a fetch of the wave, or of an engine that works for it, waits for RESOLVE. -/
def State.awaitsResolve (s : State) (r : WaveRef) (w : Wave) : Bool :=
  (s.core r.core).matrix.any (fun m => m.slot == r.slot && m.octets.any (fun o => o.fault.isSome)) ||
    (s.core r.core).sweeps.any (fun m => m.slot == r.slot && m.fault.isSome) || s.asyncs.any (fun (o : AsyncOp) => o.w == r && o.fault.isSome) ||
    w.ops.any (fun (o : Op) => o.parts.any (fun p => p.fault.isSome)) ||
    s.pend.any (fun (p : Pending) => match p.waiter with
      | .fetch q _ | .clause q _ | .op q _ | .txn q _ => q == r
      | _ => false)

/-- An access or a fetch of one fragment, or of an engine that works for it, waits for RESOLVE; an operation of a counter is every
fragment's, since the wave shares the counters (DEDUCED, log 51). -/
def State.fragAwaits (s : State) (r : WaveRef) (w : Wave) (f : Fragment) : Bool :=
  (s.core r.core).matrix.any (fun m => m.slot == r.slot && w.owns f m.frag && m.octets.any (fun o => o.fault.isSome)) ||
    (s.core r.core).sweeps.any (fun m => m.slot == r.slot && w.owns f m.frag && m.fault.isSome) ||
    s.asyncs.any (fun (o : AsyncOp) => o.w == r && o.fault.isSome) ||
    w.ops.any (fun (o : Op) => w.owns f o.frag && o.parts.any (fun p => p.fault.isSome)) ||
    s.pend.any (fun (p : Pending) => match p.waiter with
      | .fetch q k | .clause q k | .txn q k => q == r && k == f.id
      | _ => false)

/-- A fragment's wait does not count for the watchdog now: it waits for RESOLVE, or the die's watchdog does not run (R311). -/
def State.uncounted (s : State) (r : WaveRef) (w : Wave) (f : Fragment) : Bool := !(s.die (dieOf r.core)).wden || s.fragAwaits r w f

/-- Time `dt` passes in which waits that do not count for the watchdog stand still: their start moves along (R311; DEDUCED, log 51). -/
def State.shiftWaits (s : State) (dt : Nat) : State :=
  if s.pend.isEmpty && s.dies.all (fun (d : Nat × Die) => d.2.wden) then s
  else s.each (s.allWaves.filter (fun (p : WaveRef × Wave) => p.2.frags.any (fun f => f.waitSince.isSome && s.uncounted p.1 p.2 f))) (fun s p =>
    s.updWave p.1 (fun w => { w with frags := w.frags.map (fun f => if s.uncounted p.1 p.2 f then { f with waitSince := f.waitSince.map (fun t => t + dt) } else f) }))

/-- WATCHDOG_EXPIRY (R311). -/
def execWatchdogExpiry (r : WaveRef) (f : Nat) (s : State) : Out :=
  let d := s.die (dieOf r.core)
  match s.wave? r with
  | none => .next s
  | some w =>
    match (w.frag? f).bind (fun g => g.waitSince) with
    | none => .next s
    | some t =>
      let lim := 1000 * max 1 d.wdt.toNat
      if !d.wden then .next s
      else if s.now < t + lim then .next (s.atTime (t + lim) (.watchdogExpiry r f))
      else .next (s.fatalCtx w.ctx 3 true)

/-! Handler waves (R303 to R305) -/

/-- When a group is ready. -/
def Group.readyAt (g : Group) : Nat :=
  match g.ready with
  | some t => t
  | none => lanesDue g.lanes

/-- A handler wave at its start (R304). -/
def handlerWave (ctx launch : Nat) (args : DWord) (entry : DWord) (l : List HeldLane) (seed : Nat) : Wave :=
  let m := maskFrom (fun i => decide (i < l.length))
  let col (k : Nat) (f : HeldLane → Word) : List Word := (List.range 96).map (fun i => match l[i]? with | some h => f h | none => Config.freeLane seed k i)
  { bslot := 0, widx := 0, ctx := ctx, launch := launch, kid := 0, nregs := 64, order := 0, seed := seed, handler := true, sreg := []
    vreg := [(0, col 0 originTag), (1, col 1 (fun h => h.v1)), (2, col 2 (fun h => h.addr.truncate 32)), (3, col 3 (fun h => (h.addr >>> 32).truncate 32))]
    guards := (List.range 15).map (fun g => (g + 1, maskFrom (fun i => Config.freeGuard seed (g + 1) i)))
    xslot := [], flags := [], xmax := 0, vstat := 0, rngs := 0, trapv := entry, ix := List.replicate 8 0, nx := List.replicate 8 0
    fdid := 0, rank := 0, args := args, tickets := [], wideRet := [], clamp := false, thr := false, bad := false, decl := none, woke := false, ccnt := 0
    txcode := 0, txcause := 0, txn := none, frags := [firstFragment entry m], ops := [], nextFrag := 1, nextSplit := 1, pendS := []
    phase := 0, part := 0 }

/-- HANDLER_LAUNCH (R303, R304): the group that has been ready longest, when the handler slot is free. -/
def execHandlerLaunch (core : BitVec 8) (s : State) : Out :=
  let n := core.toNat
  let c := s.core n
  if (tfind c.waves 32).isSome then .next s
  else match minBy Group.readyAt (c.groups.filter (fun g => decide (g.readyAt ≤ s.now))) with
    | none => .next s
    | some g =>
      let take := g.lanes.take 96
      let rest := g.lanes.drop 96
      let others := c.groups.filter (fun h => !(h.ctx == g.ctx && h.entry == g.entry))
      let (seed, s) := s.fresh
      let origin := take.head?.bind (fun h => tfind c.waves h.slot)
      let w := handlerWave g.ctx (origin.elim 0 (fun w => w.launch)) (origin.elim 0 (fun w => w.args)) g.entry take (seed * 16)
      let s := s.updCore n (fun c => { c with
        groups := match rest with
          | [] => others
          | _ => others ++ [⟨g.ctx, g.entry, rest, lanesReady s.now rest⟩]
        waves := tset c.waves 32 w
        handling := take.map (fun h => (h, false)) })
      match rest with
      | [] => .next s
      | h :: _ => .next (s.atTime (max s.now (h.time + front 512)) (.handlerLaunch core))

/-- A held lane is resumed with an action: 0 continue, 1 re-execute, 2 kill (R302). -/
def State.resumeLane (s : State) (core : Nat) (h : HeldLane) (action : Nat) : State :=
  let r : WaveRef := ⟨core, h.slot⟩
  let m : LaneMask := BitVec.ofNat 96 (at_ 1 h.lane)
  let s := s.updWave r (fun w =>
    let w := w.updFrag h.frag (fun (f : Fragment) => { f with held := f.held.map (fun (k : Held) => match action with
      | 0 => { k with contMask := k.contMask ||| m }
      | 1 => { k with redoMask := k.redoMask ||| m }
      | _ => { k with killMask := k.killMask ||| m }) })
    w.resumeHeld s.nextId h.frag)
  s.waveExitCheck r

/-- The handler has exited (R305): lanes that it has not resumed are killed, and the slot is free. -/
def State.endHandler (s : State) (core : Nat) : State :=
  let left := ((s.core core).handling.filter (fun p => !p.2)).map (fun p => p.1)
  let s := s.updCore core (fun c => { c with waves := tdel c.waves 32, handling := [] })
  let s := s.each left (fun s h => s.resumeLane core h 2)
  s.post (.handlerLaunch (BitVec.ofNat 8 core))

/-! Pre-emption: boundaries and saves (R312 to R314) -/

/-- Bytes of a block's image (R314). -/
def imageSize (wpb lregq scrq : Nat) : Nat := (65536 + wpb * lregq * 6144 + scrq * 4096 + 4095) / 4096 * 4096

/-- A wave is at a boundary (R312). -/
def Wave.atBoundary (w : Wave) : Bool :=
  w.frags.all (fun f => (f.st == .sleeping || f.st == .phase || f.st == .joined) && f.queue.isEmpty && f.run.isNone && f.held.isNone) &&
    w.flags.all (fun p => p.2 == 0) && w.ops.isEmpty && w.pendS.isEmpty && w.tickets.all (fun (p : Nat × List Ticket) => p.2.isEmpty)

/-- A block is at a boundary. -/
def State.atBoundary (s : State) (core bslot : Nat) : Bool :=
  let c := s.core core
  match tfind c.blocks bslot with
  | none => false
  | some b =>
    b.waves.all (fun i => match tfind c.waves i with | some w => w.atBoundary && !s.awaitsResolve ⟨core, i⟩ w | none => true) &&
      !(c.groups.any (fun g => g.lanes.any (fun l => l.bslot == bslot))) && !(c.handling.any (fun p => p.1.bslot == bslot))

/-- The blocks saved together with one: those of its cluster group, else itself. -/
def State.saveUnit (s : State) (core bslot : Nat) : List (Nat × Nat) :=
  match tfind (s.core core).blocks bslot with
  | none => []
  | some b => match b.row with
    | none => [(core, bslot)]
    | some r => (List.range 12).flatMap (fun i =>
        let k := clusterOf core * 12 + i
        ((s.core k).blocks.filter (fun (p : Nat × Block) => p.2.row == some r && p.2.launch == b.launch)).map (fun p => (k, p.1)))

/-- The image size of a resident block. -/
def State.blockImage (s : State) (core bslot : Nat) : Nat :=
  match tfind (s.core core).blocks bslot with
  | none => 0
  | some b => imageSize b.wpb (match s.run? b.launch with | some r => r.lrec.lregq | none => 1) b.scrq

/-- Resident blocks of a context. -/
def State.residents (s : State) (x : Nat) : List (Nat × Nat) :=
  s.cores.flatMap (fun (c : Nat × Core) => (c.2.blocks.filter (fun (b : Nat × Block) => b.2.ctx == x)).map (fun b => (c.1, b.1)))

/-- Bytes of the save area that the manual calls internal (log 3). -/
def freeBytes (n len : Nat) : List Byte := (List.range len).map (fun i => Config.freeImage n i)

/-- A fault of the device on the save area (R496). -/
def State.saveFault (s : State) (x die acc k va : Nat) : State :=
  if k == 3 then s.fatalCtx x 6 true
  else
    let (f, s) := s.memFault x k acc 7 die va (.save x)
    s.updCtx x (fun c => { c with savefault := some f })

/-- One block becomes an image (R313, R495): what its core's write-combining buffer holds is performed before it leaves, since it may go on
elsewhere (R269). -/
def State.saveBlock (s : State) (x core bslot off : Nat) : State :=
  let s := s.drainAll core
  match tfind (s.core core).blocks bslot, s.ctx? x with
  | some b, some c =>
    let (id, s) := s.fresh
    let ws := b.waves.filterMap (fun i => tfind (s.core core).waves i)
    let ws := ws.map (fun (w : Wave) => { w with decl := none, clamp := false, thr := false, bad := false })
    let bytes := ((List.range (b.scrq * 4096)).map (fun o => (o, Memory.read s.mem (scrKey core (b.sbase * 4096 + o))))).filter (fun p => p.2 != Memory.empty)
    let woken := ws.any (fun (w : Wave) => w.frags.any (fun f => match f.sleep with | some sl => sl.woken | none => false))
    let im : Image := ⟨id, off, b.launch, b.kid, b, ws, bytes, core, woken, c.drains⟩
    let last := !((s.core core).blocks.any (fun (p : Nat × Block) => p.1 != bslot && p.2.ctx == x))
    let words := if last then ((s.core core).bound.filter (fun p => p.2 == x)).map (fun p =>
        (im.home, p.1, BitVec.ofNat 64 (leNat (s.bytesAt (barKey core (8 * p.1)) 8)))) else []
    let s := s.updCtx x (fun c => { c with images := c.images ++ [im], words := c.words ++ words })
    let s := s.updRun b.launch (fun (r : Run) => { r with blocks := r.blocks.set b.kid (.saved id) })
    s.removeBlock core bslot
  | _, _ => s

/-- The die whose dispatcher writes the save header: that of the block saved last, else that of a queue of the context (DEDUCED, log 96:
R496 names the dispatcher of the die). -/
def State.saveDie (s : State) (x : Nat) (c : Ctx) : Nat :=
  match c.images.getLast?, s.queues.find? (fun (q : Nat × Queue) => q.2.ctx == some x) with
  | some im, _ => dieOf im.core
  | none, some q => q.1 / 32
  | none, none => 0

/-- The save header's fields are written, from the offset that the next image would take (R314); `bytes`: the rest of it. -/
def State.writeHeader (s : State) (x : Nat) (c : Ctx) (bytes : List Byte) : State :=
  let used := if c.used == 0 then 65536 else c.used
  let die := s.saveDie x c
  match s.devWrite (dispUnit die) x c.save.toNat (leBytes 8 c.images.length ++ leBytes 8 used ++ leBytes 8 s.now ++ bytes) with
  | (.error (k, va), s) => s.saveFault x die 1 k va
  | (.ok _, s) => s.updCtx x (fun c => { c with pmst := 2, drainBy := none, used := used })

/-- With no block of a draining context resident, the header is written and STATE becomes SAVED (R313). -/
def State.savedCheck (s : State) (x : Nat) : State :=
  match s.ctx? x with
  | none => s
  | some c =>
    if c.pmst != 1 || !(s.residents x).isEmpty || c.savefault.isSome then s
    else
      let (n, s) := s.takeFree
      s.writeHeader x c (freeBytes n 0xFFE8)

/-- BLOCK_SAVE (R313, R314, R496): `blk` is core × 16 + resident block slot. A block, or a cluster group, at a boundary is
written to the save area, if its images fit. -/
def execBlockSave (x : BitVec 8) (blk : Nat) (s : State) : Out :=
  let i := x.toNat
  let core := blk / 16
  let u := s.saveUnit core (blk % 16)
  match s.ctx? i with
  | none => .next s
  | some c =>
    if c.pmst != 1 || c.savefault.isSome || u.isEmpty || !(u.all (fun p => s.atBoundary p.1 p.2)) ||
        !((tfind (s.core core).blocks (blk % 16)).any (fun b => b.ctx == i)) then .next s
    else
      let start := if c.used == 0 then 65536 else c.used
      let size := sumNat (u.map (fun p => s.blockImage p.1 p.2))
      if c.savelen.toNat < start + size then .next (s.updCtx i (fun c => { c with nospace := true }))
      else
        let (n, s) := s.takeFree
        match s.devWrite (dispUnit (dieOf core)) i (c.save.toNat + start) (freeBytes n size) with
        | (.error (k, va), s) => .next (s.saveFault i (dieOf core) 1 k va)
        | (.ok _, s) =>
          let s := (u.foldl (fun (acc : State × Nat) p => (acc.1.saveBlock i p.1 p.2 acc.2, acc.2 + acc.1.blockImage p.1 p.2)) (s, start)).1
          .next ((s.updCtx i (fun c => { c with used := start + size })).savedCheck i)

/-- Blocks of draining contexts that are at a boundary and fit are to be saved; NOSPACE where one does not fit. With no block
left resident the context is SAVED. -/
def State.drainScan (s : State) : State :=
  s.each ((s.ctxs.filter (fun c => c.2.pmst == 1 && c.2.savefault.isNone)).map (fun c => c.1)) (fun s x =>
    (s.each (s.residents x) (fun s p =>
      let u := s.saveUnit p.1 p.2
      if !(u.all (fun q => s.atBoundary q.1 q.2)) then s
      else match s.ctx? x with
        | none => s
        | some c =>
          let start := if c.used == 0 then 65536 else c.used
          if c.savelen.toNat < start + sumNat (u.map (fun q => s.blockImage q.1 q.2)) then
            (if c.nospace then s else s.updCtx x (fun c => { c with nospace := true }))
          else s.post (.blockSave (BitVec.ofNat 8 x) (p.1 * 16 + p.2)))).savedCheck x)

/-! PMCTL (R313, R315, R316) -/

/-- REQ: whether it had an effect. -/
def State.pmReq (s : State) (x : Nat) : Bool × State :=
  match s.ctx? x with
  | none => (true, s)
  | some c =>
    if c.pmst == 0 || c.pmst == 3 then
      let t := s.now + 1000 * max 1 c.deadline.toNat
      (true, (s.setCtx x { c with pmst := 1, drainBy := some t, drains := c.drains + 1 }).atTime t (.preemptionDeadline (BitVec.ofNat 8 x)))
    else (false, s)

/-- RESTORE: whether it had an effect. -/
def State.pmRestore (s : State) (x : Nat) : Bool × State :=
  match s.ctx? x with
  | none => (true, s)
  | some c =>
    if c.pmst == 2 then (true, (s.setCtx x { c with pmst := 3 }).post (.restorePlace (BitVec.ofNat 8 x)))
    else (false, s)

/-- BADREQ. -/
def State.pmBad (s : State) (x : Nat) : State := s.updCtx x (fun c => { c with badreq := true })

/-- PMCTL_REQ (R313, R316): REQ in DRAINING or SAVED has no effect. -/
def execPmctlReq (x : BitVec 8) (s : State) : Out := .next (((s.pmReq x.toNat).2).savedCheck x.toNat)
/-- PMCTL_RESTORE (R315, R316). -/
def execPmctlRestore (x : BitVec 8) (s : State) : Out :=
  let (ok, s) := s.pmRestore x.toNat
  .next (if ok then s else s.pmBad x.toNat)

/-- A write of PMCTL (R316, R317): DEADLINE, then REQ, then RESTORE on the state that REQ left. -/
def State.writePmctl (s : State) (x v : Nat) : State :=
  if (s.ctx? x).isNone then s
  else
    let s := s.updCtx x (fun c => { c with deadline := BitVec.ofNat 20 (v / 4096) })
    let both := bit v 0 && bit v 1
    let s := if bit v 0 then (let (ok, s) := s.pmReq x; if ok || !both then s else s.pmBad x) else s
    let s := if bit v 1 then (let (ok, s) := s.pmRestore x; if ok then s else s.pmBad x) else s
    s.savedCheck x

/-- PREEMPTION_DEADLINE (R313). -/
def execPreemptionDeadline (x : BitVec 8) (s : State) : Out :=
  match s.ctx? x.toNat with
  | none => .next s
  | some c => match c.drainBy with
    | some t => .next (if c.pmst == 1 && t ≤ s.now then s.fatalCtx x.toNat 4 true else s)
    | none => .next s

/-! Restore (R315, R495) -/

/-- The lowest launch level within which blocks are restored together: the gang, else the cluster group. -/
def Run.togetherOf (run : Run) (b : Nat) : Nat :=
  let r := run.lrec
  if 2 < r.gangLevel && r.groupSize ≤ r.unitBlocks r.gangLevel then b / r.unitBlocks r.gangLevel else if r.groupLevel.isSome then b / r.groupSize else b

/-- Images that must be placed with a set of images, one round: same gang or group, or same core with barrier words. -/
def State.closeUnit (s : State) (c : Ctx) (u : List Image) : List Image :=
  c.images.filter (fun im => u.any (fun v => v.id == im.id ||
    (v.launch == im.launch && (match s.run? im.launch with | some r => r.togetherOf im.kid == r.togetherOf v.kid | none => false)) ||
    (v.home == im.home && c.words.any (fun w => w.1 == im.home))))

/-- The unit of images of the first one. -/
def State.restoreUnit (s : State) (c : Ctx) : List Image :=
  match c.images with
  | [] => []
  | im :: _ => (List.range c.images.length).foldl (fun u _ => s.closeUnit c u) [im]

/-- One planned image; whether it takes a relabel row, with how many others. -/
structure RPlan where
  im   : Image
  plan : Plan
  row  : Bool := false
  size : Nat := 1
  deriving DecidableEq, Repr

/-- The cores on which an image may stand, beside what is planned already: its queue's die, or for a gang its domain instance (R186,
R197); the core of its word set; in a group the cluster of its group and another core, where a relabel row is free for the group. -/
def State.imageCores (s : State) (c : Ctx) (run : Run) (im : Image) (done : List RPlan) (cluster : Nat) : List Nat :=
  let words := (c.words.filter (fun w => w.1 == im.home)).map (fun w => w.2.1)
  let mates := done.filter (fun p => p.im.launch == im.launch && p.im.kid / run.lrec.groupSize == im.kid / run.lrec.groupSize)
  let together := done.find? (fun p => p.im.home == im.home && !words.isEmpty)
  let gang := done.filter (fun p => p.im.launch == im.launch && run.togetherOf p.im.kid == run.togetherOf im.kid)
  let dom := if 2 < run.lrec.gangLevel then run.lrec.domain run.lrec.gangLevel else 2
  let rows := (s.cluster cluster).rows.length + (dedup ((done.filter (fun p => p.row && clusterOf p.plan.core == cluster)).map (fun p =>
    p.im.launch * 0x1000000000000 + p.im.kid / p.size))).length
  ((List.range 12).map (fun i => cluster * 12 + i)).filter (fun k =>
    (dom == 3 || dieOf k == run.queue / 32) &&
    (dom != 1 || gang.all (fun p => clusterOf p.plan.core == cluster)) &&
    (dom != 0 || gang.all (fun p => p.plan.core == k)) &&
    (run.lrec.groupLevel.isNone || mates.all (fun p => p.plan.core != k && clusterOf p.plan.core == cluster)) &&
    (run.lrec.groupLevel.isNone || !mates.isEmpty || decide (rows < 64)) &&
    (match together with
     | some p => p.plan.core == k
     | none => words.all (fun i => (tfind (s.core k).bound i).isNone)))

/-- A plan for images one after another over the clusters of a domain: each where it fits, in the order of R198, so that the others fit
too. -/
def State.planImages (s : State) (x : Nat) (c : Ctx) (allow : Bool) (clusters : List Nat) : List Image → List CoreRes → List RPlan → Option (List RPlan)
  | [], _, acc => some acc
  | im :: l, res, acc =>
    match s.run? im.launch with
    | none => s.planImages x c allow clusters l res acc
    | some run =>
      (clusters.flatMap (fun n => corePlans run.lrec res (s.candidates run.comm (s.imageCores c run im acc n)) im.kid allow)).findSome? (fun p =>
        s.planImages x c allow clusters l (withPlan run.lrec res p) (acc ++ [⟨im, p, run.lrec.groupLevel.isSome, run.lrec.groupSize⟩]))

/-- The plan of a unit: within one instance of its narrowest gang's domain if it fits there, else in a wider one, each image where it may
stand. -/
def State.planRestore (s : State) (x : Nat) (c : Ctx) (u : List Image) (allow : Bool) : Option (List RPlan) :=
  let runs := u.filterMap (fun im => s.run? im.launch)
  match runs with
  | [] => none
  | r :: _ =>
    let doms := dedup ((runs.filter (fun r => decide (2 < r.lrec.gangLevel))).map (fun r => r.lrec.domain r.lrec.gangLevel))
    let has (d : Nat) : List (List Nat) := if doms.contains d then domainClusters (r.queue / 32) d else []
    (has 1 ++ domainClusters (r.queue / 32) 2 ++ has 3).findSome? (fun cl =>
      s.planImages x c allow cl u (cl.flatMap (fun n => (List.range 12).map (fun i => s.coreRes (n * 12 + i)))) [])

/-- Where a watched line of a restored fragment now lies (R315, R495). -/
def moveLine (ps : List RPlan) (l : Nat) : Nat :=
  let k := l * 128
  if k < 0x1000000000000 then l
  else if k < 0x2000000000000 then
    let core := (k - 0x1000000000000) / 0x100000
    let off := (k - 0x1000000000000) % 0x100000
    match ps.find? (fun p => p.im.core == core && decide (p.im.block.sbase * 4096 ≤ off) && decide (off < (p.im.block.sbase + p.im.block.scrq) * 4096)) with
    | some p => lineOf (scrKey p.plan.core (p.plan.base * 4096 + (off - p.im.block.sbase * 4096)))
    | none => l
  else if 0x8000000000000 ≤ k then
    let core := (k - 0x8000000000000) / 512
    match ps.find? (fun p => p.im.core == core) with
    | some p => lineOf (barKey p.plan.core ((k - 0x8000000000000) % 512))
    | none => l
  else l

/-- The watches of a sleeping fragment stand at their new homes after a restore (R292): one that its home cannot hold, and a sleep that
ends by itself, wake it after their time (R284, R285). -/
def State.watchAgain (s : State) (r : WaveRef) (fid : Nat) (lines : List Nat) : State :=
  match ((s.wave? r).bind (fun w => w.frag? fid)).bind (fun f => f.sleep.map (fun sl => (f.refusals, sl))) with
  | none => s
  | some (k, sl) =>
    let held := s.holdable lines false
    let fresh := held.2 && !sl.refused
    let k := if fresh then k + 1 else k
    let since := if fresh then s.now else sl.since
    let s := s.updFrag r fid (fun f => { f with refusals := k, sleep := some { sl with lines := held.1, refused := sl.refused || held.2, since := since } })
    if sl.refused || held.2 then s.atTime (max s.now (since + watchBackoff (k - 1))) (.watchBackoffWake r fid)
    else if lines.isEmpty then s.atTime (max s.now (since + 64000)) (.emptyReadSetWake r fid)
    else s

/-- One image takes its place. What the core's L1 holds of the context may be older than what its waves have seen elsewhere (R269), and is
dropped. -/
def State.placeImage (s : State) (x : Nat) (ps : List RPlan) (p : RPlan) (row : Option Nat) : State :=
  match s.run? p.im.launch with
  | none => s
  | some run =>
    let core := p.plan.core
    let bs := s.freeBslot core
    let slots := (s.freeWslots core).take p.im.waves.length
    let parts := ((s.coreRes core).partitions run.lrec).getD []
    let ws := (List.range p.im.waves.length).filterMap (fun i => (p.im.waves[i]?).map (fun (w : Wave) =>
      (slots.getD i 0, { w with
        bslot := bs, part := parts.getD w.widx 0
        frags := w.frags.map (fun (f : Fragment) => { f with sleep := f.sleep.map (fun sl =>
          { sl with lines := [], wokenAt := if sl.woken then some s.now else none }) }) })))
    let sleepers : List (WaveRef × Nat × List Nat) := (List.range p.im.waves.length).flatMap (fun i => match p.im.waves[i]? with
      | some (w : Wave) => w.frags.filterMap (fun (f : Fragment) => f.sleep.map (fun sl => (⟨core, slots.getD i 0⟩, f.id, sl.lines.map (moveLine (ps.filter (fun q => q.im.drain == p.im.drain))))))
      | none => [])
    let entry := if run.lrec.groupLevel.isSome then p.im.kid % run.lrec.groupSize else 0
    let blk : Block := { p.im.block with sbase := p.plan.base, row := row, entry := entry, waves := slots, parts := parts }
    let n := clusterOf core
    let words := match s.ctx? x with | some c => c.words.filter (fun (w : Nat × Nat × DWord) => w.1 == p.im.home) | none => []
    let s := (s.dropL1 core x).updCore core (fun c => { c with
      blocks := tset c.blocks bs blk
      waves := ws.foldl (fun t (w : Nat × Wave) => tset t w.1 w.2) c.waves
      bound := words.foldl (fun t (w : Nat × Nat × DWord) => tset t w.2.1 x) c.bound })
    let s := s.scrub (words.flatMap (fun (w : Nat × Nat × DWord) => cells (barKey core (8 * w.2.1)) (leBytes 8 w.2.2.toNat)))
    let s := s.scrub (p.im.bytes.map (fun b => (scrKey core (p.plan.base * 4096 + b.1), b.2)))
    let s := s.updCluster n (fun c => { c with
      idleSince := none
      relabel := match row with | some k => tset c.relabel (k * 12 + entry) (core % 12, p.plan.base) | none => c.relabel })
    let s := s.updRun run.id (fun (r : Run) => { r with blocks := r.blocks.set p.im.kid (.on core bs) })
    let s := s.updCtx x (fun c => { c with images := c.images.filter (fun im => im.id != p.im.id) })
    let s := (s.perfRequest n x run.lrec.plreq).each sleepers (fun s q => s.watchAgain q.1 q.2.1 q.2.2)
    s.posts (ws.flatMap (fun (w : Nat × Wave) => w.2.wakes ⟨core, w.1⟩))

/-- A fresh relabel row for the cluster group of a planned image, shared by its mates. -/
def State.rowsFor (s : State) (ps : List RPlan) : List (Nat × Nat × Nat) × State :=
  ps.foldl (fun (acc : List (Nat × Nat × Nat) × State) p =>
    match acc.2.run? p.im.launch with
    | none => acc
    | some run =>
      let g := p.im.kid / run.lrec.groupSize
      if run.lrec.groupLevel.isNone || acc.1.any (fun e => e.1 == run.id && e.2.1 == g) then acc
      else
        let n := clusterOf p.plan.core
        let row := ((List.range 64).find? (fun k => !(acc.2.cluster n).rows.contains k)).getD 0
        (acc.1 ++ [(run.id, g, row)], acc.2.updCluster n (fun c => { c with rows := c.rows ++ [row] }))) ([], s)

/-- RESTORE_PLACE (R315, R495, R496): one unit of images, when there is room and no dispatcher that it needs switches its image (R183); with the last one STATE becomes RUN. -/
def execRestorePlace (x : BitVec 8) (s : State) : Out :=
  let i := x.toNat
  match s.ctx? i with
  | none => .next s
  | some c =>
    if c.pmst != 3 || c.savefault.isSome then .next s
    else match s.restoreUnit c with
      | [] =>
        let s := s.updCtx i (fun c => { c with pmst := 0, used := 0, words := [] })
        let s := s.posts ((s.queues.filter (fun (q : Nat × Queue) => q.2.ctx == some i)).map (fun q => .recordStart (BitVec.ofNat 6 q.1)))
        .next (s.tryPlace.phaseCheckAll i)
      | u =>
        match s.planRestore i c u false with
        | none =>
          (match s.planRestore i c u true with
           | some ps => .next (s.each ps (fun s p => match p.plan.carve with | some k => s.askCarve p.plan.core k | none => s))
           | none => .next s)
        | some ps =>
          if ps.any (fun p => s.switching (1 + dieOf p.plan.core)) then .next s
          else
          let (ok, s) := s.rouseAll (64 + i) (dedup (ps.map (fun p => clusterOf p.plan.core)))
          if !ok then .next s
          else
            let go := ps.foldl (fun (acc : Except (Nat × Nat × Nat) Unit × State) (p : RPlan) => match acc with
              | (.error e, s) => (.error e, s)
              | (.ok _, s) =>
                let die := dieOf p.plan.core
                let n := (s.run? p.im.launch).elim 0 (fun r => imageSize p.im.block.wpb r.lrec.lregq p.im.block.scrq)
                match s.devRead (dispUnit die) i (c.save.toNat + p.im.off) n with
                | (.ok _, s) => (.ok (), s)
                | (.error e, s) => (.error (die, e), s)) (.ok (), s)
            match go with
            | (.error (die, k, va), s) => .next (s.saveFault i die 0 k va)
            | (.ok _, s) =>
              let (rows, s) := s.rowsFor ps
              let s := s.each ps (fun s p => s.placeImage i ps p (match s.run? p.im.launch with
                | some r => (rows.find? (fun e => e.1 == r.id && e.2.1 == p.im.kid / r.lrec.groupSize)).map (fun e => e.2.2)
                | none => none))
              let s := s.updCtx i (fun c => { c with words := c.words.filter (fun w => !ps.any (fun p => p.im.home == w.1)) })
              .next (s.post (.restorePlace x))

end Sys2Proof.Machine
end

