-- ==== Sys2Proof/Machine/Registers.lean ====
section
/-! DEFINITION. The fabric register space (R52 to R54, R60, R61, R69, R78, R81, R94, R96, R99, R139, R175, R185, R211, R228,
R252, R311, R317): reads and writes of one 32-bit register at an offset, by the access types of R11. Offsets that no register
has read 0 and ignore writes (R12). The manual gives TBSTAT and TBCTL no offset: the model puts them at 0x60_0004 and
0x60_0008 (DESIGN CHOICE, log 15). -/

namespace Sys2Proof.Machine

/-! Reads -/

/-- Registers of a port (R52 to R54). -/
def Port.reg (x : Port) (o : Nat) : Nat :=
  match o with
  | 0x00 => at_ x.grpmask.toNat 4 + x.target.toNat
  | 0x04 => x.opstat
  | 0x08 => at_ x.berth.toNat 16 + bnat x.loopbk
  | 0x10 => x.fecc.toNat
  | 0x14 => x.fecu.toNat
  | 0x18 => x.crce.toNat
  | 0x1C => x.rply.toNat
  | 0x20 => x.loss.toNat
  | _ => 0

/-- The fibre-delay entry of a port (R81). -/
def Port.delayReg (x : Port) (o : Nat) : Nat :=
  match o with
  | 0x0 => x.rtt0.toNat
  | 0x4 => at_ x.tcoef.toNat 16 + x.tref.toNat
  | 0x8 => at_ (bnat x.valid) 31 + x.rttc.toNat
  | 0xC => x.tused.toNat
  | _ => 0

/-- CIRCTL (R69). -/
def Circuit.ctl (c : Circuit) : Nat :=
  at_ c.st.toNat 28 + at_ c.status.toNat 24 + at_ c.retrymax.toNat 20 + at_ c.grpmask.toNat 16 + at_ (bnat c.slotted) 15 +
    at_ (bnat c.side) 14 + at_ c.attempts.toNat 10 + c.port.toNat

/-- Registers of a circuit table entry (R69). -/
def Circuit.reg (c : Circuit) (o : Nat) : Nat :=
  match o with
  | 0x00 => c.ctl
  | 0x04 => at_ c.peerdev.toNat 16 + c.peerport.toNat
  | 0x08 => at_ c.tver.toNat 16 + c.hopcnt.toNat
  | 0x0C => c.swtime.toNat
  | 0x10 => c.readyat.toNat % 2 ^ 32
  | 0x14 => c.readyat.toNat / 2 ^ 32
  | 0x18 => c.slotbase.toNat % 2 ^ 32
  | 0x1C => c.slotbase.toNat / 2 ^ 32
  | 0x20 => c.slotper.toNat
  | 0x24 => c.slotlen.toNat
  | 0x28 => c.guard.toNat
  | _ => if 0x40 ≤ o && o < 0x60 then (c.route.getD ((o - 0x40) / 4) 0).toNat else 0

/-- Registers of a script thread (R94). -/
def GThread.reg (g : GThread) (o : Nat) : Nat :=
  match o with
  | 0x0 => at_ g.st.toNat 30 + at_ g.fcause.toNat 16 + g.pc.toNat / 4 % 65536
  | 0x4 => (match g.ctx with | some x => x | none => 0xFFFF)
  | 0x8 => g.wake.toNat
  | 0xC => at_ g.dropped.toNat 16 + g.evq.length
  | _ => 0

/-- Registers of a program slot (R139). -/
def Crux.reg (x : Crux) (o : Nat) : Nat :=
  match o with
  | 0x04 => at_ x.st.toNat 29 + at_ (bnat x.degraded) 28 + at_ x.outst.length 24 + at_ x.loops.length 21 + x.step % 1024
  | 0x08 => (match x.ctx with | some c => c | none => 0xFFFF)
  | 0x0C => x.lc % 2 ^ 32
  | _ => if 0x80 ≤ o && o < 0x100 then (tget 0 x.skip ((o - 0x80) / 4)).toNat else 0

/-- Registers of a queue (R211). -/
def Queue.reg (h : Queue) (o : Nat) : Nat :=
  match o with
  | 0x0 => at_ (bnat h.ctx.isSome) 31 + at_ (bnat h.comm) 30 + at_ h.prio 27 + (match h.ctx with | some x => x | none => 0xFFFF)
  | 0x4 =>
    let gated := match h.head with | some hd => hd.lrec.wakegate && h.wake == 0 | none => false
    let dep := match h.head with | some hd => !hd.met.all id | none => false
    at_ h.rejcnt.toNat 24 + at_ (bnat gated) 23 + at_ (bnat dep) 22 + h.ptrs.length
  | 0x8 => h.wake.toNat
  | _ => 0

/-- Scheduler registers of a die (R211). -/
def Die.reg (d : Die) (o : Nat) : Nat :=
  match o with
  | 0x0 => at_ d.cur 16 + at_ d.max.toNat 8 + d.min.toNat
  | 0x4 => at_ (bnat d.gateen) 31 + d.idlefc.toNat
  | 0x8 => d.gcoll.toNat
  | 0xC => d.evq.length
  | _ => 0

/-- Power registers of a cluster (R215, R218, R220, R224, R226). -/
def State.powerReg (s : State) (n o : Nat) : Nat :=
  let c := s.cluster n
  match o with
  | 0x00 => at_ c.relsp.toNat 24 + at_ c.relgrp.toNat 20 + at_ c.ramp.toNat 8 + c.intv.toNat
  | 0x04 => at_ c.cur 30 + at_ c.tgt 28 + at_ (bnat c.change.isSome) 27
  | 0x08 => at_ (sumNat ((List.range 12).map (fun i => s.declared (n * 12 + i)))) 24 +
      at_ (min 255 (s.pendingDecls n).length) 16 + min 65535 c.thrcnt
  | 0x0C => at_ (bnat c.calen) 31 + at_ c.gband.toNat 16 + c.calper.toNat
  | 0x10 => at_ (bnat c.valid) 31 + at_ c.mdbl.toNat 10 + at_ c.meq.toNat 5 + c.mhalf.toNat
  | _ => if 0x40 ≤ o && o < 0x70 then
      let k := s.core (n * 12 + (o - 0x40) / 4)
      at_ k.drpcnt.toNat 24 + k.drpth.toNat
    else 0

/-- CARVE of a core (R252). -/
def Core.carveReg (c : Core) : Nat := at_ (bnat c.pend) 31 + at_ (if c.pend then c.tgt else 0) 24 + c.scr

/-- PMCTL and PMSTAT of a context (R317). -/
def State.pmReg (s : State) (x o : Nat) : Nat :=
  match o, s.ctx? x with
  | 0x0, some c => at_ c.deadline.toNat 12
  | 0x0, none => at_ 2000 12
  | 0x4, some c => at_ c.pmst.toNat 30 + at_ (bnat c.nospace) 29 + at_ (bnat c.badreq) 28 + c.images.length
  | _, _ => 0

/-- TBSTAT (R79). -/
def State.tbstat (s : State) : Nat := at_ (bnat (decide (s.errest.toNat ≤ 25))) 31 + at_ (bnat s.slotmiss) 30 + s.errest.toNat
/-- TBCTL (R79). -/
def State.tbctl (s : State) : Nat := at_ (bnat s.master) 31 + s.bper.toNat
/-- TVREG (R99). -/
def State.tvreg (s : State) : Nat := at_ s.tverseen.toNat 16 + s.tvercur.toNat
/-- FDIDCFG (R60). -/
def State.fdidcfg (s : State) : Nat := at_ (bnat s.fdidValid) 31 + s.fdid.toNat
/-- SVSTAT (R185). -/
def Mgmt.svstat (m : Mgmt) : Nat :=
  at_ m.linkdn.toNat 24 + at_ m.rejsrc.toNat 16 + at_ m.updpend.toNat 8 + at_ (bnat m.scrub) 1 + bnat m.ucerr

/-- A 32-bit read of the fabric register at an offset. -/
def State.fabRead (s : State) (off : Nat) : Nat :=
  let o := off / 4 * 4
  if 0x400000 ≤ o && o < 0x402000 then (s.port ((o - 0x400000) / 0x100)).reg (o % 0x100)
  else if 0x480000 ≤ o && o < 0x480200 then (s.port ((o - 0x480000) / 0x10)).delayReg (o % 0x10)
  else if 0x500000 ≤ o && o < 0x502000 then (s.circuit ((o - 0x500000) / 0x80)).reg (o % 0x80)
  else if o == 0x530000 then s.fdidcfg
  else if o == 0x530004 then s.epdrop.toNat
  else if 0x540000 ≤ o && o < 0x544000 then
    (match tfind s.route ((o - 0x540000) / 4) with | some (v, l) => at_ (bnat v) 31 + l.toNat | none => 0)
  else if 0x580000 ≤ o && o < 0x580100 then
    let c := s.circuit ((o - 0x580000) / 4)
    at_ c.owner.toNat 16 + c.bind.toNat
  else if o == 0x600000 then s.tvreg
  else if o == 0x600004 then s.tbstat
  else if o == 0x600008 then s.tbctl
  else if 0x620000 ≤ o && o < 0x620040 then (s.gth ((o - 0x620000) / 0x10)).reg (o % 0x10)
  else if o == 0x680000 then s.mgmt.mbwake.toNat
  else if o == 0x680004 then s.mgmt.svstat
  else if 0x700000 ≤ o && o < 0x800000 && o % 0x80000 < 0x1000 then
    (s.cx ((o - 0x700000) / 0x80000 * 16 + o % 0x80000 / 0x100)).reg (o % 0x100)
  else if 0x900000 ≤ o && o < 0x900400 then (s.hq ((o - 0x900000) / 0x10)).reg (o % 0x10)
  else if 0x910000 ≤ o && o < 0x910200 then (s.die ((o - 0x910000) / 0x100)).reg (o % 0x100)
  else if 0x920000 ≤ o && o < 0x930000 then
    let row := o % 0x1000 / 0x40
    let c := o % 0x40 / 4
    (match (if c < 12 then tfind (s.cluster ((o - 0x920000) / 0x1000)).relabel (row * 12 + c) else none) with
    | some (k, b) => at_ 1 31 + at_ k 16 + b
    | none => 0)
  else if 0xA00000 ≤ o && o < 0xA01000 then s.powerReg ((o - 0xA00000) / 0x100) (o % 0x100)
  else if 0xA80000 ≤ o && o < 0xA80400 then (tget 0 s.ubcnt ((o - 0xA80000) / 4)).toNat
  else if o == 0xA90000 then s.pwrcap.toNat
  else if 0xB00000 ≤ o && o < 0xB00C00 && o % 0x10 == 0 then (s.core ((o - 0xB00000) / 0x10)).carveReg
  else if 0xB80000 ≤ o && o < 0xB81000 then s.pmReg ((o - 0xB80000) / 0x10) (o % 0x10)
  else if o == 0xB90000 || o == 0xB90004 then
    let d := s.die ((o - 0xB90000) / 4)
    at_ (bnat d.wden) 31 + d.wdt.toNat
  else 0

/-! Writes -/

/-- A write to a port's registers: OPCTL, the W1C flags of OPSTAT, OPCFG. -/
def State.portWrite (s : State) (p o v : Nat) : State :=
  let x := s.port p
  match o with
  | 0x00 => s.writeOpctl p v
  | 0x04 => s.setPort p { x with
      vermis := w1c x.vermis v 8, laserlost := w1c x.laserlost v 7, lockfail := w1c x.lockfail v 6
      lockloss := w1c x.lockloss v 5, drainlost := w1c x.drainlost v 4, berhigh := w1c x.berhigh v 3
      badreq := w1c x.badreq v 2, caldone := w1c x.caldone v 0 }
  | 0x08 => s.setPort p { x with berth := BitVec.ofNat 16 (v / 65536), loopbk := bit v 0 }
  | _ => s

/-- A write to a circuit table entry: its RW fields, in FREE and FAILED only (R69). -/
def State.circuitWrite (s : State) (e o v : Nat) : State :=
  let c := s.circuit e
  if c.st != 0 && c.st != 6 then s
  else
    let c' : Circuit := match o with
      | 0x00 => { c with
          retrymax := BitVec.ofNat 4 (v >>> 20), grpmask := BitVec.ofNat 4 (v >>> 16), slotted := bit v 15, port := BitVec.ofNat 5 v }
      | 0x04 => { c with peerdev := BitVec.ofNat 12 (v >>> 16), peerport := BitVec.ofNat 5 v }
      | 0x08 => { c with hopcnt := BitVec.ofNat 4 v }
      | 0x18 => { c with slotbase := BitVec.ofNat 64 (c.slotbase.toNat / 2 ^ 32 * 2 ^ 32 + v) }
      | 0x1C => { c with slotbase := BitVec.ofNat 64 (c.slotbase.toNat % 2 ^ 32 + v * 2 ^ 32) }
      | 0x20 => { c with slotper := BitVec.ofNat 32 v }
      | 0x24 => { c with slotlen := BitVec.ofNat 32 v }
      | 0x28 => { c with guard := BitVec.ofNat 16 v }
      | _ => if 0x40 ≤ o && o < 0x60 then { c with route := c.route.set ((o - 0x40) / 4) (BitVec.ofNat 32 v) } else c
    s.setCircuit e c'

/-- TBCTL (R78): a new master's first beacon comes after BPER. -/
def State.writeTbctl (s : State) (v : Nat) : State :=
  let running := s.timers.any (fun t => match t.what with | .beaconPeriod => true | _ => false)
  let s := { s with master := bit v 31, bper := BitVec.ofNat 20 v }
  if s.master && !running then s.after (max 10000 s.bper.toNat) .beaconPeriod else s

/-- A write to a slot's registers: CRCTL, and CRSKIP while PAUSED (R139, R140). -/
def State.slotWrite (s : State) (i o v : Nat) : State :=
  if o == 0 then
    let s := if bit v 0 then s.cruPause i else s
    let s := if bit v 1 then s.cruResume i else s
    if bit v 2 then s.cruAbort i else s
  else if 0x80 ≤ o && o < 0x100 && (s.cx i).st == 4 then
    s.setCx i { s.cx i with skip := tset (s.cx i).skip ((o - 0x80) / 4) (BitVec.ofNat 32 v) }
  else s

/-- The idle clusters of a die are looked at again when IDLEFC or GATEEN may have changed (R207). -/
def State.rearmIdle (s : State) (d : Nat) : State :=
  s.each (List.range 8) (fun s i =>
    let n := d * 8 + i
    match (s.cluster n).idleSince with
    | some t =>
      let t := max s.now (t + front (max 1 (s.die d).idlefc.toNat))
      (s.atTime t (.calibrationPass (BitVec.ofNat 4 n))).atTime t (.gateSequenceStart (BitVec.ofNat 4 n))
    | none => s)

/-- A write to a die's scheduler registers. -/
def State.dieWrite (s : State) (d o v : Nat) : State :=
  match o with
  | 0x0 => s.writeComres d v
  | 0x4 => (s.setDie d { s.die d with gateen := bit v 31, idlefc := BitVec.ofNat 20 v }).rearmIdle d
  | _ => s

/-- A write to a cluster's power registers: CSLOPE, CALCFG, DRPTH. -/
def State.powerWrite (s : State) (n o v : Nat) : State :=
  match o with
  | 0x00 => (s.updCluster n (fun c => { c with
      relsp := BitVec.ofNat 8 (v >>> 24), relgrp := BitVec.ofNat 4 (v >>> 20), ramp := BitVec.ofNat 8 (v >>> 8), intv := BitVec.ofNat 8 v })).post
        (.burstAdmit (BitVec.ofNat 4 n))
  | 0x0C =>
    let s := s.updCluster n (fun c => { c with calen := bit v 31, gband := BitVec.ofNat 5 (v >>> 16), calper := BitVec.ofNat 16 v })
    let c := s.cluster n
    s.atTime (max s.now (c.lastCal + 1000000000 * max 1 c.calper.toNat)) (.calibrationPass (BitVec.ofNat 4 n))
  | _ => if 0x40 ≤ o && o < 0x70 then s.updCore (n * 12 + (o - 0x40) / 4) (fun c => { c with drpth := BitVec.ofNat 8 v }) else s

/-- WDCFG (R311): waits under way count against the new limit. -/
def State.writeWdcfg (s : State) (d v : Nat) : State :=
  let s := s.setDie d { s.die d with wden := bit v 31, wdt := BitVec.ofNat 20 v }
  if !bit v 31 then s
  else s.each s.allWaves (fun s (p : WaveRef × Wave) =>
    if dieOf p.1.core != d then s
    else s.each p.2.frags (fun s (f : Fragment) => match f.waitSince with
      | some t => s.atTime (max s.now (t + 1000 * max 1 (s.die d).wdt.toNat)) (.watchdogExpiry p.1 f.id)
      | none => s))

/-- PMCTL, and the W1C flags of PMSTAT (R317). -/
def State.pmWrite (s : State) (x o v : Nat) : State :=
  match o with
  | 0x0 => s.writePmctl x v
  | 0x4 => s.updCtx x (fun c => { c with nospace := w1c c.nospace v 29, badreq := w1c c.badreq v 28 })
  | _ => s

/-- A 32-bit write to the fabric register at an offset. -/
def State.fabWrite (s : State) (off v : Nat) : State :=
  let o := off / 4 * 4
  let v := v % 2 ^ 32
  if 0x400000 ≤ o && o < 0x402000 then s.portWrite ((o - 0x400000) / 0x100) (o % 0x100) v
  else if 0x480000 ≤ o && o < 0x480200 then
    (if o % 0x10 == 4 then
      let p := (o - 0x480000) / 0x10
      s.setPort p { s.port p with tcoef := BitVec.ofNat 16 (v >>> 16), tref := BitVec.ofNat 16 v }
    else s)
  else if 0x500000 ≤ o && o < 0x502000 then s.circuitWrite ((o - 0x500000) / 0x80) (o % 0x80) v
  else if o == 0x530000 then s.writeFdid v
  else if 0x540000 ≤ o && o < 0x544000 then { s with route := tset s.route ((o - 0x540000) / 4) (bit v 31, BitVec.ofNat 3 v) }
  else if o == 0x600004 then { s with slotmiss := w1c s.slotmiss v 30 }
  else if o == 0x600008 then s.writeTbctl v
  else if 0x620000 ≤ o && o < 0x620040 then
    (if o % 0x10 == 8 then s.writeGwake ((o - 0x620000) / 0x10) (BitVec.ofNat 32 v) else s)
  else if o == 0x680000 then s.writeMbwake (BitVec.ofNat 32 v)
  else if o == 0x680004 then { s with mgmt := { s.mgmt with ucerr := false } }
  else if 0x700000 ≤ o && o < 0x800000 && o % 0x80000 < 0x1000 then
    s.slotWrite ((o - 0x700000) / 0x80000 * 16 + o % 0x80000 / 0x100) (o % 0x100) v
  else if 0x900000 ≤ o && o < 0x900400 then
    let q := (o - 0x900000) / 0x10
    (if o % 0x10 == 8 then s.writeQwake q (BitVec.ofNat 32 v)
    else if o % 0x10 == 4 && v / 2 ^ 24 != 0 then s.setHq q { s.hq q with rejcnt := 0 }
    else s)
  else if 0x910000 ≤ o && o < 0x910200 then s.dieWrite ((o - 0x910000) / 0x100) (o % 0x100) v
  else if 0xA00000 ≤ o && o < 0xA01000 then s.powerWrite ((o - 0xA00000) / 0x100) (o % 0x100) v
  else if 0xB80000 ≤ o && o < 0xB81000 then s.pmWrite ((o - 0xB80000) / 0x10) (o % 0x10) v
  else if o == 0xB90000 || o == 0xB90004 then s.writeWdcfg ((o - 0xB90000) / 4) v
  else s

/-- REGISTER_WRITE (R11): a write of a 32-bit fabric register by the gaffer or the management core. -/
def execRegisterWrite (off : BitVec 24) (v : Word) (s : State) : Out :=
  .next (if off.toNat % 4 == 0 then s.fabWrite off.toNat v.toNat else s)

end Sys2Proof.Machine
end

