-- ==== Sys2Proof/Machine/Scalar.lean ====
section
/-! DEFINITION. Scalar instructions (R373 to R397): integer and logic, memory, control flow and divergence, clauses, exchange
slots and waits. -/

namespace Sys2Proof.Machine

/-! Integer and logic (R378 to R383) -/

/-- A source register in a scalar instruction. -/
def srcWord (w : Wave) (f : Fragment) (r : BitVec 6) : Word := w.rd f r.toNat

/-- The register form: two sources, one result. -/
def scalarAlu (s : State) (d a b : BitVec 6) (v : Word → Word → Word) : Out :=
  scalarResult s [a.toNat, b.toNat] d.toNat (fun w f => v (srcWord w f a) (srcWord w f b))
/-- The immediate form (R382). -/
def scalarAluImm (s : State) (d a : BitVec 6) (v : Word → Word) : Out :=
  scalarResult s [a.toNat] d.toNat (fun w f => v (srcWord w f a))

/-- -1, 0 or 1 (R378). -/
def compareWord (signed : Bool) (x y : Word) : Word :=
  if (if signed then x.slt y else x.ult y) then BitVec.allOnes 32 else if x == y then 0 else 1
/-- Shifts and the rotate by a 32-bit amount (R381): 0 SSHL, 1 SSHR, 2 SSRA, 3 SROL. -/
def shiftWord (kind : Nat) (x : Word) (n : Nat) : Word :=
  match kind with
  | 0 => x <<< n
  | 1 => x >>> n
  | 2 => x.sshiftRight n
  | _ => x.rotateLeft (n % 32)
/-- Leading zeros of a word; 32 for 0. -/
def clz32 (x : Word) : Nat := if x == 0 then 32 else 31 - Nat.log2 x.toNat
/-- One bits of a word. -/
def popc32 (x : Word) : Nat := ((List.range 32).filter (fun i => x.getLsbD i)).length
/-- The bits of a word in reverse. -/
def brev32 (x : Word) : Word := x.reverse
/-- Bits [63:32] of the exact product. -/
def mulHigh (signed : Bool) (x y : Word) : Word :=
  if signed then BitVec.ofInt 32 (x.toInt * y.toInt / 4294967296) else BitVec.ofNat 32 (x.toNat * y.toNat / 4294967296)
/-- The quotient truncated toward zero (R380). -/
def divWord (signed : Bool) (x y : Word) : Word :=
  if signed then BitVec.ofInt 32 (x.toInt.tdiv y.toInt) else BitVec.ofNat 32 (x.toNat / y.toNat)
/-- The remainder, with the sign of the dividend (R380). -/
def remWord (signed : Bool) (x y : Word) : Word :=
  if signed then BitVec.ofInt 32 (x.toInt.tmod y.toInt) else BitVec.ofNat 32 (x.toNat % y.toNat)
/-- The carry of an addition (R378). -/
def carryOut (x y : Word) (c : Bool) : Word := if 4294967296 ≤ x.toNat + y.toNat + bnat c then 1 else 0
/-- The borrow of a subtraction (R378). -/
def borrowOut (x y : Word) (c : Bool) : Word := if x.toNat < y.toNat + bnat c then 1 else 0

def execSnop (s : State) : Out := scalarOp s [] (fun r _ f => .next (s.next r f.id))
def execSadd (d a b : BitVec 6) (s : State) : Out := scalarAlu s d a b (· + ·)
def execSsub (d a b : BitVec 6) (s : State) : Out := scalarAlu s d a b (· - ·)
def execSadc (d a b : BitVec 6) (s : State) : Out :=
  scalarResult s [a.toNat, b.toNat] d.toNat (fun w f => carryOut (srcWord w f a) (srcWord w f b) ((srcWord w f d).getLsbD 0))
def execSsbc (d a b : BitVec 6) (s : State) : Out :=
  scalarResult s [a.toNat, b.toNat] d.toNat (fun w f => borrowOut (srcWord w f a) (srcWord w f b) ((srcWord w f d).getLsbD 0))
def execSmul (d a b : BitVec 6) (s : State) : Out := scalarAlu s d a b (· * ·)
def execSmulh (d a b : BitVec 6) (u : BitVec 1) (s : State) : Out := scalarAlu s d a b (mulHigh (u == 0))
def execSand (d a b : BitVec 6) (s : State) : Out := scalarAlu s d a b (· &&& ·)
def execSor (d a b : BitVec 6) (s : State) : Out := scalarAlu s d a b (· ||| ·)
def execSxor (d a b : BitVec 6) (s : State) : Out := scalarAlu s d a b (· ^^^ ·)
def execSandn (d a b : BitVec 6) (s : State) : Out := scalarAlu s d a b (fun x y => x &&& ~~~y)
def execSshl (d a b : BitVec 6) (s : State) : Out := scalarAlu s d a b (fun x y => shiftWord 0 x y.toNat)
def execSshr (d a b : BitVec 6) (s : State) : Out := scalarAlu s d a b (fun x y => shiftWord 1 x y.toNat)
def execSsra (d a b : BitVec 6) (s : State) : Out := scalarAlu s d a b (fun x y => shiftWord 2 x y.toNat)
def execSrol (d a b : BitVec 6) (s : State) : Out := scalarAlu s d a b (fun x y => shiftWord 3 x y.toNat)
def execSmin (d a b : BitVec 6) (u : BitVec 1) (s : State) : Out :=
  scalarAlu s d a b (fun x y => if (if u == 0 then x.slt y else x.ult y) then x else y)
def execSmax (d a b : BitVec 6) (u : BitVec 1) (s : State) : Out :=
  scalarAlu s d a b (fun x y => if (if u == 0 then x.slt y else x.ult y) then y else x)
def execSclz (d a : BitVec 6) (s : State) : Out := scalarAluImm s d a (fun x => BitVec.ofNat 32 (clz32 x))
def execSpopc (d a : BitVec 6) (s : State) : Out := scalarAluImm s d a (fun x => BitVec.ofNat 32 (popc32 x))
def execSbrev (d a : BitVec 6) (s : State) : Out := scalarAluImm s d a brev32
def execScmp (d a b : BitVec 6) (u : BitVec 1) (s : State) : Out := scalarAlu s d a b (compareWord (u == 0))

/-- SDIV and SREM (R380): a zero divisor raises DIVZERO at the scalar site, and sd is not written. -/
def scalarDivide (s : State) (d a b : BitVec 6) (v : Word → Word → Word) : Out :=
  scalarOp s [d.toNat, a.toNat, b.toNat] (fun r w f =>
    if srcWord w f b == 0 then .next (s.scalarTrap r f.id 3 0)
    else .next ((s.setWave r (w.wr f.id d.toNat (v (srcWord w f a) (srcWord w f b)))).next r f.id))
def execSdiv (d a b : BitVec 6) (u : BitVec 1) (s : State) : Out := scalarDivide s d a b (divWord (u == 0))
def execSrem (d a b : BitVec 6) (u : BitVec 1) (s : State) : Out := scalarDivide s d a b (remWord (u == 0))

/-- SLHI (R383): imm20 << 12. -/
def execSlhi (h : BitVec 1) (d : BitVec 6) (i : BitVec 19) (s : State) : Out :=
  scalarResult s [] d.toNat (fun _ _ => BitVec.ofNat 32 (at_ (h.toNat * 524288 + i.toNat) 12))
/-- SSEL (R378). -/
def execSsel (d a b c : BitVec 6) (s : State) : Out :=
  scalarResult s [a.toNat, b.toNat, c.toNat] d.toNat (fun w f => if srcWord w f c != 0 then srcWord w f a else srcWord w f b)
/-- SLEA (R378). -/
def execSlea (d a b : BitVec 6) (sg : BitVec 1) (n : BitVec 3) (s : State) : Out :=
  scalarOp s [d.toNat, d.toNat + 1, a.toNat, a.toNat + 1, b.toNat] (fun r w f =>
    let x : DWord := if sg == 1 then (srcWord w f b).signExtend 64 else (srcWord w f b).zeroExtend 64
    .next ((s.setWave r (w.wrPair f.id d.toNat (w.rdPair f a.toNat + (x <<< n.toNat)))).next r f.id))

/-- imm13 sign-extended and zero-extended (R345). -/
def sext13 (i : BitVec 13) : Word := i.signExtend 32
def zext13 (i : BitVec 13) : Word := i.zeroExtend 32
def execSaddImm (d a : BitVec 6) (i : BitVec 13) (s : State) : Out := scalarAluImm s d a (fun x => x + sext13 i)
def execSandImm (d a : BitVec 6) (i : BitVec 13) (s : State) : Out := scalarAluImm s d a (fun x => x &&& zext13 i)
def execSorImm (d a : BitVec 6) (i : BitVec 13) (s : State) : Out := scalarAluImm s d a (fun x => x ||| zext13 i)
def execSxorImm (d a : BitVec 6) (i : BitVec 13) (s : State) : Out := scalarAluImm s d a (fun x => x ^^^ zext13 i)
def execSshlImm (d a : BitVec 6) (n : BitVec 5) (s : State) : Out := scalarAluImm s d a (fun x => shiftWord 0 x n.toNat)
def execSshrImm (d a : BitVec 6) (n : BitVec 5) (s : State) : Out := scalarAluImm s d a (fun x => shiftWord 1 x n.toNat)
def execSsraImm (d a : BitVec 6) (n : BitVec 5) (s : State) : Out := scalarAluImm s d a (fun x => shiftWord 2 x n.toNat)
def execSrolImm (d a : BitVec 6) (n : BitVec 5) (s : State) : Out := scalarAluImm s d a (fun x => shiftWord 3 x n.toNat)
def execSmulImm (d a : BitVec 6) (i : BitVec 13) (s : State) : Out := scalarAluImm s d a (fun x => x * sext13 i)
def execScmpImm (d a : BitVec 6) (i : BitVec 13) (s : State) : Out := scalarAluImm s d a (fun x => compareWord true x (sext13 i))

/-! Scalar memory (R385 to R388) -/

/-- A scalar access is issued: in a transaction without its annotations (R280); it waits while an acquire or a full replay
array holds it. The stream goes on first, so that an abort by the write of its own fault record stands. -/
def State.scalarAccess (s : State) (r : WaveRef) (w : Wave) (f : Fragment) (k : OpKind) (space n : Nat) (va : DWord)
    (dst : Option Nat) (aop : Nat) (data cmp : List Byte) (ord scope : Nat) : State :=
  if s.memHeld r w 32 1 then s.wait r f.id
  else
    let t := w.inTxn f.id
    let o : Op := ⟨0, f.id, true, k, n, false, dst, aop, [⟨0, va, [], data, cmp, none⟩], if t then 0 else ord, if t then 0 else scope,
      0, none, t, 0, [], 0, space, [], 0, [], []⟩
    (s.next r f.id).issueOp r w space o

/-- The bytes of a register, or of a pair for 8. -/
def dataOf (w : Wave) (f : Fragment) (d n : Nat) : List Byte :=
  leBytes n (if n == 8 then (w.rdPair f d).toNat else (w.rd f d).toNat)

/-- The registers of an operand of n bytes. -/
def regsOf (d n : Nat) : List Nat := if n == 8 then [d, d + 1] else [d]

/-- SLD (R385). -/
def execSld (d a : BitVec 6) (z p o : BitVec 2) (sc : BitVec 3) (off : BitVec 4) (s : State) : Out :=
  let n := 2 ^ z.toNat
  scalarOp s (regsOf d.toNat n ++ [a.toNat, a.toNat + 1]) (fun r w f =>
    .next (s.scalarAccess r w f .load p.toNat n (w.rdPair f a.toNat + off.signExtend 64 * BitVec.ofNat 64 n) (some d.toNat) 0 [] []
      o.toNat sc.toNat))
/-- SST (R385). -/
def execSst (d a : BitVec 6) (z p o : BitVec 2) (sc : BitVec 3) (off : BitVec 4) (s : State) : Out :=
  let n := 2 ^ z.toNat
  scalarOp s (regsOf d.toNat n ++ [a.toNat, a.toNat + 1]) (fun r w f =>
    .next (s.scalarAccess r w f .store p.toNat n (w.rdPair f a.toNat + off.signExtend 64 * BitVec.ofNat 64 n) none 0
      (dataOf w f d.toNat n) [] o.toNat sc.toNat))
/-- SLDK (R386). -/
def execSldk (d a : BitVec 6) (i : BitVec 13) (s : State) : Out :=
  scalarOp s [d.toNat, a.toNat] (fun r w f =>
    let k := (srcWord w f a).toNat + i.toNat
    let va : DWord := (w.args + BitVec.ofNat 64 (4 * k)) &&& ~~~3
    .next (s.scalarAccess r w f .load 2 4 va (some d.toNat) 0 [] [] 0 0))
/-- SATOM (R387). -/
def execSatom (d a : BitVec 6) (z p o : BitVec 2) (sc : BitVec 3) (x : BitVec 4) (s : State) : Out :=
  let n := if z == 3 then 8 else 4
  let cas := if x == 9 then (if n == 8 then [d.toNat + 2, d.toNat + 3] else [d.toNat + 1]) else []
  scalarOp s (regsOf d.toNat n ++ cas ++ [a.toNat, a.toNat + 1]) (fun r w f =>
    let va : DWord := w.rdPair f a.toNat &&& ~~~(BitVec.ofNat 64 (n - 1))
    let new := if n == 8 then dataOf w f (d.toNat + 2) 8 else dataOf w f (d.toNat + 1) 4
    .next (s.scalarAccess r w f .atomic p.toNat n va (some d.toNat) x.toNat (dataOf w f d.toNat n) new o.toNat sc.toNat))

/-- SCALAR_ACCESS_RETURN (R374, R385): the access is performed and its result written. -/
def execScalarAccessReturn (r : WaveRef) (op : Nat) (s : State) : Out := .next ((s.perform r op).waveExitCheck r)

/-! Control flow (R389, R390) -/

/-- The conditions of SBR. -/
def sbrHolds (c : Nat) (x y : Word) : Bool :=
  match c with
  | 0 => x == y
  | 1 => x != y
  | 2 => x.slt y
  | 3 => !x.slt y
  | 4 => x.ult y
  | 5 => !x.ult y
  | _ => false
/-- A target at a signed word offset. -/
def wordTarget {n : Nat} (pc : DWord) (o : BitVec n) : DWord := pc + o.signExtend 64 * 4
/-- A target in the 4 GiB region of the jumping instruction. -/
def regionTarget (pc : DWord) (x : Word) : DWord := ((pc >>> 32).truncate 32 ++ x) &&& ~~~3

/-- SBR (R389). -/
def execSbr (a b : BitVec 6) (c : BitVec 3) (o : BitVec 10) (s : State) : Out :=
  scalarOp s [a.toNat, b.toNat] (fun r w f =>
    .next (s.goto r f.id (if sbrHolds c.toNat (srcWord w f a) (srcWord w f b) then wordTarget f.pc o else f.pc + 4)))
/-- SJMP (R389). -/
def execSjmp (o : BitVec 25) (s : State) : Out := scalarOp s [] (fun r _ f => .next (s.goto r f.id (wordTarget f.pc o)))
/-- SJMPX (R390). -/
def execSjmpx (a : BitVec 6) (s : State) : Out :=
  scalarOp s [a.toNat] (fun r w f => .next (s.goto r f.id (regionTarget f.pc (srcWord w f a))))
/-- SCALL (R389). -/
def execScall (o : BitVec 25) (s : State) : Out :=
  scalarOp s [55] (fun r w f => .next ((s.setWave r (w.wr f.id 55 ((f.pc + 4).truncate 32))).goto r f.id (wordTarget f.pc o)))
/-- SRET (R390). -/
def execSret (a : BitVec 6) (s : State) : Out :=
  scalarOp s [a.toNat] (fun r w f => .next (s.goto r f.id (regionTarget f.pc (srcWord w f a))))

/-! Divergence (R242, R391 to R393) -/

/-- An instruction that R290 forbids in a transaction: there it aborts with ILLEGAL. -/
def noTxn (s : State) (r : WaveRef) (w : Wave) (f : Fragment) (k : Unit → Out) : Out :=
  if w.inTxn f.id then .next (s.setWave r (w.abort 4 0)) else k ()

/-- SPLIT (R242, R391). -/
def execSplit (m : BitVec 6) (j : BitVec 9) (o : BitVec 10) (s : State) : Out :=
  let i := m.toNat
  scalarOp s [i, i + 1, i + 2, 56, 57, 58, 59, 60, 61, 62, 63] (fun r w f =>
    let taken := f.mask &&& maskOf (w.rd f i) (w.rd f (i + 1)) (w.rd f (i + 2))
    let t := wordTarget f.pc o
    if taken == 0 then .next (s.next r f.id)
    else if taken == f.mask then .next (s.goto r f.id t)
    else noTxn s r w f (fun _ =>
      if 2 ≤ w.slotsUsed && !s.splitFree r.core then .next (s.wait r f.id)
      else
        let sp := w.nextSplit
        let ja := wordTarget f.pc j
        let after := w.splitAfter f s.nextId
        let old := { f with
          lanes := f.lanes &&& ~~~taken, mask := f.mask &&& ~~~taken, joins := ⟨ja, sp, true⟩ :: f.joins, pc := f.pc + 4, waitSince := none
          after := after }
        let new := { f with
          lanes := taken, mask := taken, pc := t, joins := ⟨ja, sp, false⟩ :: f.joins, queue := [], run := none
          held := none, sleep := none, refusals := 0, waitSince := none, after := after, restOf := none }
        .next (s.setWave r (({ (w.setFrag old).precede [f.id] [(f.id, s.nextId), (w.nextFrag, 0)] with nextSplit := sp + 1 }).addFrag new))))

/-- SYIELD (R392): the fragment is passed over at its next issue opportunity if another is ready. -/
def execSyield (s : State) : Out :=
  scalarOp s [] (fun r _ f => .next ((s.updFrag r f.id (fun g => { g with yields := g.yields + 1 })).next r f.id))

/-- An issued wait (R375) is over. -/
def Fragment.drained (f : Fragment) : Bool := f.queue.isEmpty && f.run.isNone
/-- A settled wait (R375) is over: the clauses' results are written and their flags released. -/
def State.settled (s : State) (r : WaveRef) (w : Wave) (f : Fragment) : Bool :=
  f.drained && !(w.ops.any (fun o => !o.scalar && w.owns f o.frag)) &&
    !((s.core r.core).matrix.any (fun m => m.slot == r.slot && w.owns f m.frag)) &&
    !((s.core r.core).sweeps.any (fun m => m.slot == r.slot && w.owns f m.frag))
/-- Every access of the fragment's scalar stream, and with `all` of its lanes too, has been performed, and every one before a split or a
fusion (R268). -/
def Wave.performed (w : Wave) (f : Fragment) (all : Bool) : Bool :=
  !(f.after.any w.unissued) && !(w.ops.any (fun o => o.kind.isMem && (((all || o.scalar) && w.owns f o.frag) || o.also.any (fun k => k.1 == f.id))))

/-- SEXIT beyond its check (R393, R305): the fragment exits once its clauses have run to their end. -/
def State.sexit (s : State) (r : WaveRef) (w : Wave) (f : Fragment) : State :=
  if !f.drained then s.wait r f.id else (s.setWave r (w.dropFrag s.nextId f.id)).waveExitCheck r
/-- SEXIT (R393). -/
def execSexit (s : State) : Out := scalarOp s [] (fun r w f => noTxn s r w f (fun _ => .next (s.sexit r w f)))

/-! Clauses (R394, R395) -/

/-- A clause joins the fragment's lane queue. -/
def State.enqueue (s : State) (r : WaveRef) (w : Wave) (f : Fragment) (off : DWord) (n a : Nat) : State :=
  if 8 ≤ f.queue.length then s.wait r f.id
  else
    let c : Clause := ⟨off, (List.range 4).map (fun k => if k < n then w.rd f (a + k) else 0), f.mask, f.pc + 4, f.joins.length, w.inTxn f.id, s.nextId⟩
    (s.setWave r (w.updFrag f.id (fun f => { f with queue := f.queue ++ [c] }))).next r f.id
/-- LRUN (R394). -/
def execLrun (n : BitVec 3) (a : BitVec 6) (c : BitVec 16) (s : State) : Out :=
  scalarOp s ((List.range n.toNat).map (fun k => a.toNat + k) ++ [61, 62, 63]) (fun r w f =>
    .next (s.enqueue r w f (BitVec.ofNat 64 (16 * c.toNat)) n.toNat a.toNat))
/-- LRUNX (R395). -/
def execLrunx (a b : BitVec 6) (n : BitVec 3) (s : State) : Out :=
  scalarOp s (a.toNat :: (List.range n.toNat).map (fun k => b.toNat + k) ++ [61, 62, 63]) (fun r w f =>
    .next (s.enqueue r w f (BitVec.ofNat 64 ((srcWord w f a).toNat / 16 * 16)) n.toNat b.toNat))

/-! Exchange slots, flags and counters (R396 to R398) -/

/-- SGETX (R396). -/
def execSgetx (d : BitVec 6) (k : BitVec 3) (s : State) : Out :=
  scalarOp s [d.toNat] (fun r w f =>
    match tfind w.xslot k.toNat with
    | none => .next (s.wait r f.id)
    | some v => .next ((s.setWave r (({ w with xslot := tdel w.xslot k.toNat }).wr f.id d.toNat v)).next r f.id))
/-- SWAITF (R397). -/
def execSwaitf (m : BitVec 12) (s : State) : Out :=
  scalarOp s [] (fun r w f =>
    if !f.drained || (List.range 12).any (fun i => m.getLsbD i && tget 0 w.flags i != 0) then .next (s.wait r f.id)
    else .next (s.next r f.id))

/-- The classes that a class code names (R398). -/
def classesOf (c : Nat) : List Nat := if c == 7 then [0, 1, 2, 3, 4, 5] else [c]
/-- Outstanding operations of a class. -/
def Wave.outstanding (w : Wave) (c : Nat) : Nat := (tget [] w.tickets c).length
/-- The wait of SWAITC is over. -/
def Wave.countsOk (w : Wave) (f : Fragment) (c n : Nat) : Bool :=
  (!(c == 1 || c == 3 || c == 7) || f.drained) && (classesOf c).all (fun k => decide (w.outstanding k ≤ n))
/-- The return of SWAITC acts as an acquire at the scope of the operations of its classes that have retired (R277). -/
def State.acquireCounts (s : State) (r : WaveRef) (w : Wave) (c : Nat) : State :=
  if w.wideRet.any (fun k => (classesOf c).contains k) then s.dropL1 r.core w.ctx else s
/-- SWAITC (R398). -/
def execSwaitc (c : BitVec 3) (n : BitVec 6) (s : State) : Out :=
  scalarOp s [] (fun r w f =>
    if w.countsOk f c.toNat n.toNat then .next ((s.acquireCounts r w c.toNat).next r f.id) else .next (s.wait r f.id))

/-! Phases (R202, R400) -/

/-- PHEND (R202, R400). -/
def execPhend (s : State) : Out :=
  scalarOp s [] (fun r w f =>
    noTxn s r w f (fun _ =>
      if w.handler then .next (s.fatalCtx w.ctx 1 true)
      else
        let last := match s.run? w.launch with | some run => decide (run.lrec.phases.length ≤ w.phase) | none => true
        if last then .next (s.sexit r w f)
        else if !w.countsOk f 7 0 || !(w.performed f true) then .next (s.wait r f.id)
        else
          let s := s.acquireCounts r w 7
          let s := s.updWave r (fun w => (w.updFrag f.id (fun f => { f with st := .phase, waitSince := none })).refill)
          match s.wave? r with
          | some w =>
            if w.frags.all (fun f => f.st == .phase) then .next ((s.setWave r w.parkFuse).parkCheck r.core w.bslot) else .next s
          | none => .next s))

end Sys2Proof.Machine
end

