-- ==== Sys2Proof/Machine/Txn.lean ====
section
/-! DEFINITION. Transactions, named barriers and fences (R274, R280 to R298, R399, R401, R402). -/

namespace Sys2Proof.Machine

/-! Opening and closing (R280, R282, R283) -/

/-- What an outermost TXB waits for: no other open transaction of the wave, a transaction slot, the fragment's clauses and
their accesses, and, as a release, its earlier scalar accesses. -/
def State.txnReady (s : State) (r : WaveRef) (w : Wave) (f : Fragment) : Bool :=
  w.txn.isNone && decide (s.txnsOf r.core < 16) && w.quiet f && w.performed f true
/-- A transaction as an outermost TXB opens it. -/
def State.newTxn (s : State) (w : Wave) (f : Fragment) (target : DWord) : Txn :=
  ⟨f.id, f.pc, target, 1, none, decide (8 ≤ w.ccnt), s.now, [], [], [], none⟩

/-- TXB (R280, R282): a release at `.dev` when outermost; a ninth level aborts with NEST. -/
def execTxb (o : BitVec 25) (s : State) : Out :=
  scalarOp s [] (fun r w f =>
    match w.txn with
    | some t =>
      if t.frag == f.id then
        if 8 ≤ t.depth then .next (s.setWave r (w.abort 3 0))
        else .next ((s.setWave r { w with txn := some { t with depth := t.depth + 1 } }).next r f.id)
      else .next (s.wait r f.id)
    | none =>
      if !s.txnReady r w f then .next (s.wait r f.id)
      else
        let s := s.drainAll r.core
        .next ((s.updWave r (fun w => { w with txn := some (s.newTxn w f (wordTarget f.pc o)) })).next r f.id))

/-- A transaction instruction needs an open transaction of the fragment; outside one it raises ILLEGAL (R282). -/
def inTxnOp (s : State) (k : WaveRef → Wave → Fragment → Txn → Out) : Out :=
  scalarOp s [] (fun r w f =>
    match w.txn with
    | some t => if t.frag == f.id then k r w f t else .next (s.scalarTrap r f.id 6 0)
    | none => .next (s.scalarTrap r f.id 6 0))

/-- The waiters of a barrier that opened block-wide run on in release groups (R221). -/
def State.stageRelease (s : State) (core b : Nat) : State :=
  let l := (s.core core).waves.flatMap (fun (w : Nat × Wave) => (w.2.frags.filter (fun f => match f.sleep with
    | some sl => sl.woken && sl.bar == some b
    | none => false)).map (fun f => (w.1, f.id)))
  if l.isEmpty then s
  else
    let s := { s with queue := s.queue.filter (fun i => match i with
      | .fragmentWake r f => !(r.core == core && l.contains (r.slot, f))
      | _ => true) }
    let s := s.updCore core (fun c => { c with release := c.release.filter (fun e => e.1 != b) ++ [(b, l)] })
    s.post (.releaseGroup (BitVec.ofNat 8 core) (BitVec.ofNat 6 b))

/-- TXC (R282, R283): at an inner level nothing is committed; at depth 1 the commit waits for the fragment's clauses and for
every transactional access. -/
def execTxc (s : State) : Out :=
  inTxnOp s (fun r w f t =>
    if 1 < t.depth then .next ((s.setWave r { w with txn := some { t with depth := t.depth - 1 } }).next r f.id)
    else if !w.quiet f || w.ops.any (fun o => o.txn) then .next (s.wait r f.id)
    else if s.prioHolds r t then .next (s.setWave r (w.abort 1 0))
    else
      let s := s.commit r w t
      let s := s.each t.opens (fun s b => s.stageRelease r.core b)
      .next (s.next r f.id))

/-- Transactional writes in flight are discarded with the write set (R282): of an atomic the read remains. -/
def Wave.dropStores (w : Wave) : Wave :=
  let w := (w.ops.filter (fun o => o.txn && (o.kind == .store || o.kind == .reduce))).foldl (fun (w : Wave) o => w.finishOp o) w
  { w with ops := w.ops.map (fun o => if o.txn && o.kind == .atomic then { o with kind := .load } else o) }
/-- TXR beyond its check (R282, R284): on to the alternative with the reads kept, or to sleep; `bar`: the word that a BARW waits on. -/
def State.retry (s : State) (r : WaveRef) (w : Wave) (f : Fragment) (t : Txn) (bar : Option Nat) : State :=
  match t.alt with
  | some a => (s.setWave r { w.dropStores with txn := some { t with writes := [], alt := none, opens := [] } }).goto r f.id a
  | none => s.txnSleep r w t bar
/-- TXR. -/
def execTxr (s : State) : Out := inTxnOp s (fun r w f t => .next (s.retry r w f t none))
/-- TXALT (R282). -/
def execTxalt (o : BitVec 25) (s : State) : Out :=
  inTxnOp s (fun r w f t => .next ((s.setWave r { w with txn := some { t with alt := some (wordTarget f.pc o) } }).next r f.id))
/-- TXA (R282, R287). -/
def execTxa (c : BitVec 8) (s : State) : Out := inTxnOp s (fun r w _ _ => .next (s.setWave r (w.abort 5 c.toNat)))

/-- `txst` as SRSR reads it (R294). -/
def Wave.txst (w : Wave) : Word :=
  let (act, alt, prio, depth) : Nat × Nat × Nat × Nat := match w.txn with
    | some t => (1, bnat t.alt.isSome, bnat t.prio, t.depth)
    | none => (0, 0, 0, 0)
  BitVec.ofNat 32 (at_ act 31 + at_ alt 30 + at_ prio 29 + at_ (bnat w.woke) 28 + at_ depth 24 + at_ w.ccnt 20 +
    at_ w.txcode 8 + w.txcause)

/-! Named barriers (R295 to R297) -/

/-- Fields of a barrier word. -/
def barPoison (x : Nat) : Bool := bit x 63
def barGen (x : Nat) : Nat := bits x 47 32
def barExpect (x : Nat) : Nat := bits x 13 8
def barArrived (x : Nat) : Nat := bits x 5 0

/-- What an arrival does to a word (R296): the new word if it is written, whether it traps, whether the barrier opens. -/
def barArrive (old n : Nat) : Option Nat × Bool × Bool :=
  if barPoison old then (none, true, false)
  else if barExpect old != 0 && barExpect old != n then (some (at_ 1 63 + old % 2 ^ 63), true, false)
  else
    let a := barArrived old + 1
    if a == n then (some (at_ ((barGen old + 1) % 65536) 32), false, true)
    else (some (old - at_ (barExpect old) 8 - barArrived old + at_ n 8 + a % 64), false, false)

/-- Barrier word b of the executing core: its keys, or the fault that its binding takes; a fault makes the fragment wait for
RESOLVE and then execute the instruction again. -/
def State.barWord (s : State) (r : WaveRef) (w : Wave) (f : Fragment) (b : Nat) : Option (List Nat) × State :=
  match s.resolve (w.place r) (unitOf r.core) w.ctx 0 (0xFFFF0000F0000 + 8 * b) 8 needRW with
  | (.ok ks, s) => (some ks, s)
  | (.error (k, va), s) =>
    let (i, s) := s.memFault w.ctx k 5 1 r.core va (if w.inTxn f.id then .txn r f.id else .fetch r f.id)
    (none, s.updWave r (fun w => { w with txn := w.txn.map (fun t => if t.frag == f.id then { t with held := some i } else t) }))

/-- BARA (R296): one atomic at the word's home, with release order at `.core`. -/
def execBara (d n b : BitVec 6) (s : State) : Out :=
  scalarOp s [d.toNat] (fun r w f =>
    let k := n.toNat
    if k < 1 || 32 < k then .next (s.scalarTrap r f.id 4 0)
    else if !w.inTxn f.id && !(w.performed f false) then .next (s.wait r f.id)
    else
      match s.barWord r w f b.toNat with
      | (none, s) => .next s
      | (some ks, s) =>
        let wide := match tfind (s.core r.core).blocks w.bslot with | some bl => !w.handler && bl.wpb == k | none => false
        match w.txn with
        | some t =>
          let s := s.claim r t [lineOf (ks.headD 0)]
          (match s.txnRead t [lineOf (ks.headD 0)] with
          | none => .next (s.setWave r (w.abort 2 0))
          | some t =>
            let old := leNat (ks.map (s.txnByte t))
            let (new, trap, opens) := barArrive old k
            if trap then .next ((s.setWave r { w with txn := some t }).scalarTrap r f.id 4 0)
            else match s.txnWrite r t (ks.zip (leBytes 8 (new.getD old))) with
              | none => .next (s.setWave r (w.abort 2 0))
              | some t =>
                let t := if opens && wide then { t with opens := t.opens ++ [b.toNat] } else t
                .next ((s.setWave r (({ w with txn := some t }).wr f.id d.toNat (BitVec.ofNat 32 (barGen old)))).next r f.id))
        | none =>
          let old := leNat (s.peek ks)
          let (new, trap, opens) := barArrive old k
          let s := match new with | some x => s.store (ks.zip (leBytes 8 x)) | none => s
          if trap then .next (s.scalarTrap r f.id 4 0)
          else
            let s := if opens && wide then s.stageRelease r.core b.toNat else s
            .next ((s.updWave r (fun w => w.wr f.id d.toNat (BitVec.ofNat 32 (barGen old)))).next r f.id))

/-- BARW (R297): a one-read transaction on the word, on its own or nested. -/
def execBarw (a b : BitVec 6) (s : State) : Out :=
  scalarOp s [a.toNat] (fun r w f =>
    let mine := w.inTxn f.id
    if !mine && !s.txnReady r w f then .next (s.wait r f.id)
    else if w.txn.any (fun t => decide (8 ≤ t.depth)) then .next (s.setWave r (w.abort 3 0))
    else
      match s.barWord r w f b.toNat with
      | (none, s) => .next s
      | (some ks, s) =>
        let s := if mine then s else s.drainAll r.core
        let t := match w.txn with | some t => t | none => s.newTxn w f f.pc
        let s := s.claim r t [lineOf (ks.headD 0)]
        match s.txnRead t [lineOf (ks.headD 0)] with
        | none => .next (s.setWave r (({ w with txn := some t }).abort 2 0))
        | some t' =>
          let x := leNat (ks.map (s.txnByte t'))
          if barPoison x then .next (s.scalarTrap r f.id 4 0)
          else if barGen x != (srcWord w f a).toNat % 65536 then
            if mine then .next ((s.setWave r { w with txn := some t' }).next r f.id)
            else .next (((s.setWave r { w with ccnt := 0, woke := false }).dropL1 r.core w.ctx).next r f.id)
          else .next (s.retry r { w with txn := some t' } f t' (some b.toNat)))

/-! Fences (R274, R402) -/

/-- The cores within a scope of a core: 1 core, 2 cluster, 3 die, 4 and 5 device. -/
def coresIn (core scope : Nat) : List Nat :=
  (List.range 192).filter (fun c => match scope with
    | 0 | 1 => c == core
    | 2 => clusterOf c == clusterOf core
    | 3 => dieOf c == dieOf core
    | _ => true)
/-- A core is serialised for a context: its write-combining buffer drains, the context's L1 lines go (R274). -/
def State.serialise (s : State) (core x : Nat) : State := (s.drainAll core).dropL1 core x
/-- FENCE (R274, R402). -/
def execFence (h : BitVec 1) (sc : BitVec 3) (s : State) : Out :=
  scalarOp s [] (fun r w f =>
    noTxn s r w f (fun _ =>
      if !s.settled r w f || !w.performed f true then .next (s.wait r f.id)
      else if h == 0 || sc == 0 then .next (s.next r f.id)
      else
        let s := if 2 ≤ sc.toNat then s.drainAll r.core else s
        let cs := (coresIn r.core sc.toNat).filter (fun c => (s.core c).waves.any (fun (p : Nat × Wave) => p.2.ctx == w.ctx))
        .next ((s.each cs (fun s c => s.serialise c w.ctx)).next r f.id)))

end Sys2Proof.Machine
end

