-- ==== Sys2Proof/Machine/System.lean ====
section
/-! DEFINITION. Engine commands at issue, launches, soft interrupts, traps, time, special registers and power requests of the
scalar stream (R403, R410 to R415). -/

namespace Sys2Proof.Machine

/-! Engine commands (R276, R403) -/

/-- An operation is counted in issue order on a class (R240, R277). -/
def Wave.ticket (w : Wave) (cls op scope : Nat) : Wave := { w with tickets := tset w.tickets cls (tget [] w.tickets cls ++ [⟨op, scope, false⟩]) }

/-- XCOPY, XGATH, XCOLL and XSEND at issue: room in the counter, a release at the scope, then the engine has the operation. -/
def engineCommand (s : State) (k : AsyncKind) (cls : Nat) (a : BitVec 6) (sc : BitVec 3) : Out :=
  scalarOp s [a.toNat, a.toNat + 1] (fun r w f =>
    noTxn s r w f (fun _ =>
      let scope := max 1 sc.toNat
      if 63 ≤ w.outstanding cls || !f.drained || !w.performed f true then .next (s.wait r f.id)
      else
        let s := if 2 ≤ scope then s.drainAll r.core else s
        let (id, s) := s.fresh
        let o : AsyncOp := ⟨id, k, r, w.ctx, scope, w.rdPair f a.toNat, [], 0, 0, none, 0, 0, [], [], 0, if w.handler then 16 else w.bslot, 0, []⟩
        let s := { s with asyncs := s.asyncs ++ [o] }
        .next ((s.updWave r (fun w => w.ticket cls id scope)).next r f.id)))

def execXcopy (a : BitVec 6) (sc : BitVec 3) (s : State) : Out := engineCommand s .copy 0 a sc
def execXgath (a : BitVec 6) (sc : BitVec 3) (s : State) : Out := engineCommand s .gather 2 a sc
def execXcoll (a : BitVec 6) (sc : BitVec 3) (s : State) : Out := engineCommand s .coll 4 a sc
def execXsend (a : BitVec 6) (c : BitVec 1) (sc : BitVec 3) (s : State) : Out := engineCommand s (.message (c == 1)) 5 a sc

/-! Launches and soft interrupts (R410, R411) -/

/-- A release at `.dev` (R187, R318): every earlier access of the wave, of its lanes and of its other fragments too, has been performed
(DEDUCED, log 25). -/
def releaseDev (s : State) (r : WaveRef) (w : Wave) (f : Fragment) (k : State → Out) : Out :=
  if w.ops.any (fun o => o.kind.isMem) || f.after.any w.unissued then .next (s.wait r f.id) else k (s.drainAll r.core)

/-- LAUNCH (R410). -/
def execLaunch (d a b : BitVec 6) (s : State) : Out :=
  scalarOp s [d.toNat, a.toNat, a.toNat + 1, b.toNat] (fun r w f =>
    noTxn s r w f (fun _ => releaseDev s r w f (fun s =>
      let (c, s) := s.push w.ctx (srcWord w f b).toNat (w.rdPair f a.toNat) (some r)
      .next ((s.updWave r (fun w => w.wr f.id d.toNat (BitVec.ofNat 32 c))).next r f.id))))
/-- SIGQ (R318, R411). -/
def execSigq (a b : BitVec 6) (s : State) : Out :=
  scalarOp s [a.toNat, b.toNat] (fun r w f =>
    noTxn s r w f (fun _ => releaseDev s r w f (fun s =>
      let t := (srcWord w f a).toNat
      match (if t < 256 then s.sigWrite w.ctx (t / 64) (t % 64) (srcWord w f b) else none) with
      | some s => .next (s.next r f.id)
      | none => .next (s.scalarTrap r f.id 7 0))))

/-! Traps (R412) -/

/-- TRAP. -/
def execTrap (i : BitVec 13) (s : State) : Out :=
  scalarOp s [] (fun r w f => noTxn s r w f (fun _ => .next (s.scalarTrap r f.id 1 i.toNat)))
/-- BRK: inside a transaction it aborts with TRAP. -/
def execBrk (i : BitVec 13) (s : State) : Out := scalarOp s [] (fun r _ f => .next (s.scalarTrap r f.id 5 i.toNat))

/-! Time (R225, R413) -/

/-- A pair sampled at issue. -/
def scalarPair (s : State) (d : BitVec 6) (v : WaveRef → DWord) : Out :=
  scalarOp s [d.toNat, d.toNat + 1] (fun r w f => .next ((s.setWave r (w.wrPair f.id d.toNat (v r))).next r f.id))
def execTime (d : BitVec 6) (s : State) : Out := scalarPair s d (fun _ => BitVec.ofNat 64 s.now)
def execCyc (d : BitVec 6) (s : State) : Out := scalarPair s d (fun r => BitVec.ofNat 64 (s.laneCycle (clusterOf r.core)))

/-! Special registers (R233, R234, R414) -/

/-- A special register that SRSR reads. In a handler wave the identity registers but `ctx` read 0 (R304). -/
def State.special (s : State) (r : WaveRef) (w : Wave) (c : Nat) : Word :=
  let n (x : Nat) : Word := BitVec.ofNat 32 x
  let id (x : Word) : Word := if w.handler then 0 else x
  match c with
  | 0x00 => w.xmax
  | 0x01 => w.vstat
  | 0x02 => w.txst
  | 0x03 => s.brst w
  | 0x04 => w.rngs.truncate 32
  | 0x05 => (w.rngs >>> 32).truncate 32
  | 0x06 => w.trapv.truncate 32
  | 0x07 => (w.trapv >>> 32).truncate 32
  | 0x18 => id (n (at_ r.slot 8 + w.widx))
  | 0x19 => id (n r.core)
  | 0x1A => id (n w.kid)
  | 0x1B => id (n (at_ (dieOf r.core) 16 + w.fdid))
  | 0x1C => id w.rank
  | 0x1D => n w.ctx
  | _ => if c < 0x10 then w.ix.getD (c - 8) 0 else if c < 0x18 then w.nx.getD (c - 16) 0 else 0

/-- The write of SWSR: reserved bits are kept 0, RO registers are not written, `brst` loses its W1C bits. -/
def Wave.setSpecial (w : Wave) (c : Nat) (v : Word) : Wave :=
  let lo (x : DWord) : DWord := (x >>> 32).truncate 32 ++ v
  let hi (x : DWord) : DWord := v ++ x.truncate 32
  match c with
  | 0x00 => { w with xmax := v }
  | 0x01 => { w with vstat := v &&& 0x3F }
  | 0x03 => { w with thr := w1c w.thr v.toNat 28, bad := w1c w.bad v.toNat 22 }
  | 0x04 => { w with rngs := lo w.rngs }
  | 0x05 => { w with rngs := hi w.rngs }
  | 0x06 => { w with trapv := lo w.trapv }
  | 0x07 => { w with trapv := hi w.trapv }
  | _ => w

/-- The registers whose reads and writes make a settled wait (R414). -/
def settles (c : Nat) : Bool := c == 0 || c == 1 || c == 4 || c == 5

/-- SRSR (R414). -/
def execSrsr (d c : BitVec 6) (s : State) : Out :=
  scalarOp s [d.toNat] (fun r w f =>
    if settles c.toNat && !s.settled r w f then .next (s.wait r f.id)
    else .next ((s.setWave r (w.wr f.id d.toNat (s.special r w c.toNat))).next r f.id))
/-- SWSR (R414). -/
def execSwsr (a c : BitVec 6) (s : State) : Out :=
  scalarOp s [a.toNat] (fun r w f =>
    if settles c.toNat && !s.settled r w f then .next (s.wait r f.id)
    else .next ((s.setWave r (w.setSpecial c.toNat (srcWord w f a))).next r f.id))

/-! Power (R213, R214, R216, R217, R415) -/

/-- BURST. -/
def execBurst (a : BitVec 6) (s : State) : Out :=
  scalarOp s [a.toNat] (fun r w f => noTxn s r w f (fun _ => .next ((s.announce r (srcWord w f a)).next r f.id)))
/-- BURSTX: no effect without a declaration. -/
def execBurstx (s : State) : Out := scalarOp s [] (fun r w f => .next ((s.setWave r { w with decl := none }).next r f.id))
/-- PERFL: a request with a nonzero bit above [1:0] has no effect. -/
def execPerfl (a : BitVec 6) (s : State) : Out :=
  scalarOp s [a.toNat] (fun r w f =>
    let v := (srcWord w f a).toNat
    let s := if v < 4 then s.perfRequest (clusterOf r.core) w.ctx v else s
    .next (s.next r f.id))

end Sys2Proof.Machine
end

