-- ==== Sys2Proof/Machine/Engines.lean ====
section
/-! DEFINITION. The copy, gather and message engines, and the packets and flits that reach this device for them (R72, R73, R76,
R82, R83, R97, R277, R278, R404 to R409). -/

namespace Sys2Proof.Machine

/-! Accesses of an operation -/

/-- SRC of an operation's fault records (R158, R404). -/
def asyncSrc : AsyncKind → Nat
  | .copy | .gather => 2
  | _ => 1

/-- An operation by its number. -/
def State.async? (s : State) (id : Nat) : Option AsyncOp := s.asyncs.find? (fun (o : AsyncOp) => o.id == id)

/-- An access of an operation faulted (R404): a permission fault ends it with MEMFAULT, another waits for RESOLVE. -/
def State.asyncFault (s : State) (o : AsyncOp) (k acc va : Nat) : State :=
  if k == 3 then s.endAsync o.id 2
  else
    let (f, s) := s.memFault o.ctx k acc (asyncSrc o.kind) o.w.core va (.async o.id)
    s.updAsync o.id (fun (o : AsyncOp) => { o with fault := some f })

/-- The keys of an operation's access: `.gen`, from the issuing core and block (R250). -/
def State.asyncKeys (s : State) (o : AsyncOp) (va n need : Nat) : Except (Nat × Nat) (List Nat) × State :=
  s.resolve (some (o.w.core, o.bslot)) (unitOf o.w.core) o.ctx 0 va n need

/-- Bytes are performed at the operation's scope (R277). -/
def State.asyncStore (s : State) (o : AsyncOp) (l : List (Nat × Byte)) : State :=
  if 2 ≤ o.scope then s.storeHome o.w.core o.ctx l else s.storeCore o.w.core o.ctx l

/-- The countdown of a barrier object at its home (R278); 0 means none. -/
def State.asyncCount (s : State) (o : AsyncOp) (bobj n : Nat) : Bool × State :=
  if bobj == 0 then (true, s)
  else match s.asyncKeys o bobj 16 needRW with
    | (.error (k, va), s) => (false, s.asyncFault o k 5 va)
    | (.ok ks, s) =>
      let s := s.each (dedup (ks.map lineOf)) (fun s ln => s.drainLine o.w.core ln)
      (true, s.store (ks.zip (countDown (s.peek ks) n)))

/-- An operation has completed: it retires in issue order. -/
def State.asyncDone (s : State) (o : AsyncOp) : State :=
  (s.updAsync o.id (fun (o : AsyncOp) => { o with stage := 3 })).post (.asyncRetire o.w (BitVec.ofNat 3 (asyncClass o.kind)))

/-! Descriptors (R405, R407, R409) -/

/-- Size and alignment of a descriptor. -/
def descSize : AsyncKind → Nat
  | .copy => 32
  | .gather => 64
  | .message _ => 16
  | .coll => 128
/-- A copy descriptor's fields. -/
def copySrc (l : List Byte) : Nat := field l 0 8
def copyDst (l : List Byte) : Nat := field l 8 8
def copyLen (l : List Byte) : Nat := field l 16 4
def copyCirc (l : List Byte) : Bool := bit (field l 16 8) 39
def copyEntry (l : List Byte) : Nat := bits (field l 16 8) 37 32
def copyBobj (l : List Byte) : Nat := field l 24 8
/-- The checks of R405. -/
def copyOk (l : List Byte) : Bool :=
  let x := field l 16 8
  bits x 63 40 == 0 && !bit x 38 && (copyCirc l || copyEntry l == 0) && (!copyCirc l || copyBobj l == 0) && copyBobj l % 16 == 0
/-- Bytes that a gather moves. -/
def gatherLen (l : List Byte) : Nat := field l 28 4 * field l 24 4
/-- The checks of R407. -/
def gatherOk (l : List Byte) : Bool :=
  field l 16 8 % 4 == 0 && decide (gatherLen l < 2 ^ 32) && field l 48 8 == 0 && field l 56 8 == 0 && field l 40 8 % 16 == 0
/-- A message descriptor's fields. -/
def msgLen (l : List Byte) : Nat := bits (field l 8 8) 52 40
def msgEp (l : List Byte) : Nat := bits (field l 8 8) 39 32
def msgCtx (l : List Byte) : Nat := bits (field l 8 8) 31 16
def msgFdid (l : List Byte) : Nat := bits (field l 8 8) 11 0
/-- The checks of R409. -/
def msgOk (l : List Byte) : Bool :=
  let x := field l 8 8
  bits x 63 53 == 0 && bits x 15 12 == 0 && decide (4 ≤ msgLen l) && decide (msgLen l ≤ 4092) && msgLen l % 4 == 0 &&
    msgFdid l != 0 && msgFdid l != 0xFFF
/-- The checks of a descriptor. -/
def asyncOk (k : AsyncKind) (l : List Byte) : Bool :=
  match k with
  | .copy => copyOk l
  | .gather => gatherOk l
  | .message _ => msgOk l
  | .coll => true

/-- The engine reads the descriptor (R403). -/
def State.readAsync (s : State) (o : AsyncOp) : State :=
  let n := descSize o.kind
  if o.addr.toNat % n != 0 then s.endAsync o.id 1
  else match s.asyncKeys o o.addr.toNat n needRD with
    | (.error (k, va), s) => s.asyncFault o k 0 va
    | (.ok ks, s) =>
      let l := s.peekVia o.w.core ks
      if !asyncOk o.kind l then s.endAsync o.id 1
      else s.updAsync o.id (fun (o : AsyncOp) => { o with desc := l, stage := 1 })

/-! Local copies and gathers (R406, R407) -/

/-- How many of `n` bytes in hand are written from `dst` on, where `left` bytes are to be written: all of them at the end, else up to a
boundary of an aligned 8-byte unit, so that none is written in two (R267). -/
def wholeUnits (dst n left : Nat) : Nat := if left ≤ n then left else n - (dst + n) % 8

/-- How many bytes a copy reads next from `src` on, where `left` bytes are to be read: up to the next 4 KiB boundary, so that no aligned
8-byte unit is read in two (R267). -/
def pieceLen (src left : Nat) : Nat := min (4096 - src % 4096) left

/-- An address, modulo 2^64. -/
def addrMod (x : Nat) : Nat := x % 2 ^ 64

/-- COPY_COMPLETE (R406): a local copy moves its next piece, and after the last one makes its countdown and is complete; a
circuit copy is complete when every flit is acknowledged and no NACK for one can still come. -/
def execCopyComplete (op : Nat) (s : State) : Out :=
  match s.async? op with
  | none => .next s
  | some o =>
    let len := copyLen o.desc
    if o.kind != .copy || o.fault.isSome then .next s
    else if o.stage == 2 then
      .next (if len ≤ o.next && o.flits.isEmpty && o.resend.isEmpty && o.due ≤ s.now then s.asyncDone o else s)
    else if o.stage != 1 || copyCirc o.desc then .next s
    else if len ≤ o.next then
      if len == 0 then .next (s.asyncDone o)
      else
        let (ok, s) := s.asyncCount o (copyBobj o.desc) len
        .next (if ok then s.asyncDone o else s)
    else
      let got := o.next + o.carry.length
      let src := addrMod (copySrc o.desc + got)
      let dst := addrMod (copyDst o.desc + o.next)
      let m := pieceLen src (len - got)
      let n := wholeUnits dst (o.carry.length + m) (len - o.next)
      match s.asyncKeys o src m needRD with
      | (.error (k, va), s) => .next (s.asyncFault o k 0 va)
      | (.ok ks, s) =>
        match s.asyncKeys o dst n needW with
        | (.error (k, va), s) => .next (s.asyncFault o k 1 va)
        | (.ok kd, s) =>
          let l := o.carry ++ s.peekVia o.w.core ks
          let s := s.asyncStore o (kd.zip l)
          .next ((s.updAsync op (fun (o : AsyncOp) => { o with next := o.next + n, carry := l.drop n })).post (.copyComplete op))

/-- GATHER_COMPLETE (R407): the next row moves; after the last one the countdown is made. -/
def execGatherComplete (op : Nat) (s : State) : Out :=
  match s.async? op with
  | none => .next s
  | some o =>
    let d := o.desc
    let rowb := field d 24 4
    if o.kind != .gather || o.stage != 1 || o.fault.isSome then .next s
    else if gatherLen d == 0 then .next (s.asyncDone o)
    else if field d 28 4 ≤ o.next then
      let (ok, s) := s.asyncCount o (field d 40 8) (gatherLen d)
      .next (if ok then s.asyncDone o else s)
    else
      let dst := addrMod (field d 8 8 + o.next * rowb)
      match s.asyncKeys o (addrMod (field d 16 8 + 4 * o.next)) 4 needRD with
      | (.error (k, va), s) => .next (s.asyncFault o k 0 va)
      | (.ok ki, s) =>
        let i := leNat (s.peekVia o.w.core ki)
        let done (s : State) (l : List (Nat × Byte)) : State :=
          ((s.asyncStore o l).updAsync op (fun (o : AsyncOp) => { o with next := o.next + 1 })).post (.gatherComplete op)
        match s.asyncKeys o dst rowb needW with
        | (.error (k, va), s) => .next (s.asyncFault o k 1 va)
        | (.ok kd, s) =>
          if i == 0xFFFFFFFF then .next (done s (kd.map (fun k => (k, 0))))
          else match s.asyncKeys o (addrMod (field d 0 8 + i * field d 32 8)) rowb needRD with
            | (.error (k, va), s) => .next (s.asyncFault o k 0 va)
            | (.ok ks, s) => .next (done s (kd.zip (s.peekVia o.w.core ks)))

/-! Circuit copies (R72 to R74, R97) -/

/-- The payload of a copy flit: DADDR is the destination of its first byte (DEDUCED, log 16). -/
def copyPayload (o : AsyncOp) (off : Nat) (l : List Byte) (last : Bool) : List Byte :=
  [BitVec.ofNat 8 (1 + at_ (bnat last) 7), 0] ++ leBytes 2 o.id ++ leBytes 4 off ++ leBytes 8 (addrMod (copyDst o.desc + off)) ++
    leBytes 2 l.length ++ List.replicate 6 0 ++ l ++ List.replicate (220 - l.length) 0

/-- The bytes of a flit of 220, or of the last one, that are read now: up to the boundary of an aligned 8-byte unit of SRC, the bytes past
the flit kept for the next one (R267). -/
def copyFlitRead (src off have_ len : Nat) : Nat :=
  let fin := min (off + 220) len
  min (fin + (8 - (src + fin) % 8) % 8) len - (off + have_)

/-- Flits of a circuit copy go while the barrier is open: those to be sent again first, their bytes read again (log 16). -/
def State.copySend (s : State) (id : Nat) : Nat → State
  | 0 => s
  | fuel + 1 =>
    match s.async? id with
    | none => s
    | some o =>
      let e := copyEntry o.desc
      let len := copyLen o.desc
      if o.stage != 2 || o.fault.isSome || !s.canSend e then s
      else
        let pick : Option (Nat × Bool) := match o.resend with
          | off :: _ => some (off, true)
          | [] => if o.next < len then some (o.next, false) else none
        match pick with
        | none => s
        | some (off, again) =>
          let n := min 220 (len - off)
          let have_ := if again then [] else o.carry
          let m := if again then n else copyFlitRead (copySrc o.desc) off have_.length len
          match s.asyncKeys o (addrMod (copySrc o.desc + off + have_.length)) m needRD with
          | (.error (k, va), s) => s.asyncFault o k 0 va
          | (.ok ks, s) =>
            let l := have_ ++ s.peekVia o.w.core ks
            let s := s.updAsync id (fun (o : AsyncOp) =>
              if again then { o with flits := o.flits ++ [off], resend := o.resend.drop 1 }
              else { o with flits := o.flits ++ [off], next := o.next + n, carry := l.drop n })
            (s.sendFlit (s.circuit e).port.toNat 1 (copyPayload o off (l.take n) (decide (len ≤ off + n))) (.copy id)).copySend id fuel

/-! Messages (R82, R409) -/

/-- An earlier carry of the same wave has not been sent: carries are applied in issue order (R83). -/
def State.carryBefore (s : State) (o : AsyncOp) : Bool :=
  s.asyncs.any (fun (p : AsyncOp) => decide (p.id < o.id) && p.w == o.w && p.kind == o.kind && decide (p.stage < 2))

/-- The payload is read and the packet sent; its answer is due within 1 ms (R404, R409). -/
def State.sendMessage (s : State) (o : AsyncOp) (carry : Bool) : State :=
  if s.carryBefore o then s
  else match s.asyncKeys o (field o.desc 0 8) (msgLen o.desc) needRD with
    | (.error (k, va), s) => s.asyncFault o k 0 va
    | (.ok ks, s) =>
      let (q, s) := s.nextPseq
      let body := leBytes 2 (msgCtx o.desc) ++ leBytes 1 (msgEp o.desc) ++ [0] ++ s.peekVia o.w.core ks
      let s := s.updAsync o.id (fun (o : AsyncOp) => { o with stage := 2, pseq := q.toNat, due := s.now + 1000000 })
      (s.sendPacket (s.packet (if carry then 3 else 5) 1 (msgFdid o.desc) q body)).after 1000000 (.xsendTimeout o.id)

/-- XSEND_TIMEOUT (R404). -/
def execXsendTimeout (op : Nat) (s : State) : Out :=
  match s.async? op with
  | some o => .next (if o.stage == 2 && o.due ≤ s.now && (match o.kind with | .message _ => true | _ => false) then s.endAsync op 6 else s)
  | none => .next s

/-- What an operation does as soon as it can. -/
def State.asyncRun (s : State) (id : Nat) : State :=
  match s.async? id with
  | none => s
  | some o =>
    if o.fault.isSome then s
    else match o.kind, o.stage with
      | .coll, 0 =>
        let s := s.updAsync id (fun (o : AsyncOp) => { o with stage := 2 })
        if o.cause != 0 then s.refuseStart (.op id) o.ctx (o.cause / 65536 - 1) (o.cause % 65536) o.next
        else s.collStart (.op id) o.ctx o.w.core o.addr.toNat
      | .coll, _ => s
      | _, 0 => s.readAsync o
      | .copy, 1 =>
        if copyCirc o.desc then
          let e := copyEntry o.desc
          if (s.circuit e).bind.toNat != o.ctx then s.endAsync id 4
          else if copyLen o.desc == 0 then s.asyncDone o
          else s.updAsync id (fun (o : AsyncOp) => { o with stage := 2, entry := e })
        else s.post (.copyComplete id)
      | .copy, 2 => s.copySend id 64
      | .gather, 1 => s.post (.gatherComplete id)
      | .message c, 1 => s.sendMessage o c
      | _, _ => s

/-! Retirement (R277, R404) -/

/-- An operation on a counter is over. -/
def State.ticketOver (s : State) (t : Ticket) : Bool :=
  t.done || (match s.async? t.op with | some o => decide (3 ≤ o.stage) | none => false)

/-- The oldest operation of a class retires if it is over; an error posts its record. -/
def State.retireOne (s : State) (r : WaveRef) (cls : Nat) : Nat → State
  | 0 => s
  | n + 1 =>
    match s.wave? r with
    | none => s
    | some w =>
      match tget [] w.tickets cls with
      | [] => s
      | t :: rest =>
        if !s.ticketOver t then s
        else
          let s := s.setWave r { w with
            tickets := tset w.tickets cls rest
            wideRet := if 2 ≤ t.scope && !w.wideRet.contains cls then w.wideRet ++ [cls] else w.wideRet }
          let s := match s.async? t.op with
            | some o => if o.stage == 4 then s.fabricErr o.ctx o.cause (asyncSrc o.kind) r.core o.addr.toNat else s
            | none => s
          ({ s with asyncs := s.asyncs.filter (fun (o : AsyncOp) => o.id != t.op) }).retireOne r cls n
/-- ASYNC_RETIRE (R277): operations retire in issue order. -/
def execAsyncRetire (r : WaveRef) (cls : BitVec 3) (s : State) : Out := .next ((s.retireOne r cls.toNat 64).waveExitCheck r)

/-! Copy flits at this device (R97, R406) -/

/-- The next flit of a port's inbox asks for its own row; the acknowledgement that the flit held back may go (R38). -/
def State.inboxNext (s : State) (p : Nat) : State :=
  let s := s.armAck p
  match (s.port p).inbox with
  | (_, m) :: _ => s.post (if field m 8 1 % 16 == 1 then .copyFlitWrite (BitVec.ofNat 5 p) else .crucibleFlitReceive (BitVec.ofNat 5 p))
  | [] => s

/-- The oldest accepted flit leaves the inbox; with `nack` it is refused over the packet plane (R76). -/
def State.dropFlit (s : State) (p : Nat) (nack : Option Nat) : State :=
  let x := s.port p
  match x.inbox with
  | [] => s
  | (_, l) :: rest =>
    let s := s.setPort p { x with inbox := rest, inFault := none }
    let s := match nack, s.entryOf p with
      | some f, some e => s.sendNack (s.circuit e).peerdev.toNat (field l 10 2) (field l 12 4) f
      | _, _ => s
    s.inboxNext p

/-- COPY_FLIT_WRITE (R406): its bytes are written in the bound context, or it waits for RESOLVE, or it is refused. One of an older
topology version whose destination mapping is no longer open is sent again (R76). -/
def execCopyFlitWrite (p : BitVec 5) (s : State) : Out :=
  let n := p.toNat
  let x := s.port n
  match x.inbox with
  | [] => .next s
  | (_, l) :: _ =>
    if field l 8 1 % 16 != 1 || x.inFault.isSome then .next s
    else match s.entryOf n with
      | none => .next (s.dropFlit n none)
      | some e =>
        let c := (s.circuit e).bind.toNat
        if (s.ctx? c).isNone then .next (s.dropFlit n (some 0))
        else match s.devWrite (n / 16 * 4) c (field l 16 8) ((l.drop 32).take (field l 24 2)) with
          | (.ok _, s) => .next (s.dropFlit n none)
          | (.error (k, va), s) =>
            if k == 3 then .next (s.dropFlit n (some 2))
            else if field l 2 2 != s.tvercur.toNat then .next (s.dropFlit n (some 0))
            else
              let (f, s) := s.memFault c k 1 2 e va (.flit n)
              .next (s.setPort n { s.port n with inFault := some f })

/-! Messages and carries at this device (R76, R83) -/

/-- A packet of another topology version is taken only in a drain window of a circuit of that version (R76). -/
def State.versionOk (s : State) (k : Packet) : Bool :=
  k.tver == s.tvercur || (newer s.tvercur k.tver && s.circuits.any (fun (e : Nat × Circuit) => e.2.tver == k.tver && (match e.2.window with | some t => decide (s.now ≤ t) | none => false)))

/-- The target of an endpoint's bytes: a block's scratchpad, or device memory of the context. -/
def State.epTarget (s : State) (unit x kind blk a n need : Nat) : Option Target × State :=
  if kind == 0 then (s.blockTarget x blk a n, s)
  else match s.resolve none unit x 2 a n need with
    | (.ok ks, s) => (some (.keys ks), s)
    | (.error _, s) => (none, s)

/-- The reserved byte of a carry's or message's body is zero (R82). -/
def msgBodyOk (k : Packet) : Bool := field k.body 3 1 == 0

/-- A message is applied: the payload, then the countdown; none where it is rejected (R83). A handle that names no context and a target
that cannot be translated reject it too (DESIGN CHOICE, log 17). -/
def State.applyMessage (s : State) (unit : Nat) (k : Packet) : Option State :=
  let x := field k.body 0 2
  let pay := k.body.drop 4
  if pay.length < 4 || pay.length % 4 != 0 then none
  else match s.ctx? x with
    | none => none
    | some c =>
      match s.devRead unit x (c.ept.toNat + 32 * field k.body 2 1) 32 with
      | (.error _, _) => none
      | (.ok e, s) =>
        let h := field e 0 4
        if !bit h 31 || bits h 29 16 != 0 || field e 4 4 != 0 || field e 28 4 != 0 || field e 24 4 < pay.length then none
        else
          let kind := bnat (bit h 30)
          let (t, s) := s.epTarget unit x kind (h % 65536) (field e 8 8) pay.length needW
          let (b, s) := s.epTarget unit x kind (h % 65536) (field e 16 8) 16 needRW
          match t, b with
          | some t, some b => some ((s.twrite t pay).tcount b pay.length)
          | _, _ => none

/-- A carry or message that reaches this device (R83, R409). -/
def State.receiveMessage (s : State) (l : Nat) (k : Packet) : State :=
  let back := k.src.toNat
  if !s.versionOk k then s.sendNack back k.pseq.toNat 0 0
  else match s.applyMessage (l / 4 * 4) k with
    | some s => s.sendPacket (s.packet 4 4 back 0 (leBytes 2 k.pseq.toNat ++ List.replicate 30 0))
    | none => s.sendNack back k.pseq.toNat 0 0

/-- CARRY (R82, R83). -/
def execCarry (l : BitVec 3) (k : Packet) (s : State) : Out :=
  match s.receive l.toNat k 3 1 (msgBodyOk k) with
  | (false, s) => .next s
  | (true, s) => .next (s.receiveMessage l.toNat k)
/-- SMALL_MESSAGE (R82, R83). -/
def execSmallMessage (l : BitVec 3) (k : Packet) (s : State) : Out :=
  match s.receive l.toNat k 5 1 (msgBodyOk k) with
  | (false, s) => .next s
  | (true, s) => .next (s.receiveMessage l.toNat k)

/-- The message of this device that an answer names. -/
def State.messageOf (s : State) (src pseq : Nat) : Option AsyncOp :=
  s.asyncs.find? (fun (o : AsyncOp) => (match o.kind with | .message _ => true | _ => false) && o.stage == 2 && o.pseq == pseq && msgFdid o.desc == src)

/-- MESSAGE_ACKNOWLEDGEMENT (R409). -/
def execMessageAcknowledgement (l : BitVec 3) (k : Packet) (s : State) : Out :=
  match s.receive l.toNat k 4 4 (leNat (k.body.drop 2) == 0) with
  | (false, s) => .next s
  | (true, s) => match s.messageOf k.src.toNat (field k.body 0 2) with
    | some o => .next (s.asyncDone o)
    | none => .next s

/-- A crucible flit that a NACK names is sent again (R76, R133): the flit of that offset in the stream that has gone through the entry, or,
where none fits an offset of 0, a credit count. -/
def State.cruNack (s : State) (src slot e off : Nat) : State :=
  s.each [0, 1] (fun s c =>
    let i := c * 16 + slot
    let x := s.cx i
    if (s.circuit e).peerdev.toNat != src then s
    else match x.outs.find? (fun (p : Nat × OutStream) => p.2.via.contains e && (p.2.flying ++ p.2.kept).any (fun q => q.1 % 4294967296 == off)),
        x.rankOf e with
      | none, none => s
      | named, back =>
        let r := match named with | some p => p.1 | none => back.getD 0
        let o := tget {} x.outs r
        let hit := (o.flying ++ o.kept).filter (fun (q : Nat × List Byte) => q.1 % 4294967296 == off)
        let rest (l : List (Nat × List Byte)) : List (Nat × List Byte) := l.filter (fun (q : Nat × List Byte) => q.1 % 4294967296 != off)
        let n := tget {} x.ins r
        s.setCx i { x with
          outs := tset x.outs r { o with flying := rest o.flying, kept := rest o.kept, resend := o.resend ++ hit }
          ins := if off == 0 && hit.isEmpty then tset x.ins r { n with due := n.due ++ [n.credited] } else x.ins })

/-- DELIVERY_NACK (R73, R76, R83): it names a message by its PSEQ, a crucible flit, or a copy's flit. -/
def execDeliveryNack (l : BitVec 3) (k : Packet) (s : State) : Out :=
  let xfer := field k.body 0 2
  let off := field k.body 2 4
  let fail := field k.body 6 1
  match s.receive l.toNat k 4 2 ((fail == 0 || fail == 2) && leNat (k.body.drop 7) == 0) with
  | (false, s) => .next s
  | (true, s) => match (if fail == 0 then s.messageOf k.src.toNat xfer else none) with
    | some o => .next (s.endAsync o.id 5)
    | none =>
      match s.asyncs.find? (fun (o : AsyncOp) => o.kind == .copy && o.stage == 2 && o.id % 65536 == xfer && (s.circuit o.entry).peerdev == k.src.truncate 12) with
      | some o =>
        if fail == 2 then .next (s.endAsync o.id 2)
        else if (s.circuit o.entry).st == 0 || (s.circuit o.entry).st == 6 then .next (s.endAsync o.id 3)
        else .next (s.updAsync o.id (fun (o : AsyncOp) => { o with
          flits := o.flits.erase off, resend := if o.resend.contains off || o.next ≤ off then o.resend else o.resend ++ [off] }))
      | none => .next (if 0x8000 ≤ xfer then s.cruNack k.src.toNat (bits xfer 9 6) (xfer % 64) off else s)

end Sys2Proof.Machine
end

