-- ==== Sys2Proof/Machine/Gaffer.lean ====
section
/-! DEFINITION. The gaffer (R85 to R121): its threads, memory view, faults, waits and its instructions. -/

namespace Sys2Proof.Machine

/-! Registers -/

/-- c0 reads zero (R85). -/
def GThread.rd (g : GThread) (r : Nat) : DWord := if r == 0 then 0 else tget 0 g.regs r
/-- Writes to c0 are discarded (R85). -/
def GThread.wr (g : GThread) (r : Nat) (v : DWord) : GThread := if r == 0 then g else { g with regs := tset g.regs r v }

/-- An instruction of the present thread, which is in RUN. -/
def asGaffer (s : State) (k : Nat → GThread → Out) : Out :=
  match s.cur with
  | .gaffer t => if t < 4 && (s.gth t).st == 1 then k t (s.gth t) else .fault .noAgent
  | _ => .fault .noAgent

/-- The instruction completes: its result, and the next word. -/
def State.gDone (s : State) (t d : Nat) (v : DWord) : State :=
  let g := s.gth t
  s.setGth t { g.wr d v with pc := g.pc + 4, st := 1, wait := .none }

/-- The instruction completes without a result. -/
def State.gNext (s : State) (t : Nat) : State :=
  let g := s.gth t
  s.setGth t { g with pc := g.pc + 4, st := 1, wait := .none }

/-- The thread's SCRIPT-START completes (R89, R102). -/
def State.gComplete (s : State) (t status value : Nat) : State :=
  match (s.gth t).cmd with
  | some (st, seq) =>
    match (s.stream st).running.find? (fun r => r.seq == seq) with
    | some r => s.complete st seq r.data status value []
    | none => s
  | none => s

/-- TAKING A THREAD FAULT (R102): FAULT with the cause, the command completes with FAULT, and a bound context gets a fabric
error record. -/
def State.gFault (s : State) (t cause va : Nat) : State :=
  let s := s.gComplete t 9 cause
  let x := (s.gth t).ctx
  let s := s.setGth t { s.gth t with st := 3, fcause := BitVec.ofNat 8 cause, wait := .none, cmd := none }
  match x with
  | some x => s.fabricErr x cause 3 t va
  | none => s

/-- A device-memory access of a thread faulted (R91): a permission fault is MEMFAULT, another waits for RESOLVE. -/
def State.gMemFault (s : State) (t x k acc va : Nat) : State :=
  if k == 3 then s.gFault t 4 va
  else
    let (id, s) := s.memFault x k acc 3 t va (.gaffer t)
    s.setGth t { s.gth t with st := 2, wait := .access id }

/-! General instructions (R103 to R105, R107) -/

/-- The common form: one result from the thread's registers. -/
def gafferResult (s : State) (d : Nat) (v : GThread → DWord) : Out := asGaffer s (fun t g => .next (s.gDone t d (v g)))
/-- A sign-extended immediate. -/
def sext18 (i : BitVec 18) : DWord := i.signExtend 64
/-- A zero-extended immediate. -/
def zext18 (i : BitVec 18) : DWord := i.zeroExtend 64
/-- CSHL by a signed amount. -/
def shiftBy (x b : DWord) : DWord :=
  let n := b.toInt
  if 0 ≤ n && n ≤ 63 then x <<< n.toNat else if -63 ≤ n && n < 0 then x >>> (-n).toNat else 0
/-- CCMP. -/
def compare64 (x y : DWord) : DWord := if x.toInt < y.toInt then BitVec.allOnes 64 else if x == y then 0 else 1

def execCmov (d a : BitVec 4) (s : State) : Out := gafferResult s d.toNat (fun g => g.rd a.toNat)
def execCmovImm (d n : BitVec 4) (i : BitVec 18) (s : State) : Out := gafferResult s d.toNat (fun _ => sext18 i <<< (4 * n.toNat))
def execCadd (d a b : BitVec 4) (s : State) : Out := gafferResult s d.toNat (fun g => g.rd a.toNat + g.rd b.toNat)
def execCaddImm (d a : BitVec 4) (i : BitVec 18) (s : State) : Out := gafferResult s d.toNat (fun g => g.rd a.toNat + sext18 i)
def execCsub (d a b : BitVec 4) (s : State) : Out := gafferResult s d.toNat (fun g => g.rd a.toNat - g.rd b.toNat)
def execCsubImm (d a : BitVec 4) (i : BitVec 18) (s : State) : Out := gafferResult s d.toNat (fun g => g.rd a.toNat - sext18 i)
def execCand (d a b : BitVec 4) (s : State) : Out := gafferResult s d.toNat (fun g => g.rd a.toNat &&& g.rd b.toNat)
def execCandImm (d a : BitVec 4) (i : BitVec 18) (s : State) : Out := gafferResult s d.toNat (fun g => g.rd a.toNat &&& zext18 i)
def execCor (d a b : BitVec 4) (s : State) : Out := gafferResult s d.toNat (fun g => g.rd a.toNat ||| g.rd b.toNat)
def execCorImm (d a : BitVec 4) (i : BitVec 18) (s : State) : Out := gafferResult s d.toNat (fun g => g.rd a.toNat ||| zext18 i)
def execCshl (d a b : BitVec 4) (s : State) : Out := gafferResult s d.toNat (fun g => shiftBy (g.rd a.toNat) (g.rd b.toNat))
def execCshlImm (d a : BitVec 4) (i : BitVec 18) (s : State) : Out := gafferResult s d.toNat (fun g => shiftBy (g.rd a.toNat) (sext18 i))
def execCcmp (d a b : BitVec 4) (s : State) : Out := gafferResult s d.toNat (fun g => compare64 (g.rd a.toNat) (g.rd b.toNat))
def execCcmpImm (d a : BitVec 4) (i : BitVec 18) (s : State) : Out := gafferResult s d.toNat (fun g => compare64 (g.rd a.toNat) (sext18 i))
/-- CTIME (R107). -/
def execCtime (d : BitVec 4) (s : State) : Out := gafferResult s d.toNat (fun _ => BitVec.ofNat 64 s.now)

/-- The conditions of CBR (R105). -/
def cbrHolds (c : Nat) (x : DWord) : Bool :=
  match c with
  | 0 => x == 0
  | 1 => x != 0
  | 2 => decide (x.toInt < 0)
  | 3 => decide (0 ≤ x.toInt)
  | 4 => decide (0 < x.toInt)
  | 5 => decide (x.toInt ≤ 0)
  | _ => false
/-- A branch by a signed word offset. -/
def State.gGoto (s : State) (t : Nat) (pc : DWord) : State := s.setGth t { s.gth t with pc := pc }
/-- The target of a branch. -/
def GThread.target (g : GThread) (i : BitVec 18) : DWord := g.pc + sext18 i * 4

/-- CBR (R105). -/
def execCbr (d c : BitVec 4) (i : BitVec 18) (s : State) : Out :=
  asGaffer s (fun t g => .next (s.gGoto t (if cbrHolds c.toNat (g.rd d.toNat) then g.target i else g.pc + 4)))
/-- CJMP (R105). -/
def execCjmp (i : BitVec 18) (s : State) : Out := asGaffer s (fun t g => .next (s.gGoto t (g.target i)))
/-- CCALL (R105): c15 is the link register. -/
def execCcall (i : BitVec 18) (s : State) : Out :=
  asGaffer s (fun t g => .next ((s.setGth t (g.wr 15 (g.pc + 4))).gGoto t (g.target i)))
/-- An address from which code can be fetched (R90, R102). -/
def codeAddr (pc : Nat) : Bool := pc % 4 == 0 && decide (pc < 0x40000)

/-- CRET (R105); one to an address that is not code is the fault BADPC of the CRET itself, which has no effect (R102). -/
def execCret (s : State) : Out :=
  asGaffer s (fun t g => .next (if codeAddr (g.rd 15).toNat then s.gGoto t (g.rd 15) else s.gFault t 5 0))

/-! Memory (R90 to R93, R106, R118) -/

/-- The ranges of R90: 0 local memory, 1 fabric registers, 2 device memory; beside it the offset in the range. -/
def gafferRange (a : Nat) : Option (Nat × Nat) :=
  if a < 0x40000 then some (0, a)
  else if 0x100000000 ≤ a && a < 0x101000000 then some (1, a - 0x100000000)
  else if 0x10000000000000 ≤ a && a < 0x20000000000000 then some (2, a - 0x10000000000000)
  else none

/-- A fabric register access of 4 or 8 bytes (R93). -/
def State.fabLoad (s : State) (o n : Nat) : Nat := if n == 8 then s.fabRead o + s.fabRead (o + 4) * 2 ^ 32 else s.fabRead o
def State.fabStore (s : State) (o n v : Nat) : State := if n == 8 then (s.fabWrite o v).fabWrite (o + 4) (v / 2 ^ 32) else s.fabWrite o v

/-- The address and size of CLD and CST (R106), with the causes of R102, the lowest first. -/
def gafferAccess (g : GThread) (a : BitVec 4) (sz : BitVec 1) (p : BitVec 17) : Except Nat (Nat × Nat × Nat) :=
  let addr := (g.rd a.toNat + p.zeroExtend 64).toNat
  let n := if sz == 1 then 8 else 4
  if addr % n != 0 then .error 2
  else match gafferRange addr with
    | none => .error 3
    | some (2, o) => if g.ctx.isNone then .error 6 else .ok (2, o, n)
    | some (k, o) => .ok (k, o, n)

/-- CLD (R106): loads, zero-extended; device memory at `.dev` with acquire ordering. -/
def execCld (d a : BitVec 4) (sz : BitVec 1) (p : BitVec 17) (s : State) : Out :=
  asGaffer s (fun t g =>
    match gafferAccess g a sz p, g.ctx with
    | .error c, _ => .next (s.gFault t c 0)
    | .ok (0, o, n), _ => .next (s.gDone t d.toNat (BitVec.ofNat 64 (leNat (s.bytesAt (gafKey o) n))))
    | .ok (1, o, n), _ => .next (s.gDone t d.toNat (BitVec.ofNat 64 (s.fabLoad o n)))
    | .ok (_, o, n), some x =>
      match s.devRead 0 x o n with
      | (.ok l, s) => .next (s.gDone t d.toNat (BitVec.ofNat 64 (leNat l)))
      | (.error (k, va), s) => .next (s.gMemFault t x k 0 va)
    | .ok _, none => .next (s.gFault t 6 0))

/-- CST (R106): stores; device memory at `.dev` with release ordering. -/
def execCst (d a : BitVec 4) (sz : BitVec 1) (p : BitVec 17) (s : State) : Out :=
  asGaffer s (fun t g =>
    let v := (g.rd d.toNat).toNat
    match gafferAccess g a sz p, g.ctx with
    | .error c, _ => .next (s.gFault t c 0)
    | .ok (0, o, n), _ => .next ((s.store (cells (gafKey o) (leBytes n v))).gNext t)
    | .ok (1, o, n), _ => .next ((s.fabStore o n v).gNext t)
    | .ok (_, o, n), some x =>
      match s.devWrite 0 x o (leBytes n v) with
      | (.ok _, s) => .next (s.gNext t)
      | (.error (k, va), s) => .next (s.gMemFault t x k 1 va)
    | .ok _, none => .next (s.gFault t 6 0))

/-- CNOTE (R118). -/
def execCnote (d a b : BitVec 4) (s : State) : Out :=
  asGaffer s (fun t g =>
    let va := (g.rd a.toNat).toNat
    if va % 8 != 0 then .next (s.gFault t 2 0)
    else match g.ctx with
      | none => .next (s.gFault t 6 0)
      | some x =>
        match s.devUpdate 0 x va (fun v => v + (g.rd b.toNat).toNat) with
        | (.ok old, s) => .next (s.gDone t d.toNat (BitVec.ofNat 64 old))
        | (.error (k, va), s) => .next (s.gMemFault t x k 5 va))

/-! Threads (R86, R89) -/

/-- A SCRIPT-START's thread, if it may start (R86): 15 names any IDLE thread, the lowest. -/
def State.freeThread (s : State) (n start : Nat) : Option Nat :=
  if start % 4 != 0 || 0x40000 ≤ start then none
  else if n == 15 then (List.range 4).find? (fun t => (s.gth t).st == 0)
  else if n < 4 && ((s.gth n).st == 0 || (s.gth n).st == 3) then some n
  else none

/-- A thread starts (R86). -/
def State.startThread (s : State) (t start : Nat) (x : Option Nat) (args : List DWord) (cmd : Nat × Word) : State :=
  s.setGth t { ({} : GThread) with
    st := 1, pc := BitVec.ofNat 64 start, ctx := x, cmd := some cmd
    regs := (List.range args.length).foldl (fun r i => tset r (i + 1) (args.getD i 0)) [] }

/-- CHALT (R89). -/
def execChalt (s : State) : Out :=
  asGaffer s (fun t g =>
    let s := s.gComplete t 0 (g.rd 1).toNat
    .next (s.setGth t { s.gth t with st := 0, cmd := none, wait := .none }))

/-! Circuit instructions (R108 to R117) -/

/-- The result word of an entry (R108). -/
def State.resultWord (s : State) (e rc : Nat) : DWord :=
  let c := s.circuit e
  BitVec.ofNat 64 (at_ c.st.toNat 28 + at_ c.status.toNat 24 + at_ (s.port c.port.toNat).st.toNat 16 + rc)

/-- An instruction on the entry that ca names: RC BADOPERAND beyond the table, else a code and a state. -/
def onEntry (s : State) (d a : BitVec 4) (k : Nat → GThread → Nat → Nat × State) : Out :=
  asGaffer s (fun t g =>
    let e := (g.rd a.toNat).toNat
    if 64 ≤ e then .next (s.gDone t d.toNat 3)
    else
      let (rc, s) := k t g e
      .next (s.gDone t d.toNat (s.resultWord e rc)))

/-- CREQ and CPRE (R109): `at_` is the time of the first RSV, if it lies ahead. -/
def State.request (s : State) (t e : Nat) (at_ : Option Nat) : Nat × State :=
  let c := s.circuit e
  let own (s : State) : State := s.setCircuit e { s.circuit e with owner := BitVec.ofNat 2 t }
  let go (s : State) : State :=
    match at_ with
    | some b =>
      (s.moveEntry e { s.circuit e with st := 2, due := b }).atTime b (.cpreStart (BitVec.ofNat 6 e))
    | none => s.sendRsv e
  if c.st == 0 || c.st == 6 then
    let s := own s
    if s.requestOk e then
      let s := s.setCircuit e { s.circuit e with status := 0, attempts := 0, tver := s.tvercur, side := false, freeOnDark := false, tearPending := false }
      (0, go s)
    else (0, s.moveEntry e { s.circuit e with st := 6, status := 8 })
  else if c.st == 2 && c.attempts == 0 then (0, go (own s))
  else (1, s)

/-- CREQ (R109). -/
def execCreq (d a : BitVec 4) (s : State) : Out := onEntry s d a (fun t _ e => s.request t e none)
/-- CPRE (R109). -/
def execCpre (d a b : BitVec 4) (s : State) : Out :=
  onEntry s d a (fun t g e => s.request t e (if s.now < (g.rd b.toNat).toNat then some (g.rd b.toNat).toNat else none))
/-- CSTAT (R111). -/
def execCstat (d a : BitVec 4) (s : State) : Out := onEntry s d a (fun _ _ _ => (0, s))
/-- CBIND (R112). -/
def execCbind (d a b : BitVec 4) (s : State) : Out :=
  onEntry s d a (fun t g e => (0, s.setCircuit e { s.circuit e with bind := (g.rd b.toNat).truncate 16, owner := BitVec.ofNat 2 t }))
/-- CREL (R113). -/
def execCrel (d a : BitVec 4) (s : State) : Out := onEntry s d a (fun _ _ e => (0, s.releaseEntry e))
/-- CTEAR (R113). -/
def execCtear (d a : BitVec 4) (s : State) : Out := onEntry s d a (fun _ _ e => (0, s.tearEntry e))

/-- An entry that CAWAIT waits on is settled (R110). -/
def Circuit.settled (c : Circuit) : Bool := c.st == 0 || c.st == 4 || c.st == 6
/-- A deadline has been reached; 0 means none (R108). -/
def State.reached (s : State) (deadline : Nat) : Bool := deadline != 0 && decide (deadline ≤ s.now)

/-- The thread waits; its deadline, if any, is armed (R108). -/
def State.gWaits (s : State) (t deadline : Nat) (w : GWait) : State :=
  let s := s.setGth t { s.gth t with st := 2, wait := w }
  if deadline == 0 then s else s.atTime deadline (.gafferDeadline (BitVec.ofNat 2 t))

/-- CAWAIT (R110). -/
def execCawait (d a b : BitVec 4) (s : State) : Out :=
  asGaffer s (fun t g =>
    let e := (g.rd a.toNat).toNat
    let dl := (g.rd b.toNat).toNat
    if 64 ≤ e then .next (s.gDone t d.toNat 3)
    else if (s.circuit e).settled then .next (s.gDone t d.toNat (s.resultWord e 0))
    else if s.reached dl then .next (s.gDone t d.toNat (s.resultWord e 2))
    else .next (s.gWaits t dl (.circuit e d.toNat dl)))

/-- The oldest event leaves a thread's queue; with space after a drop, an OVERFLOW event joins it (R98). -/
def State.gPop (s : State) (t : Nat) : DWord × State :=
  let g := s.gth t
  match g.evq with
  | [] => (0, s)
  | w :: l =>
    let ovf : DWord := BitVec.ofNat 64 (at_ 8 56 + at_ g.dropped.toNat 40 + s.now % 2 ^ 40)
    (w, s.setGth t { g with evq := if g.overflow then l ++ [ovf] else l, overflow := false })

/-- CWAIT takes an event or a wake, if there is one (R119). -/
def State.gTake (s : State) (t d : Nat) : Option State :=
  let g := s.gth t
  if !g.evq.isEmpty then
    let (w, s) := s.gPop t
    some (s.gDone t d w)
  else if g.wake != 0 then
    some ((s.setGth t { g with wake := 0 }).gDone t d (BitVec.ofNat 64 (at_ 7 56 + g.wake.toNat)))
  else none

/-- CWAIT (R119). -/
def execCwait (d a : BitVec 4) (s : State) : Out :=
  asGaffer s (fun t g =>
    let dl := (g.rd a.toNat).toNat
    match s.gTake t d.toNat with
    | some s => .next s
    | none => if s.reached dl then .next (s.gDone t d.toNat 0) else .next (s.gWaits t dl (.event d.toNat dl)))

/-- A waiting thread goes on if its condition holds, or its deadline has been reached and may end it. -/
def State.gTry (s : State) (t : Nat) (late : Bool) : State :=
  match (s.gth t).wait with
  | .circuit e d dl =>
    if (s.circuit e).settled then s.gDone t d (s.resultWord e 0)
    else if late && s.reached dl then s.gDone t d (s.resultWord e 2)
    else s
  | .event d dl =>
    match s.gTake t d with
    | some s => s
    | none => if late && s.reached dl then s.gDone t d 0 else s
  | _ => s

/-- GAFFER_DEADLINE (R108). -/
def execGafferDeadline (t : BitVec 2) (s : State) : Out := .next (s.gTry t.toNat true)

/-- CGATE (R114): a port that an entry in use names is refused first, and only otherwise is TARGET looked at; result fields beside PSTATE
and RC are zero, as no entry is named. -/
def execCgate (d a b : BitVec 4) (s : State) : Out :=
  asGaffer s (fun t g =>
    let p := (g.rd a.toNat).toNat
    let v := (g.rd b.toNat).toNat
    let word (s : State) (rc : Nat) : DWord := BitVec.ofNat 64 (at_ (s.port p).st.toNat 16 + rc)
    if 32 ≤ p then .next (s.gDone t d.toNat 3)
    else if (s.entryOf p).isSome then .next (s.gDone t d.toNat (word s 1))
    else if 2 ≤ v % 4 then .next (s.gDone t d.toNat (word s 3))
    else
      let before := (s.port p).badreq
      let s := (s.setPort p { s.port p with badreq := false }).writeOpctl p (v % 8 + at_ (bits v 7 4) 4)
      let bad := (s.port p).badreq
      let s := s.setPort p { s.port p with badreq := before || bad }
      .next (s.gDone t d.toNat (word s (bnat bad))))

/-- CSLOT (R115). -/
def execCslot (d a : BitVec 4) (s : State) : Out :=
  gafferResult s d.toNat (fun g =>
    let e := (g.rd a.toNat).toNat
    if 64 ≤ e then 0 else BitVec.ofNat 64 (s.nextSlot (s.circuit e)))

/-- CVER (R116). -/
def execCver (d a : BitVec 4) (s : State) : Out :=
  asGaffer s (fun t g =>
    let v : BitVec 16 := (g.rd a.toNat).truncate 16
    let s := if newer v s.tvercur then s.setVersion v else s
    .next (s.gDone t d.toNat (BitVec.ofNat 64 s.tvreg)))

/-- CRTT (R117). -/
def execCrtt (d a : BitVec 4) (s : State) : Out :=
  gafferResult s d.toNat (fun g =>
    let p := (g.rd a.toNat).toNat
    if 32 ≤ p || !(s.port p).valid then 0 else (s.port p).rttc.zeroExtend 64)

/-! Fetching (R90, R101, R102) -/

/-- The word at a thread's program counter, or the fault of its fetch. -/
def State.gFetch (s : State) (g : GThread) : Except Nat Nat :=
  if !codeAddr g.pc.toNat then .error 5 else .ok (leNat (s.bytesAt (gafKey g.pc.toNat) 4))

end Sys2Proof.Machine
end

