-- ==== Sys2Proof/Machine/Flags.lean ====
section
/-! DEFINITION. The sticky state of a wave: `vstat` (R333), `xmax` (R337) and the random state `rngs` (R331, R343). -/

namespace Sys2Proof.Machine

/-- `setflags`: raised flags are ORed into `vstat` (R333). -/
def Wave.setflags (w : Wave) (f : Flags) : Wave := { w with vstat := w.vstat ||| f.zeroExtend 32 }

/-- Flags of a list, ORed. -/
def orFlags (l : List Flags) : Flags := l.foldl (fun (x y : Flags) => x ||| y) 0

/-- Source elements are folded into `xmax` (R337): the larger magnitude, or NAN. -/
def Wave.foldMax (w : Wave) (l : List Val) : Wave :=
  let step (x : Word) (v : Val) : Word := match axMag v with
    | none => x ||| 0x80000000
    | some m => BitVec.ofNat 32 (x.toNat / 0x80000000 * 0x80000000 + max (x.toNat % 0x80000000) m)
  { w with xmax := l.foldl step w.xmax }

/-- `rngs` advances by 96 × n × the increment (R331, R343). -/
def Wave.advance (w : Wave) (n : Nat) : Wave := { w with rngs := w.rngs + BitVec.ofNat 64 (96 * n) * golden }

/-- The value of VRAND in lane i (R343). -/
def randWord (rngs : DWord) (i : Nat) : Word := (splitmix64 (rngs + BitVec.ofNat 64 i * golden) >>> 32).truncate 32

end Sys2Proof.Machine
end

