-- ==== Sys2Proof/Machine/Operands.lean ====
section
/-! DEFINITION. Operands of lane instructions: guards and activity (R354), operand codes (R359, R361), the immediate forms
(R352, R421), and the forms in which a lane instruction writes its results (R416 to R418, R240, R301). -/

namespace Sys2Proof.Machine

/-! Guards (R232, R354) -/

/-- Guard g of every lane: g0 reads true. -/
def Wave.guard (w : Wave) (g : Nat) : LaneMask := if g == 0 then allLanes else tget 0 w.guards g
/-- Guard g is written in the lanes of a mask; g0 discards. -/
def Wave.setGuard (w : Wave) (g : Nat) (m v : LaneMask) : Wave :=
  if g == 0 || m == 0 then w else { w with guards := tset w.guards g ((tget 0 w.guards g &&& ~~~m) ||| (v &&& m)) }
/-- A guard under its negate bit. -/
def guardUnder (w : Wave) (g : BitVec 4) (neg : Bool) : LaneMask := if neg then ~~~(w.guard g.toNat) else w.guard g.toNat
/-- `active` (R354): the clause's mask and both guards. -/
def activeMask (w : Wave) (x : Running) (c : LaneCtl) : LaneMask :=
  x.cl.mask &&& guardUnder w c.pidx c.pneg &&& guardUnder w c.qidx c.qneg

/-! Operand codes (R359) -/

/-- The float constants. -/
def floatConstant (k : Nat) : Word :=
  match k with
  | 0 => 0x3F000000 | 1 => 0x3F800000 | 2 => 0x40000000 | 3 => 0x40800000
  | 4 => 0xBF000000 | 5 => 0xBF800000 | 6 => 0xC0000000 | 7 => 0xC0800000
  | 8 => 0x7F800000 | 9 => 0xFF800000 | 10 => 0x7FC00000 | 11 => 0x7F7FFFFF
  | 12 => 0x3FB8AA3B | 13 => 0x3F317218 | 14 => 0x80000000 | _ => 0xFFFFFFFF

/-- What an operand is read from: the wave as the instruction finds it, and the running clause. -/
structure View where
  w  : Wave
  cl : Clause

/-- `operand(code)` in lane i (R361). -/
def View.code (v : View) (x i : Nat) : Word :=
  if x ≤ 0xFF then v.w.vget x i
  else if x ≤ 0x103 then v.cl.args.getD (x - 0x100) 0
  else if x ≤ 0x120 then BitVec.ofNat 32 (x - 0x110)
  else if x ≤ 0x128 then BitVec.ofInt 32 ((0x120 : Int) - x)
  else if x ≤ 0x13F then floatConstant (x - 0x130)
  else match x with
    | 0x180 => BitVec.ofNat 32 i
    | 0x181 => BitVec.ofNat 32 (i / 8)
    | 0x182 => BitVec.ofNat 32 (i % 8)
    | 0x183 => BitVec.ofNat 32 (i / 32)
    | 0x184 => BitVec.ofNat 32 v.w.widx
    | 0x185 => BitVec.ofNat 32 (v.w.widx * 96 + i)
    | _ => BitVec.ofNat 32 v.w.kid
/-- An operand field. -/
def View.op (v : View) (x : BitVec 9) (i : Nat) : Word := v.code x.toNat i
/-- A register pair (R360). -/
def View.pair (v : View) (x : BitVec 9) (i : Nat) : DWord := v.code (x.toNat + 1) i ++ v.code x.toNat i

/-! Registers with a pending long-latency result (R240, R417) -/

/-- Computed results that have not been written yet. -/
def Wave.awaited (w : Wave) : List Op := w.ops.filter (fun o => o.kind == .value)
/-- The wave as an instruction reads it: a register that awaits a computed result reads, lane by lane, as its old or its new
value (free values, log 3). -/
def Wave.seen (w : Wave) (n : Nat) : Wave :=
  ((List.range w.awaited.length).zip w.awaited).foldl (fun (w : Wave) (p : Nat × Op) =>
    match p.2.dst with
    | some d => w.vput d (p.2.lanes &&& maskFrom (fun i => Config.freeBit (n + 96 * p.1 + i))) (fun i => p.2.result.getD i 0)
    | none => w) w
/-- The view of an instruction, and the free values used up. -/
def State.view (s : State) (w : Wave) (x : Running) : View × State :=
  (⟨w.seen s.free, x.cl⟩, { s with free := s.free + 96 * w.awaited.length })

/-! Source operands -/

/-- The sources of one lane, each as a number of its own width. -/
structure Args where
  a : Nat
  b : Nat
  c : Nat
  e : Nat

/-- All sources 32 bits wide. -/
def lrArgs (v : View) (r : LR) (i : Nat) : Args := ⟨(v.op r.a i).toNat, (v.op r.b i).toNat, (v.op r.c i).toNat, (v.op r.e i).toNat⟩
/-- A wide under a 64-bit type. -/
def lrArgsA (v : View) (r : LR) (i : Nat) : Args :=
  if wide r.ty then { lrArgs v r i with a := (v.pair r.a i).toNat } else lrArgs v r i
/-- A and B wide under a 64-bit type. -/
def lrArgsAB (v : View) (r : LR) (i : Nat) : Args :=
  if wide r.ty then { lrArgs v r i with a := (v.pair r.a i).toNat, b := (v.pair r.b i).toNat } else lrArgs v r i
/-- The sources of an L-I form (R421). -/
def liArgs (v : View) (r : LI) (i : Nat) : Args :=
  let f := (v.op r.b i).toNat
  if r.im == 0 then ⟨(v.op r.a i).toNat, r.imm.toNat, f, 0⟩ else ⟨(v.op r.a i).toNat, f, r.imm.toNat, 0⟩

/-! Results -/

/-- What an instruction does in one lane: the words it writes from D up, its flags, and whether the lane traps. -/
structure LaneOut where
  words : List Word
  flags : Flags
  trap  : Bool

/-- One result word. -/
def word1 (x : Word) : LaneOut := ⟨[x], 0, false⟩
/-- One result word and flags. -/
def wordF (x : Nat) (f : Flags) : LaneOut := ⟨[BitVec.ofNat 32 x], f, false⟩
/-- A result of 32 or 64 bits. -/
def wordsOf (width x : Nat) : List Word :=
  if width == 64 then [BitVec.ofNat 32 x, BitVec.ofNat 32 (x >>> 32)] else [BitVec.ofNat 32 x]

/-- The outcomes of the active lanes, in lane order. -/
def laneOuts (m : LaneMask) (eff : Nat → LaneOut) : List LaneOut :=
  (List.range 96).map (fun i => if lane m i then eff i else ⟨[], 0, false⟩)
/-- The outcome of lane i. -/
def outAt (l : List LaneOut) (i : Nat) : LaneOut := l.getD i ⟨[], 0, false⟩

/-- The words of the outcomes are written from register d up in the lanes of a mask. -/
def Wave.putOuts (w : Wave) (d n : Nat) (m : LaneMask) (l : List LaneOut) : Wave :=
  (List.range n).foldl (fun w k => w.vput (d + k) m (fun i => (outAt l i).words.getD k 0)) w
/-- The flags of the outcomes in a mask. -/
def outFlags (m : LaneMask) (l : List LaneOut) : Flags :=
  orFlags ((List.range 96).map (fun i => if lane m i then (outAt l i).flags else 0))

/-- The address of the running clause's present word (R304). -/
def Running.addr (x : Running) : DWord := x.base + BitVec.ofNat 64 (12 * (x.idx + 1))
/-- The rest of a clause after its present instruction. -/
def Running.rest (x : Running) : Option Running := if x.idx + 1 < x.code.length then some { x with idx := x.idx + 1 } else none

/-- The common form (R416): the effect in every active lane, written to n registers from D up; `draws` random results per
lane. -/
def laneOp (s : State) (c : LaneCtl) (d : BitVec 9) (n draws : Nat) (eff : View → Nat → LaneOut) : Out :=
  asLane s (fun r w f x =>
    let m := activeMask w x c
    let (v, s) : View × State := s.view w x
    let l := laneOuts m (eff v)
    let w := (w.putOuts d.toNat n m l).setflags (outFlags m l)
    let w := if m == 0 then w else w.advance draws
    .next ((s.setWave r w).laneNext r f.id))

/-- The form of a conversion (R437): lanes that overflow under `.trp` are held (R301) and write, raise and fold nothing; the
instruction waits when their fragment finds no split-table entry. `ax`: the elements that `.ax` folds. -/
def laneConvert (s : State) (c : LaneCtl) (d : BitVec 9) (n draws : Nat) (ax : View → Nat → List Val)
    (eff : View → Nat → LaneOut) : Out :=
  asLane s (fun r w f x =>
    let m := activeMask w x c
    let (v, s) : View × State := s.view w x
    let l := laneOuts m (eff v)
    let t := maskFrom (fun i => (outAt l i).trap)
    let held := !w.handler && !(w.inTxn f.id && x.cl.txn)
    if t != 0 && held && !s.splitFree r.core then .next (s.wait r f.id)
    else
      let ok := m &&& ~~~t
      let w := ((w.putOuts d.toNat n ok l).setflags (outFlags ok l)).foldMax ((lanesOf ok).flatMap (ax v))
      let w := if m == 0 then w else w.advance draws
      let s := s.setWave r w
      let s := if t == 0 then s else s.laneTrap r f.id 2 t x x.addr x.rest (some x)
      .next (s.laneNext r f.id))

/-- The form that writes a guard (R422). -/
def laneGuard (s : State) (c : LaneCtl) (g : Nat) (eff : View → Nat → Bool × Flags) : Out :=
  asLane s (fun r w f x =>
    let m := activeMask w x c
    let (v, s) : View × State := s.view w x
    let val := maskFrom (fun i => lane m i && (eff v i).1)
    let fl := orFlags ((lanesOf m).map (fun i => (eff v i).2))
    .next ((s.setWave r ((w.setGuard g m val).setflags fl)).laneNext r f.id))

/-- The set-flag of an instruction. -/
def flagOf (c : LaneCtl) : Option Nat := if c.sf.toNat ≤ 11 then some c.sf.toNat else none
/-- A flag at 63 holds the instruction at issue (R240). -/
def Wave.flagFull (w : Wave) (c : LaneCtl) : Bool :=
  match flagOf c with
  | some k => decide (63 ≤ tget 0 w.flags k)
  | none => false

/-- A lane operation with its parts. -/
def laneOperation (fid : Nat) (k : OpKind) (size : Nat) (dst : Option Nat) (c : LaneCtl) (m : LaneMask) : Op :=
  ⟨0, fid, false, k, size, false, dst, 0, [], 0, 0, c.ch.toNat, flagOf c, false, m, [], 0, 0, [], 0, [], []⟩

/-- The form of a long-latency computation (R423, R240): its results and flags are written when the event
LONG_LATENCY_RESULT comes about. -/
def laneLong (s : State) (c : LaneCtl) (d : BitVec 9) (eff : View → Nat → LaneOut) : Out :=
  asLane s (fun r w f x =>
    if w.flagFull c then .next (s.wait r f.id)
    else
      let m := activeMask w x c
      let (v, s) : View × State := s.view w x
      let l := laneOuts m (eff v)
      let o := { laneOperation f.id .value 0 (some d.toNat) c m with
        result := l.map (fun o => o.words.getD 0 0), raised := outFlags m l }
      .next ((s.issueOp r w 0 o).laneNext r f.id))

end Sys2Proof.Machine
end

