-- ==== Sys2Proof/Machine/LaneInt.lean ====
section
/-! DEFINITION. Lane instructions of the integer and of the packed and dot groups (R426 to R432). -/

namespace Sys2Proof.Machine

/-! Results (R420) -/

/-- Bit 0 of SUB: `.sat`. -/
def satOf (r : LR) : Bool := r.sub % 2 == 1
/-- The exact result of a type, saturated or wrapped: the pattern and the flag. -/
def narrow (ty : Nat) (sat : Bool) (x : Int) : Nat × Flags :=
  if sat then (wrapInt (tyWidth ty) (satInt (tyWidth ty) (tySigned ty) x).1, (satInt (tyWidth ty) (tySigned ty) x).2)
  else (wrapInt (tyWidth ty) x, 0)
/-- An exact result of type `ty`. -/
def exact (ty : Nat) (sat : Bool) (x : Int) : LaneOut :=
  ⟨wordsOf (tyWidth ty) (narrow ty sat x).1, (narrow ty sat x).2, false⟩
/-- A source of type `ty` as an integer. -/
def num (ty x : Nat) : Int := intOf (tyWidth ty) (tySigned ty) x
/-- A bit pattern of the width of a type. -/
def pattern (ty x : Nat) : LaneOut := ⟨wordsOf (tyWidth ty) x, 0, false⟩

/-! Effects shared by the L-R and the L-I form -/

def effAdd (ty : Nat) (sat : Bool) (g : Args) : LaneOut := exact ty sat (num ty g.a + num ty g.b)
def effSub (ty : Nat) (sat : Bool) (g : Args) : LaneOut := exact ty sat (num ty g.a - num ty g.b)
def effMul (ty : Nat) (sat : Bool) (g : Args) : LaneOut := exact ty sat (num ty g.a * num ty g.b)
def effMad (ty : Nat) (sat : Bool) (g : Args) : LaneOut := exact ty sat (num ty g.a * num ty g.b + num ty g.c)
def effMin (ty : Nat) (g : Args) : LaneOut := pattern ty (if num ty g.a ≤ num ty g.b then g.a else g.b)
def effMax (ty : Nat) (g : Args) : LaneOut := pattern ty (if num ty g.b ≤ num ty g.a then g.a else g.b)
def effAnd (g : Args) : LaneOut := pattern 1 (g.a &&& g.b)
def effOr (g : Args) : LaneOut := pattern 1 (g.a ||| g.b)
def effXor (g : Args) : LaneOut := pattern 1 (g.a ^^^ g.b)
def effShl (ty : Nat) (g : Args) : LaneOut :=
  pattern ty (if tyWidth ty ≤ g.b then 0 else (g.a <<< g.b) % 2 ^ tyWidth ty)
def effShr (ty : Nat) (g : Args) : LaneOut := pattern ty (if tyWidth ty ≤ g.b then 0 else g.a >>> g.b)
/-- An arithmetic right shift: floor of the signed value divided by 2^n. -/
def effSra (ty : Nat) (g : Args) : LaneOut :=
  pattern ty (wrapInt (tyWidth ty) (intOf (tyWidth ty) true g.a / ((2 ^ min g.b (tyWidth ty) : Nat) : Int)))
def effSel (g : Args) : LaneOut := pattern 1 (if g.c != 0 then g.a else g.b)
/-- Any function of three inputs, bit by bit (R427). -/
def lop3 (lut a b c : Nat) : Nat :=
  sumNat ((List.range 32).map (fun j => at_ (bnat (bit lut (4 * bnat (bit a j) + 2 * bnat (bit b j) + bnat (bit c j)))) j))
/-- The conditions of VCMP (R429). -/
def cmpHolds (cnd : Nat) (x y : Int) : Bool :=
  match cnd with
  | 0 => x == y
  | 1 => x != y
  | 2 => decide (x < y)
  | 3 => decide (x ≤ y)
  | 4 => decide (y < x)
  | 5 => decide (y ≤ x)
  | _ => false
/-- PD and CND in the D field (R422). -/
def pdOf (d : BitVec 9) : Nat := d.toNat % 16
def cndOf (d : BitVec 9) : Nat := d.toNat / 16 % 8
/-- Address of VLEA. -/
def effLea (n : Nat) (signed : Bool) (g : Args) : LaneOut :=
  ⟨wordsOf 64 (wrapInt 64 ((g.a : Int) + intOf 32 signed g.b * ((2 ^ n : Nat) : Int))), 0, false⟩
/-- VSHF (R428). -/
def effShf (left : Bool) (g : Args) : LaneOut :=
  let n := g.c % 32
  pattern 1 (if left then bits ((g.a * 4294967296 + g.b) <<< n) 63 32 else ((g.b * 4294967296 + g.a) >>> n) % 4294967296)
/-- VBFX (R428). -/
def effBfx (ty : Nat) (g : Args) : LaneOut :=
  let pos := g.b % 32
  let len := min g.c (32 - pos)
  if len == 0 then word1 0 else word1 (BitVec.ofInt 32 (intOf len (tySigned ty) (g.a >>> pos)))
/-- VBFI (R428). -/
def effBfi (g : Args) : LaneOut :=
  let pos := g.c % 32
  let len := min g.e (32 - pos)
  let hole := at_ (2 ^ len - 1) pos
  pattern 1 (g.b - (g.b &&& hole) + at_ (g.a % 2 ^ len) pos)

/-! Integer (R426) -/

def execVadd (c : LaneCtl) (r : LR) (s : State) : Out :=
  laneOp s c r.d (tyWidth r.ty / 32) 0 (fun v i => effAdd r.ty (satOf r) (lrArgsAB v r i))
def execVaddI (c : LaneCtl) (r : LI) (s : State) : Out := laneOp s c r.d 1 0 (fun v i => effAdd 0 false (liArgs v r i))
def execVsub (c : LaneCtl) (r : LR) (s : State) : Out :=
  laneOp s c r.d (tyWidth r.ty / 32) 0 (fun v i => effSub r.ty (satOf r) (lrArgsAB v r i))
def execVsubI (c : LaneCtl) (r : LI) (s : State) : Out := laneOp s c r.d 1 0 (fun v i => effSub 0 false (liArgs v r i))
def execVadd3 (c : LaneCtl) (r : LR) (s : State) : Out :=
  laneOp s c r.d 1 0 (fun v i =>
    let g := lrArgs v r i
    exact r.ty (satOf r) (num r.ty g.a + num r.ty g.b + num r.ty g.c))
def execVmul (c : LaneCtl) (r : LR) (s : State) : Out := laneOp s c r.d 1 0 (fun v i => effMul r.ty (satOf r) (lrArgs v r i))
def execVmulI (c : LaneCtl) (r : LI) (s : State) : Out := laneOp s c r.d 1 0 (fun v i => effMul 0 false (liArgs v r i))
def execVmulh (c : LaneCtl) (r : LR) (s : State) : Out :=
  laneOp s c r.d 1 0 (fun v i =>
    let g := lrArgs v r i
    word1 (BitVec.ofInt 32 (num r.ty g.a * num r.ty g.b / 4294967296)))
def execVmad (c : LaneCtl) (r : LR) (s : State) : Out := laneOp s c r.d 1 0 (fun v i => effMad r.ty (satOf r) (lrArgs v r i))
def execVmadI (c : LaneCtl) (r : LI) (s : State) : Out := laneOp s c r.d 1 0 (fun v i => effMad 0 false (liArgs v r i))
/-- VMADW: into a 64-bit pair, C signed for i32 and unsigned for n32; the result is the 64-bit type of that signedness. -/
def execVmadw (c : LaneCtl) (r : LR) (s : State) : Out :=
  laneOp s c r.d 2 0 (fun v i =>
    let g := lrArgs v r i
    exact (r.ty + 6) (satOf r) (num r.ty g.a * num r.ty g.b + num (r.ty + 6) (v.pair r.c i).toNat))
def execVmin (c : LaneCtl) (r : LR) (s : State) : Out := laneOp s c r.d (tyWidth r.ty / 32) 0 (fun v i => effMin r.ty (lrArgsAB v r i))
def execVminI (c : LaneCtl) (r : LI) (s : State) : Out := laneOp s c r.d 1 0 (fun v i => effMin 0 (liArgs v r i))
def execVmax (c : LaneCtl) (r : LR) (s : State) : Out := laneOp s c r.d (tyWidth r.ty / 32) 0 (fun v i => effMax r.ty (lrArgsAB v r i))
def execVmaxI (c : LaneCtl) (r : LI) (s : State) : Out := laneOp s c r.d 1 0 (fun v i => effMax 0 (liArgs v r i))
def execVabs (c : LaneCtl) (r : LR) (s : State) : Out :=
  laneOp s c r.d (tyWidth r.ty / 32) 0 (fun v i => exact r.ty (satOf r) ((num r.ty (lrArgsA v r i).a).natAbs : Int))
def execVneg (c : LaneCtl) (r : LR) (s : State) : Out :=
  laneOp s c r.d (tyWidth r.ty / 32) 0 (fun v i => exact r.ty (satOf r) (-(num r.ty (lrArgsA v r i).a)))
def execVand (c : LaneCtl) (r : LR) (s : State) : Out := laneOp s c r.d 1 0 (fun v i => effAnd (lrArgs v r i))
def execVandI (c : LaneCtl) (r : LI) (s : State) : Out := laneOp s c r.d 1 0 (fun v i => effAnd (liArgs v r i))
def execVor (c : LaneCtl) (r : LR) (s : State) : Out := laneOp s c r.d 1 0 (fun v i => effOr (lrArgs v r i))
def execVorI (c : LaneCtl) (r : LI) (s : State) : Out := laneOp s c r.d 1 0 (fun v i => effOr (liArgs v r i))
def execVxor (c : LaneCtl) (r : LR) (s : State) : Out := laneOp s c r.d 1 0 (fun v i => effXor (lrArgs v r i))
def execVxorI (c : LaneCtl) (r : LI) (s : State) : Out := laneOp s c r.d 1 0 (fun v i => effXor (liArgs v r i))
def execVlop3 (c : LaneCtl) (r : LR) (s : State) : Out :=
  laneOp s c r.d 1 0 (fun v i =>
    let g := lrArgs v r i
    pattern 1 (lop3 (r.modf.toNat % 256) g.a g.b g.c))
/-- VLOP3 with an immediate table: its third input is the old D (R427). -/
def execVlop3I (c : LaneCtl) (r : LI) (s : State) : Out :=
  laneOp s c r.d 1 0 (fun v i => pattern 1 (lop3 (r.imm.toNat % 256) (v.op r.a i).toNat (v.op r.b i).toNat (v.op r.d i).toNat))
def execVshl (c : LaneCtl) (r : LR) (s : State) : Out := laneOp s c r.d (tyWidth r.ty / 32) 0 (fun v i => effShl r.ty (lrArgsA v r i))
def execVshlI (c : LaneCtl) (r : LI) (s : State) : Out := laneOp s c r.d 1 0 (fun v i => effShl 0 (liArgs v r i))
def execVshr (c : LaneCtl) (r : LR) (s : State) : Out := laneOp s c r.d (tyWidth r.ty / 32) 0 (fun v i => effShr r.ty (lrArgsA v r i))
def execVshrI (c : LaneCtl) (r : LI) (s : State) : Out := laneOp s c r.d 1 0 (fun v i => effShr 0 (liArgs v r i))
def execVsra (c : LaneCtl) (r : LR) (s : State) : Out := laneOp s c r.d (tyWidth r.ty / 32) 0 (fun v i => effSra r.ty (lrArgsA v r i))
def execVsraI (c : LaneCtl) (r : LI) (s : State) : Out := laneOp s c r.d 1 0 (fun v i => effSra 0 (liArgs v r i))
def execVshf (c : LaneCtl) (r : LR) (s : State) : Out := laneOp s c r.d 1 0 (fun v i => effShf (r.sub % 2 == 1) (lrArgs v r i))
def execVbfx (c : LaneCtl) (r : LR) (s : State) : Out := laneOp s c r.d 1 0 (fun v i => effBfx r.ty (lrArgs v r i))
def execVbfi (c : LaneCtl) (r : LR) (s : State) : Out := laneOp s c r.d 1 0 (fun v i => effBfi (lrArgs v r i))
def execVclz (c : LaneCtl) (r : LR) (s : State) : Out := laneOp s c r.d 1 0 (fun v i => word1 (BitVec.ofNat 32 (clz32 (v.op r.a i))))
def execVpopc (c : LaneCtl) (r : LR) (s : State) : Out := laneOp s c r.d 1 0 (fun v i => word1 (BitVec.ofNat 32 (popc32 (v.op r.a i))))
def execVbrev (c : LaneCtl) (r : LR) (s : State) : Out := laneOp s c r.d 1 0 (fun v i => word1 (brev32 (v.op r.a i)))
def execVcmp (c : LaneCtl) (r : LR) (s : State) : Out :=
  laneGuard s c (pdOf r.d) (fun v i =>
    let g := lrArgsAB v r i
    (cmpHolds (cndOf r.d) (num r.ty g.a) (num r.ty g.b), 0))
def execVcmpI (c : LaneCtl) (r : LI) (s : State) : Out :=
  laneGuard s c (pdOf r.d) (fun v i =>
    let g := liArgs v r i
    (cmpHolds (cndOf r.d) (num 0 g.a) (num 0 g.b), 0))
def execVsel (c : LaneCtl) (r : LR) (s : State) : Out := laneOp s c r.d 1 0 (fun v i => effSel (lrArgs v r i))
def execVselI (c : LaneCtl) (r : LI) (s : State) : Out := laneOp s c r.d 1 0 (fun v i => effSel (liArgs v r i))
def execVmov (c : LaneCtl) (r : LR) (s : State) : Out := laneOp s c r.d (tyWidth r.ty / 32) 0 (fun v i => pattern r.ty (lrArgsA v r i).a)
def execVmovI (c : LaneCtl) (r : LI) (s : State) : Out := laneOp s c r.d 1 0 (fun _ _ => word1 r.imm)
def execVlea (c : LaneCtl) (r : LR) (s : State) : Out :=
  laneOp s c r.d 2 0 (fun v i => effLea (r.sub % 8) (r.sub / 8 % 2 == 1) { lrArgs v r i with a := (v.pair r.a i).toNat })

/-! Packed and dot (R430 to R432) -/

/-- Element k of width w of a pattern (R430). -/
def elem (w x k : Nat) : Nat := (x >>> (w * k)) % 2 ^ w
/-- Elements of width w packed from bit 0 up. -/
def packElems (w : Nat) (l : List Nat) : Nat := l.foldr (fun x acc => x % 2 ^ w + 2 ^ w * acc) 0

/-- Both halves, each an exact result of a 16-bit type. -/
def effHalves (ty : Nat) (sat : Bool) (g : Args) (f : Int → Int → Int) : LaneOut :=
  let h (k : Nat) : Nat × Flags := narrow ty sat (f (num ty (elem 16 g.a k)) (num ty (elem 16 g.b k)))
  wordF (packElems 16 [(h 0).1, (h 1).1]) ((h 0).2 ||| (h 1).2)
/-- imm32 supplies both halves of B. -/
def execVadd2 (c : LaneCtl) (r : LR) (s : State) : Out :=
  laneOp s c r.d 1 0 (fun v i => effHalves r.ty (satOf r) (lrArgs v r i) (fun x y => x + y))
def execVadd2I (c : LaneCtl) (r : LI) (s : State) : Out := laneOp s c r.d 1 0 (fun v i => effHalves 2 false (liArgs v r i) (fun x y => x + y))
def execVsub2 (c : LaneCtl) (r : LR) (s : State) : Out :=
  laneOp s c r.d 1 0 (fun v i => effHalves r.ty (satOf r) (lrArgs v r i) (fun x y => x - y))
def execVsub2I (c : LaneCtl) (r : LI) (s : State) : Out := laneOp s c r.d 1 0 (fun v i => effHalves 2 false (liArgs v r i) (fun x y => x - y))
def execVmul2 (c : LaneCtl) (r : LR) (s : State) : Out :=
  laneOp s c r.d 1 0 (fun v i => effHalves r.ty (satOf r) (lrArgs v r i) (fun x y => x * y))
def execVmul2I (c : LaneCtl) (r : LI) (s : State) : Out := laneOp s c r.d 1 0 (fun v i => effHalves 2 false (liArgs v r i) (fun x y => x * y))
/-- VMAC2 (R431): C is a signed 32-bit number in both types, and the result always saturates. -/
def execVmac2 (c : LaneCtl) (r : LR) (s : State) : Out :=
  laneOp s c r.d 1 0 (fun v i =>
    let g := lrArgs v r i
    let p (k : Nat) : Int := num r.ty (elem 16 g.a k) * num r.ty (elem 16 g.b k)
    exact 0 true (num 0 g.c + p 0 + p 1))
/-- VSAT. -/
def execVsat (c : LaneCtl) (r : LR) (s : State) : Out :=
  laneOp s c r.d 1 0 (fun v i =>
    let x := satInt (tyWidth r.ty) (tySigned r.ty) (num 0 (v.op r.a i).toNat)
    ⟨[BitVec.ofInt 32 x.1], x.2, false⟩)
/-- One rounding right shift (R431). -/
def roundShift (x : Int) (n : Nat) : Int := if n == 0 then x else (x + ((2 ^ (n - 1) : Nat) : Int)) / ((2 ^ n : Nat) : Int)
/-- VSHRR (R431). -/
def effShrr (ty : Nat) (g : Args) : LaneOut :=
  if tyWidth ty == 32 then pattern 1 (wrapInt 32 (roundShift (num ty g.a) (g.b % 32)))
  else
    let h (k : Nat) : Nat := wrapInt 16 (roundShift (num ty (elem 16 g.a k)) (elem 16 g.b k % 16))
    pattern 1 (packElems 16 [h 0, h 1])
def execVshrr (c : LaneCtl) (r : LR) (s : State) : Out := laneOp s c r.d 1 0 (fun v i => effShrr r.ty (lrArgs v r i))
def execVshrrI (c : LaneCtl) (r : LI) (s : State) : Out := laneOp s c r.d 1 0 (fun v i => effShrr 2 (liArgs v r i))
/-- The sum of products of n elements of width w. -/
def dot (w n : Nat) (signed : Bool) (a b : Nat) : Int :=
  (List.range n).foldl (fun acc k => acc + intOf w signed (elem w a k) * intOf w signed (elem w b k)) 0
/-- VDOT4 (R432): C and the clamp have the signedness of the type; i8 → i32, n8 → n32. -/
def execVdot4 (c : LaneCtl) (r : LR) (s : State) : Out :=
  laneOp s c r.d 1 0 (fun v i =>
    let g := lrArgs v r i
    exact (r.ty - 4) (satOf r) (num (r.ty - 4) g.c + dot 8 4 (tySigned r.ty) g.a g.b))
/-- VDOT8 (R432): nibbles. -/
def execVdot8 (c : LaneCtl) (r : LR) (s : State) : Out :=
  laneOp s c r.d 1 0 (fun v i =>
    let g := lrArgs v r i
    exact (r.ty - 4) (satOf r) (num (r.ty - 4) g.c + dot 4 8 (tySigned r.ty) g.a g.b))
/-- VDOTT (R432): twenty trits of A by twenty nibbles of B to B + 2; C and the clamp are signed. -/
def execVdott (c : LaneCtl) (r : LR) (s : State) : Out :=
  laneOp s c r.d 1 0 (fun v i =>
    let b := v.code r.b.toNat i
    let x := (v.code (r.b.toNat + 2) i).toNat <<< 64 ||| (v.code (r.b.toNat + 1) i).toNat <<< 32 ||| b.toNat
    let ts := (List.range 4).map (fun j => trits (elem 8 (v.op r.a i).toNat j))
    let t := ts.flatMap (fun p => p.1)
    let sum := (List.range 20).foldl (fun (acc : Int) k => acc + t.getD k 0 * intOf 4 (tySigned r.ty) (elem 4 x k)) 0
    let o := exact 0 (satOf r) (num 0 (v.op r.c i).toNat + sum)
    { o with flags := o.flags ||| invIf (ts.any (fun p => p.2)) })

end Sys2Proof.Machine
end

