-- ==== Sys2Proof/Machine/LaneFloat.lean ====
section
/-! DEFINITION. Lane instructions of the float and convert groups (R433 to R442). -/

namespace Sys2Proof.Machine

/-- Random results per lane under a rounding mode: n under `.rs` (code 4). -/
def drawsOf (rnd n : Nat) : Nat := if rnd == 4 then n else 0
/-- An FP32 source. -/
def f32 (x : Nat) : Val := fp32.decode x
/-- A float result in format f. -/
def floatOut (f : Fmt) (r : ValF) (mode draw : Nat) : LaneOut := wordF (finish f r mode draw).1 (finish f r mode draw).2
/-- A result of a special function. -/
def fnOut (r : Nat × Flags) : LaneOut := wordF r.1 r.2

def effFadd (mode draw : Nat) (g : Args) : LaneOut := floatOut fp32 (vAdd mode (f32 g.a) (f32 g.b)) mode draw
def effFsub (mode draw : Nat) (g : Args) : LaneOut := floatOut fp32 (vAdd mode (f32 g.a) (f32 g.b).negate) mode draw
def effFmul (mode draw : Nat) (g : Args) : LaneOut := floatOut fp32 (vMul (f32 g.a) (f32 g.b)) mode draw
def effFma (mode draw : Nat) (g : Args) : LaneOut := floatOut fp32 (vFma mode (f32 g.a) (f32 g.b) (f32 g.c)) mode draw
/-- VFMIN and VFMAX (R434). -/
def effFmin (g : Args) : LaneOut := floatOut fp32 (vMinMax false (f32 g.a) (f32 g.b)) 0 0
def effFmax (g : Args) : LaneOut := floatOut fp32 (vMinMax true (f32 g.a) (f32 g.b)) 0 0

def execVfadd (c : LaneCtl) (r : LR) (s : State) : Out :=
  laneOp s c r.d 1 (drawsOf r.rnd 1) (fun v i => effFadd r.rnd (draw24 v.w.rngs i 0) (lrArgs v r i))
def execVfaddI (c : LaneCtl) (r : LI) (s : State) : Out := laneOp s c r.d 1 0 (fun v i => effFadd 0 0 (liArgs v r i))
def execVfsub (c : LaneCtl) (r : LR) (s : State) : Out :=
  laneOp s c r.d 1 (drawsOf r.rnd 1) (fun v i => effFsub r.rnd (draw24 v.w.rngs i 0) (lrArgs v r i))
def execVfsubI (c : LaneCtl) (r : LI) (s : State) : Out := laneOp s c r.d 1 0 (fun v i => effFsub 0 0 (liArgs v r i))
def execVfmul (c : LaneCtl) (r : LR) (s : State) : Out :=
  laneOp s c r.d 1 (drawsOf r.rnd 1) (fun v i => effFmul r.rnd (draw24 v.w.rngs i 0) (lrArgs v r i))
def execVfmulI (c : LaneCtl) (r : LI) (s : State) : Out := laneOp s c r.d 1 0 (fun v i => effFmul 0 0 (liArgs v r i))
def execVfma (c : LaneCtl) (r : LR) (s : State) : Out :=
  laneOp s c r.d 1 (drawsOf r.rnd 1) (fun v i => effFma r.rnd (draw24 v.w.rngs i 0) (lrArgs v r i))
def execVfmaI (c : LaneCtl) (r : LI) (s : State) : Out := laneOp s c r.d 1 0 (fun v i => effFma 0 0 (liArgs v r i))
def execVfmin (c : LaneCtl) (r : LR) (s : State) : Out := laneOp s c r.d 1 0 (fun v i => effFmin (lrArgs v r i))
def execVfminI (c : LaneCtl) (r : LI) (s : State) : Out := laneOp s c r.d 1 0 (fun v i => effFmin (liArgs v r i))
def execVfmax (c : LaneCtl) (r : LR) (s : State) : Out := laneOp s c r.d 1 0 (fun v i => effFmax (lrArgs v r i))
def execVfmaxI (c : LaneCtl) (r : LI) (s : State) : Out := laneOp s c r.d 1 0 (fun v i => effFmax (liArgs v r i))
def execVfabs (c : LaneCtl) (r : LR) (s : State) : Out := laneOp s c r.d 1 0 (fun v i => floatOut fp32 (vAbs (f32 (lrArgs v r i).a)) 0 0)

/-- The conditions of VFCMP (R435). -/
def fcmpHolds (cnd : Nat) (a b : Val) : Bool :=
  if isNan a || isNan b then cnd == 1 || cnd == 6
  else match cnd with
    | 0 => cmpVal a b == 0
    | 1 => cmpVal a b != 0
    | 2 => cmpVal a b == -1
    | 3 => cmpVal a b != 1
    | 4 => cmpVal a b == 1
    | 5 => cmpVal a b != -1
    | _ => false
def effFcmp (cnd : Nat) (g : Args) : Bool × Flags := (fcmpHolds cnd (f32 g.a) (f32 g.b), invIf (anySig (f32 g.a) || anySig (f32 g.b)))
def execVfcmp (c : LaneCtl) (r : LR) (s : State) : Out := laneGuard s c (pdOf r.d) (fun v i => effFcmp (cndOf r.d) (lrArgs v r i))
def execVfcmpI (c : LaneCtl) (r : LI) (s : State) : Out := laneGuard s c (pdOf r.d) (fun v i => effFcmp (cndOf r.d) (liArgs v r i))

/-- The class bit of an FP32 pattern (R436). -/
def fclass (x : Nat) : Nat :=
  match f32 x with
  | .nan s => if s then 8 else 9
  | .inf n => if n then 0 else 7
  | .fin n m _ =>
    if m == 0 then (if n then 3 else 4)
    else if m < 8388608 then (if n then 2 else 5)
    else if n then 1 else 6
def execVfclass (c : LaneCtl) (r : LR) (s : State) : Out := laneOp s c r.d 1 0 (fun v i => wordF (at_ 1 (fclass (v.op r.a i).toNat)) 0)
/-- VFRND: the integral value by the mode. -/
def frnd (mode x : Nat) : Nat × Flags :=
  match f32 x with
  | .nan s => nanResult s
  | .inf _ => (x, 0)
  | .fin n m e =>
    if m == 0 then (x, 0)
    else
      let (k, inx) := roundTo 0 n m e mode 0
      ((fp32.encode (.fin n k 0) 0 1 0).bits, if inx then fINX else 0)
def execVfrnd (c : LaneCtl) (r : LR) (s : State) : Out := laneOp s c r.d 1 0 (fun v i => fnOut (frnd r.rnd (v.op r.a i).toNat))

def execVfdiv (c : LaneCtl) (r : LR) (s : State) : Out :=
  laneLong s c r.d (fun v i => floatOut fp32 (vDiv (f32 (lrArgs v r i).a) (f32 (lrArgs v r i).b)) r.rnd 0)
def execVfsqrt (c : LaneCtl) (r : LR) (s : State) : Out := laneLong s c r.d (fun v i => floatOut fp32 (vSqrt (f32 (lrArgs v r i).a)) r.rnd 0)
def execVfrcp (c : LaneCtl) (r : LR) (s : State) : Out := laneLong s c r.d (fun v i => fnOut (frcp (v.op r.a i).toNat))
def execVfrsq (c : LaneCtl) (r : LR) (s : State) : Out := laneLong s c r.d (fun v i => fnOut (frsq (v.op r.a i).toNat))
def execVfex2 (c : LaneCtl) (r : LR) (s : State) : Out := laneLong s c r.d (fun v i => fnOut (fex2 (v.op r.a i).toNat))
def execVflg2 (c : LaneCtl) (r : LR) (s : State) : Out := laneLong s c r.d (fun v i => fnOut (flg2 (v.op r.a i).toNat))
def execVfsin (c : LaneCtl) (r : LR) (s : State) : Out := laneLong s c r.d (fun v i => fnOut (fsin (v.op r.a i).toNat))
def execVfcos (c : LaneCtl) (r : LR) (s : State) : Out := laneLong s c r.d (fun v i => fnOut (fcos (v.op r.a i).toNat))
def execVftanh (c : LaneCtl) (r : LR) (s : State) : Out := laneLong s c r.d (fun v i => fnOut (ftanh (v.op r.a i).toNat))

/-- Both halves in a 16-bit float type; half k is random result k. -/
def effFloat2 (v : View) (r : LR) (i : Nat) (f : Val → Val → Val → ValF) : LaneOut :=
  let g := lrArgs v r i
  let t := tyFmt r.ty
  let h (k : Nat) : Nat × Flags :=
    finish t (f (t.decode (elem 16 g.a k)) (t.decode (elem 16 g.b k)) (t.decode (elem 16 g.c k))) r.rnd (draw24 v.w.rngs i k)
  wordF (packElems 16 [(h 0).1, (h 1).1]) ((h 0).2 ||| (h 1).2)
def execVhfma2 (c : LaneCtl) (r : LR) (s : State) : Out :=
  laneOp s c r.d 1 (drawsOf r.rnd 2) (fun v i => effFloat2 v r i (fun x y z => vFma r.rnd x y z))
def execVhadd2 (c : LaneCtl) (r : LR) (s : State) : Out :=
  laneOp s c r.d 1 (drawsOf r.rnd 2) (fun v i => effFloat2 v r i (fun x y _ => vAdd r.rnd x y))
def execVhmul2 (c : LaneCtl) (r : LR) (s : State) : Out :=
  laneOp s c r.d 1 (drawsOf r.rnd 2) (fun v i => effFloat2 v r i (fun x y _ => vMul x y))

/-! Convert (R437 to R442) -/

/-- Source patterns converted element by element (R437): the encodings. -/
def converts (v : View) (r : LR) (i : Nat) (l : List Val) : List Enc :=
  (List.range l.length).zipWith (fun k x => encodeTy r.ty x r.rnd r.pol (draw24 v.w.rngs i k)) l
/-- The flags of encodings. -/
def encFlags (l : List Enc) : Flags := orFlags (l.map (fun e => e.flags))
/-- Whether one traps. -/
def encTrap (l : List Enc) : Bool := l.any (fun e => e.trap)
/-- The registers of one element (R438). -/
def placed (ty b : Nat) : List Word :=
  if tyInt ty && tySigned ty && tyWidth ty < 32 then [BitVec.ofInt 32 (intOf (tyWidth ty) true b)] else wordsOf (tyWidth ty) b
/-- Elements that `.ax` folds. -/
def axOf (r : LR) (l : List Val) : List Val := if r.ax then l else []

/-- The source of VCVT. -/
def cvtSource (v : View) (r : LR) (i : Nat) : Val :=
  decodeTy r.sub (if tyWidth r.sub == 64 then (v.pair r.a i).toNat else (v.op r.a i).toNat)
def effCvt (v : View) (r : LR) (i : Nat) : LaneOut :=
  let e := encodeTy r.ty (cvtSource v r i) r.rnd r.pol (draw24 v.w.rngs i 0)
  ⟨placed r.ty e.bits, e.flags, e.trap⟩
/-- VCVT (R439). -/
def execVcvt (c : LaneCtl) (r : LR) (s : State) : Out :=
  laneConvert s c r.d (if tyWidth r.ty == 64 then 2 else 1) (drawsOf r.rnd 1) (fun v i => axOf r [cvtSource v r i]) (fun v i => effCvt v r i)

/-- Number of elements that VPACK writes for a target width. -/
def packCount (ty : Nat) : Nat := if tyWidth ty == 16 then 2 else 4
/-- The sources of VPACK (R440). -/
def packSources (v : View) (r : LR) (i : Nat) : List Val :=
  (List.range (packCount r.ty)).map (fun k =>
    decodeTy r.sub (match k with | 0 => (v.op r.a i).toNat | 1 => (v.op r.b i).toNat | 2 => (v.op r.c i).toNat | _ => (v.op r.e i).toNat))
/-- VPACK to `.t5`: five signed bytes, clamped to trits. -/
def effPackT5 (v : View) (r : LR) (i : Nat) : LaneOut :=
  let x := (v.op r.a i).toNat + at_ ((v.op r.b i).toNat % 256) 32
  let l := (List.range 5).map (fun k => intOf 8 true (elem 8 x k))
  let far := l.any (fun t => decide (t < -1) || decide (1 < t))
  ⟨[BitVec.ofNat 32 (packTrits l)], if far then fSAT else 0, far && r.pol == 3⟩
def effPack (v : View) (r : LR) (i : Nat) : LaneOut :=
  if r.ty == 16 then effPackT5 v r i
  else
    let l := converts v r i (packSources v r i)
    ⟨[BitVec.ofNat 32 (packElems (tyWidth r.ty) (l.map (fun e => e.bits)))], encFlags l, encTrap l⟩
/-- VPACK (R440). -/
def execVpack (c : LaneCtl) (r : LR) (s : State) : Out :=
  laneConvert s c r.d 1 (drawsOf r.rnd (packCount r.ty)) (fun v i => axOf r (packSources v r i)) (fun v i => effPack v r i)

/-- The elements that VUNPK reads from A (R441). -/
def unpackSources (v : View) (r : LR) (i : Nat) : List Val :=
  let w := tyWidth r.sub
  (List.range (if w == 16 then 2 else 4)).map (fun k => decodeTy r.sub (elem w (v.op r.a i).toNat k))
/-- A `.t5` source: five trits as signed bytes. -/
def effUnpackT5 (x : Word) : LaneOut :=
  let (l, bad) := trits (x.toNat % 256)
  let b := l.map (fun t => wrapInt 8 t)
  ⟨[BitVec.ofNat 32 (packElems 8 (b.take 4)), BitVec.ofNat 32 (b.getD 4 0)], invIf bad, false⟩
def effUnpack (v : View) (r : LR) (i : Nat) : LaneOut :=
  if r.sub == 16 then effUnpackT5 (v.op r.a i)
  else
    let l := converts v r i (unpackSources v r i)
    ⟨l.flatMap (fun e => placed r.ty e.bits), encFlags l, encTrap l⟩
/-- Registers that VUNPK writes. -/
def unpackCount (ty : Nat) : Nat := if ty == 16 || tyWidth ty == 16 then 2 else 4
/-- VUNPK (R441). -/
def execVunpk (c : LaneCtl) (r : LR) (s : State) : Out :=
  laneConvert s c r.d (unpackCount r.sub) (drawsOf r.rnd (unpackCount r.sub)) (fun v i => axOf r (unpackSources v r i))
    (fun v i => effUnpack v r i)

/-- A value scaled by an E8M0 code (R442): a NaN for 0xFF. -/
def e8Scaled (x : Val) (code : Nat) (down : Bool) : Val × Flags :=
  if code == 255 then (.nan false, fINV) else (x.scale (if down then (127 : Int) - code else (code : Int) - 127), 0)
def effQnt (v : View) (r : LR) (i : Nat) (down : Bool) : LaneOut :=
  let (x, f) := e8Scaled (decodeTy r.sub (v.op r.a i).toNat) ((v.op r.b i).toNat % 256) down
  let e := encodeTy r.ty x r.rnd r.pol (draw24 v.w.rngs i 0)
  ⟨placed r.ty e.bits, f ||| e.flags, e.trap⟩
/-- VQNT (R442). -/
def execVqnt (c : LaneCtl) (r : LR) (s : State) : Out :=
  laneConvert s c r.d 1 (drawsOf r.rnd 1) (fun v i => axOf r [decodeTy r.sub (v.op r.a i).toNat]) (fun v i => effQnt v r i true)
/-- VDQNT (R442). -/
def execVdqnt (c : LaneCtl) (r : LR) (s : State) : Out :=
  laneConvert s c r.d 1 0 (fun _ _ => []) (fun v i => effQnt v r i false)

end Sys2Proof.Machine
end

