-- ==== Sys2Proof/Machine/LaneCross.lean ====
section
/-! DEFINITION. Lane instructions of the cross-lane, predicate and random groups (R443 to R451). A source is read from every
lane, active or not (R417). -/

namespace Sys2Proof.Machine

/-! Slides, shuffles, broadcasts (R443 to R445) -/

/-- VSLIDE: elements of width w moved by n; what comes from outside is the element of C in the same place. -/
def effSlide (w : Nat) (n : Int) (a c : Nat → Word) (i : Nat) : LaneOut :=
  let per := 32 / w
  let e (k : Nat) : Nat :=
    let src : Int := ((i * per + k : Nat) : Int) - n
    if 0 ≤ src ∧ src < ((96 * per : Nat) : Int) then elem w (a (src.toNat / per)).toNat (src.toNat % per) else elem w (c i).toNat k
  word1 (BitVec.ofNat 32 (packElems w ((List.range per).map e)))
/-- VSLIDE: the amount is uniform, so it is read in lane 0. -/
def execVslide (c : LaneCtl) (r : LR) (s : State) : Out :=
  laneOp s c r.d 1 0 (fun v i => effSlide (tyWidth r.ty) (v.op r.b 0).toInt (v.op r.a) (v.op r.c) i)
def execVslideI (c : LaneCtl) (r : LI) (s : State) : Out :=
  laneOp s c r.d 1 0 (fun v i =>
    let f := v.op r.b
    if r.im == 0 then effSlide 32 r.imm.toInt (v.op r.a) f i else effSlide 32 (f 0).toInt (v.op r.a) (fun _ => r.imm) i)
/-- VSHFL. -/
def execVshfl (c : LaneCtl) (r : LR) (s : State) : Out :=
  laneOp s c r.d 1 0 (fun v i =>
    let k := (v.op r.b i).toNat
    word1 (if k < 96 then v.op r.a k else v.op r.c i))
/-- VBCAST. -/
def execVbcast (c : LaneCtl) (r : LR) (s : State) : Out :=
  laneOp s c r.d 1 0 (fun v _ => word1 (v.op r.a ((v.op r.b 0).toNat % 96)))
def execVbcastI (c : LaneCtl) (r : LI) (s : State) : Out :=
  laneOp s c r.d 1 0 (fun v _ => word1 (v.op r.a (r.imm.toNat % 96)))

/-! Scans and reductions (R341, R446) -/

/-- One application of an operator: 0 add, 1 max, 2 min, on FP32 (8), i32 (0) or n32 (1). -/
def scanOp (ty op mode : Nat) (x y : Nat) : Nat × Flags :=
  if ty == 8 then
    match op with
    | 0 => finish fp32 (vAdd mode (f32 x) (f32 y)) mode 0
    | 1 => finish fp32 (vMinMax true (f32 x) (f32 y)) 0 0
    | _ => finish fp32 (vMinMax false (f32 x) (f32 y)) 0 0
  else
    match op with
    | 0 => ((x + y) % 4294967296, 0)
    | 1 => (if num ty y ≤ num ty x then x else y, 0)
    | _ => (if num ty x ≤ num ty y then x else y, 0)
/-- The identities of R341. -/
def scanIdentity (ty op : Nat) : Nat :=
  if ty == 8 then (match op with | 0 => 0x80000000 | 1 => 0xFF800000 | _ => 0x7F800000)
  else match op with
    | 0 => 0
    | 1 => wrapInt 32 (intMin 32 (tySigned ty))
    | _ => wrapInt 32 (intMax 32 (tySigned ty))
/-- One step of `ks_scan` at distance d. -/
def ksStep (f : Nat → Nat → Nat × Flags) (y : List (Nat × Flags)) (d : Nat) : List (Nat × Flags) :=
  (List.range 96).map (fun i =>
    let me := y.getD i (0, 0)
    if i < d then (me.1, 0) else f (y.getD (i - d) (0, 0)).1 me.1)
/-- `ks_scan` (R341): the inclusive prefixes, and every flag raised on the way. -/
def ksScan (f : Nat → Nat → Nat × Flags) (x : List Nat) : List Nat × Flags :=
  let r := [1, 2, 4, 8, 16, 32, 64].foldl (fun (acc : List (Nat × Flags) × Flags) d =>
    let y := ksStep f acc.1 d
    (y, acc.2 ||| orFlags (y.map (fun p => p.2)))) (x.map (fun v => (v, (0 : Flags))), 0)
  (r.1.map (fun p => p.1), r.2)
/-- The scanned values of an instruction: inactive lanes take part as the identity. -/
def scanOf (v : View) (r : LR) (m : LaneMask) : List Nat × Flags :=
  ksScan (scanOp r.ty (r.sub % 4) r.rnd) ((List.range 96).map (fun i => if lane m i then (v.op r.a i).toNat else scanIdentity r.ty (r.sub % 4)))
/-- The result of one lane from its scanned value, with the carry of C under CY; a NaN that no application has touched is written as the
canonical one (R322). -/
def withCarry (v : View) (r : LR) (i p : Nat) : LaneOut :=
  if r.sub / 4 % 2 == 1 then fnOut (scanOp r.ty (r.sub % 4) r.rnd (v.op r.c i).toNat p)
  else wordF (if r.ty == 8 && isNan (f32 p) then 0x7FC00000 else p) 0
/-- Scans and reductions: flags of every application are raised once, with some active lane. -/
def laneScan (s : State) (c : LaneCtl) (r : LR) (pick : List Nat → Nat → Nat) : Out :=
  asLane s (fun ref w f x =>
    let m := activeMask w x c
    let (v, s) : View × State := s.view w x
    let y := scanOf v r m
    let l := laneOuts m (fun i => withCarry v r i (pick y.1 i))
    let fl := if m == 0 then 0 else outFlags m l ||| y.2
    .next ((s.setWave ref ((w.putOuts r.d.toNat 1 m l).setflags fl)).laneNext ref f.id))
/-- VSCAN: EX is SUB[3]. -/
def execVscan (c : LaneCtl) (r : LR) (s : State) : Out :=
  laneScan s c r (fun y i => if r.sub / 8 % 2 == 1 then (if i == 0 then scanIdentity r.ty (r.sub % 4) else y.getD (i - 1) 0) else y.getD i 0)
/-- VRED. -/
def execVred (c : LaneCtl) (r : LR) (s : State) : Out := laneScan s c r (fun y _ => y.getD 95 0)

/-! Ballots and exchange slots (R447, R448) -/

/-- VBALLOT: three words and the population count to every active lane. -/
def execVballot (c : LaneCtl) (r : LR) (s : State) : Out :=
  asLane s (fun ref w f x =>
    let m := activeMask w x c
    let (v, s) : View × State := s.view w x
    let test (i : Nat) : Bool := if 16 ≤ r.sub then lane (w.guard (r.sub % 16)) i else v.op r.a i != 0
    let b := maskFrom (fun i => lane m i && test i)
    let o : LaneOut := ⟨[maskWord b 0, maskWord b 1, maskWord b 2, BitVec.ofNat 32 (lanesOf b).length], 0, false⟩
    .next ((s.setWave ref (w.putOuts r.d.toNat 4 m (laneOuts m (fun _ => o)))).laneNext ref f.id))
/-- VPUT: the lowest active lane's A, or 0, goes to slot k when the result is written. -/
def execVput (c : LaneCtl) (r : LR) (s : State) : Out :=
  asLane s (fun ref w f x =>
    if w.flagFull c then .next (s.wait ref f.id)
    else
      let m := activeMask w x c
      let (v, s) : View × State := s.view w x
      let val := match lanesOf m with | i :: _ => v.op r.a i | [] => 0
      .next ((s.issueOp ref w 0 { laneOperation f.id (.put (r.sub % 8)) 0 none c m with result := [val] }).laneNext ref f.id))

/-! Predicates and random (R449 to R451) -/

/-- GLOP. -/
def execGlop (c : LaneCtl) (r : LR) (s : State) : Out :=
  asLane s (fun ref w f x =>
    let m := activeMask w x c
    let g (k : BitVec 9) (i : Nat) : Nat := bnat (lane (w.guard k.toNat) i)
    let val := maskFrom (fun i => bit r.modf.toNat (4 * g r.a i + 2 * g r.b i + g r.c i))
    .next ((s.setWave ref (w.setGuard r.d.toNat m val)).laneNext ref f.id))
/-- GMOV: mode 0 A ≠ 0, mode 1 a predicate into a register, mode 2 bit i mod 32 of A. -/
def execGmov (c : LaneCtl) (r : LR) (s : State) : Out :=
  if r.sub == 1 then laneOp s c r.d 1 0 (fun v i => word1 (if lane (v.w.guard r.a.toNat) i then BitVec.allOnes 32 else 0))
  else laneGuard s c r.d.toNat (fun v i => (if r.sub == 2 then (v.op r.a i).getLsbD (i % 32) else v.op r.a i != 0, 0))
/-- VRAND. -/
def execVrand (c : LaneCtl) (r : LR) (s : State) : Out := laneOp s c r.d 1 1 (fun v i => word1 (randWord v.w.rngs i))

end Sys2Proof.Machine
end

