-- ==== Sys2Proof/Machine/LaneMem.lean ====
section
/-! DEFINITION. The start of a clause (R238, R356, R358), the completion of long-latency instructions (R240, R455), and the lane
instructions of the memory, atomic and trap-support groups (R452 to R465). -/

namespace Sys2Proof.Machine

/-! Clauses -/

/-- The clause that a fragment's lane stream starts next: one that a re-execute decodes again (R302), else the queue's head.
A running clause without words is one that has not been decoded. -/
def Fragment.nextClause (f : Fragment) : Option (Clause × List Clause) :=
  match f.run with
  | some x => if x.code.isEmpty then some (x.cl, f.queue) else none
  | none => match f.queue with
    | c :: l => some (c, l)
    | [] => none

/-- How many of the noted writes its launch's record was read after (R260). -/
def State.codeSeen (s : State) (w : Wave) : Nat := match s.run? w.launch with | some r => r.seen | none => s.written.length
/-- LENTRY of the launch a wave belongs to. -/
def State.lentry (s : State) (w : Wave) : DWord := match s.run? w.launch with | some r => r.lrec.lentry | none => 0

/-- One 96-bit word of `.lcode`, or the fault of its fetch. -/
def State.laneWord (s : State) (r : WaveRef) (w : Wave) (a : DWord) : Except (Nat × Nat) Nat × State :=
  match s.resolve (w.place r) (unitOf r.core) w.ctx 2 a.toNat 12 needX with
  | (.ok ks, s) => (.ok (leNat (s.fetchCode w.ctx (s.codeSeen w) ks).1), (s.fetchCode w.ctx (s.codeSeen w) ks).2)
  | (.error e, s) => (.error e, s)

/-- A body word under its header (R357, R358, R463): its set-flag is one of the header's, and the trap-support instructions stand
in a handler wave. -/
def underHeader (w : Wave) (h : ClauseHeader) (x : Nat) : Bool :=
  let sf := bits x 67 64
  let opc := bits x 95 86
  (sf == 15 || sf == h.seta.toNat || sf == h.setb.toNat) && (w.handler || !(opc == 0x280 || opc == 0x281 || opc == 0x282))
/-- Matrix and sweep words, which a transaction forbids (R290). -/
def txnForbids (x : Nat) : Bool :=
  let opc := bits x 95 86
  opc == 0x2C0 || opc == 0x2C1 || (decide (0x2E0 ≤ opc) && decide (opc ≤ 0x2E3))

/-- What the words of a clause come to. -/
inductive Decoded where
  | code (l : List Instr)
  /-- word k of the body fails decode. -/
  | bad (k : Nat)
  | forbidden
  | fault (kind va : Nat)

/-- The body of a clause, in word order. -/
def State.laneBody (s : State) (r : WaveRef) (w : Wave) (h : ClauseHeader) (txn : Bool) (a : DWord) :
    Nat → Nat → List Instr → Decoded × State
  | 0, _, acc => (.code acc, s)
  | n + 1, k, acc =>
    match s.laneWord r w (a + BitVec.ofNat 64 (12 * (k + 1))) with
    | (.error (e, va), s) => (.fault e va, s)
    | (.ok x, s) =>
      match decodeLaneIn w.nregs x with
      | none => (.bad k, s)
      | some i =>
        if !underHeader w h x then (.bad k, s)
        else if txn && txnForbids x then (.forbidden, s)
        else s.laneBody r w h txn a n (k + 1) (acc ++ [i])

/-- A clause without effect is gone from its queue. -/
def Fragment.popClause (f : Fragment) (rest : List Clause) : Fragment := { f with run := none, queue := rest, waitSince := none }

/-- A clause that fails decode (R358): it aborts the open transaction it belongs to, whatever its mask; outside one every lane of its
mask is held at the failing word, and re-executing decodes it again. -/
def State.clauseIllegal (s : State) (r : WaveRef) (w : Wave) (f : Fragment) (cl : Clause) (rest : List Clause) (base addr : DWord) : State :=
  let x : Running := ⟨cl, base, ⟨0, 0, 15, 15⟩, [], 0⟩
  if w.inTxn f.id && cl.txn then s.setWave r (w.abort 7 6)
  else if cl.mask == 0 then s.setWave r (w.setFrag (f.popClause rest))
  else if !w.handler && !(w.inTxn f.id && cl.txn) && !s.splitFree r.core then s.wait r f.id
  else (s.setWave r (w.setFrag (f.popClause rest))).laneTrap r f.id 6 cl.mask x addr none (some x)

/-- A fetch of the clause faults; it is tried again after RESOLVE. -/
def State.clauseFault (s : State) (r : WaveRef) (w : Wave) (f : Fragment) (kind va : Nat) : State :=
  (s.memFault w.ctx kind 2 1 r.core va (.clause r f.id)).2

/-- CLAUSE_START (R238): the flags of WAIT are clear, and the whole clause decodes. -/
def execClauseStart (r : WaveRef) (fid : Nat) (s : State) : Out :=
  match s.wave? r with
  | none => .next s
  | some w =>
    match w.frag? fid with
    | none => .next s
    | some f =>
      match f.nextClause with
      | none => .next s
      | some (cl, rest) =>
        let base := (s.lentry w + cl.off) &&& ~~~15
        match s.laneWord r w base with
        | (.error (k, va), s) => .next (s.clauseFault r w f k va)
        | (.ok x, s) =>
          match decodeHeader x with
          | none => .next (s.clauseIllegal r w f cl rest base base)
          | some h =>
            if (List.range 12).any (fun i => h.wait.getLsbD i && tget 0 w.flags i != 0) then .next (s.wait r fid)
            else match s.laneBody r w h (w.inTxn fid && cl.txn) base (h.lenm1.toNat + 1) 0 [] with
              | (.fault k va, s) => .next (s.clauseFault r w f k va)
              | (.bad k, s) => .next (s.clauseIllegal r w f cl rest base (base + BitVec.ofNat 64 (12 * (k + 1))))
              | (.forbidden, s) => .next (s.setWave r (w.abort 4 0))
              | (.code l, s) =>
                .next (s.setWave r (w.setFrag { f with run := some ⟨cl, base, h, l, 0⟩, queue := rest, waitSince := none }))

/-! Loads, stores, atomics (R452 to R461) -/

/-- Bytes of a SIZE code. -/
def sizeBytes (m : BitVec 16) : Nat := 2 ^ sizeOf m
/-- The address of lane i (R452). -/
def laneAddr (v : View) (a : BitVec 9) (off : BitVec 18) (i : Nat) : DWord := v.pair a i + off.signExtend 64
/-- The bytes of a data operand in lane i (R453). -/
def laneData (v : View) (x : BitVec 9) (n i : Nat) : List Byte :=
  if n ≤ 4 then leBytes n (v.op x i).toNat
  else if n == 8 then leBytes 8 (v.pair x i).toNat
  else (List.range 4).flatMap (fun k => leBytes 4 (v.code (x.toNat + k) i).toNat)

/-- Room of a lane access in the replay array (R307). -/
def replayBytes (lanes : Nat) : Nat := (32 + 12 * lanes + 31) / 32 * 32

/-- A lane access at issue: it waits for room and for an earlier acquire; without an active lane it makes no access; inside its
transaction it carries no annotations (R456). -/
def laneAccess (s : State) (c : LaneCtl) (m : BitVec 16) (k : OpKind) (n : Nat) (dst : Option Nat) (part : View → Nat → Part) : Out :=
  asLane s (fun r w f x =>
    let act := activeMask w x c
    if act == 0 then .next (s.laneNext r f.id)
    else if w.flagFull c || s.memHeld r w (replayBytes (lanesOf act).length) (lanesOf act).length then .next (s.wait r f.id)
    else
      let (v, s) : View × State := s.view w x
      let t := w.inTxn f.id && x.cl.txn
      let o := { laneOperation f.id k n dst c act with
        sx := sxOf m, aop := aop m, parts := (lanesOf act).map (part v), txn := t
        ord := if t then 0 else ordOf m, scope := if t then 0 else scopeOf m, hint := if t then 0 else c.ch.toNat }
      .next ((s.issueOp r w (spaceOf m) o).laneNext r f.id))

/-- VLD (R457). -/
def execVld (c : LaneCtl) (r : LM) (s : State) : Out :=
  laneAccess s c r.modf .load (sizeBytes r.modf) (some r.d.toNat) (fun v i => ⟨i, laneAddr v r.a r.off i, [], [], [], none⟩)
/-- VST (R458). -/
def execVst (c : LaneCtl) (r : LM) (s : State) : Out :=
  laneAccess s c r.modf .store (sizeBytes r.modf) none
    (fun v i => ⟨i, laneAddr v r.a r.off i, [], laneData v r.b (sizeBytes r.modf) i, [], none⟩)
/-- The address of an atomic: its low bits are ignored (R454). -/
def alignedAddr (a : DWord) (n : Nat) : DWord := a &&& ~~~(BitVec.ofNat 64 (n - 1))
/-- VATOM, the L-M form (R459). -/
def execVatom (c : LaneCtl) (r : LM) (s : State) : Out :=
  let n := sizeBytes r.modf
  laneAccess s c r.modf .atomic n (some r.d.toNat)
    (fun v i => ⟨i, alignedAddr (laneAddr v r.a r.off i) n, [], laneData v r.b n i, [], none⟩)
/-- VATOM.cas (R459): compared with B, swapped with C. -/
def execVatomCas (c : LaneCtl) (r : LR) (s : State) : Out :=
  let n := sizeBytes r.modf
  laneAccess s c r.modf .atomic n (some r.d.toNat)
    (fun v i => ⟨i, alignedAddr (laneAddr v r.a 0 i) n, [], laneData v r.b n i, laneData v r.c n i, none⟩)
/-- VREDM (R461). -/
def execVredm (c : LaneCtl) (r : LM) (s : State) : Out :=
  let n := sizeBytes r.modf
  laneAccess s c r.modf .reduce n none (fun v i => ⟨i, alignedAddr (laneAddr v r.a r.off i) n, [], laneData v r.b n i, [], none⟩)

/-- One line of a prefetch (R462): into the L1 under hints 0 and 2; a fault or the window region drops it. -/
def State.prefetch (s : State) (r : WaveRef) (w : Wave) (space hint : Nat) (a : DWord) : State :=
  let va := a.toNat / 128 * 128
  if space == 1 || inWindow a.toNat then s
  else match s.translate (unitOf r.core) w.ctx va needRD with
    | (.error _, s) => s
    | (.ok pa, s) =>
      s.l1Hint r.core w.ctx hint ((List.range 4).map (fun k => (va + 32 * k, pa + 32 * k)))
/-- VPREF (R462): it needs a free memory request for each line (R231). -/
def execVpref (c : LaneCtl) (r : LM) (s : State) : Out :=
  asLane s (fun ref w f x =>
    let l := lanesOf (activeMask w x c)
    if !l.isEmpty && s.memFull ref.core 0 l.length then .next (s.wait ref f.id)
    else
    let (v, s) : View × State := s.view w x
    let s := s.each l (fun s i => s.prefetch ref w (spaceOf r.modf) c.ch.toNat (laneAddr v r.a r.off i))
    .next (s.laneNext ref f.id))

/-! Trap support (R463 to R465) -/

/-- The lane of the handler's group that a tag names, and whether it has been resumed. -/
def State.heldBy (s : State) (core : Nat) (tag : Word) : Option (HeldLane × Bool) :=
  (s.core core).handling.find? (fun (p : HeldLane × Bool) => originTag p.1 == tag)
/-- A selector of an origin register: a lane register of the origin's allocation, or a guard (R464). -/
def selectorOk (s : State) (core : Nat) (h : HeldLane) (sel : Nat) : Bool :=
  if sel < 0x100 then (match s.wave? ⟨core, h.slot⟩ with | some w => decide (sel < w.nregs) | none => false)
  else decide (sel < 0x110)
/-- A trap-support instruction in a handler wave; elsewhere its clause is ILLEGAL (R463). -/
def inHandler (s : State) (c : LaneCtl) (k : WaveRef → Wave → Fragment → View → LaneMask → State → Out) : Out :=
  asLane s (fun r w f x =>
    let m := activeMask w x c
    if !w.handler then
      if m != 0 && !(w.inTxn f.id && x.cl.txn) && !s.splitFree r.core then .next (s.wait r f.id)
      else .next ((s.laneTrap r f.id 6 m x x.addr x.rest (some x)).laneNext r f.id)
    else
      let (v, s) : View × State := s.view w x
      k r w f v m s)
/-- The tags and selectors of the active lanes are good, or it is a double fault. -/
def originsOk (s : State) (core : Nat) (v : View) (m : LaneMask) (a b : BitVec 9) : Bool :=
  (lanesOf m).all (fun i => match s.heldBy core (v.op a i) with
    | some (h, done) => done || selectorOk s core h ((v.op b i).toNat % 512)
    | none => false)
/-- VORGLD and VORGST at issue. -/
def originOp (s : State) (c : LaneCtl) (k : OpKind) (dst : Option Nat) (a b d : BitVec 9) : Out :=
  inHandler s c (fun r w f v m s =>
    if w.flagFull c then .next (s.wait r f.id)
    else if !(originsOk s r.core v m a b) then .next (s.fatalCtx w.ctx 1 true)
    else if m == 0 then .next (s.laneNext r f.id)
    else
      let parts := (lanesOf m).map (fun i =>
        (⟨i, (v.op b i) ++ (v.op a i), [], leBytes 4 (v.op d i).toNat, [], none⟩ : Part))
      .next ((s.issueOp r w 0 { laneOperation f.id k 0 dst c m with parts := parts }).laneNext r f.id))
/-- VORGLD (R464). -/
def execVorgld (c : LaneCtl) (r : LR) (s : State) : Out := originOp s c .orgLoad (some r.d.toNat) r.a r.b r.c
/-- VORGST (R464). -/
def execVorgst (c : LaneCtl) (r : LR) (s : State) : Out := originOp s c .orgStore none r.a r.b r.c
/-- VRESUME (R464, R465): it waits for the handler's earlier VORGST. -/
def execVresume (c : LaneCtl) (r : LR) (s : State) : Out :=
  inHandler s c (fun ref w f v m s =>
    if w.ops.any (fun o => o.kind == .orgStore) then .next (s.wait ref f.id)
    else if (lanesOf m).any (fun i => (s.heldBy ref.core (v.op r.a i)).isNone || (v.op r.b i).toNat % 4 == 3) then
      .next (s.fatalCtx w.ctx 1 true)
    else
      let s := s.each (lanesOf m) (fun s i =>
        match s.heldBy ref.core (v.op r.a i) with
        | some (h, false) =>
          let s := s.updCore ref.core (fun (k : Core) => { k with handling := k.handling.map (fun (p : HeldLane × Bool) =>
            if originTag p.1 == v.op r.a i then (p.1, true) else p) })
          s.resumeLane ref.core h ((v.op r.b i).toNat % 4)
        | _ => s)
      .next (s.laneNext ref f.id))

/-- What VORGLD returns for one lane. -/
def State.originRead (s : State) (core : Nat) (tag : Word) (sel : Nat) : Word :=
  match s.heldBy core tag with
  | some (h, false) =>
    (match s.wave? ⟨core, h.slot⟩ with
    | some w => if sel < 0x100 then w.vget sel h.lane else if lane (w.guard (sel - 0x100)) h.lane then BitVec.allOnes 32 else 0
    | none => 0)
  | _ => 0
/-- What VORGST does for one lane. -/
def State.originWrite (s : State) (core : Nat) (tag : Word) (sel : Nat) (x : Word) : State :=
  match s.heldBy core tag with
  | some (h, false) =>
    let m : LaneMask := BitVec.ofNat 96 (at_ 1 h.lane)
    s.updWave ⟨core, h.slot⟩ (fun w =>
      if sel < 0x100 then w.vput sel m (fun _ => x) else w.setGuard (sel - 0x100) m (if x != 0 then m else 0))
  | _ => s

/-! Completion -/

/-- What VORGLD has read for some lanes is written before the rest. -/
def State.originLanes (s : State) (r : WaveRef) (w : Wave) (o : Op) (pick : Nat → Bool) : State :=
  let m := maskFrom (fun i => lane o.lanes i && pick i)
  let vals := (o.parts.filter (fun (p : Part) => pick p.lane)).map (fun (p : Part) =>
    (p.lane, s.originRead r.core (p.va.truncate 32) ((p.va >>> 32).toNat % 512)))
  s.setWave r { w.vput (o.dst.getD 0) m (fun i => match vals.find? (fun p => p.1 == i) with | some p => p.2 | none => 0) with
    ops := w.ops.map (fun (x : Op) => if x.id == o.id then { x with parts := x.parts.filter (fun p => !pick p.lane), lanes := x.lanes &&& ~~~m } else x) }

/-- The lanes of loads, returning atomics and VORGLD under way that have returned when the next instruction of the wave issues: a register
that awaits them reads as old or new, each lane on its own (R417; free values, log 23). -/
def State.someReturn (s : State) (r : WaveRef) : State :=
  match s.wave? r with
  | none => s
  | some w =>
    s.each (w.ops.filter (fun o => !o.scalar && o.dst.isSome && (o.kind == .load || o.kind == .atomic || o.kind == .orgLoad))) (fun s o =>
      let pick (i : Nat) : Bool := Config.freeBit (s.free + i)
      let s' := { s with free := s.free + 96 }
      if o.kind == .orgLoad then (match s.wave? r with | some w => s'.originLanes r w o pick | none => s') else s'.returnLanes r o.id pick)

/-- The results of a long-latency operation that is no memory access. -/
def State.finishValue (s : State) (r : WaveRef) (w : Wave) (o : Op) : State :=
  match o.kind with
  | .value => s.setWave r (((w.vput (o.dst.getD 0) o.lanes (fun i => o.result.getD i 0)).setflags o.raised).finishOp o)
  | .put k => s.setWave r (({ w with xslot := tset w.xslot k (o.result.getD 0 0) }).finishOp o)
  | .orgLoad =>
    (s.originLanes r w o (fun _ => true)).updWave r (fun w => w.finishOp o)
  | .orgStore =>
    let s := s.each o.parts (fun s p => s.originWrite r.core (p.va.truncate 32) ((p.va >>> 32).toNat % 512) (BitVec.ofNat 32 (leNat p.data)))
    s.updWave r (fun w => w.finishOp o)
  | _ => s

/-- LONG_LATENCY_RESULT (R240, R455): results are written, flags raised, the set-flag falls. -/
def execLongLatencyResult (r : WaveRef) (id : Nat) (s : State) : Out :=
  match s.wave? r with
  | none => .next s
  | some w =>
    match w.ops.find? (fun o => o.id == id) with
    | none => .next s
    | some o => .next ((if o.kind.isMem then s.perform r id else s.finishValue r w o).waveExitCheck r)

end Sys2Proof.Machine
end

