-- ==== Sys2Proof/Machine/Matrix.lean ====
section
/-! DEFINITION. The matrix engine (R327 to R329, R339, R340, R466 to R476): format blocks, packed elements, octet operations, and
MMA and MMASP. -/

namespace Sys2Proof.Machine

/-! Element formats (R327) -/

/-- Width in bits of an element format code; a trit has none. -/
def efWidth (f : Nat) : Nat :=
  match f with
  | 0 | 1 => 16
  | 2 | 3 | 7 | 8 => 8
  | 4 | 5 => 6
  | 6 | 9 | 10 => 4
  | _ => 0
/-- K class. -/
def efK (f : Nat) : Nat := if f ≤ 1 then 32 else if f ≤ 5 || f == 7 || f == 8 then 64 else 128
/-- Float family. -/
def efFloat (f : Nat) : Bool := decide (f ≤ 6)
/-- The value of a float element. -/
def efVal (f x : Nat) : Val := decodeTy (f + 9) x
/-- The value of an integer element. -/
def efInt (f x : Nat) : Int :=
  match f with
  | 7 => intOf 8 true x
  | 8 => intOf 8 false x
  | 9 => intOf 4 true x
  | _ => intOf 4 false x

/-- A block length code (R327). -/
def blockLen (c : Nat) : Nat := match c with | 1 => 16 | 2 => 32 | 3 => 64 | 4 => 128 | _ => 0

/-- A format block (R327). -/
structure FmtBlock where
  ascale : Nat
  bscale : Nat
  asstr  : Nat
  bsstr  : Nat
  afmt   : Nat
  bfmt   : Nat
  ablk   : Nat
  bblk   : Nat
  alay   : Bool
  blay   : Bool
  spm    : Nat
  spn    : Nat
/-- The fields of 32 bytes. -/
def fmtBlock (l : List Byte) : FmtBlock :=
  let w := field l 24 8
  ⟨field l 0 8, field l 8 8, field l 20 4, field l 16 4, bits w 3 0, bits w 7 4, bits w 12 10, bits w 15 13, bit w 16, bit w 17,
    bits w 19 18, bits w 23 20⟩
/-- One operand of a valid block (R328). -/
def operandOk (fmt blk scale : Nat) (lay : Bool) : Bool :=
  decide (blk ≤ 4) && (blk == 0 || (efFloat fmt && decide (blockLen blk ≤ efK fmt))) && ((blk == 0) == (scale == 0)) &&
    (!lay || fmt == 4 || fmt == 5 || fmt == 11)
/-- Whether an instruction may use a block (R328, R472). -/
def blockOk (addr : DWord) (l : List Byte) (sparse : Bool) : Bool :=
  let b := fmtBlock l
  let w := field l 24 8
  addr.toNat % 32 == 0 && bits w 63 24 == 0 && bits w 9 8 == 0 && decide (b.afmt ≤ 11) && decide (b.bfmt ≤ 11) &&
  efK b.afmt == efK b.bfmt && efFloat b.afmt == efFloat b.bfmt && operandOk b.afmt b.ablk b.ascale b.alay &&
  operandOk b.bfmt b.bblk b.bscale b.blay && (if b.spm == 0 then b.spn == 0 else decide (1 ≤ b.spn) && decide (b.spn ≤ 2 ^ b.spm)) &&
  (sparse == (b.spm != 0)) && !(sparse && b.alay)

/-! Packed rows (R323 to R325, R468) -/

/-- Bytes of `n` elements of a format. -/
def packedBytes (f : Nat) (lay : Bool) (n : Nat) : Nat :=
  if efWidth f == 0 then (if lay then 32 * ((n + 127) / 128) else (n + 4) / 5)
  else if lay then 48 * ((n + 63) / 64)
  else (n * efWidth f + 7) / 8
/-- The start of a row or column with the bits that the engine clears. -/
def packedStart (f : Nat) (lay : Bool) (a : DWord) : DWord :=
  if lay then a &&& ~~~31 else if efWidth f == 16 then a &&& ~~~1 else a
/-- Element j of packed bytes: its bits. -/
def packedElem (f : Nat) (lay : Bool) (l : List Byte) (j : Nat) : Nat :=
  let b (k : Nat) : Nat := (l.getD k 0).toNat
  let w := efWidth f
  if lay then
    let g := 48 * (j / 64)
    elem 4 (b (g + j % 64 / 2)) (j % 2) + 16 * elem 2 (b (g + 32 + j % 64 / 4)) (j % 4)
  else (leNat ((l.drop (w * j / 8)).take 3) >>> (w * j % 8)) % 2 ^ w
/-- Trit j of packed bytes, and whether its byte is reserved. -/
def packedTrit (lay : Bool) (l : List Byte) (j : Nat) : Int × Bool :=
  let k := if lay then 32 * (j / 128) + j % 128 / 5 else j / 5
  let t := trits (l.getD k 0).toNat
  (t.1.getD (if lay then j % 128 % 5 else j % 5) 0, t.2)
/-- Element j as an integer, and whether it raises INV. -/
def packedInt (f : Nat) (lay : Bool) (l : List Byte) (j : Nat) : Int × Bool :=
  if f == 11 then packedTrit lay l j else (efInt f (packedElem f lay l j), false)
/-- Element j as an exact value under its scale (R329), and whether it raises INV. -/
def packedVal (f : Nat) (lay : Bool) (l : List Byte) (scales : List Byte) (bl j k : Nat) : Val × Bool :=
  let v := efVal f (packedElem f lay l j)
  if bl == 0 then (v, false)
  else
    let s := (scales.getD (k / bl) 0).toNat
    if s == 255 then (.nan false, true) else (v.scale ((s : Int) - 127), false)

/-! Fetches (R468, R475, R476) -/

/-- Bytes that an engine fetches as `.gen` through the L1 under a cache hint (R247, R253, R256). -/
def State.mxFetch (s : State) (hint : Nat) (r : WaveRef) (w : Wave) (va : DWord) (n : Nat) : Except (Nat × Nat) (List Byte) × State :=
  let got (s : State) (ks : List Nat) : Except (Nat × Nat) (List Byte) × State :=
    (.ok (s.loadBytes r.core w.ctx va.toNat ks),
      s.l1Hint r.core w.ctx hint (((List.range ks.length).zip ks).map (fun p => (va.toNat + p.1, p.2))))
  if n == 0 then (.ok [], s)
  else match s.l1Keys r.core w.ctx va.toNat n with
    | some ks => got s ks
    | none => match s.resolve (w.place r) (unitOf r.core) w.ctx 0 va.toNat n needRD with
      | (.ok ks, s) => got s ks
      | (.error e, s) => (.error e, s)
/-- Several fetches, in order; the first fault ends them. -/
def State.mxFetches (s : State) (hint : Nat) (r : WaveRef) (w : Wave) : List (DWord × Nat) → List (List Byte) → Except (Nat × Nat) (List (List Byte)) × State
  | [], acc => (.ok acc, s)
  | (a, n) :: l, acc =>
    match s.mxFetch hint r w a n with
    | (.error e, s) => (.error e, s)
    | (.ok b, s) => s.mxFetches hint r w l (acc ++ [b])

/-- The depth of an operation: K, or 2 × K for MMASP. -/
def depthOf (b : FmtBlock) (sparse : Bool) : Nat := if sparse then 2 * efK b.afmt else efK b.afmt
/-- Bytes of the scales of k elements. -/
def scaleBytes (blk k : Nat) : Nat := if blockLen blk == 0 then 0 else (k + blockLen blk - 1) / blockLen blk
/-- Where the columns of B and their scales lie: column c, then its scales. -/
def columnFetches (b : FmtBlock) (kd : Nat) (pb sb : DWord) : List (DWord × Nat) :=
  (List.range 16).flatMap (fun c =>
    [(packedStart b.bfmt b.blay (pb + BitVec.ofNat 64 c * sb), packedBytes b.bfmt b.blay kd),
     (BitVec.ofNat 64 (b.bscale + c * b.bsstr), scaleBytes b.bblk kd)])
/-- Stored elements of a row of A. -/
def storedOf (b : FmtBlock) (sparse : Bool) (kd : Nat) : Nat := if sparse then kd * b.spn / (2 * 2 ^ b.spm) else kd
/-- Row r of A: its elements, its scales, its metadata. -/
def rowFetches (b : FmtBlock) (sparse : Bool) (kd : Nat) (o : Octet) (r : Nat) : List (DWord × Nat) :=
  let n := storedOf b sparse kd
  [(packedStart b.afmt b.alay (o.pa + BitVec.ofNat 64 r * o.sa), packedBytes b.afmt b.alay n),
   (BitVec.ofNat 64 (b.ascale + r * b.asstr), scaleBytes b.ablk kd),
   (o.meta_ + BitVec.ofNat 64 (64 * r), if sparse then (n * (b.spm + 1) + 7) / 8 else 0)]

/-- The dense position of stored element q (R471): of kept element n of group g, g × M + its index. -/
def densePos (b : FmtBlock) (sparse : Bool) (md : List Byte) (q : Nat) : Nat :=
  if !sparse then q
  else
    let w := b.spm + 1
    let x := (leNat ((md.drop (w * q / 8)).take 2) >>> (w * q % 8)) % 2 ^ w
    q / b.spn * (2 * 2 ^ b.spm) + x

/-- One row by one column (R469): D and the flags. -/
def octetCell (b : FmtBlock) (sparse zero sat : Bool) (kd : Nat) (row col : List (List Byte)) (old : Word) : Nat × Flags :=
  let ra := row.getD 0 []
  let rs := row.getD 1 []
  let md := row.getD 2 []
  let ca := col.getD 0 []
  let cs := col.getD 1 []
  let qs := List.range (storedOf b sparse kd)
  if efFloat b.afmt then
    let terms := qs.map (fun q =>
      let k := densePos b sparse md q
      let x := packedVal b.afmt b.alay ra rs (blockLen b.ablk) q k
      let y := packedVal b.bfmt b.blay ca cs (blockLen b.bblk) k k
      ((vMul x.1 y.1).1, x.2 || y.2))
    let r := acc40 (terms.map (fun t => t.1) ++ [if zero then .fin false 0 0 else fp32.decode old.toNat])
    (r.1, r.2 ||| invIf (terms.any (fun t => t.2)))
  else
    let terms := qs.map (fun q =>
      let k := densePos b sparse md q
      let x := packedInt b.afmt b.alay ra q
      let y := packedInt b.bfmt b.blay ca k
      (x.1 * y.1, x.2 || y.2))
    let sum : Int := terms.foldl (fun acc t => acc + t.1) (if zero then 0 else old.toInt)
    let inv := invIf (terms.any (fun t => t.2))
    if sat then (wrapInt 32 (satInt 32 true sum).1, (satInt 32 true sum).2 ||| inv) else (wrapInt 32 sum, inv)

/-! Issue (R473) -/

/-- The operations of a wave that hold one of the flags of a mask, and the accesses that come before in wave order (R276, R475). -/
def State.waitsOf (s : State) (r : WaveRef) (w : Wave) (f : Fragment) (mask : Nat) : List Nat :=
  let named (k : Nat) : Bool := bit mask k
  (w.ops.filter (fun o => (match o.flag with | some k => named k | none => false) || (o.kind.isMem && (w.owns f o.frag || o.within f.id)))).map (fun o => o.id) ++
  ((s.core r.core).matrix.filter (fun m => m.slot == r.slot && named m.flag)).map (fun m => m.id) ++
  ((s.core r.core).sweeps.filter (fun m => m.slot == r.slot && named m.flag)).map (fun m => m.id)

/-- An operation is over: it has released its flag. -/
def State.released (s : State) (r : WaveRef) (ids : List Nat) : Bool :=
  !((match s.wave? r with | some w => w.ops.any (fun o => ids.contains o.id) | none => false) ||
    (s.core r.core).matrix.any (fun m => ids.contains m.id) || (s.core r.core).sweeps.any (fun m => ids.contains m.id))

/-- The matrix and sweep instructions at issue: inside a transaction they abort with ILLEGAL (R290); they wait for room in the flag and
the counter, a sweep for its entry of the replay array (R307; an octet takes its own when it issues) and for every access before it in wave order
too, and both for the clauses that come before (R276); with no active lane they only count, and retire in order (R474, R477). -/
def heavyIssue (s : State) (c : LaneCtl) (cls scope : Nat) (k : WaveRef → Wave → Fragment → View → LaneMask → Nat → State → State) : Out :=
  asLane s (fun r w f x =>
    if w.inTxn f.id && x.cl.txn then .next (s.setWave r (w.abort 4 0))
    else if w.flagFull c || decide (63 ≤ w.outstanding cls) || (decide (cls = 3) && (s.memFull r.core 64 1 || !(s.waitsOf r w f 0).isEmpty)) || w.toCome f x.cl.born then .next (s.wait r f.id)
    else
      let m := activeMask w x c
      let (v, s) : View × State := s.view w x
      let (id, s) : Nat × State := s.fresh
      if m == 0 then
        let t : Ticket := ⟨id, scope, true⟩
        let s := s.setWave r { w with tickets := tset w.tickets cls (tget [] w.tickets cls ++ [t]) }
        .next ((s.post (.asyncRetire r (BitVec.ofNat 3 cls))).laneNext r f.id)
      else
        let fl := c.sf.toNat
        let w := { w.ticket cls id scope with flags := tset w.flags fl (tget 0 w.flags fl + 1) }
        .next ((k r w f v m id (s.setWave r w)).laneNext r f.id))

/-- A declaration of the wave is pending (R218). -/
def Wave.pendingDecl (w : Wave) : Bool := match w.decl with | some d => d.admitted.isNone | none => false
/-- The octets of a matrix instruction (R467, R469). -/
def octetsOf (v : View) (r : LR) (m : LaneMask) (sparse : Bool) : List Octet :=
  (List.range 12).filterMap (fun j =>
    let rows := (List.range 8).filter (fun i => lane m (8 * j + i))
    let ld := 8 * j
    let e := r.e.toNat
    if rows.isEmpty then none
    else some ⟨j, v.pair r.a ld, v.pair r.b ld, v.pair r.c ld, (v.code e ld).signExtend 64, (v.code (e + 1) ld).signExtend 64,
      if sparse then v.code (e + 3) ld ++ v.code (e + 2) ld else 0, rows, 0, none, false⟩)

/-- MMA and MMASP at issue. -/
def matrixIssue (s : State) (c : LaneCtl) (r : LR) (sparse : Bool) : Out :=
  heavyIssue s c 1 1 (fun ref w f v m id s =>
    let md := r.modf.toNat
    let o : MatrixOp := ⟨id, ref.slot, f.id, w.ctx, r.d.toNat, bit md 0, bit md 1, sparse, c.ch.toNat, c.sf.toNat, m,
      s.waitsOf ref w f (md / 16), octetsOf v r m sparse, [], 0, false, false, w.pendingDecl⟩
    s.updCore ref.core (fun k => { k with matrix := k.matrix ++ [o] }))
def execMma (c : LaneCtl) (r : LR) (s : State) : Out := matrixIssue s c r false
def execMmasp (c : LaneCtl) (r : LR) (s : State) : Out := matrixIssue s c r true

/-! The engine (R470 to R476) -/

/-- The core that holds a matrix operation, and the operation. -/
def State.matrixOp (s : State) (id : Nat) : Option (Nat × MatrixOp) :=
  s.cores.findSome? (fun p => (p.2.matrix.find? (fun m => m.id == id)).map (fun m => (p.1, m)))
/-- The operation is changed. -/
def State.setMatrix (s : State) (core : Nat) (m : MatrixOp) : State :=
  s.updCore core (fun c => { c with matrix := c.matrix.map (fun x => if x.id == m.id then m else x) })
/-- An operation with an octet that may start: what it waits on is over, and so is a pending declaration it was issued under (R218, R473). -/
def State.matrixReady (s : State) (core : Nat) (m : MatrixOp) : Bool :=
  !m.bad && s.released ⟨core, m.slot⟩ m.waits &&
    !(m.held && (match s.wave? ⟨core, m.slot⟩ with | some w => w.pendingDecl | none => false)) && m.octets.any (fun o => !o.done && o.fault.isNone)
/-- One octet may start: its operation is ready, and no older one is (R473). -/
def State.octetTurn (s : State) (core : Nat) (m : MatrixOp) (j : Nat) : Bool :=
  s.matrixReady core m && m.octets.any (fun o => o.j == j && !o.done && o.fault.isNone) &&
    !(((s.core core).matrix.takeWhile (fun x => x.id != m.id)).any (fun x => s.matrixReady core x))

/-- A fetch faults (R476): a permission fault ends the context; another holds the octets that `hit` names. -/
def State.mxFault (s : State) (core : Nat) (m : MatrixOp) (k va : Nat) (hit : Octet → Bool) : State :=
  let (f, s) := s.memFault m.ctx k 0 1 core va (.octet core m.id)
  if k == 3 then s.fatalCtx m.ctx 0 false
  else s.setMatrix core { m with octets := m.octets.map (fun o => if hit o && !o.done then { o with fault := some f } else o) }

/-- The engine takes an instruction up: its format blocks are read, all before any octet computes (R327, R472). -/
def State.takeUp (s : State) (r : WaveRef) (w : Wave) (m : MatrixOp) : Option MatrixOp × State :=
  let pfs := dedup (m.octets.map (fun o => o.pf.toNat))
  match s.mxFetches m.hint r w (pfs.map (fun a => (BitVec.ofNat 64 a, 32))) [] with
  | (.error (k, va), s) => (none, s.mxFault r.core m k va (fun _ => true))
  | (.ok l, s) =>
    let m := { m with block := pfs.zip l, taken := true, bad := !((pfs.zip l).all (fun p => blockOk (BitVec.ofNat 64 p.1) p.2 m.sparse)) }
    (some m, s.setMatrix r.core m)

/-- Octets of one fusion group (R470). -/
def fused (a b : Octet) : Bool := a.pb == b.pb && a.sb == b.sb && a.pf == b.pf
/-- The key of a fusion group's columns. -/
def groupKey (m : MatrixOp) (o : Octet) : Nat := 0x10000000000000000 + (match m.octets.find? (fused o) with | some x => x.j | none => o.j)
/-- The columns of a group, read once: sixteen columns, each with its scales. -/
def splitColumns : Nat → Nat → List Byte → List (List (List Byte))
  | _, _, [] => []
  | n, k, l => (List.range 16).map (fun c =>
      let x := l.drop (c * (n + k))
      [x.take n, (x.drop n).take k])

/-- One row of an octet is written. -/
def State.octetRow (s : State) (r : WaveRef) (m : MatrixOp) (b : FmtBlock) (kd : Nat) (o : Octet) (cols : List (List (List Byte))) (row : Nat)
    (l : List (List Byte)) : Flags × State :=
  match s.wave? r with
  | none => (0, s)
  | some w =>
    let i := 8 * o.j + row
    let cells := (List.range 16).map (fun c => octetCell b m.sparse m.zero m.sat kd l (cols.getD c []) (w.vget (m.d + c) i))
    (orFlags (cells.map (fun c => c.2)), s.setWave r (w.vputWords m.d i (cells.map (fun c => BitVec.ofNat 32 c.1))))

/-- The rows of an octet, in ascending order, from its progress; a fault in a row of A stops it there (R476). -/
def State.octetRows (s : State) (r : WaveRef) (m : MatrixOp) (b : FmtBlock) (kd : Nat) (o : Octet) (cols : List (List (List Byte))) :
    List Nat → State
  | [] =>
    s.setMatrix r.core { m with octets := m.octets.map (fun x => if x.j == o.j then { o with done := true, next := 8 } else x) }
  | row :: rest =>
    match s.wave? r with
    | none => s
    | some w =>
      match s.mxFetches m.hint r w (rowFetches b m.sparse kd o row) [] with
      | (.error (k, va), s) =>
        let m := { m with octets := m.octets.map (fun x => if x.j == o.j then { o with next := row } else x) }
        s.mxFault r.core m k va (fun x => x.j == o.j)
      | (.ok l, s) =>
        let (f, s) := s.octetRow r m b kd o cols row l
        s.octetRows r { m with raised := m.raised ||| f } b kd o cols rest

/-- An octet computes: its group's columns, then its rows. -/
def State.octetRun (s : State) (r : WaveRef) (w : Wave) (m : MatrixOp) (o : Octet) : State :=
  let b := fmtBlock (tget [] m.block o.pf.toNat)
  let kd := depthOf b m.sparse
  let rows := o.rows.filter (fun i => decide (o.next ≤ i))
  let split := splitColumns (packedBytes b.bfmt b.blay kd) (scaleBytes b.bblk kd)
  match tfind m.block (groupKey m o) with
  | some l => s.octetRows r m b kd o (split l) rows
  | none =>
    match s.mxFetches m.hint r w (columnFetches b kd o.pb o.sb) [] with
    | (.error (k, va), s) => s.mxFault r.core m k va (fused o)
    | (.ok l, s) => s.octetRows r { m with block := m.block ++ [(groupKey m o, l.flatten)] } b kd o (split l.flatten) rows

/-- The lane cycle in which the engine may issue a unit now: its clock runs, a memory request and an entry of the replay array are free
(R231, R307), and the limits of R222 and R223 allow it. -/
def State.engineMay (s : State) (core : Nat) : Option Nat := if s.laneClock core && !s.memFull core 64 1 then s.unitCycle core else none

/-- OCTET_OPERATION (R473): one unit of issue, whether or not a fetch of it faults (R222). When the engine may not issue yet, the
operation is tried again in the next nanosecond. -/
def execOctetOperation (id j : Nat) (s : State) : Out :=
  match s.matrixOp id with
  | none => .next s
  | some (core, m) =>
    match s.wave? ⟨core, m.slot⟩ with
    | none => .next s
    | some w =>
      if !s.octetTurn core m j then .next s
      else match s.engineMay core with
      | none => .next (s.after 1 (.octetOperation id j))
      | some u =>
        let run (m : MatrixOp) (s : State) : State :=
          if m.bad then s.post (.matrixComplete id)
          else match m.octets.find? (fun o => o.j == j) with
            | some o => ((s.issueUnit ⟨core, m.slot⟩ m.ctx u).octetRun ⟨core, m.slot⟩ w m o).post (.matrixComplete id)
            | none => s
        if m.taken then .next (run m s)
        else match s.takeUp ⟨core, m.slot⟩ w m with
          | (some m, s) => .next (run m s)
          | (none, s) => .next s

/-- A class's ticket is over. -/
def Wave.closeTicket (w : Wave) (cls id : Nat) : Wave :=
  { w with tickets := tset w.tickets cls ((tget [] w.tickets cls).map (fun t => if t.op == id then { t with done := true } else t)) }

/-- MATRIX_COMPLETE (R472, R474). -/
def execMatrixComplete (id : Nat) (s : State) : Out :=
  match s.matrixOp id with
  | none => .next s
  | some (core, m) =>
    if !m.bad && m.octets.any (fun o => !o.done) then .next s
    else
      let r : WaveRef := ⟨core, m.slot⟩
      let s := s.updCore core (fun c => { c with matrix := c.matrix.filter (fun x => x.id != id) })
      let s := s.updWave r (fun w => (((w.lower (some m.flag)).setflags (if m.bad then 0 else m.raised)).closeTicket 1 id))
      let s := s.post (.asyncRetire r 1)
      let s := match m.bad, m.block.find? (fun (p : Nat × List Byte) => !(blockOk (BitVec.ofNat 64 p.1) p.2 m.sparse)) with
        | true, some p => s.fabricErr m.ctx 1 1 core p.1
        | _, _ => s
      .next s

/-- Octets that may start are to start. -/
def State.matrixScan (s : State) : State :=
  s.each (s.cores.filter (fun p => !p.2.matrix.isEmpty)) (fun s p =>
    s.each p.2.matrix (fun s m =>
      s.each m.octets (fun s o =>
        let i : Instr := .octetOperation m.id o.j
        if s.octetTurn p.1 m o.j && !(s.timers.any (fun t => t.what == i)) then s.post i else s)))

end Sys2Proof.Machine
end

