-- ==== Sys2Proof/Machine/Sweep.lean ====
section
/-! DEFINITION. The sweep unit (R371, R477 to R484): iterator records, elements in memory, and TSWEEP, TCVT, TRED and TSCAN. -/

namespace Sys2Proof.Machine

/-! Iterator records (R371) -/

/-- An iterator record. -/
structure Tir where
  base  : DWord
  fill  : Nat
  bcast : Nat
  rank  : Nat
  lay   : Bool
  fmt   : Nat
  ext   : List Nat
  org   : List Int
  bnd   : List Nat
  str   : List Int
/-- The fields of 64 bytes. -/
def tirOf (l : List Byte) : Tir :=
  let w := field l 8 4
  { base := BitVec.ofNat 64 (field l 0 8), fill := field l 12 4, bcast := bits w 20 16, rank := bits w 10 8, lay := bit w 5, fmt := bits w 4 0
    ext := (List.range 5).map (fun d => field l (0x10 + 2 * d) 2)
    org := (List.range 5).map (fun d => intOf 16 true (field l (0x1A + 2 * d) 2))
    bnd := (List.range 5).map (fun d => field l (0x24 + 2 * d) 2)
    str := 0 :: (List.range 4).map (fun d => intOf 32 true (field l (0x30 + 4 * d) 4)) }
/-- FP6 formats and T5. -/
def fp6 (f : Nat) : Bool := f == 13 || f == 14
/-- An integer element format. -/
def efmtInt (f : Nat) : Bool := f < 8 || f == 16
/-- Bits of an element; a trit has none. -/
def efmtWidth (f : Nat) : Nat := if f == 16 then 0 else tyWidth f

/-- A record by itself (R478): aligned, nothing reserved, extents from 1, nothing beyond RANK, a layout its format has. -/
def tirOk (addr : DWord) (l : List Byte) : Bool :=
  let t := tirOf l
  let w := field l 8 4
  addr.toNat % 64 == 0 && bits w 31 21 == 0 && bits w 15 11 == 0 && bits w 7 6 == 0 && field l 0x2E 2 == 0 &&
  decide (1 ≤ t.rank) && decide (t.rank ≤ 5) && decide (t.fmt ≤ 16) && t.bcast < 2 ^ t.rank &&
  (List.range 5).all (fun d => if d < t.rank then t.ext.getD d 0 != 0
    else t.ext.getD d 0 == 0 && t.org.getD d 0 == 0 && t.bnd.getD d 0 == 0 && t.str.getD d 0 == 0) &&
  (!t.lay || (fp6 t.fmt && t.ext.getD 0 0 % 64 == 0) || (t.fmt == 16 && t.ext.getD 0 0 % 128 == 0))

/-- The index vector of visit number n under extents, dimension 0 fastest (R479). -/
def visit : Nat → List Nat → List Nat
  | _, [] => []
  | n, e :: l => if e == 0 then 0 :: visit n l else n % e :: visit (n / e) l
/-- Number of visits. -/
def visits (rank : Nat) (ext : List Nat) : Nat := (ext.take rank).foldl (· * ·) 1

/-- The coordinate of one dimension. -/
def Tir.coord (t : Tir) (j : List Nat) (d : Nat) : Int := t.org.getD d 0 + (j.getD d 0 : Int)
/-- An element is in bounds. -/
def Tir.inside (t : Tir) (j : List Nat) : Bool :=
  (List.range t.rank).all (fun d => bit t.bcast d || (decide (0 ≤ t.coord j d) && decide (t.coord j d < (t.bnd.getD d 0 : Int))))
/-- Its place within its row, and the offset of the row, both in elements. -/
def Tir.inRow (t : Tir) (j : List Nat) : Int := if bit t.bcast 0 then 0 else t.coord j 0
def Tir.rowOff (t : Tir) (j : List Nat) : Int :=
  (List.range t.rank).foldl (fun acc d => if d == 0 || bit t.bcast d then acc else acc + t.coord j d * t.str.getD d 0) 0

/-- The pieces of an element, least significant first: address, bytes, first bit and bits; for T5 the byte and its trit. -/
def Tir.pieces (t : Tir) (j : List Nat) : List (DWord × Nat × Nat × Nat) :=
  let at' (b : Int) : DWord := t.base + BitVec.ofInt 64 b
  if t.lay then
    let e := (t.inRow j).toNat
    if t.fmt == 16 then
      let row := at' (t.rowOff j * 32 / 128) &&& ~~~31
      [(row + BitVec.ofNat 64 (32 * (e / 128) + e % 128 / 5), 1, e % 128 % 5, 0)]
    else
      let row := at' (t.rowOff j * 48 / 64) &&& ~~~31
      let g := 48 * (e / 64)
      [(row + BitVec.ofNat 64 (g + e % 64 / 2), 1, 4 * (e % 2), 4), (row + BitVec.ofNat 64 (g + 32 + e % 64 / 4), 1, 2 * (e % 4), 2)]
  else
    let e := t.inRow j + t.rowOff j
    if t.fmt == 16 then [(at' (e / 5), 1, (e % 5).toNat, 0)]
    else
      let w := tyWidth t.fmt
      let b := e * (w : Int)
      let sh := (b % 8).toNat
      [(at' (b / 8), (sh + w + 7) / 8, sh, w)]

/-! Elements -/

/-- Bytes as the sweep unit sees them. -/
def State.swFetch (s : State) (hint : Nat) (r : WaveRef) (w : Wave) (va : DWord) (n : Nat) : Except (Nat × Nat) (List Byte) × State :=
  s.mxFetch hint r w va n

/-- The bits of an element from its pieces. -/
def State.pieceBits (s : State) (hint : Nat) (r : WaveRef) (w : Wave) : List (DWord × Nat × Nat × Nat) → Nat → Nat → Except (Nat × Nat) Nat × State
  | [], _, acc => (.ok acc, s)
  | (a, n, sh, wd) :: l, lo, acc =>
    match s.swFetch hint r w a n with
    | (.error e, s) => (.error e, s)
    | (.ok b, s) => s.pieceBits hint r w l (lo + wd) (acc + at_ ((leNat b >>> sh) % 2 ^ wd) lo)

/-- FILL as an element (R371): its low bits, extended for the 64-bit types; for T5 its low byte's first trit. -/
def Tir.fillBits (t : Tir) : Nat := if t.fmt == 6 then wrapInt 64 (intOf 32 true t.fill) else if t.fmt == 7 then t.fill else t.fill % 2 ^ tyWidth t.fmt

/-- The exact value of an element's bits, and INV for a reserved trit code. -/
def Tir.value (t : Tir) (x trit : Nat) : Val × Flags :=
  if t.fmt == 16 then (valInt ((trits (x % 256)).1.getD trit 0), invIf (trits (x % 256)).2) else (decodeTy t.fmt x, 0)

/-- The element of a source at an index vector: its exact value and flags; out of bounds it is FILL (R479). -/
def State.readElem (s : State) (hint : Nat) (r : WaveRef) (w : Wave) (t : Tir) (j : List Nat) : Except (Nat × Nat) (Val × Flags) × State :=
  if !t.inside j then (.ok (t.value t.fillBits 0), s)
  else
    let ps := t.pieces j
    if t.fmt == 16 then
      match ps with
      | (a, _, k, _) :: _ =>
        (match s.swFetch hint r w a 1 with
        | (.error e, s) => (.error e, s)
        | (.ok b, s) => (.ok (t.value (leNat b) k), s))
      | [] => (.ok (t.value 0 0), s)
    else match s.pieceBits hint r w ps 0 0 with
      | (.error e, s) => (.error e, s)
      | (.ok x, s) => (.ok (t.value x 0), s)

/-- A piece merged into the bytes that hold it. -/
def mergeBits (old sh wd x : Nat) : Nat := old - ((old >>> sh) % 2 ^ wd <<< sh) + ((x % 2 ^ wd) <<< sh)
/-- A trit merged into its byte, which holds `used` trits, the others 0 (R325); a reserved byte counts as five zeros. -/
def mergeTrit (old k : Nat) (x : Int) (used : Nat) : Nat :=
  let l := (trits old).1
  packTrits ((List.range 5).map (fun i => if i == k then x else if used ≤ i then 0 else l.getD i 0))

/-- The offset of the last element in bounds, in elements (R371). -/
def Tir.top (t : Tir) : Int :=
  let far (d : Nat) (stride : Int) : Int := if bit t.bcast d then 0 else max 0 (((t.bnd.getD d 0 : Int) - 1) * stride)
  (List.range t.rank).foldl (fun acc d => acc + far d (if d == 0 then 1 else t.str.getD d 0)) 0

/-- How many trits a byte of a destination holds: three in the last byte of a padded group, in contiguous storage those of the array's
final byte, else five (R325; DEDUCED, log 58). -/
def Tir.used (t : Tir) (a : DWord) : Nat :=
  if t.lay then (if a.toNat % 32 == 25 then 3 else 5)
  else if a == t.base + BitVec.ofInt 64 (t.top / 5) then (t.top % 5).toNat + 1 else 5

/-- The bytes that a destination element changes: each piece merged at its home, resolved before any is written; the last byte of an
array or of a padded group keeps its unused trits 0, and so are the bytes after it in the group (R325, R479). -/
def State.elemCells (s : State) (r : WaveRef) (w : Wave) (t : Tir) : List (DWord × Nat × Nat × Nat) → Nat → Int → List (Nat × Byte) →
    Except (Nat × Nat) (List (Nat × Byte)) × State
  | [], _, _, acc => (.ok acc, s)
  | (a, n, sh, wd) :: l, x, trit, acc =>
    let tail := t.fmt == 16 && t.lay && a.toNat % 32 == 25
    match s.resolve (w.place r) (unitOf r.core) w.ctx 0 a.toNat (if tail then 7 else n) needW with
    | (.error e, s) => (.error e, s)
    | (.ok ks, s) =>
      let old := leNat (s.peekVia r.core (ks.take n))
      let new := if t.fmt == 16 then leBytes 1 (mergeTrit old sh trit (t.used a)) ++ (if tail then leBytes 6 0 else [])
        else leBytes n (mergeBits old sh wd x)
      s.elemCells r w t l (x >>> wd) trit (acc ++ ks.zip new)

/-- Bytes of a sweep are performed at its scope; a merge is performed at the home (R479, R483). -/
def State.sweepStore (s : State) (core asid scope : Nat) (t : Tir) (l : List (Nat × Byte)) : State :=
  if 2 ≤ scope || efmtWidth t.fmt < 8 then s.storeHome core asid l else s.storeCore core asid l

/-- A trit of a value: rounded, clamped to -1, 0 or 1 with SAT. -/
def encodeTrit (v : Val) (mode : Nat) : Int × Flags :=
  let e := encodeInt 8 true v mode 0 0
  let x := intOf 8 true e.bits
  if x < -1 then (-1, e.flags ||| fSAT) else if 1 < x then (1, e.flags ||| fSAT) else (x, e.flags)
/-- An element is encoded into a destination's format: bits, trit and flags. -/
def encodeElem (fmt : Nat) (v : Val) (mode pol : Nat) : Nat × Int × Flags :=
  if fmt == 16 then (0, (encodeTrit v mode).1, (encodeTrit v mode).2)
  else ((encodeTy fmt v mode pol 0).bits, 0, (encodeTy fmt v mode pol 0).flags)

/-- A destination element is written; out of bounds it is not (R479). -/
def State.writeElem (s : State) (r : WaveRef) (w : Wave) (scope : Nat) (t : Tir) (j : List Nat) (x : Nat) (trit : Int) : Except (Nat × Nat) Unit × State :=
  if !t.inside j then (.ok (), s)
  else match s.elemCells r w t (t.pieces j) x trit [] with
    | (.error e, s) => (.error e, s)
    | (.ok l, s) => (.ok (), s.sweepStore r.core w.ctx scope t l)

/-! Element operations (R480, R481) -/

/-- The exact result of TSWEEP, with the flags raised on the way. -/
def sweepValue (op mode : Nat) (b c e : Val) : ValF :=
  match op with
  | 0 => vAdd mode b c
  | 1 => vAdd mode b c.negate
  | 2 => vMul b c
  | 3 => vFma mode b c e
  | 4 => vMinMax false b c
  | 5 => vMinMax true b c
  | _ => vAbs b

/-- The exact result of an element of TSWEEP or TCVT. -/
def SweepOp.value (m : SweepOp) (src : List (Val × Flags)) : ValF :=
  let v (k : Nat) : Val := (src.getD k (.nan false, 0)).1
  let f := orFlags (src.map (fun p => p.2))
  if m.kind == 0 then ((sweepValue (m.lr.sub % 8) m.lr.rnd (v 0) (v 1) (v 2)).1, f ||| (sweepValue (m.lr.sub % 8) m.lr.rnd (v 0) (v 1) (v 2)).2)
  else
    match m.lr.sub % 4 with
    | 1 => ((e8Scaled (v 0) (m.rc.toNat % 256) true).1, f ||| (e8Scaled (v 0) (m.rc.toNat % 256) true).2)
    | 2 => ((e8Scaled (v 0) (m.rc.toNat % 256) false).1, f ||| (e8Scaled (v 0) (m.rc.toNat % 256) false).2)
    | _ => (v 0, f)

/-- A source value folded into the magnitudes of a sweep with AX (R337, R481). -/
def SweepOp.fold (m : SweepOp) (v : Val) : SweepOp :=
  if m.kind == 1 && m.lr.ax then
    match axMag v with
    | none => { m with nan := true }
    | some x => { m with mag := max m.mag x }
  else m

/-! Issue -/

/-- Sources of a sweep beside its destination. -/
def sourcesOf (kind : Nat) (r : LR) : Nat :=
  if kind == 0 then (if r.sub % 8 == 3 then 3 else if r.sub % 8 == 6 then 1 else 2) else 1

/-- A sweep at issue (R477, R483): its operands come from the lowest active lane; it is a release at its scope, and reads its records in
the event that it posts, before its lane queue goes on (R478). -/
def sweepIssue (s : State) (c : LaneCtl) (r : LR) (kind : Nat) : Out :=
  let scope := r.d.toNat % 8
  heavyIssue s c 3 scope (fun ref w f v m id s =>
    let i := (lanesOf m).headD 0
    let pair3 := kind == 0
    let o : SweepOp := { id := id, slot := ref.slot, frag := f.id, ctx := w.ctx, kind := kind, lr := r, scope := scope
                         waits := s.waitsOf ref w f 0, ra := v.pair r.a i, rb := v.pair r.b i
                         rc := if pair3 then v.pair r.c i else (v.op r.c i).zeroExtend 64, re := v.pair r.e i
                         recs := [], next := 0, carry := none, flag := c.sf.toNat, hint := c.ch.toNat, raised := 0, mag := 0, nan := false
                         fault := none, done := false, bad := none }
    (s.updCore ref.core (fun k => { k with sweeps := k.sweeps ++ [o] })).post (.sweepComplete id))
def execTsweep (c : LaneCtl) (r : LR) (s : State) : Out := sweepIssue s c r 0
def execTcvt (c : LaneCtl) (r : LR) (s : State) : Out := sweepIssue s c r 1
def execTred (c : LaneCtl) (r : LR) (s : State) : Out := sweepIssue s c r 2
def execTscan (c : LaneCtl) (r : LR) (s : State) : Out := sweepIssue s c r 3

/-! The unit -/

/-- The core that holds a sweep, and the sweep. -/
def State.sweepOp (s : State) (id : Nat) : Option (Nat × SweepOp) :=
  s.cores.findSome? (fun p => (p.2.sweeps.find? (fun m => m.id == id)).map (fun m => (p.1, m)))
/-- The sweep is changed. -/
def State.setSweep (s : State) (core : Nat) (m : SweepOp) : State :=
  s.updCore core (fun c => { c with sweeps := c.sweeps.map (fun x => if x.id == m.id then m else x) })
/-- The sweep may go on: while the lane clock runs (R215) and a memory request is free (R231; its entry of the replay array it has held
since its issue, so a full array does not stop it: it frees one by going on, R307), what comes before it is over, and it has
its records still to read (R478) or is the one that the unit serves, the oldest that does not wait for RESOLVE (R483). -/
def State.sweepTurn (s : State) (core : Nat) (m : SweepOp) : Bool :=
  s.laneClock core && s.requests core < 1024 && m.fault.isNone &&
    (m.recs.isEmpty || !((s.core core).sweeps.takeWhile (fun x => x.id != m.id)).any (fun x => x.fault.isNone)) &&
    s.released ⟨core, m.slot⟩ m.waits

/-- A fault of the unit (R484): a permission fault ends the context, another waits for RESOLVE. -/
def State.sweepFault (s : State) (core : Nat) (m : SweepOp) (acc k va : Nat) : State :=
  let (f, s) := s.memFault m.ctx k acc 1 core va (.sweep core m.id)
  if k == 3 then s.fatalCtx m.ctx 0 false else s.setSweep core { m with fault := some f }

/-- Addresses of the records: destination, then sources. -/
def SweepOp.addrs (m : SweepOp) : List DWord := ([m.ra, m.rb, m.rc, m.re]).take (1 + sourcesOf m.kind m.lr)

/-- The type rules of R480 and R482 for a source format. -/
def sweepTypeOk (m : SweepOp) (fmt : Nat) : Bool :=
  match m.kind with
  | 0 => m.lr.ty == 8 || efmtInt fmt
  | 1 => true
  | _ => m.lr.ty == 8 || efmtInt fmt

/-- The record that fails R478, by its place. -/
def SweepOp.badRecord (m : SweepOp) : Option Nat :=
  let ts := m.recs.map tirOf
  let d := ts.getD 0 (tirOf [])
  (List.range m.recs.length).find? (fun k =>
    let t := ts.getD k d
    !(tirOk (m.addrs.getD k 0) (m.recs.getD k [])) ||
    (if k == 0 then t.bcast != 0 || (m.kind == 0 && !sweepTypeOk m t.fmt)
    else !sweepTypeOk m t.fmt || t.rank != d.rank ||
      !((List.range 5).all (fun i => if m.kind == 2 && i == 0 then d.ext.getD 0 0 == 1 else t.ext.getD i 0 == d.ext.getD i 0))))

/-- The records are read and checked (R478). -/
def State.sweepRecords (s : State) (r : WaveRef) (w : Wave) (m : SweepOp) : Option SweepOp × State :=
  match s.mxFetches m.hint r w (m.addrs.map (fun a => (a, 64))) [] with
  | (.error (k, va), s) => (none, s.sweepFault r.core m 0 k va)
  | (.ok l, s) =>
    let m := { m with recs := l }
    let m := { m with bad := m.badRecord }
    (some m, s.setSweep r.core m)

/-- Sources of one element. -/
def State.readSources (s : State) (hint : Nat) (r : WaveRef) (w : Wave) (j : List Nat) : List Tir → List (Val × Flags) → Except (Nat × Nat) (List (Val × Flags)) × State
  | [], acc => (.ok acc, s)
  | t :: l, acc =>
    match s.readElem hint r w t j with
    | (.error e, s) => (.error e, s)
    | (.ok x, s) => s.readSources hint r w j l (acc ++ [x])

/-- TSWEEP and TCVT: up to n elements from the sweep's counter (R479 to R481). -/
def State.sweepElems (s : State) (r : WaveRef) (m : SweepOp) : Nat → State
  | 0 => s.setSweep r.core m
  | n + 1 =>
    let ts := m.recs.map tirOf
    let d := ts.getD 0 (tirOf [])
    if visits d.rank d.ext ≤ m.next then s.setSweep r.core { m with done := true }
    else match s.wave? r with
    | none => s
    | some w =>
      let j := visit m.next d.ext
      match s.readSources m.hint r w j (ts.drop 1) [] with
      | (.error (k, va), s) => s.sweepFault r.core m 0 k va
      | (.ok src, s) =>
        let v := m.value src
        let (x, trit, f) := encodeElem d.fmt v.1 m.lr.rnd m.lr.pol
        match s.writeElem r w m.scope d j x trit with
        | (.error (k, va), s) => s.sweepFault r.core m 1 k va
        | (.ok _, s) =>
          let m := { (m.fold (src.getD 0 (.nan false, 0)).1) with next := m.next + 1, raised := m.raised ||| v.2 ||| f }
          s.sweepElems r m n

/-- The 96 positions of a segment, encoded into TYPE (R482): beyond EXT0 the identity. -/
def State.segment (s : State) (r : WaveRef) (w : Wave) (m : SweepOp) (t : Tir) : List Nat → List Nat → Flags → Except (Nat × Nat) (List Nat × Flags) × State
  | [], acc, f => (.ok (acc, f), s)
  | i :: l, acc, f =>
    let e0 := t.ext.getD 0 1
    let segs := (e0 + 95) / 96
    let p := m.next % segs * 96 + i
    if e0 ≤ p then s.segment r w m t l (acc ++ [scanIdentity m.lr.ty (m.lr.sub % 4)]) f
    else
      let j := p :: visit (m.next / segs) (t.ext.drop 1)
      match s.readElem m.hint r w t j with
      | (.error e, s) => (.error e, s)
      | (.ok v, s) =>
        let x := encodeTy m.lr.ty v.1 m.lr.rnd 0 0
        s.segment r w m t l (acc ++ [x.bits]) (f ||| v.2 ||| x.flags)

/-- Destination cells of the results of a segment, all resolved before any is written. -/
def State.segmentCells (s : State) (r : WaveRef) (w : Wave) (m : SweepOp) (d : Tir) : List (List Nat × Nat) → Flags →
    Except (Nat × Nat) Flags × State
  | [], f => (.ok f, s)
  | (j, x) :: l, f =>
    let (b, trit, g) := encodeElem d.fmt (decodeTy m.lr.ty x) m.lr.rnd m.lr.pol
    match (if d.inside j then s.elemCells r w d (d.pieces j) b trit [] else (.ok [], s)) with
    | (.error e, s) => (.error e, s)
    | (.ok _, s) => s.segmentCells r w m d l (f ||| g)

/-- The results of a segment are written, in order. -/
def State.segmentWrite (s : State) (r : WaveRef) (w : Wave) (m : SweepOp) (d : Tir) (l : List (List Nat × Nat)) : State :=
  s.each l (fun s p =>
    let (b, trit, _) := encodeElem d.fmt (decodeTy m.lr.ty p.2) m.lr.rnd m.lr.pol
    (s.writeElem r w m.scope d p.1 b trit).2)

/-- TRED and TSCAN: one segment of 96 elements (R482). `next` counts segments over all rows; the carry stands beside it. -/
def State.sweepSegment (s : State) (r : WaveRef) (w : Wave) (m : SweepOp) : State :=
  let d := tirOf (m.recs.getD 0 [])
  let t := tirOf (m.recs.getD 1 [])
  let e0 := t.ext.getD 0 1
  let segs := (e0 + 95) / 96
  let rows := visits (t.rank - 1) (t.ext.drop 1)
  if rows * segs ≤ m.next then s.setSweep r.core { m with done := true }
  else
    let seg := m.next % segs
    let op := scanOp m.lr.ty (m.lr.sub % 4) m.lr.rnd
    let first := if m.lr.sub / 4 % 2 == 1 then some (m.rc.toNat % 4294967296) else none
    let carry := if seg == 0 then first else m.carry
    match s.segment r w m t (List.range 96) [] 0 with
    | (.error (k, va), s) => s.sweepFault r.core m 0 k va
    | (.ok (x, f), s) =>
      let y := ksScan op x
      let z := y.1.map (fun v => match carry with | some k => op k v | none => (v, 0))
      let f := f ||| y.2 ||| orFlags (z.map (fun p => p.2))
      let out := z.map (fun p => p.1)
      let last := out.getD 95 0
      let row := visit (m.next / segs) (t.ext.drop 1)
      let dst : List (List Nat × Nat) :=
        if m.kind == 2 then (if seg + 1 == segs then [(0 :: row, last)] else [])
        else (List.range (min 96 (e0 - 96 * seg))).map (fun i =>
          ((96 * seg + i) :: row,
            if m.lr.sub / 8 % 2 == 1 then (if i == 0 then carry.getD (scanIdentity m.lr.ty (m.lr.sub % 4)) else out.getD (i - 1) 0)
            else out.getD i 0))
      match s.segmentCells r w m d dst 0 with
      | (.error (k, va), s) => s.sweepFault r.core m 1 k va
      | (.ok g, s) =>
        (s.segmentWrite r w m d dst).setSweep r.core { m with next := m.next + 1, carry := some last, raised := m.raised ||| f ||| g }

/-- The sweep ends (R478, R483): flags, magnitudes, set-flag, counter; a bad record is reported. -/
def State.sweepEnd (s : State) (r : WaveRef) (m : SweepOp) : State :=
  let s := s.updCore r.core (fun c => { c with sweeps := c.sweeps.filter (fun x => x.id != m.id) })
  let s := s.updWave r (fun w =>
    let x := BitVec.ofNat 32 (max (w.xmax.toNat % 0x80000000) m.mag) ||| (w.xmax &&& 0x80000000) ||| (if m.nan then 0x80000000 else 0)
    { ((w.lower (some m.flag)).setflags m.raised).closeTicket 3 m.id with xmax := x })
  let s := s.post (.asyncRetire r 3)
  match m.bad with
  | some k => s.fabricErr m.ctx 1 1 r.core (m.addrs.getD k 0).toNat
  | none => s

/-- SWEEP_COMPLETE (R483): the sweep whose turn it is reads its records, or does a stretch of its elements, or is over. -/
def execSweepComplete (id : Nat) (s : State) : Out :=
  match s.sweepOp id with
  | none => .next s
  | some (core, m) =>
    let r : WaveRef := ⟨core, m.slot⟩
    match s.wave? r with
    | none => .next s
    | some w =>
      if !s.laneClock core then .next s
      else if m.done then .next (s.sweepEnd r m)
      else if !s.sweepTurn core m then .next s
      else if m.recs.isEmpty then
        let s := if 2 ≤ m.scope then s.drainAll core else s
        match s.sweepRecords r w m with
        | (none, s) => .next s
        | (some m, s) => .next (if m.bad.isSome then s.sweepEnd r m else s)
      else if m.kind ≤ 1 then .next (s.sweepElems r m 96)
      else .next (s.sweepSegment r w m)

/-- Sweeps whose turn it is are to go on. -/
def State.sweepScan (s : State) : State :=
  s.each (s.cores.filter (fun p => !p.2.sweeps.isEmpty)) (fun s p =>
    s.each p.2.sweeps (fun s m => if (m.done && s.laneClock p.1) || s.sweepTurn p.1 m then s.post (.sweepComplete m.id) else s))

end Sys2Proof.Machine
end

