-- ==== Sys2Proof/Machine/Resolve.lean ====
section
/-! DEFINITION. What RESOLVE does to the access that waits for it (R159), by who waits: waves (R308, R309), transactions (R291),
the engines (R404, R406), crucibles (R123, R142), the gaffer (R91), dispatchers (R189, R209) and saves (R496). A command that
waits is in `Host`. -/

namespace Sys2Proof.Machine

/-- The faulted parts of an operation are to be issued again (R308): they are marked 0, which no fault record is numbered; a transactional
access is not: its transaction aborts with FAULT (R291). -/
def State.retryParts (s : State) (r : WaveRef) (id fault : Nat) : State :=
  match s.wave? r with
  | none => s
  | some w =>
    match w.ops.find? (fun (o : Op) => o.id == id) with
    | none => s
    | some o =>
      if o.txn then s.setWave r (w.abort 6 0)
      else
      let again (p : Part) : Part := if p.fault == some fault then { p with fault := some 0 } else p
      (s.updWave r (fun (w : Wave) => { w with ops := w.ops.map (fun (x : Op) => if x.id == id then { x with parts := x.parts.map again } else x) })).post
        (o.event r)

/-- The octets of a matrix instruction that wait for a fault go on (R476). -/
def State.retryOctets (s : State) (core id fault : Nat) : State :=
  s.updCore core (fun (c : Core) => { c with matrix := c.matrix.map (fun (m : MatrixOp) =>
    if m.id == id then { m with octets := m.octets.map (fun (o : Octet) => if o.fault == some fault then { o with fault := none } else o) } else m) })

/-- A sweep that waits for a fault resumes from its saved counters (R308, R484). -/
def State.retrySweep (s : State) (core id : Nat) : State :=
  s.updCore core (fun (c : Core) => { c with sweeps := c.sweeps.map (fun (m : SweepOp) => if m.id == id then { m with fault := none } else m) })

/-- A slot waits for this fault: the access of a control step, of its start or of its end, a data step's, or RESUME's read. -/
def Crux.waitsFor (x : Crux) (fault : Nat) : Bool :=
  x.fault == some fault || x.resuming == some fault || x.outst.any (fun (t : DataStep) => t.fault == some fault)

/-- An access of a slot is issued again (R123, R142); the fault of a step or an instance that is gone changes nothing. -/
def State.retrySlot (s : State) (i fault : Nat) : State :=
  let x := s.cx i
  if !x.waitsFor fault then s
  else
    let s := s.setCx i { x with
      fault := if x.fault == some fault then none else x.fault
      resuming := if x.resuming == some fault then none else x.resuming
      outst := x.outst.map (fun (t : DataStep) => if t.fault == some fault then { t with fault := none, since := s.now } else t) }
    match x.ending with
    | some (cause, 2) => s.endInstance i cause false
    | some (cause, _) => s.endPart3 i cause false
    | none =>
      if x.st == 1 then s.post (.instanceLoaded (slotAt i))
      else if x.resuming == some fault then s.cruResume i
      else s

/-- An access of a slot fails: the instance that waits for it ends, or loses that write of its end (R123, R142). -/
def State.failSlot (s : State) (i fault : Nat) : State :=
  let x := s.cx i
  if !x.waitsFor fault then s
  else if x.ending.isSome then s.loseWrite i false
  else s.endInstance i 7 false

/-- A start whose read or STATUS write waited is refused with MEMFAULT, or loses its STATUS (R125). `r`: the fault record. -/
def State.failStart (s : State) (who : StartBy) (x : Nat) (r : FaultRec) (addr cause at_ core : Nat) : State :=
  if cause != 0 then (s.fabricErr x 7 4 (cause / 65536 - 1) at_).refuseEnd who x (cause / 65536 - 1) (cause % 65536)
  else if r.src == 4 then
    match s.devRead (r.who / 16 * 4) x addr 128 with
    | (.ok l, s) => s.refuseStart who x r.who 7 (readDesc (BitVec.ofNat 64 addr) l).status.toNat
    | (.error _, s) => s.startUnusable who x core addr 7
  else s.startUnusable who x core addr 7

/-- The access of the waiter is issued again (R159, OUTCOME 0). -/
def State.retryWaiter (s : State) (p : Pending) : State :=
  match p.waiter with
  | .op r id => s.retryParts r id p.frec.id
  | .fetch _ _ => s
  | .clause _ _ => s
  | .octet core id => s.retryOctets core id p.frec.id
  | .sweep core id => s.retrySweep core id
  | .async id => (s.updAsync id (fun (o : AsyncOp) => { o with fault := none, stage := if o.kind == .coll then 0 else o.stage })).asyncRun id
  | .gaffer t => s.setGth t { s.gth t with st := 1, wait := .none }
  | .slot c k => s.retrySlot (c * 16 + k) p.frec.id
  | .stream _ => s
  | .queue q => ((s.setHq q { s.hq q with fault := none }).checkDeps q).post (.recordStart (BitVec.ofNat 6 q))
  | .completion run =>
    let s := (s.updRun run (fun (r : Run) => { r with acting := none })).completeCheck run
    match s.run? run with | some r => s.post (.recordStart (BitVec.ofNat 6 r.queue)) | none => s
  | .flit q => (s.setPort q { s.port q with inFault := none }).post (.copyFlitWrite (BitVec.ofNat 5 q))
  | .save x =>
    let s := s.updCtx x (fun (c : Ctx) => { c with savefault := none })
    if (match s.ctx? x with | some c => c.pmst == 3 | none => false) then s.post (.restorePlace (BitVec.ofNat 8 x)) else s
  | .txn r _ => s.updWave r (fun (w : Wave) => if w.txn.any (fun t => t.held == some p.frec.id) then w.abort 6 0 else w)
  | .rdma => s

/-- The access of the waiter fails (R159, OUTCOME 1): for a wave it is a fatal context error that the posted record reports
(R309); for an access whose transaction a conflict has aborted meanwhile it changes nothing (R291). -/
def State.failWaiter (s : State) (p : Pending) : State :=
  match p.waiter with
  | .op r id =>
    (match (s.wave? r).bind (fun w => w.ops.find? (fun (o : Op) => o.id == id)) with
    | none => s
    | some o => if o.txn && p.frec.kind != 3 then s.updWave r (fun (w : Wave) => w.abort 6 1) else s.fatalCtx p.ctx 0 false)
  | .fetch _ _ | .clause _ _ | .octet _ _ | .sweep _ _ => s.fatalCtx p.ctx 0 false
  | .async id =>
    match s.async? id with
    | some o =>
      if o.kind == .coll then
        (s.updAsync id (fun (o : AsyncOp) => { o with fault := none })).failStart (.op id) o.ctx p.frec o.addr.toNat o.cause o.next o.w.core
      else s.endAsync id 2
    | none => s
  | .gaffer t => s.gFault t 4 p.frec.va.toNat
  | .slot c k => s.failSlot (c * 16 + k) p.frec.id
  | .stream _ => s
  | .queue q =>
    match (s.hq q).ptrs with
    | a :: _ => s.rejectUnread q p.ctx a
    | [] => s.setHq q { s.hq q with fault := none }
  | .completion run =>
    match s.run? run with
    | some r => s.postAndSig r
    | none => s
  | .flit q => s.dropFlit q (some 2)
  | .save x => s.fatalCtx x 6 true
  | .txn r _ =>
    if !((s.wave? r).any (fun w => w.txn.any (fun t => t.held == some p.frec.id))) then s
    else if p.frec.kind == 3 then s.fatalCtx p.ctx 0 false
    else s.updWave r (fun (w : Wave) => w.abort 6 1)
  | .rdma => s

/-- A pending fault of a context with a record in its queue (R159). -/
def State.pending? (s : State) (x id : Nat) : Option Pending :=
  s.pend.find? (fun (p : Pending) => p.frec.id == id && p.ctx == x && p.posted)

end Sys2Proof.Machine
end

