-- ==== Sys2Proof/Machine/Host.lean ====
section
/-! DEFINITION. The host port: command streams and their records (R150 to R157), event counters, RESOLVE and shootdowns (R159 to
R161), contexts (R162 to R167), queries (R168, R169, R172 to R174), and completions (R154). -/

namespace Sys2Proof.Machine

/-! Command records (R155) -/

def recOpc (l : List Byte) : Nat := field l 0 1
def recCtx (l : List Byte) : Nat := field l 4 2
/-- A 64-bit body word. -/
def recWord (l : List Byte) (o : Nat) : Nat := field l o 8

/-- The length of a record by its opcode; none: unassigned (R155, R162). -/
def recLen (l : List Byte) : Option Nat :=
  match recOpc l with
  | 0x01 => some 0x20
  | 0x02 => some 0x28
  | 0x03 => some 0x28
  | 0x04 => some 0x40
  | 0x05 => some 0x18
  | 0x06 => some 0x10
  | 0x07 => some 0x30
  | 0x08 => some (0x60 + 24 * bits (recWord l 0x58) 3 0)
  | 0x09 => some 0x10
  | 0x0A => some 0x10
  | 0x0B => some 0x40
  | 0x0C => some 0x10
  | _ => none

/-- The reserved fields of a record are zero. -/
def recReservedOk (l : List Byte) : Bool :=
  let w := recWord l
  field l 1 1 < 2 && field l 6 2 == 0 &&
  (match recOpc l with
  | 0x01 => decide (w 0x10 < 64)
  | 0x02 => decide (w 0x20 < 2)
  | 0x03 => decide (w 0x20 < 2 ^ 32)
  | 0x04 => decide (w 0x18 < 16)
  | 0x07 => decide (w 0x18 < 2)
  | 0x08 => decide (w 0x10 < 2 ^ 48) && bits (w 0x30) 63 42 == 0 && bits (w 0x30) 31 17 == 0 && bits (w 0x50) 63 42 == 0 &&
      bits (w 0x50) 31 21 == 0 && bits (w 0x50) 9 6 == 0 && !bit (w 0x50) 3 && decide (w 0x58 < 16) &&
      (List.range (w 0x58)).all (fun i => decide (w (0x70 + 24 * i) < 4))
  | 0x0B => decide (w 0x10 < 256)
  | _ => true)

/-- A record that is not started (R155): an unassigned opcode, or a command not allowed on its stream. -/
def recBadCmd (st : Nat) (l : List Byte) : Bool :=
  (recLen l).isNone || (st != 0 && (recOpc l == 8 || recOpc l == 10 || recOpc l == 12))

/-- The status that turns a record away before it acts (R155): LEN and reserved fields, then the context. A command that needs no
context may name none; a handle that it names must be live (R167). -/
def State.recStatus (s : State) (st : Nat) (l : List Byte) : Option Nat :=
  let x := recCtx l
  let o := recOpc l
  let live := decide (x < 256) && (s.ctx? x).isSome
  if recLen l != some (field l 2 2) || field l 2 2 != l.length || !recReservedOk l then some 3
  else if st != 0 && (s.stream st).ctx != some x then some 2
  else if o == 8 || live || ((o == 4 || o == 6 || o == 12 || (o == 11 && recWord l 0x10 != 7)) && x == 0xFFFF) then none
  else some 2

/-- A record waits with a new reason. -/
def State.cmdWaits (s : State) (st : Nat) (seq : Word) (l : List Byte) (w : CmdWait) : State :=
  let c := s.stream st
  let r : Cmd := ⟨seq, l, if recCtx l < 256 then some (recCtx l) else none, w⟩
  let l := if c.running.any (fun (q : Cmd) => q.seq == seq) then c.running.map (fun (q : Cmd) => if q.seq == seq then r else q) else c.running ++ [r]
  s.setStream st { c with running := l }

/-- A record completes, on its stream if it is still open, else on the control stream (R167, R309). -/
def State.cmdDone (s : State) (st : Nat) (seq : Word) (l : List Byte) (status value : Nat) (data : List Byte) : State :=
  if (s.stream st).open_ then s.complete st seq l status value data
  else if field l 1 1 % 2 == 1 || status != 0 then s.sendCpl 0 3 (cplRecord st seq l status value 0 0 1)
  else s

/-- An access of a command faulted (R157): a permission fault completes it with FAULT, another waits for RESOLVE. -/
def State.cmdFault (s : State) (st : Nat) (seq : Word) (l : List Byte) (k acc va : Nat) (deadline : Option Nat) : State :=
  if k == 3 then s.cmdDone st seq l 9 0 []
  else
    let (f, s) := s.memFault (recCtx l) k acc 6 st va (.stream st)
    s.cmdWaits st seq l (.access f deadline)

/-! The commands (R157) -/

/-- LAUNCH: the pointer goes to the tail of the queue; a full queue makes the stream wait. -/
def State.runLaunch (s : State) (st : Nat) (seq : Word) (l : List Byte) : State :=
  let (c, s) := s.push (recCtx l) (recWord l 0x10 % 64) (BitVec.ofNat 64 (recWord l 0x18)) none
  if c == 1 then s.cmdWaits st seq l .queueSpace else s.cmdDone st seq l (if c == 0 then 0 else 3) 0 []

/-- EVENT-WRITE: sets the counter or adds to it, atomically. -/
def State.runEventWrite (s : State) (st : Nat) (seq : Word) (l : List Byte) : State :=
  let a := recWord l 0x10
  if a % 8 != 0 then s.cmdDone st seq l 3 0 []
  else match s.devUpdate 0 (recCtx l) a (fun v => if recWord l 0x20 == 0 then recWord l 0x18 else v + recWord l 0x18) with
    | (.ok old, s) => s.cmdDone st seq l 0 old []
    | (.error (k, va), s) => s.cmdFault st seq l k 5 va none

/-- EVENT-WAIT reads its counter: it completes, times out, watches, or reads again after a back-off (R201). -/
def State.pollEvent (s : State) (st : Nat) (seq : Word) (l : List Byte) (deadline : Option Nat) (refusals : Nat) : State :=
  match s.resolve none 0 (recCtx l) 2 (recWord l 0x10) 8 needRD with
  | (.error (k, va), s) => s.cmdFault st seq l k 0 va deadline
  | (.ok ks, s) =>
    let v := leNat (s.peek ks)
    if recWord l 0x18 ≤ v then s.cmdDone st seq l 0 v []
    else if (match deadline with | some t => decide (t ≤ s.now) | none => false) then s.cmdDone st seq l 5 v []
    else
      let s := s.cmdWaits st seq l (.event none deadline refusals)
      let ln := lineOf (ks.getD 0 0)
      if s.canWatch ln then s.cmdWaits st seq l (.event (some ln) deadline 0)
      else (s.cmdWaits st seq l (.event none deadline (refusals + 1))).after (watchBackoff refusals) (.counterWaitBackoff (.stream (BitVec.ofNat 10 st)))

/-- EVENT-WAIT at its start: its deadline is TMO µs later. -/
def State.runEventWait (s : State) (st : Nat) (seq : Word) (l : List Byte) : State :=
  let tmo := recWord l 0x20
  if recWord l 0x10 % 8 != 0 then s.cmdDone st seq l 3 0 []
  else if tmo == 0 then s.pollEvent st seq l none 0
  else (s.after (1000 * tmo) (.eventWaitTimeout (BitVec.ofNat 10 st))).pollEvent st seq l (some (s.now + 1000 * tmo)) 0

/-- SCRIPT-START (R86); held while the gaffer's switch is pending (R183). -/
def State.runScript (s : State) (st : Nat) (seq : Word) (l : List Byte) : State :=
  let th := recWord l 0x18
  if 4 ≤ th && th < 15 then s.cmdDone st seq l 3 0 []
  else if s.switching 3 then s.cmdWaits st seq l .firmware
  else match s.freeThread th (recWord l 0x10) with
    | none => s.cmdDone st seq l 4 0 []
    | some t =>
      (s.startThread t (recWord l 0x10) (if recCtx l == 0xFFFF then none else some (recCtx l))
        ([0x20, 0x28, 0x30, 0x38].map (fun o => BitVec.ofNat 64 (recWord l o))) (st, seq)).cmdWaits st seq l (.script t)

/-- COLL-START (R124, R125, R142). -/
def State.runColl (s : State) (st : Nat) (seq : Word) (l : List Byte) : State :=
  (s.cmdWaits st seq l .coll).collStart (.cmd st seq) (recCtx l) st (recWord l 0x10)

/-- FENCE (R163): every earlier record has completed; RDMA writes are visible as soon as they are acknowledged. The fetch caches drop every
line of its stream's context, on the control stream of every context (R260; DEDUCED, log 92). -/
def State.runFence (s : State) (st : Nat) (seq : Word) (l : List Byte) : State :=
  let c := s.stream st
  if c.running.all (fun (r : Cmd) => r.seq == seq) && c.held.isEmpty then
    { s with ctxs := tmap s.ctxs (fun x (k : Ctx) => if c.ctx.isNone || c.ctx == some x then { k with code := [] } else k) }.cmdDone st seq l 0 0 []
  else s.cmdWaits st seq l .fence

/-- A RESOLVE that ends a fault (R159): STALE where none is pending. The command completes when the access has been issued
again or has failed. -/
def State.runResolve (s : State) (st : Nat) (seq : Word) (l : List Byte) (again : State → Nat → Bool → State) : State :=
  if recWord l 0x20 != 0 || recWord l 0x28 != 0 then s.cmdDone st seq l 3 0 []
  else match s.pending? (recCtx l) (recWord l 0x10) with
    | none => s.cmdDone st seq l 8 0 []
    | some p =>
      let s := { s with pend := s.pend.filter (fun (q : Pending) => q.frec.id != p.frec.id) }
      let fail := recWord l 0x18 == 1
      let pg := p.frec.va.toNat / 65536 * 65536
      let s := if fail then s.failWaiter p else (s.invalidate p.ctx pg (pg + 65536)).retryWaiter p
      let s := match p.waiter with | .stream u => again s u fail | _ => s
      (s.updCtx (recCtx l) (fun c => { c with code := [] })).cmdDone st seq l 0 0 []

/-- A shootdown (R160, R161). -/
def State.runShootdown (s : State) (st : Nat) (seq : Word) (l : List Byte) : State :=
  let n := recWord l 0x20
  let b := recWord l 0x28
  if recWord l 0x18 != 0 || n == 0 || n % 65536 != 0 || b % 65536 != 0 then s.cmdDone st seq l 3 0 []
  else (s.invalidate (recCtx l) b (b + n)).cmdDone st seq l 0 0 []

/-! Contexts (R162, R164) -/

/-- A misaligned field, or a value outside its range, of a CONTEXT-CREATE. -/
def createBad (l : List Byte) : Bool :=
  let w := recWord l
  let fqn := bits (w 0x30) 16 0
  let strm0 := bits (w 0x50) 41 32
  let nstrm := bits (w 0x50) 20 10
  decide (256 ≤ recCtx l) || w 0x10 % 65536 != 0 || w 0x18 % 65536 != 0 || w 0x28 % 4096 != 0 || w 0x38 % 8192 != 0 ||
  !((List.range 13).any (fun k => fqn == 2 ^ (k + 4))) || decide (1024 ≤ nstrm) || (nstrm == 0) != (strm0 == 0) ||
  bits (w 0x50) 5 4 == 3 || decide (8 < w 0x58) ||
  (List.range (w 0x58)).any (fun i => w (0x60 + 24 * i) % 65536 != 0 || w (0x68 + 24 * i) % 65536 != 0 || w (0x70 + 24 * i) == 0)

/-- Windows that no context holds, lowest first. -/
def State.freeWindows (s : State) : List Nat := (List.range 63).map (· + 1) |>.filter (fun w => (s.win w).isNone)

/-- The cases in which CONTEXT-CREATE is refused (R164). -/
def State.createRefused (s : State) (l : List Byte) : Bool :=
  let w := recWord l
  let strm0 := bits (w 0x50) 41 32
  let nstrm := bits (w 0x50) 20 10
  let note := bits (w 0x30) 41 32
  (s.ctx? (recCtx l)).isSome || s.queues.any (fun (q : Nat × Queue) => bit (w 0x40) q.1 && q.2.ctx.isSome) ||
  decide (1024 < strm0 + nstrm) || (List.range nstrm).any (fun i => (s.stream (strm0 + i)).open_) ||
  (note != 0 && !(strm0 ≤ note && note < strm0 + nstrm)) || decide (s.freeWindows.length < w 0x58)

/-- A stream opens (R150, R152). Packets of its last opening that the host has not acknowledged are kept, and the numbering of
completions goes on behind them (R154; DEDUCED, log 84). -/
def State.openStream (s : State) (st x : Nat) : State :=
  let c := s.stream st
  s.setStream st { ({} : CmdStream) with
    ctx := some x, open_ := true, cplSeq := c.cplSeq, ackedSeq := c.ackedSeq, unacked := c.unacked, held := c.held, stalled := c.stalled }

/-- CONTEXT-CREATE (R162): the context, its queues, its streams and its windows. -/
def State.runCreate (s : State) (st : Nat) (seq : Word) (l : List Byte) : State :=
  let w := recWord l
  let x := recCtx l
  if createBad l then s.cmdDone st seq l 3 0 []
  else if s.createRefused l then s.cmdDone st seq l 4 0 []
  else
    let strm0 := bits (w 0x50) 41 32
    let nstrm := bits (w 0x50) 20 10
    let wins := s.freeWindows.take (w 0x58)
    let keys := (List.range wins.length).map (fun i => Config.freeKey s.creations i)
    let c : Ctx := ⟨w 0x10, BitVec.ofNat 64 (w 0x18), BitVec.ofNat 64 (w 0x20), BitVec.ofNat 64 (w 0x28), bits (w 0x30) 16 0,
      bits (w 0x30) 41 32, BitVec.ofNat 64 (w 0x38), BitVec.ofNat 64 (w 0x40), bits (w 0x50) 5 4, strm0, nstrm, wins,
      0, 0, 2000, 0, false, false, [], 0, none, none, [], false, [], 0⟩
    let s := { s with creations := s.creations + 1, ubcnt := tdel s.ubcnt x }
    let s := s.setCtx x c
    let s := s.each ((List.range 64).filter (fun q => bit (w 0x40) q)) (fun s q =>
      s.setHq q { ({} : Queue) with rejcnt := (s.hq q).rejcnt, wake := (s.hq q).wake, ctx := some x, comm := bit (w 0x48) q, prio := bits (w 0x50) 2 0 })
    let s := s.each (List.range nstrm) (fun s i => s.openStream (strm0 + i) x)
    let win (i : Nat) : Window :=
      ⟨keys.getD i 0, some x, BitVec.ofNat 64 (w (0x60 + 24 * i)), w (0x68 + 24 * i), BitVec.ofNat 2 (w (0x70 + 24 * i))⟩
    let s := s.each (List.range wins.length) (fun s i => { s with windows := tset s.windows (wins.getD i 0) (win i) })
    s.cmdDone st seq l 0 0 (keys.flatMap (fun (k : Word) => leBytes 4 k.toNat))

/-- CONTEXT-RESET (R165, R166). -/
def State.runReset (s : State) (st : Nat) (seq : Word) (l : List Byte) : State :=
  (s.resetCtx (recCtx l) (some (st, seq))).cmdDone st seq l 0 0 []
/-- CONTEXT-DESTROY (R167). -/
def State.runDestroy (s : State) (st : Nat) (seq : Word) (l : List Byte) : State :=
  ((s.resetCtx (recCtx l) (some (st, seq))).dropCtx (recCtx l)).cmdDone st seq l 0 0 []

/-! Queries (R29, R168, R169, R172 to R174). Where the manual lists a block's contents and not their places, the model's
packing is its own (DESIGN CHOICE, log 21). -/

/-- MODPGOOD and PGOOD (R24): the input is in range and every rail in regulation; 0 from a reset until the start has brought up the
dies (R29; DESIGN CHOICE, log 85). -/
def Module.pgood (m : Module) : Bool := m.on && m.connected && m.inputOk && m.rails == 0b1111 && m.railsUp
/-- MODALERT_N is low (R24): a sticky bit of MODPWR is set. -/
def Module.alert (m : Module) : Bool := m.uvwarn || m.ovoff || m.plimev
/-- MODID (R29); CARR is 0x0, the only variant shipped. -/
def modid : Nat := at_ 0x59A4 16 + at_ 0x28 8 + at_ Config.modStep.toNat 4
/-- MODPWR (R29). -/
def Module.modpwr (m : Module) : Nat :=
  at_ m.vin.toNat 16 + at_ m.pin.toNat 4 + at_ (bnat m.uvwarn) 3 + at_ (bnat m.ovoff) 2 + at_ (bnat m.plimev) 1 + bnat m.pgood
/-- ELSST (R29). -/
def Module.elsst (m : Module) : Nat := at_ m.elsok.toNat 4 + m.elspres.toNat

/-- Registers as a block of 32-bit words. -/
def wordBlock (n : Nat) (f : Nat → Nat) : List Byte := (List.range n).flatMap (fun i => leBytes 4 (f (4 * i)))

/-- Answers of the sideband's I3C target, with or without firmware: only those three registers (R24). -/
def State.sideband (s : State) (a : SideAccess) : Option Word :=
  match a with
  | .readModid => some (BitVec.ofNat 32 modid)
  | .readModpwr => some (BitVec.ofNat 32 s.modl.modpwr)
  | .readElsst => some (BitVec.ofNat 32 s.modl.elsst)
  | .other => none
/-- MODPRES_N is tied low on the carrier (R24). -/
def modpresN : Bool := false

/-- The certificate chain, which the manual does not lay out: free bytes, within the 64 KiB that the largest answer may have. -/
def chainData : List Byte := (List.range (Config.freeChainLen % 65537)).map Config.freeChain
/-- The images that run: unit, slot, and the number under which each was staged. -/
def Mgmt.images (m : Mgmt) : List (Nat × Nat × Nat) :=
  m.running.map (fun (p : Nat × Nat) => (p.1, p.2, match tfind m.staged (p.1 * 2 + p.2) with | some i => i.1 | none => 0))
/-- The firmware versions, likewise free; one section among eight of R169, so at most one completion's 8,160 bytes. -/
def Mgmt.versions (m : Mgmt) : List Byte :=
  (List.range (Config.freeVersionsLen m.images % 8161)).map (Config.freeVersions m.images)

/-- The boot-failure record (R172). -/
def Mgmt.bootRecord (m : Mgmt) : List Byte :=
  leBytes 4 m.failed ++ leBytes 4 (bnat m.minimal) ++ leBytes 4 m.bootFails.length ++ leBytes 4 0 ++
  m.bootFails.flatMap (fun (p : Nat × BootFail) =>
    leBytes 4 p.1 ++ leBytes 1 p.2.reason.toNat ++ leBytes 1 p.2.step.toNat ++ leBytes 1 p.2.unit.toNat ++ leBytes 1 0 ++ leBytes 8 p.2.detail.toNat)

/-- The attestation report (R173, R174); digests and the signature are free values. -/
def State.attest (s : State) (nonce : List Byte) : List Byte × State :=
  let (n, s) := s.takeFree
  let m := s.mgmt
  (leBytes 2 1 ++ leBytes 2 m.running.length ++ leBytes 4 m.failed ++ leBytes 4 modid ++ leBytes 4 0 ++ leBytes 8 s.now ++ nonce ++
    m.running.flatMap (fun (p : Nat × Nat) =>
      leBytes 1 p.1 ++ leBytes 1 p.2 ++ leBytes 6 0 ++
        (List.range 48).map (Config.freeDigest p.1 p.2 (match tfind m.staged (p.1 * 2 + p.2) with | some i => i.1 | none => 0))) ++
    (List.range 96).map (Config.freeSignature n), s)

/-- The data of a QUERY, or none for BADARG. -/
def State.queryData (s : State) (item index x : Nat) (nonce : List Byte) : Option (List Byte) × State :=
  let one (l : List Byte) : Option (List Byte) × State := (if index == 0 then some l else none, s)
  match item with
  | 0x01 => one (leBytes 4 modid ++ leBytes 4 s.modl.modpwr ++ leBytes 4 s.modl.elsst)
  | 0x02 => (if index < 32 then some (wordBlock 9 (s.port index).reg) else none, s)
  | 0x03 =>
    let c := s.circuit index
    (if index < 64 then some (wordBlock 24 c.reg ++ leBytes 4 (at_ c.owner.toNat 16 + c.bind.toNat) ++ wordBlock 4 (s.port c.port.toNat).delayReg)
      else none, s)
  | 0x04 => (if index < 4 then some (wordBlock 4 (s.gth index).reg) else none, s)
  | 0x05 => (if index < 32 then some (wordBlock 64 (s.cx index).reg) else none, s)
  | 0x06 => one (leBytes 4 s.tbstat ++ leBytes 4 s.tbctl ++ leBytes 4 s.tvreg ++ leBytes 4 s.fdidcfg ++ leBytes 4 s.epdrop.toNat)
  | 0x07 => one (leBytes 4 (tget 0 s.ubcnt x).toNat)
  | 0x08 => one s.mgmt.versions
  | 0x09 => if index == 0 then let (l, s) := s.attest nonce; (some l, s) else (none, s)
  | 0x0A => one chainData
  | 0x0B => one s.mgmt.bootRecord
  | 0x0C => one (wordBlock 4096 (fun o => s.fabRead (0x540000 + o)))
  | _ => (none, s)

/-- QUERY (R168). -/
def State.runQuery (s : State) (st : Nat) (seq : Word) (l : List Byte) : State :=
  match s.queryData (recWord l 0x10) (recWord l 0x18) (recCtx l) ((l.drop 0x20).take 32) with
  | (some d, s) => s.cmdDone st seq l 0 0 d
  | (none, s) => s.cmdDone st seq l 3 0 []

/-- A section of the summary. -/
def section_ (l : List Byte) : List Byte := leBytes 4 l.length ++ l

/-- The RESYNC summary (R169). -/
def State.summary (s : State) : List Byte :=
  section_ (s.ctxs.flatMap (fun (p : Nat × Ctx) =>
    leBytes 2 p.1 ++ leBytes 8 p.2.ptroot ++ leBytes 8 p.2.qmask.toNat ++ leBytes 2 p.2.strm0 ++ leBytes 2 p.2.nstrm ++ leBytes 2 0)) ++
  section_ ((List.range 64).flatMap (fun q =>
    let h := s.hq q
    leBytes 2 (match h.ctx with | some x => x | none => 0xFFFF) ++ leBytes 1 (bnat h.comm) ++ leBytes 1 h.prio ++ leBytes 4 h.ptrs.length)) ++
  section_ ((s.streams.filter (fun (p : Nat × CmdStream) => p.2.open_)).flatMap (fun (p : Nat × CmdStream) =>
    leBytes 4 p.1 ++ leBytes 4 p.2.lastSeq.toNat ++ leBytes 4 p.2.started.toNat ++ leBytes 4 p.2.completed.toNat ++
      leBytes 4 p.2.cplSeq.toNat ++ leBytes 4 p.2.ackedSeq.toNat ++ leBytes 4 (bnat p.2.stalled))) ++
  section_ ((List.range 64).flatMap (fun e =>
    leBytes 4 (s.fabRead (0x500000 + 128 * e)) ++ leBytes 4 (s.fabRead (0x500004 + 128 * e)) ++ leBytes 4 (s.fabRead (0x580000 + 4 * e)))) ++
  section_ ((List.range 32).flatMap (fun p => leBytes 4 (s.fabRead (0x400004 + 256 * p)))) ++
  section_ (s.errors.flatMap (fun (p : Nat × FaultRec) => leBytes 2 p.1 ++ recordBytes p.2)) ++
  section_ s.mgmt.versions ++
  section_ (leBytes 4 s.mgmt.failed)

/-- RESYNC (R169). -/
def State.runResync (s : State) (st : Nat) (seq : Word) (l : List Byte) : State :=
  s.cmdDone st seq l 0 s.summary.length s.summary

/-! Starting records (R153) -/

/-- A started or completed EVENT-WAIT or FENCE, or a LAUNCH that waits for space, holds back every later record. -/
def holdsBack (c : CmdStream) : Bool :=
  c.running.any (fun (r : Cmd) => match r.wait with
    | .event _ _ _ => true
    | .fence => true
    | .queueSpace => true
    | .access _ _ => recOpc r.data == 3
    | _ => false) ||
  c.held.any (fun (h : Nat × List Byte) => field h.2 15 1 == 3 || field h.2 15 1 == 6)

/-- The event by which a record runs. -/
def cmdEvent (st : BitVec 10) (l : List Byte) : Instr :=
  match recOpc l with
  | 0x01 => .launchCmd st
  | 0x02 => .eventWrite st
  | 0x03 => .eventWait st
  | 0x04 => .scriptStart st
  | 0x05 => .collStart st
  | 0x06 => .fenceCmd st
  | 0x07 => if recWord l 0x10 == 0 then .shootdown st else .resolve st
  | 0x08 => .contextCreate st
  | 0x09 => .contextReset st
  | 0x0A => .contextDestroy st
  | 0x0B => .query st
  | _ => .resync st

/-- The next record of a stream may start (R153); one that no command stands for completes at once (R155), and in minimal
mode every command but QUERY and RESYNC does (R171). -/
def State.startNext (s : State) (st : Nat) : Nat → State
  | 0 => s
  | n + 1 =>
    let c := s.stream st
    match c.buffer with
    | [] => s
    | (seq, l) :: rest =>
      if holdsBack c then s
      else
        let bad := recBadCmd st l
        if bad || (s.mgmt.minimal && recOpc l != 11 && recOpc l != 12) then
          ((s.setStream st { c with buffer := rest, started := seq }).cmdDone st seq l (if bad then 1 else 7) 0 []).startNext st n
        else s.post (cmdEvent (BitVec.ofNat 10 st) l)

/-- The head record of a stream starts, if it is one for this event: it is checked (R155), and acts. -/
def startCmd (s : State) (st : BitVec 10) (want : Instr) (run : State → Nat → Word → List Byte → State) : Out :=
  let n := st.toNat
  let c := s.stream n
  match c.buffer with
  | [] => .next s
  | (seq, l) :: rest =>
    if holdsBack c || recBadCmd n l || cmdEvent st l != want then .next s
    else
      let s := s.setStream n { c with buffer := rest, started := seq }
      let s := match s.recStatus n l with
        | some k => s.cmdDone n seq l k 0 []
        | none => run s n seq l
      .next (s.startNext n 65)

/-- A started record of a stream that waits as told goes on, if there is one. -/
def resumeCmd (s : State) (st : BitVec 10) (hit : CmdWait → Bool) : Option Cmd :=
  (s.stream st.toNat).running.find? (fun (r : Cmd) => hit r.wait)

/-- LAUNCH_CMD (R157): a LAUNCH that waits for space is tried again first. -/
def execLaunchCmd (st : BitVec 10) (s : State) : Out :=
  match resumeCmd s st (fun w => w == .queueSpace) with
  | some r => .next ((s.runLaunch st.toNat r.seq r.data).startNext st.toNat 65)
  | none => startCmd s st (.launchCmd st) State.runLaunch
/-- EVENT_WRITE (R157). -/
def execEventWrite (st : BitVec 10) (s : State) : Out := startCmd s st (.eventWrite st) State.runEventWrite
/-- An EVENT-WAIT of a stream reads its counter again. -/
def State.pollStream (s : State) (st : BitVec 10) (hit : Option Nat → Option Nat → Bool) : Option State :=
  match resumeCmd s st (fun w => match w with | .event l d _ => hit l d | _ => false) with
  | some r =>
    match r.wait with
    | .event l d k => some ((s.pollEvent st.toNat r.seq r.data d (if l.isSome then 0 else k)).startNext st.toNat 65)
    | _ => none
  | none => none
/-- EVENT_WAIT (R157): the start of one, or the wake of its watch. -/
def execEventWait (st : BitVec 10) (s : State) : Out :=
  match s.pollStream st (fun _ _ => true) with
  | some s => .next s
  | none => startCmd s st (.eventWait st) State.runEventWait
/-- EVENT_WAIT_TIMEOUT (R157). -/
def execEventWaitTimeout (st : BitVec 10) (s : State) : Out :=
  .next ((s.pollStream st (fun _ d => match d with | some t => decide (t ≤ s.now) | none => false)).getD s)
/-- COUNTER_WAIT_BACKOFF (R157, R135, R201). -/
def execCounterWaitBackoff (w : CounterWaiter) (s : State) : Out :=
  match w with
  | .stream st => .next ((s.pollStream st (fun l _ => l.isNone)).getD s)
  | .slot u => .next (s.slotBackoff u)
/-- SCRIPT_START (R86, R157). -/
def execScriptStart (st : BitVec 10) (s : State) : Out := startCmd s st (.scriptStart st) State.runScript
/-- COLL_START (R125, R157). -/
def execCollStart (st : BitVec 10) (s : State) : Out := startCmd s st (.collStart st) State.runColl
/-- FENCE_CMD (R163): the start of a FENCE, or its end. -/
def execFenceCmd (st : BitVec 10) (s : State) : Out :=
  match resumeCmd s st (fun w => w == .fence) with
  | some r => .next ((s.runFence st.toNat r.seq r.data).startNext st.toNat 65)
  | none => startCmd s st (.fenceCmd st) State.runFence

/-- A command's own access after RESOLVE (R157, R125): again, or FAULT. -/
def State.resumeStream (s : State) (fault u : Nat) (r : FaultRec) (fail : Bool) : State :=
  match (s.stream u).running.find? (fun (c : Cmd) => match c.wait with
      | .access f _ => f == fault
      | .collFault f _ _ => f == fault
      | _ => false) with
  | none => s
  | some c =>
    match c.wait with
    | .access _ d =>
      if fail then s.cmdDone u c.seq c.data 9 0 []
      else if recOpc c.data == 3 then s.pollEvent u c.seq c.data d 0
      else s.runEventWrite u c.seq c.data
    | .collFault _ cause a =>
      let s := s.cmdWaits u c.seq c.data .coll
      let x := recCtx c.data
      if fail then s.failStart (.cmd u c.seq) x r (recWord c.data 0x10) cause a u
      else if cause != 0 then s.refuseStart (.cmd u c.seq) x (cause / 65536 - 1) (cause % 65536) a
      else s.collStart (.cmd u c.seq) x u (recWord c.data 0x10)
    | _ => s

/-- RESOLVE (R159). -/
def execResolve (st : BitVec 10) (s : State) : Out :=
  startCmd s st (.resolve st) (fun s n seq l =>
    let id := recWord l 0x10
    match s.pending? (recCtx l) id with
    | some p => s.runResolve n seq l (fun s u fail => (s.resumeStream id u p.frec fail).startNext u 65)
    | none => s.runResolve n seq l (fun s _ _ => s))
/-- SHOOTDOWN (R160, R161). -/
def execShootdown (st : BitVec 10) (s : State) : Out := startCmd s st (.shootdown st) State.runShootdown
/-- CONTEXT_CREATE (R162, R164). -/
def execContextCreate (st : BitVec 10) (s : State) : Out := startCmd s st (.contextCreate st) State.runCreate
/-- CONTEXT_RESET (R165). -/
def execContextReset (st : BitVec 10) (s : State) : Out := startCmd s st (.contextReset st) State.runReset
/-- CONTEXT_DESTROY (R167). -/
def execContextDestroy (st : BitVec 10) (s : State) : Out := startCmd s st (.contextDestroy st) State.runDestroy
/-- QUERY (R168). -/
def execQuery (st : BitVec 10) (s : State) : Out := startCmd s st (.query st) State.runQuery
/-- RESYNC (R169). -/
def execResync (st : BitVec 10) (s : State) : Out := startCmd s st (.resync st) State.runResync

/-- Records held for an image switch run again (R183). -/
def State.releaseHeld (s : State) : State :=
  s.each (tkeys s.streams) (fun s st =>
    s.each ((s.stream st).running.filter (fun (r : Cmd) => r.wait == .firmware)) (fun s r =>
      if recOpc r.data == 4 then s.runScript st r.seq r.data else s.runColl st r.seq r.data))

/-! Packets of the transport (R150 to R154) -/

/-- The host port, the transport and stream 0 are open (R170, R171). -/
def State.hostUp (s : State) : Bool := s.modl.on && decide (4 ≤ s.mgmt.bootStep)

/-- Any packet of the host on a STALLED stream sends its packets again (R154). -/
def State.unstall (s : State) (st : Nat) : State :=
  let c := s.stream st
  if !c.stalled then s
  else
    let s := s.setStream st { c with stalled := false, unacked := c.unacked.map (fun (p : HostPacket × Nat × Nat) => (p.1, s.now, 1)) }
    ({ s with outHost := s.outHost ++ c.unacked.map (fun (p : HostPacket × Nat × Nat) => p.1) }).after 100000 (.cplRetransmit (BitVec.ofNat 10 st))

/-- A packet of the transport in order (R151): VER, reserved fields, PLEN. -/
def packetOk (k : HostPacket) (typ : Nat) : Bool := k.ver == 1 && k.typ.toNat == typ && k.rsv == 0 && decide (k.payload.length ≤ 8192)

/-- CMD_PACKET (R150, R152). -/
def execCmdPacket (k : HostPacket) (s : State) : Out :=
  if !s.hostUp || !packetOk k 1 then .next s
  else
    let n := k.stream.toNat
    let s := s.unstall n
    if !(s.stream n).open_ then .next (s.sendAck n 0)
    else
      let c := s.stream n
      if k.seq == c.lastSeq + 1 && decide (c.buffer.length < 64) then
        .next (((s.setStream n { c with lastSeq := k.seq, buffer := c.buffer ++ [(k.seq, k.payload)] }).sendAck n k.seq).startNext n 65)
      else .next (s.sendAck n c.lastSeq)

/-- Completions held back are sent while fewer than 64 are unacknowledged (R154). -/
def State.releaseCpl (s : State) (st : Nat) : Nat → State
  | 0 => s
  | n + 1 =>
    let c := s.stream st
    match c.held with
    | [] => s
    | (typ, l) :: rest => if 64 ≤ c.unacked.length then s else ((s.setStream st { c with held := rest }).sendCpl st typ l).releaseCpl st n

/-- A closed stream with nothing left to be acknowledged is gone: its numbering starts at 1 again (R154). -/
def State.forgetStream (s : State) (st : Nat) : State :=
  let c := s.stream st
  if !c.open_ && c.unacked.isEmpty && c.held.isEmpty then { s with streams := tdel s.streams st } else s

/-- HOST_ACK (R154): packets up to ACKSEQ are acknowledged, those of a closed stream too. -/
def execHostAck (k : HostPacket) (s : State) : Out :=
  if !s.hostUp || !packetOk k 2 then .next s
  else
    let n := k.stream.toNat
    let s := s.unstall n
    let c := s.stream n
    if !later k.ackseq c.ackedSeq || later k.ackseq c.cplSeq then .next s
    else
      let s := s.setStream n { c with ackedSeq := k.ackseq, unacked := c.unacked.filter (fun (p : HostPacket × Nat × Nat) => later p.1.seq k.ackseq) }
      .next (((s.releaseCpl n c.held.length).startNext n 65).forgetStream n)

/-- CPL_RETRANSMIT (R154): every 100 µs again, and after 16 sends STALLED. -/
def execCplRetransmit (st : BitVec 10) (s : State) : Out :=
  let n := st.toNat
  let c := s.stream n
  let due (p : HostPacket × Nat × Nat) : Bool := decide (p.2.1 + 100000 ≤ s.now)
  if c.stalled || !c.unacked.any due then .next s
  else if c.unacked.any (fun (p : HostPacket × Nat × Nat) => due p && decide (16 ≤ p.2.2)) then .next (s.setStream n { c with stalled := true })
  else
    let out := (c.unacked.filter due).map (fun (p : HostPacket × Nat × Nat) => p.1)
    let s := s.setStream n { c with unacked := c.unacked.map (fun (p : HostPacket × Nat × Nat) => if due p then (p.1, s.now, p.2.2 + 1) else p) }
    .next (({ s with outHost := s.outHost ++ out }).after 100000 (.cplRetransmit st))

/-! Device memory windows (R146 to R149) -/

/-- The window that a key names. -/
def State.windowOf (s : State) (key : Word) : Option Window :=
  (s.windows.find? (fun (p : Nat × Window) => p.2.key == key)).map (fun (p : Nat × Window) => p.2)

/-- The translation unit of the compute die that owns the page (R148). -/
def State.ownerUnit (s : State) (x va : Nat) : Nat :=
  match s.ctx? x with
  | some c => match walkFrom s va 0 4 0 c.ptroot with
    | .ok e => sliceOf (e.base + va % (1 <<< levelShift e.level)) / 64 * 4
    | .error _ => 0
  | none => 0

/-- The parts of a range of virtual addresses by 64 KiB page. -/
def pageParts (va n : Nat) : List (Nat × Nat) :=
  (List.range (n / 65536 + 2)).filterMap (fun k =>
    let lo := max va ((va / 65536 + k) * 65536)
    let hi := min (va + n) ((va / 65536 + k + 1) * 65536)
    if lo < hi then some (lo, hi - lo) else none)

/-- The keys of a range, each page through the unit of the die that owns it (R148), or the first fault. -/
def State.ownerKeys (s : State) (x va n need : Nat) : Except (Nat × Nat) (List Nat) × State :=
  (pageParts va n).foldl (fun (acc : Except (Nat × Nat) (List Nat) × State) (p : Nat × Nat) =>
    match acc with
    | (.error e, s) => (.error e, s)
    | (.ok l, s) => match s.resolve none (s.ownerUnit x p.1) x 2 p.1 p.2 need with
      | (.ok ks, s) => (.ok (l ++ ks), s)
      | (.error e, s) => (.error e, s)) (.ok [], s)

/-- An RDMA access (R147, R148): the keys of its bytes, or the answer that refuses it. -/
def State.rdmaKeys (s : State) (qp : BitVec 6) (key : Word) (a : DWord) (n : Nat) (write : Bool) : Except RdmaAnswer (List Nat) × State :=
  match s.windowOf key with
  | none => (.error .nakAccess, s)
  | some w =>
    if w.len < a.toNat + n || !bit w.access.toNat (bnat write) then (.error .nakAccess, s)
    else match w.ctx with
      | none => (.ok (keysFrom (gafKey a.toNat) n), s)
      | some x =>
        match s.ownerKeys x (w.va.toNat + a.toNat) n (if write then needW else needRD) with
        | (.ok ks, s) => (.ok ks, s)
        | (.error (k, f), s) => (.error .nakOperation, (s.memFault x k (bnat write) 5 qp.toNat f .rdma).2)

/-- The path MTU of a queue pair, and the packets that `n` bytes take (R178). -/
def Qp.mtu (q : Qp) : Nat := 128 * 2 ^ bits (field q.setup 0 8) 18 16
def Qp.packets (q : Qp) (n : Nat) : Nat := max 1 ((n + q.mtu - 1) / q.mtu)

/-- Response packets leave on a queue pair: numbered on from SPSN, data in packets of the MTU, addressed as the setup says (R178). -/
def State.rdmaAnswer (s : State) (qp : Nat) (a : RdmaAnswer) : State :=
  match tfind s.mgmt.qps qp with
  | none => s
  | some q =>
    let l : List RdmaAnswer := match a with
      | .data b => (List.range (q.packets b.length)).map (fun k => .data ((b.drop (k * q.mtu)).take q.mtu))
      | a => [a]
    let v := field q.setup 0x20 8
    let w := field q.setup 0x28 8
    let r (p : Nat × RdmaAnswer) : RdmaReply := {
      qp := qp, dqpn := BitVec.ofNat 24 (bits (field q.setup 0 8) 63 40), psn := q.spsn + BitVec.ofNat 24 p.1
      mac := BitVec.ofNat 48 (bits v 47 0)
      vlan := if bit v 63 then some (BitVec.ofNat 3 (bits v 62 60), BitVec.ofNat 12 (bits v 59 48)) else none
      ip := (q.setup.drop 0x10).take 16, tclass := BitVec.ofNat 8 (bits w 7 0), hopLim := BitVec.ofNat 8 (bits w 15 8), answer := p.2 }
    { s with
      outRdma := s.outRdma ++ ((List.range l.length).zip l).map r
      mgmt := { s.mgmt with qps := tset s.mgmt.qps qp { q with spsn := q.spsn + BitVec.ofNat 24 l.length } } }

/-- A request of `used` numbers on a queue pair; one that is not set up discards and counts it (R178). The expected number is served;
an earlier one is a repetition, answered again and, if it writes, not performed again; a later one is refused (PRESUMED, log 86). -/
def State.onQp (s : State) (qp : BitVec 6) (psn : BitVec 24) (used : Qp → Nat) (write : Bool) (run : State → RdmaAnswer × State) : Out :=
  match tfind s.mgmt.qps qp.toNat with
  | none => .next { s with badFrames := s.badFrames + 1 }
  | some q =>
    let d := (psn - q.epsn).toNat
    let expect (s : State) : State :=
      { s with mgmt := { s.mgmt with qps := tset s.mgmt.qps qp.toNat { q with epsn := q.epsn + BitVec.ofNat 24 (used q) } } }
    if d == 0 then
      let (a, s) := run (expect s)
      .next (s.rdmaAnswer qp.toNat a)
    else if d < 2 ^ 23 then .next (s.rdmaAnswer qp.toNat .nakSequence)
    else if write then .next (s.rdmaAnswer qp.toNat .ack)
    else
      let (a, s) := run s
      .next (s.rdmaAnswer qp.toNat a)

/-- RDMA_WRITE (R146 to R149). -/
def execRdmaWrite (h : RdmaAt) (key : Word) (a : DWord) (data : List Byte) (s : State) : Out :=
  if !s.hostUp then .next s
  else s.onQp h.qp h.psn (fun q => q.packets data.length) true (fun s =>
    match s.rdmaKeys h.qp key a data.length true with
    | (.ok ks, s) => (.ack, s.store (ks.zip data))
    | (.error r, s) => (r, s))

/-- RDMA_READ (R146 to R149). -/
def execRdmaRead (h : RdmaAt) (key : Word) (a : DWord) (len : Nat) (s : State) : Out :=
  if !s.hostUp then .next s
  else s.onQp h.qp h.psn (fun q => q.packets len) false (fun s =>
    match s.rdmaKeys h.qp key a len false with
    | (.ok ks, s) => (.data (s.peek ks), s)
    | (.error r, s) => (r, s))

end Sys2Proof.Machine
end

