-- ==== Sys2Proof/Machine/Boot.lean ====
section
/-! DEFINITION. The module: power, reset and boot (R24 to R26, R29, R170 to R172), the sensors (R29, R179), soft errors (R184) and
the lifetime records (R179, R180). What the flash holds outlives a loss of power. -/

namespace Sys2Proof.Machine

/-- The management state after a loss of power: what the flash holds (R171, R172, R179, R180, R182, R183). Increments since the
last commit are lost. -/
def Mgmt.flash (m : Mgmt) : Mgmt :=
  let pg := match m.pages with | p :: _ => p | [] => ([], [])
  { ({} : Mgmt) with
    bootComplete := false, bootStep := m.bootStep, startOpen := m.startOpen, startNo := m.startNo, startIncr := m.startIncr
    resetIncr := m.resetIncr, slots := m.slots, staged := m.staged
    nextImage := m.nextImage, failed := m.failed, bootFails := m.bootFails, counters := pg.1, hist := pg.2, pages := m.pages
    log := m.log, nextLog := m.nextLog, replies := m.replies }

/-- Everything that a loss of power or a reset takes (R25, R29): every die's state goes to its reset values, contexts are lost,
memory is undefined (log 2). The module's sensors, latches and sticky bits, the flash, and what has left the device stay; PGOOD takes
its reset value (R29). -/
def State.lose (s : State) : State :=
  { ({} : State) with
    agenda := s.agenda, free := s.free, modl := { s.modl with railsUp := false }, mgmt := s.mgmt.flash, outHost := s.outHost
    outRdma := s.outRdma, outNd := s.outNd, outSide := s.outSide, outPkt := s.outPkt, outFlit := s.outFlit, outCtl := s.outCtl }

/-- The open start enters the boot-failure record as failed, newest first and under its own number, and is counted (R172, R181). -/
def State.recordFail (s : State) (f : BootFail) : State :=
  let s := s.count 2 1
  { s with mgmt := { s.mgmt with
    startOpen := false, startIncr := false, bootFails := ((s.mgmt.startNo, f) :: s.mgmt.bootFails).take 16 } }

/-- UCIe modules that fail training are logged and counted; an engine without a module keeps its ports DARK (R185). -/
def State.linkDowns (s : State) (l : List (Nat × Nat)) : State :=
  let s := s.each l (fun s p =>
    let s := { s with mgmt := { s.mgmt with linkdn := satInc s.mgmt.linkdn } }
    s.logEntry 5 0xFF (BitVec.ofNat 64 (p.1 + 256 * p.2)))
  s.each ((List.range 16).filter (fun n => 4 ≤ (l.filter (fun p => p.1 == 2 + n)).length)) (fun s n =>
    (s.setPort (2 * n) { s.port (2 * n) with down := true }).setPort (2 * n + 1) { s.port (2 * n + 1) with down := true })

/-- The slot that a unit runs from (R170): the selected one, or the other where only that one passes. -/
def Mgmt.bootSlot (m : Mgmt) (b : Boot) (u : Nat) : Nat × Nat :=
  let sel := tget 0 m.slots u
  (u, if b.swaps.contains u then 1 - sel else sel)

/-- The host port, the transport and stream 0 open (R170); window 0 is there where the gaffer is. -/
def State.openHost (s : State) (windows : Bool) : State :=
  { s with
    streams := [(0, { open_ := true })]
    windows := if windows then [(0, { key := Config.window0Key, ctx := none, va := 0, len := 262144, access := 3 })] else [] }

/-- A START (R170 to R172), of a module that `lose` has left without state; `power`: the start before, if it was open, ended by
loss of power. The ROM of a start that does not complete step 1 leaves the count and the latch alone. -/
def State.boot (s : State) (b : Boot) (power : Bool) : State :=
  let s := if s.mgmt.startOpen && power then s.recordFail ⟨7, BitVec.ofNat 8 s.mgmt.bootStep, 0xFF, 0⟩ else s
  let step := match b.fail with | some f => f.step.toNat | none => 5
  let failed := if s.modl.latch && s.mgmt.resetIncr then s.mgmt.failed - 1 else s.mgmt.failed
  let minimal := decide (3 ≤ failed)
  let s := s.count 1 1
  let n := tget 0 s.mgmt.counters 1
  let s := s.logEntry 7 0xFF (BitVec.ofNat 64 (n + at_ (bnat (minimal && step != 0)) 32))
  let m := { s.mgmt with bootStep := step, startOpen := true, startNo := n, startIncr := false, startFail := b.fail }
  let fails : List Timer := [⟨30000000000, .failedStart n⟩]
  let manager : List Timer := [⟨60000000000, .flashCommit⟩, ⟨3600000000000, .powerOnHours⟩]
  if step == 0 then { s with mgmt := m, timers := fails }
  else
    let s := { s with modl := { s.modl with latch := false } }
    let m := { m with failed := failed, resetIncr := false }
    if minimal then
      ({ s with
        mgmt := { m with minimal := true, bootStep := 4, startOpen := false, startFail := none, running := [m.bootSlot b 0] }
        timers := manager }).openHost false
    else if step < 5 then
      let s := ({ s with
        mgmt := { m with
          failed := failed + 1, startIncr := true, running := if 3 ≤ step then units.map (m.bootSlot b) else [m.bootSlot b 0] }
        timers := (if 2 ≤ step then bootTimers else manager) ++ fails }).linkDowns b.downs
      if step == 4 then s.openHost true else s
    else
      (({ s with
        mgmt := { m with failed := 0, bootComplete := true, startOpen := false, running := units.map (m.bootSlot b) }
        timers := bootTimers }).linkDowns b.downs).openHost true

/-- POWER_ON (R170); the input is in its operating range until a measurement or a threshold says otherwise (DESIGN CHOICE, log 68). -/
def execPowerOn (b : Boot) (s : State) : Out :=
  if s.modl.on || !s.modl.connected then .next s
  else .next (({ s.lose with modl := { s.lose.modl with on := true, inputOk := true } }).boot b true)

/-- MODRST_N_ASSERT (R25, R171): the carrier latches it, every die is reset, and boot starts as a new start; the increment of the
start that it ends is to be removed. While the module is off it sets the latch only, and ends no start (DESIGN CHOICE, log 88). -/
def execModrstNAssert (b : Boot) (s : State) : Out :=
  let s := { s with modl := { s.modl with latch := true } }
  .next (if s.modl.on then
    ({ s with mgmt := { s.mgmt with resetIncr := s.mgmt.resetIncr || (s.mgmt.startOpen && s.mgmt.startIncr) } }).lose.boot b false
  else s)

/-- FAILED_START (R171, R172): 30 s after its beginning the start of this number has not reached boot-complete; it is recorded with
what stopped it, or as TIMEOUT. -/
def execFailedStart (start : Nat) (s : State) : Out :=
  if !s.modl.on || !s.mgmt.startOpen || s.mgmt.startNo != start then .next s
  else if s.ticks < 30000000000 then .next (s.after (30000000000 - s.ticks) (.failedStart start))
  else .next (s.recordFail (s.mgmt.startFail.getD ⟨6, BitVec.ofNat 8 s.mgmt.bootStep, 0xFF, 0⟩))

/-- UVWARN (R26). -/
def execUvwarn (s : State) : Out := .next { s with modl := { s.modl with uvwarn := true, inputOk := false } }

/-- INPUT_SHUTDOWN (R26): the effect of a reset, and the module is off. -/
def execInputShutdown (s : State) : Out :=
  .next (if s.modl.on then { s.lose with modl := { s.lose.modl with on := false, inputOk := false } } else s)

/-- OVOFF (R26): the input stage disconnects. -/
def execOvoff (s : State) : Out :=
  let s := if s.modl.on then s.lose else s
  .next { s with modl := { s.modl with ovoff := true, connected := false, on := false, inputOk := false } }

/-- INPUT_RECONNECT (R26): the input has returned below 58.0 V; it counts as in the operating range, as at POWER_ON, though it may be
below 50.0 V until the next measurement shows it (DESIGN CHOICE, log 68). -/
def execInputReconnect (b : Boot) (s : State) : Out :=
  if s.modl.connected then .next s
  else .next (({ s.lose with modl := { s.lose.modl with connected := true, on := true, inputOk := true } }).boot b true)

/-! Sensors (R24, R29, R179) -/

/-- MODPWR_UPDATE (R29): VIN in 10 mV, PIN in W; the operating range is 50.0 V to 58.0 V (R26). The module holds the average that PIN
reports to 2,600 W (R27, R30). -/
def execModpwrUpdate (vin : BitVec 16) (pin : BitVec 12) (s : State) : Out :=
  .next { s with modl := { s.modl with vin := vin, pin := if 2600 < pin.toNat then 2600 else pin, inputOk := decide (5000 ≤ vin.toNat) && decide (vin.toNat ≤ 5800) } }

/-- RAIL_OUT_OF_REGULATION (R24): a die's rail leaves or regains regulation. -/
def execRailOutOfRegulation (die : BitVec 2) (ok : Bool) (s : State) : Out :=
  let b : BitVec 4 := 1 <<< die.toNat
  .next { s with modl := { s.modl with rails := if ok then s.modl.rails ||| b else s.modl.rails &&& ~~~b } }

/-- The bin of a temperature in °C (R179): 32 bins of 4 °C from 0 °C. -/
def tempBin (t : Int) : Nat := min 31 (t.toNat / 4)

/-- TEMPERATURE_SAMPLE (R179): CD0, CD1, XD0, XD1, once a minute while the management core runs. -/
def execTemperatureSample (cd0 cd1 xd0 xd1 : Int) (s : State) : Out :=
  if !s.modl.on || s.mgmt.bootStep == 0 || (match s.mgmt.tempAt with | some t => decide (s.ticks < t + 60000000000) | none => false) then .next s
  else
  let s := { s with mgmt := { s.mgmt with tempAt := some s.ticks } }
  .next ((((s.bin (2 * 32 + tempBin cd0)).bin (3 * 32 + tempBin cd1)).bin (4 * 32 + tempBin xd0)).bin (5 * 32 + tempBin xd1))

/-- POWER_ON_HOURS (R179): an hour of the module and of every laser group lit now, and the hour's droop and throttle bins. -/
def execPowerOnHours (s : State) : Out :=
  let s := s.after 3600000000000 .powerOnHours
  let s := s.count 0 1
  let s := s.each (List.range 32) (fun s p => s.each ((List.range 4).filter (fun g => bit (s.port p).lit.toNat g)) (fun s g => s.count (4 + 4 * p + g) 1))
  let s := s.each (List.range 16) (fun s n => s.bin (7 * 32 + min 31 (tget 0 s.mgmt.hourDroop n / 16)))
  let s := s.bin (8 * 32 + min 31 (s.mgmt.hourThrottle / 64))
  .next { s with mgmt := { s.mgmt with hourDroop := [], hourThrottle := 0 } }

/-- The records are committed to the older of two pages (R180). -/
def State.commitFlash (s : State) : State :=
  { s with mgmt := { s.mgmt with pages := ((s.mgmt.counters, s.mgmt.hist) :: s.mgmt.pages).take 2 } }

/-- FLASH_COMMIT (R180). -/
def execFlashCommit (s : State) : Out := .next ((s.after 60000000000 .flashCommit).commitFlash)

/-! Soft errors (R184) -/

/-- PATROL_SCRUB (R184): one falls due every hour, and SVSTAT shows whether one runs; it rewrites no value. -/
def execPatrolScrub (running : Bool) (s : State) : Out :=
  let s := { s with mgmt := { s.mgmt with scrub := running } }
  .next (if running && !s.timers.any (fun (t : Timer) => t.what == .patrolScrub true) then s.after 3600000000000 (.patrolScrub true) else s)

/-- What waves had under way beside their core ends with them: their pending faults and their copies, gathers, messages and starts. -/
def State.dropWaves (s : State) (l : List WaveRef) : State :=
  let ids (c : Core) (n : Nat) : List Nat :=
    ((c.matrix.filter (fun m => l.contains ⟨n, m.slot⟩)).map (fun m => m.id)) ++ ((c.sweeps.filter (fun m => l.contains ⟨n, m.slot⟩)).map (fun m => m.id))
  let engine := s.cores.flatMap (fun (p : Nat × Core) => ids p.2 p.1)
  let ops := (s.asyncs.filter (fun (o : AsyncOp) => l.contains o.w)).map (fun (o : AsyncOp) => o.id)
  { s with
    asyncs := s.asyncs.filter (fun (o : AsyncOp) => !l.contains o.w)
    pend := s.pend.filter (fun (p : Pending) => match p.waiter with
      | .op r _ | .fetch r _ | .clause r _ | .txn r _ => !l.contains r
      | .octet _ i | .sweep _ i => !engine.contains i
      | .async i => !ops.contains i
      | _ => true) }

/-- UPDPEND: the latest unit whose switch is pending. -/
def State.showPending (s : State) : State :=
  { s with mgmt := { s.mgmt with updpend := match s.mgmt.pendingSwitch.getLast? with | some f => BitVec.ofNat 8 f.unit | none => 0xFF } }

/-- The start that waits for an access of a crucible ends with the crucible's work: it retires, ABORTED (R165, R184; DEDUCED, log 18). -/
def State.stopStart (s : State) (p : Pending) : State :=
  match p.waiter with
  | .async id => s.retireStart (some id) none 6 0
  | .stream st =>
    match (s.stream st).running.find? (fun (r : Cmd) => match r.wait with | .collFault f _ _ => f == p.frec.id | _ => false) with
    | some r => s.retireStart none (some (st, r.seq)) 6 0
    | none => s
  | _ => s

/-- A microcontroller's work ends as a context reset ends it (R184, R165): the gaffer's threads, a crucible's instances and the starts it
reads tables for, a dispatcher's queues and their blocks, a lehr's declarations, the management core's waiting requests and the switches
it has started (DEDUCED, log 18). -/
def State.endWork (s : State) (u : Nat) : State :=
  if u == 0 then { s with mgmt := { s.mgmt with inbox := [], pendingSwitch := [] } }.showPending.releaseHeld.tryPlace.tellAll
  else if u == 1 || u == 2 then
    let mine (q : Nat) : Bool := q / 32 == u - 1
    let ids := (s.runs.filter (fun (r : Run) => mine r.queue)).map (fun (r : Run) => r.id)
    let s := { s with
      queues := tmap s.queues (fun q (h : Queue) => if mine q then { h with ptrs := [], head := none, fault := none, placing := [], asked := [] } else h)
      runs := s.runs.filter (fun (r : Run) => !mine r.queue)
      dies := tmap s.dies (fun d (x : Die) => if d == u - 1 then { x with evq := [], evwait := [] } else x)
      ctxs := tmap s.ctxs (fun _ (c : Ctx) => { c with images := c.images.filter (fun (m : Image) => !ids.contains m.launch) })
      pend := s.pend.filter (fun (p : Pending) => match p.waiter with | .queue q => !mine q | .completion r => !ids.contains r | _ => true) }
    let s := s.dropWaves ((s.allWaves.filter (fun (p : WaveRef × Wave) => !p.2.handler && ids.contains p.2.launch)).map (fun p => p.1))
    (s.each (tkeys s.cores) (fun s c =>
      s.each (((s.core c).blocks.filter (fun (b : Nat × Block) => ids.contains b.2.launch)).map (fun b => b.1)) (fun s b => s.removeBlock c b))).tryPlace
  else if u == 3 then
    s.each [0, 1, 2, 3] (fun s t =>
      if (s.gth t).st == 0 then s
      else
        let s := s.gComplete t 6 0xFFFFFFFF
        { s.setGth t { s.gth t with st := 0, wait := .none, cmd := none } with
          pend := s.pend.filter (fun (p : Pending) => p.waiter != .gaffer t) })
  else if u == 4 || u == 5 then
    let starts := s.pend.filter (fun (p : Pending) => p.frec.src == 4 && p.frec.who / 16 == u - 4 && (match p.waiter with | .async _ | .stream _ => true | _ => false))
    let s := { s with pend := s.pend.filter (fun (p : Pending) => !starts.contains p && (match p.waiter with | .slot c _ => c != u - 4 | _ => true)) }
    let s := s.each starts (fun s p => s.stopStart p)
    s.each ((s.cru.filter (fun (p : Nat × Crux) => p.1 / 16 == u - 4 && p.2.st != 0)).map (fun p => p.1)) (fun s i => s.stopInstance i)
  else if 16 ≤ u && u < 32 then
    s.each (s.allWaves.filter (fun (p : WaveRef × Wave) => clusterOf p.1.core == u - 16)) (fun s (p : WaveRef × Wave) =>
      s.updWave p.1 (fun (w : Wave) => { w with decl := none }))
  else s

/-- SOFT_ERROR (R184). The entry of an uncorrectable error names no unit, whatever state it was in (R182; DESIGN CHOICE, log 99). -/
def execSoftError (e : SoftError) (s : State) : Out :=
  if 6 ≤ e.cls.toNat then .next s
  else if e.corrected then .next (s.count (132 + e.cls.toNat) 1)
  else
    let s := (s.count (138 + e.cls.toNat) 1).logEntry 4 0xFF (BitVec.ofNat 64 (e.cls.toNat + 256 * e.die.toNat))
    let s := { s with mgmt := { s.mgmt with ucerr := true } }
    match e.owner with
    | .context x => .next (s.fatalCtx x.toNat 2 true)
    | .unit u => .next (if units.contains u.toNat then (s.endWork u.toNat).logEntry 9 u.toNat 0 else s)
    | .none => .next s

end Sys2Proof.Machine
end

