-- ==== Sys2Proof/Machine/Management.lean ====
section
/-! DEFINITION. The management flow (R175 to R183) and the frames of the host port (R144, R145). -/

namespace Sys2Proof.Machine

/-- A reply leaves (R176). -/
def State.reply (s : State) (op status : Nat) (tag : DWord) (data : List Byte) : State :=
  { s with mgmt := { s.mgmt with replies := s.mgmt.replies ++ [⟨op, status, tag, data⟩] } }

/-- The management core serves requests (R170: step 1 is done). -/
def State.manager (s : State) : Bool := s.modl.on && decide (1 ≤ s.mgmt.bootStep)

/-- The oldest waiting request has run, if it is this one (R176: one at a time, in arrival order). -/
def State.popRequest (s : State) (op : BitVec 8) (m : MgmtReq) : State :=
  match s.mgmt.inbox with
  | r :: l => if r == (op, m) then { s with mgmt := { s.mgmt with inbox := l } } else s
  | [] => s

/-- LEN agrees with the payload and with `len`, and no reserved byte is set (R176). -/
def reqOk (m : MgmtReq) (len : Nat) : Bool := !m.rsv && m.len == len && m.payload.length == len

/-- The management core's own image switches: requests are held (R183). -/
def State.coreHeld (s : State) : Bool := s.switching 0

/-- A request with its length check: BADARG, or its reply. -/
def State.request1 (s : State) (op : Nat) (m : MgmtReq) (len : Nat) (run : State → State) : State :=
  let s := s.popRequest (BitVec.ofNat 8 op) m
  if reqOk m len then run s else s.reply op 3 m.tag []

/-- READ-COUNTERS (R181): 208 counters of 4 bytes. -/
def State.runReadCounters (s : State) (m : MgmtReq) : State :=
  s.request1 1 m 0 (fun s => s.reply 1 0 m.tag ((List.range 208).flatMap (fun i => leBytes 4 (tget 0 s.mgmt.counters i))))
/-- READ-HIST (R181): ids 0x02 to 0x08 are histograms. -/
def State.runReadHist (s : State) (m : MgmtReq) : State :=
  s.request1 2 m 1 (fun s =>
    let h := field m.payload 0 1
    if h < 2 || 8 < h then s.reply 2 3 m.tag []
    else s.reply 2 0 m.tag ((List.range 32).flatMap (fun i => leBytes 4 (tget 0 s.mgmt.hist (32 * h + i)))))
/-- CLEAR-STICKY (R177). -/
def State.runClearSticky (s : State) (m : MgmtReq) : State :=
  s.request1 3 m 4 (fun s =>
    let v := field m.payload 0 4
    ({ s with modl := { s.modl with
        uvwarn := w1c s.modl.uvwarn v 3, ovoff := w1c s.modl.ovoff v 2, plimev := w1c s.modl.plimev v 1 } }).reply 3 0 m.tag [])
/-- The slot that a unit runs from (R170, R183): after a boot that fell back, not the selected one. -/
def Mgmt.active (m : Mgmt) (u : Nat) : Nat := tget (tget 0 m.slots u) m.running u

/-- FW-STAGE (R183): unit, offset, then image bytes for the inactive slot. The offset counts bytes, and a gap before it is filled with
zeros (DESIGN CHOICE, log 60). -/
def State.runFwStage (s : State) (m : MgmtReq) : State :=
  let s := s.popRequest 4 m
  let u := field m.payload 0 1
  if m.rsv || m.len != m.payload.length || m.len < 2 || !units.contains u then s.reply 4 3 m.tag []
  else if s.switching u then s.reply 4 4 m.tag []
  else
    let i := u * 2 + (1 - s.mgmt.active u)
    let off := field m.payload 1 1
    let new := m.payload.drop 2
    let old := match tfind s.mgmt.staged i with | some p => p.2 | none => []
    let img := (old ++ List.replicate (off - old.length) 0).take off ++ new ++ old.drop (off + new.length)
    ({ s with mgmt := { s.mgmt with staged := tset s.mgmt.staged i (s.mgmt.nextImage, img), nextImage := s.mgmt.nextImage + 1 } }).reply 4 0 m.tag []
/-- RECAL (R177): CALREQ of the port; REFUSED where the write sets BADREQ. -/
def State.runRecal (s : State) (m : MgmtReq) : State :=
  s.request1 6 m 1 (fun s =>
    let p := field m.payload 0 1
    if 32 ≤ p then s.reply 6 3 m.tag []
    else
      let was := (s.port p).badreq
      let s := (s.setPort p { s.port p with badreq := false }).writeCal p
      let refused := (s.port p).badreq
      (s.setPort p { s.port p with badreq := was || refused }).reply 6 (if refused then 4 else 0) m.tag [])
/-- The values of a QP-SETUP (R178). -/
def qpOk (l : List Byte) : Bool :=
  let a := field l 0 8
  let b := field l 8 8
  let c := field l 0x28 8
  bits a 39 19 == 0 && bits a 15 6 == 0 && decide (1 ≤ bits a 18 16) && decide (bits a 18 16 ≤ 5) && bits b 63 56 == 0 && bits b 31 24 == 0 &&
  bits c 63 40 == 0 && bits c 31 16 == 0 && decide (1 ≤ bits c 39 32) && decide (bits c 39 32 ≤ 16)
/-- QP-SETUP (R178). -/
def State.runQpSetup (s : State) (m : MgmtReq) : State :=
  s.request1 8 m 48 (fun s =>
    let q := field m.payload 0 1 % 64
    if !qpOk m.payload then s.reply 8 3 m.tag []
    else if (tfind s.mgmt.qps q).isSome then s.reply 8 4 m.tag []
    else
      let b := field m.payload 8 8
      let p : Qp := ⟨m.payload, BitVec.ofNat 24 (bits b 55 32), BitVec.ofNat 24 (bits b 23 0)⟩
      ({ s with mgmt := { s.mgmt with qps := tset s.mgmt.qps q p } }).reply 8 0 m.tag [])
/-- QP-TEARDOWN (R178). A queue pair that is not set up is torn down too, with OK (DESIGN CHOICE, log 99). -/
def State.runQpTeardown (s : State) (m : MgmtReq) : State :=
  s.request1 9 m 1 (fun s =>
    let q := field m.payload 0 1
    if 64 ≤ q then s.reply 9 3 m.tag []
    else ({ s with mgmt := { s.mgmt with qps := tdel s.mgmt.qps q } }).reply 9 0 m.tag [])
/-- The bytes of a log entry (R182). -/
def logBytes (e : LogEntry) : List Byte :=
  leBytes 4 e.index.toNat ++ leBytes 1 e.kind ++ leBytes 1 e.unit ++ leBytes 2 0 ++ leBytes 8 e.time ++ leBytes 8 e.data.toNat
/-- READ-LOG (R182). A first entry that has not been written yet starts at the oldest entry held, as one no longer held does (DESIGN CHOICE,
log 99). -/
def State.runReadLog (s : State) (m : MgmtReq) : State :=
  s.request1 10 m 4 (fun s =>
    let first := BitVec.ofNat 32 (field m.payload 0 4)
    let l := s.mgmt.log
    let from_ := if l.any (fun (e : LogEntry) => e.index == first) then l.dropWhile (fun (e : LogEntry) => e.index != first) else l
    s.reply 10 0 m.tag ((from_.take 340).flatMap logBytes))

/-- The requests that need nothing from outside run at once; FW-SWITCH and REBOOT wait for their own rows (R176). An unassigned OP gives
BADCMD, whatever its LEN and reserved bytes (DESIGN CHOICE, log 99). -/
def State.serve (s : State) : Nat → State
  | 0 => s
  | n + 1 =>
    match s.mgmt.inbox with
    | [] => s
    | (op, m) :: l =>
      if s.coreHeld then s
      else
      let rest := { s with mgmt := { s.mgmt with inbox := l } }
      match op.toNat with
      | 1 => (s.runReadCounters m).serve n
      | 2 => (s.runReadHist m).serve n
      | 3 => (s.runClearSticky m).serve n
      | 4 => (s.runFwStage m).serve n
      | 5 => s
      | 6 => (s.runRecal m).serve n
      | 7 => s
      | 8 => (s.runQpSetup m).serve n
      | 9 => (s.runQpTeardown m).serve n
      | 10 => (s.runReadLog m).serve n
      | o => (rest.reply o 1 m.tag []).serve n

/-- A request runs, and those behind it; one that comes while an older one waits, or while the core's image switches, waits behind it
(R176, R183). -/
def served (s : State) (op : BitVec 8) (run : State → MgmtReq → State) (m : MgmtReq) : Out :=
  if !s.manager then .next s
  else if s.coreHeld || (match s.mgmt.inbox with | r :: _ => r != (op, m) | [] => false) then
    .next (if s.mgmt.inbox.head? == some (op, m) then s else { s with mgmt := { s.mgmt with inbox := s.mgmt.inbox ++ [(op, m)] } })
  else
    let s := run s m
    .next (s.serve s.mgmt.inbox.length)

def execReadCounters (m : MgmtReq) (s : State) : Out := served s 1 State.runReadCounters m
def execReadHist (m : MgmtReq) (s : State) : Out := served s 2 State.runReadHist m
def execClearSticky (m : MgmtReq) (s : State) : Out := served s 3 State.runClearSticky m
def execFwStage (m : MgmtReq) (s : State) : Out := served s 4 State.runFwStage m
def execRecal (m : MgmtReq) (s : State) : Out := served s 6 State.runRecal m
def execQpSetup (m : MgmtReq) (s : State) : Out := served s 8 State.runQpSetup m
def execQpTeardown (m : MgmtReq) (s : State) : Out := served s 9 State.runQpTeardown m
def execReadLog (m : MgmtReq) (s : State) : Out := served s 10 State.runReadLog m

/-! Firmware switches (R183) -/

/-- FW-SWITCH (R183); `verified`: the staged image passes. -/
def execFwSwitch (m : MgmtReq) (verified : Bool) (s : State) : Out :=
  served s 5 (fun s m => s.request1 5 m 1 (fun s =>
    let u := field m.payload 0 1
    if !units.contains u then s.reply 5 3 m.tag []
    else if s.switching u || !verified then s.reply 5 4 m.tag []
    else
      let f : FwSwitch := ⟨u, s.now + 10000000000, m.tag⟩
      (({ s with mgmt := { s.mgmt with pendingSwitch := s.mgmt.pendingSwitch ++ [f] } }).after 10000000000
        (.fwSwitchTimeout (BitVec.ofNat 8 u))).showPending)) m

/-- A unit is at its quiescent point (R183). -/
def State.quiescent (s : State) (u : Nat) : Bool :=
  if u == 3 then (List.range 4).all (fun t => (s.gth t).st == 0)
  else if u == 4 || u == 5 then (List.range 16).all (fun k => (s.cx ((u - 4) * 16 + k)).st == 0)
  else if 16 ≤ u then s.lehrIdle (u - 16)
  else true

/-- A switch is over: what was held for it goes on (R183): commands, management requests, placements, announcements. -/
def State.switchOver (s : State) : State :=
  let s := s.showPending.releaseHeld
  (s.serve s.mgmt.inbox.length).tryPlace.tellAll

/-- FIRMWARE_SWITCH_DONE (R183): the unit runs from its other slot, or has returned to the old one. -/
def execFirmwareSwitchDone (unit : BitVec 8) (started : Bool) (s : State) : Out :=
  let u := unit.toNat
  match s.mgmt.pendingSwitch.find? (fun (f : FwSwitch) => f.unit == u) with
  | none => .next s
  | some f =>
    if !s.quiescent u then .next s
    else
      let old := s.mgmt.active u
      let slot := if started then 1 - old else old
      let s := { s with mgmt := { s.mgmt with
        slots := tset s.mgmt.slots u slot, running := tset s.mgmt.running u slot
        pendingSwitch := s.mgmt.pendingSwitch.filter (fun (g : FwSwitch) => g.unit != u) } }
      let s := (s.logEntry (if started then 2 else 3) u (BitVec.ofNat 64 slot)).reply 5 (if started then 0 else 9) f.tag []
      .next s.switchOver

/-- FW_SWITCH_TIMEOUT (R183): 10 s without a quiescent point; a unit that has reached it, and takes up nothing new until it has
switched, goes on switching. -/
def execFwSwitchTimeout (unit : BitVec 8) (s : State) : Out :=
  let u := unit.toNat
  match s.mgmt.pendingSwitch.find? (fun (f : FwSwitch) => f.unit == u && decide (f.due ≤ s.now)) with
  | none => .next s
  | some f =>
    if s.quiescent u then .next s
    else
      let s := { s with mgmt := { s.mgmt with pendingSwitch := s.mgmt.pendingSwitch.filter (fun (g : FwSwitch) => g.unit != u) } }
      .next (s.reply 5 4 f.tag []).switchOver

/-- REBOOT (R177, R171, R179, R180): the reply, the commit of an orderly reboot with the ports' counts that the reset clears,
CLEARFAIL, then a new start. A start that is still open is closed: it does not count as failed and is not recorded, and what it added to
the count stays (R172; DESIGN CHOICE, log 69). -/
def execReboot (m : MgmtReq) (b : Boot) (s : State) : Out :=
  served s 7 (fun s m =>
    let s := s.popRequest 7 m
    if !reqOk m 8 || 2 ≤ field m.payload 0 8 then s.reply 7 3 m.tag []
    else
      let s := (s.each (List.range 32) (fun s p => s.clearCounts p)).reply 7 0 m.tag []
      let s := s.commitFlash
      let s := if field m.payload 0 8 == 1 then { s with mgmt := { s.mgmt with failed := 0 } } else s
      ({ s with mgmt := { s.mgmt with startOpen := false, startIncr := false } }).lose.boot b false) m

/-! Frames (R144, R145) -/

/-- The checks of a frame and of its flow. -/
def frameOk (f : Frame) : Bool :=
  decide (f.length ≤ 9216) && decide (f.tags ≤ 1) && (f.ipv6 || (match f.body with | .pause _ _ => true | _ => false)) && !f.extHdr &&
  (match f.body with
  | .neighbour _ _ => true
  | .pause _ _ => true
  | .yct _ => f.udpCsum && f.port == 47360
  | .mgmt _ _ _ => f.udpCsum && f.port == 47362
  | _ => f.udpCsum && f.port == 4791)

/-- The queue pair of a destination number, if it names one (R178). -/
def qpOf (n : BitVec 24) : Option (BitVec 6) := if 0x100 ≤ n.toNat && n.toNat < 0x140 then some (BitVec.ofNat 6 n.toNat) else none

/-- A discarded frame is counted. -/
def State.badFrame (s : State) : State := { s with badFrames := s.badFrames + 1 }

/-- ETHERNET_FRAME (R144): the frame goes to its flow, or is discarded and counted. A neighbour solicitation for this device's address
is answered. No operation of the management flow enables a priority for flow control, so a pause changes nothing (DEDUCED, log 89). -/
def execEthernetFrame (f : Frame) (s : State) : Out :=
  if !s.hostUp then .next s
  else if !frameOk f then .next s.badFrame
  else match f.body with
    | .neighbour src target =>
      .next (if target == Config.hostIp && s.manager && !s.coreHeld then { s with outNd := s.outNd ++ [⟨src, target, Config.hostMac⟩] } else s)
    | .pause _ _ => .next s
    | .yct k => if k.typ == 1 then execCmdPacket k s else execHostAck k s
    | .mgmt src op m =>
      if Config.allowed src then
        let s := { s with mgmt := { s.mgmt with inbox := s.mgmt.inbox ++ [(op, m)] } }
        .next (s.serve s.mgmt.inbox.length)
      else
        let s := { s with mgmt := { s.mgmt with rejsrc := satInc s.mgmt.rejsrc, discarded := s.mgmt.discarded + 1 } }
        .next (s.logEntry 8 0xFF (src.truncate 64))
    | .rdmaWrite q n key a d => match qpOf q with | some p => execRdmaWrite ⟨p, n⟩ key a d s | none => .next s.badFrame
    | .rdmaRead q n key a l => match qpOf q with | some p => execRdmaRead ⟨p, n⟩ key a l s | none => .next s.badFrame
    | .rdmaOther q n =>
      match qpOf q with
      | some p => s.onQp p n (fun _ => 1) false (fun s => (.nakInvalid, s))
      | none => .next s.badFrame

end Sys2Proof.Machine
end

