-- ==== Sys2Proof/Machine/Dispatch.lean ====
section
/-! DEFINITION. The dispatch: one arm per constructor of `Instr`, each a direct call of its meaning. -/

namespace Sys2Proof.Machine

/-- What the machine does for an instruction or an event. -/
def exec (i : Instr) (s : State) : Host.Outcome State Fault Refusal :=
  match i with
  | .pwrcapLower => Sys2Proof.Machine.execPwrcapLower s
  | .pwrcapRaise => Sys2Proof.Machine.execPwrcapRaise s
  | .flashCommit => Sys2Proof.Machine.execFlashCommit s
  | .failedStart x0 => Sys2Proof.Machine.execFailedStart x0 s
  | .patrolScrub x0 => Sys2Proof.Machine.execPatrolScrub x0 s
  | .laserWakeDone x0 => Sys2Proof.Machine.execLaserWakeDone x0 s
  | .handshakeLive x0 => Sys2Proof.Machine.execHandshakeLive x0 s
  | .vermis x0 => Sys2Proof.Machine.execVermis x0 s
  | .lockTimeout x0 => Sys2Proof.Machine.execLockTimeout x0 s
  | .groupMismatch x0 => Sys2Proof.Machine.execGroupMismatch x0 s
  | .drainEnd x0 => Sys2Proof.Machine.execDrainEnd x0 s
  | .portGated x0 => Sys2Proof.Machine.execPortGated x0 s
  | .copyFlitWrite x0 => Sys2Proof.Machine.execCopyFlitWrite x0 s
  | .crucibleFlitReceive x0 => Sys2Proof.Machine.execCrucibleFlitReceive x0 s
  | .ackOnlyFlit x0 => Sys2Proof.Machine.execAckOnlyFlit x0 s
  | .flitReceive x0 x1 => Sys2Proof.Machine.execFlitReceive x0 x1 s
  | .beaconPeriod => Sys2Proof.Machine.execBeaconPeriod s
  | .echoPeriod => Sys2Proof.Machine.execEchoPeriod s
  | .echoTimeout x0 => Sys2Proof.Machine.execEchoTimeout x0 s
  | .rttcCorrection => Sys2Proof.Machine.execRttcCorrection s
  | .circuitPortWrite x0 => Sys2Proof.Machine.execCircuitPortWrite x0 s
  | .rsvAttemptTimeout x0 => Sys2Proof.Machine.execRsvAttemptTimeout x0 s
  | .backoffExpiry x0 => Sys2Proof.Machine.execBackoffExpiry x0 s
  | .cpreStart x0 => Sys2Proof.Machine.execCpreStart x0 s
  | .tearTimeout x0 => Sys2Proof.Machine.execTearTimeout x0 s
  | .slotStart x0 => Sys2Proof.Machine.execSlotStart x0 s
  | .drainWindowEnd x0 => Sys2Proof.Machine.execDrainWindowEnd x0 s
  | .xsendTimeout x0 => Sys2Proof.Machine.execXsendTimeout x0 s
  | .gafferDeadline x0 => Sys2Proof.Machine.execGafferDeadline x0 s
  | .instancePaused x0 => Sys2Proof.Machine.execInstancePaused x0 s
  | .instanceLoaded x0 => Sys2Proof.Machine.execInstanceLoaded x0 s
  | .dataStepComplete x0 x1 => Sys2Proof.Machine.execDataStepComplete x0 x1 s
  | .stepTimeout x0 => Sys2Proof.Machine.execStepTimeout x0 s
  | .cplRetransmit x0 => Sys2Proof.Machine.execCplRetransmit x0 s
  | .launchCmd x0 => Sys2Proof.Machine.execLaunchCmd x0 s
  | .eventWrite x0 => Sys2Proof.Machine.execEventWrite x0 s
  | .eventWait x0 => Sys2Proof.Machine.execEventWait x0 s
  | .eventWaitTimeout x0 => Sys2Proof.Machine.execEventWaitTimeout x0 s
  | .scriptStart x0 => Sys2Proof.Machine.execScriptStart x0 s
  | .collStart x0 => Sys2Proof.Machine.execCollStart x0 s
  | .fenceCmd x0 => Sys2Proof.Machine.execFenceCmd x0 s
  | .resolve x0 => Sys2Proof.Machine.execResolve x0 s
  | .shootdown x0 => Sys2Proof.Machine.execShootdown x0 s
  | .contextCreate x0 => Sys2Proof.Machine.execContextCreate x0 s
  | .contextReset x0 => Sys2Proof.Machine.execContextReset x0 s
  | .contextDestroy x0 => Sys2Proof.Machine.execContextDestroy x0 s
  | .query x0 => Sys2Proof.Machine.execQuery x0 s
  | .resync x0 => Sys2Proof.Machine.execResync x0 s
  | .fwSwitchTimeout x0 => Sys2Proof.Machine.execFwSwitchTimeout x0 s
  | .recordStart x0 => Sys2Proof.Machine.execRecordStart x0 s
  | .dependenceWake x0 => Sys2Proof.Machine.execDependenceWake x0 s
  | .dependenceBackoff x0 x1 => Sys2Proof.Machine.execDependenceBackoff x0 x1 s
  | .blockPlace x0 => Sys2Proof.Machine.execBlockPlace x0 s
  | .carveOutChangeDone x0 => Sys2Proof.Machine.execCarveOutChangeDone x0 s
  | .leadPhaseStart x0 x1 => Sys2Proof.Machine.execLeadPhaseStart x0 x1 s
  | .completionActions x0 => Sys2Proof.Machine.execCompletionActions x0 s
  | .commReserveFall x0 => Sys2Proof.Machine.execCommReserveFall x0 s
  | .gateSequenceStart x0 => Sys2Proof.Machine.execGateSequenceStart x0 s
  | .gateSequenceEnd x0 => Sys2Proof.Machine.execGateSequenceEnd x0 s
  | .clusterWake x0 => Sys2Proof.Machine.execClusterWake x0 s
  | .calibrationPass x0 => Sys2Proof.Machine.execCalibrationPass x0 s
  | .railRaised x0 => Sys2Proof.Machine.execRailRaised x0 s
  | .levelSwitchDone x0 => Sys2Proof.Machine.execLevelSwitchDone x0 s
  | .regulatorReady x0 => Sys2Proof.Machine.execRegulatorReady x0 s
  | .burstAdmit x0 => Sys2Proof.Machine.execBurstAdmit x0 s
  | .declarationEnd x0 => Sys2Proof.Machine.execDeclarationEnd x0 s
  | .throttleEnd x0 => Sys2Proof.Machine.execThrottleEnd x0 s
  | .releaseGroup x0 x1 => Sys2Proof.Machine.execReleaseGroup x0 x1 s
  | .halvedIssueEnd x0 => Sys2Proof.Machine.execHalvedIssueEnd x0 s
  | .clauseStart x0 x1 => Sys2Proof.Machine.execClauseStart x0 x1 s
  | .longLatencyResult x0 x1 => Sys2Proof.Machine.execLongLatencyResult x0 x1 s
  | .asyncRetire x0 x1 => Sys2Proof.Machine.execAsyncRetire x0 x1 s
  | .copyComplete x0 => Sys2Proof.Machine.execCopyComplete x0 s
  | .gatherComplete x0 => Sys2Proof.Machine.execGatherComplete x0 s
  | .matrixComplete x0 => Sys2Proof.Machine.execMatrixComplete x0 s
  | .sweepComplete x0 => Sys2Proof.Machine.execSweepComplete x0 s
  | .wcbDrain x0 x1 => Sys2Proof.Machine.execWcbDrain x0 x1 s
  | .fragmentWake x0 x1 => Sys2Proof.Machine.execFragmentWake x0 x1 s
  | .watchBackoffWake x0 x1 => Sys2Proof.Machine.execWatchBackoffWake x0 x1 s
  | .emptyReadSetWake x0 x1 => Sys2Proof.Machine.execEmptyReadSetWake x0 x1 s
  | .handlerLaunch x0 => Sys2Proof.Machine.execHandlerLaunch x0 s
  | .watchdogExpiry x0 x1 => Sys2Proof.Machine.execWatchdogExpiry x0 x1 s
  | .blockSave x0 x1 => Sys2Proof.Machine.execBlockSave x0 x1 s
  | .preemptionDeadline x0 => Sys2Proof.Machine.execPreemptionDeadline x0 s
  | .restorePlace x0 => Sys2Proof.Machine.execRestorePlace x0 s
  | .octetOperation x0 x1 => Sys2Proof.Machine.execOctetOperation x0 x1 s
  | .slotUsablePartEnd x0 => Sys2Proof.Machine.execSlotUsablePartEnd x0 s
  | .errestGrowth => Sys2Proof.Machine.execErrestGrowth s
  | .counterWaitBackoff x0 => Sys2Proof.Machine.execCounterWaitBackoff x0 s
  | .scalarAccessReturn x0 x1 => Sys2Proof.Machine.execScalarAccessReturn x0 x1 s
  | .powerOnHours => Sys2Proof.Machine.execPowerOnHours s
  | .vadd x0 x1 => Sys2Proof.Machine.execVadd x0 x1 s
  | .vaddI x0 x1 => Sys2Proof.Machine.execVaddI x0 x1 s
  | .vsub x0 x1 => Sys2Proof.Machine.execVsub x0 x1 s
  | .vsubI x0 x1 => Sys2Proof.Machine.execVsubI x0 x1 s
  | .vadd3 x0 x1 => Sys2Proof.Machine.execVadd3 x0 x1 s
  | .vmul x0 x1 => Sys2Proof.Machine.execVmul x0 x1 s
  | .vmulI x0 x1 => Sys2Proof.Machine.execVmulI x0 x1 s
  | .vmulh x0 x1 => Sys2Proof.Machine.execVmulh x0 x1 s
  | .vmad x0 x1 => Sys2Proof.Machine.execVmad x0 x1 s
  | .vmadI x0 x1 => Sys2Proof.Machine.execVmadI x0 x1 s
  | .vmadw x0 x1 => Sys2Proof.Machine.execVmadw x0 x1 s
  | .vmin x0 x1 => Sys2Proof.Machine.execVmin x0 x1 s
  | .vminI x0 x1 => Sys2Proof.Machine.execVminI x0 x1 s
  | .vmax x0 x1 => Sys2Proof.Machine.execVmax x0 x1 s
  | .vmaxI x0 x1 => Sys2Proof.Machine.execVmaxI x0 x1 s
  | .vabs x0 x1 => Sys2Proof.Machine.execVabs x0 x1 s
  | .vneg x0 x1 => Sys2Proof.Machine.execVneg x0 x1 s
  | .vand x0 x1 => Sys2Proof.Machine.execVand x0 x1 s
  | .vandI x0 x1 => Sys2Proof.Machine.execVandI x0 x1 s
  | .vor x0 x1 => Sys2Proof.Machine.execVor x0 x1 s
  | .vorI x0 x1 => Sys2Proof.Machine.execVorI x0 x1 s
  | .vxor x0 x1 => Sys2Proof.Machine.execVxor x0 x1 s
  | .vxorI x0 x1 => Sys2Proof.Machine.execVxorI x0 x1 s
  | .vlop3 x0 x1 => Sys2Proof.Machine.execVlop3 x0 x1 s
  | .vlop3I x0 x1 => Sys2Proof.Machine.execVlop3I x0 x1 s
  | .vshl x0 x1 => Sys2Proof.Machine.execVshl x0 x1 s
  | .vshlI x0 x1 => Sys2Proof.Machine.execVshlI x0 x1 s
  | .vshr x0 x1 => Sys2Proof.Machine.execVshr x0 x1 s
  | .vshrI x0 x1 => Sys2Proof.Machine.execVshrI x0 x1 s
  | .vsra x0 x1 => Sys2Proof.Machine.execVsra x0 x1 s
  | .vsraI x0 x1 => Sys2Proof.Machine.execVsraI x0 x1 s
  | .vshf x0 x1 => Sys2Proof.Machine.execVshf x0 x1 s
  | .vbfx x0 x1 => Sys2Proof.Machine.execVbfx x0 x1 s
  | .vbfi x0 x1 => Sys2Proof.Machine.execVbfi x0 x1 s
  | .vclz x0 x1 => Sys2Proof.Machine.execVclz x0 x1 s
  | .vpopc x0 x1 => Sys2Proof.Machine.execVpopc x0 x1 s
  | .vbrev x0 x1 => Sys2Proof.Machine.execVbrev x0 x1 s
  | .vcmp x0 x1 => Sys2Proof.Machine.execVcmp x0 x1 s
  | .vcmpI x0 x1 => Sys2Proof.Machine.execVcmpI x0 x1 s
  | .vsel x0 x1 => Sys2Proof.Machine.execVsel x0 x1 s
  | .vselI x0 x1 => Sys2Proof.Machine.execVselI x0 x1 s
  | .vmov x0 x1 => Sys2Proof.Machine.execVmov x0 x1 s
  | .vmovI x0 x1 => Sys2Proof.Machine.execVmovI x0 x1 s
  | .vlea x0 x1 => Sys2Proof.Machine.execVlea x0 x1 s
  | .vadd2 x0 x1 => Sys2Proof.Machine.execVadd2 x0 x1 s
  | .vadd2I x0 x1 => Sys2Proof.Machine.execVadd2I x0 x1 s
  | .vsub2 x0 x1 => Sys2Proof.Machine.execVsub2 x0 x1 s
  | .vsub2I x0 x1 => Sys2Proof.Machine.execVsub2I x0 x1 s
  | .vmul2 x0 x1 => Sys2Proof.Machine.execVmul2 x0 x1 s
  | .vmul2I x0 x1 => Sys2Proof.Machine.execVmul2I x0 x1 s
  | .vmac2 x0 x1 => Sys2Proof.Machine.execVmac2 x0 x1 s
  | .vsat x0 x1 => Sys2Proof.Machine.execVsat x0 x1 s
  | .vshrr x0 x1 => Sys2Proof.Machine.execVshrr x0 x1 s
  | .vshrrI x0 x1 => Sys2Proof.Machine.execVshrrI x0 x1 s
  | .vdot4 x0 x1 => Sys2Proof.Machine.execVdot4 x0 x1 s
  | .vdot8 x0 x1 => Sys2Proof.Machine.execVdot8 x0 x1 s
  | .vdott x0 x1 => Sys2Proof.Machine.execVdott x0 x1 s
  | .vfadd x0 x1 => Sys2Proof.Machine.execVfadd x0 x1 s
  | .vfaddI x0 x1 => Sys2Proof.Machine.execVfaddI x0 x1 s
  | .vfsub x0 x1 => Sys2Proof.Machine.execVfsub x0 x1 s
  | .vfsubI x0 x1 => Sys2Proof.Machine.execVfsubI x0 x1 s
  | .vfmul x0 x1 => Sys2Proof.Machine.execVfmul x0 x1 s
  | .vfmulI x0 x1 => Sys2Proof.Machine.execVfmulI x0 x1 s
  | .vfma x0 x1 => Sys2Proof.Machine.execVfma x0 x1 s
  | .vfmaI x0 x1 => Sys2Proof.Machine.execVfmaI x0 x1 s
  | .vfmin x0 x1 => Sys2Proof.Machine.execVfmin x0 x1 s
  | .vfminI x0 x1 => Sys2Proof.Machine.execVfminI x0 x1 s
  | .vfmax x0 x1 => Sys2Proof.Machine.execVfmax x0 x1 s
  | .vfmaxI x0 x1 => Sys2Proof.Machine.execVfmaxI x0 x1 s
  | .vfabs x0 x1 => Sys2Proof.Machine.execVfabs x0 x1 s
  | .vfcmp x0 x1 => Sys2Proof.Machine.execVfcmp x0 x1 s
  | .vfcmpI x0 x1 => Sys2Proof.Machine.execVfcmpI x0 x1 s
  | .vfclass x0 x1 => Sys2Proof.Machine.execVfclass x0 x1 s
  | .vfrnd x0 x1 => Sys2Proof.Machine.execVfrnd x0 x1 s
  | .vfdiv x0 x1 => Sys2Proof.Machine.execVfdiv x0 x1 s
  | .vfsqrt x0 x1 => Sys2Proof.Machine.execVfsqrt x0 x1 s
  | .vfrcp x0 x1 => Sys2Proof.Machine.execVfrcp x0 x1 s
  | .vfrsq x0 x1 => Sys2Proof.Machine.execVfrsq x0 x1 s
  | .vfex2 x0 x1 => Sys2Proof.Machine.execVfex2 x0 x1 s
  | .vflg2 x0 x1 => Sys2Proof.Machine.execVflg2 x0 x1 s
  | .vfsin x0 x1 => Sys2Proof.Machine.execVfsin x0 x1 s
  | .vfcos x0 x1 => Sys2Proof.Machine.execVfcos x0 x1 s
  | .vftanh x0 x1 => Sys2Proof.Machine.execVftanh x0 x1 s
  | .vhfma2 x0 x1 => Sys2Proof.Machine.execVhfma2 x0 x1 s
  | .vhadd2 x0 x1 => Sys2Proof.Machine.execVhadd2 x0 x1 s
  | .vhmul2 x0 x1 => Sys2Proof.Machine.execVhmul2 x0 x1 s
  | .vcvt x0 x1 => Sys2Proof.Machine.execVcvt x0 x1 s
  | .vpack x0 x1 => Sys2Proof.Machine.execVpack x0 x1 s
  | .vunpk x0 x1 => Sys2Proof.Machine.execVunpk x0 x1 s
  | .vqnt x0 x1 => Sys2Proof.Machine.execVqnt x0 x1 s
  | .vdqnt x0 x1 => Sys2Proof.Machine.execVdqnt x0 x1 s
  | .vslide x0 x1 => Sys2Proof.Machine.execVslide x0 x1 s
  | .vslideI x0 x1 => Sys2Proof.Machine.execVslideI x0 x1 s
  | .vshfl x0 x1 => Sys2Proof.Machine.execVshfl x0 x1 s
  | .vbcast x0 x1 => Sys2Proof.Machine.execVbcast x0 x1 s
  | .vbcastI x0 x1 => Sys2Proof.Machine.execVbcastI x0 x1 s
  | .vscan x0 x1 => Sys2Proof.Machine.execVscan x0 x1 s
  | .vred x0 x1 => Sys2Proof.Machine.execVred x0 x1 s
  | .vballot x0 x1 => Sys2Proof.Machine.execVballot x0 x1 s
  | .vput x0 x1 => Sys2Proof.Machine.execVput x0 x1 s
  | .glop x0 x1 => Sys2Proof.Machine.execGlop x0 x1 s
  | .gmov x0 x1 => Sys2Proof.Machine.execGmov x0 x1 s
  | .vrand x0 x1 => Sys2Proof.Machine.execVrand x0 x1 s
  | .vld x0 x1 => Sys2Proof.Machine.execVld x0 x1 s
  | .vst x0 x1 => Sys2Proof.Machine.execVst x0 x1 s
  | .vatom x0 x1 => Sys2Proof.Machine.execVatom x0 x1 s
  | .vatomCas x0 x1 => Sys2Proof.Machine.execVatomCas x0 x1 s
  | .vredm x0 x1 => Sys2Proof.Machine.execVredm x0 x1 s
  | .vpref x0 x1 => Sys2Proof.Machine.execVpref x0 x1 s
  | .vorgld x0 x1 => Sys2Proof.Machine.execVorgld x0 x1 s
  | .vorgst x0 x1 => Sys2Proof.Machine.execVorgst x0 x1 s
  | .vresume x0 x1 => Sys2Proof.Machine.execVresume x0 x1 s
  | .mma x0 x1 => Sys2Proof.Machine.execMma x0 x1 s
  | .mmasp x0 x1 => Sys2Proof.Machine.execMmasp x0 x1 s
  | .tsweep x0 x1 => Sys2Proof.Machine.execTsweep x0 x1 s
  | .tcvt x0 x1 => Sys2Proof.Machine.execTcvt x0 x1 s
  | .tred x0 x1 => Sys2Proof.Machine.execTred x0 x1 s
  | .tscan x0 x1 => Sys2Proof.Machine.execTscan x0 x1 s
  | .send x0 => Sys2Proof.Machine.execSend x0 s
  | .recv x0 => Sys2Proof.Machine.execRecv x0 s
  | .rrs x0 => Sys2Proof.Machine.execRrs x0 s
  | .rrd x0 => Sys2Proof.Machine.execRrd x0 s
  | .copy x0 => Sys2Proof.Machine.execCopy x0 s
  | .bcast x0 => Sys2Proof.Machine.execBcast x0 s
  | .wait x0 => Sys2Proof.Machine.execWait x0 s
  | .waitEv x0 => Sys2Proof.Machine.execWaitEv x0 s
  | .loop x0 => Sys2Proof.Machine.execLoop x0 s
  | .endl x0 => Sys2Proof.Machine.execEndl x0 s
  | .peer x0 => Sys2Proof.Machine.execPeer x0 s
  | .setop x0 => Sys2Proof.Machine.execSetop x0 s
  | .setch x0 => Sys2Proof.Machine.execSetch x0 s
  | .notify x0 => Sys2Proof.Machine.execNotify x0 s
  | .done x0 => Sys2Proof.Machine.execDone x0 s
  | .snop => Sys2Proof.Machine.execSnop s
  | .sadd x0 x1 x2 => Sys2Proof.Machine.execSadd x0 x1 x2 s
  | .ssub x0 x1 x2 => Sys2Proof.Machine.execSsub x0 x1 x2 s
  | .sadc x0 x1 x2 => Sys2Proof.Machine.execSadc x0 x1 x2 s
  | .ssbc x0 x1 x2 => Sys2Proof.Machine.execSsbc x0 x1 x2 s
  | .smul x0 x1 x2 => Sys2Proof.Machine.execSmul x0 x1 x2 s
  | .smulh x0 x1 x2 x3 => Sys2Proof.Machine.execSmulh x0 x1 x2 x3 s
  | .sdiv x0 x1 x2 x3 => Sys2Proof.Machine.execSdiv x0 x1 x2 x3 s
  | .srem x0 x1 x2 x3 => Sys2Proof.Machine.execSrem x0 x1 x2 x3 s
  | .sand x0 x1 x2 => Sys2Proof.Machine.execSand x0 x1 x2 s
  | .sor x0 x1 x2 => Sys2Proof.Machine.execSor x0 x1 x2 s
  | .sxor x0 x1 x2 => Sys2Proof.Machine.execSxor x0 x1 x2 s
  | .sandn x0 x1 x2 => Sys2Proof.Machine.execSandn x0 x1 x2 s
  | .sshl x0 x1 x2 => Sys2Proof.Machine.execSshl x0 x1 x2 s
  | .sshr x0 x1 x2 => Sys2Proof.Machine.execSshr x0 x1 x2 s
  | .ssra x0 x1 x2 => Sys2Proof.Machine.execSsra x0 x1 x2 s
  | .srol x0 x1 x2 => Sys2Proof.Machine.execSrol x0 x1 x2 s
  | .smin x0 x1 x2 x3 => Sys2Proof.Machine.execSmin x0 x1 x2 x3 s
  | .smax x0 x1 x2 x3 => Sys2Proof.Machine.execSmax x0 x1 x2 x3 s
  | .sclz x0 x1 => Sys2Proof.Machine.execSclz x0 x1 s
  | .spopc x0 x1 => Sys2Proof.Machine.execSpopc x0 x1 s
  | .sbrev x0 x1 => Sys2Proof.Machine.execSbrev x0 x1 s
  | .scmp x0 x1 x2 x3 => Sys2Proof.Machine.execScmp x0 x1 x2 x3 s
  | .slhi x0 x1 x2 => Sys2Proof.Machine.execSlhi x0 x1 x2 s
  | .ssel x0 x1 x2 x3 => Sys2Proof.Machine.execSsel x0 x1 x2 x3 s
  | .slea x0 x1 x2 x3 x4 => Sys2Proof.Machine.execSlea x0 x1 x2 x3 x4 s
  | .saddImm x0 x1 x2 => Sys2Proof.Machine.execSaddImm x0 x1 x2 s
  | .sandImm x0 x1 x2 => Sys2Proof.Machine.execSandImm x0 x1 x2 s
  | .sorImm x0 x1 x2 => Sys2Proof.Machine.execSorImm x0 x1 x2 s
  | .sxorImm x0 x1 x2 => Sys2Proof.Machine.execSxorImm x0 x1 x2 s
  | .sshlImm x0 x1 x2 => Sys2Proof.Machine.execSshlImm x0 x1 x2 s
  | .sshrImm x0 x1 x2 => Sys2Proof.Machine.execSshrImm x0 x1 x2 s
  | .ssraImm x0 x1 x2 => Sys2Proof.Machine.execSsraImm x0 x1 x2 s
  | .srolImm x0 x1 x2 => Sys2Proof.Machine.execSrolImm x0 x1 x2 s
  | .smulImm x0 x1 x2 => Sys2Proof.Machine.execSmulImm x0 x1 x2 s
  | .scmpImm x0 x1 x2 => Sys2Proof.Machine.execScmpImm x0 x1 x2 s
  | .sld x0 x1 x2 x3 x4 x5 x6 => Sys2Proof.Machine.execSld x0 x1 x2 x3 x4 x5 x6 s
  | .sst x0 x1 x2 x3 x4 x5 x6 => Sys2Proof.Machine.execSst x0 x1 x2 x3 x4 x5 x6 s
  | .sldk x0 x1 x2 => Sys2Proof.Machine.execSldk x0 x1 x2 s
  | .satom x0 x1 x2 x3 x4 x5 x6 => Sys2Proof.Machine.execSatom x0 x1 x2 x3 x4 x5 x6 s
  | .sbr x0 x1 x2 x3 => Sys2Proof.Machine.execSbr x0 x1 x2 x3 s
  | .sjmp x0 => Sys2Proof.Machine.execSjmp x0 s
  | .sjmpx x0 => Sys2Proof.Machine.execSjmpx x0 s
  | .scall x0 => Sys2Proof.Machine.execScall x0 s
  | .sret x0 => Sys2Proof.Machine.execSret x0 s
  | .split x0 x1 x2 => Sys2Proof.Machine.execSplit x0 x1 x2 s
  | .syield => Sys2Proof.Machine.execSyield s
  | .sexit => Sys2Proof.Machine.execSexit s
  | .lrun x0 x1 x2 => Sys2Proof.Machine.execLrun x0 x1 x2 s
  | .lrunx x0 x1 x2 => Sys2Proof.Machine.execLrunx x0 x1 x2 s
  | .sgetx x0 x1 => Sys2Proof.Machine.execSgetx x0 x1 s
  | .swaitf x0 => Sys2Proof.Machine.execSwaitf x0 s
  | .swaitc x0 x1 => Sys2Proof.Machine.execSwaitc x0 x1 s
  | .bara x0 x1 x2 => Sys2Proof.Machine.execBara x0 x1 x2 s
  | .barw x0 x1 => Sys2Proof.Machine.execBarw x0 x1 s
  | .phend => Sys2Proof.Machine.execPhend s
  | .txb x0 => Sys2Proof.Machine.execTxb x0 s
  | .txc => Sys2Proof.Machine.execTxc s
  | .txr => Sys2Proof.Machine.execTxr s
  | .txalt x0 => Sys2Proof.Machine.execTxalt x0 s
  | .txa x0 => Sys2Proof.Machine.execTxa x0 s
  | .fence x0 x1 => Sys2Proof.Machine.execFence x0 x1 s
  | .xcopy x0 x1 => Sys2Proof.Machine.execXcopy x0 x1 s
  | .xgath x0 x1 => Sys2Proof.Machine.execXgath x0 x1 s
  | .xcoll x0 x1 => Sys2Proof.Machine.execXcoll x0 x1 s
  | .xsend x0 x1 x2 => Sys2Proof.Machine.execXsend x0 x1 x2 s
  | .launch x0 x1 x2 => Sys2Proof.Machine.execLaunch x0 x1 x2 s
  | .sigq x0 x1 => Sys2Proof.Machine.execSigq x0 x1 s
  | .trap x0 => Sys2Proof.Machine.execTrap x0 s
  | .time x0 => Sys2Proof.Machine.execTime x0 s
  | .cyc x0 => Sys2Proof.Machine.execCyc x0 s
  | .srsr x0 x1 => Sys2Proof.Machine.execSrsr x0 x1 s
  | .swsr x0 x1 => Sys2Proof.Machine.execSwsr x0 x1 s
  | .brk x0 => Sys2Proof.Machine.execBrk x0 s
  | .burst x0 => Sys2Proof.Machine.execBurst x0 s
  | .burstx => Sys2Proof.Machine.execBurstx s
  | .perfl x0 => Sys2Proof.Machine.execPerfl x0 s
  | .cmov x0 x1 => Sys2Proof.Machine.execCmov x0 x1 s
  | .cmovImm x0 x1 x2 => Sys2Proof.Machine.execCmovImm x0 x1 x2 s
  | .cadd x0 x1 x2 => Sys2Proof.Machine.execCadd x0 x1 x2 s
  | .caddImm x0 x1 x2 => Sys2Proof.Machine.execCaddImm x0 x1 x2 s
  | .csub x0 x1 x2 => Sys2Proof.Machine.execCsub x0 x1 x2 s
  | .csubImm x0 x1 x2 => Sys2Proof.Machine.execCsubImm x0 x1 x2 s
  | .cand x0 x1 x2 => Sys2Proof.Machine.execCand x0 x1 x2 s
  | .candImm x0 x1 x2 => Sys2Proof.Machine.execCandImm x0 x1 x2 s
  | .cor x0 x1 x2 => Sys2Proof.Machine.execCor x0 x1 x2 s
  | .corImm x0 x1 x2 => Sys2Proof.Machine.execCorImm x0 x1 x2 s
  | .cshl x0 x1 x2 => Sys2Proof.Machine.execCshl x0 x1 x2 s
  | .cshlImm x0 x1 x2 => Sys2Proof.Machine.execCshlImm x0 x1 x2 s
  | .ccmp x0 x1 x2 => Sys2Proof.Machine.execCcmp x0 x1 x2 s
  | .ccmpImm x0 x1 x2 => Sys2Proof.Machine.execCcmpImm x0 x1 x2 s
  | .cbr x0 x1 x2 => Sys2Proof.Machine.execCbr x0 x1 x2 s
  | .cjmp x0 => Sys2Proof.Machine.execCjmp x0 s
  | .ccall x0 => Sys2Proof.Machine.execCcall x0 s
  | .cret => Sys2Proof.Machine.execCret s
  | .cld x0 x1 x2 x3 => Sys2Proof.Machine.execCld x0 x1 x2 x3 s
  | .cst x0 x1 x2 x3 => Sys2Proof.Machine.execCst x0 x1 x2 x3 s
  | .ctime x0 => Sys2Proof.Machine.execCtime x0 s
  | .chalt => Sys2Proof.Machine.execChalt s
  | .creq x0 x1 => Sys2Proof.Machine.execCreq x0 x1 s
  | .cawait x0 x1 x2 => Sys2Proof.Machine.execCawait x0 x1 x2 s
  | .cstat x0 x1 => Sys2Proof.Machine.execCstat x0 x1 s
  | .cbind x0 x1 x2 => Sys2Proof.Machine.execCbind x0 x1 x2 s
  | .crel x0 x1 => Sys2Proof.Machine.execCrel x0 x1 s
  | .ctear x0 x1 => Sys2Proof.Machine.execCtear x0 x1 s
  | .cpre x0 x1 x2 => Sys2Proof.Machine.execCpre x0 x1 x2 s
  | .cgate x0 x1 x2 => Sys2Proof.Machine.execCgate x0 x1 x2 s
  | .cslot x0 x1 => Sys2Proof.Machine.execCslot x0 x1 s
  | .cver x0 x1 => Sys2Proof.Machine.execCver x0 x1 s
  | .crtt x0 x1 => Sys2Proof.Machine.execCrtt x0 x1 s
  | .cnote x0 x1 x2 => Sys2Proof.Machine.execCnote x0 x1 x2 s
  | .cwait x0 x1 => Sys2Proof.Machine.execCwait x0 x1 s
  | .powerOn x0 => Sys2Proof.Machine.execPowerOn x0 s
  | .modrstNAssert x0 => Sys2Proof.Machine.execModrstNAssert x0 s
  | .uvwarn => Sys2Proof.Machine.execUvwarn s
  | .inputShutdown => Sys2Proof.Machine.execInputShutdown s
  | .ovoff => Sys2Proof.Machine.execOvoff s
  | .inputReconnect x0 => Sys2Proof.Machine.execInputReconnect x0 s
  | .elsRemove x0 => Sys2Proof.Machine.execElsRemove x0 s
  | .elsInsert x0 x1 => Sys2Proof.Machine.execElsInsert x0 x1 s
  | .softError x0 => Sys2Proof.Machine.execSoftError x0 s
  | .opctlTargetWrite x0 x1 => Sys2Proof.Machine.execOpctlTargetWrite x0 x1 s
  | .opctlGrpmaskWrite x0 x1 => Sys2Proof.Machine.execOpctlGrpmaskWrite x0 x1 s
  | .calreq x0 => Sys2Proof.Machine.execCalreq x0 s
  | .clrcnt x0 => Sys2Proof.Machine.execClrcnt x0 s
  | .lockAchieved x0 x1 => Sys2Proof.Machine.execLockAchieved x0 x1 s
  | .lossOfLock x0 => Sys2Proof.Machine.execLossOfLock x0 s
  | .laserLightLoss x0 => Sys2Proof.Machine.execLaserLightLoss x0 s
  | .berhigh x0 x1 => Sys2Proof.Machine.execBerhigh x0 x1 s
  | .packetForward x0 x1 => Sys2Proof.Machine.execPacketForward x0 x1 s
  | .creditReturn x0 x1 x2 => Sys2Proof.Machine.execCreditReturn x0 x1 x2 s
  | .beacon x0 x1 => Sys2Proof.Machine.execBeacon x0 x1 s
  | .echoRequest x0 x1 => Sys2Proof.Machine.execEchoRequest x0 x1 s
  | .echoReply x0 x1 => Sys2Proof.Machine.execEchoReply x0 x1 s
  | .rsv x0 x1 => Sys2Proof.Machine.execRsv x0 x1 s
  | .ack x0 x1 => Sys2Proof.Machine.execAck x0 x1 s
  | .deny x0 x1 => Sys2Proof.Machine.execDeny x0 x1 s
  | .tear x0 x1 => Sys2Proof.Machine.execTear x0 x1 s
  | .tack x0 x1 => Sys2Proof.Machine.execTack x0 x1 s
  | .carry x0 x1 => Sys2Proof.Machine.execCarry x0 x1 s
  | .smallMessage x0 x1 => Sys2Proof.Machine.execSmallMessage x0 x1 s
  | .versionNotice x0 x1 => Sys2Proof.Machine.execVersionNotice x0 x1 s
  | .deliveryNack x0 x1 => Sys2Proof.Machine.execDeliveryNack x0 x1 s
  | .peerDownNotice x0 x1 => Sys2Proof.Machine.execPeerDownNotice x0 x1 s
  | .messageAcknowledgement x0 x1 => Sys2Proof.Machine.execMessageAcknowledgement x0 x1 s
  | .fdidcfgWrite x0 => Sys2Proof.Machine.execFdidcfgWrite x0 s
  | .gwakeWrite x0 x1 => Sys2Proof.Machine.execGwakeWrite x0 x1 s
  | .crctlPause x0 => Sys2Proof.Machine.execCrctlPause x0 s
  | .crctlResume x0 => Sys2Proof.Machine.execCrctlResume x0 s
  | .crctlAbort x0 => Sys2Proof.Machine.execCrctlAbort x0 s
  | .ethernetFrame x0 => Sys2Proof.Machine.execEthernetFrame x0 s
  | .cmdPacket x0 => Sys2Proof.Machine.execCmdPacket x0 s
  | .hostAck x0 => Sys2Proof.Machine.execHostAck x0 s
  | .rdmaWrite x0 x1 x2 x3 => Sys2Proof.Machine.execRdmaWrite x0 x1 x2 x3 s
  | .rdmaRead x0 x1 x2 x3 => Sys2Proof.Machine.execRdmaRead x0 x1 x2 x3 s
  | .readCounters x0 => Sys2Proof.Machine.execReadCounters x0 s
  | .readHist x0 => Sys2Proof.Machine.execReadHist x0 s
  | .clearSticky x0 => Sys2Proof.Machine.execClearSticky x0 s
  | .fwStage x0 => Sys2Proof.Machine.execFwStage x0 s
  | .fwSwitch x0 x1 => Sys2Proof.Machine.execFwSwitch x0 x1 s
  | .firmwareSwitchDone x0 x1 => Sys2Proof.Machine.execFirmwareSwitchDone x0 x1 s
  | .recal x0 => Sys2Proof.Machine.execRecal x0 s
  | .reboot x0 x1 => Sys2Proof.Machine.execReboot x0 x1 s
  | .qpSetup x0 => Sys2Proof.Machine.execQpSetup x0 s
  | .qpTeardown x0 => Sys2Proof.Machine.execQpTeardown x0 s
  | .readLog x0 => Sys2Proof.Machine.execReadLog x0 s
  | .mbwakeWrite x0 => Sys2Proof.Machine.execMbwakeWrite x0 s
  | .qwakeWrite x0 x1 => Sys2Proof.Machine.execQwakeWrite x0 x1 s
  | .comresWrite x0 x1 => Sys2Proof.Machine.execComresWrite x0 x1 s
  | .pmctlReq x0 => Sys2Proof.Machine.execPmctlReq x0 s
  | .pmctlRestore x0 => Sys2Proof.Machine.execPmctlRestore x0 s
  | .registerWrite x0 x1 => Sys2Proof.Machine.execRegisterWrite x0 x1 s
  | .calibrationDone x0 x1 x2 x3 => Sys2Proof.Machine.execCalibrationDone x0 x1 x2 x3 s
  | .droopAlarm x0 => Sys2Proof.Machine.execDroopAlarm x0 s
  | .farEndLightArrival x0 x1 => Sys2Proof.Machine.execFarEndLightArrival x0 x1 s
  | .linkEntersService x0 => Sys2Proof.Machine.execLinkEntersService x0 s
  | .modpwrUpdate x0 x1 => Sys2Proof.Machine.execModpwrUpdate x0 x1 s
  | .railOutOfRegulation x0 x1 => Sys2Proof.Machine.execRailOutOfRegulation x0 x1 s
  | .temperatureSample x0 x1 x2 x3 => Sys2Proof.Machine.execTemperatureSample x0 x1 x2 x3 s

end Sys2Proof.Machine
end

