-- ==== Sys2Proof/Machine/Run.lean ====
section
/-! DEFINITION. One turn of the machine: who may move, how each agent fetches and reads its next instruction (R237, R238, R85,
R90, R102, R126), what follows a turn without any agent's doing, and which turn comes next. The manual orders agents only where a
rule says so; elsewhere the order here is one that it allows (DESIGN CHOICE, log 1). -/

namespace Sys2Proof.Machine

/-! The turn of a wave's streams -/

/-- A core whose issue is halved issues only on alternate front cycles (R224; DESIGN CHOICE, log 97: those of even count). -/
def State.withheld (s : State) (core : Nat) : Bool :=
  match (s.core core).halved with
  | some t => decide (s.now < t) && s.ticks * 8 / 5 % 2 == 1
  | none => false

/-- A stream of the fragment, the lane stream or the scalar one, is not held: at its fetch, or at a barrier word of its transaction, from
where a conflict lets it go on (R291, R308); the lane stream also while a sweep that it has issued reads its records (R478), unless the
sweep waits for RESOLVE. -/
def State.fragFree (s : State) (r : WaveRef) (w : Wave) (f : Fragment) (lane : Bool) : Bool :=
  f.st == .ready && !s.withheld r.core &&
  !(lane && (s.core r.core).sweeps.any (fun m => m.slot == r.slot && m.frag == f.id && m.recs.isEmpty && m.fault.isNone)) &&
  !(s.pend.any (fun (p : Pending) => match p.waiter with
    | .fetch q k => !lane && q == r && k == f.id
    | .clause q k => lane && q == r && k == f.id
    | .txn q k => q == r && k == f.id && w.txn.any (fun t => t.held == some p.frec.id)
    | _ => false))
/-- The scalar stream issues nothing while another fragment of its wave has a transaction open (R280), nor while the recorded rest of a
clause runs that it comes after (R302). -/
def Wave.scalarFree (w : Wave) (f : Fragment) : Bool :=
  (match w.txn with | some t => t.frag == f.id | none => true) && !(f.run.any (fun x => f.restOf == some x.cl.born))

/-- A fragment has a clause to go on with. -/
def Fragment.laneWork (f : Fragment) : Bool := f.run.isSome || !f.queue.isEmpty

/-- The agents of one wave. -/
def State.waveAgents (s : State) (r : WaveRef) (w : Wave) : List Actor :=
  w.frags.flatMap (fun (f : Fragment) =>
    (if s.fragFree r w f true && f.laneWork && s.laneClock r.core then [.lane r.core r.slot f.id] else []) ++
      (if s.fragFree r w f false && w.scalarFree f then [.scalar r.core r.slot f.id] else []))

/-- A slot that runs its next step (R126, R133): none waits. -/
def Crux.runs (x : Crux) : Bool := x.st == 2 && x.fault.isNone && x.watch.isNone

/-- The waves of a core in ascending partition, in which order its shared resources serve requests of one cycle (R229). -/
def Core.byPartition (c : Core) : List (Nat × Wave) := (List.range 4).flatMap (fun k => c.waves.filter (fun (w : Nat × Wave) => w.2.part % 4 == k))

/-- Every agent that may execute an instruction. -/
def State.agents (s : State) : List Actor :=
  s.cores.flatMap (fun (p : Nat × Core) => p.2.byPartition.flatMap (fun w => s.waveAgents ⟨p.1, w.1⟩ w.2)) ++
  ((List.range 4).filter (fun t => (s.gth t).st == 1)).map Actor.gaffer ++
  (s.cru.filter (fun (p : Nat × Crux) => p.2.runs)).map (fun (p : Nat × Crux) => Actor.crux (p.1 / 16) (p.1 % 16))

/-- A scalar fetch faulted (R308): a fault record, and the stream waits; in the first instruction of a handler it is a double
fault (R306). -/
def State.fetchFault (s : State) (r : WaveRef) (w : Wave) (f : Fragment) (kind va : Nat) : State :=
  if w.handler && w.phase == 0 then s.fatalCtx w.ctx 1 true
  else (s.memFault w.ctx kind 2 1 r.core va (.fetch r f.id)).2

/-- The word at a fragment's program counter. -/
def State.scalarWord (s : State) (r : WaveRef) (w : Wave) (f : Fragment) : Except (Nat × Nat) Nat × State :=
  match s.resolve (w.place r) (unitOf r.core) w.ctx 2 f.pc.toNat 4 needX with
  | (.ok ks, s) => (.ok (leNat (s.fetchCode w.ctx (s.codeSeen w) ks).1), (s.fetchCode w.ctx (s.codeSeen w) ks).2)
  | (.error e, s) => (.error e, s)

/-- The scalar stream of a fragment: it joins (R244), or fetches its word, reads it, and executes it; a word that is no
instruction traps with ILLEGAL (R348, R299). -/
noncomputable def scalarTurn (s : State) (r : WaveRef) (w : Wave) (f : Fragment) : Out :=
  match (match f.joins with | j :: js => if j.addr == f.pc then some (j, js) else none | [] => none) with
  | some (j, js) => .next (s.arrive r w f j js)
  | none =>
    match s.scalarWord r w f with
    | (.error (k, va), s) => .next (s.fetchFault r w f k va)
    | (.ok x, s) =>
      let s := if w.handler && w.phase == 0 then s.updWave r (fun (w : Wave) => { w with phase := 1 }) else s
      match decodeScalar x with
      | some i => exec i s
      | none => .next (s.scalarTrap r f.id 6 0)

/-- The lane stream of a fragment: the next instruction of its running clause, or the start of its next one. -/
def laneTurn (s : State) (r : WaveRef) (f : Fragment) : Out :=
  match f.run with
  | some x => match x.code[x.idx]? with
    | some i => exec i (s.someReturn r)
    | none => exec (.clauseStart r f.id) s
  | none => exec (.clauseStart r f.id) s

/-- A gaffer thread (R87, R90, R102): a fetch outside local memory is BADPC, a word that is no instruction ILLEGAL. -/
noncomputable def gafferTurn (s : State) (t : Nat) : Out :=
  match s.gFetch (s.gth t) with
  | .error c => .next (s.gFault t c 0)
  | .ok x => match decodeGaffer x with
    | some i => exec i s
    | none => .next (s.gFault t 1 0)

/-- A program slot (R126): running past the last step ends it with cause 0x0C. -/
def cruxTurn (s : State) (i : Nat) : Out :=
  match (s.cx i).prog[(s.cx i).step]? with
  | some p => exec p s
  | none => .next (s.endInstance i 12 false)

/-- The next instruction of an agent; an agent that may not move does nothing. -/
noncomputable def agentTurn (s : State) (a : Actor) : Out :=
  let s := { s with cur := a }
  match a with
  | .none => .next s
  | .scalar c sl k =>
    match (s.wave? ⟨c, sl⟩), (s.wave? ⟨c, sl⟩).bind (fun w => w.frag? k) with
    | some w, some f => if s.fragFree ⟨c, sl⟩ w f false && w.scalarFree f then scalarTurn s ⟨c, sl⟩ w f else .next s
    | _, _ => .next s
  | .lane c sl k =>
    match (s.wave? ⟨c, sl⟩), (s.wave? ⟨c, sl⟩).bind (fun w => w.frag? k) with
    | some w, some f => if s.fragFree ⟨c, sl⟩ w f true && f.laneWork && s.laneClock c then laneTurn s ⟨c, sl⟩ f else .next s
    | _, _ => .next s
  | .gaffer t => if t < 4 && (s.gth t).st == 1 then gafferTurn s t else .next s
  | .crux c k => if (s.cx (c * 16 + k)).runs then cruxTurn s (c * 16 + k) else .next s

/-! What follows a turn -/

/-- A packet of this device to itself arrives (R61). -/
def State.deliverSelf (s : State) (k : Packet) : State :=
  let out : Out := match k.cls.toNat, k.typ.toNat with
    | 2, 1 => execRsv 0 k s
    | 2, 2 => execAck 0 k s
    | 2, 3 => execDeny 0 k s
    | 2, 4 => execTear 0 k s
    | 2, 5 => execTack 0 k s
    | 3, 1 => execCarry 0 k s
    | 4, 2 => execDeliveryNack 0 k s
    | 4, 3 => execPeerDownNotice 0 k s
    | 4, 4 => execMessageAcknowledgement 0 k s
    | 5, 1 => execSmallMessage 0 k s
    | _, _ => .next s
  match out with
  | .next s => s
  | _ => s

/-- Packets to itself, in order. -/
def State.selfPackets (s : State) : State :=
  ({ s with loopback := [] }).each s.loopback State.deliverSelf

/-- Handler waves that have exited free their slots (R305). -/
def State.handlersDone (s : State) : State :=
  s.each (tkeys s.cores) (fun s c =>
    match tfind (s.core c).waves 32 with
    | some w =>
      if w.frags.isEmpty && w.ops.isEmpty && w.tickets.all (fun (p : Nat × List Ticket) => p.2.isEmpty) && w.flags.all (fun p => p.2 == 0) then
        s.endHandler c
      else s
    | none => s)

/-- Streams whose next record may start, or whose waiting record may go on (R153, R157, R163). -/
def State.streamsNext (s : State) : State :=
  s.each (tkeys s.streams) (fun s st =>
    let s := s.startNext st 65
    let c := s.stream st
    let i := BitVec.ofNat 10 st
    let s := if c.running.any (fun (r : Cmd) => r.wait == .fence && c.running.length == 1 && c.held.isEmpty) then s.post (.fenceCmd i) else s
    if c.running.any (fun (r : Cmd) => r.wait == .queueSpace && decide ((s.hq (recWord r.data 0x10 % 64)).ptrs.length < 256)) then
      s.post (.launchCmd i)
    else s)

/-- What the device does by itself before a turn is over. -/
def State.after_ (s : State) : State :=
  let s := s.settle
  let s := s.each (s.asyncs.map (fun (o : AsyncOp) => o.id)) State.asyncRun
  let s := s.each (tkeys s.cru) State.cruxRun
  let s := s.each ((List.range 4).filter (fun t => (s.gth t).st == 2)) (fun s t => s.gTry t false)
  let s := s.selfPackets
  let s := s.handlersDone
  let s := s.drainScan.matrixScan.sweepScan.lehrScan
  (s.streamsNext.settle.reserve 0).reserve 1

/-! Turns -/

/-- The earliest time at which something falls due. -/
def State.nextDue (s : State) : Option Nat := (minBy Timer.due s.timers).map Timer.due

/-- By when a fragment whose watch has seen a write goes on: 1 µs after it, or after its release group (R491). -/
def State.wakeBy (s : State) : Option Nat :=
  minBy id (s.allWaves.flatMap (fun (p : WaveRef × Wave) => p.2.frags.filterMap (fun (f : Fragment) => match f.sleep with
    | some sl => if sl.woken && !s.heldBack p.1 f.id then sl.wokenAt.map (fun t => t + 1000) else none
    | none => none)))

/-- Of the events that fall due together, a thread's deadline comes last: what ends its wait otherwise goes first (R110, R119). -/
def lastDeadlines (l : List Instr) : List Instr :=
  let late (i : Instr) : Bool := match i with | .gafferDeadline _ => true | _ => false
  l.filter (fun i => !late i) ++ l.filter late

/-- A start that has come to step 2 has brought up the rails: with the first time that passes PGOOD leaves its reset value and shows the
input and the rails (R24, R29, R170; DESIGN CHOICE, log 85). -/
def State.railsRise (s : State) : State :=
  if s.modl.on && decide (2 ≤ s.mgmt.bootStep) && !s.mgmt.minimal then { s with modl := { s.modl with railsUp := true } } else s

/-- Time passes, at most `ns`, and no further than the next time at which something falls due; what is due becomes possible. Before it
passes the management core reads what was written to MBWAKE in the cycle that ends (R175; DESIGN CHOICE, log 87). A fragment whose watch
has seen a write goes on within 1 µs (R491): no more time passes before. -/
def State.elapse (s : State) (ns : Nat) : State :=
  let s := s.readMark.railsRise
  let t := match s.nextDue with
    | some d => min (s.now + ns) (max d s.now)
    | none => s.now + ns
  let t := match s.wakeBy with | some d => min t (max d s.now) | none => t
  let s := (s.shiftWaits (t - s.now)).advance t
  let due := s.timers.filter (fun (x : Timer) => decide (x.due ≤ s.now))
  ({ s with timers := s.timers.filter (fun (x : Timer) => !decide (x.due ≤ s.now)) }).posts (lastDeadlines (due.map Timer.what))

/-- What a turn may change of its agent, beside the start of a wait; an agent that changes nothing waits. -/
def State.progress (s t : State) (a : Actor) : Bool :=
  let frag (s : State) (c sl k : Nat) : Option Fragment := ((s.wave? ⟨c, sl⟩).bind (fun w => w.frag? k)).map (fun f => { f with waitSince := none })
  match a with
  | .scalar c sl k | .lane c sl k => frag s c sl k != frag t c sl k
  | .gaffer k => s.gth k != t.gth k
  | .crux c k => s.cx (c * 16 + k) != t.cx (c * 16 + k)
  | .none => false

/-! Issue selection (R208, R238) -/

/-- The lane issue point of an instruction (R238): 0 the FP32 pipe, 1 the integer and logic pipe, 2 the special-function unit. -/
def lanePoint (i : Instr) : Nat :=
  match i with
  | .vfadd .. | .vfaddI .. | .vfsub .. | .vfsubI .. | .vfmul .. | .vfmulI .. | .vfma .. | .vfmaI .. | .vfmin .. | .vfminI .. | .vfmax ..
  | .vfmaxI .. | .vfabs .. | .vfcmp .. | .vfcmpI .. | .vfclass .. | .vfrnd .. | .vhfma2 .. | .vhadd2 .. | .vhmul2 .. | .vcvt .. | .vpack ..
  | .vunpk .. | .vqnt .. | .vdqnt .. => 0
  | .vfdiv .. | .vfsqrt .. | .vfrcp .. | .vfrsq .. | .vfex2 .. | .vflg2 .. | .vfsin .. | .vfcos .. | .vftanh .. => 2
  | _ => 1

/-- CEDE of a lane instruction (R350). -/
def cedes (i : Instr) : Bool :=
  match i with
  | .vadd c _ | .vaddI c _ | .vsub c _ | .vsubI c _ | .vadd3 c _ | .vmul c _ | .vmulI c _ | .vmulh c _ | .vmad c _ | .vmadI c _
  | .vmadw c _ | .vmin c _ | .vminI c _ | .vmax c _ | .vmaxI c _ | .vabs c _ | .vneg c _ | .vand c _ | .vandI c _ | .vor c _ | .vorI c _
  | .vxor c _ | .vxorI c _ | .vlop3 c _ | .vlop3I c _ | .vshl c _ | .vshlI c _ | .vshr c _ | .vshrI c _ | .vsra c _ | .vsraI c _
  | .vshf c _ | .vbfx c _ | .vbfi c _ | .vclz c _ | .vpopc c _ | .vbrev c _ | .vcmp c _ | .vcmpI c _ | .vsel c _ | .vselI c _ | .vmov c _
  | .vmovI c _ | .vlea c _ | .vadd2 c _ | .vadd2I c _ | .vsub2 c _ | .vsub2I c _ | .vmul2 c _ | .vmul2I c _ | .vmac2 c _ | .vsat c _
  | .vshrr c _ | .vshrrI c _ | .vdot4 c _ | .vdot8 c _ | .vdott c _ | .vfadd c _ | .vfaddI c _ | .vfsub c _ | .vfsubI c _ | .vfmul c _
  | .vfmulI c _ | .vfma c _ | .vfmaI c _ | .vfmin c _ | .vfminI c _ | .vfmax c _ | .vfmaxI c _ | .vfabs c _ | .vfcmp c _ | .vfcmpI c _
  | .vfclass c _ | .vfrnd c _ | .vfdiv c _ | .vfsqrt c _ | .vfrcp c _ | .vfrsq c _ | .vfex2 c _ | .vflg2 c _ | .vfsin c _ | .vfcos c _
  | .vftanh c _ | .vhfma2 c _ | .vhadd2 c _ | .vhmul2 c _ | .vcvt c _ | .vpack c _ | .vunpk c _ | .vqnt c _ | .vdqnt c _ | .vslide c _
  | .vslideI c _ | .vshfl c _ | .vbcast c _ | .vbcastI c _ | .vscan c _ | .vred c _ | .vballot c _ | .vput c _ | .glop c _ | .gmov c _
  | .vrand c _ | .vld c _ | .vst c _ | .vatom c _ | .vatomCas c _ | .vredm c _ | .vpref c _ | .vorgld c _ | .vorgst c _ | .vresume c _
  | .mma c _ | .mmasp c _ | .tsweep c _ | .tcvt c _ | .tred c _ | .tscan c _ => c.cede
  | _ => false

/-- The clause has just issued an instruction with CEDE, and has not been passed over since. -/
def Fragment.cedes (f : Fragment) : Bool := f.agedLane == 0 && (match f.run with
  | some x => decide (0 < x.idx) && (match x.code[x.idx - 1]? with | some i => Sys2Proof.Machine.cedes i | none => false)
  | none => false)

/-- Where an agent competes for issue: core, partition, and 0 for the scalar issue or 1 + the lane issue point. The start of a clause
competes with nothing. -/
def State.issuePoint (s : State) (a : Actor) : Option (Nat × Nat × Nat) :=
  match a with
  | .scalar c sl _ => (s.wave? ⟨c, sl⟩).map (fun w => (c, w.part, 0))
  | .lane c sl k => match s.wave? ⟨c, sl⟩ with
    | some w => match (w.frag? k).bind (fun f => f.run) with
      | some x => (x.code[x.idx]?).map (fun i => (c, w.part, 1 + lanePoint i))
      | none => none
    | none => none
  | _ => none

/-- The order in which fragments are chosen at one point, the least first (R208): aged through 46 opportunities, the oldest first; a
handler's; the highest effective priority; the oldest wave; the path slot that did not issue last; after them all one that has yielded
(R392) or whose clause cedes (R350). -/
def State.issueKey (s : State) (a : Actor) : Nat :=
  match a with
  | .scalar c sl k | .lane c sl k => match s.wave? ⟨c, sl⟩ with
    | none => 0
    | some w => match w.frag? k with
      | none => 0
      | some f =>
        let lane := match a with | .lane _ _ _ => true | _ => false
        let age := if lane then f.agedLane else f.aged
        let prio := match s.run? w.launch with | some r => r.prio | none => 0
        if (if lane then f.cedes else f.yields != 0) then 2 ^ 80 + w.order
        else if 46 ≤ age then 2 ^ 64 - age
        else (if w.handler then 1 else 9 - prio) * 2 ^ 65 + 2 * w.order + bnat ((s.issuePoint a).any (fun p => tfind w.lastFrag p.2.2 == some k))
  | _ => 0

/-- The next agent of a round among those left: the first in line, or the one that R208 prefers at its issue point. -/
def State.choose (s : State) (l : List Actor) : Option Actor :=
  match l with
  | [] => none
  | a :: _ => match s.issuePoint a with
    | none => some a
    | some p => minBy s.issueKey (l.filter (fun b => s.issuePoint b == some p))

/-- A fragment's count of lost opportunities is changed. -/
def State.setAge (s : State) (a : Actor) (f : Nat → Nat) : State :=
  match a with
  | .scalar c sl k => s.updFrag ⟨c, sl⟩ k (fun x => { x with aged := f x.aged, yields := if f x.aged == 0 then x.yields else 0 })
  | .lane c sl k => s.updFrag ⟨c, sl⟩ k (fun x => { x with agedLane := f x.agedLane })
  | _ => s

/-- The agent's next instruction may issue: its operands and interlocks allow it (R208). -/
noncomputable def State.ready (s : State) (a : Actor) : Bool := match agentTurn s a with | .next t => s.progress t a | _ => true

/-- An agent of `s` has issued at its point: the others there have lost this opportunity, and of them those that were ready have waited
one more (R208). The wait of one that was not ready begins, if it had not. -/
noncomputable def State.issuedAt (s t : State) (a : Actor) : State :=
  match s.issuePoint a with
  | none => t
  | some p =>
    let l := s.agents.filter (fun b => b != a && !s.round.contains b && s.issuePoint b == some p)
    let t := (({ t with round := t.round ++ l }).setAge a (fun _ => 0)).each l (fun t b =>
      if s.ready b then t.setAge b (fun n => n + 1)
      else match b with
        | .scalar c sl k | .lane c sl k => (t.setAge b (fun _ => 0)).wait ⟨c, sl⟩ k
        | _ => t)
    match a with
    | .scalar c sl k =>
      let y := match ((s.wave? ⟨c, sl⟩).bind (fun w => w.frag? k)) with | some f => f.yields | none => 0
      (t.updWave ⟨c, sl⟩ (fun (w : Wave) => { w with lastFrag := tset w.lastFrag p.2.2 k })).updFrag ⟨c, sl⟩ k (fun f => { f with yields := f.yields - y })
    | .lane c sl k => t.updWave ⟨c, sl⟩ (fun (w : Wave) => { w with lastFrag := tset w.lastFrag p.2.2 k })
    | _ => t

/-- The next turn and the state without it: the agenda's; else the oldest event; else the next agent of the round. After a
round in which an agent moved 1 ns passes, and after one in which none did, the time until something falls due. -/
def State.nextTurn (s : State) : Turn × State :=
  match s.agenda, s.queue with
  | t :: l, _ => (t, { s with agenda := l })
  | [], i :: l => (.event i, { s with queue := l })
  | [], [] =>
    match s.choose (s.agents.filter (fun a => !s.round.contains a)) with
    | some a => (.agent a, s)
    | none =>
      let ns := match s.nextDue with
        | some d => if s.moved || s.cores.any (fun (c : Nat × Core) => s.withheld c.1) then 1 else d - s.now
        | none => 1
      (.elapse ns, { s with round := [], moved := false })

/-- The state after a turn, settled; `s` is the state before it. -/
noncomputable def State.finish (s t : State) (u : Turn) : State :=
  match u with
  | .agent a =>
    let t := { t with round := t.round ++ [a] }
    if s.progress t a then (s.issuedAt { t with moved := true } a).after_ else t.setAge a (fun _ => 0)
  | _ => t.after_

/-- A turn. -/
noncomputable def State.take (s : State) (u : Turn) : Out :=
  let out : Out := match u with
    | .elapse n => .next (s.elapse n)
    | .sideband a => .next { s with outSide := s.outSide ++ [s.sideband a] }
    | .event i => exec i { s with cur := .none }
    | .agent a => agentTurn s a
  match out with
  | .next t => .next (s.finish t u)
  | .fault e => .fault e
  | .refused e => .refused e

/-! Placing an instruction where the next turn runs it (log 19) -/

/-- A program slot that runs one step. -/
def slotWith (l : List Instr) : Crux :=
  { st := 2, ctx := some 0, prog := l
    desc := some ⟨0, 0, 1, 0, 0, 0, 1, 0, 0, 0, 0, 0, 0, 0, 0⟩, rmap := [(0, 0)] }

/-- A context whose page table, at 0x10000, maps the first 16 GiB on themselves with every permission. -/
def placedCtx : Ctx :=
  ⟨0x10000, 0, 0, 0, 16, 0, 0, 0, 2, 0, 0, [], 0, 0, 2000, 0, false, false, [], 0, none, none, [], false, [], 0⟩

/-- The bytes of that page table, and of a scalar word at 0x40000. -/
def placedCells (w : Nat) : List (Nat × Byte) :=
  cells 0x10000 (leBytes 8 0x20001) ++ cells 0x20000 (leBytes 8 0x1F) ++ cells 0x40000 (leBytes 4 w)

/-- A launch of one block, placed on core 0. -/
def placedRun : Run :=
  ⟨0, 0, 0, 0, false, ⟨0, 0x40000, 0, 0, 0, false, 0, false, 1, 0, 0, [], 0, 1, 4, 1, [], 0, 0, 0, 0, 0, 0, 0, []⟩, [.on 0 0], [], [], [], none, 0⟩

/-- Its block. -/
def placedBlock : Block := ⟨0, 0, 0, 0, 1, 0, 1, none, 0, [0], [0], 4⟩

/-- A wave at its entry, with a running clause. -/
def placedFor (x : Option Running) : Wave :=
  let w := placedWave placedRun 0 0 0 0 0 0 0
  { w with frags := w.frags.map (fun (f : Fragment) => { f with run := x }) }

/-- The machine with a wave of that launch, a scalar word at its program counter, and perhaps a running clause. -/
def State.withWave (s : State) (w : Nat) (x : Option Running) : State :=
  let s := { s with runs := [placedRun], mem := Memory.writes s.mem (placedCells w) }
  let s := s.setCtx 0 placedCtx
  s.setCore 0 { s.core 0 with waves := [(0, placedFor x)], blocks := [(0, placedBlock)] }

/-- An instruction stored where the next turn fetches it: a gaffer word in local memory at the program counter of thread 0, a
step in program slot 0, a scalar word at the program counter of a wave, a lane word in its running clause. -/
noncomputable def State.placeWord (s : State) (nbits w : Nat) : State :=
  if nbits == 32 then
    if (decodeScalar (w % 4294967296)).isSome || (decodeGaffer (w % 4294967296)).isNone then
      { s.withWave (w % 4294967296) none with agenda := [.agent (.scalar 0 0 0)] }
    else
      { (s.setGth 0 { ({} : GThread) with st := 1 }) with
        mem := Memory.writes s.mem (cells (gafKey 0) (leBytes 4 w)), agenda := [.agent (.gaffer 0)] }
  else
    match decodeTableWord nbits w with
    | none => s
    | some i =>
      if nbits == 64 then { s.setCx 0 (slotWith [i]) with agenda := [.agent (.crux 0 0)] }
      else
        let h : ClauseHeader := { lenm1 := 0, wait := 0, seta := 15, setb := 15 }
        let x : Running := ⟨⟨0, List.replicate 4 0, allLanes, 0x40004, 0, false, 0⟩, 0, h, [i], 0⟩
        { s.withWave 0 (some x) with agenda := [.agent (.lane 0 0 0)] }

end Sys2Proof.Machine
end

