-- ==== Sys2Proof/Safety.lean ====
section
/-! DEFINITION. What counts as a safe run, and the terms in which statements speak of a step: who executes, what an
instruction changes, and what it leaves as it was. -/

namespace Sys2Proof

/-- The machine after `k` steps, if none of them stops. -/
noncomputable def after (k : Nat) (s : Machine.State) : Option Machine.State :=
  match core.run k s with
  | .next t => some t
  | _ => none

/-- Every run of `k` steps from `s` goes on, and ends with memory in canonical form. -/
def SafeFor (k : Nat) (s : Machine.State) : Prop :=
  ∀ n, n ≤ k → ∃ t : Machine.State, after n s = some t ∧ Machine.Memory.wf t.mem = true

end Sys2Proof

namespace Sys2Proof.Claims

open Sys2Proof.Machine

/-- `i` executed in `s` answers a next state, and `P` holds of it. -/
def Ends (i : Instr) (s : State) (P : State → Prop) : Prop := ∃ t : State, exec i s = .next t ∧ P t

/-! Scalar instructions -/

/-- Fragment `f` of wave `w`, at `r`, executes a scalar instruction, and none of the registers in `regs` has a pending
result (R374). -/
structure Scalar (s : State) (r : WaveRef) (w : Wave) (f : Fragment) (regs : List Nat) : Prop where
  cur   : s.cur = .scalar r.core r.slot f.id
  wave  : s.wave? r = some w
  frag  : w.frag? f.id = some f
  ready : f.st = .ready
  free  : w.pending f regs = false

/-- What register `d` of a fragment reads once `v` has been written to it: s0 reads 0, a mask word keeps only the
fragment's lanes (R232, R241). -/
def landed (f : Fragment) (d : Nat) (v : Word) : Word :=
  if d = 0 then 0 else if 61 ≤ d then v &&& maskWord f.lanes (d - 61) else v

/-- What register `n` of a fragment reads once the values of `l` have been written; the others read as before. -/
def regAfter (w : Wave) (f : Fragment) (l : List (Nat × Word)) (n : Nat) : Word :=
  match l.find? (fun p => p.1 == n) with
  | some p => landed f n p.2
  | none => w.rd f n

/-- From `s` to `t` fragment `f` goes on at `pc`, the registers that `l` lists take its values, and nothing else changes: no
other scalar register, no other field of the wave or of the fragment, no other fragment, no other wave, no byte of memory. -/
def Wrote (s t : State) (r : WaveRef) (w : Wave) (f : Fragment) (pc : DWord) (l : List (Nat × Word)) : Prop :=
  ∃ (w' : Wave) (f' : Fragment), t = s.setWave r w' ∧ t.wave? r = some w' ∧ w'.frag? f.id = some f' ∧
    (∀ n, n < 64 → w'.rd f' n = regAfter w f l n) ∧
    (∀ k, k ≠ f.id → w'.frag? k = w.frag? k) ∧
    w' = { w with sreg := w'.sreg, frags := w'.frags } ∧
    f' = { f with pc := pc, mask := f'.mask, path := f'.path, waitSince := none } ∧
    (∀ q, q ≠ r → t.wave? q = s.wave? q) ∧ (∀ k, Memory.read t.mem k = Memory.read s.mem k)

/-- A scalar instruction that names the registers `regs` goes on with the next word and writes the registers of `l`. -/
def Yields (i : Instr) (regs : List Nat) (l : State → Wave → Fragment → List (Nat × Word)) : Prop :=
  ∀ (s : State) (r : WaveRef) (w : Wave) (f : Fragment), Scalar s r w f regs →
    Ends i s (fun t => Wrote s t r w f (f.pc + 4) (l s w f))

/-- The homes of the bytes of an access, or the fault of its address: from the L1 where a load that may hit there does (R253), else by
translation (R250). -/
def addressed (s : State) (r : WaveRef) (w : Wave) (mayHit : Bool) (k : OpKind) (space n : Nat) (va : DWord) : Except (Nat × Nat) (List Nat) :=
  match (if mayHit then s.l1Keys r.core w.ctx va.toNat n else none) with
  | some ks => .ok ks
  | none => (s.resolve (w.place r) (unitOf r.core) w.ctx space va.toNat n (needOf k)).1

/-- An access that a scalar instruction issues with its address resolved (R374, R385): one operation more, under way and with the
destination pending, the next word, and no register and no byte of memory changed. A fault of the address (R388) also lets the
stream go on, with the access waiting for it. -/
def Issues (i : Instr) (s : State) (r : WaveRef) (w : Wave) (f : Fragment) (k : OpKind) (space n : Nat) (va : DWord) (dst : Option Nat)
    (aop : Nat) (data cmp : List Byte) (ord scope : Nat) : Prop :=
  let q := addressed (s.next r f.id).fresh.2 r w (k == .load && !w.inTxn f.id && !(isAcq ord && decide (2 ≤ scope)) && space != 1) k space n va
  (s.memHeld r w 32 1 = true → Ends i s (fun t => t = s.wait r f.id)) ∧
  (s.memHeld r w 32 1 = false → ∀ ks, q = .ok ks → Ends i s (fun t => ∃ (o : Op) (w' : Wave),
    t.wave? r = some w' ∧ w' = { w with ops := w.ops ++ [o], pendS := w'.pendS, frags := w'.frags } ∧
    w'.frag? f.id = some { f with pc := f.pc + 4, waitSince := none } ∧ (∀ j, j ≠ f.id → w'.frag? j = w.frag? j) ∧
    (∀ x, x ∈ w'.pendS ↔ x ∈ w.pendS ∨ ∃ d, dst = some d ∧ x.2 = s.nextId ∧ x.1 ≠ 0 ∧ (x.1 = d ∨ n = 8 ∧ x.1 = d + 1)) ∧
    o.id = s.nextId ∧ o.frag = f.id ∧ o.scalar = true ∧ o.kind = k ∧ o.size = n ∧ o.dst = dst ∧ o.aop = aop ∧ o.flag = none ∧
    o.parts = [⟨0, va, ks, data, cmp, none⟩] ∧ o.txn = w.inTxn f.id ∧ (o.txn = false → o.ord = ord ∧ o.scope = scope) ∧
    (o.txn = true → o.ord = 0 ∧ o.scope = 0) ∧
    Instr.scalarAccessReturn r o.id ∈ t.queue ∧ t.mem = s.mem ∧ ∀ p, p ≠ r → t.wave? p = s.wave? p)) ∧
  (s.memHeld r w 32 1 = false → w.txn = none → ∀ e, q = .error e → Ends i s (fun t => t.pend ≠ [] ∧ ∃ w' : Wave,
    t.wave? r = some w' ∧ (w'.frag? f.id).map Fragment.pc = some (f.pc + 4) ∧
    (∃ o ∈ w'.ops, o.id = s.nextId ∧ o.kind = k ∧ o.parts.any (fun p => p.fault.isSome) = true)))

/-! Lane instructions -/

/-- The running clause `x` of fragment `f` of wave `w`, at `r`, executes its present instruction. -/
structure Lane (s : State) (r : WaveRef) (w : Wave) (f : Fragment) (x : Running) : Prop where
  cur  : s.cur = .lane r.core r.slot f.id
  wave : s.wave? r = some w
  frag : w.frag? f.id = some f
  run  : f.run = some x

/-- The clause goes on: `w'` is the wave in `t`, fragment `f` has its next instruction in it, and no other fragment, no other wave
and no byte of memory has changed; free values of pending results are used up. -/
def LaneWent (s t : State) (r : WaveRef) (w w' : Wave) (f : Fragment) (x : Running) : Prop :=
  t = ({ s with free := s.free + 96 * w.awaited.length } : State).setWave r w' ∧ t.wave? r = some w' ∧
  w'.frag? f.id = some { f with run := x.rest, waitSince := none } ∧ (∀ k, k ≠ f.id → w'.frag? k = w.frag? k) ∧
  (∀ q, q ≠ r → t.wave? q = s.wave? q) ∧ t.mem = s.mem

/-- `v` with the flags of the lanes of `act` ORed in (R333). -/
def withFlags (v : Word) (act : LaneMask) (fl : Nat → Flags) (y : Word) : Prop :=
  ∀ k, y.getLsbD k = (v.getLsbD k || (lanesOf act).any (fun j => (fl j).getLsbD k))

/-- The registers `d` to `d + n - 1` take the words of `out` in the lanes of `act`, and keep their values in the others; no other
register changes. -/
def LanePut (w w' : Wave) (act : LaneMask) (d n : Nat) (out : Nat → List Word × Flags) : Prop :=
  (∀ reg j, j < 96 → w'.vget reg j = if d ≤ reg ∧ reg < d + n ∧ lane act j = true then (out j).1.getD (reg - d) 0 else w.vget reg j) ∧
  withFlags w.vstat act (fun j => (out j).2) w'.vstat

/-- A lane instruction that writes `n` registers from `d` up in its active lanes (R416, R417): words and flags of lane j from the
view that the instruction has of its sources. Its wave's random state advances by `draws` values per lane where some lane is
active (R331), and nothing else changes. -/
def Lanes (i : Instr) (c : LaneCtl) (d : BitVec 9) (n draws : Nat) (out : View → Nat → List Word × Flags) : Prop :=
  ∀ (s : State) (r : WaveRef) (w : Wave) (f : Fragment) (x : Running), Lane s r w f x →
    let act := activeMask w x c
    Ends i s (fun t => ∃ w' : Wave, LaneWent s t r w w' f x ∧ LanePut w w' act d.toNat n (out (s.view w x).1) ∧
      w' = { w with
        vreg := w'.vreg, vstat := w'.vstat, frags := w'.frags
        rngs := if act = 0 then w.rngs else w.rngs + BitVec.ofNat 64 (96 * draws) * golden })

/-- A lane instruction that writes guard `g` in its active lanes (R422): its value and flags of lane j. Guard 0 discards. -/
def LaneGuards (i : Instr) (c : LaneCtl) (g : Nat) (out : View → Nat → Bool × Flags) : Prop :=
  ∀ (s : State) (r : WaveRef) (w : Wave) (f : Fragment) (x : Running), Lane s r w f x →
    let act := activeMask w x c
    let v := (s.view w x).1
    Ends i s (fun t => ∃ w' : Wave, LaneWent s t r w w' f x ∧
      (∀ k j, j < 96 → lane (w'.guard k) j = if k = g ∧ g ≠ 0 ∧ lane act j = true then (out v j).1 else lane (w.guard k) j) ∧
      withFlags w.vstat act (fun j => (out v j).2) w'.vstat ∧
      w' = { w with guards := w'.guards, vstat := w'.vstat, frags := w'.frags })

/-- A source under an integer type (R353, R360): i32, n32, and pairs of i64 and n64. -/
def laneSrc (ty : Nat) (v : View) (x : BitVec 9) (j : Nat) : Int :=
  match ty with
  | 0 => (v.op x j).toInt
  | 1 => (v.op x j).toNat
  | 6 => (v.pair x j).toInt
  | _ => (v.pair x j).toNat

/-- The range of an integer type (R319). -/
def typeMin (ty : Nat) : Int :=
  match ty with
  | 0 => -2 ^ 31 | 2 => -2 ^ 15 | 4 => -2 ^ 7 | 6 => -2 ^ 63 | _ => 0
def typeMax (ty : Nat) : Int :=
  match ty with
  | 0 => 2 ^ 31 - 1 | 1 => 2 ^ 32 - 1 | 2 => 2 ^ 15 - 1 | 3 => 2 ^ 16 - 1 | 4 => 2 ^ 7 - 1 | 5 => 2 ^ 8 - 1 | 6 => 2 ^ 63 - 1 | _ => 2 ^ 64 - 1

/-- An exact result, clamped under `.sat` with its SAT flag, and the flag. -/
def clamped (ty : Nat) (sat : Prop) [Decidable sat] (z : Int) : Int × Flags :=
  if sat then (max (typeMin ty) (min (typeMax ty) z), if z < typeMin ty ∨ typeMax ty < z then fSAT else 0) else (z, 0)

/-- The result words of an exact integer under a type (R420): wrapped to its width, two words for a 64-bit type. -/
def intResult (ty : Nat) (sat : Prop) [Decidable sat] (z : Int) : List Word × Flags :=
  let y := (clamped ty sat z).1
  (if ty = 6 ∨ ty = 7 then [BitVec.ofInt 32 y, BitVec.ofInt 32 (y / 2 ^ 32)] else [BitVec.ofInt 32 y], (clamped ty sat z).2)

/-- One result word without flags. -/
def one (x : Word) : List Word × Flags := ([x], 0)

/-! Gaffer instructions -/

/-- Thread `n`, in RUN, executes a gaffer instruction (R85, R86). -/
structure Gaffer (s : State) (n : Nat) (g : GThread) : Prop where
  cur    : s.cur = .gaffer n
  low    : n < 4
  thread : s.gth n = g
  runs   : g.st = 1

/-- From `s` to `t` the thread goes on at `pc` with `v` in register `d` (c0 discards), and nothing else changes: no other register,
no other field of the thread, no other thread, nothing else of the machine. -/
def GafferWrote (s t : State) (n : Nat) (g : GThread) (pc : DWord) (d : BitVec 4) (v : DWord) : Prop :=
  ∃ g' : GThread, t = s.setGth n g' ∧ t.gth n = g' ∧ (∀ r, g'.rd r = if r = d.toNat ∧ r ≠ 0 then v else g.rd r) ∧
    g' = { g with pc := pc, regs := g'.regs, wait := .none } ∧ ∀ k, k ≠ n → t.gth k = s.gth k

/-- A gaffer instruction whose result is a function of the thread and of the state. -/
def Gives (i : Instr) (d : BitVec 4) (v : State → GThread → DWord) : Prop :=
  ∀ (s : State) (n : Nat) (g : GThread), Gaffer s n g → Ends i s (fun t => GafferWrote s t n g (g.pc + 4) d (v s g))

/-! Steps of collective programs -/

/-- Instance `x` of program slot `k` of crucible `c`, under descriptor `d`, executes a step; its own rank is not skipped (R128). -/
structure Collective (s : State) (c k : Nat) (x : Crux) (d : CollDesc) : Prop where
  cur  : s.cur = .crux c k
  slot : s.cx (c * 16 + k) = x
  desc : x.desc = some d
  runs : x.st = 2
  live : x.skipped d.rank = false

/-! Commands of the host -/

/-- The state once record `seq`, the only one waiting on stream `n`, has been taken. -/
def taken (s : State) (n : Nat) (seq : Word) : State := s.setStream n { s.stream n with buffer := [], started := seq }

/-- The row `i` of stream `st` starts record `l`, numbered `seq`: it is alone in the stream's buffer, nothing holds it back (R153),
its checks pass (R155), and the stream is open with fewer than 64 packets unacknowledged (R154). -/
structure Command (i : Instr) (s : State) (st : BitVec 10) (seq : Word) (l : List Byte) : Prop where
  buf    : (s.stream st.toNat).buffer = [(seq, l)]
  free   : holdsBack (s.stream st.toNat) = false
  good   : recBadCmd st.toNat l = false
  row    : cmdEvent st l = i
  checks : s.recStatus st.toNat l = none
  open_  : (s.stream st.toNat).open_ = true
  room   : (s.stream st.toNat).unacked.length < 64

/-- Record `l`, numbered `seq`, of stream `n` completes with a status and a value (R155, R156): the stream's completed SEQ is its own,
and where its CPL bit or the status asks for it, one completion goes to the host and nothing else does. -/
def Completed (s t : State) (n : Nat) (seq : Word) (l : List Byte) (status value : Nat) : Prop :=
  (t.stream n).completed = seq ∧
  (field l 1 1 % 2 = 1 ∨ status ≠ 0 → ∃ p : HostPacket, t.outHost = s.outHost ++ [p] ∧ p.typ = 3 ∧ p.stream = BitVec.ofNat 10 n ∧
    p.payload.take 8 = (l.drop 8).take 8 ∧ field p.payload 8 4 = seq.toNat ∧ field p.payload 14 1 = status ∧
    field p.payload 16 8 = value % 2 ^ 64) ∧
  (field l 1 1 % 2 = 0 → status = 0 → t.outHost = s.outHost)

/-- Record `l` completes with OK, a value and data (R156, R168, R169): where its CPL bit asks for it, completions go to the host whose data,
one after the other, are `data`. -/
def Answered (s t : State) (n : Nat) (seq : Word) (l : List Byte) (value : Nat) (data : List Byte) : Prop :=
  (t.stream n).completed = seq ∧ (field l 1 1 % 2 = 0 → t.outHost = s.outHost) ∧
  (field l 1 1 % 2 = 1 → ∃ ps : List HostPacket, t.outHost = s.outHost ++ ps ∧ ps ≠ [] ∧ ps.flatMap (fun p => p.payload.drop 32) = data ∧
    ∀ p ∈ ps, p.typ = 3 ∧ p.stream = BitVec.ofNat 10 n ∧ p.payload.take 8 = (l.drop 8).take 8 ∧ field p.payload 8 4 = seq.toNat ∧
      field p.payload 14 1 = 0 ∧ field p.payload 16 8 = value % 2 ^ 64)

end Sys2Proof.Claims
end

