-- ==== Sys2Proof/Certificates/Slice0/Obligations.lean ====
section
/-! DEFINITION. The statements for the provers. -/

open Sys2Proof

open Sys2Proof.Machine
open Sys2Proof.Claims

/-! Scalar instructions (R373 to R398) -/

/-- The register forms of the integer group (R378, R379, R381): each goes on with the next word, writes the value of the table to
sd, and changes nothing else. SADC and SSBC take the incoming carry from bit 0 of sd. -/
def Sys2Proof.Claims.ScalarRegisterForms : Prop := ∀ d a b : BitVec 6,
  let regs := [d.toNat, a.toNat, b.toNat]
  let one (i : Instr) (v : Word → Word → Word) : Prop :=
    Yields i regs (fun _ w f => [(d.toNat, v (w.rd f a.toNat) (w.rd f b.toNat))])
  let chain (i : Instr) (v : Word → Word → Nat → Word) : Prop :=
    Yields i regs (fun _ w f => [(d.toNat, v (w.rd f a.toNat) (w.rd f b.toNat) ((w.rd f d.toNat).toNat % 2))])
  one (.sadd d a b) (fun x y => x + y) ∧ one (.ssub d a b) (fun x y => x - y) ∧ one (.smul d a b) (fun x y => x * y) ∧
  chain (.sadc d a b) (fun x y c => if 2 ^ 32 ≤ x.toNat + y.toNat + c then 1 else 0) ∧
  chain (.ssbc d a b) (fun x y c => if x.toNat < y.toNat + c then 1 else 0) ∧
  one (.smulh d a b 0) (fun x y => BitVec.ofInt 32 ((x.toInt * y.toInt) >>> 32)) ∧
  one (.smulh d a b 1) (fun x y => BitVec.ofNat 32 ((x.toNat * y.toNat) >>> 32)) ∧
  one (.sand d a b) (fun x y => x &&& y) ∧ one (.sor d a b) (fun x y => x ||| y) ∧ one (.sxor d a b) (fun x y => x ^^^ y) ∧
  one (.sandn d a b) (fun x y => x &&& ~~~y) ∧
  one (.sshl d a b) (fun x y => if 32 ≤ y.toNat then 0 else x <<< y) ∧
  one (.sshr d a b) (fun x y => if 32 ≤ y.toNat then 0 else x >>> y) ∧
  one (.ssra d a b) (fun x y => if 32 ≤ y.toNat then (if x.msb then 0xFFFFFFFF else 0) else x.sshiftRight y.toNat) ∧
  one (.srol d a b) (fun x y => x.rotateLeft (y.toNat % 32)) ∧
  one (.smin d a b 0) (fun x y => if x.toInt ≤ y.toInt then x else y) ∧
  one (.smin d a b 1) (fun x y => if x.toNat ≤ y.toNat then x else y) ∧
  one (.smax d a b 0) (fun x y => if x.toInt ≤ y.toInt then y else x) ∧
  one (.smax d a b 1) (fun x y => if x.toNat ≤ y.toNat then y else x) ∧
  one (.scmp d a b 0) (fun x y => if x.toInt < y.toInt then 0xFFFFFFFF else if x = y then 0 else 1) ∧
  one (.scmp d a b 1) (fun x y => if x.toNat < y.toNat then 0xFFFFFFFF else if x = y then 0 else 1)

/-- The immediate and the one-source forms of the integer group, SSEL, SLEA and SNOP (R345, R348, R378, R381 to R383): each goes
on with the next word, writes sd (SLEA the pair sd), and changes nothing else; SNOP writes nothing. -/
def Sys2Proof.Claims.ScalarImmediateForms : Prop := ∀ (d a b c : BitVec 6) (i : BitVec 13) (n : BitVec 5) (h : BitVec 1) (l : BitVec 19)
    (k : BitVec 3),
  let one (x : Instr) (v : Word → Word) : Prop := Yields x [d.toNat, a.toNat] (fun _ w f => [(d.toNat, v (w.rd f a.toNat))])
  let sx : Word := i.signExtend 32
  let zx : Word := i.zeroExtend 32
  let lea (sg : BitVec 1) (ext : Word → DWord) : Prop :=
    Yields (.slea d a b sg k) [d.toNat, d.toNat + 1, a.toNat, a.toNat + 1, b.toNat] (fun _ w f =>
      let x : DWord := (w.rd f (a.toNat + 1) ++ w.rd f a.toNat) + (ext (w.rd f b.toNat) <<< k.toNat)
      [(d.toNat, x.truncate 32), (d.toNat + 1, (x >>> 32).truncate 32)])
  one (.saddImm d a i) (fun x => x + sx) ∧ one (.smulImm d a i) (fun x => x * sx) ∧
  one (.sandImm d a i) (fun x => x &&& zx) ∧ one (.sorImm d a i) (fun x => x ||| zx) ∧ one (.sxorImm d a i) (fun x => x ^^^ zx) ∧
  one (.sshlImm d a n) (fun x => x <<< n.toNat) ∧ one (.sshrImm d a n) (fun x => x >>> n.toNat) ∧
  one (.ssraImm d a n) (fun x => x.sshiftRight n.toNat) ∧ one (.srolImm d a n) (fun x => x.rotateLeft n.toNat) ∧
  one (.scmpImm d a i) (fun x => if x.toInt < sx.toInt then 0xFFFFFFFF else if x = sx then 0 else 1) ∧
  one (.sclz d a) (fun x => BitVec.ofNat 32 (if x = 0 then 32 else 31 - Nat.log2 x.toNat)) ∧
  one (.spopc d a) (fun x => BitVec.ofNat 32 ((List.range 32).countP (fun j => x.getLsbD j))) ∧
  one (.sbrev d a) (fun x => x.reverse) ∧
  Yields (.slhi h d l) [d.toNat] (fun _ _ _ => [(d.toNat, (h ++ l).zeroExtend 32 <<< 12)]) ∧
  Yields (.ssel d a b c) [d.toNat, a.toNat, b.toNat, c.toNat]
    (fun _ w f => [(d.toNat, if w.rd f c.toNat = 0 then w.rd f b.toNat else w.rd f a.toNat)]) ∧
  (d.toNat < 63 → lea 0 (fun x => x.zeroExtend 64) ∧ lea 1 (fun x => x.signExtend 64)) ∧
  Yields .snop [] (fun _ _ _ => [])

/-- SDIV and SREM (R380): the quotient truncates toward zero, the remainder has the sign of the dividend, and -2^31 by -1 gives
-2^31 and 0. -/
def Obligations.ScalarDivision : Prop := ∀ (d a b : BitVec 6) (s : State) (r : WaveRef) (w : Wave) (f : Fragment),
  Scalar s r w f [d.toNat, a.toNat, b.toNat] → w.rd f b.toNat ≠ 0 →
  let x := w.rd f a.toNat
  let y := w.rd f b.toNat
  let one (i : Instr) (v : Word) : Prop := Ends i s (fun t => Wrote s t r w f (f.pc + 4) [(d.toNat, v)])
  one (.sdiv d a b 0) (BitVec.ofInt 32 (x.toInt.tdiv y.toInt)) ∧ one (.srem d a b 0) (BitVec.ofInt 32 (x.toInt.tmod y.toInt)) ∧
  one (.sdiv d a b 1) (BitVec.ofNat 32 (x.toNat / y.toNat)) ∧ one (.srem d a b 1) (BitVec.ofNat 32 (x.toNat % y.toNat)) ∧
  (x = 0x80000000 → y = 0xFFFFFFFF → one (.sdiv d a b 0) 0x80000000 ∧ one (.srem d a b 0) 0)

/-- Jumps and branches (R389, R390, R392): where the program counter goes, and that nothing else changes but s55 under SCALL; SYIELD
counts one opportunity at which its fragment is to be passed over. -/
def Obligations.ScalarControlFlow : Prop := ∀ (a b : BitVec 6) (o10 : BitVec 10) (o25 : BitVec 25) (s : State) (r : WaveRef) (w : Wave)
    (f : Fragment),
  let x := w.rd f a.toNat
  let y := w.rd f b.toNat
  let to_ (i : Instr) (regs : List Nat) (pc : DWord) (l : List (Nat × Word)) : Prop :=
    Scalar s r w f regs → Ends i s (fun t => Wrote s t r w f pc l)
  let br (c : BitVec 3) (holds : Prop) : Prop :=
    (holds → to_ (.sbr a b c o10) [a.toNat, b.toNat] (f.pc + 4 * o10.signExtend 64) []) ∧
    (¬ holds → to_ (.sbr a b c o10) [a.toNat, b.toNat] (f.pc + 4) [])
  br 0 (x = y) ∧ br 1 (x ≠ y) ∧ br 2 (x.toInt < y.toInt) ∧ br 3 (y.toInt ≤ x.toInt) ∧ br 4 (x.toNat < y.toNat) ∧
  br 5 (y.toNat ≤ x.toNat) ∧
  to_ (.sjmp o25) [] (f.pc + 4 * o25.signExtend 64) [] ∧
  to_ (.scall o25) [55] (f.pc + 4 * o25.signExtend 64) [(55, (f.pc + 4).truncate 32)] ∧
  to_ (.sjmpx a) [a.toNat] (f.pc.extractLsb' 32 32 ++ (x.extractLsb' 2 30 ++ (0 : BitVec 2))) [] ∧
  to_ (.sret a) [a.toNat] (f.pc.extractLsb' 32 32 ++ (x.extractLsb' 2 30 ++ (0 : BitVec 2))) [] ∧
  (Scalar s r w f [] → Ends .syield s (fun t =>
    let w0 := w.updFrag f.id (fun g => { g with yields := g.yields + 1 })
    Wrote (s.setWave r w0) t r w0 { f with yields := f.yields + 1 } (f.pc + 4) []))

/-- SPLIT (R242, R391): an empty taken mask goes on with the next word, the whole activity mask jumps, anything else divides the
fragment in two, or aborts inside its own transaction (R290); the fragment's accesses under way, and the clauses still in its queue, precede
what either side does from now on (R268). -/
def Sys2Proof.Claims.ScalarSplit : Prop := ∀ (m : BitVec 6) (j : BitVec 9) (o : BitVec 10) (s : State) (r : WaveRef) (w : Wave) (f : Fragment),
  Scalar s r w f [m.toNat, m.toNat + 1, m.toNat + 2, 56, 57, 58, 59, 60, 61, 62, 63] →
  let taken : LaneMask := f.mask &&& (w.rd f (m.toNat + 2) ++ w.rd f (m.toNat + 1) ++ w.rd f m.toNat)
  let target := f.pc + 4 * o.signExtend 64
  let join := f.pc + 4 * j.signExtend 64
  (taken = 0 → Ends (.split m j o) s (fun t => Wrote s t r w f (f.pc + 4) [])) ∧
  (taken ≠ 0 → taken = f.mask → Ends (.split m j o) s (fun t => Wrote s t r w f target [])) ∧
  (taken ≠ 0 → taken ≠ f.mask → w.inTxn f.id = true → Ends (.split m j o) s (fun t => t = s.setWave r (w.abort 4 0))) ∧
  (taken ≠ 0 → taken ≠ f.mask → w.inTxn f.id = false → 2 ≤ w.slotsUsed → s.splitFree r.core = false →
    Ends (.split m j o) s (fun t => t = s.wait r f.id)) ∧
  (taken ≠ 0 → taken ≠ f.mask → w.inTxn f.id = false → (w.slotsUsed < 2 ∨ s.splitFree r.core = true) →
    Ends (.split m j o) s (fun t => ∃ (w' : Wave) (g h : Fragment), t = s.setWave r w' ∧
      w' = { w with frags := w'.frags, ops := w'.ops, nextFrag := w.nextFrag + 1, nextSplit := w.nextSplit + 1 } ∧
      w'.ops.map (fun o => { o with also := [] }) = w.ops.map (fun o => { o with also := [] }) ∧
      (∀ o ∈ w.ops, o.within f.id = true → ∃ o' ∈ w'.ops, o'.id = o.id ∧ (f.id, s.nextId) ∈ o'.also ∧ (h.id, 0) ∈ o'.also) ∧
      w'.frag? f.id = some g ∧ h ∈ w'.frags ∧ h.id = w.nextFrag ∧ (h.st = .ready ∨ h.st = .waiting) ∧
      g = { f with
        lanes := f.lanes &&& ~~~taken, mask := f.mask &&& ~~~taken, pc := f.pc + 4
        joins := ⟨join, w.nextSplit, true⟩ :: f.joins, waitSince := none, after := g.after } ∧
      ((f.queue ≠ [] ∨ f.run.isSome = true) → (f.id, s.nextId) ∈ g.after) ∧ h.after = g.after ∧
      h.lanes = taken ∧ h.mask = taken ∧ h.pc = target ∧ h.joins = ⟨join, w.nextSplit, false⟩ :: f.joins ∧ h.path = f.path ∧
      h.queue = [] ∧ h.run = none))

/-- SEXIT and PHEND (R202, R393, R400): beside another fragment of its wave a fragment exits, or parks, and leaves the wave's registers
and memory as they were; SEXIT waits for the fragment's clauses, and aborts inside its own transaction (R290). Where the fragments that
are left have all executed PHEND and nothing of the wave is under way, they fuse, and the wave is parked. -/
def Sys2Proof.Claims.ScalarExitAndPhaseEnd : Prop := ∀ (s : State) (r : WaveRef) (w : Wave) (f : Fragment), Scalar s r w f [] →
  (w.inTxn f.id = true → Ends .sexit s (fun t => t = s.setWave r (w.abort 4 0)) ∧ Ends .phend s (fun t => t = s.setWave r (w.abort 4 0))) ∧
  (w.inTxn f.id = false → (f.queue ≠ [] ∨ f.run.isSome) → Ends .sexit s (fun t => t = s.wait r f.id)) ∧
  (w.inTxn f.id = false → f.queue = [] → f.run = none → (∃ g ∈ w.frags, g.id ≠ f.id ∧ g.st ≠ .phase) →
    Ends .sexit s (fun t => ∃ w' : Wave, t = s.setWave r w' ∧ w' = { w with frags := w'.frags, ops := w'.ops } ∧
      w'.ops.map (fun o => { o with also := [], sides := [] }) = w.ops.map (fun o => { o with also := [], sides := [] }) ∧ w'.frag? f.id = none ∧
      ∀ k, k ≠ f.id → (w'.frag? k).map (fun g => (g.lanes, g.mask)) = (w.frag? k).map (fun g => (g.lanes, g.mask)))) ∧
  (w.inTxn f.id = false → w.handler = false → f.queue = [] → f.run = none → (∃ g ∈ w.frags, g.id ≠ f.id) →
    (∀ g ∈ w.frags, g.id ≠ f.id → g.st = .phase) → w.ops = [] → (∀ p ∈ w.tickets, p.2 = []) →
    (∃ q v, q ∈ s.blockWaves r.core w.bslot ∧ q ≠ r.slot ∧ tfind (s.core r.core).waves q = some v ∧ ∃ g ∈ v.frags, g.st ≠ .phase) →
    Ends .sexit s (fun t => ∃ (w' : Wave) (g : Fragment), t = s.setWave r w' ∧ w' = { w with frags := [g], decl := none } ∧ g.st = .phase ∧
      g.joins = [] ∧ ∀ k, k < 96 → lane g.lanes k = w.frags.any (fun x => x.id != f.id && lane x.lanes k))) ∧
  (∀ run : Run, w.inTxn f.id = false → w.handler = false → s.run? w.launch = some run → w.phase < run.lrec.phases.length →
    f.queue = [] → f.run = none → (∀ a ∈ f.after, w.unissued a = false) → (∀ c, c < 6 → w.outstanding c = 0) → w.ops = [] → w.wideRet = [] →
    (∃ g ∈ w.frags, g.id ≠ f.id ∧ g.st ≠ .phase ∧ g.st ≠ .waiting) →
    Ends .phend s (fun t => ∃ w' : Wave, t = s.setWave r w' ∧ w' = { w with frags := w'.frags } ∧
      (w'.frag? f.id).map (fun g => (g.st, g.pc, g.lanes, g.mask)) = some (.phase, f.pc, f.lanes, f.mask)))

/-- LRUN and LRUNX (R237, R394, R395): a clause with up to four argument words, the activity mask and the address of the next word
joins the fragment's lane queue; with eight clauses queued the instruction waits. -/
def Sys2Proof.Claims.ScalarClauses : Prop := ∀ (n : BitVec 3) (a b : BitVec 6) (c : BitVec 16) (s : State) (r : WaveRef) (w : Wave) (f : Fragment),
  n.toNat ≤ 4 →
  let clause (off : DWord) (g : Nat) : Clause :=
    ⟨off, (List.range 4).map (fun k => if k < n.toNat then w.rd f (g + k) else 0), f.mask, f.pc + 4, f.joins.length, w.inTxn f.id, s.nextId⟩
  let joins (i : Instr) (x : Clause) : Prop :=
    (f.queue.length < 8 → Ends i s (fun t => t = s.setWave r (w.updFrag f.id (fun g => { g with
      queue := g.queue ++ [x], pc := g.pc + 4, waitSince := none })))) ∧
    (8 ≤ f.queue.length → Ends i s (fun t => t = s.wait r f.id))
  (Scalar s r w f ((List.range n.toNat).map (fun k => a.toNat + k) ++ [61, 62, 63]) →
    joins (.lrun n a c) (clause (16 * c.zeroExtend 64) a.toNat)) ∧
  (Scalar s r w f (a.toNat :: (List.range n.toNat).map (fun k => b.toNat + k) ++ [61, 62, 63]) →
    joins (.lrunx a b n) (clause ((w.rd f a.toNat &&& 0xFFFFFFF0).zeroExtend 64) b.toNat))

/-- SGETX, SWAITF and SWAITC (R239, R277, R396 to R398): each waits until its condition holds, and then goes on with the next word;
SGETX takes the value of the exchange slot and clears its valid bit; the return of SWAITC is an acquire where an operation of
its classes of scope `.clus` or wider has retired. -/
def Sys2Proof.Claims.ScalarWaits : Prop := ∀ (d : BitVec 6) (k : BitVec 3) (m : BitVec 12) (c : BitVec 3) (n : BitVec 6) (s : State)
    (r : WaveRef) (w : Wave) (f : Fragment),
  let held (i : Instr) : Prop := Ends i s (fun t => t = s.wait r f.id)
  let on_ (i : Instr) : Prop := Ends i s (fun t => Wrote s t r w f (f.pc + 4) [])
  let drained : Prop := f.queue = [] ∧ f.run = none
  let flagsClear : Prop := ∀ i, i < 12 → m.getLsbD i = true → tget 0 w.flags i = 0
  let named (x : Nat) : Prop := x < 6 ∧ (c = 7 ∨ x = c.toNat)
  let counted : Prop := (∀ x, named x → w.outstanding x ≤ n.toNat) ∧ (c = 1 ∨ c = 3 ∨ c = 7 → drained)
  (Scalar s r w f [d.toNat] → tfind w.xslot k.toNat = none → held (.sgetx d k)) ∧
  (∀ v, Scalar s r w f [d.toNat] → tfind w.xslot k.toNat = some v →
    let w0 : Wave := { w with xslot := tdel w.xslot k.toNat }
    Ends (.sgetx d k) s (fun t => Wrote (s.setWave r w0) t r w0 f (f.pc + 4) [(d.toNat, v)])) ∧
  (Scalar s r w f [] → drained → flagsClear → on_ (.swaitf m)) ∧
  (Scalar s r w f [] → ¬ (drained ∧ flagsClear) → held (.swaitf m)) ∧
  (Scalar s r w f [] → c ≠ 6 → counted → (∀ x, named x → x ∉ w.wideRet) → on_ (.swaitc c n)) ∧
  (Scalar s r w f [] → c ≠ 6 → counted → (∃ x, named x ∧ x ∈ w.wideRet) → Ends (.swaitc c n) s (fun t =>
    (∀ e ∈ (t.core r.core).l1, e.asid ≠ w.ctx) ∧ (∀ x, Memory.read t.mem x = Memory.read s.mem x) ∧
    ∃ w' : Wave, t.wave? r = some w' ∧ w' = { w with frags := w'.frags } ∧
      w'.frag? f.id = some { f with pc := f.pc + 4, waitSince := none })) ∧
  (Scalar s r w f [] → c ≠ 6 → ¬ counted → held (.swaitc c n))

/-- What a wait at an interlock leaves (R374): the time since which it waits, and nothing else of any wave or of memory. -/
def Sys2Proof.Claims.WaitsStandStill : Prop := ∀ (s : State) (r : WaveRef) (w : Wave) (f : Fragment), s.wave? r = some w → w.frag? f.id = some f →
  (s.wait r f.id).wave? r =
    some (w.updFrag f.id (fun g => { g with waitSince := if f.waitSince.isSome then g.waitSince else some s.now })) ∧
  (∀ q, q ≠ r → (s.wait r f.id).wave? q = s.wave? q) ∧ (s.wait r f.id).mem = s.mem ∧
  (s.wait r f.id) = { s with cores := (s.wait r f.id).cores, timers := (s.wait r f.id).timers }

/-! Scalar memory, barriers, fences, transactions and engine commands (R274, R276, R280 to R297, R385 to R388, R401 to R411) -/

/-- SLD, SST, SLDK and SATOM (R374, R376, R385 to R388) issue one access at the address that the rule gives: pair(sa) plus the scaled
signed offset; the argument block's word with its two low address bits ignored; for an atomic the low bits below its size ignored. -/
def Obligations.ScalarMemoryIssues : Prop := ∀ (d a : BitVec 6) (z p o : BitVec 2) (sc : BitVec 3) (off x : BitVec 4) (i : BitVec 13)
    (s : State) (r : WaveRef) (w : Wave) (f : Fragment),
  let n := 2 ^ z.toNat
  let at_ : DWord := (w.rd f (a.toNat + 1) ++ w.rd f a.toNat) + off.signExtend 64 * BitVec.ofNat 64 n
  let val (g k : Nat) : List Byte := leBytes k (if k = 8 then (w.rd f (g + 1) ++ w.rd f g).toNat else (w.rd f g).toNat)
  let ds (k : Nat) : List Nat := if k = 8 then [d.toNat, d.toNat + 1] else [d.toNat]
  (Scalar s r w f (ds n ++ [a.toNat, a.toNat + 1]) →
    Issues (.sld d a z p o sc off) s r w f .load p.toNat n at_ (some d.toNat) 0 [] [] o.toNat sc.toNat ∧
    Issues (.sst d a z p o sc off) s r w f .store p.toNat n at_ none 0 (val d.toNat n) [] o.toNat sc.toNat) ∧
  (Scalar s r w f [d.toNat, a.toNat] →
    Issues (.sldk d a i) s r w f .load 2 4 ((w.args + 4 * ((w.rd f a.toNat).zeroExtend 64 + i.zeroExtend 64)) &&& ~~~3) (some d.toNat) 0 [] [] 0 0) ∧
  ((z = 2 ∨ z = 3) → x ≠ 9 → Scalar s r w f (ds n ++ [a.toNat, a.toNat + 1]) →
    Issues (.satom d a z p o sc x) s r w f .atomic p.toNat n ((w.rd f (a.toNat + 1) ++ w.rd f a.toNat) &&& ~~~(BitVec.ofNat 64 (n - 1)))
      (some d.toNat) x.toNat (val d.toNat n) (val (if n = 8 then d.toNat + 2 else d.toNat + 1) n) o.toNat sc.toNat) ∧
  ((z = 2 ∨ z = 3) → Scalar s r w f (ds n ++ (if n = 8 then [d.toNat + 2, d.toNat + 3] else [d.toNat + 1]) ++ [a.toNat, a.toNat + 1]) →
    Issues (.satom d a z p o sc 9) s r w f .atomic p.toNat n ((w.rd f (a.toNat + 1) ++ w.rd f a.toNat) &&& ~~~(BitVec.ofNat 64 (n - 1)))
      (some d.toNat) 9 (val d.toNat n) (val (if n = 8 then d.toNat + 2 else d.toNat + 1) n) o.toNat sc.toNat)

/-- SCALAR_ACCESS_RETURN on bytes of the scratchpad or the barrier array (R269, R270, R374, R385, R387): a load writes its
destination and no byte of memory; a store writes its bytes and no other; an atomic does both; a transactional store changes no byte
of memory (R280). The operation is over, and its destination no longer pending. -/
def Sys2Proof.Claims.ScalarCoreReturns : Prop := ∀ (s : State) (r : WaveRef) (w : Wave) (f : Fragment) (id : Nat) (o : Op) (p : Part),
  s.wave? r = some w → w.frag? f.id = some f → f.st ≠ .phase → o.frag = f.id → w.ops.find? (fun x => x.id == id) = some o → o.id = id →
  o.scalar = true → w.mayPerform o = true → o.parts = [p] → p.keys.Nodup → (∀ k ∈ p.keys, onCore k = true) → Memory.wf s.mem = true →
  p.keys.length = o.size → (o.size = 1 ∨ o.size = 2 ∨ o.size = 4 ∨ o.size = 8) →
  let v := leNat (s.peek p.keys)
  let dest (d : Nat) : List (Nat × Word) :=
    if o.size = 8 then [(d, BitVec.ofNat 32 v), (d + 1, BitVec.ofNat 32 (v / 2 ^ 32))] else [(d, BitVec.ofNat 32 v)]
  let ended (t : State) : Prop := ∃ (w' : Wave) (f' : Fragment), t.wave? r = some w' ∧ w'.frag? f.id = some f' ∧ f'.pc = f.pc ∧
    (∀ x ∈ w'.ops, x.id ≠ id) ∧ (∀ x ∈ w'.pendS, x.2 ≠ id) ∧ w'.vreg = w.vreg ∧ w'.guards = w.guards ∧
    ∀ n, n < 64 → w'.rd f' n = match o.dst with
      | some d => regAfter w f (dest d) n
      | none => w.rd f n
  (o.txn = false → w.txn = none → o.kind = .load → o.ord = 0 → o.sx = false → (∀ d, o.dst = some d → d < 64 ∧ (o.size = 8 → d < 63)) →
    Ends (.scalarAccessReturn r id) s (fun t => ended t ∧ t.mem = s.mem)) ∧
  (o.txn = false → w.txn = none → o.kind = .store → o.ord = 0 → o.dst = none → p.data.length = o.size →
    Ends (.scalarAccessReturn r id) s (fun t => ended t ∧ t.peek p.keys = p.data ∧
      ∀ k, k ∉ p.keys → Memory.read t.mem k = Memory.read s.mem k)) ∧
  (o.txn = false → w.txn = none → o.kind = .atomic → o.ord = 0 → o.aop ≠ 9 → 4 ≤ o.size → o.sx = false →
    (∀ d, o.dst = some d → d < 64 ∧ (o.size = 8 → d < 63)) → (s.core r.core).wcb = [] →
    Ends (.scalarAccessReturn r id) s (fun t => ended t ∧
      t.peek p.keys = leBytes o.size (atomicOp o.aop o.size v (leNat p.data)) ∧
      ∀ k, k ∉ p.keys → Memory.read t.mem k = Memory.read s.mem k)) ∧
  (o.txn = true → w.txn.isSome = true → o.kind = .store → Ends (.scalarAccessReturn r id) s (fun t => t.mem = s.mem))

/-- SCALAR_ACCESS_RETURN on bytes of memory (R253, R254, R269 to R272, R280, R281, R374, R385, R387): a load without acquire reads what the core
sees, its write-combining buffer before the home, and a store leaves its bytes in that buffer, where the core sees them; an acquire of
scope `.clus` or wider reads at the home and drops the context's L1 lines; a release of such a scope writes at the home; an atomic, the
compare and swap too, acts at the home; inside a transaction a load reads its own buffered bytes before the home, and an atomic's bytes
are buffered. -/
def Sys2Proof.Claims.ScalarDeviceReturns : Prop := ∀ (s : State) (r : WaveRef) (w : Wave) (f : Fragment) (id : Nat) (o : Op) (p : Part),
  s.wave? r = some w → w.frag? f.id = some f → f.st ≠ .phase → o.frag = f.id → w.ops.find? (fun x => x.id == id) = some o → o.id = id →
  o.scalar = true → w.mayPerform o = true → o.parts = [p] → p.keys.Nodup → (∀ k ∈ p.keys, onCore k = false) → Memory.wf s.mem = true →
  p.keys.length = o.size → (o.size = 1 ∨ o.size = 2 ∨ o.size = 4 ∨ o.size = 8) → o.sx = false →
  (∀ d, o.dst = some d → d < 64 ∧ (o.size = 8 → d < 63)) →
  let dest (d v : Nat) : List (Nat × Word) :=
    if o.size = 8 then [(d, BitVec.ofNat 32 v), (d + 1, BitVec.ofNat 32 (v / 2 ^ 32))] else [(d, BitVec.ofNat 32 v)]
  let ended (t : State) (v : Nat) : Prop := ∃ (w' : Wave) (f' : Fragment), t.wave? r = some w' ∧ w'.frag? f.id = some f' ∧ f'.pc = f.pc ∧
    (∀ x ∈ w'.ops, x.id ≠ id) ∧ (∀ x ∈ w'.pendS, x.2 ≠ id) ∧ w'.vreg = w.vreg ∧ w'.guards = w.guards ∧
    ∀ n, n < 64 → w'.rd f' n = match o.dst with
      | some d => regAfter w f (dest d v) n
      | none => w.rd f n
  let clean : Prop := (s.core r.core).wcb = []
  let wide : Prop := 2 ≤ o.scope ∧ clean
  let ends (P : State → Prop) : Prop := Ends (.scalarAccessReturn r id) s P
  let old := leNat (s.peek p.keys)
  (o.txn = false → w.txn = none → o.kind = .load → (isAcq o.ord = false ∨ o.scope < 2) → (isRel o.ord = false ∨ o.scope < 2) →
    (∀ e ∈ (s.core r.core).l1, e.asid ≠ w.ctx) → ends (fun t => ended t (leNat (s.peekVia r.core p.keys)) ∧ t.mem = s.mem)) ∧
  (o.txn = false → w.txn = none → o.kind = .load → isAcq o.ord = true → wide →
    ends (fun t => ended t old ∧ t.mem = s.mem ∧ ∀ e ∈ (t.core r.core).l1, e.asid ≠ w.ctx)) ∧
  (o.txn = false → w.txn = none → o.kind = .store → o.dst = none → p.data.length = o.size → (isRel o.ord = false ∨ o.scope < 2) → clean →
    ends (fun t => ended t 0 ∧ t.mem = s.mem ∧ t.peekVia r.core p.keys = p.data ∧
      ∀ k, k ∉ p.keys → t.byteVia r.core k = Memory.read s.mem k)) ∧
  (o.txn = false → w.txn = none → o.kind = .store → o.dst = none → p.data.length = o.size → isRel o.ord = true → wide →
    ends (fun t => ended t 0 ∧ t.peek p.keys = p.data ∧ ∀ k, k ∉ p.keys → Memory.read t.mem k = Memory.read s.mem k)) ∧
  (o.txn = false → w.txn = none → o.kind = .atomic → 4 ≤ o.size → clean → (o.aop = 9 → p.cmp.length = o.size) → ends (fun t => ended t old ∧
    t.peek p.keys = (if o.aop = 9 then (if old = leNat p.data then p.cmp else s.peek p.keys)
      else leBytes o.size (atomicOp o.aop o.size old (leNat p.data))) ∧ ∀ k, k ∉ p.keys → Memory.read t.mem k = Memory.read s.mem k)) ∧
  (∀ x x1 : Txn, o.txn = true → w.txn = some x → x.prio = false → s.txnRead x (dedup (p.keys.map lineOf)) = some x1 →
    let own := leNat (p.keys.map (s.txnByte x))
    (o.kind = .load → ends (fun t => ended t own ∧ t.mem = s.mem ∧ (t.wave? r).bind (fun w' => w'.txn) = some x1)) ∧
    (∀ x2 : Txn, o.kind = .atomic → o.aop ≠ 9 → 4 ≤ o.size →
      let new := leBytes o.size (atomicOp o.aop o.size own (leNat p.data))
      s.txnWrite r x1 (p.keys.zip new) = some x2 → ends (fun t => ended t own ∧ t.mem = s.mem ∧
        (t.wave? r).bind (fun w' => w'.txn) = some x2 ∧ p.keys.map (t.txnByte x2) = new)))

/-- Instructions of transactions (R280, R282, R284, R285, R287): TXB opens one that starts at the TXB and names its failure target,
counts levels, and aborts with NEST at a ninth; TXC at an inner level commits nothing; TXC at depth 1 commits every buffered write;
TXALT notes the alternative that TXR then takes; TXA aborts with EXPLICIT and its code; outside a transaction all but TXB
raise ILLEGAL. -/
def Sys2Proof.Claims.ScalarTransactions : Prop := ∀ (o : BitVec 25) (c : BitVec 8) (s : State) (r : WaveRef) (w : Wave) (f : Fragment),
  Scalar s r w f [] →
  let target := f.pc + 4 * o.signExtend 64
  (w.txn = none → s.txnReady r w f = true → (s.core r.core).wcb = [] → Ends (.txb o) s (fun t => ∃ w' : Wave, t.wave? r = some w' ∧ t.mem = s.mem ∧
    w' = { w with txn := w'.txn, frags := w'.frags } ∧ w'.frag? f.id = some { f with pc := f.pc + 4, waitSince := none } ∧
    w'.txn = some ⟨f.id, f.pc, target, 1, none, decide (8 ≤ w.ccnt), s.now, [], [], [], none⟩)) ∧
  (w.txn = none → s.txnReady r w f = false → Ends (.txb o) s (fun t => t = s.wait r f.id)) ∧
  (w.txn = none → ∀ i ∈ [Instr.txc, .txr, .txalt o, .txa c], Ends i s (fun t => t = s.scalarTrap r f.id 6 0)) ∧
  (∀ x : Txn, w.txn = some x → x.frag = f.id →
    (x.depth < 8 → Ends (.txb o) s (fun t => t = (s.setWave r { w with txn := some { x with depth := x.depth + 1 } }).next r f.id)) ∧
    (8 ≤ x.depth → Ends (.txb o) s (fun t => t = s.setWave r (w.abort 3 0))) ∧
    (1 < x.depth → Ends .txc s (fun t => t = (s.setWave r { w with txn := some { x with depth := x.depth - 1 } }).next r f.id)) ∧
    (x.depth ≤ 1 → f.queue = [] → f.run = none → w.ops = [] → s.prioHolds r x = false → x.opens = [] →
      Memory.wf s.mem = true →
      Ends .txc s (fun t => t.mem = Memory.writes s.mem x.writes ∧ (∀ e ∈ (t.core r.core).l1, e.asid ≠ w.ctx) ∧
        ∃ w' : Wave, t.wave? r = some w' ∧ w'.txn = none ∧ w'.ccnt = 0 ∧ w'.woke = false ∧
          (w'.frag? f.id).map Fragment.pc = some (f.pc + 4))) ∧
    Ends (.txalt o) s (fun t => t = (s.setWave r { w with txn := some { x with alt := some target } }).next r f.id) ∧
    Ends (.txa c) s (fun t => t = s.setWave r (w.abort 5 c.toNat)) ∧
    (∀ a, x.alt = some a → w.ops = [] → Ends .txr s (fun t =>
      t = (s.setWave r { w with txn := some { x with writes := [], alt := none, opens := [] } }).goto r f.id a)) ∧
    (x.alt = none → x.reads ≠ [] → (∀ l ∈ x.reads, s.watchesAt (homeOf (l * 128)) + x.reads.length ≤ 256) → w.ops = [] →
      Ends .txr s (fun t => t.mem = s.mem ∧ ∃ (w' : Wave) (g : Fragment), t.wave? r = some w' ∧ w'.txn = none ∧
        w'.frag? f.id = some g ∧ g.st = .sleeping ∧ g.pc = x.start ∧ g.queue = [] ∧ g.run = none ∧
        g.sleep = some ⟨x.reads, false, false, s.now, none, none⟩)))

/-- An abort of a transaction (R287): CAUSE and CODE are set, WOKE is cleared, CCNT counts conflicts only, nothing buffered is
written, and the fragment goes on at the failure target of the outermost TXB without clauses. -/
def Sys2Proof.Claims.AbortOfATransaction : Prop := ∀ (s : State) (r : WaveRef) (w : Wave) (f : Fragment) (x : Txn) (cause code : Nat),
  w.txn = some x → x.frag = f.id → w.frag? f.id = some f →
  (w.abort cause code).txn = none ∧ (w.abort cause code).txcause = cause ∧ (w.abort cause code).txcode = code ∧
  (w.abort cause code).woke = false ∧ (w.abort 1 code).ccnt = min 15 (w.ccnt + 1) ∧ (cause ≠ 1 → (w.abort cause code).ccnt = 0) ∧
  (w.abort cause code).frag? f.id = some { f with queue := [], run := none, pc := x.target, waitSince := none } ∧
  (w.abort cause code).sreg = w.sreg ∧ (w.abort cause code).vreg = w.vreg ∧ (w.abort cause code).guards = w.guards ∧
  (s.setWave r (w.abort cause code)).mem = s.mem

/-- BARA and FENCE (R274, R296, R402): an arrival counts up or opens the barrier with the next generation, and answers the old
generation; a count of 0 or beyond 32, a poisoned word and a disagreeing count, which poisons the word, raise BARMISMATCH; FENCE.heavy
leaves no core within its scope with a wave of its context a buffered store or an L1 line of the context, and what the core had
buffered is in memory. -/
def Sys2Proof.Claims.ScalarBarriersAndFences : Prop := ∀ (d n b : BitVec 6) (h : BitVec 1) (sc : BitVec 3) (s : State) (r : WaveRef) (w : Wave)
    (f : Fragment), w.inTxn f.id = false → Memory.wf s.mem = true → w.handler = false →
  let keys := keysFrom (barKey r.core (8 * b.toNat)) 8
  let x := leNat (s.peek keys)
  let gen := x / 2 ^ 32 % 2 ^ 16
  let expect := x / 2 ^ 8 % 2 ^ 6
  let arrived := x % 2 ^ 6
  (Scalar s r w f [d.toNat] → (n.toNat = 0 ∨ 32 < n.toNat) → Ends (.bara d n b) s (fun t => t = s.scalarTrap r f.id 4 0)) ∧
  (Scalar s r w f [d.toNat] → 1 ≤ n.toNat → n.toNat ≤ 32 → w.ops = [] → (∀ a ∈ f.after, w.unissued a = false) → w.txn = none →
    (∀ y, tfind (s.core r.core).bound b.toNat = some y → y = w.ctx) →
    (∀ bl, tfind (s.core r.core).blocks w.bslot = some bl → bl.scrq ≤ 224) →
    let ends (v : Nat) : Prop := Ends (.bara d n b) s (fun t => t.peek keys = leBytes 8 v ∧
      (∀ k, k ∉ keys → Memory.read t.mem k = Memory.read s.mem k) ∧ tfind (t.core r.core).bound b.toNat = some w.ctx ∧
      ∃ (w' : Wave) (f' : Fragment), t.wave? r = some w' ∧ w'.frag? f.id = some f' ∧ f'.pc = f.pc + 4 ∧
        ∀ k, k < 64 → w'.rd f' k = regAfter w f [(d.toNat, BitVec.ofNat 32 gen)] k)
    (x < 2 ^ 63 → (expect = 0 ∨ expect = n.toNat) → arrived + 1 = n.toNat → ends ((gen + 1) % 2 ^ 16 * 2 ^ 32)) ∧
    (x < 2 ^ 48 → (expect = 0 ∨ expect = n.toNat) → arrived + 1 < n.toNat → x / 2 ^ 14 % 2 ^ 18 = 0 → x / 2 ^ 6 % 4 = 0 →
      ends (gen * 2 ^ 32 + n.toNat * 2 ^ 8 + arrived + 1)) ∧
    let traps (v : Nat) : Prop := Ends (.bara d n b) s (fun t => t.peek keys = leBytes 8 v ∧
      (∀ k, k ∉ keys → Memory.read t.mem k = Memory.read s.mem k) ∧
      ∃ w' : Wave, t.wave? r = some w' ∧ w'.sreg = w.sreg ∧ (w'.frag? f.id).map Fragment.st = some .heldSlot)
    (x < 2 ^ 63 → expect ≠ 0 → expect ≠ n.toNat → traps (2 ^ 63 + x)) ∧ (2 ^ 63 ≤ x → traps x)) ∧
  (Scalar s r w f [] → (s.settled r w f = false ∨ w.performed f true = false) → Ends (.fence h sc) s (fun t => t = s.wait r f.id)) ∧
  (Scalar s r w f [] → s.settled r w f = true → w.performed f true = true → (h = 0 ∨ sc = 0) →
    Ends (.fence h sc) s (fun t => Wrote s t r w f (f.pc + 4) [])) ∧
  (Scalar s r w f [] → s.settled r w f = true → w.performed f true = true → h = 1 → 1 ≤ sc.toNat → sc.toNat ≤ 5 → w.txn = none → r.core < 192 →
    let within (c : Nat) : Prop := match sc.toNat with
      | 1 => c = r.core
      | 2 => c / 12 = r.core / 12
      | 3 => c / 96 = r.core / 96
      | _ => True
    Ends (.fence h sc) s (fun t =>
      (∀ c, c < 192 → within c → (∃ e ∈ (s.core c).waves, e.2.ctx = w.ctx) → (t.core c).wcb = [] ∧ ∀ e ∈ (t.core c).l1, e.asid ≠ w.ctx) ∧
      (∀ e : WcLine, (s.core r.core).wcb = [e] → (e.data.map (fun p => p.1)).Nodup → (∀ c, c ≠ r.core → (s.core c).wcb = []) →
        t.peek (e.data.map (fun p => p.1)) = e.data.map (fun p => p.2)) ∧
      ∃ w' : Wave, t.wave? r = some w' ∧ w'.sreg = w.sreg ∧ w'.vreg = w.vreg ∧ w'.ops = w.ops ∧
        (w'.frag? f.id).map Fragment.pc = some (f.pc + 4)))

/-- BARW (R297): with another generation in the word the wait is over, at once; with the awaited one the fragment sleeps on the
word's line at the BARW. -/
def Sys2Proof.Claims.ScalarBarrierWait : Prop := ∀ (a b : BitVec 6) (s : State) (r : WaveRef) (w : Wave) (f : Fragment),
  Scalar s r w f [a.toNat] → w.txn = none → w.handler = false → s.txnReady r w f = true → (s.core r.core).wcb = [] →
  tfind (s.core r.core).bound b.toNat = some w.ctx → (∀ bl, tfind (s.core r.core).blocks w.bslot = some bl → bl.scrq ≤ 224) →
  r.core < 192 →
  let line := lineOf (barKey r.core (8 * b.toNat))
  s.canMark [line] = true →
  let x := leNat (s.peek (keysFrom (barKey r.core (8 * b.toNat)) 8))
  (x < 2 ^ 63 → x / 2 ^ 32 % 2 ^ 16 ≠ (w.rd f a.toNat).toNat % 2 ^ 16 → Ends (.barw a b) s (fun t => t.mem = s.mem ∧
    ∃ w' : Wave, t.wave? r = some w' ∧ w'.txn = none ∧ w'.sreg = w.sreg ∧ w'.frag? f.id = some { f with pc := f.pc + 4, waitSince := none })) ∧
  (x < 2 ^ 63 → x / 2 ^ 32 % 2 ^ 16 = (w.rd f a.toNat).toNat % 2 ^ 16 → s.watchesAt (128 + r.core) < 256 → w.ops = [] →
    Ends (.barw a b) s (fun t => t.mem = s.mem ∧ ∃ (w' : Wave) (g : Fragment), t.wave? r = some w' ∧ w'.txn = none ∧ w'.sreg = w.sreg ∧
      w'.frag? f.id = some g ∧ g.st = .sleeping ∧ g.pc = f.pc ∧ g.sleep = some ⟨[line], false, false, s.now, some b.toNat, none⟩)) ∧
  (2 ^ 63 ≤ x → w.handler = false → Ends (.barw a b) s (fun t => ∃ w' : Wave, t.wave? r = some w' ∧ (w'.frag? f.id).map Fragment.st = some .heldSlot))

/-! Engine commands, launches, traps, time, special registers and power requests of the scalar stream (R403 to R415) -/

/-- XCOPY, XGATH, XCOLL and XSEND (R276, R277, R403): with room in the class's counter, the fragment's clauses run to their end and
its accesses performed, the engine gets one operation more, with the descriptor address pair(sa), which the class's counter
counts; else the instruction waits, and inside its own transaction it aborts with ILLEGAL (R290). -/
def Obligations.EngineCommandsIssue : Prop := ∀ (a : BitVec 6) (c : BitVec 1) (sc : BitVec 3) (s : State) (r : WaveRef) (w : Wave)
    (f : Fragment), Scalar s r w f [a.toNat, a.toNat + 1] →
  let cmd (i : Instr) (k : AsyncKind) (cls : Nat) : Prop :=
    (w.inTxn f.id = true → Ends i s (fun t => t = s.setWave r (w.abort 4 0))) ∧
    (w.inTxn f.id = false → (w.outstanding cls = 63 ∨ f.queue ≠ [] ∨ f.run.isSome = true) → Ends i s (fun t => t = s.wait r f.id)) ∧
    (w.inTxn f.id = false → w.outstanding cls < 63 → f.queue = [] → f.run = none → w.ops = [] → (∀ a ∈ f.after, w.unissued a = false) → (s.core r.core).wcb = [] →
      Ends i s (fun t => t.mem = s.mem ∧ ∃ (o : AsyncOp) (w' : Wave), t.asyncs = s.asyncs ++ [o] ∧ o.id = s.nextId ∧ o.kind = k ∧
        o.w = r ∧ o.ctx = w.ctx ∧ o.addr = w.rd f (a.toNat + 1) ++ w.rd f a.toNat ∧ o.scope = max 1 sc.toNat ∧ o.stage = 0 ∧
        t.wave? r = some w' ∧ w' = { w with tickets := w'.tickets, frags := w'.frags } ∧
        tget [] w'.tickets cls = tget [] w.tickets cls ++ [⟨s.nextId, max 1 sc.toNat, false⟩] ∧
        (∀ k, k ≠ cls → tget [] w'.tickets k = tget [] w.tickets k) ∧
        w'.frag? f.id = some { f with pc := f.pc + 4, waitSince := none }))
  cmd (.xcopy a sc) .copy 0 ∧ cmd (.xgath a sc) .gather 2 ∧ cmd (.xcoll a sc) .coll 4 ∧ cmd (.xsend a c sc) (.message (c == 1)) 5

/-- LAUNCH (R187, R410): 2 where the queue is not the context's, 3 where the record's address is not a multiple of 256, 1 where the queue
is full, else 0 and the pointer joins the queue: behind what other waves pushed in the same ns if their cores, then slots, are lower, before
it if they are higher (the order within a ns is log 7). -/
def Sys2Proof.Claims.LaunchPushes : Prop := ∀ (d a b : BitVec 6) (s : State) (r : WaveRef) (w : Wave) (f : Fragment),
  Scalar s r w f [d.toNat, a.toNat, a.toNat + 1, b.toNat] → w.inTxn f.id = false → w.ops = [] → (∀ a ∈ f.after, w.unissued a = false) →
  (s.core r.core).wcb = [] →
  let q := (w.rd f b.toNat).toNat
  let addr : DWord := w.rd f (a.toNat + 1) ++ w.rd f a.toNat
  let key := r.core * 64 + r.slot
  let ends (code : Word) (ptrs : List DWord) : Prop := Ends (.launch d a b) s (fun t => t.mem = s.mem ∧ (t.hq q).ptrs = ptrs ∧
    (∀ j, j ≠ q → t.hq j = s.hq j) ∧ ∃ (w' : Wave) (f' : Fragment), t.wave? r = some w' ∧ w'.frag? f.id = some f' ∧ f'.pc = f.pc + 4 ∧
      w' = { w with sreg := w'.sreg, frags := w'.frags } ∧ ∀ n, n < 64 → w'.rd f' n = regAfter w f [(d.toNat, code)] n)
  ((64 ≤ q ∨ (s.hq q).ctx ≠ some w.ctx) → ends 2 (s.hq q).ptrs) ∧
  (q < 64 → (s.hq q).ctx = some w.ctx → addr.toNat % 256 ≠ 0 → ends 3 (s.hq q).ptrs) ∧
  (q < 64 → (s.hq q).ctx = some w.ctx → addr.toNat % 256 = 0 → 256 ≤ (s.hq q).ptrs.length → ends 1 (s.hq q).ptrs) ∧
  (q < 64 → (s.hq q).ctx = some w.ctx → addr.toNat % 256 = 0 → (s.hq q).ptrs.length < 256 →
    ((s.hq q).pushedAt = s.now → ∀ k ∈ (s.hq q).pushed, k ≤ key) → ends 0 ((s.hq q).ptrs ++ [addr])) ∧
  (q < 64 → (s.hq q).ctx = some w.ctx → addr.toNat % 256 = 0 → (s.hq q).ptrs.length < 256 →
    (s.hq q).pushedAt = s.now → (∀ k ∈ (s.hq q).pushed, key < k) → (s.hq q).pushed.length < (s.hq q).ptrs.length →
    let n := (s.hq q).ptrs.length - (s.hq q).pushed.length
    ends 0 ((s.hq q).ptrs.take n ++ addr :: (s.hq q).ptrs.drop n))

/-- SIGQ (R94, R175, R211, R318, R411): the value is ORed into QWAKE of a queue of the context, into GWAKE of a thread that is unbound or
bound to the context, or into MARK of the management core, which reads and clears it and logs it while the module is on, its boot over and
its image not being switched (R183; that it reads at the end of the ns is log 87); any other target raises BADSIG. -/
def Sys2Proof.Claims.SoftInterrupts : Prop := ∀ (a b : BitVec 6) (s : State) (r : WaveRef) (w : Wave) (f : Fragment),
  Scalar s r w f [a.toNat, b.toNat] → w.inTxn f.id = false → w.ops = [] → (∀ a ∈ f.after, w.unissued a = false) → (s.core r.core).wcb = [] →
  let x := (w.rd f a.toNat).toNat
  let v := w.rd f b.toNat
  let on_ (t : State) : Prop := ∃ w' : Wave, t.wave? r = some w' ∧ w' = { w with frags := w'.frags } ∧
    w'.frag? f.id = some { f with pc := f.pc + 4, waitSince := none }
  (x < 64 → (s.hq x).ctx = some w.ctx → Ends (.sigq a b) s (fun t => on_ t ∧ t.hq x = { s.hq x with wake := (s.hq x).wake ||| v } ∧
    t.mem = s.mem)) ∧
  (64 ≤ x → x < 68 → ((s.gth (x - 64)).ctx = none ∨ (s.gth (x - 64)).ctx = some w.ctx) → Ends (.sigq a b) s (fun t => on_ t ∧
    t.gth (x - 64) = { s.gth (x - 64) with wake := (s.gth (x - 64)).wake ||| v } ∧ t.mem = s.mem)) ∧
  (x = 128 → Ends (.sigq a b) s (fun t => on_ t ∧ t.mgmt = { s.mgmt with mbwake := s.mgmt.mbwake ||| v } ∧ t.mem = s.mem ∧
    (s.mgmt.mbwake ||| v ≠ 0 → s.modl.on = true → s.mgmt.bootStep ≠ 0 → s.switching 0 = false → t.readMark.mgmt.mbwake = 0 ∧
      ∃ e : LogEntry, t.readMark.mgmt.log.getLast? = some e ∧ e.kind = 1 ∧ e.data = (s.mgmt.mbwake ||| v).zeroExtend 64 ∧ e.time = s.now))) ∧
  ((x < 64 → (s.hq x).ctx ≠ some w.ctx) → (64 ≤ x → x < 68 → (s.gth (x - 64)).ctx ≠ none ∧ (s.gth (x - 64)).ctx ≠ some w.ctx) → x ≠ 128 →
    Ends (.sigq a b) s (fun t => t = s.scalarTrap r f.id 7 0))

/-- Taking a user trap at a scalar site (R299, R300, R412): TRAP and BRK hold the whole fragment at the instruction, in its path slot, and
every lane of its lane set goes to the compactor of its core with the code, the immediate and the instruction's address, under
the wave's context and trap entry. -/
def Sys2Proof.Claims.ScalarTrapEntry : Prop := ∀ (i : BitVec 13) (s : State) (r : WaveRef) (w : Wave) (f : Fragment), Scalar s r w f [] →
  let traps (x : Instr) (code : Nat) : Prop := Ends x s (fun t => t.mem = s.mem ∧ ∃ (w' : Wave) (h : Held),
    t.wave? r = some w' ∧ w' = { w with frags := w'.frags } ∧ (∀ k, k ≠ f.id → w'.frag? k = w.frag? k) ∧
    w'.frag? f.id = some { f with st := .heldSlot, held := some h, waitSince := none } ∧
    h.code = BitVec.ofNat 32 (code + 2 ^ 16 * i.toNat) ∧ h.addr = f.pc ∧ h.active = f.mask ∧
    ∃ g ∈ (t.core r.core).groups, g.ctx = w.ctx ∧ g.entry = w.trapv ∧ ∀ l, l < 96 → lane f.lanes l = true →
      ∃ e ∈ g.lanes, e.lane = l ∧ e.slot = r.slot ∧ e.frag = f.id ∧ e.bslot = w.bslot ∧ e.v1 = h.code ∧ e.addr = f.pc ∧ e.time = s.now)
  (w.txn = none → w.handler = false → traps (.trap i) 1 ∧ traps (.brk i) 5) ∧
  (w.inTxn f.id = true → Ends (.trap i) s (fun t => t = s.setWave r (w.abort 4 0)) ∧ Ends (.brk i) s (fun t => t = s.setWave r (w.abort 7 5)))

/-- A zero divisor raises DIVZERO at the scalar site (R299, R300, R380): the fragment is held at the instruction, and no scalar register
is written. -/
def Sys2Proof.Claims.DivisionByZeroTraps : Prop := ∀ (d a b : BitVec 6) (u : BitVec 1) (s : State) (r : WaveRef) (w : Wave) (f : Fragment),
  Scalar s r w f [d.toNat, a.toNat, b.toNat] → w.rd f b.toNat = 0 → w.txn = none → w.handler = false →
  ∀ i ∈ [Instr.sdiv d a b u, .srem d a b u], Ends i s (fun t => t.mem = s.mem ∧ ∃ (w' : Wave) (h : Held), t.wave? r = some w' ∧
    w'.sreg = w.sreg ∧ w'.frag? f.id = some { f with st := .heldSlot, held := some h, waitSince := none } ∧ h.code = 3 ∧ h.addr = f.pc)

/-- TIME and CYC (R225, R413): the pair takes the time base in ns, or the lane-edge count of the wave's cluster. -/
def Sys2Proof.Claims.ScalarTime : Prop := ∀ d : BitVec 6, d.toNat < 63 →
  let two (v : State → WaveRef → DWord) (i : Instr) : Prop := ∀ (s : State) (r : WaveRef) (w : Wave) (f : Fragment),
    Scalar s r w f [d.toNat, d.toNat + 1] → Ends i s (fun t =>
      Wrote s t r w f (f.pc + 4) [(d.toNat, (v s r).truncate 32), (d.toNat + 1, ((v s r) >>> 32).truncate 32)])
  two (fun s _ => BitVec.ofNat 64 s.now) (.time d) ∧ two (fun s r => BitVec.ofNat 64 (s.laneCycle (r.core / 12))) (.cyc d)

/-- SRSR (R233, R234, R294, R414): the register that each code names; `xmax`, `vstat` and `rngs` make a settled wait first. -/
def Sys2Proof.Claims.SpecialRegisterReads : Prop := ∀ (d : BitVec 6) (s : State) (r : WaveRef) (w : Wave) (f : Fragment),
  Scalar s r w f [d.toNat] →
  let reads (c : BitVec 6) (v : Word) : Prop := Ends (.srsr d c) s (fun t => Wrote s t r w f (f.pc + 4) [(d.toNat, v)])
  (s.settled r w f = true → reads 0 w.xmax ∧ reads 1 w.vstat ∧ reads 4 (w.rngs.truncate 32) ∧ reads 5 ((w.rngs >>> 32).truncate 32)) ∧
  (s.settled r w f = false → ∀ c ∈ [(0 : BitVec 6), 1, 4, 5], Ends (.srsr d c) s (fun t => t = s.wait r f.id)) ∧
  reads 2 w.txst ∧ reads 3 (s.brst w) ∧ reads 6 (w.trapv.truncate 32) ∧ reads 7 ((w.trapv >>> 32).truncate 32) ∧
  (∀ k, k < 8 → reads (BitVec.ofNat 6 (8 + k)) (w.ix.getD k 0) ∧ reads (BitVec.ofNat 6 (16 + k)) (w.nx.getD k 0)) ∧
  (w.handler = false → reads 0x18 (BitVec.ofNat 32 (2 ^ 8 * r.slot + w.widx)) ∧ reads 0x19 (BitVec.ofNat 32 r.core) ∧
    reads 0x1A (BitVec.ofNat 32 w.kid) ∧ reads 0x1B (BitVec.ofNat 32 (2 ^ 16 * (r.core / 96) + w.fdid)) ∧ reads 0x1C w.rank) ∧
  (w.handler = true → ∀ c ∈ [(0x18 : BitVec 6), 0x19, 0x1A, 0x1B, 0x1C], reads c 0) ∧ reads 0x1D (BitVec.ofNat 32 w.ctx)

/-- SWSR (R233, R333, R414): the named register takes the value, `vstat` in its six bits, `brst` only loses the THR and BAD bits
that are written as 1; read-only registers keep their value, and no scalar register changes. -/
def Sys2Proof.Claims.SpecialRegisterWrites : Prop := ∀ (a : BitVec 6) (s : State) (r : WaveRef) (w : Wave) (f : Fragment),
  Scalar s r w f [a.toNat] →
  let v := w.rd f a.toNat
  let sets (c : BitVec 6) (w' : Wave) : Prop := Ends (.swsr a c) s (fun t => Wrote (s.setWave r w') t r w' f (f.pc + 4) [])
  (s.settled r w f = true → sets 0 { w with xmax := v } ∧ sets 1 { w with vstat := v &&& 0x3F } ∧
    sets 4 { w with rngs := (w.rngs >>> 32).truncate 32 ++ v } ∧ sets 5 { w with rngs := v ++ w.rngs.truncate 32 }) ∧
  (s.settled r w f = false → ∀ c ∈ [(0 : BitVec 6), 1, 4, 5], Ends (.swsr a c) s (fun t => t = s.wait r f.id)) ∧
  sets 3 { w with thr := w.thr && !v.getLsbD 28, bad := w.bad && !v.getLsbD 22 } ∧
  sets 6 { w with trapv := (w.trapv >>> 32).truncate 32 ++ v } ∧ sets 7 { w with trapv := v ++ w.trapv.truncate 32 } ∧
  sets 2 w ∧ ∀ c : BitVec 6, 8 ≤ c.toNat → c.toNat ≤ 0x1D → sets c w

/-- BURST, BURSTX and PERFL (R213, R214, R216, R217, R415): a valid announcement becomes the wave's pending declaration with INT clamped to
the launch's BINT, told to the regulator at once unless the image of its lehr is being switched with no burst in the cluster (log 94; the
order of announcements within a ns is log 7); INT 0 ends it, an invalid one sets BAD and clears CLAMP; BURSTX ends it; PERFL writes the request of a context with a resident block on the cluster, 3 takes it back,
and a request above 3 has no effect. -/
def Sys2Proof.Claims.ScalarPower : Prop := ∀ (a : BitVec 6) (s : State) (r : WaveRef) (w : Wave) (f : Fragment),
  Scalar s r w f [a.toNat] →
  let v := (w.rd f a.toNat).toNat
  let int := v / 2 ^ 12 % 2 ^ 5
  let resident : Prop := ∃ b ∈ s.clusterBlocks (r.core / 12), b.ctx = w.ctx
  let sets (i : Instr) (w' : Wave) : Prop := Ends i s (fun t => t.mem = s.mem ∧ ∃ x : Wave, t.wave? r = some x ∧
    x = { w' with frags := x.frags } ∧ x.frag? f.id = some { f with pc := f.pc + 4, waitSince := none })
  (w.inTxn f.id = true → Ends (.burst a) s (fun t => t = s.setWave r (w.abort 4 0))) ∧
  (w.inTxn f.id = false → (2 ^ 29 ≤ v ∨ 16 < int) → sets (.burst a) { w with bad := true, clamp := false }) ∧
  (w.inTxn f.id = false → v < 2 ^ 29 → int ≤ 16 → min int (s.bintOf w) = 0 →
    sets (.burst a) { w with clamp := decide (s.bintOf w < int), decl := none }) ∧
  (w.inTxn f.id = false → v < 2 ^ 29 → int ≤ 16 → min int (s.bintOf w) ≠ 0 →
    let made (order : Nat) (told : Bool) : Prop := sets (.burst a) { w with
      clamp := decide (s.bintOf w < int)
      decl := some ⟨min int (s.bintOf w), v / 2 ^ 17 + 1, s.now + front (v % 2 ^ 12), order, told, false, none⟩ }
    (s.switching (16 + r.core / 12) = false → made (s.now * 16384 + r.core * 64 + r.slot) true) ∧
    (s.switching (16 + r.core / 12) = true → (∀ p ∈ s.allWaves, p.1.core / 12 = r.core / 12 → p.2.decl = none) → made 0 false)) ∧
  (Scalar s r w f [] → sets .burstx { w with decl := none }) ∧
  sets (.perfl a) w ∧
  (v < 3 → resident → Ends (.perfl a) s (fun t => tfind (t.cluster (r.core / 12)).slots w.ctx = some v)) ∧
  (v = 3 → resident → Ends (.perfl a) s (fun t => tfind (t.cluster (r.core / 12)).slots w.ctx = none)) ∧
  ((3 < v ∨ ¬ resident) → Ends (.perfl a) s (fun t => Wrote s t r w f (f.pc + 4) []))

/-! Lane instructions: integer, packed and dot (R416 to R432) -/

/-- Sums, products, comparisons and addresses of the integer group (R353, R420, R421, R426): for every type the table gives, the
exact result, clamped with SAT under `.sat` and wrapped otherwise, in the active lanes; no other lane, register, flag or byte of
memory changes. -/
def Obligations.LaneIntegerArithmetic : Prop := ∀ (c : LaneCtl) (r : LR) (l : LI),
  let sat : Prop := r.sub % 2 = 1
  let n := if r.ty = 6 ∨ r.ty = 7 then 2 else 1
  let src (v : View) (a : BitVec 9) (j : Nat) : Int := laneSrc r.ty v a j
  let all (i : Instr) (g : Int → Int → Int) : Prop := r.ty ∈ [0, 1, 6, 7] →
    Lanes i c r.d n 0 (fun v j => intResult r.ty sat (g (src v r.a j) (src v r.b j)))
  let pick (i : Instr) (g : Int → Int → Int) : Prop := r.ty ∈ [0, 1, 6, 7] →
    Lanes i c r.d n 0 (fun v j => intResult r.ty False (g (src v r.a j) (src v r.b j)))
  let abs_ (i : Instr) (g : Int → Int) : Prop := r.ty ∈ [0, 6] → Lanes i c r.d n 0 (fun v j => intResult r.ty sat (g (src v r.a j)))
  let three (i : Instr) (g : Int → Int → Int → Int) : Prop := r.ty ∈ [0, 1] →
    Lanes i c r.d 1 0 (fun v j => intResult r.ty sat (g (src v r.a j) (src v r.b j) (src v r.c j)))
  let imm (i : Instr) (g : Int → Int → Int) : Prop := l.im = 0 →
    Lanes i c l.d 1 0 (fun v j => intResult 0 False (g (v.op l.a j).toInt l.imm.toInt))
  all (.vadd c r) (fun x y => x + y) ∧ all (.vsub c r) (fun x y => x - y) ∧
  pick (.vmin c r) (fun x y => min x y) ∧ pick (.vmax c r) (fun x y => max x y) ∧
  abs_ (.vabs c r) (fun x => (x.natAbs : Int)) ∧ abs_ (.vneg c r) (fun x => -x) ∧
  three (.vadd3 c r) (fun x y z => x + y + z) ∧ three (.vmul c r) (fun x y _ => x * y) ∧ three (.vmad c r) (fun x y z => x * y + z) ∧
  (r.ty ∈ [0, 1] → Lanes (.vmulh c r) c r.d 1 0 (fun v j => one (BitVec.ofInt 32 (src v r.a j * src v r.b j / 2 ^ 32)))) ∧
  (r.ty ∈ [0, 1] → Lanes (.vmadw c r) c r.d 2 0 (fun v j =>
    intResult (r.ty + 6) sat (src v r.a j * src v r.b j + laneSrc (r.ty + 6) v r.c j))) ∧
  imm (.vaddI c l) (fun x y => x + y) ∧ imm (.vsubI c l) (fun x y => x - y) ∧ imm (.vmulI c l) (fun x y => x * y) ∧
  imm (.vminI c l) (fun x y => min x y) ∧ imm (.vmaxI c l) (fun x y => max x y) ∧
  (l.im = 0 → Lanes (.vmadI c l) c l.d 1 0 (fun v j => one (v.op l.a j * l.imm + v.op l.b j))) ∧
  (l.im = 1 → Lanes (.vmadI c l) c l.d 1 0 (fun v j => one (v.op l.a j * v.op l.b j + l.imm))) ∧
  Lanes (.vlea c r) c r.d 2 0 (fun v j =>
    let b : DWord := if r.sub / 8 % 2 = 1 then (v.op r.b j).signExtend 64 else (v.op r.b j).zeroExtend 64
    let y : DWord := v.pair r.a j + b <<< (r.sub % 8)
    ([y.extractLsb' 0 32, y.extractLsb' 32 32], 0))

/-- The bit operations, moves and selections of the integer group (R426, R427, R428): results in the active lanes, no flag. -/
def Sys2Proof.Claims.LaneBitOperations : Prop := ∀ (c : LaneCtl) (r : LR) (l : LI),
  let lr1 (i : Instr) (g : Word → Word → Word → Word → Word) : Prop :=
    Lanes i c r.d 1 0 (fun v j => one (g (v.op r.a j) (v.op r.b j) (v.op r.c j) (v.op r.e j)))
  let li1 (i : Instr) (g : Word → Word → Word) : Prop := l.im = 0 → Lanes i c l.d 1 0 (fun v j => one (g (v.op l.a j) l.imm))
  let sh32 (i : Instr) (g : Word → Nat → Word) : Prop := (r.ty = 0 ∨ r.ty = 1) →
    Lanes i c r.d 1 0 (fun v j => one (g (v.op r.a j) (v.op r.b j).toNat))
  let sh64 (i : Instr) (g : DWord → Nat → DWord) : Prop := (r.ty = 6 ∨ r.ty = 7) →
    Lanes i c r.d 2 0 (fun v j => let y := g (v.pair r.a j) (v.op r.b j).toNat; ([y.extractLsb' 0 32, y.extractLsb' 32 32], 0))
  let lop (lut : Nat) (x y z : Word) (w : Word) : Prop :=
    ∀ k, k < 32 → w.getLsbD k = lut.testBit (4 * (x.getLsbD k).toNat + 2 * (y.getLsbD k).toNat + (z.getLsbD k).toNat)
  lr1 (.vand c r) (fun x y _ _ => x &&& y) ∧ lr1 (.vor c r) (fun x y _ _ => x ||| y) ∧ lr1 (.vxor c r) (fun x y _ _ => x ^^^ y) ∧
  li1 (.vandI c l) (fun x y => x &&& y) ∧ li1 (.vorI c l) (fun x y => x ||| y) ∧ li1 (.vxorI c l) (fun x y => x ^^^ y) ∧
  (∃ g : Word → Word → Word → Word, (∀ x y z, lop (r.modf.toNat % 256) x y z (g x y z)) ∧ lr1 (.vlop3 c r) (fun x y z _ => g x y z)) ∧
  (∃ g : Word → Word → Word → Word, (∀ x y z, lop (l.imm.toNat % 256) x y z (g x y z)) ∧
    Lanes (.vlop3I c l) c l.d 1 0 (fun v j => one (g (v.op l.a j) (v.op l.b j) (v.op l.d j)))) ∧
  sh32 (.vshl c r) (fun x n => x <<< n) ∧ sh64 (.vshl c r) (fun x n => x <<< n) ∧
  sh32 (.vshr c r) (fun x n => x >>> n) ∧ sh64 (.vshr c r) (fun x n => x >>> n) ∧
  sh32 (.vsra c r) (fun x n => x.sshiftRight n) ∧ sh64 (.vsra c r) (fun x n => x.sshiftRight n) ∧
  li1 (.vshlI c l) (fun x n => x <<< n.toNat) ∧ li1 (.vshrI c l) (fun x n => x >>> n.toNat) ∧
  li1 (.vsraI c l) (fun x n => x.sshiftRight n.toNat) ∧
  lr1 (.vshf c r) (fun x y z _ => if r.sub % 2 = 1 then ((x ++ y) <<< (z.toNat % 32)).extractLsb' 32 32
    else ((y ++ x) >>> (z.toNat % 32)).extractLsb' 0 32) ∧
  lr1 (.vbfx c r) (fun x y z _ =>
    let pos := y.toNat % 32
    let len := min z.toNat (32 - pos)
    if len = 0 then 0 else if r.ty % 2 = 0 then (x <<< (32 - pos - len)).sshiftRight (32 - len) else (x <<< (32 - pos - len)) >>> (32 - len)) ∧
  lr1 (.vbfi c r) (fun x y z u =>
    let pos := z.toNat % 32
    let len := min u.toNat (32 - pos)
    let hole : Word := BitVec.ofNat 32 (2 ^ len - 1) <<< pos
    (y &&& ~~~hole) ||| ((x <<< pos) &&& hole)) ∧
  lr1 (.vclz c r) (fun x _ _ _ => BitVec.ofNat 32 (if x = 0 then 32 else 31 - Nat.log2 x.toNat)) ∧
  lr1 (.vpopc c r) (fun x _ _ _ => BitVec.ofNat 32 ((List.range 32).countP (fun j => x.getLsbD j))) ∧
  lr1 (.vbrev c r) (fun x _ _ _ => x.reverse) ∧
  lr1 (.vsel c r) (fun x y z _ => if z = 0 then y else x) ∧
  (l.im = 0 → Lanes (.vselI c l) c l.d 1 0 (fun v j => one (if v.op l.b j = 0 then l.imm else v.op l.a j))) ∧
  (l.im = 1 → Lanes (.vselI c l) c l.d 1 0 (fun v j => one (if l.imm = 0 then v.op l.b j else v.op l.a j))) ∧
  ((r.ty = 0 ∨ r.ty = 1) → lr1 (.vmov c r) (fun x _ _ _ => x)) ∧
  (r.ty = 7 → Lanes (.vmov c r) c r.d 2 0 (fun v j => ([v.op r.a j, v.code (r.a.toNat + 1) j], 0))) ∧
  Lanes (.vmovI c l) c l.d 1 0 (fun _ _ => one l.imm)

/-- The packed and dot instructions (R420, R430 to R432): two halves at once, sums of products of halves, bytes, nibbles and trits,
clamps, and rounding shifts; under `.sat`, in VMAC2 and in VSAT the SAT flag is raised where the clamp changes the value, and VDOTT
raises INV for a reserved trit code, whose trits count as 0. -/
def Sys2Proof.Claims.LanePackedAndDot : Prop := ∀ (c : LaneCtl) (r : LR) (l : LI),
  let sat : Prop := r.sub % 2 = 1
  let half (ty : Nat) (x : Word) (k : Nat) : Int :=
    if ty = 2 then (x.extractLsb' (16 * k) 16).toInt else (x.extractLsb' (16 * k) 16).toNat
  let two (ty : Nat) (st : Prop) (_ : Decidable st) (g : Int → Int → Int) (x y : Word) : List Word × Flags :=
    let h (k : Nat) : Int × Flags := clamped ty st (g (half ty x k) (half ty y k))
    ([BitVec.ofInt 16 (h 1).1 ++ BitVec.ofInt 16 (h 0).1], (h 0).2 ||| (h 1).2)
  let both (i j : Instr) (g : Int → Int → Int) : Prop :=
    (r.ty ∈ [2, 3] → Lanes i c r.d 1 0 (fun v k => two r.ty sat inferInstance g (v.op r.a k) (v.op r.b k))) ∧
    (l.im = 0 → Lanes j c l.d 1 0 (fun v k => two 2 False inferInstance g (v.op l.a k) l.imm))
  let rnd (x : Int) (n : Nat) : Int := if n = 0 then x else (x + 2 ^ (n - 1)) / 2 ^ n
  let shrr (ty : Nat) (x y : Word) : Word :=
    BitVec.ofInt 16 (rnd (half ty x 1) ((y.extractLsb' 16 16).toNat % 16)) ++ BitVec.ofInt 16 (rnd (half ty x 0) ((y.extractLsb' 0 16).toNat % 16))
  let el (w : Nat) (x : Word) (k : Nat) : Int :=
    if r.ty = 4 then (x.extractLsb' (w * k) w).toInt else (x.extractLsb' (w * k) w).toNat
  let acc (x : Word) : Int := if r.ty = 4 then x.toInt else x.toNat
  let trit (m k : Nat) : Int := if 243 ≤ m then 0 else if m / 3 ^ k % 3 = 2 then -1 else (m / 3 ^ k % 3 : Nat)
  both (.vadd2 c r) (.vadd2I c l) (fun x y => x + y) ∧ both (.vsub2 c r) (.vsub2I c l) (fun x y => x - y) ∧
  both (.vmul2 c r) (.vmul2I c l) (fun x y => x * y) ∧
  (r.ty ∈ [2, 3] → Lanes (.vmac2 c r) c r.d 1 0 (fun v j => intResult 0 True
    ((v.op r.c j).toInt + half r.ty (v.op r.a j) 0 * half r.ty (v.op r.b j) 0 + half r.ty (v.op r.a j) 1 * half r.ty (v.op r.b j) 1))) ∧
  (r.ty ∈ [2, 3, 4, 5] → Lanes (.vsat c r) c r.d 1 0 (fun v j =>
    let y := clamped r.ty True (v.op r.a j).toInt
    ([BitVec.ofInt 32 y.1], y.2))) ∧
  (r.ty = 0 → Lanes (.vshrr c r) c r.d 1 0 (fun v j => one (BitVec.ofInt 32 (rnd (v.op r.a j).toInt ((v.op r.b j).toNat % 32))))) ∧
  (r.ty = 1 → Lanes (.vshrr c r) c r.d 1 0 (fun v j => one (BitVec.ofInt 32 (rnd (v.op r.a j).toNat ((v.op r.b j).toNat % 32))))) ∧
  (r.ty ∈ [2, 3] → Lanes (.vshrr c r) c r.d 1 0 (fun v j => one (shrr r.ty (v.op r.a j) (v.op r.b j)))) ∧
  (l.im = 0 → Lanes (.vshrrI c l) c l.d 1 0 (fun v j => one (shrr 2 (v.op l.a j) l.imm))) ∧
  (r.ty ∈ [4, 5] → Lanes (.vdot4 c r) c r.d 1 0 (fun v j => intResult (r.ty - 4) sat (acc (v.op r.c j) +
    ((List.range 4).map (fun k => el 8 (v.op r.a j) k * el 8 (v.op r.b j) k)).sum))) ∧
  (r.ty ∈ [4, 5] → Lanes (.vdot8 c r) c r.d 1 0 (fun v j => intResult (r.ty - 4) sat (acc (v.op r.c j) +
    ((List.range 8).map (fun k => el 4 (v.op r.a j) k * el 4 (v.op r.b j) k)).sum))) ∧
  (r.ty ∈ [4, 5] → Lanes (.vdott c r) c r.d 1 0 (fun v j =>
    let byte (k : Nat) : Nat := ((v.op r.a j).extractLsb' (8 * k) 8).toNat
    let y := intResult 0 sat ((v.op r.c j).toInt + ((List.range 20).map (fun k =>
      trit (byte (k / 5)) (k % 5) * el 4 (v.code (r.b.toNat + k / 8) j) (k % 8))).sum)
    (y.1, y.2 ||| if (List.range 4).any (fun k => decide (243 ≤ byte k)) then fINV else 0)))

/-! Lane instructions: guards, float, convert, special functions (R330 to R342, R422, R429, R433 to R442, R449) -/

/-- Instructions that write a guard (R354, R422, R429, R435, R449): comparisons of integers and of FP32 numbers (a NaN makes only
`.ne` and `.uo` true, a signalling NaN raises INV), functions of three guards, and bits of a register. Guard 0 discards, and
only the active lanes of the named guard change. -/
def Sys2Proof.Claims.LaneGuardWrites : Prop := ∀ (c : LaneCtl) (r : LR) (l : LI),
  let cnd (d : BitVec 9) : Nat := d.toNat / 16 % 8
  let cmp (k : Nat) (x y : Int) : Bool :=
    if k = 0 then decide (x = y) else if k = 1 then decide (x ≠ y) else if k = 2 then decide (x < y) else if k = 3 then decide (x ≤ y)
    else if k = 4 then decide (y < x) else if k = 5 then decide (y ≤ x) else false
  let fcmp (k : Nat) (x y : Word) : Bool × Flags :=
    let a := fp32.decode x.toNat
    let b := fp32.decode y.toNat
    (if isNan a || isNan b then decide (k = 1 ∨ k = 6) else cmp k (cmpVal a b) 0, if anySig a || anySig b then fINV else 0)
  (r.ty ∈ [0, 1, 6, 7] → LaneGuards (.vcmp c r) c (r.d.toNat % 16) (fun v j => (cmp (cnd r.d) (laneSrc r.ty v r.a j) (laneSrc r.ty v r.b j), 0))) ∧
  (l.im = 0 → LaneGuards (.vcmpI c l) c (l.d.toNat % 16) (fun v j => (cmp (cnd l.d) (v.op l.a j).toInt l.imm.toInt, 0))) ∧
  LaneGuards (.vfcmp c r) c (r.d.toNat % 16) (fun v j => fcmp (cnd r.d) (v.op r.a j) (v.op r.b j)) ∧
  (l.im = 0 → LaneGuards (.vfcmpI c l) c (l.d.toNat % 16) (fun v j => fcmp (cnd l.d) (v.op l.a j) l.imm)) ∧
  (r.sub = 0 → LaneGuards (.gmov c r) c r.d.toNat (fun v j => (decide (v.op r.a j ≠ 0), 0))) ∧
  (r.sub = 2 → LaneGuards (.gmov c r) c r.d.toNat (fun v j => ((v.op r.a j).getLsbD (j % 32), 0))) ∧
  (r.sub = 1 → Lanes (.gmov c r) c r.d 1 0 (fun v j => one (if lane (v.w.guard r.a.toNat) j then 0xFFFFFFFF else 0))) ∧
  (∀ (s : State) (q : WaveRef) (w : Wave) (f : Fragment) (x : Running), Lane s q w f x →
    let g (k : BitVec 9) (j : Nat) : Nat := (lane (w.guard k.toNat) j).toNat
    Ends (.glop c r) s (fun t => ∃ w' : Wave, LaneWent s t q w w' f x ∧ w' = { w with guards := w'.guards, frags := w'.frags } ∧
      ∀ k j, j < 96 → lane (w'.guard k) j =
        if k = r.d.toNat ∧ r.d.toNat ≠ 0 ∧ lane (activeMask w x c) j = true then r.modf.toNat.testBit (4 * g r.a j + 2 * g r.b j + g r.c j)
        else lane (w.guard k) j))

/-- The FP32 and 16-bit float instructions (R330, R331, R338, R433 to R436): each computes exactly on the decoded operands and is
rounded once in the result's format; under `.rs` the draw of the lane rounds it, and the random state goes on by one value
per result. -/
def Sys2Proof.Claims.LaneFloatResults : Prop := ∀ (c : LaneCtl) (r : LR) (l : LI),
  let dec (x : Word) : Val := fp32.decode x.toNat
  let res (f : Fmt) (y : ValF) (mode draw : Nat) : List Word × Flags :=
    ([BitVec.ofNat 32 (f.encode y.1 mode 1 draw).bits], (f.encode y.1 mode 1 draw).flags ||| y.2)
  let draw (v : View) (j k : Nat) : Nat := draw24 v.w.rngs j k
  let n := if r.rnd = 4 then 1 else 0
  let three (i : Instr) (g : Val → Val → Val → ValF) : Prop := Lanes i c r.d 1 n (fun v j =>
    res fp32 (g (dec (v.op r.a j)) (dec (v.op r.b j)) (dec (v.op r.c j))) r.rnd (draw v j 0))
  let imm (i : Instr) (g : Val → Val → ValF) : Prop := l.im = 0 → Lanes i c l.d 1 0 (fun v j => res fp32 (g (dec (v.op l.a j)) (dec l.imm)) 0 0)
  let plain (i : Instr) (g : Val → Val → ValF) : Prop := Lanes i c r.d 1 0 (fun v j => res fp32 (g (dec (v.op r.a j)) (dec (v.op r.b j))) 0 0)
  let halves (i : Instr) (g : Val → Val → Val → ValF) : Prop := ∀ f, (r.ty = 9 ∧ f = bf16 ∨ r.ty = 10 ∧ f = fp16) →
    Lanes i c r.d 1 (2 * n) (fun v j =>
      let h (k : Nat) : Val × Val × Val := (f.decode ((v.op r.a j).extractLsb' (16 * k) 16).toNat,
        f.decode ((v.op r.b j).extractLsb' (16 * k) 16).toNat, f.decode ((v.op r.c j).extractLsb' (16 * k) 16).toNat)
      let y (k : Nat) : Enc := f.encode (g (h k).1 (h k).2.1 (h k).2.2).1 r.rnd 1 (draw v j k)
      let e (k : Nat) : Flags := (y k).flags ||| (g (h k).1 (h k).2.1 (h k).2.2).2
      ([BitVec.ofNat 16 (y 1).bits ++ BitVec.ofNat 16 (y 0).bits], e 0 ||| e 1))
  let cls (x : Word) : Word := match dec x with
    | .nan sig => if sig then 0x100 else 0x200
    | .inf neg => if neg then 1 else 0x80
    | .fin neg m _ => if m = 0 then (if neg then 8 else 0x10) else if m < 2 ^ 23 then (if neg then 4 else 0x20) else if neg then 2 else 0x40
  let integral (x : Word) : List Word × Flags := match dec x with
    | .nan sig => ([0x7FC00000], if sig then fINV else 0)
    | .inf _ => ([x], 0)
    | .fin neg m e => if m = 0 then ([x], 0) else
      ([BitVec.ofNat 32 (fp32.encode (.fin neg (roundTo 0 neg m e r.rnd 0).1 0) 0 1 0).bits], if (roundTo 0 neg m e r.rnd 0).2 then fINX else 0)
  three (.vfadd c r) (fun a b _ => vAdd r.rnd a b) ∧ three (.vfsub c r) (fun a b _ => vAdd r.rnd a b.negate) ∧
  three (.vfmul c r) (fun a b _ => vMul a b) ∧ three (.vfma c r) (fun a b d => vFma r.rnd a b d) ∧
  imm (.vfaddI c l) (vAdd 0) ∧ imm (.vfsubI c l) (fun a b => vAdd 0 a b.negate) ∧ imm (.vfmulI c l) vMul ∧
  imm (.vfminI c l) (vMinMax false) ∧ imm (.vfmaxI c l) (vMinMax true) ∧
  (l.im = 0 → Lanes (.vfmaI c l) c l.d 1 0 (fun v j => res fp32 (vFma 0 (dec (v.op l.a j)) (dec l.imm) (dec (v.op l.b j))) 0 0)) ∧
  (l.im = 1 → Lanes (.vfmaI c l) c l.d 1 0 (fun v j => res fp32 (vFma 0 (dec (v.op l.a j)) (dec (v.op l.b j)) (dec l.imm)) 0 0)) ∧
  plain (.vfmin c r) (vMinMax false) ∧ plain (.vfmax c r) (vMinMax true) ∧ plain (.vfabs c r) (fun a _ => vAbs a) ∧
  Lanes (.vfclass c r) c r.d 1 0 (fun v j => one (cls (v.op r.a j))) ∧
  Lanes (.vfrnd c r) c r.d 1 0 (fun v j => integral (v.op r.a j)) ∧
  halves (.vhfma2 c r) (fun a b d => vFma r.rnd a b d) ∧ halves (.vhadd2 c r) (fun a b _ => vAdd r.rnd a b) ∧
  halves (.vhmul2 c r) (fun a b _ => vMul a b) ∧
  Lanes (.vrand c r) c r.d 1 1 (fun v j => one ((splitmix64 (v.w.rngs + BitVec.ofNat 64 j * golden)).extractLsb' 32 32))

/-- The exact values behind the float instructions (R321, R322, R330, R331, R334, R338), as rational numbers: a sum, a product and a fused
multiply-add are exact before their one rounding; rounding takes the multiple of the grid's step that the mode names, or under `.rs` the
one the draw names; the encoding is the number that decodes to it, with its sign, INX where it is inexact and UNF below the normal
numbers, or the overflow of its mode; NaN, infinity and INV come as the rule lists them. -/
def Obligations.ExactFloats : Prop :=
  let mag (m : Nat) (e : Int) : Rat := (m : Rat) * (2 : Rat) ^ e
  let sg (n : Bool) (x : Rat) : Rat := if n = true then -x else x
  let inv (b : Bool) : Flags := if b = true then fINV else 0
  (∀ mode n m e n' m' e', ∃ k p q, vAdd mode (.fin n m e) (.fin n' m' e') = (.fin k p q, 0) ∧
    sg k (mag p q) = sg n (mag m e) + sg n' (mag m' e') ∧ (p = 0 → k = if n = n' then n else decide (mode = 3))) ∧
  (∀ n m e n' m' e', ∃ p q, vMul (.fin n m e) (.fin n' m' e') = (.fin (n != n') p q, 0) ∧ mag p q = mag m e * mag m' e') ∧
  (∀ mode n m e n' m' e' n2 m2 e2, ∃ k p q, vFma mode (.fin n m e) (.fin n' m' e') (.fin n2 m2 e2) = (.fin k p q, 0) ∧
    sg k (mag p q) = sg n (mag m e) * sg n' (mag m' e') + sg n2 (mag m2 e2) ∧
    (p = 0 → k = if (n != n') = n2 then n2 else decide (mode = 3))) ∧
  (∀ mode n n' m e, vAdd mode (.inf n) (.fin n' m e) = (.inf n, 0) ∧ vAdd mode (.fin n' m e) (.inf n) = (.inf n, 0) ∧
    vAdd mode (.inf n) (.inf n') = (if n = n' then (.inf n, 0) else (.nan false, fINV)) ∧ vMul (.inf n) (.inf n') = (.inf (n != n'), 0) ∧
    vMul (.inf n) (.fin n' m e) = (if m = 0 then (.nan false, fINV) else (.inf (n != n'), 0)) ∧
    vMul (.fin n' m e) (.inf n) = (if m = 0 then (.nan false, fINV) else (.inf (n != n'), 0))) ∧
  (∀ mode sig b, vAdd mode (.nan sig) b = (.nan false, inv (sig || anySig b)) ∧ vAdd mode b (.nan sig) = (.nan false, inv (sig || anySig b)) ∧
    vMul (.nan sig) b = (.nan false, inv (sig || anySig b)) ∧ vMul b (.nan sig) = (.nan false, inv (sig || anySig b))) ∧
  (∀ f : Fmt, f = fp32 ∨ f = bf16 ∨ f = fp16 → ∀ mode draw : Nat, mode ≤ 4 →
    (∀ sig, f.encode (.nan sig) mode 1 draw = ⟨f.qnan, inv sig, false⟩) ∧
    (∀ n, ∃ b, f.encode (.inf n) mode 1 draw = ⟨b, 0, false⟩ ∧ f.decode b = .inf n) ∧
    (∀ n e, ∃ b e', f.encode (.fin n 0 e) mode 1 draw = ⟨b, 0, false⟩ ∧ f.decode b = .fin n 0 e') ∧
    (∀ n m e k, m ≠ 0 → (2 : Rat) ^ (k : Int) ≤ mag m e → mag m e < (2 : Rat) ^ (k + 1) →
      let v := mag m e
      let emin : Int := 1 - (f.bias : Int)
      let step : Rat := (2 : Rat) ^ (max k emin - f.fb)
      let r := f.encode (.fin n m e) mode 1 draw
      ∃ i lo : Nat, (lo : Rat) * step ≤ v ∧ v < ((lo : Rat) + 1) * step ∧ ((lo : Rat) * step = v → i = lo) ∧
        ((lo : Rat) * step < v →
          (mode = 0 → i = if v - (lo : Rat) * step < step / 2 ∨ v - (lo : Rat) * step = step / 2 ∧ lo % 2 = 0 then lo else lo + 1) ∧
          (mode = 1 → i = lo) ∧ (mode = 2 → i = if n = true then lo else lo + 1) ∧ (mode = 3 → i = if n = true then lo + 1 else lo) ∧
          (mode = 4 → n = false → ∃ c : Nat, (c : Rat) ≤ 2 ^ 24 * ((v - (lo : Rat) * step) / step) ∧ 2 ^ 24 * ((v - (lo : Rat) * step) / step) < (c : Rat) + 1 ∧
            i = if draw < c then lo + 1 else lo) ∧
          (mode = 4 → n = true → ∃ c : Nat, (c : Rat) ≤ 2 ^ 24 * ((((lo : Rat) + 1) * step - v) / step) ∧
            2 ^ 24 * ((((lo : Rat) + 1) * step - v) / step) < (c : Rat) + 1 ∧ i = if draw < c then lo else lo + 1)) ∧
        ((i : Rat) * step < (2 : Rat) ^ ((f.bias : Int) + 1) → ∃ m' e', f.decode r.bits = .fin n m' e' ∧ mag m' e' = (i : Rat) * step ∧ r.trap = false ∧
          r.flags = if (i : Rat) * step = v then 0 else if k < emin then fINX ||| fUNF else fINX) ∧
        ((2 : Rat) ^ ((f.bias : Int) + 1) ≤ (i : Rat) * step → r.trap = false ∧ r.flags = fOVF ||| fINX ∧
          if mode = 1 ∨ mode = 3 ∧ n = false ∨ mode = 2 ∧ n = true then r.bits = f.maxb + (if n = true then 2 ^ (f.w - 1) else 0) else f.decode r.bits = .inf n)))

/-- The conversions (R334 to R337, R437 to R442): each element is encoded from the decoded source under the rounding and the policy
and placed as R438 says; with no trap all active lanes are written, `.ax` folds the sources, and `.rs` draws. Where elements trap
under `.trp`, the trapping lanes write and raise nothing and take the CVTOVF trap of R301, the others complete. -/
def Obligations.LaneConversions : Prop := ∀ (c : LaneCtl) (r : LR),
  let conv (i : Instr) (n draws : Nat) (ax : View → Nat → List Val) (out : View → Nat → (List Word × Flags) × Bool) : Prop :=
    ∀ (s : State) (q : WaveRef) (w : Wave) (f : Fragment) (x : Running), Lane s q w f x →
      let act := activeMask w x c
      let v := (s.view w x).1
      let traps (j : Nat) : Prop := lane act j = true ∧ (out v j).2 = true
      let after_ (on : LaneMask) (w' : Wave) : Prop := LanePut w w' on r.d.toNat n (fun j => (out v j).1) ∧
        w' = { w with
          vreg := w'.vreg, vstat := w'.vstat, frags := w'.frags
          xmax := (w.foldMax (if r.ax then (lanesOf on).flatMap (ax v) else [])).xmax
          rngs := if act = 0 then w.rngs else w.rngs + BitVec.ofNat 64 (96 * (if r.rnd = 4 then draws else 0)) * golden }
      ((∀ j, ¬ traps j) → Ends i s (fun t => ∃ w' : Wave, LaneWent s t q w w' f x ∧ after_ act w')) ∧
      (w.handler = false → w.inTxn f.id = false → s.splitFree q.core = true → (∃ j, traps j) → ∀ on : LaneMask,
        (∀ j, lane on j = true ↔ lane act j = true ∧ ¬ traps j) →
        Ends i s (fun t => ∃ w' : Wave, after_ on w' ∧ w'.frags = w.frags ∧ t =
          ((({ s with free := s.free + 96 * w.awaited.length } : State).setWave q w').laneTrap q f.id 2 (act &&& ~~~on) x x.addr x.rest
            (some x)).laneNext q f.id))
  let enc (v : View) (j k : Nat) (y : Val) : Enc := encodeTy r.ty y r.rnd r.pol (draw24 v.w.rngs j k)
  let place (b : Nat) : List Word :=
    if r.ty = 2 then [(BitVec.ofNat 16 b).signExtend 32] else if r.ty = 4 then [(BitVec.ofNat 8 b).signExtend 32]
    else if r.ty = 6 ∨ r.ty = 7 then [BitVec.ofNat 32 b, BitVec.ofNat 32 (b / 2 ^ 32)] else [BitVec.ofNat 32 b]
  let all (l : List Enc) : Flags × Bool := (l.foldr (fun e a => e.flags ||| a) 0, l.any (fun e => e.trap))
  let scaled (y : Val) (b : Nat) (up : Bool) : Val × Flags :=
    if b = 255 then (.nan false, fINV) else (y.scale (if up then (b : Int) - 127 else (127 : Int) - b), 0)
  (r.ty < 16 → r.sub < 16 → conv (.vcvt c r) (if r.ty = 6 ∨ r.ty = 7 then 2 else 1) 1
    (fun v j => [decodeTy r.sub (if r.sub = 6 ∨ r.sub = 7 then (v.pair r.a j).toNat else (v.op r.a j).toNat)])
    (fun v j =>
      let e := enc v j 0 (decodeTy r.sub (if r.sub = 6 ∨ r.sub = 7 then (v.pair r.a j).toNat else (v.op r.a j).toNat))
      ((place e.bits, e.flags), e.trap))) ∧
  (r.ty < 16 → r.ty ∉ [0, 1, 6, 7, 8] →
    let src (v : View) (j : Nat) : List Val :=
      (if tyWidth r.ty = 16 then [r.a, r.b] else [r.a, r.b, r.c, r.e]).map (fun o => decodeTy r.sub (v.op o j).toNat)
    conv (.vpack c r) 1 (if tyWidth r.ty = 16 then 2 else 4) src (fun v j =>
      let l := (src v j).mapIdx (fun k y => enc v j k y)
      (([BitVec.ofNat 32 (l.mapIdx (fun k e => e.bits % 2 ^ tyWidth r.ty * 2 ^ (tyWidth r.ty * k))).sum], (all l).1), (all l).2))) ∧
  (r.ty = 16 → r.rnd = 0 → r.ax = false → conv (.vpack c r) 1 0 (fun _ _ => []) (fun v j =>
    let b (k : Nat) : Int := if k < 4 then ((v.op r.a j).extractLsb' (8 * k) 8).toInt else ((v.op r.b j).extractLsb' 0 8).toInt
    let far := (List.range 5).any (fun k => decide (b k < -1 ∨ 1 < b k))
    (([BitVec.ofNat 32 ((List.range 5).map (fun k => (if b k = 0 then 0 else if 0 < b k then 1 else 2) * 3 ^ k)).sum],
      if far then fSAT else 0), far && decide (r.pol = 3)))) ∧
  (r.sub ∈ [2, 3, 4, 5, 9, 10, 11, 12, 13, 14, 15] → r.ty ∈ [0, 1, 8, 9, 10] →
    let n := if tyWidth r.sub = 16 then 2 else 4
    let src (v : View) (j : Nat) : List Val :=
      (List.range n).map (fun k => decodeTy r.sub ((v.op r.a j).toNat / 2 ^ (tyWidth r.sub * k) % 2 ^ tyWidth r.sub))
    conv (.vunpk c r) n n src (fun v j =>
      let l := (src v j).mapIdx (fun k y => enc v j k y)
      ((l.map (fun e => BitVec.ofNat 32 e.bits), (all l).1), (all l).2))) ∧
  (r.sub = 16 → r.rnd = 0 → r.ax = false → conv (.vunpk c r) 2 0 (fun _ _ => []) (fun v j =>
    let m := ((v.op r.a j).extractLsb' 0 8).toNat
    let t (k : Nat) : BitVec 8 := if 243 ≤ m ∨ m / 3 ^ k % 3 = 0 then 0 else if m / 3 ^ k % 3 = 1 then 1 else 0xFF
    (([t 3 ++ t 2 ++ t 1 ++ t 0, (t 4).zeroExtend 32], if 243 ≤ m then fINV else 0), false))) ∧
  (r.ty ∈ [4, 5, 11, 12, 13, 14, 15] → conv (.vqnt c r) 1 1 (fun v j => [decodeTy r.sub (v.op r.a j).toNat]) (fun v j =>
    let y := scaled (decodeTy r.sub (v.op r.a j).toNat) ((v.op r.b j).toNat % 256) false
    let e := enc v j 0 y.1
    ((place e.bits, y.2 ||| e.flags), e.trap))) ∧
  (r.ty ∈ [8, 9, 10] → r.rnd ≤ 3 → r.ax = false → conv (.vdqnt c r) 1 0 (fun _ _ => []) (fun v j =>
    let y := scaled (decodeTy r.sub (v.op r.a j).toNat) ((v.op r.b j).toNat % 256) true
    let e := enc v j 0 y.1
    ((place e.bits, y.2 ||| e.flags), e.trap)))

/-! Long-latency and cross-lane instructions (R240, R341, R417, R423, R443 to R448, R455) -/

/-- VFDIV, VFSQRT, the special functions and VPUT (R240, R342, R423, R448) at issue: an instruction whose set-flag stands at 63 waits;
else it goes on at once, its flag rises by one, and one operation more is under way that holds the result of every active lane
(VPUT: the lowest active lane's A, or 0) and the flags; no register, sticky flag or byte of memory has changed yet. -/
def Sys2Proof.Claims.LongLatencyIssues : Prop := ∀ (c : LaneCtl) (r : LR) (s : State) (q : WaveRef) (w : Wave) (f : Fragment) (x : Running),
  Lane s q w f x →
  let act := activeMask w x c
  let v := (s.view w x).1
  let issued (t : State) (holds : Op → Prop) : Prop := ∃ (w' : Wave) (o : Op), t.wave? q = some w' ∧
    w' = { w with ops := w.ops ++ [o], flags := w'.flags, frags := w'.frags } ∧ w'.frag? f.id = some { f with run := x.rest, waitSince := none } ∧
    (∀ k, k ≠ f.id → w'.frag? k = w.frag? k) ∧
    (∀ k, tget 0 w'.flags k = tget 0 w.flags k + if k = c.sf.toNat ∧ k ≤ 11 then 1 else 0) ∧
    o.id = s.nextId ∧ o.frag = f.id ∧ o.lanes = act ∧ holds o ∧ Instr.longLatencyResult q o.id ∈ t.queue ∧ t.mem = s.mem ∧
    ∀ p, p ≠ q → t.wave? p = s.wave? p
  let long (i : Instr) (out : Nat → List Word × Flags) : Prop :=
    (w.flagFull c = true → Ends i s (fun t => t = s.wait q f.id)) ∧
    (w.flagFull c = false → Ends i s (fun t => issued t (fun o => o.kind = .value ∧ o.dst = some r.d.toNat ∧
      (∀ j, lane act j = true → o.result.getD j 0 = (out j).1.getD 0 0) ∧
      ∀ k, o.raised.getLsbD k = (lanesOf act).any (fun j => (out j).2.getLsbD k))))
  let res (y : ValF) : List Word × Flags := ([BitVec.ofNat 32 (fp32.encode y.1 r.rnd 1 0).bits], (fp32.encode y.1 r.rnd 1 0).flags ||| y.2)
  let dec (z : BitVec 9) (j : Nat) : Val := fp32.decode (v.op z j).toNat
  let fn (g : Nat → Nat × Flags) (j : Nat) : List Word × Flags := ([BitVec.ofNat 32 (g (v.op r.a j).toNat).1], (g (v.op r.a j).toNat).2)
  long (.vfdiv c r) (fun j => res (vDiv (dec r.a j) (dec r.b j))) ∧ long (.vfsqrt c r) (fun j => res (vSqrt (dec r.a j))) ∧
  long (.vfrcp c r) (fn frcp) ∧ long (.vfrsq c r) (fn frsq) ∧ long (.vfex2 c r) (fn fex2) ∧ long (.vflg2 c r) (fn flg2) ∧
  long (.vfsin c r) (fn fsin) ∧ long (.vfcos c r) (fn fcos) ∧ long (.vftanh c r) (fn ftanh) ∧
  (w.flagFull c = true → Ends (.vput c r) s (fun t => t = s.wait q f.id)) ∧
  (w.flagFull c = false → Ends (.vput c r) s (fun t => issued t (fun o => o.kind = .put (r.sub % 8) ∧ o.dst = none ∧
    o.result = [match (lanesOf act).head? with | some j => v.op r.a j | none => 0])))

/-- LONG_LATENCY_RESULT of a computation and of VPUT (R240, R448): the lanes held at issue take their results, the flags are ORed into
the sticky flags, the exchange slot takes its word, the set-flag falls by one and the operation is over; nothing else changes. -/
def Sys2Proof.Claims.LongLatencyResults : Prop := ∀ (s : State) (q : WaveRef) (w : Wave) (id : Nat) (o : Op),
  s.wave? q = some w → w.ops.find? (fun p => p.id == id) = some o → (∃ g ∈ w.frags, g.st ≠ .phase) →
  let ended (t : State) (w' : Wave) : Prop := t = s.setWave q w' ∧ t.wave? q = some w' ∧ w'.ops = w.ops.filter (fun p => p.id != id) ∧
    (∀ k, tget 0 w'.flags k = if o.flag = some k then tget 0 w.flags k - 1 else tget 0 w.flags k)
  (∀ d, o.kind = .value → o.dst = some d → Ends (.longLatencyResult q id) s (fun t => ∃ w' : Wave, ended t w' ∧
    w' = { w with vreg := w'.vreg, vstat := w.vstat ||| o.raised.zeroExtend 32, ops := w'.ops, flags := w'.flags, pendS := w'.pendS } ∧
    ∀ reg j, j < 96 → w'.vget reg j = if reg = d ∧ lane o.lanes j = true then o.result.getD j 0 else w.vget reg j)) ∧
  (∀ k, o.kind = .put k → Ends (.longLatencyResult q id) s (fun t => ∃ w' : Wave, ended t w' ∧
    w' = { w with xslot := w'.xslot, ops := w'.ops, flags := w'.flags, pendS := w'.pendS } ∧
    ∀ j, tfind w'.xslot j = if j = k then some (o.result.getD 0 0) else tfind w.xslot j))

/-- The cross-lane instructions (R341, R417, R443 to R447): slides of elements, shuffles and broadcasts read every lane, active or not;
scans and reductions take inactive lanes as the operator's identity and run the fixed order of R341, and write a NaN as the canonical
one (R322); VBALLOT gives every active
lane the three words of the mask and its population count. -/
def Obligations.LaneCrossLane : Prop := ∀ (c : LaneCtl) (r : LR) (l : LI),
  let el (w : Nat) (x : Word) (k : Nat) : Nat := x.toNat / 2 ^ (w * k) % 2 ^ w
  let slide (w : Nat) (n : Int) (a b : Nat → Word) (j : Nat) : List Word × Flags :=
    let per := 32 / w
    let from_ (k : Nat) : Nat :=
      let e : Int := (j * per + k : Nat) - n
      if 0 ≤ e ∧ e < (96 * per : Nat) then el w (a (e.toNat / per)) (e.toNat % per) else el w (b j) k
    one (BitVec.ofNat 32 ((List.range per).map (fun k => from_ k * 2 ^ (w * k))).sum)
  (∀ w, (w = 32 ∧ (r.ty = 0 ∨ r.ty = 1) ∨ w = 16 ∧ r.ty = 3 ∨ w = 8 ∧ r.ty = 5) →
    Lanes (.vslide c r) c r.d 1 0 (fun v j => slide w (v.op r.b 0).toInt (v.op r.a) (v.op r.c) j)) ∧
  (l.im = 0 → Lanes (.vslideI c l) c l.d 1 0 (fun v j => slide 32 l.imm.toInt (v.op l.a) (v.op l.b) j)) ∧
  (l.im = 1 → Lanes (.vslideI c l) c l.d 1 0 (fun v j => slide 32 (v.op l.b 0).toInt (v.op l.a) (fun _ => l.imm) j)) ∧
  Lanes (.vshfl c r) c r.d 1 0 (fun v j => one (if (v.op r.b j).toNat < 96 then v.op r.a (v.op r.b j).toNat else v.op r.c j)) ∧
  Lanes (.vbcast c r) c r.d 1 0 (fun v _ => one (v.op r.a ((v.op r.b 0).toNat % 96))) ∧
  Lanes (.vbcastI c l) c l.d 1 0 (fun v _ => one (v.op l.a (l.imm.toNat % 96))) ∧
  (∀ (s : State) (q : WaveRef) (w : Wave) (f : Fragment) (x : Running), Lane s q w f x →
    let act := activeMask w x c
    let v := (s.view w x).1
    let op (y z : Nat) : Nat × Flags := scanOp r.ty (r.sub % 4) r.rnd y z
    let y := ksScan op ((List.range 96).map (fun j => if lane act j then (v.op r.a j).toNat else scanIdentity r.ty (r.sub % 4)))
    let out (p j : Nat) : Nat × Flags := if r.sub / 4 % 2 = 1 then op (v.op r.c j).toNat p
      else (if r.ty = 8 ∧ isNan (fp32.decode p) = true then 0x7FC00000 else p, 0)
    let scan (i : Instr) (p : Nat → Nat) : Prop := Ends i s (fun t => ∃ w' : Wave, LaneWent s t q w w' f x ∧
      w' = { w with vreg := w'.vreg, vstat := w'.vstat, frags := w'.frags } ∧
      (∀ reg j, j < 96 → w'.vget reg j = if reg = r.d.toNat ∧ lane act j = true then BitVec.ofNat 32 (out (p j) j).1 else w.vget reg j) ∧
      withFlags w.vstat act (fun j => (out (p j) j).2 ||| y.2) w'.vstat)
    let test (j : Nat) : Bool := if 16 ≤ r.sub then lane (w.guard (r.sub % 16)) j else decide (v.op r.a j ≠ 0)
    let voted := (List.range 96).filter (fun j => lane act j && test j)
    scan (.vred c r) (fun _ => y.1.getD 95 0) ∧
    (r.sub / 8 % 2 = 0 → scan (.vscan c r) (fun j => y.1.getD j 0)) ∧
    (r.sub / 8 % 2 = 1 → scan (.vscan c r) (fun j => if j = 0 then scanIdentity r.ty (r.sub % 4) else y.1.getD (j - 1) 0)) ∧
    Ends (.vballot c r) s (fun t => ∃ w' : Wave, LaneWent s t q w w' f x ∧ w' = { w with vreg := w'.vreg, frags := w'.frags } ∧
      ∀ reg j, j < 96 → (lane act j = false → w'.vget reg j = w.vget reg j) ∧ (lane act j = true →
        (∀ k, k < 3 → ∀ b, b < 32 → (w'.vget (r.d.toNat + k) j).getLsbD b = decide (32 * k + b ∈ voted)) ∧
        w'.vget (r.d.toNat + 3) j = BitVec.ofNat 32 voted.length ∧
        (reg < r.d.toNat ∨ r.d.toNat + 4 ≤ reg → w'.vget reg j = w.vget reg j))))

/-! Lane memory, atomics, prefetch, trap support and clauses (R238, R299 to R306, R355 to R358, R452 to R465) -/

/-- VLD, VST, VATOM, VATOM.cas, VREDM and VPREF (R240, R307, R355, R417, R452 to R462): without an active lane nothing is accessed;
with the flag at 63, behind an acquire, or without room in the replay array or among the core's memory requests the instruction waits; else one operation is issued
whose part for each active lane, in ascending order, has the lane's address pair plus the signed offset (an atomic's low bits
ignored) and its data, and the clause goes on. Nothing but fragment, flag and operation list changes, and no byte of memory. -/
def Obligations.LaneMemoryIssues : Prop := ∀ (c : LaneCtl) (m : LM) (r : LR) (s : State) (q : WaveRef) (w : Wave) (f : Fragment) (x : Running),
  Lane s q w f x →
  let act := activeMask w x c
  let v := (s.view w x).1
  let addr (a : BitVec 9) (off : BitVec 18) (j : Nat) : DWord := v.pair a j + off.signExtend 64
  let data (n : Nat) (o : BitVec 9) (j : Nat) : List Byte :=
    if n ≤ 4 then leBytes n (v.op o j).toNat else if n = 8 then leBytes 8 (v.pair o j).toNat
    else leBytes 4 (v.op o j).toNat ++ leBytes 4 (v.code (o.toNat + 1) j).toNat ++ leBytes 4 (v.code (o.toNat + 2) j).toNat ++
      leBytes 4 (v.code (o.toNat + 3) j).toNat
  let down (a : DWord) (n : Nat) : DWord := a &&& ~~~(BitVec.ofNat 64 (n - 1))
  let room : Prop := w.flagFull c = false ∧ s.memHeld q w ((32 + 12 * (lanesOf act).length + 31) / 32 * 32) (lanesOf act).length = false
  let access (i : Instr) (modf : BitVec 16) (k : OpKind) (n : Nat) (dst : Option Nat) (va : Nat → DWord) (d e : Nat → List Byte) : Prop :=
    (act = 0 → Ends i s (fun t => t = s.laneNext q f.id)) ∧
    (act ≠ 0 → ¬ room → Ends i s (fun t => t = s.wait q f.id)) ∧
    (act ≠ 0 → room →
      let parts := (lanesOf act).map (fun j => (⟨j, va j, [], d j, e j, none⟩ : Part))
      let txn : Bool := w.inTxn f.id && x.cl.txn
      let o0 : Op := { laneOperation f.id k n dst c act with
        id := s.nextId, space := spaceOf modf, sx := sxOf modf, aop := aop modf, parts := parts, txn := txn
        ord := if txn then 0 else ordOf modf, scope := if txn then 0 else scopeOf modf, hint := if txn then 0 else c.ch.toNat }
      let p := (({ s with free := s.free + 96 * w.awaited.length, nextId := s.nextId + 1 } : State).resolveParts q w o0 parts []).1
      (∀ y ∈ p, y.fault = none) → Ends i s (fun t => ∃ (w' : Wave) (o : Op), t.wave? q = some w' ∧
        w' = { w with ops := w.ops ++ [o], flags := w'.flags, frags := w'.frags } ∧
        w'.frag? f.id = some { f with run := x.rest, waitSince := none } ∧ (∀ j, j ≠ f.id → w'.frag? j = w.frag? j) ∧
        (∀ j, tget 0 w'.flags j = tget 0 w.flags j + if j = c.sf.toNat ∧ j ≤ 11 then 1 else 0) ∧
        o.id = s.nextId ∧ o.frag = f.id ∧ o.scalar = false ∧ o.kind = k ∧ o.size = n ∧ o.dst = dst ∧ o.parts = p ∧
        (k = .atomic ∨ k = .reduce → o.aop = modf.toNat % 16) ∧ (k = .load → o.sx = decide (modf.toNat / 4096 % 2 = 1)) ∧
        o.flag = (if c.sf.toNat ≤ 11 then some c.sf.toNat else none) ∧ o.txn = txn ∧
        o.ord = (if txn then 0 else modf.toNat / 256 % 4) ∧ o.scope = (if txn then 0 else modf.toNat / 32 % 8) ∧
        Instr.longLatencyResult q o.id ∈ t.queue ∧ t.mem = s.mem ∧ ∀ y, y ≠ q → t.wave? y = s.wave? y))
  let n := 2 ^ (m.modf.toNat / 8192)
  let nr := 2 ^ (r.modf.toNat / 8192)
  access (.vld c m) m.modf .load n (some m.d.toNat) (addr m.a m.off) (fun _ => []) (fun _ => []) ∧
  access (.vst c m) m.modf .store n none (addr m.a m.off) (data n m.b) (fun _ => []) ∧
  access (.vatom c m) m.modf .atomic n (some m.d.toNat) (fun j => down (addr m.a m.off j) n) (data n m.b) (fun _ => []) ∧
  access (.vatomCas c r) r.modf .atomic nr (some r.d.toNat) (fun j => down (addr r.a 0 j) nr) (data nr r.b) (data nr r.c) ∧
  access (.vredm c m) m.modf .reduce n none (fun j => down (addr m.a m.off j) n) (data n m.b) (fun _ => []) ∧
  (act ≠ 0 → s.memFull q.core 0 (lanesOf act).length = true → Ends (.vpref c m) s (fun t => t = s.wait q f.id)) ∧
  (act = 0 ∨ s.memFull q.core 0 (lanesOf act).length = false → Ends (.vpref c m) s (fun t => t.mem = s.mem ∧ t.pend = s.pend ∧ ∃ w' : Wave, t.wave? q = some w' ∧ w' = { w with frags := w'.frags } ∧
    w'.frag? f.id = some { f with run := x.rest, waitSince := none } ∧ ∀ y, y ≠ q → t.wave? y = s.wave? y))

/-- LONG_LATENCY_RESULT of a lane access to scratchpad or barrier bytes, outside a transaction (R266, R269, R270, R279, R453, R455,
R457 to R461): a load writes each lane's registers and no byte of memory; where lanes store to the same bytes the highest lane's
remain; atomics and reductions at different places each leave the operation's result, and atomics return the old value; the
set-flag falls by one and the operation is over. -/
def Sys2Proof.Claims.LaneCoreReturns : Prop := ∀ (s : State) (q : WaveRef) (w : Wave) (id : Nat) (o : Op),
  s.wave? q = some w → w.ops.find? (fun p => p.id == id) = some o → (∃ g ∈ w.frags, g.st ≠ .phase) → o.scalar = false → o.txn = false → w.txn = none →
  o.ord = 0 → w.mayPerform o = true → Memory.wf s.mem = true → (o.parts.map (fun p => p.lane)).Nodup → (∀ p ∈ o.parts, p.lane < 96) →
  (∀ p ∈ o.parts, p.keys.length = o.size ∧ ∀ k ∈ p.keys, onCore k = true) → o.size ∈ [1, 2, 4, 8, 16] →
  let words (l : List Byte) : List Word :=
    if o.size < 4 then [if o.sx then BitVec.ofInt 32 (BitVec.ofNat (8 * o.size) (leNat l)).toInt else BitVec.ofNat 32 (leNat l)]
    else (List.range (o.size / 4)).map (fun k => BitVec.ofNat 32 (leNat l / 2 ^ (32 * k)))
  let ended (t : State) (w' : Wave) : Prop := t.wave? q = some w' ∧ (∀ p ∈ w'.ops, p.id ≠ id) ∧
    (∀ k, tget 0 w'.flags k = if o.flag = some k then tget 0 w.flags k - 1 else tget 0 w.flags k) ∧
    w'.sreg = w.sreg ∧ w'.guards = w.guards ∧ w'.vstat = w.vstat
  let put (w' : Wave) : Prop := ∀ d, o.dst = some d → ∀ reg j, j < 96 → w'.vget reg j =
    match o.parts.find? (fun p => p.lane == j) with
    | some p => if d ≤ reg ∧ reg < d + (o.size + 3) / 4 then (words (s.peek p.keys)).getD (reg - d) 0 else w.vget reg j
    | none => w.vget reg j
  (o.kind = .load → o.dst.isSome = true → Ends (.longLatencyResult q id) s (fun t => t.mem = s.mem ∧ ∃ w' : Wave, ended t w' ∧ put w')) ∧
  (o.kind = .store → (∀ p ∈ o.parts, p.data.length = o.size) → Ends (.longLatencyResult q id) s (fun t => (∃ w' : Wave, ended t w' ∧ w'.vreg = w.vreg) ∧
    ∀ k, Memory.read t.mem k = match ((o.parts.flatMap (fun p => p.keys.zip p.data)).reverse).find? (fun b => b.1 == k) with
      | some b => b.2
      | none => Memory.read s.mem k)) ∧
  (o.kind = .atomic ∨ o.kind = .reduce → o.size = 4 ∨ o.size = 8 → o.aop ≠ 9 → (s.core q.core).wcb = [] →
    (o.parts.flatMap (fun p => p.keys)).Nodup → o.kind = .atomic ∧ o.dst.isSome = true ∨ o.kind = .reduce ∧ o.dst = none →
    Ends (.longLatencyResult q id) s (fun t => (∃ w' : Wave, ended t w' ∧ put w') ∧
      (∀ p ∈ o.parts, t.peek p.keys = leBytes o.size (atomicOp o.aop o.size (leNat (s.peek p.keys)) (leNat p.data))) ∧
      ∀ k, (∀ p ∈ o.parts, k ∉ p.keys) → Memory.read t.mem k = Memory.read s.mem k)) ∧
  (o.kind = .atomic → o.size = 4 ∨ o.size = 8 → o.aop = 9 → (s.core q.core).wcb = [] → (o.parts.flatMap (fun p => p.keys)).Nodup →
    (∀ p ∈ o.parts, p.data.length = o.size ∧ p.cmp.length = o.size) → o.dst.isSome = true →
    Ends (.longLatencyResult q id) s (fun t => (∃ w' : Wave, ended t w' ∧ put w') ∧
      ∀ p ∈ o.parts, t.peek p.keys = if s.peek p.keys = p.data then p.cmp else s.peek p.keys))

/-- LONG_LATENCY_RESULT of a lane access to bytes of memory (R253, R254, R266, R269 to R272, R280, R281, R453, R455, R457 to R461): loads
without acquire read what the core sees, and stores leave their bytes in its write-combining buffer or the home, where it sees them, the
highest lane's for a byte that several write; an acquire of scope `.clus` or wider reads at the homes and drops the context's L1 lines, a
release of such a scope writes at the homes, and atomics and reductions act there; inside a transaction loads read buffered bytes
before the home, and what stores and atomics write is buffered. -/
def Sys2Proof.Claims.LaneDeviceReturns : Prop := ∀ (s : State) (q : WaveRef) (w : Wave) (id : Nat) (o : Op),
  s.wave? q = some w → w.ops.find? (fun p => p.id == id) = some o → (∃ g ∈ w.frags, g.st ≠ .phase) → o.scalar = false →
  w.mayPerform o = true → Memory.wf s.mem = true → (o.parts.map (fun p => p.lane)).Nodup → (∀ p ∈ o.parts, p.lane < 96) →
  (∀ p ∈ o.parts, p.keys.length = o.size ∧ p.keys.Nodup ∧ ∀ k ∈ p.keys, onCore k = false) → o.size ∈ [1, 2, 4, 8, 16] →
  let words (l : List Byte) : List Word :=
    if o.size < 4 then [if o.sx then BitVec.ofInt 32 (BitVec.ofNat (8 * o.size) (leNat l)).toInt else BitVec.ofNat 32 (leNat l)]
    else (List.range (o.size / 4)).map (fun k => BitVec.ofNat 32 (leNat l / 2 ^ (32 * k)))
  let ended (t : State) (w' : Wave) : Prop := t.wave? q = some w' ∧ (∀ p ∈ w'.ops, p.id ≠ id) ∧
    (∀ k, tget 0 w'.flags k = if o.flag = some k then tget 0 w.flags k - 1 else tget 0 w.flags k) ∧
    w'.sreg = w.sreg ∧ w'.guards = w.guards ∧ w'.vstat = w.vstat
  let put (w' : Wave) (bytes : List Nat → List Byte) : Prop := ∀ d, o.dst = some d → ∀ reg j, j < 96 → w'.vget reg j =
    match o.parts.find? (fun p => p.lane == j) with
    | some p => if d ≤ reg ∧ reg < d + (o.size + 3) / 4 then (words (bytes p.keys)).getD (reg - d) 0 else w.vget reg j
    | none => w.vget reg j
  let clean : Prop := (s.core q.core).wcb = []
  let wide : Prop := 2 ≤ o.scope ∧ clean
  let ends (P : State → Wave → Prop) : Prop := Ends (.longLatencyResult q id) s (fun t => ∃ w' : Wave, ended t w' ∧ P t w')
  let stored (k : Nat) : Byte := match ((o.parts.flatMap (fun p => p.keys.zip p.data)).reverse).find? (fun b => b.1 == k) with
    | some b => b.2
    | none => Memory.read s.mem k
  (o.txn = false → w.txn = none →
    (o.kind = .load → o.dst.isSome = true → (isAcq o.ord = false ∨ o.scope < 2) → (isRel o.ord = false ∨ o.scope < 2) →
      (∀ e ∈ (s.core q.core).l1, e.asid ≠ w.ctx) → ends (fun t w' => t.mem = s.mem ∧ put w' (s.peekVia q.core))) ∧
    (o.kind = .load → o.dst.isSome = true → isAcq o.ord = true → wide →
      ends (fun t w' => t.mem = s.mem ∧ put w' s.peek ∧ ∀ e ∈ (t.core q.core).l1, e.asid ≠ w.ctx)) ∧
    (o.kind = .store → (∀ p ∈ o.parts, p.data.length = o.size) → (isRel o.ord = false ∨ o.scope < 2) → clean →
      ends (fun t w' => w'.vreg = w.vreg ∧ ∀ k, t.byteVia q.core k = stored k)) ∧
    (o.kind = .store → (∀ p ∈ o.parts, p.data.length = o.size) → isRel o.ord = true → wide →
      ends (fun t w' => w'.vreg = w.vreg ∧ ∀ k, Memory.read t.mem k = stored k)) ∧
    (o.kind = .atomic ∨ o.kind = .reduce → o.size = 4 ∨ o.size = 8 → clean → (o.parts.flatMap (fun p => p.keys)).Nodup →
      o.kind = .atomic ∧ o.dst.isSome = true ∨ o.kind = .reduce ∧ o.dst = none → (∀ p ∈ o.parts, o.aop = 9 → p.cmp.length = o.size) →
      ends (fun t w' => put w' s.peek ∧ (∀ k, (∀ p ∈ o.parts, k ∉ p.keys) → Memory.read t.mem k = Memory.read s.mem k) ∧
        ∀ p ∈ o.parts, t.peek p.keys = if o.aop = 9 then (if leNat (s.peek p.keys) = leNat p.data then p.cmp else s.peek p.keys)
          else leBytes o.size (atomicOp o.aop o.size (leNat (s.peek p.keys)) (leNat p.data))))) ∧
  (∀ x : Txn, o.txn = true → w.txn = some x → x.prio = false →
    let sees (ks : List Nat) : List Byte := ks.map (s.txnByte x)
    (o.kind = .load → o.dst.isSome = true → (∀ p ∈ o.parts, ∀ k ∈ p.keys, lineOf k ∈ x.reads) → x.reads.length ≤ 64 → s.canMark x.reads = true →
      ends (fun t w' => t.mem = s.mem ∧ put w' sees ∧ w'.txn = some x)) ∧
    (∀ p, o.parts = [p] → ∀ x1 : Txn, s.txnRead x (dedup (p.keys.map lineOf)) = some x1 →
      (o.kind = .load → o.dst.isSome = true → ends (fun t w' => t.mem = s.mem ∧ put w' sees ∧ w'.txn = some x1)) ∧
      (∀ x2 : Txn, o.kind = .atomic → o.dst.isSome = true → o.size = 4 ∨ o.size = 8 → o.aop ≠ 9 →
        let new := leBytes o.size (atomicOp o.aop o.size (leNat (sees p.keys)) (leNat p.data))
        s.txnWrite q x1 (p.keys.zip new) = some x2 →
        ends (fun t w' => t.mem = s.mem ∧ put w' sees ∧ w'.txn = some x2 ∧ p.keys.map (t.txnByte x2) = new))) ∧
    (∀ p, o.parts = [p] → ∀ x2 : Txn, o.kind = .store → p.data.length = o.size → s.txnWrite q x (p.keys.zip p.data) = some x2 →
      ends (fun t w' => t.mem = s.mem ∧ w'.vreg = w.vreg ∧ w'.txn = some x2 ∧ p.keys.map (t.txnByte x2) = p.data)))

/-- CLAUSE_START (R238, R302, R356, R358): a clause whose header names a flag that is up waits; one whose words all decode starts at its
first instruction and leaves the queue; a word that does not decode holds every lane of the clause with ILLEGAL at that word; in a clause
of its open transaction it aborts, whatever lanes the clause has, and outside one a clause without lanes is only dropped. -/
def Sys2Proof.Claims.ClauseStarts : Prop := ∀ (s s1 : State) (q : WaveRef) (w : Wave) (f : Fragment) (cl : Clause) (rest : List Clause) (x : Nat),
  s.wave? q = some w → w.frag? f.id = some f → f.run = none → f.queue = cl :: rest →
  let base := (s.lentry w + cl.off) &&& ~~~15
  s.laneWord q w base = (.ok x, s1) →
  (∀ h, decodeHeader x = some h → ∀ i, i < 12 → h.wait.getLsbD i = true → tget 0 w.flags i ≠ 0 →
    Ends (.clauseStart q f.id) s (fun t => t = s1.wait q f.id)) ∧
  (∀ h, decodeHeader x = some h → (∀ i, i < 12 → h.wait.getLsbD i = true → tget 0 w.flags i = 0) →
    (∀ l s2, s1.laneBody q w h (w.inTxn f.id && cl.txn) base (h.lenm1.toNat + 1) 0 [] = (.code l, s2) →
      Ends (.clauseStart q f.id) s (fun t =>
        t = s2.setWave q (w.setFrag { f with run := some ⟨cl, base, h, l, 0⟩, queue := rest, waitSince := none }))) ∧
    (∀ k s2, s1.laneBody q w h (w.inTxn f.id && cl.txn) base (h.lenm1.toNat + 1) 0 [] = (.bad k, s2) →
      Ends (.clauseStart q f.id) s (fun t => t = s2.clauseIllegal q w f cl rest base (base + BitVec.ofNat 64 (12 * (k + 1)))))) ∧
  (decodeHeader x = none → w.inTxn f.id = true → cl.txn = true → Ends (.clauseStart q f.id) s (fun t => t = s1.setWave q (w.abort 7 6))) ∧
  (decodeHeader x = none → w.inTxn f.id = false → cl.mask = 0 → Ends (.clauseStart q f.id) s (fun t =>
    t = s1.setWave q (w.setFrag { f with run := none, queue := rest, waitSince := none }))) ∧
  (decodeHeader x = none → cl.mask ≠ 0 → w.handler = false → w.inTxn f.id = false → s1.splitFree q.core = true →
    Ends (.clauseStart q f.id) s (fun t =>
      t = (s1.setWave q (w.setFrag { f with run := none, queue := rest, waitSince := none })).laneTrap q f.id 6 cl.mask
        ⟨cl, base, ⟨0, 0, 15, 15⟩, [], 0⟩ base none (some ⟨cl, base, ⟨0, 0, 15, 15⟩, [], 0⟩)))

/-- Taking a lane trap and returning from one (R301, R302, R303). Taken outside a transaction and a handler wave, the lanes `t`
leave their fragment and its clauses and form a held fragment with code and address, and each of them joins a group of the
compactor for the wave's trap entry; the other lanes keep theirs. When every lane of a held fragment has been resumed or killed:
a continue goes on after a scalar site, a re-execute goes on at it; continued and re-executed lanes together split; a
fragment whose lanes were all killed is gone; before that nothing runs. -/
def Sys2Proof.Claims.LaneTrapAndReturn : Prop :=
  (∀ (s : State) (q : WaveRef) (w : Wave) (f : Fragment) (code : Nat) (m : LaneMask) (x : Running) (addr : DWord) (cont redo : Option Running),
    s.wave? q = some w → w.frag? f.id = some f → w.txn = none → w.handler = false → (∀ g ∈ w.frags, g.id < w.nextFrag) → m ≠ 0 →
    let t := s.laneTrap q f.id code m x addr cont redo
    t.mem = s.mem ∧ ∃ (w' : Wave) (a b : Fragment), t.wave? q = some w' ∧ w'.frag? f.id = some a ∧ w'.frag? w.nextFrag = some b ∧
      a.lanes = f.lanes &&& ~~~m ∧ a.mask = f.mask &&& ~~~m ∧ a.pc = f.pc ∧ a.st = f.st ∧ (∀ y, a.run = some y → y.cl.mask &&& m = 0) ∧
      (∀ y ∈ a.queue, y.mask &&& m = 0) ∧ b.lanes = m ∧ b.st = .heldEntry ∧ b.pc = x.cl.ret ∧ b.queue = [] ∧ b.run = none ∧
      (∃ h, b.held = some h ∧ h.code = BitVec.ofNat 32 code ∧ h.addr = addr ∧ h.contMask = 0 ∧ h.redoMask = 0 ∧ h.killMask = 0) ∧
      w'.vreg = w.vreg ∧ w'.sreg = w.sreg ∧ w'.flags = w.flags ∧
      ∃ g ∈ (t.core q.core).groups, g.ctx = w.ctx ∧ g.entry = w.trapv ∧
        ∀ i, i < 96 → lane m i = true → (⟨q.slot, w.nextFrag, i, w.bslot, BitVec.ofNat 32 code, addr, s.now⟩ : HeldLane) ∈ g.lanes) ∧
  (∀ (w : Wave) (n : Nat) (f : Fragment) (h : Held), w.frag? f.id = some f → f.held = some h → (∀ g ∈ w.frags, g.id < w.nextFrag) →
    let c := h.contMask &&& f.lanes
    let e := h.redoMask &&& f.lanes
    let all : Prop := (h.contMask ||| h.redoMask ||| h.killMask) &&& f.lanes = f.lanes
    let w' := w.resumeHeld n f.id
    let runs (id : Nat) (m : LaneMask) (pc : DWord) : Prop := ∃ g, w'.frag? id = some g ∧ g.lanes = m ∧ g.mask = h.active &&& m ∧ g.pc = pc ∧
      g.held = none ∧ (g.st = .ready ∨ g.st = .waiting)
    (¬ all → w' = w) ∧
    (all → c = 0 → e = 0 → w'.frag? f.id = none) ∧
    (all → f.st = .heldSlot → (c ≠ 0 → e = 0 → runs f.id c (f.pc + 4)) ∧ (c = 0 → e ≠ 0 → runs f.id e f.pc) ∧
      (c ≠ 0 → e ≠ 0 → runs f.id c (f.pc + 4) ∧ runs w.nextFrag e f.pc)) ∧
    (all → f.st = .heldEntry →
      (c ≠ 0 → e = 0 → runs f.id c f.pc ∧ (w'.frag? f.id).bind Fragment.run = h.cont.map (fun (y : Running) => { y with cl := { y.cl with mask := y.cl.mask &&& c } })) ∧
      (c = 0 → e ≠ 0 → runs f.id e f.pc ∧ (w'.frag? f.id).bind Fragment.run = h.redo.map (fun (y : Running) => { y with cl := { y.cl with mask := y.cl.mask &&& e } }))))

/-- VORGLD, VORGST and VRESUME in a handler wave (R304, R305, R463 to R465): a tag or selector that is not the group's is a double
fault; else VORGLD and VORGST are operations under way that, at their LONG_LATENCY_RESULT, read the origin lane's register or guard
into D or write it, and nothing for a lane already resumed; VRESUME waits for earlier VORGST and gives the lane its action. -/
def Sys2Proof.Claims.TrapSupport : Prop := ∀ (c : LaneCtl) (r : LR) (s : State) (q : WaveRef) (w : Wave) (f : Fragment) (x : Running),
  Lane s q w f x → w.handler = true →
  let act := activeMask w x c
  let v := (s.view w x).1
  let s' : State := { s with free := s.free + 96 * w.awaited.length }
  let good : Prop := originsOk s' q.core v act r.a r.b = true
  let issues (i : Instr) (k : OpKind) (dst : Option Nat) : Prop :=
    (w.flagFull c = true → Ends i s (fun t => t = s'.wait q f.id)) ∧
    (w.flagFull c = false → ¬ good → Ends i s (fun t => t = s'.fatalCtx w.ctx 1 true)) ∧
    (w.flagFull c = false → good → act = 0 → Ends i s (fun t => t = s'.laneNext q f.id)) ∧
    (w.flagFull c = false → good → act ≠ 0 → Ends i s (fun t => t.mem = s.mem ∧ ∃ (w' : Wave) (o : Op), t.wave? q = some w' ∧
      w' = { w with ops := w.ops ++ [o], flags := w'.flags, frags := w'.frags } ∧ w'.frag? f.id = some { f with run := x.rest, waitSince := none } ∧
      o.id = s.nextId ∧ o.kind = k ∧ o.dst = dst ∧ o.lanes = act ∧ Instr.longLatencyResult q o.id ∈ t.queue ∧
      o.parts.map (fun p => (p.lane, p.va, p.data)) = (lanesOf act).map (fun j => (j, v.op r.b j ++ v.op r.a j, leBytes 4 (v.op r.c j).toNat))))
  issues (.vorgld c r) .orgLoad (some r.d.toNat) ∧ issues (.vorgst c r) .orgStore none ∧
  (w.ops.any (fun o => o.kind == .orgStore) = true → Ends (.vresume c r) s (fun t => t = s'.wait q f.id)) ∧
  (w.ops.any (fun o => o.kind == .orgStore) = false → ∀ j h, lanesOf act = [j] → s.heldBy q.core (v.op r.a j) = some (h, false) →
    (v.op r.b j).toNat % 4 ≠ 3 → Ends (.vresume c r) s (fun t =>
      t = ((s'.updCore q.core (fun (k : Core) => { k with handling := k.handling.map (fun (p : HeldLane × Bool) =>
        if originTag p.1 == v.op r.a j then (p.1, true) else p) })).resumeLane q.core h ((v.op r.b j).toNat % 4)).laneNext q f.id)) ∧
  (∀ (o : Op) (id : Nat), w.ops.find? (fun p => p.id == id) = some o → o.kind = .orgLoad → ∀ d, o.dst = some d →
    Ends (.longLatencyResult q id) s (fun t => t.mem = s.mem ∧ ∃ w' : Wave, t.wave? q = some w' ∧ (∀ p ∈ w'.ops, p.id ≠ id) ∧
      ∀ p ∈ o.parts, lane o.lanes p.lane = true → (o.parts.map (fun p => p.lane)).Nodup → w'.vget d p.lane =
        s.originRead q.core (p.va.extractLsb' 0 32) ((p.va.extractLsb' 32 9).toNat))) ∧
  (∀ (o : Op) (id : Nat) (p : Part) (h : HeldLane), w.ops.find? (fun p => p.id == id) = some o → o.kind = .orgStore → o.parts = [p] →
    s.heldBy q.core (p.va.extractLsb' 0 32) = some (h, false) → h.lane < 96 → h.slot ≠ q.slot → ∀ u, s.wave? ⟨q.core, h.slot⟩ = some u →
    p.data.length = 4 → (p.va.extractLsb' 32 9).toNat < 0x100 →
    Ends (.longLatencyResult q id) s (fun t => t.mem = s.mem ∧ ∃ u' : Wave, t.wave? ⟨q.core, h.slot⟩ = some u' ∧
      ∀ reg j, j < 96 → u'.vget reg j =
        if reg = (p.va.extractLsb' 32 9).toNat ∧ j = h.lane then BitVec.ofNat 32 (leNat p.data) else u.vget reg j))

/-! Matrix instructions and sweeps (R274 to R277, R466 to R484) -/

/-- MMA, MMASP, TSWEEP, TCVT, TRED and TSCAN at issue (R240, R276, R290, R417, R466, R473, R474, R477, R483): a full flag or counter, or an
earlier clause of the wave that is still to issue, waits, a sweep (logs 25, 91) also while the replay array has no room for it or an
access before it in wave order is under way; inside its transaction the instruction aborts it; without an
active lane it only counts and is to retire; else flag and counter rise by one and one operation is queued with what it captured:
of a matrix instruction one octet for each eight lanes with an active one, led by its lowest lane, of a sweep the operands of the
lowest active lane; a matrix operation is held that a burst declared and not yet admitted precedes (R218); a sweep's event is queued. No register and no byte of
memory changes. -/
def Sys2Proof.Claims.MatrixAndSweepIssues : Prop := ∀ (c : LaneCtl) (r : LR) (s : State) (q : WaveRef) (w : Wave) (f : Fragment) (x : Running),
  Lane s q w f x → c.sf.toNat ≤ 11 →
  let act := activeMask w x c
  let v := (s.view w x).1
  let unadmitted : Prop := ∃ d, w.decl = some d ∧ d.admitted = none
  let blocked (cls : Nat) : Bool := w.flagFull c || decide (63 ≤ w.outstanding cls) || w.toCome f x.cl.born ||
    decide (cls = 3) && (s.memFull q.core 64 1 || !(s.waitsOf q w f 0).isEmpty)
  let heavy (i : Instr) (cls scope : Nat) (queued : Core → Core → Prop) : Prop :=
    (w.inTxn f.id = true → x.cl.txn = true → Ends i s (fun t => t = s.setWave q (w.abort 4 0))) ∧
    (w.inTxn f.id = false → blocked cls = true → Ends i s (fun t => t = s.wait q f.id)) ∧
    (w.inTxn f.id = false → blocked cls = false → Ends i s (fun t => t.mem = s.mem ∧
      ∃ w' : Wave, t.wave? q = some w' ∧ w' = { w with tickets := w'.tickets, flags := w'.flags, frags := w'.frags } ∧
        w'.frag? f.id = some { f with run := x.rest, waitSince := none } ∧
        (∀ k, tget [] w'.tickets k = if k = cls then tget [] w.tickets k ++ [⟨s.nextId, scope, decide (act = 0)⟩] else tget [] w.tickets k) ∧
        (∀ k, tget 0 w'.flags k = tget 0 w.flags k + if act ≠ 0 ∧ k = c.sf.toNat then 1 else 0) ∧
        (act = 0 → Instr.asyncRetire q (BitVec.ofNat 3 cls) ∈ t.queue ∧ (t.core q.core).matrix = (s.core q.core).matrix ∧
          (t.core q.core).sweeps = (s.core q.core).sweeps) ∧
        (act ≠ 0 → cls = 3 → Instr.sweepComplete s.nextId ∈ t.queue) ∧
        (act ≠ 0 → queued (s.core q.core) (t.core q.core))))
  let matrix (i : Instr) (sparse : Bool) : Prop := heavy i 1 1 (fun a b => b.sweeps = a.sweeps ∧ ∃ m : MatrixOp, b.matrix = a.matrix ++ [m] ∧
    m.id = s.nextId ∧ m.slot = q.slot ∧ m.ctx = w.ctx ∧ m.d = r.d.toNat ∧ m.zero = r.modf.getLsbD 0 ∧ m.sat = r.modf.getLsbD 1 ∧
    m.sparse = sparse ∧ m.flag = c.sf.toNat ∧ m.active = act ∧ m.taken = false ∧ m.raised = 0 ∧ (m.held = true ↔ unadmitted) ∧
    (∀ j, j < 12 → ((∃ o ∈ m.octets, o.j = j) ↔ ∃ k, k < 8 ∧ lane act (8 * j + k) = true)) ∧
    ∀ o ∈ m.octets, o.pa = v.pair r.a (8 * o.j) ∧ o.pb = v.pair r.b (8 * o.j) ∧ o.pf = v.pair r.c (8 * o.j) ∧
      o.sa = (v.code r.e.toNat (8 * o.j)).signExtend 64 ∧ o.sb = (v.code (r.e.toNat + 1) (8 * o.j)).signExtend 64 ∧
      (sparse = true → o.meta_ = v.code (r.e.toNat + 3) (8 * o.j) ++ v.code (r.e.toNat + 2) (8 * o.j)) ∧ o.done = false ∧
      ∀ k, k ∈ o.rows ↔ k < 8 ∧ lane act (8 * o.j + k) = true)
  let sweep (i : Instr) (kind : Nat) : Prop := heavy i 3 (r.d.toNat % 8) (fun a b => b.matrix = a.matrix ∧ ∃ m : SweepOp, b.sweeps = a.sweeps ++ [m] ∧
    m.id = s.nextId ∧ m.slot = q.slot ∧ m.ctx = w.ctx ∧ m.kind = kind ∧ m.lr = r ∧ m.scope = r.d.toNat % 8 ∧ m.flag = c.sf.toNat ∧
    m.next = 0 ∧ m.done = false ∧ ∀ j, (lanesOf act).head? = some j → m.ra = v.pair r.a j ∧ m.rb = v.pair r.b j ∧
      (kind = 0 → m.rc = v.pair r.c j ∧ m.re = v.pair r.e j) ∧ (kind ≠ 0 → m.rc = (v.op r.c j).zeroExtend 64))
  matrix (.mma c r) false ∧ matrix (.mmasp c r) true ∧ sweep (.tsweep c r) 0 ∧ sweep (.tcvt c r) 1 ∧ sweep (.tred c r) 2 ∧ sweep (.tscan c r) 3

/-- OCTET_OPERATION and MATRIX_COMPLETE (R339, R340, R469, R472 to R474): an octet whose turn it is and whose columns have been read
computes, for its one row left, sixteen results into the sixteen registers of its lane, each the old value (or zero) plus the
products of the row with a column, summed exactly for integers, and no other lane register changes; it is tried again later
while the engine may not issue. When no octet is left the flags are raised, set-flag and counter fall, and the operation is gone. -/
def Sys2Proof.Claims.MatrixOperations : Prop :=
  (∀ (s s1 : State) (core id j i : Nat) (m : MatrixOp) (o : Octet) (w : Wave) (cols : List Byte) (l : List (List Byte)),
    s.matrixOp id = some (core, m) → s.wave? ⟨core, m.slot⟩ = some w → s.octetTurn core m j = true → m.taken = true → m.bad = false →
    m.octets.find? (fun x => x.j == j) = some o →
    (s.engineMay core = none → Ends (.octetOperation id j) s (fun t => t = s.after 1 (.octetOperation id j))) ∧
    (∀ u, s.engineMay core = some u → o.rows.filter (fun k => decide (o.next ≤ k)) = [i] → i < 8 → o.j < 12 →
      let b := fmtBlock (tget [] m.block o.pf.toNat)
      let kd := depthOf b m.sparse
      tfind m.block (groupKey m o) = some cols → (s.issueUnit ⟨core, m.slot⟩ m.ctx u).mxFetches m.hint ⟨core, m.slot⟩ w (rowFetches b m.sparse kd o i) [] = (.ok l, s1) →
      s1.wave? ⟨core, m.slot⟩ = some w →
      Ends (.octetOperation id j) s (fun t => Instr.matrixComplete id ∈ t.queue ∧ ∃ w' : Wave, t.wave? ⟨core, m.slot⟩ = some w' ∧
        ∀ reg k, k < 96 → w'.vget reg k = if m.d ≤ reg ∧ reg < m.d + 16 ∧ k = 8 * o.j + i then
            BitVec.ofNat 32 (octetCell b m.sparse m.zero m.sat kd l
              ((splitColumns (packedBytes b.bfmt b.blay kd) (scaleBytes b.bblk kd) cols).getD (reg - m.d) []) (w.vget reg k)).1
          else w.vget reg k))) ∧
  (∀ (b : FmtBlock) (zero : Bool) (row col : List (List Byte)) (old : Word), 7 ≤ b.afmt → b.afmt ≤ 10 → 7 ≤ b.bfmt → b.bfmt ≤ 10 →
    let kd := efK b.afmt
    let sum : Int := ((List.range kd).map (fun k =>
      efInt b.afmt (packedElem b.afmt b.alay (row.getD 0 []) k) * efInt b.bfmt (packedElem b.bfmt b.blay (col.getD 0 []) k))).sum +
      if zero then 0 else old.toInt
    BitVec.ofNat 32 (octetCell b false zero false kd row col old).1 = BitVec.ofInt 32 sum ∧
    BitVec.ofNat 32 (octetCell b false zero true kd row col old).1 = BitVec.ofInt 32 (max (-2 ^ 31) (min (2 ^ 31 - 1) sum))) ∧
  (∀ (s : State) (core id : Nat) (m : MatrixOp) (w : Wave), s.matrixOp id = some (core, m) → m.bad = false → (∀ o ∈ m.octets, o.done = true) →
    s.wave? ⟨core, m.slot⟩ = some w → Ends (.matrixComplete id) s (fun t => (∀ x ∈ (t.core core).matrix, x.id ≠ id) ∧ t.mem = s.mem ∧
      Instr.asyncRetire ⟨core, m.slot⟩ 1 ∈ t.queue ∧ ∃ w' : Wave, t.wave? ⟨core, m.slot⟩ = some w' ∧
        w' = { w with flags := w'.flags, vstat := w.vstat ||| m.raised.zeroExtend 32, tickets := w'.tickets } ∧
        tget 0 w'.flags m.flag = tget 0 w.flags m.flag - 1 ∧
        tget [] w'.tickets 1 = (tget [] w.tickets 1).map (fun x => if x.op == id then { x with done := true } else x)))

/-- SWEEP_COMPLETE (R337, R477, R479, R483): a sweep that is over raises its flags, folds its magnitude into the maximum, releases its
set-flag and its counter and is gone; an element sweep that has visited every element is over; one that another sweep of the
core precedes does nothing yet. -/
def Sys2Proof.Claims.SweepCompletes : Prop := ∀ (s : State) (core id : Nat) (m : SweepOp) (w : Wave),
  s.sweepOp id = some (core, m) → s.wave? ⟨core, m.slot⟩ = some w → m.id = id →
  (m.done = true → m.bad = none → s.laneClock core = true → Ends (.sweepComplete id) s (fun t => (∀ x ∈ (t.core core).sweeps, x.id ≠ id) ∧ t.mem = s.mem ∧
    Instr.asyncRetire ⟨core, m.slot⟩ 3 ∈ t.queue ∧ ∃ w' : Wave, t.wave? ⟨core, m.slot⟩ = some w' ∧
      w' = { w with flags := w'.flags, vstat := w.vstat ||| m.raised.zeroExtend 32, tickets := w'.tickets, xmax := w'.xmax } ∧
      (m.mag < 2 ^ 31 → w'.xmax.toNat % 2 ^ 31 = max (w.xmax.toNat % 2 ^ 31) m.mag ∧ w'.xmax.msb = (w.xmax.msb || m.nan)) ∧
      tget 0 w'.flags m.flag = tget 0 w.flags m.flag - 1 ∧
      tget [] w'.tickets 3 = (tget [] w.tickets 3).map (fun x => if x.op == id then { x with done := true } else x))) ∧
  (m.done = false → s.sweepTurn core m = false → Ends (.sweepComplete id) s (fun t => t = s)) ∧
  (m.done = false → s.sweepTurn core m = true → m.recs ≠ [] → m.kind ≤ 1 →
    visits (tirOf (m.recs.getD 0 [])).rank (tirOf (m.recs.getD 0 [])).ext ≤ m.next →
    Ends (.sweepComplete id) s (fun t => t = s.setSweep core { m with done := true })) ∧
  (∀ rank ext n, n < visits rank ext → rank ≤ ext.length → (∀ e ∈ ext, e ≠ 0) → ∀ d, d < rank → (visit n ext).getD d 0 < ext.getD d 0)

/-! Gaffer instructions (R85 to R121) -/

/-- The arithmetic, comparison and time instructions of the gaffer and its read-only fabric queries (R85, R103, R104, R107, R115, R117):
64-bit results, c0 reads 0 and discards, and nothing but the destination and the program counter changes. -/
def Sys2Proof.Claims.GafferArithmetic : Prop := ∀ (d a b n : BitVec 4) (i : BitVec 18),
  let sx : DWord := i.signExtend 64
  let zx : DWord := i.zeroExtend 64
  let two (x : Instr) (f : DWord → DWord → DWord) : Prop := Gives x d (fun _ g => f (g.rd a.toNat) (g.rd b.toNat))
  let imm (x : Instr) (f : DWord → DWord) : Prop := Gives x d (fun _ g => f (g.rd a.toNat))
  let shift (x y : DWord) : DWord :=
    if 0 ≤ y.toInt ∧ y.toInt ≤ 63 then x <<< y.toNat else if -63 ≤ y.toInt ∧ y.toInt < 0 then x >>> (-y).toNat else 0
  let cmp (x y : DWord) : DWord := if x.toInt < y.toInt then 0xFFFFFFFFFFFFFFFF else if x = y then 0 else 1
  imm (.cmov d a) (fun x => x) ∧ Gives (.cmovImm d n i) d (fun _ _ => sx <<< (4 * n.toNat)) ∧
  two (.cadd d a b) (fun x y => x + y) ∧ imm (.caddImm d a i) (fun x => x + sx) ∧
  two (.csub d a b) (fun x y => x - y) ∧ imm (.csubImm d a i) (fun x => x - sx) ∧
  two (.cand d a b) (fun x y => x &&& y) ∧ imm (.candImm d a i) (fun x => x &&& zx) ∧
  two (.cor d a b) (fun x y => x ||| y) ∧ imm (.corImm d a i) (fun x => x ||| zx) ∧
  two (.cshl d a b) shift ∧ imm (.cshlImm d a i) (fun x => shift x sx) ∧
  two (.ccmp d a b) cmp ∧ imm (.ccmpImm d a i) (fun x => cmp x sx) ∧
  Gives (.ctime d) d (fun s _ => BitVec.ofNat 64 s.now) ∧
  Gives (.crtt d a) d (fun s g => if 32 ≤ (g.rd a.toNat).toNat ∨ (s.port (g.rd a.toNat).toNat).valid = false then 0
    else (s.port (g.rd a.toNat).toNat).rttc.zeroExtend 64) ∧
  Gives (.cslot d a) d (fun s g => if 64 ≤ (g.rd a.toNat).toNat then 0 else BitVec.ofNat 64 (s.nextSlot (s.circuit (g.rd a.toNat).toNat)))

/-- Branches, calls and CHALT (R86, R89, R102, R105): where the program counter goes, c15 as the link register; a CRET to an address
outside local memory or not a multiple of 4 is the fault BADPC (5) and has no effect; CHALT leaves the thread IDLE with its command
completed with OK and c1. -/
def Sys2Proof.Claims.GafferControl : Prop := ∀ (d : BitVec 4) (i : BitVec 18) (s : State) (n : Nat) (g : GThread), Gaffer s n g → g.wait = .none →
  let target : DWord := g.pc + 4 * i.signExtend 64
  let x := g.rd d.toNat
  let br (k : BitVec 4) (holds : Prop) : Prop :=
    (holds → Ends (.cbr d k i) s (fun t => GafferWrote s t n g target 0 0)) ∧ (¬ holds → Ends (.cbr d k i) s (fun t => GafferWrote s t n g (g.pc + 4) 0 0))
  br 0 (x = 0) ∧ br 1 (x ≠ 0) ∧ br 2 (x.toInt < 0) ∧ br 3 (0 ≤ x.toInt) ∧ br 4 (0 < x.toInt) ∧ br 5 (x.toInt ≤ 0) ∧
  Ends (.cjmp i) s (fun t => GafferWrote s t n g target 0 0) ∧ Ends (.ccall i) s (fun t => GafferWrote s t n g target 15 (g.pc + 4)) ∧
  ((g.rd 15).toNat < 0x40000 → (g.rd 15).toNat % 4 = 0 → Ends .cret s (fun t => GafferWrote s t n g (g.rd 15) 0 0)) ∧
  (0x40000 ≤ (g.rd 15).toNat ∨ (g.rd 15).toNat % 4 ≠ 0 → Ends .cret s (fun t => t = s.gFault n 5 0)) ∧
  Ends .chalt s (fun t => (t.gth n).st = 0 ∧ (t.gth n).cmd = none ∧ t.mem = (s.gComplete n 0 (g.rd 1).toNat).mem)

/-- CLD, CST and CNOTE (R90, R91, R93, R102, R106, R118): loads are zero-extended and stores write the low bytes, in local memory, in
fabric registers and in device memory of the thread's context; the address is the register plus the offset; a misaligned address, one
in no range and device memory without a context are the faults 2, 3 and 6 of the thread. -/
def Obligations.GafferMemory : Prop := ∀ (d a b : BitVec 4) (z : BitVec 1) (p : BitVec 17) (s : State) (n : Nat) (g : GThread), Gaffer s n g →
  let w := if z = 1 then 8 else 4
  let at_ := (g.rd a.toNat + p.zeroExtend 64).toNat
  let v := (g.rd d.toNat).toNat
  let faults (i : Instr) (k : Nat) : Prop := Ends i s (fun t => t = s.gFault n k 0)
  let both (P : Instr → Prop) : Prop := P (.cld d a z p) ∧ P (.cst d a z p)
  (at_ % w = 0 → at_ < 0x40000 →
    Ends (.cld d a z p) s (fun t => GafferWrote s t n g (g.pc + 4) d (BitVec.ofNat 64 (leNat (s.bytesAt (gafKey at_) w)))) ∧
    (Memory.wf s.mem = true → Ends (.cst d a z p) s (fun t => t.bytesAt (gafKey at_) w = leBytes w v ∧ (t.gth n).pc = g.pc + 4 ∧
      ∀ k, k < gafKey at_ ∨ gafKey at_ + w ≤ k → Memory.read t.mem k = Memory.read s.mem k))) ∧
  (at_ % w = 0 → 0x100000000 ≤ at_ → at_ < 0x101000000 →
    Ends (.cld d a z p) s (fun t => GafferWrote s t n g (g.pc + 4) d (BitVec.ofNat 64
      (if z = 1 then s.fabRead (at_ - 0x100000000) + s.fabRead (at_ - 0x100000000 + 4) * 2 ^ 32 else s.fabRead (at_ - 0x100000000)))) ∧
    Ends (.cst d a z p) s (fun t => t = (if z = 1 then (s.fabWrite (at_ - 0x100000000) v).fabWrite (at_ - 0x100000000 + 4) (v / 2 ^ 32)
      else s.fabWrite (at_ - 0x100000000) v).gNext n)) ∧
  (∀ x, g.ctx = some x → at_ % w = 0 → 0x10000000000000 ≤ at_ → at_ < 0x20000000000000 →
    (∀ l s1, s.devRead 0 x (at_ - 0x10000000000000) w = (.ok l, s1) → Ends (.cld d a z p) s (fun t => t = s1.gDone n d.toNat (BitVec.ofNat 64 (leNat l)))) ∧
    (∀ u s1, s.devWrite 0 x (at_ - 0x10000000000000) (leBytes w v) = (.ok u, s1) → Ends (.cst d a z p) s (fun t => t = s1.gNext n)) ∧
    (∀ k va s1, s.devRead 0 x (at_ - 0x10000000000000) w = (.error (k, va), s1) → Ends (.cld d a z p) s (fun t => t = s1.gMemFault n x k 0 va)) ∧
    (∀ k va s1, s.devWrite 0 x (at_ - 0x10000000000000) (leBytes w v) = (.error (k, va), s1) → Ends (.cst d a z p) s (fun t => t = s1.gMemFault n x k 1 va))) ∧
  (at_ % w ≠ 0 → both (fun i => faults i 2)) ∧
  (at_ % w = 0 → 0x40000 ≤ at_ → (at_ < 0x100000000 ∨ 0x101000000 ≤ at_ ∧ at_ < 0x10000000000000 ∨ 0x20000000000000 ≤ at_) → both (fun i => faults i 3)) ∧
  (at_ % w = 0 → 0x10000000000000 ≤ at_ → at_ < 0x20000000000000 → g.ctx = none → both (fun i => faults i 6)) ∧
  ((g.rd a.toNat).toNat % 8 ≠ 0 → faults (.cnote d a b) 2) ∧
  ((g.rd a.toNat).toNat % 8 = 0 → g.ctx = none → faults (.cnote d a b) 6) ∧
  (∀ x, (g.rd a.toNat).toNat % 8 = 0 → g.ctx = some x → ∀ old s1,
    s.devUpdate 0 x (g.rd a.toNat).toNat (fun y => y + (g.rd b.toNat).toNat) = (.ok old, s1) →
    Ends (.cnote d a b) s (fun t => t = s1.gDone n d.toNat (BitVec.ofNat 64 old))) ∧
  (∀ k, ((s.gComplete n 9 k).gth n).ctx = none → (s.gFault n k 0).gth n = { ((s.gComplete n 9 k).gth n) with st := 3, fcause := BitVec.ofNat 8 k, wait := .none, cmd := none })

/-- The circuit instructions of the gaffer (R108 to R113, R116): an entry number beyond the table answers RC 3; CREQ and CPRE on a free or
failed entry take it over and send the first RSV, now or when the given time comes, or fail it with STATUS 8 where R70's checks do not
hold; a busy entry answers RC 1; CBIND and CSTAT act and answer the entry's state. CREL and CTEAR follow the table of R113: nothing on a
FREE or RELEASING entry; a BACKOFF or FAILED one enters FREE; the others enter RELEASING and send TEAR with CODE 0 or 7, a RESERVED
one after TARGET DARK, a LIVE one at CTEAR at once with its copies ended, and at CREL after the drain of its port. The TEAR goes to the
next hop, and its TACK is awaited for 500 µs. CVER takes a newer version, sends its notice on every link and opens the drain windows. -/
def Sys2Proof.Claims.GafferCircuits : Prop := ∀ (d a b : BitVec 4) (s : State) (n : Nat) (g : GThread), Gaffer s n g →
  let e := (g.rd a.toNat).toNat
  let c := s.circuit e
  let y := g.rd b.toNat
  let ver := (g.rd a.toNat).extractLsb' 0 16
  let word (u : State) (rc : Nat) : DWord := BitVec.ofNat 64
    ((u.circuit e).st.toNat * 2 ^ 28 + (u.circuit e).status.toNat * 2 ^ 24 + (u.port (u.circuit e).port.toNat).st.toNat * 2 ^ 16 + rc)
  let done (i : Instr) (u : State) (rc : Nat) : Prop := Ends i s (fun t => t = u.gDone n d.toNat (word u rc))
  let mine : State := s.setCircuit e { c with owner := BitVec.ofNat 2 n }
  let fresh_ : State := s.setCircuit e { c with
    owner := BitVec.ofNat 2 n, status := 0, attempts := 0, tver := s.tvercur, side := false, freeOnDark := false, tearPending := false }
  let requests (i : Instr) (go : State → State) : Prop :=
    (c.st = 0 ∨ c.st = 6 → mine.requestOk e = true → done i (go fresh_) 0) ∧
    (c.st = 0 ∨ c.st = 6 → mine.requestOk e = false → done i (mine.moveEntry e { mine.circuit e with st := 6, status := 8 }) 0) ∧
    (c.st = 2 → c.attempts = 0 → done i (go mine) 0) ∧
    (c.st ≠ 0 → c.st ≠ 6 → ¬ (c.st = 2 ∧ c.attempts = 0) → done i s 1)
  (64 ≤ e → ∀ i ∈ [Instr.creq d a, .cpre d a b, .cstat d a, .cbind d a b, .crel d a, .ctear d a, .cawait d a b],
    Ends i s (fun t => GafferWrote s t n g (g.pc + 4) d 3)) ∧
  (e < 64 →
    requests (.creq d a) (fun u => u.sendRsv e) ∧ (y.toNat ≤ s.now → requests (.cpre d a b) (fun u => u.sendRsv e)) ∧
    (s.now < y.toNat → requests (.cpre d a b) (fun u =>
      (u.moveEntry e { u.circuit e with st := 2, due := y.toNat }).atTime y.toNat (.cpreStart (BitVec.ofNat 6 e)))) ∧
    Ends (.cstat d a) s (fun t => GafferWrote s t n g (g.pc + 4) d (word s 0)) ∧
    done (.cbind d a b) (s.setCircuit e { c with bind := y.extractLsb' 0 16, owner := BitVec.ofNat 2 n }) 0 ∧
    let tears (i : Instr) (u : State) (code : Nat) : Prop := done i (u.sendTear e code) 0
    let leaving : State := s.moveEntry e { c with st := 5 }
    (c.st = 0 ∨ c.st = 5 → done (.crel d a) s 0 ∧ done (.ctear d a) s 0) ∧
    (c.st = 2 ∨ c.st = 6 → done (.crel d a) (s.moveEntry e { c with st := 0 }) 0 ∧ done (.ctear d a) (s.moveEntry e { c with st := 0 }) 0) ∧
    (c.st = 1 → tears (.crel d a) leaving 0 ∧ tears (.ctear d a) leaving 7) ∧
    (c.st = 3 → tears (.crel d a) (leaving.writeTarget c.port.toNat 0) 0 ∧ tears (.ctear d a) (leaving.writeTarget c.port.toNat 0) 7) ∧
    (c.st = 4 →
      let u := (s.moveEntry e { c with st := 5, tearPending := true, slotOpen := false }).writeTarget c.port.toNat 0
      let drains : Prop := (u.port c.port.toNat).st = 3 ∨ ∃ v, (u.port c.port.toNat).trans = some (4, v)
      (drains → done (.crel d a) u 0) ∧ (¬ drains → tears (.crel d a) u 0) ∧
      tears (.ctear d a) (((s.moveEntry e { c with st := 5, slotOpen := false }).circLost e).writeTarget c.port.toNat 0) 7)) ∧
  (∀ v, (s.moveEntry e v).circuit e = v ∧ ∀ m, m ≠ e → (s.moveEntry e v).circuit m = s.circuit m) ∧
  (∀ (u : State) (code : Nat), code < 256 → ∃ p : Packet, p.cls = 2 ∧ p.typ = 4 ∧ field p.body 3 1 = code ∧
    field p.body 0 1 = (u.circuit e).reqEntry.toNat ∧
    p.dst = BitVec.ofNat 16 (((u.circuit e).route.getD (if (u.circuit e).side = true then (u.circuit e).hopcnt.toNat - 1 else 0) 0).toNat / 2 ^ 20) ∧
    let v := u.sendPacket p
    u.sendTear e code = (v.setCircuit e { v.circuit e with due := v.now + 500000, tearPending := false }).atTime (v.now + 500000)
      (.tearTimeout (BitVec.ofNat 6 e))) ∧
  (newer ((g.rd a.toNat).extractLsb' 0 16) s.tvercur = true → Ends (.cver d a) s (fun t =>
    t = (s.setVersion ((g.rd a.toNat).extractLsb' 0 16)).gDone n d.toNat (BitVec.ofNat 64 (s.setVersion ((g.rd a.toNat).extractLsb' 0 16)).tvreg))) ∧
  (newer ver s.tvercur = true → (∀ p, p < 32 → (s.port p).st ≠ 1 ∧ (s.port p).st ≠ 2) → Ends (.cver d a) s (fun t => t.tvercur = ver ∧ t.mem = s.mem ∧
      (t.gth n).rd d.toNat = (if d = 0 then 0 else BitVec.ofNat 64 (s.tverseen.toNat * 2 ^ 16 + ver.toNat)) ∧
      (∀ q x, tfind s.circuits q = some x → s.inDrainWindow x = true → x.tver ≠ ver → (t.circuit q).window = some (s.now + 10000) ∧
        (⟨s.now + 10000, .drainWindowEnd (BitVec.ofNat 6 q)⟩ : Timer) ∈ t.timers) ∧
      ∀ l, l < 8 → s.fdidValid = true → (s.link l).up = true → (s.link l).waiting = [] → (s.link l).unacked.length < 64 →
        1 ≤ (s.link l).credits.getD 3 0 → ∃ p : Packet, (l, p) ∈ t.outPkt ∧ p.cls = 4 ∧ p.typ = 1 ∧ p.dst = 0xFFF ∧ p.tver = ver ∧
          field p.body 0 2 = ver.toNat)) ∧
  (newer ((g.rd a.toNat).extractLsb' 0 16) s.tvercur = false → Ends (.cver d a) s (fun t => GafferWrote s t n g (g.pc + 4) d (BitVec.ofNat 64 s.tvreg)))

/-- CAWAIT, CWAIT, their deadline, and CGATE (R88, R98, R108, R110, R114, R119): a settled entry, the oldest event or the wake word ends
the wait; a deadline already reached ends it with RC 2 or 0; else the thread waits and its deadline is armed; GAFFER_DEADLINE ends it
when it comes. CGATE answers RC 1 where an entry in use names the port, RC 3 for a TARGET of 2 or 3, and else writes the port's control
word and answers its state. -/
def Sys2Proof.Claims.GafferWaits : Prop := ∀ (d a b : BitVec 4) (s : State) (n : Nat) (g : GThread), Gaffer s n g →
  let e := (g.rd a.toNat).toNat
  let c := s.circuit e
  let word (rc : Nat) : DWord := BitVec.ofNat 64 (c.st.toNat * 2 ^ 28 + c.status.toNat * 2 ^ 24 + (s.port c.port.toNat).st.toNat * 2 ^ 16 + rc)
  let dl := (g.rd b.toNat).toNat
  let late (k : Nat) : Prop := k ≠ 0 ∧ k ≤ s.now
  let waits (k : Nat) (w : GWait) (t : State) : Prop := t.gth n = { g with st := 2, wait := w } ∧ t.mem = s.mem ∧
    (k ≠ 0 → (⟨k, .gafferDeadline (BitVec.ofNat 2 n)⟩ : Timer) ∈ t.timers)
  let settled : Prop := c.st = 0 ∨ c.st = 4 ∨ c.st = 6
  (e < 64 → (settled → Ends (.cawait d a b) s (fun t => GafferWrote s t n g (g.pc + 4) d (word 0))) ∧
    (¬ settled → late dl → Ends (.cawait d a b) s (fun t => GafferWrote s t n g (g.pc + 4) d (word 2))) ∧
    (¬ settled → ¬ late dl → Ends (.cawait d a b) s (waits dl (.circuit e d.toNat dl)))) ∧
  (∀ w l, g.evq = w :: l → g.overflow = false → Ends (.cwait d a) s (fun t => (t.gth n).rd d.toNat = (if d = 0 then 0 else w) ∧ (t.gth n).evq = l ∧
    (t.gth n).pc = g.pc + 4 ∧ t.mem = s.mem)) ∧
  (g.evq = [] → g.wake ≠ 0 → Ends (.cwait d a) s (fun t => (t.gth n).rd d.toNat = (if d = 0 then 0 else (0x07000000 : Word) ++ g.wake) ∧
    (t.gth n).wake = 0 ∧ (t.gth n).pc = g.pc + 4 ∧ t.mem = s.mem)) ∧
  (g.evq = [] → g.wake = 0 → (late e → Ends (.cwait d a) s (fun t => GafferWrote s t n g (g.pc + 4) d 0)) ∧
    (¬ late e → Ends (.cwait d a) s (waits e (.event d.toNat e)))) ∧
  (∀ (k dd : Nat) (h : GThread), k < 4 → s.gth k = h → ∀ w, h.wait = .event dd w → h.evq = [] → h.wake = 0 → late w → dd < 16 →
    Ends (.gafferDeadline (BitVec.ofNat 2 k)) s (fun t => (t.gth k).st = 1 ∧ (t.gth k).pc = h.pc + 4 ∧ (t.gth k).rd dd = 0 ∧ t.mem = s.mem)) ∧
  (∀ (k dd en : Nat) (h : GThread), k < 4 → s.gth k = h → ∀ w, h.wait = .circuit en dd w → (s.circuit en).st = 1 → late w →
    Ends (.gafferDeadline (BitVec.ofNat 2 k)) s (fun t => t = s.gDone k dd (s.resultWord en 2))) ∧
  (32 ≤ e → Ends (.cgate d a b) s (fun t => GafferWrote s t n g (g.pc + 4) d 3)) ∧
  (e < 32 → s.entryOf e = none → 2 ≤ dl % 4 → Ends (.cgate d a b) s (fun t => GafferWrote s t n g (g.pc + 4) d (BitVec.ofNat 64 ((s.port e).st.toNat * 2 ^ 16 + 3)))) ∧
  (e < 32 → s.entryOf e ≠ none → Ends (.cgate d a b) s (fun t =>
    GafferWrote s t n g (g.pc + 4) d (BitVec.ofNat 64 ((s.port e).st.toNat * 2 ^ 16 + 1)))) ∧
  (e < 32 → dl % 4 < 2 → s.entryOf e = none →
    let u := (s.setPort e { s.port e with badreq := false }).writeOpctl e (dl % 8 + dl / 16 % 16 * 16)
    Ends (.cgate d a b) s (fun t => t = (u.setPort e { u.port e with badreq := (s.port e).badreq || (u.port e).badreq }).gDone n d.toNat
      (BitVec.ofNat 64 ((u.port e).st.toNat * 2 ^ 16 + (u.port e).badreq.toNat))))

/-! Steps of collective programs (R122 to R143) -/

/-- SEND, RECV, RRS, RRD, COPY and BCAST (R128, R130, R134): a step whose peers are live and not itself, whose region lies in its
buffers, with a place among eight outstanding steps and no clash, starts: it joins the outstanding steps with its region, the peer it
receives from and the peers it sends to, and the program goes on; no byte of memory changes. A region of no element, or a named
peer that is skipped, only goes on; a region beyond its buffer ends the instance with cause 6, itself as peer with cause 8, a
softmax format other than FP32 with cause 13; with eight steps outstanding or a clash it waits before these checks, which are made in
the order 8, 13, 6 (log 100). -/
def Sys2Proof.Claims.CollectiveDataSteps : Prop := ∀ (f : Step) (s : State) (c k : Nat) (x : Crux) (d : CollDesc), Collective s c k x d →
  let i := c * 16 + k
  let p := x.peerOf d f f.pv.toInt
  let esz := if x.oper = 4 then (2 + x.smD) * 4 else if x.fmt = 1 ∨ x.fmt = 2 then 2 else 4
  let len (b : Nat) : Nat := match x.bufs[b]? with | some b => b.len | none => 0
  let data (j : Instr) (dst : Nat) (src : Option Nat) (to_ named : List Nat) (selfOk writes : Bool) : Prop :=
    let first := (x.region d f).1 * esz
    let bytes := (x.region d f).2 * esz
    let ok : Prop := (selfOk = true ∨ d.rank ∉ named) ∧ (f.pk = 1 ∨ ∀ r ∈ named, x.skipped r = false) ∧ (x.oper = 4 → x.fmt = 0)
    let t0 : DataStep := ⟨x.nextStep, x.step, j, x.oper, x.fmt, x.smD, f.buf.toNat, first, bytes, dst, src, to_, 0, [], writes, none, s.now⟩
    let room : Prop := x.outst.length < 8 ∧ ∀ o ∈ x.outst, o.clashes t0 = false
    let heard : Prop := f.pk = 1 ∨ ∀ r ∈ named, x.skipped r = false
    let timed : Prop := d.tmo ≠ 0 ∧ x.tmoAt = none
    (f.pk ≠ 1 → (∃ r ∈ named, x.skipped r = true) → Ends j s (fun t => t = s.setCx i { x with step := x.step + 1 })) ∧
    (heard → ¬ room → Ends j s (fun t => t = s)) ∧
    (heard → room → selfOk = false → d.rank ∈ named → Ends j s (fun t => t = s.endInstance i 8 false)) ∧
    (heard → room → (selfOk = true ∨ d.rank ∉ named) → x.oper = 4 → x.fmt ≠ 0 → Ends j s (fun t => t = s.endInstance i 13 false)) ∧
    (ok → room → len f.buf.toNat < first + bytes ∨ len dst < first + bytes → Ends j s (fun t => t = s.endInstance i 6 false)) ∧
    (ok → room → first + bytes ≤ len f.buf.toNat → first + bytes ≤ len dst → (x.region d f).2 = 0 →
      Ends j s (fun t => t = s.setCx i { x with step := x.step + 1 })) ∧
    (ok → room → first + bytes ≤ len f.buf.toNat → first + bytes ≤ len dst → (x.region d f).2 ≠ 0 →
      Ends j s (fun t => t.mem = s.mem ∧ (timed → (⟨s.now + 1000 * d.tmo, .stepTimeout (slotAt i)⟩ : Timer) ∈ t.timers) ∧
        (∃ a, t.cx i = { x with step := x.step + 1, nextStep := x.nextStep + 1, outst := x.outst ++ [t0], tmoAt := a } ∧
          (timed → a = some (s.now + 1000 * d.tmo)) ∧ (¬ timed → a = x.tmoAt)) ∧
        ∀ j, j ≠ i → t.cx j = s.cx j))
  let others := (x.live d).filter (fun r => r != d.rank)
  let bcastRoot : Prop := data (.bcast f) f.buf.toNat none others [] true false
  let bcastOther : Prop := data (.bcast f) f.buf.toNat (some p) [] [p] true true
  data (.send f) f.buf.toNat none [p] [p] false false ∧ data (.recv f) f.buf.toNat (some p) [] [p] false true ∧
  data (.rrs f) f.buf.toNat (some p) [x.mirror d f] [p, x.mirror d f] false true ∧
  data (.rrd f) f.buf.toNat (some p) [] [p] false true ∧ data (.copy f) (f.pv.toNat % 256) none [] [] true false ∧
  (p = d.rank → bcastRoot) ∧ (p ≠ d.rank → bcastOther)

/-- The control steps (R128, R129, R135), for an instance whose own rank is live: WAIT for at most CNT outstanding steps; WAIT.ev until a counter has its value, else the counter is
watched; loops that count from 0 and are skipped with a limit of 0; peer registers, operator and chunk size; NOTIFY's addition; DONE.
An instance whose own rank is skipped ends with cause 9 (SKIPSELF) at any step it starts. -/
def Sys2Proof.Claims.CollectiveControlSteps : Prop := ∀ (f : Step) (s : State) (c k : Nat) (x : Crux) (d : CollDesc),
  let i := c * 16 + k
  (s.cur = .crux c k → s.cx i = x → x.desc = some d → x.st = 2 → x.skipped d.rank = true →
    ∀ j ∈ [Instr.send f, .recv f, .rrs f, .rrd f, .copy f, .bcast f, .wait f, .waitEv f, .loop f, .endl f, .peer f, .setop f, .setch f, .notify f, .done f],
      Ends j s (fun t => t = s.endInstance i 9 false)) ∧
  (∀ n, n < 2 ^ 10 → x.skipped n = (tget 0 x.skip (n / 32)).getLsbD (n % 32)) ∧
  (Collective s c k x d →
  let goes (j : Instr) (y : Crux) : Prop := Ends j s (fun t => t = s.setCx i y)
  let next_ : Crux := { x with step := x.step + 1 }
  let by_ : Int := if f.dbl then f.pv.toInt * 2 ^ x.lc else if f.ls then f.pv.toInt + x.lc else f.pv.toInt
  let q := x.peerOf d f by_
  (x.outst.length ≤ f.cnt.toNat → goes (.wait f) next_) ∧ (f.cnt.toNat < x.outst.length → Ends (.wait f) s (fun t => t = s)) ∧
  (f.cnt ≠ 0 → goes (.loop f) { x with loops := (x.step, 0, f.cnt.toNat) :: x.loops, step := x.step + 1 }) ∧
  (f.cnt = 0 → goes (.loop f) { x with step := afterEndl x.prog x.step }) ∧
  (∀ a n m l, x.loops = (a, n, m) :: l → (n + 1 < m → goes (.endl f) { x with loops := (a, n + 1, m) :: l, step := a + 1 }) ∧
    (m ≤ n + 1 → goes (.endl f) { x with loops := l, step := x.step + 1 })) ∧
  (q ≠ d.rank → goes (.peer f) { x with peers := tset x.peers f.buf.toNat q, step := x.step + 1 }) ∧
  (q = d.rank → Ends (.peer f) s (fun t => t = s.endInstance i 8 false)) ∧
  goes (.setop f) { x with
    oper := f.cnt.toNat % 16, fmt := f.cnt.toNat / 16 % 16, smD := if f.cnt.toNat / 65536 % 1024 = 0 then 1024 else f.cnt.toNat / 65536 % 1024
    step := x.step + 1 } ∧
  (1 ≤ f.cnt.toNat → f.cnt.toNat ≤ 2 ^ 24 → goes (.setch f) { x with ch := f.cnt.toNat, step := x.step + 1 }) ∧
  (f.cnt = 0 ∨ 2 ^ 24 < f.cnt.toNat → Ends (.setch f) s (fun t => t = s.endInstance i 6 false)) ∧
  (∀ b, x.bufs[f.buf.toNat]? = some b → b.kind = 1 →
    (x.outst = [] → x.fault = none → ∀ old s1, s.devUpdate (c * 4) (x.ctx.getD 0) b.addr.toNat (fun v => v + f.cnt.toNat) = (.ok old, s1) → k < 16 →
      Ends (.notify f) s (fun t => t = s1.setCx i { s1.cx i with step := x.step + 1 })) ∧
    (x.outst ≠ [] → Ends (.notify f) s (fun t => t = s)) ∧
    (s.now ≥ x.backUntil → x.watch = none → x.fault = none → k < 16 → ∀ ks s1, s.resolve none (c * 4) (x.ctx.getD 0) 2 b.addr.toNat 8 needRD = (.ok ks, s1) →
      (f.cnt.toNat + (if f.ls then x.lc else 0) ≤ leNat (s1.peek ks) →
        Ends (.waitEv f) s (fun t => t = s1.setCx i { x with step := x.step + 1, watch := none, refusals := 0 })) ∧
      (leNat (s1.peek ks) < f.cnt.toNat + (if f.ls then x.lc else 0) → s1.canWatch (lineOf (ks.getD 0 0)) = true →
        Ends (.waitEv f) s (fun t => t = s1.setCx i { x with watch := some (lineOf (ks.getD 0 0)) })))) ∧
  (∀ b, x.bufs[f.buf.toNat]? = some b → b.kind ≠ 1 → ∀ j ∈ [Instr.notify f, .waitEv f], Ends j s (fun t => t = s.endInstance i 6 false)) ∧
  (x.outst ≠ [] → Ends (.done f) s (fun t => t = s)) ∧
  (x.outst = [] → Ends (.done f) s (fun t => t = (s.setCx i { x with
    leftover := x.ins.any (fun (p : Nat × InStream) => !p.2.ring.isEmpty || !p.2.early.isEmpty) }).endInstance i 0 false)))

/-! Events: power (R212 to R228) -/

/-- Changes of a cluster's level (R215) and droop alarms (R224). A raised rail starts the switch of the lane clock, which takes 256
front cycles (160 ns); at its end the cluster runs at the new level and takes up the target of R213. An alarm during a change is
kept; else it counts, stretches the clock by 60 lane edges of level 0 divided by 2^CUR, in quarters of a ns rounded up (log 7), and
halves issue until 64 front cycles (40 ns) after that. With DRPTH of 20 mV or more, work that its declarations cover raises none (R492,
log 74). No wave and no byte of memory changes. -/
def Sys2Proof.Claims.LevelChanges : Prop := ∀ (n : BitVec 4) (core : BitVec 8) (s : State),
  let c := s.cluster n.toNat
  let k := clusterOf core.toNat
  let x := s.core core.toNat
  let len := 60 / 2 ^ (s.cluster k).cur
  let alarms : Prop := (s.core core.toNat).drpth.toNat < 20 ∨ s.workCovered k = false
  let still (t : State) : Prop := t.mem = s.mem ∧ ∀ r, t.wave? r = s.wave? r
  (c.change.isSome = true → c.switching = false → Ends (.railRaised n) s (fun t =>
    t = { s with clusters := t.clusters, timers := s.timers ++ [⟨s.now + 160, .levelSwitchDone n⟩] } ∧
    t.cluster n.toNat = { c with switching := true, switchAt := s.now, edges := c.edgesAt s.ticks, edgeAt := s.ticks } ∧
    ∀ j, j ≠ n.toNat → t.cluster j = s.cluster j)) ∧
  (∀ lvl, c.change = some lvl → c.switching = true → c.switchAt + 160 ≤ s.now → Ends (.levelSwitchDone n) s (fun t => still t ∧
    (t.cluster n.toNat).cur = lvl ∧ (t.cluster n.toNat).tgt = s.targetLevel n.toNat ∧ (t.cluster n.toNat).alarms = [] ∧
    (t.cluster n.toNat).change = if s.targetLevel n.toNat = lvl then none else some (s.targetLevel n.toNat))) ∧
  (¬alarms → Ends (.droopAlarm core) s (fun t => t = s)) ∧
  (alarms → (s.cluster k).change.isSome = true → Ends (.droopAlarm core) s (fun t => t = { s with clusters := t.clusters } ∧
    t.cluster k = { s.cluster k with alarms := (s.cluster k).alarms ++ [core.toNat] } ∧ ∀ j, j ≠ k → t.cluster j = s.cluster j)) ∧
  (alarms → (s.cluster k).change = none → Ends (.droopAlarm core) s (fun t => still t ∧
    t.core core.toNat = { x with halved := some (s.now + ((len + 3) / 4 + 40)), drpcnt := satInc x.drpcnt } ∧
    (∀ j, j ≠ core.toNat → t.core j = s.core j) ∧
    (t.cluster k).stretchTo = 4 * s.ticks + len ∧ (∀ j, j ≠ k → t.cluster j = s.cluster j) ∧
    t.timers = s.timers ++ [⟨s.now + ((len + 3) / 4 + 40), .halvedIssueEnd (BitVec.ofNat 8 core.toNat)⟩])) ∧
  (∀ e, x.halved = some e → e ≤ s.now → Ends (.halvedIssueEnd core) s (fun t => t = { s with cores := t.cores } ∧
    t.core core.toNat = { x with halved := none } ∧ ∀ j, j ≠ core.toNat → t.core j = s.core j))

/-- Burst declarations (R217, R220), throttles (R222) and the release of a barrier (R221). A declaration becomes ready, is admitted
where it is ready, due and within RAMP over the admissions of the last INTV front cycles, and ends LENGTH µs after its admission; an
admission that RAMP forbids changes nothing but a timer. RELEASE_GROUP wakes the next RELGRP waves of an opened barrier (16 for 0), all
of them when RELSP is 0, and comes again for the rest RELSP front cycles later. -/
def Sys2Proof.Claims.BurstsAndThrottles : Prop := ∀ (n : BitVec 4) (core : BitVec 8) (b : BitVec 6) (r : WaveRef) (w : Wave) (d : Decl)
    (s : State),
  let c := s.cluster n.toNat
  let recent := c.admits.filter (fun a => decide (8 * (s.now - a.1) < 5 * max 1 c.intv.toNat))
  let total := (recent.map (fun a => a.2)).foldl (· + ·) 0 + d.int
  let limit := max 16 (min 192 c.ramp.toNat)
  let x := s.core core.toNat
  let k := s.cluster (clusterOf core.toNat)
  let set (t : State) (v : Option Decl) : Prop := t.wave? r = some { w with decl := v } ∧ (∀ q, q ≠ r → t.wave? q = s.wave? q) ∧ t.mem = s.mem
  (s.wave? r = some w → w.decl = some d → d.admitted = none → Ends (.regulatorReady r) s (fun t => set t (some { d with ready := true }) ∧
    t = { s with cores := t.cores, timers := s.timers ++ [⟨max s.now d.onset, .burstAdmit (BitVec.ofNat 4 (clusterOf r.core))⟩] })) ∧
  (s.wave? r = some w → minBy (fun p => p.2.order) ((s.pendingDecls n.toNat).filter (fun p => p.2.told)) = some (r, d) → d.ready = true → d.onset ≤ s.now →
    (total ≤ limit → Ends (.burstAdmit n) s (fun t => set t (some { d with admitted := some (s.now + 1000 * d.length) }) ∧
      t.cluster n.toNat = { c with admits := c.admits.filter (fun a => decide (8 * (s.now - a.1) < 5 * 255)) ++ [(s.now, d.int)] } ∧ (∀ j, j ≠ n.toNat → t.cluster j = s.cluster j) ∧
      t.timers = s.timers ++ [⟨s.now + 1000 * d.length, .declarationEnd r⟩])) ∧
    (limit < total → Ends (.burstAdmit n) s (fun t => t = { s with timers := t.timers }))) ∧
  (∀ e, s.wave? r = some w → w.decl = some d → d.admitted = some e → e ≤ s.now → Ends (.declarationEnd r) s (fun t =>
    set t none ∧ t = { s with cores := t.cores })) ∧
  (∀ e v, x.throttle = some (e, v) → e ≤ s.now → Ends (.throttleEnd core) s (fun t => t = { s with cores := t.cores } ∧
    t.core core.toNat = { x with throttle := none } ∧ ∀ j, j ≠ core.toNat → t.core j = s.core j)) ∧
  (∀ l, x.release.find? (fun e => e.1 == b.toNat) = some (b.toNat, l) →
    let waves := dedup (l.map (fun p => p.1))
    let go := if k.relsp = 0 then waves else waves.take (if k.relgrp = 0 then 16 else k.relgrp.toNat)
    let rest := l.filter (fun p => !go.contains p.1)
    Ends (.releaseGroup core b) s (fun t => t = { s with cores := t.cores, queue := t.queue, timers := t.timers } ∧
      (∀ j, j ≠ core.toNat → t.core j = s.core j) ∧
      t.core core.toNat = { x with
        waves := (t.core core.toNat).waves
        release := x.release.filter (fun e => e.1 != b.toNat) ++ (if rest = [] then [] else [(b.toNat, rest)]) } ∧
      (∀ j, t.wave? ⟨core.toNat, j⟩ = (s.wave? ⟨core.toNat, j⟩).map (fun v => { v with frags := v.frags.map (fun f =>
        if go.contains j && l.contains (j, f.id) then { f with sleep := f.sleep.map (fun y => { y with wokenAt := some s.now }) } else f) })) ∧
      (∀ e, e ∈ t.queue ↔ e ∈ s.queue ∨ ∃ p ∈ l, go.contains p.1 = true ∧ e = .fragmentWake ⟨core.toNat, p.1⟩ p.2) ∧
      t.timers = s.timers ++ if rest = [] then [] else [⟨s.now + (k.relsp.toNat * 5 + 7) / 8, .releaseGroup core b⟩]))

/-- The power cap steps down to 4 with PLIMEV set, and up to 16 (R27, R223). A calibration pass begins on a due cluster that has been
idle for IDLEFC (R226), and at its end the margins and the time are written and the gate sequence starts (R207). -/
def Sys2Proof.Claims.PowerCapAndCalibration : Prop := ∀ (n : BitVec 4) (a b e : BitVec 5) (s : State),
  let c := s.cluster n.toNat
  Ends .pwrcapLower s (fun t => t = { s with pwrcap := t.pwrcap, modl := { s.modl with plimev := true } } ∧
    t.pwrcap.toNat = max 4 (s.pwrcap.toNat - 1)) ∧
  Ends .pwrcapRaise s (fun t => t = { s with pwrcap := t.pwrcap } ∧ t.pwrcap.toNat = min 16 (s.pwrcap.toNat + 1)) ∧
  (c.calen = true → c.lastCal + 1000000000 * max 1 c.calper.toNat ≤ s.now → s.idleLong n.toNat = true → c.gated = false →
    c.gateStart = none → c.calibrating = false → c.wakeAt = none →
    Ends (.calibrationPass n) s (fun t => t = s.setCluster n.toNat { c with calibrating := true })) ∧
  (c.calibrating = true → Ends (.calibrationDone n a b e) s (fun t => t = { s with clusters := t.clusters, mgmt := t.mgmt, timers := t.timers } ∧
    t.mgmt = { s.mgmt with hist := t.mgmt.hist } ∧ (∀ j, j ≠ n.toNat → t.cluster j = s.cluster j) ∧
    t.cluster n.toNat = { c with
      calibrating := false, valid := true, mdbl := a, meq := b, mhalf := e, lastCal := s.now
      gateStart := if (s.die (n.toNat / 8)).gateen = true then some s.now else c.gateStart }))

/-! Events: the module (R24 to R30, R170 to R172, R179, R180, R184) -/

/-- Starts (R25, R26, R29, R170 to R172). Power on, a reset and the return of the input take all state of the dies, and PGOOD is 0 until
the rails are up (log 85); a start that no failure ends is boot-complete with no count of failures, the host port up, stream 0 open and
window 0 valid; one that fails at step k is
open, not complete, and counted, from step 1 on; after three failed starts the module starts minimal, without window 0; the count of a
start that a reset ended is taken back first. A start that has not completed after 30 s is recorded under its own number with what
stopped it, or as TIMEOUT. (Choices of the model: memory then lists nothing, log 2; the time base begins at 0, log 4; which starts
count, and minimal mode, log 69; MODRST_N while the module is off, log 88.) -/
def Obligations.Starts : Prop := ∀ (b : Boot) (s : State),
  let bare (t : State) : Prop := t.mem = [] ∧ t.cores = [] ∧ t.clusters = [] ∧ t.queues = [] ∧ t.ctxs = [] ∧ t.circuits = [] ∧ t.links = [] ∧
    t.gaffer = [] ∧ t.cru = [] ∧ t.asyncs = [] ∧ t.now = 0 ∧ t.pwrcap = 16 ∧ t.fdidValid = false ∧ t.mgmt.ucerr = false ∧ t.mgmt.qps = [] ∧
    t.modl.on = true ∧ t.modl.latch = false ∧ t.modl.railsUp = false
  let up (i : Instr) (less : Bool) : Prop :=
    let before := if less then s.mgmt.failed - 1 else s.mgmt.failed
    (b.fail = none → before < 3 → Ends i s (fun t => bare t ∧ t.mgmt.bootComplete = true ∧ t.mgmt.failed = 0 ∧
      t.mgmt.startOpen = false ∧ t.mgmt.minimal = false ∧ t.hostUp = true ∧ t.streams = [(0, { open_ := true })] ∧ (t.win 0).isSome = true ∧
      ∀ w, w ≠ 0 → t.win w = none)) ∧
    (∀ f, b.fail = some f → 1 ≤ f.step.toNat → f.step.toNat < 5 → before < 3 →
      Ends i s (fun t => bare t ∧ t.mgmt.bootComplete = false ∧ t.mgmt.failed = before + 1 ∧ t.mgmt.startOpen = true ∧
      t.mgmt.startIncr = true ∧ t.mgmt.startFail = some f ∧ t.mgmt.bootStep = f.step.toNat ∧
      (t.hostUp = true ↔ f.step = 4))) ∧
    (∀ f, b.fail = some f → f.step = 0 → Ends i s (fun t => t.mem = [] ∧ t.modl.on = true ∧ t.mgmt.bootComplete = false ∧
      t.mgmt.failed = s.mgmt.failed ∧ t.mgmt.startOpen = true ∧ t.mgmt.startIncr = false)) ∧
    (3 ≤ before → (∀ f, b.fail = some f → f.step ≠ 0) → Ends i s (fun t => bare t ∧ t.hostUp = true ∧ t.mgmt.minimal = true ∧
      t.mgmt.bootComplete = false ∧ t.streams = [(0, { open_ := true })] ∧ t.windows = []))
  (s.modl.on = false → s.modl.connected = true → up (.powerOn b) (s.modl.latch && s.mgmt.resetIncr)) ∧
  (s.modl.connected = false → up (.inputReconnect b) (s.modl.latch && s.mgmt.resetIncr)) ∧
  (s.modl.on = true → up (.modrstNAssert b) (s.mgmt.resetIncr || (s.mgmt.startOpen && s.mgmt.startIncr))) ∧
  (s.modl.on = false → Ends (.modrstNAssert b) s (fun t => t = { s with modl := { s.modl with latch := true } })) ∧
  (s.modl.on = true → s.mgmt.startOpen = true → 30000000000 ≤ s.ticks → Ends (.failedStart s.mgmt.startNo) s (fun t =>
    t = { s with mgmt := t.mgmt } ∧
    t.mgmt = { s.mgmt with startOpen := false, startIncr := false, bootFails := t.mgmt.bootFails, counters := t.mgmt.counters } ∧
    t.mgmt.bootFails = ((s.mgmt.startNo, s.mgmt.startFail.getD ⟨6, BitVec.ofNat 8 s.mgmt.bootStep, 0xFF, 0⟩) :: s.mgmt.bootFails).take 16 ∧
    t.mgmt.counters = tset s.mgmt.counters 2 (min 0xFFFFFFFF (tget 0 s.mgmt.counters 2 + 1)))) ∧
  (s.modl.on = true → s.mgmt.startOpen = true → s.ticks < 30000000000 → Ends (.failedStart s.mgmt.startNo) s (fun t =>
    t = { s with timers := s.timers ++ [⟨s.now + (30000000000 - s.ticks), .failedStart s.mgmt.startNo⟩] }))

/-- The input and the sensors (R24, R26, R29, R179): a warning is latched; a shutdown and an overvoltage take the state of the dies,
and the sensors, latches and the flash stay; measurements replace the values shown, PIN to 2,600 W; while the management core runs each
sample, at least a minute after the last one, counts in its bin of 4 °C. (That UVWARN takes the input out of its operating range is log
68, and the bins are log 61.) -/
def Sys2Proof.Claims.InputAndSensors : Prop := ∀ (vin : BitVec 16) (pin : BitVec 12) (d : BitVec 2) (ok : Bool) (s : State),
  Ends .uvwarn s (fun t => t = { s with modl := { s.modl with uvwarn := true, inputOk := false } }) ∧
  (s.modl.on = true → Ends .inputShutdown s (fun t => t.modl = { s.modl with on := false, inputOk := false, railsUp := false } ∧ t.cores = [] ∧ t.ctxs = [] ∧
    t.mgmt.log = s.mgmt.log ∧ t.mgmt.slots = s.mgmt.slots ∧ t.mgmt.staged = s.mgmt.staged ∧ t.mgmt.failed = s.mgmt.failed ∧
    t.mgmt.pages = s.mgmt.pages ∧ t.mgmt.counters = (match s.mgmt.pages with | p :: _ => p.1 | [] => []))) ∧
  (s.modl.on = false → Ends .inputShutdown s (fun t => t = s)) ∧
  (s.modl.on = true → Ends .ovoff s (fun t => t.modl = { s.modl with
    ovoff := true, connected := false, on := false, inputOk := false, railsUp := false } ∧
    t.cores = [] ∧ t.ctxs = [] ∧ t.mgmt.log = s.mgmt.log)) ∧
  (s.modl.on = false → Ends .ovoff s (fun t =>
    t = { s with modl := { s.modl with ovoff := true, connected := false, on := false, inputOk := false } })) ∧
  Ends (.modpwrUpdate vin pin) s (fun t => t = { s with modl := t.modl } ∧ ∃ i : Bool, t.modl = { s.modl with vin := vin, pin := if 2600 < pin.toNat then 2600 else pin, inputOk := i } ∧
    (i = true ↔ 5000 ≤ vin.toNat ∧ vin.toNat ≤ 5800)) ∧
  Ends (.railOutOfRegulation d ok) s (fun t => t = { s with modl := t.modl } ∧ t.modl = { s.modl with rails := t.modl.rails } ∧
    ∀ k, k < 4 → t.modl.rails.getLsbD k = if k = d.toNat then ok else s.modl.rails.getLsbD k) ∧
  (∀ a b x y : Int, s.modl.on = true → s.mgmt.bootStep ≠ 0 → (∃ p, s.mgmt.tempAt = some p ∧ s.ticks < p + 60000000000) →
    Ends (.temperatureSample a b x y) s (fun t => t = s)) ∧
  ∀ a b x y : Int, s.modl.on = true → s.mgmt.bootStep ≠ 0 → (∀ p, s.mgmt.tempAt = some p → p + 60000000000 ≤ s.ticks) →
    Ends (.temperatureSample a b x y) s (fun t => t = { s with mgmt := { s.mgmt with hist := t.mgmt.hist, tempAt := some s.ticks } } ∧
    ∀ k, tget 0 t.mgmt.hist k = if k = 64 + tempBin a ∨ k = 96 + tempBin b ∨ k = 128 + tempBin x ∨ k = 160 + tempBin y
      then min 0xFFFFFFFF (tget 0 s.mgmt.hist k + 1) else tget 0 s.mgmt.hist k)

/-- Lifetime records and soft errors (R179, R180, R182, R184). An hour counts in POWER-ON HOURS and empties the hour's counts; a
commit keeps two pages; a corrected error counts under its class, an uncorrectable one sets UCERR, counts, is logged, and ends the
context that owns the state. -/
def Sys2Proof.Claims.LifetimeAndSoftErrors : Prop := ∀ (s : State),
  Ends .powerOnHours s (fun t => t = { s with mgmt := t.mgmt, timers := s.timers ++ [⟨s.now + 3600000000000, .powerOnHours⟩] } ∧
    tget 0 t.mgmt.counters 0 = min 0xFFFFFFFF (tget 0 s.mgmt.counters 0 + 1) ∧ t.mgmt.hourDroop = [] ∧ t.mgmt.hourThrottle = 0 ∧
    t.mgmt = { s.mgmt with counters := t.mgmt.counters, hist := t.mgmt.hist, hourDroop := [], hourThrottle := 0 }) ∧
  Ends .flashCommit s (fun t => t = { s with mgmt := t.mgmt, timers := s.timers ++ [⟨s.now + 60000000000, .flashCommit⟩] } ∧
    t.mgmt = { s.mgmt with pages := ((s.mgmt.counters, s.mgmt.hist) :: s.mgmt.pages).take 2 }) ∧
  (∀ on_ : Bool, Ends (.patrolScrub on_) s (fun t => t = { s with mgmt := { s.mgmt with scrub := on_ }, timers := t.timers } ∧
    (on_ = false → t.timers = s.timers) ∧ (on_ = true → (∀ x ∈ s.timers, x.what ≠ .patrolScrub true) →
      t.timers = s.timers ++ [⟨s.now + 3600000000000, .patrolScrub true⟩]))) ∧
  (∀ (c : BitVec 3) (d : BitVec 8) (o : ErrorOwner), c.toNat < 6 → Ends (.softError ⟨c, d, true, o⟩) s (fun t =>
    t = { s with mgmt := { s.mgmt with counters := t.mgmt.counters } } ∧
    ∀ k, tget 0 t.mgmt.counters k = if k = 132 + c.toNat then min 0xFFFFFFFF (tget 0 s.mgmt.counters k + 1) else tget 0 s.mgmt.counters k)) ∧
  (∀ (c : BitVec 3) (d : BitVec 8), c.toNat < 6 → Ends (.softError ⟨c, d, false, .none⟩) s (fun t => t = { s with mgmt := t.mgmt } ∧
    t.mgmt.ucerr = true ∧ (∃ e : LogEntry, t.mgmt.log.getLast? = some e ∧ e.kind = 4 ∧ e.data = BitVec.ofNat 64 (c.toNat + 256 * d.toNat)) ∧
    ∀ k, tget 0 t.mgmt.counters k = if k = 138 + c.toNat then min 0xFFFFFFFF (tget 0 s.mgmt.counters k + 1) else tget 0 s.mgmt.counters k)) ∧
  (∀ (c : BitVec 3) (d x : BitVec 8), c.toNat < 6 → (s.ctx? x.toNat).isSome = true →
    Ends (.softError ⟨c, d, false, .context x⟩) s (fun t => t.ctx? x.toNat = none))

/-! Events: optical ports (R31 to R55, R74, R81) -/

/-- The way of a port up and down (R39, R41 to R43, R71): wake, light from the far end on exactly the lit groups (its own light, where its
loop back is in effect), TRAINED with its round trip, LIVE with its circuit, and back through the drain and the gating to DARK, where
OPLOSS counts the entry that a relock's time-out made (R54). Memory and cores stay. (Choices of the model: numbering starts afresh at
the wake and goes on past what a drain drops, log 9; a handshake flit is numbered as it is sent, log 63; a relock whose TARGET is not
LIVE loses what it had kept, log 80.) -/
def Sys2Proof.Claims.PortTransitions : Prop := ∀ (p : BitVec 5) (s : State) (e : Nat),
  let n := p.toNat
  let x := s.port n
  let ends (i : Instr) (P : State → Port → Prop) : Prop := Ends i s (fun t => t.mem = s.mem ∧ t.cores = s.cores ∧ P t (t.port n))
  (x.trans = some (1, e) → e ≤ s.now → ends (.laserWakeDone p) (fun t y => y.st = 1 ∧ y.lit = x.grpmask ∧ y.target = x.target ∧
    y.unacked = [] ∧ y.since = s.now ∧ (⟨s.now + 200000, .lockTimeout p⟩ : Timer) ∈ t.timers ∧
    (x.target ≠ 0 → y.trans = if x.loopbk = true then some (5, s.now + 14000) else none) ∧
    (x.target = 0 → y.trans = some (2, s.now + 200)) ∧ ∀ j, j ≠ n → t.port j = s.port j)) ∧
  (x.st = 1 → x.looped = false → (∀ k, x.trans ≠ some (2, k)) → ∀ f : FarEnd,
    (f.groups = x.lit → x.lightAt = none → ends (.farEndLightArrival p f) (fun t y => t = s.setPort n y ∧
      y = { x with far := some f, farAt := some s.now, lightAt := some s.now, mismatchAt := [], trans := some (5, s.now + 14000) })) ∧
    (f.groups &&& ~~~x.lit ≠ 0 → ends (.farEndLightArrival p f) (fun t y =>
      y = { x with far := some f, farAt := some s.now, lightAt := none, trans := none, mismatchAt := y.mismatchAt } ∧
      (∀ g, g < 4 → tfind y.mismatchAt g =
        if f.groups.getLsbD g = true ∧ x.lit.getLsbD g = false then some (tget s.now x.mismatchAt g) else none) ∧
      (x.mismatchAt = [] → t.timers = s.timers ++ [⟨s.now + 2000, .groupMismatch p⟩]))) ∧
    (f.groups ≠ x.lit → f.groups &&& ~~~x.lit = 0 → ends (.farEndLightArrival p f) (fun t y => t = s.setPort n y ∧
      y = { x with far := some f, farAt := some s.now, lightAt := none, mismatchAt := [], trans := none }))) ∧
  (x.st = 1 → x.trans = some (5, e) → e ≤ s.now → ∀ rtt : BitVec 24, ends (.lockAchieved p rtt) (fun _ y => y.st = 2 ∧
    y.since = s.now ∧ y.valid = true ∧ y.rtt0 = (if x.looped = true then Config.loopDelay n else rtt) ∧ y.rttc = y.rtt0 ∧ y.lit = x.lit ∧
    y.recal = false ∧ y.caldone = (x.caldone || x.recal) ∧
    (x.target ≠ 2 → y.drainlost = (x.drainlost || x.unacked.any (fun f => f.typ != 2)) ∧ ∀ f ∈ y.unacked, f.typ = 2) ∧
    (x.target ≠ 2 ∨ (x.stalled = [] ∧ x.unacked.length < 64) → y.txSeq = x.txSeq + 1))) ∧
  (x.st = 2 → x.trans = some (4, e) → e ≤ s.now → s.portMissed n = false → ends (.handshakeLive p) (fun t y => y.st = 3 ∧
    y.since = s.now ∧ y.lit = x.lit ∧ (∃ m ∈ t.timers, m.what = .ackOnlyFlit p) ∧
    ∀ k, s.entryOf n = some k → (s.circuit k).st = 3 → (t.circuit k).st = 4)) ∧
  (x.st = 2 → x.trans = some (4, e) → e ≤ s.now → s.portMissed n = true → x.target = 2 → (∀ q ∈ s.circuits, q.2.tearPending = false) →
    ends (.handshakeLive p) (fun t _ => t = s.setPort n { x with trans := none })) ∧
  (x.st = 3 → x.trans = some (3, e) → ((x.marker = none ∧ 3 ∉ x.stalled) ∨ e ≤ s.now) → ends (.drainEnd p) (fun _ y => y.st = 2 ∧
    y.since = s.now ∧ y.unacked.length = 1 ∧ y.drainlost = (x.drainlost || !x.unacked.isEmpty))) ∧
  (x.trans = some (2, e) → e ≤ s.now → ends (.portGated p) (fun _ y => y.st = 0 ∧ y.lit = 0 ∧ y.since = s.now ∧ y.unacked = [] ∧
    y.loss = if x.relock = true ∧ x.clearedAt ≠ some s.now then satInc x.loss else x.loss))

/-- The ways a port fails (R40 to R42, R44, R45, R49, R50, R71): its flag and LASTERR, the TARGET it takes, and the entry of the port,
which fails with that status where it was RESERVED or LIVE; a laser source that is removed takes its eight ports down, and they stay
DARK until TARGET is written. (Choices of the model, log 80: an idle DARK port only has its TARGET cleared, a port in its wake counts no
OPLOSS, flits kept by a relock are lost with it, and the ns of a clear is its cycle; what VERMIS drops is log 63.) -/
def Sys2Proof.Claims.PortFailures : Prop := ∀ (p : BitVec 5) (s : State),
  let n := p.toNat
  let x := s.port n
  let ends (i : Instr) (P : State → Port → Prop) : Prop := Ends i s (fun t => t.mem = s.mem ∧ t.cores = s.cores ∧ P t (t.port n))
  let fails (t : State) (v : BitVec 4) : Prop := ∀ k, (∀ q ∈ s.circuits, q.2.port.toNat = n → q.1 = k) → s.entryOf n = some k →
    (s.circuit k).st = 3 ∨ (s.circuit k).st = 4 → (t.circuit k).st = 6 ∧ (t.circuit k).status = v
  (x.st = 1 → x.since + 200000 ≤ s.now → (∀ k, x.trans ≠ some (2, k)) → ends (.lockTimeout p) (fun t y => y.st = 1 ∧ y.lockfail = true ∧
    y.target = 0 ∧ y.lasterr = (if x.relock = true then 7 else 3) ∧ y.trans = some (2, s.now + 200) ∧ y.unacked = [] ∧
    y.drainlost = (x.drainlost || !x.unacked.isEmpty) ∧ y.loss = x.loss ∧ y.relock = x.relock ∧ fails t 6)) ∧
  (x.st = 1 → (∃ g ∈ x.mismatchAt, g.2 + 2000 ≤ s.now) → x.trans = none → ends (.groupMismatch p) (fun t y => y.st = 1 ∧
    y.lockfail = true ∧ y.target = 0 ∧ y.lasterr = 8 ∧ y.trans = some (2, s.now + 200) ∧ y.unacked = [] ∧ y.relock = false ∧
    y.drainlost = (x.drainlost || !x.unacked.isEmpty) ∧ fails t 6)) ∧
  (x.st = 2 → x.target = 2 → (∀ f, x.far = some f → f.ver ≠ s.portVer n) → max x.since x.targetAt + 20000 + x.rttc.toNat / 10 ≤ s.now →
    ends (.vermis p) (fun t y => y.st = 2 ∧ y.vermis = true ∧ y.lasterr = 5 ∧ y.target = 1 ∧ fails t 5)) ∧
  (x.st = 2 ∨ x.st = 3 → ends (.lossOfLock p) (fun t y => y.st = 1 ∧ y.lockloss = true ∧ y.relock = decide (x.target ≠ 0) ∧ y.unacked = x.unacked ∧
    (⟨s.now + 200000, .lockTimeout p⟩ : Timer) ∈ t.timers)) ∧
  (x.st ≠ 0 → ends (.laserLightLoss p) (fun t y => y.st = 0 ∧ y.lit = 0 ∧ y.target = 0 ∧ y.laserlost = true ∧ y.lasterr = 2 ∧
    (x.clearedAt ≠ some s.now → y.loss = satInc x.loss) ∧ y.unacked = [] ∧ y.drainlost = (x.drainlost || !x.unacked.isEmpty) ∧
    ((∀ q ∈ s.circuits, q.2.freeOnDark = false) → fails t 6))) ∧
  (x.st = 0 → x.trans ≠ none → ends (.laserLightLoss p) (fun _ y => y.st = 0 ∧ y.target = 0 ∧ y.laserlost = true ∧ y.lasterr = 2 ∧
    y.trans = none ∧ y.loss = x.loss)) ∧
  (x.st = 0 → x.trans = none → ends (.laserLightLoss p) (fun t _ => t = s.setPort n { x with target := 0 })) ∧
  (∀ c, x.berth.toNat * 256 < c → ends (.berhigh p c) (fun _ y => y = { x with berhigh := true, berEvents := x.berEvents + 1 })) ∧
  (∀ c, c ≤ x.berth.toNat * 256 → ends (.berhigh p c) (fun t _ => t = s)) ∧
  (∀ (m : BitVec 2) (ok : Bool), Ends (.elsRemove m) s (fun t => t.mem = s.mem ∧ t.modl.elspres.getLsbD m.toNat = false ∧
      t.modl.elsok.getLsbD m.toNat = false ∧ ∀ k, k < 8 → (t.port (8 * m.toNat + k)).target = 0 ∧
        ((s.port (8 * m.toNat + k)).st ≠ 0 → (t.port (8 * m.toNat + k)).st = 0 ∧ (t.port (8 * m.toNat + k)).laserlost = true)) ∧
    Ends (.elsInsert m ok) s (fun t => t = { s with modl := t.modl } ∧ t.modl = { s.modl with elspres := t.modl.elspres, elsok := t.modl.elsok } ∧
      ∀ k, k < 4 → t.modl.elspres.getLsbD k = (s.modl.elspres.getLsbD k || decide (k = m.toNat)) ∧
        t.modl.elsok.getLsbD k = (s.modl.elsok.getLsbD k || decide (k = m.toNat) && ok)))

/-- Requests to a port (R45 to R47, R54, R185): a refused write sets BADREQ and LASTERR, and no write of TARGET reaches a port whose engine
is down or, other than DARK, one without a laser source; TARGET starts the wake from DARK, the gating from TRAINED and the drain from
LIVE; GRPMASK is taken in DARK, and as a subset of the lit groups in TRAINED; recalibration passes through LOCKING, in TRAINED only;
CLRCNT clears the counters. What a write does during a transition is the choice of log 80. -/
def Obligations.PortRequests : Prop := ∀ (p : BitVec 5) (s : State),
  let n := p.toNat
  let x := s.port n
  let sets (i : Instr) (y : Port) : Prop := Ends i s (fun t => t = s.setPort n y)
  sets (.opctlTargetWrite p 3) { x with badreq := true, lasterr := 1 } ∧
  (∀ v : BitVec 2,
    (x.down = true → sets (.opctlTargetWrite p v) { x with badreq := true, lasterr := 1 }) ∧
    (x.down = false → v ≠ 0 → v ≠ 3 → s.elsOk n = false → sets (.opctlTargetWrite p v)
      { x with badreq := true, lasterr := 1, target := if x.st = 0 then 0 else x.target }) ∧
    (x.down = false → v ≠ 3 → (v = 0 ∨ s.elsOk n = true) →
      (v = x.target ∨ (x.trans = none ∧ ((x.st = 0 ∧ v = 0) ∨ (x.st = 2 ∧ v = 1) ∨ (x.st = 3 ∧ v = 2)))) →
      Ends (.opctlTargetWrite p v) s (fun t => t = s)) ∧
    (x.st = 0 → x.trans = none → x.target = 0 → grpOk x.grpmask = true → s.elsOk n = true → x.down = false → v = 1 ∨ v = 2 →
      Ends (.opctlTargetWrite p v) s (fun t => t = { s with ports := t.ports, timers := s.timers ++ [⟨s.now + 3000, .laserWakeDone p⟩] } ∧
        t.port n = { x with target := v, targetAt := s.now, trans := some (1, s.now + 3000) })) ∧
    (x.st = 2 → x.trans = none → x.target ≠ 0 → x.down = false → x.looped = false → v = 0 →
      Ends (.opctlTargetWrite p v) s (fun t => (t.port n).st = 2 ∧ (t.port n).target = 0 ∧ (t.port n).trans = some (2, s.now + 200) ∧
        t.timers = s.timers ++ [⟨s.now + 200, .portGated p⟩] ∧ t.mem = s.mem)) ∧
    (x.st = 3 → x.trans = none → x.target = 2 → x.down = false → x.looped = false → x.stalled = [] → x.unacked.length < 64 →
      v = 0 ∨ (v = 1 ∧ s.elsOk n = true) → Ends (.opctlTargetWrite p v) s (fun t => (t.port n).st = 3 ∧ (t.port n).target = v ∧
        (t.port n).trans = some (3, s.now + 1000) ∧ (t.port n).marker = some (x.txSeq + 1) ∧
        t.timers = s.timers ++ [⟨s.now + 1000, .drainEnd p⟩] ∧ t.mem = s.mem))) ∧
  (∀ g : BitVec 4, (g ≠ x.grpmask → grpOk g = false → sets (.opctlGrpmaskWrite p g) { x with badreq := true, lasterr := 4 }) ∧
    (g ≠ x.grpmask → grpOk g = true → x.st = 2 → g &&& x.lit = g → sets (.opctlGrpmaskWrite p g) { x with grpmask := g, lit := g }) ∧
    (g ≠ x.grpmask → grpOk g = true → x.st ≠ 0 → (x.st ≠ 2 ∨ g &&& x.lit ≠ g) →
      sets (.opctlGrpmaskWrite p g) { x with badreq := true, lasterr := 4 }) ∧
    (g ≠ x.grpmask → x.st = 0 → (x.trans ≠ none ∨ x.target = 0) → grpOk g = true → sets (.opctlGrpmaskWrite p g) { x with grpmask := g }) ∧
    (g = x.grpmask → Ends (.opctlGrpmaskWrite p g) s (fun t => t = s))) ∧
  (x.st = 2 → (x.target ≠ 0 ∨ ∃ k, x.trans = some (2, k)) → (∀ q ∈ s.circuits, q.2.tearPending = false) → Ends (.calreq p) s (fun t => t = { s with ports := t.ports, timers := t.timers } ∧ (t.port n).st = 1 ∧
    (t.port n).recal = true ∧ (t.port n).since = s.now ∧ t.timers = s.timers ++ [⟨s.now + 200000, .lockTimeout p⟩] ∧
    ((∃ k, x.trans = some (2, k)) → (t.port n).trans = x.trans) ∧
    ((∀ k, x.trans ≠ some (2, k)) → (x.loopbk = true ∨ x.looped = false ∧ ∃ f, x.far = some f ∧ f.groups = x.lit) →
      (t.port n).trans = some (5, s.now + 14000)))) ∧
  (x.st ≠ 2 → sets (.calreq p) { x with badreq := true, lasterr := 6 }) ∧
  Ends (.clrcnt p) s (fun t => t = { s with ports := t.ports, mgmt := { s.mgmt with counters := t.mgmt.counters } } ∧
    t.port n = { x with fecc := 0, fecu := 0, crce := 0, rply := 0, loss := 0, berEvents := 0, clearedAt := some s.now } ∧
    tget 0 t.mgmt.counters (144 + 2 * n) = min 0xFFFFFFFF (tget 0 s.mgmt.counters (144 + 2 * n) + x.loss.toNat) ∧
    tget 0 t.mgmt.counters (145 + 2 * n) = min 0xFFFFFFFF (tget 0 s.mgmt.counters (145 + 2 * n) + x.berEvents))

/-- Flits at a receiver (R35, R37, R38, R42 to R44, R74) and the table of fibre delays (R81): an uncorrectable flit and one that fails its
check ask for replay; an idle flit's ACKSEQ takes the flits up to it, modulo 2^16, out of the replay buffer, and its NAK has the others
sent again in order, in TRAINED only those before a data flit; with 64 flits unacknowledged none is sent, and a marker then waits and
goes once the buffer has room; a numbered flit out of turn asks for replay; a data flit that passes R74 in its turn is handed
on in order, with its event; a handshake flit shows the far end; a marker stops data until the next handshake; an acknowledge-only
flit leaves as 256 bytes. Every 10 ms RTTC := RTT0 + TCOEF × (PLANT − TREF) / 1000, rounded to the nearest with ties to even, of each
port that was measured and has had a beacon since. -/
def Obligations.FlitsAndDelays : Prop := ∀ (p : BitVec 5) (a : FlitArrival) (s : State),
  let n := p.toNat
  let x := s.port n
  let l := a.bytes
  let typ := field l 0 1 / 16
  let clean := a.uncorr = 0 ∧ l.length = 256 ∧ crc32 (l.take 252) = field l 252 4 ∧ field l 0 1 % 16 = 0 ∧ field l 1 1 = 0
  let seq := BitVec.ofNat 16 (field l 4 2)
  let fecc := satAdd x.fecc a.corrected
  let on_ := (x.st = 2 ∨ x.st = 3) ∧ x.clearedAt ≠ some s.now
  let quiet := x.unacked = [] ∧ x.stalled = [] ∧ x.marker = none
  let left := x.unacked.filter (fun f => !decide ((BitVec.ofNat 16 (field l 6 2) - f.seq).toNat < 32768))
  let gone := x.unacked.filter (fun f => decide ((BitVec.ofNat 16 (field l 6 2) - f.seq).toNat < 32768))
  let again := if x.st = 3 then left else left.takeWhile (fun f => f.typ != 1)
  let asks := a.uncorr = 0 ∧ l.length = 256 ∧ crc32 (l.take 252) = field l 252 4 ∧ field l 0 1 % 16 = 1 ∧ field l 1 1 = 0
  (on_ → a.uncorr ≠ 0 → Ends (.flitReceive p a) s (fun t =>
    t = s.setPort n { x with fecc := fecc, fecu := satAdd x.fecu a.uncorr, nak := true })) ∧
  (on_ → a.uncorr = 0 → (l.length ≠ 256 ∨ crc32 (l.take 252) ≠ field l 252 4) → Ends (.flitReceive p a) s (fun t =>
    t = s.setPort n { x with fecc := fecc, crce := satInc x.crce, nak := true })) ∧
  (on_ → clean → typ = 0 ∨ typ = 4 → quiet → Ends (.flitReceive p a) s (fun t => t = { s with ports := t.ports } ∧
    t.port n = { x with fecc := fecc })) ∧
  (on_ → clean → typ = 0 ∨ typ = 4 → x.stalled = [] → Ends (.flitReceive p a) s (fun t => t.mem = s.mem ∧ t.outFlit = s.outFlit ∧
    t.port n = { x with fecc := fecc, unacked := left, marker := if gone.any (fun f => f.typ == 3) = true then none else x.marker })) ∧
  (on_ → asks → typ = 0 ∨ typ = 4 → x.stalled = [] → Ends (.flitReceive p a) s (fun t => t.mem = s.mem ∧
    t.outFlit = s.outFlit ++ again.map (fun f => (n, flitBytes f.typ x.nak f.tver.toNat f.seq.toNat x.ackSeq.toNat f.bytes)) ∧
    (t.port n).unacked = left ∧ (t.port n).rply = satAdd x.rply again.length ∧ (t.port n).fecc = fecc)) ∧
  (x.st = 3 → x.trans = none → x.target = 2 → x.down = false → x.looped = false → x.stalled = [] → 64 ≤ x.unacked.length →
    Ends (.opctlTargetWrite p 0) s (fun t => t.outFlit = s.outFlit ∧ (t.port n).stalled = [3] ∧ (t.port n).unacked = x.unacked ∧
      (t.port n).txSeq = x.txSeq)) ∧
  (on_ → clean → typ = 0 ∨ typ = 4 → x.stalled = [3] → left.length < 64 → Ends (.flitReceive p a) s (fun t => t.mem = s.mem ∧
    (t.port n).stalled = [] ∧ (t.port n).txSeq = x.txSeq + 1 ∧ (t.port n).marker = some (x.txSeq + 1) ∧
    ∃ f : Flit, f.typ = 3 ∧ f.seq = x.txSeq + 1 ∧ (t.port n).unacked = left ++ [f] ∧
      t.outFlit = s.outFlit ++ [(n, flitBytes 3 x.nak f.tver.toNat f.seq.toNat x.ackSeq.toNat f.bytes)])) ∧
  (∀ op o k, s.async? op = some o → (s.circuit (copyEntry o.desc)).port.toNat = n → 64 ≤ x.unacked.length → s.copySend op k = s) ∧
  (on_ → clean → 1 ≤ typ → typ ≤ 3 → quiet → seq ≠ x.rxSeq + 1 → Ends (.flitReceive p a) s (fun t =>
    t = { s with ports := t.ports } ∧ t.port n = { x with fecc := fecc, nak := true })) ∧
  (on_ → clean → typ = 1 → quiet → seq = x.rxSeq + 1 → x.markerSeen = false → dataOk l = true →
    BitVec.ofNat 16 (field l 2 2) = s.tvercur → Ends (.flitReceive p a) s (fun t =>
      t = { s with ports := t.ports, timers := t.timers, queue := t.queue } ∧
      t.port n = { x with fecc := fecc, rxSeq := seq, nak := false, inbox := x.inbox ++ [(seq, l)] } ∧
      (if field l 8 1 % 16 = 1 then Instr.copyFlitWrite p else .crucibleFlitReceive p) ∈ t.queue)) ∧
  (on_ → clean → typ = 2 → quiet → seq = x.rxSeq + 1 → ∀ f : FarEnd, a.far = some f → Ends (.flitReceive p a) s (fun t =>
    t = { s with ports := t.ports, timers := t.timers } ∧ (t.port n).far = some f ∧ (t.port n).markerSeen = false ∧ (t.port n).rxSeq = seq)) ∧
  (on_ → clean → typ = 3 → quiet → seq = x.rxSeq + 1 → Ends (.flitReceive p a) s (fun t =>
    t.port n = { x with fecc := fecc, rxSeq := seq, nak := false, markerSeen := true } ∧ t.mem = s.mem)) ∧
  (x.st = 2 ∨ x.st = 3 → Ends (.ackOnlyFlit p) s (fun t => t = { s with outFlit := t.outFlit, ports := t.ports, timers := t.timers } ∧
    t.outFlit = s.outFlit ++ [(n, flitBytes 4 x.nak (s.portVer n).toNat Config.unusedSeq.toNat x.ackSeq.toNat
      ((List.range 244).map Config.idleByte))] ∧ t.port n = { x with txFree := (t.port n).txFree } ∧
    ∃ m ∈ t.timers, m.what = .ackOnlyFlit p)) ∧
  Ends .rttcCorrection s (fun t => t = { s with ports := t.ports, timers := s.timers ++ [⟨s.now + 10000000, .rttcCorrection⟩] } ∧
    ∀ k, let v := s.port k
      (v.valid = false ∨ v.corrected = false → t.port k = v) ∧
      (v.valid = true → v.corrected = true → ∃ d : Int,
        let q : Int := v.tcoef.toInt * (s.plant.toInt - v.tref.toInt)
        t.port k = { v with rttc := BitVec.ofInt 24 ((v.rtt0.toNat : Int) + d), tused := s.plant } ∧
        2 * (q - 1000 * d) ≤ 1000 ∧ -1000 ≤ 2 * (q - 1000 * d) ∧ (2 * (q - 1000 * d) = 1000 ∨ 2 * (q - 1000 * d) = -1000 → d % 2 = 0)))

/-! Events: the engines and the crucibles -/

/-- Copies, gathers and retirement (R267, R277, R278, R404, R406, R407). A local copy reads on to the next 4 KiB boundary of its source
and writes what it has read in whole aligned 8-byte units of its destination, and no other byte of memory, so that no unit is read or
written in two; a gather moves its next row, zeros for index 0xFFFFFFFF; after the last byte the barrier object is counted down by the
length and the operation is over. A counter retires its operations in issue order: those that are over leave it up to the first that is not.
(`.dev` scope or wider, an issuing core with nothing in its write-combining buffer, and addresses that resolve.) A flit of a copy is
written, at the destination it carries (log 16), in the bound context and leaves the port's queue. -/
def Sys2Proof.Claims.CopiesAndGathers : Prop := ∀ (op : Nat) (o : AsyncOp) (s : State), s.async? op = some o → o.fault = none → 2 ≤ o.scope →
  (s.core o.w.core).wcb = [] →
  let d := o.desc
  let ended (i : Instr) : Prop := Ends i s (fun t => t.async? op = some { o with stage := 3 } ∧ t.mem = s.mem ∧
    Instr.asyncRetire o.w (BitVec.ofNat 3 (asyncClass o.kind)) ∈ t.queue)
  let moved (i : Instr) (by_ : Nat) (carry : List Byte) (l : List (Nat × Byte)) : Prop := Ends i s (fun t =>
    t.async? op = some { o with next := o.next + by_, carry := carry } ∧ t.mem = Memory.writes s.mem l ∧ i ∈ t.queue)
  let counted (i : Instr) (kb : List Nat) (len : Nat) : Prop := Ends i s (fun t => t.async? op = some { o with stage := 3 } ∧
    t.mem = Memory.writes s.mem (kb.zip (countDown (kb.map (Memory.read s.mem)) len)) ∧
    Instr.asyncRetire o.w (BitVec.ofNat 3 (asyncClass o.kind)) ∈ t.queue)
  let get (ks : List Nat) : List Byte := ks.map (Memory.read s.mem)
  (o.kind = .copy → o.stage = 1 → copyCirc d = false → copyLen d ≤ o.next → (copyLen d = 0 ∨ copyBobj d = 0) → ended (.copyComplete op)) ∧
  (o.kind = .copy → o.stage = 2 → copyLen d ≤ o.next → o.flits = [] → o.resend = [] → o.due ≤ s.now → ended (.copyComplete op)) ∧
  (o.kind = .copy → o.stage = 1 → copyCirc d = false → o.next < copyLen d → ∀ ks kd s1 s2,
    let got := o.next + o.carry.length
    let src := (copySrc d + got) % 2 ^ 64
    let dst := (copyDst d + o.next) % 2 ^ 64
    let m := pieceLen src (copyLen d - got)
    let n := wholeUnits dst (o.carry.length + m) (copyLen d - o.next)
    s.asyncKeys o src m needRD = (.ok ks, s1) → s1.asyncKeys o dst n needW = (.ok kd, s2) →
    moved (.copyComplete op) n ((o.carry ++ get ks).drop n) (kd.zip (o.carry ++ get ks))) ∧
  (∀ src left, pieceLen src left ≤ left ∧ (pieceLen src left = left ∨ (src + pieceLen src left) % 4096 = 0)) ∧
  (∀ dst n left, wholeUnits dst n left ≤ n ∧ (wholeUnits dst n left = 0 ∨ wholeUnits dst n left = left ∨ (dst + wholeUnits dst n left) % 8 = 0)) ∧
  (∀ kb s1, o.kind = .copy → o.stage = 1 → copyCirc d = false → copyLen d ≤ o.next → copyLen d ≠ 0 → copyBobj d ≠ 0 →
    s.asyncKeys o (copyBobj d) 16 needRW = (.ok kb, s1) → counted (.copyComplete op) kb (copyLen d)) ∧
  (∀ kb s1, o.kind = .gather → o.stage = 1 → gatherLen d ≠ 0 → field d 28 4 ≤ o.next → field d 40 8 ≠ 0 →
    s.asyncKeys o (field d 40 8) 16 needRW = (.ok kb, s1) → counted (.gatherComplete op) kb (gatherLen d)) ∧
  (o.kind = .gather → o.stage = 1 → (gatherLen d = 0 ∨ field d 28 4 ≤ o.next ∧ field d 40 8 = 0) → ended (.gatherComplete op)) ∧
  (o.kind = .gather → o.stage = 1 → gatherLen d ≠ 0 → o.next < field d 28 4 → ∀ ki kd ks s1 s2 s3,
    let row := field d 24 4
    let x := leNat (get ki)
    s.asyncKeys o ((field d 16 8 + 4 * o.next) % 2 ^ 64) 4 needRD = (.ok ki, s1) →
    s1.asyncKeys o ((field d 8 8 + o.next * row) % 2 ^ 64) row needW = (.ok kd, s2) →
    (x = 0xFFFFFFFF → moved (.gatherComplete op) 1 o.carry (kd.map (fun k => (k, 0)))) ∧
    (x ≠ 0xFFFFFFFF → s2.asyncKeys o ((field d 0 8 + x * field d 32 8) % 2 ^ 64) row needRD = (.ok ks, s3) →
      moved (.gatherComplete op) 1 o.carry (kd.zip (get ks)))) ∧
  (∀ (w : Wave) (cls : BitVec 3) (gone rest : List Ticket), s.wave? o.w = some w → w.frags ≠ [] → w.handler = false →
    tget [] w.tickets cls.toNat = gone ++ rest → gone ≠ [] → (gone ++ rest).length ≤ 63 → ((gone ++ rest).map (fun x => x.op)).Nodup →
    (∀ x ∈ gone, x.done = true ∧ s.async? x.op = none ∨ ∃ y, s.async? x.op = some y ∧ y.stage = 3) →
    (∀ x ∈ rest.head?, x.done = false ∧ ∀ y, s.async? x.op = some y → y.stage ≤ 2) →
    Ends (.asyncRetire o.w cls) s (fun t => t.mem = s.mem ∧
      (∀ y, y ∈ t.asyncs ↔ y ∈ s.asyncs ∧ ∀ x ∈ gone, y.id ≠ x.op) ∧ ∃ w' : Wave, t.wave? o.w = some w' ∧
      w' = { w with tickets := w'.tickets, wideRet := w'.wideRet } ∧
      (∀ k, tget [] w'.tickets k = if k = cls.toNat then rest else tget [] w.tickets k) ∧
      ∀ j, j ∈ w'.wideRet ↔ j ∈ w.wideRet ∨ j = cls.toNat ∧ ∃ x ∈ gone, 2 ≤ x.scope)) ∧
  (∀ (p : BitVec 5) (q : BitVec 16) (l : List Byte) (rest : List (BitVec 16 × List Byte)) (e : Nat) (ks : List Nat) (s1 : State),
    let bs := (l.drop 32).take (field l 24 2)
    (s.port p.toNat).inbox = (q, l) :: rest → (s.port p.toNat).inFault = none → field l 8 1 % 16 = 1 → s.entryOf p.toNat = some e →
    (s.ctx? (s.circuit e).bind.toNat).isSome = true →
    s.resolve none (p.toNat / 16 * 4) (s.circuit e).bind.toNat 2 (field l 16 8) bs.length needW = (.ok ks, s1) →
    Ends (.copyFlitWrite p) s (fun t => t.mem = Memory.writes s.mem (ks.zip bs) ∧ (t.port p.toNat).inbox = rest))

/-- Messages (R76, R82, R83, R404, R409): an answer that does not come within 1 ms ends the operation with cause 6, an acknowledgement
completes it, a NACK ends it with cause 5, or 2 for a copy's permission fault, or has a copy's flit sent again, or ends the copy with cause 3
where its circuit is gone (log 27). A carry or a message that is delivered here, and that link replay accepts, writes its payload at
DATA, then counts the barrier object down by the payload's length, and is acknowledged; one of another version, without a valid entry,
beyond LIMIT, or whose block does not exist is refused with a NACK (and one that cannot be applied otherwise, log 17). -/
def Sys2Proof.Claims.Messages : Prop := ∀ (op : Nat) (o : AsyncOp) (b : BitVec 3) (k : Packet) (s : State),
  let ends (i : Instr) (cause : Nat) : Prop := Ends i s (fun t => t.mem = s.mem ∧
    t.async? op = some { o with stage := 4, cause := cause, flits := [], resend := [] } ∧
    Instr.asyncRetire o.w (BitVec.ofNat 3 (asyncClass o.kind)) ∈ t.queue)
  let xfer := field k.body 0 2
  let off := field k.body 2 4
  let fail := field k.body 6 1
  let takes (c n : Nat) : Prop := s.linkTakes b.toNat k = true ∧ s.delivered k c n = true
  let nack : Prop := takes 4 2 ∧ leNat (k.body.drop 7) = 0
  let s0 := s.received b.toNat k
  let gets (i : Instr) : Prop := msgBodyOk k = true →
    (s0.versionOk k = false → Ends i s (fun t => t = s0.sendNack k.src.toNat k.pseq.toNat 0 0)) ∧
    (s0.versionOk k = true → s0.applyMessage (b.toNat / 4 * 4) k = none → Ends i s (fun t => t = s0.sendNack k.src.toNat k.pseq.toNat 0 0)) ∧
    (∀ s1, s0.versionOk k = true → s0.applyMessage (b.toNat / 4 * 4) k = some s1 → Ends i s (fun t => t.mem = s1.mem ∧
      t = s1.sendPacket (s1.packet 4 4 k.src.toNat 0 (leBytes 2 k.pseq.toNat ++ List.replicate 30 0)))) ∧
    (∀ ctx e s1, s0.versionOk k = true → 4 ≤ (k.body.drop 4).length → (k.body.drop 4).length % 4 = 0 → s0.ctx? xfer = some ctx →
      s0.devRead (b.toNat / 4 * 4) xfer (ctx.ept.toNat + 32 * field k.body 2 1) 32 = (.ok e, s1) →
      let pay := k.body.drop 4
      let h := field e 0 4
      let keys (a n need : Nat) (u : State) (ks : List Nat) (u' : State) : Prop :=
        if h / 2 ^ 30 % 2 = 1 then u.resolve none (b.toNat / 4 * 4) xfer 2 a n need = (.ok ks, u') else u.blockTarget xfer (h % 65536) a n = some (.keys ks) ∧ u' = u
      let good : Prop := h / 2 ^ 31 = 1 ∧ h / 2 ^ 16 % 2 ^ 14 = 0 ∧ field e 4 4 = 0 ∧ field e 28 4 = 0 ∧ pay.length ≤ field e 24 4
      (¬good ∨ h / 2 ^ 30 % 2 = 0 ∧ s1.blockTarget xfer (h % 65536) (field e 8 8) pay.length = none →
        Ends i s (fun t => t = s0.sendNack k.src.toNat k.pseq.toNat 0 0)) ∧
      (∀ kt kb s2 s3, good → keys (field e 8 8) pay.length needW s1 kt s2 → keys (field e 16 8) 16 needRW s2 kb s3 →
        let put := Memory.writes s.mem (kt.zip pay)
        Ends i s (fun t => t.mem = Memory.writes put (kb.zip (countDown (kb.map (Memory.read put)) pay.length)))))
  (∀ c : Bool, s.async? op = some o → o.kind = .message c → o.stage = 2 → o.due ≤ s.now → ends (.xsendTimeout op) 6) ∧
  (takes 4 4 → leNat (k.body.drop 2) = 0 → s.messageOf k.src.toNat xfer = some o → s.async? op = some o → o.id = op →
    Ends (.messageAcknowledgement b k) s (fun t => t.mem = s.mem ∧ t.async? op = some { o with stage := 3 } ∧
      Instr.asyncRetire o.w (BitVec.ofNat 3 (asyncClass o.kind)) ∈ t.queue)) ∧
  (nack → fail = 0 → s.messageOf k.src.toNat xfer = some o → s.async? op = some o → o.id = op → ends (.deliveryNack b k) 5) ∧
  (nack → s.async? op = some o → o.id = op → o.kind = .copy → o.stage = 2 →
    s.asyncs.find? (fun p => p.kind == .copy && p.stage == 2 && p.id % 65536 == xfer && (s.circuit p.entry).peerdev == k.src.truncate 12) = some o →
    (fail = 2 → ends (.deliveryNack b k) 2) ∧
    (fail = 0 → s.messageOf k.src.toNat xfer = none → (s.circuit o.entry).st = 0 ∨ (s.circuit o.entry).st = 6 → ends (.deliveryNack b k) 3) ∧
    (fail = 0 → s.messageOf k.src.toNat xfer = none → (s.circuit o.entry).st ≠ 0 → (s.circuit o.entry).st ≠ 6 → off < o.next → off ∉ o.resend → Ends (.deliveryNack b k) s (fun t => t.mem = s.mem ∧
      t.async? op = some { o with flits := o.flits.erase off, resend := o.resend ++ [off] }))) ∧
  (takes 3 1 → gets (.carry b k)) ∧ (takes 5 1 → gets (.smallMessage b k))

/-- Instances of collective programs (R122 to R142): an instance whose program passes its checks, whose links are bound and whose rings
fit runs from step 0; a data step that is over leaves the outstanding steps and counts its destination's barrier object down; data that
arrives lands in its stream; pause and resume, with the steps under way given up where the skip mask has grown; an abort and a timeout of
a step free the slot where the STATUS word can be written. Instances count their streams (log 98). What counts as progress of a step is the choice of log 44. -/
def Obligations.CrucibleInstances : Prop := ∀ (u : Slot) (s : State) (c : Nat) (d : CollDesc),
  let i := slotIx u
  let x := s.cx i
  let free (y : Nat) : Prop := y ≠ i / 16 * 16 + i % 16
  let used := (((List.range 16).filter (fun k => k != i % 16)).map (fun k =>
    if 2 ≤ (s.cx (i / 16 * 16 + k)).st.toNat ∧ (s.cx (i / 16 * 16 + k)).st.toNat ≤ 4 then (s.cx (i / 16 * 16 + k)).ringBytes else 0)).foldl (· + ·) 0
  let gone (j : Instr) (cause : Nat) : Prop := ∀ ks s1,
    (s.setCx i { x with
        st := 5, outs := [], ins := [], outst := [], ending := some (cause, 2), fault := none, watch := none, resuming := none }).resolve
      none (i / 16 * 4) c 2 d.status.toNat 8 needW = (.ok ks, s1) → Ends j s (fun t => t.cx i = {})
  x.ctx = some c → x.desc = some d →
  (x.st = 1 → x.ending = none → x.fault = none → ∀ l s1 p, s.devRead (i / 16 * 4) c d.prog.toNat (8 * d.nsteps) = (.ok l, s1) →
    loadSteps d l = .ok p → s1.linksOk x d = true → used + x.ringBytes ≤ 0x2000000 → Ends (.instanceLoaded u) s (fun t => t.mem = s.mem ∧
      t.cx i = { x with st := 2, step := 0, prog := p } ∧ ∀ j, free j → t.cx j = s.cx j)) ∧
  (∀ n st, x.outst.find? (fun v => v.id == n) = some st → x.stepDone s.now st = true →
    let left := x.outst.filter (fun v => v.id != n)
    let counted : Prop := (∀ f, st.op ≠ .rrs f) ∧ (∀ f, st.op ≠ .send f) ∧ (∀ f, st.op = .bcast f → st.writes = true)
    (x.bufs[st.dst]? = none ∨ ¬ counted → Ends (.dataStepComplete u n) s (fun t =>
      t = s.setCx i { x with outst := left })) ∧
    (∀ b, x.bufs[st.dst]? = some b → counted → b.bobj = 0 → Ends (.dataStepComplete u n) s (fun t =>
      t = s.setCx i { x with outst := left })) ∧
    (∀ b ks s1, x.bufs[st.dst]? = some b → counted → b.bobj ≠ 0 → b.kind = 1 →
      s.resolve none (i / 16 * 4) c 2 b.bobj.toNat 16 needRW = (.ok ks, s1) → Ends (.dataStepComplete u n) s (fun t =>
        (t.cx i).outst = left ∧ t.mem = Memory.writes s.mem (ks.zip (countDown (ks.map (Memory.read s.mem)) st.bytes))))) ∧
  (x.st = 2 → Ends (.crctlPause u) s (fun t => t.cx i = { x with st := 3 } ∧ t = { s with cru := t.cru, queue := t.queue } ∧
    Instr.instancePaused (slotAt i) ∈ t.queue)) ∧
  (x.st = 3 → Ends (.instancePaused u) s (fun t => t = s.setCx i { x with st := 4, skipWas := x.skip })) ∧
  (x.st = 4 → x.resuming = none → ∀ l s1, s.readRanks c i d = (.ok l, s1) → rmapOk d.n d.rank l = true →
    ((∀ w, w < 32 → tget 0 x.skip w &&& ~~~tget 0 x.skipWas w = 0) → Ends (.crctlResume u) s (fun t => t.mem = s.mem ∧
      t.cx i = { x with st := 2, rmap := readRmap d.n l })) ∧
    ((∃ w, w < 32 ∧ tget 0 x.skip w &&& ~~~tget 0 x.skipWas w ≠ 0) →
      let y : Crux := { x with st := 2, rmap := readRmap d.n l, degraded := true, outst := [], outs := [], ins := [], gen := s1.nextId }
      (x.loops = [] → Ends (.crctlResume u) s (fun t => t.mem = s.mem ∧ t.cx i = y)) ∧
      (∀ k a b m, x.loops = (k, a, b) :: m → Ends (.crctlResume u) s (fun t => t.mem = s.mem ∧
        t.cx i = { y with step := afterEndl x.prog k - 1, fault := none, watch := none, refusals := 0, backUntil := 0 })))) ∧
  (x.st = 2 ∨ x.st = 3 ∨ x.st = 4 → gone (.crctlAbort u) 11) ∧
  (∀ v, x.st = 2 ∨ x.st = 3 ∨ x.st = 4 → x.tmoAt = some v → v ≤ s.now → (∃ e ∈ x.deadlines d.tmo, e ≤ s.now) → gone (.stepTimeout u) 10) ∧
  (∀ (p : BitVec 5) (q : BitVec 16) (l : List Byte) (rest : List (BitVec 16 × List Byte)) (e r : Nat),
    let a := field l 16 8
    (s.port p.toNat).inbox = (q, l) :: rest → field l 8 1 % 16 = 2 → a / 2 ^ 4 % 2 * 16 + a % 16 = i → x.st = 2 ∨ x.st = 3 ∨ x.st = 4 →
    s.entryOf p.toNat = some e → (s.circuit e).bind = 0xFFFE → x.rankOf e = some r → a / 2 ^ 5 % 8 = 0 →
    Ends (.crucibleFlitReceive p) s (fun t => t.mem = s.mem ∧ (t.port p.toNat).inbox = rest ∧
      t.cx i = { x.hear (2 * r) s.now with
        ins := tset x.ins r ((tget {} x.ins r).land (a / 2 ^ 8 % 2 ^ 32) ((l.drop 32).take (field l 24 2))) }))

/-! Events: circuits, the packet plane and fabric time -/

/-- Requests and answers (R64 to R68, R71, R109): an RSV takes the lowest FREE entry where the port is DARK and in no other entry, and is
answered with ACK, or is denied with CODE 5, 3 or 2; an ACK reserves, a DENY or 500 µs without an answer backs off while attempts
remain and fails the entry then; a back-off or a scheduled start that ends sends the RSV to the first hop; a TEAR acts by the entry's
state as R71's table says, on BACKOFF, RELEASING, FREE and FAILED not at all, and is answered with TACK in every case; the port of a
RESERVED entry is woken with the entry's groups. (A packet that link replay accepts.) -/
def Sys2Proof.Claims.CircuitRequests : Prop := ∀ (l : BitVec 3) (k : Packet) (x : BitVec 6) (e : Nat) (s : State),
  let b := k.body
  let c := s.circuit e
  let y := s.circuit x.toNat
  let s0 := s.received l.toNat k
  let ctl (n : Nat) : Prop := s.linkTakes l.toNat k = true ∧ s.ctlFor k n = true
  let to_ (i : Instr) (j : Nat) (P : Circuit → State → Prop) : Prop := Ends i s (fun t => t.mem = s.mem ∧ t.cores = s.cores ∧
    (∀ n, n ≠ j → t.circuit n = s.circuit n) ∧ P (t.circuit j) t)
  let ready := field b 8 8
  let hops := field b 6 2
  let code := field b 3 1
  let dark : Prop := (s.port c.port.toNat).st = 0 ∧ (s.port c.port.toNat).trans = none
  let back (u : State) (typ why : Nat) : State := u.sendPacket (u.packet 2 typ (field b (32 + 4 * (hops - 1)) 4 / 2 ^ 20) 0
    (b.take 1 ++ leBytes 1 (hops - 1) ++ (b.drop 2).take 1 ++ leBytes 1 why ++ (b.drop 4).take 4 ++ leBytes 8 ready ++ (b.drop 16).take 16 ++ b.drop 32))
  let tack (u : State) (hop : Nat) : State := u.sendPacket (u.packet 2 5 (field b (32 + 4 * hop) 4 / 2 ^ 20) 0
    (b.take 1 ++ leBytes 1 hop ++ (b.drop 2).take 1 ++ leBytes 1 0 ++ b.drop 4))
  let backs (i : Instr) (j : Nat) (z : Circuit) (code : BitVec 4) : Prop :=
    (z.attempts.toNat < max 1 z.retrymax.toNat → to_ i j (fun v t => ∃ due : Nat, v = { z with st := 2, due := due } ∧
      s.now ≤ due ∧ due < s.now + 1000 * 2 ^ min z.attempts.toNat 6 ∧
      (⟨due, .backoffExpiry (BitVec.ofNat 6 j)⟩ : Timer) ∈ t.timers)) ∧
    (max 1 z.retrymax.toNat ≤ z.attempts.toNat → to_ i j (fun v _ => v = { z with st := 6, status := code }))
  let sends (i : Instr) : Prop := to_ i x.toNat (fun v t => v = { y with
      st := 1, attempts := satInc y.attempts, sentAt := s.now, reqEntry := x, side := false } ∧
    (⟨s.now + 500000, .rsvAttemptTimeout x⟩ : Timer) ∈ t.timers ∧
    let u := s.moveEntry x.toNat v
    t = (u.sendPacket (u.packet 2 1 ((y.route.getD 0 0).toNat / 2 ^ 20) 0 (leBytes 1 x.toNat ++ leBytes 1 0 ++ leBytes 1 y.grpmask.toNat ++
      leBytes 1 0 ++ leBytes 1 y.port.toNat ++ leBytes 1 y.peerport.toNat ++ leBytes 2 y.hopcnt.toNat ++ leBytes 8 (s.now % 2 ^ 64) ++
      List.replicate 16 0 ++ y.route.flatMap (fun w => leBytes 4 w.toNat)))).atTime (s.now + 500000) (.rsvAttemptTimeout x))
  let p := field b 5 1
  (ctl 1 → k.tver ≠ s.tvercur → Ends (.rsv l k) s (fun t => t = back s0 3 5)) ∧
  (ctl 1 → k.tver = s.tvercur → (∃ q ∈ s.circuits, q.2.port.toNat = p ∧ q.2.st = 1 ∧ q.2.side = false) → s.fdid.toNat ≤ k.src.toNat % 4096 →
    Ends (.rsv l k) s (fun t => t = back s0 3 3)) ∧
  (ctl 1 → k.tver = s.tvercur → (∀ q ∈ s.circuits, q.2.port.toNat = p → q.2.st = 0 ∨ q.2.st = 6) →
    ((List.range 64).find? (fun n => (s.circuit n).st == 0) = none ∨ (s.port p).st ≠ 0 → Ends (.rsv l k) s (fun t => t = back s0 3 2)) ∧
    ((List.range 64).find? (fun n => (s.circuit n).st == 0) = some e → (s.port p).st = 0 → to_ (.rsv l k) e (fun v t =>
      v.st = 3 ∧ v.side = true ∧ v.status = 0 ∧ v.port = BitVec.ofNat 5 p ∧ v.peerport = BitVec.ofNat 5 (field b 4 1) ∧
      v.peerdev = BitVec.ofNat 12 (k.src.toNat % 4096) ∧ v.grpmask = BitVec.ofNat 4 (field b 2 1) ∧ v.tver = k.tver ∧
      v.readyat = BitVec.ofNat 64 ready ∧ v.owner = c.owner ∧ t.ports = s.ports ∧
      (⟨max s.now (v.readyat.toNat - 3000), .circuitPortWrite (BitVec.ofNat 6 e)⟩ : Timer) ∈ t.timers ∧
      ∃ u : State, t = ((back u 2 0).armPort e).armSlot e ∧ u.circuit e = { v with due := c.due }))) ∧
  (ctl 2 → s.named k = some e → c.st = 1 → c.side = false → to_ (.ack l k) e (fun v t => v = { c with
      st := 3, readyat := BitVec.ofNat 64 ready, swtime := BitVec.ofNat 32 (ready - c.sentAt), due := v.due } ∧
    v.due = max s.now (v.readyat.toNat - 3000) ∧ (⟨v.due, .circuitPortWrite (BitVec.ofNat 6 e)⟩ : Timer) ∈ t.timers)) ∧
  (ctl 3 → s.named k = some e → c.st = 1 → c.side = false → backs (.deny l k) e c (BitVec.ofNat 4 (field b 3 1))) ∧
  (y.st = 1 → y.sentAt + 500000 ≤ s.now → backs (.rsvAttemptTimeout x) x.toNat y 4) ∧
  (y.st = 2 → y.due ≤ s.now → (y.attempts ≠ 0 → sends (.backoffExpiry x)) ∧ (y.attempts = 0 → sends (.cpreStart x))) ∧
  (ctl 4 → s.named k = some e →
    let hop := if c.side = true then hops - 1 else 0
    let u := s0.unmiss e
    let v := u.circuit e
    let port := c.port.toNat
    let row (z : State) : Prop := Ends (.tear l k) s (fun t => t = tack z hop)
    (c.missAt ≠ some s.now → u = s0) ∧ v = { c with missAt := v.missAt } ∧
    (c.st = 1 → row (u.moveEntry e { v with st := 6, status := 7 })) ∧ (c.st = 2 ∨ c.st = 5 ∨ c.st = 6 → row u) ∧
    (c.st = 3 → code = 0 → row (((u.setCircuit e { v with freeOnDark := true }).writeTarget port 0).freeIfDark port)) ∧
    (c.st = 3 → code ≠ 0 → row ((u.moveEntry e { v with st := 6, status := 7 }).writeTarget port 0)) ∧
    (c.st = 4 → code = 0 → row (((u.moveEntry e { v with st := 5, freeOnDark := true, tearPending := false, slotOpen := false }).writeTarget port 0).freeIfDark port)) ∧
    (c.st = 4 → code ≠ 0 → row ((u.moveEntry e { v with st := 6, status := 7, slotOpen := false }).writeTarget port 0)) ∧
    (c.st = 1 ∨ c.st = 3 ∧ code ≠ 0 ∨ c.st = 4 ∧ code ≠ 0 → to_ (.tear l k) e (fun v _ => v.st = 6 ∧ v.status = 7)) ∧
    (c.st = 2 ∨ c.st = 5 ∨ c.st = 6 → to_ (.tear l k) e (fun v _ => v = { c with missAt := v.missAt })) ∧
    (c.st = 4 → code = 0 → ¬ dark → to_ (.tear l k) e (fun v _ => v.st = 5 ∧ v.freeOnDark = true)) ∧
    (c.st = 3 → code = 0 → ¬ dark → to_ (.tear l k) e (fun v _ => v.st = 3 ∧ v.freeOnDark = true)) ∧
    (c.st = 3 ∨ c.st = 4 → code = 0 → dark → Ends (.tear l k) s (fun t => t.mem = s.mem ∧ (t.circuit e).st = 0))) ∧
  (ctl 4 → s.named k = none → Ends (.tear l k) s (fun t => t = tack s0 (if hops ≤ field b 1 1 then hops - 1 else 0))) ∧
  (ctl 5 → s.named k = some e → c.st = 5 → c.freeOnDark = false → c.tearPending = false →
    to_ (.tack l k) e (fun v _ => v = { c with st := 0 })) ∧
  (y.st = 5 → y.tearPending = false → y.freeOnDark = false → y.due ≤ s.now → to_ (.tearTimeout x) x.toNat (fun v _ => v = { y with st := 0 })) ∧
  (y.st = 3 → y.freeOnDark = false → y.due ≤ s.now →
    let z := s.port y.port.toNat
    (s.elsOk y.port.toNat = false ∨ z.down = true → to_ (.circuitPortWrite x) x.toNat (fun v _ => v.st = 6 ∧ v.status = 6)) ∧
    (s.elsOk y.port.toNat = true → z.down = false → z.st = 0 → z.trans = none → z.target = 0 → grpOk y.grpmask = true →
      to_ (.circuitPortWrite x) x.toNat (fun v t => v = y ∧ t.port y.port.toNat =
        { z with grpmask := y.grpmask, target := 2, targetAt := s.now, trans := some (1, s.now + 3000) })))

/-- Slots and the end of drain windows (R76, R77, R80): a slot of a LIVE entry opens at its start, with its end due, or, where GUARD is less
than ERREST, is missed with the flag set; the test is made for a RESERVED entry too; its usable part ends; a drain window ends. -/
def Sys2Proof.Claims.CircuitSlots : Prop := ∀ (x : BitVec 6) (s : State),
  let c := s.circuit x.toNat
  let only (t : State) (v : Circuit) : Prop := t.circuit x.toNat = v ∧ ∀ n, n ≠ x.toNat → t.circuit n = s.circuit n
  (c.st = 3 ∨ c.st = 4 → c.slotted = true → c.slotper ≠ 0 → c.slotbase.toNat ≤ s.now → (s.now - c.slotbase.toNat) % c.slotper.toNat = 0 →
    (c.st = 3 → s.errest.toNat ≤ c.guard.toNat → Ends (.slotStart x) s (fun t => only t { c with missed := none } ∧
      t = { s with circuits := t.circuits, timers := t.timers })) ∧
    (c.st = 4 → s.errest.toNat ≤ c.guard.toNat → Ends (.slotStart x) s (fun t => only t { c with slotOpen := true, missed := none } ∧
      t = { s with circuits := t.circuits, timers := t.timers } ∧
      (⟨s.now + (c.slotlen.toNat - c.guard.toNat), .slotUsablePartEnd x⟩ : Timer) ∈ t.timers)) ∧
    (c.guard.toNat < s.errest.toNat → Ends (.slotStart x) s (fun t => only t { c with
      slotOpen := false, missed := some ((s.now - c.slotbase.toNat) / c.slotper.toNat), missAt := some s.now
      missWas := (t.circuit x.toNat).missWas } ∧
      ((∀ q ∈ s.circuits, q.2.missAt ≠ some s.now) → (t.circuit x.toNat).missWas = s.slotmiss) ∧
      t = { s with circuits := t.circuits, timers := t.timers, gaffer := t.gaffer, slotmiss := true }))) ∧
  (c.slotOpen = true → s.inSlot c = false → Ends (.slotUsablePartEnd x) s (fun t => t = s.setCircuit x.toNat { c with slotOpen := false })) ∧
  (∀ v, c.window = some v → v ≤ s.now → Ends (.drainWindowEnd x) s (fun t => t = s.setCircuit x.toNat { c with window := none }))

/-- Packets (R57, R58, R60, R61, R75, R84, R494): a packet for another device goes on by the route table with one hop more, or is counted as
one that breaks a rule is; one that link replay does not accept asks for replay; a notice of a newer version is taken up; a peer-down
notice fails the entries to that device (log 10); returned credits add up to the full number, acknowledged packets leave, and the
others are sent again on request; FDIDCFG takes any FDID but 0x000 and 0xFFF. Each packet taken leaves an acknowledgement in the control
stream. (The control stream and its replay are log 8, numbers afresh at the entry into service log 9.) -/
def Sys2Proof.Claims.PacketPlane : Prop := ∀ (l : BitVec 3) (k : Packet) (s : State),
  let x := s.link l.toNat
  let dst := k.dst.toNat % 4096
  let still (t : State) : Prop := t.mem = s.mem ∧ t.cores = s.cores
  let s1 := s.took l.toNat k
  let drops : Prop := Ends (.packetForward l k) s (fun t => t = { s1.freed l.toNat k with epdrop := satInc s.epdrop })
  let good : Prop := pktShapeOk k = true ∧ pktReservedOk k = true ∧ k.hops.toNat ≠ 15
  (∀ q, k.lseq = some q → s1 = { s.setLink l.toNat { x with rxSeq := q, nak := false } with outCtl := s.outCtl ++ [(l.toNat, 0, ⟨0, q, false⟩)] }) ∧
  (s.fdidValid = true → good → dst ≠ s.fdid.toNat → dst ≠ 0xFFF → ¬ (k.cls = 1 ∧ (k.typ = 2 ∨ k.typ = 3)) →
    (s.linkTakes l.toNat k = true → ∀ o, tfind s.route dst = some (true, o) → o ≠ l →
      Ends (.packetForward l k) s (fun t => t = s1.toLink o.toNat { k with hops := k.hops + 1 } (some l.toNat))) ∧
    (s.linkTakes l.toNat k = true → (∀ o, tfind s.route dst ≠ some (true, o)) ∨ tfind s.route dst = some (true, l) → drops) ∧
    (s.linkTakes l.toNat k = false → Ends (.packetForward l k) s (fun t => t = s.linkRefuse l.toNat))) ∧
  (s.fdidValid = true → s.linkTakes l.toNat k = true → ¬ good → drops) ∧
  (s.linkTakes l.toNat k = true → s.delivered k 4 1 = true → leNat (k.body.drop 2) = 0 → Ends (.versionNotice l k) s (fun t => still t ∧
    t.tverseen = if newer (BitVec.ofNat 16 (field k.body 0 2)) s.tverseen = true then BitVec.ofNat 16 (field k.body 0 2) else s.tverseen)) ∧
  (s.linkTakes l.toNat k = true → s.delivered k 4 3 = true → leNat (k.body.drop 2) = 0 → field k.body 0 2 < 4096 → Ends (.peerDownNotice l k) s (fun t => still t ∧ ∀ e c, tfind s.circuits e = some c →
    c.peerdev.toNat = field k.body 0 2 → c.st = 3 ∨ c.st = 4 → (t.circuit e).st = 6 ∧ (t.circuit e).status = 7)) ∧
  (∀ (cls : BitVec 4) (c : LinkCtl), x.waiting = [] → x.credits.length = 5 → Ends (.creditReturn l cls c) s (fun t =>
    t = { s with links := t.links, outPkt := t.outPkt } ∧
    t.link l.toNat = { x with credits := (t.link l.toNat).credits, unacked := (t.link l.toNat).unacked } ∧
    (∀ i, i < 5 → (t.link l.toNat).credits.getD i 0 =
      if i + 1 = cls.toNat then min (fullCredits.getD i 0) (x.credits.getD i 0 + c.n) else x.credits.getD i 0) ∧
    (∀ p, p ∈ (t.link l.toNat).unacked ↔ p ∈ x.unacked ∧ ∃ q, p.lseq = some q ∧ 32768 ≤ (c.ack - q).toNat) ∧
    t.outPkt = s.outPkt ++ if c.nak = true then (t.link l.toNat).unacked.map (fun p => (l.toNat, p)) else [])) ∧
  (x.waiting = [] → Ends (.linkEntersService l) s (fun t => t = s.setLink l.toNat { x with
    up := true, credits := [8, 32, 256, 16, 256], txSeq := 0, unacked := [], rxSeq := 0, nak := false })) ∧
  (∀ v : Word, (∀ n, n < 8 → (s.link n).waiting = []) → (v.getLsbD 31 = true → v.toNat % 4096 ≠ 0 ∧ v.toNat % 4096 ≠ 0xFFF) → Ends (.fdidcfgWrite v) s (fun t =>
    t = { s with fdidValid := v.getLsbD 31, fdid := v.truncate 12 })) ∧
  (∀ v : Word, v.getLsbD 31 = true → v.toNat % 4096 = 0 ∨ v.toNat % 4096 = 0xFFF → Ends (.fdidcfgWrite v) s (fun t => t = s))

/-- Fabric time (R63, R78, R79, R81): the master's beacons, the step or slewing that a beacon makes with ERREST = 1 + 2·hops ns (log 32),
which steps the time base alone, its growth by 2 ns for each 1 ms without one (log 10), and the echoes that measure a link's delay in 1/16 ns. -/
def Sys2Proof.Claims.FabricTime : Prop := ∀ (l : BitVec 3) (k : Packet) (s : State),
  let x := s.link l.toNat
  let calm (t : State) : Prop := t.mem = s.mem ∧ t.cores = s.cores
  let still (t : State) : Prop := calm t ∧ t.circuits = s.circuits
  let takes : Prop := s.linkTakes l.toNat k = true
  let s1 := (s.took l.toNat k).freed l.toNat k
  let y := s1.link l.toNat
  let at_ := field k.body 0 8 + field k.body 8 4 / 16
  (s.master = false → Ends .beaconPeriod s (fun t => t = s)) ∧
  (s.master = true → Ends .beaconPeriod s (fun t => still t ∧ (⟨s.now + max 10000 s.bper.toNat, .beaconPeriod⟩ : Timer) ∈ t.timers ∧
    t.pseq = if s.fdidValid = true then s.pseq + 1 else s.pseq)) ∧
  (takes → s.delivered k 1 1 = true → k.body.length = 32 → field k.body 14 18 = 0 → Ends (.beacon l k) s (fun t => calm t ∧
    t.now = max s.now at_ ∧ t.ticks = s.ticks ∧ t.ahead = s.now - at_ ∧ t.errest = BitVec.ofNat 16 (1 + 2 * (k.hops.toNat + 1)) ∧
    t.plant = BitVec.ofNat 16 (field k.body 12 2) ∧ t.beaconAt = max s.now at_ ∧
    (⟨max s.now at_ + 1000000, .errestGrowth⟩ : Timer) ∈ t.timers)) ∧
  (s.beaconAt + 1000000 ≤ s.now → Ends .errestGrowth s (fun t => t = { s with
    errest := satAdd s.errest 2, beaconAt := s.now, timers := s.timers ++ [⟨s.now + 1000000, .errestGrowth⟩] })) ∧
  (s.now < s.beaconAt + 1000000 → Ends .errestGrowth s (fun t => t = s)) ∧
  (Ends .echoPeriod s (fun t => still t ∧ ∀ n, n < 8 → (s.link n).up = true → (s.link n).waiting = [] → (s.link n).unacked.length < 64 →
    1 ≤ (s.link n).credits.getD 0 0 → (t.link n).echo = some s.now ∧ (⟨s.now + 20000, .echoTimeout (BitVec.ofNat 3 n)⟩ : Timer) ∈ t.timers)) ∧
  (takes → echoOk k 2 = true → Ends (.echoRequest l k) s (fun t => ∃ r : Packet, t = s1.toLink l.toNat r none ∧ r.cls = 1 ∧ r.typ = 3 ∧
    r.body.length = 32 ∧ r.body.take 8 = k.body.take 8 ∧ field r.body 8 8 = s.now % 2 ^ 64 ∧ field r.body 16 8 = s.now % 2 ^ 64 ∧
    field r.body 24 2 = if s.fdidValid = true then s.fdid.toNat else 0)) ∧
  (takes → echoOk k 3 = true → Ends (.echoReply l k) s (fun t => t = s1.setLink l.toNat { y with
      delay := ((s.now : Int) - field k.body 0 8 - ((field k.body 16 8 : Int) - field k.body 8 8)) * 8
      peer := BitVec.ofNat 12 (field k.body 24 2)
      echo := if y.echo = some (field k.body 0 8) then none else y.echo })) ∧
  (∀ v, x.echo = some v → x.waiting = [] → v + 20000 ≤ s.now → Ends (.echoTimeout l) s (fun t => still t ∧ (t.link l.toNat).echo = none))

/-! Events: commands of the host -/

/-- The commands that start work and wait for counters (R125, R153, R157, R163): LAUNCH pushes its pointer, or waits while the queue is
full; EVENT-WRITE changes its counter at once and answers the old value; EVENT-WAIT answers the value once it is reached or its time is
over; SCRIPT-START starts a free thread; COLL-START puts a free slot into LOADING; FENCE waits for every earlier record. -/
def Obligations.CommandsOfWork : Prop := ∀ (st : BitVec 10) (seq : Word) (l : List Byte) (s : State),
  let n := st.toNat
  let s0 := taken s n seq
  let x := recCtx l
  let w := recWord l
  (Command (.launchCmd st) s st seq l →
    let q := w 0x10 % 64
    let a : DWord := BitVec.ofNat 64 (w 0x18)
    ((s.hq q).ctx = some x → a.toNat % 256 = 0 → (s.hq q).ptrs.length < 256 → Ends (.launchCmd st) s (fun t => t.mem = s.mem ∧
      Completed s t n seq l 0 0 ∧ (t.hq q).ptrs = (s.hq q).ptrs ++ [a] ∧ ∀ j, j ≠ q → t.hq j = s.hq j)) ∧
    ((s.hq q).ctx = some x → a.toNat % 256 = 0 → 256 ≤ (s.hq q).ptrs.length → Ends (.launchCmd st) s (fun t => t.mem = s.mem ∧
      t.queues = s.queues ∧ t.outHost = s.outHost ∧ ∃ r ∈ (t.stream n).running, r.seq = seq ∧ r.wait = .queueSpace)) ∧
    ((s.hq q).ctx ≠ some x ∨ a.toNat % 256 ≠ 0 → Ends (.launchCmd st) s (fun t => t.mem = s.mem ∧ t.queues = s.queues ∧
      Completed s t n seq l 3 0))) ∧
  (Command (.eventWrite st) s st seq l →
    (w 0x10 % 8 ≠ 0 → Ends (.eventWrite st) s (fun t => t.mem = s.mem ∧ Completed s t n seq l 3 0)) ∧
    (w 0x10 % 8 = 0 → ∀ ks s1, s0.resolve none 0 x 2 (w 0x10) 8 needRW = (.ok ks, s1) →
      let old := leNat (ks.map (Memory.read s.mem))
      Ends (.eventWrite st) s (fun t => Completed s t n seq l 0 old ∧
        t.mem = Memory.writes s.mem (ks.zip (leBytes 8 (if w 0x20 = 0 then w 0x18 else old + w 0x18)))))) ∧
  (Command (.eventWait st) s st seq l →
    (w 0x10 % 8 ≠ 0 → Ends (.eventWait st) s (fun t => t.mem = s.mem ∧ Completed s t n seq l 3 0)) ∧
    (w 0x10 % 8 = 0 → ∀ ks s1, (if w 0x20 = 0 then s0 else s0.after (1000 * w 0x20) (.eventWaitTimeout st)).resolve none 0 x 2 (w 0x10) 8
        needRD = (.ok ks, s1) → w 0x18 ≤ leNat (ks.map (Memory.read s.mem)) → Ends (.eventWait st) s (fun t => t.mem = s.mem ∧
      Completed s t n seq l 0 (leNat (ks.map (Memory.read s.mem)))))) ∧
  (∀ r line due k ks s1, (s.stream n).running = [r] → r.wait = .event line due k → (s.stream n).open_ = true → (s.stream n).buffer = [] →
    (s.stream n).unacked.length < 64 → 16 ≤ r.data.length → s.resolve none 0 (recCtx r.data) 2 (recWord r.data 0x10) 8 needRD = (.ok ks, s1) →
    let v := leNat (ks.map (Memory.read s.mem))
    let ends (i : Instr) (status : Nat) : Prop := Ends i s (fun t => t.mem = s.mem ∧ Completed s t n r.seq r.data status v)
    (recWord r.data 0x18 ≤ v → line = none → ends (.counterWaitBackoff (.stream st)) 0) ∧
    (∀ d, due = some d → d ≤ s.now → v < recWord r.data 0x18 → ends (.eventWaitTimeout st) 5)) ∧
  (∀ u : Slot, (s.cx (slotIx u)).backUntil ≤ s.now → Ends (.counterWaitBackoff (.slot u)) s (fun t =>
    t = s.setCx (slotIx u) { s.cx (slotIx u) with backUntil := 0 })) ∧
  (Command (.scriptStart st) s st seq l → (w 0x18 < 4 ∨ w 0x18 = 15) → s.switching 3 = false →
    (s.freeThread (w 0x18) (w 0x10) = none → Ends (.scriptStart st) s (fun t => t.mem = s.mem ∧ t.gaffer = s.gaffer ∧
      Completed s t n seq l 4 0)) ∧
    (∀ j, s.freeThread (w 0x18) (w 0x10) = some j → Ends (.scriptStart st) s (fun t => t.mem = s.mem ∧ t.outHost = s.outHost ∧
      (t.gth j).st = 1 ∧ (t.gth j).pc = BitVec.ofNat 64 (w 0x10) ∧ (t.gth j).ctx = (if x = 0xFFFF then none else some x) ∧
      (t.gth j).cmd = some (n, seq) ∧ (∀ k, k < 4 → (t.gth j).rd (k + 1) = BitVec.ofNat 64 (w (0x20 + 8 * k))) ∧
      (∀ k, 5 ≤ k → (t.gth j).rd k = 0) ∧ ∀ k, k ≠ j → t.gth k = s.gth k))) ∧
  (Command (.collStart st) s st seq l → w 0x10 % 128 = 0 → ∀ dl s1 a b c s2,
    let s' := s0.cmdWaits n seq l .coll
    let d := readDesc (BitVec.ofNat 64 (w 0x10)) dl
    let i := d.cru * 16 + d.slot
    s'.devRead 0 x (w 0x10) 128 = (.ok dl, s1) → descOk dl = true → s.switching (4 + d.cru) = false →
    s1.readTables x i d = (.ok a b c, s2) → (s.cx i).st = 0 → Ends (.collStart st) s (fun t => t.mem = s.mem ∧ t.outHost = s.outHost ∧
      (t.cx i).st = 1 ∧ (t.cx i).ctx = some x ∧ (t.cx i).desc = some d ∧ (t.cx i).byCmd = some (n, seq) ∧
      Instr.instanceLoaded (slotAt i) ∈ t.queue ∧ ∀ j, j ≠ i → t.cx j = s.cx j)) ∧
  (Command (.fenceCmd st) s st seq l →
    ((s.stream n).running = [] → (s.stream n).held = [] → Ends (.fenceCmd st) s (fun t => t.mem = s.mem ∧ Completed s t n seq l 0 0)) ∧
    ((∃ r ∈ (s.stream n).running, r.seq ≠ seq) → Ends (.fenceCmd st) s (fun t => t.mem = s.mem ∧ t.outHost = s.outHost ∧
      ∃ r ∈ (t.stream n).running, r.seq = seq ∧ r.wait = .fence)))

/-- RESOLVE of a pending fault, by who waits for it (R91, R123, R157, R159, R291, R308, R309, R404, R406, R496). OUTCOME 0 drops every
translation of the faulting page and has the access issued again: a wave's access by its parts, a fetch, an octet or a sweep that
goes on, a transaction that aborts with FAULT, a thread, a program slot, a queue's head record, an engine's operation, a received
flit, a save, a command. OUTCOME 1 fails it: a wave's fault ends its context, an access in a transaction only aborts that, a thread takes
MEMFAULT, an instance ends with cause 7, the record is rejected, a copy or gather ends with cause 2, the flit and the completion's
remaining action are dropped, the command completes with FAULT. -/
def Sys2Proof.Claims.ResolveOutcomes : Prop := ∀ (st : BitVec 10) (seq : Word) (l : List Byte) (s : State) (p : Pending),
  let n := st.toNat
  let x := recCtx l
  let id := p.frec.id
  let page := p.frec.va.toNat / 65536 * 65536
  Command (.resolve st) s st seq l → recWord l 0x20 = 0 → recWord l 0x28 = 0 → s.pending? x (recWord l 0x10) = some p →
  let again (P : State → Prop) : Prop := recWord l 0x18 = 0 → Ends (.resolve st) s (fun t => Completed s t n seq l 0 0 ∧ t.mem = s.mem ∧
    t.pend = s.pend.filter (fun q => q.frec.id != id) ∧
    (∀ u e, e ∈ tget [] t.tlb u → ¬ (e.asid = x ∧ e.page * 2 ^ levelShift e.level < page + 65536 ∧ page < (e.page + 1) * 2 ^ levelShift e.level)) ∧ P t)
  let fails (P : State → Prop) : Prop := recWord l 0x18 = 1 → Ends (.resolve st) s P
  let fatal : Prop := (s.ctx? x).isSome = true → fails (fun t => t.ctx? x = none)
  (∀ r k o v, p.waiter = .op r k → s.wave? r = some v → v.ops.find? (fun y => y.id == k) = some o →
    (o.txn = false → fatal ∧ again (fun t => o.event r ∈ t.queue ∧ t.wave? r = some { v with ops := v.ops.map (fun y =>
      if y.id == k then { y with parts := y.parts.map (fun q => if q.fault == some id then { q with fault := some 0 } else q) } else y) })) ∧
    (o.txn = true → again (fun t => t.wave? r = some (v.abort 6 0)) ∧ (p.frec.kind = 3 → fatal) ∧
      (p.frec.kind ≠ 3 → fails (fun t => t.wave? r = some (v.abort 6 1))))) ∧
  (∀ r f, p.waiter = .fetch r f ∨ p.waiter = .clause r f → again (fun t => t.wave? r = s.wave? r) ∧ fatal) ∧
  (∀ c k, p.waiter = .octet c k → fatal ∧ again (fun t => (t.core c).matrix = (s.core c).matrix.map (fun m => if m.id == k then
    { m with octets := m.octets.map (fun o => if o.fault == some id then { o with fault := none } else o) } else m))) ∧
  (∀ c k, p.waiter = .sweep c k → fatal ∧ again (fun t => (t.core c).sweeps = (s.core c).sweeps.map (fun m =>
    if m.id == k then { m with fault := none } else m))) ∧
  (∀ r f v, p.waiter = .txn r f → s.wave? r = some v → v.txn.any (fun y => y.held == some id) = true →
    again (fun t => t.wave? r = some (v.abort 6 0)) ∧ (p.frec.kind = 3 → fatal) ∧ (p.frec.kind ≠ 3 → fails (fun t => t.wave? r = some (v.abort 6 1)))) ∧
  (∀ g, p.waiter = .gaffer g → again (fun t => t.gth g = { s.gth g with st := 1, wait := .none } ∧ ∀ j, j ≠ g → t.gth j = s.gth j) ∧
    fails (fun t => (t.gth g).st = 3 ∧ (t.gth g).fcause = 4 ∧ (t.gth g).wait = .none)) ∧
  (∀ c k, p.waiter = .slot c k →
    let i := c * 16 + k
    let v := s.cx i
    v.st = 2 ∨ v.st = 3 ∨ v.st = 4 → v.ending = none → v.resuming = none → v.waitsFor id = true →
    again (fun t => t.cx i = { v with
      fault := if v.fault == some id then none else v.fault
      outst := v.outst.map (fun y => if y.fault == some id then { y with fault := none, since := s.now } else y) }) ∧
    fails (fun t => (t.cx i).st = 0 ∨ (t.cx i).st = 5 ∧ ∃ e, (t.cx i).ending = some (7, e))) ∧
  (∀ q, p.waiter = .queue q → (recWord l 0x18 = 0 → Ends (.resolve st) s (fun t => Instr.recordStart (BitVec.ofNat 6 q) ∈ t.queue)) ∧
    ((s.hq q).ptrs ≠ [] → fails (fun t => (t.hq q).ptrs = (s.hq q).ptrs.drop 1 ∧ (t.hq q).head = none ∧ (t.hq q).rejcnt = satInc (s.hq q).rejcnt))) ∧
  (∀ k o, p.waiter = .async k → s.async? k = some o → o.kind ≠ .coll →
    (o.kind = .copy → o.stage = 1 → copyCirc o.desc = false → again (fun t => t.async? k = some { o with fault := none } ∧ .copyComplete k ∈ t.queue)) ∧
    (o.kind = .gather → o.stage = 1 → again (fun t => t.async? k = some { o with fault := none } ∧ .gatherComplete k ∈ t.queue)) ∧
    (o.stage ≠ 4 → fails (fun t => t.async? k = some { o with stage := 4, cause := 2, flits := [], resend := [] } ∧
      .asyncRetire o.w (BitVec.ofNat 3 (asyncClass o.kind)) ∈ t.queue))) ∧
  (∀ r, p.waiter = .completion r → (s.run? r).isSome = true → fails (fun t => t.run? r = none)) ∧
  (∀ q, p.waiter = .flit q → again (fun t => t.port q = { s.port q with inFault := none } ∧ .copyFlitWrite (BitVec.ofNat 5 q) ∈ t.queue) ∧
    ∀ m rest, (s.port q).inbox = m :: rest → fails (fun t => (t.port q).inbox = rest ∧ (t.port q).inFault = none)) ∧
  (∀ y c, p.waiter = .save y → s.ctx? y = some c → fails (fun t => t.ctx? y = none) ∧ again (fun t => ∃ c' : Ctx, t.ctx? y = some c' ∧
    c'.savefault = none ∧ c'.pmst = c.pmst ∧ (c.pmst = 3 → .restorePlace (BitVec.ofNat 8 y) ∈ t.queue))) ∧
  (∀ u c d, p.waiter = .stream u → u < 1024 → u ≠ n → (s.stream u).running = [c] → c.wait = .access id d → (s.stream u).open_ = true →
    (s.stream u).buffer = [] → (s.stream u).unacked.length < 64 →
    fails (fun t => (t.stream u).completed = c.seq ∧ ∃ h ∈ t.outHost, h.typ = 3 ∧ h.stream = BitVec.ofNat 10 u ∧
      field h.payload 8 4 = c.seq.toNat ∧ field h.payload 14 1 = 9) ∧
    (∀ ks s1, recWord l 0x18 = 0 → recOpc c.data ≠ 3 → recWord c.data 0x10 % 8 = 0 →
      (({ taken s n seq with pend := s.pend.filter (fun q => q.frec.id != id) } : State).invalidate x page (page + 65536)).resolve none 0 (recCtx c.data) 2
        (recWord c.data 0x10) 8 needRW = (.ok ks, s1) →
      let old := leNat (ks.map (Memory.read s.mem))
      Ends (.resolve st) s (fun t => (t.stream u).completed = c.seq ∧
        t.mem = Memory.writes s.mem (ks.zip (leBytes 8 (if recWord c.data 0x20 = 0 then recWord c.data 0x18 else old + recWord c.data 0x18))))))

/-- RESOLVE of what is not pending, shootdowns, contexts, QUERY and RESYNC (R159 to R169): a fault that is not pending is STALE, and one of
the transport only ends; a shootdown drops every translation of its range; a context that is created has the record's page table,
queues and streams; one that is reset or destroyed has no block, wave, pointer, operation, fault or image left, its threads are IDLE and its
program slots FREE; an answer carries its data. -/
def Sys2Proof.Claims.ContextCommands : Prop := ∀ (st : BitVec 10) (seq : Word) (l : List Byte) (s : State),
  let n := st.toNat
  let s0 := taken s n seq
  let x := recCtx l
  let w := recWord l
  let ends (i : Instr) (status value : Nat) (P : State → Prop) : Prop := Ends i s (fun t => Completed s t n seq l status value ∧ P t)
  (Command (.resolve st) s st seq l → w 0x20 = 0 → w 0x28 = 0 →
    (s.pending? x (w 0x10) = none → ends (.resolve st) 8 0 (fun t => t.mem = s.mem ∧ t.pend = s.pend)) ∧
    (∀ p, s.pending? x (w 0x10) = some p → p.waiter = .rdma → ends (.resolve st) 0 0 (fun t => t.mem = s.mem ∧
      t.pend = s.pend.filter (fun q => q.frec.id != p.frec.id)))) ∧
  (Command (.shootdown st) s st seq l →
    let len := w 0x20
    let b := w 0x28
    let bad : Prop := w 0x18 ≠ 0 ∨ len = 0 ∨ len % 65536 ≠ 0 ∨ b % 65536 ≠ 0
    (bad → ends (.shootdown st) 3 0 (fun t => t.mem = s.mem ∧ t.tlb = s.tlb ∧ t.cores = s.cores)) ∧
    (¬ bad → ends (.shootdown st) 0 0 (fun t => t.mem = s.mem ∧ (∀ r, t.wave? r = s.wave? r) ∧ ∀ u e, e ∈ tget [] t.tlb u ↔ e ∈ tget [] s.tlb u ∧
      ¬ (e.asid = x ∧ e.page * 2 ^ levelShift e.level < b + len ∧ b < (e.page + 1) * 2 ^ levelShift e.level)))) ∧
  (Command (.contextCreate st) s st seq l →
    (createBad l = true → ends (.contextCreate st) 3 0 (fun t => t.ctxs = s.ctxs)) ∧
    (createBad l = false → s.createRefused l = true → ends (.contextCreate st) 4 0 (fun t => t.ctxs = s.ctxs)) ∧
    (createBad l = false → s.createRefused l = false → ends (.contextCreate st) 0 0 (fun t => t.mem = s.mem ∧
      (∃ c : Ctx, t.ctx? x = some c ∧ c.ptroot = w 0x10 ∧ c.save.toNat = w 0x18 % 2 ^ 64 ∧ c.fq.toNat = w 0x28 % 2 ^ 64 ∧ c.windows.length = w 0x58 ∧
        c.pmst = 0 ∧ c.images = []) ∧ (∀ y, y ≠ x → t.ctx? y = s.ctx? y) ∧
      (∀ q, q < 64 → (t.hq q).ctx = if bit (w 0x40) q = true then some x else (s.hq q).ctx) ∧
      (∀ i, i < bits (w 0x50) 20 10 → (t.stream (bits (w 0x50) 41 32 + i)).open_ = true ∧
        (t.stream (bits (w 0x50) 41 32 + i)).ctx = some x)))) ∧
  (Command (.contextReset st) s st seq l → Ends (.contextReset st) s (fun t =>
    (∀ c k b, tfind (t.core c).blocks k = some b → b.ctx ≠ x) ∧
    (∀ r v b, s.wave? r = some v → v.handler = false → tfind (s.core r.core).blocks v.bslot = some b → b.ctx = x → t.wave? r = none) ∧
    (∀ r v, t.wave? r = some v → v.handler = true → v.ctx ≠ x) ∧ (∀ k, (s.gth k).ctx = some x → (t.gth k).st = 0) ∧
    (∀ i, (s.cx i).ctx = some x → (s.cx i).st ≠ 0 → (s.cx i).desc.isSome = true → (t.cx i).st = 0) ∧ (∀ r ∈ t.runs, r.ctx ≠ x) ∧ (∀ o ∈ t.asyncs, o.ctx ≠ x) ∧ (∀ p ∈ t.pend, p.ctx ≠ x) ∧
    (∀ q, (s.hq q).ctx = some x → (t.hq q).ptrs = [] ∧ (t.hq q).ctx = some x) ∧ (∀ c, t.ctx? x = some c → c.images = [] ∧ c.pmst = 0))) ∧
  (Command (.contextDestroy st) s st seq l → Ends (.contextDestroy st) s (fun t => t.ctx? x = none ∧ (∀ o ∈ t.asyncs, o.ctx ≠ x) ∧
    (∀ p ∈ t.pend, p.ctx ≠ x))) ∧
  (Command (.query st) s st seq l → ∀ d s1,
    (s0.queryData (w 0x10) (w 0x18) x ((l.drop 0x20).take 32) = (none, s1) → ends (.query st) 3 0 (fun t => t.mem = s.mem)) ∧
    ((s.stream n).unacked = [] → (s.stream n).held = [] → s0.queryData (w 0x10) (w 0x18) x ((l.drop 0x20).take 32) = (some d, s1) →
      Ends (.query st) s (fun t => t.mem = s.mem ∧ Answered s t n seq l 0 d))) ∧
  (Command (.resync st) s st seq l → (s.stream n).unacked = [] → (s.stream n).held = [] → Ends (.resync st) s (fun t => t.mem = s.mem ∧
    Answered s t n seq l s0.summary.length s0.summary))

/-- The transport and device memory windows (R146 to R154): a command packet in order joins its stream and is acknowledged, one out of order is
answered with the last SEQ; an acknowledgement releases what it covers; a completion is sent again after 100 µs, and after 16 sends the
stream is STALLED; a write or a read through a window, in its turn on a queue pair that is set up, goes to the bytes that it names, and is
refused outside the window; what is not in its turn is the choice of log 86. -/
def Obligations.HostTransport : Prop := ∀ (k : HostPacket) (st : BitVec 10) (s : State),
  let n := k.stream.toNat
  let c := s.stream n
  let z := s.stream st.toNat
  s.hostUp = true →
  (packetOk k 1 = true → c.open_ = false → c.stalled = false → Ends (.cmdPacket k) s (fun t => t = s.sendAck n 0)) ∧
  (packetOk k 1 = true → c.open_ = true → c.stalled = false →
    (k.seq = c.lastSeq + 1 → c.buffer.length < 64 → s.mgmt.minimal = false → (∀ p ∈ c.buffer ++ [(k.seq, k.payload)], recBadCmd n p.2 = false) →
      Ends (.cmdPacket k) s (fun t => t = { s.setStream n { c with lastSeq := k.seq, buffer := c.buffer ++ [(k.seq, k.payload)] } with
          outHost := t.outHost, queue := t.queue } ∧ t.outHost = (s.sendAck n k.seq).outHost)) ∧
    (k.seq ≠ c.lastSeq + 1 ∨ 64 ≤ c.buffer.length → Ends (.cmdPacket k) s (fun t => t = s.sendAck n c.lastSeq))) ∧
  (packetOk k 2 = true → c.open_ = true → c.stalled = false → c.held = [] → c.buffer = [] →
    later k.ackseq c.ackedSeq = true → later k.ackseq c.cplSeq = false → Ends (.hostAck k) s (fun t =>
      t = s.setStream n { c with ackedSeq := k.ackseq, unacked := c.unacked.filter (fun p => later p.1.seq k.ackseq) })) ∧
  (packetOk k 2 = true → c.open_ = true → c.stalled = false → (later k.ackseq c.ackedSeq = false ∨ later k.ackseq c.cplSeq = true) →
    Ends (.hostAck k) s (fun t => t = s)) ∧
  (z.stalled = false → (∃ p ∈ z.unacked, p.2.1 + 100000 ≤ s.now) →
    ((∃ p ∈ z.unacked, p.2.1 + 100000 ≤ s.now ∧ 16 ≤ p.2.2) → Ends (.cplRetransmit st) s (fun t =>
      t = s.setStream st.toNat { z with stalled := true })) ∧
    ((∀ p ∈ z.unacked, p.2.1 + 100000 ≤ s.now → p.2.2 < 16) → Ends (.cplRetransmit st) s (fun t =>
      t.outHost = s.outHost ++ (z.unacked.filter (fun p => decide (p.2.1 + 100000 ≤ s.now))).map (fun p => p.1) ∧
      t.timers = s.timers ++ [⟨s.now + 100000, .cplRetransmit st⟩] ∧ t.mem = s.mem))) ∧
  (∀ (qp : BitVec 6) (psn : BitVec 24) (key : Word) (a : DWord) (data : List Byte) (len : Nat) (win : Window) (q : Qp),
    tfind s.mgmt.qps qp.toNat = some q →
    let e (n : Nat) : State :=
      { s with mgmt := { s.mgmt with qps := tset s.mgmt.qps qp.toNat { q with epsn := q.epsn + BitVec.ofNat 24 (q.packets n) } } }
    let n := data.length
    let writes (t : State) : Prop := Ends (.rdmaWrite ⟨qp, psn⟩ key a data) s (fun u => u = t)
    let reads (t : State) : Prop := Ends (.rdmaRead ⟨qp, psn⟩ key a len) s (fun u => u = t)
    (psn = q.epsn →
      (s.windowOf key = none → writes ((e n).rdmaAnswer qp.toNat .nakAccess) ∧ reads ((e len).rdmaAnswer qp.toNat .nakAccess)) ∧
      (s.windowOf key = some win → win.len < a.toNat + n ∨ win.access.getLsbD 1 = false → writes ((e n).rdmaAnswer qp.toNat .nakAccess)) ∧
      (s.windowOf key = some win → win.len < a.toNat + len ∨ win.access.getLsbD 0 = false → reads ((e len).rdmaAnswer qp.toNat .nakAccess)) ∧
      (∀ ks s1, (e n).rdmaKeys qp key a n true = (.ok ks, s1) → Ends (.rdmaWrite ⟨qp, psn⟩ key a data) s (fun t =>
        t.mem = Memory.writes s.mem (ks.zip data) ∧ ∃ r : RdmaReply, t.outRdma = s.outRdma ++ [r] ∧ r.answer = .ack ∧ r.qp = qp.toNat ∧ r.psn = q.spsn)) ∧
      (∀ ks s1, (e len).rdmaKeys qp key a len false = (.ok ks, s1) → Ends (.rdmaRead ⟨qp, psn⟩ key a len) s (fun t => t.mem = s.mem ∧
        ∃ rs : List RdmaReply, t.outRdma = s.outRdma ++ rs ∧ rs ≠ [] ∧
          rs.flatMap (fun r => match r.answer with | .data b => b | _ => []) = ks.map (Memory.read s.mem)))) ∧
    (psn ≠ q.epsn → (psn - q.epsn).toNat < 2 ^ 23 → writes (s.rdmaAnswer qp.toNat .nakSequence) ∧ reads (s.rdmaAnswer qp.toNat .nakSequence)) ∧
    (2 ^ 23 ≤ (psn - q.epsn).toNat → writes (s.rdmaAnswer qp.toNat .ack)))

/-! Events: the management flow -/

/-- Management requests (R176 to R179, R181 to R183): a length or a reserved byte that is wrong is BADARG; each request answers its data and has
its effect, and nothing else of the machine changes; while the management core's own image switches, a request waits. The places of
the staged bytes are log 60; QP-TEARDOWN of a queue pair that is not set up, and READ-LOG from an entry not held, are log 99. -/
def Obligations.ManagementRequests : Prop := ∀ (m : MgmtReq) (s : State), s.manager = true →
  let g := s.mgmt
  let l := m.payload
  let rep (i : Instr) (op status : Nat) (data : List Byte) (P : State → Prop) : Prop :=
    g.inbox = [] ∨ g.inbox = [(BitVec.ofNat 8 op, m)] → Ends i s (fun t => P t ∧
      t.mgmt.replies = g.replies ++ [⟨op, status, m.tag, data⟩] ∧ t.mgmt.inbox = [])
  let only (t : State) : Prop := t = { s with mgmt := { g with replies := t.mgmt.replies, inbox := t.mgmt.inbox } }
  let b0 := field l 0 1
  let held (i : Instr) (op : Nat) : Prop := Ends i s (fun t => t = { s with mgmt := { g with inbox := [(BitVec.ofNat 8 op, m)] } })
  (s.switching 0 = true → g.inbox = [] → held (.readCounters m) 1 ∧ held (.readHist m) 2 ∧ held (.clearSticky m) 3 ∧ held (.fwStage m) 4 ∧
    held (.recal m) 6 ∧ held (.qpSetup m) 8 ∧ held (.qpTeardown m) 9 ∧ held (.readLog m) 10) ∧ (s.switching 0 = false →
  (reqOk m 0 = false → rep (.readCounters m) 1 3 [] only) ∧ (reqOk m 1 = false → rep (.readHist m) 2 3 [] only) ∧
  (reqOk m 4 = false → rep (.clearSticky m) 3 3 [] only) ∧ (reqOk m 1 = false → rep (.recal m) 6 3 [] only) ∧
  (reqOk m 48 = false → rep (.qpSetup m) 8 3 [] only) ∧ (reqOk m 1 = false → rep (.qpTeardown m) 9 3 [] only) ∧
  (reqOk m 4 = false → rep (.readLog m) 10 3 [] only) ∧
  (reqOk m 0 = true → rep (.readCounters m) 1 0 ((List.range 208).flatMap (fun i => leBytes 4 (tget 0 g.counters i))) only) ∧
  (reqOk m 1 = true → 2 ≤ b0 → b0 ≤ 8 → rep (.readHist m) 2 0 ((List.range 32).flatMap (fun i => leBytes 4 (tget 0 g.hist (32 * b0 + i)))) only) ∧
  (reqOk m 1 = true → b0 < 2 ∨ 8 < b0 → rep (.readHist m) 2 3 [] only) ∧
  (reqOk m 4 = true → rep (.clearSticky m) 3 0 [] (fun t => t = { s with mgmt := t.mgmt, modl := { s.modl with
    uvwarn := s.modl.uvwarn && !bit (field l 0 4) 3, ovoff := s.modl.ovoff && !bit (field l 0 4) 2
    plimev := s.modl.plimev && !bit (field l 0 4) 1 } })) ∧
  (m.rsv = false → m.len = l.length → 2 ≤ m.len → b0 ∈ units → s.switching b0 = false → rep (.fwStage m) 4 0 [] (fun t =>
    t = { s with mgmt := t.mgmt } ∧ ∃ img : List Byte, t.mgmt.staged = tset g.staged (b0 * 2 + (1 - g.active b0)) (g.nextImage, img) ∧
      (∀ i, i < l.length - 2 → img.getD (field l 1 1 + i) 0 = l.getD (i + 2) 0) ∧ t.mgmt.slots = g.slots)) ∧
  (m.rsv = false → m.len = l.length → 2 ≤ m.len → b0 ∈ units → s.switching b0 = true → rep (.fwStage m) 4 4 [] only) ∧
  (m.rsv = true ∨ m.len ≠ l.length ∨ m.len < 2 ∨ b0 ∉ units → rep (.fwStage m) 4 3 [] only) ∧
  (reqOk m 1 = true → b0 < 32 → (s.port b0).st = 2 → rep (.recal m) 6 0 [] (fun t => t.mem = s.mem ∧
    (t.port b0).st = 1 ∧ (t.port b0).recal = true ∧ (t.port b0).badreq = (s.port b0).badreq)) ∧
  (reqOk m 1 = true → b0 < 32 → (s.port b0).st ≠ 2 → rep (.recal m) 6 4 [] (fun t => t.mem = s.mem ∧ (t.port b0).badreq = true ∧
    (t.port b0).lasterr = 6)) ∧
  (reqOk m 1 = true → 32 ≤ b0 → rep (.recal m) 6 3 [] only) ∧
  (reqOk m 48 = true → qpOk l = true → tfind g.qps (b0 % 64) = none → rep (.qpSetup m) 8 0 [] (fun t => t = { s with mgmt := t.mgmt } ∧
    t.mgmt.qps = tset g.qps (b0 % 64)
      ⟨l, BitVec.ofNat 24 (bits (field l 8 8) 55 32), BitVec.ofNat 24 (bits (field l 8 8) 23 0)⟩)) ∧
  (reqOk m 48 = true → qpOk l = true → (tfind g.qps (b0 % 64)).isSome = true → rep (.qpSetup m) 8 4 [] only) ∧
  (reqOk m 48 = true → qpOk l = false → rep (.qpSetup m) 8 3 [] only) ∧
  (reqOk m 1 = true → b0 < 64 → rep (.qpTeardown m) 9 0 [] (fun t => t = { s with mgmt := t.mgmt } ∧ tfind t.mgmt.qps b0 = none ∧
    ∀ k, k ≠ b0 → tfind t.mgmt.qps k = tfind g.qps k)) ∧
  (reqOk m 1 = true → 64 ≤ b0 → rep (.qpTeardown m) 9 3 [] only) ∧
  (reqOk m 4 = true → (∃ e ∈ g.log, e.index = BitVec.ofNat 32 (field l 0 4)) → rep (.readLog m) 10 0
    (((g.log.dropWhile (fun e => e.index != BitVec.ofNat 32 (field l 0 4))).take 340).flatMap logBytes) only) ∧
  (reqOk m 4 = true → (∀ e ∈ g.log, e.index ≠ BitVec.ofNat 32 (field l 0 4)) → rep (.readLog m) 10 0 ((g.log.take 340).flatMap logBytes) only))

/-- Switches of firmware, reboots and frames (R144, R171, R175, R177, R180, R183): a verified image is pending for 10 s and shown in UPDPEND; at
the unit's quiescent point it runs from its other slot, or the old one where it does not start, with a log entry and the reply; after
10 s without that point it is refused; a reboot answers, commits the records with the ports' counts that the reset clears (the choice of
log 61) and starts anew; a frame that fails a check is counted, a neighbour solicitation for the device's address is answered (log 89),
and a request from a source outside the allow list is counted and dropped. -/
def Obligations.FirmwareAndFrames : Prop := ∀ (m : MgmtReq) (b : Boot) (f : Frame) (u : BitVec 8) (s : State),
  let g := s.mgmt
  let b0 := field m.payload 0 1
  let n := u.toNat
  let free := s.switching 0 = false ∧ g.inbox = []
  let nothingHeld : Prop := g.inbox = [] ∧ (∀ st, ∀ r ∈ (s.stream st).running, r.wait ≠ .firmware) ∧ (∀ c ∈ s.ctxs, c.2.pmst ≠ 3) ∧
    (∀ q ∈ s.queues, q.2.placing = []) ∧ ∀ w ∈ s.allWaves, ∀ d, w.2.decl = some d → d.told = true
  let gone := g.pendingSwitch.filter (fun q => q.unit != n)
  let shows (t : State) : Prop := t.mgmt.updpend = (match t.mgmt.pendingSwitch.getLast? with | some q => BitVec.ofNat 8 q.unit | none => 0xFF)
  (s.manager = true → free → reqOk m 1 = true → b0 ∈ units → s.switching b0 = false → Ends (.fwSwitch m true) s (fun t =>
    t = { s with mgmt := t.mgmt, timers := s.timers ++ [⟨s.now + 10000000000, .fwSwitchTimeout (BitVec.ofNat 8 b0)⟩] } ∧
    t.mgmt = { g with pendingSwitch := g.pendingSwitch ++ [⟨b0, s.now + 10000000000, m.tag⟩], updpend := BitVec.ofNat 8 b0 })) ∧
  (s.manager = true → free → ∀ v : Bool,
    (reqOk m 1 = true → b0 ∈ units → s.switching b0 = true ∨ v = false →
      Ends (.fwSwitch m v) s (fun t => t = { s with mgmt := { g with replies := g.replies ++ [⟨5, 4, m.tag, []⟩] } })) ∧
    (reqOk m 1 = false ∨ b0 ∉ units →
      Ends (.fwSwitch m v) s (fun t => t = { s with mgmt := { g with replies := g.replies ++ [⟨5, 3, m.tag, []⟩] } }))) ∧
  (∀ (q : FwSwitch) (started : Bool), g.pendingSwitch.find? (fun q => q.unit == n) = some q → s.quiescent n = true → nothingHeld →
    Ends (.firmwareSwitchDone u started) s (fun t => t = { s with mgmt := t.mgmt } ∧ shows t ∧ t.mgmt.pendingSwitch = gone ∧
      tget 0 t.mgmt.slots n = (if started = true then 1 - g.active n else g.active n) ∧
      tfind t.mgmt.running n = some (tget 0 t.mgmt.slots n) ∧ t.mgmt.replies = g.replies ++ [⟨5, if started = true then 0 else 9, q.tag, []⟩] ∧
      ∃ e : LogEntry, t.mgmt.log.getLast? = some e ∧ e.unit = n ∧ e.kind = if started = true then 2 else 3)) ∧
  (s.quiescent n = true → Ends (.fwSwitchTimeout u) s (fun t => t = s)) ∧
  (∀ q : FwSwitch, g.pendingSwitch.find? (fun q => q.unit == n && decide (q.due ≤ s.now)) = some q → s.quiescent n = false → nothingHeld →
    Ends (.fwSwitchTimeout u) s (fun t => t = { s with mgmt := t.mgmt } ∧ shows t ∧ t.mgmt.pendingSwitch = gone ∧
      t.mgmt.slots = g.slots ∧ t.mgmt.replies = g.replies ++ [⟨5, 4, q.tag, []⟩])) ∧
  (s.manager = true → free → reqOk m 8 = true → field m.payload 0 8 < 2 → b.fail = none → (field m.payload 0 8 = 1 ∨ g.failed < 3) →
    Ends (.reboot m b) s (fun t => t.cores = [] ∧ t.ctxs = [] ∧ t.mgmt.bootComplete = true ∧ t.mgmt.failed = 0 ∧
      t.mgmt.replies = g.replies ++ [⟨7, 0, m.tag, []⟩] ∧ 
      t.mgmt.pages = (((s.each (List.range 32) (fun s p => s.clearCounts p)).mgmt.counters, g.hist) :: g.pages).take 2)) ∧
  (s.hostUp = true →
    (frameOk f = false → Ends (.ethernetFrame f) s (fun t => t = { s with badFrames := s.badFrames + 1 })) ∧
    (∀ src target, frameOk f = true → f.body = .neighbour src target →
      (target = Config.hostIp → s.switching 0 = false → Ends (.ethernetFrame f) s (fun t => t = { s with outNd := s.outNd ++ [⟨src, target, Config.hostMac⟩] })) ∧
      (target ≠ Config.hostIp → Ends (.ethernetFrame f) s (fun t => t = s))) ∧
    (∀ k, frameOk f = true → f.body = .yct k →
      exec (.ethernetFrame f) s = if k.typ = 1 then exec (.cmdPacket k) s else exec (.hostAck k) s) ∧
    (∀ q k key a d p, frameOk f = true → f.body = .rdmaWrite q k key a d → qpOf q = some p →
      exec (.ethernetFrame f) s = exec (.rdmaWrite ⟨p, k⟩ key a d) s) ∧
    (∀ q k key a n p, frameOk f = true → f.body = .rdmaRead q k key a n → qpOf q = some p →
      exec (.ethernetFrame f) s = exec (.rdmaRead ⟨p, k⟩ key a n) s) ∧
    (∀ q k key a d, frameOk f = true → f.body = .rdmaWrite q k key a d → qpOf q = none →
      Ends (.ethernetFrame f) s (fun t => t = { s with badFrames := s.badFrames + 1 })) ∧
    (∀ src op r, frameOk f = true → f.body = .mgmt src op r → Ends (.ethernetFrame f) s (fun t => Config.allowed src = false →
      t = { s with mgmt := t.mgmt } ∧ t.mgmt.rejsrc = satInc g.rejsrc ∧ t.mgmt.inbox = g.inbox ∧ t.mgmt.replies = g.replies ∧
      ∃ e : LogEntry, t.mgmt.log.getLast? = some e ∧ e.kind = 8)))

/-! Events: the dispatchers -/

/-- Launches (R188, R189, R193, R201, R209): a head whose dependences are met, and which has its wake where it asks for one, starts with the
next number, its blocks unplaced, and QWAKE cleared; a record that fails its checks leaves its queue and counts in REJCNT; a
dependence whose counter has its value is met; a completed launch, once no earlier one of its queue is left, adds CVAL, sends its
note and is gone. -/
def Obligations.LaunchesStartAndComplete : Prop := ∀ (q : BitVec 6) (s : State) (x : Nat) (c : Ctx) (a : DWord) (rest : List DWord),
  let n := q.toNat
  let h := s.hq n
  (h.ctx = some x → h.ptrs = a :: rest → s.ctx? x = some c → h.fault = none → s.caddrFault n = false →
    (∀ hd, h.head = some hd → hd.met.all id = true → (hd.lrec.wakegate = true → h.wake ≠ 0) → c.pmst = 0 → Ends (.recordStart q) s (fun t =>
      t.mem = s.mem ∧ (∃ r : Run, t.runs = s.runs ++ [r] ∧ r.id = s.nextId ∧ r.queue = n ∧ r.ctx = x ∧ r.comm = h.comm ∧ r.lrec = hd.lrec ∧
        r.blocks = List.replicate hd.lrec.nblocks .unplaced ∧ r.acting = none) ∧
      t.hq n = { h with ptrs := rest, head := none, wake := 0, placing := h.placing ++ [s.nextId] } ∧ (∀ j, j ≠ n → t.hq j = s.hq j) ∧
      Instr.blockPlace q ∈ t.queue)) ∧
    (∀ hd, h.head = some hd → hd.met.all id = false ∨ hd.lrec.wakegate = true ∧ h.wake = 0 ∨ c.pmst ≠ 0 → Ends (.recordStart q) s (fun t =>
      t.mem = s.mem ∧ t.runs = s.runs ∧ t.queues = s.queues)) ∧
    (∀ l s1 k, h.head = none → s.devRead (dispUnit (n / 32)) x a.toNat 256 = (.ok l, s1) → hasTable l = false → recCode c l [] = some k →
      Ends (.recordStart q) s (fun t => t.runs = s.runs ∧ (t.hq n).ptrs = rest ∧ (t.hq n).rejcnt = satInc h.rejcnt ∧ (t.hq n).head = none ∧
        Instr.recordStart q ∈ t.queue))) ∧
  (∀ (hd : Head) (i : BitVec 2) (ks : List Nat) (s1 : State), h.ctx = some x → h.fault = none → h.head = some hd →
    hd.met.getD i.toNat true = false → (hd.lrec.deps.getD i.toNat (0, 0)).1 ≠ 0 →
    (hd.lrec.deps.getD i.toNat (0, 0)).2.toNat ≤ leNat (ks.map (Memory.read s.mem)) →
    let met (j : Instr) : Prop := Ends j s (fun t => t.mem = s.mem ∧
      t.hq n = { h with head := some { hd with met := hd.met.set i.toNat true, watch := hd.watch.set i.toNat none } } ∧ ∀ j, j ≠ n → t.hq j = s.hq j)
    (s.resolve none (dispUnit (n / 32)) x 2 (hd.lrec.deps.getD i.toNat (0, 0)).1.toNat 8 needRD = (.ok ks, s1) → met (.dependenceBackoff q i)) ∧
    (∀ (d : BitVec 1) l, (s.die d.toNat).evq = .inl (n, i.toNat) :: l →
      (s.setDie d.toNat (({ s.die d.toNat with evq := l } : Die).enqueue [])).resolve none (dispUnit (n / 32)) x 2 (hd.lrec.deps.getD i.toNat (0, 0)).1.toNat 8 needRD =
        (.ok ks, s1) → met (.dependenceWake d))) ∧
  (∀ (d : BitVec 1) (id : Nat) l (r : Run) (ks : List Nat) (s1 : State), (s.die d.toNat).evq = .inr id :: l → s.run? id = some r → r.id = id →
    let s0 := s.setDie d.toNat (({ s.die d.toNat with evq := l } : Die).enqueue [])
    let note (t : State) : Prop := (bit r.lrec.act 1 = false → t.outHost = s.outHost) ∧
      (bit r.lrec.act 1 = true → (s.stream r.lrec.pstrm).unacked.length < 64 → ∃ p, t.outHost = s.outHost ++ [p] ∧ p.typ = 4 ∧
        p.payload = leBytes 8 r.lrec.addr.toNat ++ leBytes 8 s.now)
    ((∃ p ∈ s.runs, p.queue = r.queue ∧ p.id < r.id) → Ends (.completionActions d) s (fun t => t.mem = s.mem ∧ t.outHost = s.outHost ∧
      ∃ r', t.run? id = some r' ∧ r' = { r with acting := some 0 })) ∧
    ((∀ p ∈ s.runs, p.queue = r.queue → r.id ≤ p.id ∧ p.acting ≠ some 0) →
      (bit r.lrec.act 0 = false → Ends (.completionActions d) s (fun t => t.mem = s.mem ∧ t.runs = s.runs.filter (fun p => p.id != id) ∧ note t)) ∧
      (bit r.lrec.act 0 = true → s0.resolve none (dispUnit (r.queue / 32)) r.ctx 2 r.lrec.caddr.toNat 8 needRW = (.ok ks, s1) →
        Ends (.completionActions d) s (fun t => t.runs = s.runs.filter (fun p => p.id != id) ∧ note t ∧
          t.mem = Memory.writes s.mem (ks.zip (leBytes 8 (leNat (ks.map (Memory.read s.mem)) + r.lrec.cval.toNat))))))) 

/-- Placement (R198, R199, R235): a block that has room, and every block of a cluster group or gang that is alone on its core, takes
the lowest free block slot and the lowest free wave slots of its core in one step; its waves start at SENTRY in phase 0 with the
values of R235, each in its partition. Every other wave keeps its state. -/
def Sys2Proof.Claims.BlockPlacement : Prop := ∀ (q : BitVec 6) (s : State) (id : Nat) (rest : List Nat) (run : Run) (b n dom : Nat) (ps : List Plan) (s1 : State),
  let h := s.hq q.toNat
  let l := run.lrec
  s.switching (1 + q.toNat / 32) = false → h.asked = [] → h.placing = id :: rest → s.run? id = some run →
  (∃ c, s.ctx? run.ctx = some c ∧ c.pmst = 0) → run.nextUnit = some (b, n, dom) → s.planUnit run b n dom false = some ps →
  (∀ p ∈ ps, s.switching (1 + dieOf p.core) = false) → s.rouseAll q.toNat (dedup (ps.map (fun p => clusterOf p.core))) = (true, s1) →
  Ends (.blockPlace q) s (fun t => t.mem = s.mem ∧
    (∀ r, (∀ p ∈ ps, r.core ≠ p.core) → t.wave? r = s.wave? r) ∧
    (∃ r', t.run? run.id = some r' ∧ r'.blocks.length = run.blocks.length ∧ (∀ k, (∀ p ∈ ps, p.blk ≠ k) → r'.blocks[k]? = run.blocks[k]?) ∧
      ∀ p ∈ ps, p.blk < run.blocks.length → ∃ bs, r'.blocks[p.blk]? = some (.on p.core bs)) ∧
    ∀ p ∈ ps, (∀ j ∈ ps, j.core = p.core → j = p) → (ps.filter (fun j => j = p)).length = 1 → ∀ bs, bs < 16 →
      tfind (s.core p.core).blocks bs = none → (∀ j, j < bs → tfind (s.core p.core).blocks j ≠ none) →
      ∀ ws, ws = ((List.range 32).filter (fun w => (tfind (s.core p.core).waves w).isNone)).take l.wpb → ws.length = l.wpb →
      ∀ parts : List Nat, (s.coreRes p.core).partitions l = some parts →
      (∃ k : Block, tfind (t.core p.core).blocks bs = some k ∧ k.launch = run.id ∧ k.kid = p.blk ∧ k.ctx = run.ctx ∧ k.sbase = p.base ∧ k.scrq = l.scrq ∧
        k.l1floor = l.l1floor ∧ k.waves = ws ∧ k.parts = parts ∧ k.lregq = l.lregq) ∧
      (p.blk < run.blocks.length → ∃ r', t.run? run.id = some r' ∧ r'.blocks[p.blk]? = some (.on p.core bs)) ∧
      (∀ w, w ∉ ws → t.wave? ⟨p.core, w⟩ = s.wave? ⟨p.core, w⟩) ∧
      ∀ w, w < l.wpb → ∃ y f, t.wave? ⟨p.core, ws.getD w 0⟩ = some y ∧ y.frags = [f] ∧ f.pc = l.sentry ∧ f.lanes = BitVec.allOnes 96 ∧ f.queue = [] ∧
        f.run = none ∧ f.st = .ready ∧ (∀ r, r < 64 → y.rd f r =
          if r = 2 then l.args.truncate 32 else if r = 3 then (l.args >>> 32).truncate 32 else if 61 ≤ r then 0xFFFFFFFF else 0) ∧
        (∀ g, g ≠ 0 → y.guard g = 0) ∧ (∀ k, tget 0 y.flags k = 0) ∧ y.tickets = [] ∧ y.xslot = [] ∧ y.trapv = l.trape ∧ y.phase = 0 ∧ y.handler = false ∧
        y.ops = [] ∧ y.ctx = run.ctx ∧ y.launch = run.id ∧ y.kid = p.blk ∧ y.bslot = bs ∧ y.widx = w ∧ y.part = parts.getD w 0 ∧ y.nregs = 16 * l.lregq)

/-- Cluster groups, gangs and partitions (R196, R197, R198): a plan names the blocks of its unit once each, in block order; those of a
cluster group stand on distinct cores of one cluster, block c of the group with relabel entry c of one row; those of a gang stand
in one instance of its domain. Wave w of a block goes to partition (b + w) mod 4, b the one with the fewest waves, and no
partition takes more than 8 waves or 32 register sixteens. -/
def Sys2Proof.Claims.GroupsAndGangs : Prop := ∀ (s : State) (run : Run) (b n dom : Nat) (ps : List Plan),
  let l := run.lrec
  let g := l.groupSize
  (s.planUnit run b n dom false = some ps →
    (l.groupLevel = none ∨ n % g = 0 → ps.map Plan.blk = (List.range n).map (fun i => b + i)) ∧
    (l.groupLevel ≠ none → ∀ i j, ∀ p ∈ ps, ∀ q ∈ ps, p.blk = b + i → q.blk = b + j → i / g = j / g →
      clusterOf p.core = clusterOf q.core ∧ (i ≠ j → p.core ≠ q.core)) ∧
    (l.groupLevel = none → dom = 0 → ∀ p ∈ ps, ∀ q ∈ ps, 1 < n → p.core = q.core) ∧
    (dom = 1 → ∀ p ∈ ps, ∀ q ∈ ps, clusterOf p.core = clusterOf q.core) ∧
    (dom ≠ 3 → ∀ p ∈ ps, dieOf p.core = run.queue / 32)) ∧
  (∀ k, l.groupLevel = some k → ps.length = g → (∀ p ∈ ps, ∀ q ∈ ps, clusterOf p.core = clusterOf q.core ∧ (p.blk % g = q.blk % g → p = q)) → ps ≠ [] →
    (∀ p ∈ ps, p.blk % g < 12) →
    let t := s.placeAll run ps
    ∃ row, (∀ j, j < row → (s.cluster (clusterOf (ps.headD ⟨0, 0, 0, none⟩).core)).rows.contains j = true) ∧ ∀ p ∈ ps,
      tfind (t.cluster (clusterOf p.core)).relabel (row * 12 + p.blk % g) = some (p.core % 12, p.base)) ∧
  (∀ core parts, (s.coreRes core).partitions l = some parts →
    let count (p : Nat) : Nat := ((s.core core).waves.filter (fun e => !e.2.handler && e.2.part == p)).length
    parts.length = l.wpb ∧ (∀ p, p < 4 → count p + (parts.filter (fun j => j == p)).length ≤ 8) ∧
    ∃ m, m < 4 ∧ (∀ p, p < 4 → count m ≤ count p) ∧ (∀ p, p < m → count m < count p) ∧ ∀ w, w < l.wpb → parts[w]? = some ((m + w) % 4))

/-- Carve-outs and phases (R204, R205, R252): a carve-out takes effect where no block forbids it, and empties the L1; a block that was held
for its lead starts its next phase at that phase's entry. -/
def Sys2Proof.Claims.CarveOutsAndPhases : Prop := ∀ (core : BitVec 8) (s : State),
  let k := s.core core.toNat
  (k.pend = true → k.blocks.all (fun b => decide (b.2.sbase + b.2.scrq ≤ k.tgt * 32 || b.2.scrq = 0) && decide (b.2.l1floor + k.tgt ≤ 8)) = true →
    k.wcb = [] → k.nextTgt = none → Ends (.carveOutChangeDone core) s (fun t => t.mem = s.mem ∧
      t.core core.toNat = { k with l1 := [], scr := k.tgt, pend := false } ∧ ∀ j, j ≠ core.toNat → t.core j = s.core j)) ∧
  (∀ id blk r j pc lev cr bs, s.run? id = some r → tfind r.parked blk = some j → (∃ c, s.ctx? r.ctx = some c ∧ c.pmst = 0) →
    r.lrec.phases.getD j (0, 2) = (pc, lev) → r.leadOk lev blk (j + 1) = true → r.blocks[blk]? = some (.on cr bs) → (∀ c b, .on c b ∈ r.blocks → (s.core c).wcb = []) →
    Ends (.leadPhaseStart id blk) s (fun t => t.mem = s.mem ∧
      (∃ r', t.run? id = some r' ∧ tfind r'.parked blk = none ∧ tget 0 r'.phaseOf blk = j + 1 ∧ r'.blocks = r.blocks) ∧
      ∀ w ∈ s.blockWaves cr bs, ∀ y, s.wave? ⟨cr, w⟩ = some y → t.wave? ⟨cr, w⟩ = some { y with
        phase := j + 1, frags := y.frags.map (fun f => { f with pc := pc, st := .ready, waitSince := none }) }))

/-- The communication reserve and power gating (R206, R207, R226), and the wake registers (R94, R175, R211): CUR falls by one 20 µs after W became
0 and every 20 µs; an idle cluster gates 32 front cycles (20 ns) after its sequence began and wakes 300 ns after it is wanted; a write
to a wake register is ORed in (that the core reads MARK at the end of the ns, and makes one entry of it, is log 87); COMRES takes its
bounds unless they are out of order. -/
def Sys2Proof.Claims.ReserveAndGating : Prop := ∀ (d : BitVec 1) (n : BitVec 4) (v : Word) (s : State),
  let k := s.die d.toNat
  let c := s.cluster n.toNat
  let only (t : State) (y : Cluster) : Prop := t.cluster n.toNat = y ∧ (∀ j, j ≠ n.toNat → t.cluster j = s.cluster j) ∧ t.mem = s.mem ∧ t.cores = s.cores
  (∀ z, k.wzero = some z → z + 20000 ≤ s.now → k.min.toNat < k.cur → Ends (.commReserveFall d) s (fun t => t.mem = s.mem ∧
    t.die d.toNat = { k with cur := k.cur - 1, wzero := some (z + 20000) } ∧ t.timers = s.timers ++ [⟨z + 40000, .commReserveFall d⟩])) ∧
  ((s.die (n.toNat / 8)).gateen = true → s.idleLong n.toNat = true → c.gated = false → c.gateStart = none → c.calibrating = false →
    c.wakeAt = none → s.calDue n.toNat = false → Ends (.gateSequenceStart n) s (fun t => only t { c with gateStart := some s.now } ∧
      t.timers = s.timers ++ [⟨s.now + 20, .gateSequenceEnd (BitVec.ofNat 4 n.toNat)⟩])) ∧
  (∀ z, c.gateStart = some z → z + 20 ≤ s.now → Ends (.gateSequenceEnd n) s (fun t => only t { c with
      gateStart := none, gated := true, edges := c.edgesAt s.ticks, edgeAt := s.ticks, wakeAt := if c.wanted = [] then none else some (s.now + 300) } ∧
    (c.wanted ≠ [] → t.timers = s.timers ++ [⟨s.now + 300, .clusterWake n⟩]))) ∧
  (∀ z, c.wakeAt = some z → z ≤ s.now → Ends (.clusterWake n) s (fun t => only t { c with
    gated := false, wanted := [], wakeAt := none, idleSince := some s.now, edges := c.edgesAt s.ticks, edgeAt := s.ticks })) ∧
  (∀ g : BitVec 2, Ends (.gwakeWrite g v) s (fun t => t = s.setGth g.toNat { s.gth g.toNat with wake := (s.gth g.toNat).wake ||| v })) ∧
  (∀ q : BitVec 6, Ends (.qwakeWrite q v) s (fun t => t = { s.setHq q.toNat { s.hq q.toNat with wake := (s.hq q.toNat).wake ||| v } with queue := t.queue } ∧
    Instr.recordStart q ∈ t.queue)) ∧
  Ends (.mbwakeWrite v) s (fun t => t = { s with mgmt := { s.mgmt with mbwake := s.mgmt.mbwake ||| v } }) ∧
  (s.mgmt.mbwake ≠ 0 → s.modl.on = true → s.mgmt.bootStep ≠ 0 → s.switching 0 = false → s.readMark.mgmt.mbwake = 0 ∧
    ∃ e : LogEntry, s.readMark.mgmt.log.getLast? = some e ∧ e.kind = 1 ∧ e.data = s.mgmt.mbwake.zeroExtend 64) ∧
  (let mx := bits v.toNat 15 8
   let mn := bits v.toNat 7 0
   (mx < mn ∨ 96 < mx → Ends (.comresWrite d v) s (fun t => t = s)) ∧
   (mn ≤ mx → mx ≤ 96 → Ends (.comresWrite d v) s (fun t => t.mem = s.mem ∧ t.cores = s.cores ∧ (t.die d.toNat).max.toNat = mx ∧ (t.die d.toNat).min.toNat = mn ∧
     mn ≤ (t.die d.toNat).cur ∧ (t.die d.toNat).cur ≤ mx)))

/-! Events: wakes, the watchdog, handlers and pre-emption -/

/-- Wakes, drains and the watchdog (R254, R284, R285, R311): a sleeping fragment runs again when a write fell on its lines, when its back-off
is over, or 64 µs after it slept with no line; the wave's WOKE is set and its refusals are counted anew only after a write; a line of
a write-combining buffer drains 128 front cycles (80 ns) after its first store; a wait longer than the watchdog's limit ends the
context; the time in which a fragment waits for RESOLVE, or WDEN of its die is 0, does not count, since the start of its wait moves
along with it (log 51). -/
def Sys2Proof.Claims.WakesAndWatchdog : Prop := ∀ (r : WaveRef) (f : Nat) (w : Wave) (g : Fragment) (s : State), s.wave? r = some w → w.frag? f = some g →
  let d := s.die (dieOf r.core)
  let limit := 1000 * max 1 d.wdt.toNat
  let wakes (i : Instr) (k : Nat) : Prop := Ends i s (fun t => t.mem = s.mem ∧ (∀ q, q ≠ r → t.wave? q = s.wave? q) ∧ ∃ w' : Wave, t.wave? r = some w' ∧
    w' = { w with woke := true, frags := w'.frags } ∧ w'.frag? f = some { g with st := .ready, sleep := none, refusals := k } ∧
    ∀ j, j ≠ f → w'.frag? j = w.frag? j)
  (∀ sl, g.st = .sleeping → g.sleep = some sl →
    (sl.woken = true → s.heldBack r f = false → wakes (.fragmentWake r f) 0) ∧
    (sl.refused = true → sl.since + watchBackoff (g.refusals - 1) ≤ s.now → wakes (.watchBackoffWake r f) g.refusals) ∧
    (sl.lines = [] → sl.refused = false → sl.since + 64000 ≤ s.now → wakes (.emptyReadSetWake r f) g.refusals)) ∧
  (∀ v, g.waitSince = some v → d.wden = true →
    (s.now < v + limit → Ends (.watchdogExpiry r f) s (fun t => t = { s with timers := s.timers ++ [⟨v + limit, .watchdogExpiry r f⟩] })) ∧
    (v + limit ≤ s.now → (s.ctx? w.ctx).isSome = true → Ends (.watchdogExpiry r f) s (fun t => t.ctx? w.ctx = none))) ∧
  (∀ v dt, g.waitSince = some v → (s.pend ≠ [] ∨ d.wden = false) → (s.allWaves.map (fun p => p.1)).Nodup →
    ∃ w' : Wave, (s.shiftWaits dt).wave? r = some w' ∧
    w'.frag? f = some { g with waitSince := some (if d.wden = false ∨ s.fragAwaits r w g = true then v + dt else v) }) ∧
  (∀ (core : BitVec 8) (line : Nat) (e : WcLine), (s.core core.toNat).wcb.find? (fun e => e.line == line) = some e → e.time + 80 ≤ s.now →
    Ends (.wcbDrain core line) s (fun t => t.mem = Memory.writes s.mem e.data ∧
      (t.core core.toNat).wcb = (s.core core.toNat).wcb.filter (fun x => x.line != line)))

/-- HANDLER_LAUNCH (R303, R304): the group that has been ready longest, where it has at most 96 lanes, becomes the handler wave of its core in
wave slot 32: it begins at the group's entry with one lane for each held lane, whose code and instruction address are in v1 to v3. -/
def Sys2Proof.Claims.HandlerLaunches : Prop := ∀ (core : BitVec 8) (g : Group) (s : State),
  let n := core.toNat
  let c := s.core n
  tfind c.waves 32 = none → minBy Group.readyAt (c.groups.filter (fun g => decide (g.readyAt ≤ s.now))) = some g → g.lanes.length ≤ 96 →
  Ends (.handlerLaunch core) s (fun t => t.mem = s.mem ∧ (∀ q, q ≠ ⟨n, 32⟩ → t.wave? q = s.wave? q) ∧
    (t.core n).groups = c.groups.filter (fun h => !(h.ctx == g.ctx && h.entry == g.entry)) ∧
    (t.core n).handling = g.lanes.map (fun h => (h, false)) ∧
    ∃ w : Wave, t.wave? ⟨n, 32⟩ = some w ∧ w.handler = true ∧ w.ctx = g.ctx ∧ w.trapv = g.entry ∧ w.txn = none ∧
      (∃ f : Fragment, w.frag? 0 = some f ∧ f.pc = g.entry ∧ f.st = .ready ∧ ∀ j, j < 96 → lane f.lanes j = decide (j < g.lanes.length)) ∧
      ∀ j h, g.lanes[j]? = some h → w.vget 0 j = originTag h ∧ w.vget 1 j = h.v1 ∧ w.vget 2 j = h.addr.truncate 32 ∧
        w.vget 3 j = (h.addr >>> 32).truncate 32)

/-- Pre-emption (R313 to R317, R495; log 50): REQ in RUN or RESTORING starts a drain with its deadline; RESTORE in SAVED starts a restore, elsewhere it sets
BADREQ; a block at a boundary leaves its core as an image, or sets NOSPACE; a drain past its deadline ends the context; an image that has
room takes its place again with its waves and its scratchpad bytes; after the last one the context runs. -/
def Obligations.PreemptionSteps : Prop := ∀ (x : BitVec 8) (c : Ctx) (s : State), s.ctx? x.toNat = some c →
  let n := x.toNat
  let only (t : State) (y : Ctx) : Prop := t.ctx? n = some y ∧ (∀ k, k ≠ n → t.ctx? k = s.ctx? k) ∧ t.mem = s.mem ∧ t.cores = s.cores
  let due := s.now + 1000 * max 1 c.deadline.toNat
  (c.pmst = 0 ∨ c.pmst = 3 → s.residents n ≠ [] → Ends (.pmctlReq x) s (fun t => only t { c with pmst := 1, drainBy := some due, drains := c.drains + 1 } ∧
    t.timers = s.timers ++ [⟨due, .preemptionDeadline (BitVec.ofNat 8 n)⟩])) ∧
  (c.pmst = 2 → Ends (.pmctlReq x) s (fun t => t = s)) ∧
  (c.pmst = 2 → Ends (.pmctlRestore x) s (fun t => only t { c with pmst := 3 } ∧ Instr.restorePlace (BitVec.ofNat 8 n) ∈ t.queue)) ∧
  (c.pmst ≠ 2 → Ends (.pmctlRestore x) s (fun t => only t { c with badreq := true })) ∧
  (∀ d, c.pmst = 1 → c.drainBy = some d → d ≤ s.now → Ends (.preemptionDeadline x) s (fun t => t.ctx? n = none)) ∧
  (∀ core bs b, tfind (s.core core).blocks bs = some b → bs < 16 → b.ctx = n → s.saveUnit core bs = [(core, bs)] → s.atBoundary core bs = true →
    c.pmst = 1 → c.savefault = none →
    let start := if c.used = 0 then 65536 else c.used
    let size := s.blockImage core bs
    (c.savelen.toNat < start + size → Ends (.blockSave x (core * 16 + bs)) s (fun t => only t { c with nospace := true })) ∧
    (∀ s1, start + size ≤ c.savelen.toNat → (∃ p ∈ s.residents n, p ≠ (core, bs)) →
      s.takeFree.2.devWrite (dispUnit (dieOf core)) n (c.save.toNat + start) (freeBytes s.free size) = (.ok (), s1) →
      Ends (.blockSave x (core * 16 + bs)) s (fun t => tfind (t.core core).blocks bs = none ∧ ∃ (c' : Ctx) (im : Image), t.ctx? n = some c' ∧
        (∃ l, c'.images = l ++ [im] ∧ l.length = c.images.length) ∧ c'.used = start + size ∧ c'.pmst = 1 ∧ im.launch = b.launch ∧ im.kid = b.kid ∧ im.off = start ∧
        im.core = core))) ∧
  (c.pmst = 3 → c.savefault = none → c.images = [] → Ends (.restorePlace x) s (fun t => ∃ c' : Ctx, t.ctx? n = some c' ∧ c'.pmst = 0 ∧ c'.used = 0 ∧
    c'.words = [])) ∧
  (∀ im pl run l s1 s2, c.pmst = 3 → c.savefault = none → s.restoreUnit c = [im] → s.run? im.launch = some run → run.lrec.groupLevel = none →
    s.planRestore n c [im] false = some [⟨im, pl, false, run.lrec.groupSize⟩] → s.switching (1 + dieOf pl.core) = false →
    s.rouseAll (64 + n) (dedup [clusterOf pl.core]) = (true, s1) →
    s1.devRead (dispUnit (dieOf pl.core)) n (c.save.toNat + im.off) (imageSize im.block.wpb run.lrec.lregq im.block.scrq) = (.ok l, s2) →
    im.waves.length ≤ (s.freeWslots pl.core).length → (∀ w ∈ c.words, w.1 ≠ im.home) →
    (∀ w ∈ im.waves, (w.frags.map (fun f => f.id)).Nodup) →
    let bs := s.freeBslot pl.core
    let slots := (s.freeWslots pl.core).take im.waves.length
    let parts := ((s.coreRes pl.core).partitions run.lrec).getD []
    Ends (.restorePlace x) s (fun t =>
      tfind (t.core pl.core).blocks bs = some { im.block with sbase := pl.base, row := none, entry := 0, waves := slots, parts := parts } ∧
      (∀ (i : Nat) (w : Wave), im.waves[i]? = some w → ∃ w' : Wave, t.wave? ⟨pl.core, slots.getD i 0⟩ = some w' ∧
        w' = { w with bslot := bs, part := parts.getD w.widx 0, frags := w'.frags } ∧ w'.frags.length = w.frags.length ∧
        ∀ (k : Nat) (f f' : Fragment), w.frags[k]? = some f → w'.frags[k]? = some f' →
          (f.sleep = none → f' = f) ∧
          (∀ sl, f.sleep = some sl → ∃ sl' : Sleep, f' = { f with sleep := some sl', refusals := f'.refusals } ∧
            (sl'.refused = false → sl' = { sl with
              lines := sl.lines.map (moveLine [⟨im, pl, false, run.lrec.groupSize⟩]), wokenAt := if sl.woken then some s.now else none }))) ∧
      t.mem = Memory.writes s.mem (im.bytes.map (fun b => (scrKey pl.core (pl.base * 4096 + b.1), b.2))) ∧
      ∃ c' : Ctx, t.ctx? n = some c' ∧ c'.images = c.images.filter (fun k => k.id != im.id) ∧ c'.pmst = 3))

/-- REGISTER_WRITE (R11, R12, R60, R61, R78, R94, R139, R185, R211, R220, R311, R317): a 32-bit write sets the writable fields of the register at its
offset and nothing else (the offsets of TBSTAT and TBCTL are the choice of log 15); a register that takes commands does what its
events do, in the order of their fields; read-only registers, offsets without one and offsets that are no multiple of 4 ignore it. -/
def Sys2Proof.Claims.RegisterWrites : Prop := ∀ (v : Word) (s : State),
  let at4 (base k : Nat) : BitVec 24 := BitVec.ofNat 24 (base + k)
  let sets (off : BitVec 24) (t : State) : Prop := Ends (.registerWrite off v) s (fun u => u = t)
  let seen (off : BitVec 24) (t : State) : Prop := Ends (.registerWrite off v) s (fun u => u = { t with queue := u.queue, timers := u.timers })
  let go (b : Bool) (i : Instr) (a c : State) : Prop := if b = true then exec i a = .next c else c = a
  (∀ off : BitVec 24, off.toNat % 4 ≠ 0 → sets off s) ∧
  (∀ p, p < 32 →
    let x := s.port p
    let pn : BitVec 5 := BitVec.ofNat 5 p
    (∃ a b c, exec (.opctlGrpmaskWrite pn ((v >>> 4).truncate 4)) s = .next a ∧ exec (.opctlTargetWrite pn (v.truncate 2)) a = .next b ∧
      go (v.getLsbD 2) (.calreq pn) b c ∧ ∃ d, go (v.getLsbD 3) (.clrcnt pn) c d ∧ sets (at4 0x400000 (0x100 * p)) d) ∧
    sets (at4 0x400004 (0x100 * p)) (s.setPort p { x with
      vermis := x.vermis && !v.getLsbD 8, laserlost := x.laserlost && !v.getLsbD 7, lockfail := x.lockfail && !v.getLsbD 6,
      lockloss := x.lockloss && !v.getLsbD 5, drainlost := x.drainlost && !v.getLsbD 4, berhigh := x.berhigh && !v.getLsbD 3,
      badreq := x.badreq && !v.getLsbD 2, caldone := x.caldone && !v.getLsbD 0 }) ∧
    sets (at4 0x400008 (0x100 * p)) (s.setPort p { x with berth := (v >>> 16).truncate 16, loopbk := v.getLsbD 0 }) ∧
    sets (at4 0x480004 (0x10 * p)) (s.setPort p { x with tcoef := (v >>> 16).truncate 16, tref := v.truncate 16 })) ∧
  (∀ e, e < 64 →
    let c := s.circuit e
    let off (o : Nat) : BitVec 24 := at4 0x500000 (0x80 * e + o)
    (c.st ≠ 0 → c.st ≠ 6 → ∀ o, o < 0x80 → sets (off o) s) ∧
    (c.st = 0 ∨ c.st = 6 →
      sets (off 0x00) (s.setCircuit e { c with retrymax := (v >>> 20).truncate 4, grpmask := (v >>> 16).truncate 4, slotted := v.getLsbD 15, port := v.truncate 5 }) ∧
      sets (off 0x04) (s.setCircuit e { c with peerdev := (v >>> 16).truncate 12, peerport := v.truncate 5 }) ∧
      sets (off 0x08) (s.setCircuit e { c with hopcnt := v.truncate 4 }) ∧
      sets (off 0x18) (s.setCircuit e { c with slotbase := (c.slotbase >>> 32).truncate 32 ++ v }) ∧
      sets (off 0x1C) (s.setCircuit e { c with slotbase := v ++ (c.slotbase.truncate 32 : Word) }) ∧
      sets (off 0x20) (s.setCircuit e { c with slotper := v }) ∧ sets (off 0x24) (s.setCircuit e { c with slotlen := v }) ∧
      sets (off 0x28) (s.setCircuit e { c with guard := v.truncate 16 }) ∧
      (∀ k, k < 8 → sets (off (0x40 + 4 * k)) (s.setCircuit e { c with route := c.route.set k v })))) ∧
  (v.getLsbD 31 = true → v.truncate 12 = (0 : BitVec 12) ∨ v.truncate 12 = (0xFFF : BitVec 12) → sets 0x530000 s) ∧
  (v.getLsbD 31 = false ∨ v.truncate 12 ≠ (0 : BitVec 12) ∧ v.truncate 12 ≠ (0xFFF : BitVec 12) → Ends (.registerWrite 0x530000 v) s (fun t =>
    t.fdidValid = v.getLsbD 31 ∧ t.fdid = v.truncate 12 ∧ t.mem = s.mem ∧ t.route = s.route ∧ t.circuits = s.circuits ∧ t.ports = s.ports ∧ t.cores = s.cores ∧
    t.epdrop = s.epdrop)) ∧
  (∀ k, k < 4096 → sets (at4 0x540000 (4 * k)) { s with route := tset s.route k (v.getLsbD 31, v.truncate 3) }) ∧
  sets 0x600004 { s with slotmiss := s.slotmiss && !v.getLsbD 30 } ∧
  seen 0x600008 { s with master := v.getLsbD 31, bper := v.truncate 20 } ∧
  (∀ k, k < 4 → sets (at4 0x620008 (0x10 * k)) (s.setGth k { s.gth k with wake := (s.gth k).wake ||| v })) ∧
  sets 0x680004 { s with mgmt := { s.mgmt with ucerr := false } } ∧
  (∀ i, i < 32 →
    let off (o : Nat) : BitVec 24 := at4 0x700000 (0x80000 * (i / 16) + 0x100 * (i % 16) + o)
    (∃ a b c, go (v.getLsbD 0) (.crctlPause (slotAt i)) s a ∧ go (v.getLsbD 1) (.crctlResume (slotAt i)) a b ∧
      go (v.getLsbD 2) (.crctlAbort (slotAt i)) b c ∧ sets (off 0) c) ∧
    (∀ k, k < 32 → ((s.cx i).st = 4 → sets (off (0x80 + 4 * k)) (s.setCx i { s.cx i with skip := tset (s.cx i).skip k v })) ∧
      ((s.cx i).st ≠ 4 → sets (off (0x80 + 4 * k)) s))) ∧
  (∀ q, q < 64 → sets (at4 0x900004 (0x10 * q)) (if v.toNat / 2 ^ 24 = 0 then s else s.setHq q { s.hq q with rejcnt := 0 }) ∧
    (∃ t, exec (.qwakeWrite (BitVec.ofNat 6 q) v) s = .next t ∧ sets (at4 0x900008 (0x10 * q)) t)) ∧
  (∀ d, d < 2 →
    (∃ t, exec (.comresWrite (BitVec.ofNat 1 d) v) s = .next t ∧ sets (at4 0x910000 (0x100 * d)) t) ∧
    seen (at4 0x910004 (0x100 * d)) (s.setDie d { s.die d with gateen := v.getLsbD 31, idlefc := v.truncate 20 }) ∧
    seen (at4 0xB90000 (4 * d)) (s.setDie d { s.die d with wden := v.getLsbD 31, wdt := v.truncate 20 })) ∧
  (∀ n, n < 16 →
    seen (at4 0xA00000 (0x100 * n)) (s.setCluster n { s.cluster n with relsp := (v >>> 24).truncate 8, relgrp := (v >>> 20).truncate 4, ramp := (v >>> 8).truncate 8, intv := v.truncate 8 }) ∧
    seen (at4 0xA0000C (0x100 * n)) (s.setCluster n { s.cluster n with calen := v.getLsbD 31, gband := (v >>> 16).truncate 5, calper := v.truncate 16 }) ∧
    (∀ i, i < 12 → sets (at4 0xA00040 (0x100 * n + 4 * i)) (s.setCore (n * 12 + i) { s.core (n * 12 + i) with drpth := v.truncate 8 }))) ∧
  (∀ x, x < 256 → (s.ctx? x = none → sets (at4 0xB80000 (0x10 * x)) s ∧ sets (at4 0xB80004 (0x10 * x)) s) ∧ ∀ c, s.ctx? x = some c →
    (v.getLsbD 0 = false → v.getLsbD 1 = false → c.pmst ≠ 1 → sets (at4 0xB80000 (0x10 * x)) (s.setCtx x { c with deadline := (v >>> 12).truncate 20 })) ∧
    (v.getLsbD 0 = true → v.getLsbD 1 = false → ∃ t, exec (.pmctlReq (BitVec.ofNat 8 x)) (s.setCtx x { c with deadline := (v >>> 12).truncate 20 }) = .next t ∧
      sets (at4 0xB80000 (0x10 * x)) t) ∧
    (v.getLsbD 0 = false → v.getLsbD 1 = true → c.pmst ≠ 1 → ∃ t, exec (.pmctlRestore (BitVec.ofNat 8 x)) (s.setCtx x { c with deadline := (v >>> 12).truncate 20 }) = .next t ∧
      sets (at4 0xB80000 (0x10 * x)) t) ∧
    sets (at4 0xB80004 (0x10 * x)) (s.setCtx x { c with nospace := c.nospace && !v.getLsbD 29, badreq := c.badreq && !v.getLsbD 28 })) ∧
  (∀ off ∈ ([0x530004, 0x600000, 0x910008, 0x91000C, 0xA00004, 0xA00008, 0xA00010, 0xA80000, 0xA90000, 0xB00000, 0x920000, 0x900000] : List (BitVec 24)), sets off s) ∧
  (∀ off : BitVec 24, off.toNat < 0x400000 → sets off s) ∧ (∀ off : BitVec 24, 0xC00000 ≤ off.toNat → sets off s)

/-! The machine: reset, steps, decoding, memory -/

/-- Right after reset, boot being complete (R25, R60, R66, R90, R147, R150, R170): no wave is resident, every gaffer thread is IDLE and every
program slot FREE, every port is DARK and every circuit FREE, the FDID is not valid, command stream 0 is open and no other, window 0
is the only window, with the model's opaque key, and gives read and write access to the gaffer's 256 KiB. That the state shows the end of
the boot is log 78, that the time base is then at 0 is log 4, and that memory lists nothing, so that each byte reads as 0, is log 2:
all three are the model's choices. -/
def Obligations.ResetState : Prop :=
  let s := State.reset
  (∀ r, s.wave? r = none) ∧ (∀ t, (s.gth t).st = 0) ∧ (∀ k, (s.cx k).st = 0) ∧ (∀ p, (s.port p).st = 0) ∧
  (∀ e, (s.circuit e).st = 0) ∧ s.fdidValid = false ∧ (∀ n, (s.stream n).open_ = decide (n = 0)) ∧
  (∀ n, s.win n = if n = 0 then some { key := Config.window0Key, ctx := none, va := 0, len := 262144, access := 3 } else none) ∧
  s.now = 0 ∧ Memory.wf s.mem = true ∧ ∀ k, Memory.read s.mem k = 0

/-- A step runs the instruction that the words at hand decode to (R85, R90, R126, R237, R238, R348): the next turn of the agenda is taken
off; a gaffer thread in RUN fetches the four bytes at its program counter, a free fragment the four bytes that its program
counter resolves to (R260: from its context's fetch caches, else as they stood when its launch record was read), its running clause holds its next instruction (long loads under way may return before it issues, R417, log 23), and a running program slot its next step; `exec` of the
instruction read gives the outcome, and `finish` closes the turn. A word that is no instruction is ILLEGAL for the agent. With
an empty agenda the oldest event comes next. -/
def Obligations.StepRunsDecoded : Prop := ∀ (s : State) (l : List Turn),
  let s0 : State := { s with agenda := l }
  let closed (v : State) (u : Turn) (o : Out) : Out := match o with
    | .next t => .next (v.finish t u)
    | .fault e => .fault e
    | .refused e => .refused e
  (∀ n, n < 4 → (s.gth n).st = 1 → (s.gth n).pc.toNat % 4 = 0 → (s.gth n).pc.toNat < 0x40000 → s.agenda = .agent (.gaffer n) :: l →
    let x := leNat (s.bytesAt (gafKey (s.gth n).pc.toNat) 4)
    let t : State := { s0 with cur := .gaffer n }
    (∀ i, decodeGaffer x = some i → step s = closed s0 (.agent (.gaffer n)) (exec i t)) ∧
    (decodeGaffer x = none → step s = .next (s0.finish (t.gFault n 1 0) (.agent (.gaffer n))))) ∧
  (∀ (r : WaveRef) (w : Wave) (f : Fragment), s.agenda = .agent (.scalar r.core r.slot f.id) :: l → s.wave? r = some w →
    w.frag? f.id = some f → s.fragFree r w f false = true → w.scalarFree f = true → f.joins.head?.all (fun j => j.addr != f.pc) = true →
    ∀ ks, (({ s0 with cur := .scalar r.core r.slot f.id } : State).resolve (w.place r) (unitOf r.core) w.ctx 2 f.pc.toNat 4 needX).1 = .ok ks →
    let t := (({ s0 with cur := .scalar r.core r.slot f.id } : State).resolve (w.place r) (unitOf r.core) w.ctx 2 f.pc.toNat 4 needX).2
    let code := t.fetchCode w.ctx (t.codeSeen w) ks
    let t' := if w.handler && w.phase == 0 then code.2.updWave r (fun (w : Wave) => { w with phase := 1 }) else code.2
    (∀ i, decodeScalar (leNat code.1) = some i → step s = closed s0 (.agent (.scalar r.core r.slot f.id)) (exec i t')) ∧
    (s.written = [] → (∀ c, s.ctx? w.ctx = some c → c.code = []) → code.1 = ks.map (Memory.read s.mem)) ∧
    (decodeScalar (leNat code.1) = none →
      step s = .next (s0.finish (t'.scalarTrap r f.id 6 0) (.agent (.scalar r.core r.slot f.id))))) ∧
  (∀ (r : WaveRef) (w : Wave) (f : Fragment) (x : Running) (i : Instr), s.agenda = .agent (.lane r.core r.slot f.id) :: l →
    s.wave? r = some w → w.frag? f.id = some f → s.fragFree r w f true = true → s.laneClock r.core = true → f.run = some x →
    x.code[x.idx]? = some i →
    step s = closed s0 (.agent (.lane r.core r.slot f.id)) (exec i (({ s0 with cur := .lane r.core r.slot f.id } : State).someReturn r))) ∧
  (∀ (c k : Nat) (i : Instr), s.agenda = .agent (.crux c k) :: l → (s.cx (c * 16 + k)).runs = true →
    (s.cx (c * 16 + k)).prog[(s.cx (c * 16 + k)).step]? = some i →
    step s = closed s0 (.agent (.crux c k)) (exec i { s0 with cur := .crux c k })) ∧
  (∀ i : Instr, s.agenda = .event i :: l → step s = closed s0 (.event i) (exec i { s0 with cur := .none })) ∧
  (∀ (i : Instr) (q : List Instr), s.agenda = [] → s.queue = i :: q →
    step s = closed { s with queue := q } (.event i) (exec i { s with queue := q, cur := .none }))

/-- Words written out from the encodings of R100, R127, R344 to R349 and R350 to R362 decode to the instruction they stand for. -/
def Obligations.SampleWords : Prop :=
  decodeGaffer 0x0CC48000 = some (.cadd 3 1 2) ∧ decodeGaffer 0x4D07FFF8 = some (.cld 4 1 1 0x1FFF8) ∧
  decodeGaffer 0x0CC48001 = none ∧ decodeScalar 0 = some .snop ∧ decodeScalar 0x02188480 = some (.ssub 3 4 9) ∧
  decodeScalar 0x303BFFFF = some (.saddImm 7 31 0x1FFF) ∧ decodeScalar 0x6C000000 = some .syield ∧ decodeScalar 0x02188481 = none ∧
  decodeStep 0x04040A0300000010 = some (.send ⟨false, false, false, 1, 10, 3, 16⟩) ∧ decodeStep 0x0420000000000000 = none ∧
  decodeLane 0xF0010100C00000000 = some (.vadd ⟨false, 0, false, 0, 0, false, 0, 15, 0⟩ ⟨1, 2, 3, 0, 0, 0⟩) ∧
  decodeLane 0xF0010100C02000000 = none ∧ decodeHeader 0xFFC40053C000000000000000 = some ⟨1, 1, 4, 15⟩ ∧
  decodeHeader 0xFFC40053C000000000000001 = none

/-- Decoding gives back every encoded instruction (R100, R127, R344, R350): the words of a well-formed instruction of any stream, with
every operand at every value that the encoding admits, are read by that instruction's stream as the instruction; the same for a
clause header. -/
def Obligations.DecodeOfEncode : Prop :=
  (∀ (i : Instr) (w : Nat), i.wf = true → encode i = some w → ∃ st : Stream, st.decode w = some i) ∧
  (∀ h : ClauseHeader, (h.seta.toNat ≤ 11 ∨ h.seta = 15) → (h.setb.toNat ≤ 11 ∨ h.setb = 15) → decodeHeader (encodeHeader h) = some h)

/-- Every word that a stream reads as an instruction is the encoding of that instruction, which is well-formed: no bit is ignored, and
no two words stand for one instruction (R101, R127, R348, R358); the same for a clause header. -/
def Obligations.EncodeOfDecode : Prop :=
  (∀ (w : Nat) (i : Instr), w < 2 ^ 32 → decodeGaffer w = some i → i.wf = true ∧ encode i = some w) ∧
  (∀ (w : Nat) (i : Instr), w < 2 ^ 32 → decodeScalar w = some i → i.wf = true ∧ encode i = some w) ∧
  (∀ (w : Nat) (i : Instr), w < 2 ^ 64 → decodeStep w = some i → i.wf = true ∧ encode i = some w) ∧
  (∀ (w : Nat) (i : Instr), w < 2 ^ 96 → decodeLane w = some i → i.wf = true ∧ encode i = some w) ∧
  (∀ (w : Nat) (h : ClauseHeader), w < 2 ^ 96 → decodeHeader w = some h → encodeHeader h = w)

/-- Memory keeps its canonical form under every operation that changes it, and a byte reads as what was last written to it. -/
def Obligations.MemoryOperations : Prop :=
  (∀ (m : List Host.Cell) (k : Nat) (b : Byte), Memory.wf m = true →
    Memory.wf (Memory.write m k b) = true ∧ ∀ j, Memory.read (Memory.write m k b) j = if j = k then b else Memory.read m j) ∧
  (∀ m n : List Host.Cell, Memory.wf m = true → Memory.wf n = true → (∀ k, Memory.read m k = Memory.read n k) → m = n) ∧
  (∀ (s : State) (l : List (Nat × Byte)), Memory.wf s.mem = true →
    Memory.wf (s.store l).mem = true ∧ Memory.wf (s.scrub l).mem = true ∧ (s.store l).mem = (s.scrub l).mem ∧
    ∀ j, Memory.read (s.store l).mem j = match l.reverse.find? (fun p => p.1 == j) with
      | some p => p.2
      | none => Memory.read s.mem j)

/-- Every step keeps the canonical form of memory (R265, R266, R269): whichever agent, event or passage of time is next, a state
whose memory lists rising addresses and no byte that equals what an unlisted address reads as is followed by one of the same
form. The form is the model's own (log 2); that State.reset has it is a clause of ResetState. -/
def Obligations.StepKeepsMemory : Prop := ∀ s t : State, Memory.wf s.mem = true → step s = .next t → Memory.wf t.mem = true

/-! Rules stated word for word -/

/-- R219: the declared intensity of a core is the sum of the INT of its waves' admitted declarations, capped at 16. -/
def Obligations.DeclaredIntensity : Prop := ∀ (s : State) (core : Nat),
  let admitted := ((s.core core).waves.filterMap (fun p => p.2.decl)).filter (fun d => d.admitted.isSome)
  s.declared core = if 16 < (admitted.map (fun d => d.int)).sum then 16 else (admitted.map (fun d => d.int)).sum

/-- R381: the shifts and the rotate of the scalar stream, in both forms, as multiplication and
division by powers of two. -/
def Obligations.ScalarShifts : Prop := ∀ (d a b : BitVec 6) (n : BitVec 5),
  let shl (x : Word) (k : Nat) : Word := if 32 ≤ k then 0 else BitVec.ofNat 32 (x.toNat * 2 ^ k)
  let shr (x : Word) (k : Nat) : Word := if 32 ≤ k then 0 else BitVec.ofNat 32 (x.toNat / 2 ^ k)
  let sra (x : Word) (k : Nat) : Word := if 32 ≤ k then (if x.toInt < 0 then 0xFFFFFFFF else 0) else BitVec.ofInt 32 (x.toInt / 2 ^ k)
  let rol (x : Word) (k : Nat) : Word := BitVec.ofNat 32 (x.toNat * 2 ^ (k % 32) + x.toNat / 2 ^ (32 - k % 32))
  let reg (i : Instr) (v : Word → Nat → Word) : Prop :=
    Yields i [d.toNat, a.toNat, b.toNat] (fun _ w f => [(d.toNat, v (w.rd f a.toNat) (w.rd f b.toNat).toNat)])
  let imm (i : Instr) (v : Word → Nat → Word) : Prop :=
    Yields i [d.toNat, a.toNat] (fun _ w f => [(d.toNat, v (w.rd f a.toNat) n.toNat)])
  reg (.sshl d a b) shl ∧ reg (.sshr d a b) shr ∧ reg (.ssra d a b) sra ∧
  reg (.srol d a b) rol ∧ imm (.sshlImm d a n) shl ∧ imm (.sshrImm d a n) shr ∧
  imm (.ssraImm d a n) sra ∧ imm (.srolImm d a n) rol

/-- R436: VFCLASS writes a mask with one bit for the class of the operand, read off its sign, exponent and fraction fields, in each
active lane, and raises no flag. -/
def Obligations.FloatClasses : Prop := ∀ (c : LaneCtl) (r : LR),
  let cls (x : Word) : Nat :=
    let e := (x.extractLsb' 23 8).toNat
    let m := (x.extractLsb' 0 23).toNat
    if e = 255 then (if m = 0 then (if x.msb then 0 else 7) else if m < 2 ^ 22 then 8 else 9)
    else if e = 0 then (if m = 0 then (if x.msb then 3 else 4) else if x.msb then 2 else 5)
    else if x.msb then 1 else 6
  Lanes (.vfclass c r) c r.d 1 0 (fun v j => ([BitVec.ofNat 32 (2 ^ cls (v.op r.a j))], 0))

/-! The statements that have several parts -/

/-- Scalar arithmetic, logic, shift, compare and select instructions: result, completion and frame: `ScalarRegisterForms`,
`ScalarImmediateForms`. -/
def Obligations.ScalarArithmetic : Prop := Claims.ScalarRegisterForms ∧ Claims.ScalarImmediateForms

/-- SPLIT, SEXIT and PHEND: how fragments divide, exit and park: `ScalarSplit`, `ScalarExitAndPhaseEnd`. -/
def Obligations.ScalarPaths : Prop := Claims.ScalarSplit ∧ Claims.ScalarExitAndPhaseEnd

/-- LRUN, LRUNX and CLAUSE_START: clauses enter the lane queue and start: `ScalarClauses`, `ClauseStarts`. -/
def Obligations.Clauses : Prop := Claims.ScalarClauses ∧ Claims.ClauseStarts

/-- SGETX, SWAITF and SWAITC wait for their condition and then go on: `ScalarWaits`, `WaitsStandStill`. -/
def Obligations.ScalarWaitInstructions : Prop := Claims.ScalarWaits ∧ Claims.WaitsStandStill

/-- SCALAR_ACCESS_RETURN: what a scalar access does to registers and memory when it returns: `ScalarCoreReturns`,
`ScalarDeviceReturns`. -/
def Obligations.ScalarAccessReturns : Prop := Claims.ScalarCoreReturns ∧ Claims.ScalarDeviceReturns

/-- TXB, TXC, TXR, TXALT, TXA and the abort of a transaction: `ScalarTransactions`, `AbortOfATransaction`. -/
def Obligations.Transactions : Prop := Claims.ScalarTransactions ∧ Claims.AbortOfATransaction

/-- BARA, BARW and FENCE: arrivals, generations, waits and ordering: `ScalarBarriersAndFences`, `ScalarBarrierWait`. -/
def Obligations.BarriersAndFences : Prop := Claims.ScalarBarriersAndFences ∧ Claims.ScalarBarrierWait

/-- LAUNCH and SIGQ: the pushed pointer, the target signalled: `LaunchPushes`, `SoftInterrupts`. -/
def Obligations.LaunchesAndSignals : Prop := Claims.LaunchPushes ∧ Claims.SoftInterrupts

/-- TRAP, BRK and a zero divisor take a user trap at the scalar site: `ScalarTrapEntry`, `DivisionByZeroTraps`. -/
def Obligations.ScalarTraps : Prop := Claims.ScalarTrapEntry ∧ Claims.DivisionByZeroTraps

/-- TIME, CYC, BURST, BURSTX and PERFL: `ScalarTime`, `ScalarPower`. -/
def Obligations.TimeAndPowerRequests : Prop := Claims.ScalarTime ∧ Claims.ScalarPower

/-- SRSR and SWSR read and write every special register by its code: `SpecialRegisterReads`, `SpecialRegisterWrites`. -/
def Obligations.SpecialRegisters : Prop := Claims.SpecialRegisterReads ∧ Claims.SpecialRegisterWrites

/-- Lane bit operations, moves, packed and dot instructions: `LaneBitOperations`, `LanePackedAndDot`. -/
def Obligations.LaneBitsAndPacked : Prop := Claims.LaneBitOperations ∧ Claims.LanePackedAndDot

/-- Lane comparisons into guards, guard functions and floating-point results: `LaneGuardWrites`, `LaneFloatResults`. -/
def Obligations.LaneFloat : Prop := Claims.LaneGuardWrites ∧ Claims.LaneFloatResults

/-- VFDIV, VFSQRT, special functions and VPUT: issue and result: `LongLatencyIssues`, `LongLatencyResults`. -/
def Obligations.LongLatency : Prop := Claims.LongLatencyIssues ∧ Claims.LongLatencyResults

/-- LONG_LATENCY_RESULT of a lane access: registers, memory bytes, flag: `LaneCoreReturns`, `LaneDeviceReturns`. -/
def Obligations.LaneAccessReturns : Prop := Claims.LaneCoreReturns ∧ Claims.LaneDeviceReturns

/-- Taking a lane trap, returning from a trap, VORGLD, VORGST and VRESUME: `LaneTrapAndReturn`, `TrapSupport`. -/
def Obligations.LaneTraps : Prop := Claims.LaneTrapAndReturn ∧ Claims.TrapSupport

/-- MMA, MMASP, TSWEEP, TCVT, TRED and TSCAN at issue; OCTET_OPERATION, MATRIX_COMPLETE and SWEEP_COMPLETE: `MatrixAndSweepIssues`,
`MatrixOperations`, `SweepCompletes`. -/
def Obligations.MatrixAndSweeps : Prop := Claims.MatrixAndSweepIssues ∧ Claims.MatrixOperations ∧ Claims.SweepCompletes

/-- Gaffer arithmetic, time, fabric queries, branches, calls and CHALT: `GafferArithmetic`, `GafferControl`. -/
def Obligations.GafferRegisters : Prop := Claims.GafferArithmetic ∧ Claims.GafferControl

/-- Circuit instructions, waits and deadlines of gaffer threads: `GafferCircuits`, `GafferWaits`. -/
def Obligations.GafferCircuitsAndWaits : Prop := Claims.GafferCircuits ∧ Claims.GafferWaits

/-- The steps of collective programs: `CollectiveDataSteps`, `CollectiveControlSteps`. -/
def Obligations.CollectiveSteps : Prop := Claims.CollectiveDataSteps ∧ Claims.CollectiveControlSteps

/-- Levels, droop alarms, bursts, throttles, the power cap and calibration: `LevelChanges`, `BurstsAndThrottles`,
`PowerCapAndCalibration`. -/
def Obligations.PowerEvents : Prop := Claims.LevelChanges ∧ Claims.BurstsAndThrottles ∧ Claims.PowerCapAndCalibration

/-- Input supply, sensors, lifetime records and soft errors: `InputAndSensors`, `LifetimeAndSoftErrors`. -/
def Obligations.ModuleRecords : Prop := Claims.InputAndSensors ∧ Claims.LifetimeAndSoftErrors

/-- The way of an optical port up, down and into failure: `PortTransitions`, `PortFailures`. -/
def Obligations.PortStateMachine : Prop := Claims.PortTransitions ∧ Claims.PortFailures

/-- Copies, gathers, messages and their retirement: `CopiesAndGathers`, `Messages`. -/
def Obligations.EnginesAndMessages : Prop := Claims.CopiesAndGathers ∧ Claims.Messages

/-- Circuit requests, answers, back-off, teardown and slots: `CircuitRequests`, `CircuitSlots`. -/
def Obligations.CircuitsAndSlots : Prop := Claims.CircuitRequests ∧ Claims.CircuitSlots

/-- Packets through the switch, beacons, echoes and fabric time: `PacketPlane`, `FabricTime`. -/
def Obligations.PacketsAndTime : Prop := Claims.PacketPlane ∧ Claims.FabricTime

/-- Host commands on contexts, translations, faults and counters: `ContextCommands`, `ResolveOutcomes`. -/
def Obligations.CommandsOfContexts : Prop := Claims.ContextCommands ∧ Claims.ResolveOutcomes

/-- Placement of blocks, cluster groups and gangs, carve-outs and phases: `BlockPlacement`, `GroupsAndGangs`, `CarveOutsAndPhases`. -/
def Obligations.PlacementAndPhases : Prop := Claims.BlockPlacement ∧ Claims.GroupsAndGangs ∧ Claims.CarveOutsAndPhases

/-- REGISTER_WRITE, wake registers, the communication reserve and power gating: `RegisterWrites`, `ReserveAndGating`. -/
def Obligations.RegistersAndGating : Prop := Claims.RegisterWrites ∧ Claims.ReserveAndGating

/-- Wakes, drains, the watchdog and handler launches: `WakesAndWatchdog`, `HandlerLaunches`. -/
def Obligations.WakesAndHandlers : Prop := Claims.WakesAndWatchdog ∧ Claims.HandlerLaunches
end

