-- ==== Sys2Proof/Laws/Tbl.lean ====
section
/-! SUPPORT. Laws of the sparse tables and of memory: a read after a write, writes that commute with reads elsewhere, and the
canonical form that every memory operation keeps. -/

namespace Sys2Proof.Machine

/-! Tables -/

@[simp] theorem tfind_tset_same {α : Type} (t : Tbl α) (k : Nat) (v : α) : tfind (tset t k v) k = some v := by
  induction t with
  | nil => simp [tset, tfind]
  | cons p t ih =>
    obtain ⟨i, x⟩ := p
    simp only [tset]
    split
    · simp [tfind]
    · split
      · simp [tfind]
      · simp [tfind, *]

theorem tfind_tset_ne {α : Type} (t : Tbl α) {j k : Nat} (v : α) (h : j ≠ k) : tfind (tset t k v) j = tfind t j := by
  induction t with
  | nil => simp [tset, tfind, h.symm]
  | cons p t ih =>
    obtain ⟨i, x⟩ := p
    simp only [tset]
    split
    · simp [tfind, h.symm]
    · split
      · next hi => subst hi; simp [tfind, h.symm]
      · simp only [tfind, ih]

theorem tfind_tset {α : Type} (t : Tbl α) (j k : Nat) (v : α) : tfind (tset t k v) j = if j = k then some v else tfind t j := by
  split
  · next h => subst h; simp
  · next h => exact tfind_tset_ne t v h

@[simp] theorem tget_tset_same {α : Type} (d : α) (t : Tbl α) (k : Nat) (v : α) : tget d (tset t k v) k = v := by
  simp [tget]

theorem tget_tset_ne {α : Type} (d : α) (t : Tbl α) {j k : Nat} (v : α) (h : j ≠ k) : tget d (tset t k v) j = tget d t j := by
  simp [tget, tfind_tset_ne t v h]

theorem tget_tset {α : Type} (d : α) (t : Tbl α) (j k : Nat) (v : α) :
    tget d (tset t k v) j = if j = k then v else tget d t j := by
  simp only [tget, tfind_tset]
  split <;> rfl

@[simp] theorem tset_tset {α : Type} (t : Tbl α) (k : Nat) (v x : α) : tset (tset t k v) k x = tset t k x := by
  induction t with
  | nil => simp [tset]
  | cons p t ih =>
    obtain ⟨i, y⟩ := p
    by_cases h : k < i
    · simp [tset, h]
    · by_cases h' : i = k
      · subst h'; simp [tset]
      · simp [tset, h, h', ih]

/-- A deleted index is no longer listed, and no other is touched. -/
theorem tfind_tdel {α : Type} (t : Tbl α) (j k : Nat) : tfind (tdel t k) j = if j = k then none else tfind t j := by
  induction t with
  | nil => simp [tdel, tfind]
  | cons p t ih =>
    obtain ⟨i, x⟩ := p
    simp only [tdel] at ih
    by_cases h : i = k
    · subst h
      simp only [tdel, List.filter_cons, tfind]
      simp only [bne_self_eq_false, Bool.false_eq_true, if_false, ih]
      by_cases hj : j = i
      · simp [hj]
      · simp [hj, Ne.symm hj]
    · simp only [tdel, List.filter_cons, bne_iff_ne, ne_eq, h, not_false_eq_true, if_true, tfind, ih]
      by_cases hi : i = j
      · subst hi; simp [h]
      · simp [hi]

/-! Memory -/

/-- The canonical form from a key holds from every smaller one. -/
theorem Memory.wfFrom_mono {a b : Nat} (m : List Host.Cell) (h : Memory.wfFrom b m = true) (hab : a ≤ b) :
    Memory.wfFrom a m = true := by
  cases m with
  | nil => rfl
  | cons p m =>
    obtain ⟨i, x⟩ := p
    simp only [Memory.wfFrom, Bool.and_eq_true, decide_eq_true_eq] at h ⊢
    exact ⟨⟨by omega, h.1.2⟩, h.2⟩

/-- A write keeps the canonical form (R269). -/
theorem Memory.wfFrom_write {lo k : Nat} (b : Byte) (hk : lo ≤ k) (m : List Host.Cell) (h : Memory.wfFrom lo m = true) :
    Memory.wfFrom lo (Memory.write m k b) = true := by
  induction m generalizing lo with
  | nil =>
    simp only [Memory.write]
    split
    · rfl
    · simp [Memory.wfFrom, *]
  | cons p m ih =>
    obtain ⟨i, x⟩ := p
    simp only [Memory.wfFrom, Bool.and_eq_true, decide_eq_true_eq] at h
    obtain ⟨⟨h1, h2⟩, h3⟩ := h
    simp only [Memory.write]
    split
    · split
      · simp [Memory.wfFrom, *]
      · next hki hb =>
        have := Memory.wfFrom_mono m h3 (Nat.le_refl _)
        simp only [Memory.wfFrom, Bool.and_eq_true, decide_eq_true_eq]
        exact ⟨⟨hk, by simpa using hb⟩, ⟨by omega, h2⟩, h3⟩
    · split
      · next hik =>
        split
        · exact Memory.wfFrom_mono m h3 (by omega)
        · subst hik; simp [Memory.wfFrom, *]
      · next h4 h5 =>
        simp only [Memory.wfFrom, Bool.and_eq_true, decide_eq_true_eq]
        exact ⟨⟨h1, h2⟩, ih (by omega) h3⟩

/-- A write keeps the canonical form (R269). -/
theorem Memory.wf_write (m : List Host.Cell) (k : Nat) (b : Byte) (h : Memory.wf m = true) :
    Memory.wf (Memory.write m k b) = true :=
  Memory.wfFrom_write b (Nat.zero_le k) m h

/-- Several writes keep the canonical form. -/
theorem Memory.wf_writes (l : List (Nat × Byte)) (m : List Host.Cell) (h : Memory.wf m = true) :
    Memory.wf (Memory.writes m l) = true := by
  induction l generalizing m with
  | nil => exact h
  | cons p l ih => exact ih _ (Memory.wf_write m p.1 p.2 h)

/-- Below its first key a memory in canonical form reads empty. -/
theorem Memory.read_below {lo k : Nat} (m : List Host.Cell) (h : Memory.wfFrom lo m = true) (hk : k < lo) :
    Memory.read m k = Memory.empty := by
  cases m with
  | nil => rfl
  | cons p m =>
    obtain ⟨i, x⟩ := p
    simp only [Memory.wfFrom, Bool.and_eq_true, decide_eq_true_eq] at h
    have h1 : i ≠ k := by omega
    have h2 : k < i := by omega
    simp [Memory.read, h1, h2]

/-- A read after a write to the same key gives the value written. -/
theorem Memory.read_write_same {lo : Nat} (m : List Host.Cell) (k : Nat) (b : Byte) (h : Memory.wfFrom lo m = true) :
    Memory.read (Memory.write m k b) k = b := by
  induction m generalizing lo with
  | nil =>
    simp only [Memory.write]
    split
    · next hb => simp [Memory.read, hb]
    · simp [Memory.read]
  | cons p m ih =>
    obtain ⟨i, x⟩ := p
    simp only [Memory.wfFrom, Bool.and_eq_true, decide_eq_true_eq] at h
    simp only [Memory.write]
    split
    · next hki =>
      split
      · next hb =>
        have h1 : i ≠ k := by omega
        simp [Memory.read, h1, hki, hb]
      · simp [Memory.read]
    · split
      · next hik =>
        split
        · next hb => rw [Memory.read_below m h.2 (by omega), hb]
        · simp [Memory.read]
      · next h4 h5 => simp [Memory.read, h4, h5, ih h.2]

/-- A write leaves every other key alone. -/
theorem Memory.read_write_ne {lo j k : Nat} (m : List Host.Cell) (b : Byte) (h : Memory.wfFrom lo m = true) (hj : j ≠ k) :
    Memory.read (Memory.write m k b) j = Memory.read m j := by
  induction m generalizing lo with
  | nil =>
    simp only [Memory.write]
    split
    · rfl
    · simp [Memory.read, hj.symm]
  | cons p m ih =>
    obtain ⟨i, x⟩ := p
    simp only [Memory.wfFrom, Bool.and_eq_true, decide_eq_true_eq] at h
    simp only [Memory.write]
    split
    · next hki =>
      split
      · rfl
      · have : k ≠ j := hj.symm
        simp only [Memory.read, this, if_false]
        split
        · next hjk =>
          have h1 : i ≠ j := by omega
          have h2 : j < i := by omega
          simp [h1, h2]
        · rfl
    · split
      · next hik =>
        subst hik
        split
        · simp only [Memory.read, hj.symm, if_false]
          split
          · next hlt => exact Memory.read_below m h.2 (by omega)
          · rfl
        · simp only [Memory.read, hj.symm, if_false]
      · simp only [Memory.read, ih h.2]

/-- Writes leave alone every key that they do not name. -/
theorem Memory.read_writes_ne (l : List (Nat × Byte)) {j : Nat} (m : List Host.Cell) (h : Memory.wf m = true)
    (hj : ∀ p ∈ l, p.1 ≠ j) : Memory.read (Memory.writes m l) j = Memory.read m j := by
  induction l generalizing m with
  | nil => rfl
  | cons p l ih =>
    have h1 := ih (Memory.write m p.1 p.2) (Memory.wf_write m p.1 p.2 h) (fun q hq => hj q (List.mem_cons_of_mem _ hq))
    have h2 := Memory.read_write_ne m p.2 h (hj p (List.mem_cons_self ..)).symm
    simpa [Memory.writes] using h1.trans h2

end Sys2Proof.Machine
end

