-- ==== Sys2Proof/Laws/KeepBase.lean ====
section
/-! SUPPORT. What keeps the canonical form of memory: the shared operations over state, memory, packets, ports, faults and accesses. One lemma per definition that answers a state. -/

namespace Sys2Proof.Machine

/-- The memory of a state has its canonical form. -/
structure State.MemOk (s : State) : Prop where
  wf : Memory.wf s.mem = true
/-- A next state, if there is one, has its memory in canonical form. -/
structure Outcome.MemOk (o : Host.Outcome State Fault Refusal) : Prop where
  next : ∀ t, o = .next t → t.MemOk
/-- The state beside a result. -/
structure PairOk {α : Type} (p : α × State) : Prop where
  snd : p.2.MemOk
/-- The state of an option. -/
structure OptOk (o : Option State) : Prop where
  get : ∀ t, o = some t → t.MemOk

theorem memOk_mem {s t : State} (h : s.MemOk) (e : t.mem = s.mem) : t.MemOk := ⟨e ▸ h.wf⟩
theorem memOk_have {p q : Prop} (a : p) (b : p → q) : q := b a

theorem memOk_ite {c : Prop} [Decidable c] {a b : State} (ha : a.MemOk) (hb : b.MemOk) : State.MemOk (if c then a else b) := by split <;> assumption
theorem outOk_ite {c : Prop} [Decidable c] {a b : Host.Outcome State Fault Refusal} (ha : Outcome.MemOk a) (hb : Outcome.MemOk b) :
    Outcome.MemOk (if c then a else b) := by split <;> assumption
theorem pairOk_ite {α : Type} {c : Prop} [Decidable c] {a b : α × State} (ha : PairOk a) (hb : PairOk b) : PairOk (if c then a else b) := by
  split <;> assumption
theorem optOk_ite {c : Prop} [Decidable c] {a b : Option State} (ha : OptOk a) (hb : OptOk b) : OptOk (if c then a else b) := by
  split <;> assumption
theorem memOk_let {e : State} {b : State → State} (he : e.MemOk) (hb : ∀ s, s.MemOk → (b s).MemOk) : State.MemOk (let s := e; b s) := hb e he
theorem outOk_let {e : State} {b : State → Host.Outcome State Fault Refusal} (he : e.MemOk) (hb : ∀ s, s.MemOk → Outcome.MemOk (b s)) : Outcome.MemOk (let s := e; b s) := hb e he
theorem pairOk_let {α : Type} {e : State} {b : State → α × State} (he : e.MemOk) (hb : ∀ s, s.MemOk → PairOk (b s)) : PairOk (let s := e; b s) := hb e he
theorem optOk_let {e : State} {b : State → Option State} (he : e.MemOk) (hb : ∀ s, s.MemOk → OptOk (b s)) : OptOk (let s := e; b s) := hb e he
theorem memOk_lete {α : Type} {e : α} {b : α → State} (hb : ∀ s, (b s).MemOk) : State.MemOk (let s := e; b s) := hb e
theorem outOk_lete {α : Type} {e : α} {b : α → Host.Outcome State Fault Refusal} (hb : ∀ s, Outcome.MemOk (b s)) : Outcome.MemOk (let s := e; b s) := hb e
theorem pairOk_lete {α β : Type} {e : β} {b : β → α × State} (hb : ∀ s, PairOk (b s)) : PairOk (let s := e; b s) := hb e
theorem optOk_lete {α : Type} {e : α} {b : α → Option State} (hb : ∀ s, OptOk (b s)) : OptOk (let s := e; b s) := hb e
theorem outOk_next {s : State} (h : s.MemOk) : Outcome.MemOk (.next s) := ⟨fun _ e => by cases e; exact h⟩
theorem outOk_fault {f : Fault} : Outcome.MemOk (.fault f) := ⟨fun _ e => by cases e⟩
theorem outOk_refused {f : Refusal} : Outcome.MemOk (.refused f) := ⟨fun _ e => by cases e⟩
theorem pairOk_mk {α : Type} {a : α} {s : State} (h : s.MemOk) : PairOk (a, s) := ⟨h⟩
theorem pairOk_fst {α : Type} {p : α × State} (h : PairOk p) : p.2.MemOk := h.snd
theorem optOk_some {s : State} (h : s.MemOk) : OptOk (some s) := ⟨fun _ e => by cases e; exact h⟩
theorem optOk_none : OptOk none := ⟨fun _ e => by cases e⟩
theorem pairOk_eq {α : Type} {p : α × State} {a : α} {s : State} (h : p = (a, s)) (hp : PairOk p) : s.MemOk := by subst h; exact hp.snd
theorem optOk_eq {p : Option State} {s : State} (h : p = some s) (hp : OptOk p) : s.MemOk := hp.get s h
theorem outOk_eq {p : Host.Outcome State Fault Refusal} {s : State} (h : p = .next s) (hp : Outcome.MemOk p) : s.MemOk := hp.next s h
theorem optOk_getD {o : Option State} {s : State} (ho : OptOk o) (h : s.MemOk) : State.MemOk (o.getD s) := by
  cases o with
  | none => exact h
  | some t => exact ho.get t rfl
theorem optOk_foldl {α : Type} {f : Option State → α → Option State} (hf : ∀ o a, OptOk o → OptOk (f o a)) :
    ∀ (l : List α) (o : Option State), OptOk o → OptOk (l.foldl f o)
  | [], _, h => h
  | a :: l, o, h => optOk_foldl hf l (f o a) (hf o a h)
theorem optOk_bind {o : Option State} {f : State → Option State} (ho : OptOk o) (hf : ∀ s, s.MemOk → OptOk (f s)) : OptOk (o.bind f) := by
  cases o with
  | none => exact optOk_none
  | some t => exact hf t (ho.get t rfl)
theorem memOk_foldl {α : Type} {f : State → α → State} (hf : ∀ s a, s.MemOk → (f s a).MemOk) : ∀ (l : List α) (s : State), s.MemOk → State.MemOk (l.foldl f s)
  | [], _, h => h
  | a :: l, s, h => memOk_foldl hf l (f s a) (hf s a h)
theorem pairOk_foldl {α β : Type} {f : β × State → α → β × State} (hf : ∀ p a, PairOk p → PairOk (f p a)) :
    ∀ (l : List α) (p : β × State), PairOk p → PairOk (l.foldl f p)
  | [], _, h => h
  | a :: l, s, h => pairOk_foldl hf l (f s a) (hf s a h)

theorem fst_foldl {α β : Type} {f : State × β → α → State × β} (hf : ∀ p a, p.1.MemOk → (f p a).1.MemOk) :
    ∀ (l : List α) (p : State × β), p.1.MemOk → (l.foldl f p).1.MemOk
  | [], _, h => h
  | a :: l, p, h => fst_foldl hf l (f p a) (hf p a h)
theorem memOk_plet {α : Type} {e : α × State} {b : α × State → State} (he : PairOk e) (hb : ∀ s, PairOk s → (b s).MemOk) : State.MemOk (let s := e; b s) := hb e he
theorem outOk_plet {α : Type} {e : α × State} {b : α × State → Host.Outcome State Fault Refusal} (he : PairOk e) (hb : ∀ s, PairOk s → Outcome.MemOk (b s)) : Outcome.MemOk (let s := e; b s) := hb e he
theorem pairOk_plet {α β : Type} {e : β × State} {b : β × State → α × State} (he : PairOk e) (hb : ∀ s, PairOk s → PairOk (b s)) : PairOk (let s := e; b s) := hb e he
theorem optOk_plet {α : Type} {e : α × State} {b : α × State → Option State} (he : PairOk e) (hb : ∀ s, PairOk s → OptOk (b s)) : OptOk (let s := e; b s) := hb e he
theorem memOk_prod {α : Type} {e : α × State} {b : α → State → State} (he : PairOk e) (hb : ∀ a s, s.MemOk → (b a s).MemOk) :
    State.MemOk (match e with | (a, s) => b a s) := hb _ _ he.snd
theorem outOk_prod {α : Type} {e : α × State} {b : α → State → Host.Outcome State Fault Refusal} (he : PairOk e)
    (hb : ∀ a s, s.MemOk → Outcome.MemOk (b a s)) : Outcome.MemOk (match e with | (a, s) => b a s) := hb _ _ he.snd
theorem pairOk_prod {α β : Type} {e : β × State} {b : β → State → α × State} (he : PairOk e) (hb : ∀ (a : β) (s : State), s.MemOk → PairOk (b a s)) :
    PairOk (match e with | (a, s) => b a s) := hb _ _ he.snd
theorem optOk_prod {α : Type} {e : α × State} {b : α → State → Option State} (he : PairOk e) (hb : ∀ a s, s.MemOk → OptOk (b a s)) :
    OptOk (match e with | (a, s) => b a s) := hb _ _ he.snd

theorem asLane_memOk (x0 : State) (x1) (_h0 : x0.MemOk) (hk : ∀ r w g u, Outcome.MemOk (x1 r w g u)) : Outcome.MemOk (asLane x0 x1) := by
  unfold asLane
  split
  · rename_i z1 z2 z3 z4 z5
    split
    · rename_i z6 z7 z8
      split
      · rename_i z9 z10 z11
        split
        · rename_i z12 z13 z14
          apply hk
        · rename_i z15 z16
          exact outOk_fault
      · rename_i z17 z18
        exact outOk_fault
    · rename_i z19 z20
      exact outOk_fault
  · rename_i z21 z22
    exact outOk_fault

theorem State.setCore_memOk (x0 : State) (x1) (x2) (h0 : x0.MemOk) : State.MemOk (State.setCore x0 x1 x2) := by
  unfold State.setCore
  (refine ⟨?_⟩; dsimp only; refine State.MemOk.wf ?_)
  exact h0

theorem State.updCore_memOk (x0 : State) (x1) (x2) (h0 : x0.MemOk) : State.MemOk (State.updCore x0 x1 x2) := by
  unfold State.updCore
  apply State.setCore_memOk
  exact h0

theorem State.setWave_memOk (x0 : State) (x1) (x2) (h0 : x0.MemOk) : State.MemOk (State.setWave x0 x1 x2) := by
  unfold State.setWave
  apply State.updCore_memOk
  exact h0

theorem State.updWave_memOk (x0 : State) (x1) (x2) (h0 : x0.MemOk) : State.MemOk (State.updWave x0 x1 x2) := by
  unfold State.updWave
  split
  · rename_i z1 z2 z3
    apply State.setWave_memOk
    exact h0
  · rename_i z4 z5
    exact h0

theorem State.updFrag_memOk (x0 : State) (x1) (x2) (x3) (h0 : x0.MemOk) : State.MemOk (State.updFrag x0 x1 x2 x3) := by
  unfold State.updFrag
  apply State.updWave_memOk
  exact h0

theorem State.laneNext_memOk (x0 : State) (x1) (x2) (h0 : x0.MemOk) : State.MemOk (State.laneNext x0 x1 x2) := by
  unfold State.laneNext
  apply State.updFrag_memOk
  exact h0

theorem State.goto_memOk (x0 : State) (x1) (x2) (x3) (h0 : x0.MemOk) : State.MemOk (State.goto x0 x1 x2 x3) := by
  unfold State.goto
  apply State.updFrag_memOk
  exact h0

theorem State.atTime_memOk (x0 : State) (x1) (x2) (h0 : x0.MemOk) : State.MemOk (State.atTime x0 x1 x2) := by
  unfold State.atTime
  (refine ⟨?_⟩; dsimp only; refine State.MemOk.wf ?_)
  exact h0

theorem State.after_memOk (x0 : State) (x1) (x2) (h0 : x0.MemOk) : State.MemOk (State.after x0 x1 x2) := by
  unfold State.after
  apply State.atTime_memOk
  exact h0

theorem State.txnSleep_memOk (x0 : State) (x1) (x2) (x3) (x4) (h0 : x0.MemOk) : State.MemOk (State.txnSleep x0 x1 x2 x3 x4) := by
  unfold State.txnSleep
  split
  rename_i z1 z2 z3 z4
  extract_lets +onlyGivenNames y5
  clear_value y5
  extract_lets +onlyGivenNames y6
  clear_value y6
  extract_lets +onlyGivenNames y7
  clear_value y7
  extract_lets +onlyGivenNames y8
  clear_value y8
  extract_lets +onlyGivenNames y9
  clear_value y9
  extract_lets +onlyGivenNames y10
  refine memOk_have (p := State.MemOk y10) ?_ (fun h11 => ?_)
  · unfold y10
    apply State.setWave_memOk
    exact h0
  clear_value y10
  extract_lets +onlyGivenNames y12
  clear_value y12
  extract_lets +onlyGivenNames y13
  refine memOk_have (p := State.MemOk y13) ?_ (fun h14 => ?_)
  · unfold y13
    apply State.updFrag_memOk
    exact h11
  clear_value y13
  refine memOk_ite ?_ ?_
  · apply State.after_memOk
    exact h14
  · refine memOk_ite ?_ ?_
    · apply State.after_memOk
      exact h14
    · exact h14

theorem State.each_memOk {α : Type} (s : State) (l : List α) (f : State → α → State) (h : s.MemOk) (hk : ∀ s a, s.MemOk → State.MemOk (f s a)) :
    State.MemOk (s.each l f) := memOk_foldl hk l s h

theorem State.l1Fill_memOk (x0 : State) (x1) (x2) (x3) (h0 : x0.MemOk) : State.MemOk (State.l1Fill x0 x1 x2 x3) := by
  unfold State.l1Fill
  extract_lets +onlyGivenNames y1
  clear_value y1
  apply State.each_memOk
  · exact h0
  · intro s2 a3 h4
    extract_lets +onlyGivenNames y5
    clear_value y5
    refine memOk_ite ?_ ?_
    · exact h4
    · extract_lets +onlyGivenNames y6
      clear_value y6
      extract_lets +onlyGivenNames y7
      clear_value y7
      apply State.setCore_memOk
      exact h4

theorem State.l1Hint_memOk (x0 : State) (x1) (x2) (x3) (x4) (h0 : x0.MemOk) : State.MemOk (State.l1Hint x0 x1 x2 x3 x4) := by
  unfold State.l1Hint
  refine memOk_ite ?_ ?_
  · apply State.l1Fill_memOk
    exact h0
  · refine memOk_ite ?_ ?_
    · apply State.updCore_memOk
      exact h0
    · exact h0

theorem State.bindWord_memOk (x0 : State) (x1) (x2) (x3) (h0 : x0.MemOk) : OptOk (State.bindWord x0 x1 x2 x3) := by
  unfold State.bindWord
  split
  · rename_i z1 z2 z3
    refine optOk_ite ?_ ?_
    · refine optOk_some ?_
      exact h0
    · exact optOk_none
  · rename_i z4 z5
    refine optOk_some ?_
    apply State.updCore_memOk
    exact h0

theorem State.windowKey_memOk (x0 : State) (x1) (x2) (x3) (x4) (h0 : x0.MemOk) : PairOk (State.windowKey x0 x1 x2 x3 x4) := by
  unfold State.windowKey
  split
  · rename_i z1
    refine pairOk_mk ?_
    exact h0
  · rename_i z2 z3 z4
    extract_lets +onlyGivenNames y5
    clear_value y5
    extract_lets +onlyGivenNames y6
    clear_value y6
    extract_lets +onlyGivenNames y7
    clear_value y7
    refine pairOk_ite ?_ ?_
    · refine pairOk_mk ?_
      exact h0
    · refine pairOk_ite ?_ ?_
      · extract_lets +onlyGivenNames y8
        clear_value y8
        extract_lets +onlyGivenNames y9
        clear_value y9
        split
        · rename_i z10 z11 z12
          refine memOk_have (p := State.MemOk z11) (optOk_eq z12 ?_) (fun h13 => ?_)
          · refine optOk_foldl (fun s14 a15 h16 => ?_) _ _ ?_
            · refine optOk_bind ?_ (fun s17 h18 => ?_)
              · exact h16
              · apply State.bindWord_memOk
                exact h18
            · refine optOk_some ?_
              exact h0
          refine pairOk_mk ?_
          exact h13
        · rename_i z19 z20
          refine pairOk_mk ?_
          exact h0
      · refine pairOk_ite ?_ ?_
        · extract_lets +onlyGivenNames y21
          clear_value y21
          extract_lets +onlyGivenNames y22
          clear_value y22
          refine pairOk_ite ?_ ?_
          · refine pairOk_mk ?_
            exact h0
          · split
            · rename_i z23
              refine pairOk_mk ?_
              exact h0
            · rename_i z24 z25
              split
              · rename_i z26 z27
                refine pairOk_ite ?_ ?_
                · refine pairOk_mk ?_
                  exact h0
                · refine pairOk_mk ?_
                  exact h0
              · rename_i z28 z29 z30
                split
                · rename_i z31 z32 z33 z34
                  refine pairOk_mk ?_
                  exact h0
                · rename_i z35 z36
                  refine pairOk_mk ?_
                  exact h0
        · refine pairOk_mk ?_
          exact h0

theorem State.translate_memOk (x0 : State) (x1) (x2) (x3) (x4) (h0 : x0.MemOk) : PairOk (State.translate x0 x1 x2 x3 x4) := by
  unfold State.translate
  refine pairOk_ite ?_ ?_
  · refine pairOk_mk ?_
    exact h0
  · refine pairOk_ite ?_ ?_
    · refine pairOk_mk ?_
      exact h0
    · extract_lets +onlyGivenNames y1
      clear_value y1
      split
      · rename_i z2 z3 z4
        refine pairOk_mk ?_
        exact h0
      · rename_i z5 z6
        split
        · rename_i z7 z8
          refine pairOk_mk ?_
          exact h0
        · rename_i z9 z10 z11
          split
          · rename_i z12 z13 z14
            refine pairOk_mk ?_
            exact h0
          · rename_i z15 z16 z17
            extract_lets +onlyGivenNames y18
            clear_value y18
            refine pairOk_mk ?_
            (refine ⟨?_⟩; dsimp only; refine State.MemOk.wf ?_)
            exact h0

theorem State.resolvePiece_memOk (x0 : State) (x1) (x2) (x3) (x4) (x5) (x6) (x7) (h0 : x0.MemOk) : PairOk (State.resolvePiece x0 x1 x2 x3 x4 x5 x6 x7) := by
  unfold State.resolvePiece
  refine pairOk_ite ?_ ?_
  · refine pairOk_ite ?_ ?_
    · refine pairOk_mk ?_
      exact h0
    · apply State.windowKey_memOk
      exact h0
  · refine pairOk_ite ?_ ?_
    · refine pairOk_mk ?_
      exact h0
    · refine pairOk_ite ?_ ?_
      · refine pairOk_ite ?_ ?_
        · refine pairOk_mk ?_
          exact h0
        · apply State.windowKey_memOk
          exact h0
      · apply State.translate_memOk
        exact h0

theorem State.resolveGo_memOk (x0 : State) (x1) (x2) (x3) (x4) (x5) (x6) (x7) (x8) (x9) (h0 : x0.MemOk) : PairOk (State.resolveGo x0 x1 x2 x3 x4 x5 x6 x7 x8 x9) := by
  induction x6 generalizing x0 x7 x8 x9 with
  | zero => exact ⟨h0⟩
  | succ n ih =>
    unfold State.resolveGo
    refine pairOk_ite ⟨h0⟩ ?_
    have hp := State.resolvePiece_memOk x0 x1 x2 x3 x4 x7 (min x8 (4096 - x7 % 4096)) x5 h0
    dsimp only
    split
    · rename_i he
      exact ⟨pairOk_eq he hp⟩
    · rename_i he
      exact ih _ _ _ _ (pairOk_eq he hp)

theorem State.resolve_memOk (x0 : State) (x1) (x2) (x3) (x4) (x5) (x6) (x7) (h0 : x0.MemOk) : PairOk (State.resolve x0 x1 x2 x3 x4 x5 x6 x7) := by
  unfold State.resolve
  apply State.resolveGo_memOk
  exact h0

theorem asScalar_memOk (x0 : State) (x1) (_h0 : x0.MemOk) (hk : ∀ r w g, Outcome.MemOk (x1 r w g)) : Outcome.MemOk (asScalar x0 x1) := by
  unfold asScalar
  split
  · rename_i z1 z2 z3 z4 z5
    split
    · rename_i z6 z7 z8
      split
      · rename_i z9 z10 z11
        refine outOk_ite ?_ ?_
        · apply hk
        · exact outOk_fault
      · rename_i z12 z13
        exact outOk_fault
    · rename_i z14 z15
      exact outOk_fault
  · rename_i z16 z17
    exact outOk_fault

theorem State.wait_memOk (x0 : State) (x1) (x2) (h0 : x0.MemOk) : State.MemOk (State.wait x0 x1 x2) := by
  unfold State.wait
  split
  · rename_i z1 z2 z3
    refine memOk_ite ?_ ?_
    · exact h0
    · extract_lets +onlyGivenNames y4
      clear_value y4
      extract_lets +onlyGivenNames y5
      refine memOk_have (p := State.MemOk y5) ?_ (fun h6 => ?_)
      · unfold y5
        apply State.updFrag_memOk
        exact h0
      clear_value y5
      refine memOk_ite ?_ ?_
      · apply State.after_memOk
        exact h6
      · exact h6
  · rename_i z7 z8
    exact h0

theorem scalarOp_memOk (x0 : State) (x1) (x2) (h0 : x0.MemOk) (hk : ∀ r w g, Outcome.MemOk (x2 r w g)) : Outcome.MemOk (scalarOp x0 x1 x2) := by
  unfold scalarOp
  apply asScalar_memOk
  · exact h0
  · intro a1 a2 a3
    refine outOk_ite ?_ ?_
    · refine outOk_next ?_
      apply State.wait_memOk
      exact h0
    · apply hk

theorem State.next_memOk (x0 : State) (x1) (x2) (h0 : x0.MemOk) : State.MemOk (State.next x0 x1 x2) := by
  unfold State.next
  apply State.updFrag_memOk
  exact h0

theorem scalarResult_memOk (x0 : State) (x1) (x2) (x3) (h0 : x0.MemOk) : Outcome.MemOk (scalarResult x0 x1 x2 x3) := by
  unfold scalarResult
  apply scalarOp_memOk
  · exact h0
  · intro a1 a2 a3
    refine outOk_next ?_
    apply State.next_memOk
    apply State.setWave_memOk
    exact h0

theorem State.setStream_memOk (x0 : State) (x1) (x2) (h0 : x0.MemOk) : State.MemOk (State.setStream x0 x1 x2) := by
  unfold State.setStream
  (refine ⟨?_⟩; dsimp only; refine State.MemOk.wf ?_)
  exact h0

theorem State.sendCpl_memOk (x0 : State) (x1) (x2) (x3) (h0 : x0.MemOk) : State.MemOk (State.sendCpl x0 x1 x2 x3) := by
  unfold State.sendCpl
  extract_lets +onlyGivenNames y1
  clear_value y1
  refine memOk_ite ?_ ?_
  · apply State.setStream_memOk
    exact h0
  · refine memOk_ite ?_ ?_
    · apply State.setStream_memOk
      exact h0
    · extract_lets +onlyGivenNames y2
      clear_value y2
      extract_lets +onlyGivenNames y3
      clear_value y3
      extract_lets +onlyGivenNames y4
      refine memOk_have (p := State.MemOk y4) ?_ (fun h5 => ?_)
      · unfold y4
        apply State.setStream_memOk
        exact h0
      clear_value y4
      apply State.after_memOk
      (refine ⟨?_⟩; dsimp only; refine State.MemOk.wf ?_)
      exact h5

theorem State.complete_memOk (x0 : State) (x1) (x2) (x3) (x4) (x5) (x6) (h0 : x0.MemOk) : State.MemOk (State.complete x0 x1 x2 x3 x4 x5 x6) := by
  unfold State.complete
  extract_lets +onlyGivenNames y1
  clear_value y1
  extract_lets +onlyGivenNames y2
  refine memOk_have (p := State.MemOk y2) ?_ (fun h3 => ?_)
  · unfold y2
    apply State.setStream_memOk
    exact h0
  clear_value y2
  refine memOk_ite ?_ ?_
  · extract_lets +onlyGivenNames y4
    clear_value y4
    apply State.each_memOk
    · exact h3
    · intro s5 a6 h7
      apply State.sendCpl_memOk
      exact h7
  · apply State.sendCpl_memOk
    exact h3

theorem State.newRecord_memOk (x0 : State) (x1) (x2) (x3) (x4) (x5) (x6) (h0 : x0.MemOk) : PairOk (State.newRecord x0 x1 x2 x3 x4 x5 x6) := by
  unfold State.newRecord
  refine pairOk_mk ?_
  (refine ⟨?_⟩; dsimp only; refine State.MemOk.wf ?_)
  exact h0

theorem State.devRead_memOk (x0 : State) (x1) (x2) (x3) (x4) (h0 : x0.MemOk) : PairOk (State.devRead x0 x1 x2 x3 x4) := by
  unfold State.devRead
  split
  · rename_i z1 z2 z3 z4
    refine memOk_have (p := State.MemOk z3) (pairOk_eq z4 ?_) (fun h5 => ?_)
    · apply State.resolve_memOk
      exact h0
    refine pairOk_mk ?_
    exact h5
  · rename_i z6 z7 z8 z9
    refine memOk_have (p := State.MemOk z8) (pairOk_eq z9 ?_) (fun h10 => ?_)
    · apply State.resolve_memOk
      exact h0
    refine pairOk_mk ?_
    exact h10

theorem State.post_memOk (x0 : State) (x1) (h0 : x0.MemOk) : State.MemOk (State.post x0 x1) := by
  unfold State.post
  refine memOk_ite ?_ ?_
  · exact h0
  · (refine ⟨?_⟩; dsimp only; refine State.MemOk.wf ?_)
    exact h0

theorem State.posts_memOk (x0 : State) (x1) (h0 : x0.MemOk) : State.MemOk (State.posts x0 x1) := by
  unfold State.posts
  refine memOk_foldl (fun s1 a2 h3 => ?_) _ _ ?_
  · apply State.post_memOk
    exact h3
  · exact h0

theorem State.setHq_memOk (x0 : State) (x1) (x2) (h0 : x0.MemOk) : State.MemOk (State.setHq x0 x1 x2) := by
  unfold State.setHq
  (refine ⟨?_⟩; dsimp only; refine State.MemOk.wf ?_)
  exact h0

theorem State.setDie_memOk (x0 : State) (x1) (x2) (h0 : x0.MemOk) : State.MemOk (State.setDie x0 x1 x2) := by
  unfold State.setDie
  (refine ⟨?_⟩; dsimp only; refine State.MemOk.wf ?_)
  exact h0

theorem State.touchQueue_memOk (x0 : State) (x1) (x2) (h0 : x0.MemOk) : State.MemOk (State.touchQueue x0 x1 x2) := by
  unfold State.touchQueue
  extract_lets +onlyGivenNames y1
  clear_value y1
  split
  · rename_i z2 z3
    exact h0
  · rename_i z4 z5 z6
    extract_lets +onlyGivenNames y7
    clear_value y7
    refine memOk_ite ?_ ?_
    · exact h0
    · extract_lets +onlyGivenNames y8
      clear_value y8
      extract_lets +onlyGivenNames y9
      clear_value y9
      extract_lets +onlyGivenNames y10
      refine memOk_have (p := State.MemOk y10) ?_ (fun h11 => ?_)
      · unfold y10
        apply State.setHq_memOk
        exact h0
      clear_value y10
      extract_lets +onlyGivenNames y12
      clear_value y12
      extract_lets +onlyGivenNames y13
      refine memOk_have (p := State.MemOk y13) ?_ (fun h14 => ?_)
      · unfold y13
        apply State.setDie_memOk
        exact h11
      clear_value y13
      apply State.post_memOk
      exact h14

theorem State.touchStream_memOk (x0 : State) (x1) (x2) (h0 : x0.MemOk) : State.MemOk (State.touchStream x0 x1 x2) := by
  unfold State.touchStream
  extract_lets +onlyGivenNames y1
  clear_value y1
  refine memOk_ite ?_ ?_
  · apply State.post_memOk
    exact h0
  · exact h0

theorem State.touch_memOk (x0 : State) (x1) (h0 : x0.MemOk) : State.MemOk (State.touch x0 x1) := by
  unfold State.touch
  extract_lets +onlyGivenNames y1
  refine memOk_have (p := State.MemOk y1) ?_ (fun h2 => ?_)
  · unfold y1
    (refine ⟨?_⟩; dsimp only; refine State.MemOk.wf ?_)
    exact h0
  clear_value y1
  extract_lets +onlyGivenNames y3
  refine memOk_have (p := State.MemOk y3) ?_ (fun h4 => ?_)
  · unfold y3
    apply State.posts_memOk
    exact h2
  clear_value y3
  extract_lets +onlyGivenNames y5
  refine memOk_have (p := State.MemOk y5) ?_ (fun h6 => ?_)
  · unfold y5
    apply State.each_memOk
    · exact h4
    · intro s7 a8 h9
      apply State.touchQueue_memOk
      exact h9
  clear_value y5
  apply State.each_memOk
  · exact h6
  · intro s10 a11 h12
    apply State.touchStream_memOk
    exact h12

theorem State.store_memOk (x0 : State) (x1) (h0 : x0.MemOk) : State.MemOk (State.store x0 x1) := by
  unfold State.store
  refine memOk_ite h0 ?_
  apply State.touch_memOk
  exact ⟨Memory.wf_writes _ _ h0.wf⟩

theorem State.devWrite_memOk (x0 : State) (x1) (x2) (x3) (x4) (h0 : x0.MemOk) : PairOk (State.devWrite x0 x1 x2 x3 x4) := by
  unfold State.devWrite
  split
  · rename_i z1 z2 z3 z4
    refine memOk_have (p := State.MemOk z3) (pairOk_eq z4 ?_) (fun h5 => ?_)
    · apply State.resolve_memOk
      exact h0
    refine pairOk_mk ?_
    apply State.store_memOk
    exact h5
  · rename_i z6 z7 z8 z9
    refine memOk_have (p := State.MemOk z8) (pairOk_eq z9 ?_) (fun h10 => ?_)
    · apply State.resolve_memOk
      exact h0
    refine pairOk_mk ?_
    exact h10

theorem State.keepError_memOk (x0 : State) (x1) (x2) (h0 : x0.MemOk) : State.MemOk (State.keepError x0 x1 x2) := by
  unfold State.keepError
  extract_lets +onlyGivenNames y1
  clear_value y1
  (refine ⟨?_⟩; dsimp only; refine State.MemOk.wf ?_)
  exact h0

theorem State.setCtx_memOk (x0 : State) (x1) (x2) (h0 : x0.MemOk) : State.MemOk (State.setCtx x0 x1 x2) := by
  unfold State.setCtx
  (refine ⟨?_⟩; dsimp only; refine State.MemOk.wf ?_)
  exact h0

theorem State.updCtx_memOk (x0 : State) (x1) (x2) (h0 : x0.MemOk) : State.MemOk (State.updCtx x0 x1 x2) := by
  unfold State.updCtx
  split
  · rename_i z1 z2 z3
    apply State.setCtx_memOk
    exact h0
  · rename_i z4 z5
    exact h0

theorem State.note_memOk (x0 : State) (x1) (x2) (h0 : x0.MemOk) : State.MemOk (State.note x0 x1 x2) := by
  unfold State.note
  apply State.sendCpl_memOk
  exact h0

theorem State.fqWrite_memOk (x0 : State) (x1) (x2) (x3) (h0 : x0.MemOk) : PairOk (State.fqWrite x0 x1 x2 x3) := by
  unfold State.fqWrite
  split
  · rename_i z1 z2
    refine pairOk_mk ?_
    exact h0
  · rename_i z3 z4 z5
    split
    · rename_i z6 z7 z8 z9
      refine memOk_have (p := State.MemOk z8) (pairOk_eq z9 ?_) (fun h10 => ?_)
      · apply State.devRead_memOk
        exact h0
      refine pairOk_mk ?_
      exact h10
    · rename_i z11 z12 z13 z14
      refine memOk_have (p := State.MemOk z13) (pairOk_eq z14 ?_) (fun h15 => ?_)
      · apply State.devRead_memOk
        exact h0
      extract_lets +onlyGivenNames y16
      clear_value y16
      refine pairOk_ite ?_ ?_
      · refine pairOk_mk ?_
        exact h15
      · split
        · rename_i z17 z18 z19 z20
          refine memOk_have (p := State.MemOk z19) (pairOk_eq z20 ?_) (fun h21 => ?_)
          · apply State.devWrite_memOk
            exact h15
          refine pairOk_mk ?_
          exact h21
        · rename_i z22 z23 z24 z25
          refine memOk_have (p := State.MemOk z24) (pairOk_eq z25 ?_) (fun h26 => ?_)
          · apply State.devWrite_memOk
            exact h15
          split
          · rename_i z27 z28 z29 z30
            refine memOk_have (p := State.MemOk z29) (pairOk_eq z30 ?_) (fun h31 => ?_)
            · apply State.devWrite_memOk
              exact h26
            refine pairOk_mk ?_
            exact h31
          · rename_i z32 z33 z34 z35
            refine memOk_have (p := State.MemOk z34) (pairOk_eq z35 ?_) (fun h36 => ?_)
            · apply State.devWrite_memOk
              exact h26
            extract_lets +onlyGivenNames y37
            refine memOk_have (p := State.MemOk y37) ?_ (fun h38 => ?_)
            · unfold y37
              apply State.keepError_memOk
              apply State.updCtx_memOk
              exact h36
            clear_value y37
            refine pairOk_mk ?_
            refine memOk_ite ?_ ?_
            · apply State.note_memOk
              exact h38
            · exact h38

theorem State.markUnusable_memOk (x0 : State) (x1) (h0 : x0.MemOk) : State.MemOk (State.markUnusable x0 x1) := by
  unfold State.markUnusable
  apply State.updCtx_memOk
  exact h0

theorem State.memFault_memOk (x0 : State) (x1) (x2) (x3) (x4) (x5) (x6) (x7) (h0 : x0.MemOk) : PairOk (State.memFault x0 x1 x2 x3 x4 x5 x6 x7) := by
  unfold State.memFault
  split
  rename_i z1 z2 z3 z4
  refine memOk_have (p := State.MemOk z3) (pairOk_eq z4 ?_) (fun h5 => ?_)
  · apply State.newRecord_memOk
    exact h0
  split
  rename_i z6 z7 z8 z9
  refine memOk_have (p := State.MemOk z8) (pairOk_eq z9 ?_) (fun h10 => ?_)
  · apply State.fqWrite_memOk
    exact h5
  extract_lets +onlyGivenNames y11
  refine memOk_have (p := State.MemOk y11) ?_ (fun h12 => ?_)
  · unfold y11
    (refine ⟨?_⟩; dsimp only; refine State.MemOk.wf ?_)
    exact h10
  clear_value y11
  refine pairOk_mk ?_
  refine memOk_ite ?_ ?_
  · apply State.markUnusable_memOk
    exact h12
  · exact h12

theorem State.devUpdate_memOk (x0 : State) (x1) (x2) (x3) (x4) (h0 : x0.MemOk) : PairOk (State.devUpdate x0 x1 x2 x3 x4) := by
  unfold State.devUpdate
  split
  · rename_i z1 z2 z3 z4
    refine memOk_have (p := State.MemOk z3) (pairOk_eq z4 ?_) (fun h5 => ?_)
    · apply State.resolve_memOk
      exact h0
    extract_lets +onlyGivenNames y6
    clear_value y6
    refine pairOk_mk ?_
    apply State.store_memOk
    exact h5
  · rename_i z7 z8 z9 z10
    refine memOk_have (p := State.MemOk z9) (pairOk_eq z10 ?_) (fun h11 => ?_)
    · apply State.resolve_memOk
      exact h0
    refine pairOk_mk ?_
    exact h11

theorem State.updAsync_memOk (x0 : State) (x1) (x2) (h0 : x0.MemOk) : State.MemOk (State.updAsync x0 x1 x2) := by
  unfold State.updAsync
  (refine ⟨?_⟩; dsimp only; refine State.MemOk.wf ?_)
  exact h0

theorem State.retireStart_memOk (x0 : State) (x1) (x2) (x3) (x4) (h0 : x0.MemOk) : State.MemOk (State.retireStart x0 x1 x2 x3 x4) := by
  unfold State.retireStart
  extract_lets +onlyGivenNames y1
  refine memOk_have (p := State.MemOk y1) ?_ (fun h2 => ?_)
  · unfold y1
    split
    · rename_i z3 z4
      split
      · rename_i z5 z6 z7
        apply State.post_memOk
        apply State.updAsync_memOk
        exact h0
      · rename_i z8 z9
        exact h0
    · rename_i z10
      exact h0
  clear_value y1
  split
  · rename_i z11 z12 z13
    split
    · rename_i z14 z15 z16
      apply State.complete_memOk
      exact h2
    · rename_i z17 z18
      exact h2
  · rename_i z19
    exact h2

theorem State.dropRecord_memOk (x0 : State) (x1) (h0 : x0.MemOk) : State.MemOk (State.dropRecord x0 x1) := by
  unfold State.dropRecord
  split
  · rename_i z1 z2
    exact h0
  · rename_i z3 z4 z5
    extract_lets +onlyGivenNames y6
    refine memOk_have (p := State.MemOk y6) ?_ (fun h7 => ?_)
    · unfold y6
      apply State.updCtx_memOk
      exact h0
    clear_value y6
    split
    · rename_i z8 z9 z10 z11
      refine memOk_have (p := State.MemOk z10) (pairOk_eq z11 ?_) (fun h12 => ?_)
      · apply State.devWrite_memOk
        exact h7
      exact h12
    · rename_i z13 z14 z15 z16
      refine memOk_have (p := State.MemOk z15) (pairOk_eq z16 ?_) (fun h17 => ?_)
      · apply State.devWrite_memOk
        exact h7
      apply State.markUnusable_memOk
      exact h17

theorem State.fabricErr_memOk (x0 : State) (x1) (x2) (x3) (x4) (x5) (h0 : x0.MemOk) : State.MemOk (State.fabricErr x0 x1 x2 x3 x4 x5) := by
  unfold State.fabricErr
  split
  rename_i z1 z2 z3 z4
  refine memOk_have (p := State.MemOk z3) (pairOk_eq z4 ?_) (fun h5 => ?_)
  · apply State.newRecord_memOk
    exact h0
  split
  · rename_i z6 z7 z8
    refine memOk_have (p := State.MemOk z7) (pairOk_eq z8 ?_) (fun h9 => ?_)
    · apply State.fqWrite_memOk
      exact h5
    exact h9
  · rename_i z10 z11 z12
    refine memOk_have (p := State.MemOk z11) (pairOk_eq z12 ?_) (fun h13 => ?_)
    · apply State.fqWrite_memOk
      exact h5
    apply State.dropRecord_memOk
    exact h13
  · rename_i z14 z15 z16
    refine memOk_have (p := State.MemOk z15) (pairOk_eq z16 ?_) (fun h17 => ?_)
    · apply State.fqWrite_memOk
      exact h5
    apply State.markUnusable_memOk
    exact h17

theorem State.fresh_memOk (x0 : State) (h0 : x0.MemOk) : PairOk (State.fresh x0) := by
  unfold State.fresh
  refine pairOk_mk ?_
  (refine ⟨?_⟩; dsimp only; refine State.MemOk.wf ?_)
  exact h0

theorem State.setCx_memOk (x0 : State) (x1) (x2) (h0 : x0.MemOk) : State.MemOk (State.setCx x0 x1 x2) := by
  unfold State.setCx
  (refine ⟨?_⟩; dsimp only; refine State.MemOk.wf ?_)
  exact h0

theorem State.setCircuit_memOk (x0 : State) (x1) (x2) (h0 : x0.MemOk) : State.MemOk (State.setCircuit x0 x1 x2) := by
  unfold State.setCircuit
  (refine ⟨?_⟩; dsimp only; refine State.MemOk.wf ?_)
  exact h0

theorem State.setGth_memOk (x0 : State) (x1) (x2) (h0 : x0.MemOk) : State.MemOk (State.setGth x0 x1 x2) := by
  unfold State.setGth
  (refine ⟨?_⟩; dsimp only; refine State.MemOk.wf ?_)
  exact h0

theorem State.gEvent_memOk (x0 : State) (x1) (x2) (x3) (h0 : x0.MemOk) : State.MemOk (State.gEvent x0 x1 x2 x3) := by
  unfold State.gEvent
  extract_lets +onlyGivenNames y1
  clear_value y1
  refine memOk_ite ?_ ?_
  · exact h0
  · refine memOk_ite ?_ ?_
    · apply State.setGth_memOk
      exact h0
    · apply State.setGth_memOk
      exact h0

theorem State.endAsync_memOk (x0 : State) (x1) (x2) (h0 : x0.MemOk) : State.MemOk (State.endAsync x0 x1 x2) := by
  unfold State.endAsync
  split
  · rename_i z1 z2
    exact h0
  · rename_i z3 z4 z5
    refine memOk_ite ?_ ?_
    · exact h0
    · apply State.post_memOk
      apply State.updAsync_memOk
      exact h0

theorem State.circLost_memOk (x0 : State) (x1) (h0 : x0.MemOk) : State.MemOk (State.circLost x0 x1) := by
  unfold State.circLost
  apply State.each_memOk
  · exact h0
  · intro s1 a2 h3
    apply State.endAsync_memOk
    exact h3

theorem State.moveEntry_memOk (x0 : State) (x1) (x2) (h0 : x0.MemOk) : State.MemOk (State.moveEntry x0 x1 x2) := by
  unfold State.moveEntry
  extract_lets +onlyGivenNames y1
  clear_value y1
  extract_lets +onlyGivenNames y2
  refine memOk_have (p := State.MemOk y2) ?_ (fun h3 => ?_)
  · unfold y2
    apply State.setCircuit_memOk
    exact h0
  clear_value y2
  refine memOk_ite ?_ ?_
  · exact h3
  · extract_lets +onlyGivenNames y4
    refine memOk_have (p := State.MemOk y4) ?_ (fun h5 => ?_)
    · unfold y4
      apply State.gEvent_memOk
      exact h3
    clear_value y4
    refine memOk_ite ?_ ?_
    · apply State.circLost_memOk
      exact h5
    · exact h5

theorem State.portDark_memOk (x0 : State) (x1) (h0 : x0.MemOk) : State.MemOk (State.portDark x0 x1) := by
  unfold State.portDark
  apply State.each_memOk
  · exact h0
  · intro s1 a2 h3
    apply State.moveEntry_memOk
    exact h3

theorem State.freeIfDark_memOk (x0 : State) (x1) (h0 : x0.MemOk) : State.MemOk (State.freeIfDark x0 x1) := by
  unfold State.freeIfDark
  refine memOk_ite ?_ ?_
  · apply State.portDark_memOk
    exact h0
  · exact h0

theorem State.resolvePart_memOk (s : State) (r w o faults p) (h : s.MemOk) :
    State.MemOk (State.resolvePart s r w o faults p).2.2 := by
  unfold State.resolvePart
  split
  · exact h
  · have hr := State.resolve_memOk s (w.place r) (unitOf r.core) w.ctx o.space p.va.toNat o.size (needOf o.kind) h
    split
    · rename_i he
      exact pairOk_eq he hr
    · rename_i he
      split
      · exact pairOk_eq he hr
      · exact (State.memFault_memOk _ _ _ _ _ _ _ _ (pairOk_eq he hr)).snd

theorem State.resolveParts_memOk (s : State) (r w o l fs) (h : s.MemOk) : PairOk (State.resolveParts s r w o l fs) := by
  induction l generalizing s fs with
  | nil => exact ⟨h⟩
  | cons p l ih =>
    unfold State.resolveParts
    exact ⟨(ih _ _ (State.resolvePart_memOk _ _ _ _ _ _ h)).snd⟩

theorem State.issueOp_memOk (x0 : State) (x1) (x2) (x3) (x4) (h0 : x0.MemOk) : State.MemOk (State.issueOp x0 x1 x2 x3 x4) := by
  unfold State.issueOp
  split
  rename_i z1 z2 z3 z4
  refine memOk_have (p := State.MemOk z3) (pairOk_eq z4 ?_) (fun h5 => ?_)
  · apply State.fresh_memOk
    exact h0
  extract_lets +onlyGivenNames y6
  clear_value y6
  split
  rename_i z7 z8 z9 z10
  refine memOk_have (p := State.MemOk z9) (pairOk_eq z10 ?_) (fun h11 => ?_)
  · refine pairOk_ite ?_ ?_
    · apply State.resolveParts_memOk
      exact h5
    · refine pairOk_mk ?_
      exact h5
  extract_lets +onlyGivenNames y12
  clear_value y12
  extract_lets +onlyGivenNames y13
  clear_value y13
  extract_lets +onlyGivenNames y14
  clear_value y14
  extract_lets +onlyGivenNames y15
  clear_value y15
  extract_lets +onlyGivenNames y16
  clear_value y16
  extract_lets +onlyGivenNames y17
  refine memOk_have (p := State.MemOk y17) ?_ (fun h18 => ?_)
  · unfold y17
    apply State.updWave_memOk
    exact h11
  clear_value y17
  apply State.post_memOk
  exact h18

theorem State.wake_memOk (x0 : State) (x1) (x2) (x3) (h0 : x0.MemOk) : State.MemOk (State.wake x0 x1 x2 x3) := by
  unfold State.wake
  split
  · rename_i z1 z2 z3
    refine memOk_ite ?_ ?_
    · apply State.updFrag_memOk
      apply State.updWave_memOk
      exact h0
    · exact h0
  · rename_i z4 z5
    exact h0

theorem State.noteSeen_memOk (x0 : State) (x1) (h0 : x0.MemOk) : State.MemOk (State.noteSeen x0 x1) := by
  unfold State.noteSeen
  extract_lets +onlyGivenNames y1
  clear_value y1
  extract_lets +onlyGivenNames y2
  clear_value y2
  (refine ⟨?_⟩; dsimp only; refine State.MemOk.wf ?_)
  exact h0

theorem State.setLink_memOk (x0 : State) (x1) (x2) (h0 : x0.MemOk) : State.MemOk (State.setLink x0 x1 x2) := by
  unfold State.setLink
  (refine ⟨?_⟩; dsimp only; refine State.MemOk.wf ?_)
  exact h0

theorem State.control_memOk (x0 : State) (x1) (x2) (x3) (h0 : x0.MemOk) : State.MemOk (State.control x0 x1 x2 x3) := by
  unfold State.control
  (refine ⟨?_⟩; dsimp only; refine State.MemOk.wf ?_)
  exact h0

theorem State.freed_memOk (x0 : State) (x1) (x2) (h0 : x0.MemOk) : State.MemOk (State.freed x0 x1 x2) := by
  unfold State.freed
  refine memOk_ite ?_ ?_
  · exact h0
  · apply State.control_memOk
    exact h0

theorem State.sendOn_memOk (x0 : State) (x1) (x2) (h0 : x0.MemOk) : State.MemOk (State.sendOn x0 x1 x2) := by
  unfold State.sendOn
  extract_lets +onlyGivenNames y1
  clear_value y1
  extract_lets +onlyGivenNames y2
  clear_value y2
  extract_lets +onlyGivenNames y3
  clear_value y3
  extract_lets +onlyGivenNames y4
  clear_value y4
  extract_lets +onlyGivenNames y5
  clear_value y5
  extract_lets +onlyGivenNames y6
  refine memOk_have (p := State.MemOk y6) ?_ (fun h7 => ?_)
  · unfold y6
    apply State.setLink_memOk
    exact h0
  clear_value y6
  extract_lets +onlyGivenNames y8
  refine memOk_have (p := State.MemOk y8) ?_ (fun h9 => ?_)
  · unfold y8
    (refine ⟨?_⟩; dsimp only; refine State.MemOk.wf ?_)
    exact h7
  clear_value y8
  extract_lets +onlyGivenNames y10
  refine memOk_have (p := State.MemOk y10) ?_ (fun h11 => ?_)
  · unfold y10
    split
    · rename_i z12 z13 z14
      apply State.freed_memOk
      exact h9
    · rename_i z15 z16
      exact h9
  clear_value y10
  refine memOk_ite ?_ ?_
  · apply State.after_memOk
    exact h11
  · exact h11

theorem State.pumpGo_memOk (x0 : State) (x1) (x2) (h0 : x0.MemOk) : State.MemOk (State.pumpGo x0 x1 x2) := by
  induction x2 generalizing x0 x1 h0
  · unfold State.pumpGo
    exact h0
  · rename_i r0 ih
    unfold State.pumpGo
    extract_lets +onlyGivenNames y1
    clear_value y1
    refine memOk_ite ?_ ?_
    · exact h0
    · split
      · rename_i z2 z3
        exact h0
      · rename_i z4 z5 z6
        apply ih
        apply State.sendOn_memOk
        exact h0

theorem State.pump_memOk (x0 : State) (x1) (h0 : x0.MemOk) : State.MemOk (State.pump x0 x1) := by
  unfold State.pump
  apply State.pumpGo_memOk
  exact h0

theorem State.toLink_memOk (x0 : State) (x1) (x2) (x3) (h0 : x0.MemOk) : State.MemOk (State.toLink x0 x1 x2 x3) := by
  unfold State.toLink
  apply State.pump_memOk
  apply State.setLink_memOk
  exact h0

theorem State.broadcastOn_memOk (x0 : State) (x1) (x2) (h0 : x0.MemOk) : State.MemOk (State.broadcastOn x0 x1 x2) := by
  unfold State.broadcastOn
  refine memOk_ite ?_ ?_
  · exact h0
  · apply State.each_memOk
    · apply State.noteSeen_memOk
      exact h0
    · intro s1 a2 h3
      apply State.toLink_memOk
      exact h3

theorem State.took_memOk (x0 : State) (x1) (x2) (h0 : x0.MemOk) : State.MemOk (State.took x0 x1 x2) := by
  unfold State.took
  split
  · rename_i z1 z2 z3
    apply State.control_memOk
    apply State.setLink_memOk
    exact h0
  · rename_i z4 z5
    exact h0

theorem State.received_memOk (x0 : State) (x1) (x2) (h0 : x0.MemOk) : State.MemOk (State.received x0 x1 x2) := by
  unfold State.received
  apply State.broadcastOn_memOk
  apply State.freed_memOk
  apply State.took_memOk
  exact h0

theorem State.dropL1_memOk (x0 : State) (x1) (x2) (h0 : x0.MemOk) : State.MemOk (State.dropL1 x0 x1 x2) := by
  unfold State.dropL1
  apply State.updCore_memOk
  exact h0

theorem State.drainLine_memOk (x0 : State) (x1) (x2) (h0 : x0.MemOk) : State.MemOk (State.drainLine x0 x1 x2) := by
  unfold State.drainLine
  extract_lets +onlyGivenNames y1
  clear_value y1
  split
  · rename_i z2 z3
    exact h0
  · rename_i z4 z5 z6
    apply State.store_memOk
    apply State.setCore_memOk
    exact h0

theorem State.drainAll_memOk (x0 : State) (x1) (h0 : x0.MemOk) : State.MemOk (State.drainAll x0 x1) := by
  unfold State.drainAll
  apply State.each_memOk
  · exact h0
  · intro s1 a2 h3
    apply State.drainLine_memOk
    exact h3

theorem State.setPort_memOk (x0 : State) (x1) (x2) (h0 : x0.MemOk) : State.MemOk (State.setPort x0 x1 x2) := by
  unfold State.setPort
  (refine ⟨?_⟩; dsimp only; refine State.MemOk.wf ?_)
  exact h0

theorem State.epDrop_memOk (x0 : State) (h0 : x0.MemOk) : State.MemOk (State.epDrop x0) := by
  unfold State.epDrop
  (refine ⟨?_⟩; dsimp only; refine State.MemOk.wf ?_)
  exact h0

theorem State.sendPacket_memOk (x0 : State) (x1) (h0 : x0.MemOk) : State.MemOk (State.sendPacket x0 x1) := by
  unfold State.sendPacket
  refine memOk_ite ?_ ?_
  · exact h0
  · refine memOk_ite ?_ ?_
    · apply State.each_memOk
      · apply State.noteSeen_memOk
        exact h0
      · intro s1 a2 h3
        apply State.toLink_memOk
        exact h3
    · refine memOk_ite ?_ ?_
      · (refine ⟨?_⟩; dsimp only; refine State.MemOk.wf ?_)
        exact h0
      · split
        · rename_i z4 z5 z6
          apply State.toLink_memOk
          exact h0
        · rename_i z7 z8
          apply State.epDrop_memOk
          exact h0

theorem State.sendCtl_memOk (x0 : State) (x1) (x2) (x3) (x4) (h0 : x0.MemOk) : State.MemOk (State.sendCtl x0 x1 x2 x3 x4) := by
  unfold State.sendCtl
  extract_lets +onlyGivenNames y1
  clear_value y1
  extract_lets +onlyGivenNames y2
  clear_value y2
  extract_lets +onlyGivenNames y3
  clear_value y3
  extract_lets +onlyGivenNames y4
  clear_value y4
  extract_lets +onlyGivenNames y5
  clear_value y5
  extract_lets +onlyGivenNames y6
  clear_value y6
  apply State.sendPacket_memOk
  exact h0

theorem State.sendTear_memOk (x0 : State) (x1) (x2) (h0 : x0.MemOk) : State.MemOk (State.sendTear x0 x1 x2) := by
  unfold State.sendTear
  extract_lets +onlyGivenNames y1
  refine memOk_have (p := State.MemOk y1) ?_ (fun h2 => ?_)
  · unfold y1
    apply State.sendCtl_memOk
    exact h0
  clear_value y1
  apply State.after_memOk
  apply State.setCircuit_memOk
  exact h2

theorem State.releasedTears_memOk (x0 : State) (x1) (h0 : x0.MemOk) : State.MemOk (State.releasedTears x0 x1) := by
  unfold State.releasedTears
  apply State.each_memOk
  · exact h0
  · intro s1 a2 h3
    apply State.sendTear_memOk
    exact h3

theorem State.loopLight_memOk (x0 : State) (x1) (h0 : x0.MemOk) : State.MemOk (State.loopLight x0 x1) := by
  unfold State.loopLight
  extract_lets +onlyGivenNames y1
  clear_value y1
  refine memOk_ite ?_ ?_
  · exact h0
  · extract_lets +onlyGivenNames y2
    clear_value y2
    refine memOk_ite ?_ ?_
    · apply State.setPort_memOk
      exact h0
    · apply State.setPort_memOk
      exact h0

theorem State.tryHandshake_memOk (x0 : State) (x1) (h0 : x0.MemOk) : State.MemOk (State.tryHandshake x0 x1) := by
  unfold State.tryHandshake
  extract_lets +onlyGivenNames y1
  clear_value y1
  split
  · rename_i z2 z3
    exact h0
  · rename_i z4 z5 z6
    refine memOk_ite ?_ ?_
    · extract_lets +onlyGivenNames y7
      clear_value y7
      apply State.atTime_memOk
      apply State.setPort_memOk
      exact h0
    · exact h0

theorem State.emit_memOk (x0 : State) (x1) (x2) (h0 : x0.MemOk) : State.MemOk (State.emit x0 x1 x2) := by
  unfold State.emit
  extract_lets +onlyGivenNames y1
  clear_value y1
  extract_lets +onlyGivenNames y2
  clear_value y2
  extract_lets +onlyGivenNames y3
  refine memOk_have (p := State.MemOk y3) ?_ (fun h4 => ?_)
  · unfold y3
    apply State.setPort_memOk
    exact h0
  clear_value y3
  extract_lets +onlyGivenNames y5
  refine memOk_have (p := State.MemOk y5) ?_ (fun h6 => ?_)
  · unfold y5
    (refine ⟨?_⟩; dsimp only; refine State.MemOk.wf ?_)
    exact h4
  clear_value y5
  refine memOk_ite ?_ ?_
  · apply State.each_memOk
    · exact h6
    · intro s7 a8 h9
      apply State.after_memOk
      exact h9
  · exact h6

theorem State.sendFlit_memOk (x0 : State) (x1) (x2) (x3) (x4) (x5) (h0 : x0.MemOk) : State.MemOk (State.sendFlit x0 x1 x2 x3 x4 x5) := by
  unfold State.sendFlit
  extract_lets +onlyGivenNames y1
  clear_value y1
  extract_lets +onlyGivenNames y2
  clear_value y2
  apply State.emit_memOk
  apply State.setPort_memOk
  exact h0

theorem State.sendStalled_memOk (x0 : State) (x1) (x2) (h0 : x0.MemOk) : State.MemOk (State.sendStalled x0 x1 x2) := by
  induction x2 generalizing x0 x1 h0
  · unfold State.sendStalled
    exact h0
  · rename_i r0 ih
    unfold State.sendStalled
    extract_lets +onlyGivenNames y1
    clear_value y1
    split
    · rename_i z2 z3
      exact h0
    · rename_i z4 z5 z6 z7
      refine memOk_ite ?_ ?_
      · exact h0
      · extract_lets +onlyGivenNames y8
        refine memOk_have (p := State.MemOk y8) ?_ (fun h9 => ?_)
        · unfold y8
          apply State.setPort_memOk
          exact h0
        clear_value y8
        apply ih
        apply State.sendFlit_memOk
        exact h9

theorem State.sendOwn_memOk (x0 : State) (x1) (x2) (h0 : x0.MemOk) : State.MemOk (State.sendOwn x0 x1 x2) := by
  unfold State.sendOwn
  extract_lets +onlyGivenNames y1
  clear_value y1
  extract_lets +onlyGivenNames y2
  clear_value y2
  apply State.sendStalled_memOk
  apply State.setPort_memOk
  exact h0

theorem State.portMove_memOk (x0 : State) (x1) (h0 : x0.MemOk) : State.MemOk (State.portMove x0 x1) := by
  unfold State.portMove
  extract_lets +onlyGivenNames y1
  clear_value y1
  extract_lets +onlyGivenNames y2
  clear_value y2
  extract_lets +onlyGivenNames y3
  refine memOk_have (p := State.MemOk y3) ?_ (fun h4 => ?_)
  · unfold y3
    apply State.after_memOk
    apply State.setPort_memOk
    exact h0
  clear_value y3
  split
  · rename_i z5 z6
    refine memOk_ite ?_ ?_
    · apply State.after_memOk
      apply State.setPort_memOk
      exact h0
    · exact h0
  · rename_i z7 z8
    refine memOk_ite ?_ ?_
    · exact h4
    · exact h0
  · rename_i z9 z10
    refine memOk_ite ?_ ?_
    · exact h0
    · refine memOk_ite ?_ ?_
      · exact h4
      · refine memOk_ite ?_ ?_
        · apply State.tryHandshake_memOk
          exact h0
        · exact h0
  · rename_i z11 z12 z13 z14
    refine memOk_ite ?_ ?_
    · apply State.after_memOk
      apply State.sendOwn_memOk
      apply State.setPort_memOk
      exact h0
    · exact h0

theorem State.writeCal_memOk (x0 : State) (x1) (h0 : x0.MemOk) : State.MemOk (State.writeCal x0 x1) := by
  unfold State.writeCal
  extract_lets +onlyGivenNames y1
  refine memOk_ite ?_ ?_
  · extract_lets +onlyGivenNames y2
    extract_lets +onlyGivenNames y3
    extract_lets +onlyGivenNames y4
    extract_lets +onlyGivenNames y5
    refine memOk_have (p := State.MemOk y5) ?_ (fun h6 => ?_)
    · unfold y5
      apply State.setPort_memOk
      exact h0
    apply State.releasedTears_memOk
    apply State.after_memOk
    apply State.loopLight_memOk
    apply State.portMove_memOk
    exact h6
  · apply State.setPort_memOk
    exact h0

theorem State.scrub_memOk (x0 : State) (x1) (h0 : x0.MemOk) : State.MemOk (State.scrub x0 x1) := by
  exact ⟨Memory.wf_writes _ _ h0.wf⟩

theorem State.setCluster_memOk (x0 : State) (x1) (x2) (h0 : x0.MemOk) : State.MemOk (State.setCluster x0 x1 x2) := by
  unfold State.setCluster
  (refine ⟨?_⟩; dsimp only; refine State.MemOk.wf ?_)
  exact h0

theorem State.updCluster_memOk (x0 : State) (x1) (x2) (h0 : x0.MemOk) : State.MemOk (State.updCluster x0 x1 x2) := by
  unfold State.updCluster
  apply State.setCluster_memOk
  exact h0

theorem State.freeWords_memOk (x0 : State) (x1) (x2) (h0 : x0.MemOk) : State.MemOk (State.freeWords x0 x1 x2) := by
  unfold State.freeWords
  extract_lets +onlyGivenNames y1
  clear_value y1
  extract_lets +onlyGivenNames y2
  refine memOk_have (p := State.MemOk y2) ?_ (fun h3 => ?_)
  · unfold y2
    apply State.updCore_memOk
    exact h0
  clear_value y2
  apply State.scrub_memOk
  exact h3

theorem State.syncEdges_memOk (x0 : State) (x1) (h0 : x0.MemOk) : State.MemOk (State.syncEdges x0 x1) := by
  unfold State.syncEdges
  apply State.updCluster_memOk
  exact h0

theorem State.retarget_memOk (x0 : State) (x1) (h0 : x0.MemOk) : State.MemOk (State.retarget x0 x1) := by
  unfold State.retarget
  extract_lets +onlyGivenNames y1
  clear_value y1
  extract_lets +onlyGivenNames y2
  clear_value y2
  extract_lets +onlyGivenNames y3
  clear_value y3
  extract_lets +onlyGivenNames y4
  clear_value y4
  refine memOk_ite ?_ ?_
  · apply State.setCluster_memOk
    exact h0
  · refine memOk_ite ?_ ?_
    · apply State.after_memOk
      apply State.setCluster_memOk
      exact h0
    · extract_lets +onlyGivenNames y5
      refine memOk_have (p := State.MemOk y5) ?_ (fun h6 => ?_)
      · unfold y5
        apply State.syncEdges_memOk
        apply State.setCluster_memOk
        exact h0
      clear_value y5
      apply State.after_memOk
      apply State.updCluster_memOk
      exact h6

theorem State.idleCheck_memOk (x0 : State) (x1) (h0 : x0.MemOk) : State.MemOk (State.idleCheck x0 x1) := by
  unfold State.idleCheck
  refine memOk_ite ?_ ?_
  · extract_lets +onlyGivenNames y1
    clear_value y1
    extract_lets +onlyGivenNames y2
    clear_value y2
    apply State.after_memOk
    apply State.after_memOk
    apply State.setCluster_memOk
    exact h0
  · exact h0

theorem State.tryPlace_memOk (x0 : State) (h0 : x0.MemOk) : State.MemOk (State.tryPlace x0) := by
  unfold State.tryPlace
  extract_lets +onlyGivenNames y1
  refine memOk_have (p := State.MemOk y1) ?_ (fun h2 => ?_)
  · unfold y1
    apply State.posts_memOk
    exact h0
  clear_value y1
  apply State.posts_memOk
  exact h2

theorem State.removeBlock_memOk (x0 : State) (x1) (x2) (h0 : x0.MemOk) : State.MemOk (State.removeBlock x0 x1 x2) := by
  unfold State.removeBlock
  split
  · rename_i z1 z2
    exact h0
  · rename_i z3 z4 z5
    extract_lets +onlyGivenNames y6
    clear_value y6
    extract_lets +onlyGivenNames y7
    refine memOk_have (p := State.MemOk y7) ?_ (fun h8 => ?_)
    · unfold y7
      apply State.updCore_memOk
      exact h0
    clear_value y7
    extract_lets +onlyGivenNames y9
    refine memOk_have (p := State.MemOk y9) ?_ (fun h10 => ?_)
    · unfold y9
      apply State.scrub_memOk
      exact h8
    clear_value y9
    extract_lets +onlyGivenNames y11
    refine memOk_have (p := State.MemOk y11) ?_ (fun h12 => ?_)
    · unfold y11
      split
      · rename_i z13 z14 z15
        extract_lets +onlyGivenNames y16
        clear_value y16
        apply State.updCluster_memOk
        exact h10
      · rename_i z17 z18
        exact h10
    clear_value y11
    extract_lets +onlyGivenNames y19
    refine memOk_have (p := State.MemOk y19) ?_ (fun h20 => ?_)
    · unfold y19
      refine memOk_ite ?_ ?_
      · exact h12
      · apply State.freeWords_memOk
        exact h12
    clear_value y19
    extract_lets +onlyGivenNames y21
    refine memOk_have (p := State.MemOk y21) ?_ (fun h22 => ?_)
    · unfold y21
      refine memOk_ite ?_ ?_
      · exact h20
      · apply State.retarget_memOk
        apply State.updCluster_memOk
        exact h20
    clear_value y21
    extract_lets +onlyGivenNames y23
    refine memOk_have (p := State.MemOk y23) ?_ (fun h24 => ?_)
    · unfold y23
      apply State.idleCheck_memOk
      exact h22
    clear_value y23
    extract_lets +onlyGivenNames y25
    refine memOk_have (p := State.MemOk y25) ?_ (fun h26 => ?_)
    · unfold y25
      refine memOk_ite ?_ ?_
      · apply State.post_memOk
        exact h24
      · exact h24
    clear_value y25
    apply State.tryPlace_memOk
    exact h26

theorem State.sendHandshake_memOk (x0 : State) (x1) (h0 : x0.MemOk) : State.MemOk (State.sendHandshake x0 x1) := by
  unfold State.sendHandshake
  refine memOk_ite ?_ ?_
  · exact h0
  · apply State.sendOwn_memOk
    exact h0

theorem State.armVermis_memOk (x0 : State) (x1) (h0 : x0.MemOk) : State.MemOk (State.armVermis x0 x1) := by
  unfold State.armVermis
  extract_lets +onlyGivenNames y1
  clear_value y1
  refine memOk_ite ?_ ?_
  · apply State.after_memOk
    exact h0
  · exact h0

theorem State.writeTarget_memOk (x0 : State) (x1) (x2) (h0 : x0.MemOk) : State.MemOk (State.writeTarget x0 x1 x2) := by
  unfold State.writeTarget
  extract_lets +onlyGivenNames y1
  clear_value y1
  refine memOk_ite ?_ ?_
  · apply State.setPort_memOk
    exact h0
  · refine memOk_ite ?_ ?_
    · apply State.setPort_memOk
      exact h0
    · refine memOk_ite ?_ ?_
      · exact h0
      · extract_lets +onlyGivenNames y2
        refine memOk_have (p := State.MemOk y2) ?_ (fun h3 => ?_)
        · unfold y2
          apply State.portMove_memOk
          apply State.sendHandshake_memOk
          apply State.setPort_memOk
          exact h0
        clear_value y2
        extract_lets +onlyGivenNames y4
        refine memOk_have (p := State.MemOk y4) ?_ (fun h5 => ?_)
        · unfold y4
          apply State.loopLight_memOk
          exact h3
        clear_value y4
        refine memOk_ite ?_ ?_
        · apply State.armVermis_memOk
          exact h5
        · exact h5

theorem State.tearEntry_memOk (x0 : State) (x1) (h0 : x0.MemOk) : State.MemOk (State.tearEntry x0 x1) := by
  unfold State.tearEntry
  extract_lets +onlyGivenNames y1
  clear_value y1
  split
  · rename_i z2 z3
    apply State.sendTear_memOk
    apply State.moveEntry_memOk
    exact h0
  · rename_i z4 z5
    apply State.moveEntry_memOk
    exact h0
  · rename_i z6 z7
    apply State.moveEntry_memOk
    exact h0
  · rename_i z8 z9
    apply State.sendTear_memOk
    apply State.writeTarget_memOk
    apply State.moveEntry_memOk
    exact h0
  · rename_i z10 z11
    apply State.sendTear_memOk
    apply State.writeTarget_memOk
    apply State.circLost_memOk
    apply State.moveEntry_memOk
    exact h0
  · rename_i z12 z13 z14 z15 z16 z17
    exact h0

theorem State.retireInstance_memOk (x0 : State) (x1) (x2) (x3) (h0 : x0.MemOk) : State.MemOk (State.retireInstance x0 x1 x2 x3) := by
  unfold State.retireInstance
  extract_lets +onlyGivenNames y1
  clear_value y1
  apply State.retireStart_memOk
  apply State.setCx_memOk
  exact h0

theorem State.endPart4_memOk (x0 : State) (x1) (x2) (x3) (h0 : x0.MemOk) : State.MemOk (State.endPart4 x0 x1 x2 x3) := by
  unfold State.endPart4
  extract_lets +onlyGivenNames y1
  clear_value y1
  extract_lets +onlyGivenNames y2
  refine memOk_have (p := State.MemOk y2) ?_ (fun h3 => ?_)
  · unfold y2
    refine memOk_ite ?_ ?_
    · split
      · rename_i z4 z5 z6
        apply State.fabricErr_memOk
        exact h0
      · rename_i z7 z8
        exact h0
    · exact h0
  clear_value y2
  apply State.retireInstance_memOk
  exact h3

theorem State.endPart3_memOk (x0 : State) (x1) (x2) (x3) (h0 : x0.MemOk) : State.MemOk (State.endPart3 x0 x1 x2 x3) := by
  unfold State.endPart3
  extract_lets +onlyGivenNames y1
  clear_value y1
  split
  · rename_i z2 z3 z4 z5 z6 z7
    refine memOk_ite ?_ ?_
    · apply State.endPart4_memOk
      exact h0
    · split
      · rename_i z8 z9 z10 z11
        refine memOk_have (p := State.MemOk z10) (pairOk_eq z11 ?_) (fun h12 => ?_)
        · apply State.devUpdate_memOk
          exact h0
        apply State.endPart4_memOk
        exact h12
      · rename_i z13 z14 z15 z16 z17
        refine memOk_have (p := State.MemOk z16) (pairOk_eq z17 ?_) (fun h18 => ?_)
        · apply State.devUpdate_memOk
          exact h0
        refine memOk_ite ?_ ?_
        · apply State.endPart4_memOk
          apply State.fabricErr_memOk
          exact h18
        · split
          rename_i z19 z20 z21 z22
          refine memOk_have (p := State.MemOk z21) (pairOk_eq z22 ?_) (fun h23 => ?_)
          · apply State.memFault_memOk
            exact h18
          apply State.setCx_memOk
          exact h23
  · rename_i z24 z25 z26
    apply State.endPart4_memOk
    exact h0

theorem State.loseWrite_memOk (x0 : State) (x1) (x2) (h0 : x0.MemOk) : State.MemOk (State.loseWrite x0 x1 x2) := by
  unfold State.loseWrite
  extract_lets +onlyGivenNames y1
  clear_value y1
  split
  · rename_i z2 z3 z4 z5 z6 z7 z8 z9 z10
    apply State.endPart3_memOk
    apply State.setCx_memOk
    apply State.fabricErr_memOk
    exact h0
  · rename_i z11 z12 z13 z14 z15 z16 z17 z18 z19 z20 z21
    apply State.endPart4_memOk
    apply State.setCx_memOk
    apply State.fabricErr_memOk
    exact h0
  · rename_i z22 z23 z24 z25 z26
    exact h0

theorem State.endInstance_memOk (x0 : State) (x1) (x2) (x3) (h0 : x0.MemOk) : State.MemOk (State.endInstance x0 x1 x2 x3) := by
  unfold State.endInstance
  extract_lets +onlyGivenNames y1
  clear_value y1
  extract_lets +onlyGivenNames y2
  clear_value y2
  extract_lets +onlyGivenNames y3
  refine memOk_have (p := State.MemOk y3) ?_ (fun h4 => ?_)
  · unfold y3
    apply State.setCx_memOk
    exact h0
  clear_value y3
  split
  · rename_i z5 z6 z7 z8 z9 z10
    split
    · rename_i z11 z12 z13 z14
      refine memOk_have (p := State.MemOk z13) (pairOk_eq z14 ?_) (fun h15 => ?_)
      · apply State.devWrite_memOk
        exact h4
      apply State.endPart3_memOk
      exact h15
    · rename_i z16 z17 z18 z19 z20
      refine memOk_have (p := State.MemOk z19) (pairOk_eq z20 ?_) (fun h21 => ?_)
      · apply State.devWrite_memOk
        exact h4
      refine memOk_ite ?_ ?_
      · apply State.endPart3_memOk
        apply State.fabricErr_memOk
        exact h21
      · split
        rename_i z22 z23 z24 z25
        refine memOk_have (p := State.MemOk z24) (pairOk_eq z25 ?_) (fun h26 => ?_)
        · apply State.memFault_memOk
          exact h21
        apply State.setCx_memOk
        exact h26
  · rename_i z27 z28 z29
    apply State.endPart4_memOk
    exact h4

theorem State.stopInstance_memOk (x0 : State) (x1) (h0 : x0.MemOk) : State.MemOk (State.stopInstance x0 x1) := by
  unfold State.stopInstance
  refine memOk_ite ?_ ?_
  · apply State.loseWrite_memOk
    exact h0
  · apply State.endInstance_memOk
    exact h0

theorem State.invalidate_memOk (x0 : State) (x1) (x2) (x3) (h0 : x0.MemOk) : State.MemOk (State.invalidate x0 x1 x2 x3) := by
  unfold State.invalidate
  (refine ⟨?_⟩; dsimp only; refine State.MemOk.wf ?_)
  exact h0

theorem State.abortRecords_memOk (x0 : State) (x1) (x2) (h0 : x0.MemOk) : State.MemOk (State.abortRecords x0 x1 x2) := by
  unfold State.abortRecords
  apply State.each_memOk
  · exact h0
  · intro s1 a2 h3
    apply State.each_memOk
    · exact h3
    · intro s4 a5 h6
      apply State.complete_memOk
      exact h6

theorem State.resetCtx_memOk (x0 : State) (x1) (x2) (h0 : x0.MemOk) : State.MemOk (State.resetCtx x0 x1 x2) := by
  unfold State.resetCtx
  extract_lets +onlyGivenNames y1
  clear_value y1
  extract_lets +onlyGivenNames y2
  clear_value y2
  extract_lets +onlyGivenNames y3
  clear_value y3
  extract_lets +onlyGivenNames y4
  refine memOk_have (p := State.MemOk y4) ?_ (fun h5 => ?_)
  · unfold y4
    (refine ⟨?_⟩; dsimp only; refine State.MemOk.wf ?_)
    exact h0
  clear_value y4
  extract_lets +onlyGivenNames y6
  refine memOk_have (p := State.MemOk y6) ?_ (fun h7 => ?_)
  · unfold y6
    apply State.each_memOk
    · exact h5
    · intro s8 a9 h10
      extract_lets +onlyGivenNames y11
      refine memOk_have (p := State.MemOk y11) ?_ (fun h12 => ?_)
      · unfold y11
        refine memOk_ite ?_ ?_
        · apply State.post_memOk
          exact h10
        · exact h10
      clear_value y11
      extract_lets +onlyGivenNames y13
      refine memOk_have (p := State.MemOk y13) ?_ (fun h14 => ?_)
      · unfold y13
        apply State.updCore_memOk
        exact h12
      clear_value y13
      apply State.each_memOk
      · exact h14
      · intro s15 a16 h17
        apply State.removeBlock_memOk
        exact h17
  clear_value y6
  extract_lets +onlyGivenNames y18
  refine memOk_have (p := State.MemOk y18) ?_ (fun h19 => ?_)
  · unfold y18
    (refine ⟨?_⟩; dsimp only; refine State.MemOk.wf ?_)
    exact h7
  clear_value y18
  extract_lets +onlyGivenNames y20
  refine memOk_have (p := State.MemOk y20) ?_ (fun h21 => ?_)
  · unfold y20
    apply State.each_memOk
    · exact h19
    · intro s22 a23 h24
      apply State.tearEntry_memOk
      exact h24
  clear_value y20
  extract_lets +onlyGivenNames y25
  refine memOk_have (p := State.MemOk y25) ?_ (fun h26 => ?_)
  · unfold y25
    apply State.each_memOk
    · exact h21
    · intro s27 a28 h29
      apply State.stopInstance_memOk
      exact h29
  clear_value y25
  extract_lets +onlyGivenNames y30
  clear_value y30
  extract_lets +onlyGivenNames y31
  refine memOk_have (p := State.MemOk y31) ?_ (fun h32 => ?_)
  · unfold y31
    apply State.posts_memOk
    refine memOk_foldl (fun s33 a34 h35 => ?_) _ _ ?_
    · apply State.setPort_memOk
      exact h35
    · exact h26
  clear_value y31
  extract_lets +onlyGivenNames y36
  refine memOk_have (p := State.MemOk y36) ?_ (fun h37 => ?_)
  · unfold y36
    (refine ⟨?_⟩; dsimp only; refine State.MemOk.wf ?_)
    exact h32
  clear_value y36
  extract_lets +onlyGivenNames y38
  refine memOk_have (p := State.MemOk y38) ?_ (fun h39 => ?_)
  · unfold y38
    apply State.invalidate_memOk
    exact h37
  clear_value y38
  extract_lets +onlyGivenNames y40
  refine memOk_have (p := State.MemOk y40) ?_ (fun h41 => ?_)
  · unfold y40
    apply State.updCtx_memOk
    exact h39
  clear_value y40
  apply State.abortRecords_memOk
  exact h41

theorem State.ctxFault_memOk (x0 : State) (x1) (x2) (h0 : x0.MemOk) : State.MemOk (State.ctxFault x0 x1 x2) := by
  unfold State.ctxFault
  split
  rename_i z1 z2 z3 z4
  refine memOk_have (p := State.MemOk z3) (pairOk_eq z4 ?_) (fun h5 => ?_)
  · apply State.newRecord_memOk
    exact h0
  extract_lets +onlyGivenNames y6
  clear_value y6
  extract_lets +onlyGivenNames y7
  refine memOk_have (p := State.MemOk y7) ?_ (fun h8 => ?_)
  · unfold y7
    refine memOk_ite ?_ ?_
    · apply State.keepError_memOk
      exact h5
    · split
      · rename_i z9 z10 z11
        refine memOk_have (p := State.MemOk z10) (pairOk_eq z11 ?_) (fun h12 => ?_)
        · apply State.fqWrite_memOk
          exact h5
        exact h12
      · rename_i z13 z14 z15
        refine memOk_have (p := State.MemOk z14) (pairOk_eq z15 ?_) (fun h16 => ?_)
        · apply State.fqWrite_memOk
          exact h5
        apply State.dropRecord_memOk
        apply State.keepError_memOk
        exact h16
      · rename_i z17 z18 z19
        refine memOk_have (p := State.MemOk z18) (pairOk_eq z19 ?_) (fun h20 => ?_)
        · apply State.fqWrite_memOk
          exact h5
        apply State.keepError_memOk
        exact h20
  clear_value y7
  split
  · rename_i z21 z22
    refine memOk_ite ?_ ?_
    · apply State.note_memOk
      exact h8
    · exact h8
  · rename_i z23
    exact h8

theorem State.logEntry_memOk (x0 : State) (x1) (x2) (x3) (h0 : x0.MemOk) : State.MemOk (State.logEntry x0 x1 x2 x3) := by
  unfold State.logEntry
  extract_lets +onlyGivenNames y1
  clear_value y1
  extract_lets +onlyGivenNames y2
  clear_value y2
  (refine ⟨?_⟩; dsimp only; refine State.MemOk.wf ?_)
  exact h0

theorem State.dropCtx_memOk (x0 : State) (x1) (h0 : x0.MemOk) : State.MemOk (State.dropCtx x0 x1) := by
  unfold State.dropCtx
  split
  · rename_i z1 z2
    exact h0
  · rename_i z3 z4 z5
    extract_lets +onlyGivenNames y6
    clear_value y6
    extract_lets +onlyGivenNames y7
    clear_value y7
    extract_lets +onlyGivenNames y8
    refine memOk_have (p := State.MemOk y8) ?_ (fun h9 => ?_)
    · unfold y8
      (refine ⟨?_⟩; dsimp only; refine State.MemOk.wf ?_)
      exact h0
    clear_value y8
    extract_lets +onlyGivenNames y10
    clear_value y10
    extract_lets +onlyGivenNames y11
    refine memOk_have (p := State.MemOk y11) ?_ (fun h12 => ?_)
    · unfold y11
      apply State.each_memOk
      · exact h9
      · intro s13 a14 h15
        extract_lets +onlyGivenNames y16
        clear_value y16
        extract_lets +onlyGivenNames y17
        refine memOk_have (p := State.MemOk y17) ?_ (fun h18 => ?_)
        · unfold y17
          apply State.each_memOk
          · exact h15
          · intro s19 a20 h21
            apply State.sendCpl_memOk
            exact h21
        clear_value y17
        refine memOk_ite ?_ ?_
        · (refine ⟨?_⟩; dsimp only; refine State.MemOk.wf ?_)
          exact h18
        · apply State.setStream_memOk
          exact h18
    clear_value y11
    (refine ⟨?_⟩; dsimp only; refine State.MemOk.wf ?_)
    exact h12

theorem State.fatalCtx_memOk (x0 : State) (x1) (x2) (x3) (h0 : x0.MemOk) : State.MemOk (State.fatalCtx x0 x1 x2 x3) := by
  unfold State.fatalCtx
  refine memOk_ite ?_ ?_
  · exact h0
  · extract_lets +onlyGivenNames y1
    refine memOk_have (p := State.MemOk y1) ?_ (fun h2 => ?_)
    · unfold y1
      apply State.updCtx_memOk
      exact h0
    clear_value y1
    extract_lets +onlyGivenNames y3
    refine memOk_have (p := State.MemOk y3) ?_ (fun h4 => ?_)
    · unfold y3
      apply State.resetCtx_memOk
      exact h2
    clear_value y3
    extract_lets +onlyGivenNames y5
    refine memOk_have (p := State.MemOk y5) ?_ (fun h6 => ?_)
    · unfold y5
      refine memOk_ite ?_ ?_
      · apply State.ctxFault_memOk
        exact h4
      · exact h4
    clear_value y5
    extract_lets +onlyGivenNames y7
    refine memOk_have (p := State.MemOk y7) ?_ (fun h8 => ?_)
    · unfold y7
      apply State.logEntry_memOk
      exact h6
    clear_value y7
    apply State.dropCtx_memOk
    exact h8

theorem State.compact_memOk (x0 : State) (x1) (x2) (x3) (x4) (h0 : x0.MemOk) : State.MemOk (State.compact x0 x1 x2 x3 x4) := by
  unfold State.compact
  extract_lets +onlyGivenNames y1
  clear_value y1
  extract_lets +onlyGivenNames y2
  clear_value y2
  split
  · rename_i z3 z4 z5
    extract_lets +onlyGivenNames y6
    clear_value y6
    extract_lets +onlyGivenNames y7
    refine memOk_have (p := State.MemOk y7) ?_ (fun h8 => ?_)
    · unfold y7
      apply State.setCore_memOk
      exact h0
    clear_value y7
    refine memOk_ite ?_ ?_
    · apply State.post_memOk
      exact h8
    · exact h8
  · rename_i z9 z10
    extract_lets +onlyGivenNames y11
    refine memOk_have (p := State.MemOk y11) ?_ (fun h12 => ?_)
    · unfold y11
      apply State.setCore_memOk
      exact h0
    clear_value y11
    extract_lets +onlyGivenNames y13
    refine memOk_have (p := State.MemOk y13) ?_ (fun h14 => ?_)
    · unfold y13
      apply State.after_memOk
      exact h12
    clear_value y13
    refine memOk_ite ?_ ?_
    · apply State.post_memOk
      exact h14
    · exact h14

theorem State.scalarTrap_memOk (x0 : State) (x1) (x2) (x3) (x4) (h0 : x0.MemOk) : State.MemOk (State.scalarTrap x0 x1 x2 x3 x4) := by
  unfold State.scalarTrap
  split
  · rename_i z1 z2
    exact h0
  · rename_i z3 z4 z5
    split
    · rename_i z6 z7
      exact h0
    · rename_i z8 z9 z10
      refine memOk_ite ?_ ?_
      · apply State.setWave_memOk
        exact h0
      · refine memOk_ite ?_ ?_
        · apply State.fatalCtx_memOk
          exact h0
        · extract_lets +onlyGivenNames y11
          clear_value y11
          extract_lets +onlyGivenNames y12
          clear_value y12
          extract_lets +onlyGivenNames y13
          refine memOk_have (p := State.MemOk y13) ?_ (fun h14 => ?_)
          · unfold y13
            apply State.setWave_memOk
            exact h0
          clear_value y13
          apply State.compact_memOk
          exact h14

theorem State.linkRefuse_memOk (x0 : State) (x1) (h0 : x0.MemOk) : State.MemOk (State.linkRefuse x0 x1) := by
  unfold State.linkRefuse
  extract_lets +onlyGivenNames y1
  clear_value y1
  extract_lets +onlyGivenNames y2
  refine memOk_have (p := State.MemOk y2) ?_ (fun h3 => ?_)
  · unfold y2
    apply State.setLink_memOk
    exact h0
  clear_value y2
  apply State.control_memOk
  exact h3

theorem State.receive_memOk (x0 : State) (x1) (x2) (x3) (x4) (x5) (h0 : x0.MemOk) : PairOk (State.receive x0 x1 x2 x3 x4 x5) := by
  unfold State.receive
  extract_lets +onlyGivenNames y1
  clear_value y1
  refine pairOk_ite ?_ ?_
  · refine pairOk_mk ?_
    exact h0
  · refine pairOk_ite ?_ ?_
    · refine pairOk_mk ?_
      apply State.linkRefuse_memOk
      exact h0
    · extract_lets +onlyGivenNames y2
      refine memOk_have (p := State.MemOk y2) ?_ (fun h3 => ?_)
      · unfold y2
        apply State.freed_memOk
        apply State.took_memOk
        exact h0
      clear_value y2
      refine pairOk_ite ?_ ?_
      · refine pairOk_mk ?_
        exact h3
      · refine pairOk_ite ?_ ?_
        · refine pairOk_mk ?_
          apply State.received_memOk
          exact h0
        · refine pairOk_ite ?_ ?_
          · refine pairOk_mk ?_
            apply State.epDrop_memOk
            exact h3
          · refine pairOk_mk ?_
            exact h0

theorem State.armSlot_memOk (x0 : State) (x1) (h0 : x0.MemOk) : State.MemOk (State.armSlot x0 x1) := by
  unfold State.armSlot
  extract_lets +onlyGivenNames y1
  clear_value y1
  refine memOk_ite ?_ ?_
  · exact h0
  · extract_lets +onlyGivenNames y2
    clear_value y2
    extract_lets +onlyGivenNames y3
    clear_value y3
    extract_lets +onlyGivenNames y4
    clear_value y4
    extract_lets +onlyGivenNames y5
    clear_value y5
    apply State.atTime_memOk
    apply State.atTime_memOk
    exact h0

theorem State.takeFree_memOk (x0 : State) (h0 : x0.MemOk) : PairOk (State.takeFree x0) := by
  unfold State.takeFree
  refine pairOk_mk ?_
  (refine ⟨?_⟩; dsimp only; refine State.MemOk.wf ?_)
  exact h0

theorem State.backOff_memOk (x0 : State) (x1) (x2) (h0 : x0.MemOk) : State.MemOk (State.backOff x0 x1 x2) := by
  unfold State.backOff
  extract_lets +onlyGivenNames y1
  clear_value y1
  refine memOk_ite ?_ ?_
  · split
    rename_i z2 z3 z4 z5
    refine memOk_have (p := State.MemOk z4) (pairOk_eq z5 ?_) (fun h6 => ?_)
    · apply State.takeFree_memOk
      exact h0
    extract_lets +onlyGivenNames y7
    clear_value y7
    apply State.after_memOk
    apply State.moveEntry_memOk
    exact h6
  · apply State.moveEntry_memOk
    exact h0

theorem State.sendNack_memOk (x0 : State) (x1) (x2) (x3) (x4) (h0 : x0.MemOk) : State.MemOk (State.sendNack x0 x1 x2 x3 x4) := by
  unfold State.sendNack
  apply State.sendPacket_memOk
  exact h0

theorem State.twrite_memOk (x0 : State) (x1) (x2) (h0 : x0.MemOk) : State.MemOk (State.twrite x0 x1 x2) := by
  unfold State.twrite
  split
  · rename_i z1 z2
    apply State.store_memOk
    exact h0
  · rename_i z3 z4 z5 z6 z7
    split
    · rename_i z8 z9
      exact h0
    · rename_i z10 z11 z12
      extract_lets +onlyGivenNames y13
      clear_value y13
      apply State.updCtx_memOk
      exact h0

theorem State.tcount_memOk (x0 : State) (x1) (x2) (h0 : x0.MemOk) : State.MemOk (State.tcount x0 x1 x2) := by
  unfold State.tcount
  apply State.twrite_memOk
  exact h0

theorem State.failEntry_memOk (x0 : State) (x1) (x2) (x3) (h0 : x0.MemOk) : State.MemOk (State.failEntry x0 x1 x2 x3) := by
  unfold State.failEntry
  extract_lets +onlyGivenNames y1
  clear_value y1
  extract_lets +onlyGivenNames y2
  refine memOk_have (p := State.MemOk y2) ?_ (fun h3 => ?_)
  · unfold y2
    apply State.moveEntry_memOk
    exact h0
  clear_value y2
  refine memOk_ite ?_ ?_
  · apply State.sendCtl_memOk
    exact h3
  · exact h3

theorem State.gEventAll_memOk (x0 : State) (x1) (x2) (h0 : x0.MemOk) : State.MemOk (State.gEventAll x0 x1 x2) := by
  unfold State.gEventAll
  apply State.each_memOk
  · exact h0
  · intro s1 a2 h3
    apply State.gEvent_memOk
    exact h3

theorem State.advance_memOk (x0 : State) (x1) (h0 : x0.MemOk) : State.MemOk (State.advance x0 x1) := by
  unfold State.advance
  extract_lets +onlyGivenNames y1
  clear_value y1
  extract_lets +onlyGivenNames y2
  clear_value y2
  (refine ⟨?_⟩; dsimp only; refine State.MemOk.wf ?_)
  exact h0

theorem State.count_memOk (x0 : State) (x1) (x2) (h0 : x0.MemOk) : State.MemOk (State.count x0 x1 x2) := by
  unfold State.count
  (refine ⟨?_⟩; dsimp only; refine State.MemOk.wf ?_)
  exact h0

theorem State.enterSlot_memOk (x0 : State) (x1) (h0 : x0.MemOk) : State.MemOk (State.enterSlot x0 x1) := by
  unfold State.enterSlot
  extract_lets +onlyGivenNames y1
  clear_value y1
  split
  · rename_i z2 z3 z4
    refine memOk_ite ?_ ?_
    · exact h0
    · extract_lets +onlyGivenNames y5
      clear_value y5
      apply State.atTime_memOk
      apply State.setCircuit_memOk
      exact h0
  · rename_i z6 z7
    exact h0

theorem State.armAck_memOk (x0 : State) (x1) (h0 : x0.MemOk) : State.MemOk (State.armAck x0 x1) := by
  unfold State.armAck
  extract_lets +onlyGivenNames y1
  clear_value y1
  refine memOk_ite ?_ ?_
  · exact h0
  · apply State.after_memOk
    exact h0

theorem State.flitLost_memOk (x0 : State) (x1) (h0 : x0.MemOk) : State.MemOk (State.flitLost x0 x1) := by
  unfold State.flitLost
  extract_lets +onlyGivenNames y1
  clear_value y1
  split
  · rename_i z2 z3
    exact h0
  · rename_i z4 z5 z6
    apply State.updAsync_memOk
    exact h0
  · rename_i z7 z8 z9 z10 z11 z12
    extract_lets +onlyGivenNames y13
    clear_value y13
    extract_lets +onlyGivenNames y14
    clear_value y14
    refine memOk_ite ?_ ?_
    · exact h0
    · refine memOk_ite ?_ ?_
      · extract_lets +onlyGivenNames y15
        clear_value y15
        apply State.setCx_memOk
        exact h0
      · extract_lets +onlyGivenNames y16
        clear_value y16
        extract_lets +onlyGivenNames y17
        clear_value y17
        extract_lets +onlyGivenNames y18
        clear_value y18
        apply State.setCx_memOk
        exact h0

theorem State.loseFlits_memOk (x0 : State) (x1) (x2) (h0 : x0.MemOk) : State.MemOk (State.loseFlits x0 x1 x2) := by
  unfold State.loseFlits
  extract_lets +onlyGivenNames y1
  clear_value y1
  extract_lets +onlyGivenNames y2
  clear_value y2
  extract_lets +onlyGivenNames y3
  refine memOk_have (p := State.MemOk y3) ?_ (fun h4 => ?_)
  · unfold y3
    apply State.setPort_memOk
    exact h0
  clear_value y3
  apply State.each_memOk
  · exact h4
  · intro s5 a6 h7
    apply State.flitLost_memOk
    exact h7

theorem State.portFailed_memOk (x0 : State) (x1) (x2) (h0 : x0.MemOk) : State.MemOk (State.portFailed x0 x1 x2) := by
  unfold State.portFailed
  split
  · rename_i z1 z2
    exact h0
  · rename_i z3 z4 z5
    refine memOk_ite ?_ ?_
    · apply State.failEntry_memOk
      exact h0
    · exact h0

theorem State.drainOver_memOk (x0 : State) (x1) (h0 : x0.MemOk) : State.MemOk (State.drainOver x0 x1) := by
  unfold State.drainOver
  apply State.releasedTears_memOk
  apply State.each_memOk
  · exact h0
  · intro s1 a2 h3
    apply State.setCircuit_memOk
    exact h3

theorem State.sendAckOnly_memOk (x0 : State) (x1) (h0 : x0.MemOk) : State.MemOk (State.sendAckOnly x0 x1) := by
  unfold State.sendAckOnly
  apply State.emit_memOk
  exact h0

theorem State.flitAcked_memOk (x0 : State) (x1) (h0 : x0.MemOk) : State.MemOk (State.flitAcked x0 x1) := by
  unfold State.flitAcked
  extract_lets +onlyGivenNames y1
  clear_value y1
  split
  · rename_i z2 z3
    exact h0
  · rename_i z4 z5 z6
    extract_lets +onlyGivenNames y7
    refine memOk_have (p := State.MemOk y7) ?_ (fun h8 => ?_)
    · unfold y7
      apply State.updAsync_memOk
      exact h0
    clear_value y7
    split
    · rename_i z9 z10 z11
      refine memOk_ite ?_ ?_
      · split
        rename_i z12 z13 z14 z15
        refine memOk_have (p := State.MemOk z14) (pairOk_eq z15 ?_) (fun h16 => ?_)
        · apply State.takeFree_memOk
          exact h8
        extract_lets +onlyGivenNames y17
        clear_value y17
        apply State.after_memOk
        apply State.updAsync_memOk
        exact h16
      · exact h8
    · rename_i z18 z19
      exact h8
  · rename_i z20 z21 z22 z23 z24 z25
    extract_lets +onlyGivenNames y26
    clear_value y26
    extract_lets +onlyGivenNames y27
    clear_value y27
    refine memOk_ite ?_ ?_
    · exact h0
    · extract_lets +onlyGivenNames y28
      clear_value y28
      extract_lets +onlyGivenNames y29
      clear_value y29
      extract_lets +onlyGivenNames y30
      clear_value y30
      extract_lets +onlyGivenNames y31
      clear_value y31
      split
      rename_i z32 z33 z34 z35
      refine memOk_have (p := State.MemOk z34) (pairOk_eq z35 ?_) (fun h36 => ?_)
      · apply State.takeFree_memOk
        exact h0
      extract_lets +onlyGivenNames y37
      clear_value y37
      extract_lets +onlyGivenNames y38
      clear_value y38
      extract_lets +onlyGivenNames y39
      clear_value y39
      extract_lets +onlyGivenNames y40
      refine memOk_have (p := State.MemOk y40) ?_ (fun h41 => ?_)
      · unfold y40
        apply State.setCx_memOk
        exact h36
      clear_value y40
      apply State.each_memOk
      · exact h41
      · intro s42 a43 h44
        apply State.after_memOk
        exact h44

theorem State.nextPseq_memOk (x0 : State) (h0 : x0.MemOk) : PairOk (State.nextPseq x0) := by
  unfold State.nextPseq
  refine pairOk_mk ?_
  (refine ⟨?_⟩; dsimp only; refine State.MemOk.wf ?_)
  exact h0

theorem State.writeGrp_memOk (x0 : State) (x1) (x2) (h0 : x0.MemOk) : State.MemOk (State.writeGrp x0 x1 x2) := by
  unfold State.writeGrp
  extract_lets +onlyGivenNames y1
  clear_value y1
  refine memOk_ite ?_ ?_
  · exact h0
  · refine memOk_ite ?_ ?_
    · apply State.setPort_memOk
      exact h0
    · refine memOk_ite ?_ ?_
      · apply State.portMove_memOk
        apply State.setPort_memOk
        exact h0
      · refine memOk_ite ?_ ?_
        · apply State.setPort_memOk
          exact h0
        · apply State.setPort_memOk
          exact h0

theorem State.sendRsv_memOk (x0 : State) (x1) (h0 : x0.MemOk) : State.MemOk (State.sendRsv x0 x1) := by
  unfold State.sendRsv
  extract_lets +onlyGivenNames y1
  clear_value y1
  extract_lets +onlyGivenNames y2
  refine memOk_have (p := State.MemOk y2) ?_ (fun h3 => ?_)
  · unfold y2
    apply State.moveEntry_memOk
    exact h0
  clear_value y2
  apply State.after_memOk
  apply State.sendCtl_memOk
  exact h3

theorem State.cacheCode_memOk (x0 : State) (x1) (x2) (x3) (h0 : x0.MemOk) : State.MemOk (State.cacheCode x0 x1 x2 x3) := by
  unfold State.cacheCode
  apply State.each_memOk
  · exact h0
  · intro s1 a2 h3
    apply State.updCtx_memOk
    exact h3

theorem State.fetchCode_memOk (x0 : State) (x1) (x2) (x3) (h0 : x0.MemOk) : PairOk (State.fetchCode x0 x1 x2 x3) := by
  unfold State.fetchCode
  extract_lets +onlyGivenNames y1
  refine memOk_have (p := State.MemOk y1) ?_ (fun h2 => ?_)
  · unfold y1
    apply State.cacheCode_memOk
    exact h0
  clear_value y1
  split
  · rename_i z3 z4 z5
    refine pairOk_mk ?_
    exact h2
  · rename_i z6 z7
    refine pairOk_mk ?_
    exact h2

theorem State.laneTrap_memOk (x0 : State) (x1) (x2) (x3) (x4) (x5) (x6) (x7) (x8) (h0 : x0.MemOk) : State.MemOk (State.laneTrap x0 x1 x2 x3 x4 x5 x6 x7 x8) := by
  unfold State.laneTrap
  split
  · rename_i z1 z2
    exact h0
  · rename_i z3 z4 z5
    split
    · rename_i z6 z7
      exact h0
    · rename_i z8 z9 z10
      refine memOk_ite ?_ ?_
      · apply State.setWave_memOk
        exact h0
      · refine memOk_ite ?_ ?_
        · apply State.fatalCtx_memOk
          exact h0
        · extract_lets +onlyGivenNames y11
          clear_value y11
          extract_lets +onlyGivenNames y12
          clear_value y12
          extract_lets +onlyGivenNames y13
          clear_value y13
          split
          rename_i z14 z15 z16 z17
          extract_lets +onlyGivenNames y18
          clear_value y18
          extract_lets +onlyGivenNames y19
          clear_value y19
          extract_lets +onlyGivenNames y20
          clear_value y20
          extract_lets +onlyGivenNames y21
          clear_value y21
          extract_lets +onlyGivenNames y22
          clear_value y22
          extract_lets +onlyGivenNames y23
          clear_value y23
          extract_lets +onlyGivenNames y24
          refine memOk_have (p := State.MemOk y24) ?_ (fun h25 => ?_)
          · unfold y24
            apply State.setWave_memOk
            exact h0
          clear_value y24
          apply State.compact_memOk
          exact h25

theorem State.reissue_memOk (x0 : State) (x1) (x2) (x3) (h0 : x0.MemOk) : State.MemOk (State.reissue x0 x1 x2 x3) := by
  unfold State.reissue
  refine memOk_ite (State.after_memOk _ _ _ h0) ?_
  split
  rename_i he
  refine State.post_memOk _ _ (State.updWave_memOk _ _ _ (pairOk_eq he (pairOk_foldl (fun acc p hacc => ?_) _ _ ⟨h0⟩)))
  exact pairOk_ite ⟨State.resolvePart_memOk _ _ _ _ _ _ hacc.snd⟩ ⟨hacc.snd⟩

theorem State.claimGo_memOk (x0 : State) (x1) (x2) (x3) (x4) (h0 : x0.MemOk) : State.MemOk (State.claimGo x0 x1 x2 x3 x4) := by
  induction x4 generalizing x0 x1 x2 x3 h0
  · unfold State.claimGo
    exact h0
  · rename_i r0 ih
    unfold State.claimGo
    refine memOk_ite ?_ ?_
    · exact h0
    · extract_lets +onlyGivenNames y1
      clear_value y1
      extract_lets +onlyGivenNames y2
      clear_value y2
      split
      · rename_i z3 z4 z5
        apply ih
        apply State.updWave_memOk
        exact h0
      · rename_i z6 z7
        exact h0

theorem State.claim_memOk (x0 : State) (x1) (x2) (x3) (h0 : x0.MemOk) : State.MemOk (State.claim x0 x1 x2 x3) := by
  unfold State.claim
  refine memOk_ite ?_ ?_
  · apply State.claimGo_memOk
    exact h0
  · exact h0

theorem State.l1Forget_memOk (x0 : State) (x1) (x2) (x3) (h0 : x0.MemOk) : State.MemOk (State.l1Forget x0 x1 x2 x3) := by
  unfold State.l1Forget
  apply State.updCore_memOk
  exact h0

theorem State.txnParts_memOk (x0 : State) (x1) (x2) (x3) (x4) (h0 : x0.MemOk) : PairOk (State.txnParts x0 x1 x2 x3 x4) := by
  unfold State.txnParts
  extract_lets +onlyGivenNames y1
  refine memOk_have (p := State.MemOk y1) ?_ (fun h2 => ?_)
  · unfold y1
    refine memOk_ite ?_ ?_
    · apply State.claim_memOk
      exact h0
    · exact h0
  clear_value y1
  extract_lets +onlyGivenNames y3
  clear_value y3
  split
  · rename_i z4 z5
    refine pairOk_mk ?_
    apply State.setWave_memOk
    exact h2
  · rename_i z6 z7 z8 z9
    extract_lets +onlyGivenNames y10
    refine memOk_have (p := State.MemOk y10) ?_ (fun h11 => ?_)
    · unfold y10
      apply State.l1Forget_memOk
      exact h2
    clear_value y10
    extract_lets +onlyGivenNames y12
    clear_value y12
    refine pairOk_mk ?_
    apply State.setWave_memOk
    exact h11

theorem State.wakeOps_memOk (x0 : State) (x1) (h0 : x0.MemOk) : State.MemOk (State.wakeOps x0 x1) := by
  unfold State.wakeOps
  split
  · rename_i z1 z2 z3
    apply State.posts_memOk
    exact h0
  · rename_i z4 z5
    exact h0

theorem State.finishOp_memOk (x0 : State) (x1) (x2) (h0 : x0.MemOk) : State.MemOk (State.finishOp x0 x1 x2) := by
  unfold State.finishOp
  apply State.wakeOps_memOk
  apply State.updWave_memOk
  exact h0

theorem State.storeHome_memOk (x0 : State) (x1) (x2) (x3) (h0 : x0.MemOk) : State.MemOk (State.storeHome x0 x1 x2 x3) := by
  unfold State.storeHome
  extract_lets +onlyGivenNames y1
  refine memOk_have (p := State.MemOk y1) ?_ (fun h2 => ?_)
  · unfold y1
    apply State.each_memOk
    · exact h0
    · intro s3 a4 h5
      apply State.drainLine_memOk
      exact h5
  clear_value y1
  apply State.store_memOk
  apply State.updCore_memOk
  exact h2

theorem State.combine_memOk (x0 : State) (x1) (x2) (x3) (x4) (h0 : x0.MemOk) : State.MemOk (State.combine x0 x1 x2 x3 x4) := by
  unfold State.combine
  extract_lets +onlyGivenNames y1
  clear_value y1
  extract_lets +onlyGivenNames y2
  clear_value y2
  split
  · rename_i z3 z4 z5
    extract_lets +onlyGivenNames y6
    clear_value y6
    extract_lets +onlyGivenNames y7
    refine memOk_have (p := State.MemOk y7) ?_ (fun h8 => ?_)
    · unfold y7
      apply State.setCore_memOk
      exact h0
    clear_value y7
    refine memOk_ite ?_ ?_
    · apply State.drainLine_memOk
      exact h8
    · exact h8
  · rename_i z9 z10
    extract_lets +onlyGivenNames y11
    refine memOk_have (p := State.MemOk y11) ?_ (fun h12 => ?_)
    · unfold y11
      apply State.drainLine_memOk
      apply State.setCore_memOk
      exact h0
    clear_value y11
    extract_lets +onlyGivenNames y13
    refine memOk_have (p := State.MemOk y13) ?_ (fun h14 => ?_)
    · unfold y13
      refine memOk_ite ?_ ?_
      · split
        · rename_i z15 z16 z17 z18
          apply State.drainLine_memOk
          exact h12
        · rename_i z19 z20
          exact h12
      · exact h12
    clear_value y13
    extract_lets +onlyGivenNames y21
    refine memOk_have (p := State.MemOk y21) ?_ (fun h22 => ?_)
    · unfold y21
      apply State.updCore_memOk
      exact h14
    clear_value y21
    extract_lets +onlyGivenNames y23
    refine memOk_have (p := State.MemOk y23) ?_ (fun h24 => ?_)
    · unfold y23
      apply State.after_memOk
      exact h22
    clear_value y23
    refine memOk_ite ?_ ?_
    · apply State.drainLine_memOk
      exact h24
    · exact h24

theorem State.storeCore_memOk (x0 : State) (x1) (x2) (x3) (h0 : x0.MemOk) : State.MemOk (State.storeCore x0 x1 x2 x3) := by
  unfold State.storeCore
  extract_lets +onlyGivenNames y1
  clear_value y1
  extract_lets +onlyGivenNames y2
  clear_value y2
  extract_lets +onlyGivenNames y3
  refine memOk_have (p := State.MemOk y3) ?_ (fun h4 => ?_)
  · unfold y3
    apply State.store_memOk
    exact h0
  clear_value y3
  apply State.each_memOk
  · exact h4
  · intro s5 a6 h7
    apply State.combine_memOk
    exact h7

theorem State.performAtomic_memOk (x0 : State) (x1) (x2) (x3) (h0 : x0.MemOk) : State.MemOk (State.performAtomic x0 x1 x2 x3) := by
  unfold State.performAtomic
  split
  · rename_i z1 z2
    exact h0
  · rename_i z3 z4 z5
    extract_lets +onlyGivenNames y6
    refine memOk_have (p := State.MemOk y6) ?_ (fun h7 => ?_)
    · unfold y6
      apply State.each_memOk
      · exact h0
      · intro s8 a9 h10
        apply State.drainLine_memOk
        exact h10
    clear_value y6
    extract_lets +onlyGivenNames y11
    refine memOk_have (p := State.MemOk y11) ?_ (fun h12 => ?_)
    · unfold y11
      apply State.l1Forget_memOk
      exact h7
    clear_value y11
    extract_lets +onlyGivenNames y13
    clear_value y13
    extract_lets +onlyGivenNames y14
    refine memOk_have (p := State.MemOk y14) ?_ (fun h15 => ?_)
    · unfold y14
      split
      · rename_i z16 z17 z18
        apply State.store_memOk
        exact h12
      · rename_i z19 z20
        exact h12
    clear_value y14
    apply State.updWave_memOk
    exact h15

theorem State.plainParts_memOk (x0 : State) (x1) (x2) (x3) (h0 : x0.MemOk) : State.MemOk (State.plainParts x0 x1 x2 x3) := by
  unfold State.plainParts
  extract_lets +onlyGivenNames y1
  clear_value y1
  extract_lets +onlyGivenNames y2
  refine memOk_have (p := State.MemOk y2) ?_ (fun h3 => ?_)
  · unfold y2
    refine memOk_ite ?_ ?_
    · apply State.drainAll_memOk
      exact h0
    · exact h0
  clear_value y2
  split
  · rename_i z4 z5
    extract_lets +onlyGivenNames y6
    clear_value y6
    extract_lets +onlyGivenNames y7
    refine memOk_have (p := State.MemOk y7) ?_ (fun h8 => ?_)
    · unfold y7
      refine memOk_ite ?_ ?_
      · apply State.each_memOk
        · exact h3
        · intro s9 a10 h11
          apply State.drainLine_memOk
          exact h11
      · exact h3
    clear_value y7
    extract_lets +onlyGivenNames y12
    refine memOk_have (p := State.MemOk y12) ?_ (fun h13 => ?_)
    · unfold y12
      refine memOk_ite ?_ ?_
      · apply State.dropL1_memOk
        exact h8
      · exact h8
    clear_value y12
    extract_lets +onlyGivenNames y14
    clear_value y14
    extract_lets +onlyGivenNames y15
    refine memOk_have (p := State.MemOk y15) ?_ (fun h16 => ?_)
    · unfold y15
      refine memOk_ite ?_ ?_
      · exact h13
      · apply State.l1Hint_memOk
        exact h13
    clear_value y15
    apply State.updWave_memOk
    exact h16
  · rename_i z17 z18
    extract_lets +onlyGivenNames y19
    clear_value y19
    extract_lets +onlyGivenNames y20
    refine memOk_have (p := State.MemOk y20) ?_ (fun h21 => ?_)
    · unfold y20
      refine memOk_ite ?_ ?_
      · apply State.storeHome_memOk
        exact h3
      · apply State.storeCore_memOk
        exact h3
    clear_value y20
    refine memOk_ite ?_ ?_
    · apply State.dropL1_memOk
      exact h21
    · exact h21
  · rename_i z22 z23 z24
    extract_lets +onlyGivenNames y25
    refine memOk_have (p := State.MemOk y25) ?_ (fun h26 => ?_)
    · unfold y25
      apply State.each_memOk
      · exact h3
      · intro s27 a28 h29
        apply State.performAtomic_memOk
        exact h29
    clear_value y25
    refine memOk_ite ?_ ?_
    · apply State.dropL1_memOk
      exact h26
    · exact h26

theorem State.perform_memOk (x0 : State) (x1) (x2) (h0 : x0.MemOk) : State.MemOk (State.perform x0 x1 x2) := by
  unfold State.perform
  split
  · rename_i z1 z2
    exact h0
  · rename_i z3 z4 z5
    split
    · rename_i z6 z7
      exact h0
    · rename_i z8 z9 z10
      refine memOk_ite ?_ ?_
      · apply State.reissue_memOk
        exact h0
      · refine memOk_ite ?_ ?_
        · exact h0
        · split
          · rename_i z11 z12 z13 z14 z15
            split
            rename_i z16 z17 z18 z19
            refine memOk_have (p := State.MemOk z18) (pairOk_eq z19 ?_) (fun h20 => ?_)
            · apply State.txnParts_memOk
              exact h0
            refine memOk_ite ?_ ?_
            · apply State.finishOp_memOk
              exact h20
            · exact h20
          · rename_i z21 z22 z23 z24
            apply State.setWave_memOk
            exact h0
          · rename_i z25 z26 z27
            apply State.finishOp_memOk
            apply State.plainParts_memOk
            exact h0

theorem State.bin_memOk (x0 : State) (x1) (h0 : x0.MemOk) : State.MemOk (State.bin x0 x1) := by
  unfold State.bin
  (refine ⟨?_⟩; dsimp only; refine State.MemOk.wf ?_)
  exact h0

theorem State.commit_memOk (x0 : State) (x1) (x2) (x3) (h0 : x0.MemOk) : State.MemOk (State.commit x0 x1 x2 x3) := by
  unfold State.commit
  refine memOk_ite ?_ ?_
  · apply State.setWave_memOk
    exact h0
  · apply State.dropL1_memOk
    apply State.store_memOk
    apply State.setWave_memOk
    exact h0

theorem State.clearCounts_memOk (x0 : State) (x1) (h0 : x0.MemOk) : State.MemOk (State.clearCounts x0 x1) := by
  unfold State.clearCounts
  extract_lets +onlyGivenNames y1
  clear_value y1
  apply State.count_memOk
  apply State.count_memOk
  apply State.setPort_memOk
  exact h0

theorem State.writeOpctl_memOk (x0 : State) (x1) (x2) (h0 : x0.MemOk) : State.MemOk (State.writeOpctl x0 x1 x2) := by
  unfold State.writeOpctl
  extract_lets +onlyGivenNames y1
  refine memOk_have (p := State.MemOk y1) ?_ (fun h2 => ?_)
  · unfold y1
    apply State.writeGrp_memOk
    exact h0
  clear_value y1
  extract_lets +onlyGivenNames y3
  refine memOk_have (p := State.MemOk y3) ?_ (fun h4 => ?_)
  · unfold y3
    apply State.writeTarget_memOk
    exact h2
  clear_value y3
  extract_lets +onlyGivenNames y5
  refine memOk_have (p := State.MemOk y5) ?_ (fun h6 => ?_)
  · unfold y5
    refine memOk_ite ?_ ?_
    · apply State.writeCal_memOk
      exact h4
    · exact h4
  clear_value y5
  refine memOk_ite ?_ ?_
  · apply State.clearCounts_memOk
    exact h6
  · exact h6

theorem State.releaseEntry_memOk (x0 : State) (x1) (h0 : x0.MemOk) : State.MemOk (State.releaseEntry x0 x1) := by
  unfold State.releaseEntry
  extract_lets +onlyGivenNames y1
  clear_value y1
  split
  · rename_i z2 z3
    apply State.sendTear_memOk
    apply State.moveEntry_memOk
    exact h0
  · rename_i z4 z5
    apply State.moveEntry_memOk
    exact h0
  · rename_i z6 z7
    apply State.moveEntry_memOk
    exact h0
  · rename_i z8 z9
    apply State.sendTear_memOk
    apply State.writeTarget_memOk
    apply State.moveEntry_memOk
    exact h0
  · rename_i z10 z11
    extract_lets +onlyGivenNames y12
    refine memOk_have (p := State.MemOk y12) ?_ (fun h13 => ?_)
    · unfold y12
      apply State.writeTarget_memOk
      apply State.moveEntry_memOk
      exact h0
    clear_value y12
    extract_lets +onlyGivenNames y14
    clear_value y14
    refine memOk_ite ?_ ?_
    · exact h13
    · apply State.sendTear_memOk
      exact h13
  · rename_i z15 z16 z17 z18 z19 z20
    exact h0

theorem State.loseLight_memOk (x0 : State) (x1) (h0 : x0.MemOk) : State.MemOk (State.loseLight x0 x1) := by
  unfold State.loseLight
  extract_lets +onlyGivenNames y1
  clear_value y1
  refine memOk_ite ?_ ?_
  · apply State.setPort_memOk
    exact h0
  · extract_lets +onlyGivenNames y2
    clear_value y2
    extract_lets +onlyGivenNames y3
    refine memOk_have (p := State.MemOk y3) ?_ (fun h4 => ?_)
    · unfold y3
      apply State.setPort_memOk
      exact h0
    clear_value y3
    apply State.portDark_memOk
    apply State.portFailed_memOk
    apply State.drainOver_memOk
    apply State.loseFlits_memOk
    exact h4

theorem State.portEvent_memOk (x0 : State) (x1) (x2) (h0 : x0.MemOk) : State.MemOk (State.portEvent x0 x1 x2) := by
  unfold State.portEvent
  apply State.gEvent_memOk
  exact h0

theorem State.sendAck_memOk (x0 : State) (x1) (x2) (h0 : x0.MemOk) : State.MemOk (State.sendAck x0 x1 x2) := by
  unfold State.sendAck
  (refine ⟨?_⟩; dsimp only; refine State.MemOk.wf ?_)
  exact h0

theorem State.arrive_memOk (x0 : State) (x1) (x2) (x3) (x4) (x5) (h0 : x0.MemOk) : State.MemOk (State.arrive x0 x1 x2 x3 x4 x5) := by
  unfold State.arrive
  refine memOk_ite ?_ ?_
  · apply State.wait_memOk
    exact h0
  · split
    · rename_i z1 z2 z3
      extract_lets +onlyGivenNames y4
      clear_value y4
      extract_lets +onlyGivenNames y5
      clear_value y5
      apply State.setWave_memOk
      exact h0
    · rename_i z6 z7
      refine memOk_ite ?_ ?_
      · refine memOk_ite ?_ ?_
        · apply State.setWave_memOk
          exact h0
        · apply State.wait_memOk
          exact h0
      · apply State.setWave_memOk
        exact h0

theorem State.returnLanes_memOk (x0 : State) (x1) (x2) (x3) (h0 : x0.MemOk) : State.MemOk (State.returnLanes x0 x1 x2 x3) := by
  unfold State.returnLanes
  split
  · rename_i z1 z2
    exact h0
  · rename_i z3 z4 z5
    split
    · rename_i z6 z7
      exact h0
    · rename_i z8 z9 z10
      extract_lets +onlyGivenNames y11
      clear_value y11
      extract_lets +onlyGivenNames y12
      clear_value y12
      extract_lets +onlyGivenNames y13
      clear_value y13
      refine memOk_ite ?_ ?_
      · exact h0
      · split
        rename_i z14 z15 z16 z17
        refine memOk_have (p := State.MemOk z16) (pairOk_eq z17 ?_) (fun h18 => ?_)
        · split
          · rename_i z19 z20 z21 z22 z23
            apply State.txnParts_memOk
            exact h0
          · rename_i z24 z25 z26 z27
            refine pairOk_mk ?_
            exact h0
          · rename_i z28 z29 z30
            refine pairOk_mk ?_
            apply State.plainParts_memOk
            exact h0
        refine memOk_ite ?_ ?_
        · apply State.updWave_memOk
          exact h18
        · exact h18

theorem State.repost_memOk (x0 : State) (h0 : x0.MemOk) : State.MemOk (State.repost x0) := by
  unfold State.repost
  apply State.each_memOk
  · exact h0
  · intro s1 a2 h3
    extract_lets +onlyGivenNames y4
    clear_value y4
    extract_lets +onlyGivenNames y5
    clear_value y5
    split
    · rename_i z6 z7 z8
      refine memOk_have (p := State.MemOk z7) (pairOk_eq z8 ?_) (fun h9 => ?_)
      · apply State.fqWrite_memOk
        exact h3
      (refine ⟨?_⟩; dsimp only; refine State.MemOk.wf ?_)
      exact h9
    · rename_i z10 z11 z12
      refine memOk_have (p := State.MemOk z11) (pairOk_eq z12 ?_) (fun h13 => ?_)
      · apply State.fqWrite_memOk
        exact h3
      exact h13
    · rename_i z14 z15 z16
      refine memOk_have (p := State.MemOk z15) (pairOk_eq z16 ?_) (fun h17 => ?_)
      · apply State.fqWrite_memOk
        exact h3
      apply State.markUnusable_memOk
      exact h17

theorem State.settle_memOk (x0 : State) (h0 : x0.MemOk) : State.MemOk (State.settle x0) := by
  unfold State.settle
  extract_lets +onlyGivenNames y1
  refine memOk_have (p := State.MemOk y1) ?_ (fun h2 => ?_)
  · unfold y1
    refine memOk_ite ?_ ?_
    · apply State.repost_memOk
      exact h0
    · exact h0
  clear_value y1
  apply State.each_memOk
  · exact h2
  · intro s3 a4 h5
    apply State.fatalCtx_memOk
    exact h5

theorem State.checkSteps_memOk (x0 : State) (x1) (h0 : x0.MemOk) : State.MemOk (State.checkSteps x0 x1) := by
  unfold State.checkSteps
  extract_lets +onlyGivenNames y1
  clear_value y1
  apply State.posts_memOk
  exact h0

theorem State.plainFault_memOk (x0 : State) (x1) (x2) (x3) (x4) (x5) (x6) (h0 : x0.MemOk) : State.MemOk (State.plainFault x0 x1 x2 x3 x4 x5 x6) := by
  unfold State.plainFault
  split
  rename_i z1 z2 z3 z4
  refine memOk_have (p := State.MemOk z3) (pairOk_eq z4 ?_) (fun h5 => ?_)
  · apply State.newRecord_memOk
    exact h0
  split
  · rename_i z6 z7 z8
    refine memOk_have (p := State.MemOk z7) (pairOk_eq z8 ?_) (fun h9 => ?_)
    · apply State.fqWrite_memOk
      exact h5
    exact h9
  · rename_i z10 z11 z12
    refine memOk_have (p := State.MemOk z11) (pairOk_eq z12 ?_) (fun h13 => ?_)
    · apply State.fqWrite_memOk
      exact h5
    apply State.dropRecord_memOk
    exact h13
  · rename_i z14 z15 z16
    refine memOk_have (p := State.MemOk z15) (pairOk_eq z16 ?_) (fun h17 => ?_)
    · apply State.fqWrite_memOk
      exact h5
    apply State.markUnusable_memOk
    exact h17

theorem State.issued_memOk (x0 : State) (x1) (x2) (h0 : x0.MemOk) : State.MemOk (State.issued x0 x1 x2) := by
  unfold State.issued
  apply State.updFrag_memOk
  exact h0

end Sys2Proof.Machine
end

