-- ==== Sys2Proof/Laws/KeepSched.lean ====
section
/-! SUPPORT. What keeps the canonical form of memory: the dispatchers, power and pre-emption. One lemma per definition that answers a state. -/

namespace Sys2Proof.Machine

theorem State.writeMbwake_memOk (x0 : State) (x1) (h0 : x0.MemOk) : State.MemOk (State.writeMbwake x0 x1) := by
  unfold State.writeMbwake
  (refine ⟨?_⟩; dsimp only; refine State.MemOk.wf ?_)
  exact h0

theorem execEmptyReadSetWake_memOk (x0) (x1) (x2 : State) (h2 : x2.MemOk) : Outcome.MemOk (execEmptyReadSetWake x0 x1 x2) := by
  unfold execEmptyReadSetWake
  split
  · rename_i z1 z2 z3
    refine outOk_next ?_
    refine memOk_ite ?_ ?_
    · apply State.wake_memOk
      exact h2
    · exact h2
  · rename_i z4 z5
    refine outOk_next ?_
    exact h2

theorem State.drainLaunch_memOk (x0 : State) (x1) (h0 : x0.MemOk) : State.MemOk (State.drainLaunch x0 x1) := by
  unfold State.drainLaunch
  apply State.each_memOk
  · exact h0
  · intro s1 a2 h3
    apply State.drainAll_memOk
    exact h3

theorem State.updRun_memOk (x0 : State) (x1) (x2) (h0 : x0.MemOk) : State.MemOk (State.updRun x0 x1 x2) := by
  unfold State.updRun
  (refine ⟨?_⟩; dsimp only; refine State.MemOk.wf ?_)
  exact h0

theorem State.resumeBlock_memOk (x0 : State) (x1) (x2) (h0 : x0.MemOk) : State.MemOk (State.resumeBlock x0 x1 x2) := by
  unfold State.resumeBlock
  split
  · rename_i z1 z2
    exact h0
  · rename_i z3 z4 z5
    split
    · rename_i z6 z7 z8 z9 z10 z11 z12
      split
      rename_i z13 z14 z15 z16
      extract_lets +onlyGivenNames y17
      clear_value y17
      extract_lets +onlyGivenNames y18
      refine memOk_have (p := State.MemOk y18) ?_ (fun h19 => ?_)
      · unfold y18
        refine memOk_ite ?_ ?_
        · apply State.dropL1_memOk
          apply State.drainLaunch_memOk
          exact h0
        · exact h0
      clear_value y18
      extract_lets +onlyGivenNames y20
      refine memOk_have (p := State.MemOk y20) ?_ (fun h21 => ?_)
      · unfold y20
        apply State.each_memOk
        · exact h19
        · intro s22 a23 h24
          apply State.updWave_memOk
          exact h24
      clear_value y20
      apply State.updRun_memOk
      exact h21
    · rename_i z25 z26 z27
      exact h0

theorem execLeadPhaseStart_memOk (x0) (x1) (x2 : State) (h2 : x2.MemOk) : Outcome.MemOk (execLeadPhaseStart x0 x1 x2) := by
  unfold execLeadPhaseStart
  split
  · rename_i z1 z2
    refine outOk_next ?_
    exact h2
  · rename_i z3 z4 z5
    split
    · rename_i z6 z7
      refine outOk_next ?_
      exact h2
    · rename_i z8 z9 z10
      extract_lets +onlyGivenNames y11
      clear_value y11
      refine outOk_ite ?_ ?_
      · refine outOk_next ?_
        exact h2
      · refine outOk_next ?_
        apply State.resumeBlock_memOk
        exact h2

theorem State.reject_memOk (x0 : State) (x1) (x2) (x3) (x4) (h0 : x0.MemOk) : State.MemOk (State.reject x0 x1 x2 x3 x4) := by
  unfold State.reject
  extract_lets +onlyGivenNames y1
  refine memOk_have (p := State.MemOk y1) ?_ (fun h2 => ?_)
  · unfold y1
    split
    · rename_i z3 z4 z5 z6
      refine memOk_have (p := State.MemOk z5) (pairOk_eq z6 ?_) (fun h7 => ?_)
      · apply State.devWrite_memOk
        exact h0
      exact h7
    · rename_i z8 z9 z10 z11
      refine memOk_have (p := State.MemOk z10) (pairOk_eq z11 ?_) (fun h12 => ?_)
      · apply State.devWrite_memOk
        exact h0
      exact h12
  clear_value y1
  extract_lets +onlyGivenNames y13
  clear_value y13
  apply State.post_memOk
  apply State.setHq_memOk
  exact h2

theorem State.headFault_memOk (x0 : State) (x1) (x2) (x3) (x4) (x5) (x6) (h0 : x0.MemOk) : State.MemOk (State.headFault x0 x1 x2 x3 x4 x5 x6) := by
  unfold State.headFault
  refine memOk_ite ?_ ?_
  · apply State.reject_memOk
    exact h0
  · split
    rename_i z1 z2 z3 z4
    refine memOk_have (p := State.MemOk z3) (pairOk_eq z4 ?_) (fun h5 => ?_)
    · apply State.memFault_memOk
      exact h0
    apply State.setHq_memOk
    exact h5

theorem State.checkDep_memOk (x0 : State) (x1) (x2) (h0 : x0.MemOk) : State.MemOk (State.checkDep x0 x1 x2) := by
  unfold State.checkDep
  extract_lets +onlyGivenNames y1
  clear_value y1
  split
  · rename_i z2 z3 z4 z5 z6 z7
    extract_lets +onlyGivenNames y8
    clear_value y8
    refine memOk_ite ?_ ?_
    · exact h0
    · refine memOk_ite ?_ ?_
      · apply State.setHq_memOk
        exact h0
      · split
        · rename_i z9 z10 z11 z12 z13
          refine memOk_have (p := State.MemOk z12) (pairOk_eq z13 ?_) (fun h14 => ?_)
          · apply State.resolve_memOk
            exact h0
          apply State.headFault_memOk
          exact h14
        · rename_i z15 z16 z17 z18
          refine memOk_have (p := State.MemOk z17) (pairOk_eq z18 ?_) (fun h19 => ?_)
          · apply State.resolve_memOk
            exact h0
          refine memOk_ite ?_ ?_
          · apply State.setHq_memOk
            exact h19
          · refine memOk_ite ?_ ?_
            · exact h19
            · extract_lets +onlyGivenNames y20
              clear_value y20
              refine memOk_ite ?_ ?_
              · apply State.setHq_memOk
                exact h19
              · extract_lets +onlyGivenNames y21
                clear_value y21
                apply State.after_memOk
                apply State.setHq_memOk
                exact h19
  · rename_i z22 z23 z24
    exact h0

theorem State.readMark_memOk (x0 : State) (h0 : x0.MemOk) : State.MemOk (State.readMark x0) := by
  unfold State.readMark
  refine memOk_ite ?_ ?_
  · exact h0
  · apply State.logEntry_memOk
    (refine ⟨?_⟩; dsimp only; refine State.MemOk.wf ?_)
    exact h0

theorem State.shiftWaits_memOk (x0 : State) (x1) (h0 : x0.MemOk) : State.MemOk (State.shiftWaits x0 x1) := by
  unfold State.shiftWaits
  refine memOk_ite ?_ ?_
  · exact h0
  · apply State.each_memOk
    · exact h0
    · intro s1 a2 h3
      apply State.updWave_memOk
      exact h3

theorem execPwrcapLower_memOk (x0 : State) (h0 : x0.MemOk) : Outcome.MemOk (execPwrcapLower x0) := by
  unfold execPwrcapLower
  refine outOk_next ?_
  (refine ⟨?_⟩; dsimp only; refine State.MemOk.wf ?_)
  exact h0

theorem execPwrcapRaise_memOk (x0 : State) (h0 : x0.MemOk) : Outcome.MemOk (execPwrcapRaise x0) := by
  unfold execPwrcapRaise
  refine outOk_next ?_
  (refine ⟨?_⟩; dsimp only; refine State.MemOk.wf ?_)
  exact h0

theorem State.push_memOk (x0 : State) (x1) (x2) (x3) (x4) (h0 : x0.MemOk) : PairOk (State.push x0 x1 x2 x3 x4) := by
  unfold State.push
  extract_lets +onlyGivenNames y1
  clear_value y1
  refine pairOk_ite ?_ ?_
  · refine pairOk_mk ?_
    exact h0
  · refine pairOk_ite ?_ ?_
    · refine pairOk_mk ?_
      exact h0
    · refine pairOk_ite ?_ ?_
      · refine pairOk_mk ?_
        exact h0
      · split
        · rename_i z2 z3
          refine pairOk_mk ?_
          apply State.after_memOk
          apply State.setHq_memOk
          exact h0
        · rename_i z4
          refine pairOk_mk ?_
          apply State.post_memOk
          apply State.setHq_memOk
          exact h0

theorem State.rejectUnread_memOk (x0 : State) (x1) (x2) (x3) (h0 : x0.MemOk) : State.MemOk (State.rejectUnread x0 x1 x2 x3) := by
  unfold State.rejectUnread
  split
  · rename_i z1 z2 z3 z4 z5 z6 z7
    refine memOk_have (p := State.MemOk z5) (pairOk_eq z7 ?_) (fun h8 => ?_)
    · apply State.devRead_memOk
      exact h0
    apply State.reject_memOk
    exact h8
  · rename_i z9 z10 z11 z12 z13 z14
    refine memOk_have (p := State.MemOk z12) (pairOk_eq z13 ?_) (fun h15 => ?_)
    · apply State.devRead_memOk
      exact h0
    apply State.reject_memOk
    exact h15

theorem State.writeQwake_memOk (x0 : State) (x1) (x2) (h0 : x0.MemOk) : State.MemOk (State.writeQwake x0 x1 x2) := by
  unfold State.writeQwake
  apply State.post_memOk
  apply State.setHq_memOk
  exact h0

theorem State.writeGwake_memOk (x0 : State) (x1) (x2) (h0 : x0.MemOk) : State.MemOk (State.writeGwake x0 x1 x2) := by
  unfold State.writeGwake
  apply State.setGth_memOk
  exact h0

theorem State.sigWrite_memOk (x0 : State) (x1) (x2) (x3) (x4) (h0 : x0.MemOk) : OptOk (State.sigWrite x0 x1 x2 x3 x4) := by
  unfold State.sigWrite
  split
  · rename_i z1
    refine optOk_ite ?_ ?_
    · refine optOk_some ?_
      apply State.writeQwake_memOk
      exact h0
    · exact optOk_none
  · rename_i z2
    refine optOk_ite ?_ ?_
    · refine optOk_some ?_
      apply State.writeGwake_memOk
      exact h0
    · exact optOk_none
  · rename_i z3
    refine optOk_ite ?_ ?_
    · refine optOk_some ?_
      apply State.writeMbwake_memOk
      exact h0
    · exact optOk_none
  · rename_i z4 z5 z6 z7
    exact optOk_none

theorem State.evNext_memOk (x0 : State) (x1) (h0 : x0.MemOk) : State.MemOk (State.evNext x0 x1) := by
  unfold State.evNext
  split
  · rename_i z1 z2 z3 z4
    apply State.post_memOk
    exact h0
  · rename_i z5 z6 z7 z8
    apply State.post_memOk
    exact h0
  · rename_i z9 z10
    exact h0

theorem State.completeCheck_memOk (x0 : State) (x1) (h0 : x0.MemOk) : State.MemOk (State.completeCheck x0 x1) := by
  unfold State.completeCheck
  split
  · rename_i z1 z2
    exact h0
  · rename_i z3 z4 z5
    extract_lets +onlyGivenNames y6
    clear_value y6
    refine memOk_ite ?_ ?_
    · apply State.evNext_memOk
      apply State.setDie_memOk
      exact h0
    · exact h0

theorem State.postAndSig_memOk (x0 : State) (x1) (h0 : x0.MemOk) : State.MemOk (State.postAndSig x0 x1) := by
  unfold State.postAndSig
  extract_lets +onlyGivenNames y1
  refine memOk_have (p := State.MemOk y1) ?_ (fun h2 => ?_)
  · unfold y1
    refine memOk_ite ?_ ?_
    · apply State.note_memOk
      exact h0
    · exact h0
  clear_value y1
  extract_lets +onlyGivenNames y3
  refine memOk_have (p := State.MemOk y3) ?_ (fun h4 => ?_)
  · unfold y3
    refine memOk_ite ?_ ?_
    · split
      · rename_i z5 z6 z7
        refine memOk_have (p := State.MemOk z6) (optOk_eq z7 ?_) (fun h8 => ?_)
        · apply State.sigWrite_memOk
          exact h2
        exact h8
      · rename_i z9 z10
        exact h2
    · exact h2
  clear_value y3
  extract_lets +onlyGivenNames y11
  refine memOk_have (p := State.MemOk y11) ?_ (fun h12 => ?_)
  · unfold y11
    apply State.post_memOk
    (refine ⟨?_⟩; dsimp only; refine State.MemOk.wf ?_)
    exact h4
  clear_value y11
  split
  · rename_i z13 z14 z15
    apply State.completeCheck_memOk
    apply State.updRun_memOk
    exact h12
  · rename_i z16 z17
    exact h12

theorem State.checkDeps_memOk (x0 : State) (x1) (h0 : x0.MemOk) : State.MemOk (State.checkDeps x0 x1) := by
  unfold State.checkDeps
  apply State.each_memOk
  · exact h0
  · intro s1 a2 h3
    apply State.checkDep_memOk
    exact h3

theorem State.tell_memOk (x0 : State) (x1) (h0 : x0.MemOk) : State.MemOk (State.tell x0 x1) := by
  unfold State.tell
  apply State.after_memOk
  apply State.updWave_memOk
  exact h0

theorem State.tellAll_memOk (x0 : State) (h0 : x0.MemOk) : State.MemOk (State.tellAll x0) := by
  unfold State.tellAll
  apply State.each_memOk
  · exact h0
  · intro s1 a2 h3
    apply State.tell_memOk
    exact h3

theorem State.takeHead_memOk (x0 : State) (x1) (x2) (x3) (x4) (x5) (x6) (h0 : x0.MemOk) : State.MemOk (State.takeHead x0 x1 x2 x3 x4 x5 x6) := by
  unfold State.takeHead
  split
  · rename_i z1 z2 z3
    apply State.reject_memOk
    exact h0
  · rename_i z4 z5
    apply State.setHq_memOk
    exact h0

theorem State.readHead_memOk (x0 : State) (x1) (x2) (x3) (x4) (h0 : x0.MemOk) : State.MemOk (State.readHead x0 x1 x2 x3 x4) := by
  unfold State.readHead
  extract_lets +onlyGivenNames y1
  clear_value y1
  split
  · rename_i z2 z3 z4 z5 z6
    refine memOk_have (p := State.MemOk z5) (pairOk_eq z6 ?_) (fun h7 => ?_)
    · apply State.devRead_memOk
      exact h0
    apply State.headFault_memOk
    exact h7
  · rename_i z8 z9 z10 z11
    refine memOk_have (p := State.MemOk z10) (pairOk_eq z11 ?_) (fun h12 => ?_)
    · apply State.devRead_memOk
      exact h0
    refine memOk_ite ?_ ?_
    · apply State.takeHead_memOk
      exact h12
    · split
      · rename_i z13 z14 z15 z16 z17
        refine memOk_have (p := State.MemOk z16) (pairOk_eq z17 ?_) (fun h18 => ?_)
        · apply State.devRead_memOk
          exact h12
        apply State.headFault_memOk
        exact h18
      · rename_i z19 z20 z21 z22
        refine memOk_have (p := State.MemOk z21) (pairOk_eq z22 ?_) (fun h23 => ?_)
        · apply State.devRead_memOk
          exact h12
        apply State.takeHead_memOk
        exact h23

theorem State.startHead_memOk (x0 : State) (x1) (x2) (x3) (x4) (h0 : x0.MemOk) : State.MemOk (State.startHead x0 x1 x2 x3 x4) := by
  unfold State.startHead
  split
  rename_i z1 z2 z3 z4
  refine memOk_have (p := State.MemOk z3) (pairOk_eq z4 ?_) (fun h5 => ?_)
  · apply State.fresh_memOk
    exact h0
  extract_lets +onlyGivenNames y6
  clear_value y6
  extract_lets +onlyGivenNames y7
  clear_value y7
  extract_lets +onlyGivenNames y8
  refine memOk_have (p := State.MemOk y8) ?_ (fun h9 => ?_)
  · unfold y8
    (refine ⟨?_⟩; dsimp only; refine State.MemOk.wf ?_)
    exact h5
  clear_value y8
  extract_lets +onlyGivenNames y10
  refine memOk_have (p := State.MemOk y10) ?_ (fun h11 => ?_)
  · unfold y10
    apply State.setHq_memOk
    exact h9
  clear_value y10
  apply State.post_memOk
  apply State.post_memOk
  exact h11

theorem State.reserve_memOk (x0 : State) (x1) (h0 : x0.MemOk) : State.MemOk (State.reserve x0 x1) := by
  unfold State.reserve
  extract_lets +onlyGivenNames y1
  clear_value y1
  extract_lets +onlyGivenNames y2
  clear_value y2
  extract_lets +onlyGivenNames y3
  clear_value y3
  extract_lets +onlyGivenNames y4
  refine memOk_have (p := State.MemOk y4) ?_ (fun h5 => ?_)
  · unfold y4
    apply State.setDie_memOk
    exact h0
  clear_value y4
  refine memOk_ite ?_ ?_
  · apply State.after_memOk
    exact h5
  · exact h5

theorem execRecordStart_memOk (x0) (x1 : State) (h1 : x1.MemOk) : Outcome.MemOk (execRecordStart x0 x1) := by
  unfold execRecordStart
  extract_lets +onlyGivenNames y1
  clear_value y1
  extract_lets +onlyGivenNames y2
  clear_value y2
  split
  · rename_i z3 z4 z5 z6 z7 z8 z9
    split
    · rename_i z10 z11
      refine outOk_next ?_
      exact h1
    · rename_i z12 z13 z14
      refine outOk_ite ?_ ?_
      · refine outOk_next ?_
        exact h1
      · extract_lets +onlyGivenNames y15
        refine memOk_have (p := State.MemOk y15) ?_ (fun h16 => ?_)
        · unfold y15
          refine memOk_ite ?_ ?_
          · apply State.checkDeps_memOk
            apply State.readHead_memOk
            exact h1
          · exact h1
        clear_value y15
        extract_lets +onlyGivenNames y17
        clear_value y17
        extract_lets +onlyGivenNames y18
        refine memOk_have (p := State.MemOk y18) ?_ (fun h19 => ?_)
        · unfold y18
          split
          · rename_i z20 z21 z22
            refine memOk_ite ?_ ?_
            · apply State.startHead_memOk
              exact h16
            · exact h16
          · rename_i z23 z24
            exact h16
        clear_value y18
        refine outOk_next ?_
        apply State.reserve_memOk
        exact h19
  · rename_i z25 z26 z27
    refine outOk_next ?_
    exact h1

theorem State.depSeen_memOk (x0 : State) (x1) (h0 : x0.MemOk) : State.MemOk (State.depSeen x0 x1) := by
  unfold State.depSeen
  split
  · rename_i z1 z2 z3
    refine memOk_ite ?_ ?_
    · apply State.post_memOk
      exact h0
    · exact h0
  · rename_i z4 z5
    exact h0

theorem execDependenceWake_memOk (x0) (x1 : State) (h1 : x1.MemOk) : Outcome.MemOk (execDependenceWake x0 x1) := by
  unfold execDependenceWake
  extract_lets +onlyGivenNames y1
  clear_value y1
  split
  · rename_i z2 z3 z4 z5 z6
    extract_lets +onlyGivenNames y7
    clear_value y7
    extract_lets +onlyGivenNames y8
    refine memOk_have (p := State.MemOk y8) ?_ (fun h9 => ?_)
    · unfold y8
      apply State.setDie_memOk
      exact h1
    clear_value y8
    refine outOk_next ?_
    apply State.evNext_memOk
    apply State.reserve_memOk
    apply State.depSeen_memOk
    apply State.checkDep_memOk
    exact h9
  · rename_i z10 z11
    refine outOk_next ?_
    apply State.evNext_memOk
    exact h1

theorem execDependenceBackoff_memOk (x0) (x1) (x2 : State) (h2 : x2.MemOk) : Outcome.MemOk (execDependenceBackoff x0 x1 x2) := by
  unfold execDependenceBackoff
  refine outOk_next ?_
  apply State.reserve_memOk
  apply State.depSeen_memOk
  apply State.checkDep_memOk
  exact h2

theorem State.rouse_memOk (x0 : State) (x1) (x2) (h0 : x0.MemOk) : PairOk (State.rouse x0 x1 x2) := by
  unfold State.rouse
  extract_lets +onlyGivenNames y1
  clear_value y1
  extract_lets +onlyGivenNames y2
  clear_value y2
  extract_lets +onlyGivenNames y3
  clear_value y3
  extract_lets +onlyGivenNames y4
  clear_value y4
  refine pairOk_ite ?_ ?_
  · refine pairOk_mk ?_
    exact h0
  · refine pairOk_ite ?_ ?_
    · refine pairOk_mk ?_
      apply State.after_memOk
      apply State.setCluster_memOk
      exact h0
    · refine pairOk_ite ?_ ?_
      · refine pairOk_mk ?_
        apply State.after_memOk
        apply State.setCluster_memOk
        exact h0
      · split
        · rename_i z5 z6 z7
          refine pairOk_ite ?_ ?_
          · refine pairOk_mk ?_
            apply State.after_memOk
            apply State.setCluster_memOk
            exact h0
          · extract_lets +onlyGivenNames y8
            clear_value y8
            extract_lets +onlyGivenNames y9
            refine memOk_have (p := State.MemOk y9) ?_ (fun h10 => ?_)
            · unfold y9
              refine memOk_ite ?_ ?_
              · exact h0
              · apply State.setDie_memOk
                exact h0
            clear_value y9
            refine pairOk_mk ?_
            apply State.setCluster_memOk
            exact h10
        · rename_i z11 z12
          refine pairOk_mk ?_
          exact h0

theorem State.rouseAll_memOk (x0 : State) (x1) (x2) (h0 : x0.MemOk) : PairOk (State.rouseAll x0 x1 x2) := by
  unfold State.rouseAll
  refine pairOk_foldl (fun s1 a2 h3 => ?_) _ _ ?_
  · split
    rename_i z4 z5 z6 z7
    refine memOk_have (p := State.MemOk z6) (pairOk_eq z7 ?_) (fun h8 => ?_)
    · apply State.rouse_memOk
      refine pairOk_fst ?_
      exact h3
    refine pairOk_mk ?_
    exact h8
  · refine pairOk_mk ?_
    exact h0

theorem State.perfRequest_memOk (x0 : State) (x1) (x2) (x3) (h0 : x0.MemOk) : State.MemOk (State.perfRequest x0 x1 x2 x3) := by
  unfold State.perfRequest
  refine memOk_ite ?_ ?_
  · apply State.retarget_memOk
    apply State.updCluster_memOk
    exact h0
  · exact h0

theorem State.placeBlock_memOk (x0 : State) (x1) (x2) (x3) (x4) (h0 : x0.MemOk) : State.MemOk (State.placeBlock x0 x1 x2 x3 x4) := by
  unfold State.placeBlock
  extract_lets +onlyGivenNames y1
  clear_value y1
  extract_lets +onlyGivenNames y2
  clear_value y2
  extract_lets +onlyGivenNames y3
  clear_value y3
  extract_lets +onlyGivenNames y4
  clear_value y4
  split
  rename_i z5 z6 z7 z8
  refine memOk_have (p := State.MemOk z7) (pairOk_eq z8 ?_) (fun h9 => ?_)
  · apply State.fresh_memOk
    exact h0
  extract_lets +onlyGivenNames y10
  clear_value y10
  extract_lets +onlyGivenNames y11
  clear_value y11
  extract_lets +onlyGivenNames y12
  clear_value y12
  extract_lets +onlyGivenNames y13
  refine memOk_have (p := State.MemOk y13) ?_ (fun h14 => ?_)
  · unfold y13
    apply State.updCore_memOk
    exact h9
  clear_value y13
  extract_lets +onlyGivenNames y15
  refine memOk_have (p := State.MemOk y15) ?_ (fun h16 => ?_)
  · unfold y15
    apply State.updCluster_memOk
    exact h14
  clear_value y15
  extract_lets +onlyGivenNames y17
  refine memOk_have (p := State.MemOk y17) ?_ (fun h18 => ?_)
  · unfold y17
    apply State.updRun_memOk
    exact h16
  clear_value y17
  apply State.perfRequest_memOk
  exact h18

theorem State.placeAll_memOk (x0 : State) (x1) (x2) (h0 : x0.MemOk) : State.MemOk (State.placeAll x0 x1 x2) := by
  unfold State.placeAll
  extract_lets +onlyGivenNames y1
  clear_value y1
  split
  · rename_i z2 z3
    apply State.each_memOk
    · exact h0
    · intro s4 a5 h6
      apply State.placeBlock_memOk
      exact h6
  · rename_i z7 z8 z9
    apply State.each_memOk
    · exact h0
    · intro s10 a11 h12
      split
      · rename_i z13
        exact h12
      · rename_i z14 z15 z16
        extract_lets +onlyGivenNames y17
        clear_value y17
        extract_lets +onlyGivenNames y18
        clear_value y18
        extract_lets +onlyGivenNames y19
        refine memOk_have (p := State.MemOk y19) ?_ (fun h20 => ?_)
        · unfold y19
          apply State.updCluster_memOk
          exact h12
        clear_value y19
        apply State.each_memOk
        · exact h20
        · intro s21 a22 h23
          apply State.placeBlock_memOk
          exact h23

theorem State.askCarve_memOk (x0 : State) (x1) (x2) (h0 : x0.MemOk) : State.MemOk (State.askCarve x0 x1 x2) := by
  unfold State.askCarve
  extract_lets +onlyGivenNames y1
  clear_value y1
  refine memOk_ite ?_ ?_
  · apply State.setCore_memOk
    exact h0
  · apply State.post_memOk
    apply State.setCore_memOk
    exact h0

theorem execBlockPlace_memOk (x0) (x1 : State) (h1 : x1.MemOk) : Outcome.MemOk (execBlockPlace x0 x1) := by
  unfold execBlockPlace
  extract_lets +onlyGivenNames y1
  clear_value y1
  extract_lets +onlyGivenNames y2
  clear_value y2
  split
  · rename_i z3 z4
    refine outOk_next ?_
    exact h1
  · rename_i z5 z6 z7 z8
    refine outOk_ite ?_ ?_
    · refine outOk_next ?_
      exact h1
    · split
      · rename_i z9 z10
        refine outOk_next ?_
        apply State.post_memOk
        apply State.setHq_memOk
        exact h1
      · rename_i z11 z12 z13
        refine outOk_ite ?_ ?_
        · refine outOk_next ?_
          exact h1
        · split
          · rename_i z14 z15
            refine outOk_next ?_
            apply State.post_memOk
            apply State.reserve_memOk
            apply State.setHq_memOk
            exact h1
          · rename_i z16 z17 z18 z19 z20
            split
            · rename_i z21 z22 z23
              refine outOk_ite ?_ ?_
              · refine outOk_next ?_
                exact h1
              · split
                rename_i z24 z25 z26 z27
                refine memOk_have (p := State.MemOk z26) (pairOk_eq z27 ?_) (fun h28 => ?_)
                · apply State.rouseAll_memOk
                  exact h1
                extract_lets +onlyGivenNames y29
                clear_value y29
                extract_lets +onlyGivenNames y30
                refine memOk_have (p := State.MemOk y30) ?_ (fun h31 => ?_)
                · unfold y30
                  apply State.setHq_memOk
                  exact h28
                clear_value y30
                refine outOk_ite ?_ ?_
                · refine outOk_next ?_
                  apply State.post_memOk
                  apply State.placeAll_memOk
                  exact h31
                · refine outOk_next ?_
                  exact h31
            · rename_i z32 z33
              split
              · rename_i z34 z35 z36
                extract_lets +onlyGivenNames y37
                refine memOk_have (p := State.MemOk y37) ?_ (fun h38 => ?_)
                · unfold y37
                  apply State.setHq_memOk
                  exact h1
                clear_value y37
                refine outOk_next ?_
                apply State.each_memOk
                · exact h38
                · intro s39 a40 h41
                  split
                  · rename_i z42 z43 z44
                    apply State.askCarve_memOk
                    exact h41
                  · rename_i z45 z46
                    exact h41
              · rename_i z47 z48
                refine outOk_next ?_
                exact h1

theorem execCarveOutChangeDone_memOk (x0) (x1 : State) (h1 : x1.MemOk) : Outcome.MemOk (execCarveOutChangeDone x0 x1) := by
  unfold execCarveOutChangeDone
  extract_lets +onlyGivenNames y1
  clear_value y1
  extract_lets +onlyGivenNames y2
  clear_value y2
  refine outOk_ite ?_ ?_
  · refine outOk_next ?_
    exact h1
  · extract_lets +onlyGivenNames y3
    refine memOk_have (p := State.MemOk y3) ?_ (fun h4 => ?_)
    · unfold y3
      apply State.drainAll_memOk
      apply State.setCore_memOk
      exact h1
    clear_value y3
    extract_lets +onlyGivenNames y5
    refine memOk_have (p := State.MemOk y5) ?_ (fun h6 => ?_)
    · unfold y5
      apply State.updCore_memOk
      exact h4
    clear_value y5
    extract_lets +onlyGivenNames y7
    refine memOk_have (p := State.MemOk y7) ?_ (fun h8 => ?_)
    · unfold y7
      split
      · rename_i z9 z10 z11
        apply State.askCarve_memOk
        exact h6
      · rename_i z12 z13
        exact h6
    clear_value y7
    refine outOk_next ?_
    apply State.tryPlace_memOk
    exact h8

theorem State.complete1_memOk (x0 : State) (x1) (h0 : x0.MemOk) : State.MemOk (State.complete1 x0 x1) := by
  unfold State.complete1
  refine memOk_ite ?_ ?_
  · apply State.updRun_memOk
    exact h0
  · refine memOk_ite ?_ ?_
    · apply State.postAndSig_memOk
      exact h0
    · split
      · rename_i z1 z2 z3 z4
        refine memOk_have (p := State.MemOk z3) (pairOk_eq z4 ?_) (fun h5 => ?_)
        · apply State.devUpdate_memOk
          exact h0
        apply State.postAndSig_memOk
        exact h5
      · rename_i z6 z7 z8 z9 z10
        refine memOk_have (p := State.MemOk z9) (pairOk_eq z10 ?_) (fun h11 => ?_)
        · apply State.devUpdate_memOk
          exact h0
        refine memOk_ite ?_ ?_
        · apply State.postAndSig_memOk
          exact h11
        · split
          rename_i z12 z13 z14 z15
          refine memOk_have (p := State.MemOk z14) (pairOk_eq z15 ?_) (fun h16 => ?_)
          · apply State.memFault_memOk
            exact h11
          apply State.updRun_memOk
          exact h16

theorem execCompletionActions_memOk (x0) (x1 : State) (h1 : x1.MemOk) : Outcome.MemOk (execCompletionActions x0 x1) := by
  unfold execCompletionActions
  extract_lets +onlyGivenNames y1
  clear_value y1
  split
  · rename_i z2 z3 z4 z5
    extract_lets +onlyGivenNames y6
    clear_value y6
    extract_lets +onlyGivenNames y7
    refine memOk_have (p := State.MemOk y7) ?_ (fun h8 => ?_)
    · unfold y7
      apply State.setDie_memOk
      exact h1
    clear_value y7
    extract_lets +onlyGivenNames y9
    refine memOk_have (p := State.MemOk y9) ?_ (fun h10 => ?_)
    · unfold y9
      split
      · rename_i z11 z12 z13
        apply State.complete1_memOk
        exact h8
      · rename_i z14 z15
        exact h8
    clear_value y9
    refine outOk_next ?_
    apply State.evNext_memOk
    exact h10
  · rename_i z16 z17
    refine outOk_next ?_
    apply State.evNext_memOk
    exact h1

theorem execCommReserveFall_memOk (x0) (x1 : State) (h1 : x1.MemOk) : Outcome.MemOk (execCommReserveFall x0 x1) := by
  unfold execCommReserveFall
  extract_lets +onlyGivenNames y1
  clear_value y1
  split
  · rename_i z2 z3
    refine outOk_next ?_
    exact h1
  · rename_i z4 z5 z6
    refine outOk_ite ?_ ?_
    · refine outOk_next ?_
      exact h1
    · refine outOk_next ?_
      apply State.tryPlace_memOk
      apply State.atTime_memOk
      apply State.setDie_memOk
      exact h1

theorem State.startGate_memOk (x0 : State) (x1) (h0 : x0.MemOk) : State.MemOk (State.startGate x0 x1) := by
  unfold State.startGate
  apply State.after_memOk
  apply State.setCluster_memOk
  exact h0

theorem execGateSequenceStart_memOk (x0) (x1 : State) (h1 : x1.MemOk) : Outcome.MemOk (execGateSequenceStart x0 x1) := by
  unfold execGateSequenceStart
  extract_lets +onlyGivenNames y1
  clear_value y1
  extract_lets +onlyGivenNames y2
  clear_value y2
  refine outOk_ite ?_ ?_
  · refine outOk_next ?_
    exact h1
  · refine outOk_next ?_
    apply State.startGate_memOk
    exact h1

theorem execGateSequenceEnd_memOk (x0) (x1 : State) (h1 : x1.MemOk) : Outcome.MemOk (execGateSequenceEnd x0 x1) := by
  unfold execGateSequenceEnd
  extract_lets +onlyGivenNames y1
  clear_value y1
  extract_lets +onlyGivenNames y2
  clear_value y2
  split
  · rename_i z3 z4
    refine outOk_next ?_
    exact h1
  · rename_i z5 z6 z7
    refine outOk_ite ?_ ?_
    · refine outOk_next ?_
      exact h1
    · extract_lets +onlyGivenNames y8
      refine memOk_have (p := State.MemOk y8) ?_ (fun h9 => ?_)
      · unfold y8
        apply State.updCluster_memOk
        apply State.syncEdges_memOk
        exact h1
      clear_value y8
      refine outOk_next ?_
      refine memOk_ite ?_ ?_
      · exact h9
      · apply State.after_memOk
        exact h9

theorem execClusterWake_memOk (x0) (x1 : State) (h1 : x1.MemOk) : Outcome.MemOk (execClusterWake x0 x1) := by
  unfold execClusterWake
  extract_lets +onlyGivenNames y1
  clear_value y1
  extract_lets +onlyGivenNames y2
  clear_value y2
  split
  · rename_i z3 z4
    refine outOk_next ?_
    exact h1
  · rename_i z5 z6 z7
    refine outOk_ite ?_ ?_
    · refine outOk_next ?_
      exact h1
    · extract_lets +onlyGivenNames y8
      refine memOk_have (p := State.MemOk y8) ?_ (fun h9 => ?_)
      · unfold y8
        apply State.updCluster_memOk
        apply State.syncEdges_memOk
        exact h1
      clear_value y8
      extract_lets +onlyGivenNames y10
      clear_value y10
      refine outOk_next ?_
      apply State.tryPlace_memOk
      apply State.after_memOk
      apply State.after_memOk
      exact h9

theorem execCalibrationPass_memOk (x0) (x1 : State) (h1 : x1.MemOk) : Outcome.MemOk (execCalibrationPass x0 x1) := by
  unfold execCalibrationPass
  extract_lets +onlyGivenNames y1
  clear_value y1
  extract_lets +onlyGivenNames y2
  clear_value y2
  refine outOk_ite ?_ ?_
  · refine outOk_next ?_
    exact h1
  · refine outOk_next ?_
    apply State.setCluster_memOk
    exact h1

theorem execRailRaised_memOk (x0) (x1 : State) (h1 : x1.MemOk) : Outcome.MemOk (execRailRaised x0 x1) := by
  unfold execRailRaised
  extract_lets +onlyGivenNames y1
  clear_value y1
  extract_lets +onlyGivenNames y2
  clear_value y2
  refine outOk_ite ?_ ?_
  · refine outOk_next ?_
    exact h1
  · extract_lets +onlyGivenNames y3
    refine memOk_have (p := State.MemOk y3) ?_ (fun h4 => ?_)
    · unfold y3
      apply State.updCluster_memOk
      apply State.syncEdges_memOk
      exact h1
    clear_value y3
    refine outOk_next ?_
    apply State.after_memOk
    exact h4

theorem State.applyAlarm_memOk (x0 : State) (x1) (h0 : x0.MemOk) : State.MemOk (State.applyAlarm x0 x1) := by
  unfold State.applyAlarm
  extract_lets +onlyGivenNames y1
  clear_value y1
  extract_lets +onlyGivenNames y2
  refine memOk_have (p := State.MemOk y2) ?_ (fun h3 => ?_)
  · unfold y2
    apply State.syncEdges_memOk
    exact h0
  clear_value y2
  extract_lets +onlyGivenNames y4
  clear_value y4
  extract_lets +onlyGivenNames y5
  refine memOk_have (p := State.MemOk y5) ?_ (fun h6 => ?_)
  · unfold y5
    apply State.updCluster_memOk
    exact h3
  clear_value y5
  extract_lets +onlyGivenNames y7
  clear_value y7
  extract_lets +onlyGivenNames y8
  refine memOk_have (p := State.MemOk y8) ?_ (fun h9 => ?_)
  · unfold y8
    apply State.updCore_memOk
    exact h6
  clear_value y8
  extract_lets +onlyGivenNames y10
  clear_value y10
  extract_lets +onlyGivenNames y11
  refine memOk_have (p := State.MemOk y11) ?_ (fun h12 => ?_)
  · unfold y11
    (refine ⟨?_⟩; dsimp only; refine State.MemOk.wf ?_)
    exact h9
  clear_value y11
  apply State.after_memOk
  exact h12

theorem execLevelSwitchDone_memOk (x0) (x1 : State) (h1 : x1.MemOk) : Outcome.MemOk (execLevelSwitchDone x0 x1) := by
  unfold execLevelSwitchDone
  extract_lets +onlyGivenNames y1
  clear_value y1
  extract_lets +onlyGivenNames y2
  clear_value y2
  split
  · rename_i z3 z4
    refine outOk_next ?_
    exact h1
  · rename_i z5 z6 z7
    refine outOk_ite ?_ ?_
    · refine outOk_next ?_
      exact h1
    · extract_lets +onlyGivenNames y8
      refine memOk_have (p := State.MemOk y8) ?_ (fun h9 => ?_)
      · unfold y8
        apply State.updCluster_memOk
        apply State.syncEdges_memOk
        exact h1
      clear_value y8
      refine outOk_next ?_
      apply State.retarget_memOk
      apply State.each_memOk
      · exact h9
      · intro s10 a11 h12
        apply State.applyAlarm_memOk
        exact h12

theorem execRegulatorReady_memOk (x0) (x1 : State) (h1 : x1.MemOk) : Outcome.MemOk (execRegulatorReady x0 x1) := by
  unfold execRegulatorReady
  split
  · rename_i z1 z2
    refine outOk_next ?_
    exact h1
  · rename_i z3 z4 z5
    refine outOk_ite ?_ ?_
    · refine outOk_next ?_
      exact h1
    · extract_lets +onlyGivenNames y6
      refine memOk_have (p := State.MemOk y6) ?_ (fun h7 => ?_)
      · unfold y6
        apply State.updWave_memOk
        exact h1
      clear_value y6
      refine outOk_next ?_
      apply State.atTime_memOk
      exact h7

theorem execBurstAdmit_memOk (x0) (x1 : State) (h1 : x1.MemOk) : Outcome.MemOk (execBurstAdmit x0 x1) := by
  unfold execBurstAdmit
  extract_lets +onlyGivenNames y1
  clear_value y1
  split
  · rename_i z2 z3
    refine outOk_next ?_
    exact h1
  · rename_i z4 z5 z6 z7
    refine outOk_ite ?_ ?_
    · extract_lets +onlyGivenNames y8
      clear_value y8
      extract_lets +onlyGivenNames y9
      clear_value y9
      extract_lets +onlyGivenNames y10
      refine memOk_have (p := State.MemOk y10) ?_ (fun h11 => ?_)
      · unfold y10
        apply State.updCluster_memOk
        exact h1
      clear_value y10
      extract_lets +onlyGivenNames y12
      refine memOk_have (p := State.MemOk y12) ?_ (fun h13 => ?_)
      · unfold y12
        apply State.updWave_memOk
        exact h11
      clear_value y12
      refine outOk_next ?_
      apply State.post_memOk
      apply State.atTime_memOk
      exact h13
    · split
      · rename_i z14 z15 z16
        refine outOk_next ?_
        apply State.atTime_memOk
        exact h1
      · rename_i z17 z18
        refine outOk_next ?_
        exact h1

theorem execDeclarationEnd_memOk (x0) (x1 : State) (h1 : x1.MemOk) : Outcome.MemOk (execDeclarationEnd x0 x1) := by
  unfold execDeclarationEnd
  refine outOk_next ?_
  apply State.updWave_memOk
  exact h1

theorem execThrottleEnd_memOk (x0) (x1 : State) (h1 : x1.MemOk) : Outcome.MemOk (execThrottleEnd x0 x1) := by
  unfold execThrottleEnd
  refine outOk_next ?_
  apply State.updCore_memOk
  exact h1

theorem execReleaseGroup_memOk (x0) (x1) (x2 : State) (h2 : x2.MemOk) : Outcome.MemOk (execReleaseGroup x0 x1 x2) := by
  unfold execReleaseGroup
  extract_lets +onlyGivenNames y1
  clear_value y1
  extract_lets +onlyGivenNames y2
  clear_value y2
  split
  · rename_i z3 z4
    refine outOk_next ?_
    exact h2
  · rename_i z5 z6 z7 z8
    extract_lets +onlyGivenNames y9
    clear_value y9
    extract_lets +onlyGivenNames y10
    clear_value y10
    extract_lets +onlyGivenNames y11
    clear_value y11
    extract_lets +onlyGivenNames y12
    clear_value y12
    extract_lets +onlyGivenNames y13
    clear_value y13
    extract_lets +onlyGivenNames y14
    clear_value y14
    extract_lets +onlyGivenNames y15
    refine memOk_have (p := State.MemOk y15) ?_ (fun h16 => ?_)
    · unfold y15
      apply State.setCore_memOk
      exact h2
    clear_value y15
    extract_lets +onlyGivenNames y17
    clear_value y17
    extract_lets +onlyGivenNames y18
    refine memOk_have (p := State.MemOk y18) ?_ (fun h19 => ?_)
    · unfold y18
      apply State.each_memOk
      · exact h16
      · intro s20 a21 h22
        apply State.updFrag_memOk
        exact h22
    clear_value y18
    extract_lets +onlyGivenNames y23
    refine memOk_have (p := State.MemOk y23) ?_ (fun h24 => ?_)
    · unfold y23
      apply State.posts_memOk
      exact h19
    clear_value y23
    refine outOk_next ?_
    refine memOk_ite ?_ ?_
    · exact h24
    · apply State.after_memOk
      exact h24

theorem execHalvedIssueEnd_memOk (x0) (x1 : State) (h1 : x1.MemOk) : Outcome.MemOk (execHalvedIssueEnd x0 x1) := by
  unfold execHalvedIssueEnd
  refine outOk_next ?_
  apply State.updCore_memOk
  exact h1

theorem State.phaseCheck_memOk (x0 : State) (x1) (x2) (h0 : x0.MemOk) : State.MemOk (State.phaseCheck x0 x1 x2) := by
  unfold State.phaseCheck
  split
  · rename_i z1 z2
    exact h0
  · rename_i z3 z4 z5
    refine memOk_ite ?_ ?_
    · exact h0
    · extract_lets +onlyGivenNames y6
      clear_value y6
      extract_lets +onlyGivenNames y7
      clear_value y7
      extract_lets +onlyGivenNames y8
      refine memOk_have (p := State.MemOk y8) ?_ (fun h9 => ?_)
      · unfold y8
        apply State.updRun_memOk
        exact h0
      clear_value y8
      extract_lets +onlyGivenNames y10
      clear_value y10
      apply State.each_memOk
      · exact h9
      · intro s11 a12 h13
        split
        rename_i z14 z15 z16
        extract_lets +onlyGivenNames y17
        clear_value y17
        extract_lets +onlyGivenNames y18
        clear_value y18
        refine memOk_ite ?_ ?_
        · refine memOk_ite ?_ ?_
          · apply State.post_memOk
            exact h13
          · exact h13
        · extract_lets +onlyGivenNames y19
          clear_value y19
          refine memOk_ite ?_ ?_
          · apply State.resumeBlock_memOk
            exact h13
          · exact h13

theorem State.parkCheck_memOk (x0 : State) (x1) (x2) (h0 : x0.MemOk) : State.MemOk (State.parkCheck x0 x1 x2) := by
  unfold State.parkCheck
  split
  · rename_i z1 z2
    exact h0
  · rename_i z3 z4 z5
    extract_lets +onlyGivenNames y6
    clear_value y6
    refine memOk_ite ?_ ?_
    · exact h0
    · extract_lets +onlyGivenNames y7
      clear_value y7
      apply State.phaseCheck_memOk
      apply State.updRun_memOk
      exact h0

theorem State.blockExitCheck_memOk (x0 : State) (x1) (x2) (h0 : x0.MemOk) : State.MemOk (State.blockExitCheck x0 x1 x2) := by
  unfold State.blockExitCheck
  split
  · rename_i z1 z2
    exact h0
  · rename_i z3 z4 z5
    refine memOk_ite ?_ ?_
    · apply State.parkCheck_memOk
      exact h0
    · extract_lets +onlyGivenNames y6
      refine memOk_have (p := State.MemOk y6) ?_ (fun h7 => ?_)
      · unfold y6
        apply State.drainAll_memOk
        exact h0
      clear_value y6
      extract_lets +onlyGivenNames y8
      refine memOk_have (p := State.MemOk y8) ?_ (fun h9 => ?_)
      · unfold y8
        apply State.updRun_memOk
        exact h7
      clear_value y8
      extract_lets +onlyGivenNames y10
      refine memOk_have (p := State.MemOk y10) ?_ (fun h11 => ?_)
      · unfold y10
        apply State.removeBlock_memOk
        exact h9
      clear_value y10
      apply State.completeCheck_memOk
      apply State.phaseCheck_memOk
      exact h11

theorem State.waveExitCheck_memOk (x0 : State) (x1) (h0 : x0.MemOk) : State.MemOk (State.waveExitCheck x0 x1) := by
  unfold State.waveExitCheck
  split
  · rename_i z1 z2
    exact h0
  · rename_i z3 z4 z5
    extract_lets +onlyGivenNames y6
    clear_value y6
    refine memOk_ite ?_ ?_
    · apply State.parkCheck_memOk
      apply State.setWave_memOk
      exact h0
    · refine memOk_ite ?_ ?_
      · exact h0
      · apply State.blockExitCheck_memOk
        apply State.updCore_memOk
        exact h0

theorem execWcbDrain_memOk (x0) (x1) (x2 : State) (h2 : x2.MemOk) : Outcome.MemOk (execWcbDrain x0 x1 x2) := by
  unfold execWcbDrain
  split
  · rename_i z1 z2 z3
    refine outOk_next ?_
    refine memOk_ite ?_ ?_
    · apply State.drainLine_memOk
      exact h2
    · exact h2
  · rename_i z4 z5
    refine outOk_next ?_
    exact h2

theorem execFragmentWake_memOk (x0) (x1) (x2 : State) (h2 : x2.MemOk) : Outcome.MemOk (execFragmentWake x0 x1 x2) := by
  unfold execFragmentWake
  split
  · rename_i z1 z2 z3
    refine outOk_next ?_
    refine memOk_ite ?_ ?_
    · apply State.wake_memOk
      exact h2
    · exact h2
  · rename_i z4 z5
    refine outOk_next ?_
    exact h2

theorem execWatchBackoffWake_memOk (x0) (x1) (x2 : State) (h2 : x2.MemOk) : Outcome.MemOk (execWatchBackoffWake x0 x1 x2) := by
  unfold execWatchBackoffWake
  split
  · rename_i z1 z2 z3
    split
    · rename_i z4 z5 z6
      refine outOk_next ?_
      refine memOk_ite ?_ ?_
      · apply State.wake_memOk
        exact h2
      · exact h2
    · rename_i z7 z8
      refine outOk_next ?_
      exact h2
  · rename_i z9 z10
    refine outOk_next ?_
    exact h2

theorem execHandlerLaunch_memOk (x0) (x1 : State) (h1 : x1.MemOk) : Outcome.MemOk (execHandlerLaunch x0 x1) := by
  unfold execHandlerLaunch
  extract_lets +onlyGivenNames y1
  clear_value y1
  extract_lets +onlyGivenNames y2
  clear_value y2
  refine outOk_ite ?_ ?_
  · refine outOk_next ?_
    exact h1
  · split
    · rename_i z3 z4
      refine outOk_next ?_
      exact h1
    · rename_i z5 z6 z7
      extract_lets +onlyGivenNames y8
      clear_value y8
      extract_lets +onlyGivenNames y9
      clear_value y9
      extract_lets +onlyGivenNames y10
      clear_value y10
      split
      rename_i z11 z12 z13 z14
      refine memOk_have (p := State.MemOk z13) (pairOk_eq z14 ?_) (fun h15 => ?_)
      · apply State.fresh_memOk
        exact h1
      extract_lets +onlyGivenNames y16
      clear_value y16
      extract_lets +onlyGivenNames y17
      clear_value y17
      extract_lets +onlyGivenNames y18
      refine memOk_have (p := State.MemOk y18) ?_ (fun h19 => ?_)
      · unfold y18
        apply State.updCore_memOk
        exact h15
      clear_value y18
      split
      · rename_i z20
        refine outOk_next ?_
        exact h19
      · rename_i z21 z22 z23
        refine outOk_next ?_
        apply State.atTime_memOk
        exact h19

theorem execWatchdogExpiry_memOk (x0) (x1) (x2 : State) (h2 : x2.MemOk) : Outcome.MemOk (execWatchdogExpiry x0 x1 x2) := by
  unfold execWatchdogExpiry
  extract_lets +onlyGivenNames y1
  clear_value y1
  split
  · rename_i z2 z3
    refine outOk_next ?_
    exact h2
  · rename_i z4 z5 z6
    split
    · rename_i z7 z8
      refine outOk_next ?_
      exact h2
    · rename_i z9 z10 z11
      extract_lets +onlyGivenNames y12
      clear_value y12
      refine outOk_ite ?_ ?_
      · refine outOk_next ?_
        exact h2
      · refine outOk_ite ?_ ?_
        · refine outOk_next ?_
          apply State.atTime_memOk
          exact h2
        · refine outOk_next ?_
          apply State.fatalCtx_memOk
          exact h2

theorem State.saveFault_memOk (x0 : State) (x1) (x2) (x3) (x4) (x5) (h0 : x0.MemOk) : State.MemOk (State.saveFault x0 x1 x2 x3 x4 x5) := by
  unfold State.saveFault
  refine memOk_ite ?_ ?_
  · apply State.fatalCtx_memOk
    exact h0
  · split
    rename_i z1 z2 z3 z4
    refine memOk_have (p := State.MemOk z3) (pairOk_eq z4 ?_) (fun h5 => ?_)
    · apply State.memFault_memOk
      exact h0
    apply State.updCtx_memOk
    exact h5

theorem State.saveBlock_memOk (x0 : State) (x1) (x2) (x3) (x4) (h0 : x0.MemOk) : State.MemOk (State.saveBlock x0 x1 x2 x3 x4) := by
  unfold State.saveBlock
  extract_lets +onlyGivenNames y1
  refine memOk_have (p := State.MemOk y1) ?_ (fun h2 => ?_)
  · unfold y1
    apply State.drainAll_memOk
    exact h0
  clear_value y1
  split
  · rename_i z3 z4 z5 z6 z7 z8
    split
    rename_i z9 z10 z11 z12
    refine memOk_have (p := State.MemOk z11) (pairOk_eq z12 ?_) (fun h13 => ?_)
    · apply State.fresh_memOk
      exact h2
    extract_lets +onlyGivenNames y14
    clear_value y14
    extract_lets +onlyGivenNames y15
    clear_value y15
    extract_lets +onlyGivenNames y16
    clear_value y16
    extract_lets +onlyGivenNames y17
    clear_value y17
    extract_lets +onlyGivenNames y18
    clear_value y18
    extract_lets +onlyGivenNames y19
    clear_value y19
    extract_lets +onlyGivenNames y20
    clear_value y20
    extract_lets +onlyGivenNames y21
    refine memOk_have (p := State.MemOk y21) ?_ (fun h22 => ?_)
    · unfold y21
      apply State.updCtx_memOk
      exact h13
    clear_value y21
    extract_lets +onlyGivenNames y23
    refine memOk_have (p := State.MemOk y23) ?_ (fun h24 => ?_)
    · unfold y23
      apply State.updRun_memOk
      exact h22
    clear_value y23
    apply State.removeBlock_memOk
    exact h24
  · rename_i z25 z26 z27
    exact h2

theorem State.writeHeader_memOk (x0 : State) (x1) (x2) (x3) (h0 : x0.MemOk) : State.MemOk (State.writeHeader x0 x1 x2 x3) := by
  unfold State.writeHeader
  extract_lets +onlyGivenNames y1
  clear_value y1
  extract_lets +onlyGivenNames y2
  clear_value y2
  split
  · rename_i z3 z4 z5 z6 z7
    refine memOk_have (p := State.MemOk z6) (pairOk_eq z7 ?_) (fun h8 => ?_)
    · apply State.devWrite_memOk
      exact h0
    apply State.saveFault_memOk
    exact h8
  · rename_i z9 z10 z11 z12
    refine memOk_have (p := State.MemOk z11) (pairOk_eq z12 ?_) (fun h13 => ?_)
    · apply State.devWrite_memOk
      exact h0
    apply State.updCtx_memOk
    exact h13

theorem State.savedCheck_memOk (x0 : State) (x1) (h0 : x0.MemOk) : State.MemOk (State.savedCheck x0 x1) := by
  unfold State.savedCheck
  split
  · rename_i z1 z2
    exact h0
  · rename_i z3 z4 z5
    refine memOk_ite ?_ ?_
    · exact h0
    · split
      rename_i z6 z7 z8 z9
      refine memOk_have (p := State.MemOk z8) (pairOk_eq z9 ?_) (fun h10 => ?_)
      · apply State.takeFree_memOk
        exact h0
      apply State.writeHeader_memOk
      exact h10

theorem execBlockSave_memOk (x0) (x1) (x2 : State) (h2 : x2.MemOk) : Outcome.MemOk (execBlockSave x0 x1 x2) := by
  unfold execBlockSave
  extract_lets i core u
  split
  · exact outOk_next h2
  · refine outOk_ite (outOk_next h2) ?_
    extract_lets start size
    refine outOk_ite (outOk_next (State.updCtx_memOk _ _ _ h2)) ?_
    split
    rename_i he
    have hs := pairOk_eq he (State.takeFree_memOk _ h2)
    split
    · rename_i hd
      exact outOk_next (State.saveFault_memOk _ _ _ _ _ _ (pairOk_eq hd (State.devWrite_memOk _ _ _ _ _ hs)))
    · rename_i hd
      refine outOk_next (State.savedCheck_memOk _ _ (State.updCtx_memOk _ _ _ (fst_foldl (fun p a h => ?_) _ _ ?_)))
      · exact State.saveBlock_memOk _ _ _ _ _ h
      · exact pairOk_eq hd (State.devWrite_memOk _ _ _ _ _ hs)

theorem execPreemptionDeadline_memOk (x0) (x1 : State) (h1 : x1.MemOk) : Outcome.MemOk (execPreemptionDeadline x0 x1) := by
  unfold execPreemptionDeadline
  split
  · rename_i z1 z2
    refine outOk_next ?_
    exact h1
  · rename_i z3 z4 z5
    split
    · rename_i z6 z7 z8
      refine outOk_next ?_
      refine memOk_ite ?_ ?_
      · apply State.fatalCtx_memOk
        exact h1
      · exact h1
    · rename_i z9 z10
      refine outOk_next ?_
      exact h1

theorem State.phaseCheckAll_memOk (x0 : State) (x1) (h0 : x0.MemOk) : State.MemOk (State.phaseCheckAll x0 x1) := by
  unfold State.phaseCheckAll
  apply State.each_memOk
  · exact h0
  · intro s1 a2 h3
    apply State.each_memOk
    · exact h3
    · intro s4 a5 h6
      apply State.phaseCheck_memOk
      exact h6

theorem State.rowsFor_memOk (x0 : State) (x1) (h0 : x0.MemOk) : PairOk (State.rowsFor x0 x1) := by
  unfold State.rowsFor
  refine pairOk_foldl (fun s1 a2 h3 => ?_) _ _ ?_
  · split
    · rename_i z4 z5
      exact h3
    · rename_i z6 z7 z8
      extract_lets +onlyGivenNames y9
      clear_value y9
      refine pairOk_ite ?_ ?_
      · exact h3
      · extract_lets +onlyGivenNames y10
        clear_value y10
        extract_lets +onlyGivenNames y11
        clear_value y11
        refine pairOk_mk ?_
        apply State.updCluster_memOk
        refine pairOk_fst ?_
        exact h3
  · refine pairOk_mk ?_
    exact h0

theorem State.watchAgain_memOk (x0 : State) (x1) (x2) (x3) (h0 : x0.MemOk) : State.MemOk (State.watchAgain x0 x1 x2 x3) := by
  unfold State.watchAgain
  split
  · rename_i z1 z2
    exact h0
  · rename_i z3 z4 z5 z6
    extract_lets +onlyGivenNames y7
    clear_value y7
    extract_lets +onlyGivenNames y8
    clear_value y8
    extract_lets +onlyGivenNames y9
    clear_value y9
    extract_lets +onlyGivenNames y10
    clear_value y10
    extract_lets +onlyGivenNames y11
    refine memOk_have (p := State.MemOk y11) ?_ (fun h12 => ?_)
    · unfold y11
      apply State.updFrag_memOk
      exact h0
    clear_value y11
    refine memOk_ite ?_ ?_
    · apply State.atTime_memOk
      exact h12
    · refine memOk_ite ?_ ?_
      · apply State.atTime_memOk
        exact h12
      · exact h12

theorem State.placeImage_memOk (x0 : State) (x1) (x2) (x3) (x4) (h0 : x0.MemOk) : State.MemOk (State.placeImage x0 x1 x2 x3 x4) := by
  unfold State.placeImage
  split
  · rename_i z1 z2
    exact h0
  · rename_i z3 z4 z5
    extract_lets +onlyGivenNames y6
    clear_value y6
    extract_lets +onlyGivenNames y7
    clear_value y7
    extract_lets +onlyGivenNames y8
    clear_value y8
    extract_lets +onlyGivenNames y9
    clear_value y9
    extract_lets +onlyGivenNames y10
    clear_value y10
    extract_lets +onlyGivenNames y11
    clear_value y11
    extract_lets +onlyGivenNames y12
    clear_value y12
    extract_lets +onlyGivenNames y13
    clear_value y13
    extract_lets +onlyGivenNames y14
    clear_value y14
    extract_lets +onlyGivenNames y15
    clear_value y15
    extract_lets +onlyGivenNames y16
    clear_value y16
    extract_lets +onlyGivenNames y17
    refine memOk_have (p := State.MemOk y17) ?_ (fun h18 => ?_)
    · unfold y17
      apply State.updCore_memOk
      apply State.dropL1_memOk
      exact h0
    clear_value y17
    extract_lets +onlyGivenNames y19
    refine memOk_have (p := State.MemOk y19) ?_ (fun h20 => ?_)
    · unfold y19
      apply State.scrub_memOk
      exact h18
    clear_value y19
    extract_lets +onlyGivenNames y21
    refine memOk_have (p := State.MemOk y21) ?_ (fun h22 => ?_)
    · unfold y21
      apply State.scrub_memOk
      exact h20
    clear_value y21
    extract_lets +onlyGivenNames y23
    refine memOk_have (p := State.MemOk y23) ?_ (fun h24 => ?_)
    · unfold y23
      apply State.updCluster_memOk
      exact h22
    clear_value y23
    extract_lets +onlyGivenNames y25
    refine memOk_have (p := State.MemOk y25) ?_ (fun h26 => ?_)
    · unfold y25
      apply State.updRun_memOk
      exact h24
    clear_value y25
    extract_lets +onlyGivenNames y27
    refine memOk_have (p := State.MemOk y27) ?_ (fun h28 => ?_)
    · unfold y27
      apply State.updCtx_memOk
      exact h26
    clear_value y27
    extract_lets +onlyGivenNames y29
    refine memOk_have (p := State.MemOk y29) ?_ (fun h30 => ?_)
    · unfold y29
      apply State.each_memOk
      · apply State.perfRequest_memOk
        exact h28
      · intro s31 a32 h33
        apply State.watchAgain_memOk
        exact h33
    clear_value y29
    apply State.posts_memOk
    exact h30

theorem execRestorePlace_memOk (x0) (x1 : State) (h1 : x1.MemOk) : Outcome.MemOk (execRestorePlace x0 x1) := by
  unfold execRestorePlace
  extract_lets +onlyGivenNames y1
  clear_value y1
  split
  · rename_i z2 z3
    refine outOk_next ?_
    exact h1
  · rename_i z4 z5 z6
    refine outOk_ite ?_ ?_
    · refine outOk_next ?_
      exact h1
    · split
      · rename_i z7 z8
        extract_lets +onlyGivenNames y9
        refine memOk_have (p := State.MemOk y9) ?_ (fun h10 => ?_)
        · unfold y9
          apply State.updCtx_memOk
          exact h1
        clear_value y9
        extract_lets +onlyGivenNames y11
        refine memOk_have (p := State.MemOk y11) ?_ (fun h12 => ?_)
        · unfold y11
          apply State.posts_memOk
          exact h10
        clear_value y11
        refine outOk_next ?_
        apply State.phaseCheckAll_memOk
        apply State.tryPlace_memOk
        exact h12
      · rename_i z13 z14
        split
        · rename_i z15 z16
          split
          · rename_i z17 z18 z19
            refine outOk_next ?_
            apply State.each_memOk
            · exact h1
            · intro s20 a21 h22
              split
              · rename_i z23 z24 z25
                apply State.askCarve_memOk
                exact h22
              · rename_i z26 z27
                exact h22
          · rename_i z28 z29
            refine outOk_next ?_
            exact h1
        · rename_i z30 z31 z32
          refine outOk_ite ?_ ?_
          · refine outOk_next ?_
            exact h1
          · split
            rename_i z33 z34 z35 z36
            refine memOk_have (p := State.MemOk z35) (pairOk_eq z36 ?_) (fun h37 => ?_)
            · apply State.rouseAll_memOk
              exact h1
            refine outOk_ite ?_ ?_
            · refine outOk_next ?_
              exact h37
            · extract_lets +onlyGivenNames y38
              refine memOk_have (p := PairOk y38) ?_ (fun h39 => ?_)
              · unfold y38
                refine pairOk_foldl (fun s40 a41 h42 => ?_) _ _ ?_
                · split
                  · rename_i z43 z44 z45
                    exact h42
                  · rename_i z46 z47 z48
                    extract_lets +onlyGivenNames y49
                    clear_value y49
                    extract_lets +onlyGivenNames y50
                    clear_value y50
                    split
                    · rename_i z51 z52 z53 z54
                      refine memOk_have (p := State.MemOk z53) (pairOk_eq z54 ?_) (fun h55 => ?_)
                      · apply State.devRead_memOk
                        exact h42.snd
                      refine pairOk_mk ?_
                      exact h55
                    · rename_i z56 z57 z58 z59
                      refine memOk_have (p := State.MemOk z58) (pairOk_eq z59 ?_) (fun h60 => ?_)
                      · apply State.devRead_memOk
                        exact h42.snd
                      refine pairOk_mk ?_
                      exact h60
                · refine pairOk_mk ?_
                  exact h37
              clear_value y38
              split
              · rename_i z61 z62 z63 z64 z65
                refine outOk_next ?_
                apply State.saveFault_memOk
                exact h39.snd
              · rename_i z66 z67 z68
                split
                rename_i z69 z70 z71 z72
                refine memOk_have (p := State.MemOk z71) (pairOk_eq z72 ?_) (fun h73 => ?_)
                · apply State.rowsFor_memOk
                  exact h39.snd
                extract_lets +onlyGivenNames y74
                refine memOk_have (p := State.MemOk y74) ?_ (fun h75 => ?_)
                · unfold y74
                  apply State.each_memOk
                  · exact h73
                  · intro s76 a77 h78
                    apply State.placeImage_memOk
                    exact h78
                clear_value y74
                extract_lets +onlyGivenNames y79
                refine memOk_have (p := State.MemOk y79) ?_ (fun h80 => ?_)
                · unfold y79
                  apply State.updCtx_memOk
                  exact h75
                clear_value y79
                refine outOk_next ?_
                apply State.post_memOk
                exact h80

theorem State.issueUnit_memOk (x0 : State) (x1) (x2) (x3) (h0 : x0.MemOk) : State.MemOk (State.issueUnit x0 x1 x2 x3) := by
  unfold State.issueUnit
  apply State.updCore_memOk
  exact h0

theorem State.resumeLane_memOk (x0 : State) (x1) (x2) (x3) (h0 : x0.MemOk) : State.MemOk (State.resumeLane x0 x1 x2 x3) := by
  unfold State.resumeLane
  extract_lets +onlyGivenNames y1
  clear_value y1
  extract_lets +onlyGivenNames y2
  clear_value y2
  extract_lets +onlyGivenNames y3
  refine memOk_have (p := State.MemOk y3) ?_ (fun h4 => ?_)
  · unfold y3
    apply State.updWave_memOk
    exact h0
  clear_value y3
  apply State.waveExitCheck_memOk
  exact h4

theorem State.announce_memOk (x0 : State) (x1) (x2) (h0 : x0.MemOk) : State.MemOk (State.announce x0 x1 x2) := by
  unfold State.announce
  split
  · rename_i z1 z2
    exact h0
  · rename_i z3 z4 z5
    extract_lets +onlyGivenNames y6
    clear_value y6
    extract_lets +onlyGivenNames y7
    clear_value y7
    refine memOk_ite ?_ ?_
    · apply State.setWave_memOk
      exact h0
    · extract_lets +onlyGivenNames y8
      clear_value y8
      extract_lets +onlyGivenNames y9
      clear_value y9
      extract_lets +onlyGivenNames y10
      clear_value y10
      refine memOk_ite ?_ ?_
      · apply State.setWave_memOk
        exact h0
      · extract_lets +onlyGivenNames y11
        refine memOk_have (p := State.MemOk y11) ?_ (fun h12 => ?_)
        · unfold y11
          apply State.setWave_memOk
          exact h0
        clear_value y11
        extract_lets +onlyGivenNames y13
        refine memOk_have (p := State.MemOk y13) ?_ (fun h14 => ?_)
        · unfold y13
          apply State.updCore_memOk
          exact h12
        clear_value y13
        refine memOk_ite ?_ ?_
        · exact h14
        · apply State.tell_memOk
          exact h14

theorem State.writeComres_memOk (x0 : State) (x1) (x2) (h0 : x0.MemOk) : State.MemOk (State.writeComres x0 x1 x2) := by
  unfold State.writeComres
  extract_lets +onlyGivenNames y1
  clear_value y1
  extract_lets +onlyGivenNames y2
  clear_value y2
  refine memOk_ite ?_ ?_
  · exact h0
  · extract_lets +onlyGivenNames y3
    clear_value y3
    extract_lets +onlyGivenNames y4
    refine memOk_have (p := State.MemOk y4) ?_ (fun h5 => ?_)
    · unfold y4
      apply State.setDie_memOk
      exact h0
    clear_value y4
    extract_lets +onlyGivenNames y6
    refine memOk_have (p := State.MemOk y6) ?_ (fun h7 => ?_)
    · unfold y6
      apply State.reserve_memOk
      exact h5
    clear_value y6
    split
    · rename_i z8 z9
      apply State.tryPlace_memOk
      exact h7
    · rename_i z10 z11 z12
      extract_lets +onlyGivenNames y13
      clear_value y13
      apply State.tryPlace_memOk
      apply State.atTime_memOk
      apply State.setDie_memOk
      exact h7

theorem State.pmReq_memOk (x0 : State) (x1) (h0 : x0.MemOk) : PairOk (State.pmReq x0 x1) := by
  unfold State.pmReq
  split
  · rename_i z1 z2
    refine pairOk_mk ?_
    exact h0
  · rename_i z3 z4 z5
    refine pairOk_ite ?_ ?_
    · extract_lets +onlyGivenNames y6
      clear_value y6
      refine pairOk_mk ?_
      apply State.atTime_memOk
      apply State.setCtx_memOk
      exact h0
    · refine pairOk_mk ?_
      exact h0

theorem State.pmBad_memOk (x0 : State) (x1) (h0 : x0.MemOk) : State.MemOk (State.pmBad x0 x1) := by
  unfold State.pmBad
  apply State.updCtx_memOk
  exact h0

theorem State.pmRestore_memOk (x0 : State) (x1) (h0 : x0.MemOk) : PairOk (State.pmRestore x0 x1) := by
  unfold State.pmRestore
  split
  · rename_i z1 z2
    refine pairOk_mk ?_
    exact h0
  · rename_i z3 z4 z5
    refine pairOk_ite ?_ ?_
    · refine pairOk_mk ?_
      apply State.post_memOk
      apply State.setCtx_memOk
      exact h0
    · refine pairOk_mk ?_
      exact h0

theorem State.writePmctl_memOk (x0 : State) (x1) (x2) (h0 : x0.MemOk) : State.MemOk (State.writePmctl x0 x1 x2) := by
  unfold State.writePmctl
  refine memOk_ite ?_ ?_
  · exact h0
  · extract_lets +onlyGivenNames y1
    refine memOk_have (p := State.MemOk y1) ?_ (fun h2 => ?_)
    · unfold y1
      apply State.updCtx_memOk
      exact h0
    clear_value y1
    extract_lets +onlyGivenNames y3
    clear_value y3
    extract_lets +onlyGivenNames y4
    refine memOk_have (p := State.MemOk y4) ?_ (fun h5 => ?_)
    · unfold y4
      refine memOk_ite ?_ ?_
      · split
        rename_i z6 z7 z8 z9
        refine memOk_have (p := State.MemOk z8) (pairOk_eq z9 ?_) (fun h10 => ?_)
        · apply State.pmReq_memOk
          exact h2
        refine memOk_ite ?_ ?_
        · exact h10
        · apply State.pmBad_memOk
          exact h10
      · exact h2
    clear_value y4
    extract_lets +onlyGivenNames y11
    refine memOk_have (p := State.MemOk y11) ?_ (fun h12 => ?_)
    · unfold y11
      refine memOk_ite ?_ ?_
      · split
        rename_i z13 z14 z15 z16
        refine memOk_have (p := State.MemOk z15) (pairOk_eq z16 ?_) (fun h17 => ?_)
        · apply State.pmRestore_memOk
          exact h5
        refine memOk_ite ?_ ?_
        · exact h17
        · apply State.pmBad_memOk
          exact h17
      · exact h5
    clear_value y11
    apply State.savedCheck_memOk
    exact h12

theorem execGwakeWrite_memOk (x0) (x1) (x2 : State) (h2 : x2.MemOk) : Outcome.MemOk (execGwakeWrite x0 x1 x2) := by
  unfold execGwakeWrite
  refine outOk_next ?_
  apply State.writeGwake_memOk
  exact h2

theorem execMbwakeWrite_memOk (x0) (x1 : State) (h1 : x1.MemOk) : Outcome.MemOk (execMbwakeWrite x0 x1) := by
  unfold execMbwakeWrite
  refine outOk_next ?_
  apply State.writeMbwake_memOk
  exact h1

theorem execQwakeWrite_memOk (x0) (x1) (x2 : State) (h2 : x2.MemOk) : Outcome.MemOk (execQwakeWrite x0 x1 x2) := by
  unfold execQwakeWrite
  refine outOk_next ?_
  apply State.writeQwake_memOk
  exact h2

theorem execComresWrite_memOk (x0) (x1) (x2 : State) (h2 : x2.MemOk) : Outcome.MemOk (execComresWrite x0 x1 x2) := by
  unfold execComresWrite
  refine outOk_next ?_
  apply State.writeComres_memOk
  exact h2

theorem execPmctlReq_memOk (x0) (x1 : State) (h1 : x1.MemOk) : Outcome.MemOk (execPmctlReq x0 x1) := by
  unfold execPmctlReq
  refine outOk_next ?_
  apply State.savedCheck_memOk
  refine pairOk_fst ?_
  apply State.pmReq_memOk
  exact h1

theorem execPmctlRestore_memOk (x0) (x1 : State) (h1 : x1.MemOk) : Outcome.MemOk (execPmctlRestore x0 x1) := by
  unfold execPmctlRestore
  split
  rename_i z1 z2 z3 z4
  refine memOk_have (p := State.MemOk z3) (pairOk_eq z4 ?_) (fun h5 => ?_)
  · apply State.pmRestore_memOk
    exact h1
  refine outOk_next ?_
  refine memOk_ite ?_ ?_
  · exact h5
  · apply State.pmBad_memOk
    exact h5

theorem execCalibrationDone_memOk (x0) (x1) (x2) (x3) (x4 : State) (h4 : x4.MemOk) : Outcome.MemOk (execCalibrationDone x0 x1 x2 x3 x4) := by
  unfold execCalibrationDone
  extract_lets +onlyGivenNames y1
  clear_value y1
  extract_lets +onlyGivenNames y2
  clear_value y2
  refine outOk_ite ?_ ?_
  · refine outOk_next ?_
    exact h4
  · extract_lets +onlyGivenNames y3
    refine memOk_have (p := State.MemOk y3) ?_ (fun h4 => ?_)
    · unfold y3
      apply State.setCluster_memOk
      exact h4
    clear_value y3
    extract_lets +onlyGivenNames y5
    refine memOk_have (p := State.MemOk y5) ?_ (fun h6 => ?_)
    · unfold y5
      apply State.each_memOk
      · exact h4
      · intro s7 a8 h9
        apply State.bin_memOk
        exact h9
    clear_value y5
    extract_lets +onlyGivenNames y10
    refine memOk_have (p := State.MemOk y10) ?_ (fun h11 => ?_)
    · unfold y10
      apply State.after_memOk
      exact h6
    clear_value y10
    refine outOk_next ?_
    refine memOk_ite ?_ ?_
    · apply State.startGate_memOk
      exact h11
    · exact h11

theorem execDroopAlarm_memOk (x0) (x1 : State) (h1 : x1.MemOk) : Outcome.MemOk (execDroopAlarm x0 x1) := by
  unfold execDroopAlarm
  extract_lets +onlyGivenNames y1
  clear_value y1
  refine outOk_ite ?_ ?_
  · refine outOk_next ?_
    exact h1
  · refine outOk_ite ?_ ?_
    · refine outOk_next ?_
      apply State.updCluster_memOk
      exact h1
    · refine outOk_next ?_
      apply State.applyAlarm_memOk
      exact h1

theorem State.endHandler_memOk (x0 : State) (x1) (h0 : x0.MemOk) : State.MemOk (State.endHandler x0 x1) := by
  unfold State.endHandler
  extract_lets +onlyGivenNames y1
  clear_value y1
  extract_lets +onlyGivenNames y2
  refine memOk_have (p := State.MemOk y2) ?_ (fun h3 => ?_)
  · unfold y2
    apply State.updCore_memOk
    exact h0
  clear_value y2
  extract_lets +onlyGivenNames y4
  refine memOk_have (p := State.MemOk y4) ?_ (fun h5 => ?_)
  · unfold y4
    apply State.each_memOk
    · exact h3
    · intro s6 a7 h8
      apply State.resumeLane_memOk
      exact h8
  clear_value y4
  apply State.post_memOk
  exact h5

theorem State.lehrCount_memOk (x0 : State) (x1) (h0 : x0.MemOk) : State.MemOk (State.lehrCount x0 x1) := by
  unfold State.lehrCount
  extract_lets +onlyGivenNames y1
  clear_value y1
  extract_lets +onlyGivenNames y2
  clear_value y2
  extract_lets +onlyGivenNames y3
  clear_value y3
  extract_lets +onlyGivenNames y4
  clear_value y4
  extract_lets +onlyGivenNames y5
  clear_value y5
  refine memOk_ite ?_ ?_
  · exact h0
  · extract_lets +onlyGivenNames y6
    refine memOk_have (p := State.MemOk y6) ?_ (fun h7 => ?_)
    · unfold y6
      apply State.updCore_memOk
      exact h0
    clear_value y6
    extract_lets +onlyGivenNames y8
    refine memOk_have (p := State.MemOk y8) ?_ (fun h9 => ?_)
    · unfold y8
      apply State.updCluster_memOk
      exact h7
    clear_value y8
    extract_lets +onlyGivenNames y10
    clear_value y10
    extract_lets +onlyGivenNames y11
    refine memOk_have (p := State.MemOk y11) ?_ (fun h12 => ?_)
    · unfold y11
      (refine ⟨?_⟩; dsimp only; refine State.MemOk.wf ?_)
      exact h9
    clear_value y11
    extract_lets +onlyGivenNames y13
    refine memOk_have (p := State.MemOk y13) ?_ (fun h14 => ?_)
    · unfold y13
      split
      · rename_i z15 z16 z17 z18 z19
        apply State.updWave_memOk
        (refine ⟨?_⟩; dsimp only; refine State.MemOk.wf ?_)
        exact h12
      · rename_i z20 z21
        exact h12
    clear_value y13
    apply State.after_memOk
    exact h14

theorem State.lehrScan_memOk (x0 : State) (h0 : x0.MemOk) : State.MemOk (State.lehrScan x0) := by
  unfold State.lehrScan
  extract_lets +onlyGivenNames y1
  refine memOk_have (p := State.MemOk y1) ?_ (fun h2 => ?_)
  · unfold y1
    apply State.each_memOk
    · exact h0
    · intro s3 a4 h5
      apply State.lehrCount_memOk
      exact h5
  clear_value y1
  extract_lets +onlyGivenNames y6
  refine memOk_have (p := State.MemOk y6) ?_ (fun h7 => ?_)
  · unfold y6
    apply State.tellAll_memOk
    exact h2
  clear_value y6
  apply State.posts_memOk
  exact h7

theorem State.drainScan_memOk (x0 : State) (h0 : x0.MemOk) : State.MemOk (State.drainScan x0) := by
  unfold State.drainScan
  apply State.each_memOk
  · exact h0
  · intro s1 a2 h3
    apply State.savedCheck_memOk
    apply State.each_memOk
    · exact h3
    · intro s4 a5 h6
      extract_lets +onlyGivenNames y7
      clear_value y7
      refine memOk_ite ?_ ?_
      · exact h6
      · split
        · rename_i z8 z9
          exact h6
        · rename_i z10 z11 z12
          extract_lets +onlyGivenNames y13
          clear_value y13
          refine memOk_ite ?_ ?_
          · refine memOk_ite ?_ ?_
            · exact h6
            · apply State.updCtx_memOk
              exact h6
          · apply State.post_memOk
            exact h6

end Sys2Proof.Machine
end

