-- ==== Sys2Proof/Laws/KeepScalar.lean ====
section
/-! SUPPORT. What keeps the canonical form of memory: the scalar instructions, transactions and system instructions. One lemma per definition that answers a state. -/

namespace Sys2Proof.Machine

theorem State.retry_memOk (x0 : State) (x1) (x2) (x3) (x4) (x5) (h0 : x0.MemOk) : State.MemOk (State.retry x0 x1 x2 x3 x4 x5) := by
  unfold State.retry
  split
  · rename_i z1 z2 z3
    apply State.goto_memOk
    apply State.setWave_memOk
    exact h0
  · rename_i z4 z5
    apply State.txnSleep_memOk
    exact h0

theorem scalarAlu_memOk (x0 : State) (x1) (x2) (x3) (x4) (h0 : x0.MemOk) : Outcome.MemOk (scalarAlu x0 x1 x2 x3 x4) := by
  unfold scalarAlu
  apply scalarResult_memOk
  exact h0

theorem execSmax_memOk (x0) (x1) (x2) (x3) (x4 : State) (h4 : x4.MemOk) : Outcome.MemOk (execSmax x0 x1 x2 x3 x4) := by
  unfold execSmax
  apply scalarAlu_memOk
  exact h4

theorem execSjmp_memOk (x0) (x1 : State) (h1 : x1.MemOk) : Outcome.MemOk (execSjmp x0 x1) := by
  unfold execSjmp
  apply scalarOp_memOk
  · exact h1
  · intro a1 a2 a3
    refine outOk_next ?_
    apply State.goto_memOk
    exact h1

theorem execSlea_memOk (x0) (x1) (x2) (x3) (x4) (x5 : State) (h5 : x5.MemOk) : Outcome.MemOk (execSlea x0 x1 x2 x3 x4 x5) := by
  unfold execSlea
  apply scalarOp_memOk
  · exact h5
  · intro a1 a2 a3
    extract_lets +onlyGivenNames y4
    clear_value y4
    refine outOk_next ?_
    apply State.next_memOk
    apply State.setWave_memOk
    exact h5

theorem scalarAluImm_memOk (x0 : State) (x1) (x2) (x3) (h0 : x0.MemOk) : Outcome.MemOk (scalarAluImm x0 x1 x2 x3) := by
  unfold scalarAluImm
  apply scalarResult_memOk
  exact h0

theorem execSrolImm_memOk (x0) (x1) (x2) (x3 : State) (h3 : x3.MemOk) : Outcome.MemOk (execSrolImm x0 x1 x2 x3) := by
  unfold execSrolImm
  apply scalarAluImm_memOk
  exact h3

theorem inTxnOp_memOk (x0 : State) (x1) (h0 : x0.MemOk) (hk : ∀ r w f t, Outcome.MemOk (x1 r w f t)) : Outcome.MemOk (inTxnOp x0 x1) := by
  unfold inTxnOp
  apply scalarOp_memOk
  · exact h0
  · intro a1 a2 a3
    split
    · rename_i z4 z5 z6
      refine outOk_ite ?_ ?_
      · apply hk
      · refine outOk_next ?_
        apply State.scalarTrap_memOk
        exact h0
    · rename_i z7 z8
      refine outOk_next ?_
      apply State.scalarTrap_memOk
      exact h0

theorem execScalarAccessReturn_memOk (x0) (x1) (x2 : State) (h2 : x2.MemOk) : Outcome.MemOk (execScalarAccessReturn x0 x1 x2) := by
  unfold execScalarAccessReturn
  refine outOk_next ?_
  apply State.waveExitCheck_memOk
  apply State.perform_memOk
  exact h2

theorem execSnop_memOk (x0 : State) (h0 : x0.MemOk) : Outcome.MemOk (execSnop x0) := by
  unfold execSnop
  apply scalarOp_memOk
  · exact h0
  · intro a1 a2 a3
    refine outOk_next ?_
    apply State.next_memOk
    exact h0

theorem execSadd_memOk (x0) (x1) (x2) (x3 : State) (h3 : x3.MemOk) : Outcome.MemOk (execSadd x0 x1 x2 x3) := by
  unfold execSadd
  apply scalarAlu_memOk
  exact h3

theorem execSsub_memOk (x0) (x1) (x2) (x3 : State) (h3 : x3.MemOk) : Outcome.MemOk (execSsub x0 x1 x2 x3) := by
  unfold execSsub
  apply scalarAlu_memOk
  exact h3

theorem execSadc_memOk (x0) (x1) (x2) (x3 : State) (h3 : x3.MemOk) : Outcome.MemOk (execSadc x0 x1 x2 x3) := by
  unfold execSadc
  apply scalarResult_memOk
  exact h3

theorem execSsbc_memOk (x0) (x1) (x2) (x3 : State) (h3 : x3.MemOk) : Outcome.MemOk (execSsbc x0 x1 x2 x3) := by
  unfold execSsbc
  apply scalarResult_memOk
  exact h3

theorem execSmul_memOk (x0) (x1) (x2) (x3 : State) (h3 : x3.MemOk) : Outcome.MemOk (execSmul x0 x1 x2 x3) := by
  unfold execSmul
  apply scalarAlu_memOk
  exact h3

theorem execSmulh_memOk (x0) (x1) (x2) (x3) (x4 : State) (h4 : x4.MemOk) : Outcome.MemOk (execSmulh x0 x1 x2 x3 x4) := by
  unfold execSmulh
  apply scalarAlu_memOk
  exact h4

theorem scalarDivide_memOk (x0 : State) (x1) (x2) (x3) (x4) (h0 : x0.MemOk) : Outcome.MemOk (scalarDivide x0 x1 x2 x3 x4) := by
  unfold scalarDivide
  apply scalarOp_memOk
  · exact h0
  · intro a1 a2 a3
    refine outOk_ite ?_ ?_
    · refine outOk_next ?_
      apply State.scalarTrap_memOk
      exact h0
    · refine outOk_next ?_
      apply State.next_memOk
      apply State.setWave_memOk
      exact h0

theorem execSdiv_memOk (x0) (x1) (x2) (x3) (x4 : State) (h4 : x4.MemOk) : Outcome.MemOk (execSdiv x0 x1 x2 x3 x4) := by
  unfold execSdiv
  apply scalarDivide_memOk
  exact h4

theorem execSrem_memOk (x0) (x1) (x2) (x3) (x4 : State) (h4 : x4.MemOk) : Outcome.MemOk (execSrem x0 x1 x2 x3 x4) := by
  unfold execSrem
  apply scalarDivide_memOk
  exact h4

theorem execSand_memOk (x0) (x1) (x2) (x3 : State) (h3 : x3.MemOk) : Outcome.MemOk (execSand x0 x1 x2 x3) := by
  unfold execSand
  apply scalarAlu_memOk
  exact h3

theorem execSor_memOk (x0) (x1) (x2) (x3 : State) (h3 : x3.MemOk) : Outcome.MemOk (execSor x0 x1 x2 x3) := by
  unfold execSor
  apply scalarAlu_memOk
  exact h3

theorem execSxor_memOk (x0) (x1) (x2) (x3 : State) (h3 : x3.MemOk) : Outcome.MemOk (execSxor x0 x1 x2 x3) := by
  unfold execSxor
  apply scalarAlu_memOk
  exact h3

theorem execSandn_memOk (x0) (x1) (x2) (x3 : State) (h3 : x3.MemOk) : Outcome.MemOk (execSandn x0 x1 x2 x3) := by
  unfold execSandn
  apply scalarAlu_memOk
  exact h3

theorem execSshl_memOk (x0) (x1) (x2) (x3 : State) (h3 : x3.MemOk) : Outcome.MemOk (execSshl x0 x1 x2 x3) := by
  unfold execSshl
  apply scalarAlu_memOk
  exact h3

theorem execSshr_memOk (x0) (x1) (x2) (x3 : State) (h3 : x3.MemOk) : Outcome.MemOk (execSshr x0 x1 x2 x3) := by
  unfold execSshr
  apply scalarAlu_memOk
  exact h3

theorem execSsra_memOk (x0) (x1) (x2) (x3 : State) (h3 : x3.MemOk) : Outcome.MemOk (execSsra x0 x1 x2 x3) := by
  unfold execSsra
  apply scalarAlu_memOk
  exact h3

theorem execSrol_memOk (x0) (x1) (x2) (x3 : State) (h3 : x3.MemOk) : Outcome.MemOk (execSrol x0 x1 x2 x3) := by
  unfold execSrol
  apply scalarAlu_memOk
  exact h3

theorem execSmin_memOk (x0) (x1) (x2) (x3) (x4 : State) (h4 : x4.MemOk) : Outcome.MemOk (execSmin x0 x1 x2 x3 x4) := by
  unfold execSmin
  apply scalarAlu_memOk
  exact h4

theorem execSclz_memOk (x0) (x1) (x2 : State) (h2 : x2.MemOk) : Outcome.MemOk (execSclz x0 x1 x2) := by
  unfold execSclz
  apply scalarAluImm_memOk
  exact h2

theorem execSpopc_memOk (x0) (x1) (x2 : State) (h2 : x2.MemOk) : Outcome.MemOk (execSpopc x0 x1 x2) := by
  unfold execSpopc
  apply scalarAluImm_memOk
  exact h2

theorem execSbrev_memOk (x0) (x1) (x2 : State) (h2 : x2.MemOk) : Outcome.MemOk (execSbrev x0 x1 x2) := by
  unfold execSbrev
  apply scalarAluImm_memOk
  exact h2

theorem execScmp_memOk (x0) (x1) (x2) (x3) (x4 : State) (h4 : x4.MemOk) : Outcome.MemOk (execScmp x0 x1 x2 x3 x4) := by
  unfold execScmp
  apply scalarAlu_memOk
  exact h4

theorem execSlhi_memOk (x0) (x1) (x2) (x3 : State) (h3 : x3.MemOk) : Outcome.MemOk (execSlhi x0 x1 x2 x3) := by
  unfold execSlhi
  apply scalarResult_memOk
  exact h3

theorem execSsel_memOk (x0) (x1) (x2) (x3) (x4 : State) (h4 : x4.MemOk) : Outcome.MemOk (execSsel x0 x1 x2 x3 x4) := by
  unfold execSsel
  apply scalarResult_memOk
  exact h4

theorem execSaddImm_memOk (x0) (x1) (x2) (x3 : State) (h3 : x3.MemOk) : Outcome.MemOk (execSaddImm x0 x1 x2 x3) := by
  unfold execSaddImm
  apply scalarAluImm_memOk
  exact h3

theorem execSandImm_memOk (x0) (x1) (x2) (x3 : State) (h3 : x3.MemOk) : Outcome.MemOk (execSandImm x0 x1 x2 x3) := by
  unfold execSandImm
  apply scalarAluImm_memOk
  exact h3

theorem execSorImm_memOk (x0) (x1) (x2) (x3 : State) (h3 : x3.MemOk) : Outcome.MemOk (execSorImm x0 x1 x2 x3) := by
  unfold execSorImm
  apply scalarAluImm_memOk
  exact h3

theorem execSxorImm_memOk (x0) (x1) (x2) (x3 : State) (h3 : x3.MemOk) : Outcome.MemOk (execSxorImm x0 x1 x2 x3) := by
  unfold execSxorImm
  apply scalarAluImm_memOk
  exact h3

theorem execSshlImm_memOk (x0) (x1) (x2) (x3 : State) (h3 : x3.MemOk) : Outcome.MemOk (execSshlImm x0 x1 x2 x3) := by
  unfold execSshlImm
  apply scalarAluImm_memOk
  exact h3

theorem execSshrImm_memOk (x0) (x1) (x2) (x3 : State) (h3 : x3.MemOk) : Outcome.MemOk (execSshrImm x0 x1 x2 x3) := by
  unfold execSshrImm
  apply scalarAluImm_memOk
  exact h3

theorem execSsraImm_memOk (x0) (x1) (x2) (x3 : State) (h3 : x3.MemOk) : Outcome.MemOk (execSsraImm x0 x1 x2 x3) := by
  unfold execSsraImm
  apply scalarAluImm_memOk
  exact h3

theorem execSmulImm_memOk (x0) (x1) (x2) (x3 : State) (h3 : x3.MemOk) : Outcome.MemOk (execSmulImm x0 x1 x2 x3) := by
  unfold execSmulImm
  apply scalarAluImm_memOk
  exact h3

theorem execScmpImm_memOk (x0) (x1) (x2) (x3 : State) (h3 : x3.MemOk) : Outcome.MemOk (execScmpImm x0 x1 x2 x3) := by
  unfold execScmpImm
  apply scalarAluImm_memOk
  exact h3

theorem State.scalarAccess_memOk (x0 : State) (x1) (x2) (x3) (x4) (x5) (x6) (x7) (x8) (x9) (x10) (x11) (x12) (x13) (h0 : x0.MemOk) : State.MemOk (State.scalarAccess x0 x1 x2 x3 x4 x5 x6 x7 x8 x9 x10 x11 x12 x13) := by
  unfold State.scalarAccess
  refine memOk_ite ?_ ?_
  · apply State.wait_memOk
    exact h0
  · extract_lets +onlyGivenNames y1
    clear_value y1
    extract_lets +onlyGivenNames y2
    clear_value y2
    apply State.issueOp_memOk
    apply State.next_memOk
    exact h0

theorem execSld_memOk (x0) (x1) (x2) (x3) (x4) (x5) (x6) (x7 : State) (h7 : x7.MemOk) : Outcome.MemOk (execSld x0 x1 x2 x3 x4 x5 x6 x7) := by
  unfold execSld
  extract_lets +onlyGivenNames y1
  clear_value y1
  apply scalarOp_memOk
  · exact h7
  · intro a2 a3 a4
    refine outOk_next ?_
    apply State.scalarAccess_memOk
    exact h7

theorem execSst_memOk (x0) (x1) (x2) (x3) (x4) (x5) (x6) (x7 : State) (h7 : x7.MemOk) : Outcome.MemOk (execSst x0 x1 x2 x3 x4 x5 x6 x7) := by
  unfold execSst
  extract_lets +onlyGivenNames y1
  clear_value y1
  apply scalarOp_memOk
  · exact h7
  · intro a2 a3 a4
    refine outOk_next ?_
    apply State.scalarAccess_memOk
    exact h7

theorem execSldk_memOk (x0) (x1) (x2) (x3 : State) (h3 : x3.MemOk) : Outcome.MemOk (execSldk x0 x1 x2 x3) := by
  unfold execSldk
  apply scalarOp_memOk
  · exact h3
  · intro a1 a2 a3
    extract_lets +onlyGivenNames y4
    clear_value y4
    extract_lets +onlyGivenNames y5
    clear_value y5
    refine outOk_next ?_
    apply State.scalarAccess_memOk
    exact h3

theorem execSatom_memOk (x0) (x1) (x2) (x3) (x4) (x5) (x6) (x7 : State) (h7 : x7.MemOk) : Outcome.MemOk (execSatom x0 x1 x2 x3 x4 x5 x6 x7) := by
  unfold execSatom
  extract_lets +onlyGivenNames y1
  clear_value y1
  extract_lets +onlyGivenNames y2
  clear_value y2
  apply scalarOp_memOk
  · exact h7
  · intro a3 a4 a5
    extract_lets +onlyGivenNames y6
    clear_value y6
    extract_lets +onlyGivenNames y7
    clear_value y7
    refine outOk_next ?_
    apply State.scalarAccess_memOk
    exact h7

theorem execSbr_memOk (x0) (x1) (x2) (x3) (x4 : State) (h4 : x4.MemOk) : Outcome.MemOk (execSbr x0 x1 x2 x3 x4) := by
  unfold execSbr
  apply scalarOp_memOk
  · exact h4
  · intro a1 a2 a3
    refine outOk_next ?_
    apply State.goto_memOk
    exact h4

theorem execSjmpx_memOk (x0) (x1 : State) (h1 : x1.MemOk) : Outcome.MemOk (execSjmpx x0 x1) := by
  unfold execSjmpx
  apply scalarOp_memOk
  · exact h1
  · intro a1 a2 a3
    refine outOk_next ?_
    apply State.goto_memOk
    exact h1

theorem execScall_memOk (x0) (x1 : State) (h1 : x1.MemOk) : Outcome.MemOk (execScall x0 x1) := by
  unfold execScall
  apply scalarOp_memOk
  · exact h1
  · intro a1 a2 a3
    refine outOk_next ?_
    apply State.goto_memOk
    apply State.setWave_memOk
    exact h1

theorem execSret_memOk (x0) (x1 : State) (h1 : x1.MemOk) : Outcome.MemOk (execSret x0 x1) := by
  unfold execSret
  apply scalarOp_memOk
  · exact h1
  · intro a1 a2 a3
    refine outOk_next ?_
    apply State.goto_memOk
    exact h1

theorem noTxn_memOk (x0 : State) (x1) (x2) (x3) (x4) (h0 : x0.MemOk) (hk : ∀ u, Outcome.MemOk (x4 u)) : Outcome.MemOk (noTxn x0 x1 x2 x3 x4) := by
  unfold noTxn
  refine outOk_ite ?_ ?_
  · refine outOk_next ?_
    apply State.setWave_memOk
    exact h0
  · apply hk

theorem execSplit_memOk (x0) (x1) (x2) (x3 : State) (h3 : x3.MemOk) : Outcome.MemOk (execSplit x0 x1 x2 x3) := by
  unfold execSplit
  extract_lets +onlyGivenNames y1
  clear_value y1
  apply scalarOp_memOk
  · exact h3
  · intro a2 a3 a4
    extract_lets +onlyGivenNames y5
    clear_value y5
    extract_lets +onlyGivenNames y6
    clear_value y6
    refine outOk_ite ?_ ?_
    · refine outOk_next ?_
      apply State.next_memOk
      exact h3
    · refine outOk_ite ?_ ?_
      · refine outOk_next ?_
        apply State.goto_memOk
        exact h3
      · apply noTxn_memOk
        · exact h3
        · intro a7
          refine outOk_ite ?_ ?_
          · refine outOk_next ?_
            apply State.wait_memOk
            exact h3
          · extract_lets +onlyGivenNames y8
            clear_value y8
            extract_lets +onlyGivenNames y9
            clear_value y9
            extract_lets +onlyGivenNames y10
            clear_value y10
            extract_lets +onlyGivenNames y11
            clear_value y11
            extract_lets +onlyGivenNames y12
            clear_value y12
            refine outOk_next ?_
            apply State.setWave_memOk
            exact h3

theorem execSyield_memOk (x0 : State) (h0 : x0.MemOk) : Outcome.MemOk (execSyield x0) := by
  unfold execSyield
  apply scalarOp_memOk
  · exact h0
  · intro a1 a2 a3
    refine outOk_next ?_
    apply State.next_memOk
    apply State.updFrag_memOk
    exact h0

theorem State.sexit_memOk (x0 : State) (x1) (x2) (x3) (h0 : x0.MemOk) : State.MemOk (State.sexit x0 x1 x2 x3) := by
  unfold State.sexit
  refine memOk_ite ?_ ?_
  · apply State.wait_memOk
    exact h0
  · apply State.waveExitCheck_memOk
    apply State.setWave_memOk
    exact h0

theorem execSexit_memOk (x0 : State) (h0 : x0.MemOk) : Outcome.MemOk (execSexit x0) := by
  unfold execSexit
  apply scalarOp_memOk
  · exact h0
  · intro a1 a2 a3
    apply noTxn_memOk
    · exact h0
    · intro a4
      refine outOk_next ?_
      apply State.sexit_memOk
      exact h0

theorem State.enqueue_memOk (x0 : State) (x1) (x2) (x3) (x4) (x5) (x6) (h0 : x0.MemOk) : State.MemOk (State.enqueue x0 x1 x2 x3 x4 x5 x6) := by
  unfold State.enqueue
  refine memOk_ite ?_ ?_
  · apply State.wait_memOk
    exact h0
  · extract_lets +onlyGivenNames y1
    clear_value y1
    apply State.next_memOk
    apply State.setWave_memOk
    exact h0

theorem execLrun_memOk (x0) (x1) (x2) (x3 : State) (h3 : x3.MemOk) : Outcome.MemOk (execLrun x0 x1 x2 x3) := by
  unfold execLrun
  apply scalarOp_memOk
  · exact h3
  · intro a1 a2 a3
    refine outOk_next ?_
    apply State.enqueue_memOk
    exact h3

theorem execLrunx_memOk (x0) (x1) (x2) (x3 : State) (h3 : x3.MemOk) : Outcome.MemOk (execLrunx x0 x1 x2 x3) := by
  unfold execLrunx
  apply scalarOp_memOk
  · exact h3
  · intro a1 a2 a3
    refine outOk_next ?_
    apply State.enqueue_memOk
    exact h3

theorem execSgetx_memOk (x0) (x1) (x2 : State) (h2 : x2.MemOk) : Outcome.MemOk (execSgetx x0 x1 x2) := by
  unfold execSgetx
  apply scalarOp_memOk
  · exact h2
  · intro a1 a2 a3
    split
    · rename_i z4 z5
      refine outOk_next ?_
      apply State.wait_memOk
      exact h2
    · rename_i z6 z7 z8
      refine outOk_next ?_
      apply State.next_memOk
      apply State.setWave_memOk
      exact h2

theorem execSwaitf_memOk (x0) (x1 : State) (h1 : x1.MemOk) : Outcome.MemOk (execSwaitf x0 x1) := by
  unfold execSwaitf
  apply scalarOp_memOk
  · exact h1
  · intro a1 a2 a3
    refine outOk_ite ?_ ?_
    · refine outOk_next ?_
      apply State.wait_memOk
      exact h1
    · refine outOk_next ?_
      apply State.next_memOk
      exact h1

theorem State.acquireCounts_memOk (x0 : State) (x1) (x2) (x3) (h0 : x0.MemOk) : State.MemOk (State.acquireCounts x0 x1 x2 x3) := by
  unfold State.acquireCounts
  refine memOk_ite ?_ ?_
  · apply State.dropL1_memOk
    exact h0
  · exact h0

theorem execSwaitc_memOk (x0) (x1) (x2 : State) (h2 : x2.MemOk) : Outcome.MemOk (execSwaitc x0 x1 x2) := by
  unfold execSwaitc
  apply scalarOp_memOk
  · exact h2
  · intro a1 a2 a3
    refine outOk_ite ?_ ?_
    · refine outOk_next ?_
      apply State.next_memOk
      apply State.acquireCounts_memOk
      exact h2
    · refine outOk_next ?_
      apply State.wait_memOk
      exact h2

theorem State.barWord_memOk (x0 : State) (x1) (x2) (x3) (x4) (h0 : x0.MemOk) : PairOk (State.barWord x0 x1 x2 x3 x4) := by
  unfold State.barWord
  split
  · rename_i z1 z2 z3 z4
    refine memOk_have (p := State.MemOk z3) (pairOk_eq z4 ?_) (fun h5 => ?_)
    · apply State.resolve_memOk
      exact h0
    refine pairOk_mk ?_
    exact h5
  · rename_i z6 z7 z8 z9 z10
    refine memOk_have (p := State.MemOk z9) (pairOk_eq z10 ?_) (fun h11 => ?_)
    · apply State.resolve_memOk
      exact h0
    split
    rename_i z12 z13 z14 z15
    refine memOk_have (p := State.MemOk z14) (pairOk_eq z15 ?_) (fun h16 => ?_)
    · apply State.memFault_memOk
      exact h11
    refine pairOk_mk ?_
    apply State.updWave_memOk
    exact h16

theorem State.stageRelease_memOk (x0 : State) (x1) (x2) (h0 : x0.MemOk) : State.MemOk (State.stageRelease x0 x1 x2) := by
  unfold State.stageRelease
  extract_lets +onlyGivenNames y1
  clear_value y1
  refine memOk_ite ?_ ?_
  · exact h0
  · extract_lets +onlyGivenNames y2
    refine memOk_have (p := State.MemOk y2) ?_ (fun h3 => ?_)
    · unfold y2
      (refine ⟨?_⟩; dsimp only; refine State.MemOk.wf ?_)
      exact h0
    clear_value y2
    extract_lets +onlyGivenNames y4
    refine memOk_have (p := State.MemOk y4) ?_ (fun h5 => ?_)
    · unfold y4
      apply State.updCore_memOk
      exact h3
    clear_value y4
    apply State.post_memOk
    exact h5

theorem execBara_memOk (x0) (x1) (x2) (x3 : State) (h3 : x3.MemOk) : Outcome.MemOk (execBara x0 x1 x2 x3) := by
  unfold execBara
  apply scalarOp_memOk
  · exact h3
  · intro a1 a2 a3
    extract_lets +onlyGivenNames y4
    clear_value y4
    refine outOk_ite ?_ ?_
    · refine outOk_next ?_
      apply State.scalarTrap_memOk
      exact h3
    · refine outOk_ite ?_ ?_
      · refine outOk_next ?_
        apply State.wait_memOk
        exact h3
      · split
        · rename_i z5 z6 z7
          refine memOk_have (p := State.MemOk z6) (pairOk_eq z7 ?_) (fun h8 => ?_)
          · apply State.barWord_memOk
            exact h3
          refine outOk_next ?_
          exact h8
        · rename_i z9 z10 z11 z12
          refine memOk_have (p := State.MemOk z11) (pairOk_eq z12 ?_) (fun h13 => ?_)
          · apply State.barWord_memOk
            exact h3
          extract_lets +onlyGivenNames y14
          clear_value y14
          split
          · rename_i z15 z16 z17
            extract_lets +onlyGivenNames y18
            refine memOk_have (p := State.MemOk y18) ?_ (fun h19 => ?_)
            · unfold y18
              apply State.claim_memOk
              exact h13
            clear_value y18
            split
            · rename_i z20 z21
              refine outOk_next ?_
              apply State.setWave_memOk
              exact h19
            · rename_i z22 z23 z24
              extract_lets +onlyGivenNames y25
              clear_value y25
              split
              rename_i z26 z27 z28 z29 z30
              refine outOk_ite ?_ ?_
              · refine outOk_next ?_
                apply State.scalarTrap_memOk
                apply State.setWave_memOk
                exact h19
              · split
                · rename_i z31 z32
                  refine outOk_next ?_
                  apply State.setWave_memOk
                  exact h19
                · rename_i z33 z34 z35
                  extract_lets +onlyGivenNames y36
                  clear_value y36
                  refine outOk_next ?_
                  apply State.next_memOk
                  apply State.setWave_memOk
                  exact h19
          · rename_i z37 z38
            extract_lets +onlyGivenNames y39
            clear_value y39
            split
            rename_i z40 z41 z42 z43 z44
            extract_lets +onlyGivenNames y45
            refine memOk_have (p := State.MemOk y45) ?_ (fun h46 => ?_)
            · unfold y45
              split
              · rename_i z47 z48
                apply State.store_memOk
                exact h13
              · rename_i z49
                exact h13
            clear_value y45
            refine outOk_ite ?_ ?_
            · refine outOk_next ?_
              apply State.scalarTrap_memOk
              exact h46
            · extract_lets +onlyGivenNames y50
              refine memOk_have (p := State.MemOk y50) ?_ (fun h51 => ?_)
              · unfold y50
                refine memOk_ite ?_ ?_
                · apply State.stageRelease_memOk
                  exact h46
                · exact h46
              clear_value y50
              refine outOk_next ?_
              apply State.next_memOk
              apply State.updWave_memOk
              exact h51

theorem execBarw_memOk (x0) (x1) (x2 : State) (h2 : x2.MemOk) : Outcome.MemOk (execBarw x0 x1 x2) := by
  unfold execBarw
  apply scalarOp_memOk
  · exact h2
  · intro a1 a2 a3
    extract_lets +onlyGivenNames y4
    clear_value y4
    refine outOk_ite ?_ ?_
    · refine outOk_next ?_
      apply State.wait_memOk
      exact h2
    · refine outOk_ite ?_ ?_
      · refine outOk_next ?_
        apply State.setWave_memOk
        exact h2
      · split
        · rename_i z5 z6 z7
          refine memOk_have (p := State.MemOk z6) (pairOk_eq z7 ?_) (fun h8 => ?_)
          · apply State.barWord_memOk
            exact h2
          refine outOk_next ?_
          exact h8
        · rename_i z9 z10 z11 z12
          refine memOk_have (p := State.MemOk z11) (pairOk_eq z12 ?_) (fun h13 => ?_)
          · apply State.barWord_memOk
            exact h2
          extract_lets +onlyGivenNames y14
          refine memOk_have (p := State.MemOk y14) ?_ (fun h15 => ?_)
          · unfold y14
            refine memOk_ite ?_ ?_
            · exact h13
            · apply State.drainAll_memOk
              exact h13
          clear_value y14
          extract_lets +onlyGivenNames y16
          clear_value y16
          extract_lets +onlyGivenNames y17
          refine memOk_have (p := State.MemOk y17) ?_ (fun h18 => ?_)
          · unfold y17
            apply State.claim_memOk
            exact h15
          clear_value y17
          split
          · rename_i z19 z20
            refine outOk_next ?_
            apply State.setWave_memOk
            exact h18
          · rename_i z21 z22 z23
            extract_lets +onlyGivenNames y24
            clear_value y24
            refine outOk_ite ?_ ?_
            · refine outOk_next ?_
              apply State.scalarTrap_memOk
              exact h18
            · refine outOk_ite ?_ ?_
              · refine outOk_ite ?_ ?_
                · refine outOk_next ?_
                  apply State.next_memOk
                  apply State.setWave_memOk
                  exact h18
                · refine outOk_next ?_
                  apply State.next_memOk
                  apply State.dropL1_memOk
                  apply State.setWave_memOk
                  exact h18
              · refine outOk_next ?_
                apply State.retry_memOk
                exact h18

theorem execPhend_memOk (x0 : State) (h0 : x0.MemOk) : Outcome.MemOk (execPhend x0) := by
  unfold execPhend
  apply scalarOp_memOk
  · exact h0
  · intro a1 a2 a3
    apply noTxn_memOk
    · exact h0
    · intro a4
      refine outOk_ite ?_ ?_
      · refine outOk_next ?_
        apply State.fatalCtx_memOk
        exact h0
      · extract_lets +onlyGivenNames y5
        clear_value y5
        refine outOk_ite ?_ ?_
        · refine outOk_next ?_
          apply State.sexit_memOk
          exact h0
        · refine outOk_ite ?_ ?_
          · refine outOk_next ?_
            apply State.wait_memOk
            exact h0
          · extract_lets +onlyGivenNames y6
            refine memOk_have (p := State.MemOk y6) ?_ (fun h7 => ?_)
            · unfold y6
              apply State.acquireCounts_memOk
              exact h0
            clear_value y6
            extract_lets +onlyGivenNames y8
            refine memOk_have (p := State.MemOk y8) ?_ (fun h9 => ?_)
            · unfold y8
              apply State.updWave_memOk
              exact h7
            clear_value y8
            split
            · rename_i z10 z11 z12
              refine outOk_ite ?_ ?_
              · refine outOk_next ?_
                apply State.parkCheck_memOk
                apply State.setWave_memOk
                exact h9
              · refine outOk_next ?_
                exact h9
            · rename_i z13 z14
              refine outOk_next ?_
              exact h9

theorem execTxb_memOk (x0) (x1 : State) (h1 : x1.MemOk) : Outcome.MemOk (execTxb x0 x1) := by
  unfold execTxb
  apply scalarOp_memOk
  · exact h1
  · intro a1 a2 a3
    split
    · rename_i z4 z5 z6
      refine outOk_ite ?_ ?_
      · refine outOk_ite ?_ ?_
        · refine outOk_next ?_
          apply State.setWave_memOk
          exact h1
        · refine outOk_next ?_
          apply State.next_memOk
          apply State.setWave_memOk
          exact h1
      · refine outOk_next ?_
        apply State.wait_memOk
        exact h1
    · rename_i z7 z8
      refine outOk_ite ?_ ?_
      · refine outOk_next ?_
        apply State.wait_memOk
        exact h1
      · extract_lets +onlyGivenNames y9
        refine memOk_have (p := State.MemOk y9) ?_ (fun h10 => ?_)
        · unfold y9
          apply State.drainAll_memOk
          exact h1
        clear_value y9
        refine outOk_next ?_
        apply State.next_memOk
        apply State.updWave_memOk
        exact h10

theorem execTxc_memOk (x0 : State) (h0 : x0.MemOk) : Outcome.MemOk (execTxc x0) := by
  unfold execTxc
  apply inTxnOp_memOk
  · exact h0
  · intro a1 a2 a3 a4
    refine outOk_ite ?_ ?_
    · refine outOk_next ?_
      apply State.next_memOk
      apply State.setWave_memOk
      exact h0
    · refine outOk_ite ?_ ?_
      · refine outOk_next ?_
        apply State.wait_memOk
        exact h0
      · refine outOk_ite ?_ ?_
        · refine outOk_next ?_
          apply State.setWave_memOk
          exact h0
        · extract_lets +onlyGivenNames y5
          refine memOk_have (p := State.MemOk y5) ?_ (fun h6 => ?_)
          · unfold y5
            apply State.commit_memOk
            exact h0
          clear_value y5
          extract_lets +onlyGivenNames y7
          refine memOk_have (p := State.MemOk y7) ?_ (fun h8 => ?_)
          · unfold y7
            apply State.each_memOk
            · exact h6
            · intro s9 a10 h11
              apply State.stageRelease_memOk
              exact h11
          clear_value y7
          refine outOk_next ?_
          apply State.next_memOk
          exact h8

theorem execTxr_memOk (x0 : State) (h0 : x0.MemOk) : Outcome.MemOk (execTxr x0) := by
  unfold execTxr
  apply inTxnOp_memOk
  · exact h0
  · intro a1 a2 a3 a4
    refine outOk_next ?_
    apply State.retry_memOk
    exact h0

theorem execTxalt_memOk (x0) (x1 : State) (h1 : x1.MemOk) : Outcome.MemOk (execTxalt x0 x1) := by
  unfold execTxalt
  apply inTxnOp_memOk
  · exact h1
  · intro a1 a2 a3 a4
    refine outOk_next ?_
    apply State.next_memOk
    apply State.setWave_memOk
    exact h1

theorem execTxa_memOk (x0) (x1 : State) (h1 : x1.MemOk) : Outcome.MemOk (execTxa x0 x1) := by
  unfold execTxa
  apply inTxnOp_memOk
  · exact h1
  · intro a1 a2 a3 a4
    refine outOk_next ?_
    apply State.setWave_memOk
    exact h1

theorem State.serialise_memOk (x0 : State) (x1) (x2) (h0 : x0.MemOk) : State.MemOk (State.serialise x0 x1 x2) := by
  unfold State.serialise
  apply State.dropL1_memOk
  apply State.drainAll_memOk
  exact h0

theorem execFence_memOk (x0) (x1) (x2 : State) (h2 : x2.MemOk) : Outcome.MemOk (execFence x0 x1 x2) := by
  unfold execFence
  apply scalarOp_memOk
  · exact h2
  · intro a1 a2 a3
    apply noTxn_memOk
    · exact h2
    · intro a4
      refine outOk_ite ?_ ?_
      · refine outOk_next ?_
        apply State.wait_memOk
        exact h2
      · refine outOk_ite ?_ ?_
        · refine outOk_next ?_
          apply State.next_memOk
          exact h2
        · extract_lets +onlyGivenNames y5
          refine memOk_have (p := State.MemOk y5) ?_ (fun h6 => ?_)
          · unfold y5
            refine memOk_ite ?_ ?_
            · apply State.drainAll_memOk
              exact h2
            · exact h2
          clear_value y5
          extract_lets +onlyGivenNames y7
          clear_value y7
          refine outOk_next ?_
          apply State.next_memOk
          apply State.each_memOk
          · exact h6
          · intro s8 a9 h10
            apply State.serialise_memOk
            exact h10

theorem engineCommand_memOk (x0 : State) (x1) (x2) (x3) (x4) (h0 : x0.MemOk) : Outcome.MemOk (engineCommand x0 x1 x2 x3 x4) := by
  unfold engineCommand
  apply scalarOp_memOk
  · exact h0
  · intro a1 a2 a3
    apply noTxn_memOk
    · exact h0
    · intro a4
      extract_lets +onlyGivenNames y5
      clear_value y5
      refine outOk_ite ?_ ?_
      · refine outOk_next ?_
        apply State.wait_memOk
        exact h0
      · extract_lets +onlyGivenNames y6
        refine memOk_have (p := State.MemOk y6) ?_ (fun h7 => ?_)
        · unfold y6
          refine memOk_ite ?_ ?_
          · apply State.drainAll_memOk
            exact h0
          · exact h0
        clear_value y6
        split
        rename_i z8 z9 z10 z11
        refine memOk_have (p := State.MemOk z10) (pairOk_eq z11 ?_) (fun h12 => ?_)
        · apply State.fresh_memOk
          exact h7
        extract_lets +onlyGivenNames y13
        clear_value y13
        extract_lets +onlyGivenNames y14
        refine memOk_have (p := State.MemOk y14) ?_ (fun h15 => ?_)
        · unfold y14
          (refine ⟨?_⟩; dsimp only; refine State.MemOk.wf ?_)
          exact h12
        clear_value y14
        refine outOk_next ?_
        apply State.next_memOk
        apply State.updWave_memOk
        exact h15

theorem execXcopy_memOk (x0) (x1) (x2 : State) (h2 : x2.MemOk) : Outcome.MemOk (execXcopy x0 x1 x2) := by
  unfold execXcopy
  apply engineCommand_memOk
  exact h2

theorem execXgath_memOk (x0) (x1) (x2 : State) (h2 : x2.MemOk) : Outcome.MemOk (execXgath x0 x1 x2) := by
  unfold execXgath
  apply engineCommand_memOk
  exact h2

theorem execXcoll_memOk (x0) (x1) (x2 : State) (h2 : x2.MemOk) : Outcome.MemOk (execXcoll x0 x1 x2) := by
  unfold execXcoll
  apply engineCommand_memOk
  exact h2

theorem execXsend_memOk (x0) (x1) (x2) (x3 : State) (h3 : x3.MemOk) : Outcome.MemOk (execXsend x0 x1 x2 x3) := by
  unfold execXsend
  apply engineCommand_memOk
  exact h3

theorem releaseDev_memOk (x0 : State) (x1) (x2) (x3) (x4) (h0 : x0.MemOk) (hk : ∀ s, s.MemOk → Outcome.MemOk (x4 s)) : Outcome.MemOk (releaseDev x0 x1 x2 x3 x4) := by
  unfold releaseDev
  refine outOk_ite ?_ ?_
  · refine outOk_next ?_
    apply State.wait_memOk
    exact h0
  · apply hk
    apply State.drainAll_memOk
    exact h0

theorem execLaunch_memOk (x0) (x1) (x2) (x3 : State) (h3 : x3.MemOk) : Outcome.MemOk (execLaunch x0 x1 x2 x3) := by
  unfold execLaunch
  apply scalarOp_memOk
  · exact h3
  · intro a1 a2 a3
    apply noTxn_memOk
    · exact h3
    · intro a4
      apply releaseDev_memOk
      · exact h3
      · intro s5 h6
        split
        rename_i z7 z8 z9 z10
        refine memOk_have (p := State.MemOk z9) (pairOk_eq z10 ?_) (fun h11 => ?_)
        · apply State.push_memOk
          exact h6
        refine outOk_next ?_
        apply State.next_memOk
        apply State.updWave_memOk
        exact h11

theorem execSigq_memOk (x0) (x1) (x2 : State) (h2 : x2.MemOk) : Outcome.MemOk (execSigq x0 x1 x2) := by
  unfold execSigq
  apply scalarOp_memOk
  · exact h2
  · intro a1 a2 a3
    apply noTxn_memOk
    · exact h2
    · intro a4
      apply releaseDev_memOk
      · exact h2
      · intro s5 h6
        extract_lets +onlyGivenNames y7
        clear_value y7
        split
        · rename_i z8 z9 z10
          refine memOk_have (p := State.MemOk z9) (optOk_eq z10 ?_) (fun h11 => ?_)
          · refine optOk_ite ?_ ?_
            · apply State.sigWrite_memOk
              exact h6
            · exact optOk_none
          refine outOk_next ?_
          apply State.next_memOk
          exact h11
        · rename_i z12 z13
          refine outOk_next ?_
          apply State.scalarTrap_memOk
          exact h6

theorem execTrap_memOk (x0) (x1 : State) (h1 : x1.MemOk) : Outcome.MemOk (execTrap x0 x1) := by
  unfold execTrap
  apply scalarOp_memOk
  · exact h1
  · intro a1 a2 a3
    apply noTxn_memOk
    · exact h1
    · intro a4
      refine outOk_next ?_
      apply State.scalarTrap_memOk
      exact h1

theorem scalarPair_memOk (x0 : State) (x1) (x2) (h0 : x0.MemOk) : Outcome.MemOk (scalarPair x0 x1 x2) := by
  unfold scalarPair
  apply scalarOp_memOk
  · exact h0
  · intro a1 a2 a3
    refine outOk_next ?_
    apply State.next_memOk
    apply State.setWave_memOk
    exact h0

theorem execTime_memOk (x0) (x1 : State) (h1 : x1.MemOk) : Outcome.MemOk (execTime x0 x1) := by
  unfold execTime
  apply scalarPair_memOk
  exact h1

theorem execCyc_memOk (x0) (x1 : State) (h1 : x1.MemOk) : Outcome.MemOk (execCyc x0 x1) := by
  unfold execCyc
  apply scalarPair_memOk
  exact h1

theorem execSrsr_memOk (x0) (x1) (x2 : State) (h2 : x2.MemOk) : Outcome.MemOk (execSrsr x0 x1 x2) := by
  unfold execSrsr
  apply scalarOp_memOk
  · exact h2
  · intro a1 a2 a3
    refine outOk_ite ?_ ?_
    · refine outOk_next ?_
      apply State.wait_memOk
      exact h2
    · refine outOk_next ?_
      apply State.next_memOk
      apply State.setWave_memOk
      exact h2

theorem execSwsr_memOk (x0) (x1) (x2 : State) (h2 : x2.MemOk) : Outcome.MemOk (execSwsr x0 x1 x2) := by
  unfold execSwsr
  apply scalarOp_memOk
  · exact h2
  · intro a1 a2 a3
    refine outOk_ite ?_ ?_
    · refine outOk_next ?_
      apply State.wait_memOk
      exact h2
    · refine outOk_next ?_
      apply State.next_memOk
      apply State.setWave_memOk
      exact h2

theorem execBrk_memOk (x0) (x1 : State) (h1 : x1.MemOk) : Outcome.MemOk (execBrk x0 x1) := by
  unfold execBrk
  apply scalarOp_memOk
  · exact h1
  · intro a1 a2 a3
    refine outOk_next ?_
    apply State.scalarTrap_memOk
    exact h1

theorem execBurst_memOk (x0) (x1 : State) (h1 : x1.MemOk) : Outcome.MemOk (execBurst x0 x1) := by
  unfold execBurst
  apply scalarOp_memOk
  · exact h1
  · intro a1 a2 a3
    apply noTxn_memOk
    · exact h1
    · intro a4
      refine outOk_next ?_
      apply State.next_memOk
      apply State.announce_memOk
      exact h1

theorem execBurstx_memOk (x0 : State) (h0 : x0.MemOk) : Outcome.MemOk (execBurstx x0) := by
  unfold execBurstx
  apply scalarOp_memOk
  · exact h0
  · intro a1 a2 a3
    refine outOk_next ?_
    apply State.next_memOk
    apply State.setWave_memOk
    exact h0

theorem execPerfl_memOk (x0) (x1 : State) (h1 : x1.MemOk) : Outcome.MemOk (execPerfl x0 x1) := by
  unfold execPerfl
  apply scalarOp_memOk
  · exact h1
  · intro a1 a2 a3
    extract_lets +onlyGivenNames y4
    clear_value y4
    extract_lets +onlyGivenNames y5
    refine memOk_have (p := State.MemOk y5) ?_ (fun h6 => ?_)
    · unfold y5
      refine memOk_ite ?_ ?_
      · apply State.perfRequest_memOk
        exact h1
      · exact h1
    clear_value y5
    refine outOk_next ?_
    apply State.next_memOk
    exact h6

end Sys2Proof.Machine
end

