-- ==== Sys2Proof/Laws/KeepFabric.lean ====
section
/-! SUPPORT. What keeps the canonical form of memory: the crucibles, ports, engines, circuits, registers and the gaffer. One lemma per definition that answers a state. -/

namespace Sys2Proof.Machine

theorem State.refuseEnd_memOk (x0 : State) (x1) (x2) (x3) (x4) (h0 : x0.MemOk) : State.MemOk (State.refuseEnd x0 x1 x2 x3 x4) := by
  unfold State.refuseEnd
  apply State.retireStart_memOk
  apply State.fabricErr_memOk
  exact h0

theorem State.updCmd_memOk (x0 : State) (x1) (x2) (x3) (h0 : x0.MemOk) : State.MemOk (State.updCmd x0 x1 x2 x3) := by
  unfold State.updCmd
  extract_lets +onlyGivenNames y1
  clear_value y1
  apply State.setStream_memOk
  exact h0

theorem State.startWaits_memOk (x0 : State) (x1) (x2) (x3) (x4) (h0 : x0.MemOk) : State.MemOk (State.startWaits x0 x1 x2 x3 x4) := by
  unfold State.startWaits
  split
  · rename_i z1 z2
    apply State.updAsync_memOk
    exact h0
  · rename_i z3 z4 z5
    apply State.updCmd_memOk
    exact h0

theorem State.refuseStart_memOk (x0 : State) (x1) (x2) (x3) (x4) (x5) (h0 : x0.MemOk) : State.MemOk (State.refuseStart x0 x1 x2 x3 x4 x5) := by
  unfold State.refuseStart
  split
  · rename_i z1 z2 z3 z4
    refine memOk_have (p := State.MemOk z3) (pairOk_eq z4 ?_) (fun h5 => ?_)
    · apply State.devWrite_memOk
      exact h0
    apply State.refuseEnd_memOk
    exact h5
  · rename_i z6 z7 z8 z9 z10
    refine memOk_have (p := State.MemOk z9) (pairOk_eq z10 ?_) (fun h11 => ?_)
    · apply State.devWrite_memOk
      exact h0
    refine memOk_ite ?_ ?_
    · apply State.refuseEnd_memOk
      apply State.fabricErr_memOk
      exact h11
    · split
      rename_i z12 z13 z14 z15
      refine memOk_have (p := State.MemOk z14) (pairOk_eq z15 ?_) (fun h16 => ?_)
      · apply State.memFault_memOk
        exact h11
      apply State.startWaits_memOk
      exact h16

theorem State.startUnusable_memOk (x0 : State) (x1) (x2) (x3) (x4) (x5) (h0 : x0.MemOk) : State.MemOk (State.startUnusable x0 x1 x2 x3 x4 x5) := by
  unfold State.startUnusable
  split
  · rename_i z1 z2
    apply State.retireStart_memOk
    apply State.fabricErr_memOk
    exact h0
  · rename_i z3 z4 z5
    split
    · rename_i z6 z7 z8
      apply State.complete_memOk
      exact h0
    · rename_i z9 z10
      exact h0

theorem State.startHeld_memOk (x0 : State) (x1) (h0 : x0.MemOk) : State.MemOk (State.startHeld x0 x1) := by
  unfold State.startHeld
  split
  · rename_i z1 z2
    apply State.updAsync_memOk
    exact h0
  · rename_i z3 z4 z5
    apply State.updCmd_memOk
    exact h0

theorem State.readRanks_memOk (x0 : State) (x1) (x2) (x3) (h0 : x0.MemOk) : PairOk (State.readRanks x0 x1 x2 x3) := by
  unfold State.readRanks
  extract_lets +onlyGivenNames y1
  clear_value y1
  split
  · rename_i z2 z3 z4 z5
    refine memOk_have (p := State.MemOk z4) (pairOk_eq z5 ?_) (fun h6 => ?_)
    · refine pairOk_ite ?_ ?_
      · refine pairOk_mk ?_
        exact h0
      · apply State.devRead_memOk
        exact h0
    refine pairOk_mk ?_
    exact h6
  · rename_i z7 z8 z9 z10
    refine memOk_have (p := State.MemOk z9) (pairOk_eq z10 ?_) (fun h11 => ?_)
    · refine pairOk_ite ?_ ?_
      · refine pairOk_mk ?_
        exact h0
      · apply State.devRead_memOk
        exact h0
    refine pairOk_ite ?_ ?_
    · refine pairOk_mk ?_
      exact h11
    · split
      · rename_i z12 z13 z14 z15
        refine memOk_have (p := State.MemOk z14) (pairOk_eq z15 ?_) (fun h16 => ?_)
        · apply State.devRead_memOk
          exact h11
        refine pairOk_mk ?_
        exact h16
      · rename_i z17 z18 z19 z20
        refine memOk_have (p := State.MemOk z19) (pairOk_eq z20 ?_) (fun h21 => ?_)
        · apply State.devRead_memOk
          exact h11
        refine pairOk_mk ?_
        exact h21

theorem State.readTables_memOk (x0 : State) (x1) (x2) (x3) (h0 : x0.MemOk) : PairOk (State.readTables x0 x1 x2 x3) := by
  unfold State.readTables
  extract_lets +onlyGivenNames y1
  clear_value y1
  split
  · rename_i z2 z3 z4 z5 z6
    refine memOk_have (p := State.MemOk z5) (pairOk_eq z6 ?_) (fun h7 => ?_)
    · apply State.readRanks_memOk
      exact h0
    refine pairOk_mk ?_
    exact h7
  · rename_i z8 z9 z10 z11
    refine memOk_have (p := State.MemOk z10) (pairOk_eq z11 ?_) (fun h12 => ?_)
    · apply State.readRanks_memOk
      exact h0
    refine pairOk_ite ?_ ?_
    · refine pairOk_mk ?_
      exact h12
    · split
      · rename_i z13 z14 z15 z16 z17
        refine memOk_have (p := State.MemOk z16) (pairOk_eq z17 ?_) (fun h18 => ?_)
        · apply State.devRead_memOk
          exact h12
        refine pairOk_mk ?_
        exact h18
      · rename_i z19 z20 z21 z22
        refine memOk_have (p := State.MemOk z21) (pairOk_eq z22 ?_) (fun h23 => ?_)
        · apply State.devRead_memOk
          exact h12
        refine pairOk_ite ?_ ?_
        · refine pairOk_mk ?_
          exact h23
        · refine pairOk_ite ?_ ?_
          · refine pairOk_mk ?_
            exact h23
          · split
            · rename_i z24 z25 z26 z27 z28
              refine memOk_have (p := State.MemOk z27) (pairOk_eq z28 ?_) (fun h29 => ?_)
              · apply State.devRead_memOk
                exact h23
              refine pairOk_mk ?_
              exact h29
            · rename_i z30 z31 z32 z33
              refine memOk_have (p := State.MemOk z32) (pairOk_eq z33 ?_) (fun h34 => ?_)
              · apply State.devRead_memOk
                exact h23
              refine pairOk_mk ?_
              exact h34

theorem State.collStart_memOk (x0 : State) (x1) (x2) (x3) (x4) (h0 : x0.MemOk) : State.MemOk (State.collStart x0 x1 x2 x3 x4) := by
  unfold State.collStart
  split
  rename_i z1 z2 z3 z4
  refine memOk_ite ?_ ?_
  · apply State.startUnusable_memOk
    exact h0
  · split
    · rename_i z5 z6 z7 z8 z9
      refine memOk_have (p := State.MemOk z8) (pairOk_eq z9 ?_) (fun h10 => ?_)
      · apply State.devRead_memOk
        exact h0
      refine memOk_ite ?_ ?_
      · apply State.startUnusable_memOk
        exact h10
      · split
        rename_i z11 z12 z13 z14
        refine memOk_have (p := State.MemOk z13) (pairOk_eq z14 ?_) (fun h15 => ?_)
        · apply State.memFault_memOk
          exact h10
        apply State.startWaits_memOk
        exact h15
    · rename_i z16 z17 z18 z19
      refine memOk_have (p := State.MemOk z18) (pairOk_eq z19 ?_) (fun h20 => ?_)
      · apply State.devRead_memOk
        exact h0
      extract_lets +onlyGivenNames y21
      clear_value y21
      extract_lets +onlyGivenNames y22
      clear_value y22
      refine memOk_ite ?_ ?_
      · apply State.refuseStart_memOk
        exact h20
      · refine memOk_ite ?_ ?_
        · apply State.startHeld_memOk
          exact h20
        · split
          · rename_i z23 z24 z25 z26 z27
            refine memOk_have (p := State.MemOk z26) (pairOk_eq z27 ?_) (fun h28 => ?_)
            · apply State.readTables_memOk
              exact h20
            refine memOk_ite ?_ ?_
            · apply State.refuseStart_memOk
              exact h28
            · split
              rename_i z29 z30 z31 z32
              refine memOk_have (p := State.MemOk z31) (pairOk_eq z32 ?_) (fun h33 => ?_)
              · apply State.memFault_memOk
                exact h28
              apply State.startWaits_memOk
              exact h33
          · rename_i z34 z35 z36
            refine memOk_have (p := State.MemOk z35) (pairOk_eq z36 ?_) (fun h37 => ?_)
            · apply State.readTables_memOk
              exact h20
            apply State.refuseStart_memOk
            exact h37
          · rename_i z38 z39 z40 z41 z42 z43
            refine memOk_have (p := State.MemOk z42) (pairOk_eq z43 ?_) (fun h44 => ?_)
            · apply State.readTables_memOk
              exact h20
            refine memOk_ite ?_ ?_
            · apply State.refuseStart_memOk
              exact h44
            · split
              rename_i z45 z46 z47 z48
              refine memOk_have (p := State.MemOk z47) (pairOk_eq z48 ?_) (fun h49 => ?_)
              · apply State.fresh_memOk
                exact h44
              extract_lets +onlyGivenNames y50
              refine memOk_have (p := State.MemOk y50) ?_ (fun h51 => ?_)
              · unfold y50
                apply State.setCx_memOk
                exact h49
              clear_value y50
              apply State.post_memOk
              exact h51

theorem State.armTimeout_memOk (x0 : State) (x1) (x2) (h0 : x0.MemOk) : State.MemOk (State.armTimeout x0 x1 x2) := by
  unfold State.armTimeout
  extract_lets +onlyGivenNames y1
  clear_value y1
  split
  · rename_i z2 z3 z4 z5 z6
    refine memOk_ite ?_ ?_
    · exact h0
    · apply State.atTime_memOk
      apply State.setCx_memOk
      exact h0
  · rename_i z7 z8 z9
    exact h0

theorem asGaffer_memOk (x0 : State) (x1) (_h0 : x0.MemOk) (hk : ∀ t g, Outcome.MemOk (x1 t g)) : Outcome.MemOk (asGaffer x0 x1) := by
  unfold asGaffer
  split
  · rename_i z1 z2 z3
    refine outOk_ite ?_ ?_
    · apply hk
    · exact outOk_fault
  · rename_i z4 z5
    exact outOk_fault

theorem State.gDone_memOk (x0 : State) (x1) (x2) (x3) (h0 : x0.MemOk) : State.MemOk (State.gDone x0 x1 x2 x3) := by
  unfold State.gDone
  extract_lets +onlyGivenNames y1
  clear_value y1
  apply State.setGth_memOk
  exact h0

theorem gafferResult_memOk (x0 : State) (x1) (x2) (h0 : x0.MemOk) : Outcome.MemOk (gafferResult x0 x1 x2) := by
  unfold gafferResult
  apply asGaffer_memOk
  · exact h0
  · intro a1 a2
    refine outOk_next ?_
    apply State.gDone_memOk
    exact h0

theorem execCmovImm_memOk (x0) (x1) (x2) (x3 : State) (h3 : x3.MemOk) : Outcome.MemOk (execCmovImm x0 x1 x2 x3) := by
  unfold execCmovImm
  apply gafferResult_memOk
  exact h3

theorem execRttcCorrection_memOk (x0 : State) (h0 : x0.MemOk) : Outcome.MemOk (execRttcCorrection x0) := by
  unfold execRttcCorrection
  extract_lets +onlyGivenNames y1
  refine memOk_have (p := State.MemOk y1) ?_ (fun h2 => ?_)
  · unfold y1
    (refine ⟨?_⟩; dsimp only; refine State.MemOk.wf ?_)
    exact h0
  clear_value y1
  refine outOk_next ?_
  apply State.after_memOk
  exact h2

theorem execCand_memOk (x0) (x1) (x2) (x3 : State) (h3 : x3.MemOk) : Outcome.MemOk (execCand x0 x1 x2 x3) := by
  unfold execCand
  apply gafferResult_memOk
  exact h3

theorem State.answer_memOk (x0 : State) (x1) (x2) (x3) (x4) (h0 : x0.MemOk) : State.MemOk (State.answer x0 x1 x2 x3 x4) := by
  unfold State.answer
  extract_lets +onlyGivenNames y1
  clear_value y1
  extract_lets +onlyGivenNames y2
  clear_value y2
  extract_lets +onlyGivenNames y3
  clear_value y3
  apply State.sendPacket_memOk
  exact h0

theorem State.armPort_memOk (x0 : State) (x1) (h0 : x0.MemOk) : State.MemOk (State.armPort x0 x1) := by
  unfold State.armPort
  extract_lets +onlyGivenNames y1
  clear_value y1
  apply State.atTime_memOk
  apply State.setCircuit_memOk
  exact h0

theorem execRsv_memOk (x0) (x1) (x2 : State) (h2 : x2.MemOk) : Outcome.MemOk (execRsv x0 x1 x2) := by
  unfold execRsv
  split
  · rename_i z1 z2 z3
    refine memOk_have (p := State.MemOk z2) (pairOk_eq z3 ?_) (fun h4 => ?_)
    · apply State.receive_memOk
      exact h2
    refine outOk_next ?_
    exact h4
  · rename_i z5 z6 z7
    refine memOk_have (p := State.MemOk z6) (pairOk_eq z7 ?_) (fun h8 => ?_)
    · apply State.receive_memOk
      exact h2
    extract_lets +onlyGivenNames y9
    clear_value y9
    extract_lets +onlyGivenNames y10
    clear_value y10
    extract_lets +onlyGivenNames y11
    clear_value y11
    extract_lets +onlyGivenNames y12
    clear_value y12
    extract_lets +onlyGivenNames y13
    clear_value y13
    extract_lets +onlyGivenNames y14
    clear_value y14
    extract_lets +onlyGivenNames y15
    clear_value y15
    extract_lets +onlyGivenNames y16
    clear_value y16
    refine outOk_ite ?_ ?_
    · refine outOk_next ?_
      apply State.answer_memOk
      exact h8
    · refine outOk_ite ?_ ?_
      · refine outOk_next ?_
        apply State.answer_memOk
        exact h8
      · split
        · rename_i z17
          refine outOk_next ?_
          apply State.answer_memOk
          exact h8
        · rename_i z18 z19
          refine outOk_ite ?_ ?_
          · refine outOk_next ?_
            apply State.answer_memOk
            exact h8
          · extract_lets +onlyGivenNames y20
            clear_value y20
            extract_lets +onlyGivenNames y21
            clear_value y21
            extract_lets +onlyGivenNames y22
            refine memOk_have (p := State.MemOk y22) ?_ (fun h23 => ?_)
            · unfold y22
              apply State.moveEntry_memOk
              exact h8
            clear_value y22
            extract_lets +onlyGivenNames y24
            refine memOk_have (p := State.MemOk y24) ?_ (fun h25 => ?_)
            · unfold y24
              apply State.gEvent_memOk
              exact h23
            clear_value y24
            extract_lets +onlyGivenNames y26
            refine memOk_have (p := State.MemOk y26) ?_ (fun h27 => ?_)
            · unfold y26
              apply State.answer_memOk
              exact h25
            clear_value y26
            refine outOk_next ?_
            apply State.armSlot_memOk
            apply State.armPort_memOk
            exact h27

theorem execAck_memOk (x0) (x1) (x2 : State) (h2 : x2.MemOk) : Outcome.MemOk (execAck x0 x1 x2) := by
  unfold execAck
  split
  · rename_i z1 z2 z3
    refine memOk_have (p := State.MemOk z2) (pairOk_eq z3 ?_) (fun h4 => ?_)
    · apply State.receive_memOk
      exact h2
    refine outOk_next ?_
    exact h4
  · rename_i z5 z6 z7
    refine memOk_have (p := State.MemOk z6) (pairOk_eq z7 ?_) (fun h8 => ?_)
    · apply State.receive_memOk
      exact h2
    split
    · rename_i z9 z10
      refine outOk_next ?_
      exact h8
    · rename_i z11 z12 z13
      extract_lets +onlyGivenNames y14
      clear_value y14
      refine outOk_ite ?_ ?_
      · extract_lets +onlyGivenNames y15
        clear_value y15
        extract_lets +onlyGivenNames y16
        refine memOk_have (p := State.MemOk y16) ?_ (fun h17 => ?_)
        · unfold y16
          apply State.moveEntry_memOk
          exact h8
        clear_value y16
        refine outOk_next ?_
        apply State.armSlot_memOk
        apply State.armPort_memOk
        exact h17
      · refine outOk_next ?_
        exact h8

theorem execDeny_memOk (x0) (x1) (x2 : State) (h2 : x2.MemOk) : Outcome.MemOk (execDeny x0 x1 x2) := by
  unfold execDeny
  split
  · rename_i z1 z2 z3
    refine memOk_have (p := State.MemOk z2) (pairOk_eq z3 ?_) (fun h4 => ?_)
    · apply State.receive_memOk
      exact h2
    refine outOk_next ?_
    exact h4
  · rename_i z5 z6 z7
    refine memOk_have (p := State.MemOk z6) (pairOk_eq z7 ?_) (fun h8 => ?_)
    · apply State.receive_memOk
      exact h2
    split
    · rename_i z9 z10
      refine outOk_next ?_
      exact h8
    · rename_i z11 z12 z13
      refine outOk_ite ?_ ?_
      · refine outOk_next ?_
        apply State.backOff_memOk
        exact h8
      · refine outOk_next ?_
        exact h8

theorem State.unmiss_memOk (x0 : State) (x1) (h0 : x0.MemOk) : State.MemOk (State.unmiss x0 x1) := by
  unfold State.unmiss
  extract_lets +onlyGivenNames y1
  clear_value y1
  refine memOk_ite ?_ ?_
  · exact h0
  · extract_lets +onlyGivenNames y2
    clear_value y2
    extract_lets +onlyGivenNames y3
    clear_value y3
    extract_lets +onlyGivenNames y4
    refine memOk_have (p := State.MemOk y4) ?_ (fun h5 => ?_)
    · unfold y4
      apply State.setGth_memOk
      exact h0
    clear_value y4
    extract_lets +onlyGivenNames y6
    refine memOk_have (p := State.MemOk y6) ?_ (fun h7 => ?_)
    · unfold y6
      (refine ⟨?_⟩; dsimp only; refine State.MemOk.wf ?_)
      exact h5
    clear_value y6
    apply State.setCircuit_memOk
    exact h7

theorem execTear_memOk (x0) (x1) (x2 : State) (h2 : x2.MemOk) : Outcome.MemOk (execTear x0 x1 x2) := by
  unfold execTear
  split
  · rename_i z1 z2 z3
    refine memOk_have (p := State.MemOk z2) (pairOk_eq z3 ?_) (fun h4 => ?_)
    · apply State.receive_memOk
      exact h2
    refine outOk_next ?_
    exact h4
  · rename_i z5 z6 z7
    refine memOk_have (p := State.MemOk z6) (pairOk_eq z7 ?_) (fun h8 => ?_)
    · apply State.receive_memOk
      exact h2
    extract_lets +onlyGivenNames y9
    clear_value y9
    extract_lets +onlyGivenNames y10
    clear_value y10
    extract_lets +onlyGivenNames y11
    clear_value y11
    extract_lets +onlyGivenNames y12
    refine memOk_have (p := State.MemOk y12) ?_ (fun h13 => ?_)
    · unfold y12
      split
      · rename_i z14 z15 z16
        apply State.unmiss_memOk
        exact h8
      · rename_i z17 z18
        exact h8
    clear_value y12
    extract_lets +onlyGivenNames y19
    refine memOk_have (p := State.MemOk y19) ?_ (fun h20 => ?_)
    · unfold y19
      split
      · rename_i z21 z22
        exact h13
      · rename_i z23 z24 z25
        extract_lets +onlyGivenNames y26
        clear_value y26
        split
        · rename_i z27 z28
          apply State.moveEntry_memOk
          exact h13
        · rename_i z29 z30
          refine memOk_ite ?_ ?_
          · apply State.freeIfDark_memOk
            apply State.writeTarget_memOk
            apply State.setCircuit_memOk
            exact h13
          · apply State.writeTarget_memOk
            apply State.moveEntry_memOk
            exact h13
        · rename_i z31 z32
          refine memOk_ite ?_ ?_
          · apply State.freeIfDark_memOk
            apply State.writeTarget_memOk
            apply State.moveEntry_memOk
            exact h13
          · apply State.writeTarget_memOk
            apply State.moveEntry_memOk
            exact h13
        · rename_i z33 z34 z35 z36
          exact h13
    clear_value y19
    refine outOk_next ?_
    apply State.sendPacket_memOk
    exact h20

theorem execTack_memOk (x0) (x1) (x2 : State) (h2 : x2.MemOk) : Outcome.MemOk (execTack x0 x1 x2) := by
  unfold execTack
  split
  · rename_i z1 z2 z3
    refine memOk_have (p := State.MemOk z2) (pairOk_eq z3 ?_) (fun h4 => ?_)
    · apply State.receive_memOk
      exact h2
    refine outOk_next ?_
    exact h4
  · rename_i z5 z6 z7
    refine memOk_have (p := State.MemOk z6) (pairOk_eq z7 ?_) (fun h8 => ?_)
    · apply State.receive_memOk
      exact h2
    split
    · rename_i z9 z10
      refine outOk_next ?_
      exact h8
    · rename_i z11 z12 z13
      refine outOk_ite ?_ ?_
      · refine outOk_next ?_
        apply State.moveEntry_memOk
        exact h8
      · refine outOk_next ?_
        exact h8

theorem State.epTarget_memOk (x0 : State) (x1) (x2) (x3) (x4) (x5) (x6) (x7) (h0 : x0.MemOk) : PairOk (State.epTarget x0 x1 x2 x3 x4 x5 x6 x7) := by
  unfold State.epTarget
  refine pairOk_ite ?_ ?_
  · refine pairOk_mk ?_
    exact h0
  · split
    · rename_i z1 z2 z3 z4
      refine memOk_have (p := State.MemOk z3) (pairOk_eq z4 ?_) (fun h5 => ?_)
      · apply State.resolve_memOk
        exact h0
      refine pairOk_mk ?_
      exact h5
    · rename_i z6 z7 z8 z9
      refine memOk_have (p := State.MemOk z8) (pairOk_eq z9 ?_) (fun h10 => ?_)
      · apply State.resolve_memOk
        exact h0
      refine pairOk_mk ?_
      exact h10

theorem State.applyMessage_memOk (x0 : State) (x1) (x2) (h0 : x0.MemOk) : OptOk (State.applyMessage x0 x1 x2) := by
  unfold State.applyMessage
  extract_lets +onlyGivenNames y1
  clear_value y1
  extract_lets +onlyGivenNames y2
  clear_value y2
  refine optOk_ite ?_ ?_
  · exact optOk_none
  · split
    · rename_i z3 z4
      exact optOk_none
    · rename_i z5 z6 z7
      split
      · rename_i z8 z9 z10 z11
        refine memOk_have (p := State.MemOk z10) (pairOk_eq z11 ?_) (fun h12 => ?_)
        · apply State.devRead_memOk
          exact h0
        exact optOk_none
      · rename_i z13 z14 z15 z16
        refine memOk_have (p := State.MemOk z15) (pairOk_eq z16 ?_) (fun h17 => ?_)
        · apply State.devRead_memOk
          exact h0
        extract_lets +onlyGivenNames y18
        clear_value y18
        refine optOk_ite ?_ ?_
        · exact optOk_none
        · extract_lets +onlyGivenNames y19
          clear_value y19
          split
          rename_i z20 z21 z22 z23
          refine memOk_have (p := State.MemOk z22) (pairOk_eq z23 ?_) (fun h24 => ?_)
          · apply State.epTarget_memOk
            exact h17
          split
          rename_i z25 z26 z27 z28
          refine memOk_have (p := State.MemOk z27) (pairOk_eq z28 ?_) (fun h29 => ?_)
          · apply State.epTarget_memOk
            exact h24
          split
          · rename_i z30 z31 z32 z33
            refine optOk_some ?_
            apply State.tcount_memOk
            apply State.twrite_memOk
            exact h29
          · rename_i z34 z35 z36
            exact optOk_none

theorem State.receiveMessage_memOk (x0 : State) (x1) (x2) (h0 : x0.MemOk) : State.MemOk (State.receiveMessage x0 x1 x2) := by
  unfold State.receiveMessage
  extract_lets +onlyGivenNames y1
  clear_value y1
  refine memOk_ite ?_ ?_
  · apply State.sendNack_memOk
    exact h0
  · split
    · rename_i z2 z3 z4
      refine memOk_have (p := State.MemOk z3) (optOk_eq z4 ?_) (fun h5 => ?_)
      · apply State.applyMessage_memOk
        exact h0
      apply State.sendPacket_memOk
      exact h5
    · rename_i z6 z7
      apply State.sendNack_memOk
      exact h0

theorem execCarry_memOk (x0) (x1) (x2 : State) (h2 : x2.MemOk) : Outcome.MemOk (execCarry x0 x1 x2) := by
  unfold execCarry
  split
  · rename_i z1 z2 z3
    refine memOk_have (p := State.MemOk z2) (pairOk_eq z3 ?_) (fun h4 => ?_)
    · apply State.receive_memOk
      exact h2
    refine outOk_next ?_
    exact h4
  · rename_i z5 z6 z7
    refine memOk_have (p := State.MemOk z6) (pairOk_eq z7 ?_) (fun h8 => ?_)
    · apply State.receive_memOk
      exact h2
    refine outOk_next ?_
    apply State.receiveMessage_memOk
    exact h8

theorem State.cruNack_memOk (x0 : State) (x1) (x2) (x3) (x4) (h0 : x0.MemOk) : State.MemOk (State.cruNack x0 x1 x2 x3 x4) := by
  unfold State.cruNack
  apply State.each_memOk
  · exact h0
  · intro s1 a2 h3
    extract_lets +onlyGivenNames y4
    clear_value y4
    extract_lets +onlyGivenNames y5
    clear_value y5
    refine memOk_ite ?_ ?_
    · exact h3
    · split
      · rename_i z6 z7 z8 z9
        exact h3
      · rename_i z10 z11 z12
        extract_lets +onlyGivenNames y13
        clear_value y13
        extract_lets +onlyGivenNames y14
        clear_value y14
        extract_lets +onlyGivenNames y15
        clear_value y15
        extract_lets +onlyGivenNames y16
        clear_value y16
        extract_lets +onlyGivenNames y17
        clear_value y17
        apply State.setCx_memOk
        exact h3

theorem execDeliveryNack_memOk (x0) (x1) (x2 : State) (h2 : x2.MemOk) : Outcome.MemOk (execDeliveryNack x0 x1 x2) := by
  unfold execDeliveryNack
  extract_lets +onlyGivenNames y1
  clear_value y1
  extract_lets +onlyGivenNames y2
  clear_value y2
  extract_lets +onlyGivenNames y3
  clear_value y3
  split
  · rename_i z4 z5 z6
    refine memOk_have (p := State.MemOk z5) (pairOk_eq z6 ?_) (fun h7 => ?_)
    · apply State.receive_memOk
      exact h2
    refine outOk_next ?_
    exact h7
  · rename_i z8 z9 z10
    refine memOk_have (p := State.MemOk z9) (pairOk_eq z10 ?_) (fun h11 => ?_)
    · apply State.receive_memOk
      exact h2
    split
    · rename_i z12 z13 z14
      refine outOk_next ?_
      apply State.endAsync_memOk
      exact h11
    · rename_i z15 z16
      split
      · rename_i z17 z18 z19
        refine outOk_ite ?_ ?_
        · refine outOk_next ?_
          apply State.endAsync_memOk
          exact h11
        · refine outOk_ite ?_ ?_
          · refine outOk_next ?_
            apply State.endAsync_memOk
            exact h11
          · refine outOk_next ?_
            apply State.updAsync_memOk
            exact h11
      · rename_i z20 z21
        refine outOk_next ?_
        refine memOk_ite ?_ ?_
        · apply State.cruNack_memOk
          exact h11
        · exact h11

theorem execPeerDownNotice_memOk (x0) (x1) (x2 : State) (h2 : x2.MemOk) : Outcome.MemOk (execPeerDownNotice x0 x1 x2) := by
  unfold execPeerDownNotice
  split
  · rename_i z1 z2 z3
    refine memOk_have (p := State.MemOk z2) (pairOk_eq z3 ?_) (fun h4 => ?_)
    · apply State.receive_memOk
      exact h2
    refine outOk_next ?_
    exact h4
  · rename_i z5 z6 z7
    refine memOk_have (p := State.MemOk z6) (pairOk_eq z7 ?_) (fun h8 => ?_)
    · apply State.receive_memOk
      exact h2
    extract_lets +onlyGivenNames y9
    clear_value y9
    extract_lets +onlyGivenNames y10
    refine memOk_have (p := State.MemOk y10) ?_ (fun h11 => ?_)
    · unfold y10
      apply State.each_memOk
      · exact h8
      · intro s12 a13 h14
        apply State.failEntry_memOk
        exact h14
    clear_value y10
    refine outOk_next ?_
    apply State.gEventAll_memOk
    exact h11

theorem State.asyncDone_memOk (x0 : State) (x1) (h0 : x0.MemOk) : State.MemOk (State.asyncDone x0 x1) := by
  unfold State.asyncDone
  apply State.post_memOk
  apply State.updAsync_memOk
  exact h0

theorem execMessageAcknowledgement_memOk (x0) (x1) (x2 : State) (h2 : x2.MemOk) : Outcome.MemOk (execMessageAcknowledgement x0 x1 x2) := by
  unfold execMessageAcknowledgement
  split
  · rename_i z1 z2 z3
    refine memOk_have (p := State.MemOk z2) (pairOk_eq z3 ?_) (fun h4 => ?_)
    · apply State.receive_memOk
      exact h2
    refine outOk_next ?_
    exact h4
  · rename_i z5 z6 z7
    refine memOk_have (p := State.MemOk z6) (pairOk_eq z7 ?_) (fun h8 => ?_)
    · apply State.receive_memOk
      exact h2
    split
    · rename_i z9 z10 z11
      refine outOk_next ?_
      apply State.asyncDone_memOk
      exact h8
    · rename_i z12 z13
      refine outOk_next ?_
      exact h8

theorem execSmallMessage_memOk (x0) (x1) (x2 : State) (h2 : x2.MemOk) : Outcome.MemOk (execSmallMessage x0 x1 x2) := by
  unfold execSmallMessage
  split
  · rename_i z1 z2 z3
    refine memOk_have (p := State.MemOk z2) (pairOk_eq z3 ?_) (fun h4 => ?_)
    · apply State.receive_memOk
      exact h2
    refine outOk_next ?_
    exact h4
  · rename_i z5 z6 z7
    refine memOk_have (p := State.MemOk z6) (pairOk_eq z7 ?_) (fun h8 => ?_)
    · apply State.receive_memOk
      exact h2
    refine outOk_next ?_
    apply State.receiveMessage_memOk
    exact h8

theorem execLaserWakeDone_memOk (x0) (x1 : State) (h1 : x1.MemOk) : Outcome.MemOk (execLaserWakeDone x0 x1) := by
  unfold execLaserWakeDone
  extract_lets +onlyGivenNames y1
  clear_value y1
  extract_lets +onlyGivenNames y2
  clear_value y2
  refine outOk_ite ?_ ?_
  · extract_lets +onlyGivenNames y3
    refine memOk_have (p := State.MemOk y3) ?_ (fun h4 => ?_)
    · unfold y3
      apply State.setPort_memOk
      exact h1
    clear_value y3
    refine outOk_next ?_
    apply State.loopLight_memOk
    apply State.portMove_memOk
    apply State.after_memOk
    exact h4
  · refine outOk_next ?_
    exact h1

theorem execHandshakeLive_memOk (x0) (x1 : State) (h1 : x1.MemOk) : Outcome.MemOk (execHandshakeLive x0 x1) := by
  unfold execHandshakeLive
  extract_lets +onlyGivenNames y1
  clear_value y1
  extract_lets +onlyGivenNames y2
  clear_value y2
  refine outOk_ite ?_ ?_
  · refine outOk_next ?_
    apply State.releasedTears_memOk
    apply State.portMove_memOk
    apply State.setPort_memOk
    exact h1
  · refine outOk_ite ?_ ?_
    · extract_lets +onlyGivenNames y3
      clear_value y3
      extract_lets +onlyGivenNames y4
      clear_value y4
      extract_lets +onlyGivenNames y5
      refine memOk_have (p := State.MemOk y5) ?_ (fun h6 => ?_)
      · unfold y5
        apply State.setPort_memOk
        exact h1
      clear_value y5
      extract_lets +onlyGivenNames y7
      refine memOk_have (p := State.MemOk y7) ?_ (fun h8 => ?_)
      · unfold y7
        apply State.emit_memOk
        exact h6
      clear_value y7
      extract_lets +onlyGivenNames y9
      refine memOk_have (p := State.MemOk y9) ?_ (fun h10 => ?_)
      · unfold y9
        split
        · rename_i z11 z12 z13
          refine memOk_ite ?_ ?_
          · apply State.enterSlot_memOk
            apply State.moveEntry_memOk
            exact h8
          · exact h8
        · rename_i z14 z15
          exact h8
      clear_value y9
      refine outOk_next ?_
      apply State.portMove_memOk
      apply State.armAck_memOk
      exact h10
    · refine outOk_next ?_
      exact h1

theorem execVermis_memOk (x0) (x1 : State) (h1 : x1.MemOk) : Outcome.MemOk (execVermis x0 x1) := by
  unfold execVermis
  extract_lets +onlyGivenNames y1
  clear_value y1
  extract_lets +onlyGivenNames y2
  clear_value y2
  extract_lets +onlyGivenNames y3
  clear_value y3
  refine outOk_ite ?_ ?_
  · extract_lets +onlyGivenNames y4
    refine memOk_have (p := State.MemOk y4) ?_ (fun h5 => ?_)
    · unfold y4
      apply State.loseFlits_memOk
      apply State.setPort_memOk
      exact h1
    clear_value y4
    refine outOk_next ?_
    apply State.portFailed_memOk
    apply State.sendHandshake_memOk
    exact h5
  · refine outOk_next ?_
    exact h1

theorem execLockTimeout_memOk (x0) (x1 : State) (h1 : x1.MemOk) : Outcome.MemOk (execLockTimeout x0 x1) := by
  unfold execLockTimeout
  extract_lets +onlyGivenNames y1
  clear_value y1
  extract_lets +onlyGivenNames y2
  clear_value y2
  refine outOk_ite ?_ ?_
  · extract_lets +onlyGivenNames y3
    refine memOk_have (p := State.MemOk y3) ?_ (fun h4 => ?_)
    · unfold y3
      apply State.setPort_memOk
      exact h1
    clear_value y3
    extract_lets +onlyGivenNames y5
    refine memOk_have (p := State.MemOk y5) ?_ (fun h6 => ?_)
    · unfold y5
      apply State.portFailed_memOk
      apply State.loseFlits_memOk
      exact h4
    clear_value y5
    refine outOk_next ?_
    apply State.after_memOk
    exact h6
  · refine outOk_next ?_
    exact h1

theorem execGroupMismatch_memOk (x0) (x1 : State) (h1 : x1.MemOk) : Outcome.MemOk (execGroupMismatch x0 x1) := by
  unfold execGroupMismatch
  extract_lets +onlyGivenNames y1
  clear_value y1
  extract_lets +onlyGivenNames y2
  clear_value y2
  refine outOk_ite ?_ ?_
  · extract_lets +onlyGivenNames y3
    refine memOk_have (p := State.MemOk y3) ?_ (fun h4 => ?_)
    · unfold y3
      apply State.setPort_memOk
      exact h1
    clear_value y3
    extract_lets +onlyGivenNames y5
    refine memOk_have (p := State.MemOk y5) ?_ (fun h6 => ?_)
    · unfold y5
      apply State.portFailed_memOk
      apply State.loseFlits_memOk
      exact h4
    clear_value y5
    refine outOk_next ?_
    apply State.after_memOk
    exact h6
  · refine outOk_next ?_
    exact h1

theorem execDrainEnd_memOk (x0) (x1 : State) (h1 : x1.MemOk) : Outcome.MemOk (execDrainEnd x0 x1) := by
  unfold execDrainEnd
  extract_lets +onlyGivenNames y1
  clear_value y1
  extract_lets +onlyGivenNames y2
  clear_value y2
  split
  · rename_i z3 z4 z5
    refine outOk_ite ?_ ?_
    · extract_lets +onlyGivenNames y6
      refine memOk_have (p := State.MemOk y6) ?_ (fun h7 => ?_)
      · unfold y6
        apply State.drainOver_memOk
        apply State.loseFlits_memOk
        apply State.setPort_memOk
        exact h1
      clear_value y6
      refine outOk_next ?_
      apply State.armVermis_memOk
      apply State.portMove_memOk
      apply State.sendHandshake_memOk
      exact h7
    · refine outOk_next ?_
      exact h1
  · rename_i z8 z9
    refine outOk_next ?_
    exact h1

theorem execPortGated_memOk (x0) (x1 : State) (h1 : x1.MemOk) : Outcome.MemOk (execPortGated x0 x1) := by
  unfold execPortGated
  extract_lets +onlyGivenNames y1
  clear_value y1
  extract_lets +onlyGivenNames y2
  clear_value y2
  refine outOk_ite ?_ ?_
  · extract_lets +onlyGivenNames y3
    clear_value y3
    extract_lets +onlyGivenNames y4
    refine memOk_have (p := State.MemOk y4) ?_ (fun h5 => ?_)
    · unfold y4
      apply State.setPort_memOk
      exact h1
    clear_value y4
    refine outOk_next ?_
    apply State.portMove_memOk
    apply State.portDark_memOk
    apply State.releasedTears_memOk
    apply State.loseFlits_memOk
    exact h5
  · refine outOk_next ?_
    exact h1

theorem State.inboxNext_memOk (x0 : State) (x1) (h0 : x0.MemOk) : State.MemOk (State.inboxNext x0 x1) := by
  unfold State.inboxNext
  extract_lets +onlyGivenNames y1
  refine memOk_have (p := State.MemOk y1) ?_ (fun h2 => ?_)
  · unfold y1
    apply State.armAck_memOk
    exact h0
  clear_value y1
  split
  · rename_i z3 z4 z5 z6 z7
    apply State.post_memOk
    exact h2
  · rename_i z8 z9
    exact h2

theorem State.dropFlit_memOk (x0 : State) (x1) (x2) (h0 : x0.MemOk) : State.MemOk (State.dropFlit x0 x1 x2) := by
  unfold State.dropFlit
  extract_lets +onlyGivenNames y1
  clear_value y1
  split
  · rename_i z2 z3
    exact h0
  · rename_i z4 z5 z6 z7 z8
    extract_lets +onlyGivenNames y9
    refine memOk_have (p := State.MemOk y9) ?_ (fun h10 => ?_)
    · unfold y9
      apply State.setPort_memOk
      exact h0
    clear_value y9
    extract_lets +onlyGivenNames y11
    refine memOk_have (p := State.MemOk y11) ?_ (fun h12 => ?_)
    · unfold y11
      split
      · rename_i z13 z14 z15 z16 z17
        apply State.sendNack_memOk
        exact h10
      · rename_i z18 z19 z20 z21
        exact h10
    clear_value y11
    apply State.inboxNext_memOk
    exact h12

theorem execCopyFlitWrite_memOk (x0) (x1 : State) (h1 : x1.MemOk) : Outcome.MemOk (execCopyFlitWrite x0 x1) := by
  unfold execCopyFlitWrite
  extract_lets +onlyGivenNames y1
  clear_value y1
  extract_lets +onlyGivenNames y2
  clear_value y2
  split
  · rename_i z3 z4
    refine outOk_next ?_
    exact h1
  · rename_i z5 z6 z7 z8 z9
    refine outOk_ite ?_ ?_
    · refine outOk_next ?_
      exact h1
    · split
      · rename_i z10 z11
        refine outOk_next ?_
        apply State.dropFlit_memOk
        exact h1
      · rename_i z12 z13 z14
        extract_lets +onlyGivenNames y15
        clear_value y15
        refine outOk_ite ?_ ?_
        · refine outOk_next ?_
          apply State.dropFlit_memOk
          exact h1
        · split
          · rename_i z16 z17 z18 z19
            refine memOk_have (p := State.MemOk z18) (pairOk_eq z19 ?_) (fun h20 => ?_)
            · apply State.devWrite_memOk
              exact h1
            refine outOk_next ?_
            apply State.dropFlit_memOk
            exact h20
          · rename_i z21 z22 z23 z24 z25
            refine memOk_have (p := State.MemOk z24) (pairOk_eq z25 ?_) (fun h26 => ?_)
            · apply State.devWrite_memOk
              exact h1
            refine outOk_ite ?_ ?_
            · refine outOk_next ?_
              apply State.dropFlit_memOk
              exact h26
            · refine outOk_ite ?_ ?_
              · refine outOk_next ?_
                apply State.dropFlit_memOk
                exact h26
              · split
                rename_i z27 z28 z29 z30
                refine memOk_have (p := State.MemOk z29) (pairOk_eq z30 ?_) (fun h31 => ?_)
                · apply State.memFault_memOk
                  exact h26
                refine outOk_next ?_
                apply State.setPort_memOk
                exact h31

theorem execCrucibleFlitReceive_memOk (x0) (x1 : State) (h1 : x1.MemOk) : Outcome.MemOk (execCrucibleFlitReceive x0 x1) := by
  unfold execCrucibleFlitReceive
  extract_lets +onlyGivenNames y1
  clear_value y1
  extract_lets +onlyGivenNames y2
  clear_value y2
  split
  · rename_i z3 z4
    refine outOk_next ?_
    exact h1
  · rename_i z5 z6 z7 z8 z9
    refine outOk_ite ?_ ?_
    · refine outOk_next ?_
      exact h1
    · extract_lets +onlyGivenNames y10
      refine memOk_have (p := State.MemOk y10) ?_ (fun h11 => ?_)
      · unfold y10
        apply State.setPort_memOk
        exact h1
      clear_value y10
      extract_lets +onlyGivenNames y12
      clear_value y12
      extract_lets +onlyGivenNames y13
      clear_value y13
      extract_lets +onlyGivenNames y14
      clear_value y14
      extract_lets +onlyGivenNames y15
      clear_value y15
      extract_lets +onlyGivenNames y16
      clear_value y16
      extract_lets +onlyGivenNames y17
      clear_value y17
      extract_lets +onlyGivenNames y18
      refine memOk_have (p := State.MemOk y18) ?_ (fun h19 => ?_)
      · unfold y18
        apply State.posts_memOk
        exact h11
      clear_value y18
      split
      · rename_i z20
        split
        · rename_i z21 z22
          refine outOk_next ?_
          apply State.sendNack_memOk
          exact h19
        · rename_i z23
          refine outOk_next ?_
          exact h19
      · rename_i z24 z25
        extract_lets +onlyGivenNames y26
        clear_value y26
        refine outOk_ite ?_ ?_
        · refine outOk_next ?_
          apply State.setCx_memOk
          exact h19
        · extract_lets +onlyGivenNames y27
          clear_value y27
          extract_lets +onlyGivenNames y28
          clear_value y28
          refine outOk_next ?_
          apply State.setCx_memOk
          exact h19

theorem execAckOnlyFlit_memOk (x0) (x1 : State) (h1 : x1.MemOk) : Outcome.MemOk (execAckOnlyFlit x0 x1) := by
  unfold execAckOnlyFlit
  extract_lets +onlyGivenNames y1
  clear_value y1
  refine outOk_next ?_
  refine memOk_ite ?_ ?_
  · apply State.armAck_memOk
    apply State.sendAckOnly_memOk
    exact h1
  · exact h1

theorem State.ackFlits_memOk (x0 : State) (x1) (x2) (h0 : x0.MemOk) : State.MemOk (State.ackFlits x0 x1 x2) := by
  unfold State.ackFlits
  extract_lets +onlyGivenNames y1
  clear_value y1
  extract_lets +onlyGivenNames y2
  clear_value y2
  extract_lets +onlyGivenNames y3
  clear_value y3
  extract_lets +onlyGivenNames y4
  refine memOk_have (p := State.MemOk y4) ?_ (fun h5 => ?_)
  · unfold y4
    apply State.setPort_memOk
    exact h0
  clear_value y4
  extract_lets +onlyGivenNames y6
  refine memOk_have (p := State.MemOk y6) ?_ (fun h7 => ?_)
  · unfold y6
    apply State.each_memOk
    · exact h5
    · intro s8 a9 h10
      apply State.flitAcked_memOk
      exact h10
  clear_value y6
  extract_lets +onlyGivenNames y11
  refine memOk_have (p := State.MemOk y11) ?_ (fun h12 => ?_)
  · unfold y11
    apply State.sendStalled_memOk
    exact h7
  clear_value y11
  refine memOk_ite ?_ ?_
  · apply State.post_memOk
    exact h12
  · exact h12

theorem State.replay_memOk (x0 : State) (x1) (h0 : x0.MemOk) : State.MemOk (State.replay x0 x1) := by
  unfold State.replay
  extract_lets +onlyGivenNames y1
  clear_value y1
  extract_lets +onlyGivenNames y2
  clear_value y2
  apply State.emit_memOk
  apply State.setPort_memOk
  exact h0

theorem State.takeData_memOk (x0 : State) (x1) (x2) (x3) (h0 : x0.MemOk) : State.MemOk (State.takeData x0 x1 x2 x3) := by
  unfold State.takeData
  extract_lets +onlyGivenNames y1
  clear_value y1
  refine memOk_ite ?_ ?_
  · exact h0
  · refine memOk_ite ?_ ?_
    · apply State.setPort_memOk
      exact h0
    · extract_lets +onlyGivenNames y2
      clear_value y2
      extract_lets +onlyGivenNames y3
      clear_value y3
      refine memOk_ite ?_ ?_
      · split
        · rename_i z4 z5 z6
          apply State.sendNack_memOk
          exact h0
        · rename_i z7 z8
          exact h0
      · extract_lets +onlyGivenNames y9
        refine memOk_have (p := State.MemOk y9) ?_ (fun h10 => ?_)
        · unfold y9
          apply State.setPort_memOk
          exact h0
        clear_value y9
        apply State.post_memOk
        exact h10

theorem execFlitReceive_memOk (x0) (x1) (x2 : State) (h2 : x2.MemOk) : Outcome.MemOk (execFlitReceive x0 x1 x2) := by
  unfold execFlitReceive
  extract_lets +onlyGivenNames y1
  clear_value y1
  extract_lets +onlyGivenNames y2
  clear_value y2
  extract_lets +onlyGivenNames y3
  clear_value y3
  refine outOk_ite ?_ ?_
  · refine outOk_next ?_
    exact h2
  · extract_lets +onlyGivenNames y4
    clear_value y4
    refine outOk_ite ?_ ?_
    · refine outOk_next ?_
      apply State.setPort_memOk
      exact h2
    · refine outOk_ite ?_ ?_
      · refine outOk_next ?_
        apply State.setPort_memOk
        exact h2
      · extract_lets +onlyGivenNames y5
        clear_value y5
        extract_lets +onlyGivenNames y6
        clear_value y6
        extract_lets +onlyGivenNames y7
        clear_value y7
        extract_lets +onlyGivenNames y8
        refine memOk_have (p := State.MemOk y8) ?_ (fun h9 => ?_)
        · unfold y8
          apply State.ackFlits_memOk
          apply State.setPort_memOk
          exact h2
        clear_value y8
        extract_lets +onlyGivenNames y10
        refine memOk_have (p := State.MemOk y10) ?_ (fun h11 => ?_)
        · unfold y10
          refine memOk_ite ?_ ?_
          · apply State.replay_memOk
            exact h9
          · exact h9
        clear_value y10
        extract_lets +onlyGivenNames y12
        clear_value y12
        refine outOk_ite ?_ ?_
        · refine outOk_next ?_
          apply State.setPort_memOk
          exact h11
        · refine outOk_ite ?_ ?_
          · refine outOk_next ?_
            apply State.setPort_memOk
            exact h11
          · extract_lets +onlyGivenNames y13
            refine memOk_have (p := State.MemOk y13) ?_ (fun h14 => ?_)
            · unfold y13
              apply State.armAck_memOk
              apply State.setPort_memOk
              exact h11
            clear_value y13
            refine outOk_ite ?_ ?_
            · refine outOk_next ?_
              exact h14
            · split
              · rename_i z15
                refine outOk_next ?_
                apply State.takeData_memOk
                exact h14
              · rename_i z16
                split
                · rename_i z17 z18 z19
                  refine outOk_next ?_
                  apply State.tryHandshake_memOk
                  apply State.setPort_memOk
                  exact h14
                · rename_i z20 z21
                  refine outOk_next ?_
                  exact h14
              · rename_i z22 z23 z24
                refine outOk_next ?_
                apply State.setPort_memOk
                exact h14

theorem execBeaconPeriod_memOk (x0 : State) (h0 : x0.MemOk) : Outcome.MemOk (execBeaconPeriod x0) := by
  unfold execBeaconPeriod
  refine outOk_ite ?_ ?_
  · refine outOk_next ?_
    exact h0
  · extract_lets +onlyGivenNames y1
    refine memOk_have (p := State.MemOk y1) ?_ (fun h2 => ?_)
    · unfold y1
      apply State.after_memOk
      exact h0
    clear_value y1
    refine outOk_ite ?_ ?_
    · refine outOk_next ?_
      exact h2
    · split
      rename_i z3 z4 z5 z6
      refine memOk_have (p := State.MemOk z5) (pairOk_eq z6 ?_) (fun h7 => ?_)
      · apply State.nextPseq_memOk
        exact h2
      split
      rename_i z8 z9 z10 z11
      refine memOk_have (p := State.MemOk z10) (pairOk_eq z11 ?_) (fun h12 => ?_)
      · apply State.takeFree_memOk
        exact h7
      extract_lets +onlyGivenNames y13
      clear_value y13
      refine outOk_next ?_
      apply State.sendPacket_memOk
      exact h12

theorem execEchoPeriod_memOk (x0 : State) (h0 : x0.MemOk) : Outcome.MemOk (execEchoPeriod x0) := by
  unfold execEchoPeriod
  extract_lets +onlyGivenNames y1
  refine memOk_have (p := State.MemOk y1) ?_ (fun h2 => ?_)
  · unfold y1
    apply State.after_memOk
    exact h0
  clear_value y1
  refine outOk_next ?_
  apply State.each_memOk
  · exact h2
  · intro s3 a4 h5
    apply State.toLink_memOk
    exact h5

theorem execEchoTimeout_memOk (x0) (x1 : State) (h1 : x1.MemOk) : Outcome.MemOk (execEchoTimeout x0 x1) := by
  unfold execEchoTimeout
  extract_lets +onlyGivenNames y1
  clear_value y1
  extract_lets +onlyGivenNames y2
  clear_value y2
  split
  · rename_i z3 z4 z5
    refine outOk_ite ?_ ?_
    · extract_lets +onlyGivenNames y6
      refine memOk_have (p := State.MemOk y6) ?_ (fun h7 => ?_)
      · unfold y6
        apply State.setLink_memOk
        exact h1
      clear_value y6
      extract_lets +onlyGivenNames y8
      clear_value y8
      refine outOk_next ?_
      apply State.each_memOk
      · exact h7
      · intro s9 a10 h11
        apply State.sendPacket_memOk
        exact h11
    · refine outOk_next ?_
      exact h1
  · rename_i z12 z13
    refine outOk_next ?_
    exact h1

theorem execCircuitPortWrite_memOk (x0) (x1 : State) (h1 : x1.MemOk) : Outcome.MemOk (execCircuitPortWrite x0 x1) := by
  unfold execCircuitPortWrite
  extract_lets +onlyGivenNames y1
  clear_value y1
  extract_lets +onlyGivenNames y2
  clear_value y2
  extract_lets +onlyGivenNames y3
  clear_value y3
  refine outOk_ite ?_ ?_
  · refine outOk_next ?_
    exact h1
  · refine outOk_ite ?_ ?_
    · extract_lets +onlyGivenNames y4
      refine memOk_have (p := State.MemOk y4) ?_ (fun h5 => ?_)
      · unfold y4
        apply State.writeTarget_memOk
        exact h1
      clear_value y4
      refine outOk_next ?_
      apply State.failEntry_memOk
      exact h5
    · refine outOk_next ?_
      apply State.writeTarget_memOk
      apply State.writeGrp_memOk
      exact h1

theorem execRsvAttemptTimeout_memOk (x0) (x1 : State) (h1 : x1.MemOk) : Outcome.MemOk (execRsvAttemptTimeout x0 x1) := by
  unfold execRsvAttemptTimeout
  extract_lets +onlyGivenNames y1
  clear_value y1
  extract_lets +onlyGivenNames y2
  clear_value y2
  refine outOk_ite ?_ ?_
  · refine outOk_next ?_
    apply State.backOff_memOk
    apply State.sendCtl_memOk
    exact h1
  · refine outOk_next ?_
    exact h1

theorem execBackoffExpiry_memOk (x0) (x1 : State) (h1 : x1.MemOk) : Outcome.MemOk (execBackoffExpiry x0 x1) := by
  unfold execBackoffExpiry
  extract_lets +onlyGivenNames y1
  clear_value y1
  extract_lets +onlyGivenNames y2
  clear_value y2
  refine outOk_ite ?_ ?_
  · refine outOk_next ?_
    apply State.sendRsv_memOk
    exact h1
  · refine outOk_next ?_
    exact h1

theorem execCpreStart_memOk (x0) (x1 : State) (h1 : x1.MemOk) : Outcome.MemOk (execCpreStart x0 x1) := by
  unfold execCpreStart
  extract_lets +onlyGivenNames y1
  clear_value y1
  extract_lets +onlyGivenNames y2
  clear_value y2
  refine outOk_ite ?_ ?_
  · refine outOk_next ?_
    apply State.sendRsv_memOk
    exact h1
  · refine outOk_next ?_
    exact h1

theorem execTearTimeout_memOk (x0) (x1 : State) (h1 : x1.MemOk) : Outcome.MemOk (execTearTimeout x0 x1) := by
  unfold execTearTimeout
  extract_lets +onlyGivenNames y1
  clear_value y1
  extract_lets +onlyGivenNames y2
  clear_value y2
  refine outOk_ite ?_ ?_
  · refine outOk_next ?_
    apply State.moveEntry_memOk
    exact h1
  · refine outOk_next ?_
    exact h1

theorem execSlotStart_memOk (x0) (x1 : State) (h1 : x1.MemOk) : Outcome.MemOk (execSlotStart x0 x1) := by
  unfold execSlotStart
  extract_lets +onlyGivenNames y1
  clear_value y1
  extract_lets +onlyGivenNames y2
  clear_value y2
  extract_lets +onlyGivenNames y3
  clear_value y3
  extract_lets +onlyGivenNames y4
  clear_value y4
  extract_lets +onlyGivenNames y5
  clear_value y5
  refine outOk_ite ?_ ?_
  · refine outOk_next ?_
    exact h1
  · refine outOk_ite ?_ ?_
    · refine outOk_next ?_
      refine memOk_ite ?_ ?_
      · exact h1
      · apply State.armSlot_memOk
        exact h1
    · extract_lets +onlyGivenNames y6
      refine memOk_have (p := State.MemOk y6) ?_ (fun h7 => ?_)
      · unfold y6
        apply State.armSlot_memOk
        exact h1
      clear_value y6
      refine outOk_ite ?_ ?_
      · extract_lets +onlyGivenNames y8
        clear_value y8
        extract_lets +onlyGivenNames y9
        clear_value y9
        extract_lets +onlyGivenNames y10
        refine memOk_have (p := State.MemOk y10) ?_ (fun h11 => ?_)
        · unfold y10
          apply State.setCircuit_memOk
          exact h7
        clear_value y10
        extract_lets +onlyGivenNames y12
        refine memOk_have (p := State.MemOk y12) ?_ (fun h13 => ?_)
        · unfold y12
          (refine ⟨?_⟩; dsimp only; refine State.MemOk.wf ?_)
          exact h11
        clear_value y12
        refine outOk_next ?_
        apply State.after_memOk
        apply State.gEvent_memOk
        exact h13
      · refine outOk_ite ?_ ?_
        · refine outOk_next ?_
          apply State.setCircuit_memOk
          exact h7
        · refine outOk_next ?_
          apply State.after_memOk
          apply State.setCircuit_memOk
          exact h7

theorem execDrainWindowEnd_memOk (x0) (x1 : State) (h1 : x1.MemOk) : Outcome.MemOk (execDrainWindowEnd x0 x1) := by
  unfold execDrainWindowEnd
  extract_lets +onlyGivenNames y1
  clear_value y1
  extract_lets +onlyGivenNames y2
  clear_value y2
  split
  · rename_i z3 z4 z5
    refine outOk_next ?_
    refine memOk_ite ?_ ?_
    · apply State.setCircuit_memOk
      exact h1
    · exact h1
  · rename_i z6 z7
    refine outOk_next ?_
    exact h1

theorem execXsendTimeout_memOk (x0) (x1 : State) (h1 : x1.MemOk) : Outcome.MemOk (execXsendTimeout x0 x1) := by
  unfold execXsendTimeout
  split
  · rename_i z1 z2 z3
    refine outOk_next ?_
    refine memOk_ite ?_ ?_
    · apply State.endAsync_memOk
      exact h1
    · exact h1
  · rename_i z4 z5
    refine outOk_next ?_
    exact h1

theorem State.gPop_memOk (x0 : State) (x1) (h0 : x0.MemOk) : PairOk (State.gPop x0 x1) := by
  unfold State.gPop
  extract_lets +onlyGivenNames y1
  clear_value y1
  split
  · rename_i z2 z3
    refine pairOk_mk ?_
    exact h0
  · rename_i z4 z5 z6 z7
    extract_lets +onlyGivenNames y8
    clear_value y8
    refine pairOk_mk ?_
    apply State.setGth_memOk
    exact h0

theorem State.gTake_memOk (x0 : State) (x1) (x2) (h0 : x0.MemOk) : OptOk (State.gTake x0 x1 x2) := by
  unfold State.gTake
  extract_lets +onlyGivenNames y1
  clear_value y1
  refine optOk_ite ?_ ?_
  · split
    rename_i z2 z3 z4 z5
    refine memOk_have (p := State.MemOk z4) (pairOk_eq z5 ?_) (fun h6 => ?_)
    · apply State.gPop_memOk
      exact h0
    refine optOk_some ?_
    apply State.gDone_memOk
    exact h6
  · refine optOk_ite ?_ ?_
    · refine optOk_some ?_
      apply State.gDone_memOk
      apply State.setGth_memOk
      exact h0
    · exact optOk_none

theorem State.gTry_memOk (x0 : State) (x1) (x2) (h0 : x0.MemOk) : State.MemOk (State.gTry x0 x1 x2) := by
  unfold State.gTry
  split
  · rename_i z1 z2 z3 z4 z5
    refine memOk_ite ?_ ?_
    · apply State.gDone_memOk
      exact h0
    · refine memOk_ite ?_ ?_
      · apply State.gDone_memOk
        exact h0
      · exact h0
  · rename_i z6 z7 z8 z9
    split
    · rename_i z10 z11 z12
      refine memOk_have (p := State.MemOk z11) (optOk_eq z12 ?_) (fun h13 => ?_)
      · apply State.gTake_memOk
        exact h0
      exact h13
    · rename_i z14 z15
      refine memOk_ite ?_ ?_
      · apply State.gDone_memOk
        exact h0
      · exact h0
  · rename_i z16 z17 z18
    exact h0

theorem execGafferDeadline_memOk (x0) (x1 : State) (h1 : x1.MemOk) : Outcome.MemOk (execGafferDeadline x0 x1) := by
  unfold execGafferDeadline
  refine outOk_next ?_
  apply State.gTry_memOk
  exact h1

theorem execInstancePaused_memOk (x0) (x1 : State) (h1 : x1.MemOk) : Outcome.MemOk (execInstancePaused x0 x1) := by
  unfold execInstancePaused
  extract_lets +onlyGivenNames y1
  clear_value y1
  extract_lets +onlyGivenNames y2
  clear_value y2
  refine outOk_next ?_
  refine memOk_ite ?_ ?_
  · apply State.setCx_memOk
    exact h1
  · exact h1

theorem execInstanceLoaded_memOk (x0) (x1 : State) (h1 : x1.MemOk) : Outcome.MemOk (execInstanceLoaded x0 x1) := by
  unfold execInstanceLoaded
  extract_lets +onlyGivenNames y1
  clear_value y1
  extract_lets +onlyGivenNames y2
  clear_value y2
  split
  · rename_i z3 z4 z5 z6 z7 z8
    refine outOk_ite ?_ ?_
    · refine outOk_next ?_
      exact h1
    · split
      · rename_i z9 z10 z11 z12 z13
        refine memOk_have (p := State.MemOk z12) (pairOk_eq z13 ?_) (fun h14 => ?_)
        · apply State.devRead_memOk
          exact h1
        refine outOk_ite ?_ ?_
        · refine outOk_next ?_
          apply State.endInstance_memOk
          exact h14
        · split
          rename_i z15 z16 z17 z18
          refine memOk_have (p := State.MemOk z17) (pairOk_eq z18 ?_) (fun h19 => ?_)
          · apply State.memFault_memOk
            exact h14
          refine outOk_next ?_
          apply State.setCx_memOk
          exact h19
      · rename_i z20 z21 z22 z23
        refine memOk_have (p := State.MemOk z22) (pairOk_eq z23 ?_) (fun h24 => ?_)
        · apply State.devRead_memOk
          exact h1
        split
        · rename_i z25 z26 z27
          refine outOk_next ?_
          apply State.endInstance_memOk
          apply State.setCx_memOk
          exact h24
        · rename_i z28 z29 z30
          refine outOk_ite ?_ ?_
          · refine outOk_next ?_
            apply State.endInstance_memOk
            exact h24
          · extract_lets +onlyGivenNames y31
            clear_value y31
            extract_lets +onlyGivenNames y32
            clear_value y32
            refine outOk_ite ?_ ?_
            · refine outOk_next ?_
              apply State.endInstance_memOk
              exact h24
            · refine outOk_next ?_
              apply State.setCx_memOk
              exact h24
  · rename_i z33 z34 z35
    refine outOk_next ?_
    exact h1

theorem State.bufTarget_memOk (x0 : State) (x1) (x2) (x3) (x4) (x5) (x6) (h0 : x0.MemOk) : PairOk (State.bufTarget x0 x1 x2 x3 x4 x5 x6) := by
  unfold State.bufTarget
  split
  · rename_i z1 z2
    refine pairOk_mk ?_
    exact h0
  · rename_i z3 z4
    split
    · rename_i z5 z6 z7 z8
      refine memOk_have (p := State.MemOk z7) (pairOk_eq z8 ?_) (fun h9 => ?_)
      · apply State.resolve_memOk
        exact h0
      refine pairOk_mk ?_
      exact h9
    · rename_i z10 z11 z12 z13
      refine memOk_have (p := State.MemOk z12) (pairOk_eq z13 ?_) (fun h14 => ?_)
      · apply State.resolve_memOk
        exact h0
      refine pairOk_mk ?_
      exact h14
  · rename_i z15 z16 z17
    split
    · rename_i z18 z19 z20
      refine pairOk_mk ?_
      exact h0
    · rename_i z21 z22
      refine pairOk_mk ?_
      exact h0

theorem State.updStep_memOk (x0 : State) (x1) (x2) (x3) (h0 : x0.MemOk) : State.MemOk (State.updStep x0 x1 x2 x3) := by
  unfold State.updStep
  extract_lets +onlyGivenNames y1
  clear_value y1
  apply State.setCx_memOk
  exact h0

theorem State.stepFault_memOk (x0 : State) (x1) (x2) (x3) (x4) (x5) (x6) (h0 : x0.MemOk) : State.MemOk (State.stepFault x0 x1 x2 x3 x4 x5 x6) := by
  unfold State.stepFault
  refine memOk_ite ?_ ?_
  · apply State.endInstance_memOk
    exact h0
  · split
    rename_i z1 z2 z3 z4
    refine memOk_have (p := State.MemOk z3) (pairOk_eq z4 ?_) (fun h5 => ?_)
    · apply State.memFault_memOk
      exact h0
    apply State.updStep_memOk
    exact h5

theorem execDataStepComplete_memOk (x0) (x1) (x2 : State) (h2 : x2.MemOk) : Outcome.MemOk (execDataStepComplete x0 x1 x2) := by
  unfold execDataStepComplete
  extract_lets +onlyGivenNames y1
  clear_value y1
  extract_lets +onlyGivenNames y2
  clear_value y2
  split
  · rename_i z3 z4 z5 z6 z7 z8
    refine outOk_ite ?_ ?_
    · refine outOk_next ?_
      exact h2
    · dsimp only
      split
      · rename_i z9 z10 z11
        refine outOk_ite ?_ ?_
        · refine outOk_next ?_
          apply State.setCx_memOk
          exact h2
        · split
          · rename_i z12 z13 z14 z15 z16
            refine memOk_have (p := State.MemOk z15) (pairOk_eq z16 ?_) (fun h17 => ?_)
            · apply State.bufTarget_memOk
              exact h2
            refine outOk_next ?_
            apply State.stepFault_memOk
            exact h17
          · rename_i z18 z19 z20 z21
            refine memOk_have (p := State.MemOk z20) (pairOk_eq z21 ?_) (fun h22 => ?_)
            · apply State.bufTarget_memOk
              exact h2
            refine outOk_next ?_
            apply State.setCx_memOk
            apply State.tcount_memOk
            exact h22
      · rename_i z23 z24
        refine outOk_next ?_
        apply State.setCx_memOk
        exact h2
  · rename_i z25 z26 z27
    refine outOk_next ?_
    exact h2

theorem execStepTimeout_memOk (x0) (x1 : State) (h1 : x1.MemOk) : Outcome.MemOk (execStepTimeout x0 x1) := by
  unfold execStepTimeout
  extract_lets +onlyGivenNames y1
  clear_value y1
  extract_lets +onlyGivenNames y2
  clear_value y2
  split
  · rename_i z3 z4 z5 z6 z7 z8
    refine outOk_ite ?_ ?_
    · refine outOk_next ?_
      exact h1
    · extract_lets +onlyGivenNames y9
      clear_value y9
      extract_lets +onlyGivenNames y10
      clear_value y10
      refine outOk_ite ?_ ?_
      · refine outOk_next ?_
        exact h1
      · refine outOk_ite ?_ ?_
        · refine outOk_next ?_
          apply State.endInstance_memOk
          exact h1
        · refine outOk_ite ?_ ?_
          · refine outOk_next ?_
            apply State.setCx_memOk
            exact h1
          · refine outOk_next ?_
            apply State.armTimeout_memOk
            apply State.setCx_memOk
            exact h1
  · rename_i z11 z12 z13
    refine outOk_next ?_
    exact h1

theorem State.startThread_memOk (x0 : State) (x1) (x2) (x3) (x4) (x5) (h0 : x0.MemOk) : State.MemOk (State.startThread x0 x1 x2 x3 x4 x5) := by
  unfold State.startThread
  apply State.setGth_memOk
  exact h0

theorem State.gComplete_memOk (x0 : State) (x1) (x2) (x3) (h0 : x0.MemOk) : State.MemOk (State.gComplete x0 x1 x2 x3) := by
  unfold State.gComplete
  split
  · rename_i z1 z2 z3 z4
    split
    · rename_i z5 z6 z7
      apply State.complete_memOk
      exact h0
    · rename_i z8 z9
      exact h0
  · rename_i z10 z11
    exact h0

theorem State.gFault_memOk (x0 : State) (x1) (x2) (x3) (h0 : x0.MemOk) : State.MemOk (State.gFault x0 x1 x2 x3) := by
  unfold State.gFault
  extract_lets +onlyGivenNames y1
  refine memOk_have (p := State.MemOk y1) ?_ (fun h2 => ?_)
  · unfold y1
    apply State.gComplete_memOk
    exact h0
  clear_value y1
  extract_lets +onlyGivenNames y3
  clear_value y3
  extract_lets +onlyGivenNames y4
  clear_value y4
  extract_lets +onlyGivenNames y5
  refine memOk_have (p := State.MemOk y5) ?_ (fun h6 => ?_)
  · unfold y5
    apply State.setGth_memOk
    exact h2
  clear_value y5
  split
  · rename_i z7 z8
    apply State.fabricErr_memOk
    exact h6
  · rename_i z9
    exact h6

theorem State.asyncKeys_memOk (x0 : State) (x1) (x2) (x3) (x4) (h0 : x0.MemOk) : PairOk (State.asyncKeys x0 x1 x2 x3 x4) := by
  unfold State.asyncKeys
  apply State.resolve_memOk
  exact h0

theorem State.asyncFault_memOk (x0 : State) (x1) (x2) (x3) (x4) (h0 : x0.MemOk) : State.MemOk (State.asyncFault x0 x1 x2 x3 x4) := by
  unfold State.asyncFault
  refine memOk_ite ?_ ?_
  · apply State.endAsync_memOk
    exact h0
  · split
    rename_i z1 z2 z3 z4
    refine memOk_have (p := State.MemOk z3) (pairOk_eq z4 ?_) (fun h5 => ?_)
    · apply State.memFault_memOk
      exact h0
    apply State.updAsync_memOk
    exact h5

theorem State.readAsync_memOk (x0 : State) (x1) (h0 : x0.MemOk) : State.MemOk (State.readAsync x0 x1) := by
  unfold State.readAsync
  extract_lets +onlyGivenNames y1
  clear_value y1
  refine memOk_ite ?_ ?_
  · apply State.endAsync_memOk
    exact h0
  · split
    · rename_i z2 z3 z4 z5 z6
      refine memOk_have (p := State.MemOk z5) (pairOk_eq z6 ?_) (fun h7 => ?_)
      · apply State.asyncKeys_memOk
        exact h0
      apply State.asyncFault_memOk
      exact h7
    · rename_i z8 z9 z10 z11
      refine memOk_have (p := State.MemOk z10) (pairOk_eq z11 ?_) (fun h12 => ?_)
      · apply State.asyncKeys_memOk
        exact h0
      extract_lets +onlyGivenNames y13
      clear_value y13
      refine memOk_ite ?_ ?_
      · apply State.endAsync_memOk
        exact h12
      · apply State.updAsync_memOk
        exact h12

theorem State.copySend_memOk (x0 : State) (x1) (x2) (h0 : x0.MemOk) : State.MemOk (State.copySend x0 x1 x2) := by
  induction x2 generalizing x0 x1 h0
  · unfold State.copySend
    exact h0
  · rename_i r0 ih
    unfold State.copySend
    split
    · rename_i z1 z2
      exact h0
    · rename_i z3 z4 z5
      extract_lets +onlyGivenNames y6
      clear_value y6
      extract_lets +onlyGivenNames y7
      clear_value y7
      refine memOk_ite ?_ ?_
      · exact h0
      · extract_lets +onlyGivenNames y8
        clear_value y8
        split
        · rename_i z9
          exact h0
        · rename_i z10 z11 z12
          extract_lets +onlyGivenNames y13
          clear_value y13
          extract_lets +onlyGivenNames y14
          clear_value y14
          extract_lets +onlyGivenNames y15
          clear_value y15
          split
          · rename_i z16 z17 z18 z19 z20
            refine memOk_have (p := State.MemOk z19) (pairOk_eq z20 ?_) (fun h21 => ?_)
            · apply State.asyncKeys_memOk
              exact h0
            apply State.asyncFault_memOk
            exact h21
          · rename_i z22 z23 z24 z25
            refine memOk_have (p := State.MemOk z24) (pairOk_eq z25 ?_) (fun h26 => ?_)
            · apply State.asyncKeys_memOk
              exact h0
            extract_lets +onlyGivenNames y27
            clear_value y27
            extract_lets +onlyGivenNames y28
            refine memOk_have (p := State.MemOk y28) ?_ (fun h29 => ?_)
            · unfold y28
              apply State.updAsync_memOk
              exact h26
            clear_value y28
            apply ih
            apply State.sendFlit_memOk
            exact h29

theorem State.sendMessage_memOk (x0 : State) (x1) (x2) (h0 : x0.MemOk) : State.MemOk (State.sendMessage x0 x1 x2) := by
  unfold State.sendMessage
  refine memOk_ite ?_ ?_
  · exact h0
  · split
    · rename_i z1 z2 z3 z4 z5
      refine memOk_have (p := State.MemOk z4) (pairOk_eq z5 ?_) (fun h6 => ?_)
      · apply State.asyncKeys_memOk
        exact h0
      apply State.asyncFault_memOk
      exact h6
    · rename_i z7 z8 z9 z10
      refine memOk_have (p := State.MemOk z9) (pairOk_eq z10 ?_) (fun h11 => ?_)
      · apply State.asyncKeys_memOk
        exact h0
      split
      rename_i z12 z13 z14 z15
      refine memOk_have (p := State.MemOk z14) (pairOk_eq z15 ?_) (fun h16 => ?_)
      · apply State.nextPseq_memOk
        exact h11
      extract_lets +onlyGivenNames y17
      clear_value y17
      extract_lets +onlyGivenNames y18
      refine memOk_have (p := State.MemOk y18) ?_ (fun h19 => ?_)
      · unfold y18
        apply State.updAsync_memOk
        exact h16
      clear_value y18
      apply State.after_memOk
      apply State.sendPacket_memOk
      exact h19

theorem State.asyncRun_memOk (x0 : State) (x1) (h0 : x0.MemOk) : State.MemOk (State.asyncRun x0 x1) := by
  unfold State.asyncRun
  split
  · rename_i z1 z2
    exact h0
  · rename_i z3 z4 z5
    refine memOk_ite ?_ ?_
    · exact h0
    · split
      · rename_i z6 z7 z8 z9
        extract_lets +onlyGivenNames y10
        refine memOk_have (p := State.MemOk y10) ?_ (fun h11 => ?_)
        · unfold y10
          apply State.updAsync_memOk
          exact h0
        clear_value y10
        refine memOk_ite ?_ ?_
        · apply State.refuseStart_memOk
          exact h11
        · apply State.collStart_memOk
          exact h11
      · rename_i z12 z13 z14 z15
        exact h0
      · rename_i z16 z17 z18 z19
        apply State.readAsync_memOk
        exact h0
      · rename_i z20 z21 z22 z23
        refine memOk_ite ?_ ?_
        · extract_lets +onlyGivenNames y24
          clear_value y24
          refine memOk_ite ?_ ?_
          · apply State.endAsync_memOk
            exact h0
          · refine memOk_ite ?_ ?_
            · apply State.asyncDone_memOk
              exact h0
            · apply State.updAsync_memOk
              exact h0
        · apply State.post_memOk
          exact h0
      · rename_i z25 z26 z27 z28
        apply State.copySend_memOk
        exact h0
      · rename_i z29 z30 z31 z32
        apply State.post_memOk
        exact h0
      · rename_i z33 z34 z35 z36 z37
        apply State.sendMessage_memOk
        exact h0
      · rename_i z38 z39 z40 z41 z42 z43 z44 z45 z46
        exact h0

theorem State.cruResume_memOk (x0 : State) (x1) (h0 : x0.MemOk) : State.MemOk (State.cruResume x0 x1) := by
  unfold State.cruResume
  extract_lets +onlyGivenNames y1
  clear_value y1
  split
  · rename_i z2 z3 z4 z5 z6 z7
    refine memOk_ite ?_ ?_
    · exact h0
    · split
      · rename_i z8 z9 z10 z11 z12
        refine memOk_have (p := State.MemOk z11) (pairOk_eq z12 ?_) (fun h13 => ?_)
        · apply State.readRanks_memOk
          exact h0
        refine memOk_ite ?_ ?_
        · apply State.endInstance_memOk
          exact h13
        · split
          rename_i z14 z15 z16 z17
          refine memOk_have (p := State.MemOk z16) (pairOk_eq z17 ?_) (fun h18 => ?_)
          · apply State.memFault_memOk
            exact h13
          apply State.setCx_memOk
          exact h18
      · rename_i z19 z20 z21 z22
        refine memOk_have (p := State.MemOk z21) (pairOk_eq z22 ?_) (fun h23 => ?_)
        · apply State.readRanks_memOk
          exact h0
        extract_lets +onlyGivenNames y24
        clear_value y24
        extract_lets +onlyGivenNames y25
        clear_value y25
        refine memOk_ite ?_ ?_
        · apply State.endInstance_memOk
          exact h23
        · refine memOk_ite ?_ ?_
          · apply State.setCx_memOk
            exact h23
          · split
            rename_i z26 z27 z28 z29
            refine memOk_have (p := State.MemOk z28) (pairOk_eq z29 ?_) (fun h30 => ?_)
            · apply State.fresh_memOk
              exact h23
            extract_lets +onlyGivenNames y31
            clear_value y31
            apply State.setCx_memOk
            exact h30
  · rename_i z32 z33 z34
    exact h0

theorem State.retireOne_memOk (x0 : State) (x1) (x2) (x3) (h0 : x0.MemOk) : State.MemOk (State.retireOne x0 x1 x2 x3) := by
  induction x3 generalizing x0 x1 x2 h0
  · unfold State.retireOne
    exact h0
  · rename_i r0 ih
    unfold State.retireOne
    split
    · rename_i z1 z2
      exact h0
    · rename_i z3 z4 z5
      split
      · rename_i z6 z7
        exact h0
      · rename_i z8 z9 z10 z11
        refine memOk_ite ?_ ?_
        · exact h0
        · extract_lets +onlyGivenNames y12
          refine memOk_have (p := State.MemOk y12) ?_ (fun h13 => ?_)
          · unfold y12
            apply State.setWave_memOk
            exact h0
          clear_value y12
          extract_lets +onlyGivenNames y14
          refine memOk_have (p := State.MemOk y14) ?_ (fun h15 => ?_)
          · unfold y14
            split
            · rename_i z16 z17 z18
              refine memOk_ite ?_ ?_
              · apply State.fabricErr_memOk
                exact h13
              · exact h13
            · rename_i z19 z20
              exact h13
          clear_value y14
          apply ih
          (refine ⟨?_⟩; dsimp only; refine State.MemOk.wf ?_)
          exact h15

theorem execAsyncRetire_memOk (x0) (x1) (x2 : State) (h2 : x2.MemOk) : Outcome.MemOk (execAsyncRetire x0 x1 x2) := by
  unfold execAsyncRetire
  refine outOk_next ?_
  apply State.waveExitCheck_memOk
  apply State.retireOne_memOk
  exact h2

theorem State.asyncCount_memOk (x0 : State) (x1) (x2) (x3) (h0 : x0.MemOk) : PairOk (State.asyncCount x0 x1 x2 x3) := by
  unfold State.asyncCount
  refine pairOk_ite ?_ ?_
  · refine pairOk_mk ?_
    exact h0
  · split
    · rename_i z1 z2 z3 z4 z5
      refine memOk_have (p := State.MemOk z4) (pairOk_eq z5 ?_) (fun h6 => ?_)
      · apply State.asyncKeys_memOk
        exact h0
      refine pairOk_mk ?_
      apply State.asyncFault_memOk
      exact h6
    · rename_i z7 z8 z9 z10
      refine memOk_have (p := State.MemOk z9) (pairOk_eq z10 ?_) (fun h11 => ?_)
      · apply State.asyncKeys_memOk
        exact h0
      extract_lets +onlyGivenNames y12
      refine memOk_have (p := State.MemOk y12) ?_ (fun h13 => ?_)
      · unfold y12
        apply State.each_memOk
        · exact h11
        · intro s14 a15 h16
          apply State.drainLine_memOk
          exact h16
      clear_value y12
      refine pairOk_mk ?_
      apply State.store_memOk
      exact h13

theorem State.asyncStore_memOk (x0 : State) (x1) (x2) (h0 : x0.MemOk) : State.MemOk (State.asyncStore x0 x1 x2) := by
  unfold State.asyncStore
  refine memOk_ite ?_ ?_
  · apply State.storeHome_memOk
    exact h0
  · apply State.storeCore_memOk
    exact h0

theorem execCopyComplete_memOk (x0) (x1 : State) (h1 : x1.MemOk) : Outcome.MemOk (execCopyComplete x0 x1) := by
  unfold execCopyComplete
  split
  · rename_i z1 z2
    refine outOk_next ?_
    exact h1
  · rename_i z3 z4 z5
    extract_lets +onlyGivenNames y6
    clear_value y6
    refine outOk_ite ?_ ?_
    · refine outOk_next ?_
      exact h1
    · refine outOk_ite ?_ ?_
      · refine outOk_next ?_
        refine memOk_ite ?_ ?_
        · apply State.asyncDone_memOk
          exact h1
        · exact h1
      · refine outOk_ite ?_ ?_
        · refine outOk_next ?_
          exact h1
        · refine outOk_ite ?_ ?_
          · refine outOk_ite ?_ ?_
            · refine outOk_next ?_
              apply State.asyncDone_memOk
              exact h1
            · split
              rename_i z7 z8 z9 z10
              refine memOk_have (p := State.MemOk z9) (pairOk_eq z10 ?_) (fun h11 => ?_)
              · apply State.asyncCount_memOk
                exact h1
              refine outOk_next ?_
              refine memOk_ite ?_ ?_
              · apply State.asyncDone_memOk
                exact h11
              · exact h11
          · extract_lets +onlyGivenNames y12
            clear_value y12
            extract_lets +onlyGivenNames y13
            clear_value y13
            extract_lets +onlyGivenNames y14
            clear_value y14
            extract_lets +onlyGivenNames y15
            clear_value y15
            extract_lets +onlyGivenNames y16
            clear_value y16
            split
            · rename_i z17 z18 z19 z20 z21
              refine memOk_have (p := State.MemOk z20) (pairOk_eq z21 ?_) (fun h22 => ?_)
              · apply State.asyncKeys_memOk
                exact h1
              refine outOk_next ?_
              apply State.asyncFault_memOk
              exact h22
            · rename_i z23 z24 z25 z26
              refine memOk_have (p := State.MemOk z25) (pairOk_eq z26 ?_) (fun h27 => ?_)
              · apply State.asyncKeys_memOk
                exact h1
              split
              · rename_i z28 z29 z30 z31 z32
                refine memOk_have (p := State.MemOk z31) (pairOk_eq z32 ?_) (fun h33 => ?_)
                · apply State.asyncKeys_memOk
                  exact h27
                refine outOk_next ?_
                apply State.asyncFault_memOk
                exact h33
              · rename_i z34 z35 z36 z37
                refine memOk_have (p := State.MemOk z36) (pairOk_eq z37 ?_) (fun h38 => ?_)
                · apply State.asyncKeys_memOk
                  exact h27
                extract_lets +onlyGivenNames y39
                clear_value y39
                extract_lets +onlyGivenNames y40
                refine memOk_have (p := State.MemOk y40) ?_ (fun h41 => ?_)
                · unfold y40
                  apply State.asyncStore_memOk
                  exact h38
                clear_value y40
                refine outOk_next ?_
                apply State.post_memOk
                apply State.updAsync_memOk
                exact h41

theorem execGatherComplete_memOk (x0) (x1 : State) (h1 : x1.MemOk) : Outcome.MemOk (execGatherComplete x0 x1) := by
  unfold execGatherComplete
  split
  · rename_i z1 z2
    refine outOk_next ?_
    exact h1
  · rename_i z3 z4 z5
    extract_lets +onlyGivenNames y6
    clear_value y6
    extract_lets +onlyGivenNames y7
    clear_value y7
    refine outOk_ite ?_ ?_
    · refine outOk_next ?_
      exact h1
    · refine outOk_ite ?_ ?_
      · refine outOk_next ?_
        apply State.asyncDone_memOk
        exact h1
      · refine outOk_ite ?_ ?_
        · split
          rename_i z8 z9 z10 z11
          refine memOk_have (p := State.MemOk z10) (pairOk_eq z11 ?_) (fun h12 => ?_)
          · apply State.asyncCount_memOk
            exact h1
          refine outOk_next ?_
          refine memOk_ite ?_ ?_
          · apply State.asyncDone_memOk
            exact h12
          · exact h12
        · extract_lets +onlyGivenNames y13
          clear_value y13
          split
          · rename_i z14 z15 z16 z17 z18
            refine memOk_have (p := State.MemOk z17) (pairOk_eq z18 ?_) (fun h19 => ?_)
            · apply State.asyncKeys_memOk
              exact h1
            refine outOk_next ?_
            apply State.asyncFault_memOk
            exact h19
          · rename_i z20 z21 z22 z23
            refine memOk_have (p := State.MemOk z22) (pairOk_eq z23 ?_) (fun h24 => ?_)
            · apply State.asyncKeys_memOk
              exact h1
            extract_lets +onlyGivenNames y25
            clear_value y25
            dsimp only
            split
            · rename_i z26 z27 z28 z29 z30
              refine memOk_have (p := State.MemOk z29) (pairOk_eq z30 ?_) (fun h31 => ?_)
              · apply State.asyncKeys_memOk
                exact h24
              refine outOk_next ?_
              apply State.asyncFault_memOk
              exact h31
            · rename_i z32 z33 z34 z35
              refine memOk_have (p := State.MemOk z34) (pairOk_eq z35 ?_) (fun h36 => ?_)
              · apply State.asyncKeys_memOk
                exact h24
              refine outOk_ite ?_ ?_
              · refine outOk_next ?_
                apply State.post_memOk
                apply State.updAsync_memOk
                apply State.asyncStore_memOk
                exact h36
              · split
                · rename_i z37 z38 z39 z40 z41
                  refine memOk_have (p := State.MemOk z40) (pairOk_eq z41 ?_) (fun h42 => ?_)
                  · apply State.asyncKeys_memOk
                    exact h36
                  refine outOk_next ?_
                  apply State.asyncFault_memOk
                  exact h42
                · rename_i z43 z44 z45 z46
                  refine memOk_have (p := State.MemOk z45) (pairOk_eq z46 ?_) (fun h47 => ?_)
                  · apply State.asyncKeys_memOk
                    exact h36
                  refine outOk_next ?_
                  apply State.post_memOk
                  apply State.updAsync_memOk
                  apply State.asyncStore_memOk
                  exact h47

theorem execSlotUsablePartEnd_memOk (x0) (x1 : State) (h1 : x1.MemOk) : Outcome.MemOk (execSlotUsablePartEnd x0 x1) := by
  unfold execSlotUsablePartEnd
  extract_lets +onlyGivenNames y1
  clear_value y1
  extract_lets +onlyGivenNames y2
  clear_value y2
  refine outOk_ite ?_ ?_
  · refine outOk_next ?_
    apply State.setCircuit_memOk
    exact h1
  · refine outOk_ite ?_ ?_
    · refine outOk_next ?_
      apply State.tryHandshake_memOk
      exact h1
    · refine outOk_next ?_
      exact h1

theorem execErrestGrowth_memOk (x0 : State) (h0 : x0.MemOk) : Outcome.MemOk (execErrestGrowth x0) := by
  unfold execErrestGrowth
  refine outOk_ite ?_ ?_
  · refine outOk_next ?_
    exact h0
  · refine outOk_next ?_
    apply State.after_memOk
    (refine ⟨?_⟩; dsimp only; refine State.MemOk.wf ?_)
    exact h0

theorem State.slotBackoff_memOk (x0 : State) (x1) (h0 : x0.MemOk) : State.MemOk (State.slotBackoff x0 x1) := by
  unfold State.slotBackoff
  extract_lets +onlyGivenNames y1
  clear_value y1
  refine memOk_ite ?_ ?_
  · apply State.setCx_memOk
    exact h0
  · exact h0

theorem crucibleStep_memOk (x0 : State) (x1) (h0 : x0.MemOk) (hk : ∀ i x d, Outcome.MemOk (x1 i x d)) : Outcome.MemOk (crucibleStep x0 x1) := by
  unfold crucibleStep
  split
  · rename_i z1 z2 z3 z4
    extract_lets +onlyGivenNames y5
    clear_value y5
    extract_lets +onlyGivenNames y6
    clear_value y6
    split
    · rename_i z7 z8 z9
      refine outOk_ite ?_ ?_
      · exact outOk_fault
      · refine outOk_ite ?_ ?_
        · refine outOk_next ?_
          apply State.endInstance_memOk
          exact h0
        · apply hk
    · rename_i z10 z11
      exact outOk_fault
  · rename_i z12 z13
    exact outOk_fault

theorem State.stepTo_memOk (x0 : State) (x1) (x2) (h0 : x0.MemOk) : State.MemOk (State.stepTo x0 x1 x2) := by
  unfold State.stepTo
  apply State.setCx_memOk
  exact h0

theorem State.startData_memOk (x0 : State) (x1) (x2) (x3) (x4) (x5) (x6) (x7) (x8) (x9) (x10) (x11) (h0 : x0.MemOk) : State.MemOk (State.startData x0 x1 x2 x3 x4 x5 x6 x7 x8 x9 x10 x11) := by
  unfold State.startData
  refine memOk_ite ?_ ?_
  · apply State.stepTo_memOk
    exact h0
  · extract_lets +onlyGivenNames y1
    clear_value y1
    split
    rename_i z2 z3 z4 z5
    extract_lets +onlyGivenNames y6
    clear_value y6
    extract_lets +onlyGivenNames y7
    clear_value y7
    refine memOk_ite ?_ ?_
    · exact h0
    · refine memOk_ite ?_ ?_
      · apply State.endInstance_memOk
        exact h0
      · refine memOk_ite ?_ ?_
        · apply State.endInstance_memOk
          exact h0
        · refine memOk_ite ?_ ?_
          · apply State.endInstance_memOk
            exact h0
          · refine memOk_ite ?_ ?_
            · apply State.stepTo_memOk
              exact h0
            · apply State.armTimeout_memOk
              apply State.setCx_memOk
              exact h0

theorem execSend_memOk (x0) (x1 : State) (h1 : x1.MemOk) : Outcome.MemOk (execSend x0 x1) := by
  unfold execSend
  apply crucibleStep_memOk
  · exact h1
  · intro a1 a2 a3
    extract_lets +onlyGivenNames y4
    clear_value y4
    refine outOk_next ?_
    apply State.startData_memOk
    exact h1

theorem execRecv_memOk (x0) (x1 : State) (h1 : x1.MemOk) : Outcome.MemOk (execRecv x0 x1) := by
  unfold execRecv
  apply crucibleStep_memOk
  · exact h1
  · intro a1 a2 a3
    extract_lets +onlyGivenNames y4
    clear_value y4
    refine outOk_next ?_
    apply State.startData_memOk
    exact h1

theorem execRrs_memOk (x0) (x1 : State) (h1 : x1.MemOk) : Outcome.MemOk (execRrs x0 x1) := by
  unfold execRrs
  apply crucibleStep_memOk
  · exact h1
  · intro a1 a2 a3
    extract_lets +onlyGivenNames y4
    clear_value y4
    extract_lets +onlyGivenNames y5
    clear_value y5
    refine outOk_next ?_
    apply State.startData_memOk
    exact h1

theorem execRrd_memOk (x0) (x1 : State) (h1 : x1.MemOk) : Outcome.MemOk (execRrd x0 x1) := by
  unfold execRrd
  apply crucibleStep_memOk
  · exact h1
  · intro a1 a2 a3
    extract_lets +onlyGivenNames y4
    clear_value y4
    refine outOk_next ?_
    apply State.startData_memOk
    exact h1

theorem execCopy_memOk (x0) (x1 : State) (h1 : x1.MemOk) : Outcome.MemOk (execCopy x0 x1) := by
  unfold execCopy
  apply crucibleStep_memOk
  · exact h1
  · intro a1 a2 a3
    refine outOk_next ?_
    apply State.startData_memOk
    exact h1

theorem execBcast_memOk (x0) (x1 : State) (h1 : x1.MemOk) : Outcome.MemOk (execBcast x0 x1) := by
  unfold execBcast
  apply crucibleStep_memOk
  · exact h1
  · intro a1 a2 a3
    extract_lets +onlyGivenNames y4
    clear_value y4
    refine outOk_ite ?_ ?_
    · refine outOk_next ?_
      apply State.startData_memOk
      exact h1
    · refine outOk_next ?_
      apply State.startData_memOk
      exact h1

theorem execWait_memOk (x0) (x1 : State) (h1 : x1.MemOk) : Outcome.MemOk (execWait x0 x1) := by
  unfold execWait
  apply crucibleStep_memOk
  · exact h1
  · intro a1 a2 a3
    refine outOk_next ?_
    refine memOk_ite ?_ ?_
    · apply State.stepTo_memOk
      exact h1
    · exact h1

theorem State.slotFault_memOk (x0 : State) (x1) (x2) (x3) (x4) (x5) (h0 : x0.MemOk) : State.MemOk (State.slotFault x0 x1 x2 x3 x4 x5) := by
  unfold State.slotFault
  refine memOk_ite ?_ ?_
  · apply State.endInstance_memOk
    exact h0
  · split
    rename_i z1 z2 z3 z4
    refine memOk_have (p := State.MemOk z3) (pairOk_eq z4 ?_) (fun h5 => ?_)
    · apply State.memFault_memOk
      exact h0
    apply State.setCx_memOk
    exact h5

theorem execWaitEv_memOk (x0) (x1 : State) (h1 : x1.MemOk) : Outcome.MemOk (execWaitEv x0 x1) := by
  unfold execWaitEv
  apply crucibleStep_memOk
  · exact h1
  · intro a1 a2 a3
    split
    · rename_i z4 z5
      refine outOk_next ?_
      apply State.endInstance_memOk
      exact h1
    · rename_i z6 z7 z8
      refine outOk_ite ?_ ?_
      · refine outOk_next ?_
        apply State.endInstance_memOk
        exact h1
      · refine outOk_ite ?_ ?_
        · refine outOk_next ?_
          exact h1
        · extract_lets +onlyGivenNames y9
          clear_value y9
          split
          · rename_i z10 z11 z12 z13 z14
            refine memOk_have (p := State.MemOk z13) (pairOk_eq z14 ?_) (fun h15 => ?_)
            · apply State.resolve_memOk
              exact h1
            refine outOk_next ?_
            apply State.slotFault_memOk
            exact h15
          · rename_i z16 z17 z18 z19
            refine memOk_have (p := State.MemOk z18) (pairOk_eq z19 ?_) (fun h20 => ?_)
            · apply State.resolve_memOk
              exact h1
            refine outOk_ite ?_ ?_
            · refine outOk_next ?_
              apply State.setCx_memOk
              exact h20
            · extract_lets +onlyGivenNames y21
              clear_value y21
              refine outOk_ite ?_ ?_
              · refine outOk_next ?_
                apply State.setCx_memOk
                exact h20
              · extract_lets +onlyGivenNames y22
                clear_value y22
                refine outOk_next ?_
                apply State.atTime_memOk
                apply State.setCx_memOk
                exact h20

theorem execLoop_memOk (x0) (x1 : State) (h1 : x1.MemOk) : Outcome.MemOk (execLoop x0 x1) := by
  unfold execLoop
  apply crucibleStep_memOk
  · exact h1
  · intro a1 a2 a3
    refine outOk_ite ?_ ?_
    · refine outOk_next ?_
      apply State.stepTo_memOk
      exact h1
    · refine outOk_next ?_
      apply State.setCx_memOk
      exact h1

theorem execEndl_memOk (x0) (x1 : State) (h1 : x1.MemOk) : Outcome.MemOk (execEndl x0 x1) := by
  unfold execEndl
  apply crucibleStep_memOk
  · exact h1
  · intro a1 a2 a3
    split
    · rename_i z4 z5 z6 z7 z8 z9
      refine outOk_ite ?_ ?_
      · refine outOk_next ?_
        apply State.setCx_memOk
        exact h1
      · refine outOk_next ?_
        apply State.setCx_memOk
        exact h1
    · rename_i z10 z11
      refine outOk_next ?_
      apply State.stepTo_memOk
      exact h1

theorem execPeer_memOk (x0) (x1 : State) (h1 : x1.MemOk) : Outcome.MemOk (execPeer x0 x1) := by
  unfold execPeer
  apply crucibleStep_memOk
  · exact h1
  · intro a1 a2 a3
    extract_lets +onlyGivenNames y4
    clear_value y4
    extract_lets +onlyGivenNames y5
    clear_value y5
    refine outOk_ite ?_ ?_
    · refine outOk_next ?_
      apply State.endInstance_memOk
      exact h1
    · refine outOk_next ?_
      apply State.setCx_memOk
      exact h1

theorem execSetop_memOk (x0) (x1 : State) (h1 : x1.MemOk) : Outcome.MemOk (execSetop x0 x1) := by
  unfold execSetop
  apply crucibleStep_memOk
  · exact h1
  · intro a1 a2 a3
    extract_lets +onlyGivenNames y4
    clear_value y4
    extract_lets +onlyGivenNames y5
    clear_value y5
    refine outOk_next ?_
    apply State.setCx_memOk
    exact h1

theorem execSetch_memOk (x0) (x1 : State) (h1 : x1.MemOk) : Outcome.MemOk (execSetch x0 x1) := by
  unfold execSetch
  apply crucibleStep_memOk
  · exact h1
  · intro a1 a2 a3
    refine outOk_ite ?_ ?_
    · refine outOk_next ?_
      apply State.endInstance_memOk
      exact h1
    · refine outOk_next ?_
      apply State.setCx_memOk
      exact h1

theorem execNotify_memOk (x0) (x1 : State) (h1 : x1.MemOk) : Outcome.MemOk (execNotify x0 x1) := by
  unfold execNotify
  apply crucibleStep_memOk
  · exact h1
  · intro a1 a2 a3
    split
    · rename_i z4 z5
      refine outOk_next ?_
      apply State.endInstance_memOk
      exact h1
    · rename_i z6 z7 z8
      refine outOk_ite ?_ ?_
      · refine outOk_next ?_
        apply State.endInstance_memOk
        exact h1
      · refine outOk_ite ?_ ?_
        · refine outOk_next ?_
          exact h1
        · extract_lets +onlyGivenNames y9
          clear_value y9
          split
          · rename_i z10 z11 z12 z13 z14
            refine memOk_have (p := State.MemOk z13) (pairOk_eq z14 ?_) (fun h15 => ?_)
            · apply State.devUpdate_memOk
              exact h1
            refine outOk_next ?_
            apply State.slotFault_memOk
            exact h15
          · rename_i z16 z17 z18 z19
            refine memOk_have (p := State.MemOk z18) (pairOk_eq z19 ?_) (fun h20 => ?_)
            · apply State.devUpdate_memOk
              exact h1
            refine outOk_next ?_
            apply State.stepTo_memOk
            exact h20

theorem execDone_memOk (x0) (x1 : State) (h1 : x1.MemOk) : Outcome.MemOk (execDone x0 x1) := by
  unfold execDone
  apply crucibleStep_memOk
  · exact h1
  · intro a1 a2 a3
    refine outOk_ite ?_ ?_
    · refine outOk_next ?_
      exact h1
    · extract_lets +onlyGivenNames y4
      clear_value y4
      refine outOk_next ?_
      apply State.endInstance_memOk
      apply State.setCx_memOk
      exact h1

theorem execCmov_memOk (x0) (x1) (x2 : State) (h2 : x2.MemOk) : Outcome.MemOk (execCmov x0 x1 x2) := by
  unfold execCmov
  apply gafferResult_memOk
  exact h2

theorem execCadd_memOk (x0) (x1) (x2) (x3 : State) (h3 : x3.MemOk) : Outcome.MemOk (execCadd x0 x1 x2 x3) := by
  unfold execCadd
  apply gafferResult_memOk
  exact h3

theorem execCaddImm_memOk (x0) (x1) (x2) (x3 : State) (h3 : x3.MemOk) : Outcome.MemOk (execCaddImm x0 x1 x2 x3) := by
  unfold execCaddImm
  apply gafferResult_memOk
  exact h3

theorem execCsub_memOk (x0) (x1) (x2) (x3 : State) (h3 : x3.MemOk) : Outcome.MemOk (execCsub x0 x1 x2 x3) := by
  unfold execCsub
  apply gafferResult_memOk
  exact h3

theorem execCsubImm_memOk (x0) (x1) (x2) (x3 : State) (h3 : x3.MemOk) : Outcome.MemOk (execCsubImm x0 x1 x2 x3) := by
  unfold execCsubImm
  apply gafferResult_memOk
  exact h3

theorem execCandImm_memOk (x0) (x1) (x2) (x3 : State) (h3 : x3.MemOk) : Outcome.MemOk (execCandImm x0 x1 x2 x3) := by
  unfold execCandImm
  apply gafferResult_memOk
  exact h3

theorem execCor_memOk (x0) (x1) (x2) (x3 : State) (h3 : x3.MemOk) : Outcome.MemOk (execCor x0 x1 x2 x3) := by
  unfold execCor
  apply gafferResult_memOk
  exact h3

theorem execCorImm_memOk (x0) (x1) (x2) (x3 : State) (h3 : x3.MemOk) : Outcome.MemOk (execCorImm x0 x1 x2 x3) := by
  unfold execCorImm
  apply gafferResult_memOk
  exact h3

theorem execCshl_memOk (x0) (x1) (x2) (x3 : State) (h3 : x3.MemOk) : Outcome.MemOk (execCshl x0 x1 x2 x3) := by
  unfold execCshl
  apply gafferResult_memOk
  exact h3

theorem execCshlImm_memOk (x0) (x1) (x2) (x3 : State) (h3 : x3.MemOk) : Outcome.MemOk (execCshlImm x0 x1 x2 x3) := by
  unfold execCshlImm
  apply gafferResult_memOk
  exact h3

theorem execCcmp_memOk (x0) (x1) (x2) (x3 : State) (h3 : x3.MemOk) : Outcome.MemOk (execCcmp x0 x1 x2 x3) := by
  unfold execCcmp
  apply gafferResult_memOk
  exact h3

theorem execCcmpImm_memOk (x0) (x1) (x2) (x3 : State) (h3 : x3.MemOk) : Outcome.MemOk (execCcmpImm x0 x1 x2 x3) := by
  unfold execCcmpImm
  apply gafferResult_memOk
  exact h3

theorem State.gGoto_memOk (x0 : State) (x1) (x2) (h0 : x0.MemOk) : State.MemOk (State.gGoto x0 x1 x2) := by
  unfold State.gGoto
  apply State.setGth_memOk
  exact h0

theorem execCbr_memOk (x0) (x1) (x2) (x3 : State) (h3 : x3.MemOk) : Outcome.MemOk (execCbr x0 x1 x2 x3) := by
  unfold execCbr
  apply asGaffer_memOk
  · exact h3
  · intro a1 a2
    refine outOk_next ?_
    apply State.gGoto_memOk
    exact h3

theorem execCjmp_memOk (x0) (x1 : State) (h1 : x1.MemOk) : Outcome.MemOk (execCjmp x0 x1) := by
  unfold execCjmp
  apply asGaffer_memOk
  · exact h1
  · intro a1 a2
    refine outOk_next ?_
    apply State.gGoto_memOk
    exact h1

theorem execCcall_memOk (x0) (x1 : State) (h1 : x1.MemOk) : Outcome.MemOk (execCcall x0 x1) := by
  unfold execCcall
  apply asGaffer_memOk
  · exact h1
  · intro a1 a2
    refine outOk_next ?_
    apply State.gGoto_memOk
    apply State.setGth_memOk
    exact h1

theorem execCret_memOk (x0 : State) (h0 : x0.MemOk) : Outcome.MemOk (execCret x0) := by
  unfold execCret
  apply asGaffer_memOk
  · exact h0
  · intro a1 a2
    refine outOk_next ?_
    refine memOk_ite ?_ ?_
    · apply State.gGoto_memOk
      exact h0
    · apply State.gFault_memOk
      exact h0

theorem State.gMemFault_memOk (x0 : State) (x1) (x2) (x3) (x4) (x5) (h0 : x0.MemOk) : State.MemOk (State.gMemFault x0 x1 x2 x3 x4 x5) := by
  unfold State.gMemFault
  refine memOk_ite ?_ ?_
  · apply State.gFault_memOk
    exact h0
  · split
    rename_i z1 z2 z3 z4
    refine memOk_have (p := State.MemOk z3) (pairOk_eq z4 ?_) (fun h5 => ?_)
    · apply State.memFault_memOk
      exact h0
    apply State.setGth_memOk
    exact h5

theorem execCld_memOk (x0) (x1) (x2) (x3) (x4 : State) (h4 : x4.MemOk) : Outcome.MemOk (execCld x0 x1 x2 x3 x4) := by
  unfold execCld
  apply asGaffer_memOk
  · exact h4
  · intro a1 a2
    split
    · rename_i z3 z4 z5 z6
      refine outOk_next ?_
      apply State.gFault_memOk
      exact h4
    · rename_i z7 z8 z9 z10 z11
      refine outOk_next ?_
      apply State.gDone_memOk
      exact h4
    · rename_i z12 z13 z14 z15 z16
      refine outOk_next ?_
      apply State.gDone_memOk
      exact h4
    · rename_i z17 z18 z19 z20 z21 z22 z23 z24 z25 z26
      split
      · rename_i z27 z28 z29 z30
        refine memOk_have (p := State.MemOk z29) (pairOk_eq z30 ?_) (fun h31 => ?_)
        · apply State.devRead_memOk
          exact h4
        refine outOk_next ?_
        apply State.gDone_memOk
        exact h31
      · rename_i z32 z33 z34 z35 z36
        refine memOk_have (p := State.MemOk z35) (pairOk_eq z36 ?_) (fun h37 => ?_)
        · apply State.devRead_memOk
          exact h4
        refine outOk_next ?_
        apply State.gMemFault_memOk
        exact h37
    · rename_i z38 z39 z40 z41 z42 z43 z44
      refine outOk_next ?_
      apply State.gFault_memOk
      exact h4

theorem State.gNext_memOk (x0 : State) (x1) (h0 : x0.MemOk) : State.MemOk (State.gNext x0 x1) := by
  unfold State.gNext
  extract_lets +onlyGivenNames y1
  clear_value y1
  apply State.setGth_memOk
  exact h0

theorem State.portWrite_memOk (x0 : State) (x1) (x2) (x3) (h0 : x0.MemOk) : State.MemOk (State.portWrite x0 x1 x2 x3) := by
  unfold State.portWrite
  extract_lets +onlyGivenNames y1
  clear_value y1
  split
  · rename_i z2
    apply State.writeOpctl_memOk
    exact h0
  · rename_i z3
    apply State.setPort_memOk
    exact h0
  · rename_i z4
    apply State.setPort_memOk
    exact h0
  · rename_i z5 z6 z7 z8
    exact h0

theorem State.circuitWrite_memOk (x0 : State) (x1) (x2) (x3) (h0 : x0.MemOk) : State.MemOk (State.circuitWrite x0 x1 x2 x3) := by
  unfold State.circuitWrite
  extract_lets +onlyGivenNames y1
  clear_value y1
  refine memOk_ite ?_ ?_
  · exact h0
  · extract_lets +onlyGivenNames y2
    clear_value y2
    apply State.setCircuit_memOk
    exact h0

theorem State.writeFdid_memOk (x0 : State) (x1) (h0 : x0.MemOk) : State.MemOk (State.writeFdid x0 x1) := by
  unfold State.writeFdid
  extract_lets +onlyGivenNames y1
  clear_value y1
  refine memOk_ite ?_ ?_
  · exact h0
  · apply State.each_memOk
    · (refine ⟨?_⟩; dsimp only; refine State.MemOk.wf ?_)
      exact h0
    · intro s2 a3 h4
      apply State.pump_memOk
      exact h4

theorem State.writeTbctl_memOk (x0 : State) (x1) (h0 : x0.MemOk) : State.MemOk (State.writeTbctl x0 x1) := by
  unfold State.writeTbctl
  extract_lets +onlyGivenNames y1
  clear_value y1
  extract_lets +onlyGivenNames y2
  refine memOk_have (p := State.MemOk y2) ?_ (fun h3 => ?_)
  · unfold y2
    (refine ⟨?_⟩; dsimp only; refine State.MemOk.wf ?_)
    exact h0
  clear_value y2
  refine memOk_ite ?_ ?_
  · apply State.after_memOk
    exact h3
  · exact h3

theorem State.cruPause_memOk (x0 : State) (x1) (h0 : x0.MemOk) : State.MemOk (State.cruPause x0 x1) := by
  unfold State.cruPause
  extract_lets +onlyGivenNames y1
  clear_value y1
  refine memOk_ite ?_ ?_
  · apply State.post_memOk
    apply State.setCx_memOk
    exact h0
  · exact h0

theorem State.cruAbort_memOk (x0 : State) (x1) (h0 : x0.MemOk) : State.MemOk (State.cruAbort x0 x1) := by
  unfold State.cruAbort
  extract_lets +onlyGivenNames y1
  clear_value y1
  refine memOk_ite ?_ ?_
  · apply State.endInstance_memOk
    exact h0
  · exact h0

theorem State.slotWrite_memOk (x0 : State) (x1) (x2) (x3) (h0 : x0.MemOk) : State.MemOk (State.slotWrite x0 x1 x2 x3) := by
  unfold State.slotWrite
  refine memOk_ite ?_ ?_
  · extract_lets +onlyGivenNames y1
    refine memOk_have (p := State.MemOk y1) ?_ (fun h2 => ?_)
    · unfold y1
      refine memOk_ite ?_ ?_
      · apply State.cruPause_memOk
        exact h0
      · exact h0
    clear_value y1
    extract_lets +onlyGivenNames y3
    refine memOk_have (p := State.MemOk y3) ?_ (fun h4 => ?_)
    · unfold y3
      refine memOk_ite ?_ ?_
      · apply State.cruResume_memOk
        exact h2
      · exact h2
    clear_value y3
    refine memOk_ite ?_ ?_
    · apply State.cruAbort_memOk
      exact h4
    · exact h4
  · refine memOk_ite ?_ ?_
    · apply State.setCx_memOk
      exact h0
    · exact h0

theorem State.rearmIdle_memOk (x0 : State) (x1) (h0 : x0.MemOk) : State.MemOk (State.rearmIdle x0 x1) := by
  unfold State.rearmIdle
  apply State.each_memOk
  · exact h0
  · intro s1 a2 h3
    extract_lets +onlyGivenNames y4
    clear_value y4
    split
    · rename_i z5 z6 z7
      extract_lets +onlyGivenNames y8
      clear_value y8
      apply State.atTime_memOk
      apply State.atTime_memOk
      exact h3
    · rename_i z9 z10
      exact h3

theorem State.dieWrite_memOk (x0 : State) (x1) (x2) (x3) (h0 : x0.MemOk) : State.MemOk (State.dieWrite x0 x1 x2 x3) := by
  unfold State.dieWrite
  split
  · rename_i z1
    apply State.writeComres_memOk
    exact h0
  · rename_i z2
    apply State.rearmIdle_memOk
    apply State.setDie_memOk
    exact h0
  · rename_i z3 z4 z5
    exact h0

theorem State.powerWrite_memOk (x0 : State) (x1) (x2) (x3) (h0 : x0.MemOk) : State.MemOk (State.powerWrite x0 x1 x2 x3) := by
  unfold State.powerWrite
  split
  · rename_i z1
    apply State.post_memOk
    apply State.updCluster_memOk
    exact h0
  · rename_i z2
    extract_lets +onlyGivenNames y3
    refine memOk_have (p := State.MemOk y3) ?_ (fun h4 => ?_)
    · unfold y3
      apply State.updCluster_memOk
      exact h0
    clear_value y3
    extract_lets +onlyGivenNames y5
    clear_value y5
    apply State.atTime_memOk
    exact h4
  · rename_i z6 z7 z8
    refine memOk_ite ?_ ?_
    · apply State.updCore_memOk
      exact h0
    · exact h0

theorem State.pmWrite_memOk (x0 : State) (x1) (x2) (x3) (h0 : x0.MemOk) : State.MemOk (State.pmWrite x0 x1 x2 x3) := by
  unfold State.pmWrite
  split
  · rename_i z1
    apply State.writePmctl_memOk
    exact h0
  · rename_i z2
    apply State.updCtx_memOk
    exact h0
  · rename_i z3 z4 z5
    exact h0

theorem State.writeWdcfg_memOk (x0 : State) (x1) (x2) (h0 : x0.MemOk) : State.MemOk (State.writeWdcfg x0 x1 x2) := by
  unfold State.writeWdcfg
  extract_lets +onlyGivenNames y1
  clear_value y1
  extract_lets +onlyGivenNames y2
  refine memOk_have (p := State.MemOk y2) ?_ (fun h3 => ?_)
  · unfold y2
    apply State.setDie_memOk
    exact h0
  clear_value y2
  refine memOk_ite ?_ ?_
  · exact h3
  · apply State.each_memOk
    · exact h3
    · intro s4 a5 h6
      refine memOk_ite ?_ ?_
      · exact h6
      · apply State.each_memOk
        · exact h6
        · intro s7 a8 h9
          split
          · rename_i z10 z11 z12
            apply State.atTime_memOk
            exact h9
          · rename_i z13 z14
            exact h9

theorem State.fabWrite_memOk (x0 : State) (x1) (x2) (h0 : x0.MemOk) : State.MemOk (State.fabWrite x0 x1 x2) := by
  unfold State.fabWrite
  extract_lets +onlyGivenNames y1
  clear_value y1
  extract_lets +onlyGivenNames y2
  clear_value y2
  refine memOk_ite ?_ ?_
  · apply State.portWrite_memOk
    exact h0
  · refine memOk_ite ?_ ?_
    · refine memOk_ite ?_ ?_
      · extract_lets +onlyGivenNames y3
        clear_value y3
        apply State.setPort_memOk
        exact h0
      · exact h0
    · refine memOk_ite ?_ ?_
      · apply State.circuitWrite_memOk
        exact h0
      · refine memOk_ite ?_ ?_
        · apply State.writeFdid_memOk
          exact h0
        · refine memOk_ite ?_ ?_
          · (refine ⟨?_⟩; dsimp only; refine State.MemOk.wf ?_)
            exact h0
          · refine memOk_ite ?_ ?_
            · (refine ⟨?_⟩; dsimp only; refine State.MemOk.wf ?_)
              exact h0
            · refine memOk_ite ?_ ?_
              · apply State.writeTbctl_memOk
                exact h0
              · refine memOk_ite ?_ ?_
                · refine memOk_ite ?_ ?_
                  · apply State.writeGwake_memOk
                    exact h0
                  · exact h0
                · refine memOk_ite ?_ ?_
                  · apply State.writeMbwake_memOk
                    exact h0
                  · refine memOk_ite ?_ ?_
                    · (refine ⟨?_⟩; dsimp only; refine State.MemOk.wf ?_)
                      exact h0
                    · refine memOk_ite ?_ ?_
                      · apply State.slotWrite_memOk
                        exact h0
                      · refine memOk_ite ?_ ?_
                        · extract_lets +onlyGivenNames y4
                          clear_value y4
                          refine memOk_ite ?_ ?_
                          · apply State.writeQwake_memOk
                            exact h0
                          · refine memOk_ite ?_ ?_
                            · apply State.setHq_memOk
                              exact h0
                            · exact h0
                        · refine memOk_ite ?_ ?_
                          · apply State.dieWrite_memOk
                            exact h0
                          · refine memOk_ite ?_ ?_
                            · apply State.powerWrite_memOk
                              exact h0
                            · refine memOk_ite ?_ ?_
                              · apply State.pmWrite_memOk
                                exact h0
                              · refine memOk_ite ?_ ?_
                                · apply State.writeWdcfg_memOk
                                  exact h0
                                · exact h0

theorem State.fabStore_memOk (x0 : State) (x1) (x2) (x3) (h0 : x0.MemOk) : State.MemOk (State.fabStore x0 x1 x2 x3) := by
  unfold State.fabStore
  refine memOk_ite ?_ ?_
  · apply State.fabWrite_memOk
    apply State.fabWrite_memOk
    exact h0
  · apply State.fabWrite_memOk
    exact h0

theorem execCst_memOk (x0) (x1) (x2) (x3) (x4 : State) (h4 : x4.MemOk) : Outcome.MemOk (execCst x0 x1 x2 x3 x4) := by
  unfold execCst
  apply asGaffer_memOk
  · exact h4
  · intro a1 a2
    extract_lets +onlyGivenNames y3
    clear_value y3
    split
    · rename_i z4 z5 z6 z7
      refine outOk_next ?_
      apply State.gFault_memOk
      exact h4
    · rename_i z8 z9 z10 z11 z12
      refine outOk_next ?_
      apply State.gNext_memOk
      apply State.store_memOk
      exact h4
    · rename_i z13 z14 z15 z16 z17
      refine outOk_next ?_
      apply State.gNext_memOk
      apply State.fabStore_memOk
      exact h4
    · rename_i z18 z19 z20 z21 z22 z23 z24 z25 z26 z27
      split
      · rename_i z28 z29 z30 z31
        refine memOk_have (p := State.MemOk z30) (pairOk_eq z31 ?_) (fun h32 => ?_)
        · apply State.devWrite_memOk
          exact h4
        refine outOk_next ?_
        apply State.gNext_memOk
        exact h32
      · rename_i z33 z34 z35 z36 z37
        refine memOk_have (p := State.MemOk z36) (pairOk_eq z37 ?_) (fun h38 => ?_)
        · apply State.devWrite_memOk
          exact h4
        refine outOk_next ?_
        apply State.gMemFault_memOk
        exact h38
    · rename_i z39 z40 z41 z42 z43 z44 z45
      refine outOk_next ?_
      apply State.gFault_memOk
      exact h4

theorem execCtime_memOk (x0) (x1 : State) (h1 : x1.MemOk) : Outcome.MemOk (execCtime x0 x1) := by
  unfold execCtime
  apply gafferResult_memOk
  exact h1

theorem execChalt_memOk (x0 : State) (h0 : x0.MemOk) : Outcome.MemOk (execChalt x0) := by
  unfold execChalt
  apply asGaffer_memOk
  · exact h0
  · intro a1 a2
    extract_lets +onlyGivenNames y3
    refine memOk_have (p := State.MemOk y3) ?_ (fun h4 => ?_)
    · unfold y3
      apply State.gComplete_memOk
      exact h0
    clear_value y3
    refine outOk_next ?_
    apply State.setGth_memOk
    exact h4

theorem onEntry_memOk (x0 : State) (x1) (x2) (x3) (h0 : x0.MemOk) (hk : ∀ t g e, PairOk (x3 t g e)) : Outcome.MemOk (onEntry x0 x1 x2 x3) := by
  unfold onEntry
  apply asGaffer_memOk
  · exact h0
  · intro a1 a2
    extract_lets +onlyGivenNames y3
    clear_value y3
    refine outOk_ite ?_ ?_
    · refine outOk_next ?_
      apply State.gDone_memOk
      exact h0
    · split
      rename_i z4 z5 z6 z7
      refine memOk_have (p := State.MemOk z6) (pairOk_eq z7 ?_) (fun h8 => ?_)
      · apply hk
      refine outOk_next ?_
      apply State.gDone_memOk
      exact h8

theorem State.request_memOk (x0 : State) (x1) (x2) (x3) (h0 : x0.MemOk) : PairOk (State.request x0 x1 x2 x3) := by
  unfold State.request
  extract_lets +onlyGivenNames y1
  clear_value y1
  dsimp only
  refine pairOk_ite ?_ ?_
  · refine pairOk_ite ?_ ?_
    · refine pairOk_mk ?_
      split
      · rename_i z2 z3
        apply State.atTime_memOk
        apply State.moveEntry_memOk
        apply State.setCircuit_memOk
        apply State.setCircuit_memOk
        exact h0
      · rename_i z4
        apply State.sendRsv_memOk
        apply State.setCircuit_memOk
        apply State.setCircuit_memOk
        exact h0
    · refine pairOk_mk ?_
      apply State.moveEntry_memOk
      apply State.setCircuit_memOk
      exact h0
  · refine pairOk_ite ?_ ?_
    · refine pairOk_mk ?_
      split
      · rename_i z5 z6
        apply State.atTime_memOk
        apply State.moveEntry_memOk
        apply State.setCircuit_memOk
        exact h0
      · rename_i z7
        apply State.sendRsv_memOk
        apply State.setCircuit_memOk
        exact h0
    · refine pairOk_mk ?_
      exact h0

theorem execCreq_memOk (x0) (x1) (x2 : State) (h2 : x2.MemOk) : Outcome.MemOk (execCreq x0 x1 x2) := by
  unfold execCreq
  apply onEntry_memOk
  · exact h2
  · intro a1 a2 a3
    apply State.request_memOk
    exact h2

theorem State.gWaits_memOk (x0 : State) (x1) (x2) (x3) (h0 : x0.MemOk) : State.MemOk (State.gWaits x0 x1 x2 x3) := by
  unfold State.gWaits
  extract_lets +onlyGivenNames y1
  clear_value y1
  extract_lets +onlyGivenNames y2
  refine memOk_have (p := State.MemOk y2) ?_ (fun h3 => ?_)
  · unfold y2
    apply State.setGth_memOk
    exact h0
  clear_value y2
  refine memOk_ite ?_ ?_
  · exact h3
  · apply State.atTime_memOk
    exact h3

theorem execCawait_memOk (x0) (x1) (x2) (x3 : State) (h3 : x3.MemOk) : Outcome.MemOk (execCawait x0 x1 x2 x3) := by
  unfold execCawait
  apply asGaffer_memOk
  · exact h3
  · intro a1 a2
    extract_lets +onlyGivenNames y3
    clear_value y3
    extract_lets +onlyGivenNames y4
    clear_value y4
    refine outOk_ite ?_ ?_
    · refine outOk_next ?_
      apply State.gDone_memOk
      exact h3
    · refine outOk_ite ?_ ?_
      · refine outOk_next ?_
        apply State.gDone_memOk
        exact h3
      · refine outOk_ite ?_ ?_
        · refine outOk_next ?_
          apply State.gDone_memOk
          exact h3
        · refine outOk_next ?_
          apply State.gWaits_memOk
          exact h3

theorem execCstat_memOk (x0) (x1) (x2 : State) (h2 : x2.MemOk) : Outcome.MemOk (execCstat x0 x1 x2) := by
  unfold execCstat
  apply onEntry_memOk
  · exact h2
  · intro a1 a2 a3
    refine pairOk_mk ?_
    exact h2

theorem execCbind_memOk (x0) (x1) (x2) (x3 : State) (h3 : x3.MemOk) : Outcome.MemOk (execCbind x0 x1 x2 x3) := by
  unfold execCbind
  apply onEntry_memOk
  · exact h3
  · intro a1 a2 a3
    refine pairOk_mk ?_
    apply State.setCircuit_memOk
    exact h3

theorem execCrel_memOk (x0) (x1) (x2 : State) (h2 : x2.MemOk) : Outcome.MemOk (execCrel x0 x1 x2) := by
  unfold execCrel
  apply onEntry_memOk
  · exact h2
  · intro a1 a2 a3
    refine pairOk_mk ?_
    apply State.releaseEntry_memOk
    exact h2

theorem execCtear_memOk (x0) (x1) (x2 : State) (h2 : x2.MemOk) : Outcome.MemOk (execCtear x0 x1 x2) := by
  unfold execCtear
  apply onEntry_memOk
  · exact h2
  · intro a1 a2 a3
    refine pairOk_mk ?_
    apply State.tearEntry_memOk
    exact h2

theorem execCpre_memOk (x0) (x1) (x2) (x3 : State) (h3 : x3.MemOk) : Outcome.MemOk (execCpre x0 x1 x2 x3) := by
  unfold execCpre
  apply onEntry_memOk
  · exact h3
  · intro a1 a2 a3
    apply State.request_memOk
    exact h3

theorem execCgate_memOk (x0) (x1) (x2) (x3 : State) (h3 : x3.MemOk) : Outcome.MemOk (execCgate x0 x1 x2 x3) := by
  unfold execCgate
  apply asGaffer_memOk
  · exact h3
  · intro a1 a2
    extract_lets +onlyGivenNames y3
    clear_value y3
    extract_lets +onlyGivenNames y4
    clear_value y4
    dsimp only
    refine outOk_ite ?_ ?_
    · refine outOk_next ?_
      apply State.gDone_memOk
      exact h3
    · refine outOk_ite ?_ ?_
      · refine outOk_next ?_
        apply State.gDone_memOk
        exact h3
      · refine outOk_ite ?_ ?_
        · refine outOk_next ?_
          apply State.gDone_memOk
          exact h3
        · refine outOk_next ?_
          apply State.gDone_memOk
          apply State.setPort_memOk
          apply State.writeOpctl_memOk
          apply State.setPort_memOk
          exact h3

theorem execCslot_memOk (x0) (x1) (x2 : State) (h2 : x2.MemOk) : Outcome.MemOk (execCslot x0 x1 x2) := by
  unfold execCslot
  apply gafferResult_memOk
  exact h2

theorem State.setVersion_memOk (x0 : State) (x1) (h0 : x0.MemOk) : State.MemOk (State.setVersion x0 x1) := by
  unfold State.setVersion
  extract_lets +onlyGivenNames y1
  refine memOk_have (p := State.MemOk y1) ?_ (fun h2 => ?_)
  · unfold y1
    (refine ⟨?_⟩; dsimp only; refine State.MemOk.wf ?_)
    exact h0
  clear_value y1
  split
  rename_i z3 z4 z5 z6
  refine memOk_have (p := State.MemOk z5) (pairOk_eq z6 ?_) (fun h7 => ?_)
  · apply State.nextPseq_memOk
    exact h2
  extract_lets +onlyGivenNames y8
  refine memOk_have (p := State.MemOk y8) ?_ (fun h9 => ?_)
  · unfold y8
    apply State.sendPacket_memOk
    exact h7
  clear_value y8
  extract_lets +onlyGivenNames y10
  refine memOk_have (p := State.MemOk y10) ?_ (fun h11 => ?_)
  · unfold y10
    apply State.each_memOk
    · exact h9
    · intro s12 a13 h14
      refine memOk_ite ?_ ?_
      · apply State.tryHandshake_memOk
        apply State.sendHandshake_memOk
        apply State.setPort_memOk
        exact h14
      · apply State.loopLight_memOk
        exact h14
  clear_value y10
  apply State.each_memOk
  · exact h11
  · intro s15 a16 h17
    apply State.after_memOk
    apply State.setCircuit_memOk
    exact h17

theorem execCver_memOk (x0) (x1) (x2 : State) (h2 : x2.MemOk) : Outcome.MemOk (execCver x0 x1 x2) := by
  unfold execCver
  apply asGaffer_memOk
  · exact h2
  · intro a1 a2
    extract_lets +onlyGivenNames y3
    clear_value y3
    extract_lets +onlyGivenNames y4
    refine memOk_have (p := State.MemOk y4) ?_ (fun h5 => ?_)
    · unfold y4
      refine memOk_ite ?_ ?_
      · apply State.setVersion_memOk
        exact h2
      · exact h2
    clear_value y4
    refine outOk_next ?_
    apply State.gDone_memOk
    exact h5

theorem execCrtt_memOk (x0) (x1) (x2 : State) (h2 : x2.MemOk) : Outcome.MemOk (execCrtt x0 x1 x2) := by
  unfold execCrtt
  apply gafferResult_memOk
  exact h2

theorem execCnote_memOk (x0) (x1) (x2) (x3 : State) (h3 : x3.MemOk) : Outcome.MemOk (execCnote x0 x1 x2 x3) := by
  unfold execCnote
  apply asGaffer_memOk
  · exact h3
  · intro a1 a2
    extract_lets +onlyGivenNames y3
    clear_value y3
    refine outOk_ite ?_ ?_
    · refine outOk_next ?_
      apply State.gFault_memOk
      exact h3
    · split
      · rename_i z4 z5
        refine outOk_next ?_
        apply State.gFault_memOk
        exact h3
      · rename_i z6 z7 z8
        split
        · rename_i z9 z10 z11 z12
          refine memOk_have (p := State.MemOk z11) (pairOk_eq z12 ?_) (fun h13 => ?_)
          · apply State.devUpdate_memOk
            exact h3
          refine outOk_next ?_
          apply State.gDone_memOk
          exact h13
        · rename_i z14 z15 z16 z17 z18
          refine memOk_have (p := State.MemOk z17) (pairOk_eq z18 ?_) (fun h19 => ?_)
          · apply State.devUpdate_memOk
            exact h3
          refine outOk_next ?_
          apply State.gMemFault_memOk
          exact h19

theorem execCwait_memOk (x0) (x1) (x2 : State) (h2 : x2.MemOk) : Outcome.MemOk (execCwait x0 x1 x2) := by
  unfold execCwait
  apply asGaffer_memOk
  · exact h2
  · intro a1 a2
    extract_lets +onlyGivenNames y3
    clear_value y3
    split
    · rename_i z4 z5 z6
      refine memOk_have (p := State.MemOk z5) (optOk_eq z6 ?_) (fun h7 => ?_)
      · apply State.gTake_memOk
        exact h2
      refine outOk_next ?_
      exact h7
    · rename_i z8 z9
      refine outOk_ite ?_ ?_
      · refine outOk_next ?_
        apply State.gDone_memOk
        exact h2
      · refine outOk_next ?_
        apply State.gWaits_memOk
        exact h2

theorem execElsRemove_memOk (x0) (x1 : State) (h1 : x1.MemOk) : Outcome.MemOk (execElsRemove x0 x1) := by
  unfold execElsRemove
  extract_lets +onlyGivenNames y1
  clear_value y1
  extract_lets +onlyGivenNames y2
  clear_value y2
  extract_lets +onlyGivenNames y3
  refine memOk_have (p := State.MemOk y3) ?_ (fun h4 => ?_)
  · unfold y3
    (refine ⟨?_⟩; dsimp only; refine State.MemOk.wf ?_)
    exact h1
  clear_value y3
  refine outOk_next ?_
  apply State.each_memOk
  · exact h4
  · intro s5 a6 h7
    apply State.loseLight_memOk
    exact h7

theorem execElsInsert_memOk (x0) (x1) (x2 : State) (h2 : x2.MemOk) : Outcome.MemOk (execElsInsert x0 x1 x2) := by
  unfold execElsInsert
  extract_lets +onlyGivenNames y1
  clear_value y1
  refine outOk_next ?_
  (refine ⟨?_⟩; dsimp only; refine State.MemOk.wf ?_)
  exact h2

theorem execOpctlTargetWrite_memOk (x0) (x1) (x2 : State) (h2 : x2.MemOk) : Outcome.MemOk (execOpctlTargetWrite x0 x1 x2) := by
  unfold execOpctlTargetWrite
  refine outOk_next ?_
  apply State.writeTarget_memOk
  exact h2

theorem execOpctlGrpmaskWrite_memOk (x0) (x1) (x2 : State) (h2 : x2.MemOk) : Outcome.MemOk (execOpctlGrpmaskWrite x0 x1 x2) := by
  unfold execOpctlGrpmaskWrite
  refine outOk_next ?_
  apply State.writeGrp_memOk
  exact h2

theorem execCalreq_memOk (x0) (x1 : State) (h1 : x1.MemOk) : Outcome.MemOk (execCalreq x0 x1) := by
  unfold execCalreq
  refine outOk_next ?_
  apply State.writeCal_memOk
  exact h1

theorem execClrcnt_memOk (x0) (x1 : State) (h1 : x1.MemOk) : Outcome.MemOk (execClrcnt x0 x1) := by
  unfold execClrcnt
  refine outOk_next ?_
  apply State.clearCounts_memOk
  exact h1

theorem execLockAchieved_memOk (x0) (x1) (x2 : State) (h2 : x2.MemOk) : Outcome.MemOk (execLockAchieved x0 x1 x2) := by
  unfold execLockAchieved
  extract_lets +onlyGivenNames y1
  clear_value y1
  extract_lets +onlyGivenNames y2
  clear_value y2
  refine outOk_ite ?_ ?_
  · extract_lets +onlyGivenNames y3
    clear_value y3
    extract_lets +onlyGivenNames y4
    clear_value y4
    extract_lets +onlyGivenNames y5
    refine memOk_have (p := State.MemOk y5) ?_ (fun h6 => ?_)
    · unfold y5
      apply State.setPort_memOk
      exact h2
    clear_value y5
    extract_lets +onlyGivenNames y7
    refine memOk_have (p := State.MemOk y7) ?_ (fun h8 => ?_)
    · unfold y7
      refine memOk_ite ?_ ?_
      · apply State.portEvent_memOk
        exact h6
      · exact h6
    clear_value y7
    extract_lets +onlyGivenNames y9
    refine memOk_have (p := State.MemOk y9) ?_ (fun h10 => ?_)
    · unfold y9
      refine memOk_ite ?_ ?_
      · apply State.loseFlits_memOk
        exact h8
      · exact h8
    clear_value y9
    extract_lets +onlyGivenNames y11
    refine memOk_have (p := State.MemOk y11) ?_ (fun h12 => ?_)
    · unfold y11
      apply State.armAck_memOk
      apply State.portMove_memOk
      apply State.sendHandshake_memOk
      exact h10
    clear_value y11
    refine outOk_next ?_
    apply State.armVermis_memOk
    exact h12
  · refine outOk_next ?_
    exact h2

theorem execLossOfLock_memOk (x0) (x1 : State) (h1 : x1.MemOk) : Outcome.MemOk (execLossOfLock x0 x1) := by
  unfold execLossOfLock
  extract_lets +onlyGivenNames y1
  clear_value y1
  extract_lets +onlyGivenNames y2
  clear_value y2
  refine outOk_ite ?_ ?_
  · extract_lets +onlyGivenNames y3
    refine memOk_have (p := State.MemOk y3) ?_ (fun h4 => ?_)
    · unfold y3
      apply State.setPort_memOk
      exact h1
    clear_value y3
    extract_lets +onlyGivenNames y5
    refine memOk_have (p := State.MemOk y5) ?_ (fun h6 => ?_)
    · unfold y5
      split
      · rename_i z7 z8 z9
        apply State.drainOver_memOk
        exact h4
      · rename_i z10 z11
        apply State.releasedTears_memOk
        exact h4
    clear_value y5
    refine outOk_next ?_
    apply State.loopLight_memOk
    apply State.portMove_memOk
    apply State.after_memOk
    apply State.portEvent_memOk
    exact h6
  · refine outOk_next ?_
    exact h1

theorem execLaserLightLoss_memOk (x0) (x1 : State) (h1 : x1.MemOk) : Outcome.MemOk (execLaserLightLoss x0 x1) := by
  unfold execLaserLightLoss
  refine outOk_next ?_
  apply State.loseLight_memOk
  exact h1

theorem execBerhigh_memOk (x0) (x1) (x2 : State) (h2 : x2.MemOk) : Outcome.MemOk (execBerhigh x0 x1 x2) := by
  unfold execBerhigh
  extract_lets +onlyGivenNames y1
  clear_value y1
  extract_lets +onlyGivenNames y2
  clear_value y2
  refine outOk_ite ?_ ?_
  · refine outOk_next ?_
    apply State.portEvent_memOk
    apply State.setPort_memOk
    exact h2
  · refine outOk_next ?_
    exact h2

theorem execPacketForward_memOk (x0) (x1) (x2 : State) (h2 : x2.MemOk) : Outcome.MemOk (execPacketForward x0 x1 x2) := by
  unfold execPacketForward
  extract_lets +onlyGivenNames y1
  clear_value y1
  extract_lets +onlyGivenNames y2
  clear_value y2
  extract_lets +onlyGivenNames y3
  clear_value y3
  refine outOk_ite ?_ ?_
  · refine outOk_next ?_
    exact h2
  · refine outOk_ite ?_ ?_
    · refine outOk_next ?_
      apply State.linkRefuse_memOk
      exact h2
    · extract_lets +onlyGivenNames y4
      refine memOk_have (p := State.MemOk y4) ?_ (fun h5 => ?_)
      · unfold y4
        apply State.took_memOk
        exact h2
      clear_value y4
      refine outOk_ite ?_ ?_
      · refine outOk_next ?_
        apply State.freed_memOk
        exact h5
      · refine outOk_ite ?_ ?_
        · refine outOk_next ?_
          apply State.epDrop_memOk
          apply State.freed_memOk
          exact h5
        · split
          · rename_i z6 z7 z8
            refine outOk_next ?_
            apply State.toLink_memOk
            exact h5
          · rename_i z9 z10
            refine outOk_next ?_
            apply State.epDrop_memOk
            apply State.freed_memOk
            exact h5

theorem execCreditReturn_memOk (x0) (x1) (x2) (x3 : State) (h3 : x3.MemOk) : Outcome.MemOk (execCreditReturn x0 x1 x2 x3) := by
  unfold execCreditReturn
  extract_lets +onlyGivenNames y1
  clear_value y1
  extract_lets +onlyGivenNames y2
  clear_value y2
  extract_lets +onlyGivenNames y3
  clear_value y3
  extract_lets +onlyGivenNames y4
  clear_value y4
  extract_lets +onlyGivenNames y5
  clear_value y5
  extract_lets +onlyGivenNames y6
  refine memOk_have (p := State.MemOk y6) ?_ (fun h7 => ?_)
  · unfold y6
    apply State.setLink_memOk
    exact h3
  clear_value y6
  refine outOk_next ?_
  apply State.pump_memOk
  (refine ⟨?_⟩; dsimp only; refine State.MemOk.wf ?_)
  exact h7

theorem execBeacon_memOk (x0) (x1) (x2 : State) (h2 : x2.MemOk) : Outcome.MemOk (execBeacon x0 x1 x2) := by
  unfold execBeacon
  split
  · rename_i z1 z2 z3
    refine memOk_have (p := State.MemOk z2) (pairOk_eq z3 ?_) (fun h4 => ?_)
    · apply State.receive_memOk
      exact h2
    refine outOk_next ?_
    exact h4
  · rename_i z5 z6 z7
    refine memOk_have (p := State.MemOk z6) (pairOk_eq z7 ?_) (fun h8 => ?_)
    · apply State.receive_memOk
      exact h2
    extract_lets +onlyGivenNames y9
    clear_value y9
    extract_lets +onlyGivenNames y10
    refine memOk_have (p := State.MemOk y10) ?_ (fun h11 => ?_)
    · unfold y10
      (refine ⟨?_⟩; dsimp only; refine State.MemOk.wf ?_)
      exact h8
    clear_value y10
    extract_lets +onlyGivenNames y12
    refine memOk_have (p := State.MemOk y12) ?_ (fun h13 => ?_)
    · unfold y12
      apply State.after_memOk
      (refine ⟨?_⟩; dsimp only; refine State.MemOk.wf ?_)
      exact h11
    clear_value y12
    refine outOk_next ?_
    apply State.each_memOk
    · exact h13
    · intro s14 a15 h16
      apply State.enterSlot_memOk
      exact h16

theorem State.receiveEcho_memOk (x0 : State) (x1) (x2) (x3) (h0 : x0.MemOk) : PairOk (State.receiveEcho x0 x1 x2 x3) := by
  unfold State.receiveEcho
  refine pairOk_ite ?_ ?_
  · refine pairOk_mk ?_
    exact h0
  · refine pairOk_ite ?_ ?_
    · refine pairOk_mk ?_
      apply State.linkRefuse_memOk
      exact h0
    · extract_lets +onlyGivenNames y1
      refine memOk_have (p := State.MemOk y1) ?_ (fun h2 => ?_)
      · unfold y1
        apply State.freed_memOk
        apply State.took_memOk
        exact h0
      clear_value y1
      refine pairOk_ite ?_ ?_
      · refine pairOk_mk ?_
        exact h2
      · refine pairOk_mk ?_
        apply State.epDrop_memOk
        exact h2

theorem execEchoRequest_memOk (x0) (x1) (x2 : State) (h2 : x2.MemOk) : Outcome.MemOk (execEchoRequest x0 x1 x2) := by
  unfold execEchoRequest
  split
  · rename_i z1 z2 z3
    refine memOk_have (p := State.MemOk z2) (pairOk_eq z3 ?_) (fun h4 => ?_)
    · apply State.receiveEcho_memOk
      exact h2
    refine outOk_next ?_
    exact h4
  · rename_i z5 z6 z7
    refine memOk_have (p := State.MemOk z6) (pairOk_eq z7 ?_) (fun h8 => ?_)
    · apply State.receiveEcho_memOk
      exact h2
    extract_lets +onlyGivenNames y9
    clear_value y9
    refine outOk_next ?_
    apply State.toLink_memOk
    exact h8

theorem execEchoReply_memOk (x0) (x1) (x2 : State) (h2 : x2.MemOk) : Outcome.MemOk (execEchoReply x0 x1 x2) := by
  unfold execEchoReply
  split
  · rename_i z1 z2 z3
    refine memOk_have (p := State.MemOk z2) (pairOk_eq z3 ?_) (fun h4 => ?_)
    · apply State.receiveEcho_memOk
      exact h2
    refine outOk_next ?_
    exact h4
  · rename_i z5 z6 z7
    refine memOk_have (p := State.MemOk z6) (pairOk_eq z7 ?_) (fun h8 => ?_)
    · apply State.receiveEcho_memOk
      exact h2
    extract_lets +onlyGivenNames y9
    clear_value y9
    extract_lets +onlyGivenNames y10
    clear_value y10
    extract_lets +onlyGivenNames y11
    clear_value y11
    extract_lets +onlyGivenNames y12
    clear_value y12
    extract_lets +onlyGivenNames y13
    clear_value y13
    refine outOk_next ?_
    apply State.setLink_memOk
    exact h8

theorem execVersionNotice_memOk (x0) (x1) (x2 : State) (h2 : x2.MemOk) : Outcome.MemOk (execVersionNotice x0 x1 x2) := by
  unfold execVersionNotice
  split
  · rename_i z1 z2 z3
    refine memOk_have (p := State.MemOk z2) (pairOk_eq z3 ?_) (fun h4 => ?_)
    · apply State.receive_memOk
      exact h2
    refine outOk_next ?_
    exact h4
  · rename_i z5 z6 z7
    refine memOk_have (p := State.MemOk z6) (pairOk_eq z7 ?_) (fun h8 => ?_)
    · apply State.receive_memOk
      exact h2
    extract_lets +onlyGivenNames y9
    clear_value y9
    refine outOk_ite ?_ ?_
    · refine outOk_next ?_
      apply State.gEventAll_memOk
      (refine ⟨?_⟩; dsimp only; refine State.MemOk.wf ?_)
      exact h8
    · refine outOk_next ?_
      exact h8

theorem execFdidcfgWrite_memOk (x0) (x1 : State) (h1 : x1.MemOk) : Outcome.MemOk (execFdidcfgWrite x0 x1) := by
  unfold execFdidcfgWrite
  refine outOk_next ?_
  apply State.writeFdid_memOk
  exact h1

theorem execCrctlPause_memOk (x0) (x1 : State) (h1 : x1.MemOk) : Outcome.MemOk (execCrctlPause x0 x1) := by
  unfold execCrctlPause
  refine outOk_next ?_
  apply State.cruPause_memOk
  exact h1

theorem execCrctlResume_memOk (x0) (x1 : State) (h1 : x1.MemOk) : Outcome.MemOk (execCrctlResume x0 x1) := by
  unfold execCrctlResume
  refine outOk_next ?_
  apply State.cruResume_memOk
  exact h1

theorem execCrctlAbort_memOk (x0) (x1 : State) (h1 : x1.MemOk) : Outcome.MemOk (execCrctlAbort x0 x1) := by
  unfold execCrctlAbort
  refine outOk_next ?_
  apply State.cruAbort_memOk
  exact h1

theorem execRegisterWrite_memOk (x0) (x1) (x2 : State) (h2 : x2.MemOk) : Outcome.MemOk (execRegisterWrite x0 x1 x2) := by
  unfold execRegisterWrite
  refine outOk_next ?_
  refine memOk_ite ?_ ?_
  · apply State.fabWrite_memOk
    exact h2
  · exact h2

theorem execFarEndLightArrival_memOk (x0) (x1) (x2 : State) (h2 : x2.MemOk) : Outcome.MemOk (execFarEndLightArrival x0 x1 x2) := by
  unfold execFarEndLightArrival
  extract_lets +onlyGivenNames y1
  clear_value y1
  extract_lets +onlyGivenNames y2
  clear_value y2
  refine outOk_ite ?_ ?_
  · refine outOk_next ?_
    exact h2
  · extract_lets +onlyGivenNames y3
    clear_value y3
    extract_lets +onlyGivenNames y4
    clear_value y4
    extract_lets +onlyGivenNames y5
    clear_value y5
    refine outOk_ite ?_ ?_
    · refine outOk_ite ?_ ?_
      · refine outOk_next ?_
        apply State.setPort_memOk
        exact h2
      · refine outOk_next ?_
        apply State.setPort_memOk
        exact h2
    · extract_lets +onlyGivenNames y6
      refine memOk_have (p := State.MemOk y6) ?_ (fun h7 => ?_)
      · unfold y6
        apply State.setPort_memOk
        exact h2
      clear_value y6
      refine outOk_next ?_
      refine memOk_ite ?_ ?_
      · apply State.after_memOk
        exact h7
      · exact h7

theorem execLinkEntersService_memOk (x0) (x1 : State) (h1 : x1.MemOk) : Outcome.MemOk (execLinkEntersService x0 x1) := by
  unfold execLinkEntersService
  refine outOk_next ?_
  apply State.pump_memOk
  apply State.setLink_memOk
  exact h1

theorem State.recvRegion_memOk (x0 : State) (x1) (x2) (x3) (x4) (x5) (x6) (h0 : x0.MemOk) : State.MemOk (State.recvRegion x0 x1 x2 x3 x4 x5 x6) := by
  unfold State.recvRegion
  extract_lets +onlyGivenNames y1
  clear_value y1
  extract_lets +onlyGivenNames y2
  clear_value y2
  extract_lets +onlyGivenNames y3
  clear_value y3
  refine memOk_ite ?_ ?_
  · exact h0
  · split
    · rename_i z4 z5 z6 z7 z8
      refine memOk_have (p := State.MemOk z7) (pairOk_eq z8 ?_) (fun h9 => ?_)
      · apply State.bufTarget_memOk
        exact h0
      apply State.stepFault_memOk
      exact h9
    · rename_i z10 z11 z12 z13
      refine memOk_have (p := State.MemOk z12) (pairOk_eq z13 ?_) (fun h14 => ?_)
      · apply State.bufTarget_memOk
        exact h0
      extract_lets +onlyGivenNames y15
      clear_value y15
      split
      rename_i z16 z17 z18 z19 z20
      extract_lets +onlyGivenNames y21
      refine memOk_have (p := State.MemOk y21) ?_ (fun h22 => ?_)
      · unfold y21
        apply State.twrite_memOk
        exact h14
      clear_value y21
      extract_lets +onlyGivenNames y23
      clear_value y23
      extract_lets +onlyGivenNames y24
      clear_value y24
      extract_lets +onlyGivenNames y25
      clear_value y25
      extract_lets +onlyGivenNames y26
      clear_value y26
      apply State.updStep_memOk
      apply State.setCx_memOk
      exact h22

theorem State.sendRegion_memOk (x0 : State) (x1) (x2) (x3) (x4) (x5) (h0 : x0.MemOk) : State.MemOk (State.sendRegion x0 x1 x2 x3 x4 x5) := by
  unfold State.sendRegion
  refine memOk_ite ?_ ?_
  · exact h0
  · split
    · rename_i z1 z2 z3 z4 z5
      refine memOk_have (p := State.MemOk z4) (pairOk_eq z5 ?_) (fun h6 => ?_)
      · apply State.bufTarget_memOk
        exact h0
      apply State.stepFault_memOk
      exact h6
    · rename_i z7 z8 z9 z10
      refine memOk_have (p := State.MemOk z9) (pairOk_eq z10 ?_) (fun h11 => ?_)
      · apply State.bufTarget_memOk
        exact h0
      extract_lets +onlyGivenNames y12
      clear_value y12
      split
      · rename_i z13 z14 z15
        extract_lets +onlyGivenNames y16
        clear_value y16
        split
        · rename_i z17 z18 z19 z20 z21
          refine memOk_have (p := State.MemOk z20) (pairOk_eq z21 ?_) (fun h22 => ?_)
          · apply State.bufTarget_memOk
            exact h11
          apply State.stepFault_memOk
          exact h22
        · rename_i z23 z24 z25 z26
          refine memOk_have (p := State.MemOk z25) (pairOk_eq z26 ?_) (fun h27 => ?_)
          · apply State.bufTarget_memOk
            exact h11
          apply State.updStep_memOk
          apply State.twrite_memOk
          exact h27
      · rename_i z28 z29
        extract_lets +onlyGivenNames y30
        clear_value y30
        apply State.updStep_memOk
        apply State.setCx_memOk
        exact h11

theorem State.runStep_memOk (x0 : State) (x1) (x2) (h0 : x0.MemOk) : State.MemOk (State.runStep x0 x1 x2) := by
  unfold State.runStep
  extract_lets +onlyGivenNames y1
  clear_value y1
  split
  · rename_i z2 z3 z4 z5 z6 z7
    refine memOk_ite ?_ ?_
    · exact h0
    · split
      · rename_i z8 z9 z10 z11 z12 z13
        apply State.recvRegion_memOk
        exact h0
      · rename_i z14 z15 z16 z17 z18
        apply State.sendRegion_memOk
        exact h0
      · rename_i z19 z20 z21
        exact h0
  · rename_i z22 z23 z24
    exact h0

theorem State.pumpOne_memOk (x0 : State) (x1) (x2) (h0 : x0.MemOk) : OptOk (State.pumpOne x0 x1 x2) := by
  unfold State.pumpOne
  extract_lets +onlyGivenNames y1
  clear_value y1
  extract_lets +onlyGivenNames y2
  clear_value y2
  extract_lets +onlyGivenNames y3
  clear_value y3
  extract_lets +onlyGivenNames y4
  clear_value y4
  refine optOk_ite ?_ ?_
  · exact optOk_none
  · split
    · rename_i z5 z6 z7 z8 z9
      extract_lets +onlyGivenNames y10
      clear_value y10
      extract_lets +onlyGivenNames y11
      refine memOk_have (p := State.MemOk y11) ?_ (fun h12 => ?_)
      · unfold y11
        apply State.setCx_memOk
        exact h0
      clear_value y11
      refine optOk_some ?_
      apply State.sendFlit_memOk
      exact h12
    · rename_i z13 z14
      extract_lets +onlyGivenNames y15
      clear_value y15
      extract_lets +onlyGivenNames y16
      clear_value y16
      refine optOk_ite ?_ ?_
      · exact optOk_none
      · extract_lets +onlyGivenNames y17
        clear_value y17
        extract_lets +onlyGivenNames y18
        clear_value y18
        extract_lets +onlyGivenNames y19
        clear_value y19
        extract_lets +onlyGivenNames y20
        refine memOk_have (p := State.MemOk y20) ?_ (fun h21 => ?_)
        · unfold y20
          apply State.setCx_memOk
          exact h0
        clear_value y20
        refine optOk_some ?_
        apply State.sendFlit_memOk
        exact h21

theorem State.pumpStream_memOk (x0 : State) (x1) (x2) (x3) (h0 : x0.MemOk) : State.MemOk (State.pumpStream x0 x1 x2 x3) := by
  induction x3 generalizing x0 x1 x2 h0
  · unfold State.pumpStream
    exact h0
  · rename_i r0 ih
    unfold State.pumpStream
    split
    · rename_i z1 z2 z3
      refine memOk_have (p := State.MemOk z2) (optOk_eq z3 ?_) (fun h4 => ?_)
      · apply State.pumpOne_memOk
        exact h0
      apply ih
      exact h4
    · rename_i z5 z6
      exact h0

theorem State.pumpCredit_memOk (x0 : State) (x1) (x2) (h0 : x0.MemOk) : State.MemOk (State.pumpCredit x0 x1 x2) := by
  unfold State.pumpCredit
  extract_lets +onlyGivenNames y1
  clear_value y1
  extract_lets +onlyGivenNames y2
  clear_value y2
  extract_lets +onlyGivenNames y3
  clear_value y3
  split
  · rename_i z4 z5
    exact h0
  · rename_i z6 z7 z8 z9
    refine memOk_ite ?_ ?_
    · exact h0
    · extract_lets +onlyGivenNames y10
      refine memOk_have (p := State.MemOk y10) ?_ (fun h11 => ?_)
      · unfold y10
        apply State.setCx_memOk
        exact h0
      clear_value y10
      apply State.sendFlit_memOk
      exact h11

theorem State.cruxRun_memOk (x0 : State) (x1) (h0 : x0.MemOk) : State.MemOk (State.cruxRun x0 x1) := by
  unfold State.cruxRun
  extract_lets +onlyGivenNames y1
  clear_value y1
  refine memOk_ite ?_ ?_
  · exact h0
  · extract_lets +onlyGivenNames y2
    refine memOk_have (p := State.MemOk y2) ?_ (fun h3 => ?_)
    · unfold y2
      apply State.each_memOk
      · exact h0
      · intro s4 a5 h6
        apply State.runStep_memOk
        exact h6
    clear_value y2
    extract_lets +onlyGivenNames y7
    refine memOk_have (p := State.MemOk y7) ?_ (fun h8 => ?_)
    · unfold y7
      apply State.each_memOk
      · exact h3
      · intro s9 a10 h11
        apply State.pumpStream_memOk
        exact h11
    clear_value y7
    extract_lets +onlyGivenNames y12
    refine memOk_have (p := State.MemOk y12) ?_ (fun h13 => ?_)
    · unfold y12
      apply State.each_memOk
      · exact h8
      · intro s14 a15 h16
        apply State.each_memOk
        · exact h16
        · intro s17 a18 h19
          apply State.pumpCredit_memOk
          exact h19
    clear_value y12
    apply State.checkSteps_memOk
    exact h13

end Sys2Proof.Machine
end

