-- ==== Sys2Proof/Laws/KeepLane.lean ====
section
/-! SUPPORT. What keeps the canonical form of memory: the lane instructions, the matrix engine, the sweeps and RESOLVE. One lemma per definition that answers a state. -/

namespace Sys2Proof.Machine

theorem State.view_memOk (x0 : State) (x1) (x2) (h0 : x0.MemOk) : PairOk (State.view x0 x1 x2) := by
  unfold State.view
  refine pairOk_mk ?_
  (refine ⟨?_⟩; dsimp only; refine State.MemOk.wf ?_)
  exact h0

theorem laneOp_memOk (x0 : State) (x1) (x2) (x3) (x4) (x5) (h0 : x0.MemOk) : Outcome.MemOk (laneOp x0 x1 x2 x3 x4 x5) := by
  unfold laneOp
  apply asLane_memOk
  · exact h0
  · intro a1 a2 a3 a4
    extract_lets +onlyGivenNames y5
    clear_value y5
    split
    rename_i z6 z7 z8 z9
    refine memOk_have (p := State.MemOk z8) (pairOk_eq z9 ?_) (fun h10 => ?_)
    · apply State.view_memOk
      exact h0
    extract_lets +onlyGivenNames y11
    clear_value y11
    extract_lets +onlyGivenNames y12
    clear_value y12
    extract_lets +onlyGivenNames y13
    clear_value y13
    refine outOk_next ?_
    apply State.laneNext_memOk
    apply State.setWave_memOk
    exact h10

theorem execVminI_memOk (x0) (x1) (x2 : State) (h2 : x2.MemOk) : Outcome.MemOk (execVminI x0 x1 x2) := by
  unfold execVminI
  apply laneOp_memOk
  exact h2

theorem State.mxFetch_memOk (x0 : State) (x1) (x2) (x3) (x4) (x5) (h0 : x0.MemOk) : PairOk (State.mxFetch x0 x1 x2 x3 x4 x5) := by
  unfold State.mxFetch
  dsimp only
  refine pairOk_ite ?_ ?_
  · refine pairOk_mk ?_
    exact h0
  · split
    · rename_i z1 z2 z3
      refine pairOk_mk ?_
      apply State.l1Hint_memOk
      exact h0
    · rename_i z4 z5
      split
      · rename_i z6 z7 z8 z9
        refine memOk_have (p := State.MemOk z8) (pairOk_eq z9 ?_) (fun h10 => ?_)
        · apply State.resolve_memOk
          exact h0
        refine pairOk_mk ?_
        apply State.l1Hint_memOk
        exact h10
      · rename_i z11 z12 z13 z14
        refine memOk_have (p := State.MemOk z13) (pairOk_eq z14 ?_) (fun h15 => ?_)
        · apply State.resolve_memOk
          exact h0
        refine pairOk_mk ?_
        exact h15

theorem State.swFetch_memOk (x0 : State) (x1) (x2) (x3) (x4) (x5) (h0 : x0.MemOk) : PairOk (State.swFetch x0 x1 x2 x3 x4 x5) := by
  unfold State.swFetch
  apply State.mxFetch_memOk
  exact h0

theorem State.failStart_memOk (x0 : State) (x1) (x2) (x3) (x4) (x5) (x6) (x7) (h0 : x0.MemOk) : State.MemOk (State.failStart x0 x1 x2 x3 x4 x5 x6 x7) := by
  unfold State.failStart
  refine memOk_ite ?_ ?_
  · apply State.refuseEnd_memOk
    apply State.fabricErr_memOk
    exact h0
  · refine memOk_ite ?_ ?_
    · split
      · rename_i z1 z2 z3 z4
        refine memOk_have (p := State.MemOk z3) (pairOk_eq z4 ?_) (fun h5 => ?_)
        · apply State.devRead_memOk
          exact h0
        apply State.refuseStart_memOk
        exact h5
      · rename_i z6 z7 z8 z9
        refine memOk_have (p := State.MemOk z8) (pairOk_eq z9 ?_) (fun h10 => ?_)
        · apply State.devRead_memOk
          exact h0
        apply State.startUnusable_memOk
        exact h10
    · apply State.startUnusable_memOk
      exact h0

theorem heavyIssue_memOk (x0 : State) (x1) (x2) (x3) (x4) (h0 : x0.MemOk) (hk : ∀ r w f v m n s, s.MemOk → State.MemOk (x4 r w f v m n s)) : Outcome.MemOk (heavyIssue x0 x1 x2 x3 x4) := by
  unfold heavyIssue
  apply asLane_memOk
  · exact h0
  · intro a1 a2 a3 a4
    refine outOk_ite ?_ ?_
    · refine outOk_next ?_
      apply State.setWave_memOk
      exact h0
    · refine outOk_ite ?_ ?_
      · refine outOk_next ?_
        apply State.wait_memOk
        exact h0
      · extract_lets +onlyGivenNames y5
        clear_value y5
        split
        rename_i z6 z7 z8 z9
        refine memOk_have (p := State.MemOk z8) (pairOk_eq z9 ?_) (fun h10 => ?_)
        · apply State.view_memOk
          exact h0
        split
        rename_i z11 z12 z13 z14
        refine memOk_have (p := State.MemOk z13) (pairOk_eq z14 ?_) (fun h15 => ?_)
        · apply State.fresh_memOk
          exact h10
        refine outOk_ite ?_ ?_
        · extract_lets +onlyGivenNames y16
          clear_value y16
          extract_lets +onlyGivenNames y17
          refine memOk_have (p := State.MemOk y17) ?_ (fun h18 => ?_)
          · unfold y17
            apply State.setWave_memOk
            exact h15
          clear_value y17
          refine outOk_next ?_
          apply State.laneNext_memOk
          apply State.post_memOk
          exact h18
        · extract_lets +onlyGivenNames y19
          clear_value y19
          extract_lets +onlyGivenNames y20
          clear_value y20
          extract_lets +onlyGivenNames y21
          clear_value y21
          refine outOk_next ?_
          apply State.laneNext_memOk
          apply hk
          apply State.setWave_memOk
          exact h15

theorem matrixIssue_memOk (x0 : State) (x1) (x2) (x3) (h0 : x0.MemOk) : Outcome.MemOk (matrixIssue x0 x1 x2 x3) := by
  unfold matrixIssue
  apply heavyIssue_memOk
  · exact h0
  · intro a1 a2 a3 a4 a5 a6 s7 h8
    extract_lets +onlyGivenNames y9
    clear_value y9
    extract_lets +onlyGivenNames y10
    clear_value y10
    apply State.updCore_memOk
    exact h8

theorem execMmasp_memOk (x0) (x1) (x2 : State) (h2 : x2.MemOk) : Outcome.MemOk (execMmasp x0 x1 x2) := by
  unfold execMmasp
  apply matrixIssue_memOk
  exact h2

theorem laneAccess_memOk (x0 : State) (x1) (x2) (x3) (x4) (x5) (x6) (h0 : x0.MemOk) : Outcome.MemOk (laneAccess x0 x1 x2 x3 x4 x5 x6) := by
  unfold laneAccess
  apply asLane_memOk
  · exact h0
  · intro a1 a2 a3 a4
    extract_lets +onlyGivenNames y5
    clear_value y5
    refine outOk_ite ?_ ?_
    · refine outOk_next ?_
      apply State.laneNext_memOk
      exact h0
    · refine outOk_ite ?_ ?_
      · refine outOk_next ?_
        apply State.wait_memOk
        exact h0
      · split
        rename_i z6 z7 z8 z9
        refine memOk_have (p := State.MemOk z8) (pairOk_eq z9 ?_) (fun h10 => ?_)
        · apply State.view_memOk
          exact h0
        extract_lets +onlyGivenNames y11
        clear_value y11
        extract_lets +onlyGivenNames y12
        clear_value y12
        extract_lets +onlyGivenNames y13
        clear_value y13
        refine outOk_next ?_
        apply State.laneNext_memOk
        apply State.issueOp_memOk
        exact h10

theorem execVredm_memOk (x0) (x1) (x2 : State) (h2 : x2.MemOk) : Outcome.MemOk (execVredm x0 x1 x2) := by
  unfold execVredm
  extract_lets +onlyGivenNames y1
  clear_value y1
  apply laneAccess_memOk
  exact h2

theorem execMma_memOk (x0) (x1) (x2 : State) (h2 : x2.MemOk) : Outcome.MemOk (execMma x0 x1 x2) := by
  unfold execMma
  apply matrixIssue_memOk
  exact h2

theorem execVshf_memOk (x0) (x1) (x2 : State) (h2 : x2.MemOk) : Outcome.MemOk (execVshf x0 x1 x2) := by
  unfold execVshf
  apply laneOp_memOk
  exact h2

theorem State.elemCells_memOk (x0 : State) (x1) (x2) (x3) (x4) (x5) (x6) (x7) (h0 : x0.MemOk) : PairOk (State.elemCells x0 x1 x2 x3 x4 x5 x6 x7) := by
  induction x4 generalizing x0 x1 x2 x3 x5 x6 x7 h0
  · unfold State.elemCells
    refine pairOk_mk ?_
    exact h0
  · rename_i r0 r1 ih
    unfold State.elemCells
    extract_lets +onlyGivenNames y1
    clear_value y1
    split
    · rename_i z2 z3 z4 z5
      refine memOk_have (p := State.MemOk z4) (pairOk_eq z5 ?_) (fun h6 => ?_)
      · apply State.resolve_memOk
        exact h0
      refine pairOk_mk ?_
      exact h6
    · rename_i z7 z8 z9 z10
      refine memOk_have (p := State.MemOk z9) (pairOk_eq z10 ?_) (fun h11 => ?_)
      · apply State.resolve_memOk
        exact h0
      extract_lets +onlyGivenNames y12
      clear_value y12
      extract_lets +onlyGivenNames y13
      clear_value y13
      apply ih
      exact h11

theorem State.segmentCells_memOk (x0 : State) (x1) (x2) (x3) (x4) (x5) (x6) (h0 : x0.MemOk) : PairOk (State.segmentCells x0 x1 x2 x3 x4 x5 x6) := by
  induction x5 generalizing x0 x1 x2 x3 x4 x6 h0
  · unfold State.segmentCells
    refine pairOk_mk ?_
    exact h0
  · rename_i r0 r1 ih
    unfold State.segmentCells
    split
    rename_i z1 z2 z3 z4 z5
    split
    · rename_i z6 z7 z8 z9
      refine memOk_have (p := State.MemOk z8) (pairOk_eq z9 ?_) (fun h10 => ?_)
      · refine pairOk_ite ?_ ?_
        · apply State.elemCells_memOk
          exact h0
        · refine pairOk_mk ?_
          exact h0
      refine pairOk_mk ?_
      exact h10
    · rename_i z11 z12 z13 z14
      refine memOk_have (p := State.MemOk z13) (pairOk_eq z14 ?_) (fun h15 => ?_)
      · refine pairOk_ite ?_ ?_
        · apply State.elemCells_memOk
          exact h0
        · refine pairOk_mk ?_
          exact h0
      apply ih
      exact h15

theorem laneGuard_memOk (x0 : State) (x1) (x2) (x3) (h0 : x0.MemOk) : Outcome.MemOk (laneGuard x0 x1 x2 x3) := by
  unfold laneGuard
  apply asLane_memOk
  · exact h0
  · intro a1 a2 a3 a4
    extract_lets +onlyGivenNames y5
    clear_value y5
    split
    rename_i z6 z7 z8 z9
    refine memOk_have (p := State.MemOk z8) (pairOk_eq z9 ?_) (fun h10 => ?_)
    · apply State.view_memOk
      exact h0
    extract_lets +onlyGivenNames y11
    clear_value y11
    extract_lets +onlyGivenNames y12
    clear_value y12
    refine outOk_next ?_
    apply State.laneNext_memOk
    apply State.setWave_memOk
    exact h10

theorem execVdot4_memOk (x0) (x1) (x2 : State) (h2 : x2.MemOk) : Outcome.MemOk (execVdot4 x0 x1 x2) := by
  unfold execVdot4
  apply laneOp_memOk
  exact h2

theorem State.originLanes_memOk (x0 : State) (x1) (x2) (x3) (x4) (h0 : x0.MemOk) : State.MemOk (State.originLanes x0 x1 x2 x3 x4) := by
  unfold State.originLanes
  extract_lets +onlyGivenNames y1
  clear_value y1
  extract_lets +onlyGivenNames y2
  clear_value y2
  apply State.setWave_memOk
  exact h0

theorem execVshl_memOk (x0) (x1) (x2 : State) (h2 : x2.MemOk) : Outcome.MemOk (execVshl x0 x1 x2) := by
  unfold execVshl
  apply laneOp_memOk
  exact h2

theorem execVsub_memOk (x0) (x1) (x2 : State) (h2 : x2.MemOk) : Outcome.MemOk (execVsub x0 x1 x2) := by
  unfold execVsub
  apply laneOp_memOk
  exact h2

theorem State.failSlot_memOk (x0 : State) (x1) (x2) (h0 : x0.MemOk) : State.MemOk (State.failSlot x0 x1 x2) := by
  unfold State.failSlot
  extract_lets +onlyGivenNames y1
  clear_value y1
  refine memOk_ite ?_ ?_
  · exact h0
  · refine memOk_ite ?_ ?_
    · apply State.loseWrite_memOk
      exact h0
    · apply State.endInstance_memOk
      exact h0

theorem State.failWaiter_memOk (x0 : State) (x1) (h0 : x0.MemOk) : State.MemOk (State.failWaiter x0 x1) := by
  unfold State.failWaiter
  split
  · rename_i z1 z2 z3 z4
    split
    · rename_i z5 z6
      exact h0
    · rename_i z7 z8 z9
      refine memOk_ite ?_ ?_
      · apply State.updWave_memOk
        exact h0
      · apply State.fatalCtx_memOk
        exact h0
  · rename_i z10 z11 z12 z13
    apply State.fatalCtx_memOk
    exact h0
  · rename_i z14 z15 z16 z17
    apply State.fatalCtx_memOk
    exact h0
  · rename_i z18 z19 z20 z21
    apply State.fatalCtx_memOk
    exact h0
  · rename_i z22 z23 z24 z25
    apply State.fatalCtx_memOk
    exact h0
  · rename_i z26 z27 z28
    split
    · rename_i z29 z30 z31
      refine memOk_ite ?_ ?_
      · apply State.failStart_memOk
        apply State.updAsync_memOk
        exact h0
      · apply State.endAsync_memOk
        exact h0
    · rename_i z32 z33
      exact h0
  · rename_i z34 z35 z36
    apply State.gFault_memOk
    exact h0
  · rename_i z37 z38 z39 z40
    apply State.failSlot_memOk
    exact h0
  · rename_i z41 z42 z43
    exact h0
  · rename_i z44 z45 z46
    split
    · rename_i z47 z48 z49 z50
      apply State.rejectUnread_memOk
      exact h0
    · rename_i z51 z52
      apply State.setHq_memOk
      exact h0
  · rename_i z53 z54 z55
    split
    · rename_i z56 z57 z58
      apply State.postAndSig_memOk
      exact h0
    · rename_i z59 z60
      exact h0
  · rename_i z61 z62 z63
    apply State.dropFlit_memOk
    exact h0
  · rename_i z64 z65 z66
    apply State.fatalCtx_memOk
    exact h0
  · rename_i z67 z68 z69 z70
    refine memOk_ite ?_ ?_
    · exact h0
    · refine memOk_ite ?_ ?_
      · apply State.fatalCtx_memOk
        exact h0
      · apply State.updWave_memOk
        exact h0
  · rename_i z71 z72
    exact h0

theorem State.retryParts_memOk (x0 : State) (x1) (x2) (x3) (h0 : x0.MemOk) : State.MemOk (State.retryParts x0 x1 x2 x3) := by
  unfold State.retryParts
  split
  · rename_i z1 z2
    exact h0
  · rename_i z3 z4 z5
    split
    · rename_i z6 z7
      exact h0
    · rename_i z8 z9 z10
      refine memOk_ite ?_ ?_
      · apply State.setWave_memOk
        exact h0
      · extract_lets +onlyGivenNames y11
        clear_value y11
        apply State.post_memOk
        apply State.updWave_memOk
        exact h0

theorem State.retryOctets_memOk (x0 : State) (x1) (x2) (x3) (h0 : x0.MemOk) : State.MemOk (State.retryOctets x0 x1 x2 x3) := by
  unfold State.retryOctets
  apply State.updCore_memOk
  exact h0

theorem State.retrySweep_memOk (x0 : State) (x1) (x2) (h0 : x0.MemOk) : State.MemOk (State.retrySweep x0 x1 x2) := by
  unfold State.retrySweep
  apply State.updCore_memOk
  exact h0

theorem State.retrySlot_memOk (x0 : State) (x1) (x2) (h0 : x0.MemOk) : State.MemOk (State.retrySlot x0 x1 x2) := by
  unfold State.retrySlot
  extract_lets +onlyGivenNames y1
  clear_value y1
  refine memOk_ite ?_ ?_
  · exact h0
  · extract_lets +onlyGivenNames y2
    refine memOk_have (p := State.MemOk y2) ?_ (fun h3 => ?_)
    · unfold y2
      apply State.setCx_memOk
      exact h0
    clear_value y2
    split
    · rename_i z4 z5 z6
      apply State.endInstance_memOk
      exact h3
    · rename_i z7 z8 z9 z10 z11
      apply State.endPart3_memOk
      exact h3
    · rename_i z12 z13
      refine memOk_ite ?_ ?_
      · apply State.post_memOk
        exact h3
      · refine memOk_ite ?_ ?_
        · apply State.cruResume_memOk
          exact h3
        · exact h3

theorem State.retryWaiter_memOk (x0 : State) (x1) (h0 : x0.MemOk) : State.MemOk (State.retryWaiter x0 x1) := by
  unfold State.retryWaiter
  split
  · rename_i z1 z2 z3 z4
    apply State.retryParts_memOk
    exact h0
  · rename_i z5 z6 z7 z8
    exact h0
  · rename_i z9 z10 z11 z12
    exact h0
  · rename_i z13 z14 z15 z16
    apply State.retryOctets_memOk
    exact h0
  · rename_i z17 z18 z19 z20
    apply State.retrySweep_memOk
    exact h0
  · rename_i z21 z22 z23
    apply State.asyncRun_memOk
    apply State.updAsync_memOk
    exact h0
  · rename_i z24 z25 z26
    apply State.setGth_memOk
    exact h0
  · rename_i z27 z28 z29 z30
    apply State.retrySlot_memOk
    exact h0
  · rename_i z31 z32 z33
    exact h0
  · rename_i z34 z35 z36
    apply State.post_memOk
    apply State.checkDeps_memOk
    apply State.setHq_memOk
    exact h0
  · rename_i z37 z38 z39
    extract_lets +onlyGivenNames y40
    refine memOk_have (p := State.MemOk y40) ?_ (fun h41 => ?_)
    · unfold y40
      apply State.completeCheck_memOk
      apply State.updRun_memOk
      exact h0
    clear_value y40
    split
    · rename_i z42 z43 z44
      apply State.post_memOk
      exact h41
    · rename_i z45 z46
      exact h41
  · rename_i z47 z48 z49
    apply State.post_memOk
    apply State.setPort_memOk
    exact h0
  · rename_i z50 z51 z52
    extract_lets +onlyGivenNames y53
    refine memOk_have (p := State.MemOk y53) ?_ (fun h54 => ?_)
    · unfold y53
      apply State.updCtx_memOk
      exact h0
    clear_value y53
    refine memOk_ite ?_ ?_
    · apply State.post_memOk
      exact h54
    · exact h54
  · rename_i z55 z56 z57 z58
    apply State.updWave_memOk
    exact h0
  · rename_i z59 z60
    exact h0

theorem State.laneWord_memOk (x0 : State) (x1) (x2) (x3) (h0 : x0.MemOk) : PairOk (State.laneWord x0 x1 x2 x3) := by
  unfold State.laneWord
  split
  · rename_i z1 z2 z3 z4
    refine memOk_have (p := State.MemOk z3) (pairOk_eq z4 ?_) (fun h5 => ?_)
    · apply State.resolve_memOk
      exact h0
    refine pairOk_mk ?_
    refine pairOk_fst ?_
    apply State.fetchCode_memOk
    exact h5
  · rename_i z6 z7 z8 z9
    refine memOk_have (p := State.MemOk z8) (pairOk_eq z9 ?_) (fun h10 => ?_)
    · apply State.resolve_memOk
      exact h0
    refine pairOk_mk ?_
    exact h10

theorem State.clauseFault_memOk (x0 : State) (x1) (x2) (x3) (x4) (x5) (h0 : x0.MemOk) : State.MemOk (State.clauseFault x0 x1 x2 x3 x4 x5) := by
  unfold State.clauseFault
  refine pairOk_fst ?_
  apply State.memFault_memOk
  exact h0

theorem State.clauseIllegal_memOk (x0 : State) (x1) (x2) (x3) (x4) (x5) (x6) (x7) (h0 : x0.MemOk) : State.MemOk (State.clauseIllegal x0 x1 x2 x3 x4 x5 x6 x7) := by
  unfold State.clauseIllegal
  extract_lets +onlyGivenNames y1
  clear_value y1
  refine memOk_ite ?_ ?_
  · apply State.setWave_memOk
    exact h0
  · refine memOk_ite ?_ ?_
    · apply State.setWave_memOk
      exact h0
    · refine memOk_ite ?_ ?_
      · apply State.wait_memOk
        exact h0
      · apply State.laneTrap_memOk
        apply State.setWave_memOk
        exact h0

theorem State.laneBody_memOk (x0 : State) (x1) (x2) (x3) (x4) (x5) (x6) (x7) (x8) (h0 : x0.MemOk) : PairOk (State.laneBody x0 x1 x2 x3 x4 x5 x6 x7 x8) := by
  induction x6 generalizing x0 x1 x2 x3 x4 x5 x7 x8 h0
  · unfold State.laneBody
    refine pairOk_mk ?_
    exact h0
  · rename_i r0 ih
    unfold State.laneBody
    split
    · rename_i z1 z2 z3 z4 z5
      refine memOk_have (p := State.MemOk z4) (pairOk_eq z5 ?_) (fun h6 => ?_)
      · apply State.laneWord_memOk
        exact h0
      refine pairOk_mk ?_
      exact h6
    · rename_i z7 z8 z9 z10
      refine memOk_have (p := State.MemOk z9) (pairOk_eq z10 ?_) (fun h11 => ?_)
      · apply State.laneWord_memOk
        exact h0
      split
      · rename_i z12 z13
        refine pairOk_mk ?_
        exact h11
      · rename_i z14 z15 z16
        refine pairOk_ite ?_ ?_
        · refine pairOk_mk ?_
          exact h11
        · refine pairOk_ite ?_ ?_
          · refine pairOk_mk ?_
            exact h11
          · apply ih
            exact h11

theorem execClauseStart_memOk (x0) (x1) (x2 : State) (h2 : x2.MemOk) : Outcome.MemOk (execClauseStart x0 x1 x2) := by
  unfold execClauseStart
  split
  · rename_i z1 z2
    refine outOk_next ?_
    exact h2
  · rename_i z3 z4 z5
    split
    · rename_i z6 z7
      refine outOk_next ?_
      exact h2
    · rename_i z8 z9 z10
      split
      · rename_i z11 z12
        refine outOk_next ?_
        exact h2
      · rename_i z13 z14 z15 z16
        extract_lets +onlyGivenNames y17
        clear_value y17
        split
        · rename_i z18 z19 z20 z21 z22
          refine memOk_have (p := State.MemOk z21) (pairOk_eq z22 ?_) (fun h23 => ?_)
          · apply State.laneWord_memOk
            exact h2
          refine outOk_next ?_
          apply State.clauseFault_memOk
          exact h23
        · rename_i z24 z25 z26 z27
          refine memOk_have (p := State.MemOk z26) (pairOk_eq z27 ?_) (fun h28 => ?_)
          · apply State.laneWord_memOk
            exact h2
          split
          · rename_i z29 z30
            refine outOk_next ?_
            apply State.clauseIllegal_memOk
            exact h28
          · rename_i z31 z32 z33
            refine outOk_ite ?_ ?_
            · refine outOk_next ?_
              apply State.wait_memOk
              exact h28
            · split
              · rename_i z34 z35 z36 z37 z38
                refine memOk_have (p := State.MemOk z37) (pairOk_eq z38 ?_) (fun h39 => ?_)
                · apply State.laneBody_memOk
                  exact h28
                refine outOk_next ?_
                apply State.clauseFault_memOk
                exact h39
              · rename_i z40 z41 z42 z43
                refine memOk_have (p := State.MemOk z42) (pairOk_eq z43 ?_) (fun h44 => ?_)
                · apply State.laneBody_memOk
                  exact h28
                refine outOk_next ?_
                apply State.clauseIllegal_memOk
                exact h44
              · rename_i z45 z46 z47
                refine memOk_have (p := State.MemOk z46) (pairOk_eq z47 ?_) (fun h48 => ?_)
                · apply State.laneBody_memOk
                  exact h28
                refine outOk_next ?_
                apply State.setWave_memOk
                exact h48
              · rename_i z49 z50 z51 z52
                refine memOk_have (p := State.MemOk z51) (pairOk_eq z52 ?_) (fun h53 => ?_)
                · apply State.laneBody_memOk
                  exact h28
                refine outOk_next ?_
                apply State.setWave_memOk
                exact h53

theorem State.originWrite_memOk (x0 : State) (x1) (x2) (x3) (x4) (h0 : x0.MemOk) : State.MemOk (State.originWrite x0 x1 x2 x3 x4) := by
  unfold State.originWrite
  split
  · rename_i z1 z2 z3
    extract_lets +onlyGivenNames y4
    clear_value y4
    apply State.updWave_memOk
    exact h0
  · rename_i z5 z6
    exact h0

theorem State.finishValue_memOk (x0 : State) (x1) (x2) (x3) (h0 : x0.MemOk) : State.MemOk (State.finishValue x0 x1 x2 x3) := by
  unfold State.finishValue
  split
  · rename_i z1 z2
    apply State.setWave_memOk
    exact h0
  · rename_i z3 z4 z5
    apply State.setWave_memOk
    exact h0
  · rename_i z6 z7
    apply State.updWave_memOk
    apply State.originLanes_memOk
    exact h0
  · rename_i z8 z9
    extract_lets +onlyGivenNames y10
    refine memOk_have (p := State.MemOk y10) ?_ (fun h11 => ?_)
    · unfold y10
      apply State.each_memOk
      · exact h0
      · intro s12 a13 h14
        apply State.originWrite_memOk
        exact h14
    clear_value y10
    apply State.updWave_memOk
    exact h11
  · rename_i z15 z16 z17 z18 z19
    exact h0

theorem execLongLatencyResult_memOk (x0) (x1) (x2 : State) (h2 : x2.MemOk) : Outcome.MemOk (execLongLatencyResult x0 x1 x2) := by
  unfold execLongLatencyResult
  split
  · rename_i z1 z2
    refine outOk_next ?_
    exact h2
  · rename_i z3 z4 z5
    split
    · rename_i z6 z7
      refine outOk_next ?_
      exact h2
    · rename_i z8 z9 z10
      refine outOk_next ?_
      apply State.waveExitCheck_memOk
      refine memOk_ite ?_ ?_
      · apply State.perform_memOk
        exact h2
      · apply State.finishValue_memOk
        exact h2

theorem execMatrixComplete_memOk (x0) (x1 : State) (h1 : x1.MemOk) : Outcome.MemOk (execMatrixComplete x0 x1) := by
  unfold execMatrixComplete
  split
  · rename_i z1 z2
    refine outOk_next ?_
    exact h1
  · rename_i z3 z4 z5 z6
    refine outOk_ite ?_ ?_
    · refine outOk_next ?_
      exact h1
    · extract_lets +onlyGivenNames y7
      clear_value y7
      extract_lets +onlyGivenNames y8
      refine memOk_have (p := State.MemOk y8) ?_ (fun h9 => ?_)
      · unfold y8
        apply State.updCore_memOk
        exact h1
      clear_value y8
      extract_lets +onlyGivenNames y10
      refine memOk_have (p := State.MemOk y10) ?_ (fun h11 => ?_)
      · unfold y10
        apply State.updWave_memOk
        exact h9
      clear_value y10
      extract_lets +onlyGivenNames y12
      refine memOk_have (p := State.MemOk y12) ?_ (fun h13 => ?_)
      · unfold y12
        apply State.post_memOk
        exact h11
      clear_value y12
      extract_lets +onlyGivenNames y14
      refine memOk_have (p := State.MemOk y14) ?_ (fun h15 => ?_)
      · unfold y14
        split
        · rename_i z16 z17 z18 z19 z20
          apply State.fabricErr_memOk
          exact h13
        · rename_i z21 z22 z23
          exact h13
      clear_value y14
      refine outOk_next ?_
      exact h15

theorem State.sweepEnd_memOk (x0 : State) (x1) (x2) (h0 : x0.MemOk) : State.MemOk (State.sweepEnd x0 x1 x2) := by
  unfold State.sweepEnd
  extract_lets +onlyGivenNames y1
  refine memOk_have (p := State.MemOk y1) ?_ (fun h2 => ?_)
  · unfold y1
    apply State.updCore_memOk
    exact h0
  clear_value y1
  extract_lets +onlyGivenNames y3
  refine memOk_have (p := State.MemOk y3) ?_ (fun h4 => ?_)
  · unfold y3
    apply State.updWave_memOk
    exact h2
  clear_value y3
  extract_lets +onlyGivenNames y5
  refine memOk_have (p := State.MemOk y5) ?_ (fun h6 => ?_)
  · unfold y5
    apply State.post_memOk
    exact h4
  clear_value y5
  split
  · rename_i z7 z8 z9
    apply State.fabricErr_memOk
    exact h6
  · rename_i z10 z11
    exact h6

theorem State.mxFetches_memOk (x0 : State) (x1) (x2) (x3) (x4) (x5) (h0 : x0.MemOk) : PairOk (State.mxFetches x0 x1 x2 x3 x4 x5) := by
  induction x4 generalizing x0 x1 x2 x3 x5 h0
  · unfold State.mxFetches
    refine pairOk_mk ?_
    exact h0
  · rename_i r0 r1 ih
    unfold State.mxFetches
    split
    · rename_i z1 z2 z3 z4
      refine memOk_have (p := State.MemOk z3) (pairOk_eq z4 ?_) (fun h5 => ?_)
      · apply State.mxFetch_memOk
        exact h0
      refine pairOk_mk ?_
      exact h5
    · rename_i z6 z7 z8 z9
      refine memOk_have (p := State.MemOk z8) (pairOk_eq z9 ?_) (fun h10 => ?_)
      · apply State.mxFetch_memOk
        exact h0
      apply ih
      exact h10

theorem State.setSweep_memOk (x0 : State) (x1) (x2) (h0 : x0.MemOk) : State.MemOk (State.setSweep x0 x1 x2) := by
  unfold State.setSweep
  apply State.updCore_memOk
  exact h0

theorem State.sweepFault_memOk (x0 : State) (x1) (x2) (x3) (x4) (x5) (h0 : x0.MemOk) : State.MemOk (State.sweepFault x0 x1 x2 x3 x4 x5) := by
  unfold State.sweepFault
  split
  rename_i z1 z2 z3 z4
  refine memOk_have (p := State.MemOk z3) (pairOk_eq z4 ?_) (fun h5 => ?_)
  · apply State.memFault_memOk
    exact h0
  refine memOk_ite ?_ ?_
  · apply State.fatalCtx_memOk
    exact h5
  · apply State.setSweep_memOk
    exact h5

theorem State.sweepRecords_memOk (x0 : State) (x1) (x2) (x3) (h0 : x0.MemOk) : PairOk (State.sweepRecords x0 x1 x2 x3) := by
  unfold State.sweepRecords
  split
  · rename_i z1 z2 z3 z4 z5
    refine memOk_have (p := State.MemOk z4) (pairOk_eq z5 ?_) (fun h6 => ?_)
    · apply State.mxFetches_memOk
      exact h0
    refine pairOk_mk ?_
    apply State.sweepFault_memOk
    exact h6
  · rename_i z7 z8 z9 z10
    refine memOk_have (p := State.MemOk z9) (pairOk_eq z10 ?_) (fun h11 => ?_)
    · apply State.mxFetches_memOk
      exact h0
    extract_lets +onlyGivenNames y12
    clear_value y12
    extract_lets +onlyGivenNames y13
    clear_value y13
    refine pairOk_mk ?_
    apply State.setSweep_memOk
    exact h11

theorem State.pieceBits_memOk (x0 : State) (x1) (x2) (x3) (x4) (x5) (x6) (h0 : x0.MemOk) : PairOk (State.pieceBits x0 x1 x2 x3 x4 x5 x6) := by
  induction x4 generalizing x0 x1 x2 x3 x5 x6 h0
  · unfold State.pieceBits
    refine pairOk_mk ?_
    exact h0
  · rename_i r0 r1 ih
    unfold State.pieceBits
    split
    · rename_i z1 z2 z3 z4
      refine memOk_have (p := State.MemOk z3) (pairOk_eq z4 ?_) (fun h5 => ?_)
      · apply State.swFetch_memOk
        exact h0
      refine pairOk_mk ?_
      exact h5
    · rename_i z6 z7 z8 z9
      refine memOk_have (p := State.MemOk z8) (pairOk_eq z9 ?_) (fun h10 => ?_)
      · apply State.swFetch_memOk
        exact h0
      apply ih
      exact h10

theorem State.readElem_memOk (x0 : State) (x1) (x2) (x3) (x4) (x5) (h0 : x0.MemOk) : PairOk (State.readElem x0 x1 x2 x3 x4 x5) := by
  unfold State.readElem
  refine pairOk_ite ?_ ?_
  · refine pairOk_mk ?_
    exact h0
  · extract_lets +onlyGivenNames y1
    clear_value y1
    refine pairOk_ite ?_ ?_
    · split
      · rename_i z2 z3 z4 z5 z6 z7
        split
        · rename_i z8 z9 z10 z11
          refine memOk_have (p := State.MemOk z10) (pairOk_eq z11 ?_) (fun h12 => ?_)
          · apply State.swFetch_memOk
            exact h0
          refine pairOk_mk ?_
          exact h12
        · rename_i z13 z14 z15 z16
          refine memOk_have (p := State.MemOk z15) (pairOk_eq z16 ?_) (fun h17 => ?_)
          · apply State.swFetch_memOk
            exact h0
          refine pairOk_mk ?_
          exact h17
      · rename_i z18
        refine pairOk_mk ?_
        exact h0
    · split
      · rename_i z19 z20 z21 z22
        refine memOk_have (p := State.MemOk z21) (pairOk_eq z22 ?_) (fun h23 => ?_)
        · apply State.pieceBits_memOk
          exact h0
        refine pairOk_mk ?_
        exact h23
      · rename_i z24 z25 z26 z27
        refine memOk_have (p := State.MemOk z26) (pairOk_eq z27 ?_) (fun h28 => ?_)
        · apply State.pieceBits_memOk
          exact h0
        refine pairOk_mk ?_
        exact h28

theorem State.readSources_memOk (x0 : State) (x1) (x2) (x3) (x4) (x5) (x6) (h0 : x0.MemOk) : PairOk (State.readSources x0 x1 x2 x3 x4 x5 x6) := by
  induction x5 generalizing x0 x1 x2 x3 x4 x6 h0
  · unfold State.readSources
    refine pairOk_mk ?_
    exact h0
  · rename_i r0 r1 ih
    unfold State.readSources
    split
    · rename_i z1 z2 z3 z4
      refine memOk_have (p := State.MemOk z3) (pairOk_eq z4 ?_) (fun h5 => ?_)
      · apply State.readElem_memOk
        exact h0
      refine pairOk_mk ?_
      exact h5
    · rename_i z6 z7 z8 z9
      refine memOk_have (p := State.MemOk z8) (pairOk_eq z9 ?_) (fun h10 => ?_)
      · apply State.readElem_memOk
        exact h0
      apply ih
      exact h10

theorem State.sweepStore_memOk (x0 : State) (x1) (x2) (x3) (x4) (x5) (h0 : x0.MemOk) : State.MemOk (State.sweepStore x0 x1 x2 x3 x4 x5) := by
  unfold State.sweepStore
  refine memOk_ite ?_ ?_
  · apply State.storeHome_memOk
    exact h0
  · apply State.storeCore_memOk
    exact h0

theorem State.writeElem_memOk (x0 : State) (x1) (x2) (x3) (x4) (x5) (x6) (x7) (h0 : x0.MemOk) : PairOk (State.writeElem x0 x1 x2 x3 x4 x5 x6 x7) := by
  unfold State.writeElem
  refine pairOk_ite ?_ ?_
  · refine pairOk_mk ?_
    exact h0
  · split
    · rename_i z1 z2 z3 z4
      refine memOk_have (p := State.MemOk z3) (pairOk_eq z4 ?_) (fun h5 => ?_)
      · apply State.elemCells_memOk
        exact h0
      refine pairOk_mk ?_
      exact h5
    · rename_i z6 z7 z8 z9
      refine memOk_have (p := State.MemOk z8) (pairOk_eq z9 ?_) (fun h10 => ?_)
      · apply State.elemCells_memOk
        exact h0
      refine pairOk_mk ?_
      apply State.sweepStore_memOk
      exact h10

theorem State.sweepElems_memOk (x0 : State) (x1) (x2) (x3) (h0 : x0.MemOk) : State.MemOk (State.sweepElems x0 x1 x2 x3) := by
  induction x3 generalizing x0 x1 x2 h0
  · unfold State.sweepElems
    apply State.setSweep_memOk
    exact h0
  · rename_i r0 ih
    unfold State.sweepElems
    extract_lets +onlyGivenNames y1
    clear_value y1
    extract_lets +onlyGivenNames y2
    clear_value y2
    refine memOk_ite ?_ ?_
    · apply State.setSweep_memOk
      exact h0
    · split
      · rename_i z3 z4
        exact h0
      · rename_i z5 z6 z7
        extract_lets +onlyGivenNames y8
        clear_value y8
        split
        · rename_i z9 z10 z11 z12 z13
          refine memOk_have (p := State.MemOk z12) (pairOk_eq z13 ?_) (fun h14 => ?_)
          · apply State.readSources_memOk
            exact h0
          apply State.sweepFault_memOk
          exact h14
        · rename_i z15 z16 z17 z18
          refine memOk_have (p := State.MemOk z17) (pairOk_eq z18 ?_) (fun h19 => ?_)
          · apply State.readSources_memOk
            exact h0
          extract_lets +onlyGivenNames y20
          clear_value y20
          split
          rename_i z21 z22 z23 z24 z25
          split
          · rename_i z26 z27 z28 z29 z30
            refine memOk_have (p := State.MemOk z29) (pairOk_eq z30 ?_) (fun h31 => ?_)
            · apply State.writeElem_memOk
              exact h19
            apply State.sweepFault_memOk
            exact h31
          · rename_i z32 z33 z34 z35
            refine memOk_have (p := State.MemOk z34) (pairOk_eq z35 ?_) (fun h36 => ?_)
            · apply State.writeElem_memOk
              exact h19
            extract_lets +onlyGivenNames y37
            clear_value y37
            extract_lets +onlyGivenNames y38
            clear_value y38
            apply ih
            exact h36

theorem State.segment_memOk (x0 : State) (x1) (x2) (x3) (x4) (x5) (x6) (x7) (h0 : x0.MemOk) : PairOk (State.segment x0 x1 x2 x3 x4 x5 x6 x7) := by
  induction x5 generalizing x0 x1 x2 x3 x4 x6 x7 h0
  · unfold State.segment
    refine pairOk_mk ?_
    exact h0
  · rename_i r0 r1 ih
    unfold State.segment
    extract_lets +onlyGivenNames y1
    clear_value y1
    extract_lets +onlyGivenNames y2
    clear_value y2
    extract_lets +onlyGivenNames y3
    clear_value y3
    refine pairOk_ite ?_ ?_
    · apply ih
      exact h0
    · extract_lets +onlyGivenNames y4
      clear_value y4
      split
      · rename_i z5 z6 z7 z8
        refine memOk_have (p := State.MemOk z7) (pairOk_eq z8 ?_) (fun h9 => ?_)
        · apply State.readElem_memOk
          exact h0
        refine pairOk_mk ?_
        exact h9
      · rename_i z10 z11 z12 z13
        refine memOk_have (p := State.MemOk z12) (pairOk_eq z13 ?_) (fun h14 => ?_)
        · apply State.readElem_memOk
          exact h0
        extract_lets +onlyGivenNames y15
        clear_value y15
        apply ih
        exact h14

theorem State.segmentWrite_memOk (x0 : State) (x1) (x2) (x3) (x4) (x5) (h0 : x0.MemOk) : State.MemOk (State.segmentWrite x0 x1 x2 x3 x4 x5) := by
  unfold State.segmentWrite
  apply State.each_memOk
  · exact h0
  · intro s1 a2 h3
    split
    rename_i z4 z5 z6 z7 z8
    refine pairOk_fst ?_
    apply State.writeElem_memOk
    exact h3

theorem State.sweepSegment_memOk (x0 : State) (x1) (x2) (x3) (h0 : x0.MemOk) : State.MemOk (State.sweepSegment x0 x1 x2 x3) := by
  unfold State.sweepSegment
  extract_lets +onlyGivenNames y1
  clear_value y1
  extract_lets +onlyGivenNames y2
  clear_value y2
  extract_lets +onlyGivenNames y3
  clear_value y3
  extract_lets +onlyGivenNames y4
  clear_value y4
  extract_lets +onlyGivenNames y5
  clear_value y5
  refine memOk_ite ?_ ?_
  · apply State.setSweep_memOk
    exact h0
  · extract_lets +onlyGivenNames y6
    clear_value y6
    extract_lets +onlyGivenNames y7
    clear_value y7
    extract_lets +onlyGivenNames y8
    clear_value y8
    extract_lets +onlyGivenNames y9
    clear_value y9
    split
    · rename_i z10 z11 z12 z13 z14
      refine memOk_have (p := State.MemOk z13) (pairOk_eq z14 ?_) (fun h15 => ?_)
      · apply State.segment_memOk
        exact h0
      apply State.sweepFault_memOk
      exact h15
    · rename_i z16 z17 z18 z19 z20
      refine memOk_have (p := State.MemOk z19) (pairOk_eq z20 ?_) (fun h21 => ?_)
      · apply State.segment_memOk
        exact h0
      extract_lets +onlyGivenNames y22
      clear_value y22
      extract_lets +onlyGivenNames y23
      clear_value y23
      extract_lets +onlyGivenNames y24
      clear_value y24
      extract_lets +onlyGivenNames y25
      clear_value y25
      extract_lets +onlyGivenNames y26
      clear_value y26
      extract_lets +onlyGivenNames y27
      clear_value y27
      extract_lets +onlyGivenNames y28
      clear_value y28
      split
      · rename_i z29 z30 z31 z32 z33
        refine memOk_have (p := State.MemOk z32) (pairOk_eq z33 ?_) (fun h34 => ?_)
        · apply State.segmentCells_memOk
          exact h21
        apply State.sweepFault_memOk
        exact h34
      · rename_i z35 z36 z37 z38
        refine memOk_have (p := State.MemOk z37) (pairOk_eq z38 ?_) (fun h39 => ?_)
        · apply State.segmentCells_memOk
          exact h21
        apply State.setSweep_memOk
        apply State.segmentWrite_memOk
        exact h39

theorem execSweepComplete_memOk (x0) (x1 : State) (h1 : x1.MemOk) : Outcome.MemOk (execSweepComplete x0 x1) := by
  unfold execSweepComplete
  split
  · rename_i z1 z2
    refine outOk_next ?_
    exact h1
  · rename_i z3 z4 z5 z6
    extract_lets +onlyGivenNames y7
    clear_value y7
    split
    · rename_i z8 z9
      refine outOk_next ?_
      exact h1
    · rename_i z10 z11 z12
      refine outOk_ite ?_ ?_
      · refine outOk_next ?_
        exact h1
      · refine outOk_ite ?_ ?_
        · refine outOk_next ?_
          apply State.sweepEnd_memOk
          exact h1
        · refine outOk_ite ?_ ?_
          · refine outOk_next ?_
            exact h1
          · refine outOk_ite ?_ ?_
            · extract_lets +onlyGivenNames y13
              refine memOk_have (p := State.MemOk y13) ?_ (fun h14 => ?_)
              · unfold y13
                refine memOk_ite ?_ ?_
                · apply State.drainAll_memOk
                  exact h1
                · exact h1
              clear_value y13
              split
              · rename_i z15 z16 z17
                refine memOk_have (p := State.MemOk z16) (pairOk_eq z17 ?_) (fun h18 => ?_)
                · apply State.sweepRecords_memOk
                  exact h14
                refine outOk_next ?_
                exact h18
              · rename_i z19 z20 z21 z22
                refine memOk_have (p := State.MemOk z21) (pairOk_eq z22 ?_) (fun h23 => ?_)
                · apply State.sweepRecords_memOk
                  exact h14
                refine outOk_next ?_
                refine memOk_ite ?_ ?_
                · apply State.sweepEnd_memOk
                  exact h23
                · exact h23
            · refine outOk_ite ?_ ?_
              · refine outOk_next ?_
                apply State.sweepElems_memOk
                exact h1
              · refine outOk_next ?_
                apply State.sweepSegment_memOk
                exact h1

theorem State.setMatrix_memOk (x0 : State) (x1) (x2) (h0 : x0.MemOk) : State.MemOk (State.setMatrix x0 x1 x2) := by
  unfold State.setMatrix
  apply State.updCore_memOk
  exact h0

theorem State.mxFault_memOk (x0 : State) (x1) (x2) (x3) (x4) (x5) (h0 : x0.MemOk) : State.MemOk (State.mxFault x0 x1 x2 x3 x4 x5) := by
  unfold State.mxFault
  split
  rename_i z1 z2 z3 z4
  refine memOk_have (p := State.MemOk z3) (pairOk_eq z4 ?_) (fun h5 => ?_)
  · apply State.memFault_memOk
    exact h0
  refine memOk_ite ?_ ?_
  · apply State.fatalCtx_memOk
    exact h5
  · apply State.setMatrix_memOk
    exact h5

theorem State.octetRow_memOk (x0 : State) (x1) (x2) (x3) (x4) (x5) (x6) (x7) (x8) (h0 : x0.MemOk) : PairOk (State.octetRow x0 x1 x2 x3 x4 x5 x6 x7 x8) := by
  unfold State.octetRow
  split
  · rename_i z1 z2
    refine pairOk_mk ?_
    exact h0
  · rename_i z3 z4 z5
    extract_lets +onlyGivenNames y6
    clear_value y6
    extract_lets +onlyGivenNames y7
    clear_value y7
    refine pairOk_mk ?_
    apply State.setWave_memOk
    exact h0

theorem State.octetRows_memOk (x0 : State) (x1) (x2) (x3) (x4) (x5) (x6) (x7) (h0 : x0.MemOk) : State.MemOk (State.octetRows x0 x1 x2 x3 x4 x5 x6 x7) := by
  induction x7 generalizing x0 x1 x2 x3 x4 x5 x6 h0
  · unfold State.octetRows
    apply State.setMatrix_memOk
    exact h0
  · rename_i r0 r1 ih
    unfold State.octetRows
    split
    · rename_i z1 z2
      exact h0
    · rename_i z3 z4 z5
      split
      · rename_i z6 z7 z8 z9 z10
        refine memOk_have (p := State.MemOk z9) (pairOk_eq z10 ?_) (fun h11 => ?_)
        · apply State.mxFetches_memOk
          exact h0
        extract_lets +onlyGivenNames y12
        clear_value y12
        apply State.mxFault_memOk
        exact h11
      · rename_i z13 z14 z15 z16
        refine memOk_have (p := State.MemOk z15) (pairOk_eq z16 ?_) (fun h17 => ?_)
        · apply State.mxFetches_memOk
          exact h0
        split
        rename_i z18 z19 z20 z21
        refine memOk_have (p := State.MemOk z20) (pairOk_eq z21 ?_) (fun h22 => ?_)
        · apply State.octetRow_memOk
          exact h17
        apply ih
        exact h22

theorem State.octetRun_memOk (x0 : State) (x1) (x2) (x3) (x4) (h0 : x0.MemOk) : State.MemOk (State.octetRun x0 x1 x2 x3 x4) := by
  unfold State.octetRun
  extract_lets +onlyGivenNames y1
  clear_value y1
  extract_lets +onlyGivenNames y2
  clear_value y2
  extract_lets +onlyGivenNames y3
  clear_value y3
  extract_lets +onlyGivenNames y4
  clear_value y4
  split
  · rename_i z5 z6 z7
    apply State.octetRows_memOk
    exact h0
  · rename_i z8 z9
    split
    · rename_i z10 z11 z12 z13 z14
      refine memOk_have (p := State.MemOk z13) (pairOk_eq z14 ?_) (fun h15 => ?_)
      · apply State.mxFetches_memOk
        exact h0
      apply State.mxFault_memOk
      exact h15
    · rename_i z16 z17 z18 z19
      refine memOk_have (p := State.MemOk z18) (pairOk_eq z19 ?_) (fun h20 => ?_)
      · apply State.mxFetches_memOk
        exact h0
      apply State.octetRows_memOk
      exact h20

theorem State.takeUp_memOk (x0 : State) (x1) (x2) (x3) (h0 : x0.MemOk) : PairOk (State.takeUp x0 x1 x2 x3) := by
  unfold State.takeUp
  extract_lets +onlyGivenNames y1
  clear_value y1
  split
  · rename_i z2 z3 z4 z5 z6
    refine memOk_have (p := State.MemOk z5) (pairOk_eq z6 ?_) (fun h7 => ?_)
    · apply State.mxFetches_memOk
      exact h0
    refine pairOk_mk ?_
    apply State.mxFault_memOk
    exact h7
  · rename_i z8 z9 z10 z11
    refine memOk_have (p := State.MemOk z10) (pairOk_eq z11 ?_) (fun h12 => ?_)
    · apply State.mxFetches_memOk
      exact h0
    extract_lets +onlyGivenNames y13
    clear_value y13
    refine pairOk_mk ?_
    apply State.setMatrix_memOk
    exact h12

theorem execOctetOperation_memOk (x0) (x1) (x2 : State) (h2 : x2.MemOk) : Outcome.MemOk (execOctetOperation x0 x1 x2) := by
  unfold execOctetOperation
  split
  · rename_i z1 z2
    refine outOk_next ?_
    exact h2
  · rename_i z3 z4 z5 z6
    split
    · rename_i z7 z8
      refine outOk_next ?_
      exact h2
    · rename_i z9 z10 z11
      refine outOk_ite ?_ ?_
      · refine outOk_next ?_
        exact h2
      · split
        · rename_i z12 z13
          refine outOk_next ?_
          apply State.after_memOk
          exact h2
        · rename_i z14 z15 z16
          dsimp only
          refine outOk_ite ?_ ?_
          · refine outOk_next ?_
            refine memOk_ite ?_ ?_
            · apply State.post_memOk
              exact h2
            · split
              · rename_i z17 z18 z19
                apply State.post_memOk
                apply State.octetRun_memOk
                apply State.issueUnit_memOk
                exact h2
              · rename_i z20 z21
                exact h2
          · split
            · rename_i z22 z23 z24 z25
              refine memOk_have (p := State.MemOk z24) (pairOk_eq z25 ?_) (fun h26 => ?_)
              · apply State.takeUp_memOk
                exact h2
              refine outOk_next ?_
              refine memOk_ite ?_ ?_
              · apply State.post_memOk
                exact h26
              · split
                · rename_i z27 z28 z29
                  apply State.post_memOk
                  apply State.octetRun_memOk
                  apply State.issueUnit_memOk
                  exact h26
                · rename_i z30 z31
                  exact h26
            · rename_i z32 z33 z34
              refine memOk_have (p := State.MemOk z33) (pairOk_eq z34 ?_) (fun h35 => ?_)
              · apply State.takeUp_memOk
                exact h2
              refine outOk_next ?_
              exact h35

theorem execVadd_memOk (x0) (x1) (x2 : State) (h2 : x2.MemOk) : Outcome.MemOk (execVadd x0 x1 x2) := by
  unfold execVadd
  apply laneOp_memOk
  exact h2

theorem execVaddI_memOk (x0) (x1) (x2 : State) (h2 : x2.MemOk) : Outcome.MemOk (execVaddI x0 x1 x2) := by
  unfold execVaddI
  apply laneOp_memOk
  exact h2

theorem execVsubI_memOk (x0) (x1) (x2 : State) (h2 : x2.MemOk) : Outcome.MemOk (execVsubI x0 x1 x2) := by
  unfold execVsubI
  apply laneOp_memOk
  exact h2

theorem execVadd3_memOk (x0) (x1) (x2 : State) (h2 : x2.MemOk) : Outcome.MemOk (execVadd3 x0 x1 x2) := by
  unfold execVadd3
  apply laneOp_memOk
  exact h2

theorem execVmul_memOk (x0) (x1) (x2 : State) (h2 : x2.MemOk) : Outcome.MemOk (execVmul x0 x1 x2) := by
  unfold execVmul
  apply laneOp_memOk
  exact h2

theorem execVmulI_memOk (x0) (x1) (x2 : State) (h2 : x2.MemOk) : Outcome.MemOk (execVmulI x0 x1 x2) := by
  unfold execVmulI
  apply laneOp_memOk
  exact h2

theorem execVmulh_memOk (x0) (x1) (x2 : State) (h2 : x2.MemOk) : Outcome.MemOk (execVmulh x0 x1 x2) := by
  unfold execVmulh
  apply laneOp_memOk
  exact h2

theorem execVmad_memOk (x0) (x1) (x2 : State) (h2 : x2.MemOk) : Outcome.MemOk (execVmad x0 x1 x2) := by
  unfold execVmad
  apply laneOp_memOk
  exact h2

theorem execVmadI_memOk (x0) (x1) (x2 : State) (h2 : x2.MemOk) : Outcome.MemOk (execVmadI x0 x1 x2) := by
  unfold execVmadI
  apply laneOp_memOk
  exact h2

theorem execVmadw_memOk (x0) (x1) (x2 : State) (h2 : x2.MemOk) : Outcome.MemOk (execVmadw x0 x1 x2) := by
  unfold execVmadw
  apply laneOp_memOk
  exact h2

theorem execVmin_memOk (x0) (x1) (x2 : State) (h2 : x2.MemOk) : Outcome.MemOk (execVmin x0 x1 x2) := by
  unfold execVmin
  apply laneOp_memOk
  exact h2

theorem execVmax_memOk (x0) (x1) (x2 : State) (h2 : x2.MemOk) : Outcome.MemOk (execVmax x0 x1 x2) := by
  unfold execVmax
  apply laneOp_memOk
  exact h2

theorem execVmaxI_memOk (x0) (x1) (x2 : State) (h2 : x2.MemOk) : Outcome.MemOk (execVmaxI x0 x1 x2) := by
  unfold execVmaxI
  apply laneOp_memOk
  exact h2

theorem execVabs_memOk (x0) (x1) (x2 : State) (h2 : x2.MemOk) : Outcome.MemOk (execVabs x0 x1 x2) := by
  unfold execVabs
  apply laneOp_memOk
  exact h2

theorem execVneg_memOk (x0) (x1) (x2 : State) (h2 : x2.MemOk) : Outcome.MemOk (execVneg x0 x1 x2) := by
  unfold execVneg
  apply laneOp_memOk
  exact h2

theorem execVand_memOk (x0) (x1) (x2 : State) (h2 : x2.MemOk) : Outcome.MemOk (execVand x0 x1 x2) := by
  unfold execVand
  apply laneOp_memOk
  exact h2

theorem execVandI_memOk (x0) (x1) (x2 : State) (h2 : x2.MemOk) : Outcome.MemOk (execVandI x0 x1 x2) := by
  unfold execVandI
  apply laneOp_memOk
  exact h2

theorem execVor_memOk (x0) (x1) (x2 : State) (h2 : x2.MemOk) : Outcome.MemOk (execVor x0 x1 x2) := by
  unfold execVor
  apply laneOp_memOk
  exact h2

theorem execVorI_memOk (x0) (x1) (x2 : State) (h2 : x2.MemOk) : Outcome.MemOk (execVorI x0 x1 x2) := by
  unfold execVorI
  apply laneOp_memOk
  exact h2

theorem execVxor_memOk (x0) (x1) (x2 : State) (h2 : x2.MemOk) : Outcome.MemOk (execVxor x0 x1 x2) := by
  unfold execVxor
  apply laneOp_memOk
  exact h2

theorem execVxorI_memOk (x0) (x1) (x2 : State) (h2 : x2.MemOk) : Outcome.MemOk (execVxorI x0 x1 x2) := by
  unfold execVxorI
  apply laneOp_memOk
  exact h2

theorem execVlop3_memOk (x0) (x1) (x2 : State) (h2 : x2.MemOk) : Outcome.MemOk (execVlop3 x0 x1 x2) := by
  unfold execVlop3
  apply laneOp_memOk
  exact h2

theorem execVlop3I_memOk (x0) (x1) (x2 : State) (h2 : x2.MemOk) : Outcome.MemOk (execVlop3I x0 x1 x2) := by
  unfold execVlop3I
  apply laneOp_memOk
  exact h2

theorem execVshlI_memOk (x0) (x1) (x2 : State) (h2 : x2.MemOk) : Outcome.MemOk (execVshlI x0 x1 x2) := by
  unfold execVshlI
  apply laneOp_memOk
  exact h2

theorem execVshr_memOk (x0) (x1) (x2 : State) (h2 : x2.MemOk) : Outcome.MemOk (execVshr x0 x1 x2) := by
  unfold execVshr
  apply laneOp_memOk
  exact h2

theorem execVshrI_memOk (x0) (x1) (x2 : State) (h2 : x2.MemOk) : Outcome.MemOk (execVshrI x0 x1 x2) := by
  unfold execVshrI
  apply laneOp_memOk
  exact h2

theorem execVsra_memOk (x0) (x1) (x2 : State) (h2 : x2.MemOk) : Outcome.MemOk (execVsra x0 x1 x2) := by
  unfold execVsra
  apply laneOp_memOk
  exact h2

theorem execVsraI_memOk (x0) (x1) (x2 : State) (h2 : x2.MemOk) : Outcome.MemOk (execVsraI x0 x1 x2) := by
  unfold execVsraI
  apply laneOp_memOk
  exact h2

theorem execVbfx_memOk (x0) (x1) (x2 : State) (h2 : x2.MemOk) : Outcome.MemOk (execVbfx x0 x1 x2) := by
  unfold execVbfx
  apply laneOp_memOk
  exact h2

theorem execVbfi_memOk (x0) (x1) (x2 : State) (h2 : x2.MemOk) : Outcome.MemOk (execVbfi x0 x1 x2) := by
  unfold execVbfi
  apply laneOp_memOk
  exact h2

theorem execVclz_memOk (x0) (x1) (x2 : State) (h2 : x2.MemOk) : Outcome.MemOk (execVclz x0 x1 x2) := by
  unfold execVclz
  apply laneOp_memOk
  exact h2

theorem execVpopc_memOk (x0) (x1) (x2 : State) (h2 : x2.MemOk) : Outcome.MemOk (execVpopc x0 x1 x2) := by
  unfold execVpopc
  apply laneOp_memOk
  exact h2

theorem execVbrev_memOk (x0) (x1) (x2 : State) (h2 : x2.MemOk) : Outcome.MemOk (execVbrev x0 x1 x2) := by
  unfold execVbrev
  apply laneOp_memOk
  exact h2

theorem execVcmp_memOk (x0) (x1) (x2 : State) (h2 : x2.MemOk) : Outcome.MemOk (execVcmp x0 x1 x2) := by
  unfold execVcmp
  apply laneGuard_memOk
  exact h2

theorem execVcmpI_memOk (x0) (x1) (x2 : State) (h2 : x2.MemOk) : Outcome.MemOk (execVcmpI x0 x1 x2) := by
  unfold execVcmpI
  apply laneGuard_memOk
  exact h2

theorem execVsel_memOk (x0) (x1) (x2 : State) (h2 : x2.MemOk) : Outcome.MemOk (execVsel x0 x1 x2) := by
  unfold execVsel
  apply laneOp_memOk
  exact h2

theorem execVselI_memOk (x0) (x1) (x2 : State) (h2 : x2.MemOk) : Outcome.MemOk (execVselI x0 x1 x2) := by
  unfold execVselI
  apply laneOp_memOk
  exact h2

theorem execVmov_memOk (x0) (x1) (x2 : State) (h2 : x2.MemOk) : Outcome.MemOk (execVmov x0 x1 x2) := by
  unfold execVmov
  apply laneOp_memOk
  exact h2

theorem execVmovI_memOk (x0) (x1) (x2 : State) (h2 : x2.MemOk) : Outcome.MemOk (execVmovI x0 x1 x2) := by
  unfold execVmovI
  apply laneOp_memOk
  exact h2

theorem execVlea_memOk (x0) (x1) (x2 : State) (h2 : x2.MemOk) : Outcome.MemOk (execVlea x0 x1 x2) := by
  unfold execVlea
  apply laneOp_memOk
  exact h2

theorem execVadd2_memOk (x0) (x1) (x2 : State) (h2 : x2.MemOk) : Outcome.MemOk (execVadd2 x0 x1 x2) := by
  unfold execVadd2
  apply laneOp_memOk
  exact h2

theorem execVadd2I_memOk (x0) (x1) (x2 : State) (h2 : x2.MemOk) : Outcome.MemOk (execVadd2I x0 x1 x2) := by
  unfold execVadd2I
  apply laneOp_memOk
  exact h2

theorem execVsub2_memOk (x0) (x1) (x2 : State) (h2 : x2.MemOk) : Outcome.MemOk (execVsub2 x0 x1 x2) := by
  unfold execVsub2
  apply laneOp_memOk
  exact h2

theorem execVsub2I_memOk (x0) (x1) (x2 : State) (h2 : x2.MemOk) : Outcome.MemOk (execVsub2I x0 x1 x2) := by
  unfold execVsub2I
  apply laneOp_memOk
  exact h2

theorem execVmul2_memOk (x0) (x1) (x2 : State) (h2 : x2.MemOk) : Outcome.MemOk (execVmul2 x0 x1 x2) := by
  unfold execVmul2
  apply laneOp_memOk
  exact h2

theorem execVmul2I_memOk (x0) (x1) (x2 : State) (h2 : x2.MemOk) : Outcome.MemOk (execVmul2I x0 x1 x2) := by
  unfold execVmul2I
  apply laneOp_memOk
  exact h2

theorem execVmac2_memOk (x0) (x1) (x2 : State) (h2 : x2.MemOk) : Outcome.MemOk (execVmac2 x0 x1 x2) := by
  unfold execVmac2
  apply laneOp_memOk
  exact h2

theorem execVsat_memOk (x0) (x1) (x2 : State) (h2 : x2.MemOk) : Outcome.MemOk (execVsat x0 x1 x2) := by
  unfold execVsat
  apply laneOp_memOk
  exact h2

theorem execVshrr_memOk (x0) (x1) (x2 : State) (h2 : x2.MemOk) : Outcome.MemOk (execVshrr x0 x1 x2) := by
  unfold execVshrr
  apply laneOp_memOk
  exact h2

theorem execVshrrI_memOk (x0) (x1) (x2 : State) (h2 : x2.MemOk) : Outcome.MemOk (execVshrrI x0 x1 x2) := by
  unfold execVshrrI
  apply laneOp_memOk
  exact h2

theorem execVdot8_memOk (x0) (x1) (x2 : State) (h2 : x2.MemOk) : Outcome.MemOk (execVdot8 x0 x1 x2) := by
  unfold execVdot8
  apply laneOp_memOk
  exact h2

theorem execVdott_memOk (x0) (x1) (x2 : State) (h2 : x2.MemOk) : Outcome.MemOk (execVdott x0 x1 x2) := by
  unfold execVdott
  apply laneOp_memOk
  exact h2

theorem execVfadd_memOk (x0) (x1) (x2 : State) (h2 : x2.MemOk) : Outcome.MemOk (execVfadd x0 x1 x2) := by
  unfold execVfadd
  apply laneOp_memOk
  exact h2

theorem execVfaddI_memOk (x0) (x1) (x2 : State) (h2 : x2.MemOk) : Outcome.MemOk (execVfaddI x0 x1 x2) := by
  unfold execVfaddI
  apply laneOp_memOk
  exact h2

theorem execVfsub_memOk (x0) (x1) (x2 : State) (h2 : x2.MemOk) : Outcome.MemOk (execVfsub x0 x1 x2) := by
  unfold execVfsub
  apply laneOp_memOk
  exact h2

theorem execVfsubI_memOk (x0) (x1) (x2 : State) (h2 : x2.MemOk) : Outcome.MemOk (execVfsubI x0 x1 x2) := by
  unfold execVfsubI
  apply laneOp_memOk
  exact h2

theorem execVfmul_memOk (x0) (x1) (x2 : State) (h2 : x2.MemOk) : Outcome.MemOk (execVfmul x0 x1 x2) := by
  unfold execVfmul
  apply laneOp_memOk
  exact h2

theorem execVfmulI_memOk (x0) (x1) (x2 : State) (h2 : x2.MemOk) : Outcome.MemOk (execVfmulI x0 x1 x2) := by
  unfold execVfmulI
  apply laneOp_memOk
  exact h2

theorem execVfma_memOk (x0) (x1) (x2 : State) (h2 : x2.MemOk) : Outcome.MemOk (execVfma x0 x1 x2) := by
  unfold execVfma
  apply laneOp_memOk
  exact h2

theorem execVfmaI_memOk (x0) (x1) (x2 : State) (h2 : x2.MemOk) : Outcome.MemOk (execVfmaI x0 x1 x2) := by
  unfold execVfmaI
  apply laneOp_memOk
  exact h2

theorem execVfmin_memOk (x0) (x1) (x2 : State) (h2 : x2.MemOk) : Outcome.MemOk (execVfmin x0 x1 x2) := by
  unfold execVfmin
  apply laneOp_memOk
  exact h2

theorem execVfminI_memOk (x0) (x1) (x2 : State) (h2 : x2.MemOk) : Outcome.MemOk (execVfminI x0 x1 x2) := by
  unfold execVfminI
  apply laneOp_memOk
  exact h2

theorem execVfmax_memOk (x0) (x1) (x2 : State) (h2 : x2.MemOk) : Outcome.MemOk (execVfmax x0 x1 x2) := by
  unfold execVfmax
  apply laneOp_memOk
  exact h2

theorem execVfmaxI_memOk (x0) (x1) (x2 : State) (h2 : x2.MemOk) : Outcome.MemOk (execVfmaxI x0 x1 x2) := by
  unfold execVfmaxI
  apply laneOp_memOk
  exact h2

theorem execVfabs_memOk (x0) (x1) (x2 : State) (h2 : x2.MemOk) : Outcome.MemOk (execVfabs x0 x1 x2) := by
  unfold execVfabs
  apply laneOp_memOk
  exact h2

theorem execVfcmp_memOk (x0) (x1) (x2 : State) (h2 : x2.MemOk) : Outcome.MemOk (execVfcmp x0 x1 x2) := by
  unfold execVfcmp
  apply laneGuard_memOk
  exact h2

theorem execVfcmpI_memOk (x0) (x1) (x2 : State) (h2 : x2.MemOk) : Outcome.MemOk (execVfcmpI x0 x1 x2) := by
  unfold execVfcmpI
  apply laneGuard_memOk
  exact h2

theorem execVfclass_memOk (x0) (x1) (x2 : State) (h2 : x2.MemOk) : Outcome.MemOk (execVfclass x0 x1 x2) := by
  unfold execVfclass
  apply laneOp_memOk
  exact h2

theorem execVfrnd_memOk (x0) (x1) (x2 : State) (h2 : x2.MemOk) : Outcome.MemOk (execVfrnd x0 x1 x2) := by
  unfold execVfrnd
  apply laneOp_memOk
  exact h2

theorem laneLong_memOk (x0 : State) (x1) (x2) (x3) (h0 : x0.MemOk) : Outcome.MemOk (laneLong x0 x1 x2 x3) := by
  unfold laneLong
  apply asLane_memOk
  · exact h0
  · intro a1 a2 a3 a4
    refine outOk_ite ?_ ?_
    · refine outOk_next ?_
      apply State.wait_memOk
      exact h0
    · extract_lets +onlyGivenNames y5
      clear_value y5
      split
      rename_i z6 z7 z8 z9
      refine memOk_have (p := State.MemOk z8) (pairOk_eq z9 ?_) (fun h10 => ?_)
      · apply State.view_memOk
        exact h0
      extract_lets +onlyGivenNames y11
      clear_value y11
      extract_lets +onlyGivenNames y12
      clear_value y12
      extract_lets +onlyGivenNames y13
      clear_value y13
      refine outOk_next ?_
      apply State.laneNext_memOk
      apply State.issueOp_memOk
      exact h10

theorem execVfdiv_memOk (x0) (x1) (x2 : State) (h2 : x2.MemOk) : Outcome.MemOk (execVfdiv x0 x1 x2) := by
  unfold execVfdiv
  apply laneLong_memOk
  exact h2

theorem execVfsqrt_memOk (x0) (x1) (x2 : State) (h2 : x2.MemOk) : Outcome.MemOk (execVfsqrt x0 x1 x2) := by
  unfold execVfsqrt
  apply laneLong_memOk
  exact h2

theorem execVfrcp_memOk (x0) (x1) (x2 : State) (h2 : x2.MemOk) : Outcome.MemOk (execVfrcp x0 x1 x2) := by
  unfold execVfrcp
  apply laneLong_memOk
  exact h2

theorem execVfrsq_memOk (x0) (x1) (x2 : State) (h2 : x2.MemOk) : Outcome.MemOk (execVfrsq x0 x1 x2) := by
  unfold execVfrsq
  apply laneLong_memOk
  exact h2

theorem execVfex2_memOk (x0) (x1) (x2 : State) (h2 : x2.MemOk) : Outcome.MemOk (execVfex2 x0 x1 x2) := by
  unfold execVfex2
  apply laneLong_memOk
  exact h2

theorem execVflg2_memOk (x0) (x1) (x2 : State) (h2 : x2.MemOk) : Outcome.MemOk (execVflg2 x0 x1 x2) := by
  unfold execVflg2
  apply laneLong_memOk
  exact h2

theorem execVfsin_memOk (x0) (x1) (x2 : State) (h2 : x2.MemOk) : Outcome.MemOk (execVfsin x0 x1 x2) := by
  unfold execVfsin
  apply laneLong_memOk
  exact h2

theorem execVfcos_memOk (x0) (x1) (x2 : State) (h2 : x2.MemOk) : Outcome.MemOk (execVfcos x0 x1 x2) := by
  unfold execVfcos
  apply laneLong_memOk
  exact h2

theorem execVftanh_memOk (x0) (x1) (x2 : State) (h2 : x2.MemOk) : Outcome.MemOk (execVftanh x0 x1 x2) := by
  unfold execVftanh
  apply laneLong_memOk
  exact h2

theorem execVhfma2_memOk (x0) (x1) (x2 : State) (h2 : x2.MemOk) : Outcome.MemOk (execVhfma2 x0 x1 x2) := by
  unfold execVhfma2
  apply laneOp_memOk
  exact h2

theorem execVhadd2_memOk (x0) (x1) (x2 : State) (h2 : x2.MemOk) : Outcome.MemOk (execVhadd2 x0 x1 x2) := by
  unfold execVhadd2
  apply laneOp_memOk
  exact h2

theorem execVhmul2_memOk (x0) (x1) (x2 : State) (h2 : x2.MemOk) : Outcome.MemOk (execVhmul2 x0 x1 x2) := by
  unfold execVhmul2
  apply laneOp_memOk
  exact h2

theorem laneConvert_memOk (x0 : State) (x1) (x2) (x3) (x4) (x5) (x6) (h0 : x0.MemOk) : Outcome.MemOk (laneConvert x0 x1 x2 x3 x4 x5 x6) := by
  unfold laneConvert
  apply asLane_memOk
  · exact h0
  · intro a1 a2 a3 a4
    extract_lets +onlyGivenNames y5
    clear_value y5
    split
    rename_i z6 z7 z8 z9
    refine memOk_have (p := State.MemOk z8) (pairOk_eq z9 ?_) (fun h10 => ?_)
    · apply State.view_memOk
      exact h0
    extract_lets +onlyGivenNames y11
    clear_value y11
    extract_lets +onlyGivenNames y12
    clear_value y12
    extract_lets +onlyGivenNames y13
    clear_value y13
    refine outOk_ite ?_ ?_
    · refine outOk_next ?_
      apply State.wait_memOk
      exact h10
    · extract_lets +onlyGivenNames y14
      clear_value y14
      extract_lets +onlyGivenNames y15
      clear_value y15
      extract_lets +onlyGivenNames y16
      clear_value y16
      extract_lets +onlyGivenNames y17
      refine memOk_have (p := State.MemOk y17) ?_ (fun h18 => ?_)
      · unfold y17
        apply State.setWave_memOk
        exact h10
      clear_value y17
      extract_lets +onlyGivenNames y19
      refine memOk_have (p := State.MemOk y19) ?_ (fun h20 => ?_)
      · unfold y19
        refine memOk_ite ?_ ?_
        · exact h18
        · apply State.laneTrap_memOk
          exact h18
      clear_value y19
      refine outOk_next ?_
      apply State.laneNext_memOk
      exact h20

theorem execVcvt_memOk (x0) (x1) (x2 : State) (h2 : x2.MemOk) : Outcome.MemOk (execVcvt x0 x1 x2) := by
  unfold execVcvt
  apply laneConvert_memOk
  exact h2

theorem execVpack_memOk (x0) (x1) (x2 : State) (h2 : x2.MemOk) : Outcome.MemOk (execVpack x0 x1 x2) := by
  unfold execVpack
  apply laneConvert_memOk
  exact h2

theorem execVunpk_memOk (x0) (x1) (x2 : State) (h2 : x2.MemOk) : Outcome.MemOk (execVunpk x0 x1 x2) := by
  unfold execVunpk
  apply laneConvert_memOk
  exact h2

theorem execVqnt_memOk (x0) (x1) (x2 : State) (h2 : x2.MemOk) : Outcome.MemOk (execVqnt x0 x1 x2) := by
  unfold execVqnt
  apply laneConvert_memOk
  exact h2

theorem execVdqnt_memOk (x0) (x1) (x2 : State) (h2 : x2.MemOk) : Outcome.MemOk (execVdqnt x0 x1 x2) := by
  unfold execVdqnt
  apply laneConvert_memOk
  exact h2

theorem execVslide_memOk (x0) (x1) (x2 : State) (h2 : x2.MemOk) : Outcome.MemOk (execVslide x0 x1 x2) := by
  unfold execVslide
  apply laneOp_memOk
  exact h2

theorem execVslideI_memOk (x0) (x1) (x2 : State) (h2 : x2.MemOk) : Outcome.MemOk (execVslideI x0 x1 x2) := by
  unfold execVslideI
  apply laneOp_memOk
  exact h2

theorem execVshfl_memOk (x0) (x1) (x2 : State) (h2 : x2.MemOk) : Outcome.MemOk (execVshfl x0 x1 x2) := by
  unfold execVshfl
  apply laneOp_memOk
  exact h2

theorem execVbcast_memOk (x0) (x1) (x2 : State) (h2 : x2.MemOk) : Outcome.MemOk (execVbcast x0 x1 x2) := by
  unfold execVbcast
  apply laneOp_memOk
  exact h2

theorem execVbcastI_memOk (x0) (x1) (x2 : State) (h2 : x2.MemOk) : Outcome.MemOk (execVbcastI x0 x1 x2) := by
  unfold execVbcastI
  apply laneOp_memOk
  exact h2

theorem laneScan_memOk (x0 : State) (x1) (x2) (x3) (h0 : x0.MemOk) : Outcome.MemOk (laneScan x0 x1 x2 x3) := by
  unfold laneScan
  apply asLane_memOk
  · exact h0
  · intro a1 a2 a3 a4
    extract_lets +onlyGivenNames y5
    clear_value y5
    split
    rename_i z6 z7 z8 z9
    refine memOk_have (p := State.MemOk z8) (pairOk_eq z9 ?_) (fun h10 => ?_)
    · apply State.view_memOk
      exact h0
    extract_lets +onlyGivenNames y11
    clear_value y11
    extract_lets +onlyGivenNames y12
    clear_value y12
    extract_lets +onlyGivenNames y13
    clear_value y13
    refine outOk_next ?_
    apply State.laneNext_memOk
    apply State.setWave_memOk
    exact h10

theorem execVscan_memOk (x0) (x1) (x2 : State) (h2 : x2.MemOk) : Outcome.MemOk (execVscan x0 x1 x2) := by
  unfold execVscan
  apply laneScan_memOk
  exact h2

theorem execVred_memOk (x0) (x1) (x2 : State) (h2 : x2.MemOk) : Outcome.MemOk (execVred x0 x1 x2) := by
  unfold execVred
  apply laneScan_memOk
  exact h2

theorem execVballot_memOk (x0) (x1) (x2 : State) (h2 : x2.MemOk) : Outcome.MemOk (execVballot x0 x1 x2) := by
  unfold execVballot
  apply asLane_memOk
  · exact h2
  · intro a1 a2 a3 a4
    extract_lets +onlyGivenNames y5
    clear_value y5
    split
    rename_i z6 z7 z8 z9
    refine memOk_have (p := State.MemOk z8) (pairOk_eq z9 ?_) (fun h10 => ?_)
    · apply State.view_memOk
      exact h2
    extract_lets +onlyGivenNames y11
    clear_value y11
    extract_lets +onlyGivenNames y12
    clear_value y12
    extract_lets +onlyGivenNames y13
    clear_value y13
    refine outOk_next ?_
    apply State.laneNext_memOk
    apply State.setWave_memOk
    exact h10

theorem execVput_memOk (x0) (x1) (x2 : State) (h2 : x2.MemOk) : Outcome.MemOk (execVput x0 x1 x2) := by
  unfold execVput
  apply asLane_memOk
  · exact h2
  · intro a1 a2 a3 a4
    refine outOk_ite ?_ ?_
    · refine outOk_next ?_
      apply State.wait_memOk
      exact h2
    · extract_lets +onlyGivenNames y5
      clear_value y5
      split
      rename_i z6 z7 z8 z9
      refine memOk_have (p := State.MemOk z8) (pairOk_eq z9 ?_) (fun h10 => ?_)
      · apply State.view_memOk
        exact h2
      extract_lets +onlyGivenNames y11
      clear_value y11
      refine outOk_next ?_
      apply State.laneNext_memOk
      apply State.issueOp_memOk
      exact h10

theorem execGlop_memOk (x0) (x1) (x2 : State) (h2 : x2.MemOk) : Outcome.MemOk (execGlop x0 x1 x2) := by
  unfold execGlop
  apply asLane_memOk
  · exact h2
  · intro a1 a2 a3 a4
    extract_lets +onlyGivenNames y5
    clear_value y5
    extract_lets +onlyGivenNames y6
    clear_value y6
    extract_lets +onlyGivenNames y7
    clear_value y7
    refine outOk_next ?_
    apply State.laneNext_memOk
    apply State.setWave_memOk
    exact h2

theorem execGmov_memOk (x0) (x1) (x2 : State) (h2 : x2.MemOk) : Outcome.MemOk (execGmov x0 x1 x2) := by
  unfold execGmov
  refine outOk_ite ?_ ?_
  · apply laneOp_memOk
    exact h2
  · apply laneGuard_memOk
    exact h2

theorem execVrand_memOk (x0) (x1) (x2 : State) (h2 : x2.MemOk) : Outcome.MemOk (execVrand x0 x1 x2) := by
  unfold execVrand
  apply laneOp_memOk
  exact h2

theorem execVld_memOk (x0) (x1) (x2 : State) (h2 : x2.MemOk) : Outcome.MemOk (execVld x0 x1 x2) := by
  unfold execVld
  apply laneAccess_memOk
  exact h2

theorem execVst_memOk (x0) (x1) (x2 : State) (h2 : x2.MemOk) : Outcome.MemOk (execVst x0 x1 x2) := by
  unfold execVst
  apply laneAccess_memOk
  exact h2

theorem execVatom_memOk (x0) (x1) (x2 : State) (h2 : x2.MemOk) : Outcome.MemOk (execVatom x0 x1 x2) := by
  unfold execVatom
  extract_lets +onlyGivenNames y1
  clear_value y1
  apply laneAccess_memOk
  exact h2

theorem execVatomCas_memOk (x0) (x1) (x2 : State) (h2 : x2.MemOk) : Outcome.MemOk (execVatomCas x0 x1 x2) := by
  unfold execVatomCas
  extract_lets +onlyGivenNames y1
  clear_value y1
  apply laneAccess_memOk
  exact h2

theorem State.prefetch_memOk (x0 : State) (x1) (x2) (x3) (x4) (x5) (h0 : x0.MemOk) : State.MemOk (State.prefetch x0 x1 x2 x3 x4 x5) := by
  unfold State.prefetch
  extract_lets +onlyGivenNames y1
  clear_value y1
  refine memOk_ite ?_ ?_
  · exact h0
  · split
    · rename_i z2 z3 z4 z5
      refine memOk_have (p := State.MemOk z4) (pairOk_eq z5 ?_) (fun h6 => ?_)
      · apply State.translate_memOk
        exact h0
      exact h6
    · rename_i z7 z8 z9 z10
      refine memOk_have (p := State.MemOk z9) (pairOk_eq z10 ?_) (fun h11 => ?_)
      · apply State.translate_memOk
        exact h0
      apply State.l1Hint_memOk
      exact h11

theorem execVpref_memOk (x0) (x1) (x2 : State) (h2 : x2.MemOk) : Outcome.MemOk (execVpref x0 x1 x2) := by
  unfold execVpref
  apply asLane_memOk
  · exact h2
  · intro a1 a2 a3 a4
    extract_lets +onlyGivenNames y5
    clear_value y5
    refine outOk_ite ?_ ?_
    · refine outOk_next ?_
      apply State.wait_memOk
      exact h2
    · split
      rename_i z6 z7 z8 z9
      refine memOk_have (p := State.MemOk z8) (pairOk_eq z9 ?_) (fun h10 => ?_)
      · apply State.view_memOk
        exact h2
      extract_lets +onlyGivenNames y11
      refine memOk_have (p := State.MemOk y11) ?_ (fun h12 => ?_)
      · unfold y11
        apply State.each_memOk
        · exact h10
        · intro s13 a14 h15
          apply State.prefetch_memOk
          exact h15
      clear_value y11
      refine outOk_next ?_
      apply State.laneNext_memOk
      exact h12

theorem inHandler_memOk (x0 : State) (x1) (x2) (h0 : x0.MemOk) (hk : ∀ r w f v m s, s.MemOk → Outcome.MemOk (x2 r w f v m s)) : Outcome.MemOk (inHandler x0 x1 x2) := by
  unfold inHandler
  apply asLane_memOk
  · exact h0
  · intro a1 a2 a3 a4
    extract_lets +onlyGivenNames y5
    clear_value y5
    refine outOk_ite ?_ ?_
    · refine outOk_ite ?_ ?_
      · refine outOk_next ?_
        apply State.wait_memOk
        exact h0
      · refine outOk_next ?_
        apply State.laneNext_memOk
        apply State.laneTrap_memOk
        exact h0
    · split
      rename_i z6 z7 z8 z9
      refine memOk_have (p := State.MemOk z8) (pairOk_eq z9 ?_) (fun h10 => ?_)
      · apply State.view_memOk
        exact h0
      apply hk
      exact h10

theorem originOp_memOk (x0 : State) (x1) (x2) (x3) (x4) (x5) (x6) (h0 : x0.MemOk) : Outcome.MemOk (originOp x0 x1 x2 x3 x4 x5 x6) := by
  unfold originOp
  apply inHandler_memOk
  · exact h0
  · intro a1 a2 a3 a4 a5 s6 h7
    refine outOk_ite ?_ ?_
    · refine outOk_next ?_
      apply State.wait_memOk
      exact h7
    · refine outOk_ite ?_ ?_
      · refine outOk_next ?_
        apply State.fatalCtx_memOk
        exact h7
      · refine outOk_ite ?_ ?_
        · refine outOk_next ?_
          apply State.laneNext_memOk
          exact h7
        · extract_lets +onlyGivenNames y8
          clear_value y8
          refine outOk_next ?_
          apply State.laneNext_memOk
          apply State.issueOp_memOk
          exact h7

theorem execVorgld_memOk (x0) (x1) (x2 : State) (h2 : x2.MemOk) : Outcome.MemOk (execVorgld x0 x1 x2) := by
  unfold execVorgld
  apply originOp_memOk
  exact h2

theorem execVorgst_memOk (x0) (x1) (x2 : State) (h2 : x2.MemOk) : Outcome.MemOk (execVorgst x0 x1 x2) := by
  unfold execVorgst
  apply originOp_memOk
  exact h2

theorem execVresume_memOk (x0) (x1) (x2 : State) (h2 : x2.MemOk) : Outcome.MemOk (execVresume x0 x1 x2) := by
  unfold execVresume
  apply inHandler_memOk
  · exact h2
  · intro a1 a2 a3 a4 a5 s6 h7
    refine outOk_ite ?_ ?_
    · refine outOk_next ?_
      apply State.wait_memOk
      exact h7
    · refine outOk_ite ?_ ?_
      · refine outOk_next ?_
        apply State.fatalCtx_memOk
        exact h7
      · extract_lets +onlyGivenNames y8
        refine memOk_have (p := State.MemOk y8) ?_ (fun h9 => ?_)
        · unfold y8
          apply State.each_memOk
          · exact h7
          · intro s10 a11 h12
            split
            · rename_i z13 z14 z15
              extract_lets +onlyGivenNames y16
              refine memOk_have (p := State.MemOk y16) ?_ (fun h17 => ?_)
              · unfold y16
                apply State.updCore_memOk
                exact h12
              clear_value y16
              apply State.resumeLane_memOk
              exact h17
            · rename_i z18 z19
              exact h12
        clear_value y8
        refine outOk_next ?_
        apply State.laneNext_memOk
        exact h9

theorem sweepIssue_memOk (x0 : State) (x1) (x2) (x3) (h0 : x0.MemOk) : Outcome.MemOk (sweepIssue x0 x1 x2 x3) := by
  unfold sweepIssue
  extract_lets +onlyGivenNames y1
  clear_value y1
  apply heavyIssue_memOk
  · exact h0
  · intro a2 a3 a4 a5 a6 a7 s8 h9
    extract_lets +onlyGivenNames y10
    clear_value y10
    extract_lets +onlyGivenNames y11
    clear_value y11
    extract_lets +onlyGivenNames y12
    clear_value y12
    apply State.post_memOk
    apply State.updCore_memOk
    exact h9

theorem execTsweep_memOk (x0) (x1) (x2 : State) (h2 : x2.MemOk) : Outcome.MemOk (execTsweep x0 x1 x2) := by
  unfold execTsweep
  apply sweepIssue_memOk
  exact h2

theorem execTcvt_memOk (x0) (x1) (x2 : State) (h2 : x2.MemOk) : Outcome.MemOk (execTcvt x0 x1 x2) := by
  unfold execTcvt
  apply sweepIssue_memOk
  exact h2

theorem execTred_memOk (x0) (x1) (x2 : State) (h2 : x2.MemOk) : Outcome.MemOk (execTred x0 x1 x2) := by
  unfold execTred
  apply sweepIssue_memOk
  exact h2

theorem execTscan_memOk (x0) (x1) (x2 : State) (h2 : x2.MemOk) : Outcome.MemOk (execTscan x0 x1 x2) := by
  unfold execTscan
  apply sweepIssue_memOk
  exact h2

theorem State.someReturn_memOk (x0 : State) (x1) (h0 : x0.MemOk) : State.MemOk (State.someReturn x0 x1) := by
  unfold State.someReturn
  split
  · rename_i z1 z2
    exact h0
  · rename_i z3 z4 z5
    apply State.each_memOk
    · exact h0
    · intro s6 a7 h8
      extract_lets +onlyGivenNames y9
      clear_value y9
      extract_lets +onlyGivenNames y10
      refine memOk_have (p := State.MemOk y10) ?_ (fun h11 => ?_)
      · unfold y10
        (refine ⟨?_⟩; dsimp only; refine State.MemOk.wf ?_)
        exact h8
      clear_value y10
      refine memOk_ite ?_ ?_
      · split
        · rename_i z12 z13 z14
          apply State.originLanes_memOk
          exact h11
        · rename_i z15 z16
          exact h11
      · apply State.returnLanes_memOk
        exact h11

theorem State.sweepScan_memOk (x0 : State) (h0 : x0.MemOk) : State.MemOk (State.sweepScan x0) := by
  unfold State.sweepScan
  apply State.each_memOk
  · exact h0
  · intro s1 a2 h3
    apply State.each_memOk
    · exact h3
    · intro s4 a5 h6
      refine memOk_ite ?_ ?_
      · apply State.post_memOk
        exact h6
      · exact h6

theorem State.matrixScan_memOk (x0 : State) (h0 : x0.MemOk) : State.MemOk (State.matrixScan x0) := by
  unfold State.matrixScan
  apply State.each_memOk
  · exact h0
  · intro s1 a2 h3
    apply State.each_memOk
    · exact h3
    · intro s4 a5 h6
      apply State.each_memOk
      · exact h6
      · intro s7 a8 h9
        extract_lets +onlyGivenNames y10
        clear_value y10
        refine memOk_ite ?_ ?_
        · apply State.post_memOk
          exact h9
        · exact h9

end Sys2Proof.Machine
end

