-- ==== Sys2Proof/Laws/KeepHost.lean ====
section
/-! SUPPORT. What keeps the canonical form of memory: the host port, boot, management and the choice of the next turn. One lemma per definition that answers a state. -/

namespace Sys2Proof.Machine

theorem State.cmdDone_memOk (x0 : State) (x1) (x2) (x3) (x4) (x5) (x6) (h0 : x0.MemOk) : State.MemOk (State.cmdDone x0 x1 x2 x3 x4 x5 x6) := by
  unfold State.cmdDone
  refine memOk_ite ?_ ?_
  · apply State.complete_memOk
    exact h0
  · refine memOk_ite ?_ ?_
    · apply State.sendCpl_memOk
      exact h0
    · exact h0

theorem State.cmdWaits_memOk (x0 : State) (x1) (x2) (x3) (x4) (h0 : x0.MemOk) : State.MemOk (State.cmdWaits x0 x1 x2 x3 x4) := by
  unfold State.cmdWaits
  extract_lets +onlyGivenNames y1
  clear_value y1
  extract_lets +onlyGivenNames y2
  clear_value y2
  extract_lets +onlyGivenNames y3
  clear_value y3
  apply State.setStream_memOk
  exact h0

theorem State.cmdFault_memOk (x0 : State) (x1) (x2) (x3) (x4) (x5) (x6) (x7) (h0 : x0.MemOk) : State.MemOk (State.cmdFault x0 x1 x2 x3 x4 x5 x6 x7) := by
  unfold State.cmdFault
  refine memOk_ite ?_ ?_
  · apply State.cmdDone_memOk
    exact h0
  · split
    rename_i z1 z2 z3 z4
    refine memOk_have (p := State.MemOk z3) (pairOk_eq z4 ?_) (fun h5 => ?_)
    · apply State.memFault_memOk
      exact h0
    apply State.cmdWaits_memOk
    exact h5

theorem State.pollEvent_memOk (x0 : State) (x1) (x2) (x3) (x4) (x5) (h0 : x0.MemOk) : State.MemOk (State.pollEvent x0 x1 x2 x3 x4 x5) := by
  unfold State.pollEvent
  split
  · rename_i z1 z2 z3 z4 z5
    refine memOk_have (p := State.MemOk z4) (pairOk_eq z5 ?_) (fun h6 => ?_)
    · apply State.resolve_memOk
      exact h0
    apply State.cmdFault_memOk
    exact h6
  · rename_i z7 z8 z9 z10
    refine memOk_have (p := State.MemOk z9) (pairOk_eq z10 ?_) (fun h11 => ?_)
    · apply State.resolve_memOk
      exact h0
    extract_lets +onlyGivenNames y12
    clear_value y12
    refine memOk_ite ?_ ?_
    · apply State.cmdDone_memOk
      exact h11
    · refine memOk_ite ?_ ?_
      · apply State.cmdDone_memOk
        exact h11
      · extract_lets +onlyGivenNames y13
        refine memOk_have (p := State.MemOk y13) ?_ (fun h14 => ?_)
        · unfold y13
          apply State.cmdWaits_memOk
          exact h11
        clear_value y13
        extract_lets +onlyGivenNames y15
        clear_value y15
        refine memOk_ite ?_ ?_
        · apply State.cmdWaits_memOk
          exact h14
        · apply State.after_memOk
          apply State.cmdWaits_memOk
          exact h14

theorem State.runEventWrite_memOk (x0 : State) (x1) (x2) (x3) (h0 : x0.MemOk) : State.MemOk (State.runEventWrite x0 x1 x2 x3) := by
  unfold State.runEventWrite
  extract_lets +onlyGivenNames y1
  clear_value y1
  refine memOk_ite ?_ ?_
  · apply State.cmdDone_memOk
    exact h0
  · split
    · rename_i z2 z3 z4 z5
      refine memOk_have (p := State.MemOk z4) (pairOk_eq z5 ?_) (fun h6 => ?_)
      · apply State.devUpdate_memOk
        exact h0
      apply State.cmdDone_memOk
      exact h6
    · rename_i z7 z8 z9 z10 z11
      refine memOk_have (p := State.MemOk z10) (pairOk_eq z11 ?_) (fun h12 => ?_)
      · apply State.devUpdate_memOk
        exact h0
      apply State.cmdFault_memOk
      exact h12

theorem State.resumeStream_memOk (x0 : State) (x1) (x2) (x3) (x4) (h0 : x0.MemOk) : State.MemOk (State.resumeStream x0 x1 x2 x3 x4) := by
  unfold State.resumeStream
  split
  · rename_i z1 z2
    exact h0
  · rename_i z3 z4 z5
    split
    · rename_i z6 z7 z8 z9
      refine memOk_ite ?_ ?_
      · apply State.cmdDone_memOk
        exact h0
      · refine memOk_ite ?_ ?_
        · apply State.pollEvent_memOk
          exact h0
        · apply State.runEventWrite_memOk
          exact h0
    · rename_i z10 z11 z12 z13 z14
      extract_lets +onlyGivenNames y15
      refine memOk_have (p := State.MemOk y15) ?_ (fun h16 => ?_)
      · unfold y15
        apply State.cmdWaits_memOk
        exact h0
      clear_value y15
      extract_lets +onlyGivenNames y17
      clear_value y17
      refine memOk_ite ?_ ?_
      · apply State.failStart_memOk
        exact h16
      · refine memOk_ite ?_ ?_
        · apply State.refuseStart_memOk
          exact h16
        · apply State.collStart_memOk
          exact h16
    · rename_i z18 z19 z20
      exact h0

theorem State.unstall_memOk (x0 : State) (x1) (h0 : x0.MemOk) : State.MemOk (State.unstall x0 x1) := by
  unfold State.unstall
  extract_lets +onlyGivenNames y1
  clear_value y1
  refine memOk_ite ?_ ?_
  · exact h0
  · extract_lets +onlyGivenNames y2
    refine memOk_have (p := State.MemOk y2) ?_ (fun h3 => ?_)
    · unfold y2
      apply State.setStream_memOk
      exact h0
    clear_value y2
    apply State.after_memOk
    (refine ⟨?_⟩; dsimp only; refine State.MemOk.wf ?_)
    exact h3

theorem State.popRequest_memOk (x0 : State) (x1) (x2) (h0 : x0.MemOk) : State.MemOk (State.popRequest x0 x1 x2) := by
  unfold State.popRequest
  split
  · rename_i z1 z2 z3 z4
    refine memOk_ite ?_ ?_
    · (refine ⟨?_⟩; dsimp only; refine State.MemOk.wf ?_)
      exact h0
    · exact h0
  · rename_i z5 z6
    exact h0

theorem State.reply_memOk (x0 : State) (x1) (x2) (x3) (x4) (h0 : x0.MemOk) : State.MemOk (State.reply x0 x1 x2 x3 x4) := by
  unfold State.reply
  (refine ⟨?_⟩; dsimp only; refine State.MemOk.wf ?_)
  exact h0

theorem State.request1_memOk (x0 : State) (x1) (x2) (x3) (x4) (h0 : x0.MemOk) (hk : ∀ s, s.MemOk → State.MemOk (x4 s)) : State.MemOk (State.request1 x0 x1 x2 x3 x4) := by
  unfold State.request1
  extract_lets +onlyGivenNames y1
  refine memOk_have (p := State.MemOk y1) ?_ (fun h2 => ?_)
  · unfold y1
    apply State.popRequest_memOk
    exact h0
  clear_value y1
  refine memOk_ite ?_ ?_
  · apply hk
    exact h2
  · apply State.reply_memOk
    exact h2

theorem State.runReadCounters_memOk (x0 : State) (x1) (h0 : x0.MemOk) : State.MemOk (State.runReadCounters x0 x1) := by
  unfold State.runReadCounters
  apply State.request1_memOk
  · exact h0
  · intro s1 h2
    apply State.reply_memOk
    exact h2

theorem State.runReadHist_memOk (x0 : State) (x1) (h0 : x0.MemOk) : State.MemOk (State.runReadHist x0 x1) := by
  unfold State.runReadHist
  apply State.request1_memOk
  · exact h0
  · intro s1 h2
    extract_lets +onlyGivenNames y3
    clear_value y3
    refine memOk_ite ?_ ?_
    · apply State.reply_memOk
      exact h2
    · apply State.reply_memOk
      exact h2

theorem State.runClearSticky_memOk (x0 : State) (x1) (h0 : x0.MemOk) : State.MemOk (State.runClearSticky x0 x1) := by
  unfold State.runClearSticky
  apply State.request1_memOk
  · exact h0
  · intro s1 h2
    extract_lets +onlyGivenNames y3
    clear_value y3
    apply State.reply_memOk
    (refine ⟨?_⟩; dsimp only; refine State.MemOk.wf ?_)
    exact h2

theorem State.runFwStage_memOk (x0 : State) (x1) (h0 : x0.MemOk) : State.MemOk (State.runFwStage x0 x1) := by
  unfold State.runFwStage
  extract_lets +onlyGivenNames y1
  refine memOk_have (p := State.MemOk y1) ?_ (fun h2 => ?_)
  · unfold y1
    apply State.popRequest_memOk
    exact h0
  clear_value y1
  extract_lets +onlyGivenNames y3
  clear_value y3
  refine memOk_ite ?_ ?_
  · apply State.reply_memOk
    exact h2
  · refine memOk_ite ?_ ?_
    · apply State.reply_memOk
      exact h2
    · extract_lets +onlyGivenNames y4
      clear_value y4
      extract_lets +onlyGivenNames y5
      clear_value y5
      extract_lets +onlyGivenNames y6
      clear_value y6
      extract_lets +onlyGivenNames y7
      clear_value y7
      extract_lets +onlyGivenNames y8
      clear_value y8
      apply State.reply_memOk
      (refine ⟨?_⟩; dsimp only; refine State.MemOk.wf ?_)
      exact h2

theorem State.runRecal_memOk (x0 : State) (x1) (h0 : x0.MemOk) : State.MemOk (State.runRecal x0 x1) := by
  unfold State.runRecal
  apply State.request1_memOk
  · exact h0
  · intro s1 h2
    extract_lets +onlyGivenNames y3
    clear_value y3
    refine memOk_ite ?_ ?_
    · apply State.reply_memOk
      exact h2
    · extract_lets +onlyGivenNames y4
      clear_value y4
      extract_lets +onlyGivenNames y5
      clear_value y5
      extract_lets +onlyGivenNames y6
      refine memOk_have (p := State.MemOk y6) ?_ (fun h7 => ?_)
      · unfold y6
        apply State.writeCal_memOk
        apply State.setPort_memOk
        exact h2
      clear_value y6
      extract_lets +onlyGivenNames y8
      clear_value y8
      apply State.reply_memOk
      apply State.setPort_memOk
      exact h7

theorem State.runQpSetup_memOk (x0 : State) (x1) (h0 : x0.MemOk) : State.MemOk (State.runQpSetup x0 x1) := by
  unfold State.runQpSetup
  apply State.request1_memOk
  · exact h0
  · intro s1 h2
    extract_lets +onlyGivenNames y3
    clear_value y3
    refine memOk_ite ?_ ?_
    · apply State.reply_memOk
      exact h2
    · refine memOk_ite ?_ ?_
      · apply State.reply_memOk
        exact h2
      · extract_lets +onlyGivenNames y4
        clear_value y4
        extract_lets +onlyGivenNames y5
        clear_value y5
        apply State.reply_memOk
        (refine ⟨?_⟩; dsimp only; refine State.MemOk.wf ?_)
        exact h2

theorem State.runQpTeardown_memOk (x0 : State) (x1) (h0 : x0.MemOk) : State.MemOk (State.runQpTeardown x0 x1) := by
  unfold State.runQpTeardown
  apply State.request1_memOk
  · exact h0
  · intro s1 h2
    extract_lets +onlyGivenNames y3
    clear_value y3
    refine memOk_ite ?_ ?_
    · apply State.reply_memOk
      exact h2
    · apply State.reply_memOk
      (refine ⟨?_⟩; dsimp only; refine State.MemOk.wf ?_)
      exact h2

theorem State.runReadLog_memOk (x0 : State) (x1) (h0 : x0.MemOk) : State.MemOk (State.runReadLog x0 x1) := by
  unfold State.runReadLog
  apply State.request1_memOk
  · exact h0
  · intro s1 h2
    extract_lets +onlyGivenNames y3
    clear_value y3
    extract_lets +onlyGivenNames y4
    clear_value y4
    extract_lets +onlyGivenNames y5
    clear_value y5
    apply State.reply_memOk
    exact h2

theorem State.serve_memOk (x0 : State) (x1) (h0 : x0.MemOk) : State.MemOk (State.serve x0 x1) := by
  induction x1 generalizing x0 h0
  · unfold State.serve
    exact h0
  · rename_i r0 ih
    unfold State.serve
    split
    · rename_i z1 z2
      exact h0
    · rename_i z3 z4 z5 z6 z7
      refine memOk_ite ?_ ?_
      · exact h0
      · extract_lets +onlyGivenNames y8
        clear_value y8
        extract_lets +onlyGivenNames y9
        refine memOk_have (p := State.MemOk y9) ?_ (fun h10 => ?_)
        · unfold y9
          (refine ⟨?_⟩; dsimp only; refine State.MemOk.wf ?_)
          exact h0
        clear_value y9
        split
        · rename_i z11 z12
          apply ih
          apply State.runReadCounters_memOk
          exact h0
        · rename_i z13 z14
          apply ih
          apply State.runReadHist_memOk
          exact h0
        · rename_i z15 z16
          apply ih
          apply State.runClearSticky_memOk
          exact h0
        · rename_i z17 z18
          apply ih
          apply State.runFwStage_memOk
          exact h0
        · rename_i z19 z20
          exact h0
        · rename_i z21 z22
          apply ih
          apply State.runRecal_memOk
          exact h0
        · rename_i z23 z24
          exact h0
        · rename_i z25 z26
          apply ih
          apply State.runQpSetup_memOk
          exact h0
        · rename_i z27 z28
          apply ih
          apply State.runQpTeardown_memOk
          exact h0
        · rename_i z29 z30
          apply ih
          apply State.runReadLog_memOk
          exact h0
        · rename_i z31 z32 z33 z34 z35 z36 z37 z38 z39 z40 z41
          apply ih
          apply State.reply_memOk
          exact h10

theorem execCplRetransmit_memOk (x0) (x1 : State) (h1 : x1.MemOk) : Outcome.MemOk (execCplRetransmit x0 x1) := by
  unfold execCplRetransmit
  extract_lets +onlyGivenNames y1
  clear_value y1
  extract_lets +onlyGivenNames y2
  clear_value y2
  extract_lets +onlyGivenNames y3
  clear_value y3
  refine outOk_ite ?_ ?_
  · refine outOk_next ?_
    exact h1
  · refine outOk_ite ?_ ?_
    · refine outOk_next ?_
      apply State.setStream_memOk
      exact h1
    · extract_lets +onlyGivenNames y4
      clear_value y4
      extract_lets +onlyGivenNames y5
      refine memOk_have (p := State.MemOk y5) ?_ (fun h6 => ?_)
      · unfold y5
        apply State.setStream_memOk
        exact h1
      clear_value y5
      refine outOk_next ?_
      apply State.after_memOk
      (refine ⟨?_⟩; dsimp only; refine State.MemOk.wf ?_)
      exact h6

theorem State.deliverSelf_memOk (x0 : State) (x1) (h0 : x0.MemOk) : State.MemOk (State.deliverSelf x0 x1) := by
  unfold State.deliverSelf
  extract_lets +onlyGivenNames y1
  refine memOk_have (p := Outcome.MemOk y1) ?_ (fun h2 => ?_)
  · unfold y1
    split
    · rename_i z3 z4 z5 z6
      apply execRsv_memOk
      exact h0
    · rename_i z7 z8 z9 z10
      apply execAck_memOk
      exact h0
    · rename_i z11 z12 z13 z14
      apply execDeny_memOk
      exact h0
    · rename_i z15 z16 z17 z18
      apply execTear_memOk
      exact h0
    · rename_i z19 z20 z21 z22
      apply execTack_memOk
      exact h0
    · rename_i z23 z24 z25 z26
      apply execCarry_memOk
      exact h0
    · rename_i z27 z28 z29 z30
      apply execDeliveryNack_memOk
      exact h0
    · rename_i z31 z32 z33 z34
      apply execPeerDownNotice_memOk
      exact h0
    · rename_i z35 z36 z37 z38
      apply execMessageAcknowledgement_memOk
      exact h0
    · rename_i z39 z40 z41 z42
      apply execSmallMessage_memOk
      exact h0
    · rename_i z43 z44 z45 z46 z47 z48 z49 z50 z51 z52 z53 z54
      refine outOk_next ?_
      exact h0
  clear_value y1
  split
  · rename_i z55 z56
    exact h2.next _ rfl
  · rename_i z57 z58
    exact h0

theorem State.railsRise_memOk (x0 : State) (h0 : x0.MemOk) : State.MemOk (State.railsRise x0) := by
  unfold State.railsRise
  refine memOk_ite ?_ ?_
  · (refine ⟨?_⟩; dsimp only; refine State.MemOk.wf ?_)
    exact h0
  · exact h0

theorem State.elapse_memOk (x0 : State) (x1) (h0 : x0.MemOk) : State.MemOk (State.elapse x0 x1) := by
  unfold State.elapse
  extract_lets +onlyGivenNames y1
  refine memOk_have (p := State.MemOk y1) ?_ (fun h2 => ?_)
  · unfold y1
    apply State.railsRise_memOk
    apply State.readMark_memOk
    exact h0
  clear_value y1
  extract_lets +onlyGivenNames y3
  clear_value y3
  extract_lets +onlyGivenNames y4
  clear_value y4
  extract_lets +onlyGivenNames y5
  refine memOk_have (p := State.MemOk y5) ?_ (fun h6 => ?_)
  · unfold y5
    apply State.advance_memOk
    apply State.shiftWaits_memOk
    exact h2
  clear_value y5
  extract_lets +onlyGivenNames y7
  clear_value y7
  apply State.posts_memOk
  (refine ⟨?_⟩; dsimp only; refine State.MemOk.wf ?_)
  exact h6

theorem State.commitFlash_memOk (x0 : State) (h0 : x0.MemOk) : State.MemOk (State.commitFlash x0) := by
  unfold State.commitFlash
  (refine ⟨?_⟩; dsimp only; refine State.MemOk.wf ?_)
  exact h0

theorem execFlashCommit_memOk (x0 : State) (h0 : x0.MemOk) : Outcome.MemOk (execFlashCommit x0) := by
  unfold execFlashCommit
  refine outOk_next ?_
  apply State.commitFlash_memOk
  apply State.after_memOk
  exact h0

theorem State.recordFail_memOk (x0 : State) (x1) (h0 : x0.MemOk) : State.MemOk (State.recordFail x0 x1) := by
  unfold State.recordFail
  extract_lets +onlyGivenNames y1
  refine memOk_have (p := State.MemOk y1) ?_ (fun h2 => ?_)
  · unfold y1
    apply State.count_memOk
    exact h0
  clear_value y1
  (refine ⟨?_⟩; dsimp only; refine State.MemOk.wf ?_)
  exact h2

theorem execFailedStart_memOk (x0) (x1 : State) (h1 : x1.MemOk) : Outcome.MemOk (execFailedStart x0 x1) := by
  unfold execFailedStart
  refine outOk_ite ?_ ?_
  · refine outOk_next ?_
    exact h1
  · refine outOk_ite ?_ ?_
    · refine outOk_next ?_
      apply State.after_memOk
      exact h1
    · refine outOk_next ?_
      apply State.recordFail_memOk
      exact h1

theorem execPatrolScrub_memOk (x0) (x1 : State) (h1 : x1.MemOk) : Outcome.MemOk (execPatrolScrub x0 x1) := by
  unfold execPatrolScrub
  extract_lets +onlyGivenNames y1
  clear_value y1
  extract_lets +onlyGivenNames y2
  refine memOk_have (p := State.MemOk y2) ?_ (fun h3 => ?_)
  · unfold y2
    (refine ⟨?_⟩; dsimp only; refine State.MemOk.wf ?_)
    exact h1
  clear_value y2
  refine outOk_next ?_
  refine memOk_ite ?_ ?_
  · apply State.after_memOk
    exact h3
  · exact h3

theorem State.startNext_memOk (x0 : State) (x1) (x2) (h0 : x0.MemOk) : State.MemOk (State.startNext x0 x1 x2) := by
  induction x2 generalizing x0 x1 h0
  · unfold State.startNext
    exact h0
  · rename_i r0 ih
    unfold State.startNext
    extract_lets +onlyGivenNames y1
    clear_value y1
    split
    · rename_i z2 z3
      exact h0
    · rename_i z4 z5 z6 z7 z8
      refine memOk_ite ?_ ?_
      · exact h0
      · extract_lets +onlyGivenNames y9
        clear_value y9
        refine memOk_ite ?_ ?_
        · apply ih
          apply State.cmdDone_memOk
          apply State.setStream_memOk
          exact h0
        · apply State.post_memOk
          exact h0

theorem State.runLaunch_memOk (x0 : State) (x1) (x2) (x3) (h0 : x0.MemOk) : State.MemOk (State.runLaunch x0 x1 x2 x3) := by
  unfold State.runLaunch
  split
  rename_i z1 z2 z3 z4
  refine memOk_have (p := State.MemOk z3) (pairOk_eq z4 ?_) (fun h5 => ?_)
  · apply State.push_memOk
    exact h0
  refine memOk_ite ?_ ?_
  · apply State.cmdWaits_memOk
    exact h5
  · apply State.cmdDone_memOk
    exact h5

theorem startCmd_memOk (x0 : State) (x1) (x2) (x3) (h0 : x0.MemOk) (hk : ∀ s n q l, s.MemOk → State.MemOk (x3 s n q l)) : Outcome.MemOk (startCmd x0 x1 x2 x3) := by
  unfold startCmd
  extract_lets +onlyGivenNames y1
  clear_value y1
  extract_lets +onlyGivenNames y2
  clear_value y2
  split
  · rename_i z3 z4
    refine outOk_next ?_
    exact h0
  · rename_i z5 z6 z7 z8 z9
    refine outOk_ite ?_ ?_
    · refine outOk_next ?_
      exact h0
    · extract_lets +onlyGivenNames y10
      refine memOk_have (p := State.MemOk y10) ?_ (fun h11 => ?_)
      · unfold y10
        apply State.setStream_memOk
        exact h0
      clear_value y10
      extract_lets +onlyGivenNames y12
      refine memOk_have (p := State.MemOk y12) ?_ (fun h13 => ?_)
      · unfold y12
        split
        · rename_i z14 z15 z16
          apply State.cmdDone_memOk
          exact h11
        · rename_i z17 z18
          apply hk
          exact h11
      clear_value y12
      refine outOk_next ?_
      apply State.startNext_memOk
      exact h13

theorem execLaunchCmd_memOk (x0) (x1 : State) (h1 : x1.MemOk) : Outcome.MemOk (execLaunchCmd x0 x1) := by
  unfold execLaunchCmd
  split
  · rename_i z1 z2 z3
    refine outOk_next ?_
    apply State.startNext_memOk
    apply State.runLaunch_memOk
    exact h1
  · rename_i z4 z5
    apply startCmd_memOk
    · exact h1
    · intro s6 a7 a8 a9 h10
      apply State.runLaunch_memOk
      exact h10

theorem execEventWrite_memOk (x0) (x1 : State) (h1 : x1.MemOk) : Outcome.MemOk (execEventWrite x0 x1) := by
  unfold execEventWrite
  apply startCmd_memOk
  · exact h1
  · intro s1 a2 a3 a4 h5
    apply State.runEventWrite_memOk
    exact h5

theorem State.pollStream_memOk (x0 : State) (x1) (x2) (h0 : x0.MemOk) : OptOk (State.pollStream x0 x1 x2) := by
  unfold State.pollStream
  split
  · rename_i z1 z2 z3
    split
    · rename_i z4 z5 z6 z7 z8
      refine optOk_some ?_
      apply State.startNext_memOk
      apply State.pollEvent_memOk
      exact h0
    · rename_i z9 z10
      exact optOk_none
  · rename_i z11 z12
    exact optOk_none

theorem State.runEventWait_memOk (x0 : State) (x1) (x2) (x3) (h0 : x0.MemOk) : State.MemOk (State.runEventWait x0 x1 x2 x3) := by
  unfold State.runEventWait
  extract_lets +onlyGivenNames y1
  clear_value y1
  refine memOk_ite ?_ ?_
  · apply State.cmdDone_memOk
    exact h0
  · refine memOk_ite ?_ ?_
    · apply State.pollEvent_memOk
      exact h0
    · apply State.pollEvent_memOk
      apply State.after_memOk
      exact h0

theorem execEventWait_memOk (x0) (x1 : State) (h1 : x1.MemOk) : Outcome.MemOk (execEventWait x0 x1) := by
  unfold execEventWait
  split
  · rename_i z1 z2 z3
    refine memOk_have (p := State.MemOk z2) (optOk_eq z3 ?_) (fun h4 => ?_)
    · apply State.pollStream_memOk
      exact h1
    refine outOk_next ?_
    exact h4
  · rename_i z5 z6
    apply startCmd_memOk
    · exact h1
    · intro s7 a8 a9 a10 h11
      apply State.runEventWait_memOk
      exact h11

theorem execEventWaitTimeout_memOk (x0) (x1 : State) (h1 : x1.MemOk) : Outcome.MemOk (execEventWaitTimeout x0 x1) := by
  unfold execEventWaitTimeout
  refine outOk_next ?_
  refine optOk_getD ?_ ?_
  · apply State.pollStream_memOk
    exact h1
  · exact h1

theorem State.runScript_memOk (x0 : State) (x1) (x2) (x3) (h0 : x0.MemOk) : State.MemOk (State.runScript x0 x1 x2 x3) := by
  unfold State.runScript
  extract_lets +onlyGivenNames y1
  clear_value y1
  refine memOk_ite ?_ ?_
  · apply State.cmdDone_memOk
    exact h0
  · refine memOk_ite ?_ ?_
    · apply State.cmdWaits_memOk
      exact h0
    · split
      · rename_i z2 z3
        apply State.cmdDone_memOk
        exact h0
      · rename_i z4 z5 z6
        apply State.cmdWaits_memOk
        apply State.startThread_memOk
        exact h0

theorem execScriptStart_memOk (x0) (x1 : State) (h1 : x1.MemOk) : Outcome.MemOk (execScriptStart x0 x1) := by
  unfold execScriptStart
  apply startCmd_memOk
  · exact h1
  · intro s1 a2 a3 a4 h5
    apply State.runScript_memOk
    exact h5

theorem State.runColl_memOk (x0 : State) (x1) (x2) (x3) (h0 : x0.MemOk) : State.MemOk (State.runColl x0 x1 x2 x3) := by
  unfold State.runColl
  apply State.collStart_memOk
  apply State.cmdWaits_memOk
  exact h0

theorem execCollStart_memOk (x0) (x1 : State) (h1 : x1.MemOk) : Outcome.MemOk (execCollStart x0 x1) := by
  unfold execCollStart
  apply startCmd_memOk
  · exact h1
  · intro s1 a2 a3 a4 h5
    apply State.runColl_memOk
    exact h5

theorem State.runFence_memOk (x0 : State) (x1) (x2) (x3) (h0 : x0.MemOk) : State.MemOk (State.runFence x0 x1 x2 x3) := by
  unfold State.runFence
  extract_lets +onlyGivenNames y1
  clear_value y1
  refine memOk_ite ?_ ?_
  · apply State.cmdDone_memOk
    (refine ⟨?_⟩; dsimp only; refine State.MemOk.wf ?_)
    exact h0
  · apply State.cmdWaits_memOk
    exact h0

theorem execFenceCmd_memOk (x0) (x1 : State) (h1 : x1.MemOk) : Outcome.MemOk (execFenceCmd x0 x1) := by
  unfold execFenceCmd
  split
  · rename_i z1 z2 z3
    refine outOk_next ?_
    apply State.startNext_memOk
    apply State.runFence_memOk
    exact h1
  · rename_i z4 z5
    apply startCmd_memOk
    · exact h1
    · intro s6 a7 a8 a9 h10
      apply State.runFence_memOk
      exact h10

theorem State.runResolve_memOk (x0 : State) (x1) (x2) (x3) (x4) (h0 : x0.MemOk) (hk : ∀ s n b, s.MemOk → State.MemOk (x4 s n b)) : State.MemOk (State.runResolve x0 x1 x2 x3 x4) := by
  unfold State.runResolve
  refine memOk_ite ?_ ?_
  · apply State.cmdDone_memOk
    exact h0
  · split
    · rename_i z1 z2
      apply State.cmdDone_memOk
      exact h0
    · rename_i z3 z4 z5
      extract_lets +onlyGivenNames y6
      refine memOk_have (p := State.MemOk y6) ?_ (fun h7 => ?_)
      · unfold y6
        (refine ⟨?_⟩; dsimp only; refine State.MemOk.wf ?_)
        exact h0
      clear_value y6
      extract_lets +onlyGivenNames y8
      clear_value y8
      extract_lets +onlyGivenNames y9
      clear_value y9
      extract_lets +onlyGivenNames y10
      refine memOk_have (p := State.MemOk y10) ?_ (fun h11 => ?_)
      · unfold y10
        refine memOk_ite ?_ ?_
        · apply State.failWaiter_memOk
          exact h7
        · apply State.retryWaiter_memOk
          apply State.invalidate_memOk
          exact h7
      clear_value y10
      extract_lets +onlyGivenNames y12
      refine memOk_have (p := State.MemOk y12) ?_ (fun h13 => ?_)
      · unfold y12
        split
        · rename_i z14 z15 z16
          apply hk
          exact h11
        · rename_i z17 z18
          exact h11
      clear_value y12
      apply State.cmdDone_memOk
      apply State.updCtx_memOk
      exact h13

theorem execResolve_memOk (x0) (x1 : State) (h1 : x1.MemOk) : Outcome.MemOk (execResolve x0 x1) := by
  unfold execResolve
  apply startCmd_memOk
  · exact h1
  · intro s1 a2 a3 a4 h5
    extract_lets +onlyGivenNames y6
    clear_value y6
    split
    · rename_i z7 z8 z9
      apply State.runResolve_memOk
      · exact h5
      · intro s10 a11 a12 h13
        apply State.startNext_memOk
        apply State.resumeStream_memOk
        exact h13
    · rename_i z14 z15
      apply State.runResolve_memOk
      · exact h5
      · intro s16 a17 a18 h19
        exact h19

theorem State.runShootdown_memOk (x0 : State) (x1) (x2) (x3) (h0 : x0.MemOk) : State.MemOk (State.runShootdown x0 x1 x2 x3) := by
  unfold State.runShootdown
  extract_lets +onlyGivenNames y1
  clear_value y1
  extract_lets +onlyGivenNames y2
  clear_value y2
  refine memOk_ite ?_ ?_
  · apply State.cmdDone_memOk
    exact h0
  · apply State.cmdDone_memOk
    apply State.invalidate_memOk
    exact h0

theorem execShootdown_memOk (x0) (x1 : State) (h1 : x1.MemOk) : Outcome.MemOk (execShootdown x0 x1) := by
  unfold execShootdown
  apply startCmd_memOk
  · exact h1
  · intro s1 a2 a3 a4 h5
    apply State.runShootdown_memOk
    exact h5

theorem State.openStream_memOk (x0 : State) (x1) (x2) (h0 : x0.MemOk) : State.MemOk (State.openStream x0 x1 x2) := by
  unfold State.openStream
  extract_lets +onlyGivenNames y1
  clear_value y1
  apply State.setStream_memOk
  exact h0

theorem State.runCreate_memOk (x0 : State) (x1) (x2) (x3) (h0 : x0.MemOk) : State.MemOk (State.runCreate x0 x1 x2 x3) := by
  unfold State.runCreate
  extract_lets +onlyGivenNames y1
  clear_value y1
  extract_lets +onlyGivenNames y2
  clear_value y2
  refine memOk_ite ?_ ?_
  · apply State.cmdDone_memOk
    exact h0
  · refine memOk_ite ?_ ?_
    · apply State.cmdDone_memOk
      exact h0
    · extract_lets +onlyGivenNames y3
      clear_value y3
      extract_lets +onlyGivenNames y4
      clear_value y4
      extract_lets +onlyGivenNames y5
      clear_value y5
      extract_lets +onlyGivenNames y6
      clear_value y6
      extract_lets +onlyGivenNames y7
      clear_value y7
      extract_lets +onlyGivenNames y8
      refine memOk_have (p := State.MemOk y8) ?_ (fun h9 => ?_)
      · unfold y8
        (refine ⟨?_⟩; dsimp only; refine State.MemOk.wf ?_)
        exact h0
      clear_value y8
      extract_lets +onlyGivenNames y10
      refine memOk_have (p := State.MemOk y10) ?_ (fun h11 => ?_)
      · unfold y10
        apply State.setCtx_memOk
        exact h9
      clear_value y10
      extract_lets +onlyGivenNames y12
      clear_value y12
      extract_lets +onlyGivenNames y13
      refine memOk_have (p := State.MemOk y13) ?_ (fun h14 => ?_)
      · unfold y13
        apply State.each_memOk
        · exact h11
        · intro s15 a16 h17
          apply State.setHq_memOk
          exact h17
      clear_value y13
      extract_lets +onlyGivenNames y18
      refine memOk_have (p := State.MemOk y18) ?_ (fun h19 => ?_)
      · unfold y18
        apply State.each_memOk
        · exact h14
        · intro s20 a21 h22
          apply State.openStream_memOk
          exact h22
      clear_value y18
      extract_lets +onlyGivenNames y23
      clear_value y23
      extract_lets +onlyGivenNames y24
      refine memOk_have (p := State.MemOk y24) ?_ (fun h25 => ?_)
      · unfold y24
        apply State.each_memOk
        · exact h19
        · intro s26 a27 h28
          (refine ⟨?_⟩; dsimp only; refine State.MemOk.wf ?_)
          exact h28
      clear_value y24
      apply State.cmdDone_memOk
      exact h25

theorem execContextCreate_memOk (x0) (x1 : State) (h1 : x1.MemOk) : Outcome.MemOk (execContextCreate x0 x1) := by
  unfold execContextCreate
  apply startCmd_memOk
  · exact h1
  · intro s1 a2 a3 a4 h5
    apply State.runCreate_memOk
    exact h5

theorem State.runReset_memOk (x0 : State) (x1) (x2) (x3) (h0 : x0.MemOk) : State.MemOk (State.runReset x0 x1 x2 x3) := by
  unfold State.runReset
  apply State.cmdDone_memOk
  apply State.resetCtx_memOk
  exact h0

theorem execContextReset_memOk (x0) (x1 : State) (h1 : x1.MemOk) : Outcome.MemOk (execContextReset x0 x1) := by
  unfold execContextReset
  apply startCmd_memOk
  · exact h1
  · intro s1 a2 a3 a4 h5
    apply State.runReset_memOk
    exact h5

theorem State.runDestroy_memOk (x0 : State) (x1) (x2) (x3) (h0 : x0.MemOk) : State.MemOk (State.runDestroy x0 x1 x2 x3) := by
  unfold State.runDestroy
  apply State.cmdDone_memOk
  apply State.dropCtx_memOk
  apply State.resetCtx_memOk
  exact h0

theorem execContextDestroy_memOk (x0) (x1 : State) (h1 : x1.MemOk) : Outcome.MemOk (execContextDestroy x0 x1) := by
  unfold execContextDestroy
  apply startCmd_memOk
  · exact h1
  · intro s1 a2 a3 a4 h5
    apply State.runDestroy_memOk
    exact h5

theorem State.attest_memOk (x0 : State) (x1) (h0 : x0.MemOk) : PairOk (State.attest x0 x1) := by
  unfold State.attest
  split
  rename_i z1 z2 z3 z4
  refine memOk_have (p := State.MemOk z3) (pairOk_eq z4 ?_) (fun h5 => ?_)
  · apply State.takeFree_memOk
    exact h0
  extract_lets +onlyGivenNames y6
  clear_value y6
  refine pairOk_mk ?_
  exact h5

theorem State.queryData_memOk (x0 : State) (x1) (x2) (x3) (x4) (h0 : x0.MemOk) : PairOk (State.queryData x0 x1 x2 x3 x4) := by
  unfold State.queryData
  dsimp only
  split
  · rename_i z1
    refine pairOk_mk ?_
    exact h0
  · rename_i z2
    refine pairOk_mk ?_
    exact h0
  · rename_i z3
    refine pairOk_mk ?_
    exact h0
  · rename_i z4
    refine pairOk_mk ?_
    exact h0
  · rename_i z5
    refine pairOk_mk ?_
    exact h0
  · rename_i z6
    refine pairOk_mk ?_
    exact h0
  · rename_i z7
    refine pairOk_mk ?_
    exact h0
  · rename_i z8
    refine pairOk_mk ?_
    exact h0
  · rename_i z9
    refine pairOk_ite ?_ ?_
    · refine pairOk_mk ?_
      refine pairOk_fst ?_
      apply State.attest_memOk
      exact h0
    · refine pairOk_mk ?_
      exact h0
  · rename_i z10
    refine pairOk_mk ?_
    exact h0
  · rename_i z11
    refine pairOk_mk ?_
    exact h0
  · rename_i z12
    refine pairOk_mk ?_
    exact h0
  · rename_i z13 z14 z15 z16 z17 z18 z19 z20 z21 z22 z23 z24 z25
    refine pairOk_mk ?_
    exact h0

theorem State.runQuery_memOk (x0 : State) (x1) (x2) (x3) (h0 : x0.MemOk) : State.MemOk (State.runQuery x0 x1 x2 x3) := by
  unfold State.runQuery
  split
  · rename_i z1 z2 z3 z4
    refine memOk_have (p := State.MemOk z3) (pairOk_eq z4 ?_) (fun h5 => ?_)
    · apply State.queryData_memOk
      exact h0
    apply State.cmdDone_memOk
    exact h5
  · rename_i z6 z7 z8
    refine memOk_have (p := State.MemOk z7) (pairOk_eq z8 ?_) (fun h9 => ?_)
    · apply State.queryData_memOk
      exact h0
    apply State.cmdDone_memOk
    exact h9

theorem execQuery_memOk (x0) (x1 : State) (h1 : x1.MemOk) : Outcome.MemOk (execQuery x0 x1) := by
  unfold execQuery
  apply startCmd_memOk
  · exact h1
  · intro s1 a2 a3 a4 h5
    apply State.runQuery_memOk
    exact h5

theorem State.runResync_memOk (x0 : State) (x1) (x2) (x3) (h0 : x0.MemOk) : State.MemOk (State.runResync x0 x1 x2 x3) := by
  unfold State.runResync
  apply State.cmdDone_memOk
  exact h0

theorem execResync_memOk (x0) (x1 : State) (h1 : x1.MemOk) : Outcome.MemOk (execResync x0 x1) := by
  unfold execResync
  apply startCmd_memOk
  · exact h1
  · intro s1 a2 a3 a4 h5
    apply State.runResync_memOk
    exact h5

theorem State.releaseHeld_memOk (x0 : State) (h0 : x0.MemOk) : State.MemOk (State.releaseHeld x0) := by
  unfold State.releaseHeld
  apply State.each_memOk
  · exact h0
  · intro s1 a2 h3
    apply State.each_memOk
    · exact h3
    · intro s4 a5 h6
      refine memOk_ite ?_ ?_
      · apply State.runScript_memOk
        exact h6
      · apply State.runColl_memOk
        exact h6

theorem State.showPending_memOk (x0 : State) (h0 : x0.MemOk) : State.MemOk (State.showPending x0) := by
  unfold State.showPending
  (refine ⟨?_⟩; dsimp only; refine State.MemOk.wf ?_)
  exact h0

theorem State.switchOver_memOk (x0 : State) (h0 : x0.MemOk) : State.MemOk (State.switchOver x0) := by
  unfold State.switchOver
  extract_lets +onlyGivenNames y1
  refine memOk_have (p := State.MemOk y1) ?_ (fun h2 => ?_)
  · unfold y1
    apply State.releaseHeld_memOk
    apply State.showPending_memOk
    exact h0
  clear_value y1
  apply State.tellAll_memOk
  apply State.tryPlace_memOk
  apply State.serve_memOk
  exact h2

theorem execFwSwitchTimeout_memOk (x0) (x1 : State) (h1 : x1.MemOk) : Outcome.MemOk (execFwSwitchTimeout x0 x1) := by
  unfold execFwSwitchTimeout
  extract_lets +onlyGivenNames y1
  clear_value y1
  split
  · rename_i z2 z3
    refine outOk_next ?_
    exact h1
  · rename_i z4 z5 z6
    refine outOk_ite ?_ ?_
    · refine outOk_next ?_
      exact h1
    · extract_lets +onlyGivenNames y7
      clear_value y7
      extract_lets +onlyGivenNames y8
      refine memOk_have (p := State.MemOk y8) ?_ (fun h9 => ?_)
      · unfold y8
        (refine ⟨?_⟩; dsimp only; refine State.MemOk.wf ?_)
        exact h1
      clear_value y8
      refine outOk_next ?_
      apply State.switchOver_memOk
      apply State.reply_memOk
      exact h9

theorem execCounterWaitBackoff_memOk (x0) (x1 : State) (h1 : x1.MemOk) : Outcome.MemOk (execCounterWaitBackoff x0 x1) := by
  unfold execCounterWaitBackoff
  split
  · rename_i z1 z2
    refine outOk_next ?_
    refine optOk_getD ?_ ?_
    · apply State.pollStream_memOk
      exact h1
    · exact h1
  · rename_i z3 z4
    refine outOk_next ?_
    apply State.slotBackoff_memOk
    exact h1

theorem execPowerOnHours_memOk (x0 : State) (h0 : x0.MemOk) : Outcome.MemOk (execPowerOnHours x0) := by
  unfold execPowerOnHours
  extract_lets +onlyGivenNames y1
  refine memOk_have (p := State.MemOk y1) ?_ (fun h2 => ?_)
  · unfold y1
    apply State.after_memOk
    exact h0
  clear_value y1
  extract_lets +onlyGivenNames y3
  refine memOk_have (p := State.MemOk y3) ?_ (fun h4 => ?_)
  · unfold y3
    apply State.count_memOk
    exact h2
  clear_value y3
  extract_lets +onlyGivenNames y5
  refine memOk_have (p := State.MemOk y5) ?_ (fun h6 => ?_)
  · unfold y5
    apply State.each_memOk
    · exact h4
    · intro s7 a8 h9
      apply State.each_memOk
      · exact h9
      · intro s10 a11 h12
        apply State.count_memOk
        exact h12
  clear_value y5
  extract_lets +onlyGivenNames y13
  refine memOk_have (p := State.MemOk y13) ?_ (fun h14 => ?_)
  · unfold y13
    apply State.each_memOk
    · exact h6
    · intro s15 a16 h17
      apply State.bin_memOk
      exact h17
  clear_value y13
  extract_lets +onlyGivenNames y18
  refine memOk_have (p := State.MemOk y18) ?_ (fun h19 => ?_)
  · unfold y18
    apply State.bin_memOk
    exact h14
  clear_value y18
  refine outOk_next ?_
  (refine ⟨?_⟩; dsimp only; refine State.MemOk.wf ?_)
  exact h19

theorem State.openHost_memOk (x0 : State) (x1) (h0 : x0.MemOk) : State.MemOk (State.openHost x0 x1) := by
  unfold State.openHost
  (refine ⟨?_⟩; dsimp only; refine State.MemOk.wf ?_)
  exact h0

theorem State.linkDowns_memOk (x0 : State) (x1) (h0 : x0.MemOk) : State.MemOk (State.linkDowns x0 x1) := by
  unfold State.linkDowns
  extract_lets +onlyGivenNames y1
  refine memOk_have (p := State.MemOk y1) ?_ (fun h2 => ?_)
  · unfold y1
    apply State.each_memOk
    · exact h0
    · intro s3 a4 h5
      extract_lets +onlyGivenNames y6
      clear_value y6
      extract_lets +onlyGivenNames y7
      refine memOk_have (p := State.MemOk y7) ?_ (fun h8 => ?_)
      · unfold y7
        (refine ⟨?_⟩; dsimp only; refine State.MemOk.wf ?_)
        exact h5
      clear_value y7
      apply State.logEntry_memOk
      exact h8
  clear_value y1
  apply State.each_memOk
  · exact h2
  · intro s9 a10 h11
    apply State.setPort_memOk
    apply State.setPort_memOk
    exact h11

theorem State.boot_memOk (x0 : State) (x1) (x2) (h0 : x0.MemOk) : State.MemOk (State.boot x0 x1 x2) := by
  unfold State.boot
  extract_lets +onlyGivenNames y1
  refine memOk_have (p := State.MemOk y1) ?_ (fun h2 => ?_)
  · unfold y1
    refine memOk_ite ?_ ?_
    · apply State.recordFail_memOk
      exact h0
    · exact h0
  clear_value y1
  extract_lets +onlyGivenNames y3
  extract_lets +onlyGivenNames y4
  clear_value y4
  extract_lets +onlyGivenNames y5
  clear_value y5
  extract_lets +onlyGivenNames y6
  refine memOk_have (p := State.MemOk y6) ?_ (fun h7 => ?_)
  · unfold y6
    apply State.count_memOk
    exact h2
  clear_value y6
  extract_lets +onlyGivenNames y8
  clear_value y8
  extract_lets +onlyGivenNames y9
  refine memOk_have (p := State.MemOk y9) ?_ (fun h10 => ?_)
  · unfold y9
    apply State.logEntry_memOk
    exact h7
  clear_value y9
  extract_lets +onlyGivenNames y11
  clear_value y11
  extract_lets +onlyGivenNames y12
  clear_value y12
  extract_lets +onlyGivenNames y13
  clear_value y13
  extract_lets +onlyGivenNames y14
  clear_value y14
  refine memOk_ite ?_ ?_
  · (refine ⟨?_⟩; dsimp only; refine State.MemOk.wf ?_)
    exact h10
  · extract_lets +onlyGivenNames y15
    clear_value y15
    extract_lets +onlyGivenNames y16
    refine memOk_have (p := State.MemOk y16) ?_ (fun h17 => ?_)
    · unfold y16
      (refine ⟨?_⟩; dsimp only; refine State.MemOk.wf ?_)
      exact h10
    clear_value y16
    extract_lets +onlyGivenNames y18
    clear_value y18
    refine memOk_ite ?_ ?_
    · apply State.openHost_memOk
      (refine ⟨?_⟩; dsimp only; refine State.MemOk.wf ?_)
      exact h17
    · refine memOk_ite ?_ ?_
      · extract_lets +onlyGivenNames y19
        refine memOk_have (p := State.MemOk y19) ?_ (fun h20 => ?_)
        · unfold y19
          apply State.linkDowns_memOk
          (refine ⟨?_⟩; dsimp only; refine State.MemOk.wf ?_)
          exact h17
        clear_value y19
        refine memOk_ite ?_ ?_
        · apply State.openHost_memOk
          exact h20
        · exact h20
      · apply State.openHost_memOk
        apply State.linkDowns_memOk
        (refine ⟨?_⟩; dsimp only; refine State.MemOk.wf ?_)
        exact h17

theorem State.lose_memOk (x0 : State) (_h0 : x0.MemOk) : State.MemOk (State.lose x0) := by
  exact ⟨rfl⟩

theorem execPowerOn_memOk (x0) (x1 : State) (h1 : x1.MemOk) : Outcome.MemOk (execPowerOn x0 x1) := by
  unfold execPowerOn
  refine outOk_ite ?_ ?_
  · refine outOk_next ?_
    exact h1
  · refine outOk_next ?_
    apply State.boot_memOk
    extract_lets +onlyGivenNames y1
    refine memOk_have (p := State.MemOk y1) ?_ (fun h2 => ?_)
    · unfold y1
      apply State.lose_memOk
      exact h1
    clear_value y1
    (refine ⟨?_⟩; dsimp only; refine State.MemOk.wf ?_)
    exact h2

theorem execModrstNAssert_memOk (x0) (x1 : State) (h1 : x1.MemOk) : Outcome.MemOk (execModrstNAssert x0 x1) := by
  unfold execModrstNAssert
  extract_lets +onlyGivenNames y1
  clear_value y1
  extract_lets +onlyGivenNames y2
  refine memOk_have (p := State.MemOk y2) ?_ (fun h3 => ?_)
  · unfold y2
    (refine ⟨?_⟩; dsimp only; refine State.MemOk.wf ?_)
    exact h1
  clear_value y2
  refine outOk_next ?_
  refine memOk_ite ?_ ?_
  · apply State.boot_memOk
    apply State.lose_memOk
    (refine ⟨?_⟩; dsimp only; refine State.MemOk.wf ?_)
    exact h3
  · exact h3

theorem execUvwarn_memOk (x0 : State) (h0 : x0.MemOk) : Outcome.MemOk (execUvwarn x0) := by
  unfold execUvwarn
  refine outOk_next ?_
  (refine ⟨?_⟩; dsimp only; refine State.MemOk.wf ?_)
  exact h0

theorem execInputShutdown_memOk (x0 : State) (h0 : x0.MemOk) : Outcome.MemOk (execInputShutdown x0) := by
  unfold execInputShutdown
  refine outOk_next ?_
  refine memOk_ite ?_ ?_
  · extract_lets +onlyGivenNames y1
    refine memOk_have (p := State.MemOk y1) ?_ (fun h2 => ?_)
    · unfold y1
      apply State.lose_memOk
      exact h0
    clear_value y1
    (refine ⟨?_⟩; dsimp only; refine State.MemOk.wf ?_)
    exact h2
  · exact h0

theorem execOvoff_memOk (x0 : State) (h0 : x0.MemOk) : Outcome.MemOk (execOvoff x0) := by
  unfold execOvoff
  extract_lets +onlyGivenNames y1
  refine memOk_have (p := State.MemOk y1) ?_ (fun h2 => ?_)
  · unfold y1
    refine memOk_ite ?_ ?_
    · apply State.lose_memOk
      exact h0
    · exact h0
  clear_value y1
  refine outOk_next ?_
  (refine ⟨?_⟩; dsimp only; refine State.MemOk.wf ?_)
  exact h2

theorem execInputReconnect_memOk (x0) (x1 : State) (h1 : x1.MemOk) : Outcome.MemOk (execInputReconnect x0 x1) := by
  unfold execInputReconnect
  refine outOk_ite ?_ ?_
  · refine outOk_next ?_
    exact h1
  · refine outOk_next ?_
    apply State.boot_memOk
    extract_lets +onlyGivenNames y1
    refine memOk_have (p := State.MemOk y1) ?_ (fun h2 => ?_)
    · unfold y1
      apply State.lose_memOk
      exact h1
    clear_value y1
    (refine ⟨?_⟩; dsimp only; refine State.MemOk.wf ?_)
    exact h2

theorem State.dropWaves_memOk (x0 : State) (x1) (h0 : x0.MemOk) : State.MemOk (State.dropWaves x0 x1) := by
  unfold State.dropWaves
  extract_lets +onlyGivenNames y1
  clear_value y1
  extract_lets +onlyGivenNames y2
  clear_value y2
  extract_lets +onlyGivenNames y3
  clear_value y3
  (refine ⟨?_⟩; dsimp only; refine State.MemOk.wf ?_)
  exact h0

theorem State.stopStart_memOk (x0 : State) (x1) (h0 : x0.MemOk) : State.MemOk (State.stopStart x0 x1) := by
  unfold State.stopStart
  split
  · rename_i z1 z2 z3
    apply State.retireStart_memOk
    exact h0
  · rename_i z4 z5 z6
    split
    · rename_i z7 z8 z9
      apply State.retireStart_memOk
      exact h0
    · rename_i z10 z11
      exact h0
  · rename_i z12 z13 z14
    exact h0

theorem State.endWork_memOk (x0 : State) (x1) (h0 : x0.MemOk) : State.MemOk (State.endWork x0 x1) := by
  unfold State.endWork
  refine memOk_ite ?_ ?_
  · apply State.tellAll_memOk
    apply State.tryPlace_memOk
    apply State.releaseHeld_memOk
    apply State.showPending_memOk
    (refine ⟨?_⟩; dsimp only; refine State.MemOk.wf ?_)
    exact h0
  · refine memOk_ite ?_ ?_
    · extract_lets +onlyGivenNames y1
      clear_value y1
      extract_lets +onlyGivenNames y2
      clear_value y2
      extract_lets +onlyGivenNames y3
      refine memOk_have (p := State.MemOk y3) ?_ (fun h4 => ?_)
      · unfold y3
        (refine ⟨?_⟩; dsimp only; refine State.MemOk.wf ?_)
        exact h0
      clear_value y3
      extract_lets +onlyGivenNames y5
      refine memOk_have (p := State.MemOk y5) ?_ (fun h6 => ?_)
      · unfold y5
        apply State.dropWaves_memOk
        exact h4
      clear_value y5
      apply State.tryPlace_memOk
      apply State.each_memOk
      · exact h6
      · intro s7 a8 h9
        apply State.each_memOk
        · exact h9
        · intro s10 a11 h12
          apply State.removeBlock_memOk
          exact h12
    · refine memOk_ite ?_ ?_
      · apply State.each_memOk
        · exact h0
        · intro s13 a14 h15
          refine memOk_ite ?_ ?_
          · exact h15
          · extract_lets +onlyGivenNames y16
            refine memOk_have (p := State.MemOk y16) ?_ (fun h17 => ?_)
            · unfold y16
              apply State.gComplete_memOk
              exact h15
            clear_value y16
            extract_lets +onlyGivenNames y18
            clear_value y18
            extract_lets +onlyGivenNames y19
            refine memOk_have (p := State.MemOk y19) ?_ (fun h20 => ?_)
            · unfold y19
              apply State.setGth_memOk
              exact h17
            clear_value y19
            (refine ⟨?_⟩; dsimp only; refine State.MemOk.wf ?_)
            exact h20
      · refine memOk_ite ?_ ?_
        · extract_lets +onlyGivenNames y21
          clear_value y21
          extract_lets +onlyGivenNames y22
          refine memOk_have (p := State.MemOk y22) ?_ (fun h23 => ?_)
          · unfold y22
            (refine ⟨?_⟩; dsimp only; refine State.MemOk.wf ?_)
            exact h0
          clear_value y22
          extract_lets +onlyGivenNames y24
          refine memOk_have (p := State.MemOk y24) ?_ (fun h25 => ?_)
          · unfold y24
            apply State.each_memOk
            · exact h23
            · intro s26 a27 h28
              apply State.stopStart_memOk
              exact h28
          clear_value y24
          apply State.each_memOk
          · exact h25
          · intro s29 a30 h31
            apply State.stopInstance_memOk
            exact h31
        · refine memOk_ite ?_ ?_
          · apply State.each_memOk
            · exact h0
            · intro s32 a33 h34
              apply State.updWave_memOk
              exact h34
          · exact h0

theorem execSoftError_memOk (x0) (x1 : State) (h1 : x1.MemOk) : Outcome.MemOk (execSoftError x0 x1) := by
  unfold execSoftError
  refine outOk_ite ?_ ?_
  · refine outOk_next ?_
    exact h1
  · refine outOk_ite ?_ ?_
    · refine outOk_next ?_
      apply State.count_memOk
      exact h1
    · extract_lets +onlyGivenNames y1
      refine memOk_have (p := State.MemOk y1) ?_ (fun h2 => ?_)
      · unfold y1
        apply State.logEntry_memOk
        apply State.count_memOk
        exact h1
      clear_value y1
      extract_lets +onlyGivenNames y3
      clear_value y3
      extract_lets +onlyGivenNames y4
      refine memOk_have (p := State.MemOk y4) ?_ (fun h5 => ?_)
      · unfold y4
        (refine ⟨?_⟩; dsimp only; refine State.MemOk.wf ?_)
        exact h2
      clear_value y4
      split
      · rename_i z6 z7 z8
        refine outOk_next ?_
        apply State.fatalCtx_memOk
        exact h5
      · rename_i z9 z10 z11
        refine outOk_next ?_
        refine memOk_ite ?_ ?_
        · apply State.logEntry_memOk
          apply State.endWork_memOk
          exact h5
        · exact h5
      · rename_i z12 z13
        refine outOk_next ?_
        exact h5

theorem State.badFrame_memOk (x0 : State) (h0 : x0.MemOk) : State.MemOk (State.badFrame x0) := by
  unfold State.badFrame
  (refine ⟨?_⟩; dsimp only; refine State.MemOk.wf ?_)
  exact h0

theorem execCmdPacket_memOk (x0) (x1 : State) (h1 : x1.MemOk) : Outcome.MemOk (execCmdPacket x0 x1) := by
  unfold execCmdPacket
  refine outOk_ite ?_ ?_
  · refine outOk_next ?_
    exact h1
  · extract_lets +onlyGivenNames y1
    clear_value y1
    extract_lets +onlyGivenNames y2
    refine memOk_have (p := State.MemOk y2) ?_ (fun h3 => ?_)
    · unfold y2
      apply State.unstall_memOk
      exact h1
    clear_value y2
    refine outOk_ite ?_ ?_
    · refine outOk_next ?_
      apply State.sendAck_memOk
      exact h3
    · extract_lets +onlyGivenNames y4
      clear_value y4
      refine outOk_ite ?_ ?_
      · refine outOk_next ?_
        apply State.startNext_memOk
        apply State.sendAck_memOk
        apply State.setStream_memOk
        exact h3
      · refine outOk_next ?_
        apply State.sendAck_memOk
        exact h3

theorem State.forgetStream_memOk (x0 : State) (x1) (h0 : x0.MemOk) : State.MemOk (State.forgetStream x0 x1) := by
  unfold State.forgetStream
  extract_lets +onlyGivenNames y1
  clear_value y1
  refine memOk_ite ?_ ?_
  · (refine ⟨?_⟩; dsimp only; refine State.MemOk.wf ?_)
    exact h0
  · exact h0

theorem State.releaseCpl_memOk (x0 : State) (x1) (x2) (h0 : x0.MemOk) : State.MemOk (State.releaseCpl x0 x1 x2) := by
  induction x2 generalizing x0 x1 h0
  · unfold State.releaseCpl
    exact h0
  · rename_i r0 ih
    unfold State.releaseCpl
    extract_lets +onlyGivenNames y1
    clear_value y1
    split
    · rename_i z2 z3
      exact h0
    · rename_i z4 z5 z6 z7 z8
      refine memOk_ite ?_ ?_
      · exact h0
      · apply ih
        apply State.sendCpl_memOk
        apply State.setStream_memOk
        exact h0

theorem execHostAck_memOk (x0) (x1 : State) (h1 : x1.MemOk) : Outcome.MemOk (execHostAck x0 x1) := by
  unfold execHostAck
  refine outOk_ite ?_ ?_
  · refine outOk_next ?_
    exact h1
  · extract_lets +onlyGivenNames y1
    clear_value y1
    extract_lets +onlyGivenNames y2
    refine memOk_have (p := State.MemOk y2) ?_ (fun h3 => ?_)
    · unfold y2
      apply State.unstall_memOk
      exact h1
    clear_value y2
    extract_lets +onlyGivenNames y4
    clear_value y4
    refine outOk_ite ?_ ?_
    · refine outOk_next ?_
      exact h3
    · extract_lets +onlyGivenNames y5
      refine memOk_have (p := State.MemOk y5) ?_ (fun h6 => ?_)
      · unfold y5
        apply State.setStream_memOk
        exact h3
      clear_value y5
      refine outOk_next ?_
      apply State.forgetStream_memOk
      apply State.startNext_memOk
      apply State.releaseCpl_memOk
      exact h6

theorem State.rdmaAnswer_memOk (x0 : State) (x1) (x2) (h0 : x0.MemOk) : State.MemOk (State.rdmaAnswer x0 x1 x2) := by
  unfold State.rdmaAnswer
  split
  · rename_i z1 z2
    exact h0
  · rename_i z3 z4 z5
    extract_lets +onlyGivenNames y6
    clear_value y6
    extract_lets +onlyGivenNames y7
    clear_value y7
    extract_lets +onlyGivenNames y8
    clear_value y8
    extract_lets +onlyGivenNames y9
    clear_value y9
    (refine ⟨?_⟩; dsimp only; refine State.MemOk.wf ?_)
    exact h0

theorem State.onQp_memOk (x0 : State) (x1) (x2) (x3) (x4) (x5) (h0 : x0.MemOk) (hk : ∀ s, s.MemOk → PairOk (x5 s)) : Outcome.MemOk (State.onQp x0 x1 x2 x3 x4 x5) := by
  unfold State.onQp
  split
  · rename_i z1 z2
    refine outOk_next ?_
    (refine ⟨?_⟩; dsimp only; refine State.MemOk.wf ?_)
    exact h0
  · rename_i z3 z4 z5
    extract_lets +onlyGivenNames y6
    clear_value y6
    dsimp only
    refine outOk_ite ?_ ?_
    · refine outOk_next ?_
      apply State.rdmaAnswer_memOk
      refine pairOk_fst ?_
      apply hk
      (refine ⟨?_⟩; dsimp only; refine State.MemOk.wf ?_)
      exact h0
    · refine outOk_ite ?_ ?_
      · refine outOk_next ?_
        apply State.rdmaAnswer_memOk
        exact h0
      · refine outOk_ite ?_ ?_
        · refine outOk_next ?_
          apply State.rdmaAnswer_memOk
          exact h0
        · refine outOk_next ?_
          apply State.rdmaAnswer_memOk
          refine pairOk_fst ?_
          apply hk
          exact h0

theorem State.ownerKeys_memOk (x0 : State) (x1) (x2) (x3) (x4) (h0 : x0.MemOk) : PairOk (State.ownerKeys x0 x1 x2 x3 x4) := by
  unfold State.ownerKeys
  refine pairOk_foldl (fun s1 a2 h3 => ?_) _ _ ?_
  · split
    · rename_i z4 z5 z6
      exact h3
    · rename_i z7 z8 z9
      split
      · rename_i z10 z11 z12 z13
        refine memOk_have (p := State.MemOk z12) (pairOk_eq z13 ?_) (fun h14 => ?_)
        · apply State.resolve_memOk
          exact h3.snd
        refine pairOk_mk ?_
        exact h14
      · rename_i z15 z16 z17 z18
        refine memOk_have (p := State.MemOk z17) (pairOk_eq z18 ?_) (fun h19 => ?_)
        · apply State.resolve_memOk
          exact h3.snd
        refine pairOk_mk ?_
        exact h19
  · refine pairOk_mk ?_
    exact h0

theorem State.rdmaKeys_memOk (x0 : State) (x1) (x2) (x3) (x4) (x5) (h0 : x0.MemOk) : PairOk (State.rdmaKeys x0 x1 x2 x3 x4 x5) := by
  unfold State.rdmaKeys
  split
  · rename_i z1 z2
    refine pairOk_mk ?_
    exact h0
  · rename_i z3 z4 z5
    refine pairOk_ite ?_ ?_
    · refine pairOk_mk ?_
      exact h0
    · split
      · rename_i z6 z7
        refine pairOk_mk ?_
        exact h0
      · rename_i z8 z9 z10
        split
        · rename_i z11 z12 z13 z14
          refine memOk_have (p := State.MemOk z13) (pairOk_eq z14 ?_) (fun h15 => ?_)
          · apply State.ownerKeys_memOk
            exact h0
          refine pairOk_mk ?_
          exact h15
        · rename_i z16 z17 z18 z19 z20
          refine memOk_have (p := State.MemOk z19) (pairOk_eq z20 ?_) (fun h21 => ?_)
          · apply State.ownerKeys_memOk
            exact h0
          refine pairOk_mk ?_
          refine pairOk_fst ?_
          apply State.memFault_memOk
          exact h21

theorem execRdmaWrite_memOk (x0) (x1) (x2) (x3) (x4 : State) (h4 : x4.MemOk) : Outcome.MemOk (execRdmaWrite x0 x1 x2 x3 x4) := by
  unfold execRdmaWrite
  refine outOk_ite (outOk_next h4) ?_
  refine State.onQp_memOk _ _ _ _ _ _ h4 (fun u hu => ?_)
  have ht := State.rdmaKeys_memOk u x0.qp x1 x2 x3.length true hu
  split
  · rename_i he
    exact ⟨State.store_memOk _ _ (pairOk_eq he ht)⟩
  · rename_i he
    exact ⟨pairOk_eq he ht⟩

theorem execRdmaRead_memOk (x0) (x1) (x2) (x3) (x4 : State) (h4 : x4.MemOk) : Outcome.MemOk (execRdmaRead x0 x1 x2 x3 x4) := by
  unfold execRdmaRead
  refine outOk_ite (outOk_next h4) ?_
  refine State.onQp_memOk _ _ _ _ _ _ h4 (fun u hu => ?_)
  have ht := State.rdmaKeys_memOk u x0.qp x1 x2 x3 false hu
  split
  · rename_i he
    exact ⟨pairOk_eq he ht⟩
  · rename_i he
    exact ⟨pairOk_eq he ht⟩

theorem execEthernetFrame_memOk (x0) (x1 : State) (h1 : x1.MemOk) : Outcome.MemOk (execEthernetFrame x0 x1) := by
  unfold execEthernetFrame
  refine outOk_ite ?_ ?_
  · refine outOk_next ?_
    exact h1
  · refine outOk_ite ?_ ?_
    · refine outOk_next ?_
      apply State.badFrame_memOk
      exact h1
    · split
      · rename_i z1 z2 z3 z4
        refine outOk_next ?_
        refine memOk_ite ?_ ?_
        · (refine ⟨?_⟩; dsimp only; refine State.MemOk.wf ?_)
          exact h1
        · exact h1
      · rename_i z5 z6 z7 z8
        refine outOk_next ?_
        exact h1
      · rename_i z9 z10 z11
        refine outOk_ite ?_ ?_
        · apply execCmdPacket_memOk
          exact h1
        · apply execHostAck_memOk
          exact h1
      · rename_i z12 z13 z14 z15 z16
        refine outOk_ite ?_ ?_
        · extract_lets +onlyGivenNames y17
          clear_value y17
          extract_lets +onlyGivenNames y18
          refine memOk_have (p := State.MemOk y18) ?_ (fun h19 => ?_)
          · unfold y18
            (refine ⟨?_⟩; dsimp only; refine State.MemOk.wf ?_)
            exact h1
          clear_value y18
          refine outOk_next ?_
          apply State.serve_memOk
          exact h19
        · extract_lets +onlyGivenNames y20
          clear_value y20
          extract_lets +onlyGivenNames y21
          refine memOk_have (p := State.MemOk y21) ?_ (fun h22 => ?_)
          · unfold y21
            (refine ⟨?_⟩; dsimp only; refine State.MemOk.wf ?_)
            exact h1
          clear_value y21
          refine outOk_next ?_
          apply State.logEntry_memOk
          exact h22
      · rename_i z23 z24 z25 z26 z27 z28 z29
        split
        · rename_i z30 z31 z32
          apply execRdmaWrite_memOk
          exact h1
        · rename_i z33 z34
          refine outOk_next ?_
          apply State.badFrame_memOk
          exact h1
      · rename_i z35 z36 z37 z38 z39 z40 z41
        split
        · rename_i z42 z43 z44
          apply execRdmaRead_memOk
          exact h1
        · rename_i z45 z46
          refine outOk_next ?_
          apply State.badFrame_memOk
          exact h1
      · rename_i z47 z48 z49 z50
        split
        · rename_i z51 z52 z53
          apply State.onQp_memOk
          · exact h1
          · intro s54 h55
            refine pairOk_mk ?_
            exact h55
        · rename_i z56 z57
          refine outOk_next ?_
          apply State.badFrame_memOk
          exact h1

theorem served_memOk (x0 : State) (x1) (x2) (x3) (h0 : x0.MemOk) (hk : ∀ s m, s.MemOk → State.MemOk (x2 s m)) : Outcome.MemOk (served x0 x1 x2 x3) := by
  unfold served
  refine outOk_ite ?_ ?_
  · refine outOk_next ?_
    exact h0
  · refine outOk_ite ?_ ?_
    · refine outOk_next ?_
      refine memOk_ite ?_ ?_
      · exact h0
      · (refine ⟨?_⟩; dsimp only; refine State.MemOk.wf ?_)
        exact h0
    · extract_lets +onlyGivenNames y1
      refine memOk_have (p := State.MemOk y1) ?_ (fun h2 => ?_)
      · unfold y1
        apply hk
        exact h0
      clear_value y1
      refine outOk_next ?_
      apply State.serve_memOk
      exact h2

theorem execReadCounters_memOk (x0) (x1 : State) (h1 : x1.MemOk) : Outcome.MemOk (execReadCounters x0 x1) := by
  unfold execReadCounters
  apply served_memOk
  · exact h1
  · intro s1 a2 h3
    apply State.runReadCounters_memOk
    exact h3

theorem execReadHist_memOk (x0) (x1 : State) (h1 : x1.MemOk) : Outcome.MemOk (execReadHist x0 x1) := by
  unfold execReadHist
  apply served_memOk
  · exact h1
  · intro s1 a2 h3
    apply State.runReadHist_memOk
    exact h3

theorem execClearSticky_memOk (x0) (x1 : State) (h1 : x1.MemOk) : Outcome.MemOk (execClearSticky x0 x1) := by
  unfold execClearSticky
  apply served_memOk
  · exact h1
  · intro s1 a2 h3
    apply State.runClearSticky_memOk
    exact h3

theorem execFwStage_memOk (x0) (x1 : State) (h1 : x1.MemOk) : Outcome.MemOk (execFwStage x0 x1) := by
  unfold execFwStage
  apply served_memOk
  · exact h1
  · intro s1 a2 h3
    apply State.runFwStage_memOk
    exact h3

theorem execFwSwitch_memOk (x0) (x1) (x2 : State) (h2 : x2.MemOk) : Outcome.MemOk (execFwSwitch x0 x1 x2) := by
  unfold execFwSwitch
  apply served_memOk
  · exact h2
  · intro s1 a2 h3
    apply State.request1_memOk
    · exact h3
    · intro s4 h5
      extract_lets +onlyGivenNames y6
      clear_value y6
      refine memOk_ite ?_ ?_
      · apply State.reply_memOk
        exact h5
      · refine memOk_ite ?_ ?_
        · apply State.reply_memOk
          exact h5
        · extract_lets +onlyGivenNames y7
          clear_value y7
          apply State.showPending_memOk
          apply State.after_memOk
          (refine ⟨?_⟩; dsimp only; refine State.MemOk.wf ?_)
          exact h5

theorem execFirmwareSwitchDone_memOk (x0) (x1) (x2 : State) (h2 : x2.MemOk) : Outcome.MemOk (execFirmwareSwitchDone x0 x1 x2) := by
  unfold execFirmwareSwitchDone
  extract_lets +onlyGivenNames y1
  clear_value y1
  split
  · rename_i z2 z3
    refine outOk_next ?_
    exact h2
  · rename_i z4 z5 z6
    refine outOk_ite ?_ ?_
    · refine outOk_next ?_
      exact h2
    · extract_lets +onlyGivenNames y7
      clear_value y7
      extract_lets +onlyGivenNames y8
      clear_value y8
      extract_lets +onlyGivenNames y9
      clear_value y9
      extract_lets +onlyGivenNames y10
      refine memOk_have (p := State.MemOk y10) ?_ (fun h11 => ?_)
      · unfold y10
        (refine ⟨?_⟩; dsimp only; refine State.MemOk.wf ?_)
        exact h2
      clear_value y10
      extract_lets +onlyGivenNames y12
      refine memOk_have (p := State.MemOk y12) ?_ (fun h13 => ?_)
      · unfold y12
        apply State.reply_memOk
        apply State.logEntry_memOk
        exact h11
      clear_value y12
      refine outOk_next ?_
      apply State.switchOver_memOk
      exact h13

theorem execRecal_memOk (x0) (x1 : State) (h1 : x1.MemOk) : Outcome.MemOk (execRecal x0 x1) := by
  unfold execRecal
  apply served_memOk
  · exact h1
  · intro s1 a2 h3
    apply State.runRecal_memOk
    exact h3

theorem execReboot_memOk (x0) (x1) (x2 : State) (h2 : x2.MemOk) : Outcome.MemOk (execReboot x0 x1 x2) := by
  unfold execReboot
  apply served_memOk
  · exact h2
  · intro s1 a2 h3
    extract_lets +onlyGivenNames y4
    refine memOk_have (p := State.MemOk y4) ?_ (fun h5 => ?_)
    · unfold y4
      apply State.popRequest_memOk
      exact h3
    clear_value y4
    refine memOk_ite ?_ ?_
    · apply State.reply_memOk
      exact h5
    · extract_lets +onlyGivenNames y6
      refine memOk_have (p := State.MemOk y6) ?_ (fun h7 => ?_)
      · unfold y6
        apply State.reply_memOk
        apply State.each_memOk
        · exact h5
        · intro s8 a9 h10
          apply State.clearCounts_memOk
          exact h10
      clear_value y6
      extract_lets +onlyGivenNames y11
      refine memOk_have (p := State.MemOk y11) ?_ (fun h12 => ?_)
      · unfold y11
        apply State.commitFlash_memOk
        exact h7
      clear_value y11
      extract_lets +onlyGivenNames y13
      clear_value y13
      extract_lets +onlyGivenNames y14
      refine memOk_have (p := State.MemOk y14) ?_ (fun h15 => ?_)
      · unfold y14
        refine memOk_ite ?_ ?_
        · (refine ⟨?_⟩; dsimp only; refine State.MemOk.wf ?_)
          exact h12
        · exact h12
      clear_value y14
      apply State.boot_memOk
      apply State.lose_memOk
      (refine ⟨?_⟩; dsimp only; refine State.MemOk.wf ?_)
      exact h15

theorem execQpSetup_memOk (x0) (x1 : State) (h1 : x1.MemOk) : Outcome.MemOk (execQpSetup x0 x1) := by
  unfold execQpSetup
  apply served_memOk
  · exact h1
  · intro s1 a2 h3
    apply State.runQpSetup_memOk
    exact h3

theorem execQpTeardown_memOk (x0) (x1 : State) (h1 : x1.MemOk) : Outcome.MemOk (execQpTeardown x0 x1) := by
  unfold execQpTeardown
  apply served_memOk
  · exact h1
  · intro s1 a2 h3
    apply State.runQpTeardown_memOk
    exact h3

theorem execReadLog_memOk (x0) (x1 : State) (h1 : x1.MemOk) : Outcome.MemOk (execReadLog x0 x1) := by
  unfold execReadLog
  apply served_memOk
  · exact h1
  · intro s1 a2 h3
    apply State.runReadLog_memOk
    exact h3

theorem execModpwrUpdate_memOk (x0) (x1) (x2 : State) (h2 : x2.MemOk) : Outcome.MemOk (execModpwrUpdate x0 x1 x2) := by
  unfold execModpwrUpdate
  refine outOk_next ?_
  (refine ⟨?_⟩; dsimp only; refine State.MemOk.wf ?_)
  exact h2

theorem execRailOutOfRegulation_memOk (x0) (x1) (x2 : State) (h2 : x2.MemOk) : Outcome.MemOk (execRailOutOfRegulation x0 x1 x2) := by
  unfold execRailOutOfRegulation
  extract_lets +onlyGivenNames y1
  clear_value y1
  refine outOk_next ?_
  (refine ⟨?_⟩; dsimp only; refine State.MemOk.wf ?_)
  exact h2

theorem execTemperatureSample_memOk (x0) (x1) (x2) (x3) (x4 : State) (h4 : x4.MemOk) : Outcome.MemOk (execTemperatureSample x0 x1 x2 x3 x4) := by
  unfold execTemperatureSample
  refine outOk_ite ?_ ?_
  · refine outOk_next ?_
    exact h4
  · extract_lets +onlyGivenNames y1
    clear_value y1
    extract_lets +onlyGivenNames y2
    refine memOk_have (p := State.MemOk y2) ?_ (fun h3 => ?_)
    · unfold y2
      (refine ⟨?_⟩; dsimp only; refine State.MemOk.wf ?_)
      exact h4
    clear_value y2
    refine outOk_next ?_
    apply State.bin_memOk
    apply State.bin_memOk
    apply State.bin_memOk
    apply State.bin_memOk
    exact h3

theorem State.scalarWord_memOk (x0 : State) (x1) (x2) (x3) (h0 : x0.MemOk) : PairOk (State.scalarWord x0 x1 x2 x3) := by
  unfold State.scalarWord
  split
  · rename_i z1 z2 z3 z4
    refine memOk_have (p := State.MemOk z3) (pairOk_eq z4 ?_) (fun h5 => ?_)
    · apply State.resolve_memOk
      exact h0
    refine pairOk_mk ?_
    refine pairOk_fst ?_
    apply State.fetchCode_memOk
    exact h5
  · rename_i z6 z7 z8 z9
    refine memOk_have (p := State.MemOk z8) (pairOk_eq z9 ?_) (fun h10 => ?_)
    · apply State.resolve_memOk
      exact h0
    refine pairOk_mk ?_
    exact h10

theorem State.fetchFault_memOk (x0 : State) (x1) (x2) (x3) (x4) (x5) (h0 : x0.MemOk) : State.MemOk (State.fetchFault x0 x1 x2 x3 x4 x5) := by
  unfold State.fetchFault
  refine memOk_ite ?_ ?_
  · apply State.fatalCtx_memOk
    exact h0
  · refine pairOk_fst ?_
    apply State.memFault_memOk
    exact h0

theorem State.selfPackets_memOk (x0 : State) (h0 : x0.MemOk) : State.MemOk (State.selfPackets x0) := by
  unfold State.selfPackets
  apply State.each_memOk
  · (refine ⟨?_⟩; dsimp only; refine State.MemOk.wf ?_)
    exact h0
  · intro s1 a2 h3
    apply State.deliverSelf_memOk
    exact h3

theorem State.handlersDone_memOk (x0 : State) (h0 : x0.MemOk) : State.MemOk (State.handlersDone x0) := by
  unfold State.handlersDone
  apply State.each_memOk
  · exact h0
  · intro s1 a2 h3
    split
    · rename_i z4 z5 z6
      refine memOk_ite ?_ ?_
      · apply State.endHandler_memOk
        exact h3
      · exact h3
    · rename_i z7 z8
      exact h3

theorem State.streamsNext_memOk (x0 : State) (h0 : x0.MemOk) : State.MemOk (State.streamsNext x0) := by
  unfold State.streamsNext
  apply State.each_memOk
  · exact h0
  · intro s1 a2 h3
    extract_lets +onlyGivenNames y4
    refine memOk_have (p := State.MemOk y4) ?_ (fun h5 => ?_)
    · unfold y4
      apply State.startNext_memOk
      exact h3
    clear_value y4
    extract_lets +onlyGivenNames y6
    clear_value y6
    extract_lets +onlyGivenNames y7
    clear_value y7
    extract_lets +onlyGivenNames y8
    refine memOk_have (p := State.MemOk y8) ?_ (fun h9 => ?_)
    · unfold y8
      refine memOk_ite ?_ ?_
      · apply State.post_memOk
        exact h5
      · exact h5
    clear_value y8
    refine memOk_ite ?_ ?_
    · apply State.post_memOk
      exact h9
    · exact h9

theorem State.afterTurn_memOk (x0 : State) (h0 : x0.MemOk) : State.MemOk (State.after_ x0) := by
  unfold State.after_
  extract_lets +onlyGivenNames y1
  refine memOk_have (p := State.MemOk y1) ?_ (fun h2 => ?_)
  · unfold y1
    apply State.settle_memOk
    exact h0
  clear_value y1
  extract_lets +onlyGivenNames y3
  refine memOk_have (p := State.MemOk y3) ?_ (fun h4 => ?_)
  · unfold y3
    apply State.each_memOk
    · exact h2
    · intro s5 a6 h7
      apply State.asyncRun_memOk
      exact h7
  clear_value y3
  extract_lets +onlyGivenNames y8
  refine memOk_have (p := State.MemOk y8) ?_ (fun h9 => ?_)
  · unfold y8
    apply State.each_memOk
    · exact h4
    · intro s10 a11 h12
      apply State.cruxRun_memOk
      exact h12
  clear_value y8
  extract_lets +onlyGivenNames y13
  refine memOk_have (p := State.MemOk y13) ?_ (fun h14 => ?_)
  · unfold y13
    apply State.each_memOk
    · exact h9
    · intro s15 a16 h17
      apply State.gTry_memOk
      exact h17
  clear_value y13
  extract_lets +onlyGivenNames y18
  refine memOk_have (p := State.MemOk y18) ?_ (fun h19 => ?_)
  · unfold y18
    apply State.selfPackets_memOk
    exact h14
  clear_value y18
  extract_lets +onlyGivenNames y20
  refine memOk_have (p := State.MemOk y20) ?_ (fun h21 => ?_)
  · unfold y20
    apply State.handlersDone_memOk
    exact h19
  clear_value y20
  extract_lets +onlyGivenNames y22
  refine memOk_have (p := State.MemOk y22) ?_ (fun h23 => ?_)
  · unfold y22
    apply State.lehrScan_memOk
    apply State.sweepScan_memOk
    apply State.matrixScan_memOk
    apply State.drainScan_memOk
    exact h21
  clear_value y22
  apply State.reserve_memOk
  apply State.reserve_memOk
  apply State.settle_memOk
  apply State.streamsNext_memOk
  exact h23

theorem State.setAge_memOk (x0 : State) (x1) (x2) (h0 : x0.MemOk) : State.MemOk (State.setAge x0 x1 x2) := by
  unfold State.setAge
  split
  · rename_i z1 z2 z3 z4
    apply State.updFrag_memOk
    exact h0
  · rename_i z5 z6 z7 z8
    apply State.updFrag_memOk
    exact h0
  · rename_i z9 z10 z11
    exact h0

theorem State.issuedAt_memOk (x0 : State) (x1 : State) (x2) (_h0 : x0.MemOk) (h1 : x1.MemOk) : State.MemOk (State.issuedAt x0 x1 x2) := by
  unfold State.issuedAt
  split
  · rename_i z1 z2
    exact h1
  · rename_i z3 z4 z5
    extract_lets +onlyGivenNames y6
    clear_value y6
    extract_lets +onlyGivenNames y7
    refine memOk_have (p := State.MemOk y7) ?_ (fun h8 => ?_)
    · unfold y7
      apply State.each_memOk
      · apply State.setAge_memOk
        (refine ⟨?_⟩; dsimp only; refine State.MemOk.wf ?_)
        exact h1
      · intro s9 a10 h11
        refine memOk_ite ?_ ?_
        · apply State.setAge_memOk
          exact h11
        · split
          · rename_i z12 z13 z14 z15
            apply State.wait_memOk
            apply State.setAge_memOk
            exact h11
          · rename_i z16 z17 z18 z19
            apply State.wait_memOk
            apply State.setAge_memOk
            exact h11
          · rename_i z20 z21 z22
            exact h11
    clear_value y7
    split
    · rename_i z23 z24 z25 z26
      extract_lets +onlyGivenNames y27
      clear_value y27
      apply State.updFrag_memOk
      apply State.updWave_memOk
      exact h8
    · rename_i z28 z29 z30 z31
      apply State.updWave_memOk
      exact h8
    · rename_i z32 z33 z34
      exact h8

theorem State.finish_memOk (x0 : State) (x1 : State) (x2) (h0 : x0.MemOk) (h1 : x1.MemOk) : State.MemOk (State.finish x0 x1 x2) := by
  unfold State.finish
  split
  · rename_i z1 z2
    extract_lets +onlyGivenNames y3
    refine memOk_have (p := State.MemOk y3) ?_ (fun h4 => ?_)
    · unfold y3
      (refine ⟨?_⟩; dsimp only; refine State.MemOk.wf ?_)
      exact h1
    clear_value y3
    refine memOk_ite ?_ ?_
    · apply State.afterTurn_memOk
      apply State.issuedAt_memOk
      · exact h0
      · (refine ⟨?_⟩; dsimp only; refine State.MemOk.wf ?_)
        exact h4
    · apply State.setAge_memOk
      exact h4
  · rename_i z5 z6
    apply State.afterTurn_memOk
    exact h1

theorem State.nextTurn_memOk (x0 : State) (h0 : x0.MemOk) : PairOk (State.nextTurn x0) := by
  unfold State.nextTurn
  split
  · rename_i z1 z2 z3 z4 z5
    refine pairOk_mk ?_
    (refine ⟨?_⟩; dsimp only; refine State.MemOk.wf ?_)
    exact h0
  · rename_i z6 z7 z8 z9 z10 z11
    refine pairOk_mk ?_
    (refine ⟨?_⟩; dsimp only; refine State.MemOk.wf ?_)
    exact h0
  · rename_i z12 z13 z14 z15
    split
    · rename_i z16 z17 z18
      refine pairOk_mk ?_
      exact h0
    · rename_i z19 z20
      extract_lets +onlyGivenNames y21
      clear_value y21
      refine pairOk_mk ?_
      (refine ⟨?_⟩; dsimp only; refine State.MemOk.wf ?_)
      exact h0

end Sys2Proof.Machine
end

