-- ==== Sys2Proof/Laws/State.lean ====
section
/-! SUPPORT. What each named update of State leaves of every field, and what is read back after it. -/

namespace Sys2Proof.Machine

/-! setCore changes only `cores`. -/

@[simp] theorem State.setCore_now (s : State) (c : Nat) (x : Core) : (s.setCore c x).now = s.now := rfl
@[simp] theorem State.setCore_ahead (s : State) (c : Nat) (x : Core) : (s.setCore c x).ahead = s.ahead := rfl
@[simp] theorem State.setCore_ticks (s : State) (c : Nat) (x : Core) : (s.setCore c x).ticks = s.ticks := rfl
@[simp] theorem State.setCore_cur (s : State) (c : Nat) (x : Core) : (s.setCore c x).cur = s.cur := rfl
@[simp] theorem State.setCore_agenda (s : State) (c : Nat) (x : Core) : (s.setCore c x).agenda = s.agenda := rfl
@[simp] theorem State.setCore_queue (s : State) (c : Nat) (x : Core) : (s.setCore c x).queue = s.queue := rfl
@[simp] theorem State.setCore_timers (s : State) (c : Nat) (x : Core) : (s.setCore c x).timers = s.timers := rfl
@[simp] theorem State.setCore_round (s : State) (c : Nat) (x : Core) : (s.setCore c x).round = s.round := rfl
@[simp] theorem State.setCore_moved (s : State) (c : Nat) (x : Core) : (s.setCore c x).moved = s.moved := rfl
@[simp] theorem State.setCore_free (s : State) (c : Nat) (x : Core) : (s.setCore c x).free = s.free := rfl
@[simp] theorem State.setCore_nextId (s : State) (c : Nat) (x : Core) : (s.setCore c x).nextId = s.nextId := rfl
@[simp] theorem State.setCore_mem (s : State) (c : Nat) (x : Core) : (s.setCore c x).mem = s.mem := rfl
@[simp] theorem State.setCore_clusters (s : State) (c : Nat) (x : Core) : (s.setCore c x).clusters = s.clusters := rfl
@[simp] theorem State.setCore_dies (s : State) (c : Nat) (x : Core) : (s.setCore c x).dies = s.dies := rfl
@[simp] theorem State.setCore_queues (s : State) (c : Nat) (x : Core) : (s.setCore c x).queues = s.queues := rfl
@[simp] theorem State.setCore_runs (s : State) (c : Nat) (x : Core) : (s.setCore c x).runs = s.runs := rfl
@[simp] theorem State.setCore_ctxs (s : State) (c : Nat) (x : Core) : (s.setCore c x).ctxs = s.ctxs := rfl
@[simp] theorem State.setCore_tlb (s : State) (c : Nat) (x : Core) : (s.setCore c x).tlb = s.tlb := rfl
@[simp] theorem State.setCore_pend (s : State) (c : Nat) (x : Core) : (s.setCore c x).pend = s.pend := rfl
@[simp] theorem State.setCore_faultId (s : State) (c : Nat) (x : Core) : (s.setCore c x).faultId = s.faultId := rfl
@[simp] theorem State.setCore_errors (s : State) (c : Nat) (x : Core) : (s.setCore c x).errors = s.errors := rfl
@[simp] theorem State.setCore_asyncs (s : State) (c : Nat) (x : Core) : (s.setCore c x).asyncs = s.asyncs := rfl
@[simp] theorem State.setCore_pwrcap (s : State) (c : Nat) (x : Core) : (s.setCore c x).pwrcap = s.pwrcap := rfl
@[simp] theorem State.setCore_modl (s : State) (c : Nat) (x : Core) : (s.setCore c x).modl = s.modl := rfl
@[simp] theorem State.setCore_ports (s : State) (c : Nat) (x : Core) : (s.setCore c x).ports = s.ports := rfl
@[simp] theorem State.setCore_circuits (s : State) (c : Nat) (x : Core) : (s.setCore c x).circuits = s.circuits := rfl
@[simp] theorem State.setCore_links (s : State) (c : Nat) (x : Core) : (s.setCore c x).links = s.links := rfl
@[simp] theorem State.setCore_fdidValid (s : State) (c : Nat) (x : Core) : (s.setCore c x).fdidValid = s.fdidValid := rfl
@[simp] theorem State.setCore_fdid (s : State) (c : Nat) (x : Core) : (s.setCore c x).fdid = s.fdid := rfl
@[simp] theorem State.setCore_epdrop (s : State) (c : Nat) (x : Core) : (s.setCore c x).epdrop = s.epdrop := rfl
@[simp] theorem State.setCore_route (s : State) (c : Nat) (x : Core) : (s.setCore c x).route = s.route := rfl
@[simp] theorem State.setCore_seen (s : State) (c : Nat) (x : Core) : (s.setCore c x).seen = s.seen := rfl
@[simp] theorem State.setCore_pseq (s : State) (c : Nat) (x : Core) : (s.setCore c x).pseq = s.pseq := rfl
@[simp] theorem State.setCore_tvercur (s : State) (c : Nat) (x : Core) : (s.setCore c x).tvercur = s.tvercur := rfl
@[simp] theorem State.setCore_tverseen (s : State) (c : Nat) (x : Core) : (s.setCore c x).tverseen = s.tverseen := rfl
@[simp] theorem State.setCore_slotmiss (s : State) (c : Nat) (x : Core) : (s.setCore c x).slotmiss = s.slotmiss := rfl
@[simp] theorem State.setCore_errest (s : State) (c : Nat) (x : Core) : (s.setCore c x).errest = s.errest := rfl
@[simp] theorem State.setCore_master (s : State) (c : Nat) (x : Core) : (s.setCore c x).master = s.master := rfl
@[simp] theorem State.setCore_bper (s : State) (c : Nat) (x : Core) : (s.setCore c x).bper = s.bper := rfl
@[simp] theorem State.setCore_plant (s : State) (c : Nat) (x : Core) : (s.setCore c x).plant = s.plant := rfl
@[simp] theorem State.setCore_beaconAt (s : State) (c : Nat) (x : Core) : (s.setCore c x).beaconAt = s.beaconAt := rfl
@[simp] theorem State.setCore_gaffer (s : State) (c : Nat) (x : Core) : (s.setCore c x).gaffer = s.gaffer := rfl
@[simp] theorem State.setCore_cru (s : State) (c : Nat) (x : Core) : (s.setCore c x).cru = s.cru := rfl
@[simp] theorem State.setCore_ubcnt (s : State) (c : Nat) (x : Core) : (s.setCore c x).ubcnt = s.ubcnt := rfl
@[simp] theorem State.setCore_streams (s : State) (c : Nat) (x : Core) : (s.setCore c x).streams = s.streams := rfl
@[simp] theorem State.setCore_windows (s : State) (c : Nat) (x : Core) : (s.setCore c x).windows = s.windows := rfl
@[simp] theorem State.setCore_creations (s : State) (c : Nat) (x : Core) : (s.setCore c x).creations = s.creations := rfl
@[simp] theorem State.setCore_mgmt (s : State) (c : Nat) (x : Core) : (s.setCore c x).mgmt = s.mgmt := rfl
@[simp] theorem State.setCore_loopback (s : State) (c : Nat) (x : Core) : (s.setCore c x).loopback = s.loopback := rfl
@[simp] theorem State.setCore_outHost (s : State) (c : Nat) (x : Core) : (s.setCore c x).outHost = s.outHost := rfl
@[simp] theorem State.setCore_outRdma (s : State) (c : Nat) (x : Core) : (s.setCore c x).outRdma = s.outRdma := rfl
@[simp] theorem State.setCore_outPkt (s : State) (c : Nat) (x : Core) : (s.setCore c x).outPkt = s.outPkt := rfl
@[simp] theorem State.setCore_outFlit (s : State) (c : Nat) (x : Core) : (s.setCore c x).outFlit = s.outFlit := rfl
@[simp] theorem State.setCore_outCtl (s : State) (c : Nat) (x : Core) : (s.setCore c x).outCtl = s.outCtl := rfl
@[simp] theorem State.setCore_outNd (s : State) (c : Nat) (x : Core) : (s.setCore c x).outNd = s.outNd := rfl
@[simp] theorem State.setCore_outSide (s : State) (c : Nat) (x : Core) : (s.setCore c x).outSide = s.outSide := rfl
@[simp] theorem State.setCore_written (s : State) (c : Nat) (x : Core) : (s.setCore c x).written = s.written := rfl
@[simp] theorem State.setCore_badFrames (s : State) (c : Nat) (x : Core) : (s.setCore c x).badFrames = s.badFrames := rfl

/-! setCluster changes only `clusters`. -/

@[simp] theorem State.setCluster_now (s : State) (n : Nat) (x : Cluster) : (s.setCluster n x).now = s.now := rfl
@[simp] theorem State.setCluster_ahead (s : State) (n : Nat) (x : Cluster) : (s.setCluster n x).ahead = s.ahead := rfl
@[simp] theorem State.setCluster_ticks (s : State) (n : Nat) (x : Cluster) : (s.setCluster n x).ticks = s.ticks := rfl
@[simp] theorem State.setCluster_cur (s : State) (n : Nat) (x : Cluster) : (s.setCluster n x).cur = s.cur := rfl
@[simp] theorem State.setCluster_agenda (s : State) (n : Nat) (x : Cluster) : (s.setCluster n x).agenda = s.agenda := rfl
@[simp] theorem State.setCluster_queue (s : State) (n : Nat) (x : Cluster) : (s.setCluster n x).queue = s.queue := rfl
@[simp] theorem State.setCluster_timers (s : State) (n : Nat) (x : Cluster) : (s.setCluster n x).timers = s.timers := rfl
@[simp] theorem State.setCluster_round (s : State) (n : Nat) (x : Cluster) : (s.setCluster n x).round = s.round := rfl
@[simp] theorem State.setCluster_moved (s : State) (n : Nat) (x : Cluster) : (s.setCluster n x).moved = s.moved := rfl
@[simp] theorem State.setCluster_free (s : State) (n : Nat) (x : Cluster) : (s.setCluster n x).free = s.free := rfl
@[simp] theorem State.setCluster_nextId (s : State) (n : Nat) (x : Cluster) : (s.setCluster n x).nextId = s.nextId := rfl
@[simp] theorem State.setCluster_mem (s : State) (n : Nat) (x : Cluster) : (s.setCluster n x).mem = s.mem := rfl
@[simp] theorem State.setCluster_cores (s : State) (n : Nat) (x : Cluster) : (s.setCluster n x).cores = s.cores := rfl
@[simp] theorem State.setCluster_dies (s : State) (n : Nat) (x : Cluster) : (s.setCluster n x).dies = s.dies := rfl
@[simp] theorem State.setCluster_queues (s : State) (n : Nat) (x : Cluster) : (s.setCluster n x).queues = s.queues := rfl
@[simp] theorem State.setCluster_runs (s : State) (n : Nat) (x : Cluster) : (s.setCluster n x).runs = s.runs := rfl
@[simp] theorem State.setCluster_ctxs (s : State) (n : Nat) (x : Cluster) : (s.setCluster n x).ctxs = s.ctxs := rfl
@[simp] theorem State.setCluster_tlb (s : State) (n : Nat) (x : Cluster) : (s.setCluster n x).tlb = s.tlb := rfl
@[simp] theorem State.setCluster_pend (s : State) (n : Nat) (x : Cluster) : (s.setCluster n x).pend = s.pend := rfl
@[simp] theorem State.setCluster_faultId (s : State) (n : Nat) (x : Cluster) : (s.setCluster n x).faultId = s.faultId := rfl
@[simp] theorem State.setCluster_errors (s : State) (n : Nat) (x : Cluster) : (s.setCluster n x).errors = s.errors := rfl
@[simp] theorem State.setCluster_asyncs (s : State) (n : Nat) (x : Cluster) : (s.setCluster n x).asyncs = s.asyncs := rfl
@[simp] theorem State.setCluster_pwrcap (s : State) (n : Nat) (x : Cluster) : (s.setCluster n x).pwrcap = s.pwrcap := rfl
@[simp] theorem State.setCluster_modl (s : State) (n : Nat) (x : Cluster) : (s.setCluster n x).modl = s.modl := rfl
@[simp] theorem State.setCluster_ports (s : State) (n : Nat) (x : Cluster) : (s.setCluster n x).ports = s.ports := rfl
@[simp] theorem State.setCluster_circuits (s : State) (n : Nat) (x : Cluster) : (s.setCluster n x).circuits = s.circuits := rfl
@[simp] theorem State.setCluster_links (s : State) (n : Nat) (x : Cluster) : (s.setCluster n x).links = s.links := rfl
@[simp] theorem State.setCluster_fdidValid (s : State) (n : Nat) (x : Cluster) : (s.setCluster n x).fdidValid = s.fdidValid := rfl
@[simp] theorem State.setCluster_fdid (s : State) (n : Nat) (x : Cluster) : (s.setCluster n x).fdid = s.fdid := rfl
@[simp] theorem State.setCluster_epdrop (s : State) (n : Nat) (x : Cluster) : (s.setCluster n x).epdrop = s.epdrop := rfl
@[simp] theorem State.setCluster_route (s : State) (n : Nat) (x : Cluster) : (s.setCluster n x).route = s.route := rfl
@[simp] theorem State.setCluster_seen (s : State) (n : Nat) (x : Cluster) : (s.setCluster n x).seen = s.seen := rfl
@[simp] theorem State.setCluster_pseq (s : State) (n : Nat) (x : Cluster) : (s.setCluster n x).pseq = s.pseq := rfl
@[simp] theorem State.setCluster_tvercur (s : State) (n : Nat) (x : Cluster) : (s.setCluster n x).tvercur = s.tvercur := rfl
@[simp] theorem State.setCluster_tverseen (s : State) (n : Nat) (x : Cluster) : (s.setCluster n x).tverseen = s.tverseen := rfl
@[simp] theorem State.setCluster_slotmiss (s : State) (n : Nat) (x : Cluster) : (s.setCluster n x).slotmiss = s.slotmiss := rfl
@[simp] theorem State.setCluster_errest (s : State) (n : Nat) (x : Cluster) : (s.setCluster n x).errest = s.errest := rfl
@[simp] theorem State.setCluster_master (s : State) (n : Nat) (x : Cluster) : (s.setCluster n x).master = s.master := rfl
@[simp] theorem State.setCluster_bper (s : State) (n : Nat) (x : Cluster) : (s.setCluster n x).bper = s.bper := rfl
@[simp] theorem State.setCluster_plant (s : State) (n : Nat) (x : Cluster) : (s.setCluster n x).plant = s.plant := rfl
@[simp] theorem State.setCluster_beaconAt (s : State) (n : Nat) (x : Cluster) : (s.setCluster n x).beaconAt = s.beaconAt := rfl
@[simp] theorem State.setCluster_gaffer (s : State) (n : Nat) (x : Cluster) : (s.setCluster n x).gaffer = s.gaffer := rfl
@[simp] theorem State.setCluster_cru (s : State) (n : Nat) (x : Cluster) : (s.setCluster n x).cru = s.cru := rfl
@[simp] theorem State.setCluster_ubcnt (s : State) (n : Nat) (x : Cluster) : (s.setCluster n x).ubcnt = s.ubcnt := rfl
@[simp] theorem State.setCluster_streams (s : State) (n : Nat) (x : Cluster) : (s.setCluster n x).streams = s.streams := rfl
@[simp] theorem State.setCluster_windows (s : State) (n : Nat) (x : Cluster) : (s.setCluster n x).windows = s.windows := rfl
@[simp] theorem State.setCluster_creations (s : State) (n : Nat) (x : Cluster) : (s.setCluster n x).creations = s.creations := rfl
@[simp] theorem State.setCluster_mgmt (s : State) (n : Nat) (x : Cluster) : (s.setCluster n x).mgmt = s.mgmt := rfl
@[simp] theorem State.setCluster_loopback (s : State) (n : Nat) (x : Cluster) : (s.setCluster n x).loopback = s.loopback := rfl
@[simp] theorem State.setCluster_outHost (s : State) (n : Nat) (x : Cluster) : (s.setCluster n x).outHost = s.outHost := rfl
@[simp] theorem State.setCluster_outRdma (s : State) (n : Nat) (x : Cluster) : (s.setCluster n x).outRdma = s.outRdma := rfl
@[simp] theorem State.setCluster_outPkt (s : State) (n : Nat) (x : Cluster) : (s.setCluster n x).outPkt = s.outPkt := rfl
@[simp] theorem State.setCluster_outFlit (s : State) (n : Nat) (x : Cluster) : (s.setCluster n x).outFlit = s.outFlit := rfl
@[simp] theorem State.setCluster_outCtl (s : State) (n : Nat) (x : Cluster) : (s.setCluster n x).outCtl = s.outCtl := rfl
@[simp] theorem State.setCluster_outNd (s : State) (n : Nat) (x : Cluster) : (s.setCluster n x).outNd = s.outNd := rfl
@[simp] theorem State.setCluster_outSide (s : State) (n : Nat) (x : Cluster) : (s.setCluster n x).outSide = s.outSide := rfl
@[simp] theorem State.setCluster_written (s : State) (n : Nat) (x : Cluster) : (s.setCluster n x).written = s.written := rfl
@[simp] theorem State.setCluster_badFrames (s : State) (n : Nat) (x : Cluster) : (s.setCluster n x).badFrames = s.badFrames := rfl

/-! setDie changes only `dies`. -/

@[simp] theorem State.setDie_now (s : State) (d : Nat) (x : Die) : (s.setDie d x).now = s.now := rfl
@[simp] theorem State.setDie_ahead (s : State) (d : Nat) (x : Die) : (s.setDie d x).ahead = s.ahead := rfl
@[simp] theorem State.setDie_ticks (s : State) (d : Nat) (x : Die) : (s.setDie d x).ticks = s.ticks := rfl
@[simp] theorem State.setDie_cur (s : State) (d : Nat) (x : Die) : (s.setDie d x).cur = s.cur := rfl
@[simp] theorem State.setDie_agenda (s : State) (d : Nat) (x : Die) : (s.setDie d x).agenda = s.agenda := rfl
@[simp] theorem State.setDie_queue (s : State) (d : Nat) (x : Die) : (s.setDie d x).queue = s.queue := rfl
@[simp] theorem State.setDie_timers (s : State) (d : Nat) (x : Die) : (s.setDie d x).timers = s.timers := rfl
@[simp] theorem State.setDie_round (s : State) (d : Nat) (x : Die) : (s.setDie d x).round = s.round := rfl
@[simp] theorem State.setDie_moved (s : State) (d : Nat) (x : Die) : (s.setDie d x).moved = s.moved := rfl
@[simp] theorem State.setDie_free (s : State) (d : Nat) (x : Die) : (s.setDie d x).free = s.free := rfl
@[simp] theorem State.setDie_nextId (s : State) (d : Nat) (x : Die) : (s.setDie d x).nextId = s.nextId := rfl
@[simp] theorem State.setDie_mem (s : State) (d : Nat) (x : Die) : (s.setDie d x).mem = s.mem := rfl
@[simp] theorem State.setDie_cores (s : State) (d : Nat) (x : Die) : (s.setDie d x).cores = s.cores := rfl
@[simp] theorem State.setDie_clusters (s : State) (d : Nat) (x : Die) : (s.setDie d x).clusters = s.clusters := rfl
@[simp] theorem State.setDie_queues (s : State) (d : Nat) (x : Die) : (s.setDie d x).queues = s.queues := rfl
@[simp] theorem State.setDie_runs (s : State) (d : Nat) (x : Die) : (s.setDie d x).runs = s.runs := rfl
@[simp] theorem State.setDie_ctxs (s : State) (d : Nat) (x : Die) : (s.setDie d x).ctxs = s.ctxs := rfl
@[simp] theorem State.setDie_tlb (s : State) (d : Nat) (x : Die) : (s.setDie d x).tlb = s.tlb := rfl
@[simp] theorem State.setDie_pend (s : State) (d : Nat) (x : Die) : (s.setDie d x).pend = s.pend := rfl
@[simp] theorem State.setDie_faultId (s : State) (d : Nat) (x : Die) : (s.setDie d x).faultId = s.faultId := rfl
@[simp] theorem State.setDie_errors (s : State) (d : Nat) (x : Die) : (s.setDie d x).errors = s.errors := rfl
@[simp] theorem State.setDie_asyncs (s : State) (d : Nat) (x : Die) : (s.setDie d x).asyncs = s.asyncs := rfl
@[simp] theorem State.setDie_pwrcap (s : State) (d : Nat) (x : Die) : (s.setDie d x).pwrcap = s.pwrcap := rfl
@[simp] theorem State.setDie_modl (s : State) (d : Nat) (x : Die) : (s.setDie d x).modl = s.modl := rfl
@[simp] theorem State.setDie_ports (s : State) (d : Nat) (x : Die) : (s.setDie d x).ports = s.ports := rfl
@[simp] theorem State.setDie_circuits (s : State) (d : Nat) (x : Die) : (s.setDie d x).circuits = s.circuits := rfl
@[simp] theorem State.setDie_links (s : State) (d : Nat) (x : Die) : (s.setDie d x).links = s.links := rfl
@[simp] theorem State.setDie_fdidValid (s : State) (d : Nat) (x : Die) : (s.setDie d x).fdidValid = s.fdidValid := rfl
@[simp] theorem State.setDie_fdid (s : State) (d : Nat) (x : Die) : (s.setDie d x).fdid = s.fdid := rfl
@[simp] theorem State.setDie_epdrop (s : State) (d : Nat) (x : Die) : (s.setDie d x).epdrop = s.epdrop := rfl
@[simp] theorem State.setDie_route (s : State) (d : Nat) (x : Die) : (s.setDie d x).route = s.route := rfl
@[simp] theorem State.setDie_seen (s : State) (d : Nat) (x : Die) : (s.setDie d x).seen = s.seen := rfl
@[simp] theorem State.setDie_pseq (s : State) (d : Nat) (x : Die) : (s.setDie d x).pseq = s.pseq := rfl
@[simp] theorem State.setDie_tvercur (s : State) (d : Nat) (x : Die) : (s.setDie d x).tvercur = s.tvercur := rfl
@[simp] theorem State.setDie_tverseen (s : State) (d : Nat) (x : Die) : (s.setDie d x).tverseen = s.tverseen := rfl
@[simp] theorem State.setDie_slotmiss (s : State) (d : Nat) (x : Die) : (s.setDie d x).slotmiss = s.slotmiss := rfl
@[simp] theorem State.setDie_errest (s : State) (d : Nat) (x : Die) : (s.setDie d x).errest = s.errest := rfl
@[simp] theorem State.setDie_master (s : State) (d : Nat) (x : Die) : (s.setDie d x).master = s.master := rfl
@[simp] theorem State.setDie_bper (s : State) (d : Nat) (x : Die) : (s.setDie d x).bper = s.bper := rfl
@[simp] theorem State.setDie_plant (s : State) (d : Nat) (x : Die) : (s.setDie d x).plant = s.plant := rfl
@[simp] theorem State.setDie_beaconAt (s : State) (d : Nat) (x : Die) : (s.setDie d x).beaconAt = s.beaconAt := rfl
@[simp] theorem State.setDie_gaffer (s : State) (d : Nat) (x : Die) : (s.setDie d x).gaffer = s.gaffer := rfl
@[simp] theorem State.setDie_cru (s : State) (d : Nat) (x : Die) : (s.setDie d x).cru = s.cru := rfl
@[simp] theorem State.setDie_ubcnt (s : State) (d : Nat) (x : Die) : (s.setDie d x).ubcnt = s.ubcnt := rfl
@[simp] theorem State.setDie_streams (s : State) (d : Nat) (x : Die) : (s.setDie d x).streams = s.streams := rfl
@[simp] theorem State.setDie_windows (s : State) (d : Nat) (x : Die) : (s.setDie d x).windows = s.windows := rfl
@[simp] theorem State.setDie_creations (s : State) (d : Nat) (x : Die) : (s.setDie d x).creations = s.creations := rfl
@[simp] theorem State.setDie_mgmt (s : State) (d : Nat) (x : Die) : (s.setDie d x).mgmt = s.mgmt := rfl
@[simp] theorem State.setDie_loopback (s : State) (d : Nat) (x : Die) : (s.setDie d x).loopback = s.loopback := rfl
@[simp] theorem State.setDie_outHost (s : State) (d : Nat) (x : Die) : (s.setDie d x).outHost = s.outHost := rfl
@[simp] theorem State.setDie_outRdma (s : State) (d : Nat) (x : Die) : (s.setDie d x).outRdma = s.outRdma := rfl
@[simp] theorem State.setDie_outPkt (s : State) (d : Nat) (x : Die) : (s.setDie d x).outPkt = s.outPkt := rfl
@[simp] theorem State.setDie_outFlit (s : State) (d : Nat) (x : Die) : (s.setDie d x).outFlit = s.outFlit := rfl
@[simp] theorem State.setDie_outCtl (s : State) (d : Nat) (x : Die) : (s.setDie d x).outCtl = s.outCtl := rfl
@[simp] theorem State.setDie_outNd (s : State) (d : Nat) (x : Die) : (s.setDie d x).outNd = s.outNd := rfl
@[simp] theorem State.setDie_outSide (s : State) (d : Nat) (x : Die) : (s.setDie d x).outSide = s.outSide := rfl
@[simp] theorem State.setDie_written (s : State) (d : Nat) (x : Die) : (s.setDie d x).written = s.written := rfl
@[simp] theorem State.setDie_badFrames (s : State) (d : Nat) (x : Die) : (s.setDie d x).badFrames = s.badFrames := rfl

/-! setHq changes only `queues`. -/

@[simp] theorem State.setHq_now (s : State) (q : Nat) (x : Queue) : (s.setHq q x).now = s.now := rfl
@[simp] theorem State.setHq_ahead (s : State) (q : Nat) (x : Queue) : (s.setHq q x).ahead = s.ahead := rfl
@[simp] theorem State.setHq_ticks (s : State) (q : Nat) (x : Queue) : (s.setHq q x).ticks = s.ticks := rfl
@[simp] theorem State.setHq_cur (s : State) (q : Nat) (x : Queue) : (s.setHq q x).cur = s.cur := rfl
@[simp] theorem State.setHq_agenda (s : State) (q : Nat) (x : Queue) : (s.setHq q x).agenda = s.agenda := rfl
@[simp] theorem State.setHq_queue (s : State) (q : Nat) (x : Queue) : (s.setHq q x).queue = s.queue := rfl
@[simp] theorem State.setHq_timers (s : State) (q : Nat) (x : Queue) : (s.setHq q x).timers = s.timers := rfl
@[simp] theorem State.setHq_round (s : State) (q : Nat) (x : Queue) : (s.setHq q x).round = s.round := rfl
@[simp] theorem State.setHq_moved (s : State) (q : Nat) (x : Queue) : (s.setHq q x).moved = s.moved := rfl
@[simp] theorem State.setHq_free (s : State) (q : Nat) (x : Queue) : (s.setHq q x).free = s.free := rfl
@[simp] theorem State.setHq_nextId (s : State) (q : Nat) (x : Queue) : (s.setHq q x).nextId = s.nextId := rfl
@[simp] theorem State.setHq_mem (s : State) (q : Nat) (x : Queue) : (s.setHq q x).mem = s.mem := rfl
@[simp] theorem State.setHq_cores (s : State) (q : Nat) (x : Queue) : (s.setHq q x).cores = s.cores := rfl
@[simp] theorem State.setHq_clusters (s : State) (q : Nat) (x : Queue) : (s.setHq q x).clusters = s.clusters := rfl
@[simp] theorem State.setHq_dies (s : State) (q : Nat) (x : Queue) : (s.setHq q x).dies = s.dies := rfl
@[simp] theorem State.setHq_runs (s : State) (q : Nat) (x : Queue) : (s.setHq q x).runs = s.runs := rfl
@[simp] theorem State.setHq_ctxs (s : State) (q : Nat) (x : Queue) : (s.setHq q x).ctxs = s.ctxs := rfl
@[simp] theorem State.setHq_tlb (s : State) (q : Nat) (x : Queue) : (s.setHq q x).tlb = s.tlb := rfl
@[simp] theorem State.setHq_pend (s : State) (q : Nat) (x : Queue) : (s.setHq q x).pend = s.pend := rfl
@[simp] theorem State.setHq_faultId (s : State) (q : Nat) (x : Queue) : (s.setHq q x).faultId = s.faultId := rfl
@[simp] theorem State.setHq_errors (s : State) (q : Nat) (x : Queue) : (s.setHq q x).errors = s.errors := rfl
@[simp] theorem State.setHq_asyncs (s : State) (q : Nat) (x : Queue) : (s.setHq q x).asyncs = s.asyncs := rfl
@[simp] theorem State.setHq_pwrcap (s : State) (q : Nat) (x : Queue) : (s.setHq q x).pwrcap = s.pwrcap := rfl
@[simp] theorem State.setHq_modl (s : State) (q : Nat) (x : Queue) : (s.setHq q x).modl = s.modl := rfl
@[simp] theorem State.setHq_ports (s : State) (q : Nat) (x : Queue) : (s.setHq q x).ports = s.ports := rfl
@[simp] theorem State.setHq_circuits (s : State) (q : Nat) (x : Queue) : (s.setHq q x).circuits = s.circuits := rfl
@[simp] theorem State.setHq_links (s : State) (q : Nat) (x : Queue) : (s.setHq q x).links = s.links := rfl
@[simp] theorem State.setHq_fdidValid (s : State) (q : Nat) (x : Queue) : (s.setHq q x).fdidValid = s.fdidValid := rfl
@[simp] theorem State.setHq_fdid (s : State) (q : Nat) (x : Queue) : (s.setHq q x).fdid = s.fdid := rfl
@[simp] theorem State.setHq_epdrop (s : State) (q : Nat) (x : Queue) : (s.setHq q x).epdrop = s.epdrop := rfl
@[simp] theorem State.setHq_route (s : State) (q : Nat) (x : Queue) : (s.setHq q x).route = s.route := rfl
@[simp] theorem State.setHq_seen (s : State) (q : Nat) (x : Queue) : (s.setHq q x).seen = s.seen := rfl
@[simp] theorem State.setHq_pseq (s : State) (q : Nat) (x : Queue) : (s.setHq q x).pseq = s.pseq := rfl
@[simp] theorem State.setHq_tvercur (s : State) (q : Nat) (x : Queue) : (s.setHq q x).tvercur = s.tvercur := rfl
@[simp] theorem State.setHq_tverseen (s : State) (q : Nat) (x : Queue) : (s.setHq q x).tverseen = s.tverseen := rfl
@[simp] theorem State.setHq_slotmiss (s : State) (q : Nat) (x : Queue) : (s.setHq q x).slotmiss = s.slotmiss := rfl
@[simp] theorem State.setHq_errest (s : State) (q : Nat) (x : Queue) : (s.setHq q x).errest = s.errest := rfl
@[simp] theorem State.setHq_master (s : State) (q : Nat) (x : Queue) : (s.setHq q x).master = s.master := rfl
@[simp] theorem State.setHq_bper (s : State) (q : Nat) (x : Queue) : (s.setHq q x).bper = s.bper := rfl
@[simp] theorem State.setHq_plant (s : State) (q : Nat) (x : Queue) : (s.setHq q x).plant = s.plant := rfl
@[simp] theorem State.setHq_beaconAt (s : State) (q : Nat) (x : Queue) : (s.setHq q x).beaconAt = s.beaconAt := rfl
@[simp] theorem State.setHq_gaffer (s : State) (q : Nat) (x : Queue) : (s.setHq q x).gaffer = s.gaffer := rfl
@[simp] theorem State.setHq_cru (s : State) (q : Nat) (x : Queue) : (s.setHq q x).cru = s.cru := rfl
@[simp] theorem State.setHq_ubcnt (s : State) (q : Nat) (x : Queue) : (s.setHq q x).ubcnt = s.ubcnt := rfl
@[simp] theorem State.setHq_streams (s : State) (q : Nat) (x : Queue) : (s.setHq q x).streams = s.streams := rfl
@[simp] theorem State.setHq_windows (s : State) (q : Nat) (x : Queue) : (s.setHq q x).windows = s.windows := rfl
@[simp] theorem State.setHq_creations (s : State) (q : Nat) (x : Queue) : (s.setHq q x).creations = s.creations := rfl
@[simp] theorem State.setHq_mgmt (s : State) (q : Nat) (x : Queue) : (s.setHq q x).mgmt = s.mgmt := rfl
@[simp] theorem State.setHq_loopback (s : State) (q : Nat) (x : Queue) : (s.setHq q x).loopback = s.loopback := rfl
@[simp] theorem State.setHq_outHost (s : State) (q : Nat) (x : Queue) : (s.setHq q x).outHost = s.outHost := rfl
@[simp] theorem State.setHq_outRdma (s : State) (q : Nat) (x : Queue) : (s.setHq q x).outRdma = s.outRdma := rfl
@[simp] theorem State.setHq_outPkt (s : State) (q : Nat) (x : Queue) : (s.setHq q x).outPkt = s.outPkt := rfl
@[simp] theorem State.setHq_outFlit (s : State) (q : Nat) (x : Queue) : (s.setHq q x).outFlit = s.outFlit := rfl
@[simp] theorem State.setHq_outCtl (s : State) (q : Nat) (x : Queue) : (s.setHq q x).outCtl = s.outCtl := rfl
@[simp] theorem State.setHq_outNd (s : State) (q : Nat) (x : Queue) : (s.setHq q x).outNd = s.outNd := rfl
@[simp] theorem State.setHq_outSide (s : State) (q : Nat) (x : Queue) : (s.setHq q x).outSide = s.outSide := rfl
@[simp] theorem State.setHq_written (s : State) (q : Nat) (x : Queue) : (s.setHq q x).written = s.written := rfl
@[simp] theorem State.setHq_badFrames (s : State) (q : Nat) (x : Queue) : (s.setHq q x).badFrames = s.badFrames := rfl

/-! setCtx changes only `ctxs`. -/

@[simp] theorem State.setCtx_now (s : State) (n : Nat) (x : Ctx) : (s.setCtx n x).now = s.now := rfl
@[simp] theorem State.setCtx_ahead (s : State) (n : Nat) (x : Ctx) : (s.setCtx n x).ahead = s.ahead := rfl
@[simp] theorem State.setCtx_ticks (s : State) (n : Nat) (x : Ctx) : (s.setCtx n x).ticks = s.ticks := rfl
@[simp] theorem State.setCtx_cur (s : State) (n : Nat) (x : Ctx) : (s.setCtx n x).cur = s.cur := rfl
@[simp] theorem State.setCtx_agenda (s : State) (n : Nat) (x : Ctx) : (s.setCtx n x).agenda = s.agenda := rfl
@[simp] theorem State.setCtx_queue (s : State) (n : Nat) (x : Ctx) : (s.setCtx n x).queue = s.queue := rfl
@[simp] theorem State.setCtx_timers (s : State) (n : Nat) (x : Ctx) : (s.setCtx n x).timers = s.timers := rfl
@[simp] theorem State.setCtx_round (s : State) (n : Nat) (x : Ctx) : (s.setCtx n x).round = s.round := rfl
@[simp] theorem State.setCtx_moved (s : State) (n : Nat) (x : Ctx) : (s.setCtx n x).moved = s.moved := rfl
@[simp] theorem State.setCtx_free (s : State) (n : Nat) (x : Ctx) : (s.setCtx n x).free = s.free := rfl
@[simp] theorem State.setCtx_nextId (s : State) (n : Nat) (x : Ctx) : (s.setCtx n x).nextId = s.nextId := rfl
@[simp] theorem State.setCtx_mem (s : State) (n : Nat) (x : Ctx) : (s.setCtx n x).mem = s.mem := rfl
@[simp] theorem State.setCtx_cores (s : State) (n : Nat) (x : Ctx) : (s.setCtx n x).cores = s.cores := rfl
@[simp] theorem State.setCtx_clusters (s : State) (n : Nat) (x : Ctx) : (s.setCtx n x).clusters = s.clusters := rfl
@[simp] theorem State.setCtx_dies (s : State) (n : Nat) (x : Ctx) : (s.setCtx n x).dies = s.dies := rfl
@[simp] theorem State.setCtx_queues (s : State) (n : Nat) (x : Ctx) : (s.setCtx n x).queues = s.queues := rfl
@[simp] theorem State.setCtx_runs (s : State) (n : Nat) (x : Ctx) : (s.setCtx n x).runs = s.runs := rfl
@[simp] theorem State.setCtx_tlb (s : State) (n : Nat) (x : Ctx) : (s.setCtx n x).tlb = s.tlb := rfl
@[simp] theorem State.setCtx_pend (s : State) (n : Nat) (x : Ctx) : (s.setCtx n x).pend = s.pend := rfl
@[simp] theorem State.setCtx_faultId (s : State) (n : Nat) (x : Ctx) : (s.setCtx n x).faultId = s.faultId := rfl
@[simp] theorem State.setCtx_errors (s : State) (n : Nat) (x : Ctx) : (s.setCtx n x).errors = s.errors := rfl
@[simp] theorem State.setCtx_asyncs (s : State) (n : Nat) (x : Ctx) : (s.setCtx n x).asyncs = s.asyncs := rfl
@[simp] theorem State.setCtx_pwrcap (s : State) (n : Nat) (x : Ctx) : (s.setCtx n x).pwrcap = s.pwrcap := rfl
@[simp] theorem State.setCtx_modl (s : State) (n : Nat) (x : Ctx) : (s.setCtx n x).modl = s.modl := rfl
@[simp] theorem State.setCtx_ports (s : State) (n : Nat) (x : Ctx) : (s.setCtx n x).ports = s.ports := rfl
@[simp] theorem State.setCtx_circuits (s : State) (n : Nat) (x : Ctx) : (s.setCtx n x).circuits = s.circuits := rfl
@[simp] theorem State.setCtx_links (s : State) (n : Nat) (x : Ctx) : (s.setCtx n x).links = s.links := rfl
@[simp] theorem State.setCtx_fdidValid (s : State) (n : Nat) (x : Ctx) : (s.setCtx n x).fdidValid = s.fdidValid := rfl
@[simp] theorem State.setCtx_fdid (s : State) (n : Nat) (x : Ctx) : (s.setCtx n x).fdid = s.fdid := rfl
@[simp] theorem State.setCtx_epdrop (s : State) (n : Nat) (x : Ctx) : (s.setCtx n x).epdrop = s.epdrop := rfl
@[simp] theorem State.setCtx_route (s : State) (n : Nat) (x : Ctx) : (s.setCtx n x).route = s.route := rfl
@[simp] theorem State.setCtx_seen (s : State) (n : Nat) (x : Ctx) : (s.setCtx n x).seen = s.seen := rfl
@[simp] theorem State.setCtx_pseq (s : State) (n : Nat) (x : Ctx) : (s.setCtx n x).pseq = s.pseq := rfl
@[simp] theorem State.setCtx_tvercur (s : State) (n : Nat) (x : Ctx) : (s.setCtx n x).tvercur = s.tvercur := rfl
@[simp] theorem State.setCtx_tverseen (s : State) (n : Nat) (x : Ctx) : (s.setCtx n x).tverseen = s.tverseen := rfl
@[simp] theorem State.setCtx_slotmiss (s : State) (n : Nat) (x : Ctx) : (s.setCtx n x).slotmiss = s.slotmiss := rfl
@[simp] theorem State.setCtx_errest (s : State) (n : Nat) (x : Ctx) : (s.setCtx n x).errest = s.errest := rfl
@[simp] theorem State.setCtx_master (s : State) (n : Nat) (x : Ctx) : (s.setCtx n x).master = s.master := rfl
@[simp] theorem State.setCtx_bper (s : State) (n : Nat) (x : Ctx) : (s.setCtx n x).bper = s.bper := rfl
@[simp] theorem State.setCtx_plant (s : State) (n : Nat) (x : Ctx) : (s.setCtx n x).plant = s.plant := rfl
@[simp] theorem State.setCtx_beaconAt (s : State) (n : Nat) (x : Ctx) : (s.setCtx n x).beaconAt = s.beaconAt := rfl
@[simp] theorem State.setCtx_gaffer (s : State) (n : Nat) (x : Ctx) : (s.setCtx n x).gaffer = s.gaffer := rfl
@[simp] theorem State.setCtx_cru (s : State) (n : Nat) (x : Ctx) : (s.setCtx n x).cru = s.cru := rfl
@[simp] theorem State.setCtx_ubcnt (s : State) (n : Nat) (x : Ctx) : (s.setCtx n x).ubcnt = s.ubcnt := rfl
@[simp] theorem State.setCtx_streams (s : State) (n : Nat) (x : Ctx) : (s.setCtx n x).streams = s.streams := rfl
@[simp] theorem State.setCtx_windows (s : State) (n : Nat) (x : Ctx) : (s.setCtx n x).windows = s.windows := rfl
@[simp] theorem State.setCtx_creations (s : State) (n : Nat) (x : Ctx) : (s.setCtx n x).creations = s.creations := rfl
@[simp] theorem State.setCtx_mgmt (s : State) (n : Nat) (x : Ctx) : (s.setCtx n x).mgmt = s.mgmt := rfl
@[simp] theorem State.setCtx_loopback (s : State) (n : Nat) (x : Ctx) : (s.setCtx n x).loopback = s.loopback := rfl
@[simp] theorem State.setCtx_outHost (s : State) (n : Nat) (x : Ctx) : (s.setCtx n x).outHost = s.outHost := rfl
@[simp] theorem State.setCtx_outRdma (s : State) (n : Nat) (x : Ctx) : (s.setCtx n x).outRdma = s.outRdma := rfl
@[simp] theorem State.setCtx_outPkt (s : State) (n : Nat) (x : Ctx) : (s.setCtx n x).outPkt = s.outPkt := rfl
@[simp] theorem State.setCtx_outFlit (s : State) (n : Nat) (x : Ctx) : (s.setCtx n x).outFlit = s.outFlit := rfl
@[simp] theorem State.setCtx_outCtl (s : State) (n : Nat) (x : Ctx) : (s.setCtx n x).outCtl = s.outCtl := rfl
@[simp] theorem State.setCtx_outNd (s : State) (n : Nat) (x : Ctx) : (s.setCtx n x).outNd = s.outNd := rfl
@[simp] theorem State.setCtx_outSide (s : State) (n : Nat) (x : Ctx) : (s.setCtx n x).outSide = s.outSide := rfl
@[simp] theorem State.setCtx_written (s : State) (n : Nat) (x : Ctx) : (s.setCtx n x).written = s.written := rfl
@[simp] theorem State.setCtx_badFrames (s : State) (n : Nat) (x : Ctx) : (s.setCtx n x).badFrames = s.badFrames := rfl

/-! setPort changes only `ports`. -/

@[simp] theorem State.setPort_now (s : State) (p : Nat) (x : Port) : (s.setPort p x).now = s.now := rfl
@[simp] theorem State.setPort_ahead (s : State) (p : Nat) (x : Port) : (s.setPort p x).ahead = s.ahead := rfl
@[simp] theorem State.setPort_ticks (s : State) (p : Nat) (x : Port) : (s.setPort p x).ticks = s.ticks := rfl
@[simp] theorem State.setPort_cur (s : State) (p : Nat) (x : Port) : (s.setPort p x).cur = s.cur := rfl
@[simp] theorem State.setPort_agenda (s : State) (p : Nat) (x : Port) : (s.setPort p x).agenda = s.agenda := rfl
@[simp] theorem State.setPort_queue (s : State) (p : Nat) (x : Port) : (s.setPort p x).queue = s.queue := rfl
@[simp] theorem State.setPort_timers (s : State) (p : Nat) (x : Port) : (s.setPort p x).timers = s.timers := rfl
@[simp] theorem State.setPort_round (s : State) (p : Nat) (x : Port) : (s.setPort p x).round = s.round := rfl
@[simp] theorem State.setPort_moved (s : State) (p : Nat) (x : Port) : (s.setPort p x).moved = s.moved := rfl
@[simp] theorem State.setPort_free (s : State) (p : Nat) (x : Port) : (s.setPort p x).free = s.free := rfl
@[simp] theorem State.setPort_nextId (s : State) (p : Nat) (x : Port) : (s.setPort p x).nextId = s.nextId := rfl
@[simp] theorem State.setPort_mem (s : State) (p : Nat) (x : Port) : (s.setPort p x).mem = s.mem := rfl
@[simp] theorem State.setPort_cores (s : State) (p : Nat) (x : Port) : (s.setPort p x).cores = s.cores := rfl
@[simp] theorem State.setPort_clusters (s : State) (p : Nat) (x : Port) : (s.setPort p x).clusters = s.clusters := rfl
@[simp] theorem State.setPort_dies (s : State) (p : Nat) (x : Port) : (s.setPort p x).dies = s.dies := rfl
@[simp] theorem State.setPort_queues (s : State) (p : Nat) (x : Port) : (s.setPort p x).queues = s.queues := rfl
@[simp] theorem State.setPort_runs (s : State) (p : Nat) (x : Port) : (s.setPort p x).runs = s.runs := rfl
@[simp] theorem State.setPort_ctxs (s : State) (p : Nat) (x : Port) : (s.setPort p x).ctxs = s.ctxs := rfl
@[simp] theorem State.setPort_tlb (s : State) (p : Nat) (x : Port) : (s.setPort p x).tlb = s.tlb := rfl
@[simp] theorem State.setPort_pend (s : State) (p : Nat) (x : Port) : (s.setPort p x).pend = s.pend := rfl
@[simp] theorem State.setPort_faultId (s : State) (p : Nat) (x : Port) : (s.setPort p x).faultId = s.faultId := rfl
@[simp] theorem State.setPort_errors (s : State) (p : Nat) (x : Port) : (s.setPort p x).errors = s.errors := rfl
@[simp] theorem State.setPort_asyncs (s : State) (p : Nat) (x : Port) : (s.setPort p x).asyncs = s.asyncs := rfl
@[simp] theorem State.setPort_pwrcap (s : State) (p : Nat) (x : Port) : (s.setPort p x).pwrcap = s.pwrcap := rfl
@[simp] theorem State.setPort_modl (s : State) (p : Nat) (x : Port) : (s.setPort p x).modl = s.modl := rfl
@[simp] theorem State.setPort_circuits (s : State) (p : Nat) (x : Port) : (s.setPort p x).circuits = s.circuits := rfl
@[simp] theorem State.setPort_links (s : State) (p : Nat) (x : Port) : (s.setPort p x).links = s.links := rfl
@[simp] theorem State.setPort_fdidValid (s : State) (p : Nat) (x : Port) : (s.setPort p x).fdidValid = s.fdidValid := rfl
@[simp] theorem State.setPort_fdid (s : State) (p : Nat) (x : Port) : (s.setPort p x).fdid = s.fdid := rfl
@[simp] theorem State.setPort_epdrop (s : State) (p : Nat) (x : Port) : (s.setPort p x).epdrop = s.epdrop := rfl
@[simp] theorem State.setPort_route (s : State) (p : Nat) (x : Port) : (s.setPort p x).route = s.route := rfl
@[simp] theorem State.setPort_seen (s : State) (p : Nat) (x : Port) : (s.setPort p x).seen = s.seen := rfl
@[simp] theorem State.setPort_pseq (s : State) (p : Nat) (x : Port) : (s.setPort p x).pseq = s.pseq := rfl
@[simp] theorem State.setPort_tvercur (s : State) (p : Nat) (x : Port) : (s.setPort p x).tvercur = s.tvercur := rfl
@[simp] theorem State.setPort_tverseen (s : State) (p : Nat) (x : Port) : (s.setPort p x).tverseen = s.tverseen := rfl
@[simp] theorem State.setPort_slotmiss (s : State) (p : Nat) (x : Port) : (s.setPort p x).slotmiss = s.slotmiss := rfl
@[simp] theorem State.setPort_errest (s : State) (p : Nat) (x : Port) : (s.setPort p x).errest = s.errest := rfl
@[simp] theorem State.setPort_master (s : State) (p : Nat) (x : Port) : (s.setPort p x).master = s.master := rfl
@[simp] theorem State.setPort_bper (s : State) (p : Nat) (x : Port) : (s.setPort p x).bper = s.bper := rfl
@[simp] theorem State.setPort_plant (s : State) (p : Nat) (x : Port) : (s.setPort p x).plant = s.plant := rfl
@[simp] theorem State.setPort_beaconAt (s : State) (p : Nat) (x : Port) : (s.setPort p x).beaconAt = s.beaconAt := rfl
@[simp] theorem State.setPort_gaffer (s : State) (p : Nat) (x : Port) : (s.setPort p x).gaffer = s.gaffer := rfl
@[simp] theorem State.setPort_cru (s : State) (p : Nat) (x : Port) : (s.setPort p x).cru = s.cru := rfl
@[simp] theorem State.setPort_ubcnt (s : State) (p : Nat) (x : Port) : (s.setPort p x).ubcnt = s.ubcnt := rfl
@[simp] theorem State.setPort_streams (s : State) (p : Nat) (x : Port) : (s.setPort p x).streams = s.streams := rfl
@[simp] theorem State.setPort_windows (s : State) (p : Nat) (x : Port) : (s.setPort p x).windows = s.windows := rfl
@[simp] theorem State.setPort_creations (s : State) (p : Nat) (x : Port) : (s.setPort p x).creations = s.creations := rfl
@[simp] theorem State.setPort_mgmt (s : State) (p : Nat) (x : Port) : (s.setPort p x).mgmt = s.mgmt := rfl
@[simp] theorem State.setPort_loopback (s : State) (p : Nat) (x : Port) : (s.setPort p x).loopback = s.loopback := rfl
@[simp] theorem State.setPort_outHost (s : State) (p : Nat) (x : Port) : (s.setPort p x).outHost = s.outHost := rfl
@[simp] theorem State.setPort_outRdma (s : State) (p : Nat) (x : Port) : (s.setPort p x).outRdma = s.outRdma := rfl
@[simp] theorem State.setPort_outPkt (s : State) (p : Nat) (x : Port) : (s.setPort p x).outPkt = s.outPkt := rfl
@[simp] theorem State.setPort_outFlit (s : State) (p : Nat) (x : Port) : (s.setPort p x).outFlit = s.outFlit := rfl
@[simp] theorem State.setPort_outCtl (s : State) (p : Nat) (x : Port) : (s.setPort p x).outCtl = s.outCtl := rfl
@[simp] theorem State.setPort_outNd (s : State) (p : Nat) (x : Port) : (s.setPort p x).outNd = s.outNd := rfl
@[simp] theorem State.setPort_outSide (s : State) (p : Nat) (x : Port) : (s.setPort p x).outSide = s.outSide := rfl
@[simp] theorem State.setPort_written (s : State) (p : Nat) (x : Port) : (s.setPort p x).written = s.written := rfl
@[simp] theorem State.setPort_badFrames (s : State) (p : Nat) (x : Port) : (s.setPort p x).badFrames = s.badFrames := rfl

/-! setCircuit changes only `circuits`. -/

@[simp] theorem State.setCircuit_now (s : State) (e : Nat) (x : Circuit) : (s.setCircuit e x).now = s.now := rfl
@[simp] theorem State.setCircuit_ahead (s : State) (e : Nat) (x : Circuit) : (s.setCircuit e x).ahead = s.ahead := rfl
@[simp] theorem State.setCircuit_ticks (s : State) (e : Nat) (x : Circuit) : (s.setCircuit e x).ticks = s.ticks := rfl
@[simp] theorem State.setCircuit_cur (s : State) (e : Nat) (x : Circuit) : (s.setCircuit e x).cur = s.cur := rfl
@[simp] theorem State.setCircuit_agenda (s : State) (e : Nat) (x : Circuit) : (s.setCircuit e x).agenda = s.agenda := rfl
@[simp] theorem State.setCircuit_queue (s : State) (e : Nat) (x : Circuit) : (s.setCircuit e x).queue = s.queue := rfl
@[simp] theorem State.setCircuit_timers (s : State) (e : Nat) (x : Circuit) : (s.setCircuit e x).timers = s.timers := rfl
@[simp] theorem State.setCircuit_round (s : State) (e : Nat) (x : Circuit) : (s.setCircuit e x).round = s.round := rfl
@[simp] theorem State.setCircuit_moved (s : State) (e : Nat) (x : Circuit) : (s.setCircuit e x).moved = s.moved := rfl
@[simp] theorem State.setCircuit_free (s : State) (e : Nat) (x : Circuit) : (s.setCircuit e x).free = s.free := rfl
@[simp] theorem State.setCircuit_nextId (s : State) (e : Nat) (x : Circuit) : (s.setCircuit e x).nextId = s.nextId := rfl
@[simp] theorem State.setCircuit_mem (s : State) (e : Nat) (x : Circuit) : (s.setCircuit e x).mem = s.mem := rfl
@[simp] theorem State.setCircuit_cores (s : State) (e : Nat) (x : Circuit) : (s.setCircuit e x).cores = s.cores := rfl
@[simp] theorem State.setCircuit_clusters (s : State) (e : Nat) (x : Circuit) : (s.setCircuit e x).clusters = s.clusters := rfl
@[simp] theorem State.setCircuit_dies (s : State) (e : Nat) (x : Circuit) : (s.setCircuit e x).dies = s.dies := rfl
@[simp] theorem State.setCircuit_queues (s : State) (e : Nat) (x : Circuit) : (s.setCircuit e x).queues = s.queues := rfl
@[simp] theorem State.setCircuit_runs (s : State) (e : Nat) (x : Circuit) : (s.setCircuit e x).runs = s.runs := rfl
@[simp] theorem State.setCircuit_ctxs (s : State) (e : Nat) (x : Circuit) : (s.setCircuit e x).ctxs = s.ctxs := rfl
@[simp] theorem State.setCircuit_tlb (s : State) (e : Nat) (x : Circuit) : (s.setCircuit e x).tlb = s.tlb := rfl
@[simp] theorem State.setCircuit_pend (s : State) (e : Nat) (x : Circuit) : (s.setCircuit e x).pend = s.pend := rfl
@[simp] theorem State.setCircuit_faultId (s : State) (e : Nat) (x : Circuit) : (s.setCircuit e x).faultId = s.faultId := rfl
@[simp] theorem State.setCircuit_errors (s : State) (e : Nat) (x : Circuit) : (s.setCircuit e x).errors = s.errors := rfl
@[simp] theorem State.setCircuit_asyncs (s : State) (e : Nat) (x : Circuit) : (s.setCircuit e x).asyncs = s.asyncs := rfl
@[simp] theorem State.setCircuit_pwrcap (s : State) (e : Nat) (x : Circuit) : (s.setCircuit e x).pwrcap = s.pwrcap := rfl
@[simp] theorem State.setCircuit_modl (s : State) (e : Nat) (x : Circuit) : (s.setCircuit e x).modl = s.modl := rfl
@[simp] theorem State.setCircuit_ports (s : State) (e : Nat) (x : Circuit) : (s.setCircuit e x).ports = s.ports := rfl
@[simp] theorem State.setCircuit_links (s : State) (e : Nat) (x : Circuit) : (s.setCircuit e x).links = s.links := rfl
@[simp] theorem State.setCircuit_fdidValid (s : State) (e : Nat) (x : Circuit) : (s.setCircuit e x).fdidValid = s.fdidValid := rfl
@[simp] theorem State.setCircuit_fdid (s : State) (e : Nat) (x : Circuit) : (s.setCircuit e x).fdid = s.fdid := rfl
@[simp] theorem State.setCircuit_epdrop (s : State) (e : Nat) (x : Circuit) : (s.setCircuit e x).epdrop = s.epdrop := rfl
@[simp] theorem State.setCircuit_route (s : State) (e : Nat) (x : Circuit) : (s.setCircuit e x).route = s.route := rfl
@[simp] theorem State.setCircuit_seen (s : State) (e : Nat) (x : Circuit) : (s.setCircuit e x).seen = s.seen := rfl
@[simp] theorem State.setCircuit_pseq (s : State) (e : Nat) (x : Circuit) : (s.setCircuit e x).pseq = s.pseq := rfl
@[simp] theorem State.setCircuit_tvercur (s : State) (e : Nat) (x : Circuit) : (s.setCircuit e x).tvercur = s.tvercur := rfl
@[simp] theorem State.setCircuit_tverseen (s : State) (e : Nat) (x : Circuit) : (s.setCircuit e x).tverseen = s.tverseen := rfl
@[simp] theorem State.setCircuit_slotmiss (s : State) (e : Nat) (x : Circuit) : (s.setCircuit e x).slotmiss = s.slotmiss := rfl
@[simp] theorem State.setCircuit_errest (s : State) (e : Nat) (x : Circuit) : (s.setCircuit e x).errest = s.errest := rfl
@[simp] theorem State.setCircuit_master (s : State) (e : Nat) (x : Circuit) : (s.setCircuit e x).master = s.master := rfl
@[simp] theorem State.setCircuit_bper (s : State) (e : Nat) (x : Circuit) : (s.setCircuit e x).bper = s.bper := rfl
@[simp] theorem State.setCircuit_plant (s : State) (e : Nat) (x : Circuit) : (s.setCircuit e x).plant = s.plant := rfl
@[simp] theorem State.setCircuit_beaconAt (s : State) (e : Nat) (x : Circuit) : (s.setCircuit e x).beaconAt = s.beaconAt := rfl
@[simp] theorem State.setCircuit_gaffer (s : State) (e : Nat) (x : Circuit) : (s.setCircuit e x).gaffer = s.gaffer := rfl
@[simp] theorem State.setCircuit_cru (s : State) (e : Nat) (x : Circuit) : (s.setCircuit e x).cru = s.cru := rfl
@[simp] theorem State.setCircuit_ubcnt (s : State) (e : Nat) (x : Circuit) : (s.setCircuit e x).ubcnt = s.ubcnt := rfl
@[simp] theorem State.setCircuit_streams (s : State) (e : Nat) (x : Circuit) : (s.setCircuit e x).streams = s.streams := rfl
@[simp] theorem State.setCircuit_windows (s : State) (e : Nat) (x : Circuit) : (s.setCircuit e x).windows = s.windows := rfl
@[simp] theorem State.setCircuit_creations (s : State) (e : Nat) (x : Circuit) : (s.setCircuit e x).creations = s.creations := rfl
@[simp] theorem State.setCircuit_mgmt (s : State) (e : Nat) (x : Circuit) : (s.setCircuit e x).mgmt = s.mgmt := rfl
@[simp] theorem State.setCircuit_loopback (s : State) (e : Nat) (x : Circuit) : (s.setCircuit e x).loopback = s.loopback := rfl
@[simp] theorem State.setCircuit_outHost (s : State) (e : Nat) (x : Circuit) : (s.setCircuit e x).outHost = s.outHost := rfl
@[simp] theorem State.setCircuit_outRdma (s : State) (e : Nat) (x : Circuit) : (s.setCircuit e x).outRdma = s.outRdma := rfl
@[simp] theorem State.setCircuit_outPkt (s : State) (e : Nat) (x : Circuit) : (s.setCircuit e x).outPkt = s.outPkt := rfl
@[simp] theorem State.setCircuit_outFlit (s : State) (e : Nat) (x : Circuit) : (s.setCircuit e x).outFlit = s.outFlit := rfl
@[simp] theorem State.setCircuit_outCtl (s : State) (e : Nat) (x : Circuit) : (s.setCircuit e x).outCtl = s.outCtl := rfl
@[simp] theorem State.setCircuit_outNd (s : State) (e : Nat) (x : Circuit) : (s.setCircuit e x).outNd = s.outNd := rfl
@[simp] theorem State.setCircuit_outSide (s : State) (e : Nat) (x : Circuit) : (s.setCircuit e x).outSide = s.outSide := rfl
@[simp] theorem State.setCircuit_written (s : State) (e : Nat) (x : Circuit) : (s.setCircuit e x).written = s.written := rfl
@[simp] theorem State.setCircuit_badFrames (s : State) (e : Nat) (x : Circuit) : (s.setCircuit e x).badFrames = s.badFrames := rfl

/-! setLink changes only `links`. -/

@[simp] theorem State.setLink_now (s : State) (l : Nat) (x : Link) : (s.setLink l x).now = s.now := rfl
@[simp] theorem State.setLink_ahead (s : State) (l : Nat) (x : Link) : (s.setLink l x).ahead = s.ahead := rfl
@[simp] theorem State.setLink_ticks (s : State) (l : Nat) (x : Link) : (s.setLink l x).ticks = s.ticks := rfl
@[simp] theorem State.setLink_cur (s : State) (l : Nat) (x : Link) : (s.setLink l x).cur = s.cur := rfl
@[simp] theorem State.setLink_agenda (s : State) (l : Nat) (x : Link) : (s.setLink l x).agenda = s.agenda := rfl
@[simp] theorem State.setLink_queue (s : State) (l : Nat) (x : Link) : (s.setLink l x).queue = s.queue := rfl
@[simp] theorem State.setLink_timers (s : State) (l : Nat) (x : Link) : (s.setLink l x).timers = s.timers := rfl
@[simp] theorem State.setLink_round (s : State) (l : Nat) (x : Link) : (s.setLink l x).round = s.round := rfl
@[simp] theorem State.setLink_moved (s : State) (l : Nat) (x : Link) : (s.setLink l x).moved = s.moved := rfl
@[simp] theorem State.setLink_free (s : State) (l : Nat) (x : Link) : (s.setLink l x).free = s.free := rfl
@[simp] theorem State.setLink_nextId (s : State) (l : Nat) (x : Link) : (s.setLink l x).nextId = s.nextId := rfl
@[simp] theorem State.setLink_mem (s : State) (l : Nat) (x : Link) : (s.setLink l x).mem = s.mem := rfl
@[simp] theorem State.setLink_cores (s : State) (l : Nat) (x : Link) : (s.setLink l x).cores = s.cores := rfl
@[simp] theorem State.setLink_clusters (s : State) (l : Nat) (x : Link) : (s.setLink l x).clusters = s.clusters := rfl
@[simp] theorem State.setLink_dies (s : State) (l : Nat) (x : Link) : (s.setLink l x).dies = s.dies := rfl
@[simp] theorem State.setLink_queues (s : State) (l : Nat) (x : Link) : (s.setLink l x).queues = s.queues := rfl
@[simp] theorem State.setLink_runs (s : State) (l : Nat) (x : Link) : (s.setLink l x).runs = s.runs := rfl
@[simp] theorem State.setLink_ctxs (s : State) (l : Nat) (x : Link) : (s.setLink l x).ctxs = s.ctxs := rfl
@[simp] theorem State.setLink_tlb (s : State) (l : Nat) (x : Link) : (s.setLink l x).tlb = s.tlb := rfl
@[simp] theorem State.setLink_pend (s : State) (l : Nat) (x : Link) : (s.setLink l x).pend = s.pend := rfl
@[simp] theorem State.setLink_faultId (s : State) (l : Nat) (x : Link) : (s.setLink l x).faultId = s.faultId := rfl
@[simp] theorem State.setLink_errors (s : State) (l : Nat) (x : Link) : (s.setLink l x).errors = s.errors := rfl
@[simp] theorem State.setLink_asyncs (s : State) (l : Nat) (x : Link) : (s.setLink l x).asyncs = s.asyncs := rfl
@[simp] theorem State.setLink_pwrcap (s : State) (l : Nat) (x : Link) : (s.setLink l x).pwrcap = s.pwrcap := rfl
@[simp] theorem State.setLink_modl (s : State) (l : Nat) (x : Link) : (s.setLink l x).modl = s.modl := rfl
@[simp] theorem State.setLink_ports (s : State) (l : Nat) (x : Link) : (s.setLink l x).ports = s.ports := rfl
@[simp] theorem State.setLink_circuits (s : State) (l : Nat) (x : Link) : (s.setLink l x).circuits = s.circuits := rfl
@[simp] theorem State.setLink_fdidValid (s : State) (l : Nat) (x : Link) : (s.setLink l x).fdidValid = s.fdidValid := rfl
@[simp] theorem State.setLink_fdid (s : State) (l : Nat) (x : Link) : (s.setLink l x).fdid = s.fdid := rfl
@[simp] theorem State.setLink_epdrop (s : State) (l : Nat) (x : Link) : (s.setLink l x).epdrop = s.epdrop := rfl
@[simp] theorem State.setLink_route (s : State) (l : Nat) (x : Link) : (s.setLink l x).route = s.route := rfl
@[simp] theorem State.setLink_seen (s : State) (l : Nat) (x : Link) : (s.setLink l x).seen = s.seen := rfl
@[simp] theorem State.setLink_pseq (s : State) (l : Nat) (x : Link) : (s.setLink l x).pseq = s.pseq := rfl
@[simp] theorem State.setLink_tvercur (s : State) (l : Nat) (x : Link) : (s.setLink l x).tvercur = s.tvercur := rfl
@[simp] theorem State.setLink_tverseen (s : State) (l : Nat) (x : Link) : (s.setLink l x).tverseen = s.tverseen := rfl
@[simp] theorem State.setLink_slotmiss (s : State) (l : Nat) (x : Link) : (s.setLink l x).slotmiss = s.slotmiss := rfl
@[simp] theorem State.setLink_errest (s : State) (l : Nat) (x : Link) : (s.setLink l x).errest = s.errest := rfl
@[simp] theorem State.setLink_master (s : State) (l : Nat) (x : Link) : (s.setLink l x).master = s.master := rfl
@[simp] theorem State.setLink_bper (s : State) (l : Nat) (x : Link) : (s.setLink l x).bper = s.bper := rfl
@[simp] theorem State.setLink_plant (s : State) (l : Nat) (x : Link) : (s.setLink l x).plant = s.plant := rfl
@[simp] theorem State.setLink_beaconAt (s : State) (l : Nat) (x : Link) : (s.setLink l x).beaconAt = s.beaconAt := rfl
@[simp] theorem State.setLink_gaffer (s : State) (l : Nat) (x : Link) : (s.setLink l x).gaffer = s.gaffer := rfl
@[simp] theorem State.setLink_cru (s : State) (l : Nat) (x : Link) : (s.setLink l x).cru = s.cru := rfl
@[simp] theorem State.setLink_ubcnt (s : State) (l : Nat) (x : Link) : (s.setLink l x).ubcnt = s.ubcnt := rfl
@[simp] theorem State.setLink_streams (s : State) (l : Nat) (x : Link) : (s.setLink l x).streams = s.streams := rfl
@[simp] theorem State.setLink_windows (s : State) (l : Nat) (x : Link) : (s.setLink l x).windows = s.windows := rfl
@[simp] theorem State.setLink_creations (s : State) (l : Nat) (x : Link) : (s.setLink l x).creations = s.creations := rfl
@[simp] theorem State.setLink_mgmt (s : State) (l : Nat) (x : Link) : (s.setLink l x).mgmt = s.mgmt := rfl
@[simp] theorem State.setLink_loopback (s : State) (l : Nat) (x : Link) : (s.setLink l x).loopback = s.loopback := rfl
@[simp] theorem State.setLink_outHost (s : State) (l : Nat) (x : Link) : (s.setLink l x).outHost = s.outHost := rfl
@[simp] theorem State.setLink_outRdma (s : State) (l : Nat) (x : Link) : (s.setLink l x).outRdma = s.outRdma := rfl
@[simp] theorem State.setLink_outPkt (s : State) (l : Nat) (x : Link) : (s.setLink l x).outPkt = s.outPkt := rfl
@[simp] theorem State.setLink_outFlit (s : State) (l : Nat) (x : Link) : (s.setLink l x).outFlit = s.outFlit := rfl
@[simp] theorem State.setLink_outCtl (s : State) (l : Nat) (x : Link) : (s.setLink l x).outCtl = s.outCtl := rfl
@[simp] theorem State.setLink_outNd (s : State) (l : Nat) (x : Link) : (s.setLink l x).outNd = s.outNd := rfl
@[simp] theorem State.setLink_outSide (s : State) (l : Nat) (x : Link) : (s.setLink l x).outSide = s.outSide := rfl
@[simp] theorem State.setLink_written (s : State) (l : Nat) (x : Link) : (s.setLink l x).written = s.written := rfl
@[simp] theorem State.setLink_badFrames (s : State) (l : Nat) (x : Link) : (s.setLink l x).badFrames = s.badFrames := rfl

/-! setGth changes only `gaffer`. -/

@[simp] theorem State.setGth_now (s : State) (t : Nat) (x : GThread) : (s.setGth t x).now = s.now := rfl
@[simp] theorem State.setGth_ahead (s : State) (t : Nat) (x : GThread) : (s.setGth t x).ahead = s.ahead := rfl
@[simp] theorem State.setGth_ticks (s : State) (t : Nat) (x : GThread) : (s.setGth t x).ticks = s.ticks := rfl
@[simp] theorem State.setGth_cur (s : State) (t : Nat) (x : GThread) : (s.setGth t x).cur = s.cur := rfl
@[simp] theorem State.setGth_agenda (s : State) (t : Nat) (x : GThread) : (s.setGth t x).agenda = s.agenda := rfl
@[simp] theorem State.setGth_queue (s : State) (t : Nat) (x : GThread) : (s.setGth t x).queue = s.queue := rfl
@[simp] theorem State.setGth_timers (s : State) (t : Nat) (x : GThread) : (s.setGth t x).timers = s.timers := rfl
@[simp] theorem State.setGth_round (s : State) (t : Nat) (x : GThread) : (s.setGth t x).round = s.round := rfl
@[simp] theorem State.setGth_moved (s : State) (t : Nat) (x : GThread) : (s.setGth t x).moved = s.moved := rfl
@[simp] theorem State.setGth_free (s : State) (t : Nat) (x : GThread) : (s.setGth t x).free = s.free := rfl
@[simp] theorem State.setGth_nextId (s : State) (t : Nat) (x : GThread) : (s.setGth t x).nextId = s.nextId := rfl
@[simp] theorem State.setGth_mem (s : State) (t : Nat) (x : GThread) : (s.setGth t x).mem = s.mem := rfl
@[simp] theorem State.setGth_cores (s : State) (t : Nat) (x : GThread) : (s.setGth t x).cores = s.cores := rfl
@[simp] theorem State.setGth_clusters (s : State) (t : Nat) (x : GThread) : (s.setGth t x).clusters = s.clusters := rfl
@[simp] theorem State.setGth_dies (s : State) (t : Nat) (x : GThread) : (s.setGth t x).dies = s.dies := rfl
@[simp] theorem State.setGth_queues (s : State) (t : Nat) (x : GThread) : (s.setGth t x).queues = s.queues := rfl
@[simp] theorem State.setGth_runs (s : State) (t : Nat) (x : GThread) : (s.setGth t x).runs = s.runs := rfl
@[simp] theorem State.setGth_ctxs (s : State) (t : Nat) (x : GThread) : (s.setGth t x).ctxs = s.ctxs := rfl
@[simp] theorem State.setGth_tlb (s : State) (t : Nat) (x : GThread) : (s.setGth t x).tlb = s.tlb := rfl
@[simp] theorem State.setGth_pend (s : State) (t : Nat) (x : GThread) : (s.setGth t x).pend = s.pend := rfl
@[simp] theorem State.setGth_faultId (s : State) (t : Nat) (x : GThread) : (s.setGth t x).faultId = s.faultId := rfl
@[simp] theorem State.setGth_errors (s : State) (t : Nat) (x : GThread) : (s.setGth t x).errors = s.errors := rfl
@[simp] theorem State.setGth_asyncs (s : State) (t : Nat) (x : GThread) : (s.setGth t x).asyncs = s.asyncs := rfl
@[simp] theorem State.setGth_pwrcap (s : State) (t : Nat) (x : GThread) : (s.setGth t x).pwrcap = s.pwrcap := rfl
@[simp] theorem State.setGth_modl (s : State) (t : Nat) (x : GThread) : (s.setGth t x).modl = s.modl := rfl
@[simp] theorem State.setGth_ports (s : State) (t : Nat) (x : GThread) : (s.setGth t x).ports = s.ports := rfl
@[simp] theorem State.setGth_circuits (s : State) (t : Nat) (x : GThread) : (s.setGth t x).circuits = s.circuits := rfl
@[simp] theorem State.setGth_links (s : State) (t : Nat) (x : GThread) : (s.setGth t x).links = s.links := rfl
@[simp] theorem State.setGth_fdidValid (s : State) (t : Nat) (x : GThread) : (s.setGth t x).fdidValid = s.fdidValid := rfl
@[simp] theorem State.setGth_fdid (s : State) (t : Nat) (x : GThread) : (s.setGth t x).fdid = s.fdid := rfl
@[simp] theorem State.setGth_epdrop (s : State) (t : Nat) (x : GThread) : (s.setGth t x).epdrop = s.epdrop := rfl
@[simp] theorem State.setGth_route (s : State) (t : Nat) (x : GThread) : (s.setGth t x).route = s.route := rfl
@[simp] theorem State.setGth_seen (s : State) (t : Nat) (x : GThread) : (s.setGth t x).seen = s.seen := rfl
@[simp] theorem State.setGth_pseq (s : State) (t : Nat) (x : GThread) : (s.setGth t x).pseq = s.pseq := rfl
@[simp] theorem State.setGth_tvercur (s : State) (t : Nat) (x : GThread) : (s.setGth t x).tvercur = s.tvercur := rfl
@[simp] theorem State.setGth_tverseen (s : State) (t : Nat) (x : GThread) : (s.setGth t x).tverseen = s.tverseen := rfl
@[simp] theorem State.setGth_slotmiss (s : State) (t : Nat) (x : GThread) : (s.setGth t x).slotmiss = s.slotmiss := rfl
@[simp] theorem State.setGth_errest (s : State) (t : Nat) (x : GThread) : (s.setGth t x).errest = s.errest := rfl
@[simp] theorem State.setGth_master (s : State) (t : Nat) (x : GThread) : (s.setGth t x).master = s.master := rfl
@[simp] theorem State.setGth_bper (s : State) (t : Nat) (x : GThread) : (s.setGth t x).bper = s.bper := rfl
@[simp] theorem State.setGth_plant (s : State) (t : Nat) (x : GThread) : (s.setGth t x).plant = s.plant := rfl
@[simp] theorem State.setGth_beaconAt (s : State) (t : Nat) (x : GThread) : (s.setGth t x).beaconAt = s.beaconAt := rfl
@[simp] theorem State.setGth_cru (s : State) (t : Nat) (x : GThread) : (s.setGth t x).cru = s.cru := rfl
@[simp] theorem State.setGth_ubcnt (s : State) (t : Nat) (x : GThread) : (s.setGth t x).ubcnt = s.ubcnt := rfl
@[simp] theorem State.setGth_streams (s : State) (t : Nat) (x : GThread) : (s.setGth t x).streams = s.streams := rfl
@[simp] theorem State.setGth_windows (s : State) (t : Nat) (x : GThread) : (s.setGth t x).windows = s.windows := rfl
@[simp] theorem State.setGth_creations (s : State) (t : Nat) (x : GThread) : (s.setGth t x).creations = s.creations := rfl
@[simp] theorem State.setGth_mgmt (s : State) (t : Nat) (x : GThread) : (s.setGth t x).mgmt = s.mgmt := rfl
@[simp] theorem State.setGth_loopback (s : State) (t : Nat) (x : GThread) : (s.setGth t x).loopback = s.loopback := rfl
@[simp] theorem State.setGth_outHost (s : State) (t : Nat) (x : GThread) : (s.setGth t x).outHost = s.outHost := rfl
@[simp] theorem State.setGth_outRdma (s : State) (t : Nat) (x : GThread) : (s.setGth t x).outRdma = s.outRdma := rfl
@[simp] theorem State.setGth_outPkt (s : State) (t : Nat) (x : GThread) : (s.setGth t x).outPkt = s.outPkt := rfl
@[simp] theorem State.setGth_outFlit (s : State) (t : Nat) (x : GThread) : (s.setGth t x).outFlit = s.outFlit := rfl
@[simp] theorem State.setGth_outCtl (s : State) (t : Nat) (x : GThread) : (s.setGth t x).outCtl = s.outCtl := rfl
@[simp] theorem State.setGth_outNd (s : State) (t : Nat) (x : GThread) : (s.setGth t x).outNd = s.outNd := rfl
@[simp] theorem State.setGth_outSide (s : State) (t : Nat) (x : GThread) : (s.setGth t x).outSide = s.outSide := rfl
@[simp] theorem State.setGth_written (s : State) (t : Nat) (x : GThread) : (s.setGth t x).written = s.written := rfl
@[simp] theorem State.setGth_badFrames (s : State) (t : Nat) (x : GThread) : (s.setGth t x).badFrames = s.badFrames := rfl

/-! setCx changes only `cru`. -/

@[simp] theorem State.setCx_now (s : State) (i : Nat) (x : Crux) : (s.setCx i x).now = s.now := rfl
@[simp] theorem State.setCx_ahead (s : State) (i : Nat) (x : Crux) : (s.setCx i x).ahead = s.ahead := rfl
@[simp] theorem State.setCx_ticks (s : State) (i : Nat) (x : Crux) : (s.setCx i x).ticks = s.ticks := rfl
@[simp] theorem State.setCx_cur (s : State) (i : Nat) (x : Crux) : (s.setCx i x).cur = s.cur := rfl
@[simp] theorem State.setCx_agenda (s : State) (i : Nat) (x : Crux) : (s.setCx i x).agenda = s.agenda := rfl
@[simp] theorem State.setCx_queue (s : State) (i : Nat) (x : Crux) : (s.setCx i x).queue = s.queue := rfl
@[simp] theorem State.setCx_timers (s : State) (i : Nat) (x : Crux) : (s.setCx i x).timers = s.timers := rfl
@[simp] theorem State.setCx_round (s : State) (i : Nat) (x : Crux) : (s.setCx i x).round = s.round := rfl
@[simp] theorem State.setCx_moved (s : State) (i : Nat) (x : Crux) : (s.setCx i x).moved = s.moved := rfl
@[simp] theorem State.setCx_free (s : State) (i : Nat) (x : Crux) : (s.setCx i x).free = s.free := rfl
@[simp] theorem State.setCx_nextId (s : State) (i : Nat) (x : Crux) : (s.setCx i x).nextId = s.nextId := rfl
@[simp] theorem State.setCx_mem (s : State) (i : Nat) (x : Crux) : (s.setCx i x).mem = s.mem := rfl
@[simp] theorem State.setCx_cores (s : State) (i : Nat) (x : Crux) : (s.setCx i x).cores = s.cores := rfl
@[simp] theorem State.setCx_clusters (s : State) (i : Nat) (x : Crux) : (s.setCx i x).clusters = s.clusters := rfl
@[simp] theorem State.setCx_dies (s : State) (i : Nat) (x : Crux) : (s.setCx i x).dies = s.dies := rfl
@[simp] theorem State.setCx_queues (s : State) (i : Nat) (x : Crux) : (s.setCx i x).queues = s.queues := rfl
@[simp] theorem State.setCx_ubcnt (s : State) (i : Nat) (x : Crux) : (s.setCx i x).ubcnt = s.ubcnt := rfl
@[simp] theorem State.setCx_runs (s : State) (i : Nat) (x : Crux) : (s.setCx i x).runs = s.runs := rfl
@[simp] theorem State.setCx_ctxs (s : State) (i : Nat) (x : Crux) : (s.setCx i x).ctxs = s.ctxs := rfl
@[simp] theorem State.setCx_tlb (s : State) (i : Nat) (x : Crux) : (s.setCx i x).tlb = s.tlb := rfl
@[simp] theorem State.setCx_pend (s : State) (i : Nat) (x : Crux) : (s.setCx i x).pend = s.pend := rfl
@[simp] theorem State.setCx_faultId (s : State) (i : Nat) (x : Crux) : (s.setCx i x).faultId = s.faultId := rfl
@[simp] theorem State.setCx_errors (s : State) (i : Nat) (x : Crux) : (s.setCx i x).errors = s.errors := rfl
@[simp] theorem State.setCx_asyncs (s : State) (i : Nat) (x : Crux) : (s.setCx i x).asyncs = s.asyncs := rfl
@[simp] theorem State.setCx_pwrcap (s : State) (i : Nat) (x : Crux) : (s.setCx i x).pwrcap = s.pwrcap := rfl
@[simp] theorem State.setCx_modl (s : State) (i : Nat) (x : Crux) : (s.setCx i x).modl = s.modl := rfl
@[simp] theorem State.setCx_ports (s : State) (i : Nat) (x : Crux) : (s.setCx i x).ports = s.ports := rfl
@[simp] theorem State.setCx_circuits (s : State) (i : Nat) (x : Crux) : (s.setCx i x).circuits = s.circuits := rfl
@[simp] theorem State.setCx_links (s : State) (i : Nat) (x : Crux) : (s.setCx i x).links = s.links := rfl
@[simp] theorem State.setCx_fdidValid (s : State) (i : Nat) (x : Crux) : (s.setCx i x).fdidValid = s.fdidValid := rfl
@[simp] theorem State.setCx_fdid (s : State) (i : Nat) (x : Crux) : (s.setCx i x).fdid = s.fdid := rfl
@[simp] theorem State.setCx_epdrop (s : State) (i : Nat) (x : Crux) : (s.setCx i x).epdrop = s.epdrop := rfl
@[simp] theorem State.setCx_route (s : State) (i : Nat) (x : Crux) : (s.setCx i x).route = s.route := rfl
@[simp] theorem State.setCx_seen (s : State) (i : Nat) (x : Crux) : (s.setCx i x).seen = s.seen := rfl
@[simp] theorem State.setCx_pseq (s : State) (i : Nat) (x : Crux) : (s.setCx i x).pseq = s.pseq := rfl
@[simp] theorem State.setCx_tvercur (s : State) (i : Nat) (x : Crux) : (s.setCx i x).tvercur = s.tvercur := rfl
@[simp] theorem State.setCx_tverseen (s : State) (i : Nat) (x : Crux) : (s.setCx i x).tverseen = s.tverseen := rfl
@[simp] theorem State.setCx_slotmiss (s : State) (i : Nat) (x : Crux) : (s.setCx i x).slotmiss = s.slotmiss := rfl
@[simp] theorem State.setCx_errest (s : State) (i : Nat) (x : Crux) : (s.setCx i x).errest = s.errest := rfl
@[simp] theorem State.setCx_master (s : State) (i : Nat) (x : Crux) : (s.setCx i x).master = s.master := rfl
@[simp] theorem State.setCx_bper (s : State) (i : Nat) (x : Crux) : (s.setCx i x).bper = s.bper := rfl
@[simp] theorem State.setCx_plant (s : State) (i : Nat) (x : Crux) : (s.setCx i x).plant = s.plant := rfl
@[simp] theorem State.setCx_beaconAt (s : State) (i : Nat) (x : Crux) : (s.setCx i x).beaconAt = s.beaconAt := rfl
@[simp] theorem State.setCx_gaffer (s : State) (i : Nat) (x : Crux) : (s.setCx i x).gaffer = s.gaffer := rfl
@[simp] theorem State.setCx_streams (s : State) (i : Nat) (x : Crux) : (s.setCx i x).streams = s.streams := rfl
@[simp] theorem State.setCx_windows (s : State) (i : Nat) (x : Crux) : (s.setCx i x).windows = s.windows := rfl
@[simp] theorem State.setCx_creations (s : State) (i : Nat) (x : Crux) : (s.setCx i x).creations = s.creations := rfl
@[simp] theorem State.setCx_mgmt (s : State) (i : Nat) (x : Crux) : (s.setCx i x).mgmt = s.mgmt := rfl
@[simp] theorem State.setCx_loopback (s : State) (i : Nat) (x : Crux) : (s.setCx i x).loopback = s.loopback := rfl
@[simp] theorem State.setCx_outHost (s : State) (i : Nat) (x : Crux) : (s.setCx i x).outHost = s.outHost := rfl
@[simp] theorem State.setCx_outRdma (s : State) (i : Nat) (x : Crux) : (s.setCx i x).outRdma = s.outRdma := rfl
@[simp] theorem State.setCx_outPkt (s : State) (i : Nat) (x : Crux) : (s.setCx i x).outPkt = s.outPkt := rfl
@[simp] theorem State.setCx_outFlit (s : State) (i : Nat) (x : Crux) : (s.setCx i x).outFlit = s.outFlit := rfl
@[simp] theorem State.setCx_outCtl (s : State) (i : Nat) (x : Crux) : (s.setCx i x).outCtl = s.outCtl := rfl
@[simp] theorem State.setCx_outNd (s : State) (i : Nat) (x : Crux) : (s.setCx i x).outNd = s.outNd := rfl
@[simp] theorem State.setCx_outSide (s : State) (i : Nat) (x : Crux) : (s.setCx i x).outSide = s.outSide := rfl
@[simp] theorem State.setCx_written (s : State) (i : Nat) (x : Crux) : (s.setCx i x).written = s.written := rfl
@[simp] theorem State.setCx_badFrames (s : State) (i : Nat) (x : Crux) : (s.setCx i x).badFrames = s.badFrames := rfl

/-! setStream changes only `streams`. -/

@[simp] theorem State.setStream_now (s : State) (n : Nat) (x : CmdStream) : (s.setStream n x).now = s.now := rfl
@[simp] theorem State.setStream_ahead (s : State) (n : Nat) (x : CmdStream) : (s.setStream n x).ahead = s.ahead := rfl
@[simp] theorem State.setStream_ticks (s : State) (n : Nat) (x : CmdStream) : (s.setStream n x).ticks = s.ticks := rfl
@[simp] theorem State.setStream_cur (s : State) (n : Nat) (x : CmdStream) : (s.setStream n x).cur = s.cur := rfl
@[simp] theorem State.setStream_agenda (s : State) (n : Nat) (x : CmdStream) : (s.setStream n x).agenda = s.agenda := rfl
@[simp] theorem State.setStream_queue (s : State) (n : Nat) (x : CmdStream) : (s.setStream n x).queue = s.queue := rfl
@[simp] theorem State.setStream_timers (s : State) (n : Nat) (x : CmdStream) : (s.setStream n x).timers = s.timers := rfl
@[simp] theorem State.setStream_round (s : State) (n : Nat) (x : CmdStream) : (s.setStream n x).round = s.round := rfl
@[simp] theorem State.setStream_moved (s : State) (n : Nat) (x : CmdStream) : (s.setStream n x).moved = s.moved := rfl
@[simp] theorem State.setStream_free (s : State) (n : Nat) (x : CmdStream) : (s.setStream n x).free = s.free := rfl
@[simp] theorem State.setStream_nextId (s : State) (n : Nat) (x : CmdStream) : (s.setStream n x).nextId = s.nextId := rfl
@[simp] theorem State.setStream_mem (s : State) (n : Nat) (x : CmdStream) : (s.setStream n x).mem = s.mem := rfl
@[simp] theorem State.setStream_cores (s : State) (n : Nat) (x : CmdStream) : (s.setStream n x).cores = s.cores := rfl
@[simp] theorem State.setStream_clusters (s : State) (n : Nat) (x : CmdStream) : (s.setStream n x).clusters = s.clusters := rfl
@[simp] theorem State.setStream_dies (s : State) (n : Nat) (x : CmdStream) : (s.setStream n x).dies = s.dies := rfl
@[simp] theorem State.setStream_queues (s : State) (n : Nat) (x : CmdStream) : (s.setStream n x).queues = s.queues := rfl
@[simp] theorem State.setStream_runs (s : State) (n : Nat) (x : CmdStream) : (s.setStream n x).runs = s.runs := rfl
@[simp] theorem State.setStream_ctxs (s : State) (n : Nat) (x : CmdStream) : (s.setStream n x).ctxs = s.ctxs := rfl
@[simp] theorem State.setStream_tlb (s : State) (n : Nat) (x : CmdStream) : (s.setStream n x).tlb = s.tlb := rfl
@[simp] theorem State.setStream_pend (s : State) (n : Nat) (x : CmdStream) : (s.setStream n x).pend = s.pend := rfl
@[simp] theorem State.setStream_faultId (s : State) (n : Nat) (x : CmdStream) : (s.setStream n x).faultId = s.faultId := rfl
@[simp] theorem State.setStream_errors (s : State) (n : Nat) (x : CmdStream) : (s.setStream n x).errors = s.errors := rfl
@[simp] theorem State.setStream_asyncs (s : State) (n : Nat) (x : CmdStream) : (s.setStream n x).asyncs = s.asyncs := rfl
@[simp] theorem State.setStream_pwrcap (s : State) (n : Nat) (x : CmdStream) : (s.setStream n x).pwrcap = s.pwrcap := rfl
@[simp] theorem State.setStream_modl (s : State) (n : Nat) (x : CmdStream) : (s.setStream n x).modl = s.modl := rfl
@[simp] theorem State.setStream_ports (s : State) (n : Nat) (x : CmdStream) : (s.setStream n x).ports = s.ports := rfl
@[simp] theorem State.setStream_circuits (s : State) (n : Nat) (x : CmdStream) : (s.setStream n x).circuits = s.circuits := rfl
@[simp] theorem State.setStream_links (s : State) (n : Nat) (x : CmdStream) : (s.setStream n x).links = s.links := rfl
@[simp] theorem State.setStream_fdidValid (s : State) (n : Nat) (x : CmdStream) : (s.setStream n x).fdidValid = s.fdidValid := rfl
@[simp] theorem State.setStream_fdid (s : State) (n : Nat) (x : CmdStream) : (s.setStream n x).fdid = s.fdid := rfl
@[simp] theorem State.setStream_epdrop (s : State) (n : Nat) (x : CmdStream) : (s.setStream n x).epdrop = s.epdrop := rfl
@[simp] theorem State.setStream_route (s : State) (n : Nat) (x : CmdStream) : (s.setStream n x).route = s.route := rfl
@[simp] theorem State.setStream_seen (s : State) (n : Nat) (x : CmdStream) : (s.setStream n x).seen = s.seen := rfl
@[simp] theorem State.setStream_pseq (s : State) (n : Nat) (x : CmdStream) : (s.setStream n x).pseq = s.pseq := rfl
@[simp] theorem State.setStream_tvercur (s : State) (n : Nat) (x : CmdStream) : (s.setStream n x).tvercur = s.tvercur := rfl
@[simp] theorem State.setStream_tverseen (s : State) (n : Nat) (x : CmdStream) : (s.setStream n x).tverseen = s.tverseen := rfl
@[simp] theorem State.setStream_slotmiss (s : State) (n : Nat) (x : CmdStream) : (s.setStream n x).slotmiss = s.slotmiss := rfl
@[simp] theorem State.setStream_errest (s : State) (n : Nat) (x : CmdStream) : (s.setStream n x).errest = s.errest := rfl
@[simp] theorem State.setStream_master (s : State) (n : Nat) (x : CmdStream) : (s.setStream n x).master = s.master := rfl
@[simp] theorem State.setStream_bper (s : State) (n : Nat) (x : CmdStream) : (s.setStream n x).bper = s.bper := rfl
@[simp] theorem State.setStream_plant (s : State) (n : Nat) (x : CmdStream) : (s.setStream n x).plant = s.plant := rfl
@[simp] theorem State.setStream_beaconAt (s : State) (n : Nat) (x : CmdStream) : (s.setStream n x).beaconAt = s.beaconAt := rfl
@[simp] theorem State.setStream_gaffer (s : State) (n : Nat) (x : CmdStream) : (s.setStream n x).gaffer = s.gaffer := rfl
@[simp] theorem State.setStream_cru (s : State) (n : Nat) (x : CmdStream) : (s.setStream n x).cru = s.cru := rfl
@[simp] theorem State.setStream_ubcnt (s : State) (n : Nat) (x : CmdStream) : (s.setStream n x).ubcnt = s.ubcnt := rfl
@[simp] theorem State.setStream_windows (s : State) (n : Nat) (x : CmdStream) : (s.setStream n x).windows = s.windows := rfl
@[simp] theorem State.setStream_creations (s : State) (n : Nat) (x : CmdStream) : (s.setStream n x).creations = s.creations := rfl
@[simp] theorem State.setStream_mgmt (s : State) (n : Nat) (x : CmdStream) : (s.setStream n x).mgmt = s.mgmt := rfl
@[simp] theorem State.setStream_loopback (s : State) (n : Nat) (x : CmdStream) : (s.setStream n x).loopback = s.loopback := rfl
@[simp] theorem State.setStream_outHost (s : State) (n : Nat) (x : CmdStream) : (s.setStream n x).outHost = s.outHost := rfl
@[simp] theorem State.setStream_outRdma (s : State) (n : Nat) (x : CmdStream) : (s.setStream n x).outRdma = s.outRdma := rfl
@[simp] theorem State.setStream_outPkt (s : State) (n : Nat) (x : CmdStream) : (s.setStream n x).outPkt = s.outPkt := rfl
@[simp] theorem State.setStream_outFlit (s : State) (n : Nat) (x : CmdStream) : (s.setStream n x).outFlit = s.outFlit := rfl
@[simp] theorem State.setStream_outCtl (s : State) (n : Nat) (x : CmdStream) : (s.setStream n x).outCtl = s.outCtl := rfl
@[simp] theorem State.setStream_outNd (s : State) (n : Nat) (x : CmdStream) : (s.setStream n x).outNd = s.outNd := rfl
@[simp] theorem State.setStream_outSide (s : State) (n : Nat) (x : CmdStream) : (s.setStream n x).outSide = s.outSide := rfl
@[simp] theorem State.setStream_written (s : State) (n : Nat) (x : CmdStream) : (s.setStream n x).written = s.written := rfl
@[simp] theorem State.setStream_badFrames (s : State) (n : Nat) (x : CmdStream) : (s.setStream n x).badFrames = s.badFrames := rfl

/-! setWave changes only `cores`. -/

@[simp] theorem State.setWave_now (s : State) (r : WaveRef) (x : Wave) : (s.setWave r x).now = s.now := rfl
@[simp] theorem State.setWave_ahead (s : State) (r : WaveRef) (x : Wave) : (s.setWave r x).ahead = s.ahead := rfl
@[simp] theorem State.setWave_ticks (s : State) (r : WaveRef) (x : Wave) : (s.setWave r x).ticks = s.ticks := rfl
@[simp] theorem State.setWave_cur (s : State) (r : WaveRef) (x : Wave) : (s.setWave r x).cur = s.cur := rfl
@[simp] theorem State.setWave_agenda (s : State) (r : WaveRef) (x : Wave) : (s.setWave r x).agenda = s.agenda := rfl
@[simp] theorem State.setWave_queue (s : State) (r : WaveRef) (x : Wave) : (s.setWave r x).queue = s.queue := rfl
@[simp] theorem State.setWave_timers (s : State) (r : WaveRef) (x : Wave) : (s.setWave r x).timers = s.timers := rfl
@[simp] theorem State.setWave_round (s : State) (r : WaveRef) (x : Wave) : (s.setWave r x).round = s.round := rfl
@[simp] theorem State.setWave_moved (s : State) (r : WaveRef) (x : Wave) : (s.setWave r x).moved = s.moved := rfl
@[simp] theorem State.setWave_free (s : State) (r : WaveRef) (x : Wave) : (s.setWave r x).free = s.free := rfl
@[simp] theorem State.setWave_nextId (s : State) (r : WaveRef) (x : Wave) : (s.setWave r x).nextId = s.nextId := rfl
@[simp] theorem State.setWave_mem (s : State) (r : WaveRef) (x : Wave) : (s.setWave r x).mem = s.mem := rfl
@[simp] theorem State.setWave_clusters (s : State) (r : WaveRef) (x : Wave) : (s.setWave r x).clusters = s.clusters := rfl
@[simp] theorem State.setWave_dies (s : State) (r : WaveRef) (x : Wave) : (s.setWave r x).dies = s.dies := rfl
@[simp] theorem State.setWave_queues (s : State) (r : WaveRef) (x : Wave) : (s.setWave r x).queues = s.queues := rfl
@[simp] theorem State.setWave_runs (s : State) (r : WaveRef) (x : Wave) : (s.setWave r x).runs = s.runs := rfl
@[simp] theorem State.setWave_ctxs (s : State) (r : WaveRef) (x : Wave) : (s.setWave r x).ctxs = s.ctxs := rfl
@[simp] theorem State.setWave_tlb (s : State) (r : WaveRef) (x : Wave) : (s.setWave r x).tlb = s.tlb := rfl
@[simp] theorem State.setWave_pend (s : State) (r : WaveRef) (x : Wave) : (s.setWave r x).pend = s.pend := rfl
@[simp] theorem State.setWave_faultId (s : State) (r : WaveRef) (x : Wave) : (s.setWave r x).faultId = s.faultId := rfl
@[simp] theorem State.setWave_errors (s : State) (r : WaveRef) (x : Wave) : (s.setWave r x).errors = s.errors := rfl
@[simp] theorem State.setWave_asyncs (s : State) (r : WaveRef) (x : Wave) : (s.setWave r x).asyncs = s.asyncs := rfl
@[simp] theorem State.setWave_pwrcap (s : State) (r : WaveRef) (x : Wave) : (s.setWave r x).pwrcap = s.pwrcap := rfl
@[simp] theorem State.setWave_modl (s : State) (r : WaveRef) (x : Wave) : (s.setWave r x).modl = s.modl := rfl
@[simp] theorem State.setWave_ports (s : State) (r : WaveRef) (x : Wave) : (s.setWave r x).ports = s.ports := rfl
@[simp] theorem State.setWave_circuits (s : State) (r : WaveRef) (x : Wave) : (s.setWave r x).circuits = s.circuits := rfl
@[simp] theorem State.setWave_links (s : State) (r : WaveRef) (x : Wave) : (s.setWave r x).links = s.links := rfl
@[simp] theorem State.setWave_fdidValid (s : State) (r : WaveRef) (x : Wave) : (s.setWave r x).fdidValid = s.fdidValid := rfl
@[simp] theorem State.setWave_fdid (s : State) (r : WaveRef) (x : Wave) : (s.setWave r x).fdid = s.fdid := rfl
@[simp] theorem State.setWave_epdrop (s : State) (r : WaveRef) (x : Wave) : (s.setWave r x).epdrop = s.epdrop := rfl
@[simp] theorem State.setWave_route (s : State) (r : WaveRef) (x : Wave) : (s.setWave r x).route = s.route := rfl
@[simp] theorem State.setWave_seen (s : State) (r : WaveRef) (x : Wave) : (s.setWave r x).seen = s.seen := rfl
@[simp] theorem State.setWave_pseq (s : State) (r : WaveRef) (x : Wave) : (s.setWave r x).pseq = s.pseq := rfl
@[simp] theorem State.setWave_tvercur (s : State) (r : WaveRef) (x : Wave) : (s.setWave r x).tvercur = s.tvercur := rfl
@[simp] theorem State.setWave_tverseen (s : State) (r : WaveRef) (x : Wave) : (s.setWave r x).tverseen = s.tverseen := rfl
@[simp] theorem State.setWave_slotmiss (s : State) (r : WaveRef) (x : Wave) : (s.setWave r x).slotmiss = s.slotmiss := rfl
@[simp] theorem State.setWave_errest (s : State) (r : WaveRef) (x : Wave) : (s.setWave r x).errest = s.errest := rfl
@[simp] theorem State.setWave_master (s : State) (r : WaveRef) (x : Wave) : (s.setWave r x).master = s.master := rfl
@[simp] theorem State.setWave_bper (s : State) (r : WaveRef) (x : Wave) : (s.setWave r x).bper = s.bper := rfl
@[simp] theorem State.setWave_plant (s : State) (r : WaveRef) (x : Wave) : (s.setWave r x).plant = s.plant := rfl
@[simp] theorem State.setWave_beaconAt (s : State) (r : WaveRef) (x : Wave) : (s.setWave r x).beaconAt = s.beaconAt := rfl
@[simp] theorem State.setWave_gaffer (s : State) (r : WaveRef) (x : Wave) : (s.setWave r x).gaffer = s.gaffer := rfl
@[simp] theorem State.setWave_cru (s : State) (r : WaveRef) (x : Wave) : (s.setWave r x).cru = s.cru := rfl
@[simp] theorem State.setWave_ubcnt (s : State) (r : WaveRef) (x : Wave) : (s.setWave r x).ubcnt = s.ubcnt := rfl
@[simp] theorem State.setWave_streams (s : State) (r : WaveRef) (x : Wave) : (s.setWave r x).streams = s.streams := rfl
@[simp] theorem State.setWave_windows (s : State) (r : WaveRef) (x : Wave) : (s.setWave r x).windows = s.windows := rfl
@[simp] theorem State.setWave_creations (s : State) (r : WaveRef) (x : Wave) : (s.setWave r x).creations = s.creations := rfl
@[simp] theorem State.setWave_mgmt (s : State) (r : WaveRef) (x : Wave) : (s.setWave r x).mgmt = s.mgmt := rfl
@[simp] theorem State.setWave_loopback (s : State) (r : WaveRef) (x : Wave) : (s.setWave r x).loopback = s.loopback := rfl
@[simp] theorem State.setWave_outHost (s : State) (r : WaveRef) (x : Wave) : (s.setWave r x).outHost = s.outHost := rfl
@[simp] theorem State.setWave_outRdma (s : State) (r : WaveRef) (x : Wave) : (s.setWave r x).outRdma = s.outRdma := rfl
@[simp] theorem State.setWave_outPkt (s : State) (r : WaveRef) (x : Wave) : (s.setWave r x).outPkt = s.outPkt := rfl
@[simp] theorem State.setWave_outFlit (s : State) (r : WaveRef) (x : Wave) : (s.setWave r x).outFlit = s.outFlit := rfl
@[simp] theorem State.setWave_outCtl (s : State) (r : WaveRef) (x : Wave) : (s.setWave r x).outCtl = s.outCtl := rfl
@[simp] theorem State.setWave_outNd (s : State) (r : WaveRef) (x : Wave) : (s.setWave r x).outNd = s.outNd := rfl
@[simp] theorem State.setWave_outSide (s : State) (r : WaveRef) (x : Wave) : (s.setWave r x).outSide = s.outSide := rfl
@[simp] theorem State.setWave_written (s : State) (r : WaveRef) (x : Wave) : (s.setWave r x).written = s.written := rfl
@[simp] theorem State.setWave_badFrames (s : State) (r : WaveRef) (x : Wave) : (s.setWave r x).badFrames = s.badFrames := rfl

/-! atTime changes only `timers`. -/

@[simp] theorem State.atTime_now (s : State) (t : Nat) (i : Instr) : (s.atTime t i).now = s.now := rfl
@[simp] theorem State.atTime_ahead (s : State) (t : Nat) (i : Instr) : (s.atTime t i).ahead = s.ahead := rfl
@[simp] theorem State.atTime_ticks (s : State) (t : Nat) (i : Instr) : (s.atTime t i).ticks = s.ticks := rfl
@[simp] theorem State.atTime_cur (s : State) (t : Nat) (i : Instr) : (s.atTime t i).cur = s.cur := rfl
@[simp] theorem State.atTime_agenda (s : State) (t : Nat) (i : Instr) : (s.atTime t i).agenda = s.agenda := rfl
@[simp] theorem State.atTime_queue (s : State) (t : Nat) (i : Instr) : (s.atTime t i).queue = s.queue := rfl
@[simp] theorem State.atTime_round (s : State) (t : Nat) (i : Instr) : (s.atTime t i).round = s.round := rfl
@[simp] theorem State.atTime_moved (s : State) (t : Nat) (i : Instr) : (s.atTime t i).moved = s.moved := rfl
@[simp] theorem State.atTime_free (s : State) (t : Nat) (i : Instr) : (s.atTime t i).free = s.free := rfl
@[simp] theorem State.atTime_nextId (s : State) (t : Nat) (i : Instr) : (s.atTime t i).nextId = s.nextId := rfl
@[simp] theorem State.atTime_mem (s : State) (t : Nat) (i : Instr) : (s.atTime t i).mem = s.mem := rfl
@[simp] theorem State.atTime_cores (s : State) (t : Nat) (i : Instr) : (s.atTime t i).cores = s.cores := rfl
@[simp] theorem State.atTime_clusters (s : State) (t : Nat) (i : Instr) : (s.atTime t i).clusters = s.clusters := rfl
@[simp] theorem State.atTime_dies (s : State) (t : Nat) (i : Instr) : (s.atTime t i).dies = s.dies := rfl
@[simp] theorem State.atTime_queues (s : State) (t : Nat) (i : Instr) : (s.atTime t i).queues = s.queues := rfl
@[simp] theorem State.atTime_runs (s : State) (t : Nat) (i : Instr) : (s.atTime t i).runs = s.runs := rfl
@[simp] theorem State.atTime_ctxs (s : State) (t : Nat) (i : Instr) : (s.atTime t i).ctxs = s.ctxs := rfl
@[simp] theorem State.atTime_tlb (s : State) (t : Nat) (i : Instr) : (s.atTime t i).tlb = s.tlb := rfl
@[simp] theorem State.atTime_pend (s : State) (t : Nat) (i : Instr) : (s.atTime t i).pend = s.pend := rfl
@[simp] theorem State.atTime_faultId (s : State) (t : Nat) (i : Instr) : (s.atTime t i).faultId = s.faultId := rfl
@[simp] theorem State.atTime_errors (s : State) (t : Nat) (i : Instr) : (s.atTime t i).errors = s.errors := rfl
@[simp] theorem State.atTime_asyncs (s : State) (t : Nat) (i : Instr) : (s.atTime t i).asyncs = s.asyncs := rfl
@[simp] theorem State.atTime_pwrcap (s : State) (t : Nat) (i : Instr) : (s.atTime t i).pwrcap = s.pwrcap := rfl
@[simp] theorem State.atTime_modl (s : State) (t : Nat) (i : Instr) : (s.atTime t i).modl = s.modl := rfl
@[simp] theorem State.atTime_ports (s : State) (t : Nat) (i : Instr) : (s.atTime t i).ports = s.ports := rfl
@[simp] theorem State.atTime_circuits (s : State) (t : Nat) (i : Instr) : (s.atTime t i).circuits = s.circuits := rfl
@[simp] theorem State.atTime_links (s : State) (t : Nat) (i : Instr) : (s.atTime t i).links = s.links := rfl
@[simp] theorem State.atTime_fdidValid (s : State) (t : Nat) (i : Instr) : (s.atTime t i).fdidValid = s.fdidValid := rfl
@[simp] theorem State.atTime_fdid (s : State) (t : Nat) (i : Instr) : (s.atTime t i).fdid = s.fdid := rfl
@[simp] theorem State.atTime_epdrop (s : State) (t : Nat) (i : Instr) : (s.atTime t i).epdrop = s.epdrop := rfl
@[simp] theorem State.atTime_route (s : State) (t : Nat) (i : Instr) : (s.atTime t i).route = s.route := rfl
@[simp] theorem State.atTime_seen (s : State) (t : Nat) (i : Instr) : (s.atTime t i).seen = s.seen := rfl
@[simp] theorem State.atTime_pseq (s : State) (t : Nat) (i : Instr) : (s.atTime t i).pseq = s.pseq := rfl
@[simp] theorem State.atTime_tvercur (s : State) (t : Nat) (i : Instr) : (s.atTime t i).tvercur = s.tvercur := rfl
@[simp] theorem State.atTime_tverseen (s : State) (t : Nat) (i : Instr) : (s.atTime t i).tverseen = s.tverseen := rfl
@[simp] theorem State.atTime_slotmiss (s : State) (t : Nat) (i : Instr) : (s.atTime t i).slotmiss = s.slotmiss := rfl
@[simp] theorem State.atTime_errest (s : State) (t : Nat) (i : Instr) : (s.atTime t i).errest = s.errest := rfl
@[simp] theorem State.atTime_master (s : State) (t : Nat) (i : Instr) : (s.atTime t i).master = s.master := rfl
@[simp] theorem State.atTime_bper (s : State) (t : Nat) (i : Instr) : (s.atTime t i).bper = s.bper := rfl
@[simp] theorem State.atTime_plant (s : State) (t : Nat) (i : Instr) : (s.atTime t i).plant = s.plant := rfl
@[simp] theorem State.atTime_beaconAt (s : State) (t : Nat) (i : Instr) : (s.atTime t i).beaconAt = s.beaconAt := rfl
@[simp] theorem State.atTime_gaffer (s : State) (t : Nat) (i : Instr) : (s.atTime t i).gaffer = s.gaffer := rfl
@[simp] theorem State.atTime_cru (s : State) (t : Nat) (i : Instr) : (s.atTime t i).cru = s.cru := rfl
@[simp] theorem State.atTime_ubcnt (s : State) (t : Nat) (i : Instr) : (s.atTime t i).ubcnt = s.ubcnt := rfl
@[simp] theorem State.atTime_streams (s : State) (t : Nat) (i : Instr) : (s.atTime t i).streams = s.streams := rfl
@[simp] theorem State.atTime_windows (s : State) (t : Nat) (i : Instr) : (s.atTime t i).windows = s.windows := rfl
@[simp] theorem State.atTime_creations (s : State) (t : Nat) (i : Instr) : (s.atTime t i).creations = s.creations := rfl
@[simp] theorem State.atTime_mgmt (s : State) (t : Nat) (i : Instr) : (s.atTime t i).mgmt = s.mgmt := rfl
@[simp] theorem State.atTime_loopback (s : State) (t : Nat) (i : Instr) : (s.atTime t i).loopback = s.loopback := rfl
@[simp] theorem State.atTime_outHost (s : State) (t : Nat) (i : Instr) : (s.atTime t i).outHost = s.outHost := rfl
@[simp] theorem State.atTime_outRdma (s : State) (t : Nat) (i : Instr) : (s.atTime t i).outRdma = s.outRdma := rfl
@[simp] theorem State.atTime_outPkt (s : State) (t : Nat) (i : Instr) : (s.atTime t i).outPkt = s.outPkt := rfl
@[simp] theorem State.atTime_outFlit (s : State) (t : Nat) (i : Instr) : (s.atTime t i).outFlit = s.outFlit := rfl
@[simp] theorem State.atTime_outCtl (s : State) (t : Nat) (i : Instr) : (s.atTime t i).outCtl = s.outCtl := rfl
@[simp] theorem State.atTime_outNd (s : State) (t : Nat) (i : Instr) : (s.atTime t i).outNd = s.outNd := rfl
@[simp] theorem State.atTime_outSide (s : State) (t : Nat) (i : Instr) : (s.atTime t i).outSide = s.outSide := rfl
@[simp] theorem State.atTime_written (s : State) (t : Nat) (i : Instr) : (s.atTime t i).written = s.written := rfl
@[simp] theorem State.atTime_badFrames (s : State) (t : Nat) (i : Instr) : (s.atTime t i).badFrames = s.badFrames := rfl

/-! What is read back. -/

@[simp] theorem State.core_setCore (s : State) (c : Nat) (x : Core) : (s.setCore c x).core c = x := by simp [State.setCore, State.core]
theorem State.core_setCore_ne (s : State) {j : Nat} (c : Nat) (x : Core) (h : j ≠ c) : (s.setCore c x).core j = s.core j :=
  tget_tset_ne _ _ _ h
@[simp] theorem State.setCore_setCore (s : State) (c : Nat) (x : Core) (y : Core) : (s.setCore c x).setCore c y = s.setCore c y := by simp [State.setCore]
@[simp] theorem State.cluster_setCluster (s : State) (n : Nat) (x : Cluster) : (s.setCluster n x).cluster n = x := by simp [State.setCluster, State.cluster]
theorem State.cluster_setCluster_ne (s : State) {j : Nat} (n : Nat) (x : Cluster) (h : j ≠ n) : (s.setCluster n x).cluster j = s.cluster j :=
  tget_tset_ne _ _ _ h
@[simp] theorem State.setCluster_setCluster (s : State) (n : Nat) (x : Cluster) (y : Cluster) : (s.setCluster n x).setCluster n y = s.setCluster n y := by simp [State.setCluster]
@[simp] theorem State.die_setDie (s : State) (d : Nat) (x : Die) : (s.setDie d x).die d = x := by simp [State.setDie, State.die]
theorem State.die_setDie_ne (s : State) {j : Nat} (d : Nat) (x : Die) (h : j ≠ d) : (s.setDie d x).die j = s.die j :=
  tget_tset_ne _ _ _ h
@[simp] theorem State.setDie_setDie (s : State) (d : Nat) (x : Die) (y : Die) : (s.setDie d x).setDie d y = s.setDie d y := by simp [State.setDie]
@[simp] theorem State.hq_setHq (s : State) (q : Nat) (x : Queue) : (s.setHq q x).hq q = x := by simp [State.setHq, State.hq]
theorem State.hq_setHq_ne (s : State) {j : Nat} (q : Nat) (x : Queue) (h : j ≠ q) : (s.setHq q x).hq j = s.hq j :=
  tget_tset_ne _ _ _ h
@[simp] theorem State.setHq_setHq (s : State) (q : Nat) (x : Queue) (y : Queue) : (s.setHq q x).setHq q y = s.setHq q y := by simp [State.setHq]
@[simp] theorem State.ctx?_setCtx (s : State) (n : Nat) (x : Ctx) : (s.setCtx n x).ctx? n = some x := by simp [State.setCtx, State.ctx?]
theorem State.ctx?_setCtx_ne (s : State) {m : Nat} (n : Nat) (x : Ctx) (h : m ≠ n) : (s.setCtx n x).ctx? m = s.ctx? m :=
  tfind_tset_ne _ _ h
@[simp] theorem State.setCtx_setCtx (s : State) (n : Nat) (x : Ctx) (y : Ctx) : (s.setCtx n x).setCtx n y = s.setCtx n y := by simp [State.setCtx]
@[simp] theorem State.port_setPort (s : State) (p : Nat) (x : Port) : (s.setPort p x).port p = x := by simp [State.setPort, State.port]
theorem State.port_setPort_ne (s : State) {j : Nat} (p : Nat) (x : Port) (h : j ≠ p) : (s.setPort p x).port j = s.port j :=
  tget_tset_ne _ _ _ h
@[simp] theorem State.setPort_setPort (s : State) (p : Nat) (x : Port) (y : Port) : (s.setPort p x).setPort p y = s.setPort p y := by simp [State.setPort]
@[simp] theorem State.circuit_setCircuit (s : State) (e : Nat) (x : Circuit) : (s.setCircuit e x).circuit e = x := by simp [State.setCircuit, State.circuit]
theorem State.circuit_setCircuit_ne (s : State) {j : Nat} (e : Nat) (x : Circuit) (h : j ≠ e) : (s.setCircuit e x).circuit j = s.circuit j :=
  tget_tset_ne _ _ _ h
@[simp] theorem State.setCircuit_setCircuit (s : State) (e : Nat) (x : Circuit) (y : Circuit) : (s.setCircuit e x).setCircuit e y = s.setCircuit e y := by simp [State.setCircuit]
@[simp] theorem State.link_setLink (s : State) (l : Nat) (x : Link) : (s.setLink l x).link l = x := by simp [State.setLink, State.link]
theorem State.link_setLink_ne (s : State) {j : Nat} (l : Nat) (x : Link) (h : j ≠ l) : (s.setLink l x).link j = s.link j :=
  tget_tset_ne _ _ _ h
@[simp] theorem State.setLink_setLink (s : State) (l : Nat) (x : Link) (y : Link) : (s.setLink l x).setLink l y = s.setLink l y := by simp [State.setLink]
@[simp] theorem State.gth_setGth (s : State) (t : Nat) (x : GThread) : (s.setGth t x).gth t = x := by simp [State.setGth, State.gth]
theorem State.gth_setGth_ne (s : State) {j : Nat} (t : Nat) (x : GThread) (h : j ≠ t) : (s.setGth t x).gth j = s.gth j :=
  tget_tset_ne _ _ _ h
@[simp] theorem State.setGth_setGth (s : State) (t : Nat) (x : GThread) (y : GThread) : (s.setGth t x).setGth t y = s.setGth t y := by simp [State.setGth]
@[simp] theorem State.cx_setCx (s : State) (i : Nat) (x : Crux) : (s.setCx i x).cx i = x := by simp [State.setCx, State.cx]
theorem State.cx_setCx_ne (s : State) {j : Nat} (i : Nat) (x : Crux) (h : j ≠ i) : (s.setCx i x).cx j = s.cx j :=
  tget_tset_ne _ _ _ h
@[simp] theorem State.setCx_setCx (s : State) (i : Nat) (x : Crux) (y : Crux) : (s.setCx i x).setCx i y = s.setCx i y := by simp [State.setCx]
@[simp] theorem State.stream_setStream (s : State) (n : Nat) (x : CmdStream) : (s.setStream n x).stream n = x := by simp [State.setStream, State.stream]
theorem State.stream_setStream_ne (s : State) {j : Nat} (n : Nat) (x : CmdStream) (h : j ≠ n) : (s.setStream n x).stream j = s.stream j :=
  tget_tset_ne _ _ _ h
@[simp] theorem State.setStream_setStream (s : State) (n : Nat) (x : CmdStream) (y : CmdStream) : (s.setStream n x).setStream n y = s.setStream n y := by simp [State.setStream]

/-! What is read from a table that the update does not touch. -/

@[simp] theorem State.cluster_setCore (s : State) (c : Nat) (x : Core) (k : Nat) : (s.setCore c x).cluster k = s.cluster k := rfl
@[simp] theorem State.die_setCore (s : State) (c : Nat) (x : Core) (k : Nat) : (s.setCore c x).die k = s.die k := rfl
@[simp] theorem State.hq_setCore (s : State) (c : Nat) (x : Core) (k : Nat) : (s.setCore c x).hq k = s.hq k := rfl
@[simp] theorem State.ctx?_setCore (s : State) (c : Nat) (x : Core) (k : Nat) : (s.setCore c x).ctx? k = s.ctx? k := rfl
@[simp] theorem State.port_setCore (s : State) (c : Nat) (x : Core) (k : Nat) : (s.setCore c x).port k = s.port k := rfl
@[simp] theorem State.circuit_setCore (s : State) (c : Nat) (x : Core) (k : Nat) : (s.setCore c x).circuit k = s.circuit k := rfl
@[simp] theorem State.link_setCore (s : State) (c : Nat) (x : Core) (k : Nat) : (s.setCore c x).link k = s.link k := rfl
@[simp] theorem State.gth_setCore (s : State) (c : Nat) (x : Core) (k : Nat) : (s.setCore c x).gth k = s.gth k := rfl
@[simp] theorem State.cx_setCore (s : State) (c : Nat) (x : Core) (k : Nat) : (s.setCore c x).cx k = s.cx k := rfl
@[simp] theorem State.stream_setCore (s : State) (c : Nat) (x : Core) (k : Nat) : (s.setCore c x).stream k = s.stream k := rfl
@[simp] theorem State.core_setCluster (s : State) (n : Nat) (x : Cluster) (k : Nat) : (s.setCluster n x).core k = s.core k := rfl
@[simp] theorem State.die_setCluster (s : State) (n : Nat) (x : Cluster) (k : Nat) : (s.setCluster n x).die k = s.die k := rfl
@[simp] theorem State.hq_setCluster (s : State) (n : Nat) (x : Cluster) (k : Nat) : (s.setCluster n x).hq k = s.hq k := rfl
@[simp] theorem State.ctx?_setCluster (s : State) (n : Nat) (x : Cluster) (k : Nat) : (s.setCluster n x).ctx? k = s.ctx? k := rfl
@[simp] theorem State.port_setCluster (s : State) (n : Nat) (x : Cluster) (k : Nat) : (s.setCluster n x).port k = s.port k := rfl
@[simp] theorem State.circuit_setCluster (s : State) (n : Nat) (x : Cluster) (k : Nat) : (s.setCluster n x).circuit k = s.circuit k := rfl
@[simp] theorem State.link_setCluster (s : State) (n : Nat) (x : Cluster) (k : Nat) : (s.setCluster n x).link k = s.link k := rfl
@[simp] theorem State.gth_setCluster (s : State) (n : Nat) (x : Cluster) (k : Nat) : (s.setCluster n x).gth k = s.gth k := rfl
@[simp] theorem State.cx_setCluster (s : State) (n : Nat) (x : Cluster) (k : Nat) : (s.setCluster n x).cx k = s.cx k := rfl
@[simp] theorem State.stream_setCluster (s : State) (n : Nat) (x : Cluster) (k : Nat) : (s.setCluster n x).stream k = s.stream k := rfl
@[simp] theorem State.core_setDie (s : State) (d : Nat) (x : Die) (k : Nat) : (s.setDie d x).core k = s.core k := rfl
@[simp] theorem State.cluster_setDie (s : State) (d : Nat) (x : Die) (k : Nat) : (s.setDie d x).cluster k = s.cluster k := rfl
@[simp] theorem State.hq_setDie (s : State) (d : Nat) (x : Die) (k : Nat) : (s.setDie d x).hq k = s.hq k := rfl
@[simp] theorem State.ctx?_setDie (s : State) (d : Nat) (x : Die) (k : Nat) : (s.setDie d x).ctx? k = s.ctx? k := rfl
@[simp] theorem State.port_setDie (s : State) (d : Nat) (x : Die) (k : Nat) : (s.setDie d x).port k = s.port k := rfl
@[simp] theorem State.circuit_setDie (s : State) (d : Nat) (x : Die) (k : Nat) : (s.setDie d x).circuit k = s.circuit k := rfl
@[simp] theorem State.link_setDie (s : State) (d : Nat) (x : Die) (k : Nat) : (s.setDie d x).link k = s.link k := rfl
@[simp] theorem State.gth_setDie (s : State) (d : Nat) (x : Die) (k : Nat) : (s.setDie d x).gth k = s.gth k := rfl
@[simp] theorem State.cx_setDie (s : State) (d : Nat) (x : Die) (k : Nat) : (s.setDie d x).cx k = s.cx k := rfl
@[simp] theorem State.stream_setDie (s : State) (d : Nat) (x : Die) (k : Nat) : (s.setDie d x).stream k = s.stream k := rfl
@[simp] theorem State.core_setHq (s : State) (q : Nat) (x : Queue) (k : Nat) : (s.setHq q x).core k = s.core k := rfl
@[simp] theorem State.cluster_setHq (s : State) (q : Nat) (x : Queue) (k : Nat) : (s.setHq q x).cluster k = s.cluster k := rfl
@[simp] theorem State.die_setHq (s : State) (q : Nat) (x : Queue) (k : Nat) : (s.setHq q x).die k = s.die k := rfl
@[simp] theorem State.ctx?_setHq (s : State) (q : Nat) (x : Queue) (k : Nat) : (s.setHq q x).ctx? k = s.ctx? k := rfl
@[simp] theorem State.port_setHq (s : State) (q : Nat) (x : Queue) (k : Nat) : (s.setHq q x).port k = s.port k := rfl
@[simp] theorem State.circuit_setHq (s : State) (q : Nat) (x : Queue) (k : Nat) : (s.setHq q x).circuit k = s.circuit k := rfl
@[simp] theorem State.link_setHq (s : State) (q : Nat) (x : Queue) (k : Nat) : (s.setHq q x).link k = s.link k := rfl
@[simp] theorem State.gth_setHq (s : State) (q : Nat) (x : Queue) (k : Nat) : (s.setHq q x).gth k = s.gth k := rfl
@[simp] theorem State.cx_setHq (s : State) (q : Nat) (x : Queue) (k : Nat) : (s.setHq q x).cx k = s.cx k := rfl
@[simp] theorem State.stream_setHq (s : State) (q : Nat) (x : Queue) (k : Nat) : (s.setHq q x).stream k = s.stream k := rfl
@[simp] theorem State.core_setCtx (s : State) (n : Nat) (x : Ctx) (k : Nat) : (s.setCtx n x).core k = s.core k := rfl
@[simp] theorem State.cluster_setCtx (s : State) (n : Nat) (x : Ctx) (k : Nat) : (s.setCtx n x).cluster k = s.cluster k := rfl
@[simp] theorem State.die_setCtx (s : State) (n : Nat) (x : Ctx) (k : Nat) : (s.setCtx n x).die k = s.die k := rfl
@[simp] theorem State.hq_setCtx (s : State) (n : Nat) (x : Ctx) (k : Nat) : (s.setCtx n x).hq k = s.hq k := rfl
@[simp] theorem State.port_setCtx (s : State) (n : Nat) (x : Ctx) (k : Nat) : (s.setCtx n x).port k = s.port k := rfl
@[simp] theorem State.circuit_setCtx (s : State) (n : Nat) (x : Ctx) (k : Nat) : (s.setCtx n x).circuit k = s.circuit k := rfl
@[simp] theorem State.link_setCtx (s : State) (n : Nat) (x : Ctx) (k : Nat) : (s.setCtx n x).link k = s.link k := rfl
@[simp] theorem State.gth_setCtx (s : State) (n : Nat) (x : Ctx) (k : Nat) : (s.setCtx n x).gth k = s.gth k := rfl
@[simp] theorem State.cx_setCtx (s : State) (n : Nat) (x : Ctx) (k : Nat) : (s.setCtx n x).cx k = s.cx k := rfl
@[simp] theorem State.stream_setCtx (s : State) (n : Nat) (x : Ctx) (k : Nat) : (s.setCtx n x).stream k = s.stream k := rfl
@[simp] theorem State.core_setPort (s : State) (p : Nat) (x : Port) (k : Nat) : (s.setPort p x).core k = s.core k := rfl
@[simp] theorem State.cluster_setPort (s : State) (p : Nat) (x : Port) (k : Nat) : (s.setPort p x).cluster k = s.cluster k := rfl
@[simp] theorem State.die_setPort (s : State) (p : Nat) (x : Port) (k : Nat) : (s.setPort p x).die k = s.die k := rfl
@[simp] theorem State.hq_setPort (s : State) (p : Nat) (x : Port) (k : Nat) : (s.setPort p x).hq k = s.hq k := rfl
@[simp] theorem State.ctx?_setPort (s : State) (p : Nat) (x : Port) (k : Nat) : (s.setPort p x).ctx? k = s.ctx? k := rfl
@[simp] theorem State.circuit_setPort (s : State) (p : Nat) (x : Port) (k : Nat) : (s.setPort p x).circuit k = s.circuit k := rfl
@[simp] theorem State.link_setPort (s : State) (p : Nat) (x : Port) (k : Nat) : (s.setPort p x).link k = s.link k := rfl
@[simp] theorem State.gth_setPort (s : State) (p : Nat) (x : Port) (k : Nat) : (s.setPort p x).gth k = s.gth k := rfl
@[simp] theorem State.cx_setPort (s : State) (p : Nat) (x : Port) (k : Nat) : (s.setPort p x).cx k = s.cx k := rfl
@[simp] theorem State.stream_setPort (s : State) (p : Nat) (x : Port) (k : Nat) : (s.setPort p x).stream k = s.stream k := rfl
@[simp] theorem State.core_setCircuit (s : State) (e : Nat) (x : Circuit) (k : Nat) : (s.setCircuit e x).core k = s.core k := rfl
@[simp] theorem State.cluster_setCircuit (s : State) (e : Nat) (x : Circuit) (k : Nat) : (s.setCircuit e x).cluster k = s.cluster k := rfl
@[simp] theorem State.die_setCircuit (s : State) (e : Nat) (x : Circuit) (k : Nat) : (s.setCircuit e x).die k = s.die k := rfl
@[simp] theorem State.hq_setCircuit (s : State) (e : Nat) (x : Circuit) (k : Nat) : (s.setCircuit e x).hq k = s.hq k := rfl
@[simp] theorem State.ctx?_setCircuit (s : State) (e : Nat) (x : Circuit) (k : Nat) : (s.setCircuit e x).ctx? k = s.ctx? k := rfl
@[simp] theorem State.port_setCircuit (s : State) (e : Nat) (x : Circuit) (k : Nat) : (s.setCircuit e x).port k = s.port k := rfl
@[simp] theorem State.link_setCircuit (s : State) (e : Nat) (x : Circuit) (k : Nat) : (s.setCircuit e x).link k = s.link k := rfl
@[simp] theorem State.gth_setCircuit (s : State) (e : Nat) (x : Circuit) (k : Nat) : (s.setCircuit e x).gth k = s.gth k := rfl
@[simp] theorem State.cx_setCircuit (s : State) (e : Nat) (x : Circuit) (k : Nat) : (s.setCircuit e x).cx k = s.cx k := rfl
@[simp] theorem State.stream_setCircuit (s : State) (e : Nat) (x : Circuit) (k : Nat) : (s.setCircuit e x).stream k = s.stream k := rfl
@[simp] theorem State.core_setLink (s : State) (l : Nat) (x : Link) (k : Nat) : (s.setLink l x).core k = s.core k := rfl
@[simp] theorem State.cluster_setLink (s : State) (l : Nat) (x : Link) (k : Nat) : (s.setLink l x).cluster k = s.cluster k := rfl
@[simp] theorem State.die_setLink (s : State) (l : Nat) (x : Link) (k : Nat) : (s.setLink l x).die k = s.die k := rfl
@[simp] theorem State.hq_setLink (s : State) (l : Nat) (x : Link) (k : Nat) : (s.setLink l x).hq k = s.hq k := rfl
@[simp] theorem State.ctx?_setLink (s : State) (l : Nat) (x : Link) (k : Nat) : (s.setLink l x).ctx? k = s.ctx? k := rfl
@[simp] theorem State.port_setLink (s : State) (l : Nat) (x : Link) (k : Nat) : (s.setLink l x).port k = s.port k := rfl
@[simp] theorem State.circuit_setLink (s : State) (l : Nat) (x : Link) (k : Nat) : (s.setLink l x).circuit k = s.circuit k := rfl
@[simp] theorem State.gth_setLink (s : State) (l : Nat) (x : Link) (k : Nat) : (s.setLink l x).gth k = s.gth k := rfl
@[simp] theorem State.cx_setLink (s : State) (l : Nat) (x : Link) (k : Nat) : (s.setLink l x).cx k = s.cx k := rfl
@[simp] theorem State.stream_setLink (s : State) (l : Nat) (x : Link) (k : Nat) : (s.setLink l x).stream k = s.stream k := rfl
@[simp] theorem State.core_setGth (s : State) (t : Nat) (x : GThread) (k : Nat) : (s.setGth t x).core k = s.core k := rfl
@[simp] theorem State.cluster_setGth (s : State) (t : Nat) (x : GThread) (k : Nat) : (s.setGth t x).cluster k = s.cluster k := rfl
@[simp] theorem State.die_setGth (s : State) (t : Nat) (x : GThread) (k : Nat) : (s.setGth t x).die k = s.die k := rfl
@[simp] theorem State.hq_setGth (s : State) (t : Nat) (x : GThread) (k : Nat) : (s.setGth t x).hq k = s.hq k := rfl
@[simp] theorem State.ctx?_setGth (s : State) (t : Nat) (x : GThread) (k : Nat) : (s.setGth t x).ctx? k = s.ctx? k := rfl
@[simp] theorem State.port_setGth (s : State) (t : Nat) (x : GThread) (k : Nat) : (s.setGth t x).port k = s.port k := rfl
@[simp] theorem State.circuit_setGth (s : State) (t : Nat) (x : GThread) (k : Nat) : (s.setGth t x).circuit k = s.circuit k := rfl
@[simp] theorem State.link_setGth (s : State) (t : Nat) (x : GThread) (k : Nat) : (s.setGth t x).link k = s.link k := rfl
@[simp] theorem State.cx_setGth (s : State) (t : Nat) (x : GThread) (k : Nat) : (s.setGth t x).cx k = s.cx k := rfl
@[simp] theorem State.stream_setGth (s : State) (t : Nat) (x : GThread) (k : Nat) : (s.setGth t x).stream k = s.stream k := rfl
@[simp] theorem State.core_setCx (s : State) (i : Nat) (x : Crux) (k : Nat) : (s.setCx i x).core k = s.core k := rfl
@[simp] theorem State.cluster_setCx (s : State) (i : Nat) (x : Crux) (k : Nat) : (s.setCx i x).cluster k = s.cluster k := rfl
@[simp] theorem State.die_setCx (s : State) (i : Nat) (x : Crux) (k : Nat) : (s.setCx i x).die k = s.die k := rfl
@[simp] theorem State.hq_setCx (s : State) (i : Nat) (x : Crux) (k : Nat) : (s.setCx i x).hq k = s.hq k := rfl
@[simp] theorem State.ctx?_setCx (s : State) (i : Nat) (x : Crux) (k : Nat) : (s.setCx i x).ctx? k = s.ctx? k := rfl
@[simp] theorem State.port_setCx (s : State) (i : Nat) (x : Crux) (k : Nat) : (s.setCx i x).port k = s.port k := rfl
@[simp] theorem State.circuit_setCx (s : State) (i : Nat) (x : Crux) (k : Nat) : (s.setCx i x).circuit k = s.circuit k := rfl
@[simp] theorem State.link_setCx (s : State) (i : Nat) (x : Crux) (k : Nat) : (s.setCx i x).link k = s.link k := rfl
@[simp] theorem State.gth_setCx (s : State) (i : Nat) (x : Crux) (k : Nat) : (s.setCx i x).gth k = s.gth k := rfl
@[simp] theorem State.stream_setCx (s : State) (i : Nat) (x : Crux) (k : Nat) : (s.setCx i x).stream k = s.stream k := rfl
@[simp] theorem State.core_setStream (s : State) (n : Nat) (x : CmdStream) (k : Nat) : (s.setStream n x).core k = s.core k := rfl
@[simp] theorem State.cluster_setStream (s : State) (n : Nat) (x : CmdStream) (k : Nat) : (s.setStream n x).cluster k = s.cluster k := rfl
@[simp] theorem State.die_setStream (s : State) (n : Nat) (x : CmdStream) (k : Nat) : (s.setStream n x).die k = s.die k := rfl
@[simp] theorem State.hq_setStream (s : State) (n : Nat) (x : CmdStream) (k : Nat) : (s.setStream n x).hq k = s.hq k := rfl
@[simp] theorem State.ctx?_setStream (s : State) (n : Nat) (x : CmdStream) (k : Nat) : (s.setStream n x).ctx? k = s.ctx? k := rfl
@[simp] theorem State.port_setStream (s : State) (n : Nat) (x : CmdStream) (k : Nat) : (s.setStream n x).port k = s.port k := rfl
@[simp] theorem State.circuit_setStream (s : State) (n : Nat) (x : CmdStream) (k : Nat) : (s.setStream n x).circuit k = s.circuit k := rfl
@[simp] theorem State.link_setStream (s : State) (n : Nat) (x : CmdStream) (k : Nat) : (s.setStream n x).link k = s.link k := rfl
@[simp] theorem State.gth_setStream (s : State) (n : Nat) (x : CmdStream) (k : Nat) : (s.setStream n x).gth k = s.gth k := rfl
@[simp] theorem State.cx_setStream (s : State) (n : Nat) (x : CmdStream) (k : Nat) : (s.setStream n x).cx k = s.cx k := rfl
@[simp] theorem State.cluster_setWave (s : State) (r : WaveRef) (x : Wave) (k : Nat) : (s.setWave r x).cluster k = s.cluster k := rfl
@[simp] theorem State.die_setWave (s : State) (r : WaveRef) (x : Wave) (k : Nat) : (s.setWave r x).die k = s.die k := rfl
@[simp] theorem State.hq_setWave (s : State) (r : WaveRef) (x : Wave) (k : Nat) : (s.setWave r x).hq k = s.hq k := rfl
@[simp] theorem State.ctx?_setWave (s : State) (r : WaveRef) (x : Wave) (k : Nat) : (s.setWave r x).ctx? k = s.ctx? k := rfl
@[simp] theorem State.port_setWave (s : State) (r : WaveRef) (x : Wave) (k : Nat) : (s.setWave r x).port k = s.port k := rfl
@[simp] theorem State.circuit_setWave (s : State) (r : WaveRef) (x : Wave) (k : Nat) : (s.setWave r x).circuit k = s.circuit k := rfl
@[simp] theorem State.link_setWave (s : State) (r : WaveRef) (x : Wave) (k : Nat) : (s.setWave r x).link k = s.link k := rfl
@[simp] theorem State.gth_setWave (s : State) (r : WaveRef) (x : Wave) (k : Nat) : (s.setWave r x).gth k = s.gth k := rfl
@[simp] theorem State.cx_setWave (s : State) (r : WaveRef) (x : Wave) (k : Nat) : (s.setWave r x).cx k = s.cx k := rfl
@[simp] theorem State.stream_setWave (s : State) (r : WaveRef) (x : Wave) (k : Nat) : (s.setWave r x).stream k = s.stream k := rfl
@[simp] theorem State.core_atTime (s : State) (t : Nat) (i : Instr) (k : Nat) : (s.atTime t i).core k = s.core k := rfl
@[simp] theorem State.cluster_atTime (s : State) (t : Nat) (i : Instr) (k : Nat) : (s.atTime t i).cluster k = s.cluster k := rfl
@[simp] theorem State.die_atTime (s : State) (t : Nat) (i : Instr) (k : Nat) : (s.atTime t i).die k = s.die k := rfl
@[simp] theorem State.hq_atTime (s : State) (t : Nat) (i : Instr) (k : Nat) : (s.atTime t i).hq k = s.hq k := rfl
@[simp] theorem State.ctx?_atTime (s : State) (t : Nat) (i : Instr) (k : Nat) : (s.atTime t i).ctx? k = s.ctx? k := rfl
@[simp] theorem State.port_atTime (s : State) (t : Nat) (i : Instr) (k : Nat) : (s.atTime t i).port k = s.port k := rfl
@[simp] theorem State.circuit_atTime (s : State) (t : Nat) (i : Instr) (k : Nat) : (s.atTime t i).circuit k = s.circuit k := rfl
@[simp] theorem State.link_atTime (s : State) (t : Nat) (i : Instr) (k : Nat) : (s.atTime t i).link k = s.link k := rfl
@[simp] theorem State.gth_atTime (s : State) (t : Nat) (i : Instr) (k : Nat) : (s.atTime t i).gth k = s.gth k := rfl
@[simp] theorem State.cx_atTime (s : State) (t : Nat) (i : Instr) (k : Nat) : (s.atTime t i).cx k = s.cx k := rfl
@[simp] theorem State.stream_atTime (s : State) (t : Nat) (i : Instr) (k : Nat) : (s.atTime t i).stream k = s.stream k := rfl

end Sys2Proof.Machine
end

