-- ==== Sys2Proof/Laws/Waves.lean ====
section
/-! SUPPORT. Laws of waves and fragments: reading a wave or a fragment back after an update, scalar registers, and what the
shared forms of a scalar instruction answer. -/

namespace Sys2Proof.Machine

/-! Waves -/

@[simp] theorem State.wave?_setWave (s : State) (r : WaveRef) (w : Wave) : (s.setWave r w).wave? r = some w := by
  simp [State.wave?, State.setWave, State.updCore]

theorem State.wave?_setWave_ne (s : State) (r q : WaveRef) (w : Wave) (h : q ≠ r) : (s.setWave r w).wave? q = s.wave? q := by
  simp only [State.wave?, State.setWave, State.updCore]
  by_cases hc : q.core = r.core
  · have hs : q.slot ≠ r.slot := fun hs => h (by cases q; cases r; simp_all)
    rw [hc]; simp [tfind_tset_ne _ _ hs]
  · rw [State.core_setCore_ne _ _ _ hc]

@[simp] theorem State.setWave_setWave (s : State) (r : WaveRef) (w x : Wave) : (s.setWave r w).setWave r x = s.setWave r x := by
  simp [State.setWave, State.updCore]

theorem State.updWave_eq {s : State} {r : WaveRef} {w : Wave} (h : s.wave? r = some w) (f : Wave → Wave) :
    s.updWave r f = s.setWave r (f w) := by simp [State.updWave, h]

@[simp] theorem State.updWave_setWave (s : State) (r : WaveRef) (w : Wave) (f : Wave → Wave) :
    (s.setWave r w).updWave r f = s.setWave r (f w) := by simp [State.updWave]

@[simp] theorem State.updFrag_setWave (s : State) (r : WaveRef) (w : Wave) (k : Nat) (f : Fragment → Fragment) :
    (s.setWave r w).updFrag r k f = s.setWave r (w.updFrag k f) := by simp [State.updFrag]

theorem State.updFrag_eq {s : State} {r : WaveRef} {w : Wave} (h : s.wave? r = some w) (k : Nat) (f : Fragment → Fragment) :
    s.updFrag r k f = s.setWave r (w.updFrag k f) := by simp [State.updFrag, State.updWave, h]

@[simp] theorem State.core_setWave_blocks (s : State) (r : WaveRef) (w : Wave) :
    ((s.setWave r w).core r.core).blocks = (s.core r.core).blocks := by simp [State.setWave, State.updCore]

/-! Fragments -/

/-- Looking a fragment up after every fragment of a number is changed by a function that keeps its number. -/
theorem Wave.frag?_updFrag (w : Wave) (k j : Nat) (f : Fragment → Fragment) (hf : ∀ g, (f g).id = g.id) :
    (w.updFrag k f).frag? j = if j = k then (w.frag? j).map f else w.frag? j := by
  obtain ⟨l, hl⟩ : ∃ l, w.frags = l := ⟨_, rfl⟩
  simp only [Wave.frag?, Wave.updFrag, hl]
  clear hl
  induction l with
  | nil => simp
  | cons g l ih =>
    simp only [List.map_cons, List.find?_cons]
    by_cases hg : g.id = k
    · subst hg
      simp only [beq_self_eq_true, if_true, hf]
      by_cases hj : g.id = j
      · subst hj; simp
      · have : ¬ (g.id == j) = true := by simpa using hj
        simp only [this, ih]
    · have h1 : (g.id == k) = false := by simpa using hg
      simp only [h1, Bool.false_eq_true, if_false]
      by_cases hj : g.id = j
      · subst hj; simp [hg]
      · have : ¬ (g.id == j) = true := by simpa using hj
        simp only [this, ih]

theorem Wave.frag?_id {w : Wave} {k : Nat} {f : Fragment} (h : w.frag? k = some f) : f.id = k := by
  have := List.find?_some h
  simpa using this

@[simp] theorem Wave.sreg_updFrag (w : Wave) (k : Nat) (f : Fragment → Fragment) : (w.updFrag k f).sreg = w.sreg := rfl

/-! Scalar registers -/

theorem maskWord_getLsbD (m : LaneMask) (k i : Nat) (hi : i < 32) : (maskWord m k).getLsbD i = m.getLsbD (32 * k + i) := by
  rw [maskWord, BitVec.getLsbD_ofNat, Nat.testBit_shiftRight]
  simp [hi, BitVec.getLsbD]

theorem setMaskWord_getLsbD (m : LaneMask) (k i : Nat) (v : Word) (hk : k < 3) :
    (setMaskWord m k v).getLsbD i = if 32 * k ≤ i ∧ i < 32 * k + 32 then v.getLsbD (i - 32 * k) else m.getLsbD i := by
  by_cases hi : i < 96
  · simp only [setMaskWord, at_, BitVec.getLsbD_or, BitVec.getLsbD_and, BitVec.getLsbD_not, BitVec.getLsbD_ofNat, hi, decide_true,
      Bool.true_and, Nat.testBit_shiftLeft, show (4294967295 : Nat) = 2 ^ 32 - 1 from rfl, Nat.testBit_two_pow_sub_one]
    by_cases h1 : 32 * k ≤ i
    · by_cases h2 : i < 32 * k + 32
      · have : i - 32 * k < 32 := by omega
        simp [h1, h2, this, BitVec.getLsbD]
      · have h3 : ¬ i - 32 * k < 32 := by omega
        have h4 : v.toNat.testBit (i - 32 * k) = false :=
          Nat.testBit_lt_two_pow (Nat.lt_of_lt_of_le v.isLt (Nat.pow_le_pow_right (by omega) (by omega)))
        simp [h1, h2, h3, h4]
    · simp [h1]
  · have h2 : ¬ (32 * k ≤ i ∧ i < 32 * k + 32) := by omega
    simp only [h2, if_false]
    rw [BitVec.getLsbD_of_ge _ _ (by omega), BitVec.getLsbD_of_ge _ _ (by omega)]

theorem maskWord_setMaskWord (m : LaneMask) (j k : Nat) (v : Word) (hk : k < 3) :
    maskWord (setMaskWord m k v) j = if j = k then v else maskWord m j := by
  apply BitVec.eq_of_getLsbD_eq
  intro i hi
  rw [maskWord_getLsbD _ _ _ hi, setMaskWord_getLsbD _ _ _ _ hk]
  by_cases h : j = k
  · subst h
    have : 32 * j ≤ 32 * j + i ∧ 32 * j + i < 32 * j + 32 := by omega
    simp [this]
  · have : ¬ (32 * k ≤ 32 * j + i ∧ 32 * j + i < 32 * k + 32) := by omega
    rw [if_neg this, if_neg h, maskWord_getLsbD _ _ _ hi]

theorem setPath_getD (l : List Word) (k i : Nat) (v : Word) (hi : i < 5) : (setPath l k v).getD i 0 = if i = k then v else l.getD i 0 := by
  simp [setPath, List.getD_eq_getElem?_getD, List.getElem?_map, List.getElem?_range hi]

end Sys2Proof.Machine
end

