-- ==== Sys2Proof/Laws/Lane.lean ====
section
/-! SUPPORT. What the shared forms of lane instructions do (R354, R416 to R422). -/

namespace Sys2Proof.Machine

open Sys2Proof.Claims

/-! Masks over lanes -/

theorem mem_lanesOf (m : LaneMask) (i : Nat) : i ∈ lanesOf m ↔ i < 96 ∧ lane m i = true := by simp [lanesOf]

@[simp] theorem lane_zero (i : Nat) : lane 0 i = false := by simp [lane]

@[simp] theorem lane_and (a b : LaneMask) (i : Nat) : lane (a &&& b) i = (lane a i && lane b i) := by simp [lane]

theorem lane_not (a : LaneMask) (i : Nat) (hi : i < 96) : lane (~~~a) i = !lane a i := by simp [lane, hi]

theorem lane_lt {m : LaneMask} {i : Nat} (h : lane m i = true) : i < 96 := BitVec.lt_of_getLsbD h

theorem maskSum_lt (f : Nat → Bool) (n : Nat) :
    (List.range n).foldl (fun a i => if f i then a + at_ 1 i else a) 0 < 2 ^ n := by
  induction n with
  | zero => simp
  | succ n ih =>
    rw [List.range_succ, List.foldl_append]
    simp only [List.foldl_cons, List.foldl_nil]
    generalize (List.range n).foldl (fun a i => if f i then a + at_ 1 i else a) 0 = X at *
    have : at_ 1 n = 2 ^ n := by simp [at_, Nat.shiftLeft_eq]
    rw [pow_succ]
    split <;> omega

theorem maskSum_testBit (f : Nat → Bool) (n i : Nat) :
    ((List.range n).foldl (fun a i => if f i then a + at_ 1 i else a) 0).testBit i = (decide (i < n) && f i) := by
  induction n with
  | zero => simp
  | succ n ih =>
    have hlt := maskSum_lt f n
    rw [List.range_succ, List.foldl_append]
    simp only [List.foldl_cons, List.foldl_nil]
    generalize hx : (List.range n).foldl (fun a i => if f i then a + at_ 1 i else a) 0 = X at *
    by_cases hf : f n
    · rw [if_pos hf]
      have : X + at_ 1 n = 2 ^ n * 1 ||| X := by
        rw [← Nat.two_pow_add_eq_or_of_lt hlt]; simp [at_, Nat.shiftLeft_eq]; ring
      rw [this, Nat.testBit_or, ih, mul_one, Nat.testBit_two_pow]
      by_cases h : n = i
      · subst h; simp [hf]
      · have : (i < n + 1) ↔ i < n := by omega
        simp [h, this]
    · rw [if_neg hf, ih]
      by_cases h : n = i
      · subst h; simp [hf]
      · have : (i < n + 1) ↔ i < n := by omega
        simp [this]

/-- Lane i of the mask of a predicate. -/
theorem lane_maskFrom (f : Nat → Bool) (i : Nat) : lane (maskFrom f) i = (decide (i < 96) && f i) := by
  rw [lane, maskFrom, BitVec.getLsbD_ofNat, maskSum_testBit]
  by_cases h : i < 96 <;> simp [h]

/-! Lane registers -/

theorem vreg96_getD (w : Wave) (d j : Nat) (hj : j < 96) : (w.vreg96 d).getD j 0 = w.vget d j := by
  unfold Wave.vreg96 Wave.vget
  split
  · rfl
  · simp [List.getD_eq_getElem?_getD, hj]

/-- A lane register after a write. -/
theorem Wave.vget_vput (w : Wave) (d reg j : Nat) (m : LaneMask) (v : Nat → Word) (hj : j < 96) :
    (w.vput d m v).vget reg j = if reg = d ∧ lane m j = true then v j else w.vget reg j := by
  unfold Wave.vput
  by_cases hm : m = 0
  · subst hm; simp [lane]
  · rw [if_neg (by simpa using hm)]
    by_cases hr : reg = d
    · subst hr
      have h1 : tfind (tset w.vreg reg ((List.range 96).map (fun i => if lane m i then v i else (w.vreg96 reg).getD i 0))) reg = some _ :=
        tfind_tset_same _ _ _
      simp only [Wave.vget]
      rw [h1]
      simp only [List.getD_eq_getElem?_getD, List.getElem?_map, List.getElem?_range hj, Option.map_some, Option.getD_some, true_and]
      split
      · rfl
      · rw [← List.getD_eq_getElem?_getD, vreg96_getD _ _ _ hj]; rfl
    · simp only [Wave.vget, tfind_tset_ne _ _ hr, hr, false_and, if_false]

/-- Only lane registers change. -/
theorem Wave.vput_eq (w : Wave) (d : Nat) (m : LaneMask) (v : Nat → Word) : ∃ a, w.vput d m v = { w with vreg := a } := by
  unfold Wave.vput; split
  · exact ⟨w.vreg, rfl⟩
  · exact ⟨_, rfl⟩

theorem Wave.putOuts_succ (w : Wave) (d n : Nat) (m : LaneMask) (l : List LaneOut) :
    w.putOuts d (n + 1) m l = (w.putOuts d n m l).vput (d + n) m (fun i => (outAt l i).words.getD n 0) := by
  simp [Wave.putOuts, List.range_succ]

/-- What the writes of outcomes do. -/
theorem Wave.putOuts_spec (w : Wave) (d n : Nat) (m : LaneMask) (l : List LaneOut) :
    (∃ a, w.putOuts d n m l = { w with vreg := a }) ∧
    ∀ reg j, j < 96 → (w.putOuts d n m l).vget reg j =
      if d ≤ reg ∧ reg < d + n ∧ lane m j = true then (outAt l j).words.getD (reg - d) 0 else w.vget reg j := by
  induction n with
  | zero =>
    refine ⟨⟨w.vreg, rfl⟩, fun reg j _ => ?_⟩
    rw [if_neg (by omega)]; rfl
  | succ n ih =>
    obtain ⟨⟨a, h1⟩, h2⟩ := ih
    rw [Wave.putOuts_succ]
    refine ⟨?_, fun reg j hj => ?_⟩
    · obtain ⟨b, hb⟩ := Wave.vput_eq (w.putOuts d n m l) (d + n) m (fun i => (outAt l i).words.getD n 0)
      exact ⟨b, by rw [hb, h1]⟩
    · rw [Wave.vget_vput _ _ _ _ _ _ hj, h2 reg j hj]
      by_cases ha : reg = d + n
      · subst ha
        by_cases hl : lane m j = true
        · simp [hl]
        · simp [hl]
      · by_cases hl : lane m j = true
        · simp only [ha, hl, and_true, if_false]
          have : (d ≤ reg ∧ reg < d + n) ↔ (d ≤ reg ∧ reg < d + (n + 1)) := by omega
          simp only [this]
        · simp [hl]

theorem outAt_laneOuts (m : LaneMask) (eff : Nat → LaneOut) (j : Nat) (hj : lane m j = true) : outAt (laneOuts m eff) j = eff j := by
  have h := lane_lt hj
  simp [outAt, laneOuts, List.getD_eq_getElem?_getD, List.getElem?_range h, hj]

/-! Flags -/

theorem orFlags_go (l : List Flags) (a : Flags) (k : Nat) :
    (l.foldl (fun (x y : Flags) => x ||| y) a).getLsbD k = (a.getLsbD k || l.any (fun f => f.getLsbD k)) := by
  induction l generalizing a with
  | nil => simp
  | cons x l ih => simp [ih, Bool.or_assoc]

theorem orFlags_getLsbD (l : List Flags) (k : Nat) : (orFlags l).getLsbD k = l.any (fun f => f.getLsbD k) := by
  simp [orFlags, orFlags_go]

theorem outFlags_laneOuts (m n : LaneMask) (eff : Nat → LaneOut) (h : ∀ j, lane n j = true → lane m j = true) (k : Nat) :
    (outFlags n (laneOuts m eff)).getLsbD k = (lanesOf n).any (fun j => (eff j).flags.getLsbD k) := by
  rw [outFlags, orFlags_getLsbD, Bool.eq_iff_iff]
  simp only [List.any_eq_true, List.mem_map, List.mem_range, exists_exists_and_eq_and, mem_lanesOf]
  constructor
  · rintro ⟨j, hj, hk⟩
    by_cases hl : lane n j = true
    · rw [if_pos hl, outAt_laneOuts _ _ _ (h j hl)] at hk; exact ⟨j, ⟨hj, hl⟩, hk⟩
    · rw [if_neg hl] at hk; simp at hk
  · rintro ⟨j, ⟨hj, hl⟩, hk⟩
    exact ⟨j, hj, by rw [if_pos hl, outAt_laneOuts _ _ _ (h j hl)]; exact hk⟩

theorem setflags_withFlags (v : Word) (act : LaneMask) (fl : Nat → Flags) (f : Flags)
    (h : ∀ k, f.getLsbD k = (lanesOf act).any (fun j => (fl j).getLsbD k)) : withFlags v act fl (v ||| f.zeroExtend 32) := by
  intro k
  by_cases hk : k < 32
  · simp [h, hk]
  · have h0 : ∀ j, (fl j).getLsbD k = false := fun j => BitVec.getLsbD_of_ge _ _ (by omega)
    simp [BitVec.getLsbD_or, hk, h0]

/-! The shared forms -/

theorem asLane_of {s : State} {r : WaveRef} {w : Wave} {f : Fragment} {x : Running} (h : Lane s r w f x)
    (k : WaveRef → Wave → Fragment → Running → Out) : asLane s k = k r w f x := by
  obtain ⟨h1, h2, h3, h4⟩ := h
  simp [asLane, h1, h2, h3, h4]

/-- The clause goes on after a change of the wave that leaves its fragments alone. -/
theorem laneWent_of {s : State} {r : WaveRef} {w : Wave} {f : Fragment} {x : Running} (h : Lane s r w f x) (v : Wave)
    (hv : v.frags = w.frags) :
    ∃ w' : Wave, LaneWent s ((({ s with free := s.free + 96 * w.awaited.length } : State).setWave r v).laneNext r f.id) r w w' f x ∧
      w' = { v with frags := w'.frags } := by
  have hid := Wave.frag?_id h.frag
  have hf : v.frag? f.id = some f := by rw [← h.frag]; simp [Wave.frag?, hv]
  refine ⟨_, ⟨by rw [State.laneNext, State.updFrag_setWave], ?_, ?_, ?_, ?_, ?_⟩, ?_⟩
  · rw [State.laneNext, State.updFrag_setWave, State.wave?_setWave]
  · rw [Wave.frag?_updFrag, if_pos rfl, hf]
    · simp [h.run, Running.rest]
    · intro g; rfl
  · intro k hk
    rw [Wave.frag?_updFrag, if_neg hk]
    · simp [Wave.frag?, hv]
    · intro g; rfl
  · intro q hq
    rw [State.laneNext, State.updFrag_setWave, State.wave?_setWave_ne _ _ _ _ hq]; rfl
  · rw [State.laneNext, State.updFrag_setWave]; simp
  · rfl

/-- The common form (R416, R417). -/
theorem laneOp_of {s : State} {r : WaveRef} {w : Wave} {f : Fragment} {x : Running} (h : Lane s r w f x) (c : LaneCtl)
    (d : BitVec 9) (n draws : Nat) (eff : View → Nat → LaneOut) :
    ∃ t : State, laneOp s c d n draws eff = .next t ∧ ∃ w' : Wave, LaneWent s t r w w' f x ∧
      LanePut w w' (activeMask w x c) d.toNat n (fun j => ((eff (s.view w x).1 j).words, (eff (s.view w x).1 j).flags)) ∧
      w' = { w with
        vreg := w'.vreg, vstat := w'.vstat, frags := w'.frags
        rngs := if activeMask w x c = 0 then w.rngs else w.rngs + BitVec.ofNat 64 (96 * draws) * golden } := by
  rw [laneOp, asLane_of h]
  generalize hm : activeMask w x c = m
  generalize hv : (s.view w x).1 = v
  generalize hl : laneOuts m (eff v) = l
  obtain ⟨⟨a, h1⟩, h2⟩ := Wave.putOuts_spec w d.toNat n m l
  have hs : (s.view w x).2 = ({ s with free := s.free + 96 * w.awaited.length } : State) := rfl
  have hsp : s.view w x = (v, ({ s with free := s.free + 96 * w.awaited.length } : State)) := by rw [← hv, ← hs]
  simp only [hsp, hl]
  set u : Wave := (w.putOuts d.toNat n m l).setflags (outFlags m l) with hu
  have hu1 : u = { w with vreg := a, vstat := w.vstat ||| (outFlags m l).zeroExtend 32 } := by rw [hu, h1]; rfl
  set y : Wave := if m == 0 then u else u.advance draws with hy
  have hy1 : y = { w with
      vreg := a, vstat := w.vstat ||| (outFlags m l).zeroExtend 32
      rngs := if m = 0 then w.rngs else w.rngs + BitVec.ofNat 64 (96 * draws) * golden } := by
    rw [hy, hu1]
    by_cases h0 : m = 0
    · rw [if_pos (by simpa using h0), if_pos h0]
    · rw [if_neg (by simpa using h0), if_neg h0]; rfl
  obtain ⟨w', hw, he⟩ := laneWent_of h y (by rw [hy1])
  refine ⟨_, rfl, w', hw, ⟨fun reg j hj => ?_, ?_⟩, ?_⟩
  · have : w'.vget reg j = (w.putOuts d.toNat n m l).vget reg j := by rw [he, hy1, h1]; rfl
    rw [this, h2 reg j hj]
    by_cases hlj : lane m j = true
    · rw [← hl, outAt_laneOuts _ _ _ hlj]
    · simp [hlj]
  · have : w'.vstat = w.vstat ||| (outFlags m l).zeroExtend 32 := by rw [he, hy1]
    rw [this]
    exact setflags_withFlags _ _ _ _ (fun k => by rw [← hl]; exact outFlags_laneOuts m m _ (fun _ h => h) k)
  · rw [he, hy1]

/-- A guard after a write. -/
theorem Wave.guard_setGuard (w : Wave) (g k j : Nat) (m v : LaneMask) (hj : j < 96) :
    lane ((w.setGuard g m v).guard k) j = if k = g ∧ g ≠ 0 ∧ lane m j = true then lane v j else lane (w.guard k) j := by
  unfold Wave.setGuard
  by_cases hg : g = 0
  · subst hg; simp
  by_cases hm : m = 0
  · subst hm
    rw [if_pos (by simp), if_neg (fun h => absurd h.2.2 (by simp [lane]))]
  rw [if_neg (by simp [hg]; simpa using hm)]
  by_cases hk : k = g
  · subst hk
    have h1 : (k == 0) = false := by simpa using hg
    simp only [Wave.guard, h1, tget_tset_same, hg, true_and, ne_eq, not_false_eq_true, Bool.false_eq_true, if_false]
    simp only [lane, BitVec.getLsbD_or, BitVec.getLsbD_and, BitVec.getLsbD_not, hj, decide_true, Bool.true_and]
    by_cases hmj : m.getLsbD j = true <;> simp [hmj]
  · by_cases h0 : k = 0
    · subst h0; simp [Wave.guard, hk]
    · simp [Wave.guard, hk, h0, tget_tset_ne]

/-- Only the guards change. -/
theorem Wave.setGuard_eq (w : Wave) (g : Nat) (m v : LaneMask) : ∃ a, w.setGuard g m v = { w with guards := a } := by
  unfold Wave.setGuard; split
  · exact ⟨w.guards, rfl⟩
  · exact ⟨_, rfl⟩

/-- The form that writes a guard (R422). -/
theorem laneGuard_of {s : State} {r : WaveRef} {w : Wave} {f : Fragment} {x : Running} (h : Lane s r w f x) (c : LaneCtl)
    (g : Nat) (eff : View → Nat → Bool × Flags) :
    ∃ t : State, laneGuard s c g eff = .next t ∧ ∃ w' : Wave, LaneWent s t r w w' f x ∧
      (∀ k j, j < 96 → lane (w'.guard k) j = if k = g ∧ g ≠ 0 ∧ lane (activeMask w x c) j = true then (eff (s.view w x).1 j).1 else lane (w.guard k) j) ∧
      withFlags w.vstat (activeMask w x c) (fun j => (eff (s.view w x).1 j).2) w'.vstat ∧
      w' = { w with guards := w'.guards, vstat := w'.vstat, frags := w'.frags } := by
  rw [laneGuard, asLane_of h]
  generalize hm : activeMask w x c = m
  generalize hv : (s.view w x).1 = v
  have hsp : s.view w x = (v, ({ s with free := s.free + 96 * w.awaited.length } : State)) := by rw [← hv]; rfl
  simp only [hsp]
  generalize hval : maskFrom (fun i => lane m i && (eff v i).1) = val
  generalize hfl : orFlags ((lanesOf m).map (fun i => (eff v i).2)) = fl
  obtain ⟨a, h1⟩ := Wave.setGuard_eq w g m val
  have h2 : (w.setGuard g m val).setflags fl = { w with guards := a, vstat := w.vstat ||| fl.zeroExtend 32 } := by rw [h1]; rfl
  obtain ⟨w', hw, he⟩ := laneWent_of h ((w.setGuard g m val).setflags fl) (by rw [h2])
  refine ⟨_, rfl, w', hw, fun k j hj => ?_, ?_, ?_⟩
  · have : w'.guard k = (w.setGuard g m val).guard k := by rw [he]; rfl
    rw [this, Wave.guard_setGuard _ _ _ _ _ _ hj, ← hval, lane_maskFrom]
    by_cases hl : lane m j = true
    · simp [hl, hj]
    · simp [hl]
  · have : w'.vstat = w.vstat ||| fl.zeroExtend 32 := by rw [he, h2]
    rw [this]
    refine setflags_withFlags _ _ _ _ (fun k => ?_)
    rw [← hfl, orFlags_getLsbD, List.any_map]; rfl
  · rw [he, h2]

end Sys2Proof.Machine
end

