-- ==== Sys2Proof/Laws/Scalar.lean ====
section
/-! SUPPORT. What writing a scalar register does, and what the shared forms of a scalar instruction answer. -/

namespace Sys2Proof.Machine

open Sys2Proof.Claims

/-- Everything that a write of a scalar register does (R232, R241). -/
theorem Wave.wr_spec (w : Wave) (f : Fragment) (d : Nat) (v : Word) (hf : w.frag? f.id = some f) (hd : d < 64) :
    ∃ f' : Fragment, (w.wr f.id d v).frag? f.id = some f' ∧ f' = { f with mask := f'.mask, path := f'.path } ∧
      (∀ n, n < 64 → (w.wr f.id d v).rd f' n = if n = d then landed f d v else w.rd f n) ∧
      (∀ k, k ≠ f.id → (w.wr f.id d v).frag? k = w.frag? k) ∧
      ∃ a b, w.wr f.id d v = { w with sreg := a, frags := b } := by
  by_cases h0 : d = 0
  · subst h0
    refine ⟨f, hf, rfl, fun n _ => ?_, fun _ _ => rfl, w.sreg, w.frags, rfl⟩
    by_cases hn : n = 0
    · simp [hn, landed, Wave.rd]
    · simp [hn, Wave.wr]
  by_cases h1 : 61 ≤ d
  · refine ⟨{ f with mask := setMaskWord f.mask (d - 61) (v &&& maskWord f.lanes (d - 61)) }, ?_, rfl, fun n hn => ?_, fun k hk => ?_, _, _, by simp only [Wave.wr, h0, h1, beq_iff_eq, if_true, if_false, Wave.updFrag]; rfl⟩
    · simp [Wave.wr, h0, h1, Wave.frag?_updFrag, hf]
    · by_cases h2 : 61 ≤ n
      · have : n ≠ 0 := by omega
        have e : n - 61 = d - 61 ↔ n = d := by omega
        simp only [Wave.rd, Wave.wr, h0, h1, h2, beq_iff_eq, this, if_true, if_false, landed,
          maskWord_setMaskWord _ _ _ _ (show d - 61 < 3 by omega), e]
      · have : n ≠ d := by omega
        simp only [Wave.rd, Wave.wr, h0, h1, h2, beq_iff_eq, this, if_true, if_false, Wave.sreg_updFrag]
    · simp [Wave.wr, h0, h1, Wave.frag?_updFrag, hk]
  by_cases h2 : 56 ≤ d
  · refine ⟨{ f with path := setPath f.path (d - 56) v }, ?_, rfl, fun n hn => ?_, fun k hk => ?_, _, _,
      by simp only [Wave.wr, h0, h1, h2, beq_iff_eq, if_true, if_false, Wave.updFrag]; rfl⟩
    · simp [Wave.wr, h0, h1, h2, Wave.frag?_updFrag, hf]
    · by_cases h3 : 61 ≤ n
      · have : n ≠ d := by omega
        simp only [Wave.rd, Wave.wr, h0, h1, h2, h3, beq_iff_eq, this, if_true, if_false]
      · by_cases h4 : 56 ≤ n
        · have : n ≠ 0 := by omega
          have e : n - 56 = d - 56 ↔ n = d := by omega
          simp only [Wave.rd, Wave.wr, h0, h1, h2, h3, h4, beq_iff_eq, this, if_true, if_false, landed,
            setPath_getD _ _ _ _ (show n - 56 < 5 by omega), e]
        · have : n ≠ d := by omega
          simp only [Wave.rd, Wave.wr, h0, h1, h2, h3, h4, beq_iff_eq, this, if_true, if_false, Wave.sreg_updFrag]
    · simp [Wave.wr, h0, h1, h2, Wave.frag?_updFrag, hk]
  · refine ⟨f, ?_, rfl, fun n hn => ?_, fun k hk => ?_, _, _,
      by simp only [Wave.wr, h0, h1, h2, beq_iff_eq, if_false]; rfl⟩
    · simpa [Wave.wr, h0, h1, h2, Wave.frag?] using hf
    · by_cases h3 : n = d
      · subst h3
        simp [Wave.rd, Wave.wr, h0, h1, h2, landed]
      · simp only [Wave.rd, Wave.wr, h0, h1, h2, h3, beq_iff_eq, if_false, tget_tset_ne _ _ _ h3]
    · simp [Wave.wr, h0, h1, h2, Wave.frag?]

/-- The writes of a list of registers, in order. -/
def Wave.wrs (w : Wave) (k : Nat) (l : List (Nat × Word)) : Wave := l.foldl (fun (w : Wave) (p : Nat × Word) => w.wr k p.1 p.2) w

/-- What the writes of a list of different registers do. -/
theorem Wave.wrs_spec (l : List (Nat × Word)) (w : Wave) (f : Fragment) (hf : w.frag? f.id = some f) (hd : ∀ p ∈ l, p.1 < 64)
    (hn : (l.map Prod.fst).Nodup) :
    ∃ f' : Fragment, (w.wrs f.id l).frag? f.id = some f' ∧ f' = { f with mask := f'.mask, path := f'.path } ∧
      (∀ n, n < 64 → (w.wrs f.id l).rd f' n = regAfter w f l n) ∧
      (∀ k, k ≠ f.id → (w.wrs f.id l).frag? k = w.frag? k) ∧
      ∃ a b, w.wrs f.id l = { w with sreg := a, frags := b } := by
  induction l generalizing w f with
  | nil => exact ⟨f, hf, rfl, fun _ _ => rfl, fun _ _ => rfl, w.sreg, w.frags, rfl⟩
  | cons p l ih =>
    obtain ⟨d, v⟩ := p
    obtain ⟨g, g1, g2, g3, g4, a, b, g5⟩ := w.wr_spec f d v hf (hd (d, v) (List.mem_cons_self ..))
    have gid : g.id = f.id := by rw [g2]
    have hnd : d ∉ l.map Prod.fst := by
      rw [List.map_cons, List.nodup_cons] at hn
      exact hn.1
    have glanes : g.lanes = f.lanes := by rw [g2]
    obtain ⟨h, h1, h2, h3, h4, a', b', h5⟩ := ih (w.wr f.id d v) g (by rw [gid]; exact g1)
      (fun q hq => hd q (List.mem_cons_of_mem _ hq)) (by rw [List.map_cons, List.nodup_cons] at hn; exact hn.2)
    rw [gid] at h1 h3 h4 h5
    refine ⟨h, h1, by rw [h2, g2], fun n hn' => ?_, fun k hk => (h4 k hk).trans (g4 k hk), a', b', ?_⟩
    · show ((w.wr f.id d v).wrs f.id l).rd h n = _
      rw [h3 n hn']
      simp only [regAfter, g3 n hn', List.find?_cons]
      by_cases hdn : d = n
      · subst hdn
        have : l.find? (fun p => p.1 == d) = none := by
          rw [List.find?_eq_none]
          intro q hq hqd
          exact hnd (List.mem_map.2 ⟨q, hq, by simpa using hqd⟩)
        simp [this]
      · have h6 : ¬ (d == n) = true := by simpa using hdn
        have h7 : ¬ n = d := fun e => hdn e.symm
        simp only [h6, h7, if_false, landed, glanes]
    · show (w.wr f.id d v).wrs f.id l = _
      rw [h5, g5]

/-- A fragment that goes on at `pc` after the writes of a list of registers. -/
theorem wrote_upd {s : State} {r : WaveRef} {w : Wave} {f : Fragment} (l : List (Nat × Word)) (pc : DWord)
    (u : Fragment → Fragment) (hu : ∀ g : Fragment, g.pc = f.pc → u g = { g with pc := pc, waitSince := none })
    (ui : ∀ g, (u g).id = g.id) (hf : w.frag? f.id = some f) (hd : ∀ p ∈ l, p.1 < 64) (hn : (l.map Prod.fst).Nodup) :
    Wrote s ((s.setWave r (w.wrs f.id l)).updFrag r f.id u) r w f pc l := by
  obtain ⟨g, g1, g2, g3, g4, a, b, g5⟩ := Wave.wrs_spec l w f hf hd hn
  have e := State.updFrag_setWave s r (w.wrs f.id l) f.id u
  refine ⟨_, { g with pc := pc, waitSince := none }, e, by rw [e]; simp, ?_, fun n hn => ?_, fun k hk => ?_, ?_, ?_, ?_, ?_⟩
  · rw [Wave.frag?_updFrag _ _ _ _ ui, if_pos rfl, g1, Option.map_some, hu g (by rw [g2])]
  · exact g3 n hn
  · rw [Wave.frag?_updFrag _ _ _ _ ui, if_neg hk, g4 k hk]
  · rw [g5]; rfl
  · rw [g2]
  · intro q hq; rw [e]; exact State.wave?_setWave_ne s r q _ hq
  · intro k; rw [e]; simp

/-- The same at an address. -/
theorem wrote_goto {s : State} {r : WaveRef} {w : Wave} {f : Fragment} (l : List (Nat × Word)) (pc : DWord)
    (hf : w.frag? f.id = some f) (hd : ∀ p ∈ l, p.1 < 64) (hn : (l.map Prod.fst).Nodup) :
    Wrote s ((s.setWave r (w.wrs f.id l)).goto r f.id pc) r w f pc l :=
  wrote_upd l pc _ (fun _ _ => rfl) (fun _ => rfl) hf hd hn

/-- The same at the next word. -/
theorem wrote_next {s : State} {r : WaveRef} {w : Wave} {f : Fragment} (l : List (Nat × Word))
    (hf : w.frag? f.id = some f) (hd : ∀ p ∈ l, p.1 < 64) (hn : (l.map Prod.fst).Nodup) :
    Wrote s ((s.setWave r (w.wrs f.id l)).next r f.id) r w f (f.pc + 4) l :=
  wrote_upd l (f.pc + 4) _ (fun g hg => by rw [hg]) (fun _ => rfl) hf hd hn

/-! The shared forms -/

/-- A scalar form answers what its continuation answers. -/
theorem scalarOp_of {s : State} {r : WaveRef} {w : Wave} {f : Fragment} {regs : List Nat} (h : Scalar s r w f regs)
    (k : WaveRef → Wave → Fragment → Out) : scalarOp s regs k = k r w f := by
  obtain ⟨h1, h2, h3, h4, h5⟩ := h
  simp [scalarOp, asScalar, h1, h2, h3, h4, h5]

/-- The common form answers the next state with its one result written (R374). -/
theorem scalarResult_of {s : State} {r : WaveRef} {w : Wave} {f : Fragment} {d : Nat} {srcs : List Nat}
    (h : Scalar s r w f (d :: srcs)) (hd : d < 64) (v : Wave → Fragment → Word) :
    ∃ t : State, scalarResult s srcs d v = .next t ∧ Wrote s t r w f (f.pc + 4) [(d, v w f)] :=
  ⟨_, scalarOp_of h _, wrote_next [(d, v w f)] h.frag (by simpa using hd) (by simp)⟩

end Sys2Proof.Machine
end

