-- ==== Sys2Proof/Tests/Slice0.lean ====
section
/-! SUPPORT. Small tests: ill-formed terms that the legality check refuses, words written out from the encodings and what they
decode to, one step of a few instructions with results worked out by hand, and for every statement with hypotheses states and
operands that meet them. -/

namespace Sys2Proof.Tests

open Sys2Proof.Machine
open Sys2Proof.Claims

-- One theorem at a time: the checks of many at once would take too much memory.
set_option Elab.async false

/-! Ill-formed terms, one for each check of Legal.lean -/

/-- A lane word's common fields with set-flag `sf`. -/
def ctl (sf : BitVec 4) : LaneCtl := ⟨false, 0, false, 0, 0, false, 0, sf, 0⟩
/-- An L-R modifier from TYPE, RND, POL, AX and SUB (R353). -/
def mr (ty rnd pol ax sub : Nat) : BitVec 16 := BitVec.ofNat 16 (2048 * ty + 256 * rnd + 64 * pol + 32 * ax + sub)

theorem test_wf_snop_word : (Instr.sadd 0 0 0).wf = false := by decide
theorem test_wf_branch_condition : (Instr.cbr 1 6 0).wf = false ∧ (Instr.sbr 1 2 6 0).wf = false := by decide
theorem test_wf_scalar_pairs : (Instr.time 5).wf = false ∧ (Instr.slea 2 5 1 0 0).wf = false ∧ (Instr.sld 5 2 3 0 0 0 0).wf = false ∧
    (Instr.launch 1 3 4).wf = false ∧ (Instr.xcopy 7 0).wf = false := by decide
theorem test_wf_scalar_space_and_scope : (Instr.sld 4 2 2 3 0 0 0).wf = false ∧ (Instr.sst 4 2 2 0 0 6 0).wf = false ∧
    (Instr.fence 1 6).wf = false ∧ (Instr.fence 0 1).wf = false := by decide
theorem test_wf_satom : (Instr.satom 4 2 1 0 0 0 0).wf = false ∧ (Instr.satom 4 2 2 0 0 0 14).wf = false ∧
    (Instr.satom 3 2 2 0 0 0 9).wf = false ∧ (Instr.satom 6 2 3 0 0 0 9).wf = false := by decide
theorem test_wf_split_and_arguments : (Instr.split 62 0 0).wf = false ∧ (Instr.lrun 5 0 0).wf = false ∧ (Instr.lrun 0 1 0).wf = false ∧
    (Instr.lrunx 1 62 4).wf = false := by decide
theorem test_wf_codes : (Instr.swaitc 6 0).wf = false ∧ (Instr.srsr 1 0x1E).wf = false ∧ (Instr.swsr 1 0x3F).wf = false := by decide
theorem test_wf_step_peers : (Instr.send ⟨false, false, false, 0, 1, 0, 1⟩).wf = false ∧ (Instr.rrs ⟨false, false, false, 2, 1, 0, 1⟩).wf = false ∧
    (Instr.recv ⟨false, false, false, 3, 4, 0, 1⟩).wf = false ∧ (Instr.copy ⟨false, false, false, 0, 256, 0, 1⟩).wf = false ∧
    (Instr.send ⟨false, false, true, 1, 1, 0, 1⟩).wf = false := by decide
theorem test_wf_step_control : (Instr.wait ⟨false, false, false, 0, 0, 0, 8⟩).wf = false ∧ (Instr.endl ⟨false, false, false, 0, 0, 0, 1⟩).wf = false ∧
    (Instr.peer ⟨false, false, false, 1, 1, 4, 0⟩).wf = false ∧ (Instr.setop ⟨false, false, false, 0, 0, 0, 5⟩).wf = false ∧
    (Instr.setop ⟨false, false, false, 0, 0, 0, 0x14⟩).wf = false ∧ (Instr.loop ⟨false, true, false, 0, 0, 0, 1⟩).wf = false := by decide
theorem test_wf_lane_flag_and_hint : (Instr.vadd (ctl 3) ⟨1, 2, 3, 0, 0, 0⟩).wf = false ∧ (Instr.vfdiv (ctl 15) ⟨1, 2, 3, 0, 0, mr 8 0 0 0 0⟩).wf = false ∧
    (Instr.vadd { ctl 15 with ch := 5 } ⟨1, 2, 3, 0, 0, 0⟩).wf = false ∧ (Instr.vst { ctl 0 with ch := 5 } ⟨0, 2, 4, 0, 0x4000⟩).wf = false := by decide
theorem test_wf_lane_types : (Instr.vadd (ctl 15) ⟨1, 2, 3, 0, 0, mr 8 0 0 0 0⟩).wf = false ∧ (Instr.vabs (ctl 15) ⟨1, 2, 0, 0, 0, mr 1 0 0 0 0⟩).wf = false ∧
    (Instr.vfadd (ctl 15) ⟨1, 2, 3, 0, 0, mr 9 0 0 0 0⟩).wf = false ∧ (Instr.vcvt (ctl 15) ⟨1, 2, 0, 0, 0, mr 16 0 0 0 8⟩).wf = false := by decide
theorem test_wf_lane_modifiers : (Instr.vadd (ctl 15) ⟨1, 2, 3, 0, 0, mr 0 1 0 0 0⟩).wf = false ∧ (Instr.vadd (ctl 15) ⟨1, 2, 3, 0, 0, mr 0 0 1 0 0⟩).wf = false ∧
    (Instr.vadd (ctl 15) ⟨1, 2, 3, 0, 0, mr 0 0 0 1 0⟩).wf = false ∧ (Instr.vadd (ctl 15) ⟨1, 2, 3, 0, 0, mr 0 0 0 0 2⟩).wf = false ∧
    (Instr.vfadd (ctl 15) ⟨1, 2, 3, 0, 0, mr 8 5 0 0 0⟩).wf = false ∧ (Instr.vfdiv (ctl 0) ⟨1, 2, 3, 0, 0, mr 8 4 0 0 0⟩).wf = false := by decide
theorem test_wf_lane_positions : (Instr.vadd (ctl 15) ⟨0x110, 2, 3, 0, 0, 0⟩).wf = false ∧ (Instr.vadd (ctl 15) ⟨1, 0x129, 3, 0, 0, 0⟩).wf = false ∧
    (Instr.vadd (ctl 15) ⟨1, 2, 3, 4, 0, 0⟩).wf = false ∧ (Instr.vadd (ctl 15) ⟨1, 2, 4, 0, 0, mr 6 0 0 0 0⟩).wf = false ∧
    (Instr.vballot (ctl 15) ⟨2, 1, 0, 0, 0, 0⟩).wf = false ∧ legalIn 16 (.vadd (ctl 15) ⟨16, 2, 3, 0, 0, 0⟩) = false := by decide
theorem test_wf_lane_guards : (Instr.glop (ctl 15) ⟨16, 1, 2, 3, 0, 0x80⟩).wf = false ∧ (Instr.glop (ctl 15) ⟨1, 1, 2, 3, 0, 0x100⟩).wf = false ∧
    (Instr.vcmp (ctl 15) ⟨0x61, 1, 2, 0, 0, 0⟩).wf = false ∧ (Instr.gmov (ctl 15) ⟨1, 2, 0, 0, 0, 3⟩).wf = false := by decide
theorem test_wf_lane_immediates : (Instr.vaddI (ctl 15) ⟨1, 2, 0, 1, 5⟩).wf = false ∧ (Instr.vmadI (ctl 15) ⟨1, 2, 3, 2, 5⟩).wf = false ∧
    (Instr.vlop3I (ctl 15) ⟨1, 2, 3, 0, 0x100⟩).wf = false ∧ (Instr.vaddI (ctl 15) ⟨1, 2, 3, 0, 5⟩).wf = false := by decide
theorem test_wf_lane_uniform : (Instr.vbcast (ctl 15) ⟨1, 2, 3, 0, 0, 0⟩).wf = false ∧ (Instr.vslide (ctl 15) ⟨1, 2, 3, 4, 0, 0⟩).wf = false := by decide
theorem test_wf_scan : (Instr.vscan (ctl 15) ⟨1, 2, 0, 0, 0, mr 0 0 0 0 3⟩).wf = false ∧ (Instr.vred (ctl 15) ⟨1, 2, 0, 0, 0, mr 0 1 0 0 0⟩).wf = false ∧
    (Instr.vred (ctl 15) ⟨1, 2, 0, 3, 0, mr 0 0 0 0 0⟩).wf = false := by decide
theorem test_wf_conversions : (Instr.vpack (ctl 15) ⟨1, 2, 3, 4, 0, mr 2 0 0 0 8⟩).wf = false ∧ (Instr.vpack (ctl 15) ⟨1, 2, 3, 0, 0, mr 16 1 0 0 4⟩).wf = false ∧
    (Instr.vunpk (ctl 15) ⟨2, 2, 0, 0, 0, mr 8 0 0 0 4⟩).wf = false ∧ (Instr.vqnt (ctl 15) ⟨1, 2, 3, 0, 0, mr 4 0 0 0 4⟩).wf = false := by decide
theorem test_wf_memory_modifier : (Instr.vld (ctl 0) ⟨1, 2, 0, 0, 0xA000⟩).wf = false ∧ (Instr.vld (ctl 0) ⟨1, 2, 0, 0, 0x5000⟩).wf = false ∧
    (Instr.vld (ctl 0) ⟨1, 2, 0, 0, 0x4C00⟩).wf = false ∧ (Instr.vld (ctl 0) ⟨1, 2, 0, 0, 0x40C0⟩).wf = false ∧
    (Instr.vld (ctl 0) ⟨1, 2, 0, 0, 0x4010⟩).wf = false ∧ (Instr.vld (ctl 0) ⟨1, 2, 0, 0, 0x4001⟩).wf = false := by decide
theorem test_wf_atomics : (Instr.vatom (ctl 0) ⟨1, 2, 4, 0, 0x4009⟩).wf = false ∧ (Instr.vatom (ctl 0) ⟨2, 2, 4, 0, 0x6009⟩).wf = false ∧
    (Instr.vatomCas (ctl 0) ⟨1, 2, 3, 4, 0, 0x4000⟩).wf = false ∧ (Instr.vredm (ctl 0) ⟨0, 2, 4, 0, 0x4008⟩).wf = false := by decide
theorem test_wf_matrix_and_sweeps : (Instr.mma (ctl 0) ⟨8, 2, 4, 6, 8, 0⟩).wf = false ∧ (Instr.mma (ctl 0) ⟨16, 2, 4, 6, 8, 4⟩).wf = false ∧
    (Instr.mmasp (ctl 0) ⟨16, 2, 4, 6, 10, 0⟩).wf = false ∧ (Instr.tsweep (ctl 0) ⟨6, 2, 4, 6, 8, mr 8 0 0 0 0⟩).wf = false ∧
    (Instr.tred (ctl 0) ⟨0, 2, 4, 0, 0, mr 8 0 3 0 0⟩).wf = false ∧ (Instr.tcvt (ctl 0) ⟨0, 2, 4, 0, 0, mr 8 0 0 0 0⟩).wf = false := by decide

/-! Words written out bit by bit from the encodings of R100, R127, R344 to R349 and R350 to R362 -/

theorem test_decode_gaffer : decodeGaffer 0b000011_0011_0001_0010_00000000000000 = some (.cadd 3 1 2) ∧
    decodeGaffer 0b010011_0100_0001_1_11111111111111000 = some (.cld 4 1 1 0x1FFF8) ∧
    decodeGaffer 0b001111_0101_0010_111111111111111111 = some (.cbr 5 2 0x3FFFF) ∧
    decodeGaffer 0b100000_0001_0010_000000000000000000 = some (.creq 1 2) ∧
    decodeGaffer 0b000011_0011_0001_0010_00000000000001 = none := by decide
theorem test_decode_scalar_integer : decodeScalar 0b0000001_000011_000100_001001_0000000 = some (.ssub 3 4 9) ∧
    decodeScalar 0b0011000_000111_011111_1111111111111 = some (.saddImm 7 31 0x1FFF) ∧
    decodeScalar 0b0000101_000011_000100_001001_0000001 = some (.smulh 3 4 9 1) ∧
    decodeScalar 0b001010_1_000011_0000000000000000001 = some (.slhi 1 3 1) ∧ decodeScalar 0 = some .snop := by decide
theorem test_decode_scalar_memory : decodeScalar 0b0100000_000100_000010_11_01_10_011_1111 = some (.sld 4 2 3 1 2 3 15) ∧
    decodeScalar 0b0100011_000100_000010_10_00_00_000_1001 = some (.satom 4 2 2 0 0 0 9) ∧
    decodeScalar 0b0100000_000100_000010_11_11_10_011_1111 = none := by decide
theorem test_decode_scalar_control : decodeScalar 0b0110000_000001_000010_101_0000000001 = some (.sbr 1 2 5 1) ∧
    decodeScalar 0b0110101_111101_000000010_0000000011 = some (.split 61 2 3) ∧
    decodeScalar 0b0111000_010_000101_0000000000000111 = some (.lrun 2 5 7) ∧
    decodeScalar 0b0110000_000001_000010_110_0000000001 = none := by decide
theorem test_decode_scalar_system : decodeScalar 0b1000011_1111111111111111111111111 = some (.txb 0x1FFFFFF) ∧
    decodeScalar 0b1000000_000001_0000000_000010_000011 = some (.bara 1 2 3) ∧ decodeScalar 0b1010011_000000_000010_000000000_1_011 = some (.xsend 2 1 3) ∧
    decodeScalar 0b1100101_000001_0000000000000_011101 = some (.srsr 1 0x1D) := by decide
theorem test_decode_steps : decodeStep 0b000001_1_0_0_00_0_01_0000001010_00000011_00000000000000000000000000010000 = some (.send ⟨true, false, false, 1, 10, 3, 16⟩) ∧
    decodeStep 0b000111_0_1_0_00_1_00_0000000000_00000010_00000000000000000000000000000101 = some (.waitEv ⟨false, true, false, 0, 0, 2, 5⟩) ∧
    decodeStep 0b000111_0_0_0_01_1_00_0000000000_00000010_00000000000000000000000000000101 = none := by decide
theorem test_decode_lane_lr : decodeLane 0b0000000000_1_0011_0_0000_010_1_0000_1111_000_000000001_000000010_000000011_000000000_000000000_00110_000_00_0_00001
    = none ∧ decodeLane 0b0000000000_1_0011_0_0000_010_1_0000_1111_000_000000010_000000100_100000000_000000000_000000000_00110_000_00_0_00001 =
    some (.vadd ⟨true, 3, false, 0, 2, true, 0, 15, 0⟩ ⟨2, 4, 0x100, 0, 0, mr 6 0 0 0 1⟩) := by decide
theorem test_decode_lane_li_lm : decodeLane (0x3FE <<< 86 + 0xF <<< 64 + 1 <<< 52 + 2 <<< 43) = none ∧
    decodeLane (0x040 <<< 86 + 0xF <<< 64 + 1 <<< 52 + 2 <<< 43 + 0x80000005) = some (.vaddI (ctl 15) ⟨1, 2, 0, 0, 0x80000005⟩) ∧
    decodeLane (0x240 <<< 86 + 3 <<< 64 + 5 <<< 61 + 1 <<< 52 + 2 <<< 43 + 0x3FFFC <<< 16 + 0x4000) =
      some (.vld { ctl 3 with ch := 5 } ⟨1, 2, 0, 0x3FFFC, 0x4000⟩) := by decide
theorem test_decode_header : decodeHeader (0x3FF <<< 86 + 1 <<< 82 + 1 <<< 70 + 4 <<< 66 + 15 <<< 62) = some ⟨1, 1, 4, 15⟩ ∧
    decodeHeader (0x3FF <<< 86 + 1 <<< 82 + 1 <<< 70 + 12 <<< 66 + 15 <<< 62) = none := by decide

/-! States in which agents execute -/

/-- Wave slot 0 of core 0, the wave of a launch at its entry, and its fragment. -/
def r0 : WaveRef := ⟨0, 0⟩
def w0 : Wave := placedFor none
def f0 : Fragment := firstFragment 0x40000 allLanes
/-- That wave with some scalar registers set. -/
def withRegs (l : List (Nat × Word)) : Wave := { w0 with sreg := l }
/-- A machine in which the scalar stream of fragment 0 of `w` executes. -/
def sc (w : Wave) : State := { (State.reset.withWave 0 none).setWave r0 w with cur := .scalar 0 0 0 }

theorem scalar_of {s : State} {r : WaveRef} {w : Wave} {f : Fragment} {l : List Nat}
    (h : (s.cur = .scalar r.core r.slot f.id ∧ s.wave? r = some w) ∧ w.frag? f.id = some f ∧ f.st = .ready ∧ w.pending f l = false) :
    Scalar s r w f l := ⟨h.1.1, h.1.2, h.2.1, h.2.2.1, h.2.2.2⟩

/-- A fragment whose running clause holds one instruction, its wave, and a machine in which its lane stream executes. -/
def x0 : Running := ⟨⟨0, [0, 0, 0, 0], allLanes, 0x40004, 0, false, 0⟩, 0, ⟨0, 0, 15, 15⟩, [.snop], 0⟩
def f1 : Fragment := { f0 with run := some x0 }
def w1 : Wave := { w0 with frags := [f1] }
def ln (w : Wave) : State := { (State.reset.withWave 0 none).setWave r0 w with cur := .lane 0 0 0 }

theorem lane_of {s : State} {r : WaveRef} {w : Wave} {f : Fragment} {x : Running}
    (h : (s.cur = .lane r.core r.slot f.id ∧ s.wave? r = some w) ∧ w.frag? f.id = some f ∧ f.run = some x) :
    Lane s r w f x := ⟨h.1.1, h.1.2, h.2.1, h.2.2⟩

/-- A gaffer thread in RUN, and a machine in which it executes. -/
def g0 : GThread := { st := 1, pc := 0x100 }
def gf (g : GThread) : State := { (State.reset.setGth 0 g) with cur := .gaffer 0 }

theorem gaffer_of {s : State} {n : Nat} {g : GThread} (h : s.cur = .gaffer n ∧ n < 4 ∧ s.gth n = g ∧ g.st = 1) : Gaffer s n g :=
  ⟨h.1, h.2.1, h.2.2.1, h.2.2.2⟩

/-- A resolution that succeeds has keys. -/
def okOf {α β : Type} (e : Except α β) : Bool := match e with | .ok _ => true | .error _ => false
theorem ok_of {α β γ : Type} {p : Except α β × γ} (h : okOf p.1 = true) : ∃ k s, p = (.ok k, s) := by
  obtain ⟨e, s⟩ := p
  cases e with
  | ok k => exact ⟨k, s, rfl⟩
  | error e => cases h
theorem error_of {α β γ : Type} {p : Except α β × γ} (h : okOf p.1 = false) : ∃ k s, p = (.error k, s) := by
  obtain ⟨e, s⟩ := p
  cases e with
  | ok k => cases h
  | error e => exact ⟨e, s, rfl⟩

/-! One instruction each, with results worked out by hand from the rules -/

/-- Register `n` of fragment 0 after a scalar instruction. -/
def rdAfter (i : Instr) (w : Wave) (n : Nat) : Option Word :=
  match exec i (sc w) with
  | .next t => (t.wave? r0).bind (fun w => (w.frag? 0).map (fun f => w.rd f n))
  | _ => none
/-- The scalar program counter after it. -/
def pcAfter (i : Instr) (w : Wave) : Option DWord :=
  match exec i (sc w) with
  | .next t => (t.wave? r0).bind (fun w => (w.frag? 0).map (fun f => f.pc))
  | _ => none

theorem test_sadd_wraps : rdAfter (.sadd 3 1 2) (withRegs [(1, 0xFFFFFFFF), (2, 2)]) 3 = some 1 := by decide
theorem test_sadd_s0_discards : rdAfter (.sadd 0 1 2) (withRegs [(1, 5), (2, 2)]) 0 = some 0 := by decide
theorem test_ssbc_borrow : rdAfter (.ssbc 3 1 2) (withRegs [(1, 5), (2, 5), (3, 1)]) 3 = some 1 := by decide
theorem test_smulh_signed : rdAfter (.smulh 3 1 2 0) (withRegs [(1, 0xFFFFFFFF), (2, 2)]) 3 = some 0xFFFFFFFF := by decide
theorem test_sdiv_truncates : rdAfter (.sdiv 3 1 2 0) (withRegs [(1, 0xFFFFFFF9), (2, 2)]) 3 = some 0xFFFFFFFD := by decide
theorem test_ssra_by_40 : rdAfter (.ssra 3 1 2) (withRegs [(1, 0x80000000), (2, 40)]) 3 = some 0xFFFFFFFF := by decide
theorem test_slhi : rdAfter (.slhi 1 3 1) w0 3 = some 0x80001000 := by decide
theorem test_sclz_zero : rdAfter (.sclz 3 1) w0 3 = some 32 := by decide
theorem test_slea_scales : rdAfter (.slea 4 2 6 1 2) (withRegs [(2, 0), (3, 1), (6, 0xFFFFFFFF)]) 5 = some 0 := by decide
theorem test_mask_keeps_lanes : rdAfter (.sorImm 61 0 5) { w0 with frags := [{ f0 with lanes := 4, mask := 4 }] } 61 = some 4 := by decide
theorem test_sbr_backward : pcAfter (.sbr 1 2 2 0x3FF) (withRegs [(1, 0xFFFFFFFF), (2, 1)]) = some 0x3FFFC := by decide
theorem test_scall_link : rdAfter (.scall 4) w0 55 = some 0x40004 ∧ pcAfter (.scall 4) w0 = some 0x40010 := by decide
theorem test_trap_holds : (match exec (.trap 9) (sc w0) with
    | .next t => (t.wave? r0).bind (fun w => (w.frag? 0).map (fun f => (f.st, f.held.map (fun h => (h.code, h.addr)))))
    | _ => none) = some (.heldSlot, some (0x90001, 0x40000)) := by decide
theorem test_txb_opens : (match exec (.txb 8) (sc w0) with
    | .next t => (t.wave? r0).bind (fun w => w.txn.map (fun x => (x.target, x.depth)))
    | _ => none) = some (0x40020, 1) := by decide

/-- Register `n` in lane `j` after a lane instruction, with v1 and v2 holding one word in every lane. -/
def laneAfter (i : Instr) (a b : Word) (n j : Nat) : Option Word :=
  match exec i (ln { w1 with vreg := [(1, List.replicate 96 a), (2, List.replicate 96 b)] }) with
  | .next t => (t.wave? r0).map (fun w => w.vget n j)
  | _ => none

theorem test_vadd_sat : laneAfter (.vadd (ctl 15) ⟨3, 1, 2, 0, 0, mr 0 0 0 0 1⟩) 0x7FFFFFFF 1 3 95 = some 0x7FFFFFFF := by decide
theorem test_vmulh : laneAfter (.vmulh (ctl 15) ⟨3, 1, 2, 0, 0, mr 1 0 0 0 0⟩) 0xFFFFFFFF 0xFFFFFFFF 3 0 = some 0xFFFFFFFE := by decide
theorem test_vfadd_rounds : laneAfter (.vfadd (ctl 15) ⟨3, 1, 2, 0, 0, mr 8 0 0 0 0⟩) 0x3F800000 0x33800000 3 7 = some 0x3F800000 := by decide
theorem test_vfclass_subnormal : laneAfter (.vfclass (ctl 15) ⟨3, 1, 0, 0, 0, mr 8 0 0 0 0⟩) 0x80000001 0 3 7 = some 4 := by decide
theorem test_vslide_from_c : laneAfter (.vslide (ctl 15) ⟨3, 1, 0x111, 2, 0, mr 0 0 0 0 0⟩) 7 9 3 0 = some 9 := by decide
theorem test_vred_add : laneAfter (.vred (ctl 15) ⟨3, 1, 0, 0, 0, mr 1 0 0 0 0⟩) 3 0 3 50 = some 288 := by decide
theorem test_vcvt_clamps : laneAfter (.vcvt (ctl 15) ⟨3, 1, 0, 0, 0, mr 4 0 1 0 8⟩) 0x43480000 0 3 0 = some 127 := by decide

/-- Register `n` of thread 0 after a gaffer instruction. -/
def gafAfter (i : Instr) (l : List (Nat × DWord)) (n : Nat) : Option DWord :=
  match exec i (gf { g0 with regs := l }) with
  | .next t => some ((t.gth 0).rd n)
  | _ => none

theorem test_cshl_right : gafAfter (.cshl 3 1 2) [(1, 0x80), (2, 0xFFFFFFFFFFFFFFFD)] 3 = some 0x10 := by decide
theorem test_ccmp : gafAfter (.ccmp 3 1 2) [(1, 0xFFFFFFFFFFFFFFFF), (2, 1)] 3 = some 0xFFFFFFFFFFFFFFFF := by decide
theorem test_ccall_link : gafAfter (.ccall 4) [] 15 = some 0x104 := by decide
theorem test_cld_fault : (match exec (.cld 1 2 1 4) (gf g0) with | .next t => some ((t.gth 0).st, (t.gth 0).fcause) | _ => none) = some (3, 2) := by decide

/-- A word of the table of operations is fetched, decoded and executed by the first step after it is placed (log 19). -/
theorem test_step_scalar : (match step (State.reset.withFetchWord 32 0x303BFFFF) with
    | .next t => (t.wave? r0).bind (fun w => (w.frag? 0).map (fun f => (w.rd f 7, f.pc)))
    | _ => none) = some (0xFFFFFFFF, 0x40004) := by decide
theorem test_step_gaffer : (match step (State.reset.withFetchWord 32 0x0847FFFF) with
    | .next t => some ((t.gth 0).rd 1, (t.gth 0).pc)
    | _ => none) = some (0xFFFFFFFFFFFFFFF0, 4) := by decide

/-! Witnesses: the hypotheses of the scalar statements can be met -/

theorem wit_ScalarArithmetic : Scalar (sc w0) r0 w0 f0 [63, 62, 61, 0] ∧ (62 : BitVec 6).toNat < 63 := ⟨scalar_of (by decide), by decide⟩

def wDiv : Wave := withRegs [(1, 0x80000000), (2, 0xFFFFFFFF)]
theorem wit_ScalarDivision : Scalar (sc wDiv) r0 wDiv f0 [3, 1, 2] ∧ wDiv.rd f0 2 ≠ 0 ∧ wDiv.rd f0 1 = 0x80000000 ∧ wDiv.rd f0 2 = 0xFFFFFFFF :=
  ⟨scalar_of (by decide), by decide⟩

def wEq : Wave := withRegs [(1, 1), (2, 1)]
def wLt : Wave := withRegs [(1, 0xFFFFFFFF), (2, 1)]
theorem wit_ScalarControlFlow_equal : Scalar (sc wEq) r0 wEq f0 [1, 2] ∧ wEq.rd f0 1 = wEq.rd f0 2 ∧ ¬ (wEq.rd f0 1).toInt < (wEq.rd f0 2).toInt ∧
    ¬ (wEq.rd f0 1).toNat < (wEq.rd f0 2).toNat ∧ (wEq.rd f0 2).toInt ≤ (wEq.rd f0 1).toInt ∧ (wEq.rd f0 2).toNat ≤ (wEq.rd f0 1).toNat :=
  ⟨scalar_of (by decide), by decide⟩
theorem wit_ScalarControlFlow_less : Scalar (sc wLt) r0 wLt f0 [1, 2] ∧ wLt.rd f0 1 ≠ wLt.rd f0 2 ∧ (wLt.rd f0 1).toInt < (wLt.rd f0 2).toInt ∧
    ¬ (wLt.rd f0 2).toInt ≤ (wLt.rd f0 1).toInt ∧ Scalar (sc wLt) r0 wLt f0 [2, 1] ∧ (wLt.rd f0 2).toNat < (wLt.rd f0 1).toNat ∧
    ¬ (wLt.rd f0 1).toNat ≤ (wLt.rd f0 2).toNat ∧ Scalar (sc wLt) r0 wLt f0 [55] ∧ Scalar (sc wLt) r0 wLt f0 [] :=
  ⟨scalar_of (by decide), by decide, by decide, by decide, scalar_of (by decide), by decide, by decide, scalar_of (by decide), scalar_of (by decide)⟩

/-- A transaction of fragment 0 at a depth. -/
def txn (d : Nat) : Txn := ⟨0, 0x40000, 0x40100, d, none, false, 0, [], [], [], none⟩
/-- What a SPLIT on s8 to s10 reads and writes. -/
def splits : List Nat := [8, 9, 10, 56, 57, 58, 59, 60, 61, 62, 63]
def half : Wave := withRegs [(8, 0xF)]
def halfTxn : Wave := { half with txn := some (txn 1) }
/-- Two ready fragments and a full split table. -/
def full : Wave := { half with frags := f0 :: { f0 with id := 1 } :: List.replicate 256 { f0 with id := 2, st := .waiting } }
def taken8 (w : Wave) : LaneMask := f0.mask &&& (w.rd f0 10 ++ w.rd f0 9 ++ w.rd f0 8)
theorem wit_ScalarSplit_none_and_all : Scalar (sc w0) r0 w0 f0 splits ∧ taken8 w0 = 0 ∧
    ∃ w : Wave, Scalar (sc w) r0 w f0 splits ∧ taken8 w ≠ 0 ∧ taken8 w = f0.mask :=
  ⟨scalar_of (by decide), by decide, withRegs [(8, 0xFFFFFFFF), (9, 0xFFFFFFFF), (10, 0xFFFFFFFF)], scalar_of (by decide), by decide⟩
theorem wit_ScalarSplit_part : (Scalar (sc halfTxn) r0 halfTxn f0 splits ∧ taken8 halfTxn ≠ 0 ∧ taken8 halfTxn ≠ f0.mask ∧
    halfTxn.inTxn f0.id = true) ∧ Scalar (sc half) r0 half f0 splits ∧ taken8 half ≠ 0 ∧ taken8 half ≠ f0.mask ∧ half.inTxn f0.id = false ∧
    half.slotsUsed < 2 := ⟨⟨scalar_of (by decide), by decide⟩, scalar_of (by decide), by decide⟩
set_option maxRecDepth 100000 in
theorem wit_ScalarSplit_full : Scalar (sc full) r0 full f0 splits ∧ taken8 full ≠ 0 ∧ taken8 full ≠ f0.mask ∧ full.inTxn f0.id = false ∧
    2 ≤ full.slotsUsed ∧ (sc full).splitFree 0 = false := ⟨⟨rfl, rfl, rfl, rfl, rfl⟩, by decide, by decide, rfl, (Nat.le_refl 2 : 2 ≤ 2), rfl⟩

def cl0 : Clause := ⟨0, [0, 0, 0, 0], allLanes, 0x40004, 0, false, 0⟩
def two : Wave := { w0 with frags := [f0, { f0 with id := 1 }] }
def inTx : Wave := { w0 with txn := some (txn 1) }
def fQ : Fragment := { f0 with queue := List.replicate 8 cl0 }
def wQ : Wave := { w0 with frags := [fQ] }
def phased : Run := { placedRun with lrec := { placedRun.lrec with phases := [(0, 0)] } }
theorem wit_ScalarExitAndPhaseEnd : (Scalar (sc inTx) r0 inTx f0 [] ∧ inTx.inTxn f0.id = true) ∧
    (Scalar (sc wQ) r0 wQ fQ [] ∧ wQ.inTxn fQ.id = false ∧ fQ.queue ≠ []) ∧
    (Scalar (sc two) r0 two f0 [] ∧ two.inTxn f0.id = false ∧ f0.queue = [] ∧ f0.run = none ∧ ∃ g ∈ two.frags, g.id ≠ f0.id) ∧
    Scalar { sc two with runs := [phased] } r0 two f0 [] ∧ ({ sc two with runs := [phased] } : State).run? two.launch = some phased ∧
    two.phase < phased.lrec.phases.length ∧ two.handler = false ∧ (∀ c, c < 6 → two.outstanding c = 0) ∧ two.ops = [] ∧ two.wideRet = [] ∧
    ∃ g ∈ two.frags, g.id ≠ f0.id ∧ g.st ≠ .phase ∧ g.st ≠ .waiting :=
  ⟨⟨scalar_of (by decide), by decide⟩, ⟨scalar_of (by decide), by decide⟩, ⟨scalar_of (by decide), by decide⟩, scalar_of (by decide), by decide⟩

theorem wit_ScalarClauses : (Scalar (sc w0) r0 w0 f0 [60, 61, 62, 63, 61, 62, 63] ∧ (4 : BitVec 3).toNat ≤ 4 ∧ f0.queue.length < 8) ∧
    Scalar (sc wQ) r0 wQ fQ [5, 61, 62, 63] ∧ 8 ≤ fQ.queue.length := ⟨⟨scalar_of (by decide), by decide⟩, scalar_of (by decide), by decide⟩

def slot7 : Wave := { w0 with xslot := [(7, 5)] }
def raised0 : Wave := { w0 with flags := [(0, 1)] }
def retired : Wave := { w0 with wideRet := [0] }
def counting : Wave := { w0 with tickets := [(0, [⟨1, 1, false⟩])] }
theorem wit_ScalarWaits : (Scalar (sc w0) r0 w0 f0 [5] ∧ tfind w0.xslot 7 = none) ∧ (Scalar (sc slot7) r0 slot7 f0 [5] ∧ tfind slot7.xslot 7 = some 5) ∧
    (Scalar (sc w0) r0 w0 f0 [] ∧ f0.queue = [] ∧ f0.run = none ∧ ∀ i, i < 12 → (0xFFF : BitVec 12).getLsbD i = true → tget 0 w0.flags i = 0) ∧
    (Scalar (sc raised0) r0 raised0 f0 [] ∧ (1 : BitVec 12).getLsbD 0 = true ∧ tget 0 raised0.flags 0 ≠ 0) ∧
    (Scalar (sc w0) r0 w0 f0 [] ∧ (7 : BitVec 3) ≠ 6 ∧ (∀ x, x < 6 → w0.outstanding x ≤ 0) ∧ w0.wideRet = []) ∧
    (Scalar (sc retired) r0 retired f0 [] ∧ (∀ x, x < 6 → retired.outstanding x ≤ 0) ∧ 0 ∈ retired.wideRet) ∧
    Scalar (sc counting) r0 counting f0 [] ∧ ¬ counting.outstanding 0 ≤ (0 : BitVec 6).toNat :=
  ⟨⟨scalar_of (by decide), by decide⟩, ⟨scalar_of (by decide), by decide⟩, ⟨scalar_of (by decide), by decide⟩, ⟨scalar_of (by decide), by decide⟩,
    ⟨scalar_of (by decide), by decide⟩, ⟨scalar_of (by decide), by decide⟩, scalar_of (by decide), by decide⟩
theorem wit_WaitsStandStill : (sc w0).wave? r0 = some w0 ∧ w0.frag? f0.id = some f0 := by decide

/-- An operation of fragment 0 with one part. -/
def op1 (k : OpKind) (n : Nat) (dst : Option Nat) (ord : Nat) (p : Part) : Op :=
  ⟨9, 0, true, k, n, false, dst, 0, [p], ord, 0, 0, none, false, 0, [], 0, 0, [], 0, [], []⟩
def part (keys : List Nat) (data : List Byte) : Part := ⟨0, 0, keys, data, [], none⟩
def wOp (o : Op) : Wave := { w0 with ops := [o], pendS := match o.dst with | some d => [(d, 9)] | none => [] }
def acq : Wave := wOp (op1 .load 4 none 1 (part (keysFrom (scrKey 0 0) 4) []))
theorem wit_ScalarMemoryIssues_held : Scalar (sc acq) r0 acq f0 [4, 5, 2, 3] ∧ (sc acq).memHeld r0 acq 32 1 = true := ⟨scalar_of (by decide), by decide⟩
theorem wit_ScalarMemoryIssues_resolved : Scalar (sc w0) r0 w0 f0 [4, 5, 2, 3] ∧ Scalar (sc w0) r0 w0 f0 [4, 2] ∧ Scalar (sc w0) r0 w0 f0 [4, 5, 6, 7, 2, 3] ∧
    (sc w0).memHeld r0 w0 32 1 = false ∧
    (∃ ks s1, (((sc w0).next r0 0).fresh.2.resolve (w0.place r0) (unitOf 0) w0.ctx 0 0xFFFF0000F0000 8 needRW) = (.ok ks, s1)) ∧
    (∃ ks s1, (((sc w0).next r0 0).fresh.2.resolve (w0.place r0) (unitOf 0) w0.ctx 2 0x1000 4 needRD) = (.ok ks, s1)) ∧ w0.txn = none ∧
    ∃ e s1, (((sc w0).next r0 0).fresh.2.resolve (w0.place r0) (unitOf 0) w0.ctx 2 0x400000000 4 needRD) = (.error e, s1) :=
  ⟨scalar_of (by decide), scalar_of (by decide), scalar_of (by decide), by decide, ok_of (by decide), ok_of (by decide), by decide, error_of (by decide)⟩

/-- What ScalarAccessReturns asks of every operation. -/
def returns (s : State) (w : Wave) (o : Op) (p : Part) : Prop := s.wave? r0 = some w ∧ w.frag? f0.id = some f0 ∧ o.frag = f0.id ∧
  w.ops.find? (fun x => x.id == 9) = some o ∧ o.id = 9 ∧ o.scalar = true ∧ w.mayPerform o = true ∧ o.parts = [p] ∧ p.keys.Nodup ∧
  (∀ k ∈ p.keys, onCore k = true) ∧ Memory.wf s.mem = true ∧ p.keys.length = o.size
def oLoad : Op := op1 .load 8 (some 62) 0 (part (keysFrom (scrKey 0 0) 8) [])
def oStore : Op := op1 .store 2 none 0 (part (keysFrom (barKey 0 0) 2) [1, 2])
def oAtom : Op := op1 .atomic 4 (some 63) 0 (part (keysFrom (scrKey 0 4) 4) [1, 0, 0, 0])
def oTx : Op := { oStore with txn := true }
def wTx : Wave := { wOp oTx with txn := some (txn 1) }
theorem wit_ScalarAccessReturns : (returns (sc (wOp oLoad)) (wOp oLoad) oLoad (part (keysFrom (scrKey 0 0) 8) []) ∧ oLoad.kind = .load ∧ oLoad.ord = 0 ∧
      oLoad.sx = false ∧ oLoad.dst = some 62) ∧
    (returns (sc (wOp oStore)) (wOp oStore) oStore (part (keysFrom (barKey 0 0) 2) [1, 2]) ∧ oStore.kind = .store ∧ oStore.dst = none ∧ oStore.size = 2) ∧
    (returns (sc (wOp oAtom)) (wOp oAtom) oAtom (part (keysFrom (scrKey 0 4) 4) [1, 0, 0, 0]) ∧ oAtom.kind = .atomic ∧ oAtom.aop ≠ 9 ∧ 4 ≤ oAtom.size ∧
      ((sc (wOp oAtom)).core 0).wcb = []) ∧
    returns (sc wTx) wTx oTx (part (keysFrom (barKey 0 0) 2) [1, 2]) ∧ oTx.txn = true ∧ wTx.txn.isSome = true ∧ oTx.kind = .store :=
  ⟨⟨by unfold returns; decide, by decide⟩, ⟨by unfold returns; decide, by decide⟩, ⟨by unfold returns; decide, by decide⟩, by unfold returns; decide,
    by decide⟩

def wTxn (x : Txn) : Wave := { w0 with txn := some x }
theorem wit_ScalarTransactions_outside : (Scalar (sc w0) r0 w0 f0 [] ∧ w0.txn = none ∧ (sc w0).txnReady r0 w0 f0 = true ∧ ((sc w0).core 0).wcb = []) ∧
    Scalar (sc (wOp oLoad)) r0 (wOp oLoad) f0 [] ∧ (wOp oLoad).txn = none ∧ (sc (wOp oLoad)).txnReady r0 (wOp oLoad) f0 = false :=
  ⟨⟨scalar_of (by decide), by decide⟩, scalar_of (by decide), by decide⟩
theorem wit_ScalarTransactions_inside : Scalar (sc (wTxn (txn 1))) r0 (wTxn (txn 1)) f0 [] ∧ (txn 1).frag = f0.id ∧ (txn 1).depth < 8 ∧ (txn 1).depth ≤ 1 ∧
    f0.queue = [] ∧ f0.run = none ∧ (wTxn (txn 1)).ops = [] ∧ (sc (wTxn (txn 1))).prioHolds r0 (txn 1) = false ∧ (txn 1).opens = [] ∧
    Memory.wf (sc (wTxn (txn 1))).mem = true := ⟨scalar_of (by decide), by decide⟩
theorem wit_ScalarTransactions_nested : (Scalar (sc (wTxn (txn 8))) r0 (wTxn (txn 8)) f0 [] ∧ 8 ≤ (txn 8).depth ∧ 1 < (txn 8).depth) ∧
    (∃ x : Txn, Scalar (sc (wTxn x)) r0 (wTxn x) f0 [] ∧ x.frag = f0.id ∧ x.alt = some 0x40010 ∧ (wTxn x).ops = []) ∧
    ∃ x : Txn, Scalar (sc (wTxn x)) r0 (wTxn x) f0 [] ∧ x.frag = f0.id ∧ x.alt = none ∧ x.reads ≠ [] ∧
      (∀ l ∈ x.reads, (sc (wTxn x)).watchesAt (homeOf (l * 128)) + x.reads.length ≤ 256) ∧ (wTxn x).ops = [] :=
  ⟨⟨scalar_of (by decide), by decide⟩, ⟨{ txn 1 with alt := some 0x40010 }, scalar_of (by decide), by decide⟩,
    { txn 1 with reads := [8] }, scalar_of (by decide), by decide⟩
theorem wit_AbortOfATransaction : (wTxn (txn 1)).txn = some (txn 1) ∧ (txn 1).frag = f0.id ∧ (wTxn (txn 1)).frag? f0.id = some f0 := by decide

/-- A machine whose barrier word 63 of core 0 holds `x`. -/
def bar (w : Wave) (x : Nat) : State :=
  let s := (sc w).updCore 0 (fun c => { c with bound := [(63, 0)] })
  { s with mem := Memory.writes s.mem (cells (barKey 0 504) (leBytes 8 x)) }
theorem wit_ScalarBarriers : Scalar (bar w0 0) r0 w0 f0 [5] ∧ w0.inTxn f0.id = false ∧ w0.handler = false ∧ w0.ops = [] ∧ w0.txn = none ∧
    (∀ y, tfind ((bar w0 0).core 0).bound 63 = some y → y = w0.ctx) ∧
    (∀ bl, tfind ((bar w0 0).core 0).blocks w0.bslot = some bl → bl.scrq ≤ 224) ∧ Memory.wf (bar w0 0).mem = true ∧ 33 > 32 ∧
    leNat ((bar w0 (31 + 32 * 256)).peek (keysFrom (barKey 0 504) 8)) = 31 + 32 * 256 ∧ 31 + 1 = (32 : BitVec 6).toNat ∧
    leNat ((bar w0 0).peek (keysFrom (barKey 0 504) 8)) = 0 ∧ 0 + 1 < (2 : BitVec 6).toNat ∧
    leNat ((bar w0 (2 ^ 63)).peek (keysFrom (barKey 0 504) 8)) = 2 ^ 63 := by
  refine ⟨scalar_of (by decide), by decide, by decide, by decide, by decide, ?_, ?_, by decide, by decide, by decide, by decide, by decide, by decide, by decide⟩
  · intro y h; have : tfind ((bar w0 0).core 0).bound 63 = some 0 := by decide
    rw [this] at h; cases h; rfl
  · intro bl h; have : tfind ((bar w0 0).core 0).blocks w0.bslot = some placedBlock := by decide
    rw [this] at h; cases h; decide
/-- No core but 0 is listed in these machines. -/
theorem sc_cores (w : Wave) (c : Nat) (h : c ≠ 0) : (sc w).core c = {} := by
  obtain ⟨k, hk⟩ : ∃ k, (sc w).cores = [(0, k)] := ⟨_, rfl⟩
  simp only [State.core, tget, hk, tfind]
  rw [if_neg (by simpa using Ne.symm h)]
  rfl
theorem wit_ScalarFences : (Scalar (sc wQ) r0 wQ fQ [] ∧ (sc wQ).settled r0 wQ fQ = false) ∧
    Scalar (sc w0) r0 w0 f0 [] ∧ (sc w0).settled r0 w0 f0 = true ∧ w0.performed f0 true = true ∧ ∀ c, ((sc w0).core c).wcb = [] := by
  refine ⟨⟨scalar_of (by decide), by decide⟩, scalar_of (by decide), by decide, by decide, fun c => ?_⟩
  by_cases h : c = 0
  · subst h; decide
  · rw [sc_cores w0 c h]
theorem wit_ScalarBarrierWait : (Scalar (bar w0 0) r0 w0 f0 [5] ∧ w0.txn = none ∧ w0.handler = false ∧ (bar w0 0).txnReady r0 w0 f0 = true ∧
    ((bar w0 0).core 0).wcb = [] ∧ (bar w0 0).canMark [lineOf (barKey 0 504)] = true ∧ (bar w0 0).watchesAt 128 < 256 ∧ w0.ops = [] ∧ w0.rd f0 5 = 0) ∧
    tfind ((bar w0 0).core 0).bound 63 = some w0.ctx ∧ leNat ((bar w0 (2 ^ 32)).peek (keysFrom (barKey 0 504) 8)) / 2 ^ 32 % 2 ^ 16 ≠ 0 :=
  ⟨⟨scalar_of (by decide), by decide⟩, by decide⟩

theorem wit_EngineCommandsIssue : (Scalar (sc inTx) r0 inTx f0 [62, 63] ∧ inTx.inTxn f0.id = true) ∧
    (Scalar (sc wQ) r0 wQ fQ [62, 63] ∧ wQ.inTxn fQ.id = false ∧ fQ.queue ≠ []) ∧
    (∃ w : Wave, Scalar (sc w) r0 w f0 [62, 63] ∧ w.outstanding 5 = 63 ∧ w.inTxn f0.id = false) ∧
    Scalar (sc w0) r0 w0 f0 [62, 63] ∧ w0.inTxn f0.id = false ∧ w0.outstanding 0 < 63 ∧ f0.queue = [] ∧ f0.run = none ∧ w0.ops = [] ∧
    ((sc w0).core 0).wcb = [] :=
  ⟨⟨scalar_of (by decide), by decide⟩, ⟨scalar_of (by decide), by decide⟩,
    ⟨{ w0 with tickets := [(5, List.replicate 63 ⟨1, 1, false⟩)] }, scalar_of (by decide), by decide⟩, scalar_of (by decide), by decide⟩

/-- Queue `q` belongs to context 0 and holds `n` pointers. -/
def hasQueue (s : State) (q n : Nat) : State := s.setHq q { s.hq q with ctx := some 0, ptrs := List.replicate n 0 }
def wPush (a q : Word) : Wave := withRegs [(2, a), (4, q)]
set_option maxRecDepth 100000 in
theorem wit_LaunchPushes : (Scalar (sc (wPush 0 64)) r0 (wPush 0 64) f0 [1, 2, 3, 4] ∧ 64 ≤ ((wPush 0 64).rd f0 4).toNat) ∧
    (Scalar (hasQueue (sc (wPush 1 63)) 63 0) r0 (wPush 1 63) f0 [1, 2, 3, 4] ∧ ((hasQueue (sc (wPush 1 63)) 63 0).hq 63).ctx = some w0.ctx ∧
      ((wPush 1 63).rd f0 2).toNat % 256 ≠ 0) ∧
    (Scalar (hasQueue (sc (wPush 256 63)) 63 256) r0 (wPush 256 63) f0 [1, 2, 3, 4] ∧ 256 ≤ ((hasQueue (sc (wPush 256 63)) 63 256).hq 63).ptrs.length) ∧
    Scalar (hasQueue (sc (wPush 256 63)) 63 255) r0 (wPush 256 63) f0 [1, 2, 3, 4] ∧ ((hasQueue (sc (wPush 256 63)) 63 255).hq 63).ptrs.length < 256 ∧
    (∀ k ∈ ((hasQueue (sc (wPush 256 63)) 63 255).hq 63).pushed, k ≤ 0) ∧
    ((wPush 256 63).rd f0 4).toNat = 63 ∧ (wPush 256 63).inTxn f0.id = false ∧ (wPush 256 63).ops = [] :=
  ⟨⟨scalar_of (by decide), by decide⟩, ⟨scalar_of (by decide), by decide⟩, ⟨scalar_of (by decide), by decide⟩, scalar_of (by decide), by decide⟩

/-- The queue's last pointer has been pushed in this ns by core 1. -/
def late (s : State) : State := s.setHq 63 { s.hq 63 with pushedAt := s.now, pushed := [64] }
theorem wit_LaunchPushes_before : Scalar (late (hasQueue (sc (wPush 256 63)) 63 2)) r0 (wPush 256 63) f0 [1, 2, 3, 4] ∧
    ((late (hasQueue (sc (wPush 256 63)) 63 2)).hq 63).ctx = some w0.ctx ∧ ((late (hasQueue (sc (wPush 256 63)) 63 2)).hq 63).ptrs.length = 2 ∧
    ((late (hasQueue (sc (wPush 256 63)) 63 2)).hq 63).pushedAt = (late (hasQueue (sc (wPush 256 63)) 63 2)).now ∧
    (∀ k ∈ ((late (hasQueue (sc (wPush 256 63)) 63 2)).hq 63).pushed, r0.core * 64 + r0.slot < k) ∧
    ((late (hasQueue (sc (wPush 256 63)) 63 2)).hq 63).pushed.length < 2 := ⟨scalar_of (by decide), by decide⟩

def wSig (t : Word) : Wave := withRegs [(2, t), (4, 1)]
theorem wit_SoftInterrupts : (Scalar (hasQueue (sc (wSig 63)) 63 0) r0 (wSig 63) f0 [2, 4] ∧ ((hasQueue (sc (wSig 63)) 63 0).hq 63).ctx = some w0.ctx) ∧
    (Scalar (sc (wSig 64)) r0 (wSig 64) f0 [2, 4] ∧ ((sc (wSig 64)).gth 0).ctx = none ∧ Scalar (sc (wSig 67)) r0 (wSig 67) f0 [2, 4] ∧
      ((sc (wSig 67)).gth 3).ctx = none) ∧ Scalar (sc (wSig 128)) r0 (wSig 128) f0 [2, 4] ∧
    Scalar (sc (wSig 63)) r0 (wSig 63) f0 [2, 4] ∧ ((sc (wSig 63)).hq 63).ctx ≠ some w0.ctx ∧ Scalar (sc (wSig 68)) r0 (wSig 68) f0 [2, 4] ∧
    Scalar (sc (wSig 127)) r0 (wSig 127) f0 [2, 4] :=
  ⟨⟨scalar_of (by decide), by decide⟩, ⟨scalar_of (by decide), by decide, scalar_of (by decide), by decide⟩, scalar_of (by decide),
    scalar_of (by decide), by decide, scalar_of (by decide), scalar_of (by decide)⟩

theorem wit_SoftInterrupts_mark : Scalar (sc (wSig 128)) r0 (wSig 128) f0 [2, 4] ∧ (sc (wSig 128)).mgmt.mbwake ||| (wSig 128).rd f0 4 ≠ 0 ∧
    (sc (wSig 128)).modl.on = true ∧ (sc (wSig 128)).mgmt.bootStep ≠ 0 ∧ (sc (wSig 128)).switching 0 = false := ⟨scalar_of (by decide), by decide⟩

theorem wit_ScalarTraps : (Scalar (sc w0) r0 w0 f0 [] ∧ w0.txn = none ∧ w0.handler = false) ∧ (Scalar (sc inTx) r0 inTx f0 [] ∧ inTx.inTxn f0.id = true) ∧
    Scalar (sc w0) r0 w0 f0 [3, 1, 2] ∧ w0.rd f0 2 = 0 := ⟨⟨scalar_of (by decide), by decide⟩, ⟨scalar_of (by decide), by decide⟩, scalar_of (by decide), by decide⟩

def handlerW : Wave := { w0 with handler := true }
theorem wit_TimeAndSpecialRegisters : Scalar (sc w0) r0 w0 f0 [62, 63] ∧ (62 : BitVec 6).toNat < 63 ∧ (sc w0).settled r0 w0 f0 = true ∧ w0.handler = false ∧
    (Scalar (sc wQ) r0 wQ fQ [5] ∧ (sc wQ).settled r0 wQ fQ = false) ∧ Scalar (sc handlerW) r0 handlerW f0 [5] ∧ handlerW.handler = true :=
  ⟨scalar_of (by decide), by decide, by decide, by decide, ⟨scalar_of (by decide), by decide⟩, scalar_of (by decide), by decide⟩

/-- A launch with BINT 8. -/
def s8 (w : Wave) : State := { sc w with runs := [{ placedRun with lrec := { placedRun.lrec with bint := 8 } }] }
def wB (v : Word) : Wave := withRegs [(2, v)]
theorem wit_ScalarPower : (Scalar (sc inTx) r0 inTx f0 [2] ∧ inTx.inTxn f0.id = true) ∧ Scalar (sc (wB 0x20000000)) r0 (wB 0x20000000) f0 [2] ∧
    (Scalar (sc (wB 0x11000)) r0 (wB 0x11000) f0 [2] ∧ 16 < 0x11000 / 2 ^ 12 % 2 ^ 5) ∧
    (Scalar (sc (wB 0x10000)) r0 (wB 0x10000) f0 [2] ∧ min (0x10000 / 2 ^ 12 % 2 ^ 5) ((sc (wB 0x10000)).bintOf (wB 0x10000)) = 0) ∧
    (Scalar (s8 (wB 0x10000)) r0 (wB 0x10000) f0 [2] ∧ min (0x10000 / 2 ^ 12 % 2 ^ 5) ((s8 (wB 0x10000)).bintOf (wB 0x10000)) = 8) ∧
    Scalar (sc (wB 2)) r0 (wB 2) f0 [2] ∧ Scalar (sc (wB 3)) r0 (wB 3) f0 [2] ∧ Scalar (sc (wB 4)) r0 (wB 4) f0 [2] ∧ Scalar (sc (wB 4)) r0 (wB 4) f0 [] :=
  ⟨⟨scalar_of (by decide), by decide⟩, scalar_of (by decide), ⟨scalar_of (by decide), by decide⟩, ⟨scalar_of (by decide), by decide⟩,
    ⟨scalar_of (by decide), by decide⟩, scalar_of (by decide), scalar_of (by decide), scalar_of (by decide), scalar_of (by decide)⟩

/-- The image of a unit is to be switched. -/
def swi (s : State) (u : Nat) : State := { s with mgmt := { s.mgmt with pendingSwitch := [⟨u, 0, 0⟩] } }
/-- A wave whose context has no block on its cluster. -/
def wForeign : Wave := { wB 2 with ctx := 5 }
theorem wit_ScalarPower_told : (s8 (wB 0x10000)).switching 16 = false ∧ Scalar (swi (s8 (wB 0x10000)) 16) r0 (wB 0x10000) f0 [2] ∧
    (swi (s8 (wB 0x10000)) 16).switching 16 = true ∧
    min (0x10000 / 2 ^ 12 % 2 ^ 5) ((swi (s8 (wB 0x10000)) 16).bintOf (wB 0x10000)) ≠ 0 ∧
    (∀ p ∈ (swi (s8 (wB 0x10000)) 16).allWaves, p.1.core / 12 = r0.core / 12 → p.2.decl = none) ∧
    (∃ b ∈ (sc (wB 2)).clusterBlocks 0, b.ctx = (wB 2).ctx) ∧ (∃ b ∈ (sc (wB 3)).clusterBlocks 0, b.ctx = (wB 3).ctx) ∧
    Scalar (sc wForeign) r0 wForeign f0 [2] ∧ ¬ ∃ b ∈ (sc wForeign).clusterBlocks 0, b.ctx = wForeign.ctx :=
  ⟨by decide, scalar_of (by decide), by decide, by decide, by decide, by decide, by decide, scalar_of (by decide), by decide⟩

/-! Witnesses: lane instructions -/

theorem wit_LaneInteger : Lane (ln w1) r0 w1 f1 x0 ∧ (⟨3, 1, 2, 0, 0, mr 7 0 0 0 1⟩ : LR).ty ∈ [0, 1, 6, 7] ∧ (⟨3, 1, 2, 0, 0, mr 6 0 0 0 0⟩ : LR).ty ∈ [0, 6] ∧
    (⟨3, 1, 2, 4, 0, mr 1 0 0 0 0⟩ : LR).ty ∈ [0, 1] ∧ (⟨3, 1, 2, 0, 5⟩ : LI).im = 0 ∧ (⟨3, 1, 2, 1, 5⟩ : LI).im = 1 := ⟨lane_of (by decide), by decide⟩
theorem wit_LaneBitsAndPacked : Lane (ln w1) r0 w1 f1 x0 ∧ ∀ ty, ty < 8 → (⟨3, 1, 2, 4, 5, mr ty 0 0 0 0⟩ : LR).ty = ty :=
  ⟨lane_of (by decide), by decide⟩
theorem wit_LaneFloat : Lane (ln w1) r0 w1 f1 x0 ∧ (⟨3, 1, 2, 4, 5, mr 9 4 0 0 0⟩ : LR).ty = 9 ∧ (⟨3, 1, 2, 4, 5, mr 10 4 0 0 0⟩ : LR).ty = 10 ∧
    (⟨3, 1, 2, 4, 5, mr 0 0 0 0 1⟩ : LR).sub = 1 ∧ (⟨3, 1, 2, 4, 5, mr 0 0 0 0 2⟩ : LR).sub = 2 := ⟨lane_of (by decide), by decide⟩

/-- Lane 0 of v1 holds 2^31 as FP32, and every other lane 0. -/
def wBig : Wave := { w1 with vreg := [(1, 0x4F000000 :: List.replicate 95 0)] }
def toI32 : LR := ⟨3, 1, 0, 0, 0, mr 0 0 3 0 8⟩
theorem wit_LaneConversions_plain : Lane (ln w1) r0 w1 f1 x0 ∧ toI32.ty < 16 ∧ toI32.sub < 16 ∧ (⟨3, 1, 2, 4, 5, mr 15 4 3 1 15⟩ : LR).ty = 15 ∧
    (⟨3, 1, 2, 0, 0, mr 16 0 3 0 4⟩ : LR).ty = 16 ∧ (⟨4, 1, 0, 0, 0, mr 4 0 0 0 16⟩ : LR).sub = 16 ∧ (⟨4, 1, 0, 0, 0, mr 8 0 0 0 15⟩ : LR).sub ∈ [2, 3, 4, 5, 9, 10, 11, 12, 13, 14, 15] :=
  ⟨lane_of (by decide), by decide⟩
theorem wit_LaneConversions_traps : Lane (ln wBig) r0 wBig f1 x0 ∧ wBig.handler = false ∧ wBig.inTxn f1.id = false ∧ (ln wBig).splitFree 0 = true ∧
    (encodeTy toI32.ty (decodeTy toI32.sub (((ln wBig).view wBig x0).1.op toI32.a 0).toNat) toI32.rnd toI32.pol 0).trap = true ∧
    lane (activeMask wBig x0 (ctl 15)) 0 = true := ⟨lane_of (by decide), by decide⟩

def flag63 : Wave := { w1 with flags := [(11, 63)] }
theorem wit_LongLatencyIssues : (Lane (ln w1) r0 w1 f1 x0 ∧ w1.flagFull (ctl 11) = false) ∧ Lane (ln flag63) r0 flag63 f1 x0 ∧ flag63.flagFull (ctl 11) = true :=
  ⟨⟨lane_of (by decide), by decide⟩, lane_of (by decide), by decide⟩
def oVal : Op := ⟨9, 0, false, .value, 0, false, some 255, 0, [], 0, 0, 0, some 11, false, 1, [5], 1, 0, [], 0, [], []⟩
def oPut : Op := { oVal with kind := .put 7, dst := none }
theorem wit_LongLatencyResults : ((ln { w1 with ops := [oVal] }).wave? r0 = some { w1 with ops := [oVal] } ∧ [oVal].find? (fun p => p.id == 9) = some oVal ∧
    w1.frags ≠ [] ∧ oVal.kind = .value ∧ oVal.dst = some 255) ∧ (ln { w1 with ops := [oPut] }).wave? r0 = some { w1 with ops := [oPut] } ∧
    [oPut].find? (fun p => p.id == 9) = some oPut ∧ oPut.kind = .put 7 := by decide
theorem wit_LaneCrossLane : Lane (ln w1) r0 w1 f1 x0 ∧ (⟨3, 1, 0x111, 2, 0, mr 3 0 0 0 0⟩ : LR).ty = 3 ∧ (⟨3, 1, 0x111, 2, 0, mr 5 0 0 0 0⟩ : LR).ty = 5 ∧
    (⟨3, 1, 0, 2, 0, mr 8 0 0 0 8⟩ : LR).sub / 8 % 2 = 1 ∧ (⟨3, 1, 0, 2, 0, mr 8 0 0 0 4⟩ : LR).sub / 8 % 2 = 0 := ⟨lane_of (by decide), by decide⟩

/-- A clause without active lanes, and one whose only active lane is 95; lane addresses stand in v2 and v3. -/
def xNone : Running := { x0 with cl := { x0.cl with mask := 0 } }
def fNone : Fragment := { f0 with run := some xNone }
def wNone : Wave := { w0 with frags := [fNone] }
def xOne : Running := { x0 with cl := { x0.cl with mask := 0x800000000000000000000000 } }
def fOne : Fragment := { f0 with run := some xOne }
def wOne : Wave := { w0 with frags := [fOne], vreg := [(2, List.replicate 96 0x2000), (3, List.replicate 96 0)] }
def acqL : Wave := { w1 with ops := [{ op1 .load 4 none 1 (part (keysFrom (scrKey 0 0) 4) []) with scalar := false }] }
theorem wit_LaneMemoryIssues_waits : (Lane (ln wNone) r0 wNone fNone xNone ∧ activeMask wNone xNone (ctl 0) = 0) ∧
    (Lane (ln flag63) r0 flag63 f1 x0 ∧ activeMask flag63 x0 (ctl 11) ≠ 0 ∧ flag63.flagFull (ctl 11) = true) ∧
    Lane (ln acqL) r0 acqL f1 x0 ∧ (ln acqL).memHeld r0 acqL ((32 + 12 * 96 + 31) / 32 * 32) 96 = true := ⟨⟨lane_of (by decide), by decide⟩,
    ⟨lane_of (by decide), by decide⟩, lane_of (by decide), by decide⟩
/-- The part of its one lane. -/
def onePart : List Part := (lanesOf (activeMask wOne xOne (ctl 11))).map (fun j => ⟨j, ((ln wOne).view wOne xOne).1.pair 2 j, [], [], [], none⟩)
/-- Memory requests up to the core's limit. -/
def oFull : Op := { op1 .load 4 none 0 (part [] []) with scalar := false, parts := List.replicate 1024 (part [] []) }
def wFull : Wave := { wOne with ops := [oFull] }
set_option maxRecDepth 100000 in
theorem wit_LaneMemoryIssues_full : Lane (ln wFull) r0 wFull fOne xOne ∧ activeMask wFull xOne (ctl 11) ≠ 0 ∧
    (ln wFull).memFull 0 0 (lanesOf (activeMask wFull xOne (ctl 11))).length = true := ⟨⟨rfl, rfl, rfl, rfl⟩, by decide, rfl⟩
theorem wit_LaneMemoryIssues_issues : Lane (ln wOne) r0 wOne fOne xOne ∧ activeMask wOne xOne (ctl 11) ≠ 0 ∧ wOne.flagFull (ctl 11) = false ∧
    (ln wOne).memHeld r0 wOne ((32 + 12 * (lanesOf (activeMask wOne xOne (ctl 11))).length + 31) / 32 * 32) (lanesOf (activeMask wOne xOne (ctl 11))).length = false ∧
    (∀ y ∈ (({ ln wOne with free := (ln wOne).free + 96 * wOne.awaited.length, nextId := (ln wOne).nextId + 1 } : State).resolveParts r0 wOne
      { laneOperation fOne.id .load 4 (some 1) (ctl 11) (activeMask wOne xOne (ctl 11)) with id := (ln wOne).nextId, space := 2, parts := onePart } onePart []).1,
      y.fault = none) ∧ (ln wOne).memFull 0 0 (lanesOf (activeMask wOne xOne (ctl 11))).length = false :=
  ⟨lane_of (by decide), by decide⟩

/-- Two lanes' parts in the scratchpad. -/
def pt (j k n : Nat) (d c : List Byte) : Part := ⟨j, 0, keysFrom (scrKey 0 k) n, d, c, none⟩
def laneAcc (k : OpKind) (n : Nat) (dst : Option Nat) (aop : Nat) (l : List Part) : Op :=
  ⟨9, 0, false, k, n, false, dst, aop, l, 0, 0, 0, some 11, false, 3, [], 0, 0, [], 0, [], []⟩
def lLoad : Op := laneAcc .load 16 (some 252) 0 [pt 0 0 16 [] [], pt 95 8 16 [] []]
def lStore : Op := laneAcc .store 1 none 0 [pt 0 0 1 [1] [], pt 95 0 1 [2] []]
def lAtom : Op := laneAcc .atomic 4 (some 255) 0 [pt 0 0 4 (leBytes 4 1) [], pt 95 4 4 (leBytes 4 1) []]
def lRed : Op := laneAcc .reduce 8 none 0 [pt 0 0 8 (leBytes 8 1) [], pt 95 8 8 (leBytes 8 1) []]
def lCas : Op := laneAcc .atomic 4 (some 255) 9 [pt 0 0 4 (leBytes 4 0) (leBytes 4 1)]
def wLane (o : Op) : Wave := { w1 with ops := [o] }
/-- What LaneAccessReturns asks of every operation. -/
def laneReturns (o : Op) : Prop := (ln (wLane o)).wave? r0 = some (wLane o) ∧ (wLane o).ops.find? (fun p => p.id == 9) = some o ∧ (wLane o).frags ≠ [] ∧
  o.scalar = false ∧ o.txn = false ∧ (wLane o).txn = none ∧ o.ord = 0 ∧ (wLane o).mayPerform o = true ∧ Memory.wf (ln (wLane o)).mem = true ∧
  (o.parts.map (fun p => p.lane)).Nodup ∧ (∀ p ∈ o.parts, p.lane < 96) ∧ (∀ p ∈ o.parts, p.keys.length = o.size ∧ ∀ k ∈ p.keys, onCore k = true)
theorem wit_LaneAccessReturns_moves : (laneReturns lLoad ∧ lLoad.size ∈ [1, 2, 4, 8, 16] ∧ lLoad.kind = .load ∧ lLoad.dst.isSome = true) ∧
    laneReturns lStore ∧ lStore.kind = .store ∧ ∀ p ∈ lStore.parts, p.data.length = lStore.size :=
  ⟨⟨by unfold laneReturns; decide, by decide⟩, by unfold laneReturns; decide, by decide⟩
theorem wit_LaneAccessReturns_atomics : (laneReturns lAtom ∧ lAtom.kind = .atomic ∧ lAtom.size = 4 ∧ lAtom.aop ≠ 9 ∧ (lAtom.parts.flatMap (fun p => p.keys)).Nodup ∧
      ((ln (wLane lAtom)).core 0).wcb = []) ∧ (laneReturns lRed ∧ lRed.kind = .reduce ∧ lRed.size = 8 ∧ lRed.dst = none ∧ (lRed.parts.flatMap (fun p => p.keys)).Nodup) ∧
    laneReturns lCas ∧ lCas.aop = 9 ∧ (lCas.parts.flatMap (fun p => p.keys)).Nodup ∧ ∀ p ∈ lCas.parts, p.data.length = lCas.size ∧ p.cmp.length = lCas.size :=
  ⟨⟨by unfold laneReturns; decide, by decide⟩, ⟨by unfold laneReturns; decide, by decide⟩, by unfold laneReturns; decide, by decide⟩

/-- A queued clause at 0x30000, and memory with its words there: a header that awaits flag 0, and one word. -/
def clAt : Clause := ⟨0x30000, [0, 0, 0, 0], allLanes, 0x40004, 0, false, 0⟩
def fCl : Fragment := { f0 with queue := [clAt] }
def wCl (flag : Nat) : Wave := { w0 with frags := [fCl], flags := [(0, flag)] }
def sCl (flag hdr word : Nat) : State :=
  let s := ln (wCl flag)
  { s with mem := Memory.writes s.mem (cells 0x30000 (leBytes 12 hdr) ++ cells 0x3000C (leBytes 12 word)) }
def hdrWord : Nat := 0x3FF <<< 86 + 1 <<< 70 + 15 <<< 66 + 15 <<< 62
def hdr1 : ClauseHeader := ⟨0, 1, 15, 15⟩
def baseOf (flag hdr word : Nat) : DWord := ((sCl flag hdr word).lentry (wCl flag) + clAt.off) &&& ~~~15
theorem wit_ClauseStarts_waits : ((sCl 1 hdrWord 0).wave? r0 = some (wCl 1) ∧ (wCl 1).frag? fCl.id = some fCl) ∧ fCl.run = none ∧ fCl.queue = clAt :: [] ∧
    ((sCl 1 hdrWord 0).laneWord r0 (wCl 1) (baseOf 1 hdrWord 0)).1.toOption = some hdrWord ∧ decodeHeader hdrWord = some hdr1 ∧ hdr1.wait.getLsbD 0 = true ∧
    tget 0 (wCl 1).flags 0 ≠ 0 := by decide
/-- The state after the header has been read. -/
def s1Cl (hdr word : Nat) : State := ((sCl 0 hdr word).laneWord r0 (wCl 0) (baseOf 0 hdr word)).2
theorem wit_ClauseStarts_goes : ((sCl 0 hdrWord 0xF0010100C00000000).laneWord r0 (wCl 0) (baseOf 0 hdrWord 0xF0010100C00000000)).1.toOption = some hdrWord ∧
    (∀ i, i < 12 → hdr1.wait.getLsbD i = true → tget 0 (wCl 0).flags i = 0) ∧
    (match ((s1Cl hdrWord 0xF0010100C00000000).laneBody r0 (wCl 0) hdr1 false (baseOf 0 hdrWord 0xF0010100C00000000) 1 0 []).1 with | .code l => l.length | _ => 0) = 1 ∧
    (match ((s1Cl hdrWord 1).laneBody r0 (wCl 0) hdr1 false (baseOf 0 hdrWord 1) 1 0 []).1 with | .bad k => k | _ => 9) = 0 := by decide
theorem wit_ClauseStarts_header : ((sCl 0 1 0).laneWord r0 (wCl 0) (baseOf 0 1 0)).1.toOption = some 1 ∧ decodeHeader 1 = none ∧ clAt.mask ≠ 0 ∧
    (wCl 0).handler = false ∧ (wCl 0).inTxn fCl.id = false ∧ (s1Cl 1 0).splitFree 0 = true := by decide

theorem wit_LaneTraps_entry : (ln w1).wave? r0 = some w1 ∧ w1.frag? f1.id = some f1 ∧ w1.txn = none ∧ w1.handler = false ∧ (∀ g ∈ w1.frags, g.id < w1.nextFrag) ∧
    (1 : LaneMask) ≠ 0 := by decide
/-- A held fragment of lanes 0 and 1, with what its lanes have been given. -/
def heldF (st : FragState) (c e k : LaneMask) : Fragment := { f0 with lanes := 3, mask := 3, st := st, held := some ⟨1, 0x40000, some x0, some x0, c, e, k, 3⟩ }
def heldW (st : FragState) (c e k : LaneMask) : Wave := { w0 with frags := [heldF st c e k] }
/-- Whether every lane of a held fragment has been given an action. -/
def allGiven (f : Fragment) : Bool := match f.held with | some h => (h.contMask ||| h.redoMask ||| h.killMask) &&& f.lanes == f.lanes | none => false
theorem wit_LaneTraps_return : ((heldW .heldSlot 1 0 0).frag? 0 = some (heldF .heldSlot 1 0 0) ∧ ∀ g ∈ (heldW .heldSlot 1 0 0).frags, g.id < (heldW .heldSlot 1 0 0).nextFrag) ∧
    allGiven (heldF .heldSlot 1 0 0) = false ∧ allGiven (heldF .heldSlot 0 0 3) = true ∧ allGiven (heldF .heldSlot 3 0 0) = true ∧ allGiven (heldF .heldSlot 0 3 0) = true ∧
    allGiven (heldF .heldSlot 1 2 0) = true ∧ allGiven (heldF .heldEntry 1 0 2) = true ∧ allGiven (heldF .heldEntry 0 2 1) = true := by decide

/-- A handler wave in slot 32 whose only lane handles lane 7 of the wave in slot 0. -/
def rH : WaveRef := ⟨0, 32⟩
def hLane : HeldLane := ⟨0, 1, 7, 0, 1, 0x40000, 0⟩
def xH : Running := { x0 with cl := { x0.cl with mask := 1 } }
def fH : Fragment := { f0 with run := some xH }
def wH : Wave := { w0 with handler := true, frags := [fH], vreg := [(0, List.replicate 96 (originTag hLane))] }
def sH (w : Wave) (handled : List (HeldLane × Bool)) : State :=
  { ((ln w0).setWave rH w).updCore 0 (fun c => { c with handling := handled }) with cur := .lane 0 32 0 }
theorem wit_TrapSupport_issue : Lane (sH wH [(hLane, false)]) rH wH fH xH ∧ wH.handler = true ∧ wH.flagFull (ctl 0) = false ∧ activeMask wH xH (ctl 0) ≠ 0 ∧
    originsOk (sH wH [(hLane, false)]) 0 ((sH wH [(hLane, false)]).view wH xH).1 (activeMask wH xH (ctl 0)) 0 0x110 = true ∧
    originsOk (sH wH []) 0 ((sH wH []).view wH xH).1 (activeMask wH xH (ctl 0)) 0 0x110 = false ∧ Lane (sH wH []) rH wH fH xH :=
  ⟨lane_of (by decide), by decide, by decide, by decide, by decide, by decide, lane_of (by decide)⟩
def orgSt : Op := ⟨9, 0, false, .orgStore, 0, false, none, 0, [⟨0, 0xFF#32 ++ originTag hLane, [], leBytes 4 5, [], none⟩], 0, 0, 0, some 11, false, 1, [], 0, 0, [], 0, [], []⟩
def orgLd : Op := { orgSt with kind := .orgLoad, dst := some 3 }
def flagH : Wave := { wH with flags := [(11, 63)] }
def waitH : Wave := { wH with ops := [orgSt] }
theorem wit_TrapSupport_waits : (Lane (sH flagH [(hLane, false)]) rH flagH fH xH ∧ flagH.flagFull (ctl 11) = true) ∧
    (Lane (sH waitH [(hLane, false)]) rH waitH fH xH ∧ waitH.ops.any (fun o => o.kind == .orgStore) = true) ∧
    wH.ops.any (fun o => o.kind == .orgStore) = false ∧ lanesOf (activeMask wH xH (ctl 15)) = [0] ∧
    (sH wH [(hLane, false)]).heldBy 0 (((sH wH [(hLane, false)]).view wH xH).1.op 0 0) = some (hLane, false) ∧
    (((sH wH [(hLane, false)]).view wH xH).1.op 0x112 0).toNat % 4 ≠ 3 := ⟨⟨lane_of (by decide), by decide⟩, ⟨lane_of (by decide), by decide⟩, by decide⟩
theorem wit_TrapSupport_returns : (waitH.ops.find? (fun p => p.id == 9) = some orgSt ∧ orgSt.kind = .orgStore ∧
    (sH waitH [(hLane, false)]).heldBy 0 ((0xFF#32 ++ originTag hLane).extractLsb' 0 32) = some (hLane, false) ∧ hLane.lane < 96 ∧ hLane.slot ≠ rH.slot) ∧
    ((sH waitH [(hLane, false)]).wave? ⟨0, hLane.slot⟩).isSome = true ∧ ((0xFF#32 ++ originTag hLane).extractLsb' 32 9).toNat = 0xFF ∧
    [orgLd].find? (fun p => p.id == 9) = some orgLd ∧ orgLd.kind = .orgLoad ∧ orgLd.dst = some 3 := by decide

/-! Witnesses: matrix instructions and sweeps -/

def xTx : Running := { x0 with cl := { x0.cl with txn := true } }
def fTx : Fragment := { f0 with run := some xTx }
def inTxL : Wave := { w1 with txn := some (txn 1), frags := [fTx] }
def burstW : Wave := { w1 with decl := some ⟨1, 1, 0, 0, true, false, none⟩ }
/-- Whether an instruction of class 1 or 3 waits (R276, R290). -/
def blockedBy (s : State) (q : WaveRef) (w : Wave) (f : Fragment) (x : Running) (c : LaneCtl) (cls : Nat) : Bool :=
  w.flagFull c || decide (63 ≤ w.outstanding cls) || w.toCome f x.cl.born ||
    decide (cls = 3) && (s.memFull q.core 64 1 || !(s.waitsOf q w f 0).isEmpty)
theorem wit_MatrixAndSweepIssues : (Lane (ln w1) r0 w1 f1 x0 ∧ (ctl 11).sf.toNat ≤ 11 ∧ w1.inTxn f1.id = false ∧ blockedBy (ln w1) r0 w1 f1 x0 (ctl 11) 1 = false ∧
      blockedBy (ln w1) r0 w1 f1 x0 (ctl 11) 3 = false ∧ w1.decl = none ∧ activeMask w1 x0 (ctl 11) ≠ 0) ∧
    (Lane (ln wNone) r0 wNone fNone xNone ∧ activeMask wNone xNone (ctl 11) = 0 ∧ wNone.inTxn fNone.id = false ∧ blockedBy (ln wNone) r0 wNone fNone xNone (ctl 11) 3 = false) ∧
    (Lane (ln flag63) r0 flag63 f1 x0 ∧ flag63.inTxn f1.id = false ∧ blockedBy (ln flag63) r0 flag63 f1 x0 (ctl 11) 1 = true) ∧
    (Lane (ln burstW) r0 burstW f1 x0 ∧ ∃ d, burstW.decl = some d ∧ d.admitted = none) ∧
    Lane (ln inTxL) r0 inTxL fTx xTx ∧ inTxL.inTxn fTx.id = true ∧ xTx.cl.txn = true :=
  ⟨⟨lane_of (by decide), by decide⟩, ⟨lane_of (by decide), by decide⟩, ⟨lane_of (by decide), by decide⟩, ⟨lane_of (by decide), ⟨_, rfl, rfl⟩⟩,
    lane_of (by decide), by decide⟩

set_option maxRecDepth 100000 in
theorem wit_MatrixAndSweepIssues_full : Lane (ln wFull) r0 wFull fOne xOne ∧ activeMask wFull xOne (ctl 11) ≠ 0 ∧ wFull.inTxn fOne.id = false ∧
    blockedBy (ln wFull) r0 wFull fOne xOne (ctl 11) 3 = true :=
  ⟨⟨rfl, rfl, rfl, rfl⟩, by decide, rfl, by rw [blockedBy, show (ln wFull).memFull r0.core 64 1 = true from rfl]; simp⟩

/-- An 8-bit integer matrix operation of the wave in slot 0 with octet 11, of which row 7 is left. -/
def oct : Octet := ⟨11, 0x30000, 0x30000, 0, 64, 64, 0, [7], 7, none, false⟩
def mx (l : List Octet) : MatrixOp := ⟨9, 0, 0, 0, 16, true, false, false, 0, 11, 1, [], l, [(0, List.replicate 24 0 ++ leBytes 8 0x77), (0x1000000000000000B, [])], 0, true, false, false⟩
def sMx (l : List Octet) (gated : Bool) : State :=
  (({ ln w1 with ticks := 40 } : State).updCore 0 (fun c => { c with matrix := [mx l] })).updCluster 0 (fun c => { c with gated := gated })
theorem wit_MatrixOperations_octet : (((sMx [oct] false).matrixOp 9).isSome = true ∧ (sMx [oct] false).wave? ⟨0, (mx [oct]).slot⟩ = some w1 ∧
    (sMx [oct] false).octetTurn 0 (mx [oct]) 11 = true ∧ (mx [oct]).taken = true ∧ (mx [oct]).bad = false ∧
    (mx [oct]).octets.find? (fun x => x.j == 11) = some oct ∧ (sMx [oct] true).engineMay 0 = none ∧ (sMx [oct] false).engineMay 0 = some 63 ∧
    oct.rows.filter (fun k => decide (oct.next ≤ k)) = [7] ∧ oct.j < 12 ∧ tfind (mx [oct]).block (groupKey (mx [oct]) oct) = some []) ∧
    ∃ l s1, ((sMx [oct] false).issueUnit ⟨0, 0⟩ 0 63).mxFetches 0 ⟨0, 0⟩ w1 (rowFetches (fmtBlock (tget [] (mx [oct]).block oct.pf.toNat)) false
      (depthOf (fmtBlock (tget [] (mx [oct]).block oct.pf.toNat)) false) oct 7) [] = (.ok l, s1) := ⟨by decide, ok_of (by decide)⟩
theorem wit_MatrixOperations_complete : (fmtBlock (tget [] (mx [oct]).block 0)).afmt = 7 ∧ ((sMx [{ oct with done := true }] false).matrixOp 9).isSome = true ∧
    ∀ o ∈ (mx [{ oct with done := true }]).octets, o.done = true := by decide
/-- A sweep over two elements. -/
def sw (done : Bool) (next : Nat) (fault : Option Nat) : SweepOp :=
  ⟨9, 0, 0, 0, 1, ⟨0, 2, 4, 0, 0, 0⟩, 0, [], 0, 0, 0, 0, [List.replicate 8 0 ++ [0, 1] ++ List.replicate 6 0 ++ leBytes 4 2 ++ List.replicate 108 0], next, none, 11, 0, 0, 5, false, fault, done, none⟩
def sSw (m : SweepOp) : State := (ln w1).updCore 0 (fun c => { c with sweeps := [m] })
theorem wit_SweepCompletes : ((sSw (sw true 2 none)).sweepOp 9 = some (0, sw true 2 none) ∧ (sSw (sw true 2 none)).wave? ⟨0, 0⟩ = some w1 ∧ (sw true 2 none).bad = none ∧ (sSw (sw true 2 none)).laneClock 0 = true ∧
      (sw true 2 none).mag < 2 ^ 31) ∧ (sSw (sw false 2 (some 1))).sweepOp 9 = some (0, sw false 2 (some 1)) ∧ (sSw (sw false 2 (some 1))).sweepTurn 0 (sw false 2 (some 1)) = false ∧
    (sSw (sw false 2 none)).sweepOp 9 = some (0, sw false 2 none) ∧ (sSw (sw false 2 none)).sweepTurn 0 (sw false 2 none) = true ∧ (sw false 2 none).recs ≠ [] ∧
    visits (tirOf ((sw false 2 none).recs.getD 0 [])).rank (tirOf ((sw false 2 none).recs.getD 0 [])).ext ≤ 2 ∧
    1 < visits 1 [2] ∧ 1 ≤ [2].length := by decide

/-! Witnesses: gaffer instructions -/

def gR (l : List (Nat × DWord)) : GThread := { g0 with regs := l }
theorem wit_GafferRegisters : Gaffer (gf g0) 0 g0 ∧ g0.wait = .none ∧ g0.rd 2 = 0 ∧ ¬ (g0.rd 2).toInt < 0 ∧ (Gaffer (gf (gR [(2, 1)])) 0 (gR [(2, 1)]) ∧ (gR [(2, 1)]).rd 2 ≠ 0 ∧
    0 < ((gR [(2, 1)]).rd 2).toInt) ∧ Gaffer (gf (gR [(2, 0xFFFFFFFFFFFFFFFF)])) 0 (gR [(2, 0xFFFFFFFFFFFFFFFF)]) ∧ ((gR [(2, 0xFFFFFFFFFFFFFFFF)]).rd 2).toInt < 0 :=
  ⟨gaffer_of (by decide), by decide, by decide, by decide, ⟨gaffer_of (by decide), by decide⟩, gaffer_of (by decide), by decide⟩

/-- A thread bound to the context of the placed wave, with an address in c2. -/
def gA (a : DWord) (x : Option Nat) : GThread := { g0 with regs := [(2, a)], ctx := x }
def gfC (g : GThread) : State := { ((State.reset.withWave 0 none).setGth 0 g) with cur := .gaffer 0 }
theorem wit_GafferMemory_local : Gaffer (gf (gA 0x3FFF8 none)) 0 (gA 0x3FFF8 none) ∧ 0x3FFF8 % 8 = 0 ∧ 0x3FFF8 < 0x40000 ∧ Memory.wf (gf (gA 0x3FFF8 none)).mem = true ∧
    Gaffer (gf (gA 0x100000000 none)) 0 (gA 0x100000000 none) ∧ Gaffer (gf (gA 0x100FFFFF8 none)) 0 (gA 0x100FFFFF8 none) :=
  ⟨gaffer_of (by decide), by decide, by decide, by decide, gaffer_of (by decide), gaffer_of (by decide)⟩
theorem wit_GafferMemory_device : (Gaffer (gfC (gA 0x10000000030000 (some 0))) 0 (gA 0x10000000030000 (some 0)) ∧
    ∃ l s1, (gfC (gA 0x10000000030000 (some 0))).devRead 0 0 0x30000 8 = (.ok l, s1)) ∧
    (∃ l s1, (gfC (gA 0x10000000030000 (some 0))).devWrite 0 0 0x30000 (leBytes 8 7) = (.ok l, s1)) ∧
    (Gaffer (gfC (gA 0x10000400000000 (some 0))) 0 (gA 0x10000400000000 (some 0)) ∧ ∃ e s1, (gfC (gA 0x10000400000000 (some 0))).devRead 0 0 0x400000000 8 = (.error e, s1)) ∧
    (∃ e s1, (gfC (gA 0x10000400000000 (some 0))).devWrite 0 0 0x400000000 (leBytes 8 7) = (.error e, s1)) ∧
    ∃ l s1, (gfC (gA 0x30000 (some 0))).devUpdate 0 0 0x30000 (fun y => y + 7) = (.ok l, s1) :=
  ⟨⟨gaffer_of (by decide), ok_of (by decide)⟩, ok_of (by decide), ⟨gaffer_of (by decide), error_of (by decide)⟩, error_of (by decide), ok_of (by decide)⟩
theorem wit_GafferMemory_faults : (Gaffer (gf (gA 4 none)) 0 (gA 4 none) ∧ (4 + 0) % 8 ≠ 0) ∧ Gaffer (gf (gA 0x40000 none)) 0 (gA 0x40000 none) ∧
    Gaffer (gf (gA 0xFFFFFFF8 none)) 0 (gA 0xFFFFFFF8 none) ∧ Gaffer (gf (gA 0x101000000 none)) 0 (gA 0x101000000 none) ∧
    Gaffer (gf (gA 0x20000000000000 none)) 0 (gA 0x20000000000000 none) ∧ Gaffer (gf (gA 0x10000000000000 none)) 0 (gA 0x10000000000000 none) ∧
    Gaffer (gfC (gA 0x30000 (some 0))) 0 (gA 0x30000 (some 0)) ∧ (((gf g0).gComplete 0 9 2).gth 0).ctx = none :=
  ⟨⟨gaffer_of (by decide), by decide⟩, gaffer_of (by decide), gaffer_of (by decide), gaffer_of (by decide), gaffer_of (by decide), gaffer_of (by decide),
    gaffer_of (by decide), by decide⟩

/-- Entry 63 with port 5 of a device with a valid FDID, in a state, in a machine in which thread 0 executes with 63 in c2. -/
def gE : GThread := gA 63 none
def sE (c : Circuit) : State :=
  { (gf gE).setCircuit 63 { c with port := 5, grpmask := 0xF, peerdev := 2 } with fdidValid := true, fdid := 1, links := [(0, { up := true, credits := fullCredits })] }
def cE (c : Circuit) : Circuit := { c with port := 5, grpmask := 0xF, peerdev := 2 }
def mineE (c : Circuit) : State := (sE c).setCircuit 63 { cE c with owner := 0 }
theorem wit_GafferCircuits_entries : (Gaffer (gf (gA 64 none)) 0 (gA 64 none) ∧ 64 ≤ ((gA 64 none).rd 2).toNat) ∧ Gaffer (sE {}) 0 gE ∧ (gE.rd 2).toNat < 64 ∧
    ((sE {}).circuit 63).st = 0 ∧ (gE.rd 3).toNat ≤ (sE {}).now ∧ ((sE { st := 6 }).circuit 63).st = 6 ∧
    (mineE { slotted := true, slotper := 0 }).requestOk 63 = false ∧ ((sE { st := 2 }).circuit 63).attempts = 0 ∧ ((sE { st := 4 }).circuit 63).st = 4 ∧
    Gaffer (sE { st := 4 }) 0 gE := ⟨⟨gaffer_of (by decide), by decide⟩, gaffer_of (by decide), by decide, by decide, by decide, by decide, by decide, by decide, by decide,
    gaffer_of (by decide)⟩
theorem wit_GafferCircuits_requests : (mineE { hopcnt := 1 }).requestOk 63 = true ∧ (mineE { hopcnt := 8, st := 6 }).requestOk 63 = true ∧ (0 : Nat) < (10 : DWord).toNat ∧
    (Gaffer (sE {}) 0 { gE with regs := [(2, 63), (3, 10)] } → False) ∧ newer ((gE.rd 2).extractLsb' 0 16) (sE {}).tvercur = true ∧
    newer ((g0.rd 2).extractLsb' 0 16) (gf g0).tvercur = false :=
  ⟨by decide, by decide, by decide, fun h => absurd h.thread (by decide), by decide, by decide⟩
/-- Thread 0 with c2 = 63 and c3 = 10 beside an entry in LIVE, BACKOFF or FREE. -/
def gW : GThread := { g0 with regs := [(2, 63), (3, 10)] }
def sW (st : BitVec 4) (now : Nat) : State := { ((gf gW).setCircuit 63 { st := st }) with now := now }
theorem wit_GafferWaits_entry : Gaffer (sW 4 0) 0 gW ∧ ((sW 4 0).circuit 63).st = 4 ∧ Gaffer (sW 1 10) 0 gW ∧ ((sW 1 10).circuit 63).st = 1 ∧ (gW.rd 3).toNat ≠ 0 ∧
    (gW.rd 3).toNat ≤ (sW 1 10).now ∧ Gaffer (sW 1 9) 0 gW ∧ ¬ (gW.rd 3).toNat ≤ (sW 1 9).now ∧ (gW.rd 3).toNat % 4 = 2 :=
  ⟨gaffer_of (by decide), by decide, gaffer_of (by decide), by decide, by decide, by decide, gaffer_of (by decide), by decide, by decide⟩
def gEv (l : List DWord) (wake : Word) (a : DWord) : GThread := { g0 with evq := l, wake := wake, regs := [(2, a)] }
theorem wit_GafferWaits_event : (Gaffer (gf (gEv [5] 0 0)) 0 (gEv [5] 0 0) ∧ (gEv [5] 0 0).overflow = false) ∧ Gaffer (gf (gEv [] 1 0)) 0 (gEv [] 1 0) ∧
    (Gaffer { gf (gEv [] 0 10) with now := 10 } 0 (gEv [] 0 10) ∧ ((gEv [] 0 10).rd 2).toNat ≤ 10) ∧ Gaffer (gf (gEv [] 0 0)) 0 (gEv [] 0 0) ∧
    Gaffer (gf (gEv [] 0 32)) 0 (gEv [] 0 32) ∧ Gaffer (gf (gEv [] 0 31)) 0 (gEv [] 0 31) ∧ (gf (gEv [] 0 31)).entryOf 31 = none ∧ ((gEv [] 0 31).rd 3).toNat % 4 < 2 ∧
    (sE { st := 4 }).entryOf 5 ≠ none :=
  ⟨⟨gaffer_of (by decide), by decide⟩, gaffer_of (by decide), ⟨gaffer_of (by decide), by decide⟩, gaffer_of (by decide), gaffer_of (by decide),
    gaffer_of (by decide), by decide, by decide, by decide⟩
theorem wit_GafferWaits_deadline : (let g : GThread := { g0 with st := 2, wait := .event 15 10 }
    (({ gf g0 with now := 10 } : State).setGth 3 g).gth 3 = g ∧ g.evq = [] ∧ g.wake = 0) ∧
    (let g : GThread := { g0 with st := 2, wait := .circuit 63 15 10 }; ((sW 1 10).setGth 3 g).gth 3 = g ∧ (((sW 1 10).setGth 3 g).circuit 63).st = 1) := by decide

/-! Witnesses: collective programs -/

def dC : CollDesc := ⟨0, 0, 3, 1, 0, 15, 1, 0, 0, 5, 0, 1, 0, 0, 0⟩
def fS (pk : BitVec 2) (pv : BitVec 10) (cnt : Word) : Step := ⟨false, false, false, pk, pv, 0, cnt⟩
def xC : Crux := { st := 2, ctx := some 0, desc := some dC, prog := [.send (fS 1 1 4)], bufs := [⟨0x30000, 0, 1, 64, 0⟩], rmap := [(0, 0), (1, 0), (2, 0)] }
def sC (x : Crux) : State := { (State.reset.withWave 0 none).setCx 15 x with cur := .crux 0 15 }
theorem collective_of {s : State} {c k : Nat} {x : Crux} {d : CollDesc}
    (h : s.cur = .crux c k ∧ s.cx (c * 16 + k) = x ∧ x.desc = some d ∧ x.st = 2 ∧ x.skipped d.rank = false) : Collective s c k x d :=
  ⟨h.1, h.2.1, h.2.2.1, h.2.2.2.1, h.2.2.2.2⟩
/-- The data step that SEND of four elements to the next rank starts. -/
def t0C (x : Crux) (n : Word) : DataStep := ⟨x.nextStep, x.step, .send (fS 1 1 n), x.oper, x.fmt, x.smD, 0, 0, 4 * n.toNat, 0, none, [2], 0, [], false, none, 0⟩
def busy (n : Nat) : Crux := { xC with outst := List.replicate n (t0C xC 16) }
theorem wit_CollectiveDataSteps_start : Collective (sC xC) 0 15 xC dC ∧ dC.tmo ≠ 0 ∧ xC.tmoAt = none ∧ xC.peerOf dC (fS 1 1 16) 1 = 2 ∧ dC.rank ∉ [2] ∧ (xC.region dC (fS 1 1 16)).1 * 4 + (xC.region dC (fS 1 1 16)).2 * 4 = 64 ∧
    (xC.region dC (fS 1 1 16)).2 ≠ 0 ∧ xC.outst.length < 8 ∧ (∀ o ∈ xC.outst, o.clashes (t0C xC 16) = false) ∧
    Collective (sC (busy 7)) 0 15 (busy 7) dC ∧ (busy 7).outst.length < 8 ∧ (∀ o ∈ (busy 7).outst, o.clashes (t0C (busy 7) 16) = false) :=
  ⟨collective_of (by decide), by decide, by decide, by decide, by decide, by decide, by decide, by decide, by decide, collective_of (by decide), by decide, by decide⟩
theorem wit_CollectiveDataSteps_ends : xC.peerOf dC (fS 1 3 4) 3 = dC.rank ∧ xC.peerOf dC (fS 2 1 4) 1 = dC.rank ∧
    (let x := { xC with skip := [(0, 4)] }; Collective (sC x) 0 15 x dC ∧ x.skipped 2 = true ∧ x.peerOf dC (fS 2 2 4) 2 = 2) ∧
    (let x := { xC with oper := 4, fmt := 1 }; Collective (sC x) 0 15 x dC ∧ x.oper = 4 ∧ x.fmt ≠ 0) ∧ 64 < (xC.region dC (fS 1 1 17)).2 * 4 ∧ (xC.region dC (fS 1 1 0)).2 = 0 ∧
    Collective (sC (busy 8)) 0 15 (busy 8) dC ∧ ¬ (busy 8).outst.length < 8 ∧ xC.peerOf dC (fS 2 0 4) 0 ≠ dC.rank :=
  ⟨by decide, by decide, ⟨collective_of (by decide), by decide⟩, ⟨collective_of (by decide), by decide⟩, by decide, by decide, collective_of (by decide), by decide, by decide⟩
def xL (l : List (Nat × Nat × Nat)) : Crux := { xC with loops := l }
def ev (n : Word) : Step := ⟨false, false, false, 0, 0, 0, n⟩
theorem wit_CollectiveControlSteps : (Collective (sC (busy 2)) 0 15 (busy 2) dC ∧ (busy 2).outst.length ≤ 2 ∧ 1 < (busy 2).outst.length ∧ (busy 2).outst ≠ []) ∧
    (Collective (sC (xL [(0, 0, 2)])) 0 15 (xL [(0, 0, 2)]) dC ∧ 0 + 1 < 2) ∧ (Collective (sC (xL [(0, 1, 2)])) 0 15 (xL [(0, 1, 2)]) dC ∧ 2 ≤ 1 + 1) ∧
    (Collective (sC xC) 0 15 xC dC ∧ xC.peerOf dC (fS 1 1 0) 1 ≠ dC.rank ∧ xC.peerOf dC (fS 1 0 0) 0 = dC.rank) ∧ (1 ≤ (1 : Word).toNat ∧ (0x1000000 : Word).toNat ≤ 2 ^ 24 ∧
      2 ^ 24 < (0x1000001 : Word).toNat) ∧ xC.bufs[(ev 5).buf.toNat]? = some ⟨0x30000, 0, 1, 64, 0⟩ ∧ xC.outst = [] ∧ xC.fault = none ∧ xC.watch = none ∧ (sC xC).now ≥ xC.backUntil ∧
    (∃ old s1, (sC xC).devUpdate 0 0 0x30000 (fun v => v + 5) = (.ok old, s1)) ∧ (∃ ks s1, (sC xC).resolve none 0 0 2 0x30000 8 needRD = (.ok ks, s1)) :=
  ⟨⟨collective_of (by decide), by decide⟩, ⟨collective_of (by decide), by decide⟩, ⟨collective_of (by decide), by decide⟩, ⟨collective_of (by decide), by decide⟩, by decide, by decide,
    by decide, by decide, by decide, by decide, ok_of (by decide), ok_of (by decide)⟩
theorem wit_CollectiveControlSteps_watch : (ev 0).cnt.toNat + 0 ≤ leNat ((sC xC).peek (keysFrom 0x30000 8)) ∧ leNat ((sC xC).peek (keysFrom 0x30000 8)) < (ev 1).cnt.toNat + 0 ∧
    (sC xC).canWatch (lineOf 0x30000) = true ∧ (let x := { xC with bufs := [⟨0, 0, 0, 64, 0⟩] }; Collective (sC x) 0 15 x dC ∧ (x.bufs.map (fun b => b.kind)) = [0]) :=
  ⟨by decide, by decide, by decide, collective_of (by decide), by decide⟩

/-! Witnesses: power -/

def base : State := State.reset.withWave 0 none
def sCl15 (c : Cluster) : State := { base.setCluster 15 c with now := 1000 }
theorem wit_LevelChanges : ((sCl15 { change := some 3 }).cluster 15).change.isSome = true ∧ ((sCl15 { change := some 3 }).cluster 15).switching = false ∧
    ((sCl15 { change := some 3, switching := true, switchAt := 840 }).cluster 15).switchAt + 160 ≤ (sCl15 {}).now ∧
    ((sCl15 { change := some 3 }).cluster (clusterOf 191)).change.isSome = true ∧ ((sCl15 {}).cluster (clusterOf 191)).change = none ∧
    (base.setCore 191 { halved := some 0 }).now ≥ 0 ∧ ((base.setCore 191 { halved := some 0 }).core 191).halved = some 0 := by decide
def declW (d : Decl) : Wave := { w0 with decl := some d }
def sD (d : Decl) (ramp : BitVec 8) (adm : List (Nat × Nat)) : State := { (base.setWave r0 (declW d)).setCluster 0 { ramp := ramp, admits := adm } with now := 10 }
def d16 (ready : Bool) (onset : Nat) (a : Option Nat) : Decl := ⟨16, 1, onset, 0, true, ready, a⟩
theorem wit_BurstsAndThrottles_admit : ((sD (d16 false 0 none) 48 []).wave? r0 = some (declW (d16 false 0 none)) ∧ (d16 false 0 none).admitted = none) ∧
    minBy (fun p => p.2.order) (((sD (d16 true 10 none) 48 []).pendingDecls 0).filter (fun p => p.2.told)) = some (r0, d16 true 10 none) ∧ (d16 true 10 none).onset ≤ (sD (d16 true 10 none) 48 []).now ∧
    0 + (d16 true 10 none).int ≤ max 16 (min 192 ((sD (d16 true 10 none) 16 []).cluster 0).ramp.toNat) ∧
    minBy (fun p => p.2.order) (((sD (d16 true 10 none) 16 [(10, 1)]).pendingDecls 0).filter (fun p => p.2.told)) = some (r0, d16 true 10 none) ∧
    16 < (((sD (d16 true 10 none) 16 [(10, 1)]).cluster 0).admits.map (fun a => a.2)).foldl (· + ·) 0 + 16 ∧ 8 * (10 - 10) < 5 * max 1 64 ∧
    (sD (d16 true 0 (some 10)) 48 []).wave? r0 = some (declW (d16 true 0 (some 10))) := by decide
theorem wit_BurstsAndThrottles_others : ((base.setCore 191 { throttle := some (0, 5) }).core 191).throttle = some (0, 5) ∧
    ((base.setCore 191 { release := [(63, [(0, 0), (1, 0), (2, 0), (3, 0)])] }).core 191).release = [((63 : BitVec 6).toNat, [(0, 0), (1, 0), (2, 0), (3, 0)])] ∧
    (dedup ([(0, 0), (1, 0), (2, 0), (3, 0)].map (fun p : Nat × Nat => p.1))).length ≤ ((base.setCore 191 {}).cluster 15).relgrp.toNat := by decide
def idleCal : State := { State.reset with now := 3600000000000 }
theorem wit_PowerCapAndCalibration : (idleCal.cluster 15).calen = true ∧ (idleCal.cluster 15).lastCal + 1000000000 * max 1 (idleCal.cluster 15).calper.toNat ≤ idleCal.now ∧
    idleCal.idleLong 15 = true ∧ (idleCal.cluster 15).gated = false ∧ (idleCal.cluster 15).gateStart = none ∧ (idleCal.cluster 15).calibrating = false ∧ (idleCal.cluster 15).wakeAt = none ∧
    ((sCl15 { calibrating := true }).cluster 15).calibrating = true := by decide

/-! Witnesses: the module -/

def bootOf (f : Option BootFail) : Boot := ⟨f, [], []⟩
def off : State := { State.reset with modl := { State.reset.modl with on := false } }
theorem wit_Starts : off.modl.on = false ∧ off.modl.connected = true ∧ off.mgmt.failed < 3 ∧ ({ off with modl := { off.modl with connected := false } } : State).modl.connected = false ∧
    State.reset.modl.on = true ∧ State.reset.mgmt.startOpen = false ∧ ({ State.reset with mgmt := { State.reset.mgmt with failed := 3 } } : State).mgmt.failed ≥ 3 ∧
    (let s : State := { State.reset with mgmt := { State.reset.mgmt with startOpen := true }, ticks := 30000000000 }; s.modl.on = true ∧ s.mgmt.startOpen = true ∧ 30000000000 ≤ s.ticks) := by decide
/-- A reset machine with some counts of starts and the time of a temperature sample. -/
def mg (failed : Nat) (open_ incr : Bool) (at_ : Option Nat) : State :=
  { State.reset with mgmt := { State.reset.mgmt with failed := failed, startOpen := open_, startIncr := incr, tempAt := at_ } }
theorem wit_Starts_counts : (mg 3 false false none).modl.on = true ∧ ¬ 3 ≤ 3 - 1 ∧ ((mg 3 true true none).mgmt.resetIncr || ((mg 3 true true none).mgmt.startOpen &&
      (mg 3 true true none).mgmt.startIncr)) = true ∧ (bootOf (some ⟨1, 4, 0, 0⟩)).fail = some ⟨1, 4, 0, 0⟩ ∧ (1 : Nat) ≤ (4 : BitVec 8).toNat ∧ (4 : BitVec 8).toNat < 5 ∧
    (mg 1 true false none).mgmt.startOpen = true ∧ (mg 1 true false none).ticks < 30000000000 := by decide
theorem wit_InputAndSensors_samples : State.reset.mgmt.bootStep ≠ 0 ∧ (∃ p, (mg 0 false false (some 0)).mgmt.tempAt = some p ∧ (mg 0 false false (some 0)).ticks < p + 60000000000) ∧
    State.reset.mgmt.tempAt = none := by decide
theorem wit_ModuleRecords : State.reset.modl.on = true ∧ (∀ x ∈ ({ State.reset with timers := [⟨5, .flashCommit⟩] } : State).timers, x.what ≠ .patrolScrub true) ∧ off.modl.on = false ∧ (5 : BitVec 3).toNat < 6 ∧ (base.ctx? 0).isSome = true := by decide

/-! Witnesses: ports and flits -/

/-- Port 31 in some state, 300 µs after the start. -/
def sP (x : Port) : State := { State.reset.setPort 31 x with now := 300000, circuits := [(63, { st := 3, port := 31 })] }
theorem wit_PortTransitions : (∀ t : BitVec 2, ((sP { trans := some (1, 300000), target := t }).port 31).trans = some (1, 300000)) ∧ (sP {}).now = 300000 ∧
    (((sP { st := 1, lit := 3 }).port 31).st = 1 ∧ ((sP { st := 1, lit := 3 }).port 31).trans = none ∧ (⟨3, false, 0⟩ : FarEnd).groups = 3 ∧
      (⟨15, false, 0⟩ : FarEnd).groups &&& ~~~3 ≠ 0 ∧ (⟨1, false, 0⟩ : FarEnd).groups ≠ 3 ∧ (⟨1, false, 0⟩ : FarEnd).groups &&& ~~~3 = 0 ∧
      ((sP { st := 1, lit := 3 }).port 31).lightAt = none ∧ ((sP { st := 1, lit := 3 }).port 31).mismatchAt = [] ∧ ((sP { st := 1, lit := 3 }).port 31).looped = false) ∧
    ((sP { st := 1, trans := some (5, 300000) }).port 31).trans = some (5, 300000) ∧ ((sP { st := 2, trans := some (4, 300000) }).port 31).trans = some (4, 300000) ∧
    (sP { st := 2, trans := some (4, 300000) }).portMissed 31 = false ∧
    ((sP { st := 3, trans := some (3, 300001) }).port 31).marker = none ∧ 3 ∉ ((sP { st := 3, trans := some (3, 300001) }).port 31).stalled ∧ 300001 > 300000 ∧ ((sP { st := 3, trans := some (3, 300000), marker := some 1 }).port 31).trans = some (3, 300000) ∧
    ((sP { trans := some (2, 300000) }).port 31).trans = some (2, 300000) ∧ (sP { st := 2, trans := some (4, 300000) }).entryOf 31 = some 63 ∧
    ((sP {}).circuit 63).st = 3 := by decide
/-- Entry 63 is in its slot 1, which was not opened. -/
def sMissed : State := { sP { st := 2, trans := some (4, 300000) } with circuits := [(63, { st := 3, port := 31, slotted := true, slotper := 300000, slotlen := 1000, missed := some 1 })] }
theorem wit_PortTransitions_missed : sMissed.portMissed 31 = true ∧ (sMissed.port 31).st = 2 ∧ (sMissed.port 31).trans = some (4, 300000) := by decide
theorem wit_PortFailures : (((sP { st := 1, since := 100000 }).port 31).since + 200000 ≤ (sP {}).now ∧ ((sP { st := 1, since := 100000 }).port 31).trans = none) ∧
    ((∃ g ∈ ((sP { st := 1, mismatchAt := [(2, 298000)] }).port 31).mismatchAt, g.2 + 2000 ≤ (sP {}).now) ∧ ((sP { st := 1, mismatchAt := [(2, 298000)] }).port 31).trans = none) ∧
    (((sP { st := 1, relock := true }).port 31).relock = true ∧ ((sP { st := 1, relock := true }).port 31).clearedAt ≠ some (sP {}).now) ∧
    (∀ q ∈ (sP {}).circuits, q.2.port.toNat = 31 → q.1 = 63) ∧ (sP {}).entryOf 31 = some 63 ∧ (((sP {}).port 31).st = 0 ∧ ((sP {}).port 31).trans = none) ∧
    (((sP { st := 2, target := 2, since := 280000, far := some ⟨0, true, 1⟩ }).port 31).target = 2 ∧ (sP { st := 2 }).portVer 31 ≠ 1 ∧ max 280000 0 + 20000 + 0 / 10 ≤ (sP {}).now) ∧
    ((sP { st := 3 }).port 31).st = 3 ∧ ((sP { st := 2 }).port 31).st = 2 ∧ ((sP {}).port 31).berth.toNat * 256 < 65537 ∧ 65536 ≤ ((sP {}).port 31).berth.toNat * 256 ∧
    (∀ q ∈ (sP {}).circuits, q.2.freeOnDark = false) := by decide
theorem wit_PortRequests : (((sP { grpmask := 15 }).port 31).st = 0 ∧ ((sP { grpmask := 15 }).port 31).trans = none ∧ ((sP { grpmask := 15 }).port 31).target = 0 ∧ grpOk 15 = true ∧
      (sP { grpmask := 15 }).elsOk 31 = true ∧ ((sP { grpmask := 15 }).port 31).down = false) ∧ ((sP { down := true }).port 31).down = true ∧
    ({ sP {} with modl := { (sP {}).modl with elsok := 0 } } : State).elsOk 31 = false ∧
    ((sP { st := 2, target := 1 }).port 31).target ≠ 0 ∧ ((sP { st := 2, target := 1 }).port 31).looped = false ∧
    (((sP { st := 3, target := 2 }).port 31).st = 3 ∧ ((sP { st := 3, target := 2 }).port 31).trans = none ∧ ((sP { st := 3, target := 2 }).port 31).target = 2 ∧
      ((sP { st := 3, target := 2 }).port 31).looped = false ∧ ((sP { st := 3, target := 2 }).port 31).stalled = [] ∧ ((sP { st := 3, target := 2 }).port 31).unacked.length < 64) ∧
    grpOk 5 = false ∧ (5 : BitVec 4) ≠ 15 ∧ grpOk 12 = true ∧ (12 : BitVec 4) &&& ((sP { st := 2, lit := 15, grpmask := 15 }).port 31).lit = 12 ∧
    ((sP { st := 2 }).port 31).trans = none ∧ ((sP { st := 3 }).port 31).st ≠ 2 ∧ ((sP { st := 2, trans := some (4, 0) }).port 31).trans ≠ none ∧ 8 * (3 : BitVec 2).toNat + 7 = 31 := by decide
/-- A data flit of one byte to a bound context, and others of some type, each with its check sequence. -/
def flitBody (typ : Nat) : List Byte := [BitVec.ofNat 8 (16 * typ), 0, 0, 0, 1, 0, 0, 0, 1] ++ List.replicate 15 0 ++ [1] ++ List.replicate 227 0
def arr (typ : Nat) : FlitArrival := ⟨flitBody typ ++ leBytes 4 (crc32 (flitBody typ)), 0, 0, some ⟨3, true, 0⟩⟩
theorem crc_small (l : List Byte) : crc32 l < 2 ^ 32 := by
  have step : ∀ k c, c < 2 ^ 32 → crcStep k c < 2 ^ 32 := by
    intro k
    induction k with
    | zero => intro c h; exact h
    | succ k ih =>
      intro c h
      rw [crcStep]
      apply ih
      split
      · exact Nat.xor_lt_two_pow (by rw [Nat.shiftRight_eq_div_pow]; omega) (by norm_num)
      · rw [Nat.shiftRight_eq_div_pow]; omega
  have fold : ∀ (l : List Byte) c, c < 2 ^ 32 → l.foldl (fun c b => crcStep 8 (c ^^^ b.toNat)) c < 2 ^ 32 := by
    intro l
    induction l with
    | nil => intro c h; exact h
    | cons b l ih => intro c h; exact ih _ (step _ _ (Nat.xor_lt_two_pow h (by have := b.isLt; omega)))
  exact Nat.xor_lt_two_pow (fold l _ (by norm_num)) (by norm_num)
theorem flit_length (typ : Nat) : (flitBody typ).length = 252 := by
  simp only [flitBody, List.length_append, List.length_replicate, List.length_cons, List.length_nil]
theorem wit_FlitsAndDelays_check (typ : Nat) : (arr typ).bytes.length = 256 ∧ crc32 ((arr typ).bytes.take 252) = field (arr typ).bytes 252 4 ∧ (arr typ).uncorr = 0 := by
  have t : (arr typ).bytes.take 252 = flitBody typ := by rw [arr, ← flit_length typ, List.take_left]
  have d : (arr typ).bytes.drop 252 = leBytes 4 (crc32 (flitBody typ)) := by rw [arr, ← flit_length typ, List.drop_left]
  refine ⟨by rw [arr, List.length_append, flit_length]; rfl, ?_, rfl⟩
  have := crc_small (flitBody typ)
  simp only [t, field, d, leBytes, List.take_succ_cons, List.take_zero, leNat, BitVec.toNat_ofNat]
  omega
theorem wit_FlitsAndDelays : (let s := sP { st := 3 }; (s.port 31).st = 3 ∧ (s.port 31).unacked = [] ∧ (s.port 31).marker = none ∧ (s.port 31).markerSeen = false ∧ (s.port 31).stalled = [] ∧
      (s.port 31).clearedAt ≠ some s.now ∧ (s.port 31).rxSeq + 1 = 1 ∧ s.tvercur = 0) ∧ ((sP { st := 2, rxSeq := 1 }).port 31).rxSeq + 1 ≠ 1 ∧ ([] : List Byte).length ≠ 256 := by decide
theorem wit_FlitsAndDelays_bytes : (field (arr 1).bytes 0 1 / 16 = 1 ∧ field (arr 1).bytes 0 1 % 16 = 0 ∧ field (arr 1).bytes 1 1 = 0 ∧ field (arr 1).bytes 2 2 = 0 ∧ field (arr 1).bytes 4 2 = 1) ∧
    field (arr 1).bytes 8 1 = 1 ∧ dataOk (arr 1).bytes = true ∧ field (arr 0).bytes 0 1 / 16 = 0 ∧ field (arr 3).bytes 0 1 / 16 = 3 := by decide

/-! Witnesses: engines, messages and instances -/

/-- One operation of the wave in slot 0, 1000 ns after the start. -/
def opOf (k : AsyncKind) (desc : List Byte) (stage next : Nat) : AsyncOp := ⟨7, k, r0, 0, 2, 0, desc, stage, next, none, 1, 1000, [], [], 63, 0, 0, []⟩
def sO (o : AsyncOp) : State := { (base.setWave r0 { w0 with tickets := [(asyncClass o.kind, [⟨7, 2, false⟩])] }) with asyncs := [o], now := 1000 }
def dCopy (n : Nat) (circ : Nat) : List Byte := leBytes 8 0x30000 ++ leBytes 8 0x30FF0 ++ leBytes 8 (n + 2 ^ 39 * circ) ++ leBytes 8 0
def dGather (n : Nat) : List Byte := leBytes 8 0x30100 ++ leBytes 8 0x30200 ++ leBytes 8 0x30000 ++ leBytes 4 4 ++ leBytes 4 n ++ leBytes 8 4 ++ List.replicate 24 0
def withIx (o : AsyncOp) (x : Nat) : State := { sO o with mem := Memory.writes (sO o).mem (cells 0x30000 (leBytes 4 x)) }
theorem wit_CopiesAndGathers : ((sO (opOf .copy (dCopy 32 0) 1 32)).async? 7 = some (opOf .copy (dCopy 32 0) 1 32) ∧ (opOf .copy (dCopy 32 0) 1 32).fault = none ∧
      2 ≤ (opOf .copy (dCopy 32 0) 1 32).scope ∧ ((sO (opOf .copy (dCopy 32 0) 1 32)).core 0).wcb = [] ∧ copyCirc (dCopy 32 0) = false ∧ copyLen (dCopy 32 0) ≤ 32 ∧ copyBobj (dCopy 32 0) = 0) ∧
    (copyCirc (dCopy 32 1) = true ∧ copyLen (dCopy 32 1) ≤ 32 ∧ (opOf .copy (dCopy 32 1) 2 32).flits = [] ∧ (opOf .copy (dCopy 32 1) 2 32).due ≤ (sO (opOf .copy (dCopy 32 1) 2 32)).now) ∧
    (0 < copyLen (dCopy 32 0) ∧ pieceLen 0x30000 (32 - 0) = 32 ∧ wholeUnits 0x30FF0 (0 + 32) (32 - 0) = 32) ∧
    (gatherLen (dGather 0) = 0 ∧ gatherLen (dGather 1) = 4 ∧ field (dGather 1) 28 4 ≤ 1 ∧ field (dGather 1) 40 8 = 0) ∧
    (∀ k ∈ [AsyncKind.copy, .gather], let s := sO (opOf k [] 3 0); (s.wave? r0).isSome = true ∧ w0.frags ≠ [] ∧ w0.handler = false ∧ ((s.wave? r0).map (fun w => tget [] w.tickets (asyncClass k))) = some ([⟨7, 2, false⟩] ++ []) ∧ [(7 : Nat)].Nodup ∧ s.async? 7 = some (opOf k [] 3 0)) := by
  decide
theorem wit_CopiesAndGathers_copy : ∃ ks kd s1 s2, (sO (opOf .copy (dCopy 32 0) 1 0)).asyncKeys (opOf .copy (dCopy 32 0) 1 0) 0x30000 32 needRD = (.ok ks, s1) ∧
    s1.asyncKeys (opOf .copy (dCopy 32 0) 1 0) 0x30FF0 32 needW = (.ok kd, s2) := by
  obtain ⟨ks, s1, h1⟩ := ok_of (p := (sO (opOf .copy (dCopy 32 0) 1 0)).asyncKeys (opOf .copy (dCopy 32 0) 1 0) 0x30000 32 needRD) (by decide)
  obtain ⟨kd, s2, h2⟩ := ok_of (p := ((sO (opOf .copy (dCopy 32 0) 1 0)).asyncKeys (opOf .copy (dCopy 32 0) 1 0) 0x30000 32 needRD).2.asyncKeys (opOf .copy (dCopy 32 0) 1 0) 0x30FF0 32 needW) (by decide)
  rw [h1] at h2
  exact ⟨ks, kd, s1, s2, h1, h2⟩
/-- What the three resolutions of a gather's row come to. -/
def gatherRow (x : Nat) : Bool :=
  let o := opOf .gather (dGather 2) 1 0
  match (withIx o x).asyncKeys o 0x30000 4 needRD with
  | (.ok ki, s1) => leNat (ki.map (Memory.read (withIx o x).mem)) == x && (match s1.asyncKeys o 0x30200 4 needW with
    | (.ok _, s2) => x == 0xFFFFFFFF || okOf (s2.asyncKeys o ((0x30100 + x * 4) % 2 ^ 64) 4 needRD).1
    | _ => false)
  | _ => false
theorem wit_CopiesAndGathers_gather : gatherRow 5 = true ∧ gatherRow 0xFFFFFFFF = true := by decide
def sIn (b : BitVec 16) (l : List Byte) : State := { base with ports := [(5, { inbox := [(1, l)] })], circuits := [(63, { st := 4, port := 5, bind := b })] }
def lCopy : List Byte := List.replicate 8 0 ++ [1] ++ List.replicate 7 0 ++ leBytes 8 0x30000 ++ [4] ++ List.replicate 11 0
theorem wit_CopiesAndGathers_flit : (((sIn 0 lCopy).port 5).inbox = [(1, lCopy)] ∧ ((sIn 0 lCopy).port 5).inFault = none ∧ field lCopy 8 1 % 16 = 1 ∧ (sIn 0 lCopy).entryOf 5 = some 63 ∧
      ((sIn 0 lCopy).ctx? ((sIn 0 lCopy).circuit 63).bind.toNat).isSome = true) ∧
    ∃ ks s1, (sIn 0 lCopy).resolve none (5 / 16 * 4) 0 2 (field lCopy 16 8) 4 needW = (.ok ks, s1) := ⟨by decide, ok_of (by decide)⟩

/-- A message to device 2, and packets from it. -/
def dMsg : List Byte := leBytes 8 0x30000 ++ leBytes 8 (2 + 2 ^ 40 * 4)
def sM (o : AsyncOp) : State := { sO o with fdidValid := true, fdid := 1, circuits := [(63, { st := 4, port := 5, peerdev := 2 })] }
def pk (cls typ : BitVec 4) (tver : BitVec 16) (body : List Byte) : Packet := ⟨typ, cls, 1, 2, 1, tver, 9, 0, body, 0, none⟩
def ackBody (x : Nat) : List Byte := leBytes 2 x ++ List.replicate 30 0
def nackBody (x off fail : Nat) : List Byte := leBytes 2 x ++ leBytes 4 off ++ leBytes 1 fail ++ List.replicate 25 0
theorem wit_Messages : (let o := opOf (.message false) dMsg 2 0; (sM o).async? 7 = some o ∧ o.due ≤ (sM o).now ∧ (sM o).linkTakes 7 (pk 4 4 0 (ackBody 1)) = true ∧ (sM o).delivered (pk 4 4 0 (ackBody 1)) 4 4 = true ∧ leNat ((ackBody 1).drop 2) = 0 ∧
      (sM o).messageOf 2 (field (ackBody 1) 0 2) = some o ∧ (sM o).linkTakes 7 (pk 4 2 0 (nackBody 1 0 0)) = true ∧ (sM o).delivered (pk 4 2 0 (nackBody 1 0 0)) 4 2 = true ∧ leNat ((nackBody 1 0 0).drop 7) = 0 ∧
      (sM o).messageOf 2 (field (nackBody 1 0 0) 0 2) = some o) ∧
    (let o := opOf .copy (dCopy 0x1000 1) 2 225; (sM o).async? 7 = some o ∧ (sM o).linkTakes 7 (pk 4 2 0 (nackBody 7 224 2)) = true ∧ (sM o).delivered (pk 4 2 0 (nackBody 7 224 2)) 4 2 = true ∧
      (sM o).asyncs.find? (fun p => p.kind == .copy && p.stage == 2 && p.id % 65536 == field (nackBody 7 224 2) 0 2 && ((sM o).circuit p.entry).peerdev == (2 : BitVec 16).truncate 12) = some o ∧
      field (nackBody 7 224 2) 6 1 = 2 ∧ field (nackBody 7 224 0) 6 1 = 0 ∧ (sM o).messageOf 2 7 = none ∧ field (nackBody 7 224 0) 2 4 < o.next ∧ 224 ∉ o.resend) := by decide
/-- Device 1 with endpoint 0 of context 0 at 0x30000: four bytes of memory and a barrier object. -/
def sEp (k : Nat) : State := { base with fdidValid := true, fdid := 1, ctxs := base.ctxs.map (fun p => (p.1, { p.2 with ept := 0x30000 })), mem := Memory.writes base.mem (cells 0x30000 (leBytes 4 (2 ^ 31 * k + 2 ^ 30) ++ leBytes 4 0 ++ leBytes 8 0x30100 ++ leBytes 8 0x30200 ++ leBytes 4 4 ++ leBytes 4 0)) }
def epBody : List Byte := leBytes 2 0 ++ [0, 0] ++ leBytes 4 0x12345678
theorem wit_Messages_arrive : (∀ p ∈ [(3, 1), (5, 1)], (sEp 1).delivered (pk p.1 p.2 0 epBody) p.1.toNat p.2.toNat = true ∧ (sEp 1).linkTakes 0 (pk p.1 p.2 0 epBody) = true ∧ msgBodyOk (pk p.1 p.2 0 epBody) = true ∧
    ((sEp 1).received 0 (pk p.1 p.2 0 epBody)).versionOk (pk p.1 p.2 0 epBody) = true ∧
    ((sEp 1).received 0 (pk p.1 p.2 0 epBody)).versionOk (pk p.1 p.2 1 epBody) = false ∧
    (((sEp 1).received 0 (pk p.1 p.2 0 epBody)).applyMessage 0 (pk p.1 p.2 0 epBody)).isSome = true ∧
    ((sEp 0).received 0 (pk p.1 p.2 0 epBody)).applyMessage 0 (pk p.1 p.2 0 epBody) = none) := by decide +kernel
/-- A packet as it crosses a link, with its check sequence and number 1, and the same with a wrong check sequence. -/
def onLink (k : Packet) : Packet := { k with fcs := packetFcs k, lseq := some 1 }
theorem wit_LinkReplay : (sEp 1).linkTakes 0 (onLink (pk 3 1 0 epBody)) = true ∧ (sEp 1).delivered (onLink (pk 3 1 0 epBody)) 3 1 = true ∧
    (sEp 1).linkTakes 0 { onLink (pk 3 1 0 epBody) with fcs := packetFcs (pk 3 1 0 epBody) + 1 } = false ∧
    (sEp 1).linkTakes 0 { onLink (pk 3 1 0 epBody) with lseq := some 2 } = false := by decide +kernel

/-- Descriptors and states of the instance in slot 15. -/
def dX : CollDesc := { dC with prog := 0x30000, status := 0x30000, rmap := 0x30100, lz := 64 }
def xX (st : BitVec 3) : Crux := { xC with st := st, desc := some dX }
def sX (x : Crux) : State := { sC x with circuits := [(0, { st := 4, port := 5, bind := 0xFFFE }), (2, { st := 4, port := 6, bind := 0xFFFE })], ports := [(5, { inbox := [(1, lCru)] })], now := 5000 }
where
  /-- Stream data for slot 15. -/
  lCru : List Byte := List.replicate 8 0 ++ [2] ++ List.replicate 7 0 ++ leBytes 8 15 ++ [4] ++ List.replicate 11 0
def stepOv (i : Instr) (ends : List (Nat × Nat)) : DataStep := ⟨3, 0, i, 0, 1, 1024, 0, 0, 16, 0, none, [2], 16, ends, false, none, 0⟩
/-- Its step has received nothing from rank 0 since the start. -/
def xT : Crux := { xX 2 with outst := [{ stepOv (.recv (fS 1 1 4)) [] with src := some 0, done := 0 }], tmoAt := some 0 }
theorem wit_CrucibleInstances : (∀ st ∈ [1, 2, 3, 4], ((sX (xX st)).cx 15).ctx = some 0 ∧ ((sX (xX st)).cx 15).desc = some dX ∧ ((sX (xX st)).cx 15).st = st ∧ ((sX (xX st)).cx 15).ending = none ∧
      ((sX (xX st)).cx 15).fault = none) ∧ (sX (xX 1)).linksOk (xX 1) dX = true ∧ 0 + (xX 1).ringBytes = 131072 ∧
    (∀ w, w < 32 → tget 0 (xX 4).skip w &&& ~~~tget 0 (xX 4).skipWas w = 0) ∧ xT.tmoAt = some 0 ∧ (∃ e ∈ xT.deadlines dX.tmo, e ≤ (sX xT).now) ∧ ((sX xT).cx 15).ctx = some 0 ∧ ((sX xT).cx 15).desc = some dX ∧ (xX 4).resuming = none ∧
    ((sX (xX 2)).port 5).inbox = [(1, sX.lCru)] ∧ field sX.lCru 8 1 % 16 = 2 ∧ field sX.lCru 16 8 = 15 ∧ (sX (xX 2)).entryOf 5 = some 0 ∧ ((sX (xX 2)).circuit 0).bind = 0xFFFE ∧ (xX 2).rankOf 0 = some 0 := by decide
def xO (i : Instr) (ends : List (Nat × Nat)) (bobj : DWord) : Crux := { xX 2 with outst := [stepOv i ends], bufs := [⟨0x30000, 0, 1, 64, bobj⟩] }
theorem wit_CrucibleInstances_steps : (∀ i ∈ [Instr.send (fS 1 1 4), .recv (fS 1 1 4), .bcast (fS 1 1 4)], ((sX (xO i [] 0)).cx 15).outst.find? (fun v => v.id == 3) = some (stepOv i []) ∧
      ((sX (xO i [] 0)).cx 15).stepDone (sX (xO i [] 0)).now (stepOv i []) = true ∧ ((xO i [] 0).bufs[(stepOv i []).dst]?).isSome = true) ∧ (fS 1 1 4 = fS 1 1 4 ∧ (stepOv (.bcast (fS 1 1 4)) []).writes = false) := by decide
/-- The slot in LOADING with one step, END, in memory. -/
def sL : State := { sX (xX 1) with mem := Memory.writes (sX (xX 1)).mem (cells 0x30000 (leBytes 8 (14 <<< 58))) }
def loadedOk : Bool := match sL.devRead 0 0 0x30000 8 with
  | (.ok l, s1) => okOf (loadSteps dX l) && s1.linksOk (xX 1) dX
  | _ => false
def ranksOk : Bool := match (sX (xX 4)).readRanks 0 15 dX with
  | (.ok l, _) => rmapOk dX.n dX.rank l
  | _ => false
theorem wit_CrucibleInstances_resolutions : (∃ l s1, sL.devRead (15 / 16 * 4) 0 0x30000 (8 * 1) = (.ok l, s1)) ∧ loadedOk = true ∧ okOf (loadSteps dX (leBytes 8 (14 <<< 58))) = true ∧
    (∃ ks s1, (sX (xO (.recv (fS 1 1 4)) [] 0x30000)).resolve none (15 / 16 * 4) 0 2 0x30000 16 needRW = (.ok ks, s1)) ∧ (∃ l s1, (sX (xX 4)).readRanks 0 15 dX = (.ok l, s1)) ∧ ranksOk = true ∧
    (∃ ks s1, ((sX (xX 2)).setCx 15 { xX 2 with st := 5, outs := [], ins := [], outst := [], ending := some (11, 2), fault := none, watch := none, resuming := none }).resolve none (15 / 16 * 4) 0 2 0x30000 8 needW = (.ok ks, s1)) :=
  ⟨ok_of (by decide), by decide, by decide, ok_of (by decide), ok_of (by decide), by decide, ok_of (by decide)⟩

/-! Witnesses: circuits, the packet plane and fabric time -/

/-- Device 1 with one entry, one link in service and its port in some state. -/
def sK (e : Nat) (c : Circuit) (p : Port) : State :=
  { State.reset with now := 600000, fdidValid := true, fdid := 1, circuits := [(e, c)], ports := [(5, p)], links := [(0, { up := true, credits := fullCredits })] }
/-- The body of a control packet of entry 63 between ports 5 of devices 1 and 2. -/
def ctlBody (code : Nat) : List Byte := [63, 0, 15] ++ leBytes 1 code ++ [5, 5, 1, 0] ++ leBytes 8 700000 ++ List.replicate 16 0 ++ leBytes 4 0x02100000 ++ List.replicate 28 0
def ctlK (typ : BitVec 4) (tver : BitVec 16) (code : Nat) : Packet := pk 2 typ tver (ctlBody code)
def cK (st : BitVec 4) : Circuit := { st := st, port := 5, peerdev := 2, peerport := 5, grpmask := 15, route := [0x02100000, 0, 0, 0, 0, 0, 0, 0] }
theorem wit_CircuitRequests_rsv : (ctlK 1 1 0).tver ≠ (sK 63 {} {}).tvercur ∧ ((sK 63 {} {}).ctlFor (ctlK 1 1 0) 1 = true ∧ (sK 63 {} {}).ctlFor (ctlK 1 0 0) 1 = true ∧ (ctlK 1 0 0).tver = (sK 63 {} {}).tvercur ∧ field (ctlBody 0) 5 1 = 5 ∧
      (∀ q ∈ (sK 63 {} {}).circuits, q.2.port.toNat = 5 → q.2.st = 0 ∨ q.2.st = 6) ∧ (List.range 64).find? (fun n => ((sK 63 {} {}).circuit n).st == 0) = some 0 ∧
      ((sK 63 {} {}).port 5).st = 0 ∧ ((sK 63 {} { st := 1 }).port 5).st ≠ 0) := by decide +kernel
theorem wit_CircuitRequests_answers : (sK 63 (cK 1) {}).ctlFor (ctlK 2 0 0) 2 = true ∧ (sK 63 (cK 1) {}).named (ctlK 2 0 0) = some 63 ∧ ((sK 63 (cK 1) {}).circuit 63).st = 1 ∧
    ((sK 63 (cK 1) {}).circuit 63).side = false ∧ (sK 63 (cK 1) {}).ctlFor (ctlK 3 0 2) 3 = true ∧ (sK 63 (cK 1) {}).named (ctlK 3 0 2) = some 63 ∧
    (3 : BitVec 4).toNat < max 1 (cK 1).retrymax.toNat ∧ max 1 (cK 1).retrymax.toNat ≤ (4 : BitVec 4).toNat ∧ (cK 1).sentAt + 500000 ≤ (sK 63 (cK 1) {}).now ∧
    (cK 2).due ≤ (sK 63 (cK 2) {}).now ∧ (cK 2).attempts = 0 ∧ ((sK 63 { cK 2 with attempts := 1 } {}).circuit 63).attempts ≠ 0 := by decide +kernel
theorem wit_CircuitRequests_tear : (∀ st ∈ [1, 3, 4], (sK 63 (cK st) {}).ctlFor (ctlK 4 0 1) 4 = true ∧ (sK 63 (cK st) {}).named (ctlK 4 0 1) = some 63 ∧ ((sK 63 (cK st) {}).circuit 63).st = st ∧
      field (ctlBody 1) 3 1 ≠ 0 ∧ (sK 63 (cK st) {}).ctlFor (ctlK 4 0 0) 4 = true ∧ (sK 63 (cK st) {}).named (ctlK 4 0 0) = some 63 ∧ field (ctlBody 0) 3 1 = 0) ∧
    ((sK 63 (cK 5) {}).ctlFor (ctlK 5 0 0) 5 = true ∧ (sK 63 (cK 5) {}).named (ctlK 5 0 0) = some 63 ∧ (cK 5).freeOnDark = false ∧ (cK 5).tearPending = false ∧ (cK 5).due ≤ (sK 63 (cK 5) {}).now) ∧
    ((cK 3).due ≤ (sK 63 (cK 3) {}).now ∧ (sK 63 (cK 3) {}).elsOk 5 = true ∧ ((sK 63 (cK 3) { down := true }).port 5).down = true ∧ ((sK 63 (cK 3) {}).port 5).down = false ∧
      ((sK 63 (cK 3) {}).port 5).trans = none ∧ ((sK 63 (cK 3) {}).port 5).target = 0 ∧ grpOk (cK 3).grpmask = true ∧
      ({ sK 63 (cK 3) {} with modl := { elsok := 0b1110 } } : State).elsOk 5 = false) := by decide +kernel
theorem wit_CircuitSlots : (let c : Circuit := { cK 4 with slotted := true, slotper := 1000, slotlen := 500, slotbase := 599000 }
      let s : State := { sK 63 c {} with errest := 50 }
      (s.circuit 63).st = 4 ∧ (s.circuit 63).slotted = true ∧ (s.circuit 63).slotper ≠ 0 ∧ (s.circuit 63).slotbase.toNat ≤ s.now ∧ (s.now - (s.circuit 63).slotbase.toNat) % (s.circuit 63).slotper.toNat = 0 ∧
      s.errest.toNat ≤ (s.circuit 63).guard.toNat ∧ (s.circuit 63).guard.toNat < ({ s with errest := 51 } : State).errest.toNat) ∧
    (let c : Circuit := { cK 4 with slotOpen := true, slotper := 1000, slotlen := 450, slotbase := 599600 }; (sK 63 c {}).inSlot c = false ∧ ((sK 63 c {}).circuit 63).slotOpen = true) ∧
    (((sK 63 { cK 4 with window := some 600000 } {}).circuit 63).window = some 600000 ∧ 600000 ≤ (sK 63 {} {}).now) := by decide
def sR (r : Tbl (Bool × BitVec 3)) : State := { sK 63 {} {} with route := r }
def fwdK (hops : BitVec 8) : Packet := { pk 3 1 0 [] with hops := hops, dst := 7 }
theorem wit_PacketPlane : ((sR [(7, (true, 1))]).fdidValid = true ∧ pktShapeOk (fwdK 14) = true ∧ pktReservedOk (fwdK 14) = true ∧ (fwdK 14).hops.toNat ≠ 15 ∧
      (fwdK 14).dst.toNat % 4096 ≠ (sR []).fdid.toNat ∧ (fwdK 14).dst.toNat % 4096 ≠ 0xFFF ∧ ¬ ((fwdK 14).cls = 1 ∧ ((fwdK 14).typ = 2 ∨ (fwdK 14).typ = 3)) ∧
      tfind (sR [(7, (true, 1))]).route 7 = some (true, 1) ∧ (1 : BitVec 3) ≠ 0 ∧ tfind (sR []).route 7 = none) ∧
    (sK 63 (cK 4) {}).delivered (pk 4 1 0 (leBytes 2 1 ++ List.replicate 30 0)) 4 1 = true ∧ newer 1 (sK 63 {} {}).tverseen = true ∧
    (sK 63 (cK 4) {}).delivered (pk 4 3 0 (leBytes 2 2 ++ List.replicate 30 0)) 4 3 = true ∧ tfind (sK 63 (cK 4) {}).circuits 63 = some (cK 4) ∧
    ((sK 63 {} {}).link 0).waiting = [] ∧ ((sK 63 {} {}).link 0).credits.length = 5 ∧ ((sK 63 {} {}).link 7).waiting = [] ∧ (1 ≤ (5 : BitVec 4).toNat) ∧
    (0x80000FFE : Word).toNat % 4096 ≠ 0xFFF ∧ (0x80000FFF : Word).getLsbD 31 = true ∧ (0x80000FFF : Word).toNat % 4096 = 0xFFF := by decide +kernel
theorem wit_FabricTime : (sK 63 {} {}).master = false ∧ ({ sK 63 {} {} with master := true } : State).master = true ∧
    (sK 63 {} {}).delivered (pk 1 1 0 (leBytes 8 600001 ++ List.replicate 24 0)) 1 1 = true ∧ field (leBytes 8 600001 ++ List.replicate 24 0) 14 18 = 0 ∧
    echoOk (pk 1 2 0 (List.replicate 32 0)) 2 = true ∧ echoOk (pk 1 3 0 (List.replicate 32 0)) 3 = true ∧ ((sK 63 {} {}).link 0).up = true ∧
    (({ sK 63 {} {} with links := [(7, { echo := some 580000 })] } : State).link 7).echo = some 580000 ∧ 580000 + 20000 ≤ (sK 63 {} {}).now := by decide +kernel
theorem wit_CircuitRequests_link : (∀ p ∈ [ctlK 1 0 0, ctlK 2 0 0, ctlK 3 0 2, ctlK 4 0 1, ctlK 4 0 0, ctlK 5 0 0], ∀ st ∈ [1, 3, 4, 5], (sK 63 (cK st) {}).linkTakes 7 p = true) ∧
    (sK 63 (cK 3) {}).linkTakes 7 (onLink (ctlK 4 0 0)) = true := by decide +kernel
theorem wit_PacketPlane_link : (sR [(7, (true, 1))]).linkTakes 0 (onLink (fwdK 14)) = true ∧ (1 : BitVec 3) ≠ 0 ∧ tfind (sR [(7, (true, 0))]).route 7 = some (true, 0) ∧
    (sR [(7, (true, 1))]).linkTakes 0 { onLink (fwdK 14) with lseq := some 2 } = false ∧ (fwdK 15).hops.toNat = 15 ∧ (sR []).linkTakes 0 (fwdK 15) = true ∧
    field (leBytes 2 2 ++ List.replicate 30 0 : List Byte) 0 2 < 4096 ∧ (∀ n, n < 8 → ((sK 63 {} {}).link n).waiting = []) := by decide +kernel
theorem wit_FabricTime_more : (sK 63 {} {}).linkTakes 0 (onLink (pk 1 1 0 (leBytes 8 600001 ++ List.replicate 24 0))) = true ∧
    (pk 1 1 0 (leBytes 8 600001 ++ List.replicate 24 0)).body.length = 32 ∧ (sK 63 {} {}).beaconAt + 1000000 > (sK 63 {} {}).now ∧
    ({ sK 63 {} {} with now := 1000000 } : State).beaconAt + 1000000 ≤ 1000000 ∧ ((sK 63 {} {}).link 0).waiting = [] ∧ ((sK 63 {} {}).link 0).unacked.length < 64 ∧
    1 ≤ ((sK 63 {} {}).link 0).credits.getD 0 0 ∧ (sK 63 {} {}).linkTakes 0 (pk 1 2 0 (List.replicate 32 0)) = true := by decide +kernel

/-! Witnesses: the host port -/

/-- Record `l` waits alone on stream 0 of a machine with context 0 on queue 5. -/
def rec_ (opc : BitVec 8) (ctx : Nat) (ws : List Nat) : List Byte :=
  [opc, 1] ++ leBytes 2 (16 + 8 * ws.length) ++ leBytes 2 ctx ++ [0, 0] ++ leBytes 8 0x77 ++ ws.flatMap (leBytes 8)
def cmdOn (s : State) (l : List Byte) : State := { s with streams := [(0, { open_ := true, lastSeq := 1, buffer := [(1, l)] })], queues := [(5, { ctx := some 0 })] }
def sCmd (l : List Byte) : State := cmdOn base l
theorem command_of {i : Instr} {s : State} {st : BitVec 10} {seq : Word} {l : List Byte}
    (h : (s.stream st.toNat).buffer = [(seq, l)] ∧ holdsBack (s.stream st.toNat) = false ∧ recBadCmd st.toNat l = false ∧ cmdEvent st l = i ∧ s.recStatus st.toNat l = none ∧
      (s.stream st.toNat).open_ = true ∧ (s.stream st.toNat).unacked.length < 64) : Command i s st seq l :=
  ⟨h.1, h.2.1, h.2.2.1, h.2.2.2.1, h.2.2.2.2.1, h.2.2.2.2.2.1, h.2.2.2.2.2.2⟩
def lLaunch (q a : Nat) : List Byte := rec_ 1 0 [q, a]
def sFullQ : State := let s := sCmd (lLaunch 5 0x100); s.setHq 5 { s.hq 5 with ptrs := List.replicate 256 0 }
theorem wit_CommandsOfWork_launch : (Command (.launchCmd 0) (sCmd (lLaunch 5 0x100)) 0 1 (lLaunch 5 0x100) ∧ ((sCmd (lLaunch 5 0x100)).hq 5).ctx = some 0 ∧ ((sCmd (lLaunch 5 0x100)).hq 5).ptrs.length < 256) ∧
    (Command (.launchCmd 0) sFullQ 0 1 (lLaunch 5 0x100) ∧ (sFullQ.hq 5).ctx = some 0 ∧ 256 ≤ (sFullQ.hq 5).ptrs.length) ∧
    (Command (.launchCmd 0) (sCmd (lLaunch 63 0x101)) 0 1 (lLaunch 63 0x101) ∧ ((sCmd (lLaunch 63 0x101)).hq 63).ctx ≠ some 0 ∧ (BitVec.ofNat 64 (recWord (lLaunch 63 0x101) 0x18) : DWord).toNat % 256 ≠ 0) :=
  ⟨⟨command_of (by decide +kernel), by decide +kernel⟩, ⟨command_of (by decide +kernel), by decide +kernel⟩, ⟨command_of (by decide +kernel), by decide +kernel⟩⟩
def lWrite (a op : Nat) : List Byte := rec_ 2 0 [a, 7, op]
def lWait (a v tmo : Nat) : List Byte := rec_ 3 0 [a, v, tmo]
theorem wit_CommandsOfWork_events : (Command (.eventWrite 0) (sCmd (lWrite 0x30004 0)) 0 1 (lWrite 0x30004 0) ∧ recWord (lWrite 0x30004 0) 0x10 % 8 ≠ 0) ∧
    (Command (.eventWrite 0) (sCmd (lWrite 0x30000 1)) 0 1 (lWrite 0x30000 1) ∧ recWord (lWrite 0x30000 1) 0x10 % 8 = 0 ∧
      ∃ ks s1, (taken (sCmd (lWrite 0x30000 1)) 0 1).resolve none 0 0 2 0x30000 8 needRW = (.ok ks, s1)) ∧
    (Command (.eventWait 0) (sCmd (lWait 0x30004 0 1)) 0 1 (lWait 0x30004 0 1) ∧ recWord (lWait 0x30004 0 1) 0x10 % 8 ≠ 0) ∧
    (Command (.eventWait 0) (sCmd (lWait 0x30000 0 1)) 0 1 (lWait 0x30000 0 1) ∧ recWord (lWait 0x30000 0 1) 0x10 % 8 = 0 ∧ recWord (lWait 0x30000 0 1) 0x18 = 0 ∧
      ∃ ks s1, ((taken (sCmd (lWait 0x30000 0 1)) 0 1).after (1000 * 1) (.eventWaitTimeout 0)).resolve none 0 0 2 0x30000 8 needRD = (.ok ks, s1)) :=
  ⟨⟨command_of (by decide +kernel), by decide +kernel⟩, ⟨command_of (by decide +kernel), by decide +kernel, ok_of (by decide +kernel)⟩, ⟨command_of (by decide +kernel), by decide +kernel⟩,
    ⟨command_of (by decide +kernel), by decide +kernel, by decide +kernel, ok_of (by decide +kernel)⟩⟩
/-- A command that runs already. -/
def running (l : List Byte) (w : CmdWait) : State := { base with now := 1000, streams := [(0, { open_ := true, running := [⟨1, l, some 0, w⟩] })] }
theorem wit_CommandsOfWork_waits : (let l := lWait 0x30000 1 1
      let r : Cmd := ⟨1, l, some 0, .event none (some 1000) 3⟩
      let s := running l r.wait
      (s.stream 0).running = [r] ∧ (s.stream 0).open_ = true ∧ (s.stream 0).buffer = [] ∧ (s.stream 0).unacked.length < 64 ∧ 16 ≤ r.data.length ∧ 1000 ≤ s.now ∧ recWord l 0x18 = 1 ∧
      (match s.resolve none 0 0 2 0x30000 8 needRD with | (.ok ks, _) => leNat (ks.map (Memory.read s.mem)) | _ => 9) = 0) ∧ recWord (lWait 0x30000 0 1) 0x18 = 0 ∧
    ((sC xC).cx 15).backUntil ≤ (sC xC).now := by decide +kernel
def lScript (start th : Nat) : List Byte := rec_ 4 0xFFFF [start, th, 1, 2, 3, 4]
theorem wit_CommandsOfWork_script : (Command (.scriptStart 0) (sCmd (lScript 0x100 15)) 0 1 (lScript 0x100 15) ∧ recWord (lScript 0x100 15) 0x18 = 15 ∧ (sCmd (lScript 0x100 15)).switching 3 = false ∧
      (sCmd (lScript 0x100 15)).freeThread 15 0x100 = some 0) ∧
    (Command (.scriptStart 0) (sCmd (lScript 0x40000 3)) 0 1 (lScript 0x40000 3) ∧ recWord (lScript 0x40000 3) 0x18 < 4 ∧ (sCmd (lScript 0x40000 3)).freeThread 3 0x40000 = none) :=
  ⟨⟨command_of (by decide +kernel), by decide +kernel⟩, ⟨command_of (by decide +kernel), by decide +kernel⟩⟩
/-- A descriptor of slot 15 for ranks 0 and 1 at 0x30000, with its tables after it. -/
def descBytes : List Byte := leBytes 8 0x30100 ++ leBytes 8 (2 <<< 48 + 15 <<< 16 + 1) ++ leBytes 8 0x30200 ++ leBytes 8 0x30300 ++ leBytes 8 (5 <<< 32 + 64 <<< 16 + 1) ++ List.replicate 88 0
def sColl : State :=
  let s := sCmd (rec_ 5 0 [0x30000])
  { s with mem := Memory.writes (Memory.writes s.mem (cells 0x30000 descBytes)) (cells 0x30300 (leBytes 8 0x30000 ++ leBytes 8 (64 + 1 <<< 32))) }
/-- Whether every premise of a start holds. -/
def collOk : Bool :=
  match ((taken sColl 0 1).cmdWaits 0 1 (rec_ 5 0 [0x30000]) .coll).devRead 0 0 0x30000 128 with
  | (.ok dl, s1) => dl == descBytes && (match (s1.readTables 0 15 (readDesc 0x30000 dl)).1 with | .ok _ _ _ => true | _ => false)
  | _ => false
theorem wit_CommandsOfWork_coll : Command (.collStart 0) sColl 0 1 (rec_ 5 0 [0x30000]) ∧ (recWord (rec_ 5 0 [0x30000]) 0x10 = 0x30000 ∧ descOk descBytes = true ∧ (readDesc 0x30000 descBytes).slot = 15 ∧ (sColl.cx 15).st = 0 ∧
    sColl.switching 4 = false) ∧ collOk = true := ⟨command_of (by decide +kernel), by decide +kernel, by decide +kernel⟩
theorem wit_CommandsOfWork_fence : (Command (.fenceCmd 0) (sCmd (rec_ 6 0 [])) 0 1 (rec_ 6 0 []) ∧ ((sCmd (rec_ 6 0 [])).stream 0).running = [] ∧ ((sCmd (rec_ 6 0 [])).stream 0).held = []) ∧
    (let s := (sCmd (rec_ 6 0 [])).setStream 0 { open_ := true, lastSeq := 2, buffer := [(2, rec_ 6 0 [])], running := [⟨1, lScript 0x100 15, none, .script 0⟩] }
    Command (.fenceCmd 0) s 0 2 (rec_ 6 0 []) ∧ ∃ r ∈ (s.stream 0).running, r.seq ≠ 2) :=
  ⟨⟨command_of (by decide +kernel), by decide +kernel⟩, ⟨command_of (by decide +kernel), by decide +kernel⟩⟩

def lRes (x id act : Nat) : List Byte := rec_ 7 x [id, act, 0, 0]
def pendOf (w : Waiter) : Pending := ⟨⟨3, 1, 0, 0, 3, 0, 0, 0⟩, 0, w, true⟩
def sPend (w : Waiter) (l : List Byte) : State := { sCmd l with pend := [pendOf w], gaffer := [(2, { st := 2, wait := .access 3 })] }
theorem wit_CommandsOfContexts_resolve : (Command (.resolve 0) (sCmd (lRes 0 9 0)) 0 1 (lRes 0 9 0) ∧ (sCmd (lRes 0 9 0)).pending? 0 9 = none ∧ recWord (lRes 0 9 0) 0x20 = 0 ∧ recWord (lRes 0 9 0) 0x28 = 0) ∧
    (Command (.resolve 0) (sPend (.gaffer 2) (lRes 0 3 0)) 0 1 (lRes 0 3 0) ∧ (sPend (.gaffer 2) (lRes 0 3 0)).pending? 0 3 = some (pendOf (.gaffer 2)) ∧ recWord (lRes 0 3 0) 0x18 = 0) ∧
    (Command (.resolve 0) (sPend .rdma (lRes 0 3 1)) 0 1 (lRes 0 3 1) ∧ (sPend .rdma (lRes 0 3 1)).pending? 0 3 = some (pendOf .rdma)) :=
  ⟨⟨command_of (by decide +kernel), by decide +kernel⟩, ⟨command_of (by decide +kernel), by decide +kernel⟩, ⟨command_of (by decide +kernel), by decide +kernel⟩⟩
def lShoot (act len b : Nat) : List Byte := rec_ 7 0 [0, act, len, b]
theorem wit_CommandsOfContexts_shootdown : (Command (.shootdown 0) (sCmd (lShoot 0 0 0)) 0 1 (lShoot 0 0 0) ∧ recWord (lShoot 0 0 0) 0x20 = 0) ∧
    (Command (.shootdown 0) (sCmd (lShoot 0 0x10000 0x30000)) 0 1 (lShoot 0 0x10000 0x30000) ∧
      ¬ (recWord (lShoot 0 0x10000 0x30000) 0x18 ≠ 0 ∨ recWord (lShoot 0 0x10000 0x30000) 0x20 = 0 ∨ recWord (lShoot 0 0x10000 0x30000) 0x20 % 65536 ≠ 0 ∨ recWord (lShoot 0 0x10000 0x30000) 0x28 % 65536 ≠ 0)) :=
  ⟨⟨command_of (by decide +kernel), by decide +kernel⟩, ⟨command_of (by decide +kernel), by decide +kernel⟩⟩
/-- CONTEXT-CREATE of context 255 with queue 63, stream 1023 and one window. -/
def lCreate (x root : Nat) : List Byte := rec_ 8 x [root, 0, 0x10000, 0, 16, 0, 2 ^ 63, 0, 1023 <<< 32 + 1 <<< 10, 1, 0, 0x10000, 3]
theorem wit_CommandsOfContexts_contexts : (Command (.contextCreate 0) (sCmd (lCreate 255 1)) 0 1 (lCreate 255 1) ∧ createBad (lCreate 255 1) = true) ∧
    (Command (.contextCreate 0) (sCmd (lCreate 0 0x20000)) 0 1 (lCreate 0 0x20000) ∧ createBad (lCreate 0 0x20000) = false ∧ (sCmd (lCreate 0 0x20000)).createRefused (lCreate 0 0x20000) = true) ∧
    (Command (.contextCreate 0) (sCmd (lCreate 255 0x20000)) 0 1 (lCreate 255 0x20000) ∧ createBad (lCreate 255 0x20000) = false ∧ (sCmd (lCreate 255 0x20000)).createRefused (lCreate 255 0x20000) = false) ∧
    Command (.contextReset 0) (sCmd (rec_ 9 0 [])) 0 1 (rec_ 9 0 []) ∧ Command (.contextDestroy 0) (sCmd (rec_ 10 0 [])) 0 1 (rec_ 10 0 []) :=
  ⟨⟨command_of (by decide +kernel), by decide +kernel⟩, ⟨command_of (by decide +kernel), by decide +kernel⟩, ⟨command_of (by decide +kernel), by decide +kernel⟩,
    command_of (by decide +kernel), command_of (by decide +kernel)⟩
def lQuery (item ix : Nat) : List Byte := rec_ 11 0 [item, ix, 0, 0, 0, 0]
theorem wit_CommandsOfContexts_queries : (Command (.query 0) (sCmd (lQuery 6 1)) 0 1 (lQuery 6 1) ∧ ((taken (sCmd (lQuery 6 1)) 0 1).queryData 6 1 0 (((lQuery 6 1).drop 0x20).take 32)).1 = none) ∧
    (Command (.query 0) (sCmd (lQuery 12 0)) 0 1 (lQuery 12 0) ∧ (((taken (sCmd (lQuery 12 0)) 0 1).queryData 12 0 0 (((lQuery 12 0).drop 0x20).take 32)).1.map List.length) = some 16384 ∧
      ((sCmd (lQuery 12 0)).stream 0).unacked = [] ∧ ((sCmd (lQuery 12 0)).stream 0).held = []) ∧
    (Command (.resync 0) (sCmd (rec_ 12 0 [])) 0 1 (rec_ 12 0 []) ∧ ((sCmd (rec_ 12 0 [])).stream 0).unacked = [] ∧ ((sCmd (rec_ 12 0 [])).stream 0).held = []) :=
  ⟨⟨command_of (by decide +kernel), by decide +kernel⟩, ⟨command_of (by decide +kernel), by decide +kernel⟩, ⟨command_of (by decide +kernel), by decide +kernel⟩⟩

/-! Witnesses: the transport, device memory and management -/

def hp (typ : BitVec 4) (seq ack : Word) : HostPacket := ⟨1, typ, 0, 0, seq, ack, rec_ 6 0 []⟩
def sStr (c : CmdStream) : State := { base with now := 100000, streams := [(0, { c with open_ := true })] }
theorem wit_HostTransport : (sStr {}).hostUp = true ∧ packetOk (hp 1 1 0) 1 = true ∧ (({ base with streams := [] } : State).stream 0).open_ = false ∧ (({ base with streams := [] } : State).stream 0).stalled = false ∧ ({ base with streams := [] } : State).hostUp = true ∧
    ((sStr {}).stream 0).stalled = false ∧ (hp 1 1 0).seq = ((sStr {}).stream 0).lastSeq + 1 ∧ ((sStr {}).stream 0).buffer.length < 64 ∧ (sStr {}).mgmt.minimal = false ∧
    (∀ p ∈ [((1 : Word), (hp 1 1 0).payload)], recBadCmd 0 p.2 = false) ∧ (hp 1 2 0).seq ≠ ((sStr {}).stream 0).lastSeq + 1 ∧ 64 ≤ ((sStr { buffer := List.replicate 64 (1, []) }).stream 0).buffer.length ∧
    (let s := sStr { cplSeq := 2 }; packetOk (hp 2 0 2) 2 = true ∧ (s.stream 0).held = [] ∧ (s.stream 0).buffer = [] ∧ later 2 (s.stream 0).ackedSeq = true ∧ later 2 (s.stream 0).cplSeq = false ∧
      later 3 (s.stream 0).cplSeq = true ∧ later 0 (s.stream 0).ackedSeq = false) ∧
    (let s := sStr { unacked := [(hp 3 1 0, 0, 16)] }; (s.stream 0).stalled = false ∧ ∃ p ∈ (s.stream 0).unacked, p.2.1 + 100000 ≤ s.now ∧ 16 ≤ p.2.2) ∧
    (let s := sStr { unacked := [(hp 3 1 0, 0, 15)] }; (∃ p ∈ (s.stream 0).unacked, p.2.1 + 100000 ≤ s.now) ∧ ∀ p ∈ (s.stream 0).unacked, p.2.1 + 100000 ≤ s.now → p.2.2 < 16) := by decide +kernel
/-- A queue pair that expects packet 7. -/
def qpA : Qp := ⟨leBytes 8 (1 <<< 16) ++ List.replicate 32 (0 : Byte) ++ leBytes 8 (1 <<< 32), 7, 9⟩
def sWin (ws : Tbl Window) : State := { base with mgmt := { base.mgmt with qps := [(63, qpA)] }, windows := ws }
def win (acc : BitVec 2) : Window := ⟨7, some 0, 0x30000, 0x10000, acc⟩
/-- The queue pair of `s` expects the packet after an operation of `n` bytes. -/
def afterQp (s : State) (n : Nat) : State :=
  { s with mgmt := { s.mgmt with qps := tset s.mgmt.qps 63 { qpA with epsn := qpA.epsn + BitVec.ofNat 24 (qpA.packets n) } } }
theorem wit_HostTransport_numbers : tfind (sWin []).mgmt.qps 63 = some qpA ∧ (7 : BitVec 24) = qpA.epsn ∧ (8 : BitVec 24) ≠ qpA.epsn ∧ ((8 : BitVec 24) - qpA.epsn).toNat < 2 ^ 23 ∧
    2 ^ 23 ≤ ((6 : BitVec 24) - qpA.epsn).toNat := by decide
theorem wit_HostTransport_windows : ((tfind (sWin []).mgmt.qps 63).isSome = true ∧ (sWin []).windowOf 7 = none) ∧ ((sWin [(1, win 3)]).windowOf 7 = some (win 3) ∧ (win 3).len < 0xFFFF + 2 ∧
      (win 1).access.getLsbD 1 = false ∧ (win 2).access.getLsbD 0 = false) ∧ (∃ ks s1, (afterQp (sWin [(1, win 3)]) 1).rdmaKeys 63 7 0xFFFF 1 true = (.ok ks, s1)) ∧
    (∃ ks s1, (afterQp (sWin [(1, win 1)]) 1).rdmaKeys 63 7 0xFFFF 1 false = (.ok ks, s1)) := ⟨by decide, by decide, ok_of (by decide), ok_of (by decide)⟩
def rq (n : Nat) (l : List Byte) : MgmtReq := ⟨5, false, n, l⟩
def qpBytes : List Byte := leBytes 8 (1 <<< 16) ++ List.replicate 32 (0 : Byte) ++ leBytes 8 (1 <<< 32)
theorem wit_ManagementRequests : base.manager = true ∧ base.mgmt.inbox = [] ∧ (∀ n ∈ [0, 1, 4, 48], reqOk (rq n (List.replicate n 0)) n = true ∧ reqOk (rq (n + 1) (List.replicate n 0)) n = false) ∧
    (2 ≤ field [2] 0 1 ∧ field [2] 0 1 ≤ 8 ∧ field [8] 0 1 ≤ 8 ∧ field [1] 0 1 < 2 ∧ 8 < field [9] 0 1) ∧ (31 ∈ units ∧ (rq 2 [31, 0]).len = (rq 2 [31, 0]).payload.length ∧ base.switching 31 = false ∧ 32 ∉ units) ∧
    ({ base with mgmt := { base.mgmt with pendingSwitch := [⟨31, 9, 5⟩] } } : State).switching 31 = true ∧
    (field [31] 0 1 = 31 ∧ ((sP { st := 2 }).port 31).st = 2 ∧ ((sP { st := 2 }).port 31).trans = none ∧ ((sP {}).port 31).st ≠ 2 ∧ ((sP { st := 2, trans := some (4, 0) }).port 31).trans ≠ none ∧ 32 ≤ field [32] 0 1 ∧
      (sP {}).manager = true) ∧ qpBytes.length = 48 ∧ qpOk qpBytes = true ∧ qpOk (List.replicate 48 0) = false ∧ tfind base.mgmt.qps 0 = none ∧ (tfind (sWin []).mgmt.qps 63).isSome = true ∧
    field [63] 0 1 = 63 ∧ 64 ≤ field [64] 0 1 ∧ (let s : State := { base with mgmt := { base.mgmt with log := [⟨3, 1, 0, 0, 0⟩] } }
      (∃ e ∈ s.mgmt.log, e.index = BitVec.ofNat 32 (field (leBytes 4 3) 0 4)) ∧ ∀ e ∈ s.mgmt.log, e.index ≠ BitVec.ofNat 32 (field (leBytes 4 4) 0 4)) := by decide +kernel
def sFw (unit due : Nat) : State := { State.reset with now := 10, mgmt := { State.reset.mgmt with pendingSwitch := [⟨unit, due, 5⟩] } }
def fr (b : FrameBody) (port : BitVec 16) : Frame := ⟨9216, 1, true, false, true, port, b⟩
theorem wit_FirmwareAndFrames : (reqOk (rq 1 [31]) 1 = true ∧ 31 ∈ units ∧ State.reset.manager = true ∧ State.reset.mgmt.inbox = [] ∧ State.reset.switching 31 = false ∧ (sFw 31 10).switching 31 = true) ∧
    (∀ u ∈ [3, 4, 5, 31], (sFw u 10).mgmt.pendingSwitch.find? (fun q => q.unit == u) = some ⟨u, 10, 5⟩ ∧ (sFw u 10).quiescent u = true ∧
      (sFw u 10).mgmt.pendingSwitch.find? (fun q => q.unit == u && decide (q.due ≤ (sFw u 10).now)) = some ⟨u, 10, 5⟩) ∧
    (reqOk (rq 8 (leBytes 8 1)) 8 = true ∧ field (rq 8 (leBytes 8 1)).payload 0 8 = 1 ∧ (bootOf none).fail = none ∧ State.reset.mgmt.failed < 3) ∧ State.reset.hostUp = true ∧
    frameOk ⟨9217, 0, true, false, true, 0, .neighbour 0 0⟩ = false ∧ frameOk (fr (.yct (hp 1 1 0)) 47360) = true ∧ frameOk (fr (.mgmt 0 1 (rq 0 [])) 47362) = true ∧
    frameOk (fr (.rdmaWrite 0x13F 0 0 0 []) 4791) = true ∧ frameOk (fr (.rdmaRead 0x13F 0 0 0 5) 4791) = true ∧ qpOf 0x13F = some 63 ∧ qpOf 0x140 = none := by decide
theorem wit_FirmwareAndFrames_neighbours : frameOk (fr (.neighbour 0 Config.hostIp) 0) = true ∧ (fr (.neighbour 0 Config.hostIp) 0).body = .neighbour 0 Config.hostIp ∧
    frameOk (fr (.neighbour 0 (Config.hostIp + 1)) 0) = true ∧ Config.hostIp + 1 ≠ Config.hostIp ∧ State.reset.switching 0 = false := ⟨rfl, rfl, rfl, by simp, by decide⟩
theorem wit_FirmwareAndFrames_nothingHeld : ∀ u ∈ [3, 4, 5, 31], (sFw u 10).mgmt.inbox = [] ∧ (∀ c ∈ (sFw u 10).ctxs, c.2.pmst ≠ 3) ∧ (∀ q ∈ (sFw u 10).queues, q.2.placing = []) ∧
    ∀ w ∈ (sFw u 10).allWaves, ∀ d, w.2.decl = some d → d.told = true := by
  intro u m
  have h : ((sFw u 10).allWaves.all (fun w => match w.2.decl with | some d => d.told | none => true)) = true := by
    revert m; revert u; decide
  refine ⟨by clear h; revert u; decide, by clear h; revert u; decide, by clear h; revert u; decide, fun w n d e => ?_⟩
  have := List.all_eq_true.mp h w n
  rw [e] at this
  exact this
theorem wit_FirmwareAndFrames_refused : reqOk (rq 2 [31]) 1 = false ∧ 32 ∉ units := by decide
theorem wit_FirmwareAndFrames_held : ∀ st, ∀ r ∈ ((sFw 3 10).stream st).running, r.wait ≠ .firmware := by
  intro st r h
  have e : (sFw 3 10).stream st = if 0 = st then { open_ := true } else {} := by
    simp only [State.stream, tget, tfind, sFw, State.reset]
    by_cases x : 0 = st <;> simp [x]
  rw [e] at h
  split at h <;> simp at h

/-! Witnesses: the dispatchers -/

def lrec1 : LaunchRec := { placedRun.lrec with deps := [(0x30000, 0)], act := 3, pstrm := 0, caddr := 0x30000 }
def hd1 (met : Bool) : Head := ⟨lrec1, [met], [none], [0], 0⟩
def sQ (h : Queue) : State := { base with queues := [(63, { h with ctx := some 0, ptrs := [0x30000] })], dies := [(1, { evq := [.inl (63, 0)] })] }
theorem wit_Launches_heads : ((sQ { head := some (hd1 true) }).hq 63).ctx = some 0 ∧ ((sQ {}).hq 63).ptrs = [0x30000] ∧ (sQ {}).ctx? 0 = some placedCtx ∧ ((sQ {}).hq 63).fault = none ∧
    ((sQ { head := some (hd1 true) }).hq 63).head = some (hd1 true) ∧ (hd1 true).met.all id = true ∧ (hd1 true).lrec.wakegate = false ∧ placedCtx.pmst = 0 ∧ (hd1 false).met.all id = false ∧
    (hd1 false).met.getD 0 true = false ∧ ((hd1 false).lrec.deps.getD 0 (0, 0)).1 ≠ 0 ∧ ((hd1 false).lrec.deps.getD 0 (0, 0)).2.toNat ≤ 0 ∧ ((sQ {}).die 1).evq = [.inl (63, 0)] := by decide
theorem wit_Launches_resolutions : (∃ l s1, (sQ {}).devRead (dispUnit (63 / 32)) 0 0x30000 256 = (.ok l, s1)) ∧ (hasTable (List.replicate 256 0) = false ∧ (recCode placedCtx (List.replicate 256 0) []).isSome = true ∧
      (match (sQ {}).devRead (dispUnit (63 / 32)) 0 0x30000 256 with | (.ok l, _) => decide (l = List.replicate 256 0) | _ => false) = true) ∧
    (∃ ks s1, (sQ { head := some (hd1 false) }).resolve none (dispUnit (63 / 32)) 0 2 0x30000 8 needRD = (.ok ks, s1)) ∧
    (sQ {}).caddrFault 63 = false ∧
    (∃ ks s1, ((sQ { head := some (hd1 false) }).setDie 1 (({ evq := [] } : Die).enqueue [])).resolve none (dispUnit (63 / 32)) 0 2 0x30000 8 needRD = (.ok ks, s1)) :=
  ⟨ok_of (by decide +kernel), by decide +kernel, ok_of (by decide +kernel), by decide, ok_of (by decide +kernel)⟩
def runN (id act : Nat) : Run := { placedRun with id := id, lrec := { lrec1 with act := act } }
def sRun (l : List Run) : State := { base with runs := l, dies := [(1, { evq := [.inr 9] })] }
theorem wit_Launches_completion : ((sRun [runN 8 3, runN 9 3]).die 1).evq = [.inr 9] ∧ (sRun [runN 8 3, runN 9 3]).run? 9 = some (runN 9 3) ∧ (runN 9 3).id = 9 ∧ (∃ p ∈ (sRun [runN 8 3, runN 9 3]).runs, p.queue = 0 ∧ p.id < 9) ∧
    (∀ a ∈ [2, 3], (sRun [runN 9 a]).run? 9 = some (runN 9 a) ∧ (∀ p ∈ (sRun [runN 9 a]).runs, p.queue = 0 → 9 ≤ p.id ∧ p.acting ≠ some 0) ∧ bit a 1 = true ∧ ((sRun [runN 9 a]).stream 0).unacked.length < 64) ∧
    bit (runN 9 2).lrec.act 0 = false ∧ bit (runN 9 3).lrec.act 0 = true := by decide
theorem wit_Launches_add : ∃ ks s1, ((sRun [runN 9 3]).setDie 1 (({ evq := [] } : Die).enqueue [])).resolve none (dispUnit (0 / 32)) 0 2 0x30000 8 needRW = (.ok ks, s1) := ok_of (by decide +kernel)
/-- A launch of one block to be placed, beside the resident one. -/
def runP : Run := { placedRun with id := 9, queue := 63, blocks := [.unplaced], lrec := { placedRun.lrec with wpb := 2 } }
def sPl : State := { (base.setCore 191 { scr := 1 }) with runs := [placedRun, runP], queues := [(63, { ctx := some 0, placing := [9] })] }
/-- The plan of its only unit. -/
def planP : Option (List Plan) := (runP.nextUnit).bind (fun u => sPl.planUnit runP u.1 u.2.1 u.2.2 false)
theorem wit_Placement : sPl.switching (1 + 63 / 32) = false ∧ (sPl.hq 63).asked = [] ∧ (∀ d, d < 2 → sPl.switching (1 + d) = false) ∧ (sPl.hq 63).placing = [9] ∧ sPl.run? 9 = some runP ∧ (∃ c, sPl.ctx? runP.ctx = some c ∧ c.pmst = 0) ∧ (runP.nextUnit).isSome = true ∧ runP.lrec.groupLevel = none ∧
    (planP.map List.length) = some 1 ∧ (∀ l, planP = some l → ∀ p ∈ l, (sPl.rouseAll 63 (dedup [clusterOf p.core])).1 = true ∧ runP.lrec.wpb ≤ (sPl.freeWslots p.core).length) := by
  refine ⟨by decide +kernel, by decide +kernel, by decide +kernel, by decide +kernel, by decide +kernel, ⟨placedCtx, by decide +kernel⟩, by decide +kernel, by decide +kernel, by decide +kernel, ?_⟩
  have h : (planP.all (fun l => l.all (fun p => (sPl.rouseAll 63 (dedup [clusterOf p.core])).1 && decide (runP.lrec.wpb ≤ (sPl.freeWslots p.core).length)))) = true := by decide +kernel
  intro l e p m
  rw [e] at h
  simpa using List.all_eq_true.mp h p m
def sCarve : State := base.setCore 191 { pend := true, tgt := 8, scr := 0 }
def runPh : Run := { placedRun with lrec := { placedRun.lrec with phases := [(0x40100, 2)] }, parked := [(0, 0)] }
theorem wit_PlacementAndPhases : ((sCarve.core 191).pend = true ∧ (sCarve.core 191).blocks.all (fun b => decide (b.2.sbase + b.2.scrq ≤ (sCarve.core 191).tgt * 32 || b.2.scrq = 0) && decide (b.2.l1floor + (sCarve.core 191).tgt ≤ 8)) = true ∧
      (sCarve.core 191).wcb = [] ∧ (sCarve.core 191).nextTgt = none) ∧
    (let s : State := { base with runs := [runPh] }; s.run? 0 = some runPh ∧ tfind runPh.parked 0 = some 0 ∧ (∃ c, s.ctx? 0 = some c ∧ c.pmst = 0) ∧ runPh.lrec.phases.getD 0 (0, 2) = (0x40100, 2) ∧
      runPh.leadOk 2 0 (0 + 1) = true ∧ runPh.blocks[0]? = some (.on 0 0) ∧ (∀ b ∈ runPh.blocks, b = .on 0 0) ∧ (s.core 0).wcb = [] ∧ 0 ∈ s.blockWaves 0 0 ∧ (s.wave? ⟨0, 0⟩).isSome = true) :=
  ⟨by decide, by decide, by decide, ⟨placedCtx, by decide⟩, by decide, by decide, by decide, by decide, by decide, by decide, by decide⟩
theorem wit_ReserveAndGating : (let s : State := { State.reset with now := 20000, dies := [(1, { min := 7, cur := 8, wzero := some 0 })] }; (s.die 1).wzero = some 0 ∧ 0 + 20000 ≤ s.now ∧ (s.die 1).min.toNat < (s.die 1).cur) ∧
    (let s : State := { State.reset with now := 10000 }; (s.die (15 / 8)).gateen = true ∧ s.idleLong 15 = true ∧ (s.cluster 15).gated = false ∧ (s.cluster 15).gateStart = none ∧ (s.cluster 15).calibrating = false ∧
      (s.cluster 15).wakeAt = none ∧ s.calDue 15 = false) ∧
    (let s : State := ({ State.reset with now := 20 } : State).setCluster 15 { gateStart := some 0, wanted := [63] }; (s.cluster 15).gateStart = some 0 ∧ 0 + 20 ≤ s.now ∧ (s.cluster 15).wanted ≠ []) ∧
    (let s : State := ({ State.reset with now := 300 } : State).setCluster 15 { gated := true, wakeAt := some 300 }; (s.cluster 15).wakeAt = some 300 ∧ 300 ≤ s.now) ∧
    (bits 0x6060 15 8 = 96 ∧ bits 0x6060 7 0 = 96) ∧ bits 0x0001 15 8 < bits 0x0001 7 0 ∧ 96 < bits 0x6100 15 8 ∧
    (let s : State := { State.reset with mgmt := { State.reset.mgmt with mbwake := 5 } }; s.mgmt.mbwake ≠ 0 ∧ s.modl.on = true ∧ s.mgmt.bootStep ≠ 0 ∧ s.switching 0 = false) := by decide

/-! Witnesses: wakes, handlers and pre-emption -/

def slp (woken refused : Bool) (lines : List Nat) : Sleep := { since := 0, lines := lines, woken := woken, refused := refused }
def wSl (sl : Sleep) (n : Nat) : Wave := { w0 with frags := [{ f0 with st := .sleeping, sleep := some sl, refusals := n }] }
def sSl (w : Wave) : State := { sc w with now := 100000000 }
theorem wit_Wakes : (let w := wSl (slp true false [5]) 0; (sSl w).wave? r0 = some w ∧ (w.frag? 0).isSome = true ∧ (sSl w).heldBack r0 0 = false) ∧
    (let w := wSl (slp false true [5]) 3; (sSl w).wave? r0 = some w ∧ 0 + watchBackoff (3 - 1) ≤ (sSl w).now) ∧ (let w := wSl (slp false false []) 0; (sSl w).wave? r0 = some w ∧ 0 + 64000 ≤ (sSl w).now) := by decide
def wWt : Wave := { w0 with frags := [{ f0 with waitSince := some 0 }] }
theorem wit_Watchdog : (sSl wWt).wave? r0 = some wWt ∧ (wWt.frag? 0).isSome = true ∧ ((sSl wWt).die 0).wden = true ∧ 0 + 1000 * max 1 ((sSl wWt).die 0).wdt.toNat ≤ (sSl wWt).now ∧
    ({ sSl wWt with now := 99999999 } : State).now < 0 + 1000 * max 1 ((sSl wWt).die 0).wdt.toNat ∧ (sSl wWt).awaitsResolve r0 wWt = false ∧ ((sSl wWt).ctx? wWt.ctx).isSome = true ∧
    (let s : State := { sSl wWt with pend := [pendOf (.fetch r0 0)] }; s.awaitsResolve r0 wWt = true) ∧
    (let s := (sSl wWt).setDie 0 { (sSl wWt).die 0 with wden := false }; s.wave? r0 = some wWt ∧ (s.die 0).wden = false ∧
      (s.allWaves.map (fun p => p.1)).Nodup) := by decide
def lineE : WcLine := { line := 5, asid := 0, time := 20, data := [(0x30000, 1)] }
theorem wit_WcbDrain : (let s := { base.setCore 191 { wcb := [lineE] } with now := 100 }; (s.core 191).wcb.find? (fun e => e.line == 5) = some lineE ∧ lineE.time + 80 ≤ s.now) := by decide
def grp (n : Nat) : Group := ⟨0, 0x40200, (List.range n).map (fun j => ⟨0, 0, j, 0, 0x10001, 0x40000, 0⟩), some 7⟩
theorem wit_HandlerLaunches : (let s := { base.setCore 191 { groups := [grp 96] } with now := 7 }; tfind (s.core 191).waves 32 = none ∧
    minBy Group.readyAt ((s.core 191).groups.filter (fun g => decide (g.readyAt ≤ s.now))) = some (grp 96) ∧ (grp 96).lanes.length ≤ 96) := by decide +kernel
def ctxP (st : BitVec 2) : Ctx := { placedCtx with pmst := st, save := 0x100000, savelen := 0x100000, drainBy := some 100 }
def wSlp : Wave := { w0 with frags := [{ f0 with st := .sleeping, sleep := some (slp false false [5]) }] }
def sPm (c : Ctx) (w : Wave) : State := { ((base.setCtx 0 c).setWave r0 w) with now := 100 }
theorem wit_PreemptionSteps : (∀ st ∈ [0, 1, 2, 3], (sPm (ctxP st) wSlp).ctx? 0 = some (ctxP st) ∧ (sPm (ctxP st) wSlp).residents 0 = [(0, 0)] ∧ (ctxP st).drainBy = some 100 ∧ 100 ≤ (sPm (ctxP st) wSlp).now) ∧
    (tfind ((sPm (ctxP 1) wSlp).core 0).blocks 0 = some placedBlock ∧ placedBlock.ctx = 0 ∧ (sPm (ctxP 1) wSlp).saveUnit 0 0 = [(0, 0)] ∧ (sPm (ctxP 1) wSlp).atBoundary 0 0 = true ∧ (ctxP 1).savefault = none ∧ (ctxP 1).used = 0) ∧
    { ctxP 1 with savelen := 0x1BFFF }.savelen.toNat < 65536 + (sPm (ctxP 1) wSlp).blockImage 0 0 ∧ 65536 + (sPm (ctxP 1) wSlp).blockImage 0 0 ≤ (ctxP 1).savelen.toNat ∧ (ctxP 3).images = [] := by decide +kernel
/-- Two blocks, so that the first one that is saved is not the last. -/
def sTwo : State := let s := sPm (ctxP 1) wSlp; s.setCore 0 { s.core 0 with blocks := [(0, placedBlock), (1, { placedBlock with kid := 1, waves := [] })] }
theorem devWrite_of {s : State} {u x va : Nat} {l : List Byte} (h : okOf (s.resolve none u x 2 va l.length needW).1 = true) :
    ∃ s1, s.devWrite u x va l = (.ok (), s1) := by
  obtain ⟨k, s2, h2⟩ := ok_of h
  exact ⟨_, by rw [State.devWrite, h2]⟩
theorem wit_PreemptionSteps_save : (∃ p ∈ sTwo.residents 0, p ≠ (0, 0)) ∧ sTwo.saveUnit 0 0 = [(0, 0)] ∧ sTwo.atBoundary 0 0 = true ∧
    ∃ s1, sTwo.takeFree.2.devWrite (dispUnit (dieOf 0)) 0 (0x100000 + 65536) (freeBytes sTwo.free (sTwo.blockImage 0 0)) = (.ok (), s1) := by
  refine ⟨by decide, by decide, by decide, devWrite_of ?_⟩
  rw [freeBytes, List.length_map, List.length_range]
  decide +kernel
/-- A saved image of that block, and a machine in which it has room. -/
def im1 : Image := ⟨1, 65536, 0, 0, placedBlock, [wSlp], [(0, 7)], 0, false, 0⟩
def cRs : Ctx := { ctxP 3 with images := [im1], used := 0x28000 }
def sRs : State := ((base.setCtx 0 cRs).setCore 0 {}).setCore 95 { scr := 1 }
def restorable : Bool :=
  sRs.restoreUnit cRs == [im1] && (sRs.run? im1.launch == some placedRun) && (match sRs.planRestore 0 cRs [im1] false with
    | some [⟨im, pl, false, 1⟩] => im == im1 && (match sRs.rouseAll 64 (dedup [clusterOf pl.core]) with
      | (true, s1) => okOf (s1.devRead (dispUnit (dieOf pl.core)) 0 (cRs.save.toNat + im1.off) (imageSize im1.block.wpb placedRun.lrec.lregq im1.block.scrq)).1 &&
          decide (im1.waves.length ≤ (sRs.freeWslots pl.core).length) && !sRs.switching (1 + dieOf pl.core)
      | _ => false)
    | _ => false)
theorem wit_PreemptionSteps_restore : sRs.ctx? 0 = some cRs ∧ cRs.pmst = 3 ∧ cRs.savefault = none ∧ placedRun.lrec.groupLevel = none ∧ (∀ w ∈ cRs.words, w.1 ≠ im1.home) ∧ (∀ w ∈ im1.waves, (w.frags.map (fun f => f.id)).Nodup) ∧ restorable = true := by decide +kernel

/-! Witnesses: steps, words and memory -/

def sAg (s : State) (u : Turn) : State := { s with agenda := [u] }
def sGw (w : Nat) : State := { sAg (State.reset.setGth 3 { st := 1, pc := 0x3FFFC }) (.agent (.gaffer 3)) with mem := Memory.writes [] (cells (gafKey 0x3FFFC) (leBytes 4 w)) }
theorem wit_StepRunsDecoded_gaffer : ((sGw 0x0CC48000).gth 3).st = 1 ∧ ((sGw 0x0CC48000).gth 3).pc.toNat % 4 = 0 ∧ ((sGw 0x0CC48000).gth 3).pc.toNat < 0x40000 ∧
    decodeGaffer (leNat ((sGw 0x0CC48000).bytesAt (gafKey 0x3FFFC) 4)) = some (.cadd 3 1 2) ∧ decodeGaffer (leNat ((sGw 0x0CC48001).bytesAt (gafKey 0x3FFFC) 4)) = none := by decide +kernel
def sScw (w : Nat) : State := sAg (State.reset.withWave w none) (.agent (.scalar 0 0 0))
/-- The word that the resolved program counter reads. -/
def fetched (w : Nat) : Option Nat :=
  match ({ sScw w with agenda := [], cur := .scalar 0 0 0 } : State).resolve (w0.place r0) (unitOf 0) 0 2 0x40000 4 needX with
  | (.ok ks, t) => some (leNat (t.fetchCode 0 (t.codeSeen w0) ks).1)
  | _ => none
theorem wit_StepRunsDecoded_scalar : (sScw 0).wave? r0 = some w0 ∧ w0.frag? f0.id = some f0 ∧ (sScw 0).fragFree r0 w0 f0 false = true ∧ w0.scalarFree f0 = true ∧ (sScw 0).written = [] ∧ (∀ c, (sScw 0).ctx? 0 = some c → c.code = []) ∧ f0.joins.head?.all (fun j => j.addr != f0.pc) = true ∧ f0.pc = 0x40000 ∧
    fetched 0x303BFFFF = some 0x303BFFFF ∧ decodeScalar 0x303BFFFF = some (.saddImm 7 31 0x1FFF) ∧ fetched 0x02188481 = some 0x02188481 ∧ decodeScalar 0x02188481 = none := by decide +kernel
theorem wit_StepRunsDecoded_others : (let s := sAg (ln w1) (.agent (.lane 0 0 0)); s.wave? r0 = some w1 ∧ w1.frag? f1.id = some f1 ∧ s.fragFree r0 w1 f1 true = true ∧ s.laneClock 0 = true ∧ f1.run = some x0 ∧ x0.code[x0.idx]? = some .snop) ∧
    (let s := sAg (sC xC) (.agent (.crux 0 15)); (s.cx (0 * 16 + 15)).runs = true ∧ (s.cx 15).prog[(s.cx 15).step]? = some (.send (fS 1 1 4))) ∧
    (sAg State.reset (.event .flashCommit)).agenda = [.event .flashCommit] ∧ ({ State.reset with queue := [.flashCommit] } : State).agenda = [] := by decide +kernel
theorem wit_DecodeOfEncode : (∀ p ∈ [(Instr.cadd 15 0 15, 0x0FC3C000), (.ssub 3 4 9, 0x02188480)], p.1.wf = true ∧ encode p.1 = some p.2) ∧ ((11 : BitVec 4).toNat ≤ 11 ∧ (15 : BitVec 4) = 15) := by decide +kernel
theorem wit_EncodeOfDecode : decodeGaffer 0x0CC48000 = some (.cadd 3 1 2) ∧ decodeScalar 0x02188480 = some (.ssub 3 4 9) ∧ (decodeStep 0x04040A0300000010).isSome = true ∧ (decodeLane 0xF0010100C00000000).isSome = true ∧
    decodeHeader 0xFFC40053C000000000000000 = some ⟨1, 1, 4, 15⟩ := by decide +kernel
theorem wit_StepKeepsMemory : Memory.wf (State.reset.withFetchWord 32 0x0847FFFF).mem = true ∧
    (match step (State.reset.withFetchWord 32 0x0847FFFF) with | .next _ => true | _ => false) = true := by decide +kernel
theorem wit_MemoryOperations : Memory.wf base.mem = true ∧ Memory.wf (Memory.write base.mem 0 1) = true ∧ Memory.wf ([] : List Host.Cell) = true := by decide +kernel

/-! Witnesses: the clauses that statements gained later -/

def gBad : GThread := gR [(15, 0x40000)]
theorem wit_GafferControl_return : Gaffer (gf g0) 0 g0 ∧ (g0.rd 15).toNat < 0x40000 ∧ (g0.rd 15).toNat % 4 = 0 ∧ Gaffer (gf gBad) 0 gBad ∧ gBad.wait = .none ∧
    0x40000 ≤ (gBad.rd 15).toNat ∧ Gaffer (gf (gR [(15, 2)])) 0 (gR [(15, 2)]) ∧ ((gR [(15, 2)]).rd 15).toNat % 4 ≠ 0 :=
  ⟨gaffer_of (by decide), by decide, by decide, gaffer_of (by decide), by decide, by decide, gaffer_of (by decide), by decide⟩
theorem wit_GafferCircuits_release : (∀ st ∈ [0, 1, 2, 3, 4, 5, 6], Gaffer (sE { st := st }) 0 gE ∧ ((sE { st := st }).circuit 63).st = st) ∧
    (((((sE { st := 4 }).setPort 5 { st := 3, target := 2 }).moveEntry 63 { cE { st := 4 } with st := 5, tearPending := true, slotOpen := false }).writeTarget 5 0).port 5).st = 3 ∧
    (let u := ((sE { st := 4 }).moveEntry 63 { cE { st := 4 } with st := 5, tearPending := true, slotOpen := false }).writeTarget 5 0; (u.port 5).st ≠ 3 ∧ (u.port 5).trans = none) := by
  refine ⟨fun st h => ⟨gaffer_of ?_, ?_⟩, by decide, by decide⟩ <;> (revert st; decide)
/-- A device on which CVER is to take version 63, beside a LIVE entry of version 0. -/
theorem wit_GafferCircuits_version : (∀ p, p < 32 → ((sE { st := 4 }).port p).st ≠ 1 ∧ ((sE { st := 4 }).port p).st ≠ 2) ∧
    tfind (sE { st := 4 }).circuits 63 = some (cE { st := 4 }) ∧ (sE { st := 4 }).inDrainWindow (cE { st := 4 }) = true ∧ (cE { st := 4 }).tver ≠ (gE.rd 2).extractLsb' 0 16 ∧
    (sE { st := 4 }).fdidValid = true ∧ ((sE { st := 4 }).link 0).up = true ∧ ((sE { st := 4 }).link 0).waiting = [] ∧ ((sE { st := 4 }).link 0).unacked.length < 64 ∧
    1 ≤ ((sE { st := 4 }).link 0).credits.getD 3 0 := by decide
def gC5 (c3 : DWord) : GThread := { g0 with regs := [(2, 5), (3, c3)] }
theorem wit_GafferWaits_gate : Gaffer (gf (gC5 2)) 0 (gC5 2) ∧ (gf (gC5 2)).entryOf 5 = none ∧ 2 ≤ ((gC5 2).rd 3).toNat % 4 ∧
    (let s := (gf (gC5 0)).setCircuit 63 { st := 4, port := 5 }; Gaffer s 0 (gC5 0) ∧ s.entryOf 5 ≠ none) :=
  ⟨gaffer_of (by decide), by decide, by decide, gaffer_of (by decide), by decide⟩

def xSkip : Crux := { xC with skip := [(0, 1 <<< dC.rank)] }
theorem wit_CollectiveControlSteps_skip : (sC xSkip).cur = .crux 0 15 ∧ (sC xSkip).cx (0 * 16 + 15) = xSkip ∧ xSkip.desc = some dC ∧ xSkip.st = 2 ∧ xSkip.skipped dC.rank = true := by decide

def sQuiet : State := { State.reset with cores := [] }
theorem wit_LevelChanges_alarm : ((sQuiet.setCore 191 { drpth := 20 }).core 191).drpth.toNat = 20 ∧ (sQuiet.setCore 191 { drpth := 20 }).workCovered 15 = true ∧
    ((sCl15 {}).core 191).drpth.toNat = 30 ∧ (base.setCore 0 { base.core 0 with drpth := 20 }).workCovered 0 = false ∧ ((sCl15 { change := some 3 }).cluster (clusterOf 180)).change = some 3 ∧
    ((base.setCore 0 { base.core 0 with drpth := 20 }).cluster (clusterOf 0)).change = none := by decide
def relW (w : Nat) : List (Nat × Nat) := (List.range w).map (fun k => (k, 0))
theorem wit_BurstsAndThrottles_release : ((base.setCore 191 { release := [(5, relW 20)] }).core 191).release.find? (fun e => e.1 == 5) = some (5, relW 20) ∧
    (base.cluster 15).relsp ≠ 0 ∧ (relW 20).filter (fun p => !((dedup ((relW 20).map (fun p => p.1))).take (base.cluster 15).relgrp.toNat).contains p.1) ≠ [] ∧
    ((base.setCluster 15 { relsp := 0 }).cluster 15).relsp = 0 := by decide

/-- Flits 7, 8 and 9 wait for their acknowledgement; flit 8 carries data. -/
def fl (seq : BitVec 16) (typ : Nat) : Flit := { seq := seq, typ := typ, tver := 0, payload := [], owner := .none }
def sFl (st : BitVec 2) (n : Nat) (stalled : List Nat) : State :=
  sP { st := st, target := 2, txSeq := 9, stalled := stalled, unacked := if n = 3 then [fl 7 2, fl 8 1, fl 9 2] else (List.range n).map (fun k => fl (BitVec.ofNat 16 k) 1) }
/-- An idle flit that acknowledges up to `ack`, with NAK or not. -/
def ackBytes (nak ack : Nat) : List Byte := [BitVec.ofNat 8 nak, 0, 0, 0, 0, 0] ++ leBytes 2 ack ++ List.replicate 244 0
def ackArr (nak ack : Nat) : FlitArrival := ⟨ackBytes nak ack ++ leBytes 4 (crc32 (ackBytes nak ack)), 0, 0, none⟩
theorem ackBytes_length (nak ack : Nat) : (ackBytes nak ack).length = 252 := by
  simp only [ackBytes, leBytes, List.length_append, List.length_replicate, List.length_cons, List.length_nil]
theorem wit_FlitsAndDelays_ack (nak ack : Nat) : (ackArr nak ack).bytes.length = 256 ∧ crc32 ((ackArr nak ack).bytes.take 252) = field (ackArr nak ack).bytes 252 4 ∧ (ackArr nak ack).uncorr = 0 := by
  have t : (ackArr nak ack).bytes.take 252 = ackBytes nak ack := by rw [ackArr, ← ackBytes_length nak ack, List.take_left]
  have d : (ackArr nak ack).bytes.drop 252 = leBytes 4 (crc32 (ackBytes nak ack)) := by rw [ackArr, ← ackBytes_length nak ack, List.drop_left]
  refine ⟨by rw [ackArr, List.length_append, ackBytes_length]; rfl, ?_, rfl⟩
  have := crc_small (ackBytes nak ack)
  simp only [t, field, d, leBytes, List.take_succ_cons, List.take_zero, leNat, BitVec.toNat_ofNat]
  omega
theorem wit_FlitsAndDelays_ackBytes : (∀ nak ∈ [0, 1], field (ackArr nak 7).bytes 0 1 / 16 = 0 ∧ field (ackArr nak 7).bytes 0 1 % 16 = nak ∧ field (ackArr nak 7).bytes 1 1 = 0 ∧ field (ackArr nak 7).bytes 6 2 = 7) := by decide
theorem wit_FlitsAndDelays_replay : (∀ st ∈ [2, 3], ((sFl st 3 []).port 31).st = st ∧ ((sFl st 3 []).port 31).clearedAt ≠ some (sFl st 3 []).now ∧ ((sFl st 3 []).port 31).stalled = [] ∧
      ((sFl st 3 []).port 31).unacked.filter (fun f => !decide (((7 : BitVec 16) - f.seq).toNat < 32768)) = [fl 8 1, fl 9 2]) ∧
    (let x := (sFl 3 64 []).port 31; x.st = 3 ∧ x.trans = none ∧ x.target = 2 ∧ x.down = false ∧ x.looped = false ∧ x.stalled = [] ∧ 64 ≤ x.unacked.length) ∧
    (let x := (sFl 3 64 [3]).port 31; x.stalled = [3] ∧ (x.unacked.filter (fun f => !decide (((7 : BitVec 16) - f.seq).toNat < 32768))).length < 64) := by decide +kernel
theorem wit_FlitsAndDelays_copy : let s := { sO (opOf .copy (dCopy 0x1000 1) 2 0) with circuits := [(0, { st := 4, port := 31 })], ports := [(31, (sFl 3 64 []).port 31)] }
    s.async? 7 = some (opOf .copy (dCopy 0x1000 1) 2 0) ∧ (s.circuit (copyEntry (dCopy 0x1000 1))).port.toNat = 31 ∧ 64 ≤ (s.port 31).unacked.length := by decide
theorem wit_PortTransitions_targets : (let x := (sP { st := 1, trans := some (5, 300000), target := 2 }).port 31; x.target = 2 ∧ x.stalled = [] ∧ x.unacked.length < 64 ∧ x.trans = some (5, 300000)) ∧
    ({ sMissed with ports := [(31, { (sMissed.port 31) with target := 2 })] } : State).portMissed 31 = true ∧ (∀ q ∈ sMissed.circuits, q.2.tearPending = false) ∧
    ((sP { trans := some (2, 300000), relock := true }).port 31).relock = true ∧ ((sP { trans := some (1, 400000) }).port 31).trans ≠ none := by decide
theorem wit_PortRequests_recalibration : (let x := (sP { st := 2, target := 1, lit := 15, far := some ⟨15, false, 0⟩ }).port 31; x.st = 2 ∧ x.target ≠ 0 ∧ x.looped = false ∧ x.far = some ⟨15, false, 0⟩ ∧ (15 : BitVec 4) = x.lit ∧
      ∀ k, x.trans ≠ some (2, k)) ∧ ((sP { st := 2, trans := some (2, 300100) }).port 31).trans = some (2, 300100) ∧ (∀ q ∈ (sP {}).circuits, q.2.tearPending = false) := by
  refine ⟨⟨by decide, by decide, by decide, by decide, by decide, fun k h => ?_⟩, by decide, by decide⟩
  have e : ((sP { st := 2, target := 1, lit := 15, far := some ⟨15, false, 0⟩ }).port 31).trans = none := by decide
  rw [e] at h
  cases h

/-- Three copies, the first two of which are over. -/
def tk (id : Nat) (done : Bool) : Ticket := ⟨id, 2, done⟩
def wTk : Wave := { w0 with tickets := [(0, [tk 1 true, tk 2 false, tk 3 false])] }
def sTk : State := { (base.setWave r0 wTk) with asyncs := [{ opOf .copy [] 3 0 with id := 2 }, { opOf .copy [] 2 0 with id := 3 }] }
theorem wit_CopiesAndGathers_order : sTk.wave? r0 = some wTk ∧ wTk.frags ≠ [] ∧ wTk.handler = false ∧ tget [] wTk.tickets 0 = [tk 1 true, tk 2 false] ++ [tk 3 false] ∧
    ([tk 1 true, tk 2 false, tk 3 false].map (fun x => x.op)).Nodup ∧ ((tk 1 true).done = true ∧ sTk.async? 1 = none) ∧ (∃ y, sTk.async? 2 = some y ∧ y.stage = 3) ∧
    (sTk.async? 3 = some { opOf .copy [] 2 0 with id := 3 }) ∧ (tk 3 false).done = false := by decide
def dObj : List Byte := leBytes 8 0x30000 ++ leBytes 8 0x30100 ++ leBytes 8 4 ++ leBytes 8 0x30200
theorem wit_CopiesAndGathers_objects : copyCirc dObj = false ∧ copyLen dObj = 4 ∧ copyBobj dObj ≠ 0 ∧
    (∃ k s1, (sO (opOf .copy dObj 1 4)).asyncKeys (opOf .copy dObj 1 4) (copyBobj dObj) 16 needRW = (.ok k, s1)) ∧
    (let o := opOf .gather (leBytes 8 0x30100 ++ leBytes 8 0x30200 ++ leBytes 8 0x30000 ++ leBytes 4 4 ++ leBytes 4 1 ++ leBytes 8 4 ++ leBytes 8 0x30400 ++ List.replicate 16 0) 1 1; gatherLen o.desc ≠ 0 ∧ field o.desc 28 4 ≤ o.next ∧ field o.desc 40 8 ≠ 0 ∧ ∃ k s1, (sO o).asyncKeys o (field o.desc 40 8) 16 needRW = (.ok k, s1)) :=
  ⟨by decide, by decide, by decide, ok_of (by decide), by decide, by decide, by decide, ok_of (by decide)⟩
/-- What an endpoint's entry and its two targets resolve to. -/
def endpointOk (s : State) (k : Packet) : Bool :=
  match (s.received 0 k).devRead 0 0 0x30000 32 with
  | (.ok e, s1) => field e 0 4 / 2 ^ 31 == 1 && field e 0 4 / 2 ^ 16 % 2 ^ 14 == 0 && field e 0 4 / 2 ^ 30 % 2 == 1 && field e 4 4 == 0 && field e 28 4 == 0 &&
      decide ((k.body.drop 4).length ≤ field e 24 4) && (match s1.resolve none 0 0 2 (field e 8 8) (k.body.drop 4).length needW with
        | (.ok _, s2) => okOf (s2.resolve none 0 0 2 (field e 16 8) 16 needRW).1
        | _ => false)
  | _ => false
theorem wit_Messages_payload : ∀ p ∈ [(3, 1), (5, 1)], endpointOk (sEp 1) (pk p.1 p.2 0 epBody) = true ∧ endpointOk (sEp 0) (pk p.1 p.2 0 epBody) = false ∧ (epBody.drop 4).length = 4 ∧
    (((sEp 1).received 0 (pk p.1 p.2 0 epBody)).ctx? (field epBody 0 2)).isSome = true := by decide +kernel
theorem wit_Messages_gone : (let o := { opOf .copy (dCopy 0x1000 1) 2 225 with entry := 5 }; ((sM o).circuit o.entry).st = 0) ∧
    (let s := { sM { opOf .copy (dCopy 0x1000 1) 2 225 with entry := 63 } with circuits := [(63, { st := 6, port := 5, peerdev := 2 })] }; (s.circuit 63).st = 6) ∧
    ((sM { opOf .copy (dCopy 0x1000 1) 2 225 with entry := 63 }).circuit 63).st ≠ 0 := by decide
theorem wit_CrucibleInstances_resume : (let x : Crux := { xX 4 with skip := [(0, 2)], loops := [(0, 1, 2)] }; x.resuming = none ∧ x.loops = [(0, 1, 2)] ∧ tget 0 x.skip 0 &&& ~~~tget 0 x.skipWas 0 ≠ 0) ∧
    (let x : Crux := { xX 4 with skip := [(0, 2)] }; x.loops = [] ∧ tget 0 x.skip 0 &&& ~~~tget 0 x.skipWas 0 ≠ 0) := by decide

theorem wit_CircuitRequests_tearRows : (∀ st ∈ [2, 5, 6], (sK 63 (cK st) {}).ctlFor (ctlK 4 0 0) 4 = true ∧ (sK 63 (cK st) {}).named (ctlK 4 0 0) = some 63 ∧ ((sK 63 (cK st) {}).circuit 63).st = st) ∧
    (sK 63 {} {}).ctlFor (ctlK 4 0 0) 4 = true ∧ (sK 63 {} {}).named (ctlK 4 0 0) = none ∧ (cK 4).missAt ≠ some (sK 63 (cK 4) {}).now ∧
    (((sK 63 (cK 4) {}).port 5).st = 0 ∧ ((sK 63 (cK 4) {}).port 5).trans = none) ∧ ((sK 63 (cK 4) { st := 3 }).port 5).st ≠ 0 ∧ (cK 3).freeOnDark = false := by decide +kernel
theorem wit_CircuitRequests_crossed : ((sK 63 { cK 1 with reqEntry := 63 } {}).ctlFor (ctlK 1 0 0) 1 = true ∧ (∃ q ∈ (sK 63 (cK 1) {}).circuits, q.2.port.toNat = 5 ∧ q.2.st = 1 ∧ q.2.side = false) ∧
      (sK 63 (cK 1) {}).fdid.toNat ≤ (ctlK 1 0 0).src.toNat % 4096) ∧
    (let s := { sK 63 {} {} with circuits := (List.range 64).map (fun n => (n, { st := 1, port := 6, side := true })) }; (List.range 64).find? (fun n => (s.circuit n).st == 0) = none ∧ ∀ q ∈ s.circuits, q.2.port.toNat = 5 → q.2.st = 0 ∨ q.2.st = 6) := by decide +kernel
theorem wit_CircuitSlots_reserved : let c : Circuit := { cK 3 with slotted := true, slotper := 1000, slotlen := 500, slotbase := 599000, guard := 0xFFFF }
    ((sK 63 c {}).circuit 63).st = 3 ∧ c.slotper ≠ 0 ∧ c.slotbase.toNat ≤ 600000 ∧ (600000 - c.slotbase.toNat) % c.slotper.toNat = 0 ∧ (sK 63 c {}).errest.toNat ≤ c.guard.toNat ∧
    (∀ q ∈ (sK 63 c {}).circuits, q.2.missAt ≠ some (sK 63 c {}).now) := by decide

/-- RESOLVE of a fault of context 0 for which `w` waits, on a machine that `f` changes. -/
def sRq (w : Waiter) (act : Nat) (f : State → State) : State := { f (sCmd (lRes 0 3 act)) with pend := [pendOf w] }
def ldW (txn : Bool) : Op := ⟨1, 0, false, .load, 4, false, some 2, 0, [⟨0, 0x30000, [], [], [], some 3⟩], 0, 0, 0, none, txn, 0, [], 0, 0, [], 0, [], []⟩
def withOp (txn : Bool) (s : State) : State := s.setWave r0 { w0 with ops := [ldW txn] }
def withTxn (s : State) : State := s.setWave r0 { w0 with txn := some { frag := 0, start := 0x40000, target := 0x40000, depth := 1, alt := none, prio := false, age := 0, reads := [], writes := [], opens := [], held := some 3 } }
def withSlot (s : State) : State := s.setCx 15 { xC with fault := some 3 }
def withAsync (k : AsyncKind) (s : State) : State := { s with asyncs := [{ opOf k (dCopy 32 0) 1 0 with fault := some 3 }] }
def withStream (s : State) : State := { s with streams := s.streams ++ [(9, { open_ := true, running := [⟨4, lWrite 0x30000 1, some 0, .access 3 none⟩] })] }
/-- Every kind of waiter, with the machine that it waits in. -/
def waiters : List (Waiter × (State → State)) :=
  [(.op r0 1, withOp false), (.op r0 1, withOp true), (.fetch r0 0, id), (.clause r0 0, id), (.txn r0 0, withTxn), (.slot 0 15, withSlot), (.queue 5, id), (.async 7, withAsync .copy),
    (.async 7, withAsync .gather), (.completion 0, id), (.flit 5, fun s => { s with ports := [(5, { inbox := [(1, lCopy)], inFault := some 3 })] }), (.save 0, id), (.stream 9, withStream),
    (.gaffer 2, fun s => s.setGth 2 { st := 2, wait := .access 3 }), (.octet 0 1, id), (.sweep 0 1, id)]
theorem wit_ResolveOutcomes_command : ∀ act ∈ [0, 1], ∀ p ∈ waiters, Command (.resolve 0) (sRq p.1 act p.2) 0 1 (lRes 0 3 act) ∧ (sRq p.1 act p.2).pending? 0 3 = some (pendOf p.1) := by
  intro act h p m
  have k : (waiters.all (fun p => [0, 1].all (fun act => decide (((sRq p.1 act p.2).stream 0).buffer = [(1, lRes 0 3 act)] ∧ holdsBack ((sRq p.1 act p.2).stream 0) = false ∧
      recBadCmd 0 (lRes 0 3 act) = false ∧ (sRq p.1 act p.2).recStatus 0 (lRes 0 3 act) = none ∧ ((sRq p.1 act p.2).stream 0).open_ = true ∧ ((sRq p.1 act p.2).stream 0).unacked.length < 64 ∧
      (sRq p.1 act p.2).pending? 0 3 = some (pendOf p.1))))) = true := by decide +kernel
  have := of_decide_eq_true (List.all_eq_true.mp (List.all_eq_true.mp k p m) act h)
  have e : cmdEvent 0 (lRes 0 3 act) = .resolve 0 := by
    clear this
    revert act
    decide +kernel
  exact ⟨command_of ⟨this.1, this.2.1, this.2.2.1, e, this.2.2.2.1, this.2.2.2.2.1, this.2.2.2.2.2.1⟩, this.2.2.2.2.2.2⟩
theorem wit_ResolveOutcomes_fields : ∀ act ∈ [0, 1], recWord (lRes 0 3 act) 0x18 = act ∧ recWord (lRes 0 3 act) 0x20 = 0 ∧ recWord (lRes 0 3 act) 0x28 = 0 ∧ recWord (lRes 0 3 act) 0x10 = 3 ∧
    recCtx (lRes 0 3 act) = 0 := by decide +kernel
theorem wit_ResolveOutcomes_waves : (sRq (.op r0 1) 0 (withOp false)).wave? r0 = some { w0 with ops := [ldW false] } ∧ (ldW false).txn = false ∧ (ldW true).txn = true ∧ ([ldW true].find? (fun y => y.id == 1)) = some (ldW true) ∧
    (pendOf (.op r0 1)).frec.kind ≠ 3 ∧ ((withTxn base).wave? r0).any (fun v => v.txn.any (fun y => y.held == some 3)) = true ∧ ((sRq (.fetch r0 0) 0 id).ctx? 0).isSome = true := by decide +kernel
theorem wit_ResolveOutcomes_others : (let v := (sRq (.slot 0 15) 0 withSlot).cx 15; v.st = 2 ∧ v.ending = none ∧ v.resuming = none ∧ v.waitsFor 3 = true) ∧
    ((sRq (.queue 5) 1 (fun s => s.setHq 5 { s.hq 5 with ptrs := [0x30000] })).hq 5).ptrs ≠ [] ∧
    (∀ k ∈ [AsyncKind.copy, .gather], (sRq (.async 7) 0 (withAsync k)).async? 7 = some { opOf k (dCopy 32 0) 1 0 with fault := some 3 }) ∧ ((sRq (.completion 0) 0 id).run? 0).isSome = true ∧
    (let s := sRq (.stream 9) 0 withStream; (s.stream 9).running = [⟨4, lWrite 0x30000 1, some 0, .access 3 none⟩] ∧ (s.stream 9).open_ = true ∧ (s.stream 9).buffer = [] ∧ (s.stream 9).unacked.length < 64 ∧
      recOpc (lWrite 0x30000 1) ≠ 3 ∧ recWord (lWrite 0x30000 1) 0x10 % 8 = 0 ∧
      okOf ((({ taken s 0 1 with pend := [] } : State).invalidate 0 0 65536).resolve none 0 0 2 0x30000 8 needRW).1 = true) := by decide +kernel
theorem wit_ContextCommands_reset : Command (.contextReset 0) (sCmd (rec_ 9 0 [])) 0 1 (rec_ 9 0 []) ∧ (tfind ((sCmd (rec_ 9 0 [])).core 0).blocks 0).any (fun b => b.ctx == 0) = true ∧
    ((sCmd (rec_ 9 0 [])).wave? r0).any (fun v => !v.handler) = true ∧ ((sCmd (rec_ 9 0 [])).hq 5).ctx = some 0 :=
  ⟨command_of (by decide +kernel), by decide +kernel, by decide +kernel, by decide +kernel⟩

theorem wit_BlockPlacement : (match planP with
    | some ps => ps != [] && ps.all (fun p => (ps.filter (fun j => j.core == p.core)).length == 1 && decide (p.blk < runP.blocks.length) &&
      ((List.range 16).any (fun b => (tfind (sPl.core p.core).blocks b).isNone)) && ((sPl.coreRes p.core).partitions runP.lrec).isSome &&
      decide ((((List.range 32).filter (fun w => (tfind (sPl.core p.core).waves w).isNone)).take runP.lrec.wpb).length = runP.lrec.wpb))
    | none => false) = true := by decide +kernel
/-- A launch of three cluster groups of four blocks, which form one gang of a cluster. -/
def runG : Run := { runP with blocks := List.replicate 12 .unplaced, lrec := { runP.lrec with levels := [⟨4, 0, 0, false, 0, 0⟩, ⟨3, 0, 0, true, 1, 1⟩] } }
def sG : State := (List.range 12).foldl (fun (s : State) i => s.setCore (180 + i) { scr := 2 }) { sPl with runs := [placedRun, runG] }
theorem wit_GroupsAndGangs : runG.nextUnit.isSome = true ∧ runG.lrec.groupLevel.isSome = true ∧ (match runG.nextUnit with
    | some (b, n, dom) => (match sG.planUnit runG b n dom false with
      | some ps => ps.length == runG.lrec.groupSize && ps.all (fun p => ps.all (fun q => clusterOf p.core == clusterOf q.core && (p.blk % runG.lrec.groupSize != q.blk % runG.lrec.groupSize || p == q))) &&
          ps.all (fun p => decide (p.blk % runG.lrec.groupSize < 12))
      | none => false)
    | none => false) = true := by decide +kernel
def sLate : State := { State.reset with now := 10, gaffer := [(2, { st := 1 })], mgmt := { State.reset.mgmt with pendingSwitch := [⟨3, 10, 5⟩] } }
theorem wit_FirmwareAndFrames_timeout : (sFw 3 10).quiescent 3 = true ∧ sLate.quiescent 3 = false ∧ sLate.mgmt.pendingSwitch.find? (fun q => q.unit == 3 && decide (q.due ≤ sLate.now)) = some ⟨3, 10, 5⟩ ∧
    sLate.mgmt.inbox = [] ∧ (∀ c ∈ sLate.ctxs, c.2.pmst ≠ 3) ∧ (∀ q ∈ sLate.queues, q.2.placing = []) := by decide
/-- 3 · 2⁻¹ lies between 2⁰ and 2¹. -/
theorem wit_ExactFloats : (3 : Nat) ≠ 0 ∧ (2 : Rat) ^ (0 : Int) ≤ ((3 : Nat) : Rat) * (2 : Rat) ^ (-1 : Int) ∧ ((3 : Nat) : Rat) * (2 : Rat) ^ (-1 : Int) < (2 : Rat) ^ ((0 : Int) + 1) := by norm_num
theorem wit_RegisterWrites : (1 : BitVec 24).toNat % 4 ≠ 0 ∧ ((sE { st := 4 }).circuit 63).st ≠ 0 ∧ ((sE { st := 4 }).circuit 63).st ≠ 6 ∧ ((sE { st := 6 }).circuit 63).st = 6 ∧
    ((0x80000FFF : Word).getLsbD 31 = true ∧ (0x80000FFF : Word).truncate 12 = (0xFFF : BitVec 12)) ∧ ((0x80000001 : Word).truncate 12 ≠ (0 : BitVec 12) ∧ (0x80000001 : Word).truncate 12 ≠ (0xFFF : BitVec 12)) ∧
    (0 : Word).getLsbD 31 = false ∧ ((sX (xX 4)).cx 15).st = 4 ∧ ((sX (xX 2)).cx 15).st ≠ 4 ∧ base.ctx? 0 = some placedCtx ∧ base.ctx? 255 = none ∧ placedCtx.pmst ≠ 1 ∧
    ((1 : Word).getLsbD 0 = true ∧ (1 : Word).getLsbD 1 = false) ∧ ((2 : Word).getLsbD 0 = false ∧ (2 : Word).getLsbD 1 = true) ∧ (0x3FFFFC : BitVec 24).toNat < 0x400000 ∧ 0xC00000 ≤ (0xC00000 : BitVec 24).toNat := by decide

end Sys2Proof.Tests
end

