-- ==== Sys2Proof/Proofs/Events.lean ====
section
/-! PROOF. Operations that change no more than the events under way, or the links of the packet plane. -/

namespace Sys2Proof.Machine

/-! Folds -/

/-- What no step of a fold changes, the fold does not change. -/
theorem State.each_same {α β : Type} (g : State → β) (f : State → α → State) (hf : ∀ s a, g (f s a) = g s) (l : List α) (s : State) :
    g (s.each l f) = g s := by
  induction l generalizing s with
  | nil => rfl
  | cons a l ih => exact (ih (f s a)).trans (hf s a)

/-- A relation between states that every step of a fold respects relates the fold's ends. -/
theorem State.each_rel {α : Type} {R : State → State → Prop} (refl : ∀ s, R s s) (trans : ∀ {s t u}, R s t → R t u → R s u)
    {f : State → α → State} (step : ∀ s a, R s (f s a)) (l : List α) (s : State) : R s (s.each l f) := by
  induction l generalizing s with
  | nil => exact refl s
  | cons a l ih => exact trans (step s a) (ih (f s a))

/-! Events -/

/-- An event that becomes possible changes at most the queue. -/
theorem State.post_eq (s : State) (i : Instr) : s.post i = { s with queue := (s.post i).queue } := by
  unfold State.post
  split <;> rfl

/-- Events that become possible change at most the queue. -/
theorem State.posts_eq (s : State) (l : List Instr) : s.posts l = { s with queue := (s.posts l).queue } :=
  State.each_same (fun t => { t with queue := (s.posts l).queue }) State.post (fun t i => by rw [State.post_eq t i]) l s

@[simp] theorem State.post_mem (s : State) (i : Instr) : (s.post i).mem = s.mem := by rw [State.post_eq]
@[simp] theorem State.posts_mem (s : State) (l : List Instr) : (s.posts l).mem = s.mem := by rw [State.posts_eq]

/-- `t` is `s` but for the events that are possible and the events that fall due. -/
def State.EventsOnly (s t : State) : Prop := ∃ q tm, t = { s with queue := q, timers := tm }

theorem State.EventsOnly.eq {s t : State} : s.EventsOnly t → t = { s with queue := t.queue, timers := t.timers } := by
  rintro ⟨q, tm, rfl⟩; rfl

theorem State.EventsOnly.refl (s : State) : s.EventsOnly s := ⟨s.queue, s.timers, rfl⟩

theorem State.EventsOnly.trans {s t u : State} : s.EventsOnly t → t.EventsOnly u → s.EventsOnly u := by
  rintro ⟨q, tm, rfl⟩ ⟨q', tm', rfl⟩; exact ⟨q', tm', rfl⟩

theorem State.EventsOnly.post (s : State) (i : Instr) : s.EventsOnly (s.post i) := ⟨(s.post i).queue, s.timers, State.post_eq s i⟩

theorem State.EventsOnly.atTime (s : State) (t : Nat) (i : Instr) : s.EventsOnly (s.atTime t i) := ⟨s.queue, (s.atTime t i).timers, rfl⟩

theorem State.EventsOnly.each {α : Type} {f : State → α → State} (step : ∀ (s : State) (a : α), s.EventsOnly (f s a)) (l : List α) (s : State) :
    s.EventsOnly (s.each l f) :=
  State.each_rel State.EventsOnly.refl State.EventsOnly.trans step l s

/-- An event that has become possible is possible. -/
theorem State.mem_queue_post (s : State) (i : Instr) : i ∈ (s.post i).queue := by
  unfold State.post
  split
  case isTrue h => exact List.contains_iff_mem.mp h
  case isFalse => simp

/-- Looking for room only makes events possible (R315). -/
theorem State.tryPlace_eq (s : State) : s.tryPlace = { s with queue := s.tryPlace.queue } := by
  simp only [State.tryPlace]
  rw [State.posts_eq, State.posts_eq s]

@[simp] theorem State.tryPlace_mem (s : State) : s.tryPlace.mem = s.mem := by rw [State.tryPlace_eq]
@[simp] theorem State.tryPlace_timers (s : State) : s.tryPlace.timers = s.timers := by rw [State.tryPlace_eq]
@[simp] theorem State.die_tryPlace (s : State) (d : Nat) : s.tryPlace.die d = s.die d := by rw [State.tryPlace_eq]; rfl

/-! Links -/

/-- `t` is `s` but for the links, what they have sent, and the events that fall due. -/
def State.LinksOnly (s t : State) : Prop := ∃ ls op oc tm, t = { s with links := ls, outPkt := op, outCtl := oc, timers := tm }

theorem State.LinksOnly.refl (s : State) : s.LinksOnly s := ⟨s.links, s.outPkt, s.outCtl, s.timers, rfl⟩

theorem State.LinksOnly.trans {s t u : State} : s.LinksOnly t → t.LinksOnly u → s.LinksOnly u := by
  rintro ⟨ls, op, oc, tm, rfl⟩ ⟨ls', op', oc', tm', rfl⟩; exact ⟨ls', op', oc', tm', rfl⟩

/-- Credits that go back are an entry of the control stream. -/
theorem State.LinksOnly.freed (s : State) (l : Nat) (k : Packet) : s.LinksOnly (s.freed l k) := by
  unfold State.freed
  split
  · exact .refl s
  · exact ⟨s.links, s.outPkt, _, s.timers, rfl⟩

theorem State.LinksOnly.after (s : State) (ns : Nat) (i : Instr) : s.LinksOnly (s.after ns i) := ⟨s.links, s.outPkt, s.outCtl, _, rfl⟩

theorem State.LinksOnly.sendOn (s : State) (l : Nat) (w : Waiting) : s.LinksOnly (s.sendOn l w) := by
  simp only [State.sendOn]
  have sent (x : Link) (op : List (Nat × Packet)) : s.LinksOnly { s.setLink l x with outPkt := op } := ⟨_, op, s.outCtl, s.timers, rfl⟩
  cases w.from_ with
  | none =>
    split
    · exact (sent _ _).trans (.after ..)
    · exact sent ..
  | some i =>
    split
    · exact ((sent _ _).trans (.freed ..)).trans (.after ..)
    · exact (sent _ _).trans (.freed ..)

theorem State.LinksOnly.pumpGo (s : State) (l n : Nat) : s.LinksOnly (s.pumpGo l n) := by
  induction n generalizing s with
  | zero => exact .refl s
  | succ n ih =>
    simp only [State.pumpGo]
    split
    · exact .refl s
    · split
      · exact .refl s
      · exact (State.LinksOnly.sendOn s l _).trans (ih _)

theorem State.LinksOnly.pumpAll (s : State) : s.LinksOnly (s.each (List.range 8) State.pump) :=
  State.each_rel State.LinksOnly.refl State.LinksOnly.trans (fun s l => State.LinksOnly.pumpGo s l _) _ s

end Sys2Proof.Machine
end

