-- ==== Sys2Proof/Proofs/Memory.lean ====
section
/-! PROOF. Memory: two memories in canonical form that read alike are the same list, a byte reads as the last write to its key, and
a store changes memory as its writes alone do. -/

namespace Sys2Proof.Machine

/-! Extensionality -/

/-- The first key of a memory reads as its own byte. -/
theorem Memory.read_head (i : Nat) (b : Byte) (m : List Host.Cell) : Memory.read ((i, b) :: m) i = b := by simp [Memory.read]

/-- Past the first cell the rest of the list is read. -/
theorem Memory.read_tail {i k : Nat} (b : Byte) (m : List Host.Cell) (h : i < k) : Memory.read ((i, b) :: m) k = Memory.read m k := by
  simp [Memory.read, Nat.ne_of_lt h, Nat.not_lt_of_gt h]

/-- The parts of a canonical form whose list is not empty. -/
theorem Memory.wfFrom_cons {lo i : Nat} {b : Byte} {m : List Host.Cell} :
    Memory.wfFrom lo ((i, b) :: m) = true ↔ lo ≤ i ∧ b ≠ Memory.empty ∧ Memory.wfFrom (i + 1) m = true := by
  simp [Memory.wfFrom, and_assoc]

/-- Of two memories that read alike, the first key of the one is no smaller than that of the other. -/
theorem Memory.head_le_of_read_eq {lo i j : Nat} {b c : Byte} {m n : List Host.Cell} (hm : Memory.wfFrom lo ((i, b) :: m) = true)
    (hn : Memory.wfFrom lo ((j, c) :: n) = true) (h : ∀ k, Memory.read ((i, b) :: m) k = Memory.read ((j, c) :: n) k) : j ≤ i := by
  obtain ⟨-, hb, -⟩ := Memory.wfFrom_cons.mp hm
  obtain ⟨-, hc, hn'⟩ := Memory.wfFrom_cons.mp hn
  by_contra hij
  have below : Memory.read ((j, c) :: n) i = Memory.empty :=
    Memory.read_below (lo := j) _ (Memory.wfFrom_cons.mpr ⟨Nat.le_refl j, hc, hn'⟩) (by omega)
  exact hb ((Memory.read_head i b m).symm.trans ((h i).trans below))

/-- Two memories in canonical form that read alike at every key are the same list. -/
theorem Memory.eq_of_read_eq {lo : Nat} (m n : List Host.Cell) (hm : Memory.wfFrom lo m = true) (hn : Memory.wfFrom lo n = true)
    (h : ∀ k, Memory.read m k = Memory.read n k) : m = n := by
  induction m generalizing lo n with
  | nil =>
    cases n with
    | nil => rfl
    | cons q n =>
      obtain ⟨j, c⟩ := q
      exact absurd ((Memory.read_head j c n).symm.trans (h j).symm) (Memory.wfFrom_cons.mp hn).2.1
  | cons p m ih =>
    obtain ⟨i, b⟩ := p
    cases n with
    | nil => exact absurd ((Memory.read_head i b m).symm.trans (h i)) (Memory.wfFrom_cons.mp hm).2.1
    | cons q n =>
      obtain ⟨j, c⟩ := q
      obtain rfl : i = j :=
        Nat.le_antisymm (Memory.head_le_of_read_eq hn hm (fun k => (h k).symm)) (Memory.head_le_of_read_eq hm hn h)
      obtain rfl : b = c := by simpa only [Memory.read_head] using h i
      obtain ⟨-, -, hm'⟩ := Memory.wfFrom_cons.mp hm
      obtain ⟨-, -, hn'⟩ := Memory.wfFrom_cons.mp hn
      have tails (k : Nat) : Memory.read m k = Memory.read n k := by
        rcases Nat.lt_or_ge i k with hk | hk
        · simpa only [Memory.read_tail b _ hk] using h k
        · rw [Memory.read_below m hm' (by omega), Memory.read_below n hn' (by omega)]
      rw [ih n hm' hn' tails]

/-! Reads after writes -/

/-- A read after one write. -/
theorem Memory.read_write (m : List Host.Cell) (k : Nat) (b : Byte) (h : Memory.wf m = true) (j : Nat) :
    Memory.read (Memory.write m k b) j = if j = k then b else Memory.read m j := by
  split
  case isTrue hj => rw [hj, Memory.read_write_same m k b h]
  case isFalse hj => exact Memory.read_write_ne m b h hj

/-- A byte reads as the last of several writes to its key left it. -/
theorem Memory.read_writes (l : List (Nat × Byte)) (m : List Host.Cell) (h : Memory.wf m = true) (j : Nat) :
    Memory.read (Memory.writes m l) j = ((l.reverse.find? (fun p => p.1 == j)).map (fun p => p.2)).getD (Memory.read m j) := by
  induction l using List.reverseRecOn with
  | nil => rfl
  | append_singleton l p ih =>
    have last : Memory.writes m (l ++ [p]) = Memory.write (Memory.writes m l) p.1 p.2 := by simp [Memory.writes]
    rw [last, Memory.read_write _ _ _ (Memory.wf_writes l m h), ih, List.reverse_concat, List.find?_cons]
    by_cases hj : j = p.1
    · simp [hj]
    · simp [hj, beq_eq_false_iff_ne.mpr (Ne.symm hj)]

/-! A store -/

theorem State.touchQueue_mem (s : State) (lines : List Nat) (q : Nat) : (s.touchQueue lines q).mem = s.mem := by
  simp only [State.touchQueue]
  split
  · rfl
  · split
    · rfl
    · simp only [State.post_mem, State.setDie_mem, State.setHq_mem]

theorem State.touchStream_mem (s : State) (lines : List Nat) (n : Nat) : (s.touchStream lines n).mem = s.mem := by
  simp only [State.touchStream]
  split
  · exact State.post_mem ..
  · rfl

/-- The watches and marks that a write acts on leave memory alone. -/
@[simp] theorem State.touch_mem (s : State) (lines : List Nat) : (s.touch lines).mem = s.mem := by
  unfold State.touch
  rw [State.each_same State.mem _ (fun t n => t.touchStream_mem lines n), State.each_same State.mem _ (fun t q => t.touchQueue_mem lines q),
    State.posts_mem]

/-- A store changes memory by its writes, in order (R269, R271). -/
@[simp] theorem State.store_mem (s : State) (l : List (Nat × Byte)) : (s.store l).mem = Memory.writes s.mem l := by
  unfold State.store
  split
  case isTrue hl => rw [List.isEmpty_iff.mp hl]; rfl
  case isFalse => exact State.touch_mem ..

@[simp] theorem State.scrub_mem (s : State) (l : List (Nat × Byte)) : (s.scrub l).mem = Memory.writes s.mem l := rfl

/-- Settles O56, from the laws of reads after writes, the extensionality of canonical memories and what a store does to memory. -/
theorem memoryOperations : Obligations.MemoryOperations := by
  unfold Obligations.MemoryOperations
  refine ⟨fun m k b h => ⟨Memory.wf_write m k b h, Memory.read_write m k b h⟩, fun m n hm hn => Memory.eq_of_read_eq m n hm hn, fun s l h => ?_⟩
  have wf : Memory.wf (Memory.writes s.mem l) = true := Memory.wf_writes l s.mem h
  refine ⟨by rwa [State.store_mem], by rwa [State.scrub_mem], by rw [State.store_mem, State.scrub_mem], fun j => ?_⟩
  rw [State.store_mem, Memory.read_writes l s.mem h j]
  cases l.reverse.find? (fun p => p.1 == j) <;> rfl

end Sys2Proof.Machine
end

