-- ==== Sys2Proof/Proofs/RegisterMap.lean ====
section
/-! PROOF. The map of the fabric registers for writes: which block of registers an offset falls in, and what the fields of a 32-bit
word are. -/

namespace Sys2Proof.Machine

/-! Fields of a word -/

theorem bit_toNat {n : Nat} (v : BitVec n) (i : Nat) : bit v.toNat i = v.getLsbD i := by
  simp [bit, BitVec.getLsbD, Nat.testBit_eq_decide_div_mod_eq, Nat.shiftRight_eq_div_pow, beq_eq_decide]

theorem w1c_toNat {n : Nat} (x : Bool) (v : BitVec n) (i : Nat) : w1c x v.toNat i = (x && !v.getLsbD i) := by rw [w1c, bit_toNat]

theorem ofNat_toNat_shiftRight {n : Nat} (m k : Nat) (v : BitVec n) : BitVec.ofNat m (v.toNat >>> k) = (v >>> k).truncate m :=
  BitVec.eq_of_toNat_eq (by simp)

theorem ofNat_toNat_div {n : Nat} (m k : Nat) (v : BitVec n) : BitVec.ofNat m (v.toNat / 2 ^ k) = (v >>> k).truncate m := by
  rw [← Nat.shiftRight_eq_div_pow, ofNat_toNat_shiftRight]

/-- The low half of a doubleword is replaced. -/
theorem ofNat_low_half (x : DWord) (v : Word) :
    BitVec.ofNat 64 (x.toNat / 2 ^ 32 * 2 ^ 32 + v.toNat) = (x >>> 32).truncate 32 ++ v := by
  refine BitVec.eq_of_toNat_eq (Eq.trans ?_ (BitVec.toNat_append _ _).symm)
  have := x.isLt
  rw [← Nat.shiftLeft_add_eq_or_of_lt (BitVec.isLt v)]
  simp [Nat.shiftRight_eq_div_pow, Nat.shiftLeft_eq]
  omega

/-- The high half of a doubleword is replaced. -/
theorem ofNat_high_half (x : DWord) (v : Word) :
    BitVec.ofNat 64 (x.toNat % 2 ^ 32 + v.toNat * 2 ^ 32) = v ++ (x.truncate 32 : Word) := by
  refine BitVec.eq_of_toNat_eq (Eq.trans ?_ (BitVec.toNat_append _ _).symm)
  have := v.isLt
  rw [← Nat.shiftLeft_add_eq_or_of_lt (BitVec.isLt _)]
  simp [Nat.shiftLeft_eq]
  omega

/-! The blocks of registers. A word is written at offset `o` of unit `i` of a block, at a multiple of 4. Which block that is follows from
the bounds of the blocks alone: `omega` passes over the tests for the blocks before it, and finds the unit and the offset in it. -/

section
variable {s : State} {v : Word} {off i o : Nat}

theorem align_word (h : off % 4 = 0) : off / 4 * 4 = off := by omega
theorem word_toNat_mod (v : Word) : v.toNat % 2 ^ 32 = v.toNat := Nat.mod_eq_of_lt v.isLt

theorem State.fabWrite_port (hi : i < 32) (ho : o < 0x100) (h4 : o % 4 = 0) (h : off = 0x400000 + 0x100 * i + o) :
    s.fabWrite off v.toNat = s.portWrite i o v.toNat := by
  have hu : (off - 0x400000) / 0x100 = i := by omega
  have hr : off % 0x100 = o := by omega
  simp (disch := omega) only [State.fabWrite, align_word, word_toNat_mod, Bool.and_eq_true, decide_eq_true_eq, if_pos, hu, hr]

theorem State.fabWrite_delay (hi : i < 32) (h : off = 0x480004 + 0x10 * i) :
    s.fabWrite off v.toNat = s.setPort i { s.port i with tcoef := BitVec.ofNat 16 (v.toNat >>> 16), tref := BitVec.ofNat 16 v.toNat } := by
  have hu : (off - 0x480000) / 0x10 = i := by omega
  simp (disch := omega) only [State.fabWrite, align_word, word_toNat_mod, Bool.and_eq_true, decide_eq_true_eq, beq_iff_eq, if_pos, if_neg, hu]

theorem State.fabWrite_circuit (hi : i < 64) (ho : o < 0x80) (h4 : o % 4 = 0) (h : off = 0x500000 + (0x80 * i + o)) :
    s.fabWrite off v.toNat = s.circuitWrite i o v.toNat := by
  have hu : (off - 0x500000) / 0x80 = i := by omega
  have hr : off % 0x80 = o := by omega
  simp (disch := omega) only [State.fabWrite, align_word, word_toNat_mod, Bool.and_eq_true, decide_eq_true_eq, if_pos, if_neg, hu, hr]

theorem State.fabWrite_fdidcfg : s.fabWrite 0x530000 v.toNat = s.writeFdid v.toNat := by
  simp [State.fabWrite, Nat.mod_eq_of_lt v.isLt]

theorem State.fabWrite_route (hi : i < 4096) (h : off = 0x540000 + 4 * i) :
    s.fabWrite off v.toNat = { s with route := tset s.route i (bit v.toNat 31, BitVec.ofNat 3 v.toNat) } := by
  have hu : (off - 0x540000) / 4 = i := by omega
  simp (disch := omega) only [State.fabWrite, align_word, word_toNat_mod, Bool.and_eq_true, decide_eq_true_eq, beq_iff_eq, if_pos, if_neg, hu]

theorem State.fabWrite_tbstat : s.fabWrite 0x600004 v.toNat = { s with slotmiss := w1c s.slotmiss v.toNat 30 } := by
  simp [State.fabWrite, Nat.mod_eq_of_lt v.isLt]

theorem State.fabWrite_tbctl : s.fabWrite 0x600008 v.toNat = s.writeTbctl v.toNat := by
  simp [State.fabWrite, Nat.mod_eq_of_lt v.isLt]

theorem State.fabWrite_gwake (hi : i < 4) (h : off = 0x620008 + 0x10 * i) : s.fabWrite off v.toNat = s.writeGwake i v := by
  have hu : (off - 0x620000) / 0x10 = i := by omega
  simp (disch := omega) only [State.fabWrite, align_word, word_toNat_mod, Bool.and_eq_true, decide_eq_true_eq, beq_iff_eq, if_pos, if_neg, hu,
    BitVec.ofNat_toNat, BitVec.setWidth_eq]

theorem State.fabWrite_svstat : s.fabWrite 0x680004 v.toNat = { s with mgmt := { s.mgmt with ucerr := false } } := by
  simp [State.fabWrite]

theorem State.fabWrite_slot (hi : i < 32) (ho : o < 0x100) (h4 : o % 4 = 0)
    (h : off = 0x700000 + (0x80000 * (i / 16) + 0x100 * (i % 16) + o)) : s.fabWrite off v.toNat = s.slotWrite i o v.toNat := by
  have hu : (off - 0x700000) / 0x80000 * 16 + off % 0x80000 / 0x100 = i := by omega
  have hr : off % 0x100 = o := by omega
  simp (disch := omega) only [State.fabWrite, align_word, word_toNat_mod, Bool.and_eq_true, decide_eq_true_eq, beq_iff_eq, if_pos, if_neg, hu, hr]

theorem State.fabWrite_qstat (hi : i < 64) (h : off = 0x900004 + 0x10 * i) :
    s.fabWrite off v.toNat = if v.toNat / 2 ^ 24 = 0 then s else s.setHq i { s.hq i with rejcnt := 0 } := by
  have hu : (off - 0x900000) / 0x10 = i := by omega
  have hr : (off % 0x10 == 4) = true := by rw [beq_iff_eq]; omega
  simp (disch := omega) only [State.fabWrite, align_word, word_toNat_mod, Bool.and_eq_true, decide_eq_true_eq, beq_iff_eq, if_pos, if_neg, hu,
    hr, true_and, bne_iff_ne, ite_not]

theorem State.fabWrite_qwake (hi : i < 64) (h : off = 0x900008 + 0x10 * i) : s.fabWrite off v.toNat = s.writeQwake i v := by
  have hu : (off - 0x900000) / 0x10 = i := by omega
  simp (disch := omega) only [State.fabWrite, align_word, word_toNat_mod, Bool.and_eq_true, decide_eq_true_eq, beq_iff_eq, if_pos, if_neg, hu,
    BitVec.ofNat_toNat, BitVec.setWidth_eq]

theorem State.fabWrite_die (hi : i < 2) (ho : o < 0x100) (h4 : o % 4 = 0) (h : off = 0x910000 + 0x100 * i + o) :
    s.fabWrite off v.toNat = s.dieWrite i o v.toNat := by
  have hu : (off - 0x910000) / 0x100 = i := by omega
  have hr : off % 0x100 = o := by omega
  simp (disch := omega) only [State.fabWrite, align_word, word_toNat_mod, Bool.and_eq_true, decide_eq_true_eq, beq_iff_eq, if_pos, if_neg, hu, hr]

theorem State.fabWrite_power (hi : i < 16) (ho : o < 0x100) (h4 : o % 4 = 0) (h : off = 0xA00000 + 0x100 * i + o) :
    s.fabWrite off v.toNat = s.powerWrite i o v.toNat := by
  have hu : (off - 0xA00000) / 0x100 = i := by omega
  have hr : off % 0x100 = o := by omega
  simp (disch := omega) only [State.fabWrite, align_word, word_toNat_mod, Bool.and_eq_true, decide_eq_true_eq, beq_iff_eq, if_pos, if_neg, hu, hr]

theorem State.fabWrite_pm (hi : i < 256) (ho : o < 0x10) (h4 : o % 4 = 0) (h : off = 0xB80000 + 0x10 * i + o) :
    s.fabWrite off v.toNat = s.pmWrite i o v.toNat := by
  have hu : (off - 0xB80000) / 0x10 = i := by omega
  have hr : off % 0x10 = o := by omega
  simp (disch := omega) only [State.fabWrite, align_word, word_toNat_mod, Bool.and_eq_true, decide_eq_true_eq, beq_iff_eq, if_pos, if_neg, hu, hr]

theorem State.fabWrite_wdcfg (hi : i < 2) (h : off = 0xB90000 + 4 * i) : s.fabWrite off v.toNat = s.writeWdcfg i v.toNat := by
  have hu : (off - 0xB90000) / 4 = i := by omega
  simp (disch := omega) only [State.fabWrite, align_word, word_toNat_mod, Bool.and_eq_true, Bool.or_eq_true, decide_eq_true_eq, beq_iff_eq, if_pos,
    if_neg, hu]

/-- Offsets below the first block and beyond the last. -/
theorem State.fabWrite_unmapped (h4 : off % 4 = 0) (h : off < 0x400000 ∨ 0xC00000 ≤ off) : s.fabWrite off v.toNat = s := by
  simp (disch := omega) only [State.fabWrite, align_word, word_toNat_mod, Bool.and_eq_true, Bool.or_eq_true, decide_eq_true_eq, beq_iff_eq, if_neg]

end

end Sys2Proof.Machine
end

