-- ==== Sys2Proof/Proofs/RegisterWrites.lean ====
section
/-! PROOF. What a write does to each block of fabric registers, and the settling of the claim on REGISTER_WRITE. -/

namespace Sys2Proof.Machine

open Sys2Proof.Claims

/-! REGISTER_WRITE -/

theorem toNat_ofNat_of_lt {w n : Nat} (h : n < 2 ^ w) : (BitVec.ofNat w n).toNat = n := by
  rw [BitVec.toNat_ofNat, Nat.mod_eq_of_lt h]

section
variable {v : Word} {s t : State} {n : Nat}

theorem ends_registerWrite {off : BitVec 24} {P : State → Prop} (h4 : off.toNat % 4 = 0) (h : P (s.fabWrite off.toNat v.toNat)) :
    Ends (.registerWrite off v) s P := by
  refine ⟨s.fabWrite off.toNat v.toNat, ?_, h⟩
  change execRegisterWrite off v s = _
  simp [execRegisterWrite, h4]

/-- A write that its register ignores, or at an offset that is no multiple of 4. -/
theorem registerWrite_ignored {off : BitVec 24} (h : off.toNat % 4 = 0 → s.fabWrite off.toNat v.toNat = s) :
    Ends (.registerWrite off v) s (fun u => u = s) := by
  by_cases h4 : off.toNat % 4 = 0
  · exact ends_registerWrite h4 (h h4)
  · refine ⟨s, ?_, rfl⟩
    change execRegisterWrite off v s = _
    simp [execRegisterWrite, h4]

theorem registerWrite_at {P : State → Prop} (h : P (s.fabWrite n v.toNat)) (hn : n < 2 ^ 24 := by omega) (h4 : n % 4 = 0 := by omega) :
    Ends (.registerWrite (BitVec.ofNat 24 n) v) s P := by
  have e : (BitVec.ofNat 24 n).toNat = n := toNat_ofNat_of_lt hn
  exact ends_registerWrite (by rw [e]; exact h4) (by rw [e]; exact h)

/-- A write that also makes events possible or due. -/
theorem registerWrite_seen (h : t.EventsOnly (s.fabWrite n v.toNat)) (hn : n < 2 ^ 24 := by omega) (h4 : n % 4 = 0 := by omega) :
    Ends (.registerWrite (BitVec.ofNat 24 n) v) s (fun u => u = { t with queue := u.queue, timers := u.timers }) :=
  registerWrite_at h.eq hn h4

end

/-- An event that a command bit calls for. -/
theorem exec_if {b : Bool} {i : Instr} {a t : State} (h : exec i a = .next t) :
    if b = true then exec i a = .next (if b = true then t else a) else (if b = true then t else a) = a := by
  cases b
  · rfl
  · exact h

/-! Ports -/

section
variable (s : State) (p : Nat) (v : Word)

theorem State.portWrite_opstat : s.portWrite p 0x04 v.toNat = s.setPort p { s.port p with
    vermis := (s.port p).vermis && !v.getLsbD 8, laserlost := (s.port p).laserlost && !v.getLsbD 7
    lockfail := (s.port p).lockfail && !v.getLsbD 6, lockloss := (s.port p).lockloss && !v.getLsbD 5
    drainlost := (s.port p).drainlost && !v.getLsbD 4, berhigh := (s.port p).berhigh && !v.getLsbD 3
    badreq := (s.port p).badreq && !v.getLsbD 2, caldone := (s.port p).caldone && !v.getLsbD 0 } := by
  simp only [State.portWrite, w1c_toNat]

theorem State.portWrite_opcfg : s.portWrite p 0x08 v.toNat = s.setPort p { s.port p with
    berth := (v >>> 16).truncate 16, loopbk := v.getLsbD 0 } := by
  simp only [State.portWrite, bit_toNat, ← ofNat_toNat_div]
  rfl

/-- A write of OPCTL does what its events do, in the order of its fields. -/
theorem State.writeOpctl_eq {a b c : State} (ha : s.writeGrp p ((v >>> 4).truncate 4) = a) (hb : a.writeTarget p (v.truncate 2) = b)
    (hc : (if v.getLsbD 2 = true then b.writeCal p else b) = c) :
    s.writeOpctl p v.toNat = if v.getLsbD 3 = true then c.clearCounts p else c := by
  subst ha hb hc
  have grp : BitVec.ofNat 4 (v.toNat / 16) = (v >>> 4).truncate 4 := ofNat_toNat_div 4 4 v
  simp only [State.writeOpctl, bit_toNat, grp, BitVec.ofNat_toNat]

theorem State.fabWrite_tcoef (hp : p < 32) : s.fabWrite (0x480004 + 0x10 * p) v.toNat =
    s.setPort p { s.port p with tcoef := (v >>> 16).truncate 16, tref := v.truncate 16 } := by
  rw [State.fabWrite_delay hp rfl, ofNat_toNat_shiftRight, BitVec.ofNat_toNat]

end

theorem opctl_registerWrite {s : State} {v : Word} {p : Nat} (hp : p < 32) :
    ∃ a b c, exec (.opctlGrpmaskWrite (BitVec.ofNat 5 p) ((v >>> 4).truncate 4)) s = .next a ∧
      exec (.opctlTargetWrite (BitVec.ofNat 5 p) (v.truncate 2)) a = .next b ∧
      (if v.getLsbD 2 = true then exec (.calreq (BitVec.ofNat 5 p)) b = .next c else c = b) ∧
      ∃ d, (if v.getLsbD 3 = true then exec (.clrcnt (BitVec.ofNat 5 p)) c = .next d else d = c) ∧
        Ends (.registerWrite (BitVec.ofNat 24 (0x400000 + 0x100 * p)) v) s (fun u => u = d) := by
  have hpn : (BitVec.ofNat 5 p).toNat = p := toNat_ofNat_of_lt hp
  refine ⟨_, _, _, rfl, rfl, exec_if rfl, _, exec_if rfl, registerWrite_at ?_⟩
  rw [hpn]
  exact (State.fabWrite_port (o := 0) hp (by decide) rfl (by omega)).trans (State.writeOpctl_eq s p v rfl rfl rfl)

/-! Circuit table entries -/

section
variable {s : State} {e : Nat} (v : Word)

/-- An entry in use ignores writes (R69). -/
theorem State.circuitWrite_busy (h0 : (s.circuit e).st ≠ 0) (h6 : (s.circuit e).st ≠ 6) (o n : Nat) : s.circuitWrite e o n = s := by
  have busy : ((s.circuit e).st != 0 && (s.circuit e).st != 6) = true := by simp only [bne_iff_ne, Bool.and_eq_true]; exact ⟨h0, h6⟩
  exact if_pos busy

variable (idle : (s.circuit e).st = 0 ∨ (s.circuit e).st = 6)
include idle

theorem Circuit.idle_guard : ((s.circuit e).st != 0 && (s.circuit e).st != 6) = false := by
  rcases idle with h | h <;> simp [h]

theorem State.circuitWrite_ctl : s.circuitWrite e 0x00 v.toNat = s.setCircuit e { s.circuit e with
    retrymax := (v >>> 20).truncate 4, grpmask := (v >>> 16).truncate 4, slotted := v.getLsbD 15, port := v.truncate 5 } := by
  simp only [State.circuitWrite, Circuit.idle_guard idle, bit_toNat, ofNat_toNat_shiftRight, BitVec.ofNat_toNat, Bool.false_eq_true, if_false]

theorem State.circuitWrite_peer : s.circuitWrite e 0x04 v.toNat = s.setCircuit e { s.circuit e with
    peerdev := (v >>> 16).truncate 12, peerport := v.truncate 5 } := by
  simp only [State.circuitWrite, Circuit.idle_guard idle, ofNat_toNat_shiftRight, BitVec.ofNat_toNat, Bool.false_eq_true, if_false]

theorem State.circuitWrite_hops : s.circuitWrite e 0x08 v.toNat = s.setCircuit e { s.circuit e with hopcnt := v.truncate 4 } := by
  simp only [State.circuitWrite, Circuit.idle_guard idle, BitVec.ofNat_toNat, Bool.false_eq_true, if_false]

theorem State.circuitWrite_slotbaseLow : s.circuitWrite e 0x18 v.toNat = s.setCircuit e { s.circuit e with
    slotbase := ((s.circuit e).slotbase >>> 32).truncate 32 ++ v } := by
  simp only [State.circuitWrite, Circuit.idle_guard idle, ofNat_low_half, Bool.false_eq_true, if_false]

theorem State.circuitWrite_slotbaseHigh : s.circuitWrite e 0x1C v.toNat = s.setCircuit e { s.circuit e with
    slotbase := v ++ ((s.circuit e).slotbase.truncate 32 : Word) } := by
  simp only [State.circuitWrite, Circuit.idle_guard idle, ofNat_high_half, Bool.false_eq_true, if_false]

theorem State.circuitWrite_slotper : s.circuitWrite e 0x20 v.toNat = s.setCircuit e { s.circuit e with slotper := v } := by
  simp only [State.circuitWrite, Circuit.idle_guard idle, BitVec.ofNat_toNat, BitVec.setWidth_eq, Bool.false_eq_true, if_false]

theorem State.circuitWrite_slotlen : s.circuitWrite e 0x24 v.toNat = s.setCircuit e { s.circuit e with slotlen := v } := by
  simp only [State.circuitWrite, Circuit.idle_guard idle, BitVec.ofNat_toNat, BitVec.setWidth_eq, Bool.false_eq_true, if_false]

theorem State.circuitWrite_guard : s.circuitWrite e 0x28 v.toNat = s.setCircuit e { s.circuit e with guard := v.truncate 16 } := by
  simp only [State.circuitWrite, Circuit.idle_guard idle, BitVec.ofNat_toNat, Bool.false_eq_true, if_false]

theorem State.circuitWrite_route {k : Nat} (hk : k < 8) : s.circuitWrite e (0x40 + 4 * k) v.toNat =
    s.setCircuit e { s.circuit e with route := (s.circuit e).route.set k v } := by
  have index : (0x40 + 4 * k - 0x40) / 4 = k := by omega
  simp only [State.circuitWrite, Circuit.idle_guard idle, Bool.false_eq_true, if_false]
  split
  case h_9 => rw [if_pos (by simp; omega), index, BitVec.ofNat_toNat, BitVec.setWidth_eq]
  all_goals omega

end

/-! FDIDCFG and fabric time -/

/-- The low twelve bits of a word are an FDID. -/
theorem toNat_mod_fdid_iff (v : Word) (k : BitVec 12) : v.toNat % 4096 = k.toNat ↔ v.truncate 12 = k := by
  rw [← BitVec.toNat_inj, BitVec.truncate_eq_setWidth, BitVec.toNat_setWidth]

/-- A write of FDIDCFG that the device ignores (R60). -/
theorem fdid_refused_iff (v : Word) : (bit v.toNat 31 && (v.toNat % 4096 == 0 || v.toNat % 4096 == 0xFFF)) = true ↔
    v.getLsbD 31 = true ∧ (v.truncate 12 = (0 : BitVec 12) ∨ v.truncate 12 = (0xFFF : BitVec 12)) := by
  rw [Bool.and_eq_true, Bool.or_eq_true, beq_iff_eq, beq_iff_eq, bit_toNat, ← toNat_mod_fdid_iff, ← toNat_mod_fdid_iff]
  rfl

/-- A write that sets VALID with FDID 0x000 or 0xFFF is ignored (R60). -/
theorem State.writeFdid_refused (s : State) {v : Word} (h31 : v.getLsbD 31 = true)
    (h : v.truncate 12 = (0 : BitVec 12) ∨ v.truncate 12 = (0xFFF : BitVec 12)) : s.writeFdid v.toNat = s :=
  if_pos ((fdid_refused_iff v).mpr ⟨h31, h⟩)

/-- Any other write sets both fields, and packets that wait may begin. -/
theorem State.writeFdid_taken (s : State) {v : Word}
    (h : v.getLsbD 31 = false ∨ v.truncate 12 ≠ (0 : BitVec 12) ∧ v.truncate 12 ≠ (0xFFF : BitVec 12)) :
    State.LinksOnly { s with fdidValid := v.getLsbD 31, fdid := v.truncate 12 } (s.writeFdid v.toNat) := by
  have taken : ¬(bit v.toNat 31 && (v.toNat % 4096 == 0 || v.toNat % 4096 == 0xFFF)) = true := by
    rw [fdid_refused_iff]
    rintro ⟨h31, h0⟩
    rcases h with h | ⟨h1, h2⟩
    · exact Bool.false_ne_true (h.symm.trans h31)
    · exact h0.elim h1 h2
  have low : BitVec.ofNat 12 (v.toNat % 4096) = v.truncate 12 := BitVec.eq_of_toNat_eq (by simp)
  rw [State.writeFdid, if_neg taken, low, bit_toNat]
  exact State.LinksOnly.pumpAll _

/-- A new master's first beacon falls due (R78). -/
theorem State.EventsOnly.writeTbctl (s : State) (v : Word) :
    State.EventsOnly { s with master := v.getLsbD 31, bper := v.truncate 20 } (s.writeTbctl v.toNat) := by
  simp only [State.writeTbctl, bit_toNat, BitVec.ofNat_toNat]
  split
  · exact .atTime ..
  · exact .refl _

/-! Program slots -/

theorem slotIx_slotAt {i : Nat} (hi : i < 32) : slotIx (slotAt i) = i := by
  simp only [slotIx, slotAt, BitVec.toNat_ofNat]
  omega

/-- A write of CRCTL does what its events do, in the order of its fields. -/
theorem State.slotWrite_crctl (s : State) (i : Nat) (v : Word) {a b : State} (ha : (if v.getLsbD 0 = true then s.cruPause i else s) = a)
    (hb : (if v.getLsbD 1 = true then a.cruResume i else a) = b) :
    s.slotWrite i 0 v.toNat = if v.getLsbD 2 = true then b.cruAbort i else b := by
  subst ha hb
  simp only [State.slotWrite, bit_toNat, beq_self_eq_true, if_true]

theorem crctl_registerWrite {s : State} {v : Word} {i : Nat} (hi : i < 32) :
    ∃ a b c, (if v.getLsbD 0 = true then exec (.crctlPause (slotAt i)) s = .next a else a = s) ∧
      (if v.getLsbD 1 = true then exec (.crctlResume (slotAt i)) a = .next b else b = a) ∧
      (if v.getLsbD 2 = true then exec (.crctlAbort (slotAt i)) b = .next c else c = b) ∧
      Ends (.registerWrite (BitVec.ofNat 24 (0x700000 + (0x80000 * (i / 16) + 0x100 * (i % 16) + 0))) v) s (fun u => u = c) := by
  refine ⟨_, _, _, exec_if rfl, exec_if rfl, exec_if rfl, registerWrite_at ?_⟩
  rw [slotIx_slotAt hi]
  exact (State.fabWrite_slot (o := 0) hi (by decide) rfl (by omega)).trans (State.slotWrite_crctl s i v rfl rfl)

/-- A word of CRSKIP is written while the slot is PAUSED (R139). -/
theorem State.slotWrite_skip (s : State) (i : Nat) {k : Nat} (hk : k < 32) (v : Word) : s.slotWrite i (0x80 + 4 * k) v.toNat =
    if (s.cx i).st = 4 then s.setCx i { s.cx i with skip := tset (s.cx i).skip k v } else s := by
  have index : (0x80 + 4 * k - 0x80) / 4 = k := by omega
  have inside : (decide (0x80 ≤ 0x80 + 4 * k) && decide (0x80 + 4 * k < 0x100)) = true := by simp; omega
  have other : (0x80 + 4 * k == 0) = false := by simp
  simp only [State.slotWrite, other, inside, index, Bool.false_eq_true, if_false, Bool.true_and, beq_iff_eq, BitVec.ofNat_toNat, BitVec.setWidth_eq]

/-! Dies -/

theorem State.EventsOnly.rearmIdle (s : State) (d : Nat) : s.EventsOnly (s.rearmIdle d) :=
  .each (fun s i => by
    dsimp only
    split
    · exact (State.EventsOnly.atTime ..).trans (.atTime ..)
    · exact .refl s) _ s

theorem State.EventsOnly.dieWrite_idle (s : State) (d : Nat) (v : Word) :
    State.EventsOnly (s.setDie d { s.die d with gateen := v.getLsbD 31, idlefc := v.truncate 20 }) (s.dieWrite d 0x4 v.toNat) := by
  simp only [State.dieWrite, bit_toNat, BitVec.ofNat_toNat]
  exact .rearmIdle ..

/-- Waits under way fall due again under a new limit (R311). -/
theorem State.EventsOnly.writeWdcfg (s : State) (d : Nat) (v : Word) :
    State.EventsOnly (s.setDie d { s.die d with wden := v.getLsbD 31, wdt := v.truncate 20 }) (s.writeWdcfg d v.toNat) := by
  simp only [State.writeWdcfg, bit_toNat, BitVec.ofNat_toNat]
  split
  · exact .refl _
  · refine .each (fun s p => ?_) _ _
    split
    · exact .refl s
    · refine .each (fun s f => ?_) _ s
      split
      · exact .atTime ..
      · exact .refl s

/-! Clusters -/

theorem State.EventsOnly.powerWrite_slope (s : State) (n : Nat) (v : Word) :
    State.EventsOnly (s.setCluster n { s.cluster n with
      relsp := (v >>> 24).truncate 8, relgrp := (v >>> 20).truncate 4, ramp := (v >>> 8).truncate 8, intv := v.truncate 8 })
      (s.powerWrite n 0x00 v.toNat) := by
  simp only [State.powerWrite, ofNat_toNat_shiftRight, BitVec.ofNat_toNat]
  exact .post ..

theorem State.EventsOnly.powerWrite_calibration (s : State) (n : Nat) (v : Word) :
    State.EventsOnly (s.setCluster n { s.cluster n with calen := v.getLsbD 31, gband := (v >>> 16).truncate 5, calper := v.truncate 16 })
      (s.powerWrite n 0x0C v.toNat) := by
  simp only [State.powerWrite, bit_toNat, ofNat_toNat_shiftRight, BitVec.ofNat_toNat]
  exact .atTime ..

theorem State.powerWrite_droop (s : State) (n : Nat) {i : Nat} (hi : i < 12) (v : Word) : s.powerWrite n (0x40 + 4 * i) v.toNat =
    s.setCore (n * 12 + i) { s.core (n * 12 + i) with drpth := v.truncate 8 } := by
  have index : (0x40 + 4 * i - 0x40) / 4 = i := by omega
  simp only [State.powerWrite]
  split
  case h_3 => rw [if_pos (by simp; omega), index, BitVec.ofNat_toNat]; rfl
  all_goals omega

/-! Contexts -/

theorem State.updCtx_eq {s : State} {x : Nat} {c : Ctx} (h : s.ctx? x = some c) (f : Ctx → Ctx) : s.updCtx x f = s.setCtx x (f c) := by
  simp only [State.updCtx, h]

/-- Only a draining context is looked at for the end of its drain. -/
theorem State.savedCheck_of_not_draining {s : State} {x : Nat} {c : Ctx} (h : s.ctx? x = some c) (hp : c.pmst ≠ 1) : s.savedCheck x = s := by
  have idle : (c.pmst != 1) = true := bne_iff_ne.mpr hp
  simp only [State.savedCheck, h, idle, Bool.true_or, if_true]

/-- RESTORE, or BADREQ where it has no effect (R316). -/
def State.restoreOrBad (s : State) (x : Nat) : State := if (s.pmRestore x).1 = true then (s.pmRestore x).2 else (s.pmRestore x).2.pmBad x

theorem exec_pmctlRestore (x : BitVec 8) (s : State) : exec (.pmctlRestore x) s = .next (s.restoreOrBad x.toNat) := rfl

/-- A restore leaves a context that does not drain. -/
theorem State.savedCheck_restoreOrBad {s : State} {x : Nat} {c : Ctx} (h : s.ctx? x = some c) (hp : c.pmst ≠ 1) :
    (s.restoreOrBad x).savedCheck x = s.restoreOrBad x := by
  by_cases h2 : c.pmst = 2
  · have e : s.restoreOrBad x = (s.setCtx x { c with pmst := 3 }).post (.restorePlace (BitVec.ofNat 8 x)) := by
      simp [State.restoreOrBad, State.pmRestore, h, h2]
    have restoring : (s.restoreOrBad x).ctx? x = some { c with pmst := 3 } := by
      rw [e, State.post_eq]
      exact State.ctx?_setCtx ..
    exact State.savedCheck_of_not_draining restoring (by simp)
  · have e : s.restoreOrBad x = s.setCtx x { c with badreq := true } := by
      simp only [State.restoreOrBad, State.pmRestore, h, beq_iff_eq, if_neg h2, Bool.false_eq_true, if_false]
      exact State.updCtx_eq h _
    rw [e]
    exact State.savedCheck_of_not_draining (State.ctx?_setCtx ..) hp

theorem State.pmWrite_none {s : State} {x : Nat} (h : s.ctx? x = none) (v : Nat) : s.pmWrite x 0x0 v = s ∧ s.pmWrite x 0x4 v = s := by
  simp [State.pmWrite, State.writePmctl, State.updCtx, h]

section
variable {s : State} {x : Nat} {c : Ctx} {v : Word} (h : s.ctx? x = some c)
include h

theorem State.pmWrite_pmstat : s.pmWrite x 0x4 v.toNat =
    s.setCtx x { c with nospace := c.nospace && !v.getLsbD 29, badreq := c.badreq && !v.getLsbD 28 } := by
  simp only [State.pmWrite, State.updCtx_eq h, w1c_toNat]

/-- A write of PMCTL with at most one command sets DEADLINE, then does what the command says (R316, R317). -/
theorem State.pmWrite_pmctl (one : v.getLsbD 0 = false ∨ v.getLsbD 1 = false) {t : State}
    (ht : s.setCtx x { c with deadline := (v >>> 12).truncate 20 } = t) :
    s.pmWrite x 0x0 v.toNat =
      (if v.getLsbD 0 = true then (t.pmReq x).2 else if v.getLsbD 1 = true then t.restoreOrBad x else t).savedCheck x := by
  have dl : BitVec.ofNat 20 (v.toNat / 4096) = (v >>> 12).truncate 20 := ofNat_toNat_div 20 12 v
  simp only [State.pmWrite, State.writePmctl, State.updCtx_eq h, h, dl, ht, bit_toNat]
  rcases one with h0 | h1
  · simp only [h0]; rfl
  · simp only [h1]; cases v.getLsbD 0 <;> simp

end

section
variable {s : State} {x : Nat} {c : Ctx} {v : Word} (hx : x < 256) (h : s.ctx? x = some c)
include hx h

theorem pmctl_registerWrite_deadline (h0 : v.getLsbD 0 = false) (h1 : v.getLsbD 1 = false) (hp : c.pmst ≠ 1) :
    Ends (.registerWrite (BitVec.ofNat 24 (0xB80000 + 0x10 * x)) v) s (fun u => u = s.setCtx x { c with deadline := (v >>> 12).truncate 20 }) := by
  refine registerWrite_at ?_
  rw [State.fabWrite_pm (o := 0) hx (by decide) rfl (by omega), State.pmWrite_pmctl h (.inl h0) rfl, h0, h1]
  exact State.savedCheck_of_not_draining (State.ctx?_setCtx ..) hp

theorem pmctl_registerWrite_req (h0 : v.getLsbD 0 = true) (h1 : v.getLsbD 1 = false) :
    ∃ t, exec (.pmctlReq (BitVec.ofNat 8 x)) (s.setCtx x { c with deadline := (v >>> 12).truncate 20 }) = .next t ∧
      Ends (.registerWrite (BitVec.ofNat 24 (0xB80000 + 0x10 * x)) v) s (fun u => u = t) := by
  have hxn : (BitVec.ofNat 8 x).toNat = x := toNat_ofNat_of_lt hx
  refine ⟨_, rfl, registerWrite_at ?_⟩
  rw [hxn, State.fabWrite_pm (o := 0) hx (by decide) rfl (by omega), State.pmWrite_pmctl h (.inr h1) rfl, h0]
  rfl

theorem pmctl_registerWrite_restore (h0 : v.getLsbD 0 = false) (h1 : v.getLsbD 1 = true) (hp : c.pmst ≠ 1) :
    ∃ t, exec (.pmctlRestore (BitVec.ofNat 8 x)) (s.setCtx x { c with deadline := (v >>> 12).truncate 20 }) = .next t ∧
      Ends (.registerWrite (BitVec.ofNat 24 (0xB80000 + 0x10 * x)) v) s (fun u => u = t) := by
  have hxn : (BitVec.ofNat 8 x).toNat = x := toNat_ofNat_of_lt hx
  refine ⟨_, exec_pmctlRestore .., registerWrite_at ?_⟩
  rw [hxn, State.fabWrite_pm (o := 0) hx (by decide) rfl (by omega), State.pmWrite_pmctl h (.inl h0) rfl, h0, h1]
  exact State.savedCheck_restoreOrBad (State.ctx?_setCtx ..) hp

end

/-! Registers that ignore writes -/

theorem State.fabWrite_readOnly (s : State) (v : Word) : ∀ off ∈ ([0x530004, 0x600000, 0x910008, 0x91000C, 0xA00004, 0xA00008, 0xA00010,
    0xA80000, 0xA90000, 0xB00000, 0x920000, 0x900000] : List (BitVec 24)), s.fabWrite off.toNat v.toNat = s := by
  simp [State.fabWrite, State.dieWrite, State.powerWrite]

/-- The claim on REGISTER_WRITE: each block of registers in turn. -/
theorem registerWrites : RegisterWrites := by
  intro v s
  refine ⟨fun off h4 => registerWrite_ignored (fun h => absurd h h4), fun p hp => ?ports, fun e he => ?circuits,
    fun h31 h => registerWrite_ignored (fun _ => State.fabWrite_fdidcfg.trans (s.writeFdid_refused h31 h)), fun h => ?fdid, fun k hk => ?route,
    ?tbstat, ?tbctl, fun k hk => ?gwake, ?svstat, fun i hi => ?slots, fun q hq => ?queues, fun d hd => ?dies, fun n hn => ?clusters,
    fun x hx => ?contexts, fun off h => registerWrite_ignored (fun _ => s.fabWrite_readOnly v off h),
    fun off h => registerWrite_ignored (fun h4 => State.fabWrite_unmapped h4 (.inl h)),
    fun off h => registerWrite_ignored (fun h4 => State.fabWrite_unmapped h4 (.inr h))⟩
  case ports =>
    exact ⟨opctl_registerWrite hp,
      registerWrite_at ((State.fabWrite_port (o := 4) hp (by decide) rfl (by omega)).trans (s.portWrite_opstat p v)),
      registerWrite_at ((State.fabWrite_port (o := 8) hp (by decide) rfl (by omega)).trans (s.portWrite_opcfg p v)),
      registerWrite_at (s.fabWrite_tcoef p v hp)⟩
  case circuits =>
    have field {o : Nat} {t : State} (h : s.circuitWrite e o v.toNat = t) (ho : o < 0x80 := by omega) (h4 : o % 4 = 0 := by omega) :
        Ends (.registerWrite (BitVec.ofNat 24 (0x500000 + (0x80 * e + o))) v) s (fun u => u = t) :=
      registerWrite_at ((State.fabWrite_circuit he ho h4 rfl).trans h)
    refine ⟨fun h0 h6 o ho => registerWrite_ignored (fun h4 => ?_), fun idle => ?_⟩
    · have here : (BitVec.ofNat 24 (0x500000 + (0x80 * e + o))).toNat = 0x500000 + (0x80 * e + o) := toNat_ofNat_of_lt (by omega)
      rw [here] at h4 ⊢
      exact (State.fabWrite_circuit he ho (by omega) rfl).trans (State.circuitWrite_busy h0 h6 ..)
    · exact ⟨field (State.circuitWrite_ctl v idle), field (State.circuitWrite_peer v idle), field (State.circuitWrite_hops v idle),
        field (State.circuitWrite_slotbaseLow v idle), field (State.circuitWrite_slotbaseHigh v idle), field (State.circuitWrite_slotper v idle),
        field (State.circuitWrite_slotlen v idle), field (State.circuitWrite_guard v idle), fun k hk => field (State.circuitWrite_route v idle hk)⟩
  case fdid =>
    refine registerWrite_at (n := 0x530000) ?_
    rw [State.fabWrite_fdidcfg]
    obtain ⟨ls, op, oc, tm, e⟩ := s.writeFdid_taken h
    rw [e]
    exact ⟨rfl, rfl, rfl, rfl, rfl, rfl, rfl, rfl⟩
  case route =>
    refine registerWrite_at ?_
    rw [State.fabWrite_route hk rfl, bit_toNat, BitVec.ofNat_toNat]
  case tbstat => exact registerWrite_at (n := 0x600004) (by rw [State.fabWrite_tbstat, w1c_toNat])
  case tbctl => exact registerWrite_seen (n := 0x600008) (by rw [State.fabWrite_tbctl]; exact .writeTbctl s v)
  case gwake => exact registerWrite_at (State.fabWrite_gwake hk rfl)
  case svstat => exact registerWrite_at (n := 0x680004) State.fabWrite_svstat
  case slots =>
    refine ⟨crctl_registerWrite hi, fun k hk => ?_⟩
    have skip := (State.fabWrite_slot (v := v) (s := s) (o := 0x80 + 4 * k) hi (by omega) (by omega) rfl).trans (s.slotWrite_skip i hk v)
    exact ⟨fun h4 => registerWrite_at (by rw [skip, if_pos h4]), fun h4 => registerWrite_at (by rw [skip, if_neg h4])⟩
  case queues =>
    have hqn : (BitVec.ofNat 6 q).toNat = q := toNat_ofNat_of_lt hq
    exact ⟨registerWrite_at (State.fabWrite_qstat hq rfl), _, rfl, registerWrite_at (by rw [hqn]; exact State.fabWrite_qwake hq rfl)⟩
  case dies =>
    have hdn : (BitVec.ofNat 1 d).toNat = d := toNat_ofNat_of_lt hd
    exact ⟨⟨_, rfl, registerWrite_at (by rw [hdn]; exact State.fabWrite_die (o := 0) hd (by decide) rfl (by omega))⟩,
      registerWrite_seen (by rw [State.fabWrite_die (o := 4) hd (by decide) rfl (by omega)]; exact .dieWrite_idle s d v),
      registerWrite_seen (by rw [State.fabWrite_wdcfg hd rfl]; exact .writeWdcfg s d v)⟩
  case clusters =>
    exact ⟨registerWrite_seen (by rw [State.fabWrite_power (o := 0) hn (by decide) rfl (by omega)]; exact .powerWrite_slope s n v),
      registerWrite_seen (by rw [State.fabWrite_power (o := 0xC) hn (by decide) rfl (by omega)]; exact .powerWrite_calibration s n v),
      fun i hi => registerWrite_at
        ((State.fabWrite_power (o := 0x40 + 4 * i) hn (by omega) (by omega) (by omega)).trans (s.powerWrite_droop n hi v))⟩
  case contexts =>
    refine ⟨fun h => ?_, fun c h => ⟨pmctl_registerWrite_deadline hx h, pmctl_registerWrite_req hx h, pmctl_registerWrite_restore hx h,
      registerWrite_at ((State.fabWrite_pm (o := 4) hx (by decide) rfl (by omega)).trans (State.pmWrite_pmstat h))⟩⟩
    obtain ⟨ctl, stat⟩ := State.pmWrite_none h v.toNat
    exact ⟨registerWrite_at ((State.fabWrite_pm (o := 0) hx (by decide) rfl (by omega)).trans ctl),
      registerWrite_at ((State.fabWrite_pm (o := 4) hx (by decide) rfl (by omega)).trans stat)⟩

end Sys2Proof.Machine
end

