-- ==== Sys2Proof/Proofs/ReserveAndGating.lean ====
section
/-! PROOF. The communication reserve, power gating and the wake registers, and the settling of the obligation on registers. -/

namespace Sys2Proof.Machine

open Sys2Proof.Claims

/-! The communication reserve (R206, R211) -/

theorem State.EventsOnly.tryPlace (s : State) : s.EventsOnly s.tryPlace := ⟨s.tryPlace.queue, s.timers, s.tryPlace_eq⟩

theorem State.EventsOnly.setDie {s t : State} (d : Nat) (k : Die) : s.EventsOnly t → (s.setDie d k).EventsOnly (t.setDie d k) := by
  rintro ⟨q, tm, rfl⟩; exact ⟨q, tm, rfl⟩

theorem State.EventsOnly.die_eq {s t : State} (d : Nat) : s.EventsOnly t → t.die d = s.die d := by rintro ⟨q, tm, rfl⟩; rfl

/-- CUR rises to MIN and one for eight waiting queues, and no further than MAX; the 20 µs count is the only other change. -/
theorem State.EventsOnly.reserve (s : State) (d : Nat) : ∃ wz, (s.setDie d { s.die d with
    cur := max (s.die d).cur (min (s.die d).max.toNat ((s.die d).min.toNat + s.commWaiting d / 8)), wzero := wz }).EventsOnly (s.reserve d) := by
  simp only [State.reserve]
  split
  · exact ⟨_, .atTime ..⟩
  · exact ⟨_, .refl _⟩

/-- A die's reserve between its bounds. -/
structure Die.Reserve (k : Die) (mn mx : Nat) : Prop where
  max : k.max.toNat = mx
  min : k.min.toNat = mn
  low : mn ≤ k.cur
  high : k.cur ≤ mx

theorem State.writeComres_refused (s : State) (d n : Nat) (h : bits n 15 8 < bits n 7 0 ∨ 96 < bits n 15 8) : s.writeComres d n = s :=
  if_pos (by simpa using h)

/-- COMRES takes bounds that are in order: only the die's reserve changes, and it keeps to them. -/
theorem State.writeComres_taken (s : State) (d n : Nat) (h1 : bits n 7 0 ≤ bits n 15 8) (h2 : bits n 15 8 ≤ 96) :
    ∃ k : Die, (s.setDie d k).EventsOnly (s.writeComres d n) ∧ k.Reserve (bits n 7 0) (bits n 15 8) := by
  have ordered : ¬(decide (bits n 15 8 < bits n 7 0) || decide (96 < bits n 15 8)) = true := by simp; omega
  have byte {m : Nat} (h : m ≤ 96) : (BitVec.ofNat 8 m).toNat = m := toNat_ofNat_of_lt (by omega)
  simp only [State.writeComres, if_neg ordered]
  generalize hs1 : s.setDie d { s.die d with
    max := BitVec.ofNat 8 (bits n 15 8), min := BitVec.ofNat 8 (bits n 7 0)
    cur := max (bits n 7 0) (min (bits n 15 8) (s.die d).cur) } = s1
  obtain ⟨wz, hr⟩ := State.EventsOnly.reserve s1 d
  generalize s1.reserve d = s2 at hr ⊢
  generalize s1.commWaiting d / 8 = raise at hr
  subst hs1
  simp only [State.die_setDie, State.setDie_setDie, byte h2, byte (h1.trans h2)] at hr
  have hk := hr.die_eq d
  rw [State.die_setDie] at hk
  have bounds : (s2.die d).Reserve (bits n 7 0) (bits n 15 8) := by
    rw [hk]
    exact ⟨byte h2, byte (h1.trans h2), by dsimp only; omega, by dsimp only; omega⟩
  cases hz : (s2.die d).wzero with
  | none => exact ⟨_, hr.trans (.tryPlace s2), hk ▸ bounds⟩
  | some z =>
    have counted := hr.setDie d { s2.die d with wzero := some (z + (s2.now - z) / 20000 * 20000) }
    rw [State.setDie_setDie] at counted
    exact ⟨_, (counted.trans (.atTime ..)).trans (.tryPlace _), ⟨bounds.max, bounds.min, bounds.low, bounds.high⟩⟩

theorem commReserveFall_ends {s : State} {d : BitVec 1} {z : Nat} (hz : (s.die d.toNat).wzero = some z) (due : z + 20000 ≤ s.now)
    (above : (s.die d.toNat).min.toNat < (s.die d.toNat).cur) : Ends (.commReserveFall d) s (fun t => t.mem = s.mem ∧
      t.die d.toNat = { s.die d.toNat with cur := (s.die d.toNat).cur - 1, wzero := some (z + 20000) } ∧
      t.timers = s.timers ++ [⟨z + 40000, .commReserveFall d⟩]) := by
  have go : ¬(decide (s.now < z + 20000) || decide ((s.die d.toNat).cur ≤ (s.die d.toNat).min.toNat)) = true := by simp; omega
  refine ⟨_, by change execCommReserveFall d s = _; simp only [execCommReserveFall, hz, if_neg go]; rfl, ?_, ?_, ?_⟩
  · rw [State.tryPlace_mem]; rfl
  · rw [State.die_tryPlace]; exact State.die_setDie ..
  · rw [State.tryPlace_timers]; rfl

/-! Power gating (R207) -/

/-- An update of one cluster leaves the others, memory and the cores. -/
theorem State.setCluster_frame (s : State) (n : Nat) (c : Cluster) : (s.setCluster n c).cluster n = c ∧
    (∀ j, j ≠ n → (s.setCluster n c).cluster j = s.cluster j) ∧ (s.setCluster n c).mem = s.mem ∧ (s.setCluster n c).cores = s.cores :=
  ⟨State.cluster_setCluster .., fun _ h => State.cluster_setCluster_ne s n c h, rfl, rfl⟩

/-- An update of a cluster after its count of lane edges has been brought up to the present. -/
theorem State.updCluster_syncEdges (s : State) (n : Nat) (f : Cluster → Cluster) : (s.syncEdges n).updCluster n f =
    s.setCluster n (f { s.cluster n with edges := (s.cluster n).edgesAt s.ticks, edgeAt := s.ticks }) := by
  simp only [State.syncEdges, State.updCluster, State.cluster_setCluster, State.setCluster_setCluster]

section
variable {s : State} {n : BitVec 4}

theorem exec_gateSequenceStart (en : (s.die (n.toNat / 8)).gateen = true) (idle : s.idleLong n.toNat = true)
    (ng : (s.cluster n.toNat).gated = false) (ns : (s.cluster n.toNat).gateStart = none) (nc : (s.cluster n.toNat).calibrating = false)
    (nw : (s.cluster n.toNat).wakeAt = none) (nd : s.calDue n.toNat = false) : exec (.gateSequenceStart n) s = .next (s.startGate n.toNat) := by
  change execGateSequenceStart n s = _
  simp [execGateSequenceStart, en, idle, ng, ns, nc, nw, nd]

theorem gateSequenceEnd_ends {z : Nat} (hz : (s.cluster n.toNat).gateStart = some z) (due : z + 20 ≤ s.now) :
    Ends (.gateSequenceEnd n) s (fun t => (t.cluster n.toNat = { s.cluster n.toNat with
        gateStart := none, gated := true, edges := (s.cluster n.toNat).edgesAt s.ticks, edgeAt := s.ticks
        wakeAt := if (s.cluster n.toNat).wanted = [] then none else some (s.now + 300) } ∧
      (∀ j, j ≠ n.toNat → t.cluster j = s.cluster j) ∧ t.mem = s.mem ∧ t.cores = s.cores) ∧
    ((s.cluster n.toNat).wanted ≠ [] → t.timers = s.timers ++ [⟨s.now + 300, .clusterWake n⟩])) := by
  have go : ¬s.now < z + front 32 := by simp only [front]; omega
  refine ⟨_, by change execGateSequenceEnd n s = _; simp only [execGateSequenceEnd, hz, if_neg go, State.updCluster_syncEdges]; rfl, ?_⟩
  simp only [List.isEmpty_iff]
  split
  case isTrue h => exact ⟨State.setCluster_frame .., fun w => absurd h w⟩
  case isFalse => exact ⟨State.setCluster_frame .., fun _ => rfl⟩

theorem clusterWake_ends {z : Nat} (hz : (s.cluster n.toNat).wakeAt = some z) (due : z ≤ s.now) :
    Ends (.clusterWake n) s (fun t => t.cluster n.toNat = { s.cluster n.toNat with
        gated := false, wanted := [], wakeAt := none, idleSince := some s.now, edges := (s.cluster n.toNat).edgesAt s.ticks, edgeAt := s.ticks } ∧
      (∀ j, j ≠ n.toNat → t.cluster j = s.cluster j) ∧ t.mem = s.mem ∧ t.cores = s.cores) := by
  have go : ¬s.now < z := by omega
  refine ⟨_, by change execClusterWake n s = _; simp only [execClusterWake, hz, if_neg go, State.updCluster_syncEdges]; rfl, ?_⟩
  rw [State.tryPlace_eq]
  exact State.setCluster_frame ..

end

/-! Wake registers (R94, R175, R211) -/

/-- A service log ends with the entry written last (R182). -/
theorem State.getLast?_logEntry (s : State) (kind unit : Nat) (data : DWord) :
    (s.logEntry kind unit data).mgmt.log.getLast? = some ⟨s.mgmt.nextLog, kind, unit, s.now, data⟩ := by
  simp [State.logEntry, List.getLast?_drop]

theorem State.readMark_log (s : State) (mark : s.mgmt.mbwake ≠ 0) (on : s.modl.on = true) (boot : s.mgmt.bootStep ≠ 0)
    (steady : s.switching 0 = false) :
    s.readMark = ({ s with mgmt := { s.mgmt with mbwake := 0 } }).logEntry 1 0xFF (s.mgmt.mbwake.zeroExtend 64) := by
  have go : ¬(s.mgmt.mbwake == 0 || !s.modl.on || s.mgmt.bootStep == 0 || s.switching 0) = true := by
    simpa [on, boot, steady] using mark
  exact if_neg go

/-- The claim on the reserve, gating and the wake registers, clause by clause. -/
theorem reserveAndGating : ReserveAndGating := by
  intro d n v s
  refine ⟨fun z => commReserveFall_ends, fun en idle ng ns nc nw nd => ⟨_, exec_gateSequenceStart en idle ng ns nc nw nd, ?start⟩,
    fun z => gateSequenceEnd_ends, fun z => clusterWake_ends, fun g => ⟨_, rfl, rfl⟩, fun q => ⟨_, rfl, ?qwake⟩, ⟨_, rfl, rfl⟩,
    fun mark on boot steady => ?mark, ?refused, fun h1 h2 => ?taken⟩
  case start => exact ⟨State.setCluster_frame .., rfl⟩
  case qwake =>
    have posted := State.mem_queue_post (s.setHq q.toNat { s.hq q.toNat with wake := (s.hq q.toNat).wake ||| v }) (.recordStart (BitVec.ofNat 6 q.toNat))
    rw [BitVec.ofNat_toNat, BitVec.setWidth_eq] at posted
    exact ⟨by simp only [State.writeQwake]; rw [State.post_eq], by simpa [State.writeQwake] using posted⟩
  case mark =>
    rw [s.readMark_log mark on boot steady]
    exact ⟨rfl, _, State.getLast?_logEntry .., rfl, rfl⟩
  case refused => exact fun h => ⟨_, rfl, s.writeComres_refused _ _ h⟩
  case taken =>
    obtain ⟨k, ev, max, min, low, high⟩ := s.writeComres_taken d.toNat v.toNat h1 h2
    have hk : (s.writeComres d.toNat v.toNat).die d.toNat = k := (ev.die_eq _).trans (State.die_setDie ..)
    exact ⟨_, rfl, by rw [ev.eq]; rfl, by rw [ev.eq]; rfl, hk ▸ max, hk ▸ min, hk ▸ low, hk ▸ high⟩

/-- Settles O48: the claim on REGISTER_WRITE, and the claim on the reserve, power gating and the wake registers. -/
theorem registersAndGating : Obligations.RegistersAndGating := ⟨registerWrites, reserveAndGating⟩

end Sys2Proof.Machine
end

