-- ==== Sys2Proof/Proofs/Records.lean ====
section
/-! PROOF. What a count, a histogram bin and a service log entry change of the records of the module (R179 to R182). -/

namespace Sys2Proof.Machine

/-! Counts and bins (R179) -/

/-- A lifetime counter saturates, and the others stay. -/
theorem State.tget_counters_count (s : State) (i n k : Nat) : tget 0 (s.count i n).mgmt.counters k =
    if k = i then min 0xFFFFFFFF (tget 0 s.mgmt.counters k + n) else tget 0 s.mgmt.counters k := by
  refine (tget_tset 0 s.mgmt.counters k i _).trans ?_
  split
  case isTrue h => rw [h]
  case isFalse => rfl

/-- A histogram bin saturates, and the others stay. -/
theorem State.tget_hist_bin (s : State) (i k : Nat) : tget 0 (s.bin i).mgmt.hist k =
    if k = i then min 0xFFFFFFFF (tget 0 s.mgmt.hist k + 1) else tget 0 s.mgmt.hist k := by
  refine (tget_tset 0 s.mgmt.hist k i _).trans ?_
  split
  case isTrue h => rw [h]
  case isFalse => rfl

/-- `t` is `s` but for the lifetime counters and the histograms. -/
def State.CountsOnly (s t : State) : Prop := ∃ cs hs, t = { s with mgmt := { s.mgmt with counters := cs, hist := hs } }

theorem State.CountsOnly.refl (s : State) : s.CountsOnly s := ⟨s.mgmt.counters, s.mgmt.hist, rfl⟩

theorem State.CountsOnly.trans {s t u : State} : s.CountsOnly t → t.CountsOnly u → s.CountsOnly u := by
  rintro ⟨cs, hs, rfl⟩ ⟨cs', hs', rfl⟩; exact ⟨cs', hs', rfl⟩

theorem State.CountsOnly.count (s : State) (i n : Nat) : s.CountsOnly (s.count i n) := ⟨_, s.mgmt.hist, rfl⟩

theorem State.CountsOnly.bin (s : State) (i : Nat) : s.CountsOnly (s.bin i) := ⟨s.mgmt.counters, _, rfl⟩

theorem State.CountsOnly.each {α : Type} {f : State → α → State} (step : ∀ (s : State) (a : α), s.CountsOnly (f s a)) (l : List α) (s : State) :
    s.CountsOnly (s.each l f) :=
  State.each_rel State.CountsOnly.refl State.CountsOnly.trans step l s

/-- `t` is `s` but for the histograms. -/
def State.BinsOnly (s t : State) : Prop := ∃ hs, t = { s with mgmt := { s.mgmt with hist := hs } }

theorem State.BinsOnly.bin {s t : State} (i : Nat) : s.BinsOnly t → s.BinsOnly (t.bin i) := by
  rintro ⟨hs, rfl⟩; exact ⟨_, rfl⟩

theorem State.BinsOnly.refl (s : State) : s.BinsOnly s := ⟨s.mgmt.hist, rfl⟩

theorem State.counters_bin (s : State) (i : Nat) : (s.bin i).mgmt.counters = s.mgmt.counters := by
  obtain ⟨hs, e⟩ := (State.BinsOnly.refl s).bin i
  rw [e]

/-- What leaves a lifetime counter at each step leaves it. -/
theorem State.tget_counters_each {α : Type} {f : State → α → State} {k : Nat}
    (h : ∀ s a, tget 0 (f s a).mgmt.counters k = tget 0 s.mgmt.counters k) (l : List α) (s : State) :
    tget 0 (s.each l f).mgmt.counters k = tget 0 s.mgmt.counters k :=
  State.each_same (fun t => tget 0 t.mgmt.counters k) f h l s

/-! Service records (R172, R182, R185) -/

/-- `t` is `s` but for the lifetime counters, the service log, and the record and the flags of the open start. -/
def State.RecordsOnly (s t : State) : Prop := ∃ cs lg nl bf so si,
  t = { s with mgmt := { s.mgmt with counters := cs, log := lg, nextLog := nl, bootFails := bf, startOpen := so, startIncr := si } }

theorem State.RecordsOnly.refl (s : State) : s.RecordsOnly s :=
  ⟨s.mgmt.counters, s.mgmt.log, s.mgmt.nextLog, s.mgmt.bootFails, s.mgmt.startOpen, s.mgmt.startIncr, rfl⟩

theorem State.RecordsOnly.count {s t : State} (i n : Nat) : s.RecordsOnly t → s.RecordsOnly (t.count i n) := by
  rintro ⟨cs, lg, nl, bf, so, si, rfl⟩; exact ⟨_, lg, nl, bf, so, si, rfl⟩

theorem State.RecordsOnly.logEntry {s t : State} (kind unit : Nat) (d : DWord) : s.RecordsOnly t → s.RecordsOnly (t.logEntry kind unit d) := by
  rintro ⟨cs, lg, nl, bf, so, si, rfl⟩; exact ⟨cs, _, _, bf, so, si, rfl⟩

theorem State.RecordsOnly.recordFail (s : State) (f : BootFail) : s.RecordsOnly (s.recordFail f) :=
  ⟨_, s.mgmt.log, s.mgmt.nextLog, _, false, false, rfl⟩

theorem State.counters_logEntry (s : State) (kind unit : Nat) (d : DWord) : (s.logEntry kind unit d).mgmt.counters = s.mgmt.counters := by
  obtain ⟨lg, nl, e⟩ : ∃ lg nl, s.logEntry kind unit d = { s with mgmt := { s.mgmt with log := lg, nextLog := nl } } := ⟨_, _, rfl⟩
  rw [e]

/-- `t` is `s` but for what UCIe modules that fail training leave: their count, their log entries, and ports that stay DARK. -/
def State.DownsOnly (s t : State) : Prop := ∃ ld lg nl ps,
  t = { s with mgmt := { s.mgmt with linkdn := ld, log := lg, nextLog := nl }, ports := ps }

theorem State.DownsOnly.refl (s : State) : s.DownsOnly s := ⟨s.mgmt.linkdn, s.mgmt.log, s.mgmt.nextLog, s.ports, rfl⟩

theorem State.DownsOnly.trans {s t u : State} : s.DownsOnly t → t.DownsOnly u → s.DownsOnly u := by
  rintro ⟨ld, lg, nl, ps, rfl⟩ ⟨ld', lg', nl', ps', rfl⟩; exact ⟨ld', lg', nl', ps', rfl⟩

theorem State.DownsOnly.linkDowns (s : State) (l : List (Nat × Nat)) : s.DownsOnly (s.linkDowns l) :=
  .trans (State.each_rel .refl .trans (fun s _ => ⟨_, _, _, s.ports, rfl⟩) l s)
    (State.each_rel .refl .trans (fun s _ => ⟨s.mgmt.linkdn, s.mgmt.log, s.mgmt.nextLog, _, rfl⟩) _ _)

end Sys2Proof.Machine
end

