-- ==== Sys2Proof/Proofs/Starts.lean ====
section
/-! PROOF. The state after reset, what a START leaves, and the settling of the obligations on them. -/

namespace Sys2Proof.Machine

open Sys2Proof.Claims

/-! The state after reset -/

/-- Settles O51: the tables of the state after reset list nothing but stream 0 and window 0. -/
theorem resetState : Obligations.ResetState := by
  refine ⟨fun r => rfl, fun t => rfl, fun k => rfl, fun p => rfl, fun e => rfl, rfl, fun n => ?streams, fun n => ?windows, rfl, rfl, fun k => rfl⟩
  case streams => cases n <;> rfl
  case windows => cases n <;> rfl

/-! A START (R170 to R172) -/

/-- The step of boot that a start reaches; 5 is boot-complete. -/
def stepReached (b : Boot) : Nat := match b.fail with | some f => f.step.toNat | none => 5

/-- The count of failed starts that a start finds, once the increment of a start that a reset ended is taken back (R171). -/
def State.failedBefore (s : State) : Nat := if s.modl.latch && s.mgmt.resetIncr then s.mgmt.failed - 1 else s.mgmt.failed

/-- `t` is `s` with the carrier's latch at `latch` and the management state `m`, but for its records and images, the ports without UCIe
modules, and what falls due. -/
def State.Started (s : State) (latch : Bool) (m : Mgmt) (t : State) : Prop := ∃ n cs lg nl bf ld run ps tm, t = { s with
  modl := { s.modl with latch := latch }
  mgmt := { m with startNo := n, counters := cs, log := lg, nextLog := nl, bootFails := bf, linkdn := ld, running := run }
  ports := ps, timers := tm }

/-- What links that fail training leave is among what a start leaves. -/
theorem State.Started.downs {s u v : State} {l : Bool} {m : Mgmt} (h : s.Started l m u) (d : u.DownsOnly v) : s.Started l m v := by
  obtain ⟨n, cs, lg, nl, bf, ld, run, ps, tm, rfl⟩ := h
  obtain ⟨ld', lg', nl', ps', rfl⟩ := d
  exact ⟨n, cs, lg', nl', bf, ld', run, ps', tm, rfl⟩

/-- What a START leaves, by the step that it reaches and the failed starts before it (R170 to R172). -/
structure State.Starts (s : State) (b : Boot) (t : State) : Prop where
  rom : stepReached b = 0 → s.Started s.modl.latch { s.mgmt with
    bootStep := 0, startOpen := true, startIncr := false, startFail := b.fail } t
  minimal : stepReached b ≠ 0 → 3 ≤ s.failedBefore → ∃ u, t = u.openHost false ∧ s.Started false { s.mgmt with
    bootStep := 4, startOpen := false, startIncr := false, startFail := none, failed := s.failedBefore, resetIncr := false, minimal := true } u
  failed : stepReached b ≠ 0 → stepReached b < 5 → s.failedBefore < 3 →
    ∃ u, t = (if stepReached b = 4 then u.openHost true else u) ∧ s.Started false { s.mgmt with
      bootStep := stepReached b, startOpen := true, startIncr := true, startFail := b.fail, failed := s.failedBefore + 1, resetIncr := false } u
  complete : 5 ≤ stepReached b → s.failedBefore < 3 → ∃ u, t = u.openHost true ∧ s.Started false { s.mgmt with
    bootStep := stepReached b, startOpen := false, startIncr := false, startFail := b.fail, failed := 0, resetIncr := false, bootComplete := true } u

/-- What the start before and this one put on record, then what the step that it reaches decides. -/
theorem State.boot_starts (s : State) (b : Boot) (power : Bool) : s.Starts b (s.boot b power) := by
  unfold State.boot
  extract_lets +onlyGivenNames s1 step failed minimal s2 n s3
  have opened : s.RecordsOnly s1 := by
    unfold s1
    split
    · exact .recordFail s _
    · exact .refl s
  have hfailed : failed = s.failedBefore := by
    obtain ⟨_, _, _, _, _, _, e⟩ := opened
    simp only [failed, e, State.failedBefore]
  have hminimal : minimal = decide (3 ≤ failed) := rfl
  have hstep : step = stepReached b := rfl
  have recorded : s.RecordsOnly s3 := (opened.count 1 1).logEntry ..
  clear_value s3 n minimal failed
  subst hminimal hfailed
  obtain ⟨cs, lg, nl, bf, so, si, rfl⟩ := recorded
  simp only [hstep, beq_iff_eq, decide_eq_true_eq]
  refine ⟨fun h0 => ?rom, fun h0 h3 => ?minimal, fun h0 h5 h3 => ?failed, fun h5 h3 => ?complete⟩
  case rom =>
    rw [if_pos h0, h0]
    exact ⟨n, cs, lg, nl, bf, _, _, _, _, rfl⟩
  case minimal =>
    rw [if_neg h0, if_pos h3]
    exact ⟨_, rfl, n, cs, lg, nl, bf, _, _, _, _, rfl⟩
  case failed =>
    rw [if_neg h0, if_neg (by omega), if_pos h5]
    exact ⟨_, rfl, .downs ⟨n, cs, lg, nl, bf, _, _, _, _, rfl⟩ (.linkDowns ..)⟩
  case complete =>
    rw [if_neg (by omega), if_neg (by omega), if_neg (by omega)]
    exact ⟨_, rfl, .downs ⟨n, cs, lg, nl, bf, _, _, _, _, rfl⟩ (.linkDowns ..)⟩

/-! A module without state -/

/-- What a module holds once every die's state is lost and it is on again: the tables and registers at their reset values. -/
def State.Bare (t : State) : Prop :=
  t.mem = [] ∧ t.cores = [] ∧ t.clusters = [] ∧ t.queues = [] ∧ t.ctxs = [] ∧ t.circuits = [] ∧ t.links = [] ∧
    t.gaffer = [] ∧ t.cru = [] ∧ t.asyncs = [] ∧ t.now = 0 ∧ t.pwrcap = 16 ∧ t.fdidValid = false ∧ t.mgmt.ucerr = false ∧ t.mgmt.qps = [] ∧
    t.modl.on = true ∧ t.modl.latch = false ∧ t.modl.railsUp = false

/-- The state of `s` is lost, and the module stands as `m` says. -/
def State.lost (s : State) (m : Module) : State := { s.lose with modl := m }

section
variable {s t : State} {m : Module} {g : Mgmt} (on : m.on = true)
include on

/-- A start that takes up the latch leaves the lost state bare. -/
theorem State.Started.bare (rails : m.railsUp = false) (ucerr : g.ucerr = false) (qps : g.qps = [])
    (h : (s.lost m).Started false g t) : t.Bare := by
  obtain ⟨n, cs, lg, nl, bf, ld, run, ps, tm, rfl⟩ := h
  exact ⟨rfl, rfl, rfl, rfl, rfl, rfl, rfl, rfl, rfl, rfl, rfl, rfl, rfl, ucerr, qps, on, rfl, rails⟩

/-- The host port is up from step 4 on. -/
theorem State.Started.hostUp {l : Bool} (h : (s.lost m).Started l g t) : t.hostUp = decide (4 ≤ g.bootStep) := by
  obtain ⟨n, cs, lg, nl, bf, ld, run, ps, tm, rfl⟩ := h
  exact (congrArg (· && _) on).trans (Bool.true_and _)

end

/-! How the start of a module without state ends -/

section
variable {r t : State} {b : Boot} {m : Module} (on : m.on = true) (done : (r.lost m).Starts b t)
include on done

/-- A start that fails in its ROM leaves the count of failed starts alone (R171). -/
theorem State.Starts.rom_lost {f : BootFail} (hb : b.fail = some f) (zero : f.step = 0) : t.mem = [] ∧ t.modl.on = true ∧
    t.mgmt.bootComplete = false ∧ t.mgmt.failed = r.mgmt.failed ∧ t.mgmt.startOpen = true ∧ t.mgmt.startIncr = false := by
  obtain ⟨n, cs, lg, nl, bf, ld, img, ps, tm, rfl⟩ := done.rom (by simp [stepReached, hb, zero])
  exact ⟨rfl, on, rfl, rfl, rfl, rfl⟩

variable (rails : m.railsUp = false)
include rails

/-- After three failed starts the module starts minimal (R171). -/
theorem State.Starts.minimal_lost (later : ∀ f, b.fail = some f → f.step ≠ 0) (many : 3 ≤ (r.lost m).failedBefore) : t.Bare ∧
    t.hostUp = true ∧ t.mgmt.minimal = true ∧ t.mgmt.bootComplete = false ∧ t.streams = [(0, { open_ := true })] ∧ t.windows = [] := by
  have reached : stepReached b ≠ 0 := by
    cases hb : b.fail with
    | none => simp [stepReached, hb]
    | some f => simpa [stepReached, hb, ← BitVec.toNat_inj] using later f hb
  obtain ⟨u, rfl, h⟩ := done.minimal reached many
  have up : u.hostUp = true := h.hostUp on
  have bare : u.Bare := h.bare on rails rfl rfl
  obtain ⟨n, cs, lg, nl, bf, ld, img, ps, tm, rfl⟩ := h
  exact ⟨bare, up, rfl, rfl, rfl, rfl⟩

/-- A start that fails at a later step stays open and counts at once (R171, R172). -/
theorem State.Starts.failed_lost {f : BootFail} (hb : b.fail = some f) (low : 1 ≤ f.step.toNat) (high : f.step.toNat < 5)
    (few : (r.lost m).failedBefore < 3) : t.Bare ∧ t.mgmt.bootComplete = false ∧ t.mgmt.failed = (r.lost m).failedBefore + 1 ∧
    t.mgmt.startOpen = true ∧ t.mgmt.startIncr = true ∧ t.mgmt.startFail = some f ∧ t.mgmt.bootStep = f.step.toNat ∧
    (t.hostUp = true ↔ f.step = 4) := by
  have reached : stepReached b = f.step.toNat := by simp only [stepReached, hb]
  obtain ⟨u, e, h⟩ := done.failed (by omega) (by omega) few
  obtain ⟨st, ws, rfl⟩ : ∃ st ws, t = { u with streams := st, windows := ws } := by
    split at e
    · exact ⟨_, _, e⟩
    · exact ⟨_, _, e⟩
  have up : u.hostUp = true ↔ f.step = 4 := by
    rw [h.hostUp on, decide_eq_true_eq, reached]
    bv_omega
  have bare : u.Bare := h.bare on rails rfl rfl
  obtain ⟨n, cs, lg, nl, bf, ld, img, ps, tm, rfl⟩ := h
  exact ⟨bare, rfl, rfl, rfl, rfl, hb, reached, up⟩

/-- A start that nothing stops is boot-complete (R170). -/
theorem State.Starts.complete_lost (hb : b.fail = none) (few : (r.lost m).failedBefore < 3) : t.Bare ∧ t.mgmt.bootComplete = true ∧
    t.mgmt.failed = 0 ∧ t.mgmt.startOpen = false ∧ t.mgmt.minimal = false ∧ t.hostUp = true ∧ t.streams = [(0, { open_ := true })] ∧
    (t.win 0).isSome = true ∧ ∀ w, w ≠ 0 → t.win w = none := by
  have reached : stepReached b = 5 := by simp only [stepReached, hb]
  obtain ⟨u, rfl, h⟩ := done.complete (by omega) few
  have up : u.hostUp = true := (h.hostUp on).trans (by simp [reached])
  have bare : u.Bare := h.bare on rails rfl rfl
  obtain ⟨n, cs, lg, nl, bf, ld, img, ps, tm, rfl⟩ := h
  refine ⟨bare, rfl, rfl, rfl, rfl, up, rfl, rfl, fun w hw => ?_⟩
  cases w with
  | zero => exact absurd rfl hw
  | succ => rfl

end

/-! The events that start the module -/

section
variable {s : State} {b : Boot}

theorem exec_powerOn (off : s.modl.on = false) (conn : s.modl.connected = true) : exec (.powerOn b) s =
    .next ((s.lost { s.modl with on := true, inputOk := true, railsUp := false }).boot b true) := by
  change execPowerOn b s = _
  exact if_neg (by simp [off, conn])

theorem exec_inputReconnect (conn : s.modl.connected = false) : exec (.inputReconnect b) s =
    .next ((s.lost { s.modl with connected := true, on := true, inputOk := true, railsUp := false }).boot b true) := by
  change execInputReconnect b s = _
  exact if_neg (by simp [conn])

theorem exec_modrstNAssert_on (on : s.modl.on = true) : exec (.modrstNAssert b) s =
    .next ((({ s with mgmt := { s.mgmt with resetIncr := s.mgmt.resetIncr || (s.mgmt.startOpen && s.mgmt.startIncr) } } : State).lost
      { s.modl with latch := true, railsUp := false }).boot b false) :=
  congrArg Host.Outcome.next (if_pos on)

theorem exec_modrstNAssert_off (off : s.modl.on = false) : exec (.modrstNAssert b) s =
    .next { s with modl := { s.modl with latch := true } } :=
  congrArg Host.Outcome.next (if_neg (by simp [off]))

theorem exec_failedStart_late (on : s.modl.on = true) (open_ : s.mgmt.startOpen = true) (late : 30000000000 ≤ s.ticks) :
    exec (.failedStart s.mgmt.startNo) s = .next (s.recordFail (s.mgmt.startFail.getD ⟨6, BitVec.ofNat 8 s.mgmt.bootStep, 0xFF, 0⟩)) := by
  change execFailedStart s.mgmt.startNo s = _
  simp [execFailedStart, on, open_, Nat.not_lt.mpr late]

theorem exec_failedStart_early (on : s.modl.on = true) (open_ : s.mgmt.startOpen = true) (early : s.ticks < 30000000000) :
    exec (.failedStart s.mgmt.startNo) s = .next (s.after (30000000000 - s.ticks) (.failedStart s.mgmt.startNo)) := by
  change execFailedStart s.mgmt.startNo s = _
  simp [execFailedStart, on, open_, early]

end

/-- Settles O32: each event that starts the module boots a lost state, and how that boot ends follows from the step it reaches. -/
theorem starts : Obligations.Starts := by
  intro b s bare up
  have start {i : Instr} {r : State} {m : Module} {power less : Bool} (run : exec i s = .next ((r.lost m).boot b power))
      (on : m.on = true) (rails : m.railsUp = false) (failed : r.mgmt.failed = s.mgmt.failed)
      (taken : (m.latch && r.mgmt.resetIncr) = less) : up i less := by
    have before : (r.lost m).failedBefore = if less then s.mgmt.failed - 1 else s.mgmt.failed := by
      rw [← taken, ← failed]; rfl
    have done := (r.lost m).boot_starts b power
    generalize (r.lost m).boot b power = t at run done
    exact ⟨fun hb few => ⟨_, run, done.complete_lost on rails hb (before ▸ few)⟩,
      fun f hb low high few => ⟨_, run, before ▸ done.failed_lost on rails hb low high (before ▸ few)⟩,
      fun f hb zero => ⟨_, run, failed ▸ done.rom_lost on hb zero⟩,
      fun many later => ⟨_, run, done.minimal_lost on rails later (before ▸ many)⟩⟩
  exact ⟨fun off conn => start (exec_powerOn off conn) rfl rfl rfl rfl, fun conn => start (exec_inputReconnect conn) rfl rfl rfl rfl,
    fun on => start (exec_modrstNAssert_on on) on rfl rfl rfl, fun off => ⟨_, exec_modrstNAssert_off off, rfl⟩,
    fun on open_ late => ⟨_, exec_failedStart_late on open_ late, rfl, rfl, rfl, rfl⟩,
    fun on open_ early => ⟨_, exec_failedStart_early on open_ early, rfl⟩⟩

end Sys2Proof.Machine
end

