-- ==== Sys2Proof/Proofs/ModuleRecords.lean ====
section
/-! PROOF. The input and the sensors, the lifetime records and soft errors, and the settling of the obligation on them. -/

namespace Sys2Proof.Machine

open Sys2Proof.Claims

/-! The input and the sensors (R24, R26, R29) -/

section
variable {s : State}

/-- After a loss of power the lifetime counters are those of the last commit (R180). -/
theorem Mgmt.flash_counters (m : Mgmt) : m.flash.counters = (match m.pages with | p :: _ => p.1 | [] => []) := by
  cases h : m.pages <;> simp only [Mgmt.flash, h]

theorem exec_inputShutdown_on (on : s.modl.on = true) : exec .inputShutdown s =
    .next (s.lost { s.modl with on := false, inputOk := false, railsUp := false }) :=
  congrArg Host.Outcome.next (if_pos on)

theorem exec_inputShutdown_off (off : s.modl.on = false) : exec .inputShutdown s = .next s :=
  congrArg Host.Outcome.next (if_neg (by simp [off]))

theorem exec_ovoff_on (on : s.modl.on = true) : exec .ovoff s =
    .next (s.lost { s.modl with ovoff := true, connected := false, on := false, inputOk := false, railsUp := false }) := by
  change execOvoff s = _
  simp only [execOvoff, if_pos on]
  rfl

theorem exec_ovoff_off (off : s.modl.on = false) : exec .ovoff s =
    .next { s with modl := { s.modl with ovoff := true, connected := false, on := false, inputOk := false } } := by
  change execOvoff s = _
  simp only [execOvoff, off, Bool.false_eq_true, if_false]

end

/-- One of the four bits is set or cleared. -/
theorem getLsbD_set_or_clear (x : BitVec 4) (d : BitVec 2) (ok : Bool) {k : Nat} (hk : k < 4) :
    (if ok then x ||| (1 : BitVec 4) <<< d.toNat else x &&& ~~~((1 : BitVec 4) <<< d.toNat)).getLsbD k =
      if k = d.toNat then ok else x.getLsbD k := by
  have only : ((1 : BitVec 4) <<< d.toNat).getLsbD k = decide (d.toNat = k) := by
    have one := BitVec.getLsbD_twoPow (w := 4) d.toNat k
    rwa [decide_eq_true d.isLt, Bool.true_and] at one
  cases ok
  case false =>
    simp only [Bool.false_eq_true, if_false, BitVec.getLsbD_and, BitVec.getLsbD_not, only, hk, decide_true, Bool.true_and]
    by_cases h : k = d.toNat
    · simp [h]
    · simp [h, Ne.symm h]
  case true =>
    simp only [if_true, BitVec.getLsbD_or, only]
    by_cases h : k = d.toNat
    · simp [h]
    · simp [h, Ne.symm h]

/-! Temperatures (R179) -/

theorem tempBin_lt (t : Int) : tempBin t < 32 := by unfold tempBin; omega

section
variable {s : State} {a b x y : Int}

theorem exec_temperatureSample_early {p : Nat} (hp : s.mgmt.tempAt = some p) (early : s.ticks < p + 60000000000) :
    exec (.temperatureSample a b x y) s = .next s := by
  change execTemperatureSample a b x y s = _
  exact if_pos (by simp [hp, early])

theorem exec_temperatureSample_due (on : s.modl.on = true) (booted : s.mgmt.bootStep ≠ 0) (due : ∀ p, s.mgmt.tempAt = some p → p + 60000000000 ≤ s.ticks) :
    exec (.temperatureSample a b x y) s = .next ((((({ s with mgmt := { s.mgmt with tempAt := some s.ticks } } : State).bin
      (64 + tempBin a)).bin (96 + tempBin b)).bin (128 + tempBin x)).bin (160 + tempBin y)) := by
  change execTemperatureSample a b x y s = _
  refine if_neg ?_
  cases h : s.mgmt.tempAt with
  | none => simp [on, booted]
  | some p => simp [on, booted, due p h]

end

/-- The claim on the input and the sensors. -/
theorem inputAndSensors : InputAndSensors := by
  intro vin pin d ok s
  refine ⟨⟨_, rfl, rfl⟩, fun on => ⟨_, exec_inputShutdown_on on, rfl, rfl, rfl, rfl, rfl, rfl, rfl, rfl, Mgmt.flash_counters s.mgmt⟩,
    fun off => ⟨_, exec_inputShutdown_off off, rfl⟩, fun on => ⟨_, exec_ovoff_on on, rfl, rfl, rfl, rfl⟩,
    fun off => ⟨_, exec_ovoff_off off, rfl⟩, ⟨_, rfl, rfl, _, rfl, by simp⟩,
    ⟨_, rfl, rfl, rfl, fun k hk => getLsbD_set_or_clear s.modl.rails d ok hk⟩,
    fun a b x y _ _ ⟨p, hp, early⟩ => ⟨_, exec_temperatureSample_early hp early, rfl⟩,
    fun a b x y on booted due => ⟨_, exec_temperatureSample_due on booted due, ?shown, fun k => ?bins⟩⟩
  case shown =>
    obtain ⟨hs, e⟩ := ((((State.BinsOnly.refl { s with mgmt := { s.mgmt with tempAt := some s.ticks } }).bin (64 + tempBin a)).bin
      (96 + tempBin b)).bin (128 + tempBin x)).bin (160 + tempBin y)
    rw [e]
  case bins =>
    -- each histogram has 32 bins, so the four that count are distinct
    have ha := tempBin_lt a
    have hb := tempBin_lt b
    have hx := tempBin_lt x
    simp only [State.tget_hist_bin]
    grind

/-! Lifetime records (R179, R180) -/

section
variable {s : State}

/-- The hours of a port's laser groups are none of POWER-ON HOURS (R179). -/
theorem State.tget_laserHours (s : State) (p : Nat) (l : List Nat) :
    tget 0 (s.each l (fun s g => s.count (4 + 4 * p + g) 1)).mgmt.counters 0 = tget 0 s.mgmt.counters 0 :=
  State.tget_counters_each (fun t g => by rw [State.tget_counters_count, if_neg (by omega)]) l s

/-- The hours of the laser groups and the hour's bins leave POWER-ON HOURS alone. -/
theorem powerOnHours_ends : Ends .powerOnHours s (fun t =>
    t = { s with mgmt := t.mgmt, timers := s.timers ++ [⟨s.now + 3600000000000, .powerOnHours⟩] } ∧
    tget 0 t.mgmt.counters 0 = min 0xFFFFFFFF (tget 0 s.mgmt.counters 0 + 1) ∧ t.mgmt.hourDroop = [] ∧ t.mgmt.hourThrottle = 0 ∧
    t.mgmt = { s.mgmt with counters := t.mgmt.counters, hist := t.mgmt.hist, hourDroop := [], hourThrottle := 0 }) := by
  change ∃ t, execPowerOnHours s = .next t ∧ _
  unfold execPowerOnHours
  extract_lets s1 s2 s3 s4 s5
  refine ⟨_, rfl, ?_⟩
  have laser : tget 0 s3.mgmt.counters 0 = tget 0 s2.mgmt.counters 0 := by
    unfold s3
    exact State.tget_counters_each (fun t p => t.tget_laserHours p _) _ s2
  have bins : tget 0 s4.mgmt.counters 0 = tget 0 s3.mgmt.counters 0 := by
    unfold s4
    exact State.tget_counters_each (fun t n => by rw [State.counters_bin]) _ s3
  have hours : tget 0 s5.mgmt.counters 0 = tget 0 s2.mgmt.counters 0 := by
    unfold s5
    rw [State.counters_bin, bins, laser]
  have counts : s2.CountsOnly s5 :=
    ((State.CountsOnly.each (fun _ _ => .each (fun _ _ => .count ..) _ _) _ s2).trans (.each (fun _ _ => .bin ..) _ s3)).trans (.bin ..)
  clear_value s5
  obtain ⟨cs, hs, rfl⟩ := counts
  exact ⟨rfl, hours.trans (s1.tget_counters_count 0 1 0), rfl, rfl, rfl⟩

/-- A patrol scrub falls due again an hour later, unless one is due already (R184). -/
theorem exec_patrolScrub (on_ : Bool) : exec (.patrolScrub on_) s = .next { s with
    mgmt := { s.mgmt with scrub := on_ }
    timers := s.timers ++
      if on_ && !s.timers.any (fun t => t.what == .patrolScrub true) then [⟨s.now + 3600000000000, .patrolScrub true⟩] else [] } := by
  change execPatrolScrub on_ s = _
  simp only [execPatrolScrub]
  split
  · rfl
  · rw [List.append_nil]

end

/-! Soft errors (R184) -/

/-- SVSTAT shows that an uncorrectable error has come about. -/
def State.setUcerr (s : State) : State := { s with mgmt := { s.mgmt with ucerr := true } }

theorem State.counters_setUcerr (s : State) : s.setUcerr.mgmt.counters = s.mgmt.counters := rfl
theorem State.log_setUcerr (s : State) : s.setUcerr.mgmt.log = s.mgmt.log := rfl

theorem State.RecordsOnly.setUcerr {s t : State} (h : s.RecordsOnly t) : t.setUcerr = { s with mgmt := t.setUcerr.mgmt } := by
  obtain ⟨cs, lg, nl, bf, so, si, rfl⟩ := h; rfl

/-- The records of an uncorrectable error: its count, its entry, and its bit. -/
def State.uncorrectable (s : State) (c : BitVec 3) (d : BitVec 8) : State :=
  ((s.count (138 + c.toNat) 1).logEntry 4 0xFF (BitVec.ofNat 64 (c.toNat + 256 * d.toNat))).setUcerr

section
variable (s : State) (c : BitVec 3) (d : BitVec 8)

theorem State.uncorrectable_eq : s.uncorrectable c d = { s with mgmt := (s.uncorrectable c d).mgmt } :=
  (((State.RecordsOnly.refl s).count ..).logEntry ..).setUcerr

theorem State.counters_uncorrectable : (s.uncorrectable c d).mgmt.counters = (s.count (138 + c.toNat) 1).mgmt.counters := by
  rw [State.uncorrectable, State.counters_setUcerr, State.counters_logEntry]

theorem State.getLast?_uncorrectable : ∃ e : LogEntry,
    (s.uncorrectable c d).mgmt.log.getLast? = some e ∧ e.kind = 4 ∧ e.data = BitVec.ofNat 64 (c.toNat + 256 * d.toNat) := by
  rw [State.uncorrectable, State.log_setUcerr, State.getLast?_logEntry]
  exact ⟨_, rfl, rfl, rfl⟩

end

section
variable {s : State} {c : BitVec 3} (d : BitVec 8) (hc : c.toNat < 6)
include hc

theorem exec_softError_corrected (o : ErrorOwner) : exec (.softError ⟨c, d, true, o⟩) s = .next (s.count (132 + c.toNat) 1) := by
  change execSoftError _ s = _
  exact if_neg (Nat.not_le.mpr hc)

theorem exec_softError_none : exec (.softError ⟨c, d, false, .none⟩) s = .next (s.uncorrectable c d) := by
  change execSoftError _ s = _
  exact if_neg (Nat.not_le.mpr hc)

theorem exec_softError_context (x : BitVec 8) :
    exec (.softError ⟨c, d, false, .context x⟩) s = .next ((s.uncorrectable c d).fatalCtx x.toNat 2 true) := by
  change execSoftError _ s = _
  exact if_neg (Nat.not_le.mpr hc)

end

theorem State.ctx?_dropCtx (s : State) (x : Nat) : (s.dropCtx x).ctx? x = none := by
  unfold State.dropCtx
  split
  case h_1 h => exact h
  case h_2 => exact (tfind_tdel _ x x).trans (if_pos rfl)

/-- A fatal error ends its context (R310). -/
theorem State.ctx?_fatalCtx (s : State) (x cause : Nat) (report : Bool) : (s.fatalCtx x cause report).ctx? x = none := by
  unfold State.fatalCtx
  split
  case isTrue h => exact Option.isNone_iff_eq_none.mp h
  case isFalse => exact State.ctx?_dropCtx ..

/-- The claim on the lifetime records and soft errors. -/
theorem lifetimeAndSoftErrors : LifetimeAndSoftErrors := by
  intro s
  refine ⟨powerOnHours_ends, ⟨_, rfl, rfl, rfl⟩, fun on_ => ⟨_, exec_patrolScrub on_, rfl, fun off => ?stops, fun goes first => ?goes⟩,
    fun c d o hc => ⟨_, exec_softError_corrected d hc o, rfl, s.tget_counters_count _ 1⟩,
    fun c d hc => ⟨_, exec_softError_none d hc, s.uncorrectable_eq c d, rfl, s.getLast?_uncorrectable c d, fun k => ?counted⟩,
    fun c d x hc _ => ⟨_, exec_softError_context d hc x, State.ctx?_fatalCtx ..⟩⟩
  case counted => rw [State.counters_uncorrectable, State.tget_counters_count]
  case stops => simp [off]
  case goes => simpa [goes] using first

/-- Settles O33: the claim on the input and the sensors, and the claim on the lifetime records and soft errors. -/
theorem moduleRecords : Obligations.ModuleRecords := ⟨inputAndSensors, lifetimeAndSoftErrors⟩

end Sys2Proof.Machine
end

