-- ==== Sys2Proof/Proofs/PortLink.lean ====
section
/-! PROOF. What a port does on its own changes: the flits that it sends and the transitions that it begins (R35 to R53). -/

namespace Sys2Proof.Machine

/-! The fibre -/

/-- What no port touches on its own: everything but the ports, what they have sent, and the events that fall due. -/
def State.offLink (s : State) : State := { s with ports := [], outFlit := [], timers := [] }

section
variable {s t : State} (h : t.offLink = s.offLink)
include h

theorem State.eq_of_offLink : t = { s with ports := t.ports, outFlit := t.outFlit, timers := t.timers } :=
  congrArg (fun u : State => { u with ports := t.ports, outFlit := t.outFlit, timers := t.timers }) h

theorem State.now_of_offLink : t.now = s.now := (congrArg State.now h :)
theorem State.circuits_of_offLink : t.circuits = s.circuits := (congrArg State.circuits h :)

end

@[simp] theorem State.port_after (s : State) (ns : Nat) (i : Instr) (p : Nat) : (s.after ns i).port p = s.port p := rfl
@[simp] theorem State.timers_after (s : State) (ns : Nat) (i : Instr) : (s.after ns i).timers = s.timers ++ [⟨s.now + ns, i⟩] := rfl
theorem State.mem_timers_after (s : State) (ns : Nat) (i : Instr) : (⟨s.now + ns, i⟩ : Timer) ∈ (s.after ns i).timers := by
  simp [State.after, State.atTime]
theorem State.timers_subset_atTime (s : State) (t : Nat) (i : Instr) : s.timers ⊆ (s.atTime t i).timers := List.subset_append_left ..

/-- The port after what it may do to send: numbering, the replay buffer, what waits for room, a marker, and the time of the fibre. -/
def Port.Sent (x y : Port) : Prop :=
  ∃ q u w m f, y = { x with txSeq := q, unacked := u, stalled := w, marker := m, txFree := f }

theorem Port.Sent.refl (x : Port) : x.Sent x := ⟨x.txSeq, x.unacked, x.stalled, x.marker, x.txFree, rfl⟩

theorem Port.Sent.trans {x y z : Port} : x.Sent y → y.Sent z → x.Sent z := by
  rintro ⟨q, u, w, m, f, rfl⟩ ⟨q', u', w', m', f', rfl⟩; exact ⟨q', u', w', m', f', rfl⟩

/-- From `s` to `t` port `p` sends, and nothing else changes but what is on the fibres; events fall due only by a loop back. -/
structure State.Sends (p : Nat) (s t : State) : Prop where
  rest   : t.offLink = s.offLink
  port   : (s.port p).Sent (t.port p)
  others : ∀ j, j ≠ p → t.port j = s.port j
  timers : s.timers ⊆ t.timers
  quiet  : (s.port p).looped = false → t.timers = s.timers

theorem State.Sends.refl (p : Nat) (s : State) : State.Sends p s s := ⟨rfl, .refl _, fun _ _ => rfl, fun _ h => h, fun _ => rfl⟩

theorem State.Sends.trans {p : Nat} {s t u : State} (a : State.Sends p s t) (b : State.Sends p t u) : State.Sends p s u where
  rest := b.rest.trans a.rest
  port := a.port.trans b.port
  others j hj := (b.others j hj).trans (a.others j hj)
  timers := List.Subset.trans a.timers b.timers
  quiet h := by
    have looped : (t.port p).looped = (s.port p).looped := by obtain ⟨q, u, w, m, f, e⟩ := a.port; rw [e]
    rw [b.quiet (looped.trans h), a.quiet h]

theorem State.Sends.setPort {p : Nat} {s : State} {x : Port} (h : (s.port p).Sent x) : State.Sends p s (s.setPort p x) where
  rest := rfl
  port := by rwa [State.port_setPort]
  others _ hj := State.port_setPort_ne s p x hj
  timers _ h := h
  quiet _ := rfl

/-- A flit as it crosses a fibre: with NAK and ACKSEQ of the port (R35, R38). -/
def Flit.wire (x : Port) (f : Flit) : List Byte := flitBytes f.typ x.nak f.tver.toNat f.seq.toNat x.ackSeq.toNat f.bytes

/-- Events that fall due leave everything else. -/
theorem State.each_after {α : Type} (ns : Nat) (g : State → α → Instr) (l : List α) (s : State) :
    ∃ tm, s.timers ⊆ tm ∧ s.each l (fun s a => s.after ns (g s a)) = { s with timers := tm } :=
  State.each_rel (R := fun s t => ∃ tm, s.timers ⊆ tm ∧ t = { s with timers := tm }) (fun s => ⟨s.timers, fun _ h => h, rfl⟩)
    (by rintro s _ _ ⟨tm, h, rfl⟩ ⟨tm', h', rfl⟩; exact ⟨tm', List.Subset.trans h h', rfl⟩)
    (fun s a => ⟨_, s.timers_subset_atTime _ _, rfl⟩) l s

/-- Flits on the fibre: their bytes in order, the time they take, and with loop back their arrival. -/
theorem State.emit_eq (s : State) (p : Nat) (l : List Flit) : ∃ tm, s.timers ⊆ tm ∧ ((s.port p).looped = false → tm = s.timers) ∧
    s.emit p l = { s.setPort p { s.port p with txFree := max (100 * s.now) (s.port p).txFree + l.length * flitTime (s.port p).lit } with
      outFlit := s.outFlit ++ l.map (fun f => (p, f.wire (s.port p))), timers := tm } := by
  unfold State.emit
  extract_lets x out r t
  have ht : t = { s.setPort p { x with txFree := max (100 * s.now) x.txFree + l.length * flitTime x.lit } with
      outFlit := s.outFlit ++ l.map (fun f => (p, f.wire x)) } := by simp only [t, r, out, List.map_map]; rfl
  split
  case isTrue looped =>
    obtain ⟨tm, more, e⟩ := State.each_after _ (fun t f => _) out t
    exact ⟨tm, by rwa [ht] at more, fun h => absurd (looped.symm.trans h) (by simp), by rw [e, ht]⟩
  case isFalse => exact ⟨s.timers, fun _ h => h, fun _ => rfl, ht⟩

section
variable (s : State) (p : Nat) (l : List Flit)

theorem State.outFlit_emit : (s.emit p l).outFlit = s.outFlit ++ l.map (fun f => (p, f.wire (s.port p))) := by
  obtain ⟨tm, -, -, e⟩ := s.emit_eq p l; rw [e]

theorem State.port_emit : (s.emit p l).port p =
    { s.port p with txFree := max (100 * s.now) (s.port p).txFree + l.length * flitTime (s.port p).lit } := by
  obtain ⟨tm, -, -, e⟩ := s.emit_eq p l
  rw [e]
  exact State.port_setPort ..

theorem State.Sends.emit : State.Sends p s (s.emit p l) := by
  have port : (s.port p).Sent ((s.emit p l).port p) := by rw [State.port_emit]; exact ⟨_, _, _, _, _, rfl⟩
  obtain ⟨tm, more, same, e⟩ := s.emit_eq p l
  rw [e] at port ⊢
  exact ⟨rfl, port, fun j hj => State.port_setPort_ne s p _ hj, more, same⟩

end

/-! Numbered flits (R38) -/

/-- The flit that a port numbers next. -/
def State.nextFlit (s : State) (p typ : Nat) (payload : List Byte) (owner : FlitOwner) (shows : BitVec 2) : Flit :=
  ⟨(s.port p).txSeq + 1, typ, s.portVer p, payload, owner, shows⟩

section
variable (s : State) (p typ : Nat) (payload : List Byte) (owner : FlitOwner) (shows : BitVec 2)

theorem State.sendFlit_eq : s.sendFlit p typ payload owner shows = (s.setPort p { s.port p with
    txSeq := (s.port p).txSeq + 1, unacked := (s.port p).unacked ++ [s.nextFlit p typ payload owner shows] }).emit p
      [s.nextFlit p typ payload owner shows] := rfl

theorem State.port_sendFlit : ∃ fr, (s.sendFlit p typ payload owner shows).port p = { s.port p with
    txSeq := (s.port p).txSeq + 1, unacked := (s.port p).unacked ++ [s.nextFlit p typ payload owner shows], txFree := fr } := by
  rw [State.sendFlit_eq, State.port_emit, State.port_setPort]
  exact ⟨_, rfl⟩

theorem State.Sends.sendFlit : State.Sends p s (s.sendFlit p typ payload owner shows) :=
  (State.Sends.setPort ⟨_, _, _, _, _, rfl⟩).trans (.emit ..)

theorem State.outFlit_sendFlit : (s.sendFlit p typ payload owner shows).outFlit =
    s.outFlit ++ [(p, (s.nextFlit p typ payload owner shows).wire (s.port p))] := by
  rw [State.sendFlit_eq, State.outFlit_emit, State.port_setPort]
  rfl

end

theorem State.Sends.sendStalled (s : State) (p n : Nat) : State.Sends p s (s.sendStalled p n) := by
  induction n generalizing s with
  | zero => exact .refl p s
  | succ n ih =>
    simp only [State.sendStalled]
    split
    · exact .refl p s
    · split
      · exact .refl p s
      · exact ((State.Sends.setPort ⟨_, _, _, _, _, rfl⟩).trans (.sendFlit ..)).trans (ih _)

theorem State.Sends.sendOwn (s : State) (p typ : Nat) : State.Sends p s (s.sendOwn p typ) :=
  (State.Sends.setPort ⟨_, _, _, _, _, rfl⟩).trans (.sendStalled ..)

theorem State.Sends.sendHandshake (s : State) (p : Nat) : State.Sends p s (s.sendHandshake p) := by
  unfold State.sendHandshake
  split
  · exact .refl p s
  · exact .sendOwn ..

section
variable {s : State} {p typ : Nat}

/-- Without room in the replay buffer nothing is sent. -/
theorem State.sendStalled_full (full : 64 ≤ (s.port p).unacked.length) (n : Nat) : s.sendStalled p n = s := by
  cases n with
  | zero => rfl
  | succ n =>
    simp only [State.sendStalled, if_pos full]
    split <;> rfl

/-- With room, the one flit that waits is sent. -/
theorem State.sendStalled_one (one : (s.port p).stalled = [typ]) (room : (s.port p).unacked.length < 64) : s.sendStalled p 1 =
    (s.setPort p { s.port p with stalled := [], marker := if typ == 3 then some ((s.port p).txSeq + 1) else (s.port p).marker }).sendFlit p typ
      (if typ == 3 then List.replicate 244 0 else []) .none (if typ == 2 then (s.port p).target else 0) := by
  simp only [State.sendStalled, one, if_neg (Nat.not_le.mpr room)]

theorem State.port_sendStalled_one (one : (s.port p).stalled = [typ]) (room : (s.port p).unacked.length < 64) :
    ∃ (f : Flit) (fr : Nat), f.typ = typ ∧ f.seq = (s.port p).txSeq + 1 ∧ (s.sendStalled p 1).port p = { s.port p with
      stalled := [], marker := if typ == 3 then some ((s.port p).txSeq + 1) else (s.port p).marker
      txSeq := (s.port p).txSeq + 1, unacked := (s.port p).unacked ++ [f], txFree := fr } ∧
    (s.sendStalled p 1).outFlit = s.outFlit ++ [(p, f.wire (s.port p))] := by
  rw [State.sendStalled_one one room]
  obtain ⟨fr, e⟩ := State.port_sendFlit (s.setPort p { s.port p with
    stalled := [], marker := if typ == 3 then some ((s.port p).txSeq + 1) else (s.port p).marker }) p typ
      (if typ == 3 then List.replicate 244 0 else []) .none (if typ == 2 then (s.port p).target else 0)
  rw [e, State.outFlit_sendFlit, State.port_setPort]
  exact ⟨_, fr, rfl, congrArg (fun x : Port => x.txSeq + 1) (State.port_setPort ..), rfl, rfl⟩

theorem State.sendOwn_full (full : 64 ≤ (s.port p).unacked.length) :
    s.sendOwn p typ = s.setPort p { s.port p with stalled := (s.port p).stalled ++ [typ] } := by
  simp only [State.sendOwn]
  exact State.sendStalled_full (by simpa using full) _

theorem State.port_sendOwn (noStalled : (s.port p).stalled = []) (room : (s.port p).unacked.length < 64) :
    ∃ (f : Flit) (fr : Nat), f.typ = typ ∧ f.seq = (s.port p).txSeq + 1 ∧ (s.sendOwn p typ).port p = { s.port p with
      stalled := [], marker := if typ == 3 then some ((s.port p).txSeq + 1) else (s.port p).marker
      txSeq := (s.port p).txSeq + 1, unacked := (s.port p).unacked ++ [f], txFree := fr } := by
  have one : ((s.setPort p { s.port p with stalled := [typ] }).port p).stalled = [typ] := by simp
  obtain ⟨f, fr, ht, hs, hp, -⟩ := State.port_sendStalled_one one (by simpa using room)
  simp only [State.port_setPort] at hs hp
  refine ⟨f, fr, ht, hs, ?_⟩
  simp only [State.sendOwn, noStalled, List.nil_append]
  exact hp

end

/-! Transitions (R39, R42, R46) -/

/-- The port after a step along the table of R39 that it has begun. -/
def Port.Moved (x y : Port) : Prop := ∃ tr rl la mm, y = { x with trans := tr, relock := rl, lightAt := la, mismatchAt := mm }

theorem Port.Moved.refl (x : Port) : x.Moved x := ⟨x.trans, x.relock, x.lightAt, x.mismatchAt, rfl⟩

/-- A port begins to gate its groups. -/
def State.gates (s : State) (p : Nat) : State :=
  (s.setPort p { s.port p with trans := some (2, s.now + 200), relock := false, lightAt := none, mismatchAt := [] }).after 200
    (.portGated (BitVec.ofNat 5 p))

/-- From `s` to `t` port `p` may have begun a transition, its drain's marker included, and nothing else changes but what is on the
fibres and the events that fall due. -/
structure State.Moves (p : Nat) (s t : State) : Prop where
  rest   : t.offLink = s.offLink
  port   : ∃ y, (s.port p).Moved y ∧ y.Sent (t.port p)
  begun  : (s.port p).st ≠ 3 → (s.port p).Moved (t.port p)
  others : ∀ j, j ≠ p → t.port j = s.port j
  timers : s.timers ⊆ t.timers

theorem State.Moves.refl (p : Nat) (s : State) : State.Moves p s s :=
  ⟨rfl, ⟨_, .refl _, .refl _⟩, fun _ => .refl _, fun _ _ => rfl, fun _ h => h⟩

theorem State.Moves.begin {p : Nat} {s : State} {y : Port} (h : (s.port p).Moved y) (t : Nat) (i : Instr) :
    State.Moves p s ((s.setPort p y).atTime t i) where
  rest := rfl
  port := by simpa using ⟨y, h, .refl y⟩
  begun _ := by simpa using h
  others _ hj := State.port_setPort_ne s p y hj
  timers := State.timers_subset_atTime ..

section
variable (s : State) (p : Nat)

theorem State.Moves.gates : State.Moves p s (s.gates p) := .begin ⟨_, _, _, _, rfl⟩ _ _

theorem State.Moves.tryHandshake : State.Moves p s (s.tryHandshake p) := by
  simp only [State.tryHandshake]
  split
  · exact .refl p s
  · split
    · exact .begin ⟨_, _, _, _, rfl⟩ _ _
    · exact .refl p s

theorem State.Moves.drain (live : (s.port p).st = 3) :
    State.Moves p s (((s.setPort p { s.port p with trans := some (3, s.now + 1000) }).sendOwn p 3).after 1000 (.drainEnd (BitVec.ofNat 5 p))) := by
  have sent := State.Sends.sendOwn (s.setPort p { s.port p with trans := some (3, s.now + 1000) }) p 3
  exact ⟨sent.rest, ⟨_, ⟨_, _, _, _, rfl⟩, by simpa using sent.port⟩, fun h => absurd live h,
    fun j hj => (sent.others j hj).trans (State.port_setPort_ne s p _ hj), List.Subset.trans sent.timers (State.timers_subset_atTime ..)⟩

end

section
variable {s : State} {p : Nat}

theorem State.portMove_dark (dark : (s.port p).st = 0) : s.portMove p =
    if (s.port p).trans.isNone && (s.port p).target != 0 && grpOk (s.port p).grpmask && s.elsOk p && !(s.port p).down then
      (s.setPort p { s.port p with trans := some (1, s.now + 3000) }).after 3000 (.laserWakeDone (BitVec.ofNat 5 p))
    else s := by
  have st : (s.port p).st.toNat = 0 := by rw [dark]; rfl
  simp only [State.portMove, st]

theorem State.portMove_locking_or (locking : (s.port p).st = 1) : s.portMove p = s.gates p ∨ s.portMove p = s := by
  have st : (s.port p).st.toNat = 1 := by rw [locking]; rfl
  simp only [State.portMove, st]
  exact ite_eq_or_eq ..

theorem State.portMove_locking (locking : (s.port p).st = 1) (stays : (s.port p).target ≠ 0 ∨ ∃ k, (s.port p).trans = some (2, k)) :
    s.portMove p = s := by
  have st : (s.port p).st.toNat = 1 := by rw [locking]; rfl
  simp only [State.portMove, st]
  rcases stays with on | ⟨k, gating⟩
  · exact if_neg fun c => on (eq_of_beq (Bool.and_eq_true_iff.mp c).1)
  · exact if_neg (by simp [gating])

theorem State.portMove_locking_gates (locking : (s.port p).st = 1) (off : (s.port p).target = 0) (idle : (s.port p).trans = none) :
    s.portMove p = s.gates p := by
  have st : (s.port p).st.toNat = 1 := by rw [locking]; rfl
  simp only [State.portMove, st]
  exact if_pos (by simp [off, idle])

theorem State.portMove_trained (trained : (s.port p).st = 2) : s.portMove p =
    if (s.port p).trans.isSome then s
    else if (s.port p).target == 0 then s.gates p
    else if (s.port p).target == 2 then s.tryHandshake p
    else s := by
  have st : (s.port p).st.toNat = 2 := by rw [trained]; rfl
  simp only [State.portMove, st]
  rfl

theorem State.portMove_live (live : (s.port p).st = 3) : s.portMove p =
    if (s.port p).trans.isNone && (s.port p).target != 2 then
      ((s.setPort p { s.port p with trans := some (3, s.now + 1000) }).sendOwn p 3).after 1000 (.drainEnd (BitVec.ofNat 5 p))
    else s := by
  have st : (s.port p).st.toNat = 3 := by rw [live]; rfl
  simp only [State.portMove, st]

end

theorem State.Moves.portMove (s : State) (p : Nat) : State.Moves p s (s.portMove p) := by
  match h : (s.port p).st with
  | 0 =>
    rw [State.portMove_dark h]
    split
    · exact .begin ⟨_, _, _, _, rfl⟩ _ _
    · exact .refl p s
  | 1 =>
    rcases State.portMove_locking_or h with e | e <;> rw [e]
    · exact .gates s p
    · exact .refl p s
  | 2 =>
    rw [State.portMove_trained h]
    split
    · exact .refl p s
    · split
      · exact .gates s p
      · split
        · exact .tryHandshake s p
        · exact .refl p s
  | 3 =>
    rw [State.portMove_live h]
    split
    · exact .drain s p h
    · exact .refl p s

end Sys2Proof.Machine
end

