-- ==== Sys2Proof/Proofs/PortCircuits.lean ====
section
/-! PROOF. What the circuit entries of a port, the engines whose flits it carried, and the packets of its circuits leave of the state,
and what they make of an entry (R43, R64, R71, R73, R113). -/

namespace Sys2Proof.Machine

/-- Memory, the cores, the time and the module. -/
def State.frame (s : State) : List Host.Cell × Tbl Core × Nat × Module := (s.mem, s.cores, s.now, s.modl)

/-- The frame, the ports and what they have sent. -/
def State.kept (s : State) : (List Host.Cell × Tbl Core × Nat × Module) × Tbl Port × List (Nat × List Byte) := (s.frame, s.ports, s.outFlit)

/-- What is kept, and the circuit table. -/
def State.aside (s : State) : ((List Host.Cell × Tbl Core × Nat × Module) × Tbl Port × List (Nat × List Byte)) × Tbl Circuit :=
  (s.kept, s.circuits)

theorem State.same_of_frame {s t : State} (h : t.frame = s.frame) : t.mem = s.mem ∧ t.cores = s.cores ∧ t.now = s.now ∧ t.modl = s.modl := by
  simpa [State.frame] using h

section
variable {s t : State}

theorem State.frame_of_offLink (h : t.offLink = s.offLink) : t.frame = s.frame := (congrArg State.frame h :)
theorem State.kept_of_aside (h : t.aside = s.aside) : t.kept = s.kept := (congrArg Prod.fst h :)
theorem State.circuits_of_aside (h : t.aside = s.aside) : t.circuits = s.circuits := (congrArg Prod.snd h :)
theorem State.frame_of_kept (h : t.kept = s.kept) : t.frame = s.frame := (congrArg Prod.fst h :)
theorem State.port_of_kept (h : t.kept = s.kept) (p : Nat) : t.port p = s.port p :=
  (congrArg (fun k => tget {} k.2.1 p) h :)
theorem State.outFlit_of_kept (h : t.kept = s.kept) : t.outFlit = s.outFlit := (congrArg (fun k => k.2.2) h :)
theorem State.entryOf_of_circuits (h : t.circuits = s.circuits) (p : Nat) : t.entryOf p = s.entryOf p := by simp only [State.entryOf, h]
theorem State.circuit_of_circuits (h : t.circuits = s.circuits) (e : Nat) : t.circuit e = s.circuit e := by simp only [State.circuit, h]

end

/-! Events, operations and packets: all is kept -/

@[simp] theorem State.aside_gEvent (s : State) (t kind fields : Nat) : (s.gEvent t kind fields).aside = s.aside := by
  simp only [State.gEvent]
  split
  · rfl
  · split <;> rfl

@[simp] theorem State.aside_portEvent (s : State) (p b : Nat) : (s.portEvent p b).aside = s.aside := State.aside_gEvent ..

@[simp] theorem State.aside_post (s : State) (i : Instr) : (s.post i).aside = s.aside := by rw [State.post_eq]; rfl

theorem State.aside_endAsync (s : State) (id cause : Nat) : (s.endAsync id cause).aside = s.aside := by
  simp only [State.endAsync]
  split
  · rfl
  · split
    · rfl
    · exact State.aside_post ..

@[simp] theorem State.aside_circLost (s : State) (e : Nat) : (s.circLost e).aside = s.aside :=
  State.each_same State.aside _ (fun s (o : AsyncOp) => s.aside_endAsync o.id 3) _ s

theorem State.aside_flitLost (s : State) (f : Flit) : (s.flitLost f).aside = s.aside := by
  simp only [State.flitLost]
  split
  · rfl
  · rfl
  · split
    · rfl
    · split <;> rfl

@[simp] theorem State.aside_flitsLost (s : State) (l : List Flit) : (s.each l (fun s f => s.flitLost f)).aside = s.aside :=
  State.each_same State.aside _ State.aside_flitLost l s

theorem State.aside_flitAcked (s : State) (f : Flit) : (s.flitAcked f).aside = s.aside := by
  simp only [State.flitAcked]
  split
  · rfl
  · split
    · split <;> rfl
    · rfl
  · split
    · rfl
    · refine (State.each_same State.aside _ ?_ _ _).trans rfl
      exact fun _ _ => rfl

@[simp] theorem State.aside_flitsAcked (s : State) (l : List Flit) : (s.each l (fun s f => s.flitAcked f)).aside = s.aside :=
  State.each_same State.aside _ State.aside_flitAcked l s

theorem State.LinksOnly.aside {s t : State} : s.LinksOnly t → t.aside = s.aside := by
  rintro ⟨ls, op, oc, tm, rfl⟩; rfl

theorem State.aside_toLink (s : State) (l : Nat) (k : Packet) (from_ : Option Nat) : (s.toLink l k from_).aside = s.aside :=
  (State.LinksOnly.pumpGo _ l _).aside

@[simp] theorem State.aside_sendPacket (s : State) (k : Packet) : (s.sendPacket k).aside = s.aside := by
  simp only [State.sendPacket]
  split
  · rfl
  · split
    · exact State.each_same State.aside _ (fun s l => s.aside_toLink l k none) _ (s.noteSeen k)
    · split
      · rfl
      · split
        · exact State.aside_toLink ..
        · rfl

@[simp] theorem State.aside_sendCtl (s : State) (e typ code : Nat) (at_ : DWord) : (s.sendCtl e typ code at_).aside = s.aside :=
  State.aside_sendPacket ..

/-! Entries -/

theorem State.aside_moveEntry (s : State) (e : Nat) (c : Circuit) : (s.moveEntry e c).aside = (s.setCircuit e c).aside := by
  simp only [State.moveEntry]
  split
  · rfl
  · split <;> simp

section
variable (s : State) (e : Nat)

@[simp] theorem State.kept_moveEntry (c : Circuit) : (s.moveEntry e c).kept = s.kept := (State.kept_of_aside (s.aside_moveEntry e c) :)

@[simp] theorem State.circuits_moveEntry (c : Circuit) : (s.moveEntry e c).circuits = tset s.circuits e c :=
  State.circuits_of_aside (s.aside_moveEntry e c)

@[simp] theorem State.circuit_moveEntry (c : Circuit) : (s.moveEntry e c).circuit e = c :=
  (State.circuit_of_circuits (s.circuits_moveEntry e c) e).trans (State.circuit_setCircuit s e c)

@[simp] theorem State.kept_failEntry (v : BitVec 4) (tear : Bool) : (s.failEntry e v tear).kept = s.kept := by
  cases tear
  · exact s.kept_moveEntry e _
  · exact (State.kept_of_aside (State.aside_sendCtl ..)).trans (s.kept_moveEntry e _)

theorem State.circuits_failEntry (v : BitVec 4) (tear : Bool) : (s.failEntry e v tear).circuits =
    tset s.circuits e { s.circuit e with st := 6, status := v, slotOpen := false, window := none } := by
  cases tear
  · exact s.circuits_moveEntry e _
  · exact (State.circuits_of_aside (State.aside_sendCtl ..)).trans (s.circuits_moveEntry e _)

@[simp] theorem State.kept_sendTear (code : Nat) : (s.sendTear e code).kept = s.kept :=
  (State.kept_of_aside (s.aside_sendCtl e 4 code 0) :)

theorem State.circuits_sendTear (code : Nat) : (s.sendTear e code).circuits =
    tset s.circuits e { s.circuit e with due := s.now + 500000, tearPending := false } := by
  have sent := s.aside_sendCtl e 4 code 0
  have now : (s.sendCtl e 4 code 0).now = s.now := congrArg (fun k => k.1.1.2.2.1) sent
  have cs := State.circuits_of_aside sent
  simp only [State.sendTear, State.after, State.atTime_circuits, State.setCircuit, State.circuit, now, cs]

@[simp] theorem State.kept_releasedTears (p : Nat) : (s.releasedTears p).kept = s.kept :=
  State.each_same State.kept _ (fun s (e : Nat × Circuit) => s.kept_sendTear e.1 0) _ s

@[simp] theorem State.kept_drainOver (p : Nat) : (s.drainOver p).kept = s.kept := by
  refine (State.kept_releasedTears _ p).trans (State.each_same State.kept _ ?_ _ s)
  exact fun _ _ => rfl

@[simp] theorem State.kept_portFailed (p : Nat) (v : BitVec 4) : (s.portFailed p v).kept = s.kept := by
  simp only [State.portFailed]
  split
  · rfl
  · split
    · exact State.kept_failEntry ..
    · rfl

@[simp] theorem State.kept_portDark (p : Nat) : (s.portDark p).kept = s.kept :=
  State.each_same State.kept _ (fun s (e : Nat × Circuit) => s.kept_moveEntry e.1 _) _ s

@[simp] theorem State.kept_enterSlot : (s.enterSlot e).kept = s.kept := by
  simp only [State.enterSlot]
  split
  · split <;> rfl
  · rfl

/-- Entering its slot an entry keeps its STATE (R72). -/
theorem State.circuit_enterSlot_st : ((s.enterSlot e).circuit e).st = (s.circuit e).st := by
  simp only [State.enterSlot]
  split
  · split
    · rfl
    · rw [State.circuit_atTime, State.circuit_setCircuit]
  · rfl

/-- Without a release that waits for the port there is no TEAR to send. -/
theorem State.releasedTears_none {p : Nat} (noStalled : ∀ q ∈ s.circuits, q.2.tearPending = false) : s.releasedTears p = s := by
  have nil : s.circuits.filter (fun e => e.2.port.toNat == p && e.2.tearPending && e.2.st == 5) = [] :=
    List.filter_eq_nil_iff.mpr fun q hq => by simp [noStalled q hq]
  rw [State.releasedTears, nil]
  rfl

/-- The entry of a port that fails (R71). -/
theorem State.circuit_portFailed {p k : Nat} (v : BitVec 4) (he : s.entryOf p = some k) (live : (s.circuit k).st = 3 ∨ (s.circuit k).st = 4) :
    ((s.portFailed p v).circuit k).st = 6 ∧ ((s.portFailed p v).circuit k).status = v := by
  have e : s.portFailed p v = s.failEntry k v true := by
    simp only [State.portFailed, he]
    exact if_pos (by simpa using live)
  have c : (s.failEntry k v true).circuit k = { s.circuit k with st := 6, status := v, slotOpen := false, window := none } :=
    (State.circuit_of_circuits (s.circuits_failEntry k v true) k).trans (State.circuit_setCircuit s k _)
  rw [e, c]
  exact ⟨rfl, rfl⟩

end

/-! The flits that are lost (R43) -/

/-- A port whose flits have been reported not delivered. -/
def Port.lost (x : Port) (all : Bool) : Port := { x with
  unacked := [], stalled := [], marker := none, drainlost := x.drainlost || x.unacked.any (fun f => all || f.typ != 2) }

/-- Where every flit counts, DRAINLOST shows that there was one. -/
theorem Port.drainlost_lost (x : Port) : (x.lost true).drainlost = (x.drainlost || !x.unacked.isEmpty) := by
  cases h : x.unacked <;> simp [Port.lost, h]

section
variable (s : State) (p : Nat) (all : Bool)

theorem State.aside_loseFlits : (s.loseFlits p all).aside = (s.setPort p ((s.port p).lost all)).aside := State.aside_flitsLost ..

@[simp] theorem State.port_loseFlits : (s.loseFlits p all).port p = (s.port p).lost all :=
  (State.port_of_kept (State.kept_of_aside (s.aside_loseFlits p all)) p :).trans (State.port_setPort ..)

theorem State.port_loseFlits_ne {j : Nat} (h : j ≠ p) : (s.loseFlits p all).port j = s.port j :=
  (State.port_of_kept (State.kept_of_aside (s.aside_loseFlits p all)) j :).trans (State.port_setPort_ne s p _ h)

@[simp] theorem State.circuits_loseFlits : (s.loseFlits p all).circuits = s.circuits :=
  (State.circuits_of_aside (s.aside_loseFlits p all) :)

end

/-! What the events of ports leave -/

section
variable (s : State) (p : Nat)

@[simp] theorem State.frame_setPort (x : Port) : (s.setPort p x).frame = s.frame := rfl
@[simp] theorem State.frame_after (ns : Nat) (i : Instr) : (s.after ns i).frame = s.frame := rfl
@[simp] theorem State.frame_emit (l : List Flit) : (s.emit p l).frame = s.frame := State.frame_of_offLink (State.Sends.emit s p l).rest
@[simp] theorem State.frame_sendHandshake : (s.sendHandshake p).frame = s.frame := State.frame_of_offLink (State.Sends.sendHandshake s p).rest
@[simp] theorem State.frame_portMove : (s.portMove p).frame = s.frame := State.frame_of_offLink (State.Moves.portMove s p).rest
@[simp] theorem State.frame_loseFlits (all : Bool) : (s.loseFlits p all).frame = s.frame :=
  (State.frame_of_kept (State.kept_of_aside (s.aside_loseFlits p all)) :)
@[simp] theorem State.frame_portEvent (b : Nat) : (s.portEvent p b).frame = s.frame :=
  State.frame_of_kept (State.kept_of_aside (s.aside_portEvent p b))
@[simp] theorem State.frame_releasedTears : (s.releasedTears p).frame = s.frame := State.frame_of_kept (s.kept_releasedTears p)
@[simp] theorem State.frame_drainOver : (s.drainOver p).frame = s.frame := State.frame_of_kept (s.kept_drainOver p)
@[simp] theorem State.frame_portFailed (v : BitVec 4) : (s.portFailed p v).frame = s.frame := State.frame_of_kept (s.kept_portFailed p v)
@[simp] theorem State.frame_portDark : (s.portDark p).frame = s.frame := State.frame_of_kept (s.kept_portDark p)

variable (j : Nat)

@[simp] theorem State.port_portEvent (b : Nat) : (s.portEvent p b).port j = s.port j :=
  State.port_of_kept (State.kept_of_aside (s.aside_portEvent p b)) j
@[simp] theorem State.port_releasedTears : (s.releasedTears p).port j = s.port j := State.port_of_kept (s.kept_releasedTears p) j
@[simp] theorem State.port_drainOver : (s.drainOver p).port j = s.port j := State.port_of_kept (s.kept_drainOver p) j
@[simp] theorem State.port_portFailed (v : BitVec 4) : (s.portFailed p v).port j = s.port j := State.port_of_kept (s.kept_portFailed p v) j
@[simp] theorem State.port_portDark : (s.portDark p).port j = s.port j := State.port_of_kept (s.kept_portDark p) j

end

/-! Timers, and a loop back's own light -/

/-- The next acknowledge-only flit or the limit of a handshake falls due; nothing else changes. -/
theorem State.armAck_eq (s : State) (p : Nat) : ∃ tm, s.timers ⊆ tm ∧ (∃ m ∈ tm, m.what = .ackOnlyFlit (BitVec.ofNat 5 p)) ∧
    s.armAck p = { s with timers := tm } := by
  simp only [State.armAck]
  split
  case isTrue h =>
    obtain ⟨m, hm, e⟩ := List.any_eq_true.mp h
    exact ⟨s.timers, fun _ h => h, ⟨m, hm, eq_of_beq e⟩, rfl⟩
  case isFalse => exact ⟨_, s.timers_subset_atTime _ _, ⟨_, s.mem_timers_after _ _, rfl⟩, rfl⟩

theorem State.armVermis_eq (s : State) (p : Nat) : ∃ tm, s.armVermis p = { s with timers := tm } := by
  simp only [State.armVermis]
  split
  · exact ⟨_, rfl⟩
  · exact ⟨s.timers, rfl⟩

section
variable (s : State) (p : Nat)

@[simp] theorem State.frame_armAck : (s.armAck p).frame = s.frame := by obtain ⟨tm, -, -, e⟩ := s.armAck_eq p; rw [e]; rfl
@[simp] theorem State.port_armAck (j : Nat) : (s.armAck p).port j = s.port j := by obtain ⟨tm, -, -, e⟩ := s.armAck_eq p; rw [e]; rfl
@[simp] theorem State.circuits_armAck : (s.armAck p).circuits = s.circuits := by obtain ⟨tm, -, -, e⟩ := s.armAck_eq p; rw [e]
@[simp] theorem State.frame_armVermis : (s.armVermis p).frame = s.frame := by obtain ⟨tm, e⟩ := s.armVermis_eq p; rw [e]; rfl
@[simp] theorem State.port_armVermis (j : Nat) : (s.armVermis p).port j = s.port j := by obtain ⟨tm, e⟩ := s.armVermis_eq p; rw [e]; rfl

/-- A loop back's own light changes what the port has seen of the far end, and begins its lock (R53). -/
theorem State.loopLight_eq : ∃ fr fa la tr, s.loopLight p = s ∨
    s.loopLight p = s.setPort p { s.port p with far := fr, farAt := fa, lightAt := la, trans := tr } := by
  simp only [State.loopLight]
  split_ifs
  · exact ⟨none, none, none, none, .inl rfl⟩
  · exact ⟨_, _, (s.port p).lightAt, (s.port p).trans, .inr rfl⟩
  · exact ⟨_, _, _, _, .inr rfl⟩

theorem State.offLink_loopLight : (s.loopLight p).offLink = s.offLink := by
  obtain ⟨fr, fa, la, tr, e | e⟩ := s.loopLight_eq p <;> rw [e]
  rfl

@[simp] theorem State.frame_loopLight : (s.loopLight p).frame = s.frame := State.frame_of_offLink (s.offLink_loopLight p)

@[simp] theorem State.timers_loopLight : (s.loopLight p).timers = s.timers := by
  obtain ⟨fr, fa, la, tr, e | e⟩ := s.loopLight_eq p <;> rw [e]
  rfl

theorem State.port_loopLight_ne {j : Nat} (h : j ≠ p) : (s.loopLight p).port j = s.port j := by
  obtain ⟨fr, fa, la, tr, e | e⟩ := s.loopLight_eq p <;> rw [e]
  exact State.port_setPort_ne s p _ h

theorem State.port_loopLight : ∃ fr fa la tr, (s.loopLight p).port p = { s.port p with far := fr, farAt := fa, lightAt := la, trans := tr } := by
  obtain ⟨fr, fa, la, tr, e | e⟩ := s.loopLight_eq p <;> rw [e]
  · exact ⟨_, _, _, _, rfl⟩
  · exact ⟨_, _, _, _, State.port_setPort ..⟩

end

section
variable {s : State} {p : Nat}

theorem State.loopLight_off (h : (s.port p).st ≠ 1 ∨ (s.port p).looped = false) : s.loopLight p = s := by
  simp only [State.loopLight]
  exact if_pos (by simpa using h)

/-- A lock that has its light, or groups that are being gated, go on as they are. -/
theorem State.trans_loopLight_same (h : (s.port p).lightAt.isSome = true ∨ ∃ k, (s.port p).trans = some (2, k)) :
    ((s.loopLight p).port p).trans = (s.port p).trans := by
  simp only [State.loopLight]
  split
  · rfl
  · rw [if_pos, State.port_setPort]
    rcases h with h | ⟨k, h⟩ <;> simp [h]

/-- A lock by loop back takes 14 µs from its own light. -/
theorem State.trans_loopLight_begins (locking : (s.port p).st = 1) (looped : (s.port p).looped = true) (dark : (s.port p).lightAt = none)
    (idle : (s.port p).trans = none) : ((s.loopLight p).port p).trans = some (5, s.now + 14000) := by
  have go : ¬((s.port p).st != 1 || !(s.port p).looped) = true := by simp [locking, looped]
  simp only [State.loopLight, if_neg go]
  rw [if_neg (by simp [dark, idle]), State.port_setPort]

end

end Sys2Proof.Machine
end

