-- ==== Sys2Proof/Proofs/PortRequests.lean ====
section
/-! PROOF. Requests to a port: writes of TARGET and GRPMASK, recalibration, and the clearing of its counters (R45 to R47, R54, R185). -/

namespace Sys2Proof.Machine

open Sys2Proof.Claims

@[simp] theorem ofNat_toNat_port (p : BitVec 5) : BitVec.ofNat 5 p.toNat = p := by simp

theorem State.sendHandshake_off {s : State} {p : Nat} (h : (s.port p).st ≠ 2) : s.sendHandshake p = s := if_pos (by simpa using h)

section
variable {s : State} {p : Nat} {v : BitVec 2}

/-! TARGET (R45, R46, R185) -/

theorem State.writeTarget_refused (h : (s.port p).down = true ∨ v = 3) :
    s.writeTarget p v = s.setPort p { s.port p with badreq := true, lasterr := 1 } := by
  simp only [State.writeTarget]
  exact if_pos (by simpa using h)

section
variable (up : (s.port p).down = false) (named : v ≠ 3)
include up named

theorem State.takesTarget : ¬((s.port p).down || v == 3) = true := by
  rw [up, beq_false_of_ne named]
  decide

theorem State.writeTarget_unlit (on : v ≠ 0) (dark : s.elsOk p = false) : s.writeTarget p v = s.setPort p
    { s.port p with badreq := true, lasterr := 1, target := if (s.port p).st = 0 then 0 else (s.port p).target } := by
  simp only [State.writeTarget]
  rw [if_neg (s.takesTarget up named), if_pos (by rw [bne_iff_ne.mpr on, dark]; rfl)]
  simp only [beq_iff_eq]
  rfl

variable (lit : v = 0 ∨ s.elsOk p = true)
include lit

theorem State.writeTarget_same (h : v = (s.port p).target ∨ ((s.port p).trans = none ∧ stateTarget (s.port p).st = some v)) :
    s.writeTarget p v = s := by
  simp only [State.writeTarget]
  rw [if_neg (s.takesTarget up named), if_neg (by rcases lit with h | h <;> simp [h]), if_pos (by simpa using h)]

theorem State.writeTarget_taken (new : v ≠ (s.port p).target) (away : stateTarget (s.port p).st ≠ some v) : s.writeTarget p v =
    let t := (((s.setPort p { s.port p with target := v, targetAt := s.now }).sendHandshake p).portMove p).loopLight p
    if v == 2 && (s.port p).st == 2 then t.armVermis p else t := by
  simp only [State.writeTarget]
  rw [if_neg (s.takesTarget up named), if_neg (by rcases lit with h | h <;> simp [h]), if_neg (by simp [new, away])]

end

/-- The wake of a DARK port (R39). -/
theorem State.move_wakes {y : Port} (dark : y.st = 0) (idle : y.trans = none) (on : y.target ≠ 0) (groups : grpOk y.grpmask = true)
    (lit : s.elsOk p = true) (up : y.down = false) : ((s.setPort p y).portMove p).loopLight p =
      (s.setPort p { y with trans := some (1, s.now + 3000) }).after 3000 (.laserWakeDone (BitVec.ofNat 5 p)) := by
  have ok : (s.setPort p y).elsOk p = true := lit
  rw [State.portMove_dark (by rwa [State.port_setPort]), State.port_setPort, State.setPort_setPort,
    if_pos (by rw [idle, bne_iff_ne.mpr on, groups, ok, up]; rfl), State.loopLight_off (.inl (by simp [dark]))]
  rfl

/-- A TRAINED port shows its TARGET, DARK, and gates its groups (R39, R42). -/
theorem State.move_gates {y : Port} (trained : y.st = 2) (idle : y.trans = none) (off : y.target = 0) :
    (((s.setPort p y).sendHandshake p).portMove p).loopLight p = ((s.setPort p y).sendHandshake p).gates p := by
  obtain ⟨q, u, w, m, f, e⟩ := (State.Sends.sendHandshake (s.setPort p y) p).port
  rw [State.port_setPort] at e
  rw [State.portMove_trained (by rw [e]; exact trained), if_neg (by simp [e, idle]), if_pos (by simp [e, off]),
    State.loopLight_off (.inl (by simp [State.gates, e, trained]))]

/-- A LIVE port drains (R43). -/
theorem State.move_drains {y : Port} (live : y.st = 3) (idle : y.trans = none) (off : y.target ≠ 2) :
    ((s.setPort p y).portMove p).loopLight p =
      ((s.setPort p { y with trans := some (3, s.now + 1000) }).sendOwn p 3).after 1000 (.drainEnd (BitVec.ofNat 5 p)) := by
  have drains : (((s.setPort p { y with trans := some (3, s.now + 1000) }).sendOwn p 3).port p).st ≠ 1 := by
    obtain ⟨q, u, w, m, f, e⟩ := (State.Sends.sendOwn (s.setPort p { y with trans := some (3, s.now + 1000) }) p 3).port
    rw [e, State.port_setPort]
    simp [live]
  rw [State.portMove_live (by rwa [State.port_setPort]), State.port_setPort, State.setPort_setPort,
    if_pos (by rw [idle, bne_iff_ne.mpr off]; rfl)]
  exact State.loopLight_off (.inl drains)

section
variable (idle : (s.port p).trans = none) (up : (s.port p).down = false)
include idle up

theorem State.writeTarget_wakes (dark : (s.port p).st = 0) (off : (s.port p).target = 0) (groups : grpOk (s.port p).grpmask = true)
    (lit : s.elsOk p = true) (hv : v = 1 ∨ v = 2) : s.writeTarget p v =
      (s.setPort p { s.port p with target := v, targetAt := s.now, trans := some (1, s.now + 3000) }).after 3000
        (.laserWakeDone (BitVec.ofNat 5 p)) := by
  have on : v ≠ 0 := by rcases hv with rfl | rfl <;> decide
  have named : v ≠ 3 := by rcases hv with rfl | rfl <;> decide
  have away : stateTarget (s.port p).st ≠ some v := by rw [dark]; exact fun h => on (Option.some.inj h).symm
  rw [State.writeTarget_taken up named (.inr lit) (off ▸ on) away, State.sendHandshake_off (by rw [State.port_setPort]; simp [dark])]
  exact (if_neg (by simp [dark])).trans (State.move_wakes dark idle on groups lit up)

theorem State.writeTarget_gates (trained : (s.port p).st = 2) (on : (s.port p).target ≠ 0) : s.writeTarget p 0 =
    ((s.setPort p { s.port p with target := 0, targetAt := s.now }).sendHandshake p).gates p := by
  have away : stateTarget (s.port p).st ≠ some 0 := by rw [trained]; decide
  rw [State.writeTarget_taken up (by decide) (.inl rfl) on.symm away]
  exact (if_neg (by simp)).trans (State.move_gates trained idle rfl)

theorem State.writeTarget_drains (live : (s.port p).st = 3) (on : (s.port p).target = 2) (hv : v = 0 ∨ v = 1 ∧ s.elsOk p = true) :
    s.writeTarget p v =
      ((s.setPort p { s.port p with target := v, targetAt := s.now, trans := some (3, s.now + 1000) }).sendOwn p 3).after 1000
        (.drainEnd (BitVec.ofNat 5 p)) := by
  have not2 : v ≠ 2 := by rcases hv with rfl | ⟨rfl, -⟩ <;> decide
  have named : v ≠ 3 := by rcases hv with rfl | ⟨rfl, -⟩ <;> decide
  have away : stateTarget (s.port p).st ≠ some v := by rw [live]; exact fun h => not2 (Option.some.inj h).symm
  rw [State.writeTarget_taken up named (hv.imp_right And.right) (on ▸ not2) away,
    State.sendHandshake_off (by rw [State.port_setPort]; simp [live])]
  exact (if_neg (by simp [live])).trans (State.move_drains live idle not2)

end

/-- What gating after a last handshake flit leaves, without a loop back. -/
theorem State.gates_sent {y : Port} (quiet : y.looped = false) {t : State} (ht : t = ((s.setPort p y).sendHandshake p).gates p) :
    (t.port p).st = y.st ∧ (t.port p).target = y.target ∧ (t.port p).trans = some (2, s.now + 200) ∧
    t.timers = s.timers ++ [⟨s.now + 200, .portGated (BitVec.ofNat 5 p)⟩] ∧ t.mem = s.mem := by
  have sent := State.Sends.sendHandshake (s.setPort p y) p
  have now : ((s.setPort p y).sendHandshake p).now = s.now := State.now_of_offLink sent.rest
  have timers : ((s.setPort p y).sendHandshake p).timers = s.timers := sent.quiet (by rwa [State.port_setPort])
  obtain ⟨q, u, w, m, f, e⟩ := sent.port
  rw [State.port_setPort] at e
  have port : t.port p = { ((s.setPort p y).sendHandshake p).port p with
      trans := some (2, ((s.setPort p y).sendHandshake p).now + 200), relock := false, lightAt := none, mismatchAt := [] } := by
    rw [ht]; exact State.port_setPort ..
  rw [port, e, now]
  refine ⟨rfl, rfl, rfl, ?_, ?_⟩
  · rw [ht, ← timers, ← now]; rfl
  · rw [ht]; exact (congrArg State.mem sent.rest :)

/-- What a drain's marker leaves, with room for it and without a loop back. -/
theorem State.drain_sent {y : Port} (noStalled : y.stalled = []) (room : y.unacked.length < 64) (quiet : y.looped = false) {t : State}
    (ht : t = ((s.setPort p y).sendOwn p 3).after 1000 (.drainEnd (BitVec.ofNat 5 p))) :
    (t.port p).st = y.st ∧ (t.port p).target = y.target ∧ (t.port p).trans = y.trans ∧ (t.port p).marker = some (y.txSeq + 1) ∧
    t.timers = s.timers ++ [⟨s.now + 1000, .drainEnd (BitVec.ofNat 5 p)⟩] ∧ t.mem = s.mem := by
  have sent := State.Sends.sendOwn (s.setPort p y) p 3
  have now : ((s.setPort p y).sendOwn p 3).now = s.now := State.now_of_offLink sent.rest
  have timers : ((s.setPort p y).sendOwn p 3).timers = s.timers := sent.quiet (by rwa [State.port_setPort])
  obtain ⟨f, fr, -, -, e⟩ := State.port_sendOwn (s := s.setPort p y) (p := p) (typ := 3) (by rwa [State.port_setPort]) (by rwa [State.port_setPort])
  rw [State.port_setPort] at e
  rw [ht, State.port_after, e]
  refine ⟨rfl, rfl, rfl, rfl, ?_, (congrArg State.mem sent.rest :)⟩
  rw [← timers, ← now]; rfl

/-! GRPMASK (R46) -/

variable {g : BitVec 4}

theorem State.writeGrp_same (h : g = (s.port p).grpmask) : s.writeGrp p g = s := by
  simp only [State.writeGrp]
  exact if_pos (by simpa using h)

section
variable (new : g ≠ (s.port p).grpmask)
include new

theorem State.writeGrp_refused (h : grpOk g = false ∨ (s.port p).st ≠ 0 ∧ ((s.port p).st ≠ 2 ∨ g &&& (s.port p).lit ≠ g)) :
    s.writeGrp p g = s.setPort p { s.port p with badreq := true, lasterr := 4 } := by
  simp only [State.writeGrp]
  rw [if_neg (by simpa using new)]
  cases ok : grpOk g
  case false => rfl
  case true =>
    obtain ⟨lit, wide⟩ := h.resolve_left (by simp [ok])
    rw [if_neg (by simp), if_neg (by simpa using lit), if_neg fun c =>
      wide.elim (fun h => h (eq_of_beq (Bool.and_eq_true_iff.mp c).1)) (fun h => h (eq_of_beq (Bool.and_eq_true_iff.mp c).2))]
    rfl

variable (ok : grpOk g = true)
include ok

theorem State.writeGrp_narrows (trained : (s.port p).st = 2) (within : g &&& (s.port p).lit = g) :
    s.writeGrp p g = s.setPort p { s.port p with grpmask := g, lit := g } := by
  simp only [State.writeGrp]
  rw [if_neg (by simpa using new), if_neg (by simp [ok]), if_neg (by simp [trained]), if_pos (by simp [trained, within])]

theorem State.writeGrp_dark (dark : (s.port p).st = 0) (rests : (s.port p).trans ≠ none ∨ (s.port p).target = 0) :
    s.writeGrp p g = s.setPort p { s.port p with grpmask := g } := by
  simp only [State.writeGrp]
  rw [if_neg (by simpa using new), if_neg (by simp [ok]), if_pos (by simp [dark]), State.portMove_dark (by rw [State.port_setPort]; exact dark)]
  refine if_neg ?_
  rcases rests with h | h <;> simp [h]

end

/-! Recalibration (R47) -/

/-- The groups of a port are being gated. -/
def Port.gating (x : Port) : Bool := match x.trans with | some (2, _) => true | _ => false

theorem Port.gating_iff {x : Port} : x.gating = true ↔ ∃ k, x.trans = some (2, k) := by
  unfold Port.gating
  split
  case h_1 h => simp [h]
  case h_2 h => simpa using h

/-- Light that was there already, on exactly the lit groups. -/
def Port.hasLight (x : Port) : Bool := match (if x.looped then none else x.far) with | some f => f.groups == x.lit | none => false

/-- A port that passes from TRAINED into LOCKING for a recalibration. -/
def Port.recalibrates (x : Port) (now : Nat) : Port := { x with
  st := 1, recal := true, relock := false, since := now, looped := x.loopbk, far := if x.looped then none else x.far
  lightAt := if x.hasLight && !x.gating then some now else none
  trans := if x.gating then x.trans else if x.hasLight then some (5, now + 14000) else none }

/-- What remains of CALREQ once the port has passed into LOCKING. -/
theorem State.writeCal_trained (trained : (s.port p).st = 2) : s.writeCal p = ((((s.setPort p ((s.port p).recalibrates s.now)).portMove p).loopLight p).after
    200000 (.lockTimeout (BitVec.ofNat 5 p))).releasedTears p :=
  if_pos (by simp [trained])

theorem State.writeCal_refused (h : (s.port p).st ≠ 2) : s.writeCal p = s.setPort p { s.port p with badreq := true, lasterr := 6 } :=
  if_neg (by simpa using h)

theorem Port.hasLight_of {x : Port} {f : FarEnd} (open_ : x.looped = false) (far : x.far = some f) (lit : f.groups = x.lit) : x.hasLight = true := by
  simp [Port.hasLight, open_, far, lit]

/-- Groups that are being gated are gated to the end. -/
theorem State.trans_recalibrates_gating (g : (s.port p).gating = true) :
    (((s.setPort p ((s.port p).recalibrates s.now)).loopLight p).port p).trans = (s.port p).trans := by
  obtain ⟨k, hk⟩ := Port.gating_iff.mp g
  have same : ((s.port p).recalibrates s.now).trans = (s.port p).trans := if_pos g
  rw [State.trans_loopLight_same (.inr ⟨k, by rw [State.port_setPort, same, hk]⟩), State.port_setPort, same]

/-- A recalibration runs 14 µs from its light, its own or the far end's. -/
theorem State.trans_recalibrates (ng : (s.port p).gating = false) (light : (s.port p).loopbk = true ∨ (s.port p).hasLight = true) :
    (((s.setPort p ((s.port p).recalibrates s.now)).loopLight p).port p).trans = some (5, s.now + 14000) := by
  cases h : (s.port p).hasLight with
  | true =>
    rw [State.trans_loopLight_same (.inl (by simp [Port.recalibrates, h, ng])), State.port_setPort]
    simp [Port.recalibrates, h, ng]
  | false =>
    have looped := light.resolve_right (by simp [h])
    rw [State.trans_loopLight_begins] <;> simp [Port.recalibrates, h, ng, looped]

theorem State.writeCal_stays (trained : (s.port p).st = 2) (stays : (s.port p).target ≠ 0 ∨ (s.port p).gating = true)
    (noStalled : ∀ q ∈ s.circuits, q.2.tearPending = false) : s.writeCal p =
      ((s.setPort p ((s.port p).recalibrates s.now)).loopLight p).after 200000 (.lockTimeout (BitVec.ofNat 5 p)) := by
  have circuits := State.circuits_of_offLink (State.offLink_loopLight (s.setPort p ((s.port p).recalibrates s.now)) p)
  rw [State.writeCal_trained trained, State.portMove_locking, State.releasedTears_none]
  · intro q hq
    exact noStalled q (circuits ▸ hq)
  · rw [State.port_setPort]
    rfl
  · rw [State.port_setPort]
    refine stays.imp_right fun g => ?_
    obtain ⟨k, hk⟩ := Port.gating_iff.mp g
    exact ⟨k, by simp [Port.recalibrates, g, hk]⟩

end

/-- CLRCNT (R54, R179). -/
theorem clrcnt_ends (p : BitVec 5) (s : State) : Ends (.clrcnt p) s (fun t =>
    t = { s with ports := t.ports, mgmt := { s.mgmt with counters := t.mgmt.counters } } ∧
    t.port p.toNat = { s.port p.toNat with fecc := 0, fecu := 0, crce := 0, rply := 0, loss := 0, berEvents := 0, clearedAt := some s.now } ∧
    tget 0 t.mgmt.counters (144 + 2 * p.toNat) = min 0xFFFFFFFF (tget 0 s.mgmt.counters (144 + 2 * p.toNat) + (s.port p.toNat).loss.toNat) ∧
    tget 0 t.mgmt.counters (145 + 2 * p.toNat) = min 0xFFFFFFFF (tget 0 s.mgmt.counters (145 + 2 * p.toNat) + (s.port p.toNat).berEvents)) := by
  refine ⟨_, rfl, rfl, State.port_setPort .., ?_, ?_⟩
  · rw [State.clearCounts, State.tget_counters_count, State.tget_counters_count, if_neg (by omega), if_pos rfl]
    rfl
  · rw [State.clearCounts, State.tget_counters_count, State.tget_counters_count, if_pos rfl, if_neg (by omega)]
    rfl

/-- Settles O35: each request by what the write does to the port. -/
theorem portRequests : Obligations.PortRequests := by
  intro p s n x sets
  refine ⟨⟨_, rfl, State.writeTarget_refused (.inr rfl)⟩, fun v => ⟨fun down => ⟨_, rfl, State.writeTarget_refused (.inl down)⟩,
    fun up on named dark => ⟨_, rfl, State.writeTarget_unlit up named on dark⟩, fun up named lit same => ⟨_, rfl, ?same⟩,
    fun dark idle off groups lit up hv => ⟨_, rfl, ?wakes⟩, fun trained idle on up quiet hv => ⟨_, rfl, ?gates⟩,
    fun live idle on up quiet noStalled room hv => ⟨_, rfl, ?drains⟩⟩,
    fun g => ⟨fun new bad => ⟨_, rfl, State.writeGrp_refused new (.inl bad)⟩,
      fun new ok trained within => ⟨_, rfl, State.writeGrp_narrows new ok trained within⟩,
      fun new ok lit wide => ⟨_, rfl, State.writeGrp_refused new (.inr ⟨lit, wide⟩)⟩,
      fun new dark rests ok => ⟨_, rfl, State.writeGrp_dark new ok dark rests⟩, fun same => ⟨_, rfl, State.writeGrp_same same⟩⟩,
    fun trained stays noStalled => ⟨_, rfl, ?recal⟩, fun h => ⟨_, rfl, State.writeCal_refused h⟩, clrcnt_ends p s⟩
  case same =>
    refine State.writeTarget_same up named lit (same.imp_right fun ⟨idle, h⟩ => ⟨idle, ?_⟩)
    rcases h with ⟨st, rfl⟩ | ⟨st, rfl⟩ | ⟨st, rfl⟩ <;> rw [st] <;> rfl
  case wakes =>
    rw [State.writeTarget_wakes idle up dark off groups lit hv, ofNat_toNat_port]
    exact ⟨rfl, State.port_setPort ..⟩
  case gates =>
    rw [hv, State.writeTarget_gates idle up trained on]
    have gated := State.gates_sent (s := s) (p := n) (y := { x with target := 0, targetAt := s.now }) quiet rfl
    rw [ofNat_toNat_port] at gated
    obtain ⟨st, target, trans, timers, mem⟩ := gated
    exact ⟨st.trans trained, target, trans, timers, mem⟩
  case drains =>
    rw [State.writeTarget_drains idle up live on hv, ofNat_toNat_port]
    have drained := State.drain_sent (s := s) (p := n) (y := { x with target := v, targetAt := s.now, trans := some (3, s.now + 1000) })
      noStalled room quiet rfl
    rw [ofNat_toNat_port] at drained
    obtain ⟨st, target, trans, marker, timers, mem⟩ := drained
    exact ⟨st.trans live, target, trans, marker, timers, mem⟩
  case recal =>
    rw [State.writeCal_stays trained (stays.imp_right Port.gating_iff.mpr) noStalled, ofNat_toNat_port]
    obtain ⟨fr, fa, la, tr, e⟩ := State.port_loopLight (s.setPort n (x.recalibrates s.now)) n
    rw [State.port_setPort] at e
    have timers := State.timers_loopLight (s.setPort n (x.recalibrates s.now)) n
    have now : ((s.setPort n (x.recalibrates s.now)).loopLight n).now = s.now := State.now_of_offLink (State.offLink_loopLight ..)
    refine ⟨?rest, (congrArg Port.st e :), (congrArg Port.recal e :), (congrArg Port.since e :), ?timers, fun g => ?gates, fun ng light => ?begins⟩
    case rest =>
      obtain ⟨fr, fa, la, tr, e | e⟩ := State.loopLight_eq (s.setPort n (x.recalibrates s.now)) n <;> rw [e] <;> rfl
    case timers =>
      rw [State.timers_after, timers, now]
      rfl
    case gates =>
      exact State.trans_recalibrates_gating (Port.gating_iff.mpr g)
    case begins =>
      refine State.trans_recalibrates (Bool.eq_false_iff.mpr fun g => ?_) (light.imp_right fun ⟨nl, f, far, lit⟩ => ?_)
      · obtain ⟨k, hk⟩ := Port.gating_iff.mp g
        exact ng k hk
      · exact Port.hasLight_of nl far lit

end Sys2Proof.Machine
end

