-- ==== Sys2Proof/Proofs/PortTransitions.lean ====
section
/-! PROOF. The way of a port up and down: wake, far-end light, TRAINED, LIVE, drain and gating (R39, R41 to R43, R71). -/

namespace Sys2Proof.Machine

open Sys2Proof.Claims

theorem State.transDone_of {s : State} {p k e : Nat} (h : (s.port p).trans = some (k, e)) (due : e ≤ s.now) : s.transDone p k = true := by
  simp [State.transDone, h, State.past, due]

/-! Into LOCKING -/

section
variable {s : State} {p : Nat}

/-- A port that does not drain begins a transition, and sees its own light where it is looped. -/
theorem State.port_moveLight (h : (s.port p).st ≠ 3) : ∃ fr fa la tr rl mm, ((s.portMove p).loopLight p).port p =
    { s.port p with far := fr, farAt := fa, lightAt := la, trans := tr, relock := rl, mismatchAt := mm } := by
  obtain ⟨tr, rl, la, mm, e⟩ := (State.Moves.portMove s p).begun h
  obtain ⟨fr, fa, la, tr, e'⟩ := State.port_loopLight (s.portMove p) p
  exact ⟨fr, fa, la, tr, rl, mm, by rw [e', e]⟩

theorem State.frame_moveLight : ((s.portMove p).loopLight p).frame = s.frame := by simp

theorem State.timers_moveLight : s.timers ⊆ ((s.portMove p).loopLight p).timers := by
  rw [State.timers_loopLight]
  exact (State.Moves.portMove s p).timers

theorem State.port_moveLight_ne {j : Nat} (h : j ≠ p) : ((s.portMove p).loopLight p).port j = s.port j :=
  (State.port_loopLight_ne _ p h).trans ((State.Moves.portMove s p).others j h)

/-- A lock that has no light yet begins with its own where it is looped; towards DARK its groups are gated at once. -/
theorem State.trans_moveLight (locking : (s.port p).st = 1) (idle : (s.port p).trans = none) (dark : (s.port p).lightAt = none) :
    ((s.port p).target ≠ 0 → (((s.portMove p).loopLight p).port p).trans = if (s.port p).looped = true then some (5, s.now + 14000) else none) ∧
    ((s.port p).target = 0 → (((s.portMove p).loopLight p).port p).trans = some (2, s.now + 200)) := by
  constructor
  · intro on
    rw [State.portMove_locking locking (.inl on)]
    split
    case isTrue looped => exact State.trans_loopLight_begins locking looped dark idle
    case isFalse open_ => rw [State.loopLight_off (.inr (by simpa using open_)), idle]
  · intro off
    have gated : ((s.gates p).port p).trans = some (2, s.now + 200) := by simp [State.gates]
    rw [State.portMove_locking_gates locking off idle, State.trans_loopLight_same (.inr ⟨_, gated⟩), gated]

end

/-- A port whose groups have been lit (R39). -/
def Port.woken (x : Port) (now : Nat) : Port := { x with
  st := 1, lit := x.grpmask, trans := none, since := now, relock := false, recal := false, looped := x.loopbk
  far := none, farAt := none, lightAt := none, mismatchAt := [], txSeq := 0, rxSeq := 0, nak := false
  unacked := [], stalled := [], inbox := [], markerSeen := false }

section
variable {p : BitVec 5} {s : State} {e : Nat}

theorem exec_laserWakeDone (h : (s.port p.toNat).trans = some (1, e)) (due : e ≤ s.now) : exec (.laserWakeDone p) s =
    .next ((((s.setPort p.toNat ((s.port p.toNat).woken s.now)).after 200000 (.lockTimeout p)).portMove p.toNat).loopLight p.toNat) := by
  change execLaserWakeDone p s = _
  simp only [execLaserWakeDone]
  exact if_pos (State.transDone_of h due)

theorem laserWakeDone_ends (h : (s.port p.toNat).trans = some (1, e)) (due : e ≤ s.now) : Ends (.laserWakeDone p) s (fun t =>
    t.mem = s.mem ∧ t.cores = s.cores ∧ (t.port p.toNat).st = 1 ∧ (t.port p.toNat).lit = (s.port p.toNat).grpmask ∧
    (t.port p.toNat).target = (s.port p.toNat).target ∧ (t.port p.toNat).unacked = [] ∧ (t.port p.toNat).since = s.now ∧
    (⟨s.now + 200000, .lockTimeout p⟩ : Timer) ∈ t.timers ∧
    ((s.port p.toNat).target ≠ 0 → (t.port p.toNat).trans = if (s.port p.toNat).loopbk = true then some (5, s.now + 14000) else none) ∧
    ((s.port p.toNat).target = 0 → (t.port p.toNat).trans = some (2, s.now + 200)) ∧ ∀ j, j ≠ p.toNat → t.port j = s.port j) := by
  refine ⟨_, exec_laserWakeDone h due, ?_⟩
  generalize hs : (s.setPort p.toNat ((s.port p.toNat).woken s.now)).after 200000 (.lockTimeout p) = s1
  have port : s1.port p.toNat = (s.port p.toNat).woken s.now := by rw [← hs]; exact State.port_setPort ..
  have frame : s1.frame = s.frame := by rw [← hs]; rfl
  have timer : (⟨s.now + 200000, .lockTimeout p⟩ : Timer) ∈ s1.timers := by rw [← hs]; exact State.mem_timers_after ..
  have others : ∀ j, j ≠ p.toNat → s1.port j = s.port j := by rw [← hs]; exact fun j hj => State.port_setPort_ne s _ _ hj
  obtain ⟨mem, cores, now, -⟩ := State.same_of_frame (State.frame_moveLight.trans frame)
  obtain ⟨fr, fa, la, tr, rl, mm, e⟩ := State.port_moveLight (s := s1) (p := p.toNat) (by rw [port]; exact (by decide : (1 : BitVec 2) ≠ 3))
  obtain ⟨on, off⟩ := State.trans_moveLight (s := s1) (p := p.toNat) (by rw [port]; rfl) (by rw [port]; rfl) (by rw [port]; rfl)
  have now1 : s1.now = s.now := (State.same_of_frame frame).2.2.1
  rw [port, now1] at on off
  refine ⟨mem, cores, ?_, ?_, ?_, ?_, ?_, State.timers_moveLight timer, on, off, fun j hj => (State.port_moveLight_ne hj).trans (others j hj)⟩ <;>
    rw [e, port] <;> rfl

end

/-! Far-end light (R41) -/

/-- A table that is filled from a list of indexes. -/
theorem tfind_map_filter {α : Type} (P : Nat → Bool) (f : Nat → α) (l : List Nat) (k : Nat) :
    tfind ((l.filter P).map (fun i => (i, f i))) k = if k ∈ l ∧ P k = true then some (f k) else none := by
  induction l with
  | nil => simp [tfind]
  | cons i l ih =>
    by_cases hi : P i = true
    · rw [List.filter_cons_of_pos hi]
      simp only [List.map_cons, tfind, ih]
      by_cases h : i = k
      · subst h; simp [hi]
      · simp [h, Ne.symm h]
    · rw [List.filter_cons_of_neg hi, ih]
      by_cases h : i = k
      · subst h; simp [hi]
      · simp [Ne.symm h]

section
variable (x : Port) (now : Nat) (groups : BitVec 4)

theorem Port.strayLight_nil (h : groups &&& ~~~x.lit = 0) : x.strayLight now groups = [] := by
  simp [Port.strayLight, h, bit]

theorem Port.tfind_strayLight {g : Nat} (hg : g < 4) : tfind (x.strayLight now groups) g =
    if groups.getLsbD g = true ∧ x.lit.getLsbD g = false then some (tget now x.mismatchAt g) else none := by
  have lit : bit (groups &&& ~~~x.lit).toNat g = (groups.getLsbD g && !x.lit.getLsbD g) := by
    rw [bit_toNat, BitVec.getLsbD_and, BitVec.getLsbD_not]
    simp [hg]
  rw [Port.strayLight, tfind_map_filter, lit]
  simp [hg]

theorem Port.strayLight_ne_nil (h : groups &&& ~~~x.lit ≠ 0) : x.strayLight now groups ≠ [] := by
  obtain ⟨g, hg⟩ : ∃ g : Fin 4, (groups &&& ~~~x.lit).getLsbD g = true := by
    by_contra noStalled
    exact h (BitVec.eq_of_getLsbD_eq fun i hi => (Bool.eq_false_iff.mpr fun c => noStalled ⟨⟨i, hi⟩, c⟩).trans BitVec.getLsbD_zero.symm)
  refine fun nil => List.ne_nil_of_mem (a := (g.val, tget now x.mismatchAt g)) ?_ nil
  exact List.mem_map.mpr ⟨g, List.mem_filter.mpr ⟨List.mem_range.mpr g.isLt, by rw [bit_toNat, hg]⟩, rfl⟩

end

section
variable {p : BitVec 5} {s : State} {f : FarEnd}
variable (locking : (s.port p.toNat).st = 1) (open_ : (s.port p.toNat).looped = false) (ng : ∀ k, (s.port p.toNat).trans ≠ some (2, k))
include locking open_ ng

theorem exec_farEndLightArrival : exec (.farEndLightArrival p f) s =
    let n := p.toNat
    let stray := (s.port n).strayLight s.now f.groups
    let x := { s.port n with far := some f, farAt := some s.now, mismatchAt := stray }
    if f.groups == x.lit then
      if x.lightAt.isSome && x.trans.isSome then .next (s.setPort n x)
      else .next (s.setPort n { x with lightAt := some s.now, trans := some (5, s.now + 14000) })
    else .next (if stray.any (fun g => (tfind (s.port n).mismatchAt g.1).isNone) then
      (s.setPort n { x with lightAt := none, trans := none }).after 2000 (.groupMismatch p)
      else s.setPort n { x with lightAt := none, trans := none }) := by
  change execFarEndLightArrival p f s = _
  unfold execFarEndLightArrival
  refine if_neg ?_
  rw [locking, open_]
  split
  case h_1 h => exact absurd h (ng _)
  case h_2 => decide

theorem farEndLight_matches (same : f.groups = (s.port p.toNat).lit) (dark : (s.port p.toNat).lightAt = none) :
    exec (.farEndLightArrival p f) s = .next (s.setPort p.toNat { s.port p.toNat with
      far := some f, farAt := some s.now, lightAt := some s.now, mismatchAt := [], trans := some (5, s.now + 14000) }) := by
  have stray : (s.port p.toNat).strayLight s.now f.groups = [] := Port.strayLight_nil _ _ _ (by rw [same]; simp)
  rw [exec_farEndLightArrival locking open_ ng]
  simp only [stray]
  rw [if_pos (by simpa using same), if_neg (by simp [dark])]

theorem farEndLight_lacks (differ : f.groups ≠ (s.port p.toNat).lit) (within : f.groups &&& ~~~(s.port p.toNat).lit = 0) :
    exec (.farEndLightArrival p f) s = .next (s.setPort p.toNat { s.port p.toNat with
      far := some f, farAt := some s.now, lightAt := none, mismatchAt := [], trans := none }) := by
  rw [exec_farEndLightArrival locking open_ ng]
  simp only [Port.strayLight_nil _ _ _ within]
  rw [if_neg (by simpa using differ)]
  rfl

/-- Light on a group that is not lit here: its time runs from its first arrival (R41). -/
theorem farEndLight_strays (stray : f.groups &&& ~~~(s.port p.toNat).lit ≠ 0) : Ends (.farEndLightArrival p f) s (fun t =>
    t.mem = s.mem ∧ t.cores = s.cores ∧ t.port p.toNat = { s.port p.toNat with
      far := some f, farAt := some s.now, lightAt := none, trans := none, mismatchAt := (s.port p.toNat).strayLight s.now f.groups } ∧
    ((s.port p.toNat).mismatchAt = [] → t.timers = s.timers ++ [⟨s.now + 2000, .groupMismatch p⟩])) := by
  have differ : f.groups ≠ (s.port p.toNat).lit := fun same => stray (by rw [same]; simp)
  refine ⟨_, by rw [exec_farEndLightArrival locking open_ ng]; exact if_neg (by simpa using differ), ?_⟩
  split
  case isTrue => exact ⟨rfl, rfl, State.port_setPort .., fun _ => rfl⟩
  case isFalse old =>
    refine ⟨rfl, rfl, State.port_setPort .., fun empty => absurd ?_ old⟩
    obtain ⟨g, hg⟩ := List.exists_mem_of_ne_nil _ (Port.strayLight_ne_nil _ s.now _ stray)
    exact List.any_eq_true.mpr ⟨g, hg, by rw [empty]; rfl⟩

end

/-! TRAINED (R39, R42, R47, R81) -/

section
variable {s : State} {p : Nat}

/-- A TRAINED port sends its handshake flit, and moves on. -/
theorem State.port_trained (trained : (s.port p).st = 2) : ∃ q u w m f tr rl la mm, ((s.sendHandshake p).portMove p).port p =
    { s.port p with txSeq := q, unacked := u, stalled := w, marker := m, txFree := f
                    trans := tr, relock := rl, lightAt := la, mismatchAt := mm } := by
  obtain ⟨q, u, w, m, f, e⟩ := (State.Sends.sendHandshake s p).port
  obtain ⟨tr, rl, la, mm, e'⟩ := (State.Moves.portMove (s.sendHandshake p) p).begun (by rw [e]; simp [trained])
  exact ⟨q, u, w, m, f, tr, rl, la, mm, by rw [e', e]⟩

/-- With room for it, the handshake flit takes the next number and waits for its acknowledgement. -/
theorem State.port_trained_room (trained : (s.port p).st = 2) (noStalled : (s.port p).stalled = []) (room : (s.port p).unacked.length < 64) :
    ∃ (g : Flit) (f : Nat) (tr : Option (Nat × Nat)) (rl : Bool) (la : Option Nat) (mm : Tbl Nat), g.typ = 2 ∧
      ((s.sendHandshake p).portMove p).port p = { s.port p with
        txSeq := (s.port p).txSeq + 1, unacked := (s.port p).unacked ++ [g], stalled := [], txFree := f
        trans := tr, relock := rl, lightAt := la, mismatchAt := mm } := by
  have own : s.sendHandshake p = s.sendOwn p 2 := if_neg (by simp [trained])
  obtain ⟨g, f, typ, -, e⟩ := State.port_sendOwn (typ := 2) noStalled room
  obtain ⟨tr, rl, la, mm, e'⟩ := (State.Moves.portMove (s.sendHandshake p) p).begun (by rw [own, e]; simp [trained])
  exact ⟨g, f, tr, rl, la, mm, typ, by rw [e', own, e]; rfl⟩

end

/-- A port that has locked, with its round trip. -/
def Port.locked (x : Port) (n now : Nat) (rtt : BitVec 24) : Port := { x with
  st := 2, trans := none, since := now, rtt0 := if x.looped then Config.loopDelay n else rtt
  rttc := if x.looped then Config.loopDelay n else rtt, valid := true, corrected := false, recal := false, caldone := x.caldone || x.recal }

/-- The state right after a lock: a recalibration's event, and without a TARGET of LIVE the loss of what a relock had kept. -/
def State.lockDone (s : State) (n : Nat) (rtt : BitVec 24) : State :=
  let s1 := s.setPort n ((s.port n).locked n s.now rtt)
  let s2 := if (s.port n).recal then s1.portEvent n 0 else s1
  if (s.port n).target != 2 then s2.loseFlits n false else s2

section
variable (s : State) (n : Nat) (rtt : BitVec 24)

theorem State.frame_lockDone : (s.lockDone n rtt).frame = s.frame := by
  simp only [State.lockDone]
  split <;> split <;> simp

theorem State.port_lockDone : (s.lockDone n rtt).port n = if (s.port n).target = 2 then (s.port n).locked n s.now rtt else
    ((s.port n).locked n s.now rtt).lost false := by
  have trained : (if (s.port n).recal then (s.setPort n ((s.port n).locked n s.now rtt)).portEvent n 0
      else s.setPort n ((s.port n).locked n s.now rtt)).port n = (s.port n).locked n s.now rtt := by
    split <;> simp
  simp only [State.lockDone]
  by_cases live : (s.port n).target = 2
  · rw [if_neg (by simpa using live), if_pos live, trained]
  · rw [if_pos (by simpa using live), if_neg live, State.port_loseFlits, trained]

end

section
variable {p : BitVec 5} {s : State} {e : Nat}

theorem exec_lockAchieved (locking : (s.port p.toNat).st = 1) (h : (s.port p.toNat).trans = some (5, e)) (due : e ≤ s.now) (rtt : BitVec 24) :
    exec (.lockAchieved p rtt) s =
      .next (((((s.lockDone p.toNat rtt).sendHandshake p.toNat).portMove p.toNat).armAck p.toNat).armVermis p.toNat) := by
  change execLockAchieved p rtt s = _
  unfold execLockAchieved
  exact if_pos (by rw [State.transDone_of h due, locking]; rfl)

theorem lockAchieved_ends (locking : (s.port p.toNat).st = 1) (h : (s.port p.toNat).trans = some (5, e)) (due : e ≤ s.now)
    (rtt : BitVec 24) : Ends (.lockAchieved p rtt) s (fun t => t.mem = s.mem ∧ t.cores = s.cores ∧
      let x := s.port p.toNat
      let y := t.port p.toNat
      y.st = 2 ∧ y.since = s.now ∧ y.valid = true ∧
      y.rtt0 = (if x.looped = true then Config.loopDelay p.toNat else rtt) ∧ y.rttc = y.rtt0 ∧ y.lit = x.lit ∧
      y.recal = false ∧ y.caldone = (x.caldone || x.recal) ∧
      (x.target ≠ 2 → y.drainlost = (x.drainlost || x.unacked.any (fun f => f.typ != 2)) ∧ ∀ f ∈ y.unacked, f.typ = 2) ∧
      (x.target ≠ 2 ∨ (x.stalled = [] ∧ x.unacked.length < 64) → y.txSeq = x.txSeq + 1)) := by
  refine ⟨_, exec_lockAchieved locking h due rtt, ?_⟩
  generalize ht : ((((s.lockDone p.toNat rtt).sendHandshake p.toNat).portMove p.toNat).armAck p.toNat).armVermis p.toNat = t
  obtain ⟨mem, cores, -, -⟩ := State.same_of_frame (s := s) (t := t) (by rw [← ht]; simp [State.frame_lockDone])
  have hy : t.port p.toNat = (((s.lockDone p.toNat rtt).sendHandshake p.toNat).portMove p.toNat).port p.toNat := by rw [← ht]; simp
  have port := s.port_lockDone p.toNat rtt
  generalize s.lockDone p.toNat rtt = s1 at hy port
  refine ⟨mem, cores, ?_⟩
  rw [hy]
  by_cases live : (s.port p.toNat).target = 2
  case pos =>
    rw [if_pos live] at port
    obtain ⟨q, u, w, m, f, tr, rl, la, mm, e⟩ := State.port_trained (s := s1) (p := p.toNat) (by rw [port]; rfl)
    refine ⟨?_, ?_, ?_, ?_, ?_, ?_, ?_, ?_, fun off => absurd live off, fun h => ?_⟩
    case refine_9 =>
      obtain ⟨noStalled, room⟩ := h.resolve_left (absurd live)
      obtain ⟨g, f, tr, rl, la, mm, -, e⟩ := State.port_trained_room (s := s1) (p := p.toNat) (by rw [port]; rfl) (by rw [port]; exact noStalled)
        (by rw [port]; exact room)
      rw [e, port]
      rfl
    all_goals rw [e, port]; rfl
  case neg =>
    rw [if_neg live] at port
    obtain ⟨g, f, tr, rl, la, mm, typ, e⟩ := State.port_trained_room (s := s1) (p := p.toNat) (by rw [port]; rfl) (by rw [port]; rfl)
      (by rw [port]; exact (by decide : 0 < 64))
    rw [e, port]
    exact ⟨rfl, rfl, rfl, rfl, rfl, rfl, rfl, rfl, fun _ => ⟨rfl, fun f hf => (List.mem_singleton.mp hf).symm ▸ typ⟩, fun _ => rfl⟩

end

/-! LIVE (R42, R71, R73) -/

/-- A port that enters LIVE with its handshake done, replaying `k` flits. -/
def Port.lives (x : Port) (now k : Nat) : Port :=
  { x.tally now (fun x => { x with rply := satAdd x.rply k }) with st := 3, trans := none, since := now, markerSeen := false, relock := false }

theorem Port.lit_lives (x : Port) (now k : Nat) : (x.lives now k).lit = x.lit := by
  simp only [Port.lives, Port.tally]
  split <;> rfl

/-- The circuit of a port that has become LIVE. -/
def State.liveEntry (s : State) (n : Nat) : State :=
  match s.entryOf n with
  | some e => if (s.circuit e).st == 3 then (s.moveEntry e { s.circuit e with st := 4 }).enterSlot e else s
  | none => s

section
variable (s : State) (n : Nat)

theorem State.kept_liveEntry : (s.liveEntry n).kept = s.kept := by
  unfold State.liveEntry
  split
  · split
    · simp
    · rfl
  · rfl

theorem State.circuit_liveEntry {k : Nat} (he : s.entryOf n = some k) (reserved : (s.circuit k).st = 3) : ((s.liveEntry n).circuit k).st = 4 := by
  simp only [State.liveEntry, he]
  rw [if_pos (by simp [reserved]), State.circuit_enterSlot_st, State.circuit_moveEntry]

end

/-- The flits that are sent again: those of a relock, where a data flit or a marker is among them. -/
def Port.again (x : Port) : List Flit := if x.unacked.all (fun f => f.typ == 2) then [] else x.unacked

section
variable {p : BitVec 5} {s : State} {e : Nat} (trained : (s.port p.toNat).st = 2) (h : (s.port p.toNat).trans = some (4, e)) (due : e ≤ s.now)
include trained h due

theorem exec_handshakeLive (opened : s.portMissed p.toNat = false) : exec (.handshakeLive p) s = .next
    (((((s.setPort p.toNat ((s.port p.toNat).lives s.now (s.port p.toNat).again.length)).emit p.toNat (s.port p.toNat).again).liveEntry
      p.toNat).armAck p.toNat).portMove p.toNat) := by
  have done := State.transDone_of h due
  change execHandshakeLive p s = _
  unfold execHandshakeLive
  refine (if_neg (by rw [opened]; simp)).trans ((if_pos (by rw [done, trained]; rfl)).trans ?_)
  rfl

theorem handshakeLive_ends (opened : s.portMissed p.toNat = false) : Ends (.handshakeLive p) s (fun t =>
    t.mem = s.mem ∧ t.cores = s.cores ∧ (t.port p.toNat).st = 3 ∧ (t.port p.toNat).since = s.now ∧
    (t.port p.toNat).lit = (s.port p.toNat).lit ∧ (∃ m ∈ t.timers, m.what = .ackOnlyFlit p) ∧
    ∀ k, s.entryOf p.toNat = some k → (s.circuit k).st = 3 → (t.circuit k).st = 4) := by
  refine ⟨_, exec_handshakeLive trained h due opened, ?_⟩
  generalize hs1 : (s.setPort p.toNat ((s.port p.toNat).lives s.now (s.port p.toNat).again.length)).emit p.toNat (s.port p.toNat).again = s1
  have sent := State.Sends.emit (s.setPort p.toNat ((s.port p.toNat).lives s.now (s.port p.toNat).again.length)) p.toNat (s.port p.toNat).again
  rw [hs1] at sent
  have circuits : s1.circuits = s.circuits := State.circuits_of_offLink sent.rest
  have port := State.port_of_kept (s1.kept_liveEntry p.toNat) p.toNat
  have moves := State.Moves.portMove ((s1.liveEntry p.toNat).armAck p.toNat) p.toNat
  obtain ⟨q, u, w, m, f, e1⟩ := sent.port
  obtain ⟨y, ⟨tr, rl, la, mm, ey⟩, ⟨q', u', w', m', f', e2⟩⟩ := moves.port
  rw [State.port_setPort] at e1
  rw [State.port_armAck, port, e1] at ey
  rw [ey] at e2
  have frame : (((s1.liveEntry p.toNat).armAck p.toNat).portMove p.toNat).frame = s.frame := by
    rw [State.frame_portMove, State.frame_armAck, State.frame_of_kept (s1.kept_liveEntry p.toNat)]
    exact State.frame_of_offLink sent.rest
  obtain ⟨mem, cores, -, -⟩ := State.same_of_frame frame
  refine ⟨mem, cores, by rw [e2]; rfl, by rw [e2]; rfl, by rw [e2]; exact Port.lit_lives .., ?acks, fun k he reserved => ?live⟩
  case acks =>
    obtain ⟨tm, -, ⟨a, ha, what⟩, e⟩ := (s1.liveEntry p.toNat).armAck_eq p.toNat
    rw [e] at moves ⊢
    exact ⟨a, moves.timers ha, by rw [what, ofNat_toNat_port]⟩
  case live =>
    rw [State.circuit_of_circuits (State.circuits_of_offLink moves.rest), State.circuit_of_circuits (State.circuits_armAck ..)]
    exact State.circuit_liveEntry s1 p.toNat ((State.entryOf_of_circuits circuits _).trans he)
      ((congrArg Circuit.st (State.circuit_of_circuits circuits k)).trans reserved)

omit trained h due in
/-- In a slot that was not opened no handshake begins (R80). -/
theorem State.tryHandshake_missed {n : Nat} (missed : s.portMissed n = true) : s.tryHandshake n = s := by
  simp only [State.tryHandshake]
  split
  · rfl
  · exact if_neg (by simp [missed])

/-- In a slot that was not opened the port stays TRAINED (R80). -/
theorem exec_handshakeLive_missed (missed : s.portMissed p.toNat = true) (on : (s.port p.toNat).target = 2)
    (noStalled : ∀ q ∈ s.circuits, q.2.tearPending = false) :
    exec (.handshakeLive p) s = .next (s.setPort p.toNat { s.port p.toNat with trans := none }) := by
  have done := State.transDone_of h due
  change execHandshakeLive p s = _
  unfold execHandshakeLive
  refine (if_pos (by rw [done, trained, missed]; rfl)).trans ?_
  have stays : (s.setPort p.toNat { s.port p.toNat with trans := none }).portMove p.toNat = s.setPort p.toNat { s.port p.toNat with trans := none } := by
    rw [State.portMove_trained (by rw [State.port_setPort]; exact trained), if_neg (by simp), if_neg (by simp [on]), if_pos (by simp [on])]
    exact State.tryHandshake_missed missed
  simp only [stays]
  rw [State.releasedTears_none]
  exact noStalled

end

/-! The drain and the gating (R39, R43, R54) -/

/-- A port that has gated its groups; OPLOSS counts the end of a relock (R54). -/
def Port.gatedAt (x : Port) (now : Nat) : Port :=
  { (if x.relock then x.tally now (fun x => { x with loss := satInc x.loss }) else x) with
    st := 0, lit := 0, trans := none, since := now, relock := false, far := none, farAt := none }

theorem Port.loss_gatedAt (x : Port) (now : Nat) :
    (x.gatedAt now).loss = if x.relock = true ∧ x.clearedAt ≠ some now then satInc x.loss else x.loss := by
  simp only [Port.gatedAt, Port.tally]
  by_cases again : x.relock = true <;> by_cases cleared : x.clearedAt = some now <;> simp [again, cleared]

section
variable {p : BitVec 5} {s : State} {e : Nat}

theorem exec_drainEnd (live : (s.port p.toNat).st = 3) (h : (s.port p.toNat).trans = some (3, e))
    (ended : ((s.port p.toNat).marker = none ∧ 3 ∉ (s.port p.toNat).stalled) ∨ e ≤ s.now) : exec (.drainEnd p) s = .next
      ((((((s.setPort p.toNat { s.port p.toNat with st := 2, trans := none, since := s.now }).loseFlits p.toNat true).drainOver
        p.toNat).sendHandshake p.toNat).portMove p.toNat).armVermis p.toNat) := by
  change execDrainEnd p s = _
  unfold execDrainEnd
  simp only [h]
  refine if_pos ?_
  rw [live]
  rcases ended with ⟨acked, sent⟩ | past
  · simp [acked, sent]
  · simp [State.past, past]

theorem drainEnd_ends (live : (s.port p.toNat).st = 3) (h : (s.port p.toNat).trans = some (3, e))
    (ended : ((s.port p.toNat).marker = none ∧ 3 ∉ (s.port p.toNat).stalled) ∨ e ≤ s.now) : Ends (.drainEnd p) s (fun t =>
    t.mem = s.mem ∧ t.cores = s.cores ∧ (t.port p.toNat).st = 2 ∧ (t.port p.toNat).since = s.now ∧ (t.port p.toNat).unacked.length = 1 ∧
    (t.port p.toNat).drainlost = ((s.port p.toNat).drainlost || !(s.port p.toNat).unacked.isEmpty)) := by
  refine ⟨_, exec_drainEnd live h ended, ?_⟩
  generalize hs : ((s.setPort p.toNat { s.port p.toNat with st := 2, trans := none, since := s.now }).loseFlits p.toNat true).drainOver
    p.toNat = s1
  have port : s1.port p.toNat = Port.lost { s.port p.toNat with st := 2, trans := none, since := s.now } true := by
    rw [← hs, State.port_drainOver, State.port_loseFlits, State.port_setPort]
  have frame : s1.frame = s.frame := by rw [← hs]; simp
  obtain ⟨mem, cores, -, -⟩ := State.same_of_frame (s := s) (t := ((s1.sendHandshake p.toNat).portMove p.toNat).armVermis p.toNat) (by simp [frame])
  obtain ⟨g, f, tr, rl, la, mm, -, e⟩ := State.port_trained_room (s := s1) (p := p.toNat) (by rw [port]; rfl) (by rw [port]; rfl)
    (by rw [port]; exact (by decide : 0 < 64))
  refine ⟨mem, cores, ?_⟩
  rw [State.port_armVermis, e, port]
  exact ⟨rfl, rfl, rfl, Port.drainlost_lost _⟩

theorem exec_portGated (h : (s.port p.toNat).trans = some (2, e)) (due : e ≤ s.now) : exec (.portGated p) s = .next
    (((((s.setPort p.toNat ((s.port p.toNat).gatedAt s.now)).loseFlits p.toNat false).releasedTears p.toNat).portDark p.toNat).portMove p.toNat) := by
  change execPortGated p s = _
  simp only [execPortGated]
  exact if_pos (State.transDone_of h due)

theorem portGated_ends (h : (s.port p.toNat).trans = some (2, e)) (due : e ≤ s.now) : Ends (.portGated p) s (fun t =>
    t.mem = s.mem ∧ t.cores = s.cores ∧ (t.port p.toNat).st = 0 ∧ (t.port p.toNat).lit = 0 ∧ (t.port p.toNat).since = s.now ∧
    (t.port p.toNat).unacked = [] ∧ (t.port p.toNat).loss = if (s.port p.toNat).relock = true ∧ (s.port p.toNat).clearedAt ≠ some s.now then
      satInc (s.port p.toNat).loss else (s.port p.toNat).loss) := by
  refine ⟨_, exec_portGated h due, ?_⟩
  generalize hs : (((s.setPort p.toNat ((s.port p.toNat).gatedAt s.now)).loseFlits p.toNat false).releasedTears p.toNat).portDark p.toNat = s1
  have port : s1.port p.toNat = ((s.port p.toNat).gatedAt s.now).lost false := by
    rw [← hs, State.port_portDark, State.port_releasedTears, State.port_loseFlits, State.port_setPort]
  have frame : s1.frame = s.frame := by rw [← hs]; simp
  obtain ⟨mem, cores, -, -⟩ := State.same_of_frame (s := s) (t := s1.portMove p.toNat) (by simp [frame])
  obtain ⟨tr, rl, la, mm, e⟩ := (State.Moves.portMove s1 p.toNat).begun (by rw [port]; exact (by decide : (0 : BitVec 2) ≠ 3))
  refine ⟨mem, cores, ?_⟩
  rw [e, port]
  exact ⟨rfl, rfl, rfl, rfl, Port.loss_gatedAt ..⟩

end

/-- The claim on the way of a port up and down. -/
theorem portTransitions : PortTransitions := by
  intro p s e n x ends
  refine ⟨laserWakeDone_ends, fun locking open_ ng f => ⟨fun same dark => ?light, fun stray => ?stray, fun differ within => ?lacks⟩,
    lockAchieved_ends, handshakeLive_ends, fun trained h due missed on noStalled => ?missed, drainEnd_ends, portGated_ends⟩
  case light => exact ⟨_, farEndLight_matches locking open_ ng same dark, rfl, rfl, by rw [State.port_setPort], State.port_setPort ..⟩
  case lacks => exact ⟨_, farEndLight_lacks locking open_ ng differ within, rfl, rfl, by rw [State.port_setPort], State.port_setPort ..⟩
  case missed => exact ⟨_, exec_handshakeLive_missed trained h due missed on noStalled, rfl, rfl, rfl⟩
  case stray =>
    obtain ⟨t, run, mem, cores, port, timers⟩ := farEndLight_strays locking open_ ng stray
    refine ⟨t, run, mem, cores, ?_, fun g hg => ?_, timers⟩
    · rw [port]
    · rw [port]
      exact Port.tfind_strayLight x s.now f.groups hg

end Sys2Proof.Machine
end

