-- ==== Sys2Proof/Proofs/PortFailures.lean ====
section
/-! PROOF. The ways a port fails: the lock's time-out, a mismatch of groups or of versions, a loss of lock or of light, and what happens
to the entry of the port (R40 to R42, R44, R45, R49, R50, R71). -/

namespace Sys2Proof.Machine

open Sys2Proof.Claims

/-! The circuit table -/

section
variable {α : Type} {k : Nat} {v : α} {q : Nat × α}

theorem mem_tset_self (t : Tbl α) : (k, v) ∈ tset t k v := by
  induction t with
  | nil => simp [tset]
  | cons q t ih =>
    simp only [tset]
    split
    · simp
    · split
      · simp
      · exact List.mem_cons_of_mem q ih

theorem eq_or_mem_of_mem_tset {t : Tbl α} (h : q ∈ tset t k v) : q = (k, v) ∨ q ∈ t := by
  induction t with
  | nil => exact .inl (List.mem_singleton.mp h)
  | cons r t ih =>
    simp only [tset] at h
    split at h
    · exact List.mem_cons.mp h
    · split at h
      · exact (List.mem_cons.mp h).imp_right (List.mem_cons_of_mem r)
      · rcases List.mem_cons.mp h with rfl | h
        · exact .inr List.mem_cons_self
        · exact (ih h).imp_right (List.mem_cons_of_mem r)

/-- Setting an index drops no more than what the index held. -/
theorem mem_tset_or {t : Tbl α} (h : q ∈ t) : q ∈ tset t k v ∨ tfind t k = some q.2 := by
  induction t with
  | nil => exact absurd h List.not_mem_nil
  | cons r t ih =>
    simp only [tset, tfind]
    split
    case isTrue => exact .inl (List.mem_cons_of_mem _ h)
    case isFalse =>
      split
      case isTrue =>
        rcases List.mem_cons.mp h with rfl | h
        · exact .inr rfl
        · exact .inl (List.mem_cons_of_mem _ h)
      case isFalse =>
        rcases List.mem_cons.mp h with rfl | h
        · exact .inl List.mem_cons_self
        · exact (ih h).imp_left (List.mem_cons_of_mem r)

theorem mem_of_tfind {t : Tbl α} (h : tfind t k = some v) : (k, v) ∈ t := by
  induction t with
  | nil => simp [tfind] at h
  | cons r t ih =>
    simp only [tfind] at h
    split at h
    case isTrue e => exact List.mem_cons.mpr (.inl (by rw [← e, ← Option.some.inj h]))
    case isFalse => exact List.mem_cons_of_mem r (ih h)

end

/-- Where all that names a port is at one index, the port's entry is there as soon as one of them is in use. -/
theorem State.entryOf_iff_of_only {s : State} {n k : Nat} (only : ∀ q ∈ s.circuits, q.2.port.toNat = n → q.1 = k) :
    s.entryOf n = some k ↔ ∃ q ∈ s.circuits, q.2.port.toNat = n ∧ q.2.st ≠ 0 ∧ q.2.st ≠ 6 := by
  have mem (q : Nat × Circuit) : q ∈ s.circuits.filter (fun e => e.2.port.toNat == n && e.2.st != 0 && e.2.st != 6) ↔
      q ∈ s.circuits ∧ q.2.port.toNat = n ∧ q.2.st ≠ 0 ∧ q.2.st ≠ 6 := by
    simp [List.mem_filter, and_assoc]
  simp only [State.entryOf]
  generalize s.circuits.filter (fun e => e.2.port.toNat == n && e.2.st != 0 && e.2.st != 6) = l at mem
  have here (q : Nat × Circuit) (hq : q ∈ l) : q.1 = k := only q ((mem q).mp hq).1 ((mem q).mp hq).2.1
  constructor
  · intro h
    cases l with
    | nil => simp at h
    | cons q l => exact ⟨q, (mem q).mp List.mem_cons_self⟩
  · rintro ⟨q, hq⟩
    have hl := (mem q).mpr hq
    split
    case h_1 e he => exact congrArg some (here e (List.mem_of_find?_eq_some he))
    case h_2 =>
      cases l with
      | nil => exact absurd hl List.not_mem_nil
      | cons r l => exact congrArg some (here r List.mem_cons_self)

/-- Entry `k`, in STATE `v`, is the one of port `n`, and no entry waits for a DARK port. -/
structure State.Sole (s : State) (n k : Nat) (v : BitVec 4) : Prop where
  only  : ∀ q ∈ s.circuits, q.2.port.toNat = n → q.1 = k
  entry : s.entryOf n = some k
  state : (s.circuit k).st = v
  dark  : ∀ q ∈ s.circuits, q.2.freeOnDark = false

theorem State.freeOnDark_circuit {s : State} (dark : ∀ q ∈ s.circuits, q.2.freeOnDark = false) (k : Nat) : (s.circuit k).freeOnDark = false := by
  unfold State.circuit tget
  cases h : tfind s.circuits k with
  | none => rfl
  | some c => exact dark _ (mem_of_tfind h)

/-- Rewriting the entry without its port and STATE leaves it the port's. -/
theorem State.Sole.rewrite {s t : State} {n k : Nat} {v : BitVec 4} {c : Circuit} (h : s.Sole n k v) (hc : t.circuits = tset s.circuits k c)
    (port : c.port = (s.circuit k).port) (st : c.st = (s.circuit k).st) (dark : c.freeOnDark = (s.circuit k).freeOnDark) : t.Sole n k v := by
  have only : ∀ q ∈ t.circuits, q.2.port.toNat = n → q.1 = k := by
    rw [hc]
    intro q hq hn
    rcases eq_or_mem_of_mem_tset hq with rfl | old
    · rfl
    · exact h.only q old hn
  have here : t.circuit k = c := by simp only [State.circuit, hc, tget_tset_same]
  refine ⟨only, (State.entryOf_iff_of_only only).mpr ?_, by rw [here, st, h.state], ?_⟩
  · obtain ⟨q, hq, used⟩ := (State.entryOf_iff_of_only h.only).mp h.entry
    rw [hc]
    rcases mem_tset_or (k := k) (v := c) hq with stays | gone
    · exact ⟨q, stays, used⟩
    · have old : s.circuit k = q.2 := by simp only [State.circuit, tget, gone, Option.getD_some]
      exact ⟨_, mem_tset_self _, by rw [port, st, old]; exact used⟩
  · rw [hc]
    intro q hq
    rcases eq_or_mem_of_mem_tset hq with rfl | old
    · exact dark.trans (State.freeOnDark_circuit h.dark k)
    · exact h.dark q old

theorem State.Sole.each {n k : Nat} {v : BitVec 4} {f : State → Nat × Circuit → State} (l : List (Nat × Circuit)) (hl : ∀ q ∈ l, q.1 = k)
    (step : ∀ (s : State) q, q.1 = k → s.Sole n k v → (f s q).Sole n k v) {s : State} (h : s.Sole n k v) : (s.each l f).Sole n k v := by
  induction l generalizing s with
  | nil => exact h
  | cons q l ih =>
    exact ih (fun r hr => hl r (List.mem_cons_of_mem q hr)) (step s q (hl q List.mem_cons_self) h)

theorem State.Sole.drainOver {s : State} {n k : Nat} {v : BitVec 4} (h : s.Sole n k v) : (s.drainOver n).Sole n k v := by
  have closed : (s.each (s.circuits.filter (fun e => e.2.port.toNat == n)) (fun s e =>
      s.setCircuit e.1 { s.circuit e.1 with window := none })).Sole n k v := by
    refine .each _ (fun q hq => ?_) (fun s q hq h => ?_) h
    · obtain ⟨mem, named⟩ := List.mem_filter.mp hq
      exact h.only q mem (by simpa using named)
    · rw [hq]
      exact h.rewrite rfl rfl rfl rfl
  refine .each _ (fun q hq => ?_) (fun s q hq h => ?_) closed
  · obtain ⟨mem, named⟩ := List.mem_filter.mp hq
    exact closed.only q mem (by simp at named; exact named.1.1)
  · rw [hq]
    exact h.rewrite (s.circuits_sendTear k 0) rfl rfl rfl

/-- Without an entry that waits for it, a DARK port changes none. -/
theorem State.portDark_none {s : State} {n : Nat} (dark : ∀ q ∈ s.circuits, q.2.freeOnDark = false) : s.portDark n = s := by
  have nil : s.circuits.filter (fun e => e.2.port.toNat == n && e.2.freeOnDark) = [] :=
    List.filter_eq_nil_iff.mpr fun q hq => by simp [dark q hq]
  rw [State.portDark, nil]
  rfl

/-- The entry of a port that goes DARK by a failure is FAILED. -/
theorem State.Sole.failed {s : State} {n k : Nat} {v w : BitVec 4} (h : s.Sole n k v) (live : v = 3 ∨ v = 4) :
    (((s.portFailed n w).portDark n).circuit k).st = 6 ∧ (((s.portFailed n w).portDark n).circuit k).status = w := by
  have e : s.portFailed n w = s.failEntry k w true := by
    simp only [State.portFailed, h.entry, h.state]
    exact if_pos (by simpa using live)
  rw [State.portDark_none]
  · exact State.circuit_portFailed s w h.entry (h.state ▸ live)
  · rw [e, State.circuits_failEntry]
    intro q hq
    rcases eq_or_mem_of_mem_tset hq with rfl | old
    · exact State.freeOnDark_circuit h.dark k
    · exact h.dark q old

/-! The lock's time-out and the mismatches (R40 to R42) -/

section
variable {s t : State} {p : BitVec 5}

/-- What a port failure makes of the entry, where the circuit table is still the one before it. -/
theorem State.circuit_portFailed_of {n : Nat} (same : t.circuits = s.circuits) (v : BitVec 4) {k : Nat} (he : s.entryOf n = some k)
    (live : (s.circuit k).st = 3 ∨ (s.circuit k).st = 4) : ((t.portFailed n v).circuit k).st = 6 ∧ ((t.portFailed n v).circuit k).status = v :=
  State.circuit_portFailed t v ((State.entryOf_of_circuits same n).trans he) (by rwa [State.circuit_of_circuits same])

/-- A lock that has failed: the port's groups are gated. -/
def State.lockFails (s : State) (p : BitVec 5) (y : Port) : State :=
  (((s.setPort p.toNat y).loseFlits p.toNat true).portFailed p.toNat 6).after 200 (.portGated p)

theorem State.lockFails_ends {i : Instr} {y : Port} (run : exec i s = .next (s.lockFails p y)) (unacked : y.unacked = (s.port p.toNat).unacked)
    (drainlost : y.drainlost = (s.port p.toNat).drainlost) : Ends i s (fun t => t.mem = s.mem ∧ t.cores = s.cores ∧
      t.port p.toNat = y.lost true ∧ (t.port p.toNat).drainlost = ((s.port p.toNat).drainlost || !(s.port p.toNat).unacked.isEmpty) ∧
      ∀ k, s.entryOf p.toNat = some k → (s.circuit k).st = 3 ∨ (s.circuit k).st = 4 → (t.circuit k).st = 6 ∧ (t.circuit k).status = 6) := by
  obtain ⟨mem, cores, -, -⟩ := State.same_of_frame (s := s) (t := s.lockFails p y) (by simp [State.lockFails])
  have port : (s.lockFails p y).port p.toNat = y.lost true := by
    rw [State.lockFails, State.port_after, State.port_portFailed, State.port_loseFlits, State.port_setPort]
  refine ⟨_, run, mem, cores, port, ?_, fun k he live => ?_⟩
  · rw [port, Port.drainlost_lost, unacked, drainlost]
  · exact State.circuit_portFailed_of (t := (s.setPort p.toNat y).loseFlits p.toNat true) (State.circuits_loseFlits ..) 6 he live

theorem exec_lockTimeout (locking : (s.port p.toNat).st = 1) (late : (s.port p.toNat).since + 200000 ≤ s.now)
    (ng : ∀ k, (s.port p.toNat).trans ≠ some (2, k)) : exec (.lockTimeout p) s = .next (s.lockFails p { s.port p.toNat with
      lockfail := true, lasterr := if (s.port p.toNat).relock then 7 else 3, target := 0, trans := some (2, s.now + 200)
      lightAt := none, mismatchAt := [], recal := false }) := by
  change execLockTimeout p s = _
  unfold execLockTimeout
  refine (if_pos ?_).trans rfl
  rw [locking, State.past, decide_eq_true late]
  split
  case h_1 h => exact absurd h (ng _)
  case h_2 => rfl

theorem exec_groupMismatch (locking : (s.port p.toNat).st = 1) (long : ∃ g ∈ (s.port p.toNat).mismatchAt, g.2 + 2000 ≤ s.now)
    (idle : (s.port p.toNat).trans = none) : exec (.groupMismatch p) s = .next (s.lockFails p { s.port p.toNat with
      lockfail := true, lasterr := 8, target := 0, trans := some (2, s.now + 200), mismatchAt := [], recal := false, relock := false }) := by
  change execGroupMismatch p s = _
  unfold execGroupMismatch
  refine (if_pos ?_).trans rfl
  rw [locking, idle]
  simpa [State.past] using long

/-- The versions of the two ends differ for too long (R42). -/
def Port.misversioned (x : Port) : Port := { x with vermis := true, lasterr := 5, target := 1, trans := none }

theorem exec_vermis (trained : (s.port p.toNat).st = 2) (on : (s.port p.toNat).target = 2)
    (differ : ∀ f, (s.port p.toNat).far = some f → f.ver ≠ s.portVer p.toNat)
    (late : max (s.port p.toNat).since (s.port p.toNat).targetAt + 20000 + (s.port p.toNat).rttc.toNat / 10 ≤ s.now) :
    exec (.vermis p) s = .next ((((s.setPort p.toNat (s.port p.toNat).misversioned).loseFlits p.toNat false).sendHandshake
      p.toNat).portFailed p.toNat 5) := by
  change execVermis p s = _
  unfold execVermis
  refine (if_pos ?_).trans rfl
  rw [trained, on, State.past, decide_eq_true late]
  split
  case h_1 f far => simpa using differ f far
  case h_2 => rfl

theorem vermis_ends (trained : (s.port p.toNat).st = 2) (on : (s.port p.toNat).target = 2)
    (differ : ∀ f, (s.port p.toNat).far = some f → f.ver ≠ s.portVer p.toNat)
    (late : max (s.port p.toNat).since (s.port p.toNat).targetAt + 20000 + (s.port p.toNat).rttc.toNat / 10 ≤ s.now) :
    Ends (.vermis p) s (fun t => t.mem = s.mem ∧ t.cores = s.cores ∧ (t.port p.toNat).st = 2 ∧ (t.port p.toNat).vermis = true ∧
      (t.port p.toNat).lasterr = 5 ∧ (t.port p.toNat).target = 1 ∧
      ∀ k, s.entryOf p.toNat = some k → (s.circuit k).st = 3 ∨ (s.circuit k).st = 4 → (t.circuit k).st = 6 ∧ (t.circuit k).status = 5) := by
  refine ⟨_, exec_vermis trained on differ late, ?_⟩
  generalize hs : (s.setPort p.toNat (s.port p.toNat).misversioned).loseFlits p.toNat false = s1
  have port : s1.port p.toNat = (s.port p.toNat).misversioned.lost false := by rw [← hs, State.port_loseFlits, State.port_setPort]
  have frame : s1.frame = s.frame := by rw [← hs]; simp
  have circuits : s1.circuits = s.circuits := by rw [← hs]; exact State.circuits_loseFlits ..
  have sent := State.Sends.sendHandshake s1 p.toNat
  obtain ⟨q, u, w, m, f, e⟩ := sent.port
  obtain ⟨mem, cores, -, -⟩ := State.same_of_frame (s := s) (t := (s1.sendHandshake p.toNat).portFailed p.toNat 5) (by simp [frame])
  refine ⟨mem, cores, ?_⟩
  rw [State.port_portFailed, e, port]
  exact ⟨trained, rfl, rfl, rfl, fun k => State.circuit_portFailed_of ((State.circuits_of_offLink sent.rest).trans circuits) 5⟩

end

/-! A loss of lock (R44) -/

/-- A port that has lost its lock. -/
def Port.unlocked (x : Port) (now : Nat) : Port := { x with
  st := 1, trans := none, since := now, relock := true, lockloss := true, looped := x.loopbk
  far := none, farAt := none, lightAt := none, mismatchAt := [] }

/-- A drain that a loss of lock ends is over; otherwise released entries send their TEAR. -/
def State.lockGone (s : State) (n : Nat) : State :=
  match (s.port n).trans with
  | some (3, _) => (s.setPort n ((s.port n).unlocked s.now)).drainOver n
  | _ => (s.setPort n ((s.port n).unlocked s.now)).releasedTears n

theorem State.kept_lockGone (s : State) (n : Nat) : (s.lockGone n).kept = (s.setPort n ((s.port n).unlocked s.now)).kept := by
  unfold State.lockGone
  split <;> simp

section
variable {s : State} {p : BitVec 5}

/-- A relock keeps its mark unless the port is on its way to DARK. -/
theorem State.relock_moveLight {n : Nat} (locking : (s.port n).st = 1) (idle : (s.port n).trans = none) :
    (((s.portMove n).loopLight n).port n).relock = ((s.port n).relock && decide ((s.port n).target ≠ 0)) := by
  obtain ⟨fr, fa, la, tr, e⟩ := State.port_loopLight (s.portMove n) n
  rw [e]
  by_cases off : (s.port n).target = 0
  · rw [State.portMove_locking_gates locking off idle]
    simp [State.gates, off]
  · rw [State.portMove_locking locking (.inl off), decide_eq_true off, Bool.and_true]

theorem exec_lossOfLock (up : (s.port p.toNat).st = 2 ∨ (s.port p.toNat).st = 3) : exec (.lossOfLock p) s = .next
    (((((s.lockGone p.toNat).portEvent p.toNat 5).after 200000 (.lockTimeout p)).portMove p.toNat).loopLight p.toNat) := by
  change execLossOfLock p s = _
  unfold execLossOfLock
  refine (if_pos (by simpa using up)).trans ?_
  rfl

theorem lossOfLock_ends (up : (s.port p.toNat).st = 2 ∨ (s.port p.toNat).st = 3) : Ends (.lossOfLock p) s (fun t =>
    t.mem = s.mem ∧ t.cores = s.cores ∧ (t.port p.toNat).st = 1 ∧ (t.port p.toNat).lockloss = true ∧
    (t.port p.toNat).relock = decide ((s.port p.toNat).target ≠ 0) ∧ (t.port p.toNat).unacked = (s.port p.toNat).unacked ∧
    (⟨s.now + 200000, .lockTimeout p⟩ : Timer) ∈ t.timers) := by
  refine ⟨_, exec_lossOfLock up, ?_⟩
  have kept := s.kept_lockGone p.toNat
  generalize hs : ((s.lockGone p.toNat).portEvent p.toNat 5).after 200000 (.lockTimeout p) = s1
  have port : s1.port p.toNat = (s.port p.toNat).unlocked s.now := by
    rw [← hs, State.port_after, State.port_portEvent, State.port_of_kept kept, State.port_setPort]
  have frame : s1.frame = s.frame := by
    rw [← hs, State.frame_after, State.frame_portEvent, State.frame_of_kept kept]
    rfl
  have now : ((s.lockGone p.toNat).portEvent p.toNat 5).now = s.now := by
    rw [← hs] at frame
    exact (State.same_of_frame frame).2.2.1
  have timer : (⟨s.now + 200000, .lockTimeout p⟩ : Timer) ∈ s1.timers := by rw [← hs, ← now]; exact State.mem_timers_after ..
  obtain ⟨mem, cores, -, -⟩ := State.same_of_frame (State.frame_moveLight.trans frame)
  obtain ⟨fr, fa, la, tr, rl, mm, e⟩ := State.port_moveLight (s := s1) (p := p.toNat) (by rw [port]; exact (by decide : (1 : BitVec 2) ≠ 3))
  have relock := State.relock_moveLight (s := s1) (n := p.toNat) (by rw [port]; rfl) (by rw [port]; rfl)
  rw [port] at relock e
  exact ⟨mem, cores, by rw [e]; rfl, by rw [e]; rfl, relock.trans (Bool.true_and _), by rw [e]; rfl, State.timers_moveLight timer⟩

end

/-! A loss of light (R45, R50) -/

/-- A port with light to lose, or to wait for, that its laser light has left. -/
def Port.darkened (x : Port) (now : Nat) : Port := { (if x.st == 0 then x else x.tally now (fun x => { x with loss := satInc x.loss })) with
  st := 0, lit := 0, trans := none, target := 0, laserlost := true, lasterr := 2
  recal := false, relock := false, far := none, farAt := none, lightAt := none, mismatchAt := [] }

/-- A port that its laser light has left: in DARK with nothing under way only TARGET changes. -/
def Port.unlit (x : Port) (now : Nat) : Port :=
  if x.st = 0 ∧ x.trans = none then { x with target := 0 } else (x.darkened now).lost true

theorem Port.target_unlit (x : Port) (now : Nat) : (x.unlit now).target = 0 := by
  unfold Port.unlit
  split <;> rfl

section
variable {x : Port} {now : Nat}

theorem Port.unlit_dark (dark : x.st = 0) (idle : x.trans = none) : x.unlit now = { x with target := 0 } := if_pos ⟨dark, idle⟩

theorem Port.unlit_lit (lit : x.st ≠ 0 ∨ x.trans ≠ none) : x.unlit now = (x.darkened now).lost true :=
  if_neg fun h => lit.elim (absurd h.1) (absurd h.2)

/-- A loss of light in the cycle of a clear is not counted (R54). -/
theorem Port.loss_darkened (lit : x.st ≠ 0) (counts : x.clearedAt ≠ some now) : (x.darkened now).loss = satInc x.loss := by
  simp only [Port.darkened, Port.tally]
  rw [if_neg (by simpa using lit), if_neg (by simpa using counts)]

theorem Port.loss_darkened_wake (dark : x.st = 0) : (x.darkened now).loss = x.loss := by
  simp only [Port.darkened]
  rw [if_pos (by simp [dark])]

theorem Port.flits_darkened : (x.darkened now).unacked = x.unacked ∧ (x.darkened now).drainlost = x.drainlost := by
  simp only [Port.darkened, Port.tally]
  split
  · exact ⟨rfl, rfl⟩
  · split <;> exact ⟨rfl, rfl⟩

end

section
variable (s : State) (n : Nat)

theorem State.loseLight_dark (dark : (s.port n).st = 0) (idle : (s.port n).trans = none) :
    s.loseLight n = s.setPort n { s.port n with target := 0 } :=
  if_pos (by simp [dark, idle])

theorem State.loseLight_lit (lit : (s.port n).st ≠ 0 ∨ (s.port n).trans ≠ none) : s.loseLight n =
    ((((s.setPort n ((s.port n).darkened s.now)).loseFlits n true).drainOver n).portFailed n 6).portDark n :=
  if_neg (by simpa [imp_iff_not_or] using lit)

theorem State.frame_loseLight : (s.loseLight n).frame = s.frame := by
  by_cases h : (s.port n).st = 0 ∧ (s.port n).trans = none
  · rw [State.loseLight_dark s n h.1 h.2]
    rfl
  · rw [State.loseLight_lit s n (not_and_or.mp h)]
    simp

theorem State.port_loseLight : (s.loseLight n).port n = (s.port n).unlit s.now := by
  by_cases h : (s.port n).st = 0 ∧ (s.port n).trans = none
  · rw [State.loseLight_dark s n h.1 h.2, State.port_setPort, Port.unlit_dark h.1 h.2]
  · rw [State.loseLight_lit s n (not_and_or.mp h), Port.unlit_lit (not_and_or.mp h)]
    rw [State.port_portDark, State.port_portFailed, State.port_drainOver, State.port_loseFlits, State.port_setPort]

theorem State.port_loseLight_ne {j : Nat} (hj : j ≠ n) : (s.loseLight n).port j = s.port j := by
  by_cases h : (s.port n).st = 0 ∧ (s.port n).trans = none
  · rw [State.loseLight_dark s n h.1 h.2, State.port_setPort_ne s n _ hj]
  · rw [State.loseLight_lit s n (not_and_or.mp h)]
    rw [State.port_portDark, State.port_portFailed, State.port_drainOver, State.port_loseFlits_ne _ n _ hj, State.port_setPort_ne s n _ hj]

/-- The ports of one laser source, each once. -/
theorem State.port_sourceGone (b k : Nat) (l : List Nat) (once : l.Nodup) : (s.each l (fun s i => s.loseLight (b + i))).port (b + k) =
    if k ∈ l then (s.port (b + k)).unlit s.now else s.port (b + k) := by
  induction l generalizing s with
  | nil => rfl
  | cons i l ih =>
    obtain ⟨new, once⟩ := List.nodup_cons.mp once
    have now : (s.loseLight (b + i)).now = s.now := (State.same_of_frame (s.frame_loseLight (b + i))).2.2.1
    refine (ih (s.loseLight (b + i)) once).trans ?_
    by_cases h : k = i
    · subst h
      rw [if_neg new, if_pos List.mem_cons_self, State.port_loseLight]
    · rw [State.port_loseLight_ne s (b + i) (by omega), now]
      simp [h]

end

section
variable {s : State} {p : BitVec 5}

theorem laserLightLoss_ends (lit : (s.port p.toNat).st ≠ 0) : Ends (.laserLightLoss p) s (fun t =>
    t.mem = s.mem ∧ t.cores = s.cores ∧ (t.port p.toNat).st = 0 ∧ (t.port p.toNat).lit = 0 ∧ (t.port p.toNat).target = 0 ∧
    (t.port p.toNat).laserlost = true ∧ (t.port p.toNat).lasterr = 2 ∧
    ((s.port p.toNat).clearedAt ≠ some s.now → (t.port p.toNat).loss = satInc (s.port p.toNat).loss) ∧ (t.port p.toNat).unacked = [] ∧
    (t.port p.toNat).drainlost = ((s.port p.toNat).drainlost || !(s.port p.toNat).unacked.isEmpty) ∧
    ((∀ q ∈ s.circuits, q.2.freeOnDark = false) → ∀ k, (∀ q ∈ s.circuits, q.2.port.toNat = p.toNat → q.1 = k) →
      s.entryOf p.toNat = some k → (s.circuit k).st = 3 ∨ (s.circuit k).st = 4 → (t.circuit k).st = 6 ∧ (t.circuit k).status = 6)) := by
  obtain ⟨mem, cores, -, -⟩ := State.same_of_frame (s.frame_loseLight p.toNat)
  obtain ⟨unacked, drainlost⟩ := Port.flits_darkened (x := s.port p.toNat) (now := s.now)
  refine ⟨_, rfl, mem, cores, ?_⟩
  rw [State.port_loseLight, Port.unlit_lit (.inl lit)]
  refine ⟨rfl, rfl, rfl, rfl, rfl, Port.loss_darkened lit, rfl, ?_, fun dark k only he live => ?_⟩
  · rw [Port.drainlost_lost, unacked, drainlost]
  · rw [State.loseLight_lit s p.toNat (.inl lit)]
    have circuits : ((s.setPort p.toNat ((s.port p.toNat).darkened s.now)).loseFlits p.toNat true).circuits = s.circuits :=
      State.circuits_loseFlits ..
    have sole : ((s.setPort p.toNat ((s.port p.toNat).darkened s.now)).loseFlits p.toNat true).Sole p.toNat k (s.circuit k).st :=
      ⟨by rwa [circuits], (State.entryOf_of_circuits circuits _).trans he, by rw [State.circuit_of_circuits circuits], by rwa [circuits]⟩
    exact sole.drainOver.failed live

theorem laserLightLoss_wake (dark : (s.port p.toNat).st = 0) (busy : (s.port p.toNat).trans ≠ none) : Ends (.laserLightLoss p) s (fun t =>
    t.mem = s.mem ∧ t.cores = s.cores ∧ (t.port p.toNat).st = 0 ∧ (t.port p.toNat).target = 0 ∧ (t.port p.toNat).laserlost = true ∧
    (t.port p.toNat).lasterr = 2 ∧ (t.port p.toNat).trans = none ∧ (t.port p.toNat).loss = (s.port p.toNat).loss) := by
  obtain ⟨mem, cores, -, -⟩ := State.same_of_frame (s.frame_loseLight p.toNat)
  refine ⟨_, rfl, mem, cores, ?_⟩
  rw [State.port_loseLight, Port.unlit_lit (.inr busy)]
  exact ⟨rfl, rfl, rfl, rfl, rfl, Port.loss_darkened_wake dark⟩

/-! Corrected symbols (R49), and laser sources (R50) -/

theorem berhigh_ends {c : Nat} (high : (s.port p.toNat).berth.toNat * 256 < c) : Ends (.berhigh p c) s (fun t =>
    t.mem = s.mem ∧ t.cores = s.cores ∧
    t.port p.toNat = { s.port p.toNat with berhigh := true, berEvents := (s.port p.toNat).berEvents + 1 }) := by
  have frame : ((s.setPort p.toNat { s.port p.toNat with berhigh := true, berEvents := (s.port p.toNat).berEvents + 1 }).portEvent
    p.toNat 3).frame = s.frame := by simp
  obtain ⟨mem, cores, -, -⟩ := State.same_of_frame frame
  exact ⟨_, if_pos high, mem, cores, by simp⟩

theorem exec_berhigh_low {c : Nat} (low : c ≤ (s.port p.toNat).berth.toNat * 256) : exec (.berhigh p c) s = .next s :=
  if_neg (Nat.not_lt.mpr low)

end

/-- The bit of a laser source module. -/
def sourceBit (m : BitVec 2) : BitVec 4 := 1 <<< m.toNat

theorem getLsbD_sourceBit (m : BitVec 2) (k : Nat) : (sourceBit m).getLsbD k = decide (k = m.toNat) := by
  have one := BitVec.getLsbD_twoPow (w := 4) m.toNat k
  rw [decide_eq_true m.isLt, Bool.true_and, decide_eq_decide.mpr eq_comm] at one
  exact one

/-- The laser source of module `m` is gone. -/
def State.withoutSource (s : State) (m : BitVec 2) : State :=
  { s with modl := { s.modl with elspres := s.modl.elspres &&& ~~~sourceBit m, elsok := s.modl.elsok &&& ~~~sourceBit m } }

theorem elsRemove_ends (s : State) (m : BitVec 2) : Ends (.elsRemove m) s (fun t =>
    t.mem = s.mem ∧ t.modl.elspres.getLsbD m.toNat = false ∧ t.modl.elsok.getLsbD m.toNat = false ∧
    ∀ k, k < 8 → (t.port (8 * m.toNat + k)).target = 0 ∧ ((s.port (8 * m.toNat + k)).st ≠ 0 →
      (t.port (8 * m.toNat + k)).st = 0 ∧ (t.port (8 * m.toNat + k)).laserlost = true)) := by
  have run : exec (.elsRemove m) s = .next ((s.withoutSource m).each (List.range 8) (fun s i => s.loseLight (8 * m.toNat + i))) := rfl
  have frame := State.each_same State.frame (fun s i => s.loseLight (8 * m.toNat + i)) (fun s i => s.frame_loseLight _) (List.range 8) (s.withoutSource m)
  obtain ⟨mem, -, -, modl⟩ := State.same_of_frame frame
  have off (x : BitVec 4) : (x &&& ~~~sourceBit m).getLsbD m.toNat = false := by
    rw [BitVec.getLsbD_and, BitVec.getLsbD_not, getLsbD_sourceBit]
    simp
  refine ⟨_, run, mem, by rw [modl]; exact off _, by rw [modl]; exact off _, fun k hk => ?_⟩
  rw [State.port_sourceGone (s.withoutSource m) _ k (List.range 8) List.nodup_range, if_pos (List.mem_range.mpr hk)]
  refine ⟨Port.target_unlit .., fun lit => ?_⟩
  rw [Port.unlit_lit (x := (s.withoutSource m).port _) (.inl lit)]
  exact ⟨rfl, rfl⟩

theorem elsInsert_ends (s : State) (m : BitVec 2) (ok : Bool) : Ends (.elsInsert m ok) s (fun t =>
    t = { s with modl := t.modl } ∧ t.modl = { s.modl with elspres := t.modl.elspres, elsok := t.modl.elsok } ∧
    ∀ k, k < 4 → t.modl.elspres.getLsbD k = (s.modl.elspres.getLsbD k || decide (k = m.toNat)) ∧
      t.modl.elsok.getLsbD k = (s.modl.elsok.getLsbD k || decide (k = m.toNat) && ok)) := by
  refine ⟨_, rfl, rfl, rfl, fun k _ => ⟨?_, ?_⟩⟩
  · exact (BitVec.getLsbD_or (y := sourceBit m)).trans (by rw [getLsbD_sourceBit])
  · cases ok
    · simp
    · exact (BitVec.getLsbD_or (y := sourceBit m)).trans (by rw [getLsbD_sourceBit, Bool.and_true])

/-- The claim on the ways a port fails. -/
theorem portFailures : PortFailures := by
  intro p s n x ends fails
  refine ⟨fun locking late ng => ?timeout, fun locking long idle => ?groups, fun trained on differ late => ?vermis, lossOfLock_ends,
    fun lit => laserLightLoss_ends lit, laserLightLoss_wake, fun dark idle => ⟨_, rfl, ?idle⟩, fun c => berhigh_ends,
    fun c low => ⟨_, exec_berhigh_low low, rfl, rfl, rfl⟩, fun m ok => ⟨elsRemove_ends s m, elsInsert_ends s m ok⟩⟩
  case timeout =>
    obtain ⟨t, run, mem, cores, port, lost, failed⟩ := State.lockFails_ends (exec_lockTimeout locking late ng) rfl rfl
    refine ⟨t, run, mem, cores, ?_, ?_, ?_, ?_, ?_, ?_, lost, ?_, ?_, fun k _ => failed k⟩ <;> rw [port]
    · exact locking
    all_goals rfl
  case groups =>
    obtain ⟨t, run, mem, cores, port, lost, failed⟩ := State.lockFails_ends (exec_groupMismatch locking long idle) rfl rfl
    refine ⟨t, run, mem, cores, ?_, ?_, ?_, ?_, ?_, ?_, ?_, lost, fun k _ => failed k⟩ <;> rw [port]
    · exact locking
    all_goals rfl
  case vermis =>
    obtain ⟨t, run, mem, cores, st, vermis, lasterr, target, failed⟩ := vermis_ends trained on differ late
    exact ⟨t, run, mem, cores, st, vermis, lasterr, target, fun k _ => failed k⟩
  case idle =>
    have e := State.loseLight_dark s n dark idle
    exact ⟨(congrArg State.mem e :), (congrArg State.cores e :), e⟩

/-- Settles O34: the claim on the way of a port up and down, and the claim on the ways it fails. -/
theorem portStateMachine : Obligations.PortStateMachine := ⟨portTransitions, portFailures⟩

end Sys2Proof.Machine
end

