-- ==== Sys2Proof/Proofs/PortFlits.lean ====
section
/-! PROOF. Flits at a receiver: acknowledgement, replay, numbering and what each type of flit brings; and the fibre-delay table (R35, R37,
R38, R42 to R44, R74, R81). -/

namespace Sys2Proof.Machine

open Sys2Proof.Claims

theorem satAdd_zero {n : Nat} (x : BitVec n) : satAdd x 0 = x := by
  have fits : x.toNat ≤ 2 ^ n - 1 := Nat.le_sub_one_of_lt x.isLt
  simp [satAdd, Nat.min_eq_left fits]

/-! Acknowledgement and replay (R38) -/

/-- Whether an ACKSEQ acknowledges a flit. -/
def Flit.ackedBy (ack : BitVec 16) (f : Flit) : Bool := decide ((ack - f.seq).toNat < 32768)

/-- A port whose flits up to an ACKSEQ are acknowledged. -/
def Port.acked (x : Port) (ack : BitVec 16) : Port := { x with
  unacked := x.unacked.filter (fun f => !f.ackedBy ack)
  marker := if (x.unacked.filter (Flit.ackedBy ack)).any (fun f => f.typ == 3) then none else x.marker }

/-- A port with no flit to be acknowledged and none that waits. -/
structure Port.Quiet (x : Port) : Prop where
  unacked : x.unacked = []
  stalled : x.stalled = []
  marker  : x.marker = none

theorem Port.acked_of_quiet {x : Port} (h : x.Quiet) (ack : BitVec 16) : x.acked ack = x := by
  obtain ⟨unacked, -, marker⟩ := h
  cases x
  simp_all [Port.acked]

section
variable (s : State) (p : Nat) (ack : BitVec 16)

/-- The engines hear of the acknowledged flits. -/
def State.acksHeard : State :=
  (s.setPort p ((s.port p).acked ack)).each ((s.port p).unacked.filter (Flit.ackedBy ack)) (fun s f => s.flitAcked f)

theorem State.kept_acksHeard : (s.acksHeard p ack).kept = (s.setPort p ((s.port p).acked ack)).kept :=
  State.kept_of_aside (State.aside_flitsAcked ..)

theorem State.ackFlits_eq : s.ackFlits p ack =
    let t := (s.acksHeard p ack).sendStalled p (s.port p).stalled.length
    if (s.port p).marker.isSome && (t.port p).marker.isNone then t.post (.drainEnd (BitVec.ofNat 5 p)) else t := rfl

theorem State.kept_ackFlits : (s.ackFlits p ack).kept = ((s.acksHeard p ack).sendStalled p (s.port p).stalled.length).kept := by
  rw [State.ackFlits_eq]
  dsimp only
  split
  · exact State.kept_of_aside (State.aside_post ..)
  · rfl

variable {s p}

theorem State.kept_ackFlits_none (noStalled : (s.port p).stalled = []) : (s.ackFlits p ack).kept = (s.setPort p ((s.port p).acked ack)).kept := by
  rw [State.kept_ackFlits, noStalled]
  exact s.kept_acksHeard p ack

/-- With nothing to acknowledge and nothing that waits, an ACKSEQ changes nothing. -/
theorem State.ackFlits_quiet {y : Port} (h : y.Quiet) : (s.setPort p y).ackFlits p ack = s.setPort p y := by
  obtain ⟨unacked, stalled, marker⟩ := id h
  have same : (s.setPort p y).acksHeard p ack = s.setPort p y := by
    rw [State.acksHeard, State.port_setPort, Port.acked_of_quiet h, unacked, State.setPort_setPort]
    rfl
  rw [State.ackFlits_eq, same, State.port_setPort, stalled, marker]
  rfl

end

section
variable (s : State) (p : Nat)

/-- What a replay sends: in LIVE all that is not acknowledged, else only what comes before a data flit. -/
def Port.toReplay (x : Port) : List Flit := if x.st = 3 then x.unacked else x.unacked.takeWhile (fun f => f.typ != 1)

theorem State.replay_eq (counts : (s.port p).clearedAt ≠ some s.now) : s.replay p =
    (s.setPort p { s.port p with rply := satAdd (s.port p).rply (s.port p).toReplay.length }).emit p (s.port p).toReplay := by
  have again : (if (s.port p).st == 3 then (s.port p).unacked else (s.port p).unacked.takeWhile (fun f => f.typ != 1)) = (s.port p).toReplay := by
    simp [Port.toReplay]
  simp only [State.replay, again, Port.tally]
  rw [if_neg (by simpa using counts)]

variable {s p} (counts : (s.port p).clearedAt ≠ some s.now)
include counts

theorem State.frame_replay : (s.replay p).frame = s.frame := by rw [State.replay_eq s p counts, State.frame_emit, State.frame_setPort]

theorem State.outFlit_replay : (s.replay p).outFlit = s.outFlit ++ (s.port p).toReplay.map (fun f => (p, f.wire (s.port p))) := by
  rw [State.replay_eq s p counts, State.outFlit_emit, State.port_setPort]
  rfl

theorem State.port_replay : ∃ fr, (s.replay p).port p =
    { s.port p with rply := satAdd (s.port p).rply (s.port p).toReplay.length, txFree := fr } := by
  rw [State.replay_eq s p counts, State.port_emit, State.port_setPort]
  exact ⟨_, rfl⟩

end

/-! A flit that can be read (R35, R37) -/

/-- A port that has counted an arrival's corrected codewords. -/
def Port.heard (x : Port) (a : FlitArrival) : Port := { x with fecc := satAdd x.fecc a.corrected }

theorem Port.Quiet.heard {x : Port} (h : x.Quiet) (a : FlitArrival) : (x.heard a).Quiet := ⟨h.unacked, h.stalled, h.marker⟩

/-- A flit with no uncorrectable codeword, whole, with its check sequence, of a type and with fields that are not reserved. -/
structure SoundFlit (a : FlitArrival) : Prop where
  readable : a.uncorr = 0
  whole    : a.bytes.length = 256
  sum      : crc32 (a.bytes.take 252) = field a.bytes 252 4
  typed    : field a.bytes 0 1 / 16 ≤ 4
  zeros    : field a.bytes 0 1 / 2 % 8 = 0 ∧ field a.bytes 1 1 = 0

/-- A port that takes flits, and not in the cycle of a clear. -/
structure Port.Listens (x : Port) (now : Nat) : Prop where
  up     : x.st = 2 ∨ x.st = 3
  counts : x.clearedAt ≠ some now

/-- What a numbered flit brings once it is accepted. -/
def State.takesIn (u : State) (n : Nat) (a : FlitArrival) : State :=
  match field a.bytes 0 1 / 16 with
  | 1 => u.takeData n (BitVec.ofNat 16 (field a.bytes 4 2)) a.bytes
  | 2 =>
    match a.far with
    | some f => (u.setPort n { u.port n with far := some f, farAt := some u.now, markerSeen := false }).tryHandshake n
    | none => u
  | _ => u.setPort n { u.port n with markerSeen := true }

/-- What follows the acknowledgement, and the replay, of a sound flit. -/
def State.flitIn (t : State) (n : Nat) (a : FlitArrival) : State :=
  if field a.bytes 0 1 / 16 = 0 ∨ field a.bytes 0 1 / 16 = 4 then t.setPort n (t.port n)
  else if BitVec.ofNat 16 (field a.bytes 4 2) ≠ (t.port n).rxSeq + 1 then t.setPort n { t.port n with nak := true }
  else ((t.setPort n { t.port n with rxSeq := BitVec.ofNat 16 (field a.bytes 4 2), nak := false }).armAck n).takesIn n a

section
variable {p : BitVec 5} {a : FlitArrival} {s : State}

theorem exec_flitReceive_sound (listens : (s.port p.toNat).Listens s.now) (sound : SoundFlit a) : exec (.flitReceive p a) s = .next
    ((if bit (field a.bytes 0 1) 0 then
        ((s.setPort p.toNat ((s.port p.toNat).heard a)).ackFlits p.toNat (BitVec.ofNat 16 (field a.bytes 6 2))).replay p.toNat
      else (s.setPort p.toNat ((s.port p.toNat).heard a)).ackFlits p.toNat (BitVec.ofNat 16 (field a.bytes 6 2))).flitIn p.toNat a) := by
  obtain ⟨up, counts⟩ := listens
  obtain ⟨readable, whole, sum, typed, low, zero⟩ := sound
  have fine : (decide (4 < field a.bytes 0 1 / 16) || field a.bytes 0 1 / 2 % 8 != 0 || field a.bytes 1 1 != 0) = false := by
    simp [low, zero, typed]
  have heard : (s.port p.toNat).tally s.now (fun x => { x with fecc := satAdd x.fecc a.corrected, fecu := satAdd x.fecu a.uncorr }) =
      (s.port p.toNat).heard a := by
    rw [Port.tally, if_neg (by simpa using counts), readable, satAdd_zero]
    rfl
  change execFlitReceive p a s = _
  unfold execFlitReceive
  refine (if_neg (by rcases up with h | h <;> simp [h])).trans ?_
  refine (if_neg (by simp [readable])).trans ((if_neg (by simp [whole, sum])).trans ?_)
  simp only [heard, fine]
  generalize (if bit (field a.bytes 0 1) 0 = true then _ else _ : State) = t
  unfold State.flitIn
  by_cases unnumbered : field a.bytes 0 1 / 16 = 0 ∨ field a.bytes 0 1 / 16 = 4
  · rw [if_pos unnumbered]
    exact if_pos (by simpa using unnumbered)
  · rw [if_neg unnumbered]
    refine (if_neg (by simpa using unnumbered)).trans ?_
    by_cases gap : BitVec.ofNat 16 (field a.bytes 4 2) ≠ (t.port p.toNat).rxSeq + 1
    · rw [if_pos gap]
      exact if_pos (by simpa using gap)
    · rw [if_neg gap]
      refine (if_neg (by simpa using gap)).trans ?_
      unfold State.takesIn
      generalize field a.bytes 0 1 / 16 = typ
      match typ with
      | 0 => rfl
      | 1 => rfl
      | 2 => cases a.far <;> rfl
      | _ + 3 => rfl

/-- A flit with an uncorrectable codeword is discarded (R37). -/
theorem exec_flitReceive_uncorrectable (listens : (s.port p.toNat).Listens s.now) (bad : a.uncorr ≠ 0) : exec (.flitReceive p a) s =
    .next (s.setPort p.toNat { s.port p.toNat with
      fecc := satAdd (s.port p.toNat).fecc a.corrected, fecu := satAdd (s.port p.toNat).fecu a.uncorr, nak := true }) := by
  obtain ⟨up, counts⟩ := listens
  change execFlitReceive p a s = _
  unfold execFlitReceive
  refine (if_neg (by rcases up with h | h <;> simp [h])).trans ((if_pos (by simpa using bad)).trans ?_)
  rw [Port.tally, if_neg (by simpa using counts)]

/-- A flit that is not whole or fails its check is discarded (R37). -/
theorem exec_flitReceive_unchecked (listens : (s.port p.toNat).Listens s.now) (readable : a.uncorr = 0)
    (bad : a.bytes.length ≠ 256 ∨ crc32 (a.bytes.take 252) ≠ field a.bytes 252 4) : exec (.flitReceive p a) s =
    .next (s.setPort p.toNat { s.port p.toNat with
      fecc := satAdd (s.port p.toNat).fecc a.corrected, crce := satInc (s.port p.toNat).crce, nak := true }) := by
  obtain ⟨up, counts⟩ := listens
  change execFlitReceive p a s = _
  unfold execFlitReceive
  refine (if_neg (by rcases up with h | h <;> simp [h])).trans ((if_neg (by simp [readable])).trans ((if_pos (by simpa using bad)).trans ?_))
  rw [Port.tally, if_neg (by simpa using counts), Port.countBad, Port.tally, if_neg (by simpa using counts), readable, satAdd_zero]

/-- A flit whose reserved bits are zero, without NAK (`k` = 0) or with it. -/
def FlitChecks (a : FlitArrival) (k : Nat) : Prop :=
  a.uncorr = 0 ∧ a.bytes.length = 256 ∧ crc32 (a.bytes.take 252) = field a.bytes 252 4 ∧ field a.bytes 0 1 % 16 = k ∧ field a.bytes 1 1 = 0

theorem FlitChecks.sound {k : Nat} (h : FlitChecks a k) (hk : k ≤ 1) (typed : field a.bytes 0 1 / 16 ≤ 4) : SoundFlit a := by
  obtain ⟨readable, whole, sum, low, zero⟩ := h
  exact ⟨readable, whole, sum, typed, by omega, zero⟩

theorem FlitChecks.nak {k : Nat} (h : FlitChecks a k) (hk : k ≤ 1) : bit (field a.bytes 0 1) 0 = decide (k = 1) := by
  obtain ⟨-, -, -, low, -⟩ := h
  refine Bool.eq_iff_iff.mpr ?_
  simp only [bit, Nat.shiftRight_zero, beq_iff_eq, decide_eq_true_eq]
  omega

theorem exec_flitReceive_clean (listens : (s.port p.toNat).Listens s.now) (clean : FlitChecks a 0) (typed : field a.bytes 0 1 / 16 ≤ 4) :
    exec (.flitReceive p a) s = .next (((s.setPort p.toNat ((s.port p.toNat).heard a)).ackFlits p.toNat
      (BitVec.ofNat 16 (field a.bytes 6 2))).flitIn p.toNat a) := by
  rw [exec_flitReceive_sound listens (clean.sound (by decide) typed), clean.nak (by decide)]
  rfl

theorem exec_flitReceive_asks (listens : (s.port p.toNat).Listens s.now) (asks : FlitChecks a 1) (typed : field a.bytes 0 1 / 16 ≤ 4) :
    exec (.flitReceive p a) s = .next ((((s.setPort p.toNat ((s.port p.toNat).heard a)).ackFlits p.toNat
      (BitVec.ofNat 16 (field a.bytes 6 2))).replay p.toNat).flitIn p.toNat a) := by
  rw [exec_flitReceive_sound listens (asks.sound (by decide) typed), asks.nak (by decide)]
  rfl

theorem State.flitIn_idle {t : State} {n : Nat} (typ : field a.bytes 0 1 / 16 = 0 ∨ field a.bytes 0 1 / 16 = 4) :
    t.flitIn n a = t.setPort n (t.port n) := if_pos typ

theorem State.flitIn_gap {t : State} {n : Nat} (numbered : 1 ≤ field a.bytes 0 1 / 16 ∧ field a.bytes 0 1 / 16 ≤ 3)
    (gap : BitVec.ofNat 16 (field a.bytes 4 2) ≠ (t.port n).rxSeq + 1) : t.flitIn n a = t.setPort n { t.port n with nak := true } :=
  (if_neg (by omega)).trans (if_pos gap)

theorem State.flitIn_next {t : State} {n : Nat} (numbered : 1 ≤ field a.bytes 0 1 / 16 ∧ field a.bytes 0 1 / 16 ≤ 3)
    (next : BitVec.ofNat 16 (field a.bytes 4 2) = (t.port n).rxSeq + 1) : t.flitIn n a =
      ((t.setPort n { t.port n with rxSeq := BitVec.ofNat 16 (field a.bytes 4 2), nak := false }).armAck n).takesIn n a :=
  (if_neg (by omega)).trans (if_neg (not_not_intro next))

/-! Idle flits (R38) -/

section
variable (listens : (s.port p.toNat).Listens s.now) (idle : field a.bytes 0 1 / 16 = 0 ∨ field a.bytes 0 1 / 16 = 4)
include listens idle

theorem exec_flitReceive_idle (clean : FlitChecks a 0) (quiet : (s.port p.toNat).Quiet) :
    exec (.flitReceive p a) s = .next (s.setPort p.toNat ((s.port p.toNat).heard a)) := by
  rw [exec_flitReceive_clean listens clean (by omega), State.ackFlits_quiet _ (quiet.heard a), State.flitIn_idle idle, State.port_setPort,
    State.setPort_setPort]

/-- What an idle flit's ACKSEQ leaves, with no flit of the port's own that waits. -/
theorem flitReceive_acks (clean : FlitChecks a 0) (noStalled : (s.port p.toNat).stalled = []) : Ends (.flitReceive p a) s (fun t =>
    t.mem = s.mem ∧ t.outFlit = s.outFlit ∧ t.port p.toNat = ((s.port p.toNat).heard a).acked (BitVec.ofNat 16 (field a.bytes 6 2))) := by
  refine ⟨_, exec_flitReceive_clean listens clean (by omega), ?_⟩
  have kept := State.kept_ackFlits_none (s := s.setPort p.toNat ((s.port p.toNat).heard a)) (p := p.toNat) (BitVec.ofNat 16 (field a.bytes 6 2))
    (by rwa [State.port_setPort])
  rw [State.port_setPort, State.setPort_setPort] at kept
  rw [State.flitIn_idle idle]
  obtain ⟨mem, -, -, -⟩ := State.same_of_frame (State.frame_of_kept kept)
  refine ⟨mem, (State.outFlit_of_kept kept :), ?_⟩
  rw [State.port_setPort, State.port_of_kept kept, State.port_setPort]

/-- A NAK has the flits that its ACKSEQ leaves sent again. -/
theorem flitReceive_replays (asks : FlitChecks a 1) (noStalled : (s.port p.toNat).stalled = []) : Ends (.flitReceive p a) s (fun t =>
    let y := ((s.port p.toNat).heard a).acked (BitVec.ofNat 16 (field a.bytes 6 2))
    t.mem = s.mem ∧ t.outFlit = s.outFlit ++ y.toReplay.map (fun f => (p.toNat, f.wire (s.port p.toNat))) ∧
    ∃ fr, t.port p.toNat = { y with rply := satAdd (s.port p.toNat).rply y.toReplay.length, txFree := fr }) := by
  refine ⟨_, exec_flitReceive_asks listens asks (by omega), ?_⟩
  have kept := State.kept_ackFlits_none (s := s.setPort p.toNat ((s.port p.toNat).heard a)) (p := p.toNat) (BitVec.ofNat 16 (field a.bytes 6 2))
    (by rwa [State.port_setPort])
  rw [State.port_setPort, State.setPort_setPort] at kept
  generalize (s.setPort p.toNat ((s.port p.toNat).heard a)).ackFlits p.toNat (BitVec.ofNat 16 (field a.bytes 6 2)) = u at kept
  obtain ⟨mem, -, now, -⟩ := State.same_of_frame (State.frame_of_kept kept)
  have port : u.port p.toNat = ((s.port p.toNat).heard a).acked (BitVec.ofNat 16 (field a.bytes 6 2)) :=
    (State.port_of_kept kept p.toNat).trans (State.port_setPort ..)
  have counts : (u.port p.toNat).clearedAt ≠ some u.now := by rw [port, now]; exact listens.counts
  obtain ⟨mem', -⟩ := State.same_of_frame (State.frame_replay counts)
  obtain ⟨fr, e⟩ := State.port_replay counts
  have out := State.outFlit_replay counts
  rw [port] at e out
  rw [State.flitIn_idle idle]
  refine ⟨mem'.trans mem, ?_, fr, ?_⟩
  · rw [State.setPort_outFlit, out, State.outFlit_of_kept kept]
    rfl
  · rw [State.port_setPort, e]
    rfl

/-- A drain's marker that waits goes once the ACKSEQ has made room. -/
theorem flitReceive_sends_marker (clean : FlitChecks a 0) (one : (s.port p.toNat).stalled = [3])
    (room : (((s.port p.toNat).heard a).acked (BitVec.ofNat 16 (field a.bytes 6 2))).unacked.length < 64) : Ends (.flitReceive p a) s (fun t =>
    let y := ((s.port p.toNat).heard a).acked (BitVec.ofNat 16 (field a.bytes 6 2))
    t.mem = s.mem ∧ ∃ (f : Flit) (fr : Nat), f.typ = 3 ∧ f.seq = (s.port p.toNat).txSeq + 1 ∧
      t.port p.toNat = { y with
        stalled := [], marker := some (y.txSeq + 1), txSeq := y.txSeq + 1, unacked := y.unacked ++ [f], txFree := fr } ∧
      t.outFlit = s.outFlit ++ [(p.toNat, f.wire (s.port p.toNat))]) := by
  refine ⟨_, exec_flitReceive_clean listens clean (by omega), ?_⟩
  have kept := (s.setPort p.toNat ((s.port p.toNat).heard a)).kept_ackFlits p.toNat (BitVec.ofNat 16 (field a.bytes 6 2))
  have heard := (s.setPort p.toNat ((s.port p.toNat).heard a)).kept_acksHeard p.toNat (BitVec.ofNat 16 (field a.bytes 6 2))
  have len : ((s.setPort p.toNat ((s.port p.toNat).heard a)).port p.toNat).stalled.length = 1 := by rw [State.port_setPort]; exact congrArg _ one
  rw [len] at kept
  rw [State.port_setPort, State.setPort_setPort] at heard
  generalize (s.setPort p.toNat ((s.port p.toNat).heard a)).acksHeard p.toNat (BitVec.ofNat 16 (field a.bytes 6 2)) = u at kept heard
  have port : u.port p.toNat = ((s.port p.toNat).heard a).acked (BitVec.ofNat 16 (field a.bytes 6 2)) :=
    (State.port_of_kept heard p.toNat).trans (State.port_setPort ..)
  obtain ⟨f, fr, typ, seq, sent, out⟩ := State.port_sendStalled_one (s := u) (p := p.toNat) (typ := 3) (by rw [port]; exact one)
    (by rw [port]; exact room)
  rw [port] at seq sent out
  obtain ⟨mem, -⟩ := State.same_of_frame (State.frame_of_kept heard)
  obtain ⟨mem', -⟩ := State.same_of_frame ((State.frame_of_kept kept).trans (State.frame_of_offLink (State.Sends.sendStalled u p.toNat 1).rest))
  rw [State.flitIn_idle idle]
  refine ⟨mem'.trans mem, f, fr, typ, seq, ?_, ?_⟩
  · rw [State.port_setPort, State.port_of_kept kept, sent]
    rfl
  · rw [State.setPort_outFlit, State.outFlit_of_kept kept, out, State.outFlit_of_kept heard]
    rfl

end

/-! Numbered flits (R38, R42, R43, R74) -/

section
variable (listens : (s.port p.toNat).Listens s.now) (quiet : (s.port p.toNat).Quiet) (clean : FlitChecks a 0)
  (numbered : 1 ≤ field a.bytes 0 1 / 16 ∧ field a.bytes 0 1 / 16 ≤ 3)
include listens quiet clean numbered

theorem exec_flitReceive_gap (gap : BitVec.ofNat 16 (field a.bytes 4 2) ≠ (s.port p.toNat).rxSeq + 1) : exec (.flitReceive p a) s =
    .next (s.setPort p.toNat { (s.port p.toNat).heard a with nak := true }) := by
  rw [exec_flitReceive_clean listens clean (by omega), State.ackFlits_quiet _ (quiet.heard a), State.flitIn_gap numbered (by rwa [State.port_setPort]),
    State.port_setPort, State.setPort_setPort]

/-- The state after a flit that comes in its turn has been accepted. -/
def State.accepted (s : State) (p : BitVec 5) (a : FlitArrival) : State :=
  (s.setPort p.toNat { (s.port p.toNat).heard a with rxSeq := BitVec.ofNat 16 (field a.bytes 4 2), nak := false }).armAck p.toNat

theorem exec_flitReceive_next (next : BitVec.ofNat 16 (field a.bytes 4 2) = (s.port p.toNat).rxSeq + 1) : exec (.flitReceive p a) s =
    .next ((s.accepted p a).takesIn p.toNat a) := by
  rw [exec_flitReceive_clean listens clean (by omega), State.ackFlits_quiet _ (quiet.heard a), State.flitIn_next numbered (by rwa [State.port_setPort]),
    State.port_setPort, State.setPort_setPort]
  rfl

end

theorem State.accepted_eq (s : State) (p : BitVec 5) (a : FlitArrival) : ∃ tm, s.accepted p a = { s.setPort p.toNat
    { (s.port p.toNat).heard a with rxSeq := BitVec.ofNat 16 (field a.bytes 4 2), nak := false } with timers := tm } := by
  obtain ⟨tm, -, -, e⟩ := (s.setPort p.toNat
    { (s.port p.toNat).heard a with rxSeq := BitVec.ofNat 16 (field a.bytes 4 2), nak := false }).armAck_eq p.toNat
  exact ⟨tm, e⟩

theorem State.port_accepted (s : State) (p : BitVec 5) (a : FlitArrival) : (s.accepted p a).port p.toNat =
    { (s.port p.toNat).heard a with rxSeq := BitVec.ofNat 16 (field a.bytes 4 2), nak := false } :=
  (State.port_armAck ..).trans (State.port_setPort ..)

theorem State.takesIn_data {u : State} {n : Nat} (typ : field a.bytes 0 1 / 16 = 1) :
    u.takesIn n a = u.takeData n (BitVec.ofNat 16 (field a.bytes 4 2)) a.bytes := by
  simp only [State.takesIn, typ]

theorem State.takesIn_handshake {u : State} {n : Nat} {f : FarEnd} (typ : field a.bytes 0 1 / 16 = 2) (far : a.far = some f) :
    u.takesIn n a = (u.setPort n { u.port n with far := some f, farAt := some u.now, markerSeen := false }).tryHandshake n := by
  simp only [State.takesIn, typ, far]

theorem State.takesIn_marker {u : State} {n : Nat} (typ : field a.bytes 0 1 / 16 = 3) :
    u.takesIn n a = u.setPort n { u.port n with markerSeen := true } := by
  simp only [State.takesIn, typ]

/-- A data flit that passes R74, of the present version, is handed on. -/
theorem State.takeData_hands {u : State} {n : Nat} {seq : BitVec 16} {l : List Byte} (before : (u.port n).markerSeen = false)
    (ok : dataOk l = true) (present : BitVec.ofNat 16 (field l 2 2) = u.tvercur) : u.takeData n seq l =
      (u.setPort n { u.port n with inbox := (u.port n).inbox ++ [(seq, l)] }).post
        (if field l 8 1 % 16 == 1 then .copyFlitWrite (BitVec.ofNat 5 n) else .crucibleFlitReceive (BitVec.ofNat 5 n)) := by
  unfold State.takeData
  exact (if_neg (by simp [before])).trans ((if_neg (by simp [ok])).trans (if_neg (by simp [present])))

/-- A handshake begins at most its own transition. -/
theorem State.tryHandshake_setPort (u : State) (n : Nat) (y : Port) : ∃ tm tr,
    (u.setPort n y).tryHandshake n = { u.setPort n { y with trans := tr } with timers := tm } := by
  simp only [State.tryHandshake]
  split
  · exact ⟨u.timers, y.trans, rfl⟩
  · split
    · exact ⟨_, _, by rw [State.port_setPort, State.setPort_setPort]; rfl⟩
    · exact ⟨u.timers, y.trans, rfl⟩

section
variable (listens : (s.port p.toNat).Listens s.now) (quiet : (s.port p.toNat).Quiet) (clean : FlitChecks a 0)
  (next : BitVec.ofNat 16 (field a.bytes 4 2) = (s.port p.toNat).rxSeq + 1)
include listens quiet clean next

theorem flitReceive_data (typ : field a.bytes 0 1 / 16 = 1) (before : (s.port p.toNat).markerSeen = false) (ok : dataOk a.bytes = true)
    (present : BitVec.ofNat 16 (field a.bytes 2 2) = s.tvercur) : Ends (.flitReceive p a) s (fun t =>
      t = { s with ports := t.ports, timers := t.timers, queue := t.queue } ∧
      t.port p.toNat = { (s.port p.toNat).heard a with
        rxSeq := BitVec.ofNat 16 (field a.bytes 4 2), nak := false
        inbox := (s.port p.toNat).inbox ++ [(BitVec.ofNat 16 (field a.bytes 4 2), a.bytes)] } ∧
      (if field a.bytes 8 1 % 16 = 1 then Instr.copyFlitWrite p else .crucibleFlitReceive p) ∈ t.queue) := by
  have port := s.port_accepted p a
  obtain ⟨tm, e⟩ := s.accepted_eq p a
  refine ⟨_, exec_flitReceive_next listens quiet clean (by omega) next, ?_⟩
  rw [State.takesIn_data typ, State.takeData_hands (by rw [port]; exact before) ok (by rw [e]; exact present)]
  refine ⟨?_, ?_, ?_⟩
  · rw [State.post_eq, e]
    rfl
  · rw [State.post_eq]
    refine (State.port_setPort (s.accepted p a) p.toNat _).trans ?_
    rw [port]
    rfl
  · have posted := State.mem_queue_post ((s.accepted p a).setPort p.toNat { (s.accepted p a).port p.toNat with
      inbox := ((s.accepted p a).port p.toNat).inbox ++ [(BitVec.ofNat 16 (field a.bytes 4 2), a.bytes)] })
      (if field a.bytes 8 1 % 16 == 1 then .copyFlitWrite (BitVec.ofNat 5 p.toNat) else .crucibleFlitReceive (BitVec.ofNat 5 p.toNat))
    simpa only [ofNat_toNat_port, beq_iff_eq] using posted

theorem flitReceive_handshake (typ : field a.bytes 0 1 / 16 = 2) {f : FarEnd} (far : a.far = some f) : Ends (.flitReceive p a) s (fun t =>
    t = { s with ports := t.ports, timers := t.timers } ∧ (t.port p.toNat).far = some f ∧ (t.port p.toNat).markerSeen = false ∧
    (t.port p.toNat).rxSeq = BitVec.ofNat 16 (field a.bytes 4 2)) := by
  have port := s.port_accepted p a
  obtain ⟨tm, e⟩ := s.accepted_eq p a
  refine ⟨_, exec_flitReceive_next listens quiet clean (by omega) next, ?_⟩
  rw [State.takesIn_handshake typ far, port]
  obtain ⟨tm', tr, begun⟩ := (s.accepted p a).tryHandshake_setPort p.toNat { (s.port p.toNat).heard a with
    rxSeq := BitVec.ofNat 16 (field a.bytes 4 2), nak := false, far := some f, farAt := some (s.accepted p a).now, markerSeen := false }
  have there := (congrArg (fun t : State => t.port p.toNat) begun).trans (State.port_setPort ..)
  refine ⟨?_, (congrArg Port.far there :), (congrArg Port.markerSeen there :), (congrArg Port.rxSeq there :)⟩
  rw [begun, e]
  rfl

theorem flitReceive_marker (typ : field a.bytes 0 1 / 16 = 3) : Ends (.flitReceive p a) s (fun t =>
    t.port p.toNat = { (s.port p.toNat).heard a with rxSeq := BitVec.ofNat 16 (field a.bytes 4 2), nak := false, markerSeen := true } ∧
    t.mem = s.mem) := by
  have port := s.port_accepted p a
  obtain ⟨tm, e⟩ := s.accepted_eq p a
  refine ⟨_, exec_flitReceive_next listens quiet clean (by omega) next, ?_⟩
  rw [State.takesIn_marker typ, port]
  exact ⟨State.port_setPort .., (congrArg State.mem e :)⟩

end

end

end Sys2Proof.Machine
end

