-- ==== Sys2Proof/Proofs/FlitsAndDelays.lean ====
section
/-! PROOF. A full replay buffer, acknowledge-only flits, and the fibre-delay table; and the settling of the obligation on flits and delays
(R38, R43, R81). -/

namespace Sys2Proof.Machine

open Sys2Proof.Claims

/-! A full replay buffer (R38, R43) -/

/-- With 64 flits unacknowledged a drain's marker waits. -/
theorem opctlTargetWrite_stalls {p : BitVec 5} {s : State} (idle : (s.port p.toNat).trans = none) (up : (s.port p.toNat).down = false)
    (live : (s.port p.toNat).st = 3) (on : (s.port p.toNat).target = 2) (noStalled : (s.port p.toNat).stalled = [])
    (full : 64 ≤ (s.port p.toNat).unacked.length) : Ends (.opctlTargetWrite p 0) s (fun t => t.outFlit = s.outFlit ∧
      (t.port p.toNat).stalled = [3] ∧ (t.port p.toNat).unacked = (s.port p.toNat).unacked ∧ (t.port p.toNat).txSeq = (s.port p.toNat).txSeq) := by
  have drains := State.writeTarget_drains idle up live on (.inl rfl)
  rw [State.sendOwn_full (by rw [State.port_setPort]; exact full), State.port_setPort, State.setPort_setPort] at drains
  have port := (congrArg (fun t : State => t.port p.toNat) drains).trans (State.port_setPort ..)
  refine ⟨_, rfl, (congrArg State.outFlit drains :), (congrArg Port.stalled port).trans ?_, (congrArg Port.unacked port :),
    (congrArg Port.txSeq port :)⟩
  rw [noStalled]
  rfl

/-- With 64 flits unacknowledged a copy sends none. -/
theorem State.copySend_full {s : State} {op : Nat} {o : AsyncOp} (ho : s.async? op = some o)
    (full : 64 ≤ (s.port (s.circuit (copyEntry o.desc)).port.toNat).unacked.length) (k : Nat) : s.copySend op k = s := by
  have shut : s.canSend (copyEntry o.desc) = false := by
    simp [State.canSend, State.portTakes, Nat.not_lt.mpr full]
  cases k with
  | zero => rfl
  | succ k =>
    simp only [State.copySend, ho]
    exact if_pos (by simp [shut])

/-! Acknowledge-only flits (R38) -/

theorem ackOnlyFlit_ends {p : BitVec 5} {s : State} (up : (s.port p.toNat).st = 2 ∨ (s.port p.toNat).st = 3) :
    Ends (.ackOnlyFlit p) s (fun t => t = { s with outFlit := t.outFlit, ports := t.ports, timers := t.timers } ∧
      t.outFlit = s.outFlit ++ [(p.toNat, flitBytes 4 (s.port p.toNat).nak (s.portVer p.toNat).toNat Config.unusedSeq.toNat
        (s.port p.toNat).ackSeq.toNat ((List.range 244).map Config.idleByte))] ∧
      t.port p.toNat = { s.port p.toNat with txFree := (t.port p.toNat).txFree } ∧ ∃ m ∈ t.timers, m.what = .ackOnlyFlit p) := by
  have run : exec (.ackOnlyFlit p) s = .next ((s.sendAckOnly p.toNat).armAck p.toNat) :=
    congrArg Host.Outcome.next (if_pos (by simpa using up))
  obtain ⟨tm, -, ⟨m, hm, what⟩, e⟩ := (s.sendAckOnly p.toNat).armAck_eq p.toNat
  refine ⟨_, run, ?_, ?_, ?_, ?_⟩
  · rw [e]
    exact State.eq_of_offLink (t := { s.sendAckOnly p.toNat with timers := tm }) (State.Sends.emit s p.toNat _).rest
  · rw [e]
    exact State.outFlit_emit ..
  · rw [State.port_armAck, State.sendAckOnly, State.port_emit]
  · rw [e]
    exact ⟨m, hm, by rw [what, ofNat_toNat_port]⟩

/-! The fibre-delay table (R81) -/

/-- The nearest multiple, and on a tie the even one. -/
theorem roundHalfEven_spec (q : Int) : 2 * (q - 1000 * roundHalfEven q 1000) ≤ 1000 ∧ -1000 ≤ 2 * (q - 1000 * roundHalfEven q 1000) ∧
    (2 * (q - 1000 * roundHalfEven q 1000) = 1000 ∨ 2 * (q - 1000 * roundHalfEven q 1000) = -1000 → roundHalfEven q 1000 % 2 = 0) := by
  simp only [roundHalfEven]
  split
  case isTrue h =>
    simp only [Bool.or_eq_true, Bool.and_eq_true, decide_eq_true_eq, beq_iff_eq] at h
    omega
  case isFalse h =>
    simp only [Bool.or_eq_true, Bool.and_eq_true, decide_eq_true_eq, beq_iff_eq] at h
    omega

theorem tfind_tmap {α : Type} (t : Tbl α) (f : Nat → α → α) (k : Nat) : tfind (tmap t f) k = (tfind t k).map (f k) := by
  induction t with
  | nil => rfl
  | cons q t ih =>
    simp only [tmap, List.map_cons, tfind] at ih ⊢
    split
    case isTrue h => rw [← h]; rfl
    case isFalse => exact ih

/-- A port that is not listed is not measured: the correction changes nothing there. -/
theorem tget_tmap_correct (t : Tbl Port) (plant : BitVec 16) (k : Nat) :
    tget {} (tmap t (fun _ x => x.correct plant)) k = (tget {} t k : Port).correct plant := by
  rw [tget, tfind_tmap, tget]
  cases tfind t k <;> rfl

theorem Port.correct_unmeasured {x : Port} {plant : BitVec 16} (h : x.valid = false ∨ x.corrected = false) : x.correct plant = x :=
  if_pos (by simpa using h)

theorem Port.correct_measured {x : Port} {plant : BitVec 16} (valid : x.valid = true) (corrected : x.corrected = true) :
    x.correct plant = { x with
      rttc := BitVec.ofInt 24 ((x.rtt0.toNat : Int) + roundHalfEven (x.tcoef.toInt * (plant.toInt - x.tref.toInt)) 1000), tused := plant } :=
  if_neg (by simp [valid, corrected])

/-- Settles O36: each kind of flit by what it leaves at the receiver, and the correction of the fibre delays. -/
theorem flitsAndDelays : Obligations.FlitsAndDelays := by
  intro p a s n x l typ clean seq fecc on_ quiet left gone again asks
  have listens (h : on_) : (s.port p.toNat).Listens s.now := ⟨h.1, h.2⟩
  have still (h : quiet) : (s.port p.toNat).Quiet := ⟨h.1, h.2.1, h.2.2⟩
  refine ⟨fun up bad => ⟨_, exec_flitReceive_uncorrectable (listens up) bad, rfl⟩,
    fun up readable bad => ⟨_, exec_flitReceive_unchecked (listens up) readable bad, rfl⟩,
    fun up hc idle hq => ⟨_, exec_flitReceive_idle (listens up) idle hc (still hq), rfl, State.port_setPort ..⟩,
    fun up hc idle noStalled => flitReceive_acks (listens up) idle hc noStalled, fun up ha idle noStalled => ?replays,
    fun live idle on up _ noStalled full => opctlTargetWrite_stalls idle up live on noStalled full, fun up hc idle one room => ?marker,
    fun op o k ho port full => State.copySend_full ho (port ▸ full) k, fun up hc low high hq gap => ?gap,
    fun up hc typ hq next before ok present => flitReceive_data (listens up) (still hq) hc next typ before ok present,
    fun up hc typ hq next f far => flitReceive_handshake (listens up) (still hq) hc next typ far,
    fun up hc typ hq next => flitReceive_marker (listens up) (still hq) hc next typ, ackOnlyFlit_ends,
    ⟨_, rfl, rfl, fun k => ⟨fun h => ?unmeasured, fun valid corrected => ?measured⟩⟩⟩
  case replays =>
    obtain ⟨t, run, mem, out, fr, port⟩ := flitReceive_replays (listens up) idle ha noStalled
    exact ⟨t, run, mem, out, (congrArg Port.unacked port :), (congrArg Port.rply port :), (congrArg Port.fecc port :)⟩
  case marker =>
    obtain ⟨t, run, mem, f, fr, three, number, port, out⟩ := flitReceive_sends_marker (listens up) idle hc one room
    exact ⟨t, run, mem, (congrArg Port.stalled port :), (congrArg Port.txSeq port :), (congrArg Port.marker port :), f, three, number,
      (congrArg Port.unacked port :), by rw [out, Flit.wire, three]⟩
  case gap =>
    exact ⟨_, exec_flitReceive_gap (listens up) (still hq) hc ⟨low, high⟩ gap, rfl, State.port_setPort ..⟩
  case unmeasured => exact (tget_tmap_correct s.ports s.plant k).trans (Port.correct_unmeasured h)
  case measured =>
    exact ⟨_, (tget_tmap_correct s.ports s.plant k).trans (Port.correct_measured valid corrected), roundHalfEven_spec _⟩

end Sys2Proof.Machine
end

