-- ==== Sys2Proof/Proofs/PacketPlane.lean ====
section
/-! PROOF. What the packet plane changes on its own: links, what they carry, and the events that fall due (R56 to R63, R494). -/

namespace Sys2Proof.Machine

/-! Folds -/

section
variable {α : Type} {f : State → α → State} {l : List α} {s : State}

/-- What does nothing at each element of a list does nothing in a fold over it. -/
theorem State.each_id (h : ∀ a ∈ l, f s a = s) : s.each l f = s := by
  induction l with
  | nil => rfl
  | cons a l ih =>
    change (f s a).each l f = s
    rw [h a List.mem_cons_self]
    exact ih fun b hb => h b (List.mem_cons_of_mem _ hb)

variable {P : State → Prop} (keeps : ∀ s a, P s → P (f s a))
include keeps

/-- What every step of a fold keeps, the fold keeps. -/
theorem State.each_keeps (l : List α) (h : P s) : P (s.each l f) := by
  induction l generalizing s with
  | nil => exact h
  | cons a l ih => exact ih (keeps s a h)

/-- What one step of a fold establishes and every step keeps holds at its end. -/
theorem State.each_reaches {a : α} (sets : ∀ s, P (f s a)) (ha : a ∈ l) (s : State) : P (s.each l f) := by
  induction ha generalizing s with
  | head l => exact State.each_keeps keeps l (sets s)
  | tail b _ ih => exact ih (f s b)

end

/-! From a state to the next -/

/-- What the packet plane leaves: everything but its links, what they have sent, its own records and the events that fall due. -/
def State.offPlane (s : State) : State :=
  { s with links := [], outPkt := [], outCtl := [], timers := [], seen := [], loopback := [], epdrop := 0 }

/-- From `s` to `t` packets move, and nothing else changes; no event that falls due is lost. -/
structure State.Plane (s t : State) : Prop where
  rest   : t.offPlane = s.offPlane
  timers : s.timers ⊆ t.timers

namespace State.Plane

theorem refl (s : State) : s.Plane s := ⟨rfl, fun _ h => h⟩

theorem trans {s t u : State} (a : s.Plane t) (b : t.Plane u) : s.Plane u := ⟨b.rest.trans a.rest, List.Subset.trans a.timers b.timers⟩

theorem each {α : Type} {f : State → α → State} (step : ∀ (s : State) (a : α), s.Plane (f s a)) (l : List α) (s : State) : s.Plane (s.each l f) :=
  State.each_rel refl trans step l s

section
variable {s t : State} (h : s.Plane t)
include h

theorem aside : t.aside = s.aside := (congrArg State.aside h.rest :)
theorem now : t.now = s.now := (congrArg State.now h.rest :)
theorem circuits : t.circuits = s.circuits := (congrArg State.circuits h.rest :)
theorem circuit (e : Nat) : t.circuit e = s.circuit e := State.circuit_of_circuits h.circuits e
theorem port (p : Nat) : t.port p = s.port p := State.port_of_kept (State.kept_of_aside h.aside) p
theorem tvercur : t.tvercur = s.tvercur := (congrArg State.tvercur h.rest :)
theorem fdid : t.fdid = s.fdid := (congrArg State.fdid h.rest :)
theorem fdidValid : t.fdidValid = s.fdidValid := (congrArg State.fdidValid h.rest :)

end

/-! What moves packets -/

variable (s : State) (l : Nat) (k : Packet)

theorem setLink (x : Link) : s.Plane (s.setLink l x) := ⟨rfl, fun _ h => h⟩

theorem control (cls : BitVec 4) (n : Nat) : s.Plane (s.control l cls n) := ⟨rfl, fun _ h => h⟩

theorem after (ns : Nat) (i : Instr) : s.Plane (s.after ns i) := ⟨rfl, s.timers_subset_atTime _ i⟩

theorem epDrop : s.Plane s.epDrop := ⟨rfl, fun _ h => h⟩

theorem noteSeen : s.Plane (s.noteSeen k) := ⟨rfl, fun _ h => h⟩

theorem freed : s.Plane (s.freed l k) := by
  unfold State.freed
  split
  · exact .refl s
  · exact control ..

theorem took : s.Plane (s.took l k) := by
  unfold State.took
  split
  · exact (setLink ..).trans (control ..)
  · exact .refl s

theorem sendOn (w : Waiting) : s.Plane (s.sendOn l w) := by
  simp only [State.sendOn]
  have sent (x : Link) (op : List (Nat × Packet)) : s.Plane { s.setLink l x with outPkt := op } := ⟨rfl, fun _ h => h⟩
  have freed (u : State) : u.Plane (match w.from_ with | some i => u.freed i w.pkt | none => u) := by
    split
    · exact freed ..
    · exact .refl u
  split
  · exact ((sent ..).trans (freed _)).trans (after ..)
  · exact (sent ..).trans (freed _)

theorem pumpGo (n : Nat) : s.Plane (s.pumpGo l n) := by
  induction n generalizing s with
  | zero => exact .refl s
  | succ n ih =>
    simp only [State.pumpGo]
    split
    · exact .refl s
    · split
      · exact .refl s
      · exact (sendOn ..).trans (ih _)

theorem toLink (from_ : Option Nat) : s.Plane (s.toLink l k from_) := (setLink ..).trans (pumpGo ..)

theorem sendPacket : s.Plane (s.sendPacket k) := by
  simp only [State.sendPacket]
  split
  · exact .refl s
  · split
    · exact (noteSeen s k).trans (.each (fun s l => toLink s l k none) _ _)
    · split
      · exact ⟨rfl, fun _ h => h⟩
      · split
        · exact toLink ..
        · exact epDrop s

theorem broadcastOn : s.Plane (s.broadcastOn l k) := by
  simp only [State.broadcastOn]
  split
  · exact .refl s
  · exact (noteSeen s k).trans (.each (fun s j => toLink s j _ _) _ _)

theorem received : s.Plane (s.received l k) := ((took ..).trans (freed ..)).trans (broadcastOn ..)

end State.Plane

/-! Arrival (R57, R58, R60) -/

section
variable {s : State} {l : Nat} {k : Packet} {cls typ : Nat}

theorem State.delivered_iff : s.delivered k cls typ = true ↔ s.fdidValid = true ∧ pktShapeOk k = true ∧ pktReservedOk k = true ∧
    k.cls.toNat = cls ∧ k.typ.toNat = typ ∧ k.hops ≠ 15 ∧ (k.dst = s.fdid.zeroExtend 16 ∨ k.dst = 0xFFF) := by
  simp only [State.delivered, Bool.and_eq_true, Bool.or_eq_true, beq_iff_eq, bne_iff_ne, and_assoc]

/-- A packet that link replay accepts, delivered here, with no nonzero reserved field. -/
theorem State.receive_taken (takes : s.linkTakes l k = true) (here : s.delivered k cls typ = true) {ok : Bool} (hok : ok = true) :
    s.receive l k cls typ ok = (true, s.received l k) := by
  obtain ⟨valid, -, -, hc, ht, -, -⟩ := State.delivered_iff.mp here
  simp [State.receive, hc, ht, takes, valid, here, hok]

end

end Sys2Proof.Machine
end

