-- ==== Sys2Proof/Proofs/CircuitEntries.lean ====
section
/-! PROOF. What the steps of circuits leave of the state: one entry of the circuit table changes (R64 to R71). -/

namespace Sys2Proof.Machine

open Sys2Proof.Claims

/-! One entry -/

/-- The event comes about, and no more changes of the circuit table than entry `e`, which becomes what `P` says. -/
def EntryEnds (i : Instr) (s : State) (e : Nat) (P : Circuit → State → Prop) : Prop :=
  Ends i s (fun t => t.mem = s.mem ∧ t.cores = s.cores ∧ (∀ n, n ≠ e → t.circuit n = s.circuit n) ∧ P (t.circuit e) t)

/-- From `s` to `t` entry `e` may change, and no other entry, nor memory, cores, the time or the module. -/
structure State.Entry (e : Nat) (s t : State) : Prop where
  frame  : t.frame = s.frame
  others : ∀ n, n ≠ e → t.circuit n = s.circuit n

namespace State.Entry

variable {e : Nat}

theorem refl (s : State) : State.Entry e s s := ⟨rfl, fun _ _ => rfl⟩

theorem trans {s t u : State} (a : State.Entry e s t) (b : State.Entry e t u) : State.Entry e s u :=
  ⟨b.frame.trans a.frame, fun n hn => (b.others n hn).trans (a.others n hn)⟩

section
variable {s t : State} (h : State.Entry e s t)
include h

theorem now : t.now = s.now := (congrArg (fun f => f.2.2.1) h.frame :)

theorem ends {i : Instr} (run : exec i s = .next t) {P : Circuit → State → Prop} (hP : P (t.circuit e) t) : EntryEnds i s e P :=
  have ⟨mem, cores, _, _⟩ := State.same_of_frame h.frame
  ⟨t, run, mem, cores, h.others, hP⟩

end

theorem of_aside {s t : State} (h : t.aside = s.aside) : State.Entry e s t :=
  ⟨State.frame_of_kept (State.kept_of_aside h), fun n _ => State.circuit_of_circuits (State.circuits_of_aside h) n⟩

theorem of_plane {s t : State} (h : s.Plane t) : State.Entry e s t := of_aside h.aside

theorem of_offLink {s t : State} (h : t.offLink = s.offLink) : State.Entry e s t :=
  ⟨State.frame_of_offLink h, fun n _ => State.circuit_of_circuits (State.circuits_of_offLink h) n⟩

variable (s : State)

theorem after (ns : Nat) (i : Instr) : State.Entry e s (s.after ns i) := of_aside rfl

theorem atTime (t : Nat) (i : Instr) : State.Entry e s (s.atTime t i) := of_aside rfl

theorem setPort (p : Nat) (x : Port) : State.Entry e s (s.setPort p x) := of_offLink rfl

theorem takeFree : State.Entry e s s.takeFree.2 := of_aside rfl

theorem setCircuit (c : Circuit) : State.Entry e s (s.setCircuit e c) := ⟨rfl, fun _ hn => State.circuit_setCircuit_ne s e c hn⟩

theorem moveEntry (c : Circuit) : State.Entry e s (s.moveEntry e c) := (setCircuit s c).trans (of_aside (s.aside_moveEntry e c))

theorem failEntry (v : BitVec 4) : State.Entry e s (s.failEntry e v true) := (moveEntry s _).trans (of_aside (State.aside_sendCtl ..))

end State.Entry

/-! The write of OPCTL and the next slot fall due -/

section
variable (s : State) (e : Nat)

@[simp] theorem State.now_moveEntry (c : Circuit) : (s.moveEntry e c).now = s.now := (State.Entry.moveEntry s c).now

/-- When the write of OPCTL is due (R66). -/
def State.armTime (s : State) (e : Nat) : Nat := max s.now ((s.circuit e).readyat.toNat - 3000)

@[simp] theorem State.circuit_armPort : (s.armPort e).circuit e = { s.circuit e with due := s.armTime e } :=
  State.circuit_setCircuit ..

theorem State.mem_timers_armPort : (⟨s.armTime e, .circuitPortWrite (BitVec.ofNat 6 e)⟩ : Timer) ∈ (s.armPort e).timers :=
  List.mem_append_right _ (List.mem_singleton.mpr rfl)

theorem State.Entry.armPort : State.Entry e s (s.armPort e) :=
  ⟨rfl, fun _ hn => State.circuit_setCircuit_ne s e _ hn⟩

/-- The next slot falls due; nothing else changes. -/
theorem State.armSlot_eq : ∃ tm, s.timers ⊆ tm ∧ s.armSlot e = { s with timers := tm } := by
  simp only [State.armSlot]
  split
  · exact ⟨s.timers, fun _ h => h, rfl⟩
  · exact ⟨_, List.Subset.trans (s.timers_subset_atTime _ _) (State.timers_subset_atTime ..), rfl⟩

theorem State.aside_armSlot : (s.armSlot e).aside = s.aside := by obtain ⟨tm, -, h⟩ := s.armSlot_eq e; rw [h]; rfl

theorem State.timers_armSlot : s.timers ⊆ (s.armSlot e).timers := by obtain ⟨tm, more, h⟩ := s.armSlot_eq e; rw [h]; exact more

@[simp] theorem State.circuit_armSlot (n : Nat) : (s.armSlot e).circuit n = s.circuit n :=
  State.circuit_of_circuits (State.circuits_of_aside (s.aside_armSlot e)) n

/-- An entry that has become RESERVED has its port's write and its next slot fall due (R66, R77). -/
theorem State.Entry.arms : State.Entry e s ((s.armPort e).armSlot e) :=
  (State.Entry.armPort s e).trans (.of_aside (State.aside_armSlot ..))

theorem State.mem_timers_arms : (⟨s.armTime e, .circuitPortWrite (BitVec.ofNat 6 e)⟩ : Timer) ∈ ((s.armPort e).armSlot e).timers :=
  State.timers_armSlot _ e (s.mem_timers_armPort e)

end

/-! Requests that are sent again or given up (R68) -/

theorem State.named_of_circuits {s t : State} (h : t.circuits = s.circuits) (k : Packet) : t.named k = s.named k := by
  simp only [State.named, h]

theorem State.backOff_again {s : State} {e : Nat} (v : BitVec 4) (left : (s.circuit e).attempts.toNat < max 1 (s.circuit e).retrymax.toNat) :
    ∃ d, d < 1000 * 2 ^ min (s.circuit e).attempts.toNat 6 ∧ s.backOff e v =
      (s.takeFree.2.moveEntry e { s.circuit e with st := 2, due := s.now + d }).after d (.backoffExpiry (BitVec.ofNat 6 e)) :=
  ⟨_, Nat.mod_lt _ (by positivity), if_pos left⟩

theorem State.backOff_fails {s : State} {e : Nat} (v : BitVec 4) (spent : max 1 (s.circuit e).retrymax.toNat ≤ (s.circuit e).attempts.toNat) :
    s.backOff e v = s.moveEntry e { s.circuit e with st := 6, status := v } := if_neg (Nat.not_lt.mpr spent)

/-- An event that abandons an attempt: entry `e`, as `c`, backs off, or fails with `v`. -/
theorem backOff_ends {i : Instr} {s u : State} {e : Nat} {c : Circuit} {v : BitVec 4} (run : exec i s = .next (u.backOff e v))
    (same : u.aside = s.aside) (hc : s.circuit e = c) :
    (c.attempts.toNat < max 1 c.retrymax.toNat → EntryEnds i s e (fun w t => ∃ due : Nat, w = { c with st := 2, due := due } ∧
      s.now ≤ due ∧ due < s.now + 1000 * 2 ^ min c.attempts.toNat 6 ∧ (⟨due, .backoffExpiry (BitVec.ofNat 6 e)⟩ : Timer) ∈ t.timers)) ∧
    (max 1 c.retrymax.toNat ≤ c.attempts.toNat → EntryEnds i s e (fun w _ => w = { c with st := 6, status := v })) := by
  have before : State.Entry e s u := .of_aside same
  have hu : u.circuit e = c := (State.circuit_of_circuits (State.circuits_of_aside same) e).trans hc
  refine ⟨fun left => ?_, fun spent => ?_⟩
  · obtain ⟨d, hd, b⟩ := State.backOff_again v (hu ▸ left)
    rw [hu] at hd b
    rw [before.now] at b
    have moved : State.Entry e s (u.takeFree.2.moveEntry e { c with st := 2, due := s.now + d }) :=
      (before.trans (.takeFree u)).trans (.moveEntry ..)
    have due := State.mem_timers_after (u.takeFree.2.moveEntry e { c with st := 2, due := s.now + d }) d (.backoffExpiry (BitVec.ofNat 6 e))
    rw [moved.now] at due
    exact (moved.trans (.after ..)).ends (run.trans (congrArg _ b))
      ⟨s.now + d, State.circuit_moveEntry .., Nat.le_add_right .., Nat.add_lt_add_left hd _, due⟩
  · rw [State.backOff_fails v (hu ▸ spent), hu] at run
    exact (before.trans (.moveEntry ..)).ends run (State.circuit_moveEntry ..)

end Sys2Proof.Machine
end

