-- ==== Sys2Proof/Proofs/CircuitAnswers.lean ====
section
/-! PROOF. Requests and answers of circuits that arrive: RSV, ACK, DENY and TACK (R64 to R68, R71). -/

namespace Sys2Proof.Machine

open Sys2Proof.Claims

/-- A control packet that link replay accepts and whose body is in order is taken. -/
theorem State.receive_ctl {s : State} {l : Nat} {k : Packet} {typ : Nat} (takes : s.linkTakes l k = true) (ctl : s.ctlFor k typ = true) :
    s.receive l k 2 typ (ctlBodyOk k) = (true, s.received l k) :=
  have ⟨here, ok⟩ := Bool.and_eq_true_iff.mp ctl
  State.receive_taken takes here ok

@[simp] theorem State.named_received (s : State) (l : Nat) (k : Packet) : (s.received l k).named k = s.named k :=
  State.named_of_circuits (State.Plane.received s l k).circuits k

@[simp] theorem State.circuit_received (s : State) (l : Nat) (k : Packet) (e : Nat) : (s.received l k).circuit e = s.circuit e :=
  (State.Plane.received s l k).circuit e

theorem State.Plane.answer (s : State) (k : Packet) (typ code readyat : Nat) : s.Plane (s.answer k typ code readyat) := .sendPacket ..

theorem State.ports_of_aside {s t : State} (h : t.aside = s.aside) : t.ports = s.ports := (congrArg (fun a => a.1.2.1) h :)

/-! RSV (R67) -/

/-- The entry that an RSV fills in. -/
def Circuit.reservedBy (c : Circuit) (k : Packet) (now : Nat) : Circuit := { c with
  st := 3, side := true, status := 0, attempts := 0, port := BitVec.ofNat 5 (field k.body 5 1), peerdev := BitVec.ofNat 12 (k.src.toNat % 4096)
  peerport := BitVec.ofNat 5 (field k.body 4 1), grpmask := BitVec.ofNat 4 (field k.body 2 1), tver := k.tver
  hopcnt := BitVec.ofNat 4 (field k.body 6 2), readyat := BitVec.ofNat 64 (field k.body 8 8)
  swtime := BitVec.ofNat 32 (field k.body 8 8 - now)
  route := (List.range 8).map (fun h => BitVec.ofNat 32 (field k.body (32 + 4 * h) 4))
  reqEntry := BitVec.ofNat 6 (field k.body 0 1), freeOnDark := false, tearPending := false, slotOpen := false, window := none }

/-- The state before an accepted RSV is answered: the entry is RESERVED and its owner knows. -/
def State.reserved (s : State) (k : Packet) (e : Nat) : State :=
  (s.moveEntry e ((s.circuit e).reservedBy k s.now)).gEvent (s.circuit e).owner.toNat 2 (at_ e 48)

section
variable {l : BitVec 3} {k : Packet} {s : State} (takes : s.linkTakes l.toNat k = true) (ctl : s.ctlFor k 1 = true)
include takes ctl

theorem exec_rsv_otherVersion (other : k.tver ≠ s.tvercur) :
    exec (.rsv l k) s = .next ((s.received l.toNat k).answer k 3 5 (field k.body 8 8)) := by
  change execRsv l k s = _
  have ver := (State.Plane.received s l.toNat k).tvercur
  simp only [execRsv, State.receive_ctl takes ctl]
  exact if_pos (by simpa [ver] using other)

variable (same : k.tver = s.tvercur)
include same

theorem exec_rsv_crossed (mine : ∃ q ∈ s.circuits, q.2.port.toNat = field k.body 5 1 ∧ q.2.st = 1 ∧ q.2.side = false)
    (lower : s.fdid.toNat ≤ k.src.toNat % 4096) :
    exec (.rsv l k) s = .next ((s.received l.toNat k).answer k 3 3 (field k.body 8 8)) := by
  change execRsv l k s = _
  have plane := State.Plane.received s l.toNat k
  simp only [execRsv, State.receive_ctl takes ctl]
  rw [if_neg (by simpa [plane.tvercur] using same), if_pos]
  simpa [plane.circuits, plane.fdid, lower, and_assoc] using mine

variable (unused : ∀ q ∈ s.circuits, q.2.port.toNat = field k.body 5 1 → q.2.st = 0 ∨ q.2.st = 6)
include unused

theorem exec_rsv_free : exec (.rsv l k) s = .next (match (List.range 64).find? (fun n => (s.circuit n).st == 0) with
    | none => (s.received l.toNat k).answer k 3 2 (field k.body 8 8)
    | some e => if (s.port (field k.body 5 1)).st ≠ 0 then (s.received l.toNat k).answer k 3 2 (field k.body 8 8)
      else ((((s.received l.toNat k).reserved k e).answer k 2 0 (field k.body 8 8)).armPort e).armSlot e) := by
  change execRsv l k s = _
  have plane := State.Plane.received s l.toNat k
  have other : s.circuits.any (fun e => e.2.port.toNat == field k.body 5 1 && e.2.st != 0 && e.2.st != 6 && !(e.2.st == 1 && !e.2.side)) = false := by
    refine List.any_eq_false.mpr fun q hq used => ?_
    simp only [Bool.and_eq_true, beq_iff_eq, bne_iff_ne] at used
    obtain ⟨⟨⟨port, free⟩, failed⟩, -⟩ := used
    exact (unused q hq port).elim free failed
  have mine : s.circuits.find? (fun e => e.2.port.toNat == field k.body 5 1 && e.2.st == 1 && !e.2.side) = none := by
    refine List.find?_eq_none.mpr fun q hq asks => ?_
    simp only [Bool.and_eq_true, beq_iff_eq] at asks
    obtain ⟨⟨port, st⟩, -⟩ := asks
    rcases unused q hq port with h | h <;> simp [h] at st
  simp only [execRsv, State.receive_ctl takes ctl, plane.circuits, plane.circuit, plane.port, mine, other]
  rw [if_neg (by simpa [plane.tvercur] using same), if_neg (by simp)]
  cases (List.range 64).find? (fun n => (s.circuit n).st == 0) with
  | none => rfl
  | some e =>
    simp only [Bool.or_false, bne_iff_ne]
    split
    · rfl
    · simp [State.reserved, Circuit.reservedBy]

theorem exec_rsv_full (full : (List.range 64).find? (fun n => (s.circuit n).st == 0) = none ∨ (s.port (field k.body 5 1)).st ≠ 0) :
    exec (.rsv l k) s = .next ((s.received l.toNat k).answer k 3 2 (field k.body 8 8)) := by
  rw [exec_rsv_free takes ctl same unused]
  split
  · rfl
  next e free => rw [if_pos (full.resolve_left (by rw [free]; exact Option.some_ne_none e))]

theorem exec_rsv_accepted {e : Nat} (free : (List.range 64).find? (fun n => (s.circuit n).st == 0) = some e)
    (dark : (s.port (field k.body 5 1)).st = 0) : exec (.rsv l k) s = .next
      (((((s.received l.toNat k).reserved k e).answer k 2 0 (field k.body 8 8)).armPort e).armSlot e) := by
  rw [exec_rsv_free takes ctl same unused]
  simp only [free]
  rw [if_neg (not_not.mpr dark)]

end

theorem State.aside_reserved (s : State) (k : Packet) (e : Nat) :
    (s.reserved k e).aside = (s.setCircuit e ((s.circuit e).reservedBy k s.now)).aside :=
  (State.aside_gEvent ..).trans (s.aside_moveEntry e _)

theorem State.Entry.reserved (s : State) (k : Packet) (e : Nat) : State.Entry e s (s.reserved k e) :=
  (State.Entry.setCircuit s _).trans (.of_aside (s.aside_reserved k e))

@[simp] theorem State.circuit_reserved (s : State) (k : Packet) (e : Nat) :
    (s.reserved k e).circuit e = (s.circuit e).reservedBy k s.now :=
  (State.circuit_of_circuits (State.circuits_of_aside (s.aside_reserved k e)) e).trans (State.circuit_setCircuit ..)

/-- An event that makes entry `e` RESERVED, as `c`: the write of OPCTL to its port falls due (R66). -/
theorem reserve_ends {i : Instr} {s w : State} {e : Nat} {c : Circuit} (run : exec i s = .next ((w.armPort e).armSlot e))
    (before : State.Entry e s w) (hc : w.circuit e = c) : EntryEnds i s e (fun v t =>
      v = { c with due := max s.now (c.readyat.toNat - 3000) } ∧
      (⟨max s.now (c.readyat.toNat - 3000), .circuitPortWrite (BitVec.ofNat 6 e)⟩ : Timer) ∈ t.timers ∧ t = (w.armPort e).armSlot e) := by
  have time : w.armTime e = max s.now (c.readyat.toNat - 3000) := by rw [State.armTime, hc, before.now]
  refine (before.trans (.arms w e)).ends run ⟨?_, time ▸ w.mem_timers_arms e, rfl⟩
  rw [State.circuit_armSlot, State.circuit_armPort, hc, time]

theorem State.ports_rsv (s : State) (l : Nat) (k : Packet) (e : Nat) :
    (((((s.received l k).reserved k e).answer k 2 0 (field k.body 8 8)).armPort e).armSlot e).ports = s.ports := by
  have arms (w : State) : ((w.armPort e).armSlot e).ports = w.ports := State.ports_of_aside (s := w.armPort e) (State.aside_armSlot _ e)
  rw [arms, State.ports_of_aside (State.Plane.answer ..).aside, State.ports_of_aside (State.aside_reserved ..),
    ← State.ports_of_aside (State.Plane.received s l k).aside]
  rfl

/-- What an accepted RSV leaves. -/
theorem rsv_reserves {i : Instr} {l : Nat} {k : Packet} {s : State} {e : Nat} (run : exec i s = .next
      (((((s.received l k).reserved k e).answer k 2 0 (field k.body 8 8)).armPort e).armSlot e)) :
    EntryEnds i s e (fun v t =>
      v.st = 3 ∧ v.side = true ∧ v.status = 0 ∧ v.port = BitVec.ofNat 5 (field k.body 5 1) ∧ v.peerport = BitVec.ofNat 5 (field k.body 4 1) ∧
      v.peerdev = BitVec.ofNat 12 (k.src.toNat % 4096) ∧ v.grpmask = BitVec.ofNat 4 (field k.body 2 1) ∧ v.tver = k.tver ∧
      v.readyat = BitVec.ofNat 64 (field k.body 8 8) ∧ v.owner = (s.circuit e).owner ∧ t.ports = s.ports ∧
      (⟨max s.now (v.readyat.toNat - 3000), .circuitPortWrite (BitVec.ofNat 6 e)⟩ : Timer) ∈ t.timers ∧
      ∃ u : State, t = ((u.answer k 2 0 (field k.body 8 8)).armPort e).armSlot e ∧ u.circuit e = { v with due := (s.circuit e).due }) := by
  have received := State.Plane.received s l k
  have answered := State.Plane.answer ((s.received l k).reserved k e) k 2 0 (field k.body 8 8)
  have before := ((State.Entry.of_plane received).trans (.reserved _ k e)).trans (.of_plane answered)
  have hu : ((s.received l k).reserved k e).circuit e = (s.circuit e).reservedBy k s.now := by
    rw [State.circuit_reserved, State.circuit_received, received.now]
  obtain ⟨t, run, mem, cores, others, v, timer, ht⟩ := reserve_ends run before ((answered.circuit e).trans hu)
  refine ⟨t, run, mem, cores, others, ?_⟩
  rw [v]
  exact ⟨rfl, rfl, rfl, rfl, rfl, rfl, rfl, rfl, rfl, rfl, ht ▸ s.ports_rsv l k e, timer, _, ht, hu⟩

/-! ACK, DENY and TACK (R65, R66, R68, R71) -/

section
variable {l : BitVec 3} {k : Packet} {s : State} {e : Nat} (takes : s.linkTakes l.toNat k = true) (named : s.named k = some e)
include takes named

theorem ack_reserves (ctl : s.ctlFor k 2 = true) (asks : (s.circuit e).st = 1) (mine : (s.circuit e).side = false) :
    EntryEnds (.ack l k) s e (fun v t => v = { s.circuit e with
        st := 3, readyat := BitVec.ofNat 64 (field k.body 8 8), swtime := BitVec.ofNat 32 (field k.body 8 8 - (s.circuit e).sentAt), due := v.due } ∧
      v.due = max s.now (v.readyat.toNat - 3000) ∧ (⟨v.due, .circuitPortWrite (BitVec.ofNat 6 e)⟩ : Timer) ∈ t.timers) := by
  have run : exec (.ack l k) s = .next ((((s.received l.toNat k).moveEntry e { s.circuit e with
      st := 3, readyat := BitVec.ofNat 64 (field k.body 8 8)
      swtime := BitVec.ofNat 32 (field k.body 8 8 - (s.circuit e).sentAt) }).armPort e).armSlot e) := by
    change execAck l k s = _
    simp only [execAck, State.receive_ctl takes ctl, State.named_received, named, State.circuit_received]
    exact if_pos (by simp [asks, mine])
  obtain ⟨t, run, mem, cores, others, v, timer, -⟩ :=
    reserve_ends run ((State.Entry.of_plane (.received s l.toNat k)).trans (.moveEntry ..)) (State.circuit_moveEntry ..)
  exact ⟨t, run, mem, cores, others, by rw [v], by rw [v], by rw [v]; exact timer⟩

theorem exec_deny (ctl : s.ctlFor k 3 = true) (asks : (s.circuit e).st = 1) (mine : (s.circuit e).side = false) :
    exec (.deny l k) s = .next ((s.received l.toNat k).backOff e (BitVec.ofNat 4 (field k.body 3 1))) := by
  change execDeny l k s = _
  simp only [execDeny, State.receive_ctl takes ctl, State.named_received, named, State.circuit_received]
  exact if_pos (by simp [asks, mine])

theorem tack_frees (ctl : s.ctlFor k 5 = true) (releasing : (s.circuit e).st = 5) (waits : (s.circuit e).freeOnDark = false)
    (sent : (s.circuit e).tearPending = false) : EntryEnds (.tack l k) s e (fun v _ => v = { s.circuit e with st := 0 }) := by
  have run : exec (.tack l k) s = .next ((s.received l.toNat k).moveEntry e { s.circuit e with st := 0 }) := by
    change execTack l k s = _
    simp only [execTack, State.receive_ctl takes ctl, State.named_received, named, State.circuit_received]
    exact if_pos (by simp [releasing, waits, sent])
  exact ((State.Entry.of_plane (.received s l.toNat k)).trans (.moveEntry ..)).ends run (State.circuit_moveEntry ..)

end

end Sys2Proof.Machine
end

