-- ==== Sys2Proof/Proofs/CircuitTears.lean ====
section
/-! PROOF. TEAR from the far end (R71), the RSV that a requester sends (R65, R68, R109), and the write of OPCTL (R66). -/

namespace Sys2Proof.Machine

open Sys2Proof.Claims

/-! What a write of TARGET leaves (R46) -/

section
variable (s : State) (p : Nat)

theorem Port.Sent.st {x y : Port} : x.Sent y → y.st = x.st := by rintro ⟨q, u, w, m, f, rfl⟩; rfl

theorem State.st_portMove : ((s.portMove p).port p).st = (s.port p).st := by
  obtain ⟨y, ⟨tr, rl, la, mm, rfl⟩, sent⟩ := (State.Moves.portMove s p).port
  exact sent.st

theorem State.st_loopLight : ((s.loopLight p).port p).st = (s.port p).st := by
  obtain ⟨fr, fa, la, tr, h⟩ := s.port_loopLight p
  rw [h]

variable (v : BitVec 2)

/-- A port's way to a new TARGET begins. -/
def State.aimed (s : State) (p : Nat) (v : BitVec 2) : State :=
  (((s.setPort p { s.port p with target := v, targetAt := s.now }).sendHandshake p).portMove p).loopLight p

theorem State.offLink_aimed : (s.aimed p v).offLink = s.offLink :=
  (State.offLink_loopLight ..).trans ((State.Moves.portMove ..).rest.trans (State.Sends.sendHandshake ..).rest)

theorem State.st_aimed : ((s.aimed p v).port p).st = (s.port p).st := by
  rw [State.aimed, State.st_loopLight, State.st_portMove, (State.Sends.sendHandshake ..).port.st, State.port_setPort]

/-- A write of TARGET is without effect, is refused, or begins the port's way to it. -/
theorem State.writeTarget_cases : s.writeTarget p v = s ∨
    (∃ tg, s.writeTarget p v = s.setPort p { s.port p with badreq := true, lasterr := 1, target := tg }) ∨
    s.writeTarget p v = s.aimed p v ∨ s.writeTarget p v = (s.aimed p v).armVermis p := by
  simp only [State.writeTarget]
  split
  · exact .inr (.inl ⟨(s.port p).target, rfl⟩)
  split
  · exact .inr (.inl ⟨_, rfl⟩)
  split
  · exact .inl rfl
  split
  · exact .inr (.inr (.inr rfl))
  · exact .inr (.inr (.inl rfl))

theorem State.offLink_armVermis : (s.armVermis p).offLink = s.offLink := by
  obtain ⟨tm, h⟩ := s.armVermis_eq p
  rw [h]
  rfl

theorem State.offLink_writeTarget : (s.writeTarget p v).offLink = s.offLink := by
  rcases s.writeTarget_cases p v with h | ⟨tg, h⟩ | h | h <;> rw [h]
  · rfl
  · exact s.offLink_aimed p v
  · exact (State.offLink_armVermis ..).trans (s.offLink_aimed p v)

theorem State.st_writeTarget : ((s.writeTarget p v).port p).st = (s.port p).st := by
  rcases s.writeTarget_cases p v with h | ⟨tg, h⟩ | h | h <;> rw [h]
  · rw [State.port_setPort]
  · exact s.st_aimed p v
  · rw [State.port_armVermis, State.st_aimed]

theorem State.Entry.writeTarget {e : Nat} : State.Entry e s (s.writeTarget p v) := .of_offLink (s.offLink_writeTarget p v)

@[simp] theorem State.circuit_writeTarget (e : Nat) : (s.writeTarget p v).circuit e = s.circuit e :=
  State.circuit_of_circuits (State.circuits_of_offLink (s.offLink_writeTarget p v)) e

/-- A DARK port that is told to be DARK begins nothing. -/
theorem State.trans_writeTarget_off (dark : (s.port p).st = 0) : ((s.writeTarget p 0).port p).trans = (s.port p).trans := by
  have aimed : ((s.aimed p 0).port p).trans = (s.port p).trans := by
    rw [State.aimed, State.sendHandshake_off (by simp [dark]), State.portMove_dark (by simp [dark]), if_neg (by simp),
      State.loopLight_off (.inl (by simp [dark])), State.port_setPort]
  rcases s.writeTarget_cases p 0 with h | ⟨tg, h⟩ | h | h <;> rw [h]
  · rw [State.port_setPort]
  · exact aimed
  · rw [State.port_armVermis, aimed]

end

/-- A port is DARK and goes nowhere. -/
def State.restsDark (s : State) (p : Nat) : Prop := (s.port p).st = 0 ∧ (s.port p).trans = none

theorem State.restsDark_writeTarget (s : State) (p : Nat) : (s.writeTarget p 0).restsDark p ↔ s.restsDark p := by
  simp only [State.restsDark, State.st_writeTarget]
  exact and_congr_right fun dark => by rw [s.trans_writeTarget_off p dark]

theorem State.freeIfDark_busy {s : State} {p : Nat} (h : ¬ s.restsDark p) : s.freeIfDark p = s :=
  if_neg (by simpa [State.restsDark] using h)

theorem State.freeIfDark_dark {s : State} {p : Nat} (h : s.restsDark p) : s.freeIfDark p = s.portDark p :=
  if_pos (by simpa [State.restsDark] using h)

/-- An entry that waits for its port is FREE once the port is DARK (R71). -/
theorem State.portDark_frees {s : State} {p e : Nat} {c : Circuit} (he : (e, c) ∈ s.circuits) (hp : c.port.toNat = p)
    (waits : c.freeOnDark = true) : ((s.portDark p).circuit e).st = 0 := by
  refine State.each_reaches (P := fun t => (t.circuit e).st = 0) (fun t q h => ?_) (fun t => ?_) (a := (e, c)) ?_ s
  · by_cases hq : e = q.1
    · rw [hq, State.circuit_moveEntry]
    · rw [(State.Entry.moveEntry t _).others e hq, h]
  · rw [State.circuit_moveEntry]
  · exact List.mem_filter.mpr ⟨he, by simp [hp, waits]⟩

theorem State.restsDark_of_port {s t : State} {p : Nat} (h : t.port p = s.port p) : t.restsDark p ↔ s.restsDark p := by
  simp only [State.restsDark, h]

/-- An entry that waits for its port waits on while the port goes dark. -/
theorem State.writeTarget_busy {s : State} {p : Nat} (busy : ¬ s.restsDark p) : (s.writeTarget p 0).freeIfDark p = s.writeTarget p 0 :=
  State.freeIfDark_busy fun h => busy ((s.restsDark_writeTarget p).mp h)

/-- An entry that waits for a port which is DARK already is FREE at once. -/
theorem State.writeTarget_frees {s : State} {p e : Nat} {c : Circuit} (he : (e, c) ∈ s.circuits) (hp : c.port.toNat = p)
    (waits : c.freeOnDark = true) (dark : s.restsDark p) : (((s.writeTarget p 0).freeIfDark p).circuit e).st = 0 ∧
      ((s.writeTarget p 0).freeIfDark p).frame = s.frame := by
  rw [State.freeIfDark_dark ((s.restsDark_writeTarget p).mpr dark)]
  refine ⟨State.portDark_frees ?_ hp waits, (State.frame_portDark ..).trans (State.Entry.writeTarget s p 0 (e := e)).frame⟩
  rwa [State.circuits_of_offLink (s.offLink_writeTarget p 0)]

/-! TEAR (R71, R80) -/

theorem State.unmiss_same {s : State} {e : Nat} (h : (s.circuit e).missAt ≠ some s.now) : s.unmiss e = s :=
  if_pos (by simpa using h)

theorem State.unmiss_eq (s : State) (e : Nat) : s.unmiss e = s ∨
    ∃ g b, s.unmiss e = ({ s with gaffer := g, slotmiss := b }).setCircuit e { s.circuit e with missAt := none } := by
  unfold State.unmiss
  extract_lets c t u
  split
  · exact .inl rfl
  · exact .inr ⟨_, _, rfl⟩

theorem State.Entry.unmiss (s : State) (e : Nat) : State.Entry e s (s.unmiss e) := by
  rcases s.unmiss_eq e with h | ⟨g, b, h⟩ <;> rw [h]
  · exact .refl s
  · exact State.Entry.trans (t := { s with gaffer := g, slotmiss := b }) (.of_aside rfl) (.setCircuit ..)

theorem State.port_unmiss (s : State) (e p : Nat) : (s.unmiss e).port p = s.port p := by
  rcases s.unmiss_eq e with h | ⟨g, b, h⟩ <;> rw [h]
  rfl

theorem State.circuit_unmiss (s : State) (e : Nat) : (s.unmiss e).circuit e = { s.circuit e with missAt := ((s.unmiss e).circuit e).missAt } := by
  rcases s.unmiss_eq e with h | ⟨g, b, h⟩ <;> rw [h]
  rw [State.circuit_setCircuit]

section
variable {α : Type} {P : Nat × α → Bool} {t : Tbl α} {e : Nat} {c v : α} (hc : tfind t e = some c) (same : P (e, v) = P (e, c))
include hc same

/-- The first index that is looked for stays the first one where what it holds is looked for as before. -/
theorem find?_tset_same (first : (t.find? P).map Prod.fst = some e) : ((tset t e v).find? P).map Prod.fst = some e := by
  induction t with
  | nil => simp at first
  | cons q t ih =>
    obtain ⟨i, x⟩ := q
    simp only [tset, tfind] at hc ⊢
    split
    · cases hv : P (e, v) with
      | true => rw [List.find?_cons_of_pos hv]; rfl
      | false => rwa [List.find?_cons_of_neg (by simp [hv])]
    · split
      case isTrue hi =>
        subst hi
        rw [if_pos rfl] at hc
        obtain rfl := Option.some.inj hc
        cases hv : P (i, v) with
        | true => rw [List.find?_cons_of_pos hv]; rfl
        | false =>
          rw [List.find?_cons_of_neg (by simp [← same, hv])] at first
          rwa [List.find?_cons_of_neg (by simp [hv])]
      case isFalse hi =>
        rw [if_neg hi] at hc
        cases hx : P (i, x) with
        | true =>
          rw [List.find?_cons_of_pos hx] at first
          exact absurd (Option.some.inj first) hi
        | false =>
          rw [List.find?_cons_of_neg (by simp [hx])] at first ⊢
          exact ih hc first

theorem find?_tset_none (absent : t.find? P = none) : (tset t e v).find? P = none := by
  refine List.find?_eq_none.mpr fun q hq => ?_
  rcases eq_or_mem_of_mem_tset hq with rfl | old
  · rw [same]
    exact List.find?_eq_none.mp absent _ (mem_of_tfind hc)
  · exact List.find?_eq_none.mp absent q old

end

theorem exists_tfind_of_mem {α : Type} {t : Tbl α} {q : Nat × α} (h : q ∈ t) : ∃ v, tfind t q.1 = some v := by
  induction t with
  | nil => simp at h
  | cons p t ih =>
    simp only [tfind]
    split
    · exact ⟨_, rfl⟩
    · exact ih ((List.mem_cons.mp h).resolve_left fun same => by simp_all)

/-- A control packet names an entry (R64, R71). -/
def namesEntry (k : Packet) (p : Nat × Circuit) : Bool :=
  p.2.st != 0 && (p.2.peerdev.toNat == k.src.toNat % 4096 || k.typ == 3) && p.2.route.flatMap (fun w => leBytes 4 w.toNat) == k.body.drop 32 &&
    (if p.2.side then p.2.reqEntry.toNat == field k.body 0 1 && p.2.port.toNat == field k.body 5 1 && p.2.peerport.toNat == field k.body 4 1
     else p.1 == field k.body 0 1 && p.2.port.toNat == field k.body 4 1 && p.2.peerport.toNat == field k.body 5 1)

theorem State.named_eq (s : State) (k : Packet) : s.named k = ((s.circuits.find? (fun p => namesEntry k p && p.2.st != 6)).map Prod.fst).or
    ((s.circuits.find? (namesEntry k)).map Prod.fst) := by
  change (match s.circuits.find? (fun p => namesEntry k p && p.2.st != 6) with
    | some p => some p.1 | none => (s.circuits.find? (namesEntry k)).map Prod.fst) = _
  cases s.circuits.find? (fun p => namesEntry k p && p.2.st != 6) <;> rfl

theorem State.tfind_named {s : State} {k : Packet} {e : Nat} (named : s.named k = some e) : tfind s.circuits e = some (s.circuit e) := by
  have listed : ∃ q ∈ s.circuits, q.1 = e := by
    rw [State.named_eq, Option.or_eq_some_iff] at named
    rcases named with h | ⟨-, h⟩ <;>
    · obtain ⟨q, hq, rfl⟩ := Option.map_eq_some_iff.mp h
      exact ⟨q, List.mem_of_find?_eq_some hq, rfl⟩
  obtain ⟨q, hq, rfl⟩ := listed
  obtain ⟨c, h⟩ := exists_tfind_of_mem hq
  simp [State.circuit, tget, h]

/-- An entry that a packet names is named whether or not it has missed a slot. -/
theorem State.named_unmiss {s : State} {k : Packet} {e : Nat} (named : s.named k = some e) : (s.unmiss e).named k = some e := by
  have listed := State.tfind_named named
  rcases s.unmiss_eq e with h | ⟨g, b, h⟩
  · rwa [h]
  have circuits : (s.unmiss e).circuits = tset s.circuits e { s.circuit e with missAt := none } := by rw [h]; rfl
  rw [State.named_eq, Option.or_eq_some_iff] at named ⊢
  rw [circuits]
  refine named.imp (find?_tset_same listed rfl) fun ⟨used, failed⟩ => ⟨?_, find?_tset_same listed rfl failed⟩
  exact Option.map_eq_none_iff.mpr (find?_tset_none listed rfl (Option.map_eq_none_iff.mp used))

/-- TACK goes back towards hop `hop` (R64, R65). -/
def State.tacked (s : State) (k : Packet) (hop : Nat) : State :=
  s.sendPacket (s.packet 2 5 (field k.body (32 + 4 * hop) 4 / 2 ^ 20) 0
    (k.body.take 1 ++ leBytes 1 hop ++ (k.body.drop 2).take 1 ++ leBytes 1 0 ++ k.body.drop 4))

/-- What a TEAR makes of an entry, by its state: the table of R71. -/
def State.torn (s : State) (e code : Nat) : State :=
  let c := s.circuit e
  let p := c.port.toNat
  match c.st.toNat with
  | 1 => s.moveEntry e { c with st := 6, status := 7 }
  | 3 =>
    if code == 0 then ((s.setCircuit e { c with freeOnDark := true }).writeTarget p 0).freeIfDark p
    else (s.moveEntry e { c with st := 6, status := 7 }).writeTarget p 0
  | 4 =>
    if code == 0 then
      ((s.moveEntry e { c with st := 5, freeOnDark := true, tearPending := false, slotOpen := false }).writeTarget p 0).freeIfDark p
    else (s.moveEntry e { c with st := 6, status := 7, slotOpen := false }).writeTarget p 0
  | _ => s

section
variable {s : State} {e code : Nat}

theorem State.torn_requested (h : (s.circuit e).st = 1) : s.torn e code = s.moveEntry e { s.circuit e with st := 6, status := 7 } := by
  simp only [State.torn, h]
  rfl

theorem State.torn_over (h : (s.circuit e).st = 2 ∨ (s.circuit e).st = 5 ∨ (s.circuit e).st = 6) : s.torn e code = s := by
  rcases h with h | h | h <;> simp only [State.torn, h] <;> rfl

section
variable {p : Nat} (hp : (s.circuit e).port.toNat = p)
include hp

theorem State.torn_reserved (h : (s.circuit e).st = 3) : s.torn e code =
    if code = 0 then ((s.setCircuit e { s.circuit e with freeOnDark := true }).writeTarget p 0).freeIfDark p
    else (s.moveEntry e { s.circuit e with st := 6, status := 7 }).writeTarget p 0 := by
  simp only [State.torn, h, beq_iff_eq, hp]
  rfl

theorem State.torn_live (h : (s.circuit e).st = 4) : s.torn e code =
    if code = 0 then
      ((s.moveEntry e { s.circuit e with st := 5, freeOnDark := true, tearPending := false, slotOpen := false }).writeTarget p 0).freeIfDark p
    else (s.moveEntry e { s.circuit e with st := 6, status := 7, slotOpen := false }).writeTarget p 0 := by
  simp only [State.torn, h, beq_iff_eq, hp]
  rfl

end

end

/-- The state in which a TEAR acts on entry `e`: the packet is received, and a slot missed in this cycle is not (R80). -/
def State.tearTaken (s : State) (l : Nat) (k : Packet) (e : Nat) : State := (s.received l k).unmiss e

section
variable (s : State) (l : Nat) (k : Packet) (e : Nat)

theorem State.Entry.tearTaken : State.Entry e s (s.tearTaken l k e) := (State.Entry.of_plane (.received s l k)).trans (.unmiss _ e)

theorem State.circuit_tearTaken :
    (s.tearTaken l k e).circuit e = { s.circuit e with missAt := ((s.tearTaken l k e).circuit e).missAt } := by
  have h := (s.received l k).circuit_unmiss e
  rwa [State.circuit_received] at h

theorem State.st_tearTaken : ((s.tearTaken l k e).circuit e).st = (s.circuit e).st := by rw [State.circuit_tearTaken]

theorem State.port_circuit_tearTaken : ((s.tearTaken l k e).circuit e).port.toNat = (s.circuit e).port.toNat := by
  rw [State.circuit_tearTaken]

theorem State.restsDark_tearTaken (p : Nat) : (s.tearTaken l k e).restsDark p ↔ s.restsDark p :=
  State.restsDark_of_port ((State.port_unmiss ..).trans ((State.Plane.received s l k).port p))

end

theorem State.Plane.tacked (s : State) (k : Packet) (hop : Nat) : s.Plane (s.tacked k hop) := .sendPacket ..

section
variable {l : BitVec 3} {k : Packet} {s : State} (takes : s.linkTakes l.toNat k = true) (ctl : s.ctlFor k 4 = true)
include takes ctl

theorem exec_tear_unknown (named : s.named k = none) : exec (.tear l k) s = .next ((s.received l.toNat k).tacked k
    (if field k.body 6 2 ≤ field k.body 1 1 then field k.body 6 2 - 1 else 0)) := by
  change execTear l k s = _
  simp only [execTear, State.receive_ctl takes ctl, State.tearHop, State.named_received, named]
  rfl

theorem exec_tear {e : Nat} (named : s.named k = some e) : exec (.tear l k) s = .next
    (((s.tearTaken l.toNat k e).torn e (field k.body 3 1)).tacked k (if (s.circuit e).side = true then field k.body 6 2 - 1 else 0)) := by
  change execTear l k s = _
  simp only [execTear, State.receive_ctl takes ctl, State.tearHop, State.named_received, named, State.circuit_received, State.named_unmiss
    ((s.named_received l.toNat k).trans named)]
  rfl

theorem tear_row {e : Nat} (named : s.named k = some e) {z : State} (row : (s.tearTaken l.toNat k e).torn e (field k.body 3 1) = z) :
    Ends (.tear l k) s (fun t => t = z.tacked k (if (s.circuit e).side = true then field k.body 6 2 - 1 else 0)) :=
  ⟨_, exec_tear takes ctl named, by rw [row]⟩

/-- A TEAR that changes no other entry. -/
theorem tear_ends {e : Nat} (named : s.named k = some e) {z : State} (row : (s.tearTaken l.toNat k e).torn e (field k.body 3 1) = z)
    (only : State.Entry e (s.tearTaken l.toNat k e) z) {P : Circuit → Prop} (hP : P (z.circuit e)) : EntryEnds (.tear l k) s e (fun v _ => P v) := by
  obtain ⟨t, run, rfl⟩ := tear_row takes ctl named row
  have sent : z.Plane (z.tacked k (if (s.circuit e).side = true then field k.body 6 2 - 1 else 0)) := .sendPacket ..
  exact (((State.Entry.tearTaken s l.toNat k e).trans only).trans (.of_plane sent)).ends run (by rwa [sent.circuit])

variable {e : Nat} (named : s.named k = some e)
include named

/-- What waits for no port fails with STATUS 7 on a TEAR that says so. -/
theorem tear_fails (h : (s.circuit e).st = 1 ∨ (s.circuit e).st = 3 ∧ field k.body 3 1 ≠ 0 ∨ (s.circuit e).st = 4 ∧ field k.body 3 1 ≠ 0) :
    EntryEnds (.tear l k) s e (fun v _ => v.st = 6 ∧ v.status = 7) := by
  have st := s.st_tearTaken l.toNat k e
  have hp := s.port_circuit_tearTaken l.toNat k e
  rcases h with h | ⟨h, lost⟩ | ⟨h, lost⟩
  · exact tear_ends takes ctl named (State.torn_requested (st.trans h)) (.moveEntry ..) (by simp)
  · exact tear_ends takes ctl named ((State.torn_reserved hp (st.trans h)).trans (if_neg lost)) ((State.Entry.moveEntry ..).trans (.writeTarget ..))
      (by simp)
  · exact tear_ends takes ctl named ((State.torn_live hp (st.trans h)).trans (if_neg lost)) ((State.Entry.moveEntry ..).trans (.writeTarget ..))
      (by simp)

/-- BACKOFF, RELEASING and FAILED: a TEAR does not act. -/
theorem tear_stays (h : (s.circuit e).st = 2 ∨ (s.circuit e).st = 5 ∨ (s.circuit e).st = 6) :
    EntryEnds (.tear l k) s e (fun v _ => v = { s.circuit e with missAt := v.missAt }) :=
  tear_ends takes ctl named (State.torn_over (by rwa [State.st_tearTaken])) (.refl _) (State.circuit_tearTaken ..)

variable (released : field k.body 3 1 = 0)
include released

theorem tear_releases (live : (s.circuit e).st = 4) (busy : ¬ s.restsDark (s.circuit e).port.toNat) :
    EntryEnds (.tear l k) s e (fun v _ => v.st = 5 ∧ v.freeOnDark = true) := by
  have row := State.torn_live (code := field k.body 3 1) (s.port_circuit_tearTaken l.toNat k e) ((s.st_tearTaken l.toNat k e).trans live)
  rw [if_pos released, State.writeTarget_busy] at row
  · exact tear_ends takes ctl named row ((State.Entry.moveEntry ..).trans (.writeTarget ..)) (by simp)
  · rwa [State.restsDark_of_port (State.port_of_kept (State.kept_moveEntry ..) _), State.restsDark_tearTaken]

theorem tear_waits (reserved : (s.circuit e).st = 3) (busy : ¬ s.restsDark (s.circuit e).port.toNat) :
    EntryEnds (.tear l k) s e (fun v _ => v.st = 3 ∧ v.freeOnDark = true) := by
  have st := (s.st_tearTaken l.toNat k e).trans reserved
  have row := State.torn_reserved (code := field k.body 3 1) (s.port_circuit_tearTaken l.toNat k e) st
  rw [if_pos released, State.writeTarget_busy] at row
  · exact tear_ends takes ctl named row ((State.Entry.setCircuit ..).trans (.writeTarget ..)) (by simp [st])
  · rwa [State.restsDark_of_port (State.port_setCircuit ..), State.restsDark_tearTaken]

/-- An entry whose port is DARK is FREE at once. -/
theorem tear_frees (used : (s.circuit e).st = 3 ∨ (s.circuit e).st = 4) (dark : s.restsDark (s.circuit e).port.toNat) :
    Ends (.tear l k) s (fun t => t.mem = s.mem ∧ (t.circuit e).st = 0) := by
  have st := s.st_tearTaken l.toNat k e
  have frees {w : State} {c : Circuit} (row : (s.tearTaken l.toNat k e).torn e (field k.body 3 1) =
      (w.writeTarget (s.circuit e).port.toNat 0).freeIfDark (s.circuit e).port.toNat) (only : State.Entry e (s.tearTaken l.toNat k e) w)
      (ports : w.port (s.circuit e).port.toNat = (s.tearTaken l.toNat k e).port (s.circuit e).port.toNat)
      (hw : w.circuits = tset (s.tearTaken l.toNat k e).circuits e c) (hp : c.port.toNat = (s.circuit e).port.toNat) (waits : c.freeOnDark = true) :
      Ends (.tear l k) s (fun t => t.mem = s.mem ∧ (t.circuit e).st = 0) := by
    obtain ⟨t, run, rfl⟩ := tear_row takes ctl named row
    obtain ⟨free, frame⟩ := State.writeTarget_frees (hw ▸ mem_tset_self ..) hp waits
      ((State.restsDark_of_port ports).mpr ((s.restsDark_tearTaken l.toNat k e _).mpr dark))
    have sent := State.Plane.tacked ((w.writeTarget (s.circuit e).port.toNat 0).freeIfDark (s.circuit e).port.toNat) k
      (if (s.circuit e).side = true then field k.body 6 2 - 1 else 0)
    refine ⟨_, run, ?_, by rw [sent.circuit]; exact free⟩
    have kept := (State.Entry.of_plane (e := e) sent).frame.trans (frame.trans (only.frame.trans (State.Entry.tearTaken s l.toNat k e).frame))
    exact (State.same_of_frame kept).1
  have hp := s.port_circuit_tearTaken l.toNat k e
  rcases used with h | h
  · exact frees ((State.torn_reserved hp (st.trans h)).trans (if_pos released)) (.setCircuit ..) rfl rfl hp rfl
  · exact frees ((State.torn_live hp (st.trans h)).trans (if_pos released)) (.moveEntry ..) (State.port_of_kept (State.kept_moveEntry ..) _)
      (State.circuits_moveEntry ..) hp rfl

end

end Sys2Proof.Machine
end

