-- ==== Sys2Proof/Proofs/CircuitSlots.lean ====
section
/-! PROOF. The RSV that a requester sends (R65, R68, R109), the write of OPCTL (R66), slots and drain windows (R76, R77, R80). -/

namespace Sys2Proof.Machine

open Sys2Proof.Claims

/-! The RSV that is sent (R65, R109) -/

/-- Bits [31:20] of a route word: the FDID of its hop (R64). -/
theorem bits_route (w : Word) : bits w.toNat 31 20 = w.toNat / 2 ^ 20 := by
  have := w.isLt
  simp only [bits, Nat.shiftRight_eq_div_pow]
  exact Nat.mod_eq_of_lt (by omega)

/-- An entry that asks once more. -/
def Circuit.asked (c : Circuit) (now : Nat) (x : BitVec 6) : Circuit :=
  { c with st := 1, attempts := satInc c.attempts, sentAt := now, reqEntry := x, side := false }

/-- RSV of an entry that has asked, to its first hop (R65). -/
def State.rsvSent (s : State) (c : Circuit) (x : BitVec 6) (now : Nat) : State :=
  s.sendPacket (s.packet 2 1 ((c.route.getD 0 0).toNat / 2 ^ 20) 0 (leBytes 1 x.toNat ++ leBytes 1 0 ++ leBytes 1 c.grpmask.toNat ++
    leBytes 1 0 ++ leBytes 1 c.port.toNat ++ leBytes 1 c.peerport.toNat ++ leBytes 2 c.hopcnt.toNat ++ leBytes 8 (now % 2 ^ 64) ++
    List.replicate 16 0 ++ c.route.flatMap (fun w => leBytes 4 w.toNat)))

theorem State.Plane.rsvSent (s : State) (c : Circuit) (x : BitVec 6) (now : Nat) : s.Plane (s.rsvSent c x now) := .sendPacket ..

theorem State.sendRsv_eq (s : State) (x : BitVec 6) : s.sendRsv x.toNat =
    ((s.moveEntry x.toNat ((s.circuit x.toNat).asked s.now x)).rsvSent (s.circuit x.toNat) x s.now).atTime (s.now + 500000)
      (.rsvAttemptTimeout x) := by
  have hx : BitVec.ofNat 6 x.toNat = x := by simp
  have sent (u : State) (hu : u.circuit x.toNat = (s.circuit x.toNat).asked s.now x) :
      u.sendCtl x.toNat 1 0 (BitVec.ofNat 64 s.now) = u.rsvSent (s.circuit x.toNat) x s.now := by
    simp only [State.sendCtl, hu, Circuit.asked, bits_route, BitVec.toNat_ofNat]
    rfl
  have now (u : State) : (u.rsvSent (s.circuit x.toNat) x s.now).now = u.now := (State.Plane.rsvSent ..).now
  simp only [State.sendRsv, hx]
  rw [← Circuit.asked, State.now_moveEntry, sent _ (State.circuit_moveEntry ..), State.after, now, State.now_moveEntry]

theorem sendRsv_ends {i : Instr} {s : State} {x : BitVec 6} (run : exec i s = .next (s.sendRsv x.toNat)) :
    EntryEnds i s x.toNat (fun v t => v = (s.circuit x.toNat).asked s.now x ∧ (⟨s.now + 500000, .rsvAttemptTimeout x⟩ : Timer) ∈ t.timers ∧
      t = ((s.moveEntry x.toNat v).rsvSent (s.circuit x.toNat) x s.now).atTime (s.now + 500000) (.rsvAttemptTimeout x)) := by
  rw [State.sendRsv_eq] at run
  have moved := State.Entry.moveEntry (e := x.toNat) s ((s.circuit x.toNat).asked s.now x)
  have sent := State.Plane.rsvSent (s.moveEntry x.toNat ((s.circuit x.toNat).asked s.now x)) (s.circuit x.toNat) x s.now
  have v := (sent.circuit x.toNat).trans (State.circuit_moveEntry ..)
  refine ((moved.trans (.of_plane sent)).trans (.atTime _ _ _)).ends run ⟨v, List.mem_append_right _ (List.mem_singleton.mpr rfl), ?_⟩
  exact congrArg (fun c => ((s.moveEntry x.toNat c).rsvSent (s.circuit x.toNat) x s.now).atTime (s.now + 500000) (.rsvAttemptTimeout x)) v.symm

theorem tearTimeout_frees {s : State} {x : BitVec 6} (releasing : (s.circuit x.toNat).st = 5) (sent : (s.circuit x.toNat).tearPending = false)
    (waits : (s.circuit x.toNat).freeOnDark = false) (past : (s.circuit x.toNat).due ≤ s.now) :
    EntryEnds (.tearTimeout x) s x.toNat (fun v _ => v = { s.circuit x.toNat with st := 0 }) := by
  have run : exec (.tearTimeout x) s = .next (s.moveEntry x.toNat { s.circuit x.toNat with st := 0 }) :=
    if_pos (by simp [State.past, releasing, sent, waits, past])
  exact (State.Entry.moveEntry ..).ends run (State.circuit_moveEntry ..)

/-! The write of OPCTL (R66, R71) -/

/-- A DARK port that is told its groups and to be LIVE wakes with them. -/
theorem State.writes_wake {s : State} {p : Nat} {g : BitVec 4} (dark : (s.port p).st = 0) (idle : (s.port p).trans = none)
    (off : (s.port p).target = 0) (up : (s.port p).down = false) (lit : s.elsOk p = true) (ok : grpOk g = true) :
    (s.writeGrp p g).writeTarget p 2 = (s.setPort p { s.port p with
      grpmask := g, target := 2, targetAt := s.now, trans := some (1, s.now + 3000) }).after 3000 (.laserWakeDone (BitVec.ofNat 5 p)) := by
  by_cases same : g = (s.port p).grpmask
  · subst same
    rw [State.writeGrp_same rfl, State.writeTarget_wakes idle up dark off ok lit (.inr rfl)]
  · have wakes := State.writeTarget_wakes (s := s.setPort p { s.port p with grpmask := g }) (p := p) (v := 2)
    simp only [State.port_setPort, State.setPort_setPort] at wakes
    rw [State.writeGrp_dark same ok dark (.inr off), wakes idle up dark off ok lit (.inr trivial)]
    rfl

section
variable {s : State} {x : BitVec 6} (reserved : (s.circuit x.toNat).st = 3) (stays : (s.circuit x.toNat).freeOnDark = false)
  (due : (s.circuit x.toNat).due ≤ s.now)
include reserved stays due

theorem exec_circuitPortWrite : exec (.circuitPortWrite x) s = .next
    (if s.elsOk (s.circuit x.toNat).port.toNat = false ∨ (s.port (s.circuit x.toNat).port.toNat).down = true then
      (s.writeTarget (s.circuit x.toNat).port.toNat 2).failEntry x.toNat 6 true
    else (s.writeGrp (s.circuit x.toNat).port.toNat (s.circuit x.toNat).grpmask).writeTarget (s.circuit x.toNat).port.toNat 2) := by
  change execCircuitPortWrite x s = _
  simp only [execCircuitPortWrite]
  rw [if_neg (by simp [reserved, stays, State.past, due])]
  simp only [Bool.or_eq_true, Bool.not_eq_true']
  split <;> rfl

/-- Without light or with its engine down the port refuses, and the entry fails. -/
theorem circuitPortWrite_fails (refused : s.elsOk (s.circuit x.toNat).port.toNat = false ∨ (s.port (s.circuit x.toNat).port.toNat).down = true) :
    EntryEnds (.circuitPortWrite x) s x.toNat (fun v _ => v.st = 6 ∧ v.status = 6) := by
  have run := exec_circuitPortWrite reserved stays due
  rw [if_pos refused] at run
  have failed := (State.circuit_of_circuits ((s.writeTarget (s.circuit x.toNat).port.toNat 2).circuits_failEntry x.toNat 6 true) x.toNat).trans
    (State.circuit_setCircuit (s.writeTarget (s.circuit x.toNat).port.toNat 2) x.toNat _)
  exact ((State.Entry.writeTarget ..).trans (.failEntry ..)).ends run ⟨(congrArg Circuit.st failed :), (congrArg Circuit.status failed :)⟩

/-- A DARK port wakes with the entry's groups. -/
theorem circuitPortWrite_wakes (lit : s.elsOk (s.circuit x.toNat).port.toNat = true)
    (up : (s.port (s.circuit x.toNat).port.toNat).down = false) (dark : (s.port (s.circuit x.toNat).port.toNat).st = 0)
    (idle : (s.port (s.circuit x.toNat).port.toNat).trans = none) (off : (s.port (s.circuit x.toNat).port.toNat).target = 0)
    (ok : grpOk (s.circuit x.toNat).grpmask = true) : EntryEnds (.circuitPortWrite x) s x.toNat (fun v t => v = s.circuit x.toNat ∧
      t.port (s.circuit x.toNat).port.toNat = { s.port (s.circuit x.toNat).port.toNat with
        grpmask := (s.circuit x.toNat).grpmask, target := 2, targetAt := s.now, trans := some (1, s.now + 3000) }) := by
  have run := exec_circuitPortWrite reserved stays due
  rw [if_neg (by simp [lit, up]), State.writes_wake dark idle off up lit ok] at run
  exact ((State.Entry.setPort ..).trans (.after ..)).ends run ⟨rfl, State.port_setPort ..⟩

end

/-! Slots and drain windows (R76, R77, R80) -/

/-- An entry whose slot starts now and is not opened (R80). -/
def State.missedEntry (s : State) (e : Nat) : Circuit :=
  let c := s.circuit e
  { c with
    slotOpen := false, missed := some ((s.now - c.slotbase.toNat) / c.slotper.toNat), missAt := some s.now
    missWas := match s.otherMiss e with | some d => d.missWas | none => s.slotmiss }

section
variable {s : State} {x : BitVec 6} (used : (s.circuit x.toNat).st = 3 ∨ (s.circuit x.toNat).st = 4)
  (slotted : (s.circuit x.toNat).slotted = true) (period : (s.circuit x.toNat).slotper ≠ 0) (begun : (s.circuit x.toNat).slotbase.toNat ≤ s.now)
  (start : (s.now - (s.circuit x.toNat).slotbase.toNat) % (s.circuit x.toNat).slotper.toNat = 0)
include used slotted period begun start

/-- At the start of a slot, the next one armed: what the test of R80 makes of the entry. -/
theorem exec_slotStart : exec (.slotStart x) s = .next
    (if (s.circuit x.toNat).guard.toNat < s.errest.toNat then
      ({ (s.armSlot x.toNat).setCircuit x.toNat (s.missedEntry x.toNat) with slotmiss := true }.gEvent
        (s.circuit x.toNat).owner.toNat 4 (at_ x.toNat 48)).after (s.circuit x.toNat).slotlen.toNat (.slotUsablePartEnd x)
    else if (s.circuit x.toNat).st = 3 then (s.armSlot x.toNat).setCircuit x.toNat { s.circuit x.toNat with missed := none }
    else ((s.armSlot x.toNat).setCircuit x.toNat { s.circuit x.toNat with slotOpen := true, missed := none }).after
      ((s.circuit x.toNat).slotlen.toNat - (s.circuit x.toNat).guard.toNat) (.slotUsablePartEnd x)) := by
  change execSlotStart x s = _
  obtain ⟨tm, -, armed⟩ := s.armSlot_eq x.toNat
  have per : (s.circuit x.toNat).slotper.toNat ≠ 0 := fun h => period (BitVec.eq_of_toNat_eq h)
  simp only [execSlotStart]
  rw [if_neg (by rcases used with h | h <;> simp [h, slotted, per, begun]), if_neg (by simp [start]), armed]
  simp only [beq_iff_eq]
  split
  · rfl
  split <;> rfl

end

theorem exec_slotUsablePartEnd {s : State} {x : BitVec 6} (opened : (s.circuit x.toNat).slotOpen = true)
    (past : s.inSlot (s.circuit x.toNat) = false) :
    exec (.slotUsablePartEnd x) s = .next (s.setCircuit x.toNat { s.circuit x.toNat with slotOpen := false }) :=
  if_pos (by simp [opened, past])

theorem exec_drainWindowEnd {s : State} {x : BitVec 6} {v : Nat} (window : (s.circuit x.toNat).window = some v) (past : v ≤ s.now) :
    exec (.drainWindowEnd x) s = .next (s.setCircuit x.toNat { s.circuit x.toNat with window := none }) := by
  change execDrainWindowEnd x s = _
  simp only [execDrainWindowEnd, window]
  rw [if_pos (by simpa [State.past] using past)]

/-- A post to a thread's queue changes the threads only (R98). -/
theorem State.gEvent_eq (s : State) (t kind fields : Nat) : s.gEvent t kind fields = { s with gaffer := (s.gEvent t kind fields).gaffer } := by
  simp only [State.gEvent]
  split
  · rfl
  split <;> rfl

/-- The clauses on slots and drain windows. -/
theorem circuitSlots : CircuitSlots := by
  intro x s c only
  refine ⟨fun used slotted period begun start => ?_, fun opened past => ⟨_, exec_slotUsablePartEnd opened past, rfl⟩,
    fun v window past => ⟨_, exec_drainWindowEnd window past, rfl⟩⟩
  have run := exec_slotStart used slotted period begun start
  obtain ⟨tm, -, armed⟩ := s.armSlot_eq x.toNat
  have set (u : State) (hu : u.circuits = s.circuits) (v : Circuit) : only (u.setCircuit x.toNat v) v :=
    ⟨State.circuit_setCircuit .., fun n hn => (State.circuit_setCircuit_ne u x.toNat v hn).trans (State.circuit_of_circuits hu n)⟩
  have same := State.circuits_of_aside (s.aside_armSlot x.toNat)
  refine ⟨fun reserved clear => ?_, fun live clear => ?_, fun unclear => ?_⟩
  · rw [if_neg (Nat.not_lt.mpr clear), if_pos reserved] at run
    exact ⟨_, run, set _ same _, by rw [armed]; rfl⟩
  · rw [if_neg (Nat.not_lt.mpr clear), if_neg (by rw [live]; decide)] at run
    refine ⟨_, run, set _ same _, by rw [armed]; rfl, ?_⟩
    rw [armed]
    exact State.mem_timers_after ..
  · rw [if_pos unclear, State.gEvent_eq, armed] at run
    have noOther (calm : ∀ q ∈ s.circuits, q.2.missAt ≠ some s.now) : s.otherMiss x.toNat = none := by
      rw [State.otherMiss, List.find?_eq_none.mpr fun q hq => by simp [calm q hq]]
      rfl
    obtain ⟨missed, others⟩ := set { s with timers := tm } rfl (s.missedEntry x.toNat)
    have was := congrArg Circuit.missWas missed
    refine ⟨_, run, ⟨missed.trans ?_, others⟩, fun calm => was.trans ?_, rfl⟩
    · exact congrArg (fun w => { s.missedEntry x.toNat with missWas := w }) was.symm
    · simp only [State.missedEntry, noOther calm]

end Sys2Proof.Machine
end

