-- ==== Sys2Proof/Proofs/CircuitsAndSlots.lean ====
section
/-! PROOF. The clauses on requests and answers (R64 to R68, R71, R109), and the settling of the obligation on circuits and slots. -/

namespace Sys2Proof.Machine

open Sys2Proof.Claims

theorem circuitRequests : CircuitRequests := by
  intro l k x e s b c y s0 ctl to_ ready hops code dark back tack backs sends p
  refine ⟨fun ⟨takes, here⟩ other => ⟨_, exec_rsv_otherVersion takes here other, rfl⟩,
    fun ⟨takes, here⟩ same mine lower => ⟨_, exec_rsv_crossed takes here same mine lower, rfl⟩,
    fun ⟨takes, here⟩ same unused => ?rsv, fun ⟨takes, here⟩ named asks mine => ack_reserves takes named here asks mine,
    fun ⟨takes, here⟩ named asks mine => ?deny, fun asks late => ?late, fun waits past => ⟨fun again => ?again, fun first => ?first⟩,
    fun ⟨takes, here⟩ named => ?tear, fun ⟨takes, here⟩ named => ⟨_, exec_tear_unknown takes here named, rfl⟩,
    fun ⟨takes, here⟩ named releasing waits sent => tack_frees takes named here releasing waits sent,
    fun releasing sent waits past => tearTimeout_frees releasing sent waits past,
    fun reserved waits past => ⟨fun refused => circuitPortWrite_fails reserved waits past refused, fun lit up dark idle off ok => circuitPortWrite_wakes reserved waits past lit up dark idle off ok⟩⟩
  case rsv =>
    refine ⟨fun full => ⟨_, exec_rsv_full takes here same unused full, rfl⟩, fun free dark => ?_⟩
    exact rsv_reserves (exec_rsv_accepted takes here same unused free dark)
  case deny => exact backOff_ends (exec_deny takes named here asks mine) (State.Plane.received s l.toNat k).aside rfl
  case late =>
    have run : exec (.rsvAttemptTimeout x) s = .next ((s.sendCtl x.toNat 4 4 0).backOff x.toNat 4) :=
      if_pos (by simpa [State.past] using ⟨asks, late⟩)
    exact backOff_ends run (State.aside_sendCtl ..) rfl
  case again => exact sendRsv_ends (if_pos (by simpa [State.past] using ⟨⟨waits, again⟩, past⟩))
  case first => exact sendRsv_ends (if_pos (by simpa [State.past] using ⟨⟨waits, first⟩, past⟩))
  case tear =>
    intro hop u v port row
    have st : v.st = c.st := s.st_tearTaken l.toNat k e
    have hp : v.port.toNat = port := s.port_circuit_tearTaken l.toNat k e
    have plane := State.Plane.received s l.toNat k
    exact ⟨fun h => State.unmiss_same (by rwa [State.circuit_received, plane.now]), s.circuit_tearTaken l.toNat k e,
      fun h => tear_row takes here named (State.torn_requested (st.trans h)),
      fun h => tear_row takes here named (State.torn_over (st.symm ▸ h)),
      fun h released => tear_row takes here named ((State.torn_reserved hp (st.trans h)).trans (if_pos released)),
      fun h lost => tear_row takes here named ((State.torn_reserved hp (st.trans h)).trans (if_neg lost)),
      fun h released => tear_row takes here named ((State.torn_live hp (st.trans h)).trans (if_pos released)),
      fun h lost => tear_row takes here named ((State.torn_live hp (st.trans h)).trans (if_neg lost)),
      fun h => tear_fails takes here named h, fun h => tear_stays takes here named h,
      fun live released busy => tear_releases takes here named released live busy,
      fun reserved released busy => tear_waits takes here named released reserved busy,
      fun used released dark => tear_frees takes here named released used dark⟩

/-- Settles O39: requests and answers by the entry that each event leaves, slots and drain windows by the test at their start. -/
theorem circuitsAndSlots : Obligations.CircuitsAndSlots := ⟨circuitRequests, circuitSlots⟩

end Sys2Proof.Machine
end

