-- ==== Sys2Proof/Proofs/PacketsThroughTheSwitch.lean ====
section
/-! PROOF. Packets through the switch: forwarding, notices, credits and replay, and the FDID (R57, R58, R60, R61, R75, R84, R494). -/

namespace Sys2Proof.Machine

open Sys2Proof.Claims

/-- A link on which nothing waits sends nothing. -/
theorem State.pump_idle {s : State} {l : Nat} (h : (s.link l).waiting = []) : s.pump l = s := by rw [State.pump, h]; rfl

/-! Link replay and forwarding (R57, R58, R61) -/

section
variable {s : State} {l : Nat} {k : Packet}

/-- An accepted packet's number is acknowledged in the control stream. -/
theorem State.took_numbered {q : BitVec 16} (h : k.lseq = some q) : s.took l k = { s.setLink l { s.link l with rxSeq := q, nak := false } with
    outCtl := s.outCtl ++ [(l, 0, ⟨0, q, false⟩)] } := by
  simp [State.took, h, State.control]

theorem State.epdrop_took : (s.took l k).epdrop = s.epdrop := by
  unfold State.took
  split <;> rfl

theorem State.epdrop_freed : (s.freed l k).epdrop = s.epdrop := by
  unfold State.freed
  split <;> rfl

/-- A packet that breaks no rule of its header (R58). -/
def headerOk (k : Packet) : Prop := pktShapeOk k = true ∧ pktReservedOk k = true ∧ k.hops.toNat ≠ 15

theorem headerOk_iff (k : Packet) : (!pktShapeOk k || !pktReservedOk k || k.hops.toNat == 15) = true ↔ ¬ headerOk k := by
  simp only [headerOk, Bool.or_eq_true, Bool.not_eq_true', beq_iff_eq]
  cases pktShapeOk k <;> cases pktReservedOk k <;> simp

theorem isEcho_iff : isEcho k = true ↔ k.cls = 1 ∧ (k.typ = 2 ∨ k.typ = 3) := by simp [isEcho]

/-- An accepted packet is discarded: its credits go back, and it is counted. -/
def State.discarded (s : State) (l : Nat) (k : Packet) : State := ((s.took l k).freed l k).epDrop

theorem State.discarded_eq : s.discarded l k = { (s.took l k).freed l k with epdrop := satInc s.epdrop } := by
  rw [State.discarded, State.epDrop, State.epdrop_freed, State.epdrop_took]

end

/-- The route table is read as it stood before the packet came. -/
theorem State.routeTo_took (s : State) (l : Nat) (k : Packet) (dst : Nat) (inl : Option Nat) :
    (s.took l k).routeTo dst inl = s.routeTo dst inl := by
  have route : (s.took l k).route = s.route := (congrArg State.route (State.Plane.took s l k).rest :)
  unfold State.routeTo
  rw [route]

/-- A route leads on over its link, unless that is the link that the packet came over. -/
theorem State.routeTo_of_route {s : State} {dst : Nat} {o : BitVec 3} (h : tfind s.route dst = some (true, o)) (l : Nat) :
    s.routeTo dst (some l) = if l = o.toNat then none else some o.toNat := by
  simp [State.routeTo, h]

theorem State.routeTo_of_no_route {s : State} {dst : Nat} (h : ∀ o, tfind s.route dst ≠ some (true, o)) (inl : Option Nat) :
    s.routeTo dst inl = none := by
  unfold State.routeTo
  split
  next o ho => exact absurd ho (h o)
  next => rfl

section
variable {s : State} {l : BitVec 3} {k : Packet} (valid : s.fdidValid = true)
include valid

theorem exec_packetForward_broken (takes : s.linkTakes l.toNat k = true) (broken : ¬ headerOk k) :
    exec (.packetForward l k) s = .next (s.discarded l.toNat k) := by
  change execPacketForward l k s = _
  have bad := (headerOk_iff k).mpr broken
  have valid' := (State.Plane.took s l.toNat k).fdidValid.trans valid
  simp only [execPacketForward, bad]
  rw [if_neg (by simp), if_neg (by simp [takes]), if_neg (by simp [valid']), if_pos trivial]
  rfl

variable (good : headerOk k) (away : k.dst.toNat % 4096 ≠ s.fdid.toNat) (single : k.dst.toNat % 4096 ≠ 0xFFF)
  (noEcho : ¬(k.cls = 1 ∧ (k.typ = 2 ∨ k.typ = 3)))
include good away single noEcho

theorem exec_packetForward : exec (.packetForward l k) s = .next (if s.linkTakes l.toNat k = true then
      match (s.took l.toNat k).routeTo (k.dst.toNat % 4096) (some l.toNat) with
      | some o => (s.took l.toNat k).toLink o { k with hops := k.hops + 1 } (some l.toNat)
      | none => s.discarded l.toNat k
    else s.linkRefuse l.toNat) := by
  change execPacketForward l k s = _
  have fine : (!pktShapeOk k || !pktReservedOk k || k.hops.toNat == 15) = false :=
    Bool.eq_false_iff.mpr fun h => (headerOk_iff k).mp h good
  have echo : isEcho k = false := Bool.eq_false_iff.mpr fun h => noEcho (isEcho_iff.mp h)
  have valid' := (State.Plane.took s l.toNat k).fdidValid.trans valid
  simp only [execPacketForward, fine, echo]
  rw [if_neg (by simp [away, single])]
  cases takes : s.linkTakes l.toNat k
  · rfl
  · rw [if_neg (by simp), if_neg (by simp [valid']), if_neg (by simp), if_pos rfl]
    cases (s.took l.toNat k).routeTo (k.dst.toNat % 4096) (some l.toNat) <;> rfl

theorem packetForward_goes (takes : s.linkTakes l.toNat k = true) {o : BitVec 3} (route : tfind s.route (k.dst.toNat % 4096) = some (true, o))
    (on : o ≠ l) : exec (.packetForward l k) s = .next ((s.took l.toNat k).toLink o.toNat { k with hops := k.hops + 1 } (some l.toNat)) := by
  have other : ¬ l.toNat = o.toNat := fun h => on (BitVec.eq_of_toNat_eq h.symm)
  rw [exec_packetForward valid good away single noEcho, if_pos takes, State.routeTo_took, State.routeTo_of_route route, if_neg other]

/-- A packet does not go back on the link that it came over, nor to a device without a route. -/
theorem packetForward_drops (takes : s.linkTakes l.toNat k = true)
    (nowhere : (∀ o, tfind s.route (k.dst.toNat % 4096) ≠ some (true, o)) ∨ tfind s.route (k.dst.toNat % 4096) = some (true, l)) :
    exec (.packetForward l k) s = .next (s.discarded l.toNat k) := by
  have stays : (s.took l.toNat k).routeTo (k.dst.toNat % 4096) (some l.toNat) = none := by
    rw [State.routeTo_took]
    rcases nowhere with h | h
    · exact State.routeTo_of_no_route h _
    · rw [State.routeTo_of_route h, if_pos rfl]
  rw [exec_packetForward valid good away single noEcho, if_pos takes, stays]

theorem packetForward_refuses (takes : s.linkTakes l.toNat k = false) : exec (.packetForward l k) s = .next (s.linkRefuse l.toNat) := by
  rw [exec_packetForward valid good away single noEcho, if_neg (by simp [takes])]

end

/-! Notices (R75, R84) -/

/-- The state but for the script threads. -/
def State.offThreads (s : State) : State := { s with gaffer := [] }

section
variable {s t : State} (h : t.offThreads = s.offThreads)
include h

theorem State.mem_of_offThreads : t.mem = s.mem := (congrArg State.mem h :)
theorem State.cores_of_offThreads : t.cores = s.cores := (congrArg State.cores h :)
theorem State.circuits_of_offThreads : t.circuits = s.circuits := (congrArg State.circuits h :)
theorem State.tverseen_of_offThreads : t.tverseen = s.tverseen := (congrArg State.tverseen h :)

end

/-- Posts to every thread change the threads only (R98). -/
theorem State.offThreads_gEventAll (s : State) (kind fields : Nat) : (s.gEventAll kind fields).offThreads = s.offThreads :=
  State.each_same State.offThreads _ (fun t n => by rw [State.gEvent_eq]; rfl) _ s

/-- The entries to a device that is down fail (R84). -/
def State.peerLost (s : State) (f : Nat) : State :=
  s.each ((s.circuits.filter (fun e => e.2.peerdev.toNat == f && (e.2.st == 3 || e.2.st == 4))).map (fun e => e.1))
    (fun s e => s.failEntry e 7 true)

theorem State.kept_peerLost (s : State) (f : Nat) : (s.peerLost f).kept = s.kept :=
  State.each_same State.kept _ (fun s e => s.kept_failEntry e 7 true) _ s

theorem State.circuit_failEntry (s : State) (e n : Nat) (v : BitVec 4) : (s.failEntry e v true).circuit n =
    if n = e then { s.circuit e with st := 6, status := v, slotOpen := false, window := none } else s.circuit n := by
  rw [State.circuit, s.circuits_failEntry e v true, tget_tset]
  rfl

theorem State.peerLost_fails {s : State} {f e : Nat} {c : Circuit} (he : (e, c) ∈ s.circuits) (peer : c.peerdev.toNat = f)
    (used : c.st = 3 ∨ c.st = 4) : ((s.peerLost f).circuit e).st = 6 ∧ ((s.peerLost f).circuit e).status = 7 := by
  refine State.each_reaches (P := fun t => (t.circuit e).st = 6 ∧ (t.circuit e).status = 7) (fun t n h => ?_) (fun t => ?_) (a := e) ?_ s
  · rw [State.circuit_failEntry]
    split
    · exact ⟨rfl, rfl⟩
    · exact h
  · rw [State.circuit_failEntry, if_pos rfl]
    exact ⟨rfl, rfl⟩
  · exact List.mem_map.mpr ⟨_, List.mem_filter.mpr ⟨he, by simpa [peer] using used⟩, rfl⟩

section
variable {l : BitVec 3} {k : Packet} {s : State} (takes : s.linkTakes l.toNat k = true)
include takes

theorem versionNotice_ends (here : s.delivered k 4 1 = true) (reserved : leNat (k.body.drop 2) = 0) : Ends (.versionNotice l k) s (fun t =>
    (t.mem = s.mem ∧ t.cores = s.cores) ∧ t.tverseen =
      if newer (BitVec.ofNat 16 (field k.body 0 2)) s.tverseen = true then BitVec.ofNat 16 (field k.body 0 2) else s.tverseen) := by
  have plane := State.Plane.received s l.toNat k
  obtain ⟨mem, cores, -, -⟩ := State.same_of_frame (State.Entry.of_plane (e := 0) plane).frame
  have seen : (s.received l.toNat k).tverseen = s.tverseen := (congrArg State.tverseen plane.rest :)
  have run : exec (.versionNotice l k) s = .next (if newer (BitVec.ofNat 16 (field k.body 0 2)) s.tverseen = true then
      { s.received l.toNat k with tverseen := BitVec.ofNat 16 (field k.body 0 2) }.gEventAll 5
        (at_ (BitVec.ofNat 16 (field k.body 0 2)).toNat 40) else s.received l.toNat k) := by
    change execVersionNotice l k s = _
    simp only [execVersionNotice, State.receive_taken takes here (beq_iff_eq.mpr reserved), seen]
    split <;> rfl
  refine ⟨_, run, ?_⟩
  split
  · have rest := State.offThreads_gEventAll { s.received l.toNat k with tverseen := BitVec.ofNat 16 (field k.body 0 2) } 5
      (at_ (BitVec.ofNat 16 (field k.body 0 2)).toNat 40)
    exact ⟨⟨(State.mem_of_offThreads rest).trans mem, (State.cores_of_offThreads rest).trans cores⟩, State.tverseen_of_offThreads rest⟩
  · exact ⟨⟨mem, cores⟩, seen⟩

theorem peerDownNotice_ends (here : s.delivered k 4 3 = true) (reserved : leNat (k.body.drop 2) = 0) (fdid : field k.body 0 2 < 4096) :
    Ends (.peerDownNotice l k) s (fun t => (t.mem = s.mem ∧ t.cores = s.cores) ∧ ∀ e c, tfind s.circuits e = some c →
      c.peerdev.toNat = field k.body 0 2 → c.st = 3 ∨ c.st = 4 → (t.circuit e).st = 6 ∧ (t.circuit e).status = 7) := by
  have plane := State.Plane.received s l.toNat k
  have run : exec (.peerDownNotice l k) s = .next (((s.received l.toNat k).peerLost (field k.body 0 2)).gEventAll 6
      (at_ (field k.body 0 2) 40)) := by
    change execPeerDownNotice l k s = _
    simp only [execPeerDownNotice, State.receive_taken takes here (Bool.and_eq_true_iff.mpr ⟨decide_eq_true fdid, beq_iff_eq.mpr reserved⟩)]
    rfl
  obtain ⟨mem, cores, -, -⟩ := State.same_of_frame ((State.frame_of_kept (State.kept_peerLost _ (field k.body 0 2))).trans
    (State.Entry.of_plane (e := 0) plane).frame)
  have rest := ((s.received l.toNat k).peerLost (field k.body 0 2)).offThreads_gEventAll 6 (at_ (field k.body 0 2) 40)
  refine ⟨_, run, ⟨(State.mem_of_offThreads rest).trans mem, (State.cores_of_offThreads rest).trans cores⟩, fun e c he peer used => ?_⟩
  rw [State.circuit_of_circuits (State.circuits_of_offThreads rest)]
  exact State.peerLost_fails (plane.circuits ▸ mem_of_tfind he) peer used

end

/-! Credits, service and the FDID (R57, R60, R494) -/

/-- Packets that the far end has not acknowledged (R57). -/
def stillUnacked (ack : BitVec 16) (k : Packet) : Bool := match k.lseq with | some q => !decide ((ack - q).toNat < 32768) | none => false

theorem stillUnacked_iff (ack : BitVec 16) (k : Packet) : stillUnacked ack k = true ↔ ∃ q, k.lseq = some q ∧ 32768 ≤ (ack - q).toNat := by
  unfold stillUnacked
  cases k.lseq <;> simp

/-- A class's credits after a return of `n` (R494). -/
def returnCredits (credits : List Nat) (cls : BitVec 4) (n : Nat) : List Nat :=
  if cls == 0 || 5 < cls.toNat then credits
  else credits.set (cls.toNat - 1) (min (fullCredits.getD (cls.toNat - 1) 0) (credits.getD (cls.toNat - 1) 0 + n))

theorem getD_returnCredits {credits : List Nat} (five : credits.length = 5) (cls : BitVec 4) (n : Nat) {i : Nat} (hi : i < 5) :
    (returnCredits credits cls n).getD i 0 =
      if i + 1 = cls.toNat then min (fullCredits.getD i 0) (credits.getD i 0 + n) else credits.getD i 0 := by
  have zero : cls = 0 ↔ cls.toNat = 0 := by rw [← BitVec.toNat_inj]; rfl
  simp only [returnCredits, Bool.or_eq_true, beq_iff_eq, decide_eq_true_eq, zero]
  split
  · rw [if_neg (by omega)]
  · rw [List.getD_eq_getElem?_getD, List.getElem?_set]
    by_cases h : cls.toNat - 1 = i
    · rw [if_pos h, if_pos (by omega), if_pos (by omega)]
      rw [h]
      rfl
    · rw [if_neg h, if_neg (by omega), List.getD_eq_getElem?_getD]

/-- A link after its far end's control stream has said `c`: returned credits, and what is still unacknowledged, sent again on request. -/
def State.creditsReturned (s : State) (l : Nat) (cls : BitVec 4) (c : LinkCtl) : State :=
  { s.setLink l { s.link l with credits := returnCredits (s.link l).credits cls c.n, unacked := (s.link l).unacked.filter (stillUnacked c.ack) } with
    outPkt := s.outPkt ++ if c.nak = true then ((s.link l).unacked.filter (stillUnacked c.ack)).map (fun p => (l, p)) else [] }

@[simp] theorem State.link_creditsReturned (s : State) (l : Nat) (cls : BitVec 4) (c : LinkCtl) : (s.creditsReturned l cls c).link l = { s.link l with
    credits := returnCredits (s.link l).credits cls c.n, unacked := (s.link l).unacked.filter (stillUnacked c.ack) } :=
  State.link_setLink ..

theorem exec_creditReturn {l : BitVec 3} {s : State} (idle : (s.link l.toNat).waiting = []) (cls : BitVec 4) (c : LinkCtl) :
    exec (.creditReturn l cls c) s = .next (s.creditsReturned l.toNat cls c) := by
  change execCreditReturn l cls c s = _
  simp only [execCreditReturn]
  rw [State.pump_idle (by exact (congrArg Link.waiting (State.link_setLink s l.toNat _)).trans idle)]
  unfold State.creditsReturned
  cases c.nak
  · simp only [Bool.false_eq_true, if_false, List.append_nil]
    rfl
  · rfl

theorem exec_linkEntersService {l : BitVec 3} {s : State} (idle : (s.link l.toNat).waiting = []) :
    exec (.linkEntersService l) s = .next (s.setLink l.toNat { s.link l.toNat with
      up := true, credits := [8, 32, 256, 16, 256], txSeq := 0, unacked := [], rxSeq := 0, nak := false }) :=
  congrArg Host.Outcome.next (State.pump_idle ((congrArg Link.waiting (State.link_setLink s l.toNat _)).trans idle))

/-- With nothing that waits, a write of FDIDCFG sets its two fields (R60). -/
theorem State.writeFdid_idle {s : State} (idle : ∀ n, n < 8 → (s.link n).waiting = []) {v : Word}
    (h : v.getLsbD 31 = true → v.toNat % 4096 ≠ 0 ∧ v.toNat % 4096 ≠ 0xFFF) :
    s.writeFdid v.toNat = { s with fdidValid := v.getLsbD 31, fdid := v.truncate 12 } := by
  have low : BitVec.ofNat 12 (v.toNat % 4096) = v.truncate 12 := BitVec.eq_of_toNat_eq (by simp)
  have taken : ¬(bit v.toNat 31 && (v.toNat % 4096 == 0 || v.toNat % 4096 == 0xFFF)) = true := by
    rw [bit_toNat]
    cases h31 : v.getLsbD 31
    · simp
    · simpa using h h31
  rw [State.writeFdid, if_neg taken, low, bit_toNat]
  exact State.each_id fun n hn => State.pump_idle (idle n (List.mem_range.mp hn))

/-- The clauses on packets, notices, credits and the FDID. -/
theorem packetPlane : PacketPlane := by
  intro l k s x dst still s1 drops good
  refine ⟨fun q numbered => State.took_numbered numbered, fun valid ok away single noEcho => ⟨fun takes o route on => ?goes,
    fun takes nowhere => ?drops, fun refused => ⟨_, packetForward_refuses valid ok away single noEcho refused, rfl⟩⟩,
    fun valid takes broken => ⟨_, exec_packetForward_broken valid takes broken, State.discarded_eq⟩,
    fun takes here reserved => versionNotice_ends takes here reserved,
    fun takes here reserved fdid => peerDownNotice_ends takes here reserved fdid, fun cls c idle five => ?credits,
    fun idle => ⟨_, exec_linkEntersService idle, rfl⟩, fun v idle ok => ⟨_, congrArg Host.Outcome.next (State.writeFdid_idle idle ok), rfl⟩,
    fun v h31 reserved => ?ignored⟩
  case goes => exact ⟨_, packetForward_goes valid ok away single noEcho takes route on, rfl⟩
  case drops => exact ⟨_, packetForward_drops valid ok away single noEcho takes nowhere, State.discarded_eq⟩
  case credits =>
    have link := s.link_creditsReturned l.toNat cls c
    refine ⟨_, exec_creditReturn idle cls c, rfl, by rw [link], fun i hi => ?_, fun p => ?_, ?_⟩
    · rw [link]
      exact getD_returnCredits five cls c.n hi
    · rw [link, List.mem_filter, stillUnacked_iff]
    · rw [link]
      rfl
  case ignored =>
    refine ⟨_, congrArg Host.Outcome.next (if_pos ?_), rfl⟩
    rw [bit_toNat, h31]
    simpa using reserved

end Sys2Proof.Machine
end

