-- ==== Sys2Proof/Proofs/FabricTime.lean ====
section
/-! PROOF. Beacons, echoes and fabric time (R63, R78, R79, R81); and the settling of the obligation on packets and time. -/

namespace Sys2Proof.Machine

open Sys2Proof.Claims

/-! Byte order (R8) -/

@[simp] theorem length_leBytes (n x : Nat) : (leBytes n x).length = n := by
  induction n generalizing x with
  | zero => rfl
  | succ n ih => simp [leBytes, ih]

theorem leNat_leBytes (n x : Nat) : leNat (leBytes n x) = x % 256 ^ n := by
  induction n generalizing x with
  | zero => simp [leBytes, leNat, Nat.mod_one]
  | succ n ih =>
    rw [leBytes, leNat, ih, BitVec.toNat_ofNat, Nat.pow_succ' (n := n), Nat.mod_mul]

/-- A field in the middle of a list. -/
theorem field_append {p m q : List Byte} {off n : Nat} (hp : p.length = off) (hm : m.length = n) : field (p ++ m ++ q) off n = leNat m := by
  subst hp hm
  rw [field, List.append_assoc, List.drop_left, List.take_left]

/-- The times and the FDID of an echo's body (R63). -/
theorem fields_echo {a b c d e : List Byte} (ha : a.length = 8) (hb : b.length = 8) (hc : c.length = 8) (hd : d.length = 2) :
    field (a ++ b ++ c ++ d ++ e) 8 8 = leNat b ∧ field (a ++ b ++ c ++ d ++ e) 16 8 = leNat c ∧
    field (a ++ b ++ c ++ d ++ e) 24 2 = leNat d := by
  refine ⟨?_, ?_, field_append (by simp [ha, hb, hc]) hd⟩
  · rw [List.append_assoc, List.append_assoc]
    exact field_append ha hb
  · rw [List.append_assoc]
    exact field_append (by simp [ha, hb]) hc

/-! Beacons (R78, R79) -/

section
variable {s : State}

theorem beaconPeriod_ends (master : s.master = true) : Ends .beaconPeriod s (fun t => ((t.mem = s.mem ∧ t.cores = s.cores) ∧
    t.circuits = s.circuits) ∧ (⟨s.now + max 10000 s.bper.toNat, .beaconPeriod⟩ : Timer) ∈ t.timers ∧
    t.pseq = if s.fdidValid = true then s.pseq + 1 else s.pseq) := by
  have timer := s.mem_timers_after (max 10000 s.bper.toNat) .beaconPeriod
  cases valid : s.fdidValid with
  | false =>
    refine ⟨s.after (max 10000 s.bper.toNat) .beaconPeriod, ?_, ⟨⟨rfl, rfl⟩, rfl⟩, timer, rfl⟩
    have valid' : (s.after (max 10000 s.bper.toNat) .beaconPeriod).fdidValid = false := valid
    exact (if_neg (by simp [master])).trans (if_pos (by simp [valid']))
  | true =>
    have valid' : (s.after (max 10000 s.bper.toNat) .beaconPeriod).fdidValid = true := valid
    obtain ⟨u, k, run, hu⟩ : ∃ (u : State) (k : Packet), exec .beaconPeriod s = .next (u.sendPacket k) ∧ u =
        ((s.after (max 10000 s.bper.toNat) .beaconPeriod).nextPseq.2).takeFree.2 :=
      ⟨_, _, (if_neg (by simp [master])).trans (if_neg (by simp [valid'])), rfl⟩
    have sent := State.Plane.sendPacket u k
    obtain ⟨mem, cores, -, -⟩ := State.same_of_frame (State.Entry.of_plane (e := 0) sent).frame
    subst hu
    exact ⟨_, run, ⟨⟨mem, cores⟩, sent.circuits⟩, sent.timers timer, (congrArg State.pseq sent.rest :)⟩

theorem exec_errestGrowth_early (early : s.now < s.beaconAt + 1000000) : exec .errestGrowth s = .next s := if_pos early

theorem exec_errestGrowth (late : s.beaconAt + 1000000 ≤ s.now) : exec .errestGrowth s = .next { s with
    errest := satAdd s.errest 2, beaconAt := s.now, timers := s.timers ++ [⟨s.now + 1000000, .errestGrowth⟩] } := if_neg (Nat.not_lt.mpr late)

end

/-- Entries enter their slots: no more changes than the circuit table and what falls due. -/
def State.SlotsOnly (s t : State) : Prop := ∃ cs tm, s.timers ⊆ tm ∧ t = { s with circuits := cs, timers := tm }

theorem State.SlotsOnly.enterSlot (s : State) (e : Nat) : s.SlotsOnly (s.enterSlot e) := by
  simp only [State.enterSlot]
  split
  · split
    · exact ⟨s.circuits, s.timers, fun _ h => h, rfl⟩
    · exact ⟨_, _, s.timers_subset_atTime _ _, rfl⟩
  · exact ⟨s.circuits, s.timers, fun _ h => h, rfl⟩

theorem State.SlotsOnly.each (l : List Nat) (s : State) : s.SlotsOnly (s.each l State.enterSlot) :=
  State.each_rel (fun s => ⟨s.circuits, s.timers, fun _ h => h, rfl⟩)
    (by rintro s _ _ ⟨cs, tm, h, rfl⟩ ⟨cs', tm', h', rfl⟩; exact ⟨cs', tm', List.Subset.trans h h', rfl⟩) State.SlotsOnly.enterSlot l s

/-- The time base after a beacon that names time `at_`: it is stepped forward, or slewed (R79). -/
def State.stepped (s : State) (k : Packet) (at_ : Nat) : State := { s with
  ahead := s.now - at_, plant := BitVec.ofNat 16 (field k.body 12 2), errest := BitVec.ofNat 16 (1 + 2 * (k.hops.toNat + 1))
  beaconAt := max s.now at_, ports := tmap s.ports (fun _ (x : Port) => { x with corrected := true }), now := max s.now at_ }

theorem exec_beacon {l : BitVec 3} {k : Packet} {s : State} (takes : s.linkTakes l.toNat k = true) (here : s.delivered k 1 1 = true)
    (length : k.body.length = 32) (reserved : field k.body 14 18 = 0) : exec (.beacon l k) s = .next
      ((((s.received l.toNat k).stepped k (field k.body 0 8 + field k.body 8 4 / 16)).after 1000000 .errestGrowth).each
        (tkeys (s.received l.toNat k).circuits) State.enterSlot) := by
  change execBeacon l k s = _
  have ok : (k.body.length == 32 && field k.body 14 18 == 0) = true := by simp [length, reserved]
  simp only [execBeacon, State.receive_taken takes here ok]
  rfl

theorem beacon_ends {l : BitVec 3} {k : Packet} {s : State} (takes : s.linkTakes l.toNat k = true) (here : s.delivered k 1 1 = true)
    (length : k.body.length = 32) (reserved : field k.body 14 18 = 0) : Ends (.beacon l k) s (fun t =>
      (t.mem = s.mem ∧ t.cores = s.cores) ∧ t.now = max s.now (field k.body 0 8 + field k.body 8 4 / 16) ∧ t.ticks = s.ticks ∧
      t.ahead = s.now - (field k.body 0 8 + field k.body 8 4 / 16) ∧ t.errest = BitVec.ofNat 16 (1 + 2 * (k.hops.toNat + 1)) ∧
      t.plant = BitVec.ofNat 16 (field k.body 12 2) ∧ t.beaconAt = max s.now (field k.body 0 8 + field k.body 8 4 / 16) ∧
      (⟨max s.now (field k.body 0 8 + field k.body 8 4 / 16) + 1000000, .errestGrowth⟩ : Timer) ∈ t.timers) := by
  have plane := State.Plane.received s l.toNat k
  obtain ⟨mem, cores, -, -⟩ := State.same_of_frame (State.Entry.of_plane (e := 0) plane).frame
  have ticks : (s.received l.toNat k).ticks = s.ticks := (congrArg State.ticks plane.rest :)
  obtain ⟨cs, tm, more, rest⟩ := State.SlotsOnly.each (tkeys (s.received l.toNat k).circuits)
    (((s.received l.toNat k).stepped k (field k.body 0 8 + field k.body 8 4 / 16)).after 1000000 .errestGrowth)
  have due := more (State.mem_timers_after ..)
  refine ⟨_, exec_beacon takes here length reserved, ?_⟩
  rw [rest]
  simp only [State.stepped, plane.now] at due ⊢
  exact ⟨⟨mem, cores⟩, rfl, ticks, rfl, rfl, rfl, rfl, due⟩

/-! Echoes (R63) -/

/-- An echo request as it may begin on a link (R62, R63). -/
def isRequest (k : Packet) : Bool := isEcho k && k.typ == 2

/-- A link on which a packet has begun. -/
def State.sentLink (s : State) (l : Nat) (w : Waiting) : Link := { s.link l with
  waiting := (s.link l).waiting.erase w, unacked := (s.link l).unacked ++ [s.stamp l w], txSeq := (s.link l).txSeq + 1
  credits := (s.link l).credits.set (w.pkt.cls.toNat - 1) ((s.link l).credits.getD (w.pkt.cls.toNat - 1) 0 - pktCredits (s.stamp l w))
  echo := if isRequest w.pkt then some s.now else (s.link l).echo }

theorem State.link_freed (s : State) (l : Nat) (k : Packet) (n : Nat) : (s.freed l k).link n = s.link n := by
  unfold State.freed
  split <;> rfl

/-- The state in which a packet has begun, and its buffer's credits have gone back (R494). -/
def State.sent (s : State) (l : Nat) (w : Waiting) : State :=
  let t := { s.setLink l (s.sentLink l w) with outPkt := s.outPkt ++ [(l, s.stamp l w)] }
  match w.from_ with
  | some i => t.freed i w.pkt
  | none => t

theorem State.sendOn_eq (s : State) (l : Nat) (w : Waiting) : s.sendOn l w =
    if isRequest w.pkt then (s.sent l w).after 20000 (.echoTimeout (BitVec.ofNat 3 l)) else s.sent l w := rfl

theorem State.link_sent (s : State) (l : Nat) (w : Waiting) (n : Nat) : (s.sent l w).link n = (s.setLink l (s.sentLink l w)).link n := by
  unfold State.sent
  split
  · exact State.link_freed ..
  · rfl

theorem State.link_sendOn (s : State) (l : Nat) (w : Waiting) (n : Nat) :
    (s.sendOn l w).link n = if n = l then s.sentLink l w else s.link n := by
  have sent : (s.sendOn l w).link n = (s.setLink l (s.sentLink l w)).link n := by
    rw [State.sendOn_eq]
    split
    · exact s.link_sent l w n
    · exact s.link_sent l w n
  rw [sent]
  split
  next h => rw [h, State.link_setLink]
  next h => rw [State.link_setLink_ne s l _ h]

section
variable {n l : Nat} (other : n ≠ l)
include other

theorem State.link_pumpGo_ne (s : State) (m : Nat) : (s.pumpGo l m).link n = s.link n := by
  induction m generalizing s with
  | zero => rfl
  | succ m ih =>
    simp only [State.pumpGo]
    split
    · rfl
    · split
      · rfl
      · rw [ih, State.link_sendOn, if_neg other]

theorem State.link_toLink_ne (s : State) (k : Packet) (from_ : Option Nat) : (s.toLink l k from_).link n = s.link n :=
  (State.link_pumpGo_ne other ..).trans (State.link_setLink_ne s l _ other)

end

/-- A request that meets an idle link in service with credit begins there at once, and its answer is awaited. -/
theorem State.request_begins {s : State} {l : Nat} {k : Packet} (request : isRequest k = true) (cls : k.cls = 1) (up : (s.link l).up = true)
    (idle : (s.link l).waiting = []) (room : (s.link l).unacked.length < 64) (credit : pktCredits k ≤ (s.link l).credits.getD 0 0) :
    ((s.toLink l k none).link l).echo = some s.now ∧ (⟨s.now + 20000, .echoTimeout (BitVec.ofNat 3 l)⟩ : Timer) ∈ (s.toLink l k none).timers := by
  obtain ⟨t, w, hw, ht, begins⟩ : ∃ (t : State) (w : Waiting), isRequest w.pkt = true ∧ t.now = s.now ∧ s.toLink l k none = t.sendOn l w := by
    let w : Waiting := ⟨k, none, s.ticks⟩
    let t := s.setLink l { s.link l with waiting := [w] }
    have pick : ({ s.link l with waiting := [w] } : Link).pick s.fdidValid = some w := by
      have echo : isEcho k = true := (Bool.and_eq_true_iff.mp request).1
      have credit' : pktCredits k ≤ (s.link l).credits[0]?.getD 0 := by simpa using credit
      simp [Link.pick, w, cls, echo, credit']
    have ht : t.link l = { s.link l with waiting := [w] } := State.link_setLink ..
    refine ⟨t, w, request, rfl, ?_⟩
    rw [State.toLink, idle, State.pump, State.link_setLink]
    change t.pumpGo l 1 = _
    simp only [State.pumpGo, ht]
    rw [if_neg (by simp [up, room])]
    simp only [t, State.setLink_fdidValid, pick]
  rw [begins, State.link_sendOn, if_pos rfl, State.sendOn_eq, if_pos hw, ← ht]
  refine ⟨if_pos hw, ?_⟩
  have now : (t.sent l w).now = t.now := by
    unfold State.sent
    split
    · exact (State.Plane.freed ..).now
    · rfl
  exact now ▸ State.mem_timers_after ..

/-- The echo request of a link (R63). -/
def State.echoOf (s : State) : Packet := { s.packet 1 2 s.ownFdid.toNat 0 (List.replicate 32 0) with tver := s.tvercur }

theorem State.pktCredits_echoOf (s : State) : pktCredits s.echoOf = 1 := by
  simp [pktCredits, State.echoOf, State.packet]

theorem State.link_echoes_ne {n : Nat} {ls : List Nat} (other : n ∉ ls) (s : State) :
    (s.each ls (fun s l => s.toLink l s.echoOf none)).link n = s.link n := by
  induction ls generalizing s with
  | nil => rfl
  | cons m ls ih =>
    rw [List.mem_cons, not_or] at other
    exact (ih other.2 _).trans (State.link_toLink_ne other.1 ..)

/-- Each link end sends its request. -/
theorem State.echoes_begin {s : State} {ls : List Nat} (once : ls.Nodup) {n : Nat} (hn : n ∈ ls) (up : (s.link n).up = true)
    (idle : (s.link n).waiting = []) (room : (s.link n).unacked.length < 64) (credit : 1 ≤ (s.link n).credits.getD 0 0) :
    ((s.each ls (fun s l => s.toLink l s.echoOf none)).link n).echo = some s.now ∧
    (⟨s.now + 20000, .echoTimeout (BitVec.ofNat 3 n)⟩ : Timer) ∈ (s.each ls (fun s l => s.toLink l s.echoOf none)).timers := by
  obtain ⟨as, bs, rfl⟩ := List.append_of_mem hn
  obtain ⟨-, tail, apart⟩ := List.nodup_append.mp once
  have before : n ∉ as := fun h => apart n h n List.mem_cons_self rfl
  have behind : n ∉ bs := (List.nodup_cons.mp tail).1
  let t := s.each as (fun s l => s.toLink l s.echoOf none)
  have ht : t.link n = s.link n := State.link_echoes_ne before s
  have now : t.now = s.now := (State.Plane.each (fun s l => .toLink s l _ none) as s).now
  have split : s.each (as ++ n :: bs) (fun s l => s.toLink l s.echoOf none) =
      (t.toLink n t.echoOf none).each bs (fun s l => s.toLink l s.echoOf none) := List.foldl_append
  have later := State.Plane.each (fun s l => .toLink s l s.echoOf none) bs (t.toLink n t.echoOf none)
  obtain ⟨echo, timer⟩ := State.request_begins (s := t) (l := n) (k := t.echoOf) rfl rfl (ht ▸ up) (ht ▸ idle) (ht ▸ room)
    (by rw [t.pktCredits_echoOf, ht]; exact credit)
  rw [split, State.link_echoes_ne behind, ← now]
  exact ⟨echo, later.timers timer⟩

theorem echoPeriod_ends (s : State) : Ends .echoPeriod s (fun t => ((t.mem = s.mem ∧ t.cores = s.cores) ∧ t.circuits = s.circuits) ∧
    ∀ n, n < 8 → (s.link n).up = true → (s.link n).waiting = [] → (s.link n).unacked.length < 64 → 1 ≤ (s.link n).credits.getD 0 0 →
      (t.link n).echo = some s.now ∧ (⟨s.now + 20000, .echoTimeout (BitVec.ofNat 3 n)⟩ : Timer) ∈ t.timers) := by
  let u := s.after 1000000 .echoPeriod
  have plane := (State.Plane.after s 1000000 .echoPeriod).trans
    (State.Plane.each (fun s l => .toLink s l s.echoOf none) ((List.range 8).filter (fun l => (u.link l).up)) u)
  obtain ⟨mem, cores, -, -⟩ := State.same_of_frame (State.Entry.of_plane (e := 0) plane).frame
  refine ⟨_, rfl, ⟨⟨mem, cores⟩, plane.circuits⟩, fun n hn up idle room credit => ?_⟩
  exact State.echoes_begin (s := u) (List.nodup_range.filter _) (List.mem_filter.mpr ⟨List.mem_range.mpr hn, up⟩) up idle room credit

section
variable {l : BitVec 3} {k : Packet} {s : State} (takes : s.linkTakes l.toNat k = true)
include takes

theorem State.receiveEcho_taken {typ : Nat} (ok : echoOk k typ = true) (which : typ = 2 ∨ typ = 3) :
    s.receiveEcho l.toNat k typ = (true, (s.took l.toNat k).freed l.toNat k) := by
  have typed : k.cls = 1 ∧ k.typ.toNat = typ := by
    simp only [echoOk, Bool.and_eq_true, beq_iff_eq] at ok
    obtain ⟨⟨⟨⟨⟨-, cls⟩, typed⟩, -⟩, -⟩, -⟩ := ok
    exact ⟨cls, typed⟩
  have echo : isEcho k = true := isEcho_iff.mpr ⟨typed.1, which.imp (fun h => BitVec.eq_of_toNat_eq (typed.2.trans h))
    fun h => BitVec.eq_of_toNat_eq (typed.2.trans h)⟩
  simp [State.receiveEcho, echo, typed.2, takes, ok]

/-- A request is answered on its link with its T1, and with T2 and T3 (R63). -/
theorem echoRequest_ends (ok : echoOk k 2 = true) : Ends (.echoRequest l k) s (fun t => ∃ r : Packet,
    t = ((s.took l.toNat k).freed l.toNat k).toLink l.toNat r none ∧ r.cls = 1 ∧ r.typ = 3 ∧ r.body.length = 32 ∧
    r.body.take 8 = k.body.take 8 ∧ field r.body 8 8 = s.now % 2 ^ 64 ∧ field r.body 16 8 = s.now % 2 ^ 64 ∧
    field r.body 24 2 = if s.fdidValid = true then s.fdid.toNat else 0) := by
  have plane := (State.Plane.took s l.toNat k).trans (.freed _ l.toNat k)
  have length : k.body.length = 32 := by
    simp only [echoOk, Bool.and_eq_true, beq_iff_eq] at ok
    obtain ⟨⟨-, length⟩, -⟩ := ok
    exact length
  have own : ((s.took l.toNat k).freed l.toNat k).ownFdid = s.ownFdid := by simp only [State.ownFdid, plane.fdid, plane.fdidValid]
  have t1 : (k.body.take 8).length = 8 := by simp [length]
  obtain ⟨t2, t3, from_⟩ := fields_echo (e := List.replicate 6 0) t1 (length_leBytes 8 s.now) (length_leBytes 8 s.now)
    (length_leBytes 2 s.ownFdid.toNat)
  refine ⟨_, ?_, ((s.took l.toNat k).freed l.toNat k).packet 1 3 (k.src.toNat % 4096) 0 (k.body.take 8 ++ leBytes 8 s.now ++ leBytes 8 s.now ++
    leBytes 2 s.ownFdid.toNat ++ List.replicate 6 0), rfl, rfl, rfl, ?_, ?_, ?_, ?_, ?_⟩
  · change execEchoRequest l k s = _
    simp only [execEchoRequest, State.receiveEcho_taken takes ok (.inl rfl), plane.now, own]
  · simp [State.packet, t1]
  · simp only [State.packet, List.append_assoc]
    exact List.take_left' t1
  · exact t2.trans (leNat_leBytes 8 s.now)
  · exact t3.trans (leNat_leBytes 8 s.now)
  · refine from_.trans ((leNat_leBytes 2 _).trans ((Nat.mod_eq_of_lt s.ownFdid.isLt).trans ?_))
    unfold State.ownFdid
    split
    · exact BitVec.toNat_setWidth_of_le (by decide)
    · rfl

/-- A reply gives the link's one-way delay and its neighbour (R63). -/
theorem exec_echoReply (ok : echoOk k 3 = true) : exec (.echoReply l k) s = .next
    (((s.took l.toNat k).freed l.toNat k).setLink l.toNat { ((s.took l.toNat k).freed l.toNat k).link l.toNat with
      delay := ((s.now : Int) - field k.body 0 8 - ((field k.body 16 8 : Int) - field k.body 8 8)) * 8
      peer := BitVec.ofNat 12 (field k.body 24 2)
      echo := if (((s.took l.toNat k).freed l.toNat k).link l.toNat).echo = some (field k.body 0 8) then none
        else (((s.took l.toNat k).freed l.toNat k).link l.toNat).echo }) := by
  have plane := (State.Plane.took s l.toNat k).trans (.freed _ l.toNat k)
  change execEchoReply l k s = _
  simp only [execEchoReply, State.receiveEcho_taken takes ok (.inr rfl), plane.now, beq_iff_eq]

end

/-! Requests without an answer (R63, R84) -/

/-- A link that asks for no echo and has no request waiting. -/
structure Link.Unasked (x : Link) : Prop where
  echo    : x.echo = none
  waiting : ∀ w ∈ x.waiting, isRequest w.pkt = false

theorem Link.mem_of_pick {x : Link} {valid : Bool} {w : Waiting} (h : x.pick valid = some w) : w ∈ x.waiting := by
  obtain ⟨c, -, hc⟩ := List.exists_of_findSome?_eq_some h
  split at hc
  next v found =>
    split at hc
    · exact Option.some.inj hc ▸ List.mem_of_find?_eq_some found
    · exact absurd hc (by simp)
  next => exact absurd hc (by simp)

section
variable {n : Nat}

theorem Link.Unasked.pumpGo {s : State} (h : (s.link n).Unasked) (l m : Nat) : ((s.pumpGo l m).link n).Unasked := by
  induction m generalizing s with
  | zero => exact h
  | succ m ih =>
    simp only [State.pumpGo]
    split
    · exact h
    split
    · exact h
    next w picked =>
      refine ih ?_
      rw [State.link_sendOn]
      split
      next same =>
        subst same
        have quiet := h.waiting w (Link.mem_of_pick picked)
        exact ⟨(if_neg (by simp [quiet])).trans h.echo, fun v hv => h.waiting v (List.mem_of_mem_erase hv)⟩
      next => exact h

theorem Link.Unasked.toLink {s : State} (h : (s.link n).Unasked) {k : Packet} (other : isRequest k = false) (l : Nat) (from_ : Option Nat) :
    ((s.toLink l k from_).link n).Unasked := by
  refine Link.Unasked.pumpGo ?_ l _
  by_cases same : n = l
  · subst same
    rw [State.link_setLink]
    refine ⟨h.echo, fun w hw => ?_⟩
    rcases List.mem_append.mp hw with old | new
    · exact h.waiting w old
    · rw [List.mem_singleton.mp new]
      exact other
  · rwa [State.link_setLink_ne s l _ same]

theorem Link.Unasked.sendPacket {s : State} (h : (s.link n).Unasked) {k : Packet} (other : isRequest k = false) : ((s.sendPacket k).link n).Unasked := by
  simp only [State.sendPacket]
  split
  · exact h
  split
  · exact State.each_keeps (P := fun t => (t.link n).Unasked) (fun t l ht => ht.toLink other l none) _ h
  split
  · exact h
  split
  · exact h.toLink other _ none
  · exact h

end

/-- A peer-down notice to each device that the route table names (R84). -/
def State.peerDown (s : State) (f : Nat) (dsts : List Nat) : State :=
  s.each dsts (fun s d => s.sendPacket (s.packet 4 3 d 0 (leBytes 2 f ++ List.replicate 30 0)))

theorem echoTimeout_ends {l : BitVec 3} {s : State} {v : Nat} (asked : (s.link l.toNat).echo = some v) (idle : (s.link l.toNat).waiting = [])
    (late : v + 20000 ≤ s.now) : Ends (.echoTimeout l) s (fun t => ((t.mem = s.mem ∧ t.cores = s.cores) ∧ t.circuits = s.circuits) ∧
      (t.link l.toNat).echo = none) := by
  obtain ⟨dsts, run⟩ : ∃ dsts, exec (.echoTimeout l) s = .next ((s.setLink l.toNat { s.link l.toNat with echo := none }).peerDown
      (s.link l.toNat).peer.toNat dsts) := by
    refine ⟨(s.route.filter (fun r => r.2.1 && r.1 != (s.link l.toNat).peer.toNat && r.1 != s.fdid.toNat)).map (fun r => r.1), ?_⟩
    change execEchoTimeout l s = _
    simp only [execEchoTimeout, asked]
    exact if_pos (decide_eq_true late)
  have plane : s.Plane ((s.setLink l.toNat { s.link l.toNat with echo := none }).peerDown (s.link l.toNat).peer.toNat dsts) :=
    (State.Plane.setLink ..).trans (State.Plane.each (fun s d => .sendPacket s _) dsts _)
  obtain ⟨mem, cores, -, -⟩ := State.same_of_frame (State.Entry.of_plane (e := 0) plane).frame
  have unasked : ((s.setLink l.toNat { s.link l.toNat with echo := none }).link l.toNat).Unasked := by
    rw [State.link_setLink]
    exact ⟨rfl, by simp [idle]⟩
  have after := State.each_keeps (P := fun t => (t.link l.toNat).Unasked)
    (fun t d ht => ht.sendPacket (k := t.packet 4 3 d 0 (leBytes 2 (s.link l.toNat).peer.toNat ++ List.replicate 30 0)) rfl) dsts unasked
  exact ⟨_, run, ⟨⟨mem, cores⟩, plane.circuits⟩, after.echo⟩

/-- The clauses on beacons, echoes and fabric time. -/
theorem fabricTime : FabricTime := by
  intro l k s x calm still takes s1 y at_
  exact ⟨fun other => ⟨_, if_pos (by simp [other]), rfl⟩, fun master => beaconPeriod_ends master,
    fun taken here length reserved => beacon_ends taken here length reserved, fun late => ⟨_, exec_errestGrowth late, rfl⟩,
    fun early => ⟨_, exec_errestGrowth_early early, rfl⟩, echoPeriod_ends s, fun taken ok => echoRequest_ends taken ok,
    fun taken ok => ⟨_, exec_echoReply taken ok, rfl⟩, fun v asked idle late => echoTimeout_ends asked idle late⟩

/-- Settles O40: packets by what the switch and its links make of them, fabric time by what beacons and echoes leave. -/
theorem packetsAndTime : Obligations.PacketsAndTime := ⟨packetPlane, fabricTime⟩

end Sys2Proof.Machine
end


-- ==== Sys2Proof/Proofs/Fields.lean ====
section
/-! PROOF. Fields of instruction words (R100, R127, R344, R350): a word is the sum of its fields in their places, and a field that was
put into free bits of a word is read back, whatever was put elsewhere. -/

namespace Sys2Proof

/-! Words cut into fields -/

/-- The bits of a word from `lo` up, in their places. -/
def bitsFrom (lo w : Nat) : Nat := w >>> lo <<< lo

/-- Bits [lo + n - 1 : lo] of a word, as a number. -/
def bitsAt (lo n w : Nat) : Nat := (w >>> lo) % 2 ^ n

theorem bitsFrom_eq_mul (lo w : Nat) : bitsFrom lo w = w / 2 ^ lo * 2 ^ lo := by
  rw [bitsFrom, Nat.shiftLeft_eq, Nat.shiftRight_eq_div_pow]

theorem bitsFrom_zero (w : Nat) : bitsFrom 0 w = w := by simp [bitsFrom]

theorem bitsFrom_of_lt {k w : Nat} (h : w < 2 ^ k) : bitsFrom k w = 0 := by
  rw [bitsFrom_eq_mul, Nat.div_eq_of_lt h, Nat.zero_mul]

/-- A word from `lo` up is what stands from `lo + n` up and the `n` bits between. -/
theorem bitsFrom_eq_add (lo n w : Nat) : bitsFrom lo w = bitsFrom (lo + n) w + bitsAt lo n w <<< lo := by
  simp only [bitsFrom_eq_mul, bitsAt, Nat.shiftLeft_eq, Nat.shiftRight_eq_div_pow, pow_add, ← Nat.div_div_eq_div_mul]
  conv_lhs => rw [← Nat.div_add_mod (w / 2 ^ lo) (2 ^ n)]
  ring

theorem fld_toNat (n lo w : Nat) : (fld n lo w).toNat = bitsAt lo n w := BitVec.toNat_ofNat ..

theorem fld_eq_iff {n lo w : Nat} {x : BitVec n} : fld n lo w = x ↔ bitsAt lo n w = x.toNat := by
  rw [← BitVec.toNat_inj, fld_toNat]

theorem put_fld (n lo w : Nat) : put lo (fld n lo w) = bitsAt lo n w <<< lo := by rw [put, fld_toNat]

theorem add_put_fld_eq_bitsFrom {h n lo w : Nat} : h + put lo (fld n lo w) = bitsFrom lo w ↔ h = bitsFrom (lo + n) w := by
  rw [put_fld, bitsFrom_eq_add lo n, Nat.add_right_cancel_iff]

theorem bitsAt_iff {w lo n v : Nat} : bitsAt lo n w = v ↔ bitsFrom lo w = bitsFrom (lo + n) w + v <<< lo := by
  rw [bitsFrom_eq_add lo n, Nat.add_left_cancel_iff, Nat.shiftLeft_eq, Nat.shiftLeft_eq, Nat.mul_left_inj (by positivity)]

theorem put_fld_eq_bitsFrom {n lo w : Nat} : put lo (fld n lo w) = bitsFrom lo w ↔ bitsFrom (lo + n) w = 0 := by
  rw [← Nat.zero_add (put _ _), add_put_fld_eq_bitsFrom, eq_comm]

/-! Fields put into a word -/

/-- Nothing stands in the bits of `h` from `lo` to `lo + n - 1`. -/
def roomAt (lo n h : Nat) : Bool := decide (h % 2 ^ (lo + n) < 2 ^ lo)

section
variable {h n lo k j m : Nat} {x : BitVec n}

theorem mod_add_put (le : m ≤ lo) : (h + put lo x) % 2 ^ m = h % 2 ^ m := by
  obtain ⟨d, rfl⟩ := Nat.exists_eq_add_of_le le
  rw [put, Nat.shiftLeft_eq, pow_add, mul_left_comm, Nat.add_mul_mod_self_left]

theorem roomAt_add_put (le : k + j ≤ lo) : roomAt k j (h + put lo x) = roomAt k j h := by
  rw [roomAt, mod_add_put le, roomAt]

theorem mod_add_put_lt (x : BitVec n) (free : roomAt lo n h = true) : h % 2 ^ (lo + n) + put lo x < 2 ^ (lo + n) := by
  have free := of_decide_eq_true free
  have le : (x.toNat + 1) * 2 ^ lo ≤ 2 ^ n * 2 ^ lo := Nat.mul_le_mul_right _ x.isLt
  rw [← pow_add, Nat.add_comm n, Nat.succ_mul] at le
  rw [put, Nat.shiftLeft_eq]
  omega

theorem shiftRight_add_put (le : lo + n ≤ k) (free : roomAt lo n h = true) : (h + put lo x) >>> k = h >>> k := by
  obtain ⟨d, rfl⟩ := Nat.exists_eq_add_of_le le
  rw [Nat.shiftRight_add _ (lo + n), Nat.shiftRight_add _ (lo + n) d]
  congr 1
  rw [Nat.shiftRight_eq_div_pow, Nat.shiftRight_eq_div_pow]
  conv_lhs => rw [← Nat.div_add_mod h (2 ^ (lo + n)), add_assoc, Nat.mul_add_div (by positivity), Nat.div_eq_of_lt (mod_add_put_lt x free)]
  rw [add_zero]

theorem bitsAt_eq_mod_div (k j w : Nat) : bitsAt k j w = w % 2 ^ (k + j) / 2 ^ k := by
  rw [bitsAt, Nat.shiftRight_eq_div_pow, pow_add, Nat.mod_mul_right_div_self]

theorem bitsAt_add_put_of_ge (le : k + j ≤ lo) : bitsAt k j (h + put lo x) = bitsAt k j h := by
  rw [bitsAt_eq_mod_div, bitsAt_eq_mod_div, mod_add_put le]

theorem bitsAt_add_put_of_le (le : lo + n ≤ k) (free : roomAt lo n h = true) : bitsAt k j (h + put lo x) = bitsAt k j h := by
  rw [bitsAt, shiftRight_add_put le free, bitsAt]

theorem bitsAt_add_put (free : roomAt lo n h = true) : bitsAt lo n (h + put lo x) = x.toNat := by
  have fits := mod_add_put_lt x free
  rw [bitsAt_eq_mod_div, Nat.add_mod, Nat.mod_eq_of_lt (a := put lo x) (by omega), Nat.mod_eq_of_lt fits, put, Nat.shiftLeft_eq,
    Nat.add_mul_div_right _ _ (by positivity), Nat.div_eq_of_lt (of_decide_eq_true free), zero_add]

theorem fld_add_put (free : roomAt lo n h = true) : fld n lo (h + put lo x) = x := fld_eq_iff.mpr (bitsAt_add_put free)

theorem fld_add_put_of_ge (le : k + j ≤ lo) : fld j k (h + put lo x) = fld j k h := by
  rw [fld_eq_iff, fld_toNat, bitsAt_add_put_of_ge le]

theorem fld_add_put_of_le (le : lo + n ≤ k) (free : roomAt lo n h = true) : fld j k (h + put lo x) = fld j k h := by
  rw [fld_eq_iff, fld_toNat, bitsAt_add_put_of_le le free]

end

theorem roomAt_of_zero {m h lo n : Nat} (free : roomAt 0 m h = true) (le : lo + n ≤ m) : roomAt lo n h = true := by
  rw [roomAt, decide_eq_true_eq, Nat.zero_add, pow_zero, Nat.lt_one_iff, ← Nat.dvd_iff_mod_eq_zero] at free
  rw [roomAt, decide_eq_true_eq, Nat.mod_eq_zero_of_dvd ((pow_dvd_pow 2 le).trans free)]
  positivity

/-! One-bit fields -/

section
variable {h n lo k m : Nat} {x : BitVec n} {b : Bool}

theorem putb_eq_put : putb lo b = put lo (BitVec.ofBool b) := by cases b <;> simp [putb, put]

theorem bitAt_eq_iff {w : Nat} : bitAt lo w = b ↔ fld 1 lo w = BitVec.ofBool b := by
  rw [fld_eq_iff, bitAt, bitsAt, pow_one]
  cases b with
  | false => simp
  | true => simp

theorem ofBool_bitAt {w : Nat} : BitVec.ofBool (bitAt lo w) = fld 1 lo w := (bitAt_eq_iff.mp rfl).symm

theorem bitAt_add_put {b : BitVec 1} (free : roomAt lo 1 h = true) : bitAt lo (h + put lo b) = (b == 1#1) := by
  rw [bitAt_eq_iff, fld_add_put free]
  revert b
  decide

theorem bitAt_add_put_of_le (le : lo + n ≤ k) (free : roomAt lo n h = true) : bitAt k (h + put lo x) = bitAt k h := by
  rw [bitAt_eq_iff, fld_add_put_of_le le free, ofBool_bitAt]

theorem ofBool_eq_one : (BitVec.ofBool b == 1#1) = b := by cases b <;> rfl

theorem roomAt_shiftLeft (opc : Nat) (le : lo + n ≤ k) : roomAt lo n (opc <<< k) = true := by
  obtain ⟨d, rfl⟩ := Nat.exists_eq_add_of_le le
  rw [roomAt, decide_eq_true_eq, Nat.shiftLeft_eq, pow_add, mul_left_comm, Nat.mul_mod_right]
  positivity

theorem bitsAt_shiftLeft (opc : Nat) (le : lo + n ≤ k) : bitsAt lo n (opc <<< k) = 0 := by
  obtain ⟨d, rfl⟩ := Nat.exists_eq_add_of_le le
  rw [bitsAt_eq_mod_div, Nat.shiftLeft_eq, pow_add, mul_left_comm, Nat.mul_mod_right, Nat.zero_div]

end

end Sys2Proof
end

