-- ==== Sys2Proof/Proofs/Encodings.lean ====
section
/-! PROOF. The decoders read what the encoder writes and the encoder writes what they read (R100, R101, R127, R344 to R348, R350 to
R358): for 32-bit words by the rows of their opcode maps, for steps and lane words by their one layout. -/

namespace Sys2Proof

/-! Rows of the 32-bit opcode maps -/

theorem hasFields_nil (w : Nat) : hasFields w [] = true := rfl

theorem hasFields_cons {w lo n v : Nat} {l} : hasFields w ((lo, n, v) :: l) = true ↔ bitsAt lo n w = v ∧ hasFields w l = true := by
  simp [hasFields, bitsAt]

/-- What the fixed fields of a row say of its word from their places up. -/
def fixedFrom (w : Nat) : List (Nat × Nat × Nat) → Prop
  | [] => True
  | (lo, n, v) :: rest => bitsFrom lo w = bitsFrom (lo + n) w + v <<< lo ∧ fixedFrom w rest

theorem hasFields_iff {w : Nat} : ∀ {l}, hasFields w l = true ↔ fixedFrom w l
  | [] => by simp [hasFields, fixedFrom]
  | (lo, n, v) :: l => by rw [hasFields_cons, bitsAt_iff, fixedFrom, hasFields_iff]

/-- A row whose word is encoded from what it reads. -/
def Row32.Inverts (r : Row32) : Prop := ∀ w, w < 2 ^ 32 → hasFields w r.fixed = true → encode (r.read w) = some w

theorem Row32.inverts_of_fixed {r : Row32} (h : ∀ w, bitsFrom 32 w = 0 → fixedFrom w r.fixed → encode (r.read w) = some (bitsFrom 0 w)) :
    r.Inverts := fun w hw hf => bitsFrom_zero w ▸ h w (bitsFrom_of_lt hw) (hasFields_iff.mp hf)

/-- An opcode's second part that stands in the low bits of the constant is taken over to the other side. -/
theorem add_add_eq_add_iff {c x y z v : Nat} (le : v ≤ c) : c + x + y = z + v ↔ c - v + x + y = z := by omega

theorem gafferRows_inverts : ∀ r ∈ gafferRows, r.Inverts := by
  unfold gafferRows
  repeat' (refine List.forall_mem_cons.2 ⟨Row32.inverts_of_fixed fun w top h => congrArg some ?_, ?_⟩)
  on_goal -1 => exact List.forall_mem_nil _
  all_goals
    simp only [fixedFrom, Nat.zero_add, Nat.reduceAdd, and_true, Nat.reduceShiftLeft, top, Nat.add_zero] at h
    simp only [add_put_fld_eq_bitsFrom, Nat.zero_add, Nat.reduceAdd, h]

theorem scalarRows_inverts : ∀ r ∈ scalarRows, r.Inverts := by
  unfold scalarRows
  repeat' (refine List.forall_mem_cons.2 ⟨Row32.inverts_of_fixed fun w top h => congrArg some ?_, ?_⟩)
  on_goal -1 => exact List.forall_mem_nil _
  all_goals
    simp only [fixedFrom, Nat.zero_add, Nat.reduceAdd, and_true, Nat.reduceShiftLeft, top, Nat.add_zero] at h
    simp only [add_put_fld_eq_bitsFrom, Nat.zero_add, Nat.reduceAdd, h, put_fld_eq_bitsFrom, add_add_eq_add_iff, Nat.reduceLeDiff, Nat.reduceSub]

/-! The first row whose fixed bits a word has -/

theorem findRow_mem {w : Nat} {i : Instr} : ∀ {l : List Row32}, findRow w l = some i → ∃ r ∈ l, hasFields w r.fixed = true ∧ r.read w = i
  | r :: l, h => by
    rw [findRow] at h
    split at h
    · exact ⟨r, List.mem_cons_self, ‹_›, Option.some.inj h⟩
    · obtain ⟨q, hq, found⟩ := findRow_mem h
      exact ⟨q, List.mem_cons_of_mem _ hq, found⟩

/-- Two fixed fields that end at the same bit and differ where both say something. -/
def fieldsClash (f g : Nat × Nat × Nat) : Bool :=
  f.1 + f.2.1 == g.1 + g.2.1 && f.2.2 >>> (g.1 - f.1) != g.2.2 >>> (f.1 - g.1)

/-- Two lists of fixed fields that no word has both of. -/
def fixedClash (l m : List (Nat × Nat × Nat)) : Bool := l.any fun f => m.any (fieldsClash f)

theorem bitsAt_of_hasFields {w : Nat} {f : Nat × Nat × Nat} : ∀ {l}, hasFields w l = true → f ∈ l → bitsAt f.1 f.2.1 w = f.2.2
  | _ :: _, h, hf => by
    obtain ⟨here, rest⟩ := hasFields_cons.mp h
    rcases List.mem_cons.mp hf with rfl | hf
    · exact here
    · exact bitsAt_of_hasFields rest hf

/-- The upper bits of a field. -/
theorem bitsAt_shiftRight (lo n w d : Nat) : bitsAt lo n w >>> d = bitsAt (lo + d) (n - d) w := by
  rw [bitsAt, bitsAt, Nat.shiftRight_add, Nat.shiftRight_eq_div_pow _ d, Nat.shiftRight_eq_div_pow (w >>> lo) d]
  rcases Nat.le_total d n with le | le
  · obtain ⟨e, rfl⟩ := Nat.exists_eq_add_of_le le
    rw [Nat.add_sub_cancel_left, pow_add, Nat.mod_mul_right_div_self]
  · rw [Nat.sub_eq_zero_of_le le, pow_zero, Nat.mod_one]
    exact Nat.div_eq_of_lt ((Nat.mod_lt _ (by positivity)).trans_le (Nat.pow_le_pow_right (by decide) le))

theorem not_hasFields_of_clash {w : Nat} {l m} (clash : fixedClash l m = true) (hl : hasFields w l = true) : hasFields w m = false := by
  refine Bool.eq_false_iff.mpr fun hm => ?_
  obtain ⟨f, hf, g, hg, both⟩ := (by simpa [fixedClash, List.any_eq_true] using clash : ∃ f ∈ l, ∃ g ∈ m, fieldsClash f g = true)
  obtain ⟨ends, differ⟩ := (by simpa [fieldsClash] using both :
    f.1 + f.2.1 = g.1 + g.2.1 ∧ f.2.2 >>> (g.1 - f.1) ≠ g.2.2 >>> (f.1 - g.1))
  rw [← bitsAt_of_hasFields hl hf, ← bitsAt_of_hasFields hm hg, bitsAt_shiftRight, bitsAt_shiftRight] at differ
  exact differ (by congr 1 <;> omega)

theorem findRow_of_mem {w : Nat} {r : Row32} : ∀ {l : List Row32}, l.Pairwise (fun a b => fixedClash b.fixed a.fixed = true) →
    r ∈ l → hasFields w r.fixed = true → findRow w l = some (r.read w)
  | q :: l, apart, hr, fields => by
    obtain ⟨first, rest⟩ := List.pairwise_cons.mp apart
    rcases List.mem_cons.mp hr with rfl | hr
    · exact if_pos fields
    · rw [findRow, not_hasFields_of_clash (first _ hr) fields]
      exact findRow_of_mem rest hr fields

theorem gafferRows_apart : gafferRows.Pairwise (fun a b => fixedClash b.fixed a.fixed = true) := by decide +kernel

theorem scalarRows_apart : scalarRows.tail.Pairwise (fun a b => fixedClash b.fixed a.fixed = true) := by decide +kernel

/-- The row whose readings are built by the constructor of an instruction. -/
noncomputable def rowOf (l : List Row32) (i : Instr) : Option Row32 := l.find? (fun r => (r.read 0).ctorIdx == i.ctorIdx)

theorem checked_wf {o : Option Instr} {i : Instr} : checked o = some i ↔ o = some i ∧ i.wf = true := by
  cases o with
  | none => simp [checked]
  | some j =>
    simp only [checked, Option.ite_none_right_eq_some, Option.some.injEq]
    constructor
    · rintro ⟨wf, rfl⟩
      exact ⟨rfl, wf⟩
    · rintro ⟨rfl, wf⟩
      exact ⟨wf, rfl⟩

theorem decodeGaffer_of_row {i : Instr} {w : Nat} {r : Row32} (wf : i.wf = true) (row : rowOf gafferRows i = some r)
    (fields : hasFields w r.fixed = true) (reads : r.read w = i) : decodeGaffer w = some i :=
  checked_wf.mpr ⟨reads ▸ findRow_of_mem gafferRows_apart (List.mem_of_find?_eq_some row) fields, wf⟩

theorem decodeScalar_of_row {i : Instr} {w : Nat} {r : Row32} (wf : i.wf = true) (row : rowOf scalarRows.tail i = some r)
    (notNop : hasFields w [(25, 7, 0), (0, 25, 0)] = false) (fields : hasFields w r.fixed = true) (reads : r.read w = i) : decodeScalar w = some i := by
  refine checked_wf.mpr ⟨?_, wf⟩
  rw [scalarRows, findRow, notNop]
  exact reads ▸ findRow_of_mem scalarRows_apart (List.mem_of_find?_eq_some row) fields

theorem decodeScalar_of_clash {i : Instr} {w : Nat} {r : Row32} (wf : i.wf = true) (row : rowOf scalarRows.tail i = some r)
    (clash : fixedClash r.fixed [(25, 7, 0), (0, 25, 0)] = true) (fields : hasFields w r.fixed = true) (reads : r.read w = i) :
    decodeScalar w = some i :=
  decodeScalar_of_row wf row (not_hasFields_of_clash clash fields) fields reads

/-! Words of steps -/

theorem encodeStep_readStep {w : Nat} (lt : w < 2 ^ 64) (gap : bitsAt 53 2 w = 0) : encodeStep (bitsAt 58 6 w) (bitAt 52 w) (readStep w) = w := by
  have opc := bitsFrom_eq_add 58 6 w
  rw [bitsFrom_of_lt lt, Nat.zero_add] at opc
  rw [bitsAt_iff, Nat.zero_shiftLeft, Nat.add_zero] at gap
  suffices encodeStep (bitsAt 58 6 w) (bitAt 52 w) (readStep w) = bitsFrom 0 w by rwa [bitsFrom_zero] at this
  simp only [encodeStep, readStep, putb_eq_put, ofBool_bitAt, add_put_fld_eq_bitsFrom, Nat.zero_add, Nat.reduceAdd, gap, opc]

theorem readStep_encodeStep (opc : Nat) (ev : Bool) (f : Step) : readStep (encodeStep opc ev f) = f := by
  obtain ⟨ci, ls, dbl, pk, pv, buf, cnt⟩ := f
  simp +decide only [readStep, encodeStep, putb_eq_put, fld_add_put, fld_add_put_of_le, bitAt_add_put, bitAt_add_put_of_le,
    roomAt_add_put, roomAt_shiftLeft, ofBool_eq_one]

theorem bitAt_encodeStep (opc : Nat) (ev : Bool) (f : Step) : bitAt 52 (encodeStep opc ev f) = ev := by
  simp +decide only [encodeStep, putb_eq_put, bitAt_add_put, bitAt_add_put_of_le, roomAt_add_put, roomAt_shiftLeft, ofBool_eq_one]

theorem gap_encodeStep (opc : Nat) (ev : Bool) (f : Step) : encodeStep opc ev f >>> 53 % 4 = 0 := by
  change bitsAt 53 2 _ = 0
  simp +decide only [encodeStep, putb_eq_put, bitsAt_add_put_of_le, bitsAt_add_put_of_ge, roomAt_add_put, roomAt_shiftLeft, bitsAt_shiftLeft]

theorem opcode_encodeStep {opc : Nat} (lt : opc < 64) (ev : Bool) (f : Step) : encodeStep opc ev f >>> 58 % 64 = opc := by
  change bitsAt 58 6 _ = opc
  simp +decide only [encodeStep, putb_eq_put, bitsAt_add_put_of_le, roomAt_add_put, roomAt_shiftLeft]
  rw [bitsAt, Nat.shiftLeft_shiftRight]
  exact Nat.mod_eq_of_lt lt

theorem decodeStep_encodeStep {opc : Nat} {ev : Bool} {f : Step} {i : Instr} (lt : opc < 64) (step : stepOf opc ev f = some i) (wf : i.wf = true) :
    decodeStep (encodeStep opc ev f) = some i := by
  rw [decodeStep, gap_encodeStep, opcode_encodeStep lt, bitAt_encodeStep, readStep_encodeStep, step]
  exact checked_wf.mpr ⟨rfl, wf⟩

theorem encode_stepOf {opc : Nat} {ev : Bool} {f : Step} {i : Instr} (h : stepOf opc ev f = some i) : encode i = some (encodeStep opc ev f) := by
  unfold stepOf at h
  split at h
  case h_16 => cases h
  all_goals
    cases h
    rfl

/-! Lane words -/

theorem encodeCtl_readCtl {w : Nat} : encodeCtl (w >>> 86) (readCtl w) = bitsFrom 61 w := by
  simp only [encodeCtl, readCtl, putb_eq_put, ofBool_bitAt, add_put_fld_eq_bitsFrom, Nat.reduceAdd]
  rfl

theorem encodeLR_readLR {w : Nat} : encodeLR (w >>> 86) (readCtl w) (readLR w) = w := by
  suffices encodeLR (w >>> 86) (readCtl w) (readLR w) = bitsFrom 0 w by rwa [bitsFrom_zero] at this
  simp only [encodeLR, readLR, encodeCtl_readCtl, add_put_fld_eq_bitsFrom, Nat.reduceAdd]

theorem encodeLI_readLI {w : Nat} : encodeLI (w >>> 86) (readCtl w) (readLI w) = w := by
  suffices encodeLI (w >>> 86) (readCtl w) (readLI w) = bitsFrom 0 w by rwa [bitsFrom_zero] at this
  simp only [encodeLI, readLI, encodeCtl_readCtl, add_put_fld_eq_bitsFrom, Nat.reduceAdd]

theorem encodeLM_readLM {w : Nat} : encodeLM (w >>> 86) (readCtl w) (readLM w) = w := by
  suffices encodeLM (w >>> 86) (readCtl w) (readLM w) = bitsFrom 0 w by rwa [bitsFrom_zero] at this
  simp only [encodeLM, readLM, encodeCtl_readCtl, add_put_fld_eq_bitsFrom, Nat.reduceAdd]

theorem shiftRight_encodeCtl (opc : Nat) (c : LaneCtl) : encodeCtl opc c >>> 86 = opc := by
  simp +decide only [encodeCtl, putb_eq_put, shiftRight_add_put, roomAt_add_put, roomAt_shiftLeft, Nat.shiftLeft_shiftRight]

theorem readCtl_encodeCtl (opc : Nat) (c : LaneCtl) : readCtl (encodeCtl opc c) = c := by
  obtain ⟨pneg, pidx, qneg, qidx, look, cede, free, sf, ch⟩ := c
  simp +decide only [readCtl, encodeCtl, putb_eq_put, fld_add_put, fld_add_put_of_le, bitAt_add_put, bitAt_add_put_of_le,
    roomAt_add_put, roomAt_shiftLeft, ofBool_eq_one]

theorem roomAt_encodeCtl {lo n : Nat} (opc : Nat) (c : LaneCtl) (le : lo + n ≤ 61) : roomAt lo n (encodeCtl opc c) = true := by
  refine roomAt_of_zero ?_ le
  simp +decide only [encodeCtl, putb_eq_put, roomAt_add_put, roomAt_shiftLeft]

theorem shiftRight_encodeLR (opc : Nat) (c : LaneCtl) (r : LR) : encodeLR opc c r >>> 86 = opc := by
  simp +decide only [encodeLR, shiftRight_add_put, roomAt_add_put, roomAt_encodeCtl, shiftRight_encodeCtl]

theorem shiftRight_encodeLI (opc : Nat) (c : LaneCtl) (r : LI) : encodeLI opc c r >>> 86 = opc := by
  simp +decide only [encodeLI, shiftRight_add_put, roomAt_add_put, roomAt_encodeCtl, shiftRight_encodeCtl]

theorem shiftRight_encodeLM (opc : Nat) (c : LaneCtl) (r : LM) : encodeLM opc c r >>> 86 = opc := by
  simp +decide only [encodeLM, shiftRight_add_put, roomAt_add_put, roomAt_encodeCtl, shiftRight_encodeCtl]

/-- The operand fields stand below the control part. -/
theorem readCtl_add_put {h lo n : Nat} {x : BitVec n} (le : lo + n ≤ 61) (free : roomAt lo n h = true) : readCtl (h + put lo x) = readCtl h := by
  have le (k : Nat) : lo + n ≤ 61 + k := by omega
  simp only [readCtl, bitAt_add_put_of_le (le 24) free, fld_add_put_of_le (le 20) free, bitAt_add_put_of_le (le 19) free,
    fld_add_put_of_le (le 15) free, fld_add_put_of_le (le 12) free, bitAt_add_put_of_le (le 11) free, fld_add_put_of_le (le 7) free,
    fld_add_put_of_le (le 3) free, fld_add_put_of_le (le 0) free]

theorem readCtl_encodeLR (opc : Nat) (c : LaneCtl) (r : LR) : readCtl (encodeLR opc c r) = c := by
  simp +decide only [encodeLR, readCtl_add_put, roomAt_add_put, roomAt_encodeCtl, readCtl_encodeCtl]

theorem readCtl_encodeLI (opc : Nat) (c : LaneCtl) (r : LI) : readCtl (encodeLI opc c r) = c := by
  simp +decide only [encodeLI, readCtl_add_put, roomAt_add_put, roomAt_encodeCtl, readCtl_encodeCtl]

theorem readCtl_encodeLM (opc : Nat) (c : LaneCtl) (r : LM) : readCtl (encodeLM opc c r) = c := by
  simp +decide only [encodeLM, readCtl_add_put, roomAt_add_put, roomAt_encodeCtl, readCtl_encodeCtl]

theorem readLR_encodeLR (opc : Nat) (c : LaneCtl) (r : LR) : readLR (encodeLR opc c r) = r := by
  simp +decide only [readLR, encodeLR, fld_add_put, fld_add_put_of_le, roomAt_add_put, roomAt_encodeCtl]

theorem readLI_encodeLI (opc : Nat) (c : LaneCtl) (r : LI) : readLI (encodeLI opc c r) = r := by
  simp +decide only [readLI, encodeLI, fld_add_put, fld_add_put_of_le, roomAt_add_put, roomAt_encodeCtl]

theorem readLM_encodeLM (opc : Nat) (c : LaneCtl) (r : LM) : readLM (encodeLM opc c r) = r := by
  simp +decide only [readLM, encodeLM, fld_add_put, fld_add_put_of_le, roomAt_add_put, roomAt_encodeCtl]

/-! Lane opcodes -/

theorem mem_of_findOp {α : Type} {opc : Nat} {f : α} : ∀ {l : List (Nat × α)}, findOp opc l = some f → (opc, f) ∈ l
  | (k, g) :: l, h => by
    rw [findOp] at h
    split at h
    case isTrue eq => rw [beq_iff_eq.mp eq, Option.some.inj h]; exact List.mem_cons_self
    case isFalse => exact List.mem_cons_of_mem _ (mem_of_findOp h)

theorem encode_lrRows : ∀ p ∈ lrRows, ∀ c r, encode (p.2 c r) = some (encodeLR p.1 c r) := by
  unfold lrRows
  repeat' (refine List.forall_mem_cons.2 ⟨fun _ _ => rfl, ?_⟩)
  exact List.forall_mem_nil _

theorem encode_liRows : ∀ p ∈ liRows, ∀ c r, encode (p.2 c r) = some (encodeLI p.1 c r) := by
  unfold liRows
  repeat' (refine List.forall_mem_cons.2 ⟨fun _ _ => rfl, ?_⟩)
  exact List.forall_mem_nil _

theorem encode_lmRows : ∀ p ∈ lmRows, ∀ c r, encode (p.2 c r) = some (encodeLM p.1 c r) := by
  unfold lmRows
  repeat' (refine List.forall_mem_cons.2 ⟨fun _ _ => rfl, ?_⟩)
  exact List.forall_mem_nil _

theorem decodeLane_iff {w : Nat} {i : Instr} : decodeLane w = some i ↔ readLane w = some i ∧ i.wf = true := by
  rw [decodeLane, decodeLaneIn]
  cases readLane w with
  | none => simp
  | some j =>
    simp only [Option.ite_none_right_eq_some, Option.some.injEq, Instr.wf]
    exact ⟨fun ⟨wf, eq⟩ => ⟨eq, eq ▸ wf⟩, fun ⟨eq, wf⟩ => ⟨eq ▸ wf, eq⟩⟩

theorem encode_of_readLane {w : Nat} {i : Instr} (h : readLane w = some i) : encode i = some w := by
  rw [readLane] at h
  split at h
  case h_1 f found => rw [← Option.some.inj h, encode_lrRows _ (mem_of_findOp found), encodeLR_readLR]
  split at h
  case h_1 f found => rw [← Option.some.inj h, encode_liRows _ (mem_of_findOp found), encodeLI_readLI]
  split at h
  case h_1 f found => rw [← Option.some.inj h, encode_lmRows _ (mem_of_findOp found), encodeLM_readLM]
  case h_2 => cases h

section
variable {opc : Nat} {c : LaneCtl}

theorem decodeLane_encodeLR {r : LR} {f : LaneCtl → LR → Instr} (found : findOp opc lrRows = some f) (wf : (f c r).wf = true) :
    decodeLane (encodeLR opc c r) = some (f c r) := by
  rw [decodeLane_iff, readLane, shiftRight_encodeLR, readCtl_encodeLR, readLR_encodeLR, found]
  exact ⟨rfl, wf⟩

theorem decodeLane_encodeLI {r : LI} {f : LaneCtl → LI → Instr} (other : findOp opc lrRows = none) (found : findOp opc liRows = some f)
    (wf : (f c r).wf = true) : decodeLane (encodeLI opc c r) = some (f c r) := by
  rw [decodeLane_iff, readLane, shiftRight_encodeLI, readCtl_encodeLI, readLI_encodeLI, other, found]
  exact ⟨rfl, wf⟩

theorem decodeLane_encodeLM {r : LM} {f : LaneCtl → LM → Instr} (other : findOp opc lrRows = none) (other' : findOp opc liRows = none)
    (found : findOp opc lmRows = some f) (wf : (f c r).wf = true) : decodeLane (encodeLM opc c r) = some (f c r) := by
  rw [decodeLane_iff, readLane, shiftRight_encodeLM, readCtl_encodeLM, readLM_encodeLM, other, other', found]
  exact ⟨rfl, wf⟩

end

/-! Clause headers (R356) -/

theorem decodeHeader_encodeHeader {h : ClauseHeader} (a : h.seta.toNat ≤ 11 ∨ h.seta = 15) (b : h.setb.toNat ≤ 11 ∨ h.setb = 15) :
    decodeHeader (encodeHeader h) = some h := by
  obtain ⟨lenm1, wait, seta, setb⟩ := h
  have opcode : encodeHeader ⟨lenm1, wait, seta, setb⟩ >>> 86 = 0x3FF := by
    simp +decide only [encodeHeader, shiftRight_add_put, roomAt_add_put]
  have rest : bitsAt 0 62 (encodeHeader ⟨lenm1, wait, seta, setb⟩) = 0 := by
    simp +decide only [encodeHeader, bitsAt_add_put_of_ge]
  have fields : (fld 4 82 (encodeHeader ⟨lenm1, wait, seta, setb⟩) = lenm1 ∧ fld 12 70 (encodeHeader ⟨lenm1, wait, seta, setb⟩) = wait) ∧
      fld 4 66 (encodeHeader ⟨lenm1, wait, seta, setb⟩) = seta ∧ fld 4 62 (encodeHeader ⟨lenm1, wait, seta, setb⟩) = setb := by
    simp +decide only [encodeHeader, fld_add_put, fld_add_put_of_le, roomAt_add_put, and_self]
  obtain ⟨⟨h1, h2⟩, h3, h4⟩ := fields
  have low : encodeHeader ⟨lenm1, wait, seta, setb⟩ % 0x4000000000000000 = 0 := rest
  simp only [decodeHeader, opcode, low, h1, h2, h3, h4]
  exact if_pos (by simpa only [beq_self_eq_true, Bool.true_and, Bool.and_eq_true, Bool.or_eq_true, decide_eq_true_eq, beq_iff_eq] using ⟨a, b⟩)

theorem encodeHeader_of_decodeHeader {w : Nat} {h : ClauseHeader} (decoded : decodeHeader w = some h) : encodeHeader h = w := by
  simp only [decodeHeader, Option.ite_none_right_eq_some, Bool.and_eq_true, beq_iff_eq, Option.some.injEq] at decoded
  obtain ⟨⟨⟨⟨opcode, rest⟩, -⟩, -⟩, rfl⟩ := decoded
  have opc : bitsFrom 86 w = 0x3FF <<< 86 := by rw [bitsFrom, opcode]
  have gap : bitsFrom 0 w = bitsFrom (0 + 62) w + 0 <<< 0 := bitsAt_iff.mp rest
  rw [bitsFrom_zero, Nat.zero_shiftLeft, Nat.zero_add, Nat.add_zero] at gap
  suffices encodeHeader _ = bitsFrom 62 w from this.trans gap.symm
  simp only [encodeHeader, add_put_fld_eq_bitsFrom, Nat.reduceAdd, opc]

/-! All streams -/

/-- The all-zero word is SNOP's (R348), and no word of a well-formed SADD is that one. -/
theorem sadd_not_snop {d a b : BitVec 6} (wf : (Instr.sadd d a b).wf = true) :
    hasFields (0 + put 19 d + put 13 a + put 7 b) [(25, 7, 0), (0, 25, 0)] = false := by
  refine Bool.eq_false_iff.mpr fun zero => ?_
  obtain ⟨-, low⟩ := hasFields_cons.mp zero
  obtain ⟨low, -⟩ := hasFields_cons.mp low
  simp only [bitsAt, put, Nat.shiftRight_zero] at low
  obtain ⟨hd, ha, hb⟩ : d.toNat = 0 ∧ a.toNat = 0 ∧ b.toNat = 0 := by omega
  obtain rfl : d = 0 := BitVec.eq_of_toNat_eq hd
  obtain rfl : a = 0 := BitVec.eq_of_toNat_eq ha
  obtain rfl : b = 0 := BitVec.eq_of_toNat_eq hb
  exact absurd wf (by decide)

theorem decode_encode {i : Instr} {w : Nat} (wf : i.wf = true) (h : encode i = some w) : ∃ st : Stream, st.decode w = some i := by
  cases i with
  | cmov | cmovImm | cadd | caddImm | csub | csubImm | cand | candImm | cor | corImm | cshl | cshlImm | ccmp | ccmpImm | cbr |
    cjmp | ccall | cret | cld | cst | ctime | chalt | creq | cawait | cstat | cbind | crel | ctear | cpre | cgate | cslot | cver |
    crtt | cnote | cwait =>
    obtain rfl := Option.some.inj h
    refine ⟨.gaffer, decodeGaffer_of_row wf rfl ?_ ?_⟩ <;>
    simp +decide only [hasFields_cons, hasFields_nil, and_true, bitsAt_add_put_of_le, bitsAt_add_put_of_ge, fld_add_put, fld_add_put_of_le, roomAt_add_put]
  | snop =>
    obtain rfl := Option.some.inj h
    exact ⟨.scalar, rfl⟩
  | ssub | sadc | ssbc | smul | smulh | sdiv | srem | sand | sor | sxor | sandn | sshl | sshr | ssra | srol | smin | smax | sclz |
    spopc | sbrev | scmp | slhi | ssel | slea | saddImm | sandImm | sorImm | sxorImm | sshlImm | sshrImm | ssraImm | srolImm |
    smulImm | scmpImm | sld | sst | sldk | satom | sbr | sjmp | sjmpx | scall | sret | split | syield | sexit | lrun | lrunx |
    sgetx | swaitf | swaitc | bara | barw | phend | txb | txc | txr | txalt | txa | fence | xcopy | xgath | xcoll | xsend |
    launch | sigq | trap | time | cyc | srsr | swsr | brk | burst | burstx | perfl =>
    obtain rfl := Option.some.inj h
    refine ⟨.scalar, decodeScalar_of_clash wf rfl rfl ?_ ?_⟩ <;>
    simp +decide only [hasFields_cons, hasFields_nil, and_true, bitsAt_add_put_of_le, bitsAt_add_put_of_ge, fld_add_put, fld_add_put_of_le, roomAt_add_put]
  | send | recv | rrs | rrd | copy | bcast | wait | waitEv | loop | endl | peer | setop | setch | notify | done =>
    obtain rfl := Option.some.inj h
    exact ⟨.step, decodeStep_encodeStep (by decide) rfl wf⟩
  | vadd | vsub | vadd3 | vmul | vmulh | vmad | vmadw | vmin | vmax | vabs | vneg | vand | vor | vxor | vlop3 | vshl | vshr |
    vsra | vshf | vbfx | vbfi | vclz | vpopc | vbrev | vcmp | vsel | vmov | vlea | vadd2 | vsub2 | vmul2 | vmac2 | vsat | vshrr |
    vdot4 | vdot8 | vdott | vfadd | vfsub | vfmul | vfma | vfmin | vfmax | vfabs | vfcmp | vfclass | vfrnd | vfdiv | vfsqrt |
    vfrcp | vfrsq | vfex2 | vflg2 | vfsin | vfcos | vftanh | vhfma2 | vhadd2 | vhmul2 | vcvt | vpack | vunpk | vqnt | vdqnt |
    vslide | vshfl | vbcast | vscan | vred | vballot | vput | glop | gmov | vrand | vatomCas | vorgld | vorgst | vresume | mma |
    mmasp | tsweep | tcvt | tred | tscan =>
    obtain rfl := Option.some.inj h
    exact ⟨.lane, decodeLane_encodeLR rfl wf⟩
  | vaddI | vsubI | vmulI | vmadI | vminI | vmaxI | vandI | vorI | vxorI | vlop3I | vshlI | vshrI | vsraI | vcmpI | vselI |
    vmovI | vadd2I | vsub2I | vmul2I | vshrrI | vfaddI | vfsubI | vfmulI | vfmaI | vfminI | vfmaxI | vfcmpI | vslideI | vbcastI =>
    obtain rfl := Option.some.inj h
    exact ⟨.lane, decodeLane_encodeLI rfl rfl wf⟩
  | vld | vst | vatom | vredm | vpref =>
    obtain rfl := Option.some.inj h
    exact ⟨.lane, decodeLane_encodeLM rfl rfl rfl wf⟩
  | sadd d a b =>
    obtain rfl := Option.some.inj h
    refine ⟨.scalar, decodeScalar_of_row wf rfl (sadd_not_snop wf) ?_ ?_⟩ <;>
    simp +decide only [hasFields_cons, hasFields_nil, and_true, bitsAt_add_put_of_le, bitsAt_add_put_of_ge, fld_add_put, fld_add_put_of_le, roomAt_add_put]
  | _ => exact nomatch h

/-- Settles O54: an encoded instruction's row of the opcode map is found, and each operand is read where it was put. -/
theorem decodeOfEncode : Obligations.DecodeOfEncode := ⟨fun _ _ => decode_encode, fun _ => decodeHeader_encodeHeader⟩

theorem wf_and_encode_of_findRow {l : List Row32} {w : Nat} {i : Instr} (inverts : ∀ r ∈ l, r.Inverts) (lt : w < 2 ^ 32)
    (h : checked (findRow w l) = some i) : i.wf = true ∧ encode i = some w := by
  obtain ⟨found, wf⟩ := checked_wf.mp h
  obtain ⟨r, hr, fields, rfl⟩ := findRow_mem found
  exact ⟨wf, inverts r hr w lt fields⟩

theorem wf_and_encode_of_decodeStep {w : Nat} {i : Instr} (lt : w < 2 ^ 64) (h : decodeStep w = some i) : i.wf = true ∧ encode i = some w := by
  obtain ⟨gap, h⟩ := Option.ite_none_right_eq_some.mp h
  obtain ⟨step, wf⟩ := checked_wf.mp h
  exact ⟨wf, (encode_stepOf step).trans (congrArg some (encodeStep_readStep lt (beq_iff_eq.mp gap)))⟩

theorem wf_and_encode_of_decodeLane {w : Nat} {i : Instr} (h : decodeLane w = some i) : i.wf = true ∧ encode i = some w := by
  obtain ⟨read, wf⟩ := decodeLane_iff.mp h
  exact ⟨wf, encode_of_readLane read⟩

/-- Settles O55: the fixed fields and the fields that a row reads tile its word, so that what is read is put back. -/
theorem encodeOfDecode : Obligations.EncodeOfDecode :=
  ⟨fun _ _ => wf_and_encode_of_findRow gafferRows_inverts, fun _ _ => wf_and_encode_of_findRow scalarRows_inverts,
    fun _ _ => wf_and_encode_of_decodeStep, fun _ _ _ => wf_and_encode_of_decodeLane, fun _ _ _ => encodeHeader_of_decodeHeader⟩

/-- Settles O53: each word is read by evaluation. -/
theorem sampleWords : Obligations.SampleWords := by
  unfold Obligations.SampleWords
  decide

end Sys2Proof
end

