-- ==== Sys2Proof/Proofs/GafferRegisters.lean ====
section
/-! PROOF. Gaffer instructions that write a register or move the program counter (R85, R86, R89, R102 to R105, R107, R115, R117): each is
one change of its thread, read off what the thread's registers give back. -/

namespace Sys2Proof.Machine
open Sys2Proof.Claims

/-! Registers of a thread -/

theorem GThread.rd_wr (g : GThread) (d r : Nat) (v : DWord) : (g.wr d v).rd r = if r = d ∧ r ≠ 0 then v else g.rd r := by
  by_cases hd : d = 0
  · simp +contextual [GThread.wr, hd]
  · by_cases hr : r = 0
    · simp [GThread.rd, hr]
    · simp [GThread.wr, GThread.rd, hd, hr, tget_tset]

section
variable {s : State} {n : Nat} {g : GThread} (h : Gaffer s n g)
include h

theorem asGaffer_run (k : Nat → GThread → Out) : asGaffer s k = k n g := by
  obtain ⟨cur, low, thread, runs⟩ := h
  simp [asGaffer, cur, low, thread, runs]

end

section
variable {s : State} {n : Nat} {g : GThread}

/-- A thread that changes no more than its program counter, its wait and a register has written that. -/
theorem gafferWrote_setGth {x : GThread} {pc v : DWord} {d : BitVec 4} (regs : ∀ r, x.rd r = if r = d.toNat ∧ r ≠ 0 then v else g.rd r)
    (rest : x = { g with pc := pc, regs := x.regs, wait := .none }) : GafferWrote s (s.setGth n x) n g pc d v :=
  ⟨x, rfl, State.gth_setGth .., regs, rest, fun _ hk => State.gth_setGth_ne _ _ _ hk⟩

theorem GThread.rd_congr {x y : GThread} (h : x.regs = y.regs) (r : Nat) : x.rd r = y.rd r := by rw [GThread.rd, GThread.rd, h]

theorem GThread.wr_eq (g : GThread) (d : Nat) (v : DWord) : g.wr d v = { g with regs := (g.wr d v).regs } := by
  unfold GThread.wr
  split <;> rfl

theorem State.gDone_wrote (h : Gaffer s n g) (d : BitVec 4) (v : DWord) : GafferWrote s (s.gDone n d.toNat v) n g (g.pc + 4) d v := by
  obtain ⟨-, -, rfl, runs⟩ := h
  refine gafferWrote_setGth (fun r => ?_) ?_
  · exact (GThread.rd_congr rfl r).trans (GThread.rd_wr ..)
  · rw [GThread.wr_eq, ← runs]

theorem State.gGoto_wrote (h : Gaffer s n g) (idle : g.wait = .none) (pc : DWord) : GafferWrote s (s.gGoto n pc) n g pc 0 0 := by
  obtain ⟨-, -, rfl, -⟩ := h
  refine gafferWrote_setGth (fun r => ?_) (by rw [← idle])
  rw [if_neg fun ⟨zero, other⟩ => other zero]
  exact GThread.rd_congr rfl r

end

/-! Results (R103, R104, R107, R115, R117) -/

theorem gives_of_result {i : Instr} {d : BitVec 4} {v w : State → GThread → DWord} (run : ∀ s, exec i s = gafferResult s d.toNat (w s))
    (same : ∀ s g, w s g = v s g) : Gives i d v := fun s _ g h =>
  ⟨_, (run s).trans (asGaffer_run h _), same s g ▸ State.gDone_wrote h d (w s g)⟩

theorem shiftBy_eq (x y : DWord) : shiftBy x y =
    if 0 ≤ y.toInt ∧ y.toInt ≤ 63 then x <<< y.toNat else if -63 ≤ y.toInt ∧ y.toInt < 0 then x >>> (-y).toNat else 0 := by
  have hn : y.toInt < 0 → -63 ≤ y.toInt → (-y.toInt).toNat = (-y).toNat := by
    intro a b
    rw [BitVec.toInt_eq_toNat_cond] at *
    rw [BitVec.toNat_neg]
    split at a <;> omega
  have hp : 0 ≤ y.toInt → y.toInt.toNat = y.toNat := by
    intro a
    rw [BitVec.toInt_eq_toNat_cond] at *
    split at a <;> omega
  simp only [shiftBy, Bool.and_eq_true, decide_eq_true_eq]
  split
  next a => rw [hp a.1]
  next =>
    split
    next b => rw [hn b.2 b.1]
    next => rfl

theorem compare64_eq (x y : DWord) : compare64 x y = if x.toInt < y.toInt then 0xFFFFFFFFFFFFFFFF else if x = y then 0 else 1 := by
  simp only [compare64, beq_iff_eq]
  rfl

theorem crtt_eq (s : State) (p : Nat) : (if 32 ≤ p || !(s.port p).valid then (0 : DWord) else (s.port p).rttc.zeroExtend 64) =
    if 32 ≤ p ∨ (s.port p).valid = false then 0 else (s.port p).rttc.zeroExtend 64 := by
  simp only [Bool.or_eq_true, decide_eq_true_eq, Bool.not_eq_true']

/-- The clause on arithmetic, comparisons, time and fabric queries. -/
theorem gafferArithmetic : GafferArithmetic := by
  intro d a b n i
  refine ⟨?_, ?_, ?_, ?_, ?_, ?_, ?_, ?_, ?_, ?_, ?_, ?_, ?_, ?_, ?_, ?_, ?_⟩
  case refine_11 | refine_12 => exact gives_of_result (fun _ => rfl) (fun _ _ => shiftBy_eq ..)
  case refine_13 | refine_14 => exact gives_of_result (fun _ => rfl) (fun _ _ => compare64_eq ..)
  case refine_16 => exact gives_of_result (fun _ => rfl) (fun s g => crtt_eq s (g.rd a.toNat).toNat)
  all_goals exact gives_of_result (fun _ => rfl) (fun _ _ => rfl)

/-! Control (R86, R89, R105) -/

section
variable {s : State} {n : Nat} {g : GThread} (h : Gaffer s n g)
include h

theorem exec_cbr (d k : BitVec 4) (i : BitVec 18) : exec (.cbr d k i) s =
    .next (s.gGoto n (if cbrHolds k.toNat (g.rd d.toNat) then g.target i else g.pc + 4)) := by
  change execCbr d k i s = _
  rw [execCbr, asGaffer_run h]

theorem exec_cjmp (i : BitVec 18) : exec (.cjmp i) s = .next (s.gGoto n (g.target i)) := by
  change execCjmp i s = _
  rw [execCjmp, asGaffer_run h]

theorem exec_ccall (i : BitVec 18) : exec (.ccall i) s = .next ((s.setGth n (g.wr 15 (g.pc + 4))).gGoto n (g.target i)) := by
  change execCcall i s = _
  rw [execCcall, asGaffer_run h]

theorem exec_cret : exec .cret s = .next (if codeAddr (g.rd 15).toNat then s.gGoto n (g.rd 15) else s.gFault n 5 0) := by
  change execCret s = _
  rw [execCret, asGaffer_run h]

theorem exec_chalt : exec .chalt s = .next ((s.gComplete n 0 (g.rd 1).toNat).setGth n
    { (s.gComplete n 0 (g.rd 1).toNat).gth n with st := 0, cmd := none, wait := .none }) := by
  change execChalt s = _
  rw [execChalt, asGaffer_run h]

end

theorem State.ccall_wrote {s : State} {n : Nat} {g : GThread} (idle : g.wait = .none) (pc : DWord) :
    GafferWrote s ((s.setGth n (g.wr 15 (g.pc + 4))).gGoto n pc) n g pc 15 (g.pc + 4) := by
  rw [State.gGoto, State.setGth_setGth, State.gth_setGth]
  refine gafferWrote_setGth (fun r => (GThread.rd_congr rfl r).trans (GThread.rd_wr ..)) ?_
  rw [GThread.wr_eq, ← idle]

theorem codeAddr_iff {a : Nat} : codeAddr a = true ↔ a % 4 = 0 ∧ a < 0x40000 := by simp [codeAddr]

/-- The clause on branches, calls and CHALT. -/
theorem gafferControl : GafferControl := by
  intro d i s n g h idle target x br
  have goes (pc : DWord) := State.gGoto_wrote h idle pc
  have htarget : g.target i = target := congrArg (g.pc + ·) (mul_comm ..)
  have branch {k : BitVec 4} {p : Prop} (hk : cbrHolds k.toNat x = true ↔ p) : br k p :=
    ⟨fun yes => ⟨_, exec_cbr h d k i, by rw [if_pos (hk.mpr yes), htarget]; exact goes _⟩,
      fun no => ⟨_, exec_cbr h d k i, by rw [if_neg (mt hk.mp no)]; exact goes _⟩⟩
  refine ⟨branch ?_, branch ?_, branch ?_, branch ?_, branch ?_, branch ?_, ⟨_, exec_cjmp h i, htarget ▸ goes _⟩,
    ⟨_, exec_ccall h i, htarget ▸ State.ccall_wrote idle _⟩, fun low aligned => ?_, fun bad => ?_, ⟨_, exec_chalt h, ?_⟩⟩
  iterate 6 simp [cbrHolds]
  · exact ⟨_, exec_cret h, by rw [if_pos (codeAddr_iff.mpr ⟨aligned, low⟩)]; exact goes _⟩
  · refine ⟨_, exec_cret h, if_neg fun ok => ?_⟩
    obtain ⟨aligned, low⟩ := codeAddr_iff.mp ok
    omega
  · simp

/-- Settles O27: the clause on results, and the clause on where the program counter goes. -/
theorem gafferRegisters : Obligations.GafferRegisters := ⟨gafferArithmetic, gafferControl⟩

end Sys2Proof.Machine
end

