-- ==== Sys2Proof/Proofs/GafferMemory.lean ====
section
/-! PROOF. Accesses of gaffer threads (R90, R91, R93, R102, R106, R118): the address picks one of three ranges or a fault, and consecutive
bytes that were stored read back as they were written. -/

namespace Sys2Proof.Machine
open Sys2Proof.Claims

/-! Stores and threads (R90, R269) -/

@[simp] theorem State.posts_gaffer (s : State) (l : List Instr) : (s.posts l).gaffer = s.gaffer := by rw [State.posts_eq]

theorem State.touchQueue_gaffer (s : State) (lines : List Nat) (q : Nat) : (s.touchQueue lines q).gaffer = s.gaffer := by
  simp only [State.touchQueue]
  split
  · rfl
  · split
    · rfl
    · rw [State.post_eq]
      rfl

theorem State.touchStream_gaffer (s : State) (lines : List Nat) (n : Nat) : (s.touchStream lines n).gaffer = s.gaffer := by
  simp only [State.touchStream]
  split
  · rw [State.post_eq]
  · rfl

theorem State.touch_gaffer (s : State) (lines : List Nat) : (s.touch lines).gaffer = s.gaffer := by
  unfold State.touch
  rw [State.each_same State.gaffer _ (fun t n => t.touchStream_gaffer lines n), State.each_same State.gaffer _ (fun t q => t.touchQueue_gaffer lines q),
    State.posts_gaffer]

/-- No thread of the gaffer changes with a store. -/
@[simp] theorem State.gth_store (s : State) (l : List (Nat × Byte)) (n : Nat) : (s.store l).gth n = s.gth n := by
  unfold State.store
  split
  · rfl
  · rw [State.gth, State.touch_gaffer]
    rfl

theorem cells_cons (k : Nat) (b : Byte) (l : List Byte) : cells k (b :: l) = (k, b) :: cells (k + 1) l := by
  simp only [cells, List.length_cons, List.range_succ_eq_map, List.zipWith_cons_cons, List.zipWith_map_left, Nat.add_zero, Nat.succ_eq_add_one,
    Nat.add_right_comm k 1, Nat.add_assoc]

theorem keysFrom_succ (k n : Nat) : keysFrom k (n + 1) = k :: keysFrom (k + 1) n := by
  simp only [keysFrom, List.range_succ_eq_map, List.map_cons, List.map_map, Function.comp_def, Nat.add_zero, Nat.succ_eq_add_one,
    Nat.add_right_comm k 1, Nat.add_assoc]

/-- Writes of consecutive bytes change no other byte. -/
theorem Memory.read_writes_cells_ne {l : List Byte} {m : List Host.Cell} {k j : Nat} (wf : Memory.wf m = true) (h : j < k ∨ k + l.length ≤ j) :
    Memory.read (Memory.writes m (cells k l)) j = Memory.read m j := by
  induction l generalizing m k with
  | nil => rfl
  | cons b l ih =>
    rw [List.length_cons] at h
    rw [cells_cons]
    refine (ih (Memory.wf_write m k b wf) (by omega)).trans (Memory.read_write_ne m b wf (by omega))

/-- Consecutive bytes read back as they were written. -/
theorem Memory.read_writes_cells (l : List Byte) {m : List Host.Cell} (k : Nat) (wf : Memory.wf m = true) :
    (keysFrom k l.length).map (Memory.read (Memory.writes m (cells k l))) = l := by
  induction l generalizing m k with
  | nil => rfl
  | cons b l ih =>
    rw [List.length_cons, keysFrom_succ, cells_cons, List.map_cons]
    have wf' := Memory.wf_write m k b wf
    have first : Memory.read (Memory.writes (Memory.write m k b) (cells (k + 1) l)) k = b := by
      rw [Memory.read_writes_cells_ne wf' (by omega), Memory.read_write_same m k b wf]
    exact congrArg₂ _ first (ih (k + 1) wf')

theorem State.bytesAt_store {s : State} {l : List Byte} {w : Nat} (k : Nat) (len : l.length = w) (wf : Memory.wf s.mem = true) :
    (s.store (cells k l)).bytesAt k w = l := by
  rw [← len, State.bytesAt, State.peek, State.store_mem, Memory.read_writes_cells l k wf]

/-! Addresses and faults of accesses (R90, R102, R106) -/

section
variable {g : GThread} {a : BitVec 4} {z : BitVec 1} {p : BitVec 17} {at_ w : Nat}
  (addr : (g.rd a.toNat + p.zeroExtend 64).toNat = at_) (size : (if z = 1 then 8 else 4) = w)
include addr size

theorem gafferAccess_eq : gafferAccess g a z p = if at_ % w != 0 then .error 2 else match gafferRange at_ with
    | none => .error 3
    | some (2, o) => if g.ctx.isNone then .error 6 else .ok (2, o, w)
    | some (k, o) => .ok (k, o, w) := by
  have size' : (if z == 1 then 8 else 4) = w := by simpa only [beq_iff_eq] using size
  rw [← addr, ← size']
  rfl

theorem gafferAccess_misaligned (h : at_ % w ≠ 0) : gafferAccess g a z p = .error 2 := by rw [gafferAccess_eq addr size, if_pos (bne_iff_ne.mpr h)]

variable (aligned : at_ % w = 0)
include aligned

theorem gafferAccess_nowhere (h : gafferRange at_ = none) : gafferAccess g a z p = .error 3 := by
  rw [gafferAccess_eq addr size, if_neg (by simp [aligned]), h]

theorem gafferAccess_within {k o : Nat} (h : gafferRange at_ = some (k, o)) (other : k ≠ 2) : gafferAccess g a z p = .ok (k, o, w) := by
  rw [gafferAccess_eq addr size, if_neg (by simp [aligned]), h]
  split
  · contradiction
  · simp_all
  · simp_all

theorem gafferAccess_unbound {o : Nat} (h : gafferRange at_ = some (2, o)) (none : g.ctx = none) : gafferAccess g a z p = .error 6 := by
  rw [gafferAccess_eq addr size, if_neg (by simp [aligned]), h]
  exact if_pos (by rw [none]; rfl)

theorem gafferAccess_device {x o : Nat} (h : gafferRange at_ = some (2, o)) (bound : g.ctx = some x) : gafferAccess g a z p = .ok (2, o, w) := by
  rw [gafferAccess_eq addr size, if_neg (by simp [aligned]), h]
  exact if_neg (by rw [bound]; simp)

end

theorem gafferRange_local {o : Nat} (h : o < 0x40000) : gafferRange o = some (0, o) := if_pos h

theorem gafferRange_fabric {o : Nat} (lo : 0x100000000 ≤ o) (hi : o < 0x101000000) : gafferRange o = some (1, o - 0x100000000) := by
  rw [gafferRange, if_neg (by omega), if_pos (by simp [lo, hi])]

theorem gafferRange_device {o : Nat} (lo : 0x10000000000000 ≤ o) (hi : o < 0x20000000000000) :
    gafferRange o = some (2, o - 0x10000000000000) := by
  rw [gafferRange, if_neg (by omega), if_neg (by simp; omega), if_pos (by simp [lo, hi])]

theorem gafferRange_nowhere {o : Nat} (above : 0x40000 ≤ o)
    (h : o < 0x100000000 ∨ 0x101000000 ≤ o ∧ o < 0x10000000000000 ∨ 0x20000000000000 ≤ o) : gafferRange o = none := by
  rw [gafferRange, if_neg (by omega), if_neg (by simp; omega), if_neg (by simp; omega)]

theorem State.fabLoad_eq (s : State) (o : Nat) (z : BitVec 1) : s.fabLoad o (if z = 1 then 8 else 4) =
    if z = 1 then s.fabRead o + s.fabRead (o + 4) * 2 ^ 32 else s.fabRead o := by
  split <;> rfl

theorem State.fabStore_eq (s : State) (o v : Nat) (z : BitVec 1) : s.fabStore o (if z = 1 then 8 else 4) v =
    if z = 1 then (s.fabWrite o v).fabWrite (o + 4) (v / 2 ^ 32) else s.fabWrite o v := by
  split <;> rfl

/-! CLD, CST and CNOTE by the access (R91, R106, R118) -/

section
variable {s : State} {n : Nat} {g : GThread} (h : Gaffer s n g)
include h

section
variable (d : BitVec 4) {a : BitVec 4} {z : BitVec 1} {p : BitVec 17}

theorem exec_cld : exec (.cld d a z p) s = match gafferAccess g a z p, g.ctx with
    | .error c, _ => .next (s.gFault n c 0)
    | .ok (0, o, w), _ => .next (s.gDone n d.toNat (BitVec.ofNat 64 (leNat (s.bytesAt (gafKey o) w))))
    | .ok (1, o, w), _ => .next (s.gDone n d.toNat (BitVec.ofNat 64 (s.fabLoad o w)))
    | .ok (_, o, w), some x =>
      match s.devRead 0 x o w with
      | (.ok l, s) => .next (s.gDone n d.toNat (BitVec.ofNat 64 (leNat l)))
      | (.error (k, va), s) => .next (s.gMemFault n x k 0 va)
    | .ok _, none => .next (s.gFault n 6 0) := by
  change execCld d a z p s = _
  exact asGaffer_run h _

theorem exec_cst : exec (.cst d a z p) s = match gafferAccess g a z p, g.ctx with
    | .error c, _ => .next (s.gFault n c 0)
    | .ok (0, o, w), _ => .next ((s.store (cells (gafKey o) (leBytes w (g.rd d.toNat).toNat))).gNext n)
    | .ok (1, o, w), _ => .next ((s.fabStore o w (g.rd d.toNat).toNat).gNext n)
    | .ok (_, o, w), some x =>
      match s.devWrite 0 x o (leBytes w (g.rd d.toNat).toNat) with
      | (.ok _, s) => .next (s.gNext n)
      | (.error (k, va), s) => .next (s.gMemFault n x k 1 va)
    | .ok _, none => .next (s.gFault n 6 0) := by
  change execCst d a z p s = _
  exact asGaffer_run h _

section
variable {o w : Nat}

theorem exec_cld_local (access : gafferAccess g a z p = .ok (0, o, w)) :
    exec (.cld d a z p) s = .next (s.gDone n d.toNat (BitVec.ofNat 64 (leNat (s.bytesAt (gafKey o) w)))) := by
  simp only [exec_cld h, access]

theorem exec_cst_local (access : gafferAccess g a z p = .ok (0, o, w)) :
    exec (.cst d a z p) s = .next ((s.store (cells (gafKey o) (leBytes w (g.rd d.toNat).toNat))).gNext n) := by
  simp only [exec_cst h, access]

theorem exec_cld_fabric (access : gafferAccess g a z p = .ok (1, o, w)) :
    exec (.cld d a z p) s = .next (s.gDone n d.toNat (BitVec.ofNat 64 (s.fabLoad o w))) := by
  simp only [exec_cld h, access]

theorem exec_cst_fabric (access : gafferAccess g a z p = .ok (1, o, w)) :
    exec (.cst d a z p) s = .next ((s.fabStore o w (g.rd d.toNat).toNat).gNext n) := by
  simp only [exec_cst h, access]

variable {x : Nat} (bound : g.ctx = some x)
include bound

theorem exec_cld_device (access : gafferAccess g a z p = .ok (2, o, w)) : exec (.cld d a z p) s = match s.devRead 0 x o w with
    | (.ok l, s) => .next (s.gDone n d.toNat (BitVec.ofNat 64 (leNat l)))
    | (.error (k, va), s) => .next (s.gMemFault n x k 0 va) := by
  simp only [exec_cld h, access, bound]

theorem exec_cst_device (access : gafferAccess g a z p = .ok (2, o, w)) :
    exec (.cst d a z p) s = match s.devWrite 0 x o (leBytes w (g.rd d.toNat).toNat) with
    | (.ok _, s) => .next (s.gNext n)
    | (.error (k, va), s) => .next (s.gMemFault n x k 1 va) := by
  simp only [exec_cst h, access, bound]

end

/-- Both fault alike where their access has no address. -/
theorem access_faults {c : Nat} (bad : gafferAccess g a z p = .error c) :
    Ends (.cld d a z p) s (fun t => t = s.gFault n c 0) ∧ Ends (.cst d a z p) s (fun t => t = s.gFault n c 0) :=
  ⟨⟨_, by rw [exec_cld h, bad], rfl⟩, ⟨_, by rw [exec_cst h, bad], rfl⟩⟩

end

theorem exec_cnote (d a b : BitVec 4) : exec (.cnote d a b) s = if (g.rd a.toNat).toNat % 8 != 0 then .next (s.gFault n 2 0) else
    match g.ctx with
    | none => .next (s.gFault n 6 0)
    | some x =>
      match s.devUpdate 0 x (g.rd a.toNat).toNat (fun v => v + (g.rd b.toNat).toNat) with
      | (.ok old, s) => .next (s.gDone n d.toNat (BitVec.ofNat 64 old))
      | (.error (k, va), s) => .next (s.gMemFault n x k 5 va) := by
  change execCnote d a b s = _
  exact asGaffer_run h _

end

theorem State.gth_gNext (s : State) (n : Nat) : (s.gNext n).gth n = { s.gth n with pc := (s.gth n).pc + 4, st := 1, wait := .none } :=
  State.gth_setGth ..

/-- Settles O28: by the range of the address, and by what the access to it answers. -/
theorem gafferMemory : Obligations.GafferMemory := by
  intro d a b z p s n g h w at_ v faults both
  have within {k o : Nat} (aligned : at_ % w = 0) := gafferAccess_within (g := g) (a := a) (z := z) (p := p) (k := k) (o := o) rfl rfl aligned
  refine ⟨fun aligned low => ⟨?_, fun wf => ?_⟩, fun aligned lo hi => ⟨?_, ?_⟩, fun x bound aligned lo hi => ?_,
    fun bad => access_faults h d (gafferAccess_misaligned rfl rfl bad),
    fun aligned above away => access_faults h d (gafferAccess_nowhere rfl rfl aligned (gafferRange_nowhere above away)),
    fun aligned lo hi unbound => access_faults h d (gafferAccess_unbound rfl rfl aligned (gafferRange_device lo hi) unbound),
    fun bad => ⟨_, by rw [exec_cnote h, if_pos (bne_iff_ne.mpr bad)], rfl⟩,
    fun aligned unbound => ⟨_, by rw [exec_cnote h, if_neg (by simpa using aligned), unbound], rfl⟩,
    fun x aligned bound old s1 run => ⟨_, by rw [exec_cnote h, if_neg (by simpa using aligned), bound]; simp only [run], rfl⟩, fun k unbound => ?_⟩
  · exact ⟨_, exec_cld_local h d (within aligned (gafferRange_local low) (by decide)), State.gDone_wrote h d _⟩
  · have kept : (s.store (cells (gafKey at_) (leBytes w v))).gth n = g := (State.gth_store ..).trans h.thread
    have len : (leBytes w v).length = w := length_leBytes w v
    refine ⟨_, exec_cst_local h d (within aligned (gafferRange_local low) (by decide)), ?_, ?_, fun k away => ?_⟩
    · exact State.bytesAt_store (gafKey at_) len wf
    · rw [State.gth_gNext, kept]
    · change Memory.read (s.store _).mem k = _
      rw [State.store_mem]
      exact Memory.read_writes_cells_ne wf (by rwa [len])
  · refine ⟨_, exec_cld_fabric h d (within aligned (gafferRange_fabric lo hi) (by decide)), ?_⟩
    rw [State.fabLoad_eq]
    exact State.gDone_wrote h d _
  · exact ⟨_, exec_cst_fabric h d (within aligned (gafferRange_fabric lo hi) (by decide)), congrArg (State.gNext · n) (s.fabStore_eq _ v z)⟩
  · have device := gafferAccess_device (g := g) (a := a) (z := z) (p := p) rfl rfl aligned (gafferRange_device lo hi) bound
    have load := exec_cld_device h d bound device
    have store := exec_cst_device h d bound device
    exact ⟨fun l s1 run => ⟨_, load.trans (by rw [run]), rfl⟩, fun u s1 run => ⟨_, store.trans (by rw [run]), rfl⟩,
      fun k va s1 run => ⟨_, load.trans (by rw [run]), rfl⟩, fun k va s1 run => ⟨_, store.trans (by rw [run]), rfl⟩⟩
  · simp only [State.gFault, unbound, State.gth_setGth]

end Sys2Proof.Machine
end

