-- ==== Sys2Proof/Proofs/GafferEntries.lean ====
section
/-! PROOF. Circuit instructions of gaffer threads on an entry of the table (R70, R108, R109, R111 to R113): one lemma per row of the tables of
R109 and R113, and the TEAR that a row sends. -/

namespace Sys2Proof.Machine
open Sys2Proof.Claims

/-! Entries by number (R108) -/

section
variable {s : State} {n : Nat} {g : GThread} (h : Gaffer s n g) {d a : BitVec 4} {k : Nat → GThread → Nat → Nat × State}
include h

theorem onEntry_beyond (beyond : 64 ≤ (g.rd a.toNat).toNat) : onEntry s d a k = .next (s.gDone n d.toNat 3) := by
  rw [onEntry, asGaffer_run h]
  exact if_pos beyond

theorem onEntry_within (within : (g.rd a.toNat).toNat < 64) : onEntry s d a k =
    .next ((k n g (g.rd a.toNat).toNat).2.gDone n d.toNat
      ((k n g (g.rd a.toNat).toNat).2.resultWord (g.rd a.toNat).toNat (k n g (g.rd a.toNat).toNat).1)) := by
  rw [onEntry, asGaffer_run h]
  exact if_neg (Nat.not_le.mpr within)

end

theorem State.resultWord_eq (s : State) (e rc : Nat) : s.resultWord e rc = BitVec.ofNat 64
    ((s.circuit e).st.toNat * 2 ^ 28 + (s.circuit e).status.toNat * 2 ^ 24 + (s.port (s.circuit e).port.toNat).st.toNat * 2 ^ 16 + rc) := by
  simp only [State.resultWord, at_, Nat.shiftLeft_eq]

section
variable (d a b : BitVec 4) (s : State)

theorem exec_creq : exec (.creq d a) s = onEntry s d a (fun n _ e => s.request n e none) := rfl

theorem exec_cpre : exec (.cpre d a b) s = onEntry s d a (fun n g e =>
    s.request n e (if s.now < (g.rd b.toNat).toNat then some (g.rd b.toNat).toNat else none)) := rfl

theorem exec_cstat : exec (.cstat d a) s = onEntry s d a (fun _ _ _ => (0, s)) := rfl

theorem exec_cbind : exec (.cbind d a b) s = onEntry s d a (fun n g e =>
    (0, s.setCircuit e { s.circuit e with bind := (g.rd b.toNat).truncate 16, owner := BitVec.ofNat 2 n })) := rfl

theorem exec_crel : exec (.crel d a) s = onEntry s d a (fun _ _ e => (0, s.releaseEntry e)) := rfl

theorem exec_ctear : exec (.ctear d a) s = onEntry s d a (fun _ _ e => (0, s.tearEntry e)) := rfl

end

section
variable {s : State} {n : Nat} {g : GThread} (h : Gaffer s n g) {d a b : BitVec 4}
include h

theorem exec_cawait : exec (.cawait d a b) s = if 64 ≤ (g.rd a.toNat).toNat then .next (s.gDone n d.toNat 3)
    else if (s.circuit (g.rd a.toNat).toNat).settled then .next (s.gDone n d.toNat (s.resultWord (g.rd a.toNat).toNat 0))
    else if s.reached (g.rd b.toNat).toNat then .next (s.gDone n d.toNat (s.resultWord (g.rd a.toNat).toNat 2))
    else .next (s.gWaits n (g.rd b.toNat).toNat (.circuit (g.rd a.toNat).toNat d.toNat (g.rd b.toNat).toNat)) := by
  change execCawait d a b s = _
  rw [execCawait, asGaffer_run h]

/-- Every circuit instruction looks at its entry, or finds none. -/
theorem entry_beyond (beyond : 64 ≤ (g.rd a.toNat).toNat) :
    ∀ i ∈ [Instr.creq d a, .cpre d a b, .cstat d a, .cbind d a b, .crel d a, .ctear d a, .cawait d a b],
      Ends i s (fun t => GafferWrote s t n g (g.pc + 4) d 3) := by
  have none {i : Instr} {k : Nat → GThread → Nat → Nat × State} (run : exec i s = onEntry s d a k) :
      Ends i s (fun t => GafferWrote s t n g (g.pc + 4) d 3) := ⟨_, run.trans (onEntry_beyond h beyond), State.gDone_wrote h d 3⟩
  simp only [List.forall_mem_cons]
  exact ⟨none (exec_creq ..), none (exec_cpre ..), none (exec_cstat ..), none (exec_cbind ..), none (exec_crel ..), none (exec_ctear ..),
    ⟨_, (exec_cawait h).trans (if_pos beyond), State.gDone_wrote h d 3⟩, fun _ none => absurd none List.not_mem_nil⟩

end

/-! Requests (R70, R109) -/

/-- The RSV of an entry goes out now, or when its time comes. -/
def State.asks (s : State) (e : Nat) : Option Nat → State
  | some b => (s.moveEntry e { s.circuit e with st := 2, due := b }).atTime b (.cpreStart (BitVec.ofNat 6 e))
  | none => s.sendRsv e

/-- A thread takes over an entry. -/
def State.owned (s : State) (n e : Nat) : State := s.setCircuit e { s.circuit e with owner := BitVec.ofNat 2 n }

/-- An entry that has been taken over starts anew. -/
def State.renewed (s : State) (n e : Nat) : State := s.setCircuit e { s.circuit e with
  owner := BitVec.ofNat 2 n, status := 0, attempts := 0, tver := s.tvercur, side := false, freeOnDark := false, tearPending := false }

section
variable {s : State} {n e : Nat} (b : Option Nat)

theorem State.request_taken (free : (s.circuit e).st = 0 ∨ (s.circuit e).st = 6) (ok : (s.owned n e).requestOk e = true) :
    s.request n e b = (0, (s.renewed n e).asks e b) := by
  have fresh : (s.owned n e).setCircuit e { (s.owned n e).circuit e with
      status := 0, attempts := 0, tver := s.tvercur, side := false, freeOnDark := false, tearPending := false } = s.renewed n e := by
    rw [State.owned, State.circuit_setCircuit, State.setCircuit_setCircuit, State.renewed]
  rw [← fresh]
  exact (if_pos (by simpa using free)).trans (if_pos ok)

theorem State.request_failed (free : (s.circuit e).st = 0 ∨ (s.circuit e).st = 6) (bad : (s.owned n e).requestOk e = false) :
    s.request n e b = (0, (s.owned n e).moveEntry e { (s.owned n e).circuit e with st := 6, status := 8 }) :=
  (if_pos (by simpa using free)).trans (if_neg (by simpa [State.owned] using bad))

theorem State.request_again (backoff : (s.circuit e).st = 2) (first : (s.circuit e).attempts = 0) :
    s.request n e b = (0, (s.owned n e).asks e b) :=
  (if_neg (by simp [backoff])).trans (if_pos (by simp [backoff, first]))

theorem State.request_busy (used : (s.circuit e).st ≠ 0) (sound : (s.circuit e).st ≠ 6)
    (tried : ¬ ((s.circuit e).st = 2 ∧ (s.circuit e).attempts = 0)) : s.request n e b = (1, s) :=
  (if_neg (by simpa using ⟨used, sound⟩)).trans (if_neg (by simpa using tried))

end

/-! Releases (R113) -/

section
variable {s : State} {e : Nat}

theorem State.releases_unused (h : (s.circuit e).st = 0 ∨ (s.circuit e).st = 5) : s.releaseEntry e = s ∧ s.tearEntry e = s := by
  rcases h with h | h <;> simp [State.releaseEntry, State.tearEntry, h]

theorem State.releases_idle (h : (s.circuit e).st = 2 ∨ (s.circuit e).st = 6) :
    s.releaseEntry e = s.moveEntry e { s.circuit e with st := 0 } ∧ s.tearEntry e = s.moveEntry e { s.circuit e with st := 0 } := by
  rcases h with h | h <;> simp [State.releaseEntry, State.tearEntry, h]

theorem State.releases_requested (h : (s.circuit e).st = 1) :
    s.releaseEntry e = (s.moveEntry e { s.circuit e with st := 5 }).sendTear e 0 ∧
    s.tearEntry e = (s.moveEntry e { s.circuit e with st := 5 }).sendTear e 7 := by
  simp [State.releaseEntry, State.tearEntry, h]

theorem State.releases_reserved (h : (s.circuit e).st = 3) :
    s.releaseEntry e = ((s.moveEntry e { s.circuit e with st := 5 }).writeTarget (s.circuit e).port.toNat 0).sendTear e 0 ∧
    s.tearEntry e = ((s.moveEntry e { s.circuit e with st := 5 }).writeTarget (s.circuit e).port.toNat 0).sendTear e 7 := by
  simp [State.releaseEntry, State.tearEntry, h]

theorem State.tearEntry_live (h : (s.circuit e).st = 4) : s.tearEntry e =
    (((s.moveEntry e { s.circuit e with st := 5, slotOpen := false }).circLost e).writeTarget (s.circuit e).port.toNat 0).sendTear e 7 := by
  simp [State.tearEntry, h]

/-- A released LIVE entry whose port has begun to go dark. -/
def State.leaves (s : State) (e : Nat) : State :=
  (s.moveEntry e { s.circuit e with st := 5, tearPending := true, slotOpen := false }).writeTarget (s.circuit e).port.toNat 0

/-- A port is LIVE, or on its way from TRAINED to LIVE: it drains before the TEAR (R46). -/
def Port.drains (x : Port) : Prop := x.st = 3 ∨ ∃ v, x.trans = some (4, v)

theorem State.releaseEntry_live (h : (s.circuit e).st = 4) :
    (((s.leaves e).port (s.circuit e).port.toNat).drains → s.releaseEntry e = s.leaves e) ∧
    (¬ ((s.leaves e).port (s.circuit e).port.toNat).drains → s.releaseEntry e = (s.leaves e).sendTear e 0) := by
  have run : s.releaseEntry e = if ((s.leaves e).port (s.circuit e).port.toNat).st == 3 ||
      (match ((s.leaves e).port (s.circuit e).port.toNat).trans with | some (4, _) => true | _ => false)
      then s.leaves e else (s.leaves e).sendTear e 0 := by
    simp only [State.releaseEntry, h]
    rfl
  generalize (s.leaves e).port (s.circuit e).port.toNat = x at run ⊢
  have drains : ((x.st == 3 || (match x.trans with | some (4, _) => true | _ => false)) = true) ↔ x.drains := by
    rw [Port.drains, Bool.or_eq_true, beq_iff_eq]
    refine or_congr_right ?_
    split <;> simp_all
  exact ⟨fun yes => run.trans (if_pos (drains.mpr yes)), fun no => run.trans (if_neg (mt drains.mp no))⟩

end

/-! The TEAR that is sent (R64, R65, R113) -/

theorem State.sendTear_eq (s : State) (e code : Nat) : s.sendTear e code = ((s.sendCtl e 4 code 0).setCircuit e
    { (s.sendCtl e 4 code 0).circuit e with due := (s.sendCtl e 4 code 0).now + 500000, tearPending := false }).atTime
      ((s.sendCtl e 4 code 0).now + 500000) (.tearTimeout (BitVec.ofNat 6 e)) := rfl

/-- A TEAR goes to the first hop, from the accepting side to the last one, and names its code. -/
theorem State.sendTear_sends (s : State) (e code : Nat) (hc : code < 256) : ∃ p : Packet, p.cls = 2 ∧ p.typ = 4 ∧ field p.body 3 1 = code ∧
    field p.body 0 1 = (s.circuit e).reqEntry.toNat ∧
    p.dst = BitVec.ofNat 16 (((s.circuit e).route.getD (if (s.circuit e).side = true then (s.circuit e).hopcnt.toNat - 1 else 0) 0).toNat / 2 ^ 20) ∧
    s.sendTear e code = ((s.sendPacket p).setCircuit e { (s.sendPacket p).circuit e with
      due := (s.sendPacket p).now + 500000, tearPending := false }).atTime ((s.sendPacket p).now + 500000) (.tearTimeout (BitVec.ofNat 6 e)) := by
  have entry := (s.circuit e).reqEntry.isLt
  rw [← bits_route]
  refine ⟨_, rfl, rfl, ?_, ?_, rfl, State.sendTear_eq ..⟩
  · simpa [State.packet, field, leBytes, leNat] using hc
  · simp [State.packet, field, leBytes, leNat]
    omega

/-! The instructions on an entry of the table -/

section
variable {s : State} {n : Nat} {g : GThread} (h : Gaffer s n g) {d a : BitVec 4} (within : (g.rd a.toNat).toNat < 64)
include h within

/-- An instruction on an entry answers a code and the entry's state. -/
theorem entry_done {i : Instr} {k : Nat → GThread → Nat → Nat × State} (run : exec i s = onEntry s d a k) {u : State} {rc : Nat}
    (does : k n g (g.rd a.toNat).toNat = (rc, u)) : Ends i s (fun t => t = u.gDone n d.toNat (BitVec.ofNat 64
      ((u.circuit (g.rd a.toNat).toNat).st.toNat * 2 ^ 28 + (u.circuit (g.rd a.toNat).toNat).status.toNat * 2 ^ 24 +
        (u.port (u.circuit (g.rd a.toNat).toNat).port.toNat).st.toNat * 2 ^ 16 + rc))) := by
  refine ⟨_, run.trans (onEntry_within h within), ?_⟩
  rw [does, State.resultWord_eq]

end

end Sys2Proof.Machine
end

