-- ==== Sys2Proof/Proofs/GafferVersions.lean ====
section
/-! PROOF. CVER (R75, R76, R116): the notice of a new version leaves on every idle link, and the drain windows of circuits of other versions
open. -/

namespace Sys2Proof.Machine
open Sys2Proof.Claims

/-! A packet begins on an idle link (R57, R59, R494) -/

section
variable {l : Nat} {s : State}

theorem State.outPkt_freed (s : State) (l : Nat) (k : Packet) : (s.freed l k).outPkt = s.outPkt := by
  unfold State.freed
  split <;> rfl

theorem State.outPkt_sendOn (s : State) (l : Nat) (w : Waiting) : (s.sendOn l w).outPkt = s.outPkt ++ [(l, s.stamp l w)] := by
  have sent : (s.sent l w).outPkt = s.outPkt ++ [(l, s.stamp l w)] := by
    unfold State.sent
    split
    · exact State.outPkt_freed ..
    · rfl
  rw [State.sendOn_eq]
  split
  · exact sent
  · exact sent

theorem State.outPkt_pumpGo (s : State) (l n : Nat) : s.outPkt ⊆ (s.pumpGo l n).outPkt := by
  induction n generalizing s with
  | zero => exact fun _ h => h
  | succ n ih =>
    simp only [State.pumpGo]
    split
    · exact fun _ h => h
    · split
      · exact fun _ h => h
      · exact List.Subset.trans (by rw [State.outPkt_sendOn]; exact List.subset_append_left ..) (ih _)

/-- What has left on a link stays there. -/
theorem State.outPkt_toLink (s : State) (l : Nat) (k : Packet) (from_ : Option Nat) : s.outPkt ⊆ (s.toLink l k from_).outPkt :=
  State.outPkt_pumpGo (s.setLink l _) l _

/-- A packet of class 4 that meets an idle link in service with credit leaves as it is, but for its source, its number and its check sequence. -/
theorem State.toLink_leaves {k : Packet} (cls : k.cls = 4) (valid : s.fdidValid = true) (up : (s.link l).up = true)
    (idle : (s.link l).waiting = []) (room : (s.link l).unacked.length < 64) (credit : pktCredits k ≤ (s.link l).credits.getD 3 0) :
    ∃ p : Packet, (l, p) ∈ (s.toLink l k none).outPkt ∧ p = { k with src := p.src, lseq := p.lseq, fcs := p.fcs } := by
  let w : Waiting := ⟨k, none, s.ticks⟩
  let t := s.setLink l { s.link l with waiting := [w] }
  have ht : t.link l = { s.link l with waiting := [w] } := State.link_setLink ..
  have pick : ({ s.link l with waiting := [w] } : Link).pick s.fdidValid = some w := by
    have credit' : pktCredits k ≤ (s.link l).credits[3]?.getD 0 := by simpa using credit
    simp [Link.pick, w, cls, valid, credit']
  have begins : s.toLink l k none = t.sendOn l w := by
    rw [State.toLink, idle, State.pump, State.link_setLink]
    change t.pumpGo l 1 = _
    simp only [State.pumpGo, ht]
    rw [if_neg (by simp [up, room])]
    simp only [t, State.setLink_fdidValid, pick]
  have stamp : t.stamp l w = { k with src := (t.stamp l w).src, lseq := (t.stamp l w).lseq, fcs := (t.stamp l w).fcs } := by
    simp [State.stamp, w, cls, isEcho]
  exact ⟨t.stamp l w, by rw [begins, State.outPkt_sendOn]; exact List.mem_append_right _ (List.mem_singleton.mpr rfl), stamp⟩

theorem State.link_toLinks_ne {n : Nat} {ls : List Nat} (other : n ∉ ls) (s : State) (k : Packet) :
    (s.each ls (fun s l => s.toLink l k none)).link n = s.link n := by
  induction ls generalizing s with
  | nil => rfl
  | cons m ls ih =>
    rw [List.mem_cons, not_or] at other
    exact (ih other.2 _).trans (State.link_toLink_ne other.1 ..)

/-- A broadcast leaves so on each of its links that is idle, in service and has credit. -/
theorem State.toLinks_leave {k : Packet} {ls : List Nat} (once : ls.Nodup) (hl : l ∈ ls) (cls : k.cls = 4) (valid : s.fdidValid = true)
    (up : (s.link l).up = true) (idle : (s.link l).waiting = []) (room : (s.link l).unacked.length < 64)
    (credit : pktCredits k ≤ (s.link l).credits.getD 3 0) :
    ∃ p : Packet, (l, p) ∈ (s.each ls (fun s l => s.toLink l k none)).outPkt ∧ p = { k with src := p.src, lseq := p.lseq, fcs := p.fcs } := by
  obtain ⟨as, bs, rfl⟩ := List.append_of_mem hl
  have before : l ∉ as := fun h => (List.nodup_append.mp once).2.2 l h l List.mem_cons_self rfl
  let t := s.each as (fun s l => s.toLink l k none)
  have ht : t.link l = s.link l := State.link_toLinks_ne before s k
  have valid' : t.fdidValid = true := (State.Plane.each (fun s l => .toLink s l k none) as s).fdidValid.trans valid
  obtain ⟨p, mem, rest⟩ := State.toLink_leaves (s := t) cls valid' (ht ▸ up) (ht ▸ idle) (ht ▸ room) (ht ▸ credit)
  have split : s.each (as ++ l :: bs) (fun s l => s.toLink l k none) = (t.toLink l k none).each bs (fun s l => s.toLink l k none) :=
    List.foldl_append
  exact ⟨p, split ▸ State.each_keeps (P := fun u => (l, p) ∈ u.outPkt) (fun u j h => State.outPkt_toLink u j k none h) bs mem, rest⟩

end

/-! The notice of a new version (R75, R116) -/

/-- The notice of a version. -/
def State.notice (s : State) (v : BitVec 16) : Packet :=
  { s with tvercur := v }.packet 4 1 0xFFF s.pseq (leBytes 2 v.toNat ++ List.replicate 30 0)

/-- The version has moved, and its notice has gone out. -/
def State.notified (s : State) (v : BitVec 16) : State := { s with tvercur := v, pseq := s.pseq + 1 }.sendPacket (s.notice v)

/-- The drain window of an entry opens (R76). -/
def State.opensWindow (s : State) (e : Nat) : State :=
  (s.setCircuit e { s.circuit e with window := some (s.now + 10000) }).after 10000 (.drainWindowEnd (BitVec.ofNat 6 e))

/-- A TRAINED port that no circuit holds shakes hands anew, and a looped one sees its own light. -/
def State.hearsVersion (s : State) (p : Nat) : State :=
  if (s.port p).st == 2 && (s.entryOf p).isNone then ((s.setPort p { s.port p with farAt := some s.now }).sendHandshake p).tryHandshake p
  else s.loopLight p

/-- The entries whose drain windows a new version opens. -/
def State.outdated (s : State) (v : BitVec 16) : List Nat :=
  (s.circuits.filter (fun e => s.inDrainWindow e.2 && e.2.tver != v)).map (fun e => e.1)

section
variable {s : State} {v : BitVec 16}

theorem State.notified_plane : ({ s with tvercur := v, pseq := s.pseq + 1 } : State).Plane (s.notified v) := .sendPacket ..

theorem State.port_notified (p : Nat) : (s.notified v).port p = s.port p := State.notified_plane.port p

theorem State.setVersion_eq : s.setVersion v = ((s.notified v).each (List.range 32) State.hearsVersion).each
    (((s.notified v).each (List.range 32) State.hearsVersion).outdated v) State.opensWindow := rfl

theorem State.pktCredits_notice : pktCredits (s.notice v) = 1 := by simp [pktCredits, State.notice, State.packet]

theorem State.notice_leaves {l : Nat} (hl : l < 8) (valid : s.fdidValid = true) (up : (s.link l).up = true)
    (idle : (s.link l).waiting = []) (room : (s.link l).unacked.length < 64) (credit : 1 ≤ (s.link l).credits.getD 3 0) :
    ∃ p : Packet, (l, p) ∈ (s.notified v).outPkt ∧ p.cls = 4 ∧ p.typ = 1 ∧ p.dst = 0xFFF ∧ p.tver = v ∧ field p.body 0 2 = v.toNat := by
  have broadcast : s.notified v = ({ s with tvercur := v, pseq := s.pseq + 1 }.noteSeen (s.notice v)).each (List.range 8)
      (fun t l => t.toLink l (s.notice v) none) :=
    (if_neg (by simp [valid])).trans (if_pos rfl)
  obtain ⟨p, mem, rest⟩ := State.toLinks_leave (s := { s with tvercur := v, pseq := s.pseq + 1 }.noteSeen (s.notice v)) (k := s.notice v)
    List.nodup_range (List.mem_range.mpr hl) rfl valid up idle room (by rw [State.pktCredits_notice]; exact credit)
  refine ⟨p, broadcast ▸ mem, ?_⟩
  rw [rest]
  refine ⟨rfl, rfl, rfl, rfl, ?_⟩
  have body : field (s.notice v).body 0 2 = leNat (leBytes 2 v.toNat) := field_append (p := []) (m := leBytes 2 v.toNat) rfl (length_leBytes ..)
  rw [body, leNat_leBytes]
  exact Nat.mod_eq_of_lt v.isLt

/-- With no port on its way to LIVE, a new version sends its notice and opens drain windows. -/
theorem State.setVersion_quiet (quiet : ∀ p, p < 32 → (s.port p).st ≠ 1 ∧ (s.port p).st ≠ 2) :
    s.setVersion v = (s.notified v).each ((s.notified v).outdated v) State.opensWindow := by
  have ports : (s.notified v).each (List.range 32) State.hearsVersion = s.notified v := by
    refine State.each_id fun p hp => ?_
    obtain ⟨locking, trained⟩ := quiet p (List.mem_range.mp hp)
    rw [← State.port_notified (v := v)] at locking trained
    exact (if_neg fun h => trained (beq_iff_eq.mp (Bool.and_eq_true_iff.mp h).1)).trans (State.loopLight_off (.inl locking))
  rw [State.setVersion_eq, ports]

theorem State.mem_outdated {q : Nat} {x : Circuit} (hq : tfind s.circuits q = some x) (open_ : s.inDrainWindow x = true) (old : x.tver ≠ v) :
    q ∈ (s.notified v).outdated v := by
  have open' : (s.notified v).inDrainWindow x = true := by
    rw [State.inDrainWindow, State.port_notified]
    exact open_
  refine List.mem_map.mpr ⟨(q, x), List.mem_filter.mpr ⟨?_, by simp [open', old]⟩, rfl⟩
  rw [State.notified_plane.circuits]
  exact mem_of_tfind hq

end

/-- The drain window of an entry is open for 10 µs from `now`. -/
structure State.Draining (at_ q : Nat) (t : State) : Prop where
  now    : t.now = at_
  window : (t.circuit q).window = some (at_ + 10000)
  timer  : (⟨at_ + 10000, .drainWindowEnd (BitVec.ofNat 6 q)⟩ : Timer) ∈ t.timers

theorem State.Draining.opens (s : State) (q : Nat) : State.Draining s.now q (s.opensWindow q) :=
  ⟨rfl, by change ((s.setCircuit q _).circuit q).window = _; rw [State.circuit_setCircuit], List.mem_append_right _ (List.mem_singleton.mpr rfl)⟩

theorem State.Draining.keeps {k q : Nat} {t : State} (h : State.Draining k q t) (e : Nat) : State.Draining k q (t.opensWindow e) := by
  by_cases he : q = e
  · subst he
    exact h.now ▸ .opens t q
  · exact ⟨h.now, (congrArg Circuit.window (State.circuit_setCircuit_ne t e _ he)).trans h.window, List.mem_append_left _ h.timer⟩

/-- Every entry of a list has its drain window opened. -/
theorem State.Draining.each {q : Nat} {l : List Nat} (hq : q ∈ l) (s : State) : State.Draining s.now q (s.each l State.opensWindow) := by
  induction hq generalizing s with
  | head l => exact State.each_keeps (fun _ e h => h.keeps e) l (.opens s q)
  | tail b _ ih => exact ih (s.opensWindow b)

/-! CVER (R116) -/

section
variable {s : State} {n : Nat} {g : GThread} (h : Gaffer s n g) {d a : BitVec 4}
include h

theorem exec_cver : exec (.cver d a) s = if newer ((g.rd a.toNat).extractLsb' 0 16) s.tvercur = true
    then .next ((s.setVersion ((g.rd a.toNat).extractLsb' 0 16)).gDone n d.toNat
      (BitVec.ofNat 64 (s.setVersion ((g.rd a.toNat).extractLsb' 0 16)).tvreg))
    else .next (s.gDone n d.toNat (BitVec.ofNat 64 s.tvreg)) := by
  change execCver d a s = _
  rw [execCver, asGaffer_run h, ← BitVec.setWidth_eq_extractLsb' (by decide)]
  split
  next yes => simp only [BitVec.truncate_eq_setWidth, yes, if_true]
  next no => simp only [BitVec.truncate_eq_setWidth, no, if_false, Bool.false_eq_true]

end

theorem State.rd_gDone (s : State) (n d : Nat) (v : DWord) : ((s.gDone n d v).gth n).rd d = if d = 0 then 0 else v := by
  rw [State.gDone, State.gth_setGth]
  refine (GThread.rd_congr rfl d).trans ((GThread.rd_wr (s.gth n) d d v).trans ?_)
  by_cases hd : d = 0
  · simp [hd, GThread.rd]
  · simp [hd]

theorem cver_newer {s : State} {n : Nat} {g : GThread} (h : Gaffer s n g) {d a : BitVec 4} {v : BitVec 16}
    (hv : (g.rd a.toNat).extractLsb' 0 16 = v) (new : newer v s.tvercur = true)
    (quiet : ∀ p, p < 32 → (s.port p).st ≠ 1 ∧ (s.port p).st ≠ 2) : Ends (.cver d a) s (fun t => t.tvercur = v ∧ t.mem = s.mem ∧
      (t.gth n).rd d.toNat = (if d = 0 then 0 else BitVec.ofNat 64 (s.tverseen.toNat * 2 ^ 16 + v.toNat)) ∧
      (∀ q x, tfind s.circuits q = some x → s.inDrainWindow x = true → x.tver ≠ v → (t.circuit q).window = some (s.now + 10000) ∧
        (⟨s.now + 10000, .drainWindowEnd (BitVec.ofNat 6 q)⟩ : Timer) ∈ t.timers) ∧
      ∀ l, l < 8 → s.fdidValid = true → (s.link l).up = true → (s.link l).waiting = [] → (s.link l).unacked.length < 64 →
        1 ≤ (s.link l).credits.getD 3 0 → ∃ p : Packet, (l, p) ∈ t.outPkt ∧ p.cls = 4 ∧ p.typ = 1 ∧ p.dst = 0xFFF ∧ p.tver = v ∧
          field p.body 0 2 = v.toNat) := by
  subst hv
  refine ⟨_, (exec_cver h).trans (if_pos new), ?_⟩
  generalize (g.rd a.toNat).extractLsb' 0 16 = v
  rw [State.setVersion_quiet quiet]
  have opened := State.each_same (fun t : State => (t.mem, t.tvercur, t.tverseen, t.outPkt)) State.opensWindow (fun _ _ => rfl)
    ((s.notified v).outdated v) (s.notified v)
  simp only [Prod.mk.injEq] at opened
  obtain ⟨mem, cur, seen, out⟩ := opened
  have plane := State.notified_plane (s := s) (v := v)
  have now : (s.notified v).now = s.now := plane.now
  have mem' : (s.notified v).mem = s.mem := (congrArg State.mem plane.rest :)
  have seen' : (s.notified v).tverseen = s.tverseen := (congrArg State.tverseen plane.rest :)
  refine ⟨cur.trans plane.tvercur, mem.trans mem', ?_, fun q x hq open_ old => ?_, fun l hl valid up idle room credit => ?_⟩
  · rw [State.rd_gDone, State.tvreg, cur, seen, plane.tvercur, seen', at_, Nat.shiftLeft_eq]
    simp only [← BitVec.toNat_inj]
    rfl
  · obtain ⟨-, window, timer⟩ := State.Draining.each (State.mem_outdated hq open_ old) (s.notified v)
    rw [now] at window timer
    exact ⟨window, timer⟩
  · obtain ⟨p, sent, holds⟩ := State.notice_leaves (v := v) hl valid up idle room credit
    exact ⟨p, out.symm ▸ sent, holds⟩

end Sys2Proof.Machine
end

