-- ==== Sys2Proof/Proofs/GafferCircuits.lean ====
section
/-! PROOF. The clause on circuit instructions (R108 to R113, R116), assembled from the rows of their tables. -/

namespace Sys2Proof.Machine
open Sys2Proof.Claims

theorem truncate_eq_low (v : DWord) : v.truncate 16 = v.extractLsb' 0 16 := BitVec.setWidth_eq_extractLsb' (by decide)

/-- The clause on circuit instructions. -/
theorem gafferCircuits : GafferCircuits := by
  intro d a b s n g h e c y ver word done mine fresh_ requests
  refine ⟨entry_beyond h, fun within => ?_, fun v => ⟨State.circuit_moveEntry .., (State.Entry.moveEntry s v).others⟩,
    fun u code hc => State.sendTear_sends u e code hc, fun new => ⟨_, (exec_cver h).trans (if_pos new), rfl⟩,
    fun new quiet => cver_newer h rfl new quiet, fun old => ⟨_, (exec_cver h).trans (if_neg (by simp [old])), State.gDone_wrote h d _⟩⟩
  have does {i : Instr} {u : State} {rc : Nat} {k : Nat → GThread → Nat → Nat × State} (run : exec i s = onEntry s d a k)
      (he : k n g e = (rc, u)) : done i u rc := entry_done h within run he
  have asks {i : Instr} {k : Nat → GThread → Nat → Nat × State} (run : exec i s = onEntry s d a k) (w : Option Nat)
      (he : k n g e = s.request n e w) : requests i (fun u => u.asks e w) :=
    ⟨fun free ok => does run (he.trans (State.request_taken w free ok)), fun free bad => does run (he.trans (State.request_failed w free bad)),
      fun backoff first => does run (he.trans (State.request_again w backoff first)),
      fun used sound tried => does run (he.trans (State.request_busy w used sound tried))⟩
  have stat : Ends (.cstat d a) s (fun t => GafferWrote s t n g (g.pc + 4) d (word s 0)) := by
    obtain ⟨t, run, ht⟩ := does (exec_cstat d a s) rfl
    exact ⟨t, run, ht ▸ State.gDone_wrote h d _⟩
  have releases {u v : State} (row : s.releaseEntry e = u ∧ s.tearEntry e = v) : done (.crel d a) u 0 ∧ done (.ctear d a) v 0 :=
    ⟨does (exec_crel d a s) (congrArg _ row.1), does (exec_ctear d a s) (congrArg _ row.2)⟩
  refine ⟨asks (exec_creq d a s) none rfl, fun now => asks (exec_cpre d a b s) none ?_, fun ahead => asks (exec_cpre d a b s) (some y.toNat) ?_,
    stat, does (exec_cbind d a b s) ?_, fun unused => releases (State.releases_unused unused), fun idle => releases (State.releases_idle idle),
    fun requested => releases (State.releases_requested requested), fun reserved => releases (State.releases_reserved reserved), fun live => ?_⟩
  · exact congrArg _ (if_neg (Nat.not_lt.mpr now))
  · exact congrArg _ (if_pos ahead)
  · rw [truncate_eq_low]
  · obtain ⟨drains, gone⟩ := State.releaseEntry_live live
    exact ⟨fun h => does (exec_crel d a s) (congrArg _ (drains h)), fun h => does (exec_crel d a s) (congrArg _ (gone h)),
      does (exec_ctear d a s) (congrArg _ (State.tearEntry_live live))⟩

end Sys2Proof.Machine
end

