-- ==== Sys2Proof/Proofs/GafferWaits.lean ====
section
/-! PROOF. CAWAIT, CWAIT, their deadline and CGATE (R88, R98, R108, R110, R114, R119); and the settling of the obligation on circuits and
waits. -/

namespace Sys2Proof.Machine
open Sys2Proof.Claims

/-! Waiting (R108) -/

theorem Circuit.settled_iff (c : Circuit) : c.settled = true ↔ c.st = 0 ∨ c.st = 4 ∨ c.st = 6 := by
  simp only [Circuit.settled, Bool.or_eq_true, beq_iff_eq, or_assoc]

theorem State.reached_iff (s : State) (k : Nat) : s.reached k = true ↔ k ≠ 0 ∧ k ≤ s.now := by
  simp only [State.reached, Bool.and_eq_true, bne_iff_ne, decide_eq_true_eq]

/-- A thread that waits does no more than that; its deadline, if any, falls due. -/
theorem State.gWaits_waits {s : State} {n : Nat} {g : GThread} (h : s.gth n = g) (k : Nat) (w : GWait) :
    (s.gWaits n k w).gth n = { g with st := 2, wait := w } ∧ (s.gWaits n k w).mem = s.mem ∧
      (k ≠ 0 → (⟨k, .gafferDeadline (BitVec.ofNat 2 n)⟩ : Timer) ∈ (s.gWaits n k w).timers) := by
  subst h
  by_cases hk : k = 0
  · have run : s.gWaits n k w = s.setGth n { s.gth n with st := 2, wait := w } := if_pos (by simp [hk])
    rw [run]
    exact ⟨State.gth_setGth .., rfl, fun armed => absurd hk armed⟩
  · have run : s.gWaits n k w = (s.setGth n { s.gth n with st := 2, wait := w }).atTime k (.gafferDeadline (BitVec.ofNat 2 n)) :=
      if_neg (by simp [hk])
    rw [run]
    exact ⟨State.gth_setGth .., rfl, fun _ => List.mem_append_right _ (List.mem_singleton.mpr rfl)⟩

/-! Events and wakes (R98, R119) -/

theorem State.gth_gDone (s : State) (n d : Nat) (v : DWord) : (s.gDone n d v).gth n =
    { s.gth n with regs := ((s.gth n).wr d v).regs, pc := (s.gth n).pc + 4, st := 1, wait := .none } := by
  rw [State.gDone, State.gth_setGth, GThread.wr_eq]

section
variable {s : State} {n : Nat} {g : GThread} (h : s.gth n = g) (d : Nat)
include h

theorem State.gTake_event {w : DWord} {l : List DWord} (queued : g.evq = w :: l) (dropped : g.overflow = false) :
    s.gTake n d = some ((s.setGth n { g with evq := l, overflow := false }).gDone n d w) := by
  subst h
  simp [State.gTake, State.gPop, queued, dropped]

variable (empty : g.evq = [])
include empty

theorem State.gTake_wake (woken : g.wake ≠ 0) :
    s.gTake n d = some ((s.setGth n { g with wake := 0 }).gDone n d (BitVec.ofNat 64 (at_ 7 56 + g.wake.toNat))) := by
  subst h
  have woken' : ((s.gth n).wake != 0) = true := bne_iff_ne.mpr woken
  simp only [State.gTake, empty, woken']
  rfl

theorem State.gTake_none (asleep : g.wake = 0) : s.gTake n d = none := by
  subst h
  simp [State.gTake, empty, asleep]

end

/-- The wake event: its kind above the wake word. -/
theorem wakeWord_eq (w : Word) : BitVec.ofNat 64 (at_ 7 56 + w.toNat) = (0x07000000 : Word) ++ w := by
  refine BitVec.eq_of_toNat_eq ?_
  have := w.isLt
  have kind : (0x07000000 : Word).toNat = 0x07000000 := rfl
  rw [BitVec.toNat_append, ← Nat.shiftLeft_add_eq_or_of_lt this, BitVec.toNat_ofNat, kind]
  simp only [at_, Nat.shiftLeft_eq]
  omega

section
variable {s : State} {n : Nat} {g : GThread} (h : Gaffer s n g) {d a b : BitVec 4}
include h

theorem exec_cwait : exec (.cwait d a) s = match s.gTake n d.toNat with
    | some t => .next t
    | none => if s.reached (g.rd a.toNat).toNat then .next (s.gDone n d.toNat 0)
      else .next (s.gWaits n (g.rd a.toNat).toNat (.event d.toNat (g.rd a.toNat).toNat)) := by
  change execCwait d a s = _
  exact asGaffer_run h _

theorem exec_cwait_taken {t : State} (taken : s.gTake n d.toNat = some t) : exec (.cwait d a) s = .next t := by rw [exec_cwait h, taken]

theorem exec_cwait_waits (none : s.gTake n d.toNat = none) : exec (.cwait d a) s = if s.reached (g.rd a.toNat).toNat
    then .next (s.gDone n d.toNat 0) else .next (s.gWaits n (g.rd a.toNat).toNat (.event d.toNat (g.rd a.toNat).toNat)) := by
  rw [exec_cwait h, none]

end

/-! CGATE (R114) -/

/-- The control word of a port is written, and BADREQ shows whether that write was refused. -/
def State.gateWritten (s : State) (p v : Nat) : State :=
  (s.setPort p { s.port p with badreq := false }).writeOpctl p (v % 8 + v / 16 % 16 * 16)

theorem bits_mask (v : Nat) : v % 8 + at_ (bits v 7 4) 4 = v % 8 + v / 16 % 16 * 16 := by
  simp only [bits, at_, Nat.shiftLeft_eq, Nat.shiftRight_eq_div_pow]

section
variable {s : State} {n : Nat} {g : GThread} (h : Gaffer s n g) {d a b : BitVec 4} {p : Nat} (port : (g.rd a.toNat).toNat = p)
include h port

theorem exec_cgate : exec (.cgate d a b) s = if 32 ≤ p then .next (s.gDone n d.toNat 3)
    else if (s.entryOf p).isSome then .next (s.gDone n d.toNat (BitVec.ofNat 64 (at_ (s.port p).st.toNat 16 + 1)))
    else if 2 ≤ (g.rd b.toNat).toNat % 4 then .next (s.gDone n d.toNat (BitVec.ofNat 64 (at_ (s.port p).st.toNat 16 + 3)))
    else
      let u := s.gateWritten p (g.rd b.toNat).toNat
      let t := u.setPort p { u.port p with badreq := (s.port p).badreq || (u.port p).badreq }
      .next (t.gDone n d.toNat (BitVec.ofNat 64 (at_ (t.port p).st.toNat 16 + bnat (u.port p).badreq))) := by
  subst port
  change execCgate d a b s = _
  rw [execCgate, asGaffer_run h]
  simp only [bits_mask]
  rfl

theorem exec_cgate_beyond (beyond : 32 ≤ p) : exec (.cgate d a b) s = .next (s.gDone n d.toNat 3) := by rw [exec_cgate h port, if_pos beyond]

variable (within : p < 32)
include within

theorem exec_cgate_named (named : s.entryOf p ≠ none) :
    exec (.cgate d a b) s = .next (s.gDone n d.toNat (BitVec.ofNat 64 ((s.port p).st.toNat * 2 ^ 16 + 1))) := by
  rw [exec_cgate h port, if_neg (Nat.not_le.mpr within), if_pos (Option.isSome_iff_ne_none.mpr named), at_, Nat.shiftLeft_eq]

variable (unnamed : s.entryOf p = none)
include unnamed

theorem exec_cgate_target (bad : 2 ≤ (g.rd b.toNat).toNat % 4) :
    exec (.cgate d a b) s = .next (s.gDone n d.toNat (BitVec.ofNat 64 ((s.port p).st.toNat * 2 ^ 16 + 3))) := by
  rw [exec_cgate h port, if_neg (Nat.not_le.mpr within), if_neg (by simp [unnamed]), if_pos bad, at_, Nat.shiftLeft_eq]

theorem exec_cgate_writes (ok : (g.rd b.toNat).toNat % 4 < 2) {u : State} (written : s.gateWritten p (g.rd b.toNat).toNat = u) :
    exec (.cgate d a b) s = .next ((u.setPort p { u.port p with badreq := (s.port p).badreq || (u.port p).badreq }).gDone n d.toNat
      (BitVec.ofNat 64 ((u.port p).st.toNat * 2 ^ 16 + (u.port p).badreq.toNat))) := by
  subst written
  rw [exec_cgate h port, if_neg (Nat.not_le.mpr within), if_neg (by simp [unnamed]), if_neg (Nat.not_le.mpr ok)]
  simp only [State.port_setPort, at_, Nat.shiftLeft_eq]
  cases ((s.gateWritten p (g.rd b.toNat).toNat).port p).badreq <;> rfl

end

/-! Deadlines (R108) -/

section
variable {s : State} {k d w : Nat} (low : k < 4)
include low

theorem exec_gafferDeadline : exec (.gafferDeadline (BitVec.ofNat 2 k)) s = .next (s.gTry k true) := by
  change Host.Outcome.next (s.gTry (BitVec.ofNat 2 k).toNat true) = _
  rw [BitVec.toNat_ofNat, Nat.mod_eq_of_lt (by omega)]

end

section
variable {s : State} {k d w : Nat} (late : s.reached w = true)
include late

theorem State.gTry_event (waits : (s.gth k).wait = .event d w) (empty : s.gTake k d = none) : s.gTry k true = s.gDone k d 0 := by
  simp only [State.gTry, waits, empty, late]
  rfl

theorem State.gTry_circuit {e : Nat} (waits : (s.gth k).wait = .circuit e d w) (unsettled : (s.circuit e).settled = false) :
    s.gTry k true = s.gDone k d (s.resultWord e 2) := by
  simp only [State.gTry, waits, unsettled, late]
  rfl

end

/-- The clause on waits, their deadlines and CGATE. -/
theorem gafferWaits : GafferWaits := by
  intro d a b s n g h e c word dl late waits settled
  have thread : s.gth n = g := h.thread
  have hsettled : c.settled = true ↔ settled := c.settled_iff
  have hlate (k : Nat) : s.reached k = true ↔ late k := s.reached_iff k
  refine ⟨fun within => ?_, fun w l queued dropped => ?_, fun empty woken => ?_, fun empty asleep => ⟨fun hl => ?_, fun hl => ?_⟩,
    fun k dd x low hx w wait empty asleep hl _ => ?_, fun k dd en x low hx w wait requested hl => ?_,
    fun beyond => ⟨_, exec_cgate_beyond h rfl beyond, State.gDone_wrote h d _⟩,
    fun within unnamed bad => ⟨_, exec_cgate_target h rfl within unnamed bad, State.gDone_wrote h d _⟩,
    fun within named => ⟨_, exec_cgate_named h rfl within named, State.gDone_wrote h d _⟩,
    fun within ok unnamed => ⟨_, exec_cgate_writes h rfl within unnamed ok rfl, rfl⟩⟩
  case refine_1 =>
    have await := exec_cawait h (d := d) (a := a) (b := b)
    rw [if_neg (Nat.not_le.mpr within), State.resultWord_eq, State.resultWord_eq] at await
    refine ⟨fun yes => ⟨_, await.trans (if_pos (hsettled.mpr yes)), State.gDone_wrote h d _⟩, fun no hl => ?_, fun no hl => ?_⟩
    · exact ⟨_, (await.trans (if_neg (mt hsettled.mp no))).trans (if_pos ((hlate dl).mpr hl)), State.gDone_wrote h d _⟩
    · exact ⟨_, (await.trans (if_neg (mt hsettled.mp no))).trans (if_neg (mt (hlate dl).mp hl)), State.gWaits_waits thread dl _⟩
  case refine_2 =>
    refine ⟨_, exec_cwait_taken h (State.gTake_event thread d.toNat queued dropped), ?_, ?_, ?_, rfl⟩
    · rw [State.rd_gDone]
      simp only [← BitVec.toNat_inj]
      rfl
    · rw [State.gth_gDone, State.gth_setGth]
    · rw [State.gth_gDone, State.gth_setGth]
  case refine_3 =>
    refine ⟨_, exec_cwait_taken h (State.gTake_wake thread d.toNat empty woken), ?_, ?_, ?_, rfl⟩
    · rw [State.rd_gDone, wakeWord_eq]
      simp only [← BitVec.toNat_inj]
      rfl
    · rw [State.gth_gDone, State.gth_setGth]
    · rw [State.gth_gDone, State.gth_setGth]
  case refine_4 =>
    exact ⟨_, (exec_cwait_waits h (State.gTake_none thread _ empty asleep)).trans (if_pos ((hlate e).mpr hl)), State.gDone_wrote h d 0⟩
  case refine_5 =>
    exact ⟨_, (exec_cwait_waits h (State.gTake_none thread _ empty asleep)).trans (if_neg (mt (hlate e).mp hl)), State.gWaits_waits thread e _⟩
  case refine_6 =>
    refine ⟨_, (exec_gafferDeadline low).trans (congrArg _ (State.gTry_event ((hlate w).mpr hl) (hx ▸ wait) (State.gTake_none hx dd empty asleep))),
      ?_, ?_, ?_, rfl⟩
    · rw [State.gth_gDone]
    · rw [State.gth_gDone, hx]
    · rw [State.rd_gDone]
      exact ite_self 0
  case refine_7 =>
    have unsettled : (s.circuit en).settled = false := by simp [Circuit.settled, requested]
    exact ⟨_, (exec_gafferDeadline low).trans (congrArg _ (State.gTry_circuit ((hlate w).mpr hl) (hx ▸ wait) unsettled)), rfl⟩

/-- Settles O29: the clause on circuit instructions, and the clause on waits. -/
theorem gafferCircuitsAndWaits : Obligations.GafferCircuitsAndWaits := ⟨gafferCircuits, gafferWaits⟩

end Sys2Proof.Machine
end

