-- ==== Sys2Proof/Proofs/FetchedCode.lean ====
section
/-! PROOF. Instruction fetch (R260): resolving an address changes neither memory nor a context, and fetch caches that hold nothing are
filled as memory has the lines. -/

namespace Sys2Proof.Machine
open Sys2Proof.Claims

/-! Resolving an address leaves memory (R248 to R250) -/

/-- What instruction fetches read: memory, the writes since launch records were read, and the contexts with their fetch caches. -/
def State.codeSource (s : State) : List Host.Cell × List (Nat × Byte) × Tbl Ctx := (s.mem, s.written, s.ctxs)

theorem State.codeSource_bindWord {s t : State} {core b x : Nat} (h : s.bindWord core b x = some t) : t.codeSource = s.codeSource := by
  unfold State.bindWord at h
  split at h
  · split at h
    · exact Option.some.inj h ▸ rfl
    · contradiction
  · exact Option.some.inj h ▸ rfl

theorem State.codeSource_bindWords {core first x : Nat} (l : List Nat) {s t : State}
    (h : l.foldl (fun acc i => acc.bind (fun s => s.bindWord core (first + i) x)) (some s) = some t) : t.codeSource = s.codeSource := by
  induction l generalizing s with
  | nil => exact Option.some.inj h ▸ rfl
  | cons i l ih =>
    rw [List.foldl_cons, Option.bind_some] at h
    cases hb : s.bindWord core (first + i) x with
    | none =>
      rw [hb] at h
      have none (l : List Nat) : l.foldl (fun acc i => acc.bind (fun s : State => s.bindWord core (first + i) x)) none = none := by
        induction l with
        | nil => rfl
        | cons _ _ ih => exact ih
      rw [none] at h
      contradiction
    | some u =>
      rw [hb] at h
      exact (ih h).trans (State.codeSource_bindWord hb)

section
variable (s : State)

theorem State.codeSource_windowKey (p : Place) (x va n : Nat) : (s.windowKey p x va n).2.codeSource = s.codeSource := by
  unfold State.windowKey
  split
  · rfl
  extract_lets blk lim o first last c o'
  clear_value blk lim
  split
  · rfl
  split
  · split
    next bound => exact State.codeSource_bindWords _ bound
    next => rfl
  split
  · split
    · rfl
    split
    · rfl
    split
    · split
      · rfl
      · rfl
    · split
      · rfl
      · rfl
  · rfl

theorem State.codeSource_translate (unit x va need : Nat) : (s.translate unit x va need).2.codeSource = s.codeSource := by
  unfold State.translate
  split
  · rfl
  split
  · rfl
  simp only
  split
  · rfl
  split
  · rfl
  split
  · rfl
  · rfl

theorem State.codeSource_resolvePiece (p : Place) (unit x space va n need : Nat) :
    (s.resolvePiece p unit x space va n need).2.codeSource = s.codeSource := by
  unfold State.resolvePiece
  split
  · split
    · rfl
    · exact s.codeSource_windowKey ..
  split
  · rfl
  split
  · split
    · rfl
    · exact s.codeSource_windowKey ..
  · exact s.codeSource_translate ..

theorem State.codeSource_resolveGo (p : Place) (unit x space need fuel va n : Nat) (acc : List Nat) :
    (s.resolveGo p unit x space need fuel va n acc).2.codeSource = s.codeSource := by
  induction fuel generalizing s va n acc with
  | zero => rfl
  | succ fuel ih =>
    have piece := s.codeSource_resolvePiece p unit x space va (min n (4096 - va % 4096)) need
    unfold State.resolveGo
    split
    · rfl
    · simp only
      split
      next run => rwa [run] at piece
      next run =>
        rw [run] at piece
        exact (ih ..).trans piece

theorem State.codeSource_resolve (p : Place) (unit x space va n need : Nat) : (s.resolve p unit x space va n need).2.codeSource = s.codeSource :=
  s.codeSource_resolveGo ..

end

/-! Fetch caches (R260) -/

theorem mem_foldl_dedup {a : Nat} (l acc : List Nat) :
    a ∈ l.foldl (fun acc x => if acc.contains x then acc else acc ++ [x]) acc ↔ a ∈ acc ∨ a ∈ l := by
  induction l generalizing acc with
  | nil => simp
  | cons b l ih =>
    rw [List.foldl_cons, ih]
    by_cases hb : b ∈ acc
    · rw [if_pos (List.contains_iff_mem.mpr hb), List.mem_cons]
      refine ⟨fun h => h.imp_right .inr, ?_⟩
      rintro (h | rfl | h)
      · exact .inl h
      · exact .inl hb
      · exact .inr h
    · rw [if_neg (mt List.contains_iff_mem.mp hb), List.mem_append, List.mem_singleton, List.mem_cons, or_assoc]

theorem mem_dedup {a : Nat} {l : List Nat} : a ∈ dedup l ↔ a ∈ l := by
  rw [dedup, mem_foldl_dedup]
  simp

/-- A line of memory. -/
def memLine (m : List Host.Cell) (ln : Nat) : List Byte := (List.range 128).map (fun i => Memory.read m (ln * 128 + i))

theorem getD_memLine (m : List Host.Cell) (k : Nat) : (memLine m (lineOf k)).getD (k % 128) 0 = Memory.read m k := by
  have low : k % 128 < 128 := Nat.mod_lt _ (by decide)
  simp [memLine, lineOf, low, Nat.div_add_mod']

/-- The fetch caches of a context come to hold a line. -/
def State.cacheLine (x seen : Nat) (s : State) (ln : Nat) : State :=
  s.updCtx x (fun c => if (tfind c.code ln).isSome then c else
    { c with code := tset c.code ln ((List.range 128).map (fun i => s.codeByte seen (ln * 128 + i))) })

theorem State.cacheCode_eq (s : State) (x seen : Nat) (ks : List Nat) :
    s.cacheCode x seen ks = s.each (dedup (ks.map lineOf)) (State.cacheLine x seen) := rfl

theorem State.codeByte_unwritten {s : State} (h : s.written = []) (seen k : Nat) : s.codeByte seen k = Memory.read s.mem k := by
  simp [State.codeByte, h]

/-- The fetch caches of a context hold some lines, and what they hold is as memory `m` has it. -/
structure Ctx.Caches (m : List Host.Cell) (lines : List Nat) (c : Ctx) : Prop where
  held     : ∀ ln ∈ lines, ∃ v, tfind c.code ln = some v
  faithful : ∀ ln v, tfind c.code ln = some v → v = memLine m ln

/-- With no write since, the fetch caches of context `x` hold some lines, as memory `m` has them. -/
def State.Caches (m : List Host.Cell) (x : Nat) (lines : List Nat) (s : State) : Prop :=
  s.mem = m ∧ s.written = [] ∧ ∃ c, s.ctx? x = some c ∧ c.Caches m lines

theorem State.Caches.cacheLine {m : List Host.Cell} {x seen ln : Nat} {lines : List Nat} {s : State} (h : s.Caches m x lines) :
    (State.cacheLine x seen s ln).Caches m x (ln :: lines) := by
  obtain ⟨rfl, unwritten, c, hc, holds⟩ := h
  have run : State.cacheLine x seen s ln = s.setCtx x (if (tfind c.code ln).isSome then c else { c with code := tset c.code ln (memLine s.mem ln) }) := by
    simp only [State.cacheLine, State.updCtx_eq hc, State.codeByte_unwritten unwritten, memLine]
  rw [run]
  refine ⟨rfl, unwritten, _, tfind_tset_same .., ?_⟩
  split
  next present => exact ⟨List.forall_mem_cons.mpr ⟨Option.isSome_iff_exists.mp present, holds.held⟩, holds.faithful⟩
  next =>
    refine ⟨List.forall_mem_cons.mpr ⟨⟨_, tfind_tset_same ..⟩, fun j hj => ?_⟩, fun j v hv => ?_⟩
    · by_cases same : j = ln
      · exact ⟨_, by rw [same]; exact tfind_tset_same ..⟩
      · exact (holds.held j hj).imp fun v hv => (tfind_tset_ne _ _ same).trans hv
    · simp only [tfind_tset] at hv
      split at hv
      next same => rw [same, ← Option.some.inj hv]
      next => exact holds.faithful j v hv

theorem State.Caches.each {m : List Host.Cell} {x seen : Nat} (l : List Nat) {lines : List Nat} {s : State} (h : s.Caches m x lines) :
    (s.each l (State.cacheLine x seen)).Caches m x (l.reverse ++ lines) := by
  induction l generalizing s lines with
  | nil => exact h
  | cons ln l ih =>
    rw [List.reverse_cons, List.append_assoc]
    exact ih h.cacheLine

/-- Code that no write has touched, in a context that has fetched nothing, is fetched as memory has it. -/
theorem State.fetchCode_fresh {s : State} {x : Nat} (unwritten : s.written = []) (fresh : ∀ c, s.ctx? x = some c → c.code = []) (seen : Nat)
    (ks : List Nat) : (s.fetchCode x seen ks).1 = ks.map (Memory.read s.mem) := by
  cases hx : s.ctx? x with
  | none =>
    have same : s.cacheCode x seen ks = s := by
      rw [State.cacheCode_eq]
      refine State.each_id fun ln _ => ?_
      simp only [State.cacheLine, State.updCtx, hx]
    simp only [State.fetchCode, same, hx]
    exact List.map_congr_left fun k _ => State.codeByte_unwritten unwritten seen k
  | some c =>
    have start : s.Caches s.mem x [] := ⟨rfl, unwritten, c, hx, ⟨fun _ h => absurd h List.not_mem_nil, fun ln v hv => by
      rw [fresh c hx] at hv
      contradiction⟩⟩
    obtain ⟨-, -, c', hc', holds⟩ := start.each (seen := seen) (dedup (ks.map lineOf))
    rw [← State.cacheCode_eq] at hc'
    simp only [State.fetchCode, hc']
    refine List.map_congr_left fun k hk => ?_
    obtain ⟨v, hv⟩ := holds.held (lineOf k) (List.mem_append_left _ (List.mem_reverse.mpr (mem_dedup.mpr (List.mem_map_of_mem hk))))
    rw [tget, hv, holds.faithful _ v hv]
    exact getD_memLine s.mem k

end Sys2Proof.Machine
end

