-- ==== Sys2Proof/Proofs/StepRunsDecoded.lean ====
section
/-! PROOF. A step is the first turn of the agenda, or the oldest event (R85, R126, R237, R238, R348): what each agent's turn executes. -/

namespace Sys2Proof.Machine
open Sys2Proof.Claims

/-! The turn that comes next -/

/-- A turn that has an outcome closes. -/
noncomputable def State.closes (s : State) (u : Turn) : Out → Out
  | .next t => .next (s.finish t u)
  | .fault e => .fault e
  | .refused e => .refused e

theorem step_agent {s : State} {a : Actor} {l : List Turn} (first : s.agenda = .agent a :: l) :
    step s = ({ s with agenda := l } : State).closes (.agent a) (agentTurn { s with agenda := l } a) := by
  rw [step, State.nextTurn, first]
  rfl

theorem step_agenda_event {s : State} {i : Instr} {l : List Turn} (first : s.agenda = .event i :: l) :
    step s = ({ s with agenda := l } : State).closes (.event i) (exec i { s with agenda := l, cur := .none }) := by
  rw [step, State.nextTurn, first]
  rfl

theorem step_queue_event {s : State} {i : Instr} {q : List Instr} (empty : s.agenda = []) (first : s.queue = i :: q) :
    step s = ({ s with queue := q } : State).closes (.event i) (exec i { s with queue := q, cur := .none }) := by
  rw [step, State.nextTurn, empty, first]
  rfl

/-! Turns of agents -/

section
variable {s : State} {n : Nat} (aligned : (s.gth n).pc.toNat % 4 = 0) (within : (s.gth n).pc.toNat < 0x40000)
include aligned within

theorem State.gFetch_within : ({ s with cur := .gaffer n } : State).gFetch (({ s with cur := .gaffer n } : State).gth n) =
    .ok (leNat (s.bytesAt (gafKey (s.gth n).pc.toNat) 4)) := if_neg (by
  change ¬ (!codeAddr (s.gth n).pc.toNat) = true
  simp [codeAddr, aligned, within])

variable (low : n < 4) (runs : (s.gth n).st = 1)
include low runs

omit aligned within in
theorem agentTurn_gaffer_eq : agentTurn s (.gaffer n) = gafferTurn { s with cur := .gaffer n } n := by
  have thread : (({ s with cur := .gaffer n } : State).gth n) = s.gth n := rfl
  exact if_pos (by simp [low, thread, runs])

theorem agentTurn_gaffer_runs {i : Instr} (word : decodeGaffer (leNat (s.bytesAt (gafKey (s.gth n).pc.toNat) 4)) = some i) :
    agentTurn s (.gaffer n) = exec i { s with cur := .gaffer n } := by
  rw [agentTurn_gaffer_eq low runs, gafferTurn, State.gFetch_within aligned within]
  simp only [word]

theorem agentTurn_gaffer_illegal (ill : decodeGaffer (leNat (s.bytesAt (gafKey (s.gth n).pc.toNat) 4)) = none) :
    agentTurn s (.gaffer n) = .next (({ s with cur := .gaffer n } : State).gFault n 1 0) := by
  rw [agentTurn_gaffer_eq low runs, gafferTurn, State.gFetch_within aligned within]
  simp only [ill]

end

section
variable {s : State} {r : WaveRef} {w : Wave} {f : Fragment}

/-- In the first instruction of a handler its wave enters the second phase (R306). -/
def State.enters (s : State) (r : WaveRef) (w : Wave) : State :=
  if w.handler && w.phase == 0 then s.updWave r (fun (w : Wave) => { w with phase := 1 }) else s

theorem scalarTurn_fetched (stays : f.joins.head?.all (fun j => j.addr != f.pc) = true) {x : Nat} {t : State}
    (word : s.scalarWord r w f = (.ok x, t)) : scalarTurn s r w f = match decodeScalar x with
      | some i => exec i (t.enters r w)
      | none => .next ((t.enters r w).scalarTrap r f.id 6 0) := by
  cases hj : f.joins with
  | nil =>
    simp only [scalarTurn, hj, word]
    rfl
  | cons j js =>
    rw [hj] at stays
    have away : (j.addr == f.pc) = false := by simpa using stays
    simp only [scalarTurn, hj, away, word]
    rfl

theorem agentTurn_scalar (wave : s.wave? r = some w) (frag : w.frag? f.id = some f) (free : s.fragFree r w f false = true)
    (issues : w.scalarFree f = true) : agentTurn s (.scalar r.core r.slot f.id) =
      scalarTurn { s with cur := .scalar r.core r.slot f.id } r w f := by
  have wave' : ({ s with cur := .scalar r.core r.slot f.id } : State).wave? ⟨r.core, r.slot⟩ = some w := wave
  simp only [agentTurn, wave', Option.bind_some, frag]
  exact if_pos (Bool.and_eq_true_iff.mpr ⟨free, issues⟩)

theorem agentTurn_lane (wave : s.wave? r = some w) (frag : w.frag? f.id = some f) (free : s.fragFree r w f true = true)
    (clock : s.laneClock r.core = true) {x : Running} (running : f.run = some x) {i : Instr} (code : x.code[x.idx]? = some i) :
    agentTurn s (.lane r.core r.slot f.id) = exec i (({ s with cur := .lane r.core r.slot f.id } : State).someReturn r) := by
  have wave' : ({ s with cur := .lane r.core r.slot f.id } : State).wave? ⟨r.core, r.slot⟩ = some w := wave
  have work : f.laneWork = true := by simp [Fragment.laneWork, running]
  have turn (t : State) : laneTurn t r f = exec i (t.someReturn r) := by simp only [laneTurn, running, code]
  simp only [agentTurn, wave', Option.bind_some, frag]
  refine (if_pos (Bool.and_eq_true_iff.mpr ⟨Bool.and_eq_true_iff.mpr ⟨free, work⟩, clock⟩)).trans (turn _)

theorem agentTurn_crux {c k : Nat} (runs : (s.cx (c * 16 + k)).runs = true) {i : Instr}
    (next : (s.cx (c * 16 + k)).prog[(s.cx (c * 16 + k)).step]? = some i) :
    agentTurn s (.crux c k) = exec i { s with cur := .crux c k } := by
  have slot : ({ s with cur := .crux c k } : State).cx (c * 16 + k) = s.cx (c * 16 + k) := rfl
  refine (if_pos runs).trans ?_
  simp only [cruxTurn, slot, next]

end

/-- Settles O52: by the turn that the agenda or the queue puts first, and by what its agent fetches. -/
theorem stepRunsDecoded : Obligations.StepRunsDecoded := by
  intro s l s0 closed
  have closes (v : State) (u : Turn) (o : Out) : v.closes u o = closed v u o := by cases o <;> rfl
  refine ⟨fun n low runs aligned within first => ?_, fun r w f first wave frag free issues stays ks keys => ?_,
    fun r w f x i first wave frag free clock running code => ?_, fun c k i first runs next => ?_, fun i first => ?_, fun i q empty first => ?_⟩
  · have turn {o : Out} (run : agentTurn s0 (.gaffer n) = o) : step s = closed s0 (.agent (.gaffer n)) o :=
      ((step_agent first).trans (congrArg _ run)).trans (closes ..)
    exact ⟨fun i word => turn (agentTurn_gaffer_runs (s := s0) aligned within low runs word),
      fun ill => turn (agentTurn_gaffer_illegal (s := s0) aligned within low runs ill)⟩
  · intro t code t'
    have resolved : (({ s0 with cur := .scalar r.core r.slot f.id } : State).resolve (w.place r) (unitOf r.core) w.ctx 2 f.pc.toNat 4 needX) =
        (.ok ks, t) := Prod.ext keys rfl
    have word : ({ s0 with cur := .scalar r.core r.slot f.id } : State).scalarWord r w f = (.ok (leNat code.1), code.2) := by
      rw [State.scalarWord, resolved]
    have turn {o : Out} (run : scalarTurn { s0 with cur := .scalar r.core r.slot f.id } r w f = o) :
        step s = closed s0 (.agent (.scalar r.core r.slot f.id)) o :=
      ((step_agent first).trans (congrArg _ ((agentTurn_scalar (s := s0) wave frag free issues).trans run))).trans (closes ..)
    refine ⟨fun i hi => turn ((scalarTurn_fetched stays word).trans (by rw [hi]; rfl)), fun unwritten fresh => ?_,
      fun ill => turn (o := .next (t'.scalarTrap r f.id 6 0)) ((scalarTurn_fetched stays word).trans (by rw [ill]; rfl))⟩
    have source := State.codeSource_resolve { s0 with cur := .scalar r.core r.slot f.id } (w.place r) (unitOf r.core) w.ctx 2 f.pc.toNat 4 needX
    rw [resolved, State.codeSource, State.codeSource, Prod.mk.injEq, Prod.mk.injEq] at source
    obtain ⟨mem, written, ctxs⟩ := source
    have same : t.ctx? w.ctx = s.ctx? w.ctx := congrArg (tfind · w.ctx) ctxs
    exact (State.fetchCode_fresh (written.trans unwritten) (same ▸ fresh) (t.codeSeen w) ks).trans (by rw [mem])
  · exact ((step_agent first).trans (congrArg _ (agentTurn_lane (s := s0) wave frag free clock running code))).trans (closes ..)
  · exact ((step_agent first).trans (congrArg _ (agentTurn_crux (s := s0) runs next))).trans (closes ..)
  · exact (step_agenda_event first).trans (closes ..)
  · exact (step_queue_event empty first).trans (closes ..)

end Sys2Proof.Machine
end

