-- ==== Sys2Proof/Proofs/DeviceAccesses.lean ====
section
/-! PROOF. Accesses to device memory outside the waves (R248 to R250, R264, R269): what resolving an address and what a store leave of
the state, and what the parts of a bit field are. -/

namespace Sys2Proof.Machine

/-! Resolving an address without a block (R250, R264): only translations are learned -/

/-- `t` is `s` but for the translations that its units hold. -/
def State.TlbOnly (s t : State) : Prop := t = { s with tlb := t.tlb }

theorem State.TlbOnly.refl (s : State) : s.TlbOnly s := rfl

theorem State.TlbOnly.trans {s t u : State} (st : s.TlbOnly t) (tu : t.TlbOnly u) : s.TlbOnly u := by
  unfold State.TlbOnly at *
  rw [tu, st]

theorem State.TlbOnly.translate (s : State) (unit x va need : Nat) : s.TlbOnly (s.translate unit x va need).2 := by
  unfold State.translate
  split
  · rfl
  split
  · rfl
  simp only
  split
  · rfl
  split
  · rfl
  split
  · rfl
  · rfl

theorem State.TlbOnly.resolvePiece (s : State) (unit x space va n need : Nat) : s.TlbOnly (s.resolvePiece none unit x space va n need).2 := by
  unfold State.resolvePiece
  split
  · split
    · rfl
    · rfl
  split
  · rfl
  split
  · split
    · rfl
    · rfl
  · exact .translate ..

theorem State.TlbOnly.resolveGo (unit x space need fuel : Nat) (s : State) (va n : Nat) (acc : List Nat) :
    s.TlbOnly (s.resolveGo none unit x space need fuel va n acc).2 := by
  induction fuel generalizing s va n acc with
  | zero => exact .refl s
  | succ fuel ih =>
    simp only [State.resolveGo]
    have piece := State.TlbOnly.resolvePiece s unit x space va (min n (4096 - va % 4096)) need
    split
    · exact .refl s
    · split
      next h => rwa [h] at piece
      next h =>
        rw [h] at piece
        exact piece.trans (ih ..)

theorem State.TlbOnly.resolve {s t : State} {unit x space va n need : Nat} {r : Except (Nat × Nat) (List Nat)}
    (h : s.resolve none unit x space va n need = (r, t)) : s.TlbOnly t := by
  have := State.TlbOnly.resolveGo unit x space need (n / 4096 + 2) s va n []
  rwa [show s.resolveGo none unit x space need (n / 4096 + 2) va n [] = (r, t) from h] at this

theorem State.TlbOnly.devRead {s t : State} {unit x va n : Nat} {r : Except (Nat × Nat) (List Byte)} (h : s.devRead unit x va n = (r, t)) :
    s.TlbOnly t := by
  unfold State.devRead at h
  split at h
  next found => exact Prod.mk.inj h |>.2 ▸ .resolve found
  next found => exact Prod.mk.inj h |>.2 ▸ .resolve found

theorem State.TlbOnly.readRanks {s t : State} {x i : Nat} {d : CollDesc} {r : Except (Nat × Nat) (List Byte)}
    (h : s.readRanks x i d = (r, t)) : s.TlbOnly t := by
  suffices s.TlbOnly (s.readRanks x i d).2 by rwa [h] at this
  have below : s.TlbOnly
      (if d.rank == 0 then (.ok [], s) else s.devRead (i / 16 * 4) x d.rmap.toNat (8 * d.rank) : Except (Nat × Nat) (List Byte) × State).2 := by
    split
    · exact .refl s
    · exact .devRead rfl
  simp only [State.readRanks]
  split
  next first => rwa [first] at below
  next first =>
    rw [first] at below
    split
    · exact below
    split
    next second => exact below.trans (.devRead second)
    next second => exact below.trans (.devRead second)

theorem State.TlbOnly.readTables {s t : State} {x i : Nat} {d : CollDesc} {r : Tables} (h : s.readTables x i d = (r, t)) : s.TlbOnly t := by
  suffices s.TlbOnly (s.readTables x i d).2 by rwa [h] at this
  simp only [State.readTables]
  split
  next ranks => exact .readRanks ranks
  next ranks =>
    have below := State.TlbOnly.readRanks ranks
    split
    · exact below
    split
    next buffers => exact below.trans (.devRead buffers)
    next buffers =>
      have below := below.trans (.devRead buffers)
      split
      · exact below
      split
      · exact below
      split
      next skip => exact below.trans (.devRead skip)
      next skip => exact below.trans (.devRead skip)

theorem State.devUpdate_ok {s t : State} {unit x va : Nat} {ks : List Nat} (f : Nat → Nat)
    (h : s.resolve none unit x 2 va 8 needRW = (.ok ks, t)) :
    s.devUpdate unit x va f = (.ok (leNat (t.peek ks)), t.store (ks.zip (leBytes 8 (f (leNat (t.peek ks)))))) := by
  rw [State.devUpdate, h]

theorem State.devWrite_ok {s t : State} {unit x va w : Nat} {ks : List Nat} {l : List Byte} (len : l.length = w)
    (h : s.resolve none unit x 2 va w needW = (.ok ks, t)) : s.devWrite unit x va l = (.ok (), t.store (ks.zip l)) := by
  rw [State.devWrite, len, h]

section
variable {s t : State} (h : s.TlbOnly t)
include h

theorem State.TlbOnly.mem : t.mem = s.mem := by rw [h]
theorem State.TlbOnly.now : t.now = s.now := by rw [h]
theorem State.TlbOnly.cru : t.cru = s.cru := by rw [h]
theorem State.TlbOnly.cx (i : Nat) : t.cx i = s.cx i := by rw [h]; rfl
theorem State.TlbOnly.stream (n : Nat) : t.stream n = s.stream n := by rw [h]; rfl
theorem State.TlbOnly.outHost : t.outHost = s.outHost := by rw [h]
theorem State.TlbOnly.nextId : t.nextId = s.nextId := by rw [h]
theorem State.TlbOnly.mgmt : t.mgmt = s.mgmt := by rw [h]
theorem State.TlbOnly.peek (ks : List Nat) : t.peek ks = ks.map (Memory.read s.mem) := by rw [State.peek, h.mem]

end

/-! Events that become possible -/

section
variable (s : State) (i : Instr) (n : Nat)

@[simp] theorem State.outHost_post : (s.post i).outHost = s.outHost := by rw [State.post_eq]
@[simp] theorem State.cx_post : (s.post i).cx n = s.cx n := by rw [State.post_eq]; rfl
@[simp] theorem State.stream_post : (s.post i).stream n = s.stream n := by rw [State.post_eq]; rfl

end

/-! A store (R269, R284, R286) -/

/-- `t` is `s` but for memory and for what watches and marks act on: waves, instances, heads of queues and the events they make possible. -/
def State.Touched (s t : State) : Prop := t = { s with
  mem := t.mem, written := t.written, cores := t.cores, ctxs := t.ctxs, cru := t.cru, queue := t.queue, queues := t.queues, dies := t.dies }

theorem State.Touched.trans {s t u : State} (st : s.Touched t) (tu : t.Touched u) : s.Touched u := by
  unfold State.Touched at *
  rw [tu, st]

theorem State.Touched.post (s : State) (i : Instr) : s.Touched (s.post i) := by unfold State.Touched; rw [State.post_eq]
theorem State.Touched.posts (s : State) (l : List Instr) : s.Touched (s.posts l) := by unfold State.Touched; rw [State.posts_eq]

theorem State.Touched.touchQueue (s : State) (lines : List Nat) (q : Nat) : s.Touched (s.touchQueue lines q) := by
  simp only [State.touchQueue]
  split
  · rfl
  split
  · rfl
  · refine .trans ?_ (.post ..)
    rfl

theorem State.Touched.touchStream (s : State) (lines : List Nat) (n : Nat) : s.Touched (s.touchStream lines n) := by
  simp only [State.touchStream]
  split
  · exact .post ..
  · rfl

theorem State.Touched.each {α : Type} {f : State → α → State} (step : ∀ s a, State.Touched s (f s a)) (l : List α) (s : State) :
    s.Touched (s.each l f) :=
  State.each_rel (R := State.Touched) (fun _ => rfl) (fun st tu => st.trans tu) step l s

theorem State.Touched.touch (s : State) (lines : List Nat) : s.Touched (s.touch lines) := by
  unfold State.touch
  refine .trans ?_ (.each (fun t n => .touchStream t lines n) _ _)
  refine .trans ?_ (.each (fun t q => .touchQueue t lines q) _ _)
  refine .trans ?_ (.posts ..)
  rfl

theorem State.Touched.store (s : State) (l : List (Nat × Byte)) : s.Touched (s.store l) := by
  unfold State.store
  split
  · rfl
  · refine .trans ?_ (.touch ..)
    rfl

section
variable (s : State) (l : List (Nat × Byte))

@[simp] theorem State.stream_store (n : Nat) : (s.store l).stream n = s.stream n := by rw [State.Touched.store s l]; rfl
@[simp] theorem State.outHost_store : (s.store l).outHost = s.outHost := by rw [State.Touched.store s l]

end

@[simp] theorem State.posts_cru (s : State) (l : List Instr) : (s.posts l).cru = s.cru := by rw [State.posts_eq]

theorem State.touchQueue_cru (s : State) (lines : List Nat) (q : Nat) : (s.touchQueue lines q).cru = s.cru := by
  simp only [State.touchQueue]
  split
  · rfl
  split
  · rfl
  · rw [State.post_eq]
    rfl

theorem State.touchStream_cru (s : State) (lines : List Nat) (n : Nat) : (s.touchStream lines n).cru = s.cru := by
  simp only [State.touchStream]
  split
  · rw [State.post_eq]
  · rfl

/-- What writes to some lines leave of a slot: a watch on one of them falls (R284). -/
def Crux.touched (lines : List Nat) (x : Crux) : Crux :=
  match x.watch with
  | some l => if lines.contains l then { x with watch := none, refusals := 0 } else x
  | none => x

theorem Crux.touched_eq (lines : List Nat) (x : Crux) : ∃ w k, x.touched lines = { x with watch := w, refusals := k } := by
  unfold Crux.touched
  split
  · split
    · exact ⟨_, _, rfl⟩
    · exact ⟨_, _, rfl⟩
  · exact ⟨_, _, rfl⟩

theorem State.touch_cru (s : State) (lines : List Nat) : (s.touch lines).cru = tmap s.cru (fun _ x => x.touched lines) := by
  unfold State.touch
  rw [State.each_same State.cru _ (fun t n => t.touchStream_cru lines n), State.each_same State.cru _ (fun t q => t.touchQueue_cru lines q),
    State.posts_cru]
  rfl

/-- A store changes of a slot only what its WAIT.ev watches. -/
theorem State.cx_store (s : State) (l : List (Nat × Byte)) (i : Nat) :
    ∃ w k, (s.store l).cx i = { s.cx i with watch := w, refusals := k } := by
  unfold State.store
  split
  · exact ⟨_, _, rfl⟩
  · rw [State.cx, State.touch_cru, tget, tfind_tmap]
    change ∃ w k, _ = ({ (tfind s.cru i).getD {} with watch := w, refusals := k } : Crux)
    cases tfind s.cru i with
    | none => exact ⟨_, _, rfl⟩
    | some x => exact x.touched_eq _

/-! Bit fields -/

theorem bits_eq (x hi lo : Nat) : bits x hi lo = x / 2 ^ lo % 2 ^ (hi + 1 - lo) := by
  rw [bits, Nat.shiftRight_eq_div_pow, Nat.one_shiftLeft]

end Sys2Proof.Machine
end

