-- ==== Sys2Proof/Proofs/CollectiveSteps.lean ====
section
/-! PROOF. Steps of collective programs (R128 to R130, R134, R135): what a step of a running slot sees, the checks of a data step in
their order, and each control step by its own condition. -/

namespace Sys2Proof.Machine
open Sys2Proof.Claims

/-! A step sees its slot (R128) -/

section
variable {s : State} {c k : Nat} {x : Crux} {d : CollDesc}

theorem crucibleStep_run (h : Collective s c k x d) (run : Nat → Crux → CollDesc → Out) : crucibleStep s run = run (c * 16 + k) x d := by
  obtain ⟨cur, slot, desc, runs, live⟩ := h
  simp [crucibleStep, cur, slot, desc, runs, live]

theorem crucibleStep_skipped (cur : s.cur = .crux c k) (slot : s.cx (c * 16 + k) = x) (desc : x.desc = some d) (runs : x.st = 2)
    (skipped : x.skipped d.rank = true) (run : Nat → Crux → CollDesc → Out) :
    crucibleStep s run = .next (s.endInstance (c * 16 + k) 9 false) := by
  simp [crucibleStep, cur, slot, desc, runs, skipped]

theorem stepTo_running (h : Collective s c k x d) (n : Nat) :
    s.stepTo (c * 16 + k) n = s.setCx (c * 16 + k) { x with step := n } := by rw [State.stepTo, h.slot]

end

theorem slot_div {c k : Nat} (low : k < 16) : (c * 16 + k) / 16 = c := by omega

/-! Time-outs of steps (R133) -/

section
variable {s : State} {i : Nat} {d : CollDesc} (desc : (s.cx i).desc = some d) (a : Nat)
include desc

theorem State.armTimeout_timed (timed : d.tmo ≠ 0 ∧ (s.cx i).tmoAt = none) :
    s.armTimeout i a = (s.setCx i { s.cx i with tmoAt := some a }).atTime a (.stepTimeout (slotAt i)) := by
  simp [State.armTimeout, desc, timed]

theorem State.armTimeout_untimed (untimed : ¬ (d.tmo ≠ 0 ∧ (s.cx i).tmoAt = none)) : s.armTimeout i a = s := by
  simp only [State.armTimeout, desc]
  split
  next d' at_ same none => 
    obtain rfl := Option.some.inj same
    exact if_pos (by simpa [none] using untimed)
  next => rfl

end

/-! Data steps (R130, R134) -/

theorem elemSize_eq (oper fmt smD : Nat) :
    elemSize oper fmt smD = if oper = 4 then (2 + smD) * 4 else if fmt = 1 ∨ fmt = 2 then 2 else 4 := by
  simp [elemSize]

/-- The length of a buffer, 0 where the buffer table has none of that number (R124, R130). -/
def Crux.bufLen (x : Crux) (b : Nat) : Nat :=
  match x.bufs[b]? with
  | some b => b.len
  | none => 0

section
variable (s : State) (i : Nat) (x : Crux) (d : CollDesc) (f : Step) (op : Instr) (dst : Nat) (src : Option Nat) (to_ named : List Nat)
  (selfOk writes : Bool)

/-- The outstanding step that a data step becomes once it has started (R134). -/
def Crux.dataStep (now : Nat) : DataStep where
  id := x.nextStep
  idx := x.step
  op := op
  oper := x.oper
  fmt := x.fmt
  smD := x.smD
  buf := f.buf.toNat
  first := (x.region d f).1 * elemSize x.oper x.fmt x.smD
  bytes := (x.region d f).2 * elemSize x.oper x.fmt x.smD
  dst := dst
  src := src
  to_ := to_
  done := 0
  ends := []
  writes := writes
  fault := none
  since := now

/-- No peer that its fields name is skipped, or it names its peer by distance among the live ranks (R128). -/
theorem Crux.heard_iff (x : Crux) (f : Step) (named : List Nat) :
    (f.pk = 1 ∨ ∀ r ∈ named, x.skipped r = false) ↔ ¬ (f.pk != 1 && named.any (fun r => x.skipped r)) = true := by
  simp [or_iff_not_imp_left]

/-- There is a place for it among eight outstanding steps, and it clashes with none of them (R134). -/
theorem Crux.room_iff (x : Crux) (t : DataStep) : (x.outst.length < 8 ∧ ∀ o ∈ x.outst, o.clashes t = false) ↔
    ¬ (decide (8 ≤ x.outst.length) || x.outst.any (fun o => o.clashes t)) = true := by
  simp [not_or]

/-- The checks of a data step in their order: skipped peers, room, the own rank as peer, the softmax format, the region, no element. -/
theorem State.startData_eq : s.startData i x d f op dst src to_ named selfOk writes =
    let t := x.dataStep d f op dst src to_ writes s.now
    let last := ((x.region d f).1 + (x.region d f).2) * elemSize x.oper x.fmt x.smD
    if f.pk != 1 && named.any (fun r => x.skipped r) then s.stepTo i (x.step + 1)
    else if 8 ≤ x.outst.length || x.outst.any (fun o => o.clashes t) then s
    else if !selfOk && named.contains d.rank then s.endInstance i 8 false
    else if x.oper == 4 && x.fmt != 0 then s.endInstance i 13 false
    else if x.bufLen f.buf.toNat < last || x.bufLen dst < last then s.endInstance i 6 false
    else if (x.region d f).2 == 0 then s.stepTo i (x.step + 1)
    else (s.setCx i { x with step := x.step + 1, nextStep := x.nextStep + 1, outst := x.outst ++ [t] }).armTimeout i (s.now + 1000 * d.tmo) := rfl

variable {s i x d f op dst src to_ named selfOk writes}

theorem State.startData_peerSkipped (relative : f.pk ≠ 1) (skipped : ∃ r ∈ named, x.skipped r = true) :
    s.startData i x d f op dst src to_ named selfOk writes = s.stepTo i (x.step + 1) := by
  rw [State.startData_eq]
  exact if_pos (by simpa using ⟨relative, skipped⟩)

section
variable (heard : f.pk = 1 ∨ ∀ r ∈ named, x.skipped r = false)
include heard

theorem State.startData_waits
    (full : ¬ (x.outst.length < 8 ∧ ∀ o ∈ x.outst, o.clashes (x.dataStep d f op dst src to_ writes s.now) = false)) :
    s.startData i x d f op dst src to_ named selfOk writes = s := by
  rw [State.startData_eq]
  exact (if_neg ((x.heard_iff f named).mp heard)).trans (if_pos (not_not.mp (mt (x.room_iff _).mpr full)))

variable (room : x.outst.length < 8 ∧ ∀ o ∈ x.outst, o.clashes (x.dataStep d f op dst src to_ writes s.now) = false)
include room

/-- Once it has a place, a step makes its own checks. -/
theorem State.startData_checks : s.startData i x d f op dst src to_ named selfOk writes =
    let last := ((x.region d f).1 + (x.region d f).2) * elemSize x.oper x.fmt x.smD
    if !selfOk && named.contains d.rank then s.endInstance i 8 false
    else if x.oper == 4 && x.fmt != 0 then s.endInstance i 13 false
    else if x.bufLen f.buf.toNat < last || x.bufLen dst < last then s.endInstance i 6 false
    else if (x.region d f).2 == 0 then s.stepTo i (x.step + 1)
    else (s.setCx i { x with
        step := x.step + 1, nextStep := x.nextStep + 1, outst := x.outst ++ [x.dataStep d f op dst src to_ writes s.now] }).armTimeout i
      (s.now + 1000 * d.tmo) := by
  rw [State.startData_eq]
  exact (if_neg ((x.heard_iff f named).mp heard)).trans (if_neg ((x.room_iff _).mp room))

theorem State.startData_self (strict : selfOk = false) (own : d.rank ∈ named) :
    s.startData i x d f op dst src to_ named selfOk writes = s.endInstance i 8 false := by
  rw [State.startData_checks heard room]
  exact if_pos (by simp [strict, own])

variable (peers : selfOk = true ∨ d.rank ∉ named)
include peers

theorem State.startData_format (softmax : x.oper = 4) (other : x.fmt ≠ 0) :
    s.startData i x d f op dst src to_ named selfOk writes = s.endInstance i 13 false := by
  rw [State.startData_checks heard room]
  refine (if_neg ?_).trans (if_pos ?_)
  · simpa [or_iff_not_imp_left] using peers
  · simp [softmax, other]

variable (format : x.oper = 4 → x.fmt = 0)
include format

/-- Then its region is looked at. -/
theorem State.startData_region : s.startData i x d f op dst src to_ named selfOk writes =
    let t := x.dataStep d f op dst src to_ writes s.now
    if x.bufLen f.buf.toNat < t.first + t.bytes || x.bufLen dst < t.first + t.bytes then s.endInstance i 6 false
    else if (x.region d f).2 == 0 then s.stepTo i (x.step + 1)
    else (s.setCx i { x with step := x.step + 1, nextStep := x.nextStep + 1, outst := x.outst ++ [t] }).armTimeout i (s.now + 1000 * d.tmo) := by
  rw [State.startData_checks heard room, Nat.add_mul]
  refine (if_neg ?_).trans (if_neg ?_)
  · simpa [or_iff_not_imp_left] using peers
  · simpa using format

theorem State.startData_beyond {last : Nat}
    (region : (x.region d f).1 * elemSize x.oper x.fmt x.smD + (x.region d f).2 * elemSize x.oper x.fmt x.smD = last)
    (beyond : x.bufLen f.buf.toNat < last ∨ x.bufLen dst < last) :
    s.startData i x d f op dst src to_ named selfOk writes = s.endInstance i 6 false := by
  rw [State.startData_region heard room peers format]
  exact if_pos (by simpa [Crux.dataStep, region] using beyond)

section
variable {last : Nat} (region : (x.region d f).1 * elemSize x.oper x.fmt x.smD + (x.region d f).2 * elemSize x.oper x.fmt x.smD = last)
  (own : last ≤ x.bufLen f.buf.toNat) (other : last ≤ x.bufLen dst)
include region own other

theorem State.startData_empty (none : (x.region d f).2 = 0) :
    s.startData i x d f op dst src to_ named selfOk writes = s.stepTo i (x.step + 1) := by
  rw [State.startData_region heard room peers format]
  exact (if_neg (by simpa [Crux.dataStep, region] using ⟨own, other⟩)).trans (if_pos (by simpa using none))

theorem State.startData_starts (some : (x.region d f).2 ≠ 0) : s.startData i x d f op dst src to_ named selfOk writes =
    (s.setCx i { x with
        step := x.step + 1, nextStep := x.nextStep + 1, outst := x.outst ++ [x.dataStep d f op dst src to_ writes s.now] }).armTimeout i
      (s.now + 1000 * d.tmo) := by
  rw [State.startData_region heard room peers format]
  exact (if_neg (by simpa [Crux.dataStep, region] using ⟨own, other⟩)).trans (if_neg (by simpa using some))

end

end

end

/-! Data steps, each with its peers (R134) -/

section
variable {s : State} {c k : Nat} {x : Crux} {d : CollDesc} (h : Collective s c k x d) (f : Step)
include h

theorem exec_send : exec (.send f) s = .next (s.startData (c * 16 + k) x d f (.send f) f.buf.toNat none [x.peerOf d f f.pv.toInt]
    [x.peerOf d f f.pv.toInt] false false) := by
  change execSend f s = _
  exact crucibleStep_run h _

theorem exec_recv : exec (.recv f) s = .next (s.startData (c * 16 + k) x d f (.recv f) f.buf.toNat (some (x.peerOf d f f.pv.toInt)) []
    [x.peerOf d f f.pv.toInt] false true) := by
  change execRecv f s = _
  exact crucibleStep_run h _

theorem exec_rrs : exec (.rrs f) s = .next (s.startData (c * 16 + k) x d f (.rrs f) f.buf.toNat (some (x.peerOf d f f.pv.toInt))
    [x.mirror d f] [x.peerOf d f f.pv.toInt, x.mirror d f] false true) := by
  change execRrs f s = _
  exact crucibleStep_run h _

theorem exec_rrd : exec (.rrd f) s = .next (s.startData (c * 16 + k) x d f (.rrd f) f.buf.toNat (some (x.peerOf d f f.pv.toInt)) []
    [x.peerOf d f f.pv.toInt] false true) := by
  change execRrd f s = _
  exact crucibleStep_run h _

theorem exec_copy : exec (.copy f) s = .next (s.startData (c * 16 + k) x d f (.copy f) (f.pv.toNat % 256) none [] [] true false) := by
  change execCopy f s = _
  exact crucibleStep_run h _

theorem exec_bcast_root (root : x.peerOf d f f.pv.toInt = d.rank) : exec (.bcast f) s = .next (s.startData (c * 16 + k) x d f (.bcast f)
    f.buf.toNat none ((x.live d).filter (fun r => r != d.rank)) [] true false) := by
  change execBcast f s = _
  exact (crucibleStep_run h _).trans (if_pos (beq_iff_eq.mpr root))

theorem exec_bcast_other (other : x.peerOf d f f.pv.toInt ≠ d.rank) : exec (.bcast f) s = .next (s.startData (c * 16 + k) x d f (.bcast f)
    f.buf.toNat (some (x.peerOf d f f.pv.toInt)) [] [x.peerOf d f f.pv.toInt] true true) := by
  change execBcast f s = _
  exact (crucibleStep_run h _).trans (if_neg (by rwa [beq_iff_eq]))

end

/-- What a data step that has started leaves: a time-out is armed unless the descriptor has none or one is armed already (R133, R134). -/
theorem started_armTimeout {s : State} {c k : Nat} {x : Crux} {d : CollDesc} (h : Collective s c k x d) {t0 : DataStep} :
    let i := c * 16 + k
    let y : Crux := { x with step := x.step + 1, nextStep := x.nextStep + 1, outst := x.outst ++ [t0] }
    let t := (s.setCx i y).armTimeout i (s.now + 1000 * d.tmo)
    let timed : Prop := d.tmo ≠ 0 ∧ x.tmoAt = none
    t.mem = s.mem ∧ (timed → (⟨s.now + 1000 * d.tmo, .stepTimeout (slotAt i)⟩ : Timer) ∈ t.timers) ∧
      (∃ a, t.cx i = { y with tmoAt := a } ∧ (timed → a = some (s.now + 1000 * d.tmo)) ∧ (¬ timed → a = x.tmoAt)) ∧
      ∀ j, j ≠ i → t.cx j = s.cx j := by
  intro i y t timed
  have slot : (s.setCx i y).cx i = y := State.cx_setCx ..
  have desc : ((s.setCx i y).cx i).desc = some d := by rw [slot]; exact h.desc
  by_cases armed : timed
  · have run : t = ((s.setCx i y).setCx i { y with tmoAt := some (s.now + 1000 * d.tmo) }).atTime
        (s.now + 1000 * d.tmo) (.stepTimeout (slotAt i)) := by
      have run := State.armTimeout_timed desc (s.now + 1000 * d.tmo) (by rw [slot]; exact armed)
      rwa [slot] at run
    rw [run, State.setCx_setCx]
    refine ⟨rfl, fun _ => List.mem_append_right _ (List.mem_singleton_self _), ⟨_, ?_, fun _ => rfl, fun off => absurd armed off⟩,
      fun j other => ?_⟩
    · rw [State.cx_atTime, State.cx_setCx]
    · rw [State.cx_atTime, State.cx_setCx_ne s i _ other]
  · have run : t = s.setCx i y := State.armTimeout_untimed desc _ (by rw [slot]; exact armed)
    rw [run]
    exact ⟨rfl, fun on => absurd on armed, ⟨_, slot, fun on => absurd on armed, fun _ => rfl⟩, fun j other => State.cx_setCx_ne s i _ other⟩

/-- Data steps start and end as the claim says, each by the outcome of its checks. -/
theorem collectiveDataSteps : CollectiveDataSteps := by
  intro f s c k x d h i p esz len data others bcastRoot bcastOther
  have size : elemSize x.oper x.fmt x.smD = esz := elemSize_eq ..
  have each {j : Instr} {dst : Nat} {src : Option Nat} {to_ named : List Nat} {selfOk writes : Bool}
      (run : exec j s = .next (s.startData i x d f j dst src to_ named selfOk writes)) : data j dst src to_ named selfOk writes := by
    unfold data
    extract_lets first bytes ok t0 room heard timed
    have step : x.dataStep d f j dst src to_ writes s.now = t0 := by simp only [Crux.dataStep, size]; rfl
    have region : (x.region d f).1 * elemSize x.oper x.fmt x.smD + (x.region d f).2 * elemSize x.oper x.fmt x.smD = first + bytes := by
      rw [size]
    have answers {t : State} (e : s.startData i x d f j dst src to_ named selfOk writes = t) : Ends j s (fun u => u = t) := ⟨_, run, e⟩
    refine ⟨fun relative skipped => ?_, fun hear full => ?_, fun hear place strict own => ?_, fun hear place peers softmax other => ?_,
      fun good place beyond => ?_, fun good place own other none => ?_, fun good place own other some => ?_⟩
    · exact answers ((State.startData_peerSkipped relative skipped).trans (stepTo_running h _))
    · exact answers (State.startData_waits hear (step ▸ full))
    · exact answers (State.startData_self hear (step ▸ place) strict own)
    · exact answers (State.startData_format hear (step ▸ place) peers softmax other)
    all_goals obtain ⟨peers, hear, format⟩ := good
    · exact answers (State.startData_beyond hear (step ▸ place) peers format region beyond)
    · exact answers ((State.startData_empty hear (step ▸ place) peers format region own other none).trans (stepTo_running h _))
    · refine ⟨_, run, ?_⟩
      rw [State.startData_starts hear (step ▸ place) peers format region own other some, step]
      exact started_armTimeout h (t0 := t0)
  exact ⟨each (exec_send h f), each (exec_recv h f), each (exec_rrs h f), each (exec_rrd h f), each (exec_copy h f),
    fun root => each (exec_bcast_root h f root), fun other => each (exec_bcast_other h f other)⟩

/-! Control steps (R129, R135), each by its condition -/

theorem Crux.skipped_getLsbD (x : Crux) (n : Nat) : x.skipped n = (tget 0 x.skip (n / 32)).getLsbD (n % 32) := by rw [Crux.skipped, bit_toNat]

section
variable {s : State} {c k : Nat} {x : Crux} {d : CollDesc} (h : Collective s c k x d) (f : Step)
include h

theorem exec_wait : exec (.wait f) s =
    .next (if x.outst.length ≤ f.cnt.toNat then s.stepTo (c * 16 + k) (x.step + 1) else s) := by
  change execWait f s = _
  exact crucibleStep_run h _

theorem exec_loop : exec (.loop f) s = if f.cnt == 0 then .next (s.stepTo (c * 16 + k) (afterEndl x.prog x.step))
    else .next (s.setCx (c * 16 + k) { x with loops := (x.step, 0, f.cnt.toNat) :: x.loops, step := x.step + 1 }) := by
  change execLoop f s = _
  exact crucibleStep_run h _

theorem exec_endl {a n m : Nat} {l : List (Nat × Nat × Nat)} (loops : x.loops = (a, n, m) :: l) : exec (.endl f) s =
    if n + 1 < m then .next (s.setCx (c * 16 + k) { x with loops := (a, n + 1, m) :: l, step := a + 1 })
    else .next (s.setCx (c * 16 + k) { x with loops := l, step := x.step + 1 }) := by
  change execEndl f s = _
  refine (crucibleStep_run h _).trans ?_
  simp only [loops]

theorem exec_peer {by_ : Int} (offset : by_ = if f.dbl then f.pv.toInt * 2 ^ x.lc else if f.ls then f.pv.toInt + x.lc else f.pv.toInt) :
    exec (.peer f) s = if x.peerOf d f by_ == d.rank then .next (s.endInstance (c * 16 + k) 8 false)
      else .next (s.setCx (c * 16 + k) { x with peers := tset x.peers f.buf.toNat (x.peerOf d f by_), step := x.step + 1 }) := by
  subst offset
  change execPeer f s = _
  exact crucibleStep_run h _

theorem exec_setop : exec (.setop f) s = .next (s.setCx (c * 16 + k) { x with
    oper := f.cnt.toNat % 16, fmt := f.cnt.toNat / 16 % 16
    smD := if f.cnt.toNat / 65536 % 1024 = 0 then 1024 else f.cnt.toNat / 65536 % 1024, step := x.step + 1 }) := by
  change execSetop f s = _
  refine (crucibleStep_run h _).trans ?_
  simp only [bits_eq, beq_iff_eq, Nat.reduceAdd, Nat.reduceSub, Nat.reducePow, Nat.div_one]

theorem exec_setch : exec (.setch f) s = if f.cnt == 0 || 16777216 < f.cnt.toNat then .next (s.endInstance (c * 16 + k) 6 false)
    else .next (s.setCx (c * 16 + k) { x with ch := f.cnt.toNat, step := x.step + 1 }) := by
  change execSetch f s = _
  exact crucibleStep_run h _

theorem exec_done : exec (.done f) s = if !x.outst.isEmpty then .next s else .next ((s.setCx (c * 16 + k) { x with
    leftover := x.ins.any (fun (p : Nat × InStream) => !p.2.ring.isEmpty || !p.2.early.isEmpty) }).endInstance (c * 16 + k) 0 false) := by
  change execDone f s = _
  exact crucibleStep_run h _

section
variable {b : CollBuf} (buf : x.bufs[f.buf.toNat]? = some b)
include buf

theorem exec_counterStep_elsewhere (kind : b.kind ≠ 1) : exec (.notify f) s = .next (s.endInstance (c * 16 + k) 6 false) ∧
    exec (.waitEv f) s = .next (s.endInstance (c * 16 + k) 6 false) := by
  change execNotify f s = _ ∧ execWaitEv f s = _
  refine ⟨(crucibleStep_run h _).trans ?_, (crucibleStep_run h _).trans ?_⟩
  all_goals
    simp only [buf]
    exact if_pos (bne_iff_ne.mpr kind)

variable (kind : b.kind = 1)
include kind

theorem exec_notify_waits (busy : x.outst ≠ []) : exec (.notify f) s = .next s := by
  change execNotify f s = _
  refine (crucibleStep_run h _).trans ?_
  simp only [buf]
  exact (if_neg (by simp [kind])).trans (if_pos (by simp [busy]))

variable (low : k < 16) (sound : x.fault = none)
include low sound

theorem exec_notify (idle : x.outst = []) {old : Nat} {s1 : State}
    (added : s.devUpdate (c * 4) (x.ctx.getD 0) b.addr.toNat (fun v => v + f.cnt.toNat) = (.ok old, s1)) :
    exec (.notify f) s = .next (s1.stepTo (c * 16 + k) (x.step + 1)) := by
  change execNotify f s = _
  refine (crucibleStep_run h _).trans ?_
  simp only [buf, slot_div low, added]
  exact (if_neg (by simp [kind])).trans (if_neg (by simp [idle, sound]))

theorem exec_waitEv (past : s.now ≥ x.backUntil) (awake : x.watch = none) {ks : List Nat} {s1 : State}
    (found : s.resolve none (c * 4) (x.ctx.getD 0) 2 b.addr.toNat 8 needRD = (.ok ks, s1)) : exec (.waitEv f) s =
    if f.cnt.toNat + (if f.ls then x.lc else 0) ≤ leNat (s1.peek ks) then
      .next (s1.setCx (c * 16 + k) { x with step := x.step + 1, watch := none, refusals := 0 })
    else if s1.canWatch (lineOf (ks.getD 0 0)) then .next (s1.setCx (c * 16 + k) { x with watch := some (lineOf (ks.getD 0 0)) })
    else .next ((s1.setCx (c * 16 + k) { x with refusals := x.refusals + 1, backUntil := s1.now + watchBackoff x.refusals }).atTime
      (s1.now + watchBackoff x.refusals) (.counterWaitBackoff (.slot (slotAt (c * 16 + k))))) := by
  change execWaitEv f s = _
  refine (crucibleStep_run h _).trans ?_
  simp only [buf, slot_div low, found]
  exact (if_neg (by simp [kind])).trans (if_neg (by simp [awake, sound, past]))

end

end

/-- No step starts in a slot whose own rank is skipped (R128). -/
theorem exec_ownRankSkipped {s : State} {c k : Nat} {x : Crux} {d : CollDesc} {f : Step} {j : Instr} (cur : s.cur = .crux c k)
    (slot : s.cx (c * 16 + k) = x) (desc : x.desc = some d) (runs : x.st = 2) (skipped : x.skipped d.rank = true)
    (step : j ∈ [Instr.send f, .recv f, .rrs f, .rrd f, .copy f, .bcast f, .wait f, .waitEv f, .loop f, .endl f, .peer f, .setop f, .setch f,
      .notify f, .done f]) : exec j s = .next (s.endInstance (c * 16 + k) 9 false) := by
  have ends (run : Nat → Crux → CollDesc → Out) := crucibleStep_skipped cur slot desc runs skipped run
  simp only [List.mem_cons, List.not_mem_nil, or_false] at step
  rcases step with rfl | rfl | rfl | rfl | rfl | rfl | rfl | rfl | rfl | rfl | rfl | rfl | rfl | rfl | rfl
  all_goals
    simp only [exec, execSend, execRecv, execRrs, execRrd, execCopy, execBcast, execWait, execWaitEv, execLoop, execEndl, execPeer, execSetop,
      execSetch, execNotify, execDone, ends]

/-- Each control step by its own condition; a slot whose own rank is skipped takes none. -/
theorem collectiveControlSteps : CollectiveControlSteps := by
  intro f s c k x d i
  refine ⟨fun cur slot desc runs skipped j steps => ?_, fun n _ => x.skipped_getLsbD n, fun h => ?_⟩
  · exact ⟨_, exec_ownRankSkipped cur slot desc runs skipped steps, rfl⟩
  intro goes next_ by_ q
  have peer := exec_peer h f (by_ := by_) rfl
  refine ⟨fun few => ⟨_, exec_wait h f, ?_⟩, fun many => ⟨_, exec_wait h f, if_neg (Nat.not_le.mpr many)⟩,
    fun some => ⟨_, (exec_loop h f).trans (if_neg (by simpa using some)), rfl⟩,
    fun none => ⟨_, (exec_loop h f).trans (if_pos (by simpa using none)), stepTo_running h _⟩,
    fun a n m l loops => ⟨fun more => ⟨_, (exec_endl h f loops).trans (if_pos more), rfl⟩,
      fun last => ⟨_, (exec_endl h f loops).trans (if_neg (Nat.not_lt.mpr last)), rfl⟩⟩,
    fun other => ⟨_, peer.trans (if_neg (by simpa using other)), rfl⟩, fun own => ⟨_, peer.trans (if_pos (by simpa using own)), rfl⟩,
    ⟨_, exec_setop h f, rfl⟩, fun lo hi => ⟨_, (exec_setch h f).trans (if_neg ?_), rfl⟩,
    fun beyond => ⟨_, (exec_setch h f).trans (if_pos (by simpa using beyond)), rfl⟩, fun b buf kind => ⟨?_, ?_, ?_⟩,
    fun b buf kind j steps => ?_, fun busy => ⟨_, (exec_done h f).trans (if_pos (by simpa using busy)), rfl⟩,
    fun idle => ⟨_, (exec_done h f).trans (if_neg (by simp [idle])), rfl⟩⟩
  · rw [if_pos few]
    exact stepTo_running h _
  · simp only [Bool.or_eq_true, beq_iff_eq, decide_eq_true_iff, not_or]
    exact ⟨fun none => by simp [none] at lo, by omega⟩
  · intro idle sound old s1 run low
    exact ⟨_, exec_notify h f buf kind low sound idle run, rfl⟩
  · exact fun busy => ⟨_, exec_notify_waits h f buf kind busy, rfl⟩
  · intro past awake sound low ks s1 found
    have run := exec_waitEv h f buf kind low sound past awake found
    exact ⟨fun reached => ⟨_, run.trans (if_pos reached), rfl⟩,
      fun short room => ⟨_, run.trans ((if_neg (Nat.not_le.mpr short)).trans (if_pos room)), rfl⟩⟩
  · obtain ⟨notify, waitEv⟩ := exec_counterStep_elsewhere h f buf kind
    simp only [List.mem_cons, List.not_mem_nil, or_false] at steps
    rcases steps with rfl | rfl
    · exact ⟨_, notify, rfl⟩
    · exact ⟨_, waitEv, rfl⟩

/-- Settles O30: the claim on data steps, and the claim on control steps. -/
theorem collectiveSteps : Obligations.CollectiveSteps := ⟨collectiveDataSteps, collectiveControlSteps⟩

end Sys2Proof.Machine
end

