-- ==== Sys2Proof/Proofs/CommandRecords.lean ====
section
/-! PROOF. Command records (R152 to R156): what a record's completion leaves and sends, and how the record that stands alone in its
stream's buffer starts. -/

namespace Sys2Proof.Machine
open Sys2Proof.Claims

/-! Fields of bytes put together (R8) -/

theorem field_head {m q : List Byte} {n : Nat} (len : m.length = n) : field (m ++ q) 0 n = leNat m := by
  simpa using field_append (p := []) (q := q) rfl len

theorem field_skip {p q : List Byte} {off n : Nat} (le : p.length ≤ off) : field (p ++ q) off n = field q (off - p.length) n := by
  rw [field, field, List.drop_append, List.drop_eq_nil_of_le le, List.nil_append]

/-! Completion records (R156) -/

theorem cplRecord_eq {l : List Byte} (len : 16 ≤ l.length) (n : Nat) (seq : Word) (status value dlen seg nseg : Nat) :
    cplRecord n seq l status value dlen seg nseg = (l.drop 8).take 8 ++ (leBytes 4 seq.toNat ++ (leBytes 2 n ++ (leBytes 1 status ++ (l.take 1 ++
      (leBytes 8 value ++ (leBytes 2 dlen ++ (leBytes 2 seg ++ (leBytes 2 nseg ++ leBytes 2 0)))))))) := by
  simp only [cplRecord, Nat.sub_eq_zero_of_le len, List.replicate_zero, List.append_nil, List.append_assoc]

section
variable {l : List Byte} (len : 16 ≤ l.length) (n : Nat) (seq : Word) (status value dlen seg nseg : Nat)
include len

theorem cplRecord_tag : (cplRecord n seq l status value dlen seg nseg).take 8 = (l.drop 8).take 8 := by
  rw [cplRecord_eq len]
  exact List.take_left' (by simp; omega)

/-- SEQ, the stream, STATUS and VALUE of a completion record. -/
theorem cplRecord_fields : field (cplRecord n seq l status value dlen seg nseg) 8 4 = seq.toNat ∧
    field (cplRecord n seq l status value dlen seg nseg) 12 2 = n % 65536 ∧
    field (cplRecord n seq l status value dlen seg nseg) 14 1 = status % 256 ∧
    field (cplRecord n seq l status value dlen seg nseg) 16 8 = value % 2 ^ 64 := by
  have tag : ((l.drop 8).take 8).length = 8 := by simp; omega
  have opc : (l.take 1).length = 1 := by simp; omega
  rw [cplRecord_eq len]
  simp [field_skip, field_head, leNat_leBytes, tag, opc]
  exact seq.isLt

end

/-! Packets of completions (R154) -/

/-- `t` is `s` but for command streams, what went to the host, and timers. -/
def State.CompletionOnly (s t : State) : Prop := t = { s with streams := t.streams, outHost := t.outHost, timers := t.timers }

theorem State.CompletionOnly.trans {s t u : State} (st : s.CompletionOnly t) (tu : t.CompletionOnly u) : s.CompletionOnly u := by
  unfold State.CompletionOnly at *
  rw [tu, st]

section
variable {s : State} {n : Nat} {payload : List Byte} (room : (s.stream n).unacked.length < 64)
include room

/-- A completion for which no packet is asked only moves the stream's completed SEQ on. -/
theorem State.sendCpl_silent : let t := s.sendCpl n 0 payload
    t.outHost = s.outHost ∧ (t.stream n).completed = BitVec.ofNat 32 (field payload 8 4) ∧ (t.stream n).buffer = (s.stream n).buffer ∧
      s.CompletionOnly t := by
  intro t
  have run : t = s.setStream n { s.stream n with completed := BitVec.ofNat 32 (field payload 8 4) } := by
    simp [t, State.sendCpl, Nat.not_le.mpr room]
  rw [run, State.stream_setStream]
  exact ⟨rfl, rfl, rfl, rfl⟩

/-- A completion of the stream's own record goes to the host as one packet. -/
theorem State.sendCpl_record (named : field payload 12 2 = n) : let t := s.sendCpl n 3 payload
    t.outHost = s.outHost ++ [hostPacket 3 n ((s.stream n).cplSeq + 1) 0 payload] ∧
      (t.stream n).completed = BitVec.ofNat 32 (field payload 8 4) ∧ (t.stream n).buffer = (s.stream n).buffer ∧ s.CompletionOnly t := by
  intro t
  generalize hk : hostPacket 3 n ((s.stream n).cplSeq + 1) 0 payload = k
  have run : t = ({ s.setStream n { s.stream n with
        cplSeq := (s.stream n).cplSeq + 1, completed := BitVec.ofNat 32 (field payload 8 4), unacked := (s.stream n).unacked ++ [(k, s.now, 1)] }
      with outHost := s.outHost ++ [k] }).after 100000 (.cplRetransmit (BitVec.ofNat 10 n)) := by
    simp [t, State.sendCpl, Nat.not_le.mpr room, named, ← hk]
  have stream : t.stream n = _ := (congrArg (State.stream · n) run).trans (State.stream_setStream s n _)
  rw [stream, run]
  exact ⟨rfl, rfl, rfl, rfl⟩

end

/-- A record completes without data: its stream runs it no longer, and one completion is sent or none (R155, R156). -/
theorem State.complete_noData (s : State) (n : Nat) (seq : Word) (l : List Byte) (status value : Nat) : s.complete n seq l status value [] =
    let u := s.setStream n { s.stream n with running := (s.stream n).running.filter (fun r => r.seq != seq) }
    if field l 1 1 % 2 == 1 || status != 0 then u.sendCpl n 3 (cplRecord n seq l status value 0 0 1)
    else u.sendCpl n 0 (cplRecord n seq l status value 0 0 1) := by
  simp only [State.complete]
  refine if_congr Iff.rfl ?_ rfl
  change State.sendCpl _ n 3 (_ ++ []) = _
  rw [List.append_nil]
  rfl

/-- A record of an open stream with room for a packet completes as the claims say, and nothing but its stream, what went to the host and
timers changes. -/
theorem State.cmdDone_completed {s : State} {n : Nat} {seq : Word} {l : List Byte} {status : Nat} (value : Nat)
    (open_ : (s.stream n).open_ = true) (room : (s.stream n).unacked.length < 64) (len : 16 ≤ l.length) (numbered : n < 65536)
    (coded : status < 256) :
    let t := s.cmdDone n seq l status value []
    Completed s t n seq l status value ∧ s.CompletionOnly t ∧ (t.stream n).buffer = (s.stream n).buffer := by
  intro t
  have run : t = s.complete n seq l status value [] := if_pos open_
  rw [State.complete_noData] at run
  obtain ⟨sq, named, code, val⟩ := cplRecord_fields len n seq status value 0 0 1
  rw [Nat.mod_eq_of_lt numbered] at named
  rw [Nat.mod_eq_of_lt coded] at code
  have mine : BitVec.ofNat 32 (field (cplRecord n seq l status value 0 0 1) 8 4) = seq := by rw [sq, BitVec.ofNat_toNat, BitVec.setWidth_eq]
  generalize hu : s.setStream n { s.stream n with running := (s.stream n).running.filter (fun r => r.seq != seq) } = u at run
  have stream : u.stream n = { s.stream n with running := (s.stream n).running.filter (fun r => r.seq != seq) } :=
    hu ▸ State.stream_setStream ..
  have left : s.CompletionOnly u ∧ u.outHost = s.outHost := hu ▸ ⟨rfl, rfl⟩
  obtain ⟨only, outHost⟩ := left
  have roomLeft : (u.stream n).unacked.length < 64 := by rwa [stream]
  by_cases asked : (field l 1 1 % 2 == 1 || status != 0) = true
  · replace run := run.trans (if_pos asked)
    obtain ⟨packet, completed, buffer, rest⟩ := State.sendCpl_record roomLeft named
    rw [← run] at packet completed buffer rest
    rw [outHost] at packet
    have sent : field l 1 1 % 2 = 1 ∨ status ≠ 0 := by simpa using asked
    refine ⟨⟨completed.trans mine, fun _ => ⟨_, packet, rfl, rfl, cplRecord_tag len .., sq, code, val⟩, fun silent ok => ?_⟩,
      only.trans rest, by rw [buffer, stream]⟩
    omega
  · replace run := run.trans (if_neg asked)
    obtain ⟨packet, completed, buffer, rest⟩ := State.sendCpl_silent roomLeft (payload := cplRecord n seq l status value 0 0 1)
    rw [← run] at packet completed buffer rest
    have silent : ¬ (field l 1 1 % 2 = 1 ∨ status ≠ 0) := by simpa using asked
    exact ⟨⟨completed.trans mine, fun sent => absurd sent silent, fun _ _ => packet.trans outHost⟩, only.trans rest, by rw [buffer, stream]⟩

/-! The start of a record (R153, R155) -/

section
variable (s : State) (n : Nat) (seq : Word)

@[simp] theorem stream_taken : (taken s n seq).stream n = { s.stream n with buffer := [], started := seq } := State.stream_setStream ..
@[simp] theorem taken_mem : (taken s n seq).mem = s.mem := rfl
@[simp] theorem taken_outHost : (taken s n seq).outHost = s.outHost := rfl

theorem recStatus_taken (l : List Byte) : (taken s n seq).recStatus n l = s.recStatus n l := by
  have ctx : ((taken s n seq).stream n).ctx = (s.stream n).ctx := by rw [stream_taken]
  simp only [State.recStatus, ctx]
  rfl

theorem startNext_of_empty {s : State} {n : Nat} (empty : (s.stream n).buffer = []) (k : Nat) : s.startNext n k = s := by
  cases k with
  | zero => rfl
  | succ k => simp only [State.startNext, empty]

end

theorem recLen_ge {l : List Byte} {n : Nat} (h : recLen l = some n) : 16 ≤ n := by
  unfold recLen at h
  split at h
  all_goals simp at h
  all_goals omega

section
variable {i : Instr} {s : State} {st : BitVec 10} {seq : Word} {l : List Byte} (h : Command i s st seq l)
include h

/-- A record that passes its checks holds its first 16 bytes. -/
theorem command_length : 16 ≤ l.length := by
  have checks := h.checks
  unfold State.recStatus at checks
  simp only at checks
  split at checks
  next => contradiction
  next fits =>
    simp only [Bool.or_eq_true, bne_iff_ne, not_or, not_not] at fits
    obtain ⟨⟨len, size⟩, -⟩ := fits
    exact size ▸ recLen_ge len

/-- The record is taken and acts; the stream's buffer is then empty. -/
theorem startCmd_runs {run : State → Nat → Word → List Byte → State}
    (empty : ((run (taken s st.toNat seq) st.toNat seq l).stream st.toNat).buffer = []) :
    startCmd s st i run = .next (run (taken s st.toNat seq) st.toNat seq l) := by
  obtain ⟨buf, free, good, row, checks, -, -⟩ := h
  have passes : (s.setStream st.toNat { s.stream st.toNat with buffer := [], started := seq }).recStatus st.toNat l = none :=
    (recStatus_taken ..).trans checks
  unfold startCmd
  simp only [buf, free, good, row, passes, bne_self_eq_false, Bool.or_self, Bool.false_eq_true, if_false]
  exact congrArg Host.Outcome.next (startNext_of_empty empty 65)

end

/-- No record of a stream that holds nothing back waits as an EVENT-WAIT, a FENCE or a LAUNCH for space does (R153). -/
theorem wait_of_free {c : CmdStream} (free : holdsBack c = false) {r : Cmd} (mem : r ∈ c.running) :
    r.wait ≠ .queueSpace ∧ r.wait ≠ .fence ∧ ∀ a d k, r.wait ≠ .event a d k := by
  unfold holdsBack at free
  rw [Bool.or_eq_false_iff, List.any_eq_false] at free
  have waits := free.1 r mem
  refine ⟨fun e => ?_, fun e => ?_, fun a d k e => ?_⟩
  all_goals simp [e] at waits

theorem resumeCmd_of_free {s : State} {st : BitVec 10} (free : holdsBack (s.stream st.toNat) = false) {hit : CmdWait → Bool}
    (blocks : ∀ w, hit w = true → w = .queueSpace ∨ w = .fence ∨ ∃ a d k, w = .event a d k) : resumeCmd s st hit = none := by
  rw [resumeCmd, List.find?_eq_none]
  intro r mem hits
  obtain ⟨space, fence, event⟩ := wait_of_free free mem
  rcases blocks r.wait hits with e | e | ⟨a, d, k, e⟩
  · exact space e
  · exact fence e
  · exact event a d k e

/-- A record that waits is among those that its stream runs, and nothing but the stream changes. -/
theorem State.cmdWaits_waits (s : State) (n : Nat) (seq : Word) (l : List Byte) (w : CmdWait) :
    let t := s.cmdWaits n seq l w
    t = { s with streams := t.streams } ∧ (∃ r ∈ (t.stream n).running, r.seq = seq ∧ r.wait = w) ∧
      (t.stream n).buffer = (s.stream n).buffer := by
  intro t
  refine ⟨rfl, ?_, ?_⟩
  · simp only [t, State.cmdWaits, State.stream_setStream]
    split
    next runs =>
      obtain ⟨q, mem, same⟩ := List.any_eq_true.mp runs
      exact ⟨_, List.mem_map.mpr ⟨q, mem, if_pos same⟩, rfl, rfl⟩
    next => exact ⟨_, List.mem_append_right _ (List.mem_singleton_self _), rfl, rfl⟩
  · simp only [t, State.cmdWaits, State.stream_setStream]

section
variable {i : Instr} {s : State} {st : BitVec 10} {seq : Word} {l : List Byte} (h : Command i s st seq l)
  {run : State → Nat → Word → List Byte → State} (starts : exec i s = startCmd s st i run)
include h starts

/-- The row of a record does what the record's command does. -/
theorem command_ends {P : State → Prop} {t : State} (acts : run (taken s st.toNat seq) st.toNat seq l = t)
    (empty : (t.stream st.toNat).buffer = []) (holds : P t) : Ends i s P :=
  ⟨t, starts.trans ((startCmd_runs h (acts ▸ empty)).trans (congrArg _ acts)), holds⟩

/-- A command that completes at once, from a state whose stream and whose packets to the host are still those at its start. -/
theorem command_completes {P : State → Prop} {u : State} {status value : Nat}
    (acts : run (taken s st.toNat seq) st.toNat seq l = u.cmdDone st.toNat seq l status value [])
    (stream : u.stream st.toNat = (taken s st.toNat seq).stream st.toNat) (outHost : u.outHost = s.outHost) (coded : status < 256)
    (holds : ∀ t, Completed s t st.toNat seq l status value → u.CompletionOnly t → P t) : Ends i s P := by
  have numbered : st.toNat < 65536 := by omega
  rw [stream_taken] at stream
  obtain ⟨completed, only, buffer⟩ := State.cmdDone_completed (s := u) (n := st.toNat) (seq := seq) value (by rw [stream]; exact h.open_)
    (by rw [stream]; exact h.room) (command_length h) numbered coded
  refine command_ends h starts acts (by rw [buffer, stream]) (holds _ ?_ only)
  unfold Completed at completed ⊢
  rwa [outHost] at completed

/-- A command that waits. -/
theorem command_waits {P : State → Prop} {u : State} {w : CmdWait}
    (acts : run (taken s st.toNat seq) st.toNat seq l = u.cmdWaits st.toNat seq l w)
    (empty : (u.stream st.toNat).buffer = [])
    (holds : ∀ t, t = { u with streams := t.streams } → (∃ r ∈ (t.stream st.toNat).running, r.seq = seq ∧ r.wait = w) → P t) : Ends i s P := by
  obtain ⟨only, waits, buffer⟩ := u.cmdWaits_waits st.toNat seq l w
  exact command_ends h starts acts (buffer.trans empty) (holds _ only waits)

end

end Sys2Proof.Machine
end

