-- ==== Sys2Proof/Proofs/CommandsOfWork.lean ====
section
/-! PROOF. The commands that start work and wait for counters (R125, R153, R157, R163): each command by what its record asks for, and the
waits of EVENT-WAIT by what its counter then holds. -/

namespace Sys2Proof.Machine
open Sys2Proof.Claims

section
variable {s t : State} (only : s.CompletionOnly t)
include only

theorem State.CompletionOnly.mem : t.mem = s.mem := by rw [only]
theorem State.CompletionOnly.queues : t.queues = s.queues := by rw [only]
theorem State.CompletionOnly.gaffer : t.gaffer = s.gaffer := by rw [only]

end

/-! LAUNCH (R157) -/

section
variable {s : State} {x q : Nat} {a : DWord} (low : q < 64)
include low

theorem State.push_refused (bad : (s.hq q).ctx ≠ some x ∨ a.toNat % 256 ≠ 0) :
    ∃ c, s.push x q a none = (c, s) ∧ c ≠ 0 ∧ c ≠ 1 := by
  simp only [State.push]
  split
  · exact ⟨2, rfl, by decide, by decide⟩
  next bound =>
    have bound : (s.hq q).ctx = some x := by simpa [low] using bound
    rw [if_pos (by simpa [bound] using bad)]
    exact ⟨3, rfl, by decide, by decide⟩

variable (bound : (s.hq q).ctx = some x) (aligned : a.toNat % 256 = 0)
include bound aligned

theorem State.push_full (full : 256 ≤ (s.hq q).ptrs.length) : s.push x q a none = (1, s) := by
  simp [State.push, bound, aligned, full, low]

theorem State.push_pushes (room : (s.hq q).ptrs.length < 256) : ∃ v, s.push x q a none = (0, v) ∧
    v = { s with queues := v.queues, queue := v.queue } ∧ (v.hq q).ptrs = (s.hq q).ptrs ++ [a] ∧ ∀ j, j ≠ q → v.hq j = s.hq j := by
  refine ⟨_, by simp [State.push, bound, aligned, Nat.not_le.mpr room, Nat.not_le.mpr low]; rfl, ?_⟩
  rw [State.post_eq]
  exact ⟨rfl, congrArg Queue.ptrs (State.hq_setHq ..), fun j other => State.hq_setHq_ne _ _ _ other⟩

end

/-- LAUNCH by what its push answers (R410). -/
theorem State.runLaunch_of_push {u v : State} {n c : Nat} {seq : Word} {l : List Byte}
    (push : u.push (recCtx l) (recWord l 0x10 % 64) (BitVec.ofNat 64 (recWord l 0x18)) none = (c, v)) : u.runLaunch n seq l =
    if c == 1 then v.cmdWaits n seq l .queueSpace else v.cmdDone n seq l (if c == 0 then 0 else 3) 0 [] := by
  rw [State.runLaunch, push]

section
variable {st : BitVec 10} {seq : Word} {l : List Byte} {s : State} (h : Command (.launchCmd st) s st seq l)
include h

theorem exec_launchCmd : exec (.launchCmd st) s = startCmd s st (.launchCmd st) State.runLaunch := by
  change execLaunchCmd st s = _
  simp only [execLaunchCmd, resumeCmd_of_free h.free (hit := fun w => w == .queueSpace) (fun w hits => .inl (by simpa using hits))]

theorem launchCmd_ends : let n := st.toNat
    let x := recCtx l
    let q := recWord l 0x10 % 64
    let a : DWord := BitVec.ofNat 64 (recWord l 0x18)
    ((s.hq q).ctx = some x → a.toNat % 256 = 0 → (s.hq q).ptrs.length < 256 → Ends (.launchCmd st) s (fun t => t.mem = s.mem ∧
      Completed s t n seq l 0 0 ∧ (t.hq q).ptrs = (s.hq q).ptrs ++ [a] ∧ ∀ j, j ≠ q → t.hq j = s.hq j)) ∧
    ((s.hq q).ctx = some x → a.toNat % 256 = 0 → 256 ≤ (s.hq q).ptrs.length → Ends (.launchCmd st) s (fun t => t.mem = s.mem ∧
      t.queues = s.queues ∧ t.outHost = s.outHost ∧ ∃ r ∈ (t.stream n).running, r.seq = seq ∧ r.wait = .queueSpace)) ∧
    ((s.hq q).ctx ≠ some x ∨ a.toNat % 256 ≠ 0 → Ends (.launchCmd st) s (fun t => t.mem = s.mem ∧ t.queues = s.queues ∧
      Completed s t n seq l 3 0)) := by
  intro n x q a
  have low : q < 64 := Nat.mod_lt _ (by decide)
  refine ⟨fun bound aligned room => ?_, fun bound aligned full => ?_, fun bad => ?_⟩
  · obtain ⟨v, push, rest, tail, others⟩ := State.push_pushes (s := taken s n seq) low bound aligned room
    have hq {t : State} (only : v.CompletionOnly t) (j : Nat) : t.hq j = v.hq j := by rw [State.hq, only.queues]; rfl
    exact command_completes (status := 0) h (exec_launchCmd h) (State.runLaunch_of_push push) (by rw [rest]; rfl) (by rw [rest]; rfl)
      (by decide) (fun t completed only => ⟨only.mem.trans (by rw [rest]; rfl), completed, by rw [hq only, tail]; rfl,
        fun j other => by rw [hq only, others j other]; rfl⟩)
  · have acts := State.runLaunch_of_push (n := n) (seq := seq) (State.push_full (s := taken s n seq) low bound aligned full)
    refine command_waits h (exec_launchCmd h) acts (by rw [stream_taken]) (fun t only waits => ?_)
    rw [only] at waits ⊢
    exact ⟨rfl, rfl, rfl, waits⟩
  · obtain ⟨c, push, done, space⟩ := State.push_refused (s := taken s n seq) low bad
    have acts := State.runLaunch_of_push (n := n) (seq := seq) push
    rw [if_neg (by simpa using space), if_neg (by simpa using done)] at acts
    exact command_completes h (exec_launchCmd h) acts rfl rfl (by decide) (fun t completed only => ⟨only.mem, only.queues, completed⟩)

end

/-! EVENT-WRITE and EVENT-WAIT (R157) -/

section
variable {st : BitVec 10} {seq : Word} {l : List Byte} {s : State}

theorem State.runEventWrite_writes {u v : State} {n : Nat} {ks : List Nat} (aligned : recWord l 0x10 % 8 = 0)
    (found : u.resolve none 0 (recCtx l) 2 (recWord l 0x10) 8 needRW = (.ok ks, v)) : u.runEventWrite n seq l =
    (v.store (ks.zip (leBytes 8 (if recWord l 0x20 = 0 then recWord l 0x18 else leNat (v.peek ks) + recWord l 0x18)))).cmdDone n seq l 0
      (leNat (v.peek ks)) [] := by
  simp only [State.runEventWrite, aligned, State.devUpdate_ok _ found, beq_iff_eq]
  rfl

theorem eventWrite_ends (h : Command (.eventWrite st) s st seq l) : let n := st.toNat
    let w := recWord l
    (w 0x10 % 8 ≠ 0 → Ends (.eventWrite st) s (fun t => t.mem = s.mem ∧ Completed s t n seq l 3 0)) ∧
    (w 0x10 % 8 = 0 → ∀ ks s1, (taken s n seq).resolve none 0 (recCtx l) 2 (w 0x10) 8 needRW = (.ok ks, s1) →
      let old := leNat (ks.map (Memory.read s.mem))
      Ends (.eventWrite st) s (fun t => Completed s t n seq l 0 old ∧
        t.mem = Memory.writes s.mem (ks.zip (leBytes 8 (if w 0x20 = 0 then w 0x18 else old + w 0x18))))) := by
  intro n w
  have starts : exec (.eventWrite st) s = startCmd s st (.eventWrite st) State.runEventWrite := rfl
  refine ⟨fun bad => ?_, fun aligned ks s1 found => ?_⟩
  · exact command_completes h starts (if_pos (bne_iff_ne.mpr bad)) rfl rfl (by decide) (fun t completed only => ⟨only.mem, completed⟩)
  · have learned : (taken s n seq).TlbOnly s1 := .resolve found
    have peek : s1.peek ks = ks.map (Memory.read s.mem) := learned.peek ks
    refine command_completes h starts (State.runEventWrite_writes aligned found) ((State.stream_store ..).trans (learned.stream n))
      ((State.outHost_store ..).trans learned.outHost) (by decide) (fun t completed only => ⟨peek ▸ completed, ?_⟩)
    rw [only.mem, State.store_mem, learned.mem, peek]
    rfl

end

/-- EVENT-WAIT's counter has its value. -/
theorem State.pollEvent_reached {u v : State} {n k : Nat} {seq : Word} {l : List Byte} {due : Option Nat} {ks : List Nat}
    (found : u.resolve none 0 (recCtx l) 2 (recWord l 0x10) 8 needRD = (.ok ks, v)) (reached : recWord l 0x18 ≤ leNat (v.peek ks)) :
    u.pollEvent n seq l due k = v.cmdDone n seq l 0 (leNat (v.peek ks)) [] := by
  simp only [State.pollEvent, found]
  exact if_pos reached

/-- EVENT-WAIT's time is over, and its counter falls short. -/
theorem State.pollEvent_late {u v : State} {n k d : Nat} {seq : Word} {l : List Byte} {ks : List Nat}
    (found : u.resolve none 0 (recCtx l) 2 (recWord l 0x10) 8 needRD = (.ok ks, v)) (short : leNat (v.peek ks) < recWord l 0x18)
    (late : d ≤ v.now) : u.pollEvent n seq l (some d) k = v.cmdDone n seq l 5 (leNat (v.peek ks)) [] := by
  simp only [State.pollEvent, found]
  exact (if_neg (Nat.not_le.mpr short)).trans (if_pos (by simpa using late))

section
variable {st : BitVec 10} {seq : Word} {l : List Byte} {s : State}

theorem exec_eventWait (h : Command (.eventWait st) s st seq l) : exec (.eventWait st) s = startCmd s st (.eventWait st) State.runEventWait := by
  change execEventWait st s = _
  have none : s.pollStream st (fun _ _ => true) = none := by
    rw [State.pollStream, resumeCmd_of_free h.free]
    intro w hits
    split at hits
    next a d k => exact .inr (.inr ⟨a, d, k, rfl⟩)
    next => contradiction
  simp only [execEventWait, none]

/-- EVENT-WAIT at its start reads its counter, with its time running if it has one. -/
theorem State.runEventWait_polls (u : State) (aligned : recWord l 0x10 % 8 = 0) : ∃ due k, u.runEventWait st.toNat seq l =
    (if recWord l 0x20 = 0 then u else u.after (1000 * recWord l 0x20) (.eventWaitTimeout st)).pollEvent st.toNat seq l due k := by
  simp only [State.runEventWait, aligned, beq_iff_eq, BitVec.ofNat_toNat, BitVec.setWidth_eq]
  by_cases endless : recWord l 0x20 = 0
  · exact ⟨none, 0, by simp [endless]⟩
  · exact ⟨some (u.now + 1000 * recWord l 0x20), 0, by simp [endless]⟩

theorem eventWait_ends (h : Command (.eventWait st) s st seq l) : let n := st.toNat
    let w := recWord l
    let s0 := taken s n seq
    (w 0x10 % 8 ≠ 0 → Ends (.eventWait st) s (fun t => t.mem = s.mem ∧ Completed s t n seq l 3 0)) ∧
    (w 0x10 % 8 = 0 → ∀ ks s1, (if w 0x20 = 0 then s0 else s0.after (1000 * w 0x20) (.eventWaitTimeout st)).resolve none 0 (recCtx l) 2
        (w 0x10) 8 needRD = (.ok ks, s1) → w 0x18 ≤ leNat (ks.map (Memory.read s.mem)) → Ends (.eventWait st) s (fun t => t.mem = s.mem ∧
      Completed s t n seq l 0 (leNat (ks.map (Memory.read s.mem))))) := by
  intro n w s0
  refine ⟨fun bad => ?_, fun aligned ks s1 found reached => ?_⟩
  · exact command_completes h (exec_eventWait h) (if_pos (bne_iff_ne.mpr bad)) rfl rfl (by decide)
      (fun t completed only => ⟨only.mem, completed⟩)
  · have start : (if w 0x20 = 0 then s0 else s0.after (1000 * w 0x20) (.eventWaitTimeout st)).mem = s.mem ∧
        (if w 0x20 = 0 then s0 else s0.after (1000 * w 0x20) (.eventWaitTimeout st)).outHost = s.outHost ∧
        (if w 0x20 = 0 then s0 else s0.after (1000 * w 0x20) (.eventWaitTimeout st)).stream n = s0.stream n := by
      split
      · exact ⟨rfl, rfl, rfl⟩
      · exact ⟨rfl, rfl, rfl⟩
    obtain ⟨mem, outHost, stream⟩ := start
    have learned := State.TlbOnly.resolve found
    have peek : s1.peek ks = ks.map (Memory.read s.mem) := (learned.peek ks).trans (by rw [mem])
    obtain ⟨due, k, polls⟩ := s0.runEventWait_polls (st := st) (seq := seq) aligned
    refine command_completes h (exec_eventWait h) (polls.trans (State.pollEvent_reached found (peek ▸ reached)))
      ((learned.stream n).trans stream) (learned.outHost.trans outHost) (by decide) (fun t completed only => ⟨?_, peek ▸ completed⟩)
    rw [only.mem, learned.mem, mem]

end

/-- An EVENT-WAIT that its stream runs alone ends as its counter and its time ask (R157). -/
theorem waitingEvent_ends {st : BitVec 10} {s : State} (r : Cmd) (line due : Option Nat) (k : Nat) (ks : List Nat) (s1 : State) :
    let n := st.toNat
    (s.stream n).running = [r] → r.wait = .event line due k → (s.stream n).open_ = true → (s.stream n).buffer = [] →
    (s.stream n).unacked.length < 64 → 16 ≤ r.data.length → s.resolve none 0 (recCtx r.data) 2 (recWord r.data 0x10) 8 needRD = (.ok ks, s1) →
    let v := leNat (ks.map (Memory.read s.mem))
    let ends (i : Instr) (status : Nat) : Prop := Ends i s (fun t => t.mem = s.mem ∧ Completed s t n r.seq r.data status v)
    (recWord r.data 0x18 ≤ v → line = none → ends (.counterWaitBackoff (.stream st)) 0) ∧
    (∀ d, due = some d → d ≤ s.now → v < recWord r.data 0x18 → ends (.eventWaitTimeout st) 5) := by
  intro n alone waits open_ empty room len found v ends
  have learned := State.TlbOnly.resolve found
  have peek : s1.peek ks = ks.map (Memory.read s.mem) := learned.peek ks
  have completes {i : Instr} {status : Nat} (coded : status < 256)
      (acts : exec i s = .next ((s1.cmdDone n r.seq r.data status v []).startNext n 65)) : ends i status := by
    obtain ⟨completed, only, buffer⟩ := State.cmdDone_completed (s := s1) (n := n) (seq := r.seq) (l := r.data) v
      (by rw [learned.stream]; exact open_) (by rw [learned.stream]; exact room) len (by omega) coded
    rw [startNext_of_empty (buffer.trans (by rw [learned.stream]; exact empty))] at acts
    refine ⟨_, acts, only.mem.trans learned.mem, ?_⟩
    unfold Completed at completed ⊢
    rwa [learned.outHost] at completed
  have finds (hit : Option Nat → Option Nat → Bool) (hits : hit line due = true) : s.pollStream st hit =
      some ((s.pollEvent n r.seq r.data due (if line.isSome then 0 else k)).startNext n 65) := by
    simp only [State.pollStream, resumeCmd, alone, List.find?_cons, waits, hits, n]
  refine ⟨fun reached idle => completes (by decide) ?_, fun d late passed short => completes (by decide) ?_⟩
  · change execCounterWaitBackoff (.stream st) s = _
    refine (congrArg (fun o : Option State => Host.Outcome.next (o.getD s)) (finds _ (by rw [idle]; rfl))).trans ?_
    rw [State.pollEvent_reached found (peek ▸ reached), peek]
    rfl
  · change execEventWaitTimeout st s = _
    subst late
    refine (congrArg (fun o : Option State => Host.Outcome.next (o.getD s)) (finds _ (by simpa using passed))).trans ?_
    rw [State.pollEvent_late found (peek ▸ short) (learned.now ▸ passed), peek]
    rfl

/-- A WAIT.ev step whose back-off is over reads its counter again (R201). -/
theorem slotBackoff_ends {s : State} (u : Slot) (past : (s.cx (slotIx u)).backUntil ≤ s.now) :
    Ends (.counterWaitBackoff (.slot u)) s (fun t => t = s.setCx (slotIx u) { s.cx (slotIx u) with backUntil := 0 }) :=
  ⟨_, rfl, if_pos past⟩

/-! SCRIPT-START (R86, R157) -/

theorem tget_foldl_tset (args : List DWord) (n k : Nat) :
    tget 0 ((List.range n).foldl (fun r i => tset r (i + 1) (args.getD i 0)) []) k = if 1 ≤ k ∧ k ≤ n then args.getD (k - 1) 0 else 0 := by
  induction n with
  | zero =>
    rw [if_neg (by omega)]
    rfl
  | succ n ih =>
    rw [List.range_succ, List.foldl_append, List.foldl_cons, List.foldl_nil, tget_tset, ih]
    by_cases last : k = n + 1
    · rw [if_pos last, if_pos (by omega), last, Nat.add_sub_cancel]
    · rw [if_neg last]
      exact if_congr (by omega) rfl rfl

/-- The registers of a thread that starts with four arguments. -/
theorem State.startThread_starts (s : State) (j start : Nat) (x : Option Nat) (f : Nat → Nat) (cmd : Nat × Word) :
    let t := s.startThread j start x ([0x20, 0x28, 0x30, 0x38].map (fun o => BitVec.ofNat 64 (f o))) cmd
    t = { s with gaffer := t.gaffer } ∧ (t.gth j).st = 1 ∧ (t.gth j).pc = BitVec.ofNat 64 start ∧ (t.gth j).ctx = x ∧ (t.gth j).cmd = some cmd ∧
      (∀ k, k < 4 → (t.gth j).rd (k + 1) = BitVec.ofNat 64 (f (0x20 + 8 * k))) ∧ (∀ k, 5 ≤ k → (t.gth j).rd k = 0) ∧
      ∀ k, k ≠ j → t.gth k = s.gth k := by
  intro t
  have thread : t.gth j = _ := State.gth_setGth ..
  have rd (k : Nat) (some : k ≠ 0) : (t.gth j).rd k =
      if 1 ≤ k ∧ k ≤ 4 then ([0x20, 0x28, 0x30, 0x38].map (fun o => BitVec.ofNat 64 (f o))).getD (k - 1) 0 else 0 := by
    rw [thread, GThread.rd, if_neg (by simpa using some)]
    exact tget_foldl_tset ..
  refine ⟨rfl, congrArg GThread.st thread, congrArg GThread.pc thread, congrArg GThread.ctx thread, congrArg GThread.cmd thread,
    fun k low => ?_, fun k high => ?_, fun k other => State.gth_setGth_ne _ _ _ other⟩
  · rw [rd _ (by omega), if_pos (by omega)]
    rcases k with _ | _ | _ | _ | k
    · rfl
    · rfl
    · rfl
    · rfl
    · omega
  · rw [rd _ (by omega), if_neg (by omega)]

section
variable {st : BitVec 10} {seq : Word} {l : List Byte} {s : State}

theorem scriptStart_ends (h : Command (.scriptStart st) s st seq l) (thread : recWord l 0x18 < 4 ∨ recWord l 0x18 = 15)
    (steady : s.switching 3 = false) : let n := st.toNat
    let w := recWord l
    (s.freeThread (w 0x18) (w 0x10) = none → Ends (.scriptStart st) s (fun t => t.mem = s.mem ∧ t.gaffer = s.gaffer ∧
      Completed s t n seq l 4 0)) ∧
    (∀ j, s.freeThread (w 0x18) (w 0x10) = some j → Ends (.scriptStart st) s (fun t => t.mem = s.mem ∧ t.outHost = s.outHost ∧
      (t.gth j).st = 1 ∧ (t.gth j).pc = BitVec.ofNat 64 (w 0x10) ∧ (t.gth j).ctx = (if recCtx l = 0xFFFF then none else some (recCtx l)) ∧
      (t.gth j).cmd = some (n, seq) ∧ (∀ k, k < 4 → (t.gth j).rd (k + 1) = BitVec.ofNat 64 (w (0x20 + 8 * k))) ∧
      (∀ k, 5 ≤ k → (t.gth j).rd k = 0) ∧ ∀ k, k ≠ j → t.gth k = s.gth k)) := by
  intro n w
  have starts : exec (.scriptStart st) s = startCmd s st (.scriptStart st) State.runScript := rfl
  have acts : (taken s n seq).runScript n seq l = match s.freeThread (w 0x18) (w 0x10) with
      | none => (taken s n seq).cmdDone n seq l 4 0 []
      | some t => ((taken s n seq).startThread t (w 0x10) (if recCtx l == 0xFFFF then none else some (recCtx l))
          ([0x20, 0x28, 0x30, 0x38].map (fun o => BitVec.ofNat 64 (w o))) (n, seq)).cmdWaits n seq l (.script t) :=
    (if_neg (by simp; omega)).trans (if_neg (by rw [show (taken s n seq).switching 3 = s.switching 3 from rfl, steady]; decide))
  refine ⟨fun none => ?_, fun j free => ?_⟩
  · simp only [none] at acts
    exact command_completes h starts acts rfl rfl (by decide) (fun t completed only => ⟨only.mem, only.gaffer, completed⟩)
  · simp only [free, beq_iff_eq] at acts
    obtain ⟨rest, started⟩ := (taken s n seq).startThread_starts j (w 0x10) (if recCtx l = 0xFFFF then none else some (recCtx l)) w (n, seq)
    refine command_waits h starts acts (by rw [rest]; exact congrArg CmdStream.buffer (stream_taken ..)) (fun t only _ => ?_)
    rw [only]
    exact ⟨rfl, rfl, started⟩

/-! COLL-START (R125, R157) -/

/-- A descriptor and tables that pass their checks put a free slot into LOADING. -/
theorem State.collStart_loads {u s1 s2 : State} {n x addr : Nat} {dl a b c : List Byte} (aligned : addr % 128 = 0)
    (read : u.devRead 0 x addr 128 = (.ok dl, s1)) (sound : descOk dl = true) : let d := readDesc (BitVec.ofNat 64 addr) dl
    let i := d.cru * 16 + d.slot
    s1.switching (4 + d.cru) = false → s1.readTables x i d = (.ok a b c, s2) → (s2.cx i).st = 0 →
    u.collStart (.cmd n seq) x n addr = (s2.fresh.2.setCx i {
      st := 1, since := s2.now, gen := s2.nextId, ctx := some x, desc := some d, rmap := readRmap d.n a, bufs := readBtab d.nbuf b
      skip := (List.range 32).map (fun w => (w, BitVec.ofNat 32 (field c (4 * w) 4)))
      byCmd := some (n, seq), core := n }).post (.instanceLoaded (slotAt i)) := by
  intro d i steady tables free
  unfold State.collStart
  simp only [aligned, read, sound]
  refine (if_neg (by decide)).trans ((if_neg (by decide)).trans ((if_neg (Bool.eq_false_iff.mp steady)).trans ?_))
  simp only [d, i] at tables free
  simp only [tables, free]
  exact if_neg (by decide)

theorem collStart_ends (h : Command (.collStart st) s st seq l) (aligned : recWord l 0x10 % 128 = 0) {dl a b c : List Byte} {s1 s2 : State} :
    let n := st.toNat
    let x := recCtx l
    let w := recWord l
    let s' := (taken s n seq).cmdWaits n seq l .coll
    let d := readDesc (BitVec.ofNat 64 (w 0x10)) dl
    let i := d.cru * 16 + d.slot
    s'.devRead 0 x (w 0x10) 128 = (.ok dl, s1) → descOk dl = true → s.switching (4 + d.cru) = false →
    s1.readTables x i d = (.ok a b c, s2) → (s.cx i).st = 0 → Ends (.collStart st) s (fun t => t.mem = s.mem ∧ t.outHost = s.outHost ∧
      (t.cx i).st = 1 ∧ (t.cx i).ctx = some x ∧ (t.cx i).desc = some d ∧ (t.cx i).byCmd = some (n, seq) ∧
      Instr.instanceLoaded (slotAt i) ∈ t.queue ∧ ∀ j, j ≠ i → t.cx j = s.cx j) := by
  intro n x w s' d i read sound steady tables free
  obtain ⟨rest, -, buffer⟩ := (taken s n seq).cmdWaits_waits n seq l .coll
  have learned : s'.TlbOnly s2 := (State.TlbOnly.devRead read).trans (.readTables tables)
  have cx (j : Nat) : s2.cx j = s.cx j := learned.cx j
  have acts := State.collStart_loads (n := n) (seq := seq) aligned read sound
    ((congrArg (fun m : Mgmt => m.pendingSwitch.any _) (State.TlbOnly.devRead read).mgmt).trans steady) tables (cx i ▸ free)
  refine command_ends h (run := State.runColl) rfl acts ?_ ?_
  · rw [State.stream_post]
    change (s2.stream n).buffer = []
    rw [learned.stream, buffer, stream_taken]
  · rw [State.post_mem, State.outHost_post, State.cx_post, State.cx_setCx]
    refine ⟨learned.mem, learned.outHost, rfl, rfl, rfl, rfl, State.mem_queue_post .., fun j other => ?_⟩
    rw [State.cx_post, State.cx_setCx_ne _ _ _ other]
    exact cx j

/-! FENCE (R163) -/

theorem fence_ends (h : Command (.fenceCmd st) s st seq l) : let n := st.toNat
    ((s.stream n).running = [] → (s.stream n).held = [] → Ends (.fenceCmd st) s (fun t => t.mem = s.mem ∧ Completed s t n seq l 0 0)) ∧
    ((∃ r ∈ (s.stream n).running, r.seq ≠ seq) → Ends (.fenceCmd st) s (fun t => t.mem = s.mem ∧ t.outHost = s.outHost ∧
      ∃ r ∈ (t.stream n).running, r.seq = seq ∧ r.wait = .fence)) := by
  intro n
  have starts : exec (.fenceCmd st) s = startCmd s st (.fenceCmd st) State.runFence := by
    change execFenceCmd st s = _
    simp only [execFenceCmd, resumeCmd_of_free h.free (hit := fun w => w == .fence) (fun w hits => .inr (.inl (by simpa using hits)))]
  have running : ((taken s n seq).stream n).running = (s.stream n).running := by rw [stream_taken]
  have held : ((taken s n seq).stream n).held = (s.stream n).held := by rw [stream_taken]
  refine ⟨fun idle sent => ?_, fun earlier => ?_⟩
  · refine command_completes h starts (if_pos (by rw [running, held, idle, sent]; rfl)) rfl rfl (by decide)
      (fun t completed only => ⟨only.mem, completed⟩)
  · refine command_waits h starts (if_neg ?_) (by rw [stream_taken]) (fun t only waits => ?_)
    · obtain ⟨r, mem, other⟩ := earlier
      rw [running, Bool.and_eq_true, List.all_eq_true]
      exact fun all => other (by simpa using all.1 r mem)
    · rw [only] at waits ⊢
      exact ⟨rfl, rfl, waits⟩

end

/-- Settles O41: each command by what its record asks for, and the waits of EVENT-WAIT by what its counter holds. -/
theorem commandsOfWork : Obligations.CommandsOfWork := by
  intro st seq l s n s0 x w
  exact ⟨launchCmd_ends, eventWrite_ends, eventWait_ends, waitingEvent_ends, fun u => slotBackoff_ends u, scriptStart_ends,
    fun h aligned dl s1 a b c s2 => collStart_ends h aligned, fence_ends⟩

end Sys2Proof.Machine
end

