-- ==== Sys2Proof/Proofs/CrucibleEnds.lean ====
section
/-! PROOF. How instances of collective programs end (R142): where its STATUS word is written, its slot is free again. -/

namespace Sys2Proof.Machine

/-! What retires a start leaves every slot alone (R125, R142) -/

theorem State.sendCpl_cru (s : State) (st typ : Nat) (payload : List Byte) : (s.sendCpl st typ payload).cru = s.cru := by
  simp only [State.sendCpl]
  split
  · rfl
  split
  · rfl
  · rfl

theorem State.complete_cru (s : State) (n : Nat) (seq : Word) (l : List Byte) (status value : Nat) :
    (s.complete n seq l status value []).cru = s.cru := by
  rw [State.complete_noData]
  simp only
  split
  · exact State.sendCpl_cru ..
  · exact State.sendCpl_cru ..

theorem State.cru_updAsync_post (s : State) (id : Nat) (f : AsyncOp → AsyncOp) (j : Instr) : ((s.updAsync id f).post j).cru = s.cru := by
  rw [State.post_eq]
  rfl

theorem State.cx_retireStart (s : State) (byOp : Option Nat) (byCmd : Option (Nat × Word)) (code status i : Nat) :
    (s.retireStart byOp byCmd code status).cx i = s.cx i := by
  suffices (s.retireStart byOp byCmd code status).cru = s.cru by rw [State.cx, State.cx, this]
  have completes {t : State} (same : t.cru = s.cru) : (t.retireStart none byCmd code status).cru = s.cru := by
    simp only [State.retireStart]
    split
    · split
      · exact (State.complete_cru ..).trans same
      · exact same
    · exact same
  cases byOp with
  | none => exact completes rfl
  | some id =>
    cases op : s.asyncs.find? (fun o => o.id == id) with
    | none =>
      refine Eq.trans (congrArg State.cru ?_) (completes rfl)
      simp only [State.retireStart, op]
    | some o =>
      refine Eq.trans (congrArg State.cru ?_) (completes (State.cru_updAsync_post s id (fun o => { o with stage := 3 }) (.asyncRetire o.w 4)))
      simp only [State.retireStart, op]

/-! The end sequence (R142) -/

theorem State.cx_retireInstance (s : State) (i status : Nat) (quiet : Bool) : (s.retireInstance i status quiet).cx i = {} :=
  (State.cx_retireStart ..).trans (State.cx_setCx ..)

theorem State.cx_endPart4 (s : State) (i cause : Nat) (quiet : Bool) : (s.endPart4 i cause quiet).cx i = {} := State.cx_retireInstance ..

/-- A slot that ends with a cause makes no addition to DONEEV. -/
theorem State.cx_endPart3 (s : State) (i : Nat) {cause : Nat} (fails : cause ≠ 0) (quiet : Bool) : (s.endPart3 i cause quiet).cx i = {} := by
  simp only [State.endPart3]
  split
  · rw [if_pos (by simp [fails])]
    exact State.cx_endPart4 ..
  · exact State.cx_endPart4 ..

/-- Past LOADING, where the STATUS word can be written, the slot is free at the end. -/
theorem State.cx_endInstance {s s1 : State} {i c cause : Nat} {d : CollDesc} {ks : List Nat} (ctx : (s.cx i).ctx = some c)
    (desc : (s.cx i).desc = some d) (past : (s.cx i).st ≠ 1) (fails : cause ≠ 0)
    (found : (s.setCx i { s.cx i with
        st := 5, outs := [], ins := [], outst := [], ending := some (cause, 2), fault := none, watch := none, resuming := none }).resolve
      none (i / 16 * 4) c 2 d.status.toNat 8 needW = (.ok ks, s1)) : (s.endInstance i cause false).cx i = {} := by
  have start : startCause (s.cx i) = false := by simpa [startCause] using past
  simp only [ctx, desc] at found
  simp only [State.endInstance, start, ctx, desc, Bool.false_eq_true, if_false, State.devWrite_ok (length_leBytes ..) found]
  exact State.cx_endPart3 _ i fails false

end Sys2Proof.Machine
end

