-- ==== Sys2Proof/Proofs/CrucibleInstances.lean ====
section
/-! PROOF. Instances of collective programs (R122 to R142): each event of a slot by the conditions under which it comes about. -/

namespace Sys2Proof.Machine
open Sys2Proof.Claims

theorem slot_eq (i : Nat) : i / 16 * 16 + i % 16 = i := by omega

section
variable {u : Slot} {s : State} {x : Crux} {c : Nat} {d : CollDesc} (slot : s.cx (slotIx u) = x) (ctx : x.ctx = some c)
  (desc : x.desc = some d)

/-! Loading (R125, R126) -/

/-- Bytes of the landing pool that the other slots of the crucible of slot `i` hold (R122). -/
def State.ringsBeside (s : State) (i : Nat) : Nat :=
  (((List.range 16).filter (fun k => k != i % 16)).map (fun k =>
    if 2 ≤ (s.cx (i / 16 * 16 + k)).st.toNat ∧ (s.cx (i / 16 * 16 + k)).st.toNat ≤ 4 then (s.cx (i / 16 * 16 + k)).ringBytes
    else 0)).foldl (· + ·) 0

theorem State.ringsBeside_eq (s : State) (i : Nat) : sumNat (((List.range 16).filter (fun k => k != i % 16)).map (fun k =>
    let y := s.cx (i / 16 * 16 + k)
    if 2 ≤ y.st.toNat && y.st.toNat ≤ 4 then y.ringBytes else 0)) = s.ringsBeside i := by
  simp only [sumNat, State.ringsBeside, Bool.and_eq_true, decide_eq_true_iff]

include slot ctx desc in
theorem instanceLoaded_ends (loading : x.st = 1) (ending : x.ending = none) (sound : x.fault = none) {l : List Byte} {s1 : State}
    {p : List Instr} (read : s.devRead (slotIx u / 16 * 4) c d.prog.toNat (8 * d.nsteps) = (.ok l, s1)) (good : loadSteps d l = .ok p)
    (links : s1.linksOk x d = true) (fits : s.ringsBeside (slotIx u) + x.ringBytes ≤ 0x2000000) :
    Ends (.instanceLoaded u) s (fun t => t.mem = s.mem ∧ t.cx (slotIx u) = { x with st := 2, step := 0, prog := p } ∧
      ∀ j, j ≠ slotIx u / 16 * 16 + slotIx u % 16 → t.cx j = s.cx j) := by
  have learned := State.TlbOnly.devRead read
  refine ⟨s1.setCx (slotIx u) { x with st := 2, step := 0, prog := p }, ?_, learned.mem, State.cx_setCx .., fun j other => ?_⟩
  · change execInstanceLoaded u s = _
    have idle : (x.st != 1 || x.ending.isSome || x.fault.isSome) = false := by simp [loading, ending, sound]
    simp only [execInstanceLoaded, slot, idle, ctx, desc, read, good, links, learned.cx, Bool.not_true, Bool.false_eq_true,
      if_false]
    rw [State.ringsBeside_eq]
    exact if_neg (by omega)
  · rw [slot_eq] at other
    rw [State.cx_setCx_ne _ _ _ other, learned.cx]

/-! Data steps that are over (R134) -/

/-- Whether a step counts its destination's barrier object down when it is over. -/
def DataStep.counts (t : DataStep) : Bool :=
  match t.op with
  | .rrs _ | .send _ => false
  | .bcast _ => t.writes
  | _ => true

theorem DataStep.counts_iff (t : DataStep) : t.counts = true ↔
    (∀ f, t.op ≠ .rrs f) ∧ (∀ f, t.op ≠ .send f) ∧ (∀ f, t.op = .bcast f → t.writes = true) := by
  unfold DataStep.counts
  split
  next f e => simp [e]
  next f e => simp [e]
  next f e => simp [e]
  next rrs send bcast => simp only [true_iff]; exact ⟨fun f e => rrs f e, fun f e => send f e, fun f e => (bcast f e).elim⟩

/-- A slot without its outstanding step of number `n`. -/
def State.dropStep (s : State) (i n : Nat) : State :=
  s.setCx i { s.cx i with outst := (s.cx i).outst.filter (fun v => v.id != n) }

section
variable {n : Nat} {st : DataStep} (found : x.outst.find? (fun v => v.id == n) = some st) (finished : x.stepDone s.now st = true)
include slot ctx found finished

theorem dataStepComplete_drops (quiet : ∀ b, x.bufs[st.dst]? = some b → st.counts = false ∨ b.bobj = 0) :
    Ends (.dataStepComplete u n) s (fun t => t = s.setCx (slotIx u) { x with outst := x.outst.filter (fun v => v.id != n) }) := by
  refine ⟨_, ?_, rfl⟩
  change execDataStepComplete u n s = _
  simp only [execDataStepComplete, slot, ctx, found, finished, Bool.not_true, Bool.false_eq_true, if_false]
  cases buf : x.bufs[st.dst]? with
  | none => rfl
  | some b => exact if_pos (show (!st.counts || b.bobj == 0) = true by simpa using quiet b buf)

theorem dataStepComplete_counts {b : CollBuf} {ks : List Nat} {s1 : State} (buf : x.bufs[st.dst]? = some b) (counts : st.counts = true)
    (object : b.bobj ≠ 0) (kind : b.kind = 1)
    (place : s.resolve none (slotIx u / 16 * 4) c 2 b.bobj.toNat 16 needRW = (.ok ks, s1)) : Ends (.dataStepComplete u n) s (fun t =>
      (t.cx (slotIx u)).outst = x.outst.filter (fun v => v.id != n) ∧
      t.mem = Memory.writes s.mem (ks.zip (countDown (ks.map (Memory.read s.mem)) st.bytes))) := by
  have learned := State.TlbOnly.resolve place
  have target : s.bufTarget (slotIx u) c b b.bobj.toNat 16 needRW = (.ok (.keys ks), s1) := by
    simp only [State.bufTarget, kind, place]
  obtain ⟨w, k, stored⟩ := State.cx_store s1 (ks.zip (countDown (s1.peek ks) st.bytes)) (slotIx u)
  rw [learned.cx, learned.peek, slot] at stored
  refine ⟨(s1.tcount (.keys ks) st.bytes).dropStep (slotIx u) n, ?_, ?_⟩
  · change execDataStepComplete u n s = _
    simp only [execDataStepComplete, slot, ctx, found, finished, buf, target, Bool.not_true, Bool.false_eq_true, if_false]
    exact if_neg (show ¬ (!st.counts || b.bobj == 0) = true by simpa [counts] using object)
  · simp only [State.dropStep, State.cx_setCx, State.setCx_mem, State.tcount, State.twrite, State.tread, stored, State.store_mem, learned.mem,
      learned.peek, and_self]

end

/-! Pause and resume (R139, R140) -/

include slot in
theorem crctlPause_ends (runs : x.st = 2) : Ends (.crctlPause u) s (fun t => t.cx (slotIx u) = { x with st := 3 } ∧
    t = { s with cru := t.cru, queue := t.queue } ∧ Instr.instancePaused (slotAt (slotIx u)) ∈ t.queue) := by
  refine ⟨(s.setCx (slotIx u) { x with st := 3 }).post (.instancePaused (slotAt (slotIx u))), ?_, ?_, ?_, State.mem_queue_post ..⟩
  · change Host.Outcome.next (s.cruPause (slotIx u)) = _
    rw [State.cruPause, slot]
    exact congrArg Host.Outcome.next (if_pos (by simp [runs]))
  · rw [State.cx_post, State.cx_setCx]
  · rw [State.post_eq]
    rfl

include slot in
theorem instancePaused_ends (pausing : x.st = 3) : Ends (.instancePaused u) s (fun t =>
    t = s.setCx (slotIx u) { x with st := 4, skipWas := x.skip }) := by
  refine ⟨_, ?_, rfl⟩
  change execInstancePaused u s = _
  simp only [execInstancePaused, slot, pausing]
  rfl

section
variable (paused : x.st = 4) (settled : x.resuming = none) {l : List Byte} {s1 : State} (ranks : s.readRanks c (slotIx u) d = (.ok l, s1))
  (good : rmapOk d.n d.rank l = true)
include slot ctx desc paused settled ranks good

/-- A resume whose skip mask has not grown goes on as it was, with the new rank map. -/
theorem crctlResume_same (same : ∀ w, w < 32 → tget 0 x.skip w &&& ~~~tget 0 x.skipWas w = 0) : Ends (.crctlResume u) s (fun t =>
    t.mem = s.mem ∧ t.cx (slotIx u) = { x with st := 2, rmap := readRmap d.n l }) := by
  have held : (x.st != 4 || x.resuming.isSome) = false := by simp [paused, settled]
  have kept : ((List.range 32).any (fun w => tget 0 x.skip w &&& ~~~tget 0 x.skipWas w != 0)) = false := by simpa using same
  refine ⟨s1.setCx (slotIx u) { x with st := 2, rmap := readRmap d.n l }, ?_, (State.TlbOnly.readRanks ranks).mem, State.cx_setCx ..⟩
  change Host.Outcome.next (s.cruResume (slotIx u)) = _
  simp only [State.cruResume, slot, ctx, desc, held, ranks, good, kept]
  rfl

/-- A resume whose skip mask has grown gives up the steps under way and restarts the streams. -/
theorem crctlResume_grown (grown : ∃ w, w < 32 ∧ tget 0 x.skip w &&& ~~~tget 0 x.skipWas w ≠ 0) :
    let y : Crux := { x with st := 2, rmap := readRmap d.n l, degraded := true, outst := [], outs := [], ins := [], gen := s1.nextId }
    (x.loops = [] → Ends (.crctlResume u) s (fun t => t.mem = s.mem ∧ t.cx (slotIx u) = y)) ∧
    (∀ k a b m, x.loops = (k, a, b) :: m → Ends (.crctlResume u) s (fun t => t.mem = s.mem ∧
      t.cx (slotIx u) = { y with step := afterEndl x.prog k - 1, fault := none, watch := none, refusals := 0, backUntil := 0 })) := by
  have held : (x.st != 4 || x.resuming.isSome) = false := by simp [paused, settled]
  have gained : ((List.range 32).any (fun w => tget 0 x.skip w &&& ~~~tget 0 x.skipWas w != 0)) = true := by simpa using grown
  have mem := (State.TlbOnly.readRanks ranks).mem
  intro y
  constructor
  · intro outside
    refine ⟨s1.fresh.2.setCx (slotIx u) y, ?_, mem, State.cx_setCx ..⟩
    change Host.Outcome.next (s.cruResume (slotIx u)) = _
    simp only [State.cruResume, slot, ctx, desc, held, ranks, good, gained, outside, y]
    rfl
  · intro k a b m inside
    refine ⟨s1.fresh.2.setCx (slotIx u) { y with
      step := afterEndl x.prog k - 1, fault := none, watch := none, refusals := 0, backUntil := 0 }, ?_, mem, State.cx_setCx ..⟩
    change Host.Outcome.next (s.cruResume (slotIx u)) = _
    simp only [State.cruResume, slot, ctx, desc, held, ranks, good, gained, inside, y]
    rfl

end

/-! Abort and time-out (R133, R141, R142) -/

/-- A slot at the write of its STATUS word, ending with a cause (R142). -/
def Crux.atStatus (x : Crux) (cause : Nat) : Crux := { x with
  st := 5, outs := [], ins := [], outst := [], ending := some (cause, 2), fault := none, watch := none, resuming := none }

section
variable {ks : List Nat} {s1 : State} {cause : Nat} (live : x.st = 2 ∨ x.st = 3 ∨ x.st = 4)
  (status : (s.setCx (slotIx u) (x.atStatus cause)).resolve none (slotIx u / 16 * 4) c 2 d.status.toNat 8 needW = (.ok ks, s1))
include slot ctx desc live status

/-- Past LOADING, an end with a cause frees the slot. -/
theorem Ends.gone {j : Instr} (fails : cause ≠ 0) (run : exec j s = .next (s.endInstance (slotIx u) cause false)) :
    Ends j s (fun t => t.cx (slotIx u) = {}) := by
  subst slot
  refine ⟨_, run, State.cx_endInstance ctx desc ?_ fails status⟩
  rcases live with st | st | st <;> simp [st]

end

include slot ctx desc in
theorem crctlAbort_gone {ks : List Nat} {s1 : State} (live : x.st = 2 ∨ x.st = 3 ∨ x.st = 4)
    (status : (s.setCx (slotIx u) (x.atStatus 11)).resolve none (slotIx u / 16 * 4) c 2 d.status.toNat 8 needW = (.ok ks, s1)) :
    Ends (.crctlAbort u) s (fun t => t.cx (slotIx u) = {}) := by
  refine Ends.gone slot ctx desc live status (by decide) ?_
  change Host.Outcome.next (s.cruAbort (slotIx u)) = _
  rw [State.cruAbort, slot]
  exact congrArg Host.Outcome.next (if_pos (by simpa [or_assoc] using live))

include slot ctx desc in
theorem stepTimeout_gone {ks : List Nat} {s1 : State} {v : Nat} (live : x.st = 2 ∨ x.st = 3 ∨ x.st = 4) (timer : x.tmoAt = some v)
    (due : v ≤ s.now) (late : ∃ e ∈ x.deadlines d.tmo, e ≤ s.now)
    (status : (s.setCx (slotIx u) (x.atStatus 10)).resolve none (slotIx u / 16 * 4) c 2 d.status.toNat 8 needW = (.ok ks, s1)) :
    Ends (.stepTimeout u) s (fun t => t.cx (slotIx u) = {}) := by
  refine Ends.gone slot ctx desc live status (by decide) ?_
  have passed : ((x.deadlines d.tmo).any (fun t => decide (t ≤ s.now))) = true := by simpa using late
  have now : ¬ s.now < v := by omega
  change execStepTimeout u s = _
  simp only [execStepTimeout, slot, desc, timer, if_neg now]
  refine (if_neg ?_).trans (if_pos passed)
  rcases live with st | st | st <;> simp [st]

end

/-! Flits of collectives (R97, R131, R132) -/

theorem flitSlot_eq (l : List Byte) : flitSlot l = field l 16 8 / 2 ^ 4 % 2 * 16 + field l 16 8 % 16 := by
  simp only [flitSlot, bits_eq]
  norm_num

@[simp] theorem State.posts_port (s : State) (l : List Instr) (p : Nat) : (s.posts l).port p = s.port p := by rw [State.posts_eq]; rfl

@[simp] theorem State.posts_now (s : State) (l : List Instr) : (s.posts l).now = s.now := by rw [State.posts_eq]

/-- The event that the next accepted flit of a port makes possible: a copy's or a collective's (R97). -/
def flitsAhead (p : BitVec 5) (rest : List (BitVec 16 × List Byte)) : List Instr :=
  match rest with
  | (_, m) :: _ => [if field m 8 1 % 16 == 1 then Instr.copyFlitWrite p else .crucibleFlitReceive p]
  | [] => []

/-- Data of a bound circuit's peer lands in the stream of its rank. -/
theorem crucibleFlitReceive_lands {p : BitVec 5} {s : State} {x : Crux} {q : BitVec 16} {l : List Byte}
    {rest : List (BitVec 16 × List Byte)} {i e r : Nat} (slot : s.cx i = x) (inbox : (s.port p.toNat).inbox = (q, l) :: rest)
    (ours : field l 8 1 % 16 = 2) (names : flitSlot l = i) (live : x.st = 2 ∨ x.st = 3 ∨ x.st = 4) (entry : s.entryOf p.toNat = some e)
    (bound : (s.circuit e).bind = 0xFFFE) (rank : x.rankOf e = some r) (data : bits (field l 16 8) 7 5 = 0) :
    Ends (.crucibleFlitReceive p) s (fun t => t.mem = s.mem ∧ (t.port p.toNat).inbox = rest ∧ t.cx i = { x.hear (2 * r) s.now with
      ins := tset x.ins r ((tget {} x.ins r).land (bits (field l 16 8) 39 8) ((l.drop 32).take (field l 24 2))) }) := by
  have alive : (x.st == 2 || x.st == 3 || x.st == 4) = true := by simpa [or_assoc] using live
  have slot' : (s.setPort p.toNat { s.port p.toNat with inbox := rest }).cx i = x := slot
  have entry' : (s.setPort p.toNat { s.port p.toNat with inbox := rest }).entryOf p.toNat = some e := entry
  have bound' : ((s.setPort p.toNat { s.port p.toNat with inbox := rest }).circuit e).bind = 0xFFFE := bound
  refine ⟨((s.setPort p.toNat { s.port p.toNat with inbox := rest }).posts (flitsAhead p rest)).setCx i { x.hear (2 * r) s.now with
      ins := tset x.ins r ((tget {} x.ins r).land (bits (field l 16 8) 39 8) ((l.drop 32).take (field l 24 2))) }, ?_, ?_, ?_, State.cx_setCx ..⟩
  · change execCrucibleFlitReceive p s = _
    simp only [execCrucibleFlitReceive, inbox, ours, names, slot', alive, entry', bound', rank, data, Option.any_some, Option.bind_some,
      bne_self_eq_false, beq_self_eq_true, Bool.and_self, State.posts_now, Bool.false_eq_true, if_false, if_true]
    rfl
  · rw [State.setCx_mem, State.posts_mem]
    rfl
  · change (State.port (State.posts _ _) p.toNat).inbox = rest
    rw [State.posts_port, State.port_setPort]

/-- Settles O38: each event of a slot by the lemma about it, and the slot of a flit read from the bits of its address. -/
theorem crucibleInstances : Obligations.CrucibleInstances := by
  unfold Obligations.CrucibleInstances
  intro u s c d i x free used gone ctx desc
  refine ⟨fun loading ending sound l s1 p read good links fits => instanceLoaded_ends rfl ctx desc loading ending sound read good links fits,
    fun n st found finished => ?_, fun runs => crctlPause_ends rfl runs, fun pausing => instancePaused_ends rfl pausing,
    fun paused settled l s1 ranks good => ⟨crctlResume_same rfl ctx desc paused settled ranks good,
      crctlResume_grown rfl ctx desc paused settled ranks good⟩,
    fun live ks s1 status => crctlAbort_gone rfl ctx desc live status,
    fun v live timer due late ks s1 status => stepTimeout_gone rfl ctx desc live timer due late status, ?_⟩
  · have drops := dataStepComplete_drops (u := u) rfl ctx found finished
    refine ⟨fun quiet => drops fun b buf => ?_, fun b buf _ none => drops fun b' same => ?_, fun b ks s1 buf counted object kind place =>
      dataStepComplete_counts rfl ctx found finished buf (st.counts_iff.2 counted) object kind place⟩
    · refine quiet.elim (fun none => absurd (none.symm.trans buf) nofun) (fun silent => .inl ?_)
      exact Bool.eq_false_iff.2 (fun counts => silent (st.counts_iff.1 counts))
    · obtain rfl := Option.some.inj (buf.symm.trans same)
      exact .inr none
  · intro p q l rest e r a inbox ours names live entry bound rank data
    have low : bits a 39 8 = a / 2 ^ 8 % 2 ^ 32 := bits_eq ..
    have high : bits a 7 5 = a / 2 ^ 5 % 8 := bits_eq ..
    rw [← low]
    exact crucibleFlitReceive_lands rfl inbox ours ((flitSlot_eq l).trans names) live entry bound rank (high.trans data)

end Sys2Proof.Machine
end

