-- ==== Sys2Proof/Proofs/HostTransport.lean ====
section
/-! PROOF. The command transport and the device memory windows (R146 to R154): each packet of the host by what its stream holds, and each
request of a queue pair by its number and its window. -/

namespace Sys2Proof.Machine
open Sys2Proof.Claims

/-! Packets of the host (R150 to R152) -/

theorem State.unstall_eq_self {s : State} {n : Nat} (running : (s.stream n).stalled = false) : s.unstall n = s := by
  simp [State.unstall, running]

/-- Where no record in the buffer is a bad command, the start of the next one makes at most its event possible. -/
theorem State.startNext_eq {s : State} {n : Nat} (good : ∀ p ∈ (s.stream n).buffer, recBadCmd n p.2 = false)
    (full : s.mgmt.minimal = false) (k : Nat) : ∃ q, s.startNext n k = { s with queue := q } := by
  cases k with
  | zero => exact ⟨s.queue, rfl⟩
  | succ k =>
    cases buf : (s.stream n).buffer with
    | nil => exact ⟨s.queue, startNext_of_empty buf _⟩
    | cons p rest =>
      have sound : recBadCmd n p.2 = false := good p (buf ▸ List.mem_cons_self)
      simp only [State.startNext, buf, sound, full, Bool.false_and, Bool.or_self, Bool.false_eq_true, if_false]
      split
      · exact ⟨s.queue, rfl⟩
      · exact ⟨_, State.post_eq ..⟩

section
variable {k : HostPacket} {s : State} (up : s.hostUp = true) (running : (s.stream k.stream.toNat).stalled = false)
include up running

section
variable (sound : packetOk k 1 = true)
include sound

/-- A command packet whose checks pass, by whether its stream is open and its number is the next. -/
theorem exec_cmdPacket : exec (.cmdPacket k) s =
    let n := k.stream.toNat
    let c := s.stream n
    if c.open_ = false then .next (s.sendAck n 0)
    else if k.seq = c.lastSeq + 1 ∧ c.buffer.length < 64 then
      .next (((s.setStream n { c with lastSeq := k.seq, buffer := c.buffer ++ [(k.seq, k.payload)] }).sendAck n k.seq).startNext n 65)
    else .next (s.sendAck n c.lastSeq) := by
  change execCmdPacket k s = _
  refine (if_neg (by simp [up, sound])).trans ?_
  simp only [State.unstall_eq_self running, Bool.not_eq_true', Bool.and_eq_true, beq_iff_eq, decide_eq_true_eq]

theorem cmdPacket_closed (closed : (s.stream k.stream.toNat).open_ = false) :
    Ends (.cmdPacket k) s (fun t => t = s.sendAck k.stream.toNat 0) :=
  ⟨_, (exec_cmdPacket up running sound).trans (if_pos closed), rfl⟩

variable (open_ : (s.stream k.stream.toNat).open_ = true)
include open_

theorem cmdPacket_refused
    (turn : k.seq ≠ (s.stream k.stream.toNat).lastSeq + 1 ∨ 64 ≤ (s.stream k.stream.toNat).buffer.length) :
    Ends (.cmdPacket k) s (fun t => t = s.sendAck k.stream.toNat (s.stream k.stream.toNat).lastSeq) :=
  have waits : ¬ (k.seq = (s.stream k.stream.toNat).lastSeq + 1 ∧ (s.stream k.stream.toNat).buffer.length < 64) := by
    rw [← Nat.not_lt] at turn
    tauto
  ⟨_, (exec_cmdPacket up running sound).trans ((if_neg (by simp [open_])).trans (if_neg waits)), rfl⟩

theorem cmdPacket_joins (next : k.seq = (s.stream k.stream.toNat).lastSeq + 1) (room : (s.stream k.stream.toNat).buffer.length < 64)
    (full : s.mgmt.minimal = false)
    (good : ∀ p ∈ (s.stream k.stream.toNat).buffer ++ [(k.seq, k.payload)], recBadCmd k.stream.toNat p.2 = false) :
    Ends (.cmdPacket k) s (fun t => t = { s.setStream k.stream.toNat { s.stream k.stream.toNat with
        lastSeq := k.seq, buffer := (s.stream k.stream.toNat).buffer ++ [(k.seq, k.payload)] } with outHost := t.outHost, queue := t.queue } ∧
      t.outHost = (s.sendAck k.stream.toNat k.seq).outHost) := by
  generalize joined : s.setStream k.stream.toNat { s.stream k.stream.toNat with
        lastSeq := k.seq, buffer := (s.stream k.stream.toNat).buffer ++ [(k.seq, k.payload)] } = u
  have stream : ((u.sendAck k.stream.toNat k.seq).stream k.stream.toNat).buffer =
      (s.stream k.stream.toNat).buffer ++ [(k.seq, k.payload)] := by
    rw [← joined]
    exact congrArg CmdStream.buffer (State.stream_setStream ..)
  have outHost : u.outHost = s.outHost := by rw [← joined]; rfl
  have minimal : u.mgmt.minimal = false := by rw [← joined]; exact full
  obtain ⟨q, starts⟩ := State.startNext_eq (s := u.sendAck k.stream.toNat k.seq) (n := k.stream.toNat) (by rwa [stream]) minimal 65
  refine ⟨{ u.sendAck k.stream.toNat k.seq with queue := q }, ?_, rfl, ?_⟩
  · rw [exec_cmdPacket up running sound, ← starts, ← joined]
    exact (if_neg (by simp [open_])).trans (if_pos ⟨next, room⟩)
  · simp only [State.sendAck, outHost]

end

/-! Acknowledgements of the host (R154) -/

section
variable (sound : packetOk k 2 = true)
include sound

/-- An acknowledgement whose checks pass, by whether it is new and names what was sent. -/
theorem exec_hostAck : exec (.hostAck k) s =
    let n := k.stream.toNat
    let c := s.stream n
    if (!later k.ackseq c.ackedSeq || later k.ackseq c.cplSeq) = true then .next s
    else .next ((((s.setStream n { c with ackedSeq := k.ackseq, unacked := c.unacked.filter (fun p => later p.1.seq k.ackseq) }).releaseCpl n
      c.held.length).startNext n 65).forgetStream n) := by
  change execHostAck k s = _
  refine (if_neg (by simp [up, sound])).trans ?_
  simp only [State.unstall_eq_self running]

theorem hostAck_ignored
    (stale : later k.ackseq (s.stream k.stream.toNat).ackedSeq = false ∨ later k.ackseq (s.stream k.stream.toNat).cplSeq = true) :
    Ends (.hostAck k) s (fun t => t = s) :=
  ⟨s, (exec_hostAck up running sound).trans (if_pos (by simpa using stale)), rfl⟩

theorem hostAck_releases (open_ : (s.stream k.stream.toNat).open_ = true) (held : (s.stream k.stream.toNat).held = [])
    (empty : (s.stream k.stream.toNat).buffer = []) (fresh : later k.ackseq (s.stream k.stream.toNat).ackedSeq = true)
    (sent : later k.ackseq (s.stream k.stream.toNat).cplSeq = false) :
    Ends (.hostAck k) s (fun t => t = s.setStream k.stream.toNat { s.stream k.stream.toNat with
      ackedSeq := k.ackseq, unacked := (s.stream k.stream.toNat).unacked.filter (fun p => later p.1.seq k.ackseq) }) := by
  refine ⟨_, (exec_hostAck up running sound).trans (if_neg (by simp [fresh, sent])), ?_⟩
  simp only [held, List.length_nil, State.releaseCpl]
  rw [startNext_of_empty (by rw [State.stream_setStream]; exact empty), State.forgetStream, State.stream_setStream]
  exact if_neg (by simp [open_])

end
end

/-! Completions sent again (R154) -/

section
variable {st : BitVec 10} {s : State} (running : (s.stream st.toNat).stalled = false)
  (due : ∃ p ∈ (s.stream st.toNat).unacked, p.2.1 + 100000 ≤ s.now)
include running due

theorem exec_cplRetransmit : exec (.cplRetransmit st) s =
    let c := s.stream st.toNat
    let due (p : HostPacket × Nat × Nat) : Bool := decide (p.2.1 + 100000 ≤ s.now)
    if c.unacked.any (fun p => due p && decide (16 ≤ p.2.2)) = true then .next (s.setStream st.toNat { c with stalled := true })
    else .next (({ s.setStream st.toNat { c with unacked := c.unacked.map (fun p => if due p then (p.1, s.now, p.2.2 + 1) else p) } with
      outHost := s.outHost ++ (c.unacked.filter due).map (fun p : HostPacket × Nat × Nat => p.1) }).after 100000 (.cplRetransmit st)) :=
  if_neg (by simpa [running] using due)

theorem cplRetransmit_stalls (spent : ∃ p ∈ (s.stream st.toNat).unacked, p.2.1 + 100000 ≤ s.now ∧ 16 ≤ p.2.2) :
    Ends (.cplRetransmit st) s (fun t => t = s.setStream st.toNat { s.stream st.toNat with stalled := true }) :=
  ⟨_, (exec_cplRetransmit running due).trans (if_pos (by simpa using spent)), rfl⟩

theorem cplRetransmit_sends (left : ∀ p ∈ (s.stream st.toNat).unacked, p.2.1 + 100000 ≤ s.now → p.2.2 < 16) :
    Ends (.cplRetransmit st) s (fun t =>
      t.outHost = s.outHost ++ ((s.stream st.toNat).unacked.filter (fun p => decide (p.2.1 + 100000 ≤ s.now))).map (fun p => p.1) ∧
      t.timers = s.timers ++ [⟨s.now + 100000, .cplRetransmit st⟩] ∧ t.mem = s.mem) := by
  exact ⟨_, (exec_cplRetransmit running due).trans (if_neg (by simpa using left)), rfl, rfl, rfl⟩

end

/-! Responses of a queue pair (R178) -/

theorem Qp.mtu_pos (q : Qp) : 0 < q.mtu := Nat.mul_pos (by decide) (Nat.two_pow_pos _)

theorem Qp.packets_pos (q : Qp) (n : Nat) : 0 < q.packets n := Nat.lt_of_lt_of_le Nat.one_pos (Nat.le_max_left ..)

/-- The packets of `n` bytes hold them all. -/
theorem Qp.le_packets_mul_mtu (q : Qp) (n : Nat) : n ≤ q.packets n * q.mtu := by
  have pos := q.mtu_pos
  have enough : n ≤ (n + q.mtu - 1) / q.mtu * q.mtu := by
    have whole := Nat.div_add_mod' (n + q.mtu - 1) q.mtu
    have part := Nat.mod_lt (n + q.mtu - 1) pos
    omega
  exact enough.trans (Nat.mul_le_mul_right _ (Nat.le_max_right ..))

/-- Pieces of one length, one after the other, are the beginning of a list. -/
theorem flatMap_range_drop_take {α : Type} (l : List α) (m c : Nat) :
    (List.range c).flatMap (fun k => (l.drop (k * m)).take m) = l.take (c * m) := by
  induction c with
  | zero => simp
  | succ c ih => rw [List.range_succ, List.flatMap_append, ih, Nat.succ_mul, List.take_add]; simp

/-- The data bytes of an answer. -/
def RdmaAnswer.bytes : RdmaAnswer → List Byte
  | .data b => b
  | _ => []

section
variable {s : State} {n : Nat} {q : Qp} (found : tfind s.mgmt.qps n = some q)
include found

/-- An acknowledgement is one packet, numbered on. -/
theorem State.rdmaAnswer_ack : (s.rdmaAnswer n .ack).mem = s.mem ∧
    ∃ r : RdmaReply, (s.rdmaAnswer n .ack).outRdma = s.outRdma ++ [r] ∧ r.answer = .ack ∧ r.qp = n ∧ r.psn = q.spsn := by
  simp only [State.rdmaAnswer, found]
  exact ⟨trivial, _, rfl, rfl, rfl, BitVec.add_zero ..⟩

/-- Data leaves in one packet or more, which hold it in order. -/
theorem State.rdmaAnswer_data (b : List Byte) : (s.rdmaAnswer n (.data b)).mem = s.mem ∧
    ∃ rs : List RdmaReply, (s.rdmaAnswer n (.data b)).outRdma = s.outRdma ++ rs ∧ rs ≠ [] ∧ rs.flatMap (fun r => r.answer.bytes) = b := by
  simp only [State.rdmaAnswer, found]
  refine ⟨trivial, _, rfl, ?_, ?_⟩
  · have some := q.packets_pos b.length
    simpa using some.ne'
  · rw [List.flatMap_map]
    refine (List.flatMap_map Prod.snd RdmaAnswer.bytes _).symm.trans ?_
    rw [List.map_snd_zip (by simp), List.flatMap_map]
    exact (flatMap_range_drop_take ..).trans (List.take_of_length_le (q.le_packets_mul_mtu b.length))

end

theorem State.TlbOnly.outRdma {s t : State} (only : s.TlbOnly t) : t.outRdma = s.outRdma := by rw [only]
theorem State.outRdma_store (s : State) (l : List (Nat × Byte)) : (s.store l).outRdma = s.outRdma := by rw [State.Touched.store s l]
theorem State.mgmt_store (s : State) (l : List (Nat × Byte)) : (s.store l).mgmt = s.mgmt := by rw [State.Touched.store s l]

/-! Requests by their numbers (R178) -/

/-- The queue pair has taken a request of `n` bytes: it expects the number behind it. -/
def State.expects (s : State) (qp : BitVec 6) (q : Qp) (n : Nat) : State :=
  { s with mgmt := { s.mgmt with qps := tset s.mgmt.qps qp.toNat { q with epsn := q.epsn + BitVec.ofNat 24 (q.packets n) } } }

theorem State.tfind_qps_expects (s : State) (qp : BitVec 6) (q : Qp) (n : Nat) : tfind (s.expects qp q n).mgmt.qps qp.toNat =
    some { q with epsn := q.epsn + BitVec.ofNat 24 (q.packets n) } := tfind_tset_same ..

section
variable {s : State} {qp : BitVec 6} {psn : BitVec 24} {q : Qp} (found : tfind s.mgmt.qps qp.toNat = some q)
  {n : Nat} {write : Bool} {run : State → RdmaAnswer × State}
include found

theorem State.onQp_expected (turn : psn = q.epsn) {r : RdmaAnswer} {t : State} (ran : run (s.expects qp q n) = (r, t)) :
    s.onQp qp psn (fun q => q.packets n) write run = .next (t.rdmaAnswer qp.toNat r) := by
  unfold State.expects at ran
  simp only [State.onQp, found, turn, BitVec.sub_self, ran]
  rfl

theorem State.onQp_ahead (other : psn ≠ q.epsn) (ahead : (psn - q.epsn).toNat < 2 ^ 23) {used : Qp → Nat} :
    s.onQp qp psn used write run = .next (s.rdmaAnswer qp.toNat .nakSequence) := by
  have apart : (psn - q.epsn).toNat ≠ 0 := fun zero => other (by bv_omega)
  simp only [State.onQp, found]
  exact (if_neg (by simpa using apart)).trans (if_pos ahead)

theorem State.onQp_repeated (behind : 2 ^ 23 ≤ (psn - q.epsn).toNat) {used : Qp → Nat} :
    s.onQp qp psn used true run = .next (s.rdmaAnswer qp.toNat .ack) := by
  simp only [State.onQp, found]
  exact (if_neg (by rw [beq_iff_eq]; omega)).trans ((if_neg (by omega)).trans (if_pos trivial))

end

/-! Keys of a window (R147, R148) -/

section
variable {s : State} {qp : BitVec 6} {key : Word} {a : DWord} {n : Nat} {write : Bool}

theorem State.rdmaKeys_noWindow (none : s.windowOf key = none) : s.rdmaKeys qp key a n write = (.error .nakAccess, s) := by
  simp only [State.rdmaKeys, none]

theorem State.rdmaKeys_refused {w : Window} (names : s.windowOf key = some w)
    (bad : w.len < a.toNat + n ∨ w.access.getLsbD (bnat write) = false) : s.rdmaKeys qp key a n write = (.error .nakAccess, s) := by
  simp only [State.rdmaKeys, names]
  exact if_pos (by simpa [bit_toNat] using bad)

end

theorem State.TlbOnly.ownerKeys (s : State) (x va n need : Nat) : s.TlbOnly (s.ownerKeys x va n need).2 := by
  refine List.foldlRecOn (motive := fun acc : Except (Nat × Nat) (List Nat) × State => s.TlbOnly acc.2) _ _ (.refl s) fun acc only p _ => ?_
  obtain ⟨r, t⟩ := acc
  cases r with
  | error e => exact only
  | ok ks =>
    dsimp only
    split
    next piece => exact only.trans (.resolve piece)
    next piece => exact only.trans (.resolve piece)

theorem State.TlbOnly.rdmaKeys {s t : State} {qp : BitVec 6} {key : Word} {a : DWord} {n : Nat} {write : Bool} {ks : List Nat}
    (h : s.rdmaKeys qp key a n write = (.ok ks, t)) : s.TlbOnly t := by
  unfold State.rdmaKeys at h
  split at h
  · cases h
  split at h
  · cases h
  split at h
  · cases h
    exact .refl s
  · split at h
    next owned =>
      cases h
      have only := State.TlbOnly.ownerKeys s
      exact (congrArg (fun p => s.TlbOnly p.2) owned).mp (only ..)
    · cases h

/-! Writes and reads through a window (R146 to R149) -/

/-- What an RDMA write does in its turn. -/
def writeWindow (qp : BitVec 6) (key : Word) (a : DWord) (data : List Byte) (s : State) : RdmaAnswer × State :=
  match s.rdmaKeys qp key a data.length true with
  | (.ok ks, s) => (.ack, s.store (ks.zip data))
  | (.error r, s) => (r, s)

/-- What an RDMA read does in its turn. -/
def readWindow (qp : BitVec 6) (key : Word) (a : DWord) (len : Nat) (s : State) : RdmaAnswer × State :=
  match s.rdmaKeys qp key a len false with
  | (.ok ks, s) => (.data (s.peek ks), s)
  | (.error r, s) => (r, s)

section
variable {s t : State} {qp : BitVec 6} {key : Word} {a : DWord}

theorem writeWindow_ok {data : List Byte} {ks : List Nat} (keys : s.rdmaKeys qp key a data.length true = (.ok ks, t)) :
    writeWindow qp key a data s = (.ack, t.store (ks.zip data)) := by
  rw [writeWindow, keys]

theorem writeWindow_error {data : List Byte} {r : RdmaAnswer} (keys : s.rdmaKeys qp key a data.length true = (.error r, t)) :
    writeWindow qp key a data s = (r, t) := by
  rw [writeWindow, keys]

theorem readWindow_ok {len : Nat} {ks : List Nat} (keys : s.rdmaKeys qp key a len false = (.ok ks, t)) :
    readWindow qp key a len s = (.data (t.peek ks), t) := by
  rw [readWindow, keys]

theorem readWindow_error {len : Nat} {r : RdmaAnswer} (keys : s.rdmaKeys qp key a len false = (.error r, t)) :
    readWindow qp key a len s = (r, t) := by
  rw [readWindow, keys]

end

section
variable {s : State} (up : s.hostUp = true) {qp : BitVec 6} {psn : BitVec 24} {key : Word} {a : DWord}
include up

theorem exec_rdmaWrite (data : List Byte) : exec (.rdmaWrite ⟨qp, psn⟩ key a data) s =
    s.onQp qp psn (fun q => q.packets data.length) true (writeWindow qp key a data) :=
  if_neg (by simp [up])

theorem exec_rdmaRead (len : Nat) : exec (.rdmaRead ⟨qp, psn⟩ key a len) s =
    s.onQp qp psn (fun q => q.packets len) false (readWindow qp key a len) :=
  if_neg (by simp [up])

variable {q : Qp} (found : tfind s.mgmt.qps qp.toNat = some q) (turn : psn = q.epsn)
include found turn

theorem rdmaWrite_refused {data : List Byte} {r : RdmaAnswer}
    (refused : (s.expects qp q data.length).rdmaKeys qp key a data.length true = (.error r, s.expects qp q data.length)) :
    Ends (.rdmaWrite ⟨qp, psn⟩ key a data) s (fun u => u = (s.expects qp q data.length).rdmaAnswer qp.toNat r) :=
  ⟨_, (exec_rdmaWrite up data).trans (State.onQp_expected found turn (writeWindow_error refused)), rfl⟩

theorem rdmaRead_refused {len : Nat} {r : RdmaAnswer}
    (refused : (s.expects qp q len).rdmaKeys qp key a len false = (.error r, s.expects qp q len)) :
    Ends (.rdmaRead ⟨qp, psn⟩ key a len) s (fun u => u = (s.expects qp q len).rdmaAnswer qp.toNat r) :=
  ⟨_, (exec_rdmaRead up len).trans (State.onQp_expected found turn (readWindow_error refused)), rfl⟩

theorem rdmaWrite_writes {data : List Byte} {ks : List Nat} {s1 : State}
    (keys : (s.expects qp q data.length).rdmaKeys qp key a data.length true = (.ok ks, s1)) :
    Ends (.rdmaWrite ⟨qp, psn⟩ key a data) s (fun t => t.mem = Memory.writes s.mem (ks.zip data) ∧
      ∃ r : RdmaReply, t.outRdma = s.outRdma ++ [r] ∧ r.answer = .ack ∧ r.qp = qp.toNat ∧ r.psn = q.spsn) := by
  have learned := State.TlbOnly.rdmaKeys keys
  obtain ⟨mem, answers⟩ := State.rdmaAnswer_ack (s := s1.store (ks.zip data)) (n := qp.toNat)
    (by rw [State.mgmt_store, learned.mgmt]; exact s.tfind_qps_expects qp q data.length)
  rw [State.outRdma_store, learned.outRdma] at answers
  rw [State.store_mem, learned.mem] at mem
  exact ⟨_, (exec_rdmaWrite up data).trans (State.onQp_expected found turn (writeWindow_ok keys)), mem, answers⟩

theorem rdmaRead_reads {len : Nat} {ks : List Nat} {s1 : State}
    (keys : (s.expects qp q len).rdmaKeys qp key a len false = (.ok ks, s1)) :
    Ends (.rdmaRead ⟨qp, psn⟩ key a len) s (fun t => t.mem = s.mem ∧ ∃ rs : List RdmaReply, t.outRdma = s.outRdma ++ rs ∧ rs ≠ [] ∧
      rs.flatMap (fun r => r.answer.bytes) = ks.map (Memory.read s.mem)) := by
  have learned := State.TlbOnly.rdmaKeys keys
  obtain ⟨mem, answers⟩ := State.rdmaAnswer_data (s := s1) (n := qp.toNat)
    (by rw [learned.mgmt]; exact s.tfind_qps_expects qp q len) (s1.peek ks)
  rw [learned.outRdma, learned.peek] at answers
  exact ⟨_, (exec_rdmaRead up len).trans (State.onQp_expected found turn (readWindow_ok keys)), mem.trans learned.mem, by rwa [learned.peek]⟩

end

/-- Settles O43: each packet of the host by its stream, and each request of a queue pair by its number and its window. -/
theorem hostTransport : Obligations.HostTransport := by
  intro k st s n c z up
  refine ⟨fun sound closed running => cmdPacket_closed up running sound closed,
    fun sound open_ running => ⟨cmdPacket_joins up running sound open_, cmdPacket_refused up running sound open_⟩,
    fun sound open_ running held empty fresh sent => hostAck_releases up running sound open_ held empty fresh sent,
    fun sound _ running stale => hostAck_ignored up running sound stale,
    fun running due => ⟨cplRetransmit_stalls running due, cplRetransmit_sends running due⟩, ?_⟩
  intro qp psn key a data len win q found e n writes reads
  refine ⟨fun turn => ⟨fun none => ?_, fun names bad => ?_, fun names bad => ?_, fun ks s1 keys => rdmaWrite_writes up found turn keys,
    fun ks s1 keys => rdmaRead_reads up found turn keys⟩, fun other ahead => ?_, fun behind => ?_⟩
  · exact ⟨rdmaWrite_refused up found turn (State.rdmaKeys_noWindow none), rdmaRead_refused up found turn (State.rdmaKeys_noWindow none)⟩
  · exact rdmaWrite_refused up found turn (State.rdmaKeys_refused names bad)
  · exact rdmaRead_refused up found turn (State.rdmaKeys_refused names bad)
  · exact ⟨⟨_, (exec_rdmaWrite up data).trans (State.onQp_ahead found other ahead), rfl⟩,
      ⟨_, (exec_rdmaRead up len).trans (State.onQp_ahead found other ahead), rfl⟩⟩
  · exact ⟨_, (exec_rdmaWrite up data).trans (State.onQp_repeated found behind), rfl⟩

end Sys2Proof.Machine
end

