-- ==== Sys2Proof/Proofs/FirmwareAndFrames.lean ====
section
/-! PROOF. Firmware switches, reboots and the frames of the host port (R144, R171, R175, R177, R180, R183). -/

namespace Sys2Proof.Machine
open Sys2Proof.Claims

/-! Requests of the management flow (R176) -/

theorem State.serve_of_empty {s : State} (empty : s.mgmt.inbox = []) (n : Nat) : s.serve n = s := by
  cases n with
  | zero => rfl
  | succ n => simp only [State.serve, empty]

theorem State.popRequest_of_empty {s : State} (empty : s.mgmt.inbox = []) (op : BitVec 8) (m : MgmtReq) : s.popRequest op m = s := by
  simp only [State.popRequest, empty]

section
variable {s : State} (empty : s.mgmt.inbox = [])
include empty

theorem State.request1_runs {op len : Nat} {m : MgmtReq} {run : State → State} (sound : reqOk m len = true) :
    s.request1 op m len run = run s := by
  rw [State.request1, State.popRequest_of_empty empty]
  exact if_pos sound

theorem State.request1_refused {op len : Nat} {m : MgmtReq} {run : State → State} (bad : reqOk m len = false) :
    s.request1 op m len run = s.reply op 3 m.tag [] := by
  rw [State.request1, State.popRequest_of_empty empty]
  exact if_neg (by simp [bad])

/-- The row of a request does what the request does, where none waits before it and the core's own image does not switch. -/
theorem served_ends {i : Instr} {op : BitVec 8} {run : State → MgmtReq → State} {m : MgmtReq} {P : State → Prop} {t : State}
    (row : exec i s = served s op run m) (up : s.manager = true) (steady : s.switching 0 = false) (acts : run s m = t)
    (left : t.mgmt.inbox = []) (holds : P t) : Ends i s P := by
  refine ⟨t, row.trans ?_, holds⟩
  refine (if_neg (by simp [up])).trans ((if_neg (by simp [State.coreHeld, steady, empty])).trans ?_)
  simp only [acts, State.serve_of_empty left]

end

/-! FW-SWITCH (R183) -/

/-- What FW-SWITCH does when its request runs. -/
def State.runFwSwitch (verified : Bool) (s : State) (m : MgmtReq) : State :=
  s.request1 5 m 1 (fun s =>
    let u := field m.payload 0 1
    if !units.contains u then s.reply 5 3 m.tag []
    else if s.switching u || !verified then s.reply 5 4 m.tag []
    else
      let f : FwSwitch := ⟨u, s.now + 10000000000, m.tag⟩
      (({ s with mgmt := { s.mgmt with pendingSwitch := s.mgmt.pendingSwitch ++ [f] } }).after 10000000000
        (.fwSwitchTimeout (BitVec.ofNat 8 u))).showPending)

theorem exec_fwSwitch (m : MgmtReq) (verified : Bool) (s : State) : exec (.fwSwitch m verified) s = served s 5 (.runFwSwitch verified) m := rfl

section
variable {s : State} (up : s.manager = true) (steady : s.switching 0 = false) (empty : s.mgmt.inbox = []) {m : MgmtReq}
include up steady empty

theorem fwSwitch_starts (sound : reqOk m 1 = true) (unit : field m.payload 0 1 ∈ units) (idle : s.switching (field m.payload 0 1) = false) :
    let b0 := field m.payload 0 1
    Ends (.fwSwitch m true) s (fun t =>
      t = { s with mgmt := t.mgmt, timers := s.timers ++ [⟨s.now + 10000000000, .fwSwitchTimeout (BitVec.ofNat 8 b0)⟩] } ∧
      t.mgmt = { s.mgmt with
        pendingSwitch := s.mgmt.pendingSwitch ++ [⟨b0, s.now + 10000000000, m.tag⟩], updpend := BitVec.ofNat 8 b0 }) := by
  refine served_ends empty (exec_fwSwitch ..) up steady
    ((State.request1_runs empty sound).trans ((if_neg (by simpa using unit)).trans (if_neg (by simp [idle])))) empty ⟨rfl, ?_⟩
  simp [State.showPending, State.after, State.atTime]

theorem fwSwitch_refused {v : Bool} (sound : reqOk m 1 = true) (unit : field m.payload 0 1 ∈ units)
    (no : s.switching (field m.payload 0 1) = true ∨ v = false) : Ends (.fwSwitch m v) s (fun t => t = s.reply 5 4 m.tag []) :=
  served_ends empty (exec_fwSwitch ..) up steady
    ((State.request1_runs empty sound).trans ((if_neg (by simpa using unit)).trans (if_pos (by simpa using no)))) empty rfl

theorem fwSwitch_badArg {v : Bool} (bad : reqOk m 1 = false ∨ field m.payload 0 1 ∉ units) :
    Ends (.fwSwitch m v) s (fun t => t = s.reply 5 3 m.tag []) := by
  by_cases sound : reqOk m 1 = true
  · have unknown : field m.payload 0 1 ∉ units := bad.resolve_left (by simp [sound])
    exact served_ends empty (exec_fwSwitch ..) up steady ((State.request1_runs empty sound).trans (if_pos (by simpa using unknown))) empty rfl
  · exact served_ends empty (exec_fwSwitch ..) up steady (State.request1_refused empty (by simpa using sound)) empty rfl

end

/-! The end of a switch (R183) -/

/-- Nothing waits for the end of a switch: no request, command, image, block or announcement. -/
def State.NothingHeld (s : State) : Prop :=
  s.mgmt.inbox = [] ∧ (∀ st, ∀ r ∈ (s.stream st).running, r.wait ≠ .firmware) ∧ (∀ c ∈ s.ctxs, c.2.pmst ≠ 3) ∧
    (∀ q ∈ s.queues, q.2.placing = []) ∧ ∀ w ∈ s.allWaves, ∀ d, w.2.decl = some d → d.told = true

theorem State.NothingHeld.withMgmt {s : State} (h : s.NothingHeld) {g : Mgmt} (empty : g.inbox = []) :
    ({ s with mgmt := g } : State).NothingHeld := ⟨empty, h.2⟩

theorem State.releaseHeld_eq_self {s : State} (none : ∀ st, ∀ r ∈ (s.stream st).running, r.wait ≠ .firmware) : s.releaseHeld = s := by
  refine List.foldlRecOn (motive := fun t => t = s) _ _ rfl fun t same st _ => ?_
  rw [same, List.filter_eq_nil_iff.2 (by simpa using none st)]
  rfl

theorem State.tryPlace_eq_self {s : State} (images : ∀ c ∈ s.ctxs, c.2.pmst ≠ 3) (blocks : ∀ q ∈ s.queues, q.2.placing = []) :
    s.tryPlace = s := by
  have restoring : s.ctxs.filter (fun c => c.2.pmst == 3) = [] := List.filter_eq_nil_iff.2 fun c mem => by simpa using images c mem
  have placing : s.queues.filter (fun q => !q.2.placing.isEmpty) = [] := List.filter_eq_nil_iff.2 fun q mem => by simp [blocks q mem]
  simp only [State.tryPlace, restoring, List.map_nil]
  change (s.posts ((s.queues.filter (fun q => !q.2.placing.isEmpty)).map _)) = s
  rw [placing]
  rfl

theorem State.tellAll_eq_self {s : State} (told : ∀ w ∈ s.allWaves, ∀ d, w.2.decl = some d → d.told = true) : s.tellAll = s := by
  rw [State.tellAll, List.filter_eq_nil_iff.2]
  · rfl
  · intro p mem
    have announced : p.2.decl.any (fun d => !d.told) = false := by
      cases decl : p.2.decl with
      | none => rfl
      | some d => simp [told p mem d decl]
    simp [announced]

theorem State.switchOver_of_nothingHeld {s : State} (h : s.NothingHeld) : s.switchOver = s.showPending := by
  obtain ⟨inbox, commands, images, blocks, told⟩ := h
  have released : s.showPending.releaseHeld = s.showPending := State.releaseHeld_eq_self commands
  have placed : s.showPending.tryPlace = s.showPending := State.tryPlace_eq_self images blocks
  have announced : s.showPending.tellAll = s.showPending := State.tellAll_eq_self told
  rw [State.switchOver, released, State.serve_of_empty (s := s.showPending) inbox, placed, announced]

/-- A log entry changes the log alone, and is its last. -/
theorem State.logEntry_eq (s : State) (kind unit : Nat) (d : DWord) : ∃ lg nl,
    s.logEntry kind unit d = { s with mgmt := { s.mgmt with log := lg, nextLog := nl } } ∧
      lg.getLast? = some ⟨s.mgmt.nextLog, kind, unit, s.now, d⟩ := by
  obtain ⟨lg, nl, logged⟩ : ∃ lg nl, s.logEntry kind unit d = { s with mgmt := { s.mgmt with log := lg, nextLog := nl } } := ⟨_, _, rfl⟩
  have last := s.getLast?_logEntry kind unit d
  rw [logged] at last
  exact ⟨lg, nl, logged, last⟩

/-- Unit `n` runs from a slot, and no switch of it is pending. -/
def Mgmt.runsFrom (g : Mgmt) (n slot : Nat) : Mgmt :=
  { g with slots := tset g.slots n slot, running := tset g.running n slot, pendingSwitch := g.pendingSwitch.filter (fun q => q.unit != n) }

section
variable {s : State} {u : BitVec 8} {q : FwSwitch}

theorem firmwareSwitchDone_ends (started : Bool) (pending : s.mgmt.pendingSwitch.find? (fun q => q.unit == u.toNat) = some q)
    (quiet : s.quiescent u.toNat = true) (free : s.NothingHeld) :
    let g := s.mgmt
    let n := u.toNat
    Ends (.firmwareSwitchDone u started) s (fun t => t = { s with mgmt := t.mgmt } ∧ t = t.showPending ∧
      t.mgmt.pendingSwitch = g.pendingSwitch.filter (fun q => q.unit != n) ∧
      tget 0 t.mgmt.slots n = (if started = true then 1 - g.active n else g.active n) ∧
      tfind t.mgmt.running n = some (tget 0 t.mgmt.slots n) ∧
      t.mgmt.replies = g.replies ++ [⟨5, if started = true then 0 else 9, q.tag, []⟩] ∧
      ∃ e : LogEntry, t.mgmt.log.getLast? = some e ∧ e.unit = n ∧ e.kind = if started = true then 2 else 3) := by
  intro g n
  generalize chosen : (if started = true then 1 - g.active n else g.active n) = slot
  obtain ⟨lg, nl, logged, last⟩ := ({ s with mgmt := g.runsFrom n slot } : State).logEntry_eq (if started = true then 2 else 3) n
    (BitVec.ofNat 64 slot)
  have acts : exec (.firmwareSwitchDone u started) s = .next ((({ s with mgmt := g.runsFrom n slot } : State).logEntry
      (if started = true then 2 else 3) n (BitVec.ofNat 64 slot)).reply 5 (if started = true then 0 else 9) q.tag []).switchOver := by
    rw [← chosen]
    change execFirmwareSwitchDone u started s = _
    simp only [execFirmwareSwitchDone, pending]
    exact if_neg (by simp [quiet])
  simp only [logged, State.reply] at acts
  have ends := acts.trans (congrArg Host.Outcome.next (State.switchOver_of_nothingHeld (free.withMgmt free.1)))
  refine ⟨_, ends, rfl, rfl, rfl, tget_tset_same .., ?_, rfl, _, last, rfl, rfl⟩
  exact (tfind_tset_same ..).trans (congrArg some (tget_tset_same ..).symm)

theorem fwSwitchTimeout_quiescent (quiet : s.quiescent u.toNat = true) : Ends (.fwSwitchTimeout u) s (fun t => t = s) := by
  refine ⟨s, ?_, rfl⟩
  change execFwSwitchTimeout u s = _
  simp only [execFwSwitchTimeout]
  split
  · rfl
  · exact if_pos quiet

theorem fwSwitchTimeout_refuses (due : s.mgmt.pendingSwitch.find? (fun q => q.unit == u.toNat && decide (q.due ≤ s.now)) = some q)
    (busy : s.quiescent u.toNat = false) (free : s.NothingHeld) :
    Ends (.fwSwitchTimeout u) s (fun t => t = { s with mgmt := t.mgmt } ∧ t = t.showPending ∧
      t.mgmt.pendingSwitch = s.mgmt.pendingSwitch.filter (fun q => q.unit != u.toNat) ∧
      t.mgmt.slots = s.mgmt.slots ∧ t.mgmt.replies = s.mgmt.replies ++ [⟨5, 4, q.tag, []⟩]) := by
  generalize ended : ({ s with mgmt := { s.mgmt with
    pendingSwitch := s.mgmt.pendingSwitch.filter (fun q => q.unit != u.toNat) } } : State).reply 5 4 q.tag [] = v
  have free' : v.NothingHeld := ended ▸ free.withMgmt free.1
  refine ⟨v.showPending, ?_, ?_⟩
  · rw [← State.switchOver_of_nothingHeld free', ← ended]
    change execFwSwitchTimeout u s = _
    simp only [execFwSwitchTimeout, due]
    exact if_neg (by simp [busy])
  · subst ended
    exact ⟨rfl, rfl, rfl, rfl, rfl⟩

end

/-! REBOOT (R171, R177, R180) -/

/-- `t` is `s` but for ports and lifetime counters. -/
def State.ClearsOnly (s t : State) : Prop := ∃ ps cs, t = { s with ports := ps, mgmt := { s.mgmt with counters := cs } }

theorem State.ClearsOnly.refl (s : State) : s.ClearsOnly s := ⟨s.ports, s.mgmt.counters, rfl⟩

theorem State.ClearsOnly.trans {s t u : State} : s.ClearsOnly t → t.ClearsOnly u → s.ClearsOnly u := by
  rintro ⟨ps, cs, rfl⟩ ⟨ps', cs', rfl⟩; exact ⟨ps', cs', rfl⟩

theorem State.ClearsOnly.clearCounts (s : State) (l : List Nat) : s.ClearsOnly (s.each l (fun s p => s.clearCounts p)) :=
  State.each_rel .refl .trans (fun _ _ => ⟨_, _, rfl⟩) l s

/-- What a reboot does, the ports' counts being cleared, before it starts anew: the reply, the commit, and CLEARFAIL where the request asks
for it. -/
def State.closeStart (s : State) (m : MgmtReq) : State :=
  let s := (s.reply 7 0 m.tag []).commitFlash
  let s := if field m.payload 0 8 == 1 then { s with mgmt := { s.mgmt with failed := 0 } } else s
  { s with mgmt := { s.mgmt with startOpen := false, startIncr := false } }

/-- What REBOOT does when its request runs. -/
def State.runReboot (b : Boot) (s : State) (m : MgmtReq) : State :=
  let s := s.popRequest 7 m
  if !reqOk m 8 || 2 ≤ field m.payload 0 8 then s.reply 7 3 m.tag []
  else ((s.each (List.range 32) (fun s p => s.clearCounts p)).closeStart m).lose.boot b false

theorem exec_reboot (m : MgmtReq) (b : Boot) (s : State) : exec (.reboot m b) s = served s 7 (.runReboot b) m := rfl

/-- The records that a reboot leaves in the flash. -/
theorem State.closeStart_records (s : State) (m : MgmtReq) :
    (s.closeStart m).mgmt.replies = s.mgmt.replies ++ [⟨7, 0, m.tag, []⟩] ∧
    (s.closeStart m).mgmt.pages = ((s.mgmt.counters, s.mgmt.hist) :: s.mgmt.pages).take 2 ∧
    (s.closeStart m).mgmt.failed = if field m.payload 0 8 = 1 then 0 else s.mgmt.failed := by
  simp only [State.closeStart, beq_iff_eq]
  split
  · exact ⟨rfl, rfl, rfl⟩
  · exact ⟨rfl, rfl, rfl⟩

theorem reboot_ends {s : State} {m : MgmtReq} {b : Boot} (up : s.manager = true) (steady : s.switching 0 = false) (empty : s.mgmt.inbox = [])
    (sound : reqOk m 8 = true) (low : field m.payload 0 8 < 2) (boots : b.fail = none) (few : field m.payload 0 8 = 1 ∨ s.mgmt.failed < 3) :
    Ends (.reboot m b) s (fun t => t.cores = [] ∧ t.ctxs = [] ∧ t.mgmt.bootComplete = true ∧ t.mgmt.failed = 0 ∧
      t.mgmt.replies = s.mgmt.replies ++ [⟨7, 0, m.tag, []⟩] ∧
      t.mgmt.pages = (((s.each (List.range 32) (fun s p => s.clearCounts p)).mgmt.counters, s.mgmt.hist) :: s.mgmt.pages).take 2) := by
  have acts : s.runReboot b m = ((s.each (List.range 32) (fun s p => s.clearCounts p)).closeStart m).lose.boot b false := by
    rw [State.runReboot, State.popRequest_of_empty empty]
    exact if_neg (by simp [sound, low])
  obtain ⟨ps, cs, cleared⟩ := State.ClearsOnly.clearCounts s (List.range 32)
  rw [cleared] at acts ⊢
  obtain ⟨replies, pages, failed⟩ := State.closeStart_records
    { s with ports := ps, mgmt := { s.mgmt with counters := cs } } m
  generalize State.closeStart _ m = c at replies pages failed acts
  change c.mgmt.failed = if field m.payload 0 8 = 1 then 0 else s.mgmt.failed at failed
  have before : c.lose.failedBefore < 3 := by
    have lost : c.lose.mgmt.failed = c.mgmt.failed := rfl
    rw [State.failedBefore, lost]
    split_ifs at failed ⊢
    all_goals omega
  obtain ⟨u, ends, h⟩ := (c.lose.boot_starts b false).complete (by simp [stepReached, boots]) before
  obtain ⟨n, cs, lg, nl, bf, ld, img, ps, tm, rfl⟩ := h
  exact served_ends empty (exec_reboot ..) up steady (acts.trans ends) rfl ⟨rfl, rfl, rfl, rfl, replies, pages⟩

/-! Frames (R144, R145) -/

section
variable {f : Frame} {s : State} (up : s.hostUp = true)
include up

theorem ethernetFrame_bad (bad : frameOk f = false) : Ends (.ethernetFrame f) s (fun t => t = s.badFrame) :=
  ⟨_, (if_neg (by simp [up])).trans (if_pos (by simp [bad])), rfl⟩

variable (sound : frameOk f = true)
include sound

theorem ethernetFrame_neighbour {src target : BitVec 128} (body : f.body = .neighbour src target) :
    (target = Config.hostIp → s.switching 0 = false →
      Ends (.ethernetFrame f) s (fun t => t = { s with outNd := s.outNd ++ [⟨src, target, Config.hostMac⟩] })) ∧
    (target ≠ Config.hostIp → Ends (.ethernetFrame f) s (fun t => t = s)) := by
  have manager : s.manager = true := by
    simp only [State.hostUp, State.manager, Bool.and_eq_true, decide_eq_true_eq] at up ⊢
    exact ⟨up.1, by omega⟩
  have row : exec (.ethernetFrame f) s = .next (if target == Config.hostIp && s.manager && !s.coreHeld then
      { s with outNd := s.outNd ++ [⟨src, target, Config.hostMac⟩] } else s) := by
    change execEthernetFrame f s = _
    simp only [execEthernetFrame, up, sound, body, Bool.not_true, Bool.false_eq_true, if_false]
  exact ⟨fun ours steady => ⟨_, row, if_pos (by simp [ours, manager, State.coreHeld, steady])⟩,
    fun other => ⟨_, row, if_neg (by simp [other])⟩⟩

theorem ethernetFrame_yct {k : HostPacket} (body : f.body = .yct k) :
    exec (.ethernetFrame f) s = if k.typ = 1 then exec (.cmdPacket k) s else exec (.hostAck k) s := by
  change execEthernetFrame f s = if k.typ = 1 then execCmdPacket k s else execHostAck k s
  simp only [execEthernetFrame, up, sound, body, Bool.not_true, Bool.false_eq_true, if_false, beq_iff_eq]

/-- A frame of a request through a window goes to its queue pair, or is discarded where its destination names none. -/
theorem ethernetFrame_rdmaWrite {q psn : BitVec 24} {key : Word} {a : DWord} {d : List Byte} (body : f.body = .rdmaWrite q psn key a d) :
    (∀ p, qpOf q = some p → exec (.ethernetFrame f) s = exec (.rdmaWrite ⟨p, psn⟩ key a d) s) ∧
    (qpOf q = none → Ends (.ethernetFrame f) s (fun t => t = s.badFrame)) := by
  refine ⟨fun p names => ?_, fun names => ⟨_, ?_, rfl⟩⟩
  all_goals
    change execEthernetFrame f s = _
    simp only [execEthernetFrame, up, sound, body, names, Bool.not_true, Bool.false_eq_true, if_false]
  rfl

theorem ethernetFrame_rdmaRead {q psn : BitVec 24} {key : Word} {a : DWord} {n : Nat} (body : f.body = .rdmaRead q psn key a n)
    {p : BitVec 6} (names : qpOf q = some p) : exec (.ethernetFrame f) s = exec (.rdmaRead ⟨p, psn⟩ key a n) s := by
  change execEthernetFrame f s = execRdmaRead ⟨p, psn⟩ key a n s
  simp only [execEthernetFrame, up, sound, body, names, Bool.not_true, Bool.false_eq_true, if_false]

/-- A request of the management flow runs, or waits, where its source is in the allow list; else it is counted and logged. -/
theorem ethernetFrame_mgmt {src : BitVec 128} {op : BitVec 8} {r : MgmtReq} (body : f.body = .mgmt src op r) :
    Ends (.ethernetFrame f) s (fun t => Config.allowed src = false →
      t = { s with mgmt := t.mgmt } ∧ t.mgmt.rejsrc = satInc s.mgmt.rejsrc ∧ t.mgmt.inbox = s.mgmt.inbox ∧ t.mgmt.replies = s.mgmt.replies ∧
      ∃ e : LogEntry, t.mgmt.log.getLast? = some e ∧ e.kind = 8) := by
  have row : exec (.ethernetFrame f) s = (execEthernetFrame f s) := rfl
  simp only [execEthernetFrame, up, sound, body, Bool.not_true, Bool.false_eq_true, if_false] at row
  split at row
  next allowed => exact ⟨_, row, fun refused => absurd (allowed.symm.trans refused) nofun⟩
  next => exact ⟨_, row, fun _ => ⟨rfl, rfl, rfl, rfl, _, State.getLast?_logEntry .., rfl⟩⟩

end

/-- Settles O45: the request, the end and the time-out of a firmware switch, a reboot, and each kind of frame. -/
theorem firmwareAndFrames : Obligations.FirmwareAndFrames := by
  intro m b f u s g b0 n free nothingHeld gone shows
  refine ⟨fun up ⟨steady, empty⟩ => fwSwitch_starts up steady empty,
    fun up ⟨steady, empty⟩ v => ⟨fwSwitch_refused up steady empty, fwSwitch_badArg up steady empty⟩,
    fun q started pending quiet held => ?_, fwSwitchTimeout_quiescent, fun q due busy held => ?_,
    fun up ⟨steady, empty⟩ => reboot_ends up steady empty, fun up => ⟨ethernetFrame_bad up,
      fun src target sound => ethernetFrame_neighbour up sound, fun k sound => ethernetFrame_yct up sound,
      fun q k key a d p sound body => (ethernetFrame_rdmaWrite up sound body).1 p,
      fun q k key a n p sound body names => ethernetFrame_rdmaRead up sound body names,
      fun q k key a d sound body => (ethernetFrame_rdmaWrite up sound body).2,
      fun src op r sound => ethernetFrame_mgmt up sound⟩⟩
  · obtain ⟨t, row, rest, shown, switched⟩ := firmwareSwitchDone_ends started pending quiet held
    exact ⟨t, row, rest, congrArg (fun t : State => t.mgmt.updpend) shown, switched⟩
  · obtain ⟨t, row, rest, shown, refused⟩ := fwSwitchTimeout_refuses due busy held
    exact ⟨t, row, rest, congrArg (fun t : State => t.mgmt.updpend) shown, refused⟩

end Sys2Proof.Machine
end

