-- ==== Sys2Proof/Proofs/CommandsOfContexts.lean ====
section
/-! PROOF. Host commands on contexts (R159 to R169): a reset of a context in a state that lists a wave slot twice (R165). -/

namespace Sys2Proof.Machine
open Sys2Proof.Claims

/-! The counterexample: a core whose table of waves lists a slot twice. The removal of the context's block takes the entry that names
that block out of the table, and a read of the slot then finds the other one. -/

namespace SlotListedTwice

/-- CONTEXT-RESET of context 0, with its CPL bit set and no operand (R155). -/
def record : List Byte := [9, 1, 16, 0, 0, 0, 0, 0, 0, 0, 0, 0, 0, 0, 0, 0]

/-- The context that is reset: no queue, stream or image is its own. -/
def context : Ctx :=
  { ptroot := 0, save := 0, savelen := 0, fq := 0, fqn := 0, fqnote := 0, ept := 0, qmask := 0, plcap := 0, strm0 := 0, nstrm := 0
    windows := [], tail := 0, dropped := 0, deadline := 0, pmst := 0, nospace := false, badreq := false, images := [], used := 0
    drainBy := none, savefault := none, words := [], ending := false }

/-- A block of context 0, with one wave in slot 3. -/
def block : Block :=
  { launch := 0, kid := 0, ctx := 0, sbase := 0, scrq := 0, l1floor := 0, wpb := 1, row := none, entry := 0, waves := [3], parts := [0]
    lregq := 1 }

/-- A wave of context 0 that names resident block slot `k`. -/
def waveOf (k : Nat) : Wave :=
  { bslot := k, widx := 0, ctx := 0, launch := 0, kid := 0, nregs := 16, order := 0, seed := 0, handler := false, sreg := [], vreg := []
    guards := [], xslot := [], flags := [], xmax := 0, vstat := 0, rngs := 0, trapv := 0, ix := [], nx := [], fdid := 0, rank := 0
    args := 0, tickets := [], wideRet := [], clamp := false, thr := false, bad := false, decl := none, woke := false, ccnt := 0
    txcode := 0, txcause := 0, txn := none, frags := [firstFragment 0 allLanes], ops := [], nextFrag := 1, nextSplit := 1, pendS := []
    phase := 0, part := 0 }

/-- Core 0 lists its wave slot 3 twice: first the wave of the block in slot 1, then one of slot 2, where no block is. -/
def core : Core := { blocks := [(1, block)], waves := [(3, waveOf 1), (3, waveOf 2)] }

/-- The record waits alone on stream 0. -/
def state : State :=
  { streams := [(0, { open_ := true, lastSeq := 1, buffer := [(1, record)] })], ctxs := [(0, context)], cores := [(0, core)] }

theorem command_contextReset : Command (.contextReset 0) state 0 1 record where
  buf := rfl
  free := rfl
  good := by decide
  row := by decide
  checks := by decide
  open_ := rfl
  room := by decide

/-- The wave that a read of slot 3 finds is the block's. -/
theorem state_wave? : state.wave? ⟨0, 3⟩ = some (waveOf 1) := rfl

theorem state_block : tfind (state.core 0).blocks 1 = some block := rfl

/-- The machine has run the reset, and slot 3 still holds a wave: the second one that the table listed. -/
theorem wave?_of_exec {t : State} (runs : exec (.contextReset 0) state = .next t) : t.wave? ⟨0, 3⟩ = some (waveOf 2) := by
  have row : exec (.contextReset 0) state = execContextReset 0 state := rfl
  have found : (match execContextReset 0 state with | .next t => t.wave? ⟨0, 3⟩ | _ => none) = some (waveOf 2) := by decide
  rwa [← row, runs] at found

end SlotListedTwice

open SlotListedTwice in
/-- The reset of a context does not free every slot where a read finds a wave of its blocks, since the slot may be listed twice. -/
theorem not_contextCommands : ¬ ContextCommands := by
  intro claim
  obtain ⟨-, -, -, reset, -⟩ := claim 0 1 record state
  obtain ⟨t, runs, -, waves, -⟩ := reset command_contextReset
  have freed : t.wave? ⟨0, 3⟩ = none := waves ⟨0, 3⟩ (waveOf 1) block state_wave? rfl state_block rfl
  exact nomatch freed.symm.trans (wave?_of_exec runs)

/-- Refutes O42: CONTEXT-RESET of context 0 leaves a wave in slot 3 of core 0, in a state whose table of the core's waves lists that
slot twice, first with a wave of the context's block and then with one that names another block slot. Placement takes free slots only
(R199), so the fault is in the statement: it quantifies over every state and does not ask for a table without repeated slots. -/
theorem not_commandsOfContexts : ¬ Obligations.CommandsOfContexts := fun ⟨contexts, _⟩ => not_contextCommands contexts

end Sys2Proof.Machine
end

