-- ==== Sys2Proof/Proofs/ManagementRequests.lean ====
section
/-! PROOF. Requests of the management flow (R176 to R179, R181 to R183). -/

namespace Sys2Proof.Machine
open Sys2Proof.Claims

/-! A request that waits, and one that runs (R176, R183) -/

/-- No request waits, or this one alone. -/
def State.Alone (s : State) (op : Nat) (m : MgmtReq) : Prop := s.mgmt.inbox = [] ∨ s.mgmt.inbox = [(BitVec.ofNat 8 op, m)]

/-- No request waits any more. -/
def State.popped (s : State) : State := { s with mgmt := { s.mgmt with inbox := [] } }

/-- From `s` to `t` only the replies and the waiting requests change. -/
def State.OnlyReplies (s t : State) : Prop :=
  t = { s with mgmt := { s.mgmt with replies := t.mgmt.replies, inbox := t.mgmt.inbox } }

/-- A request that waits behind no other is answered, with this status and these data, and then none waits. -/
def Answers (i : Instr) (s : State) (m : MgmtReq) (op status : Nat) (data : List Byte) (P : State → Prop) : Prop :=
  s.Alone op m → Ends i s (fun t => P t ∧ t.mgmt.replies = s.mgmt.replies ++ [⟨op, status, m.tag, data⟩] ∧ t.mgmt.inbox = [])

/-- The row of a request serves it by `run`, which first takes it from the waiting ones. -/
structure Serves (i : Instr) (op : Nat) (m : MgmtReq) (run : State → MgmtReq → State) : Prop where
  row  : ∀ s, exec i s = served s (BitVec.ofNat 8 op) run m
  pops : ∀ s t : State, s.popRequest (BitVec.ofNat 8 op) m = t.popRequest (BitVec.ofNat 8 op) m → run s m = run t m

section
variable {s : State} {op len : Nat} {m : MgmtReq}

theorem State.popRequest_alone (alone : s.Alone op m) : s.popRequest (BitVec.ofNat 8 op) m = s.popped := by
  obtain empty | waits := alone
  · rw [State.popRequest_of_empty empty, State.popped, ← empty]
  · simp only [State.popRequest, waits, beq_self_eq_true, if_true, State.popped]

theorem State.request1_popped {act : State → State} (sound : reqOk m len = true) : s.popped.request1 op m len act = act s.popped :=
  State.request1_runs rfl sound

theorem Serves.of_request1 {i : Instr} {run : State → MgmtReq → State} {act : State → State}
    (row : ∀ s, exec i s = served s (BitVec.ofNat 8 op) run m) (checks : ∀ s : State, run s m = s.request1 op m len act) : Serves i op m run where
  row := row
  pops s t same := by rw [checks, checks, State.request1, State.request1, same]

theorem served_alone {run : State → MgmtReq → State} (up : s.manager = true) (steady : s.switching 0 = false) (alone : s.Alone op m)
    (left : (run s m).mgmt.inbox = []) : served s (BitVec.ofNat 8 op) run m = .next (run s m) := by
  refine (if_neg (by simp [up])).trans ((if_neg ?_).trans ?_)
  · obtain empty | waits := alone
    · simp [State.coreHeld, steady, empty]
    · simp [State.coreHeld, steady, waits]
  · simp only [State.serve_of_empty left]

end

namespace Serves
variable {i : Instr} {op status len : Nat} {m : MgmtReq} {run : State → MgmtReq → State} (h : Serves i op m run)
variable {s : State} (up : s.manager = true)
include h up

theorem waits (held : s.switching 0 = true) (empty : s.mgmt.inbox = []) :
    Ends i s (fun t => t = { s with mgmt := { s.mgmt with inbox := [(BitVec.ofNat 8 op, m)] } }) := by
  refine ⟨_, (h.row s).trans ((if_neg (by simp [up])).trans (if_pos (by simp [State.coreHeld, held]))), ?_⟩
  simp [empty]

variable (steady : s.switching 0 = false) {data : List Byte}
include steady

theorem answers {t : State} {P : State → Prop} (acts : run s.popped m = t.reply op status m.tag data) (replies : t.mgmt.replies = s.mgmt.replies)
    (left : t.mgmt.inbox = []) (holds : P (t.reply op status m.tag data)) : Answers i s m op status data P := by
  intro alone
  have popped : run s m = run s.popped m :=
    h.pops s s.popped ((State.popRequest_alone alone).trans (State.popRequest_of_empty rfl ..).symm)
  have runs : run s m = t.reply op status m.tag data := popped.trans acts
  refine ⟨t.reply op status m.tag data, ?_, holds, ?_, left⟩
  · rw [h.row, served_alone up steady alone (runs ▸ left), runs]
  · rw [← replies]
    rfl

theorem onlyAnswers (acts : run s.popped m = s.popped.reply op status m.tag data) : Answers i s m op status data s.OnlyReplies :=
  h.answers up steady acts rfl rfl rfl

theorem badArg {act : State → State} (checks : run s.popped m = s.popped.request1 op m len act) (bad : reqOk m len = false) :
    Answers i s m op 3 [] s.OnlyReplies :=
  h.onlyAnswers up steady (checks.trans (State.request1_refused rfl bad))

end Serves

/-! The rows -/

section
variable (m : MgmtReq)

theorem readCounters_serves : Serves (.readCounters m) 1 m State.runReadCounters := .of_request1 (fun _ => rfl) (fun _ => rfl)
theorem readHist_serves : Serves (.readHist m) 2 m State.runReadHist := .of_request1 (fun _ => rfl) (fun _ => rfl)
theorem clearSticky_serves : Serves (.clearSticky m) 3 m State.runClearSticky := .of_request1 (fun _ => rfl) (fun _ => rfl)
theorem recal_serves : Serves (.recal m) 6 m State.runRecal := .of_request1 (fun _ => rfl) (fun _ => rfl)
theorem qpSetup_serves : Serves (.qpSetup m) 8 m State.runQpSetup := .of_request1 (fun _ => rfl) (fun _ => rfl)
theorem qpTeardown_serves : Serves (.qpTeardown m) 9 m State.runQpTeardown := .of_request1 (fun _ => rfl) (fun _ => rfl)
theorem readLog_serves : Serves (.readLog m) 10 m State.runReadLog := .of_request1 (fun _ => rfl) (fun _ => rfl)

end

/-! The bytes that FW-STAGE leaves in a slot (R183) -/

/-- The staged bytes `old` with `new` written from byte `off` on. -/
def stagedImage (old new : List Byte) (off : Nat) : List Byte :=
  (old ++ List.replicate (off - old.length) 0).take off ++ new ++ old.drop (off + new.length)

theorem stagedImage_getD (old : List Byte) {new : List Byte} (off : Nat) {i : Nat} (h : i < new.length) :
    (stagedImage old new off).getD (off + i) 0 = new.getD i 0 := by
  have before : ((old ++ List.replicate (off - old.length) 0).take off).length = off := by
    simp only [List.length_take, List.length_append, List.length_replicate]
    omega
  rw [stagedImage, List.append_assoc, List.getD_append_right _ _ _ _ (by omega), before, Nat.add_sub_cancel_left,
    List.getD_append _ _ _ _ h]

/-- What FW-STAGE finds in the slot that it writes. -/
def Mgmt.inactiveImage (g : Mgmt) (u : Nat) : List Byte :=
  match tfind g.staged (u * 2 + (1 - g.active u)) with | some p => p.2 | none => []

/-- The image of a unit's inactive slot is written, and is the newest. -/
def Mgmt.stages (g : Mgmt) (u : Nat) (img : List Byte) : Mgmt :=
  { g with staged := tset g.staged (u * 2 + (1 - g.active u)) (g.nextImage, img), nextImage := g.nextImage + 1 }

/-- FW-STAGE by its checks. -/
theorem State.runFwStage_popped (s : State) (m : MgmtReq) :
    let u := field m.payload 0 1
    let img := stagedImage (s.mgmt.inactiveImage u) (m.payload.drop 2) (field m.payload 1 1)
    s.popped.runFwStage m =
      if m.rsv || m.len != m.payload.length || m.len < 2 || !units.contains u then s.popped.reply 4 3 m.tag []
      else if s.switching u then s.popped.reply 4 4 m.tag []
      else ({ s.popped with mgmt := s.popped.mgmt.stages u img } : State).reply 4 0 m.tag [] := rfl

theorem fwStage_serves (m : MgmtReq) : Serves (.fwStage m) 4 m State.runFwStage where
  row _ := rfl
  pops s t same := by
    simp only [State.runFwStage]
    rw [show s.popRequest 4 m = t.popRequest 4 m from same]

/-! CALREQ of a port (R177) -/

theorem State.mgmt_sendTear (s : State) (e code : Nat) : (s.sendTear e code).mgmt = s.mgmt :=
  (congrArg State.mgmt (State.Plane.sendPacket s _).rest :)

theorem State.mgmt_releasedTears (s : State) (p : Nat) : (s.releasedTears p).mgmt = s.mgmt :=
  State.each_same State.mgmt _ (fun s (e : Nat × Circuit) => s.mgmt_sendTear e.1 0) _ s

/-- A TRAINED port recalibrates, and the write is not refused. -/
theorem State.writeCal_recalibrates {s : State} {p : Nat} (trained : (s.port p).st = 2) :
    (s.writeCal p).mem = s.mem ∧ (s.writeCal p).mgmt = s.mgmt ∧ ((s.writeCal p).port p).st = 1 ∧ ((s.writeCal p).port p).recal = true ∧
      ((s.writeCal p).port p).badreq = (s.port p).badreq := by
  rw [State.writeCal_trained trained, State.mgmt_releasedTears, State.port_releasedTears, State.port_after,
    (State.same_of_frame (State.frame_releasedTears _ p)).1]
  generalize locks : s.setPort p ((s.port p).recalibrates s.now) = u
  have port : u.port p = (s.port p).recalibrates s.now := by rw [← locks, State.port_setPort]
  have mgmt : ((u.portMove p).loopLight p).mgmt = u.mgmt :=
    (congrArg State.mgmt ((State.offLink_loopLight (u.portMove p) p).trans (State.Moves.portMove u p).rest) :)
  obtain ⟨fr, fa, la, tr, rl, mm, moved⟩ := State.port_moveLight (s := u) (p := p) (by rw [port]; exact (by decide : (1 : BitVec 2) ≠ 3))
  rw [moved, port]
  refine ⟨?_, mgmt.trans ?_, rfl, rfl, rfl⟩
  · exact (State.same_of_frame State.frame_moveLight).1.trans (by rw [← locks]; rfl)
  · rw [← locks]
    rfl

theorem State.writeCal_refuses {s : State} {p : Nat} (other : (s.port p).st ≠ 2) :
    (s.writeCal p).mem = s.mem ∧ (s.writeCal p).mgmt = s.mgmt ∧ ((s.writeCal p).port p).badreq = true ∧
      ((s.writeCal p).port p).lasterr = 6 := by
  rw [State.writeCal_refused other, State.port_setPort]
  exact ⟨rfl, rfl, rfl, rfl⟩

/-- BADREQ of a port is `v`. -/
def State.setBadreq (s : State) (p : Nat) (v : Bool) : State := s.setPort p { s.port p with badreq := v }

theorem State.port_setBadreq (s : State) (p : Nat) (v : Bool) : (s.setBadreq p v).port p = { s.port p with badreq := v } := State.port_setPort ..

/-- RECAL of a port writes CALREQ with BADREQ clear, and answers by the BADREQ that the write sets. -/
theorem State.runRecal_popped {s : State} {m : MgmtReq} (sound : reqOk m 1 = true) (named : field m.payload 0 1 < 32) {t : State}
    (writes : (s.popped.setBadreq (field m.payload 0 1) false).writeCal (field m.payload 0 1) = t) {refused : Bool}
    (verdict : (t.port (field m.payload 0 1)).badreq = refused) : s.popped.runRecal m =
      (t.setBadreq (field m.payload 0 1) ((s.port (field m.payload 0 1)).badreq || refused)).reply 6 (if refused then 4 else 0) m.tag [] := by
  subst writes verdict
  exact (State.request1_popped sound).trans (if_neg (by omega))

/-! The answers -/

section
variable {s : State} (up : s.manager = true) (steady : s.switching 0 = false) {m : MgmtReq}
include up steady

theorem readHist_answers (sound : reqOk m 1 = true) :
    let b0 := field m.payload 0 1
    (2 ≤ b0 → b0 ≤ 8 → Answers (.readHist m) s m 2 0 ((List.range 32).flatMap (fun i => leBytes 4 (tget 0 s.mgmt.hist (32 * b0 + i))))
      s.OnlyReplies) ∧
    (b0 < 2 ∨ 8 < b0 → Answers (.readHist m) s m 2 3 [] s.OnlyReplies) :=
  ⟨fun low high => (readHist_serves m).onlyAnswers up steady
      ((State.request1_popped sound).trans (if_neg (by simp only [Bool.or_eq_true, decide_eq_true_eq]; omega))),
    fun unnamed => (readHist_serves m).onlyAnswers up steady ((State.request1_popped sound).trans (if_pos (by simpa using unnamed)))⟩

/-- Bits of the mask that name no event of MODPWR are ignored, and the answer is OK (the model's choice, log 61). -/
theorem clearSticky_answers (sound : reqOk m 4 = true) : Answers (.clearSticky m) s m 3 0 [] (fun t =>
    t = { s with mgmt := t.mgmt, modl := { s.modl with
      uvwarn := s.modl.uvwarn && !bit (field m.payload 0 4) 3, ovoff := s.modl.ovoff && !bit (field m.payload 0 4) 2
      plimev := s.modl.plimev && !bit (field m.payload 0 4) 1 } }) :=
  (clearSticky_serves m).answers up steady (State.request1_popped sound) rfl rfl rfl

theorem fwStage_answers (clean : m.rsv = false) (whole : m.len = m.payload.length) (two : 2 ≤ m.len) (unit : field m.payload 0 1 ∈ units) :
    let l := m.payload
    let b0 := field l 0 1
    let g := s.mgmt
    (s.switching b0 = false → Answers (.fwStage m) s m 4 0 [] (fun t =>
      t = { s with mgmt := t.mgmt } ∧ ∃ img : List Byte, t.mgmt.staged = tset g.staged (b0 * 2 + (1 - g.active b0)) (g.nextImage, img) ∧
        (∀ i, i < l.length - 2 → img.getD (field l 1 1 + i) 0 = l.getD (i + 2) 0) ∧ t.mgmt.slots = g.slots)) ∧
    (s.switching b0 = true → Answers (.fwStage m) s m 4 4 [] s.OnlyReplies) := by
  intro l b0 g
  have checks : ¬ (m.rsv || m.len != m.payload.length || m.len < 2 || !units.contains (field m.payload 0 1)) = true := by
    simpa [clean, ← whole, unit, Nat.lt_iff_add_one_le] using two
  have acts := (s.runFwStage_popped m).trans (if_neg checks)
  refine ⟨fun idle => ?_, fun busy => (fwStage_serves m).onlyAnswers up steady (acts.trans (if_pos busy))⟩
  refine (fwStage_serves m).answers up steady (acts.trans (if_neg (ne_true_of_eq_false idle))) rfl rfl ⟨rfl, _, rfl, fun i inside => ?_, rfl⟩
  rw [stagedImage_getD _ _ (by simpa using inside), List.getD_eq_getElem?_getD, List.getElem?_drop, Nat.add_comm, List.getD_eq_getElem?_getD]

theorem fwStage_badArg (bad : m.rsv = true ∨ m.len ≠ m.payload.length ∨ m.len < 2 ∨ field m.payload 0 1 ∉ units) :
    Answers (.fwStage m) s m 4 3 [] s.OnlyReplies :=
  (fwStage_serves m).onlyAnswers up steady ((s.runFwStage_popped m).trans (if_pos (by simpa [or_assoc] using bad)))

theorem recal_answers (sound : reqOk m 1 = true) :
    let b0 := field m.payload 0 1
    (b0 < 32 → (s.port b0).st = 2 → Answers (.recal m) s m 6 0 [] (fun t =>
      t.mem = s.mem ∧ (t.port b0).st = 1 ∧ (t.port b0).recal = true ∧ (t.port b0).badreq = (s.port b0).badreq)) ∧
    (b0 < 32 → (s.port b0).st ≠ 2 → Answers (.recal m) s m 6 4 [] (fun t =>
      t.mem = s.mem ∧ (t.port b0).badreq = true ∧ (t.port b0).lasterr = 6)) ∧
    (32 ≤ b0 → Answers (.recal m) s m 6 3 [] s.OnlyReplies) := by
  intro b0
  have port : (s.popped.setBadreq b0 false).port b0 = { s.port b0 with badreq := false } := State.port_setBadreq ..
  refine ⟨fun named trained => ?_, fun named other => ?_, fun unnamed => ?_⟩
  · obtain ⟨mem, mgmt, st, recal, kept⟩ := State.writeCal_recalibrates (s := s.popped.setBadreq b0 false) (p := b0) (by rw [port]; exact trained)
    generalize writes : (s.popped.setBadreq b0 false).writeCal b0 = t at mem mgmt st recal kept
    have granted : (t.port b0).badreq = false := kept.trans (congrArg Port.badreq port)
    have last := t.port_setBadreq b0 ((s.port b0).badreq || false)
    exact (recal_serves m).answers up steady (State.runRecal_popped sound named writes granted) (congrArg Mgmt.replies mgmt :)
      (congrArg Mgmt.inbox mgmt :) ⟨mem, (congrArg Port.st last).trans st, (congrArg Port.recal last).trans recal,
        (congrArg Port.badreq last).trans (Bool.or_false _)⟩
  · obtain ⟨mem, mgmt, refused, err⟩ := State.writeCal_refuses (s := s.popped.setBadreq b0 false) (p := b0) (by rw [port]; exact other)
    generalize writes : (s.popped.setBadreq b0 false).writeCal b0 = t at mem mgmt refused err
    have last := t.port_setBadreq b0 ((s.port b0).badreq || true)
    exact (recal_serves m).answers up steady (State.runRecal_popped sound named writes refused) (congrArg Mgmt.replies mgmt :)
      (congrArg Mgmt.inbox mgmt :) ⟨mem, (congrArg Port.badreq last).trans (Bool.or_true _), (congrArg Port.lasterr last).trans err⟩
  · exact (recal_serves m).onlyAnswers up steady ((State.request1_popped sound).trans (if_pos unnamed))

theorem qpSetup_answers (sound : reqOk m 48 = true) :
    let b0 := field m.payload 0 1
    let g := s.mgmt
    (qpOk m.payload = true → tfind g.qps (b0 % 64) = none → Answers (.qpSetup m) s m 8 0 [] (fun t => t = { s with mgmt := t.mgmt } ∧
      t.mgmt.qps = tset g.qps (b0 % 64)
        ⟨m.payload, BitVec.ofNat 24 (bits (field m.payload 8 8) 55 32), BitVec.ofNat 24 (bits (field m.payload 8 8) 23 0)⟩)) ∧
    (qpOk m.payload = true → (tfind g.qps (b0 % 64)).isSome = true → Answers (.qpSetup m) s m 8 4 [] s.OnlyReplies) ∧
    (qpOk m.payload = false → Answers (.qpSetup m) s m 8 3 [] s.OnlyReplies) := by
  intro b0 g
  refine ⟨fun ok unused => ?_, fun ok used => ?_, fun bad => ?_⟩
  · exact (qpSetup_serves m).answers up steady ((State.request1_popped sound).trans ((if_neg (by simp [ok])).trans
      (if_neg (Option.not_isSome_iff_eq_none.mpr unused)))) rfl rfl ⟨rfl, rfl⟩
  · exact (qpSetup_serves m).onlyAnswers up steady ((State.request1_popped sound).trans ((if_neg (by simp [ok])).trans (if_pos used)))
  · exact (qpSetup_serves m).onlyAnswers up steady ((State.request1_popped sound).trans (if_pos (by simp [bad])))

theorem qpTeardown_answers (sound : reqOk m 1 = true) :
    let b0 := field m.payload 0 1
    (b0 < 64 → Answers (.qpTeardown m) s m 9 0 [] (fun t => t = { s with mgmt := t.mgmt } ∧ tfind t.mgmt.qps b0 = none ∧
      ∀ k, k ≠ b0 → tfind t.mgmt.qps k = tfind s.mgmt.qps k)) ∧
    (64 ≤ b0 → Answers (.qpTeardown m) s m 9 3 [] s.OnlyReplies) :=
  ⟨fun named => (qpTeardown_serves m).answers up steady ((State.request1_popped sound).trans (if_neg (by omega))) rfl rfl
      ⟨rfl, (tfind_tdel ..).trans (if_pos rfl), fun _ other => (tfind_tdel ..).trans (if_neg other)⟩,
    fun unnamed => (qpTeardown_serves m).onlyAnswers up steady ((State.request1_popped sound).trans (if_pos unnamed))⟩

theorem readLog_answers (sound : reqOk m 4 = true) :
    let first := BitVec.ofNat 32 (field m.payload 0 4)
    let l := s.mgmt.log
    ((∃ e ∈ l, e.index = first) → Answers (.readLog m) s m 10 0
      (((l.dropWhile (fun e => e.index != first)).take 340).flatMap logBytes) s.OnlyReplies) ∧
    ((∀ e ∈ l, e.index ≠ first) → Answers (.readLog m) s m 10 0 ((l.take 340).flatMap logBytes) s.OnlyReplies) := by
  intro first l
  have answer (from_ : List LogEntry) (h : (if l.any (fun e => e.index == first) then l.dropWhile (fun e => e.index != first) else l) = from_) :
      Answers (.readLog m) s m 10 0 ((from_.take 340).flatMap logBytes) s.OnlyReplies :=
    (readLog_serves m).onlyAnswers up steady ((State.request1_popped sound).trans
      (congrArg (fun from_ => s.popped.reply 10 0 m.tag ((from_.take 340).flatMap logBytes)) h))
  exact ⟨fun held => answer _ (if_pos (by simpa using held)), fun gone => answer _ (if_neg (by simpa using gone))⟩

end

/-- Settles O44: a held request waits, one of a wrong length is refused, and each sound one is answered as its checks say. -/
theorem managementRequests : Obligations.ManagementRequests := by
  intro m s up g l rep only b0 held
  refine ⟨fun switching empty => ⟨(readCounters_serves m).waits up switching empty, (readHist_serves m).waits up switching empty,
      (clearSticky_serves m).waits up switching empty, (fwStage_serves m).waits up switching empty, (recal_serves m).waits up switching empty,
      (qpSetup_serves m).waits up switching empty, (qpTeardown_serves m).waits up switching empty, (readLog_serves m).waits up switching empty⟩,
    fun steady => ?_⟩
  exact ⟨(readCounters_serves m).badArg up steady rfl, (readHist_serves m).badArg up steady rfl, (clearSticky_serves m).badArg up steady rfl,
    (recal_serves m).badArg up steady rfl, (qpSetup_serves m).badArg up steady rfl, (qpTeardown_serves m).badArg up steady rfl,
    (readLog_serves m).badArg up steady rfl,
    fun sound => (readCounters_serves m).onlyAnswers up steady (State.request1_popped sound),
    fun sound => (readHist_answers up steady sound).1, fun sound => (readHist_answers up steady sound).2,
    clearSticky_answers up steady,
    fun clean whole two unit => (fwStage_answers up steady clean whole two unit).1,
    fun clean whole two unit => (fwStage_answers up steady clean whole two unit).2, fwStage_badArg up steady,
    fun sound => (recal_answers up steady sound).1, fun sound => (recal_answers up steady sound).2.1,
    fun sound => (recal_answers up steady sound).2.2,
    fun sound => (qpSetup_answers up steady sound).1, fun sound => (qpSetup_answers up steady sound).2.1,
    fun sound => (qpSetup_answers up steady sound).2.2,
    fun sound => (qpTeardown_answers up steady sound).1, fun sound => (qpTeardown_answers up steady sound).2,
    fun sound => (readLog_answers up steady sound).1, fun sound => (readLog_answers up steady sound).2⟩

end Sys2Proof.Machine
end

