-- ==== Sys2Proof/Proofs/LaunchesAndSignals.lean ====
section
/-! PROOF. LAUNCH and SIGQ (R94, R175, R187, R211, R318, R410, R411): the place of a pushed pointer in its queue, and the target that a soft
interrupt reaches; and the settling of the obligation on them. -/

namespace Sys2Proof.Machine
open Sys2Proof.Claims

/-! Releases (R187, R318) -/

section
variable {s : State} {r : WaveRef} {w : Wave} {f : Fragment}

theorem State.drainAll_of_empty {core : Nat} (empty : (s.core core).wcb = []) : s.drainAll core = s := by
  rw [State.drainAll, empty]
  rfl

theorem noTxn_outside (outside : w.inTxn f.id = false) (k : Unit → Out) : noTxn s r w f k = k () := if_neg (by simp [outside])

/-- A release at `.dev` with nothing left to perform goes on at once. -/
theorem releaseDev_performed (ops : w.ops = []) (after : ∀ a ∈ f.after, w.unissued a = false) (empty : (s.core r.core).wcb = [])
    (k : State → Out) : releaseDev s r w f k = k s := by
  rw [releaseDev, State.drainAll_of_empty empty]
  exact if_neg (by simpa [ops] using after)

/-- The fragment goes on with the next word, and nothing else changes. -/
theorem State.next_goesOn (wave : s.wave? r = some w) (frag : w.frag? f.id = some f) : ∃ w' : Wave, s.next r f.id = s.setWave r w' ∧
    w' = { w with frags := w'.frags } ∧ w'.frag? f.id = some { f with pc := f.pc + 4, waitSince := none } := by
  refine ⟨_, State.updFrag_eq wave _ _, rfl, ?_⟩
  rw [Wave.frag?_updFrag, if_pos rfl, frag]
  · rfl
  · exact fun _ => rfl

end

/-! LAUNCH (R187, R410) -/

/-- `t` is `s` but for the hardware queues and the events that fall due. -/
def State.PushOnly (s t : State) : Prop := t = { s with queues := t.queues, timers := t.timers }

section
variable {s : State} {x q : Nat} {a : DWord}

theorem State.push_stranger (r : WaveRef) (h : 64 ≤ q ∨ (s.hq q).ctx ≠ some x) : s.push x q a (some r) = (2, s) :=
  if_pos (by simpa using h)

variable (r : WaveRef) (low : q < 64) (bound : (s.hq q).ctx = some x)
include low bound

theorem State.push_misaligned (h : a.toNat % 256 ≠ 0) : s.push x q a (some r) = (3, s) := by
  simp [State.push, Nat.not_le.mpr low, bound, h]

variable (aligned : a.toNat % 256 = 0)
include aligned

theorem State.push_noRoom (full : 256 ≤ (s.hq q).ptrs.length) : s.push x q a (some r) = (1, s) := by
  simp [State.push, Nat.not_le.mpr low, bound, aligned, full]

theorem State.push_joins (room : (s.hq q).ptrs.length < 256) : ∃ v, s.push x q a (some r) = (0, v) ∧ s.PushOnly v ∧
    (v.hq q).ptrs = ((s.hq q).append s.now (r.core * 64 + r.slot) a).ptrs ∧ ∀ j, j ≠ q → v.hq j = s.hq j :=
  ⟨(s.setHq q ((s.hq q).append s.now (r.core * 64 + r.slot) a)).after 1 (.recordStart (BitVec.ofNat 6 q)),
    by simp [State.push, Nat.not_le.mpr low, bound, aligned, Nat.not_le.mpr room], rfl,
    congrArg Queue.ptrs (State.hq_setHq ..), fun _ other => State.hq_setHq_ne _ _ _ other⟩

end

/-- The second parts of pairs are those of the second list, where the lists are of one length. -/
theorem map_snd_zip_drop {h : Queue} {keys : List Nat} {k : Nat} (few : k ≤ keys.length) (fits : k ≤ h.ptrs.length) :
    ((keys.drop (keys.length - k)).zip (h.ptrs.drop (h.ptrs.length - k))).map Prod.snd = h.ptrs.drop (h.ptrs.length - k) :=
  List.map_snd_zip (by simp; omega)

/-- Behind pushes of the same time by waves of lower cores and slots, and behind every earlier push, a pointer comes last (R410). -/
theorem Queue.append_last (h : Queue) (now key : Nat) (a : DWord) (lower : h.pushedAt = now → ∀ k ∈ h.pushed, k ≤ key) :
    (h.append now key a).ptrs = h.ptrs ++ [a] := by
  unfold Queue.append
  extract_lets keys k n l l'
  have low : ∀ p ∈ l, p.1 ≤ key := by
    intro p hp
    have hp : p.1 ∈ keys := List.mem_of_mem_drop (List.of_mem_zip hp).1
    by_cases same : h.pushedAt = now
    · exact lower same _ (by simpa [keys, same] using hp)
    · simp [keys, same] at hp
  have before : l.filter (fun p => decide (p.1 ≤ key)) = l := List.filter_eq_self.mpr (by simpa using low)
  have behind : l.filter (fun p => decide (key < p.1)) = [] := List.filter_eq_nil_iff.mpr (by simpa using low)
  have pairs : l.map Prod.snd = h.ptrs.drop n := map_snd_zip_drop (by omega) (by omega)
  change h.ptrs.take n ++ l'.map Prod.snd = _
  rw [show l' = l ++ [(key, a)] by simp only [l', before, behind], List.map_append, pairs, ← List.append_assoc, List.take_append_drop]
  rfl

/-- Before pushes of the same time by waves of higher cores and slots (R410). -/
theorem Queue.append_before (h : Queue) (now key : Nat) (a : DWord) (same : h.pushedAt = now) (higher : ∀ k ∈ h.pushed, key < k)
    (fits : h.pushed.length < h.ptrs.length) : (h.append now key a).ptrs =
      h.ptrs.take (h.ptrs.length - h.pushed.length) ++ a :: h.ptrs.drop (h.ptrs.length - h.pushed.length) := by
  unfold Queue.append
  extract_lets keys k n l l'
  have all : keys = h.pushed := by simp [keys, same]
  have one : bnat (h.head.isSome || h.fault.isSome) ≤ 1 := by unfold bnat; split <;> omega
  have count : k = h.pushed.length := by simp only [k, all]; omega
  have high : ∀ p ∈ l, key < p.1 := fun p hp => higher _ (all ▸ List.mem_of_mem_drop (List.of_mem_zip hp).1)
  have before : l.filter (fun p => decide (p.1 ≤ key)) = [] := List.filter_eq_nil_iff.mpr (by simpa using high)
  have behind : l.filter (fun p => decide (key < p.1)) = l := List.filter_eq_self.mpr (by simpa using high)
  have pairs : l.map Prod.snd = h.ptrs.drop n := map_snd_zip_drop (by omega) (by omega)
  change h.ptrs.take n ++ l'.map Prod.snd = _
  rw [show l' = (key, a) :: l by simp only [l', before, behind]; rfl, List.map_cons, pairs, show n = h.ptrs.length - h.pushed.length by rw [← count]]

section
variable {s : State} {r : WaveRef} {w : Wave} {f : Fragment}

/-- LAUNCH with its release done writes what the push answers (R410). -/
theorem launch_ends {d a b : BitVec 6} (h : Scalar s r w f [d.toNat, a.toNat, a.toNat + 1, b.toNat]) (outside : w.inTxn f.id = false)
    (ops : w.ops = []) (after : ∀ a ∈ f.after, w.unissued a = false) (empty : (s.core r.core).wcb = []) {q : Nat} {c : Nat} {v : State}
    {ptrs : List DWord} (named : (w.rd f b.toNat).toNat = q)
    (push : s.push w.ctx q (w.rd f (a.toNat + 1) ++ w.rd f a.toNat) (some r) = (c, v)) (only : s.PushOnly v)
    (joined : (v.hq q).ptrs = ptrs) (others : ∀ j, j ≠ q → v.hq j = s.hq j) :
    Ends (.launch d a b) s (fun t => t.mem = s.mem ∧ (t.hq q).ptrs = ptrs ∧ (∀ j, j ≠ q → t.hq j = s.hq j) ∧
      ∃ (w' : Wave) (f' : Fragment), t.wave? r = some w' ∧ w'.frag? f.id = some f' ∧ f'.pc = f.pc + 4 ∧
        w' = { w with sreg := w'.sreg, frags := w'.frags } ∧ ∀ n, n < 64 → w'.rd f' n = regAfter w f [(d.toNat, BitVec.ofNat 32 c)] n) := by
  subst named
  have wave : v.wave? r = some w := by rw [only]; exact h.wave
  have run : exec (.launch d a b) s = .next ((v.setWave r (w.wr f.id d.toNat (BitVec.ofNat 32 c))).next r f.id) := by
    change execLaunch d a b s = _
    rw [execLaunch, scalarOp_of h, noTxn_outside outside, releaseDev_performed ops after empty]
    simp only [srcWord, Wave.rdPair, push, State.updWave_eq wave]
  obtain ⟨w', f', set, wave', frag, regs, -, same, pc, -⟩ :=
    wrote_next (s := v) (r := r) [(d.toNat, BitVec.ofNat 32 c)] h.frag (by simpa using d.isLt) (by simp)
  refine ⟨_, run, ?_⟩
  change (v.setWave r (w.wr f.id d.toNat (BitVec.ofNat 32 c))).next r f.id = _ at set
  rw [set]
  exact ⟨by rw [State.setWave_mem, only], joined, others, w', f', State.wave?_setWave .., frag, by rw [pc], same, regs⟩

theorem launchPushes : LaunchPushes := by
  intro d a b s r w f h outside ops after empty q addr key ends
  have ends_of {c v ptrs} := launch_ends (c := c) (v := v) (ptrs := ptrs) h outside ops after empty rfl
  refine ⟨fun stranger => ends_of (State.push_stranger r stranger) rfl rfl fun _ _ => rfl,
    fun low bound odd => ends_of (State.push_misaligned r low bound odd) rfl rfl fun _ _ => rfl,
    fun low bound aligned full => ends_of (State.push_noRoom r low bound aligned full) rfl rfl fun _ _ => rfl,
    fun low bound aligned room lower => ?_, fun low bound aligned room same higher fits => ?_⟩
  · obtain ⟨v, push, only, joined, others⟩ := State.push_joins r low bound aligned room
    exact ends_of push only (joined.trans (Queue.append_last _ _ _ _ lower)) others
  · obtain ⟨v, push, only, joined, others⟩ := State.push_joins r low bound aligned room
    exact ends_of push only (joined.trans (Queue.append_before _ _ _ _ same higher fits)) others

end

/-! SIGQ (R94, R175, R211, R318, R411) -/

section
variable {s : State} {x : Nat} {t : Nat} {v : Word}

theorem State.sigWrite_queue (low : t < 64) (bound : (s.hq t).ctx = some x) : s.sigWrite x (t / 64) (t % 64) v = some (s.writeQwake t v) := by
  simp [State.sigWrite, Nat.div_eq_of_lt low, Nat.mod_eq_of_lt low, low, bound]

theorem State.sigWrite_thread (high : 64 ≤ t) (low : t < 68) (open_ : (s.gth (t - 64)).ctx = none ∨ (s.gth (t - 64)).ctx = some x) :
    s.sigWrite x (t / 64) (t % 64) v = some (s.writeGwake (t - 64) v) := by
  have kind : t / 64 = 1 := by omega
  have idx : t % 64 = t - 64 := by omega
  have four : t - 64 < 4 := by omega
  have permitted : ((s.gth (t - 64)).ctx == some x || (s.gth (t - 64)).ctx.isNone) = true := by simpa [or_comm] using open_
  simp [State.sigWrite, kind, idx, four, permitted]

/-- Any other target is none of the context's. -/
theorem State.sigWrite_bad (queue : t < 64 → (s.hq t).ctx ≠ some x)
    (thread : 64 ≤ t → t < 68 → (s.gth (t - 64)).ctx ≠ none ∧ (s.gth (t - 64)).ctx ≠ some x) (core : t ≠ 128) (byte : t < 256) :
    s.sigWrite x (t / 64) (t % 64) v = none := by
  unfold State.sigWrite
  split
  case h_1 kind =>
    have low : t < 64 := by omega
    simp [Nat.mod_eq_of_lt low, queue low]
  case h_2 kind =>
    have idx : t % 64 = t - 64 := by omega
    refine if_neg ?_
    simp only [Bool.and_eq_true, Bool.or_eq_true, beq_iff_eq, decide_eq_true_iff, Option.isNone_iff_eq_none, idx]
    rintro ⟨four, mine | free⟩
    · exact (thread (by omega) (by omega)).2 mine
    · exact (thread (by omega) (by omega)).1 free
  case h_3 kind => exact if_neg (by simp only [beq_iff_eq]; omega)
  case h_4 => rfl

end

section
variable {s : State} {r : WaveRef} {w : Wave} {f : Fragment} {a b : BitVec 6} (h : Scalar s r w f [a.toNat, b.toNat])
  (outside : w.inTxn f.id = false) (ops : w.ops = []) (after : ∀ a ∈ f.after, w.unissued a = false) (empty : (s.core r.core).wcb = [])
include h outside ops after empty

/-- SIGQ with its release done, by the write that its target permits. -/
theorem exec_sigq : let t := (w.rd f a.toNat).toNat
    exec (.sigq a b) s = match (if t < 256 then s.sigWrite w.ctx (t / 64) (t % 64) (w.rd f b.toNat) else none) with
      | some s => .next (s.next r f.id)
      | none => .next (s.scalarTrap r f.id 7 0) := by
  change execSigq a b s = _
  rw [execSigq, scalarOp_of h, noTxn_outside outside, releaseDev_performed ops after empty]
  rfl

/-- Where the target takes the value the fragment goes on, and nothing but the target's register changes. -/
theorem sigq_ends {v : State} {P : State → Prop} (byte : (w.rd f a.toNat).toNat < 256)
    (write : s.sigWrite w.ctx ((w.rd f a.toNat).toNat / 64) ((w.rd f a.toNat).toNat % 64) (w.rd f b.toNat) = some v)
    (cores : v.cores = s.cores) (holds : ∀ w', P (v.setWave r w')) : Ends (.sigq a b) s (fun t =>
      (∃ w' : Wave, t.wave? r = some w' ∧ w' = { w with frags := w'.frags } ∧
        w'.frag? f.id = some { f with pc := f.pc + 4, waitSince := none }) ∧ P t) := by
  have wave : v.wave? r = some w := by rw [State.wave?, State.core, cores]; exact h.wave
  obtain ⟨w', set, same, frag⟩ := State.next_goesOn wave h.frag
  refine ⟨v.setWave r w', ?_, ⟨w', State.wave?_setWave .., same, frag⟩, holds w'⟩
  rw [exec_sigq h outside ops after empty, if_pos byte, write, ← set]

end

theorem softInterrupts : SoftInterrupts := by
  intro a b s r w f h outside ops after empty x v on_
  refine ⟨fun low bound => ?queue, fun high low open_ => ?thread, fun core => ?mark, fun queue thread core => ?bad⟩
  case queue =>
    refine sigq_ends h outside ops after empty (by omega) (State.sigWrite_queue low bound) (by rw [State.writeQwake, State.post_eq]; rfl) fun w' => ?_
    rw [State.writeQwake, State.post_eq]
    exact ⟨State.hq_setHq .., rfl⟩
  case thread =>
    exact sigq_ends h outside ops after empty (by omega) (State.sigWrite_thread high low open_) rfl fun w' => ⟨State.gth_setGth .., rfl⟩
  case mark =>
    have write : s.sigWrite w.ctx (x / 64) (x % 64) v = some (s.writeMbwake v) := by rw [core]; rfl
    refine sigq_ends h outside ops after empty (by omega) write rfl fun w' => ⟨rfl, rfl, fun mark on boot steady => ?_⟩
    rw [State.readMark_log ((s.writeMbwake v).setWave r w') mark on boot steady]
    exact ⟨rfl, _, State.getLast?_logEntry .., rfl, rfl, rfl⟩
  case bad =>
    refine ⟨_, ?_, rfl⟩
    rw [exec_sigq h outside ops after empty]
    split
    next hit =>
      split at hit
      next byte => exact absurd (hit.symm.trans (State.sigWrite_bad queue thread core byte)) (by simp)
      next => contradiction
    next => rfl

/-- Settles O12: the claim on LAUNCH, and the claim on SIGQ. -/
theorem launchesAndSignals : Obligations.LaunchesAndSignals := ⟨launchPushes, softInterrupts⟩

end Sys2Proof.Machine
end

