-- ==== Sys2Proof/Proofs/Launches.lean ====
section
/-! PROOF. How launches start, are refused, wait and complete (R188, R189, R193, R201, R209); and the settling of the obligation on them. -/

namespace Sys2Proof.Machine
open Sys2Proof.Claims

/-! What dispatchers do beside their queues (R201, R206) -/

/-- An event that is possible stays possible as others become possible. -/
theorem State.mem_queue_post_of_mem {s : State} {i : Instr} (h : i ∈ s.queue) (j : Instr) : i ∈ (s.post j).queue := by
  unfold State.post
  split
  · exact h
  · exact List.mem_append_left _ h

@[simp] theorem State.hq_post (s : State) (i : Instr) (q : Nat) : (s.post i).hq q = s.hq q := by rw [State.post_eq]; rfl

/-- `t` is `s` but for the dispatchers' registers and event queues, and for events. -/
def State.DiesOnly (s t : State) : Prop := t = { s with queue := t.queue, dies := t.dies, timers := t.timers }

theorem State.DiesOnly.trans {s t u : State} (st : s.DiesOnly t) (tu : t.DiesOnly u) : s.DiesOnly u := by
  unfold State.DiesOnly at *
  rw [tu, st]

/-- The reserve makes no event possible now. -/
theorem State.reserve_eq (s : State) (d : Nat) : s.reserve d = { s with dies := (s.reserve d).dies, timers := (s.reserve d).timers } := by
  simp only [State.reserve]
  split
  · rfl
  · rfl

theorem State.DiesOnly.reserve (s : State) (d : Nat) : s.DiesOnly (s.reserve d) := by
  unfold State.DiesOnly
  rw [State.reserve_eq]

theorem State.DiesOnly.post (s : State) (i : Instr) : s.DiesOnly (s.post i) := by
  unfold State.DiesOnly
  rw [State.post_eq]

theorem State.DiesOnly.depSeen (s : State) (q : Nat) : s.DiesOnly (s.depSeen q) := by
  unfold State.depSeen
  split
  · split
    · exact .post ..
    · rfl
  · rfl

theorem State.DiesOnly.evNext (s : State) (d : Nat) : s.DiesOnly (s.evNext d) := by
  unfold State.evNext
  split
  · exact .post ..
  · exact .post ..
  · rfl

section
variable {s t : State} (only : s.DiesOnly t)
include only

theorem State.DiesOnly.mem : t.mem = s.mem := by rw [only]
theorem State.DiesOnly.runs : t.runs = s.runs := by rw [only]
theorem State.DiesOnly.queues : t.queues = s.queues := by rw [only]
theorem State.DiesOnly.outHost : t.outHost = s.outHost := by rw [only]
theorem State.DiesOnly.hq (q : Nat) : t.hq q = s.hq q := by rw [only]; rfl
theorem State.DiesOnly.run? (id : Nat) : t.run? id = s.run? id := by rw [only]; rfl

end

theorem State.TlbOnly.runs {s t : State} (only : s.TlbOnly t) : t.runs = s.runs := by rw [only]

theorem State.TlbOnly.hq {s t : State} (only : s.TlbOnly t) (q : Nat) : t.hq q = s.hq q := by rw [only]; rfl

/-! The heads of queues under a store (R201) -/

/-- From `s` to `t` no queue has changed but in its head. -/
def State.KeepsQueues (s t : State) : Prop := ∀ q, ∃ hd, t.hq q = { s.hq q with head := hd }

theorem State.KeepsQueues.refl (s : State) : s.KeepsQueues s := fun q => ⟨(s.hq q).head, rfl⟩

theorem State.KeepsQueues.trans {s t u : State} (st : s.KeepsQueues t) (tu : t.KeepsQueues u) : s.KeepsQueues u := by
  intro q
  obtain ⟨hd, ht⟩ := st q
  obtain ⟨hd', hu⟩ := tu q
  exact ⟨hd', by rw [hu, ht]⟩

theorem State.KeepsQueues.of_queues {s t : State} (h : t.queues = s.queues) : s.KeepsQueues t :=
  fun q => ⟨(s.hq q).head, by rw [State.hq, h]; rfl⟩

theorem State.KeepsQueues.touchQueue (s : State) (lines : List Nat) (q : Nat) : s.KeepsQueues (s.touchQueue lines q) := by
  simp only [State.touchQueue]
  split
  · exact .refl s
  split
  · exact .refl s
  intro j
  rw [State.hq_post, State.hq_setDie]
  by_cases same : j = q
  · subst same
    exact ⟨_, State.hq_setHq ..⟩
  · exact ⟨(s.hq j).head, State.hq_setHq_ne _ _ _ same⟩

theorem State.KeepsQueues.touchStream (s : State) (lines : List Nat) (n : Nat) : s.KeepsQueues (s.touchStream lines n) := by
  simp only [State.touchStream]
  split
  · exact .of_queues (by rw [State.post_eq])
  · exact .refl s

theorem State.KeepsQueues.store (s : State) (l : List (Nat × Byte)) : s.KeepsQueues (s.store l) := by
  unfold State.store
  split
  · exact .refl s
  unfold State.touch
  refine .trans ?_ (State.each_rel .refl .trans (fun t n => .touchStream t _ n) _ _)
  refine .trans ?_ (State.each_rel .refl .trans (fun t q => .touchQueue t _ q) _ _)
  exact .of_queues (by rw [State.posts_eq])

/-- A store at `.dev` changes of a queue at most its head, and of the launches nothing. -/
theorem State.devWrite_keeps (s : State) (unit x va : Nat) (l : List Byte) :
    s.KeepsQueues (s.devWrite unit x va l).2 ∧ (s.devWrite unit x va l).2.runs = s.runs := by
  unfold State.devWrite
  split
  next found =>
    have learned := State.TlbOnly.resolve found
    refine ⟨.trans (.of_queues (by rw [learned])) (.store _ _), ?_⟩
    rw [State.Touched.store]
    exact learned.runs
  next found =>
    have learned := State.TlbOnly.resolve found
    exact ⟨.of_queues (by rw [learned]), by rw [learned]⟩

/-! The head of a queue (R188, R189, R193, R201) -/

/-- A rejected head leaves its queue and is counted (R193). -/
theorem State.reject_rejects (s : State) (q x : Nat) (a : DWord) (code : Nat) : let t := s.reject q x a code
    t.runs = s.runs ∧ (t.hq q).ptrs = (s.hq q).ptrs.drop 1 ∧ (t.hq q).rejcnt = satInc (s.hq q).rejcnt ∧ (t.hq q).head = none ∧
      Instr.recordStart (BitVec.ofNat 6 q) ∈ t.queue := by
  intro t
  obtain ⟨keeps, runs⟩ := s.devWrite_keeps (dispUnit (q / 32)) x (a.toNat + 0xF8) (leBytes 8 code)
  generalize hu : (s.devWrite (dispUnit (q / 32)) x (a.toNat + 0xF8) (leBytes 8 code)).2 = u at keeps runs
  obtain ⟨hd, queue⟩ := keeps q
  have run : t = (u.setHq q { u.hq q with ptrs := (u.hq q).ptrs.drop 1, rejcnt := satInc (u.hq q).rejcnt, head := none, fault := none }).post
      (.recordStart (BitVec.ofNat 6 q)) := by
    subst hu
    simp only [t, State.reject]
    obtain ⟨e, u⟩ := s.devWrite (dispUnit (q / 32)) x (a.toNat + 0xF8) (leBytes 8 code)
    cases e with
    | error => rfl
    | ok => rfl
  rw [run, State.hq_post, State.hq_setHq, queue]
  exact ⟨by rw [State.post_eq]; exact runs, rfl, rfl, rfl, State.mem_queue_post ..⟩

theorem State.takeHead_rejects {s : State} {q x k : Nat} {c : Ctx} {a : DWord} {l ph : List Byte} (code : recCode c l ph = some k) :
    s.takeHead q x c a l ph = s.reject q x a k := by
  delta State.takeHead
  rw [code]

theorem State.checkDeps_noHead {s : State} {q : Nat} (none : (s.hq q).head = none) : s.checkDeps q = s :=
  State.each_id fun i _ => by simp only [State.checkDep, none]

/-- The launch that the head of a queue becomes when it starts next. -/
def State.headRun (s : State) (q x : Nat) (h : Queue) (hd : Head) : Run :=
  { id := s.nextId, queue := q, ctx := x, prio := if hd.lrec.priov && hd.lrec.prio < h.prio then hd.lrec.prio else h.prio, comm := h.comm
    lrec := hd.lrec, blocks := List.replicate hd.lrec.nblocks .unplaced, parked := [], phaseOf := [], lead := []
    acting := none, seen := hd.seen }

theorem State.startHead_eq (s : State) (q x : Nat) (h : Queue) (hd : Head) : s.startHead q x h hd =
    ((({ s with nextId := s.nextId + 1, runs := s.runs ++ [s.headRun q x h hd] } : State).setHq q
      { h with ptrs := h.ptrs.drop 1, head := none, wake := 0, placing := h.placing ++ [s.nextId] }).post
        (.blockPlace (BitVec.ofNat 6 q))).post (.recordStart (BitVec.ofNat 6 q)) := rfl

section
variable {q : BitVec 6} {s : State} {x : Nat} {c : Ctx} {a : DWord} {rest : List DWord} (bound : (s.hq q.toNat).ctx = some x)
  (ptrs : (s.hq q.toNat).ptrs = a :: rest) (ctx : s.ctx? x = some c) (sound : (s.hq q.toNat).fault = none) (free : s.caddrFault q.toNat = false)
include bound ptrs ctx sound free

/-- RECORD_START with a head that has been read: it starts if it may (R188). -/
theorem exec_recordStart_read {hd : Head} (head : (s.hq q.toNat).head = some hd) : exec (.recordStart q) s =
    .next ((if hd.met.all id && (!hd.lrec.wakegate || (s.hq q.toNat).wake != 0) && c.pmst == 0 then s.startHead q.toNat x (s.hq q.toNat) hd
      else s).reserve (q.toNat / 32)) := by
  change execRecordStart q s = _
  simp [execRecordStart, bound, ptrs, ctx, sound, free, head]

theorem recordStart_starts {hd : Head} (head : (s.hq q.toNat).head = some hd) (met : hd.met.all id = true)
    (awake : hd.lrec.wakegate = true → (s.hq q.toNat).wake ≠ 0) (live : c.pmst = 0) : Ends (.recordStart q) s (fun t => t.mem = s.mem ∧
      (∃ r : Run, t.runs = s.runs ++ [r] ∧ r.id = s.nextId ∧ r.queue = q.toNat ∧ r.ctx = x ∧ r.comm = (s.hq q.toNat).comm ∧ r.lrec = hd.lrec ∧
        r.blocks = List.replicate hd.lrec.nblocks .unplaced ∧ r.acting = none) ∧
      t.hq q.toNat = { s.hq q.toNat with ptrs := rest, head := none, wake := 0, placing := (s.hq q.toNat).placing ++ [s.nextId] } ∧
      (∀ j, j ≠ q.toNat → t.hq j = s.hq j) ∧ Instr.blockPlace q ∈ t.queue) := by
  have may : (hd.met.all id && (!hd.lrec.wakegate || (s.hq q.toNat).wake != 0) && c.pmst == 0) = true := by
    have awake : (!hd.lrec.wakegate || (s.hq q.toNat).wake != 0) = true := by
      cases gate : hd.lrec.wakegate with
      | false => rfl
      | true => exact bne_iff_ne.mpr (awake gate)
    rw [met, awake, live]
    rfl
  refine ⟨_, (exec_recordStart_read bound ptrs ctx sound free head).trans (by rw [if_pos may]), ?_⟩
  rw [State.reserve_eq]
  refine ⟨?_, ⟨s.headRun q.toNat x (s.hq q.toNat) hd, ?_, rfl, rfl, rfl, rfl, rfl, rfl, rfl⟩, ?_, fun j other => ?_, ?_⟩
  · rw [State.startHead_eq, State.post_mem, State.post_mem]
    rfl
  · rw [State.startHead_eq, State.post_eq, State.post_eq (State.setHq _ _ _)]
    rfl
  · change (s.startHead q.toNat x (s.hq q.toNat) hd).hq q.toNat = _
    rw [State.startHead_eq, State.hq_post, State.hq_post, State.hq_setHq, ptrs]
    rfl
  · change (s.startHead q.toNat x (s.hq q.toNat) hd).hq j = _
    rw [State.startHead_eq, State.hq_post, State.hq_post]
    exact State.hq_setHq_ne _ _ _ other
  · change _ ∈ (s.startHead q.toNat x (s.hq q.toNat) hd).queue
    have named : BitVec.ofNat 6 q.toNat = q := by simp
    rw [State.startHead_eq, named]
    exact State.mem_queue_post_of_mem (State.mem_queue_post ..) _

theorem recordStart_waits {hd : Head} (head : (s.hq q.toNat).head = some hd)
    (bar : hd.met.all id = false ∨ hd.lrec.wakegate = true ∧ (s.hq q.toNat).wake = 0 ∨ c.pmst ≠ 0) :
    Ends (.recordStart q) s (fun t => t.mem = s.mem ∧ t.runs = s.runs ∧ t.queues = s.queues) := by
  have mayNot : ¬(hd.met.all id && (!hd.lrec.wakegate || (s.hq q.toNat).wake != 0) && c.pmst == 0) = true := by
    simp only [Bool.and_eq_true, Bool.or_eq_true, Bool.not_eq_true', bne_iff_ne, beq_iff_eq]
    rintro ⟨⟨met, awake⟩, live⟩
    rcases bar with unmet | ⟨gate, asleep⟩ | held
    · exact Bool.noConfusion (met.symm.trans unmet)
    · exact awake.elim (fun open_ => Bool.noConfusion (gate.symm.trans open_)) (fun woken => woken asleep)
    · exact held live
  refine ⟨_, (exec_recordStart_read bound ptrs ctx sound free head).trans (by rw [if_neg mayNot]), ?_⟩
  have only := State.DiesOnly.reserve s (q.toNat / 32)
  exact ⟨only.mem, only.runs, only.queues⟩

theorem recordStart_rejects {l : List Byte} {s1 : State} {k : Nat} (head : (s.hq q.toNat).head = none)
    (read : s.devRead (dispUnit (q.toNat / 32)) x a.toNat 256 = (.ok l, s1)) (bare : hasTable l = false) (code : recCode c l [] = some k) :
    Ends (.recordStart q) s (fun t => t.runs = s.runs ∧ (t.hq q.toNat).ptrs = rest ∧ (t.hq q.toNat).rejcnt = satInc (s.hq q.toNat).rejcnt ∧
      (t.hq q.toNat).head = none ∧ Instr.recordStart q ∈ t.queue) := by
  have learned := State.TlbOnly.devRead read
  have rejected := s1.reject_rejects q.toNat x a k
  have readHead : s.readHead q.toNat x c a = s1.reject q.toNat x a k := by
    rw [State.readHead, read]
    exact (if_pos (by simp [bare])).trans (State.takeHead_rejects code)
  generalize s1.reject q.toNat x a k = u at rejected readHead
  obtain ⟨runs, first, count, gone, posted⟩ := rejected
  have run : exec (.recordStart q) s = .next (u.reserve (q.toNat / 32)) := by
    change execRecordStart q s = _
    simp [execRecordStart, bound, ptrs, ctx, sound, free, head, readHead, State.checkDeps_noHead gone, gone]
  have only := State.DiesOnly.reserve u (q.toNat / 32)
  have named : BitVec.ofNat 6 q.toNat = q := by simp
  rw [named] at posted
  rw [learned.hq] at first count
  refine ⟨_, run, only.runs.trans (runs.trans (by rw [learned])), ?_, ?_, ?_, ?_⟩
  · rw [only.hq, first, ptrs]
    rfl
  · rw [only.hq, count]
  · rw [only.hq, gone]
  · rw [State.reserve_eq]
    exact posted

end

/-! Dependences (R201) -/

section
variable {s u s1 : State} {q i x : Nat} {hd : Head} {ks : List Nat} (bound : (s.hq q).ctx = some x) (sound : (s.hq q).fault = none)
  (head : (s.hq q).head = some hd) (unmet : hd.met.getD i true = false) (counter : (hd.lrec.deps.getD i (0, 0)).1 ≠ 0)
  (reached : (hd.lrec.deps.getD i (0, 0)).2.toNat ≤ leNat (ks.map (Memory.read s.mem)))
  (found : s.resolve none (dispUnit (q / 32)) x 2 (hd.lrec.deps.getD i (0, 0)).1.toNat 8 needRD = (.ok ks, s1))
include bound sound head unmet counter reached found

/-- A dependence whose counter has its value is met. -/
theorem State.checkDep_meets : s.checkDep q i =
    s1.setHq q { s.hq q with head := some { hd with met := hd.met.set i true, watch := hd.watch.set i none } } := by
  have reached : (hd.lrec.deps.getD i (0, 0)).2.toNat ≤ leNat (s1.peek ks) := by rwa [(State.TlbOnly.resolve found).peek]
  have goOn : ¬((s.hq q).fault.isSome || hd.met.getD i true) = true := by
    rw [sound, unmet]
    exact Bool.false_ne_true
  simp only [State.checkDep, head, bound]
  rw [if_neg goOn, if_neg (by simpa using counter), found]
  exact if_pos reached

/-- What the dispatcher does next leaves the met dependence as it is. -/
theorem State.checkDep_thenDies (only : (s.checkDep q i).DiesOnly u) : u.mem = s.mem ∧
    u.hq q = { s.hq q with head := some { hd with met := hd.met.set i true, watch := hd.watch.set i none } } ∧
    ∀ j, j ≠ q → u.hq j = s.hq j := by
  have learned := State.TlbOnly.resolve found
  rw [State.checkDep_meets bound sound head unmet counter reached found] at only
  refine ⟨only.mem.trans learned.mem, (only.hq q).trans (State.hq_setHq ..), fun j other => (only.hq j).trans ?_⟩
  rw [State.hq_setHq_ne _ _ _ other, learned.hq]

end

/-! Completion (R209) -/

/-- The event queue of a die goes on with the events `l`, and with those that waited for room in it (R210). -/
def State.withEvents (s : State) (d : Nat) (l : List (Sum (Nat × Nat) Nat)) : State :=
  s.setDie d (({ s.die d with evq := l } : Die).enqueue [])

/-- A launch is found as it is changed. -/
theorem State.run?_updRun {s : State} {id : Nat} {r : Run} {f : Run → Run} (found : s.run? id = some r) (keeps : ∀ r, (f r).id = r.id) :
    (s.updRun id f).run? id = some (f r) := by
  have same : (fun r : Run => r.id == id) ∘ (fun r : Run => if r.id == id then f r else r) = fun r : Run => r.id == id := by
    funext r
    simp only [Function.comp_apply]
    split
    · rw [keeps]
    · rfl
  have found : s.runs.find? (fun r => r.id == id) = some r := found
  have named : r.id = id := by simpa using List.find?_some found
  refine (List.find?_map ..).trans ?_
  rw [same, found, Option.map_some, if_pos (beq_iff_eq.mpr named)]

/-- The POST action of a completed launch. -/
def State.noted (s : State) (r : Run) : State :=
  if bit r.lrec.act 1 then s.note r.lrec.pstrm (leBytes 8 r.lrec.addr.toNat ++ leBytes 8 s.now) else s

/-- The SIGQ action of a completed launch. -/
def State.signalled (s : State) (r : Run) : State :=
  if bit r.lrec.act 2 then (match s.sigWrite r.ctx r.lrec.stgt r.lrec.sidx r.lrec.sval with | some s => s | none => s) else s

/-- `t` is `s` but for what the actions of a completed launch act on beside memory. -/
def State.ActsOnly (s t : State) : Prop := t = { s with
  streams := t.streams, outHost := t.outHost, timers := t.timers, queues := t.queues, queue := t.queue, gaffer := t.gaffer, mgmt := t.mgmt }

theorem State.ActsOnly.trans {s t u : State} (st : s.ActsOnly t) (tu : t.ActsOnly u) : s.ActsOnly u := by
  unfold State.ActsOnly at *
  rw [tu, st]

theorem State.ActsOnly.noted (s : State) (r : Run) : s.ActsOnly (s.noted r) := by
  unfold State.noted
  split
  · simp only [State.note, State.sendCpl]
    split
    · rfl
    · rfl
  · rfl

/-- A soft interrupt sends nothing to the host. -/
theorem State.sigWrite_only {s t : State} {x k i : Nat} {v : Word} (h : s.sigWrite x k i v = some t) : s.ActsOnly t ∧ t.outHost = s.outHost := by
  unfold State.sigWrite at h
  split at h
  · split at h
    · obtain rfl := Option.some.inj h
      unfold State.ActsOnly State.writeQwake
      rw [State.post_eq]
      exact ⟨rfl, rfl⟩
    · contradiction
  · split at h
    · obtain rfl := Option.some.inj h
      exact ⟨rfl, rfl⟩
    · contradiction
  · split at h
    · obtain rfl := Option.some.inj h
      exact ⟨rfl, rfl⟩
    · contradiction
  · contradiction

theorem State.signalled_only (s : State) (r : Run) : s.ActsOnly (s.signalled r) ∧ (s.signalled r).outHost = s.outHost := by
  unfold State.signalled
  split
  · split
    next write => exact State.sigWrite_only write
    next => exact ⟨rfl, rfl⟩
  · exact ⟨rfl, rfl⟩

theorem State.outHost_noted {s : State} {r : Run} : (bit r.lrec.act 1 = false → (s.noted r).outHost = s.outHost) ∧
    (bit r.lrec.act 1 = true → (s.stream r.lrec.pstrm).unacked.length < 64 → ∃ p, (s.noted r).outHost = s.outHost ++ [p] ∧ p.typ = 4 ∧
      p.payload = leBytes 8 r.lrec.addr.toNat ++ leBytes 8 s.now) := by
  refine ⟨fun none => ?_, fun post room => ⟨hostPacket 4 r.lrec.pstrm ((s.stream r.lrec.pstrm).cplSeq + 1) 0 _, ?_, rfl, rfl⟩⟩
  · simp [State.noted, none]
  · rw [State.noted, if_pos post, State.note, State.sendCpl]
    simp only [if_neg (Nat.not_le.mpr room)]
    rfl

section
variable {s : State} {r : Run} (last : ∀ p ∈ s.runs, p.queue = r.queue → p.acting ≠ some 0)
include last

/-- With no completion of its queue that waits for it, a launch acts and is gone. -/
theorem State.postAndSig_eq : s.postAndSig r = { ((s.noted r).signalled r).post (.recordStart (BitVec.ofNat 6 r.queue)) with
    runs := s.runs.filter (fun p => p.id != r.id) } := by
  have only := (State.ActsOnly.noted s r).trans (State.signalled_only (s.noted r) r).1
  have runs : ((s.noted r).signalled r).runs = s.runs := by rw [only]
  have gone : ({ (s.noted r).signalled r with runs := s.runs.filter (fun p => p.id != r.id) } : State).post (.recordStart (BitVec.ofNat 6 r.queue)) =
      { ((s.noted r).signalled r).post (.recordStart (BitVec.ofNat 6 r.queue)) with runs := s.runs.filter (fun p => p.id != r.id) } := by
    unfold State.post
    split
    · rfl
    · rfl
  have alone : (s.runs.filter (fun p => p.id != r.id)).find? (fun p => p.queue == r.queue && p.acting == some 0) = none := by
    rw [List.find?_eq_none]
    intro p hp
    have := last p (List.mem_of_mem_filter hp)
    simpa using this
  unfold State.postAndSig
  extract_lets u v w
  have acted : w = { ((s.noted r).signalled r).post (.recordStart (BitVec.ofNat 6 r.queue)) with runs := s.runs.filter (fun p => p.id != r.id) } := by
    change ({ (s.noted r).signalled r with runs := ((s.noted r).signalled r).runs.filter (fun p => p.id != r.id) } : State).post _ = _
    rw [runs, gone]
  split
  next waiting =>
    rw [acted] at waiting
    exact absurd (alone.symm.trans waiting) (by simp)
  next => exact acted

theorem State.postAndSig_acts : (s.postAndSig r).mem = s.mem ∧ (s.postAndSig r).runs = s.runs.filter (fun p => p.id != r.id) ∧
    (s.postAndSig r).outHost = (s.noted r).outHost := by
  have only := (State.ActsOnly.noted s r).trans (State.signalled_only (s.noted r) r).1
  rw [State.postAndSig_eq last, State.post_eq]
  exact ⟨by rw [only], rfl, (State.signalled_only (s.noted r) r).2⟩

end

/-- No launch of a queue is left before its first one. -/
theorem State.none_earlier {s : State} {r : Run} (first : ∀ p ∈ s.runs, p.queue = r.queue → r.id ≤ p.id ∧ p.acting ≠ some 0) :
    ¬s.runs.any (fun p => p.queue == r.queue && decide (p.id < r.id)) = true := by
  simp only [List.any_eq_true, Bool.and_eq_true, beq_iff_eq, decide_eq_true_iff]
  rintro ⟨p, hp, same, low⟩
  exact absurd (first p hp same).1 (by omega)

section
variable {d : BitVec 1} {id : Nat} {l : List (Sum (Nat × Nat) Nat)} {r : Run} {s s1 : State} {ks : List Nat}
  (event : (s.die d.toNat).evq = .inr id :: l) (found : s.run? id = some r)
include event found

/-- COMPLETION_ACTIONS takes the oldest event of its die, the completion of a launch (R209). -/
theorem exec_completionActions : exec (.completionActions d) s =
    .next (((s.withEvents d.toNat l).complete1 r).evNext d.toNat) := by
  change execCompletionActions d s = _
  simp only [execCompletionActions, event]
  rw [show (s.setDie d.toNat _).run? id = some r from found]
  rfl

variable (named : r.id = id)
include named

/-- A completion waits for an earlier launch of its queue. -/
theorem completionActions_waits (earlier : ∃ p ∈ s.runs, p.queue = r.queue ∧ p.id < r.id) : Ends (.completionActions d) s (fun t =>
    t.mem = s.mem ∧ t.outHost = s.outHost ∧ ∃ r', t.run? id = some r' ∧ r' = { r with acting := some 0 }) := by
  subst named
  refine ⟨_, exec_completionActions event found, ?_⟩
  have only := State.DiesOnly.evNext ((s.withEvents d.toNat l).complete1 r) d.toNat
  have waits : (s.withEvents d.toNat l).complete1 r =
      (s.withEvents d.toNat l).updRun r.id (fun q => { q with acting := some 0 }) :=
    if_pos (by simpa [State.withEvents] using earlier)
  rw [waits] at only ⊢
  refine ⟨only.mem, only.outHost, _, (only.run? r.id).trans (State.run?_updRun ?_ fun _ => rfl), rfl⟩
  exact found

variable (first : ∀ p ∈ s.runs, p.queue = r.queue → r.id ≤ p.id ∧ p.acting ≠ some 0)
include first

/-- The launch acts in a state that differs from `s` where its note does not look, and is gone. -/
theorem completionActions_acts {v : State} (acts : (s.withEvents d.toNat l).complete1 r =
    v.postAndSig r) (runs : v.runs = s.runs) (outHost : v.outHost = s.outHost) (now : v.now = s.now) (streams : ∀ n, v.stream n = s.stream n) :
    Ends (.completionActions d) s (fun t => t.mem = v.mem ∧ t.runs = s.runs.filter (fun p => p.id != id) ∧
      (bit r.lrec.act 1 = false → t.outHost = s.outHost) ∧
      (bit r.lrec.act 1 = true → (s.stream r.lrec.pstrm).unacked.length < 64 → ∃ p, t.outHost = s.outHost ++ [p] ∧ p.typ = 4 ∧
        p.payload = leBytes 8 r.lrec.addr.toNat ++ leBytes 8 s.now)) := by
  subst named
  obtain ⟨mem, left, out⟩ := State.postAndSig_acts (s := v) (r := r) fun p hp same => (first p (runs ▸ hp) same).2
  have only := State.DiesOnly.evNext (v.postAndSig r) d.toNat
  have note := State.outHost_noted (s := v) (r := r)
  rw [← out, ← only.outHost, outHost, now, streams] at note
  exact ⟨_, (exec_completionActions event found).trans (by rw [acts]), only.mem.trans mem, only.runs.trans (by rw [left, runs]), note.1, note.2⟩

end

/-- Settles O46: heads that start, wait or are rejected, dependences that are met, and completions that wait or act. -/
theorem launchesStartAndComplete : Obligations.LaunchesStartAndComplete := by
  intro q s x c a rest n h
  refine ⟨fun bound ptrs ctx sound free => ⟨fun hd => recordStart_starts bound ptrs ctx sound free,
      fun hd => recordStart_waits bound ptrs ctx sound free, fun l s1 k => recordStart_rejects bound ptrs ctx sound free⟩,
    fun hd i ks s1 bound sound head unmet counter reached => ⟨fun found => ?backoff, fun d l event found => ?wake⟩,
    ?completion⟩
  case backoff =>
    exact ⟨_, rfl, State.checkDep_thenDies bound sound head unmet counter reached found
      ((State.DiesOnly.depSeen ..).trans (.reserve ..))⟩
  case wake =>
    refine ⟨_, by change execDependenceWake d s = _; simp only [execDependenceWake, event]; rfl, ?_⟩
    exact State.checkDep_thenDies (s := s.withEvents d.toNat l) bound sound head unmet counter
      reached found (((State.DiesOnly.depSeen ..).trans (.reserve ..)).trans (.evNext ..))
  case completion =>
    intro d id l r ks s1 event found named s0 note
    refine ⟨completionActions_waits event found named, fun first => ⟨fun noAdd => ?plain, fun add resolved => ?add⟩⟩
    case plain =>
      exact completionActions_acts event found named first (v := s0)
        ((if_neg (State.none_earlier (s := s0) first)).trans (if_pos (by simp [noAdd]))) rfl rfl rfl fun _ => rfl
    case add =>
      have learned := State.TlbOnly.resolve resolved
      have stored := State.devUpdate_ok (fun v => v + r.lrec.cval.toNat) resolved
      generalize hv : s1.store (ks.zip (leBytes 8 (leNat (s1.peek ks) + r.lrec.cval.toNat))) = v at stored
      have touched : s1.Touched v := hv ▸ .store ..
      have acts : s0.complete1 r = v.postAndSig r := by
        refine (if_neg (State.none_earlier (s := s0) first)).trans ((if_neg (by simp [add])).trans ?_)
        rw [stored]
      obtain ⟨t, run, mem, runs, note⟩ := completionActions_acts event found named first acts (by rw [touched]; exact learned.runs)
        (by rw [touched]; exact learned.outHost) (by rw [touched]; exact learned.now)
        fun n => (by rw [touched]; rfl : v.stream n = s1.stream n).trans (learned.stream n)
      refine ⟨t, run, runs, note, ?_⟩
      rw [mem, ← hv, State.store_mem, learned.peek, learned.mem]
      rfl

end Sys2Proof.Machine
end

