-- ==== Sys2Proof/Proofs/Plans.lean ====
section
/-! PROOF. Plans (R196 to R198): the blocks that a plan names, the cores that it takes, and the partitions of the waves of a block. -/

namespace Sys2Proof.Machine
open Sys2Proof.Claims

/-! The least element of a list -/

theorem minBy_go_mem {α : Type} (key : α → Nat) (l : List α) (x : α) :
    l.foldl (fun best y => if key y < key best then y else best) x ∈ x :: l := by
  induction l generalizing x with
  | nil => exact List.mem_cons_self
  | cons y l ih =>
    rw [List.foldl_cons]
    split
    · exact List.mem_cons_of_mem _ (ih y)
    · exact (List.mem_cons.mp (ih x)).elim (fun h => by rw [h]; exact List.mem_cons_self)
        fun h => List.mem_cons_of_mem _ (List.mem_cons_of_mem _ h)

theorem mem_of_minBy {α : Type} {key : α → Nat} {l : List α} {m : α} (h : minBy key l = some m) : m ∈ l := by
  cases l with
  | nil => contradiction
  | cons x l => exact Option.some.inj h ▸ minBy_go_mem key l x

/-- In a rising list the fold keeps the first of the least elements. -/
theorem minBy_go_first (key : Nat → Nat) (l : List Nat) (x : Nat) (rising : (x :: l).Pairwise (· < ·)) {m : Nat}
    (h : l.foldl (fun best y => if key y < key best then y else best) x = m) :
    ∀ y ∈ x :: l, key m ≤ key y ∧ (y < m → key m < key y) := by
  induction l generalizing x with
  | nil =>
    obtain rfl : x = m := h
    intro y hy
    obtain rfl : y = x := by simpa using hy
    exact ⟨le_refl _, fun low => absurd low (lt_irrefl _)⟩
  | cons z l ih =>
    obtain ⟨first, rest⟩ := List.pairwise_cons.mp rising
    rw [List.foldl_cons] at h
    split at h
    next less =>
      have least := ih z rest h
      refine List.forall_mem_cons.mpr ⟨?_, least⟩
      have := (least z List.mem_cons_self).1
      exact ⟨by omega, fun _ => by omega⟩
    next most =>
      have least := ih x (List.pairwise_cons.mpr ⟨fun y hy => first y (List.mem_cons_of_mem _ hy), (List.pairwise_cons.mp rest).2⟩) h
      have low := least x List.mem_cons_self
      have below := first z List.mem_cons_self
      refine List.forall_mem_cons.mpr ⟨low, List.forall_mem_cons.mpr ⟨⟨by omega, fun less => ?_⟩,
        fun y hy => least y (List.mem_cons_of_mem _ hy)⟩⟩
      have := low.2 (by omega)
      omega

/-! Partitions (R198) -/

/-- The partition of a core with the fewest waves, the lowest-numbered of equal ones. -/
theorem exists_minBy_partition (key : Nat → Nat) : ∃ m, minBy key [0, 1, 2, 3] = some m ∧ m < 4 ∧ (∀ p, p < 4 → key m ≤ key p) ∧
    ∀ p, p < m → key m < key p := by
  obtain ⟨m, least⟩ : ∃ m, minBy key [0, 1, 2, 3] = some m := ⟨_, rfl⟩
  have low : m < 4 := by
    have := mem_of_minBy least
    simp only [List.mem_cons, List.not_mem_nil, or_false] at this
    omega
  have first := minBy_go_first key [1, 2, 3] 0 (by decide) (Option.some.inj least)
  have listed {p : Nat} (h : p < 4) : p ∈ [0, 1, 2, 3] := by
    simp only [List.mem_cons, List.not_mem_nil, or_false]
    omega
  exact ⟨m, least, low, fun p h => (first p (listed h)).1, fun p h => (first p (listed (by omega))).2 h⟩

/-- The waves of a partition of a core, handler waves aside. -/
theorem State.coreRes_waves (s : State) (core p : Nat) (h : p < 4) : ((s.coreRes core).parts.getD p (0, 0)).1 =
    ((s.core core).waves.filter (fun e => !e.2.handler && e.2.part == p)).length := by
  simp only [State.coreRes, List.getD_eq_getElem?_getD, List.getElem?_map, List.getElem?_range h, Option.map_some, Option.getD_some]
  rw [List.filter_map, List.filter_map, List.length_map, List.filter_filter]
  simp only [Function.comp_apply, Bool.and_comm]

/-- Waves of a block go to the partitions in turn, from the one with the fewest waves on, and no partition holds too many (R198). -/
theorem State.partitions_spec {s : State} {core : Nat} {r : LaunchRec} {parts : List Nat} (fits : (s.coreRes core).partitions r = some parts) :
    let count (p : Nat) : Nat := ((s.core core).waves.filter (fun e => !e.2.handler && e.2.part == p)).length
    parts.length = r.wpb ∧ (∀ p, p < 4 → count p + (parts.filter (fun j => j == p)).length ≤ 8) ∧
    ∃ m, m < 4 ∧ (∀ p, p < 4 → count m ≤ count p) ∧ (∀ p, p < m → count m < count p) ∧ ∀ w, w < r.wpb → parts[w]? = some ((m + w) % 4) := by
  intro count
  obtain ⟨m, least, low, fewest, first⟩ := exists_minBy_partition (fun i => ((s.coreRes core).parts.getD i (0, 0)).1)
  have counts {p : Nat} (h : p < 4) : ((s.coreRes core).parts.getD p (0, 0)).1 = count p := s.coreRes_waves core p h
  simp only [CoreRes.partitions, least] at fits
  obtain ⟨roomy, chosen⟩ := Option.ite_none_right_eq_some.mp fits
  obtain rfl := Option.some.inj chosen
  simp only [List.all_eq_true, List.mem_range, Bool.and_eq_true, decide_eq_true_iff] at roomy
  refine ⟨by simp, fun p h => ?_, m, low, fun p h => ?_, fun p h => ?_, fun w h => ?_⟩
  · rw [← counts h]
    exact (roomy p h).1
  · rw [← counts low, ← counts h]
    exact fewest p h
  · rw [← counts low, ← counts (h.trans low)]
    exact first p h
  · rw [List.getElem?_map, List.getElem?_range h, Option.map_some]

/-! The plan of some blocks (R198) -/

/-- A planned block stands on a core of one of the lists, and on none that is taken. -/
theorem chooseCore_spec {r : LaunchRec} {res : List CoreRes} {lists : List (List Nat)} {taken : List Nat} {blk : Nat} {allow : Bool} {p : Plan}
    (h : chooseCore r res lists taken blk allow = some p) : p.blk = blk ∧ p.core ∉ taken ∧ ∃ l ∈ lists, p.core ∈ l := by
  have picked {f : CoreRes → Bool} {c : CoreRes} (h : (lists.findSome? fun l => minBy (fun (c : CoreRes) => c.waves)
      (res.filter fun c => l.contains c.core && (!c.pend && !taken.contains c.core) && f c)) = some c) :
      c.core ∉ taken ∧ ∃ l ∈ lists, c.core ∈ l := by
    obtain ⟨l, hl, least⟩ := List.exists_of_findSome?_eq_some h
    have kept := (List.mem_filter.mp (mem_of_minBy least)).2
    simp only [Bool.and_eq_true, Bool.not_eq_true', List.contains_eq_mem, decide_eq_true_iff, decide_eq_false_iff_not] at kept
    exact ⟨kept.1.2.2, l, hl, kept.1.1⟩
  simp only [chooseCore] at h
  split at h
  next c hc =>
    obtain rfl := Option.some.inj h
    exact ⟨rfl, picked hc⟩
  next =>
    split at h
    · contradiction
    split at h
    next c hc =>
      obtain rfl := Option.some.inj h
      exact ⟨rfl, picked hc⟩
    next => contradiction

/-- A plan of some blocks adds one entry for each, in order, on cores of the lists; on distinct ones where they must be. -/
theorem planBlocks_spec {r : LaunchRec} {lists : List (List Nat)} {distinct full allow : Bool} {bs : List Nat} {res res' : List CoreRes}
    {taken : List Nat} {acc ps : List Plan} (h : planBlocks r lists distinct full allow bs res taken acc = some (ps, res')) :
    ∃ new, ps = acc ++ new ∧ new.map Plan.blk = bs ∧ (∀ p ∈ new, ∃ l ∈ lists, p.core ∈ l) ∧
      (distinct = true → (new.map Plan.core).Nodup ∧ ∀ p ∈ new, p.core ∉ taken) := by
  induction bs generalizing res taken acc with
  | nil =>
    obtain ⟨rfl, -⟩ := Prod.mk.inj (Option.some.inj h)
    exact ⟨[], by simp, rfl, by simp, by simp⟩
  | cons b bs ih =>
    simp only [planBlocks] at h
    split at h
    · contradiction
    next p hp =>
      have chosen : p.blk = b ∧ p.core ∉ taken ∧ ∃ l ∈ lists, p.core ∈ l := by
        split at hp
        · obtain ⟨l, hl, hp⟩ := List.exists_of_findSome?_eq_some hp
          obtain ⟨named, free, l', hl', stands⟩ := chooseCore_spec hp
          obtain rfl := List.mem_singleton.mp hl'
          exact ⟨named, free, l', hl, stands⟩
        · exact chooseCore_spec hp
      obtain ⟨named, free, stands⟩ := chosen
      obtain ⟨new, rfl, blks, cores, apart⟩ := ih h
      refine ⟨p :: new, by simp, by rw [List.map_cons, named, blks], List.forall_mem_cons.mpr ⟨stands, cores⟩, fun hd => ?_⟩
      obtain ⟨nodup, others⟩ := apart hd
      rw [if_pos hd] at others
      simp only [List.mem_cons, not_or] at others
      refine ⟨List.nodup_cons.mpr ⟨fun again => ?_, nodup⟩, List.forall_mem_cons.mpr ⟨free, fun q hq => (others q hq).2⟩⟩
      obtain ⟨q, hq, same⟩ := List.mem_map.mp again
      exact (others q hq).1 same

/-- The cores of a class are among those of the domain. -/
theorem State.mem_of_candidates {s : State} {comm : Bool} {cores l : List Nat} {c : Nat} (hl : l ∈ s.candidates comm cores) (hc : c ∈ l) :
    c ∈ cores := by
  simp only [State.candidates] at hl
  split at hl
  · simp only [List.mem_cons, List.not_mem_nil, or_false] at hl
    rcases hl with rfl | rfl
    · exact List.mem_of_mem_filter hc
    · exact List.mem_of_mem_filter hc
  · obtain rfl := List.mem_singleton.mp hl
    exact List.mem_of_mem_filter hc

theorem mem_of_byRoom {r : LaunchRec} {allow : Bool} {res : List CoreRes} {lists : List (List Nat)} {l : List Nat} {c : Nat}
    (hl : l ∈ byRoom r allow res lists) (hc : c ∈ l) : ∃ l' ∈ lists, c ∈ l' := by
  simp only [byRoom, List.mem_flatMap, List.mem_map] at hl
  obtain ⟨i, -, l', hl', rfl⟩ := hl
  exact ⟨l', hl', List.mem_of_mem_filter hc⟩

theorem clusterOf_core {c i : Nat} (h : i < 12) : clusterOf (c * 12 + i) = c := by
  unfold clusterOf
  omega

/-! Cluster groups (R196) -/

/-- The plan `pl` of one cluster group `g`: its blocks in order, on distinct cores of one of the clusters. -/
structure GroupPlan (clusters g : List Nat) (pl : List Plan) : Prop where
  blks  : pl.map Plan.blk = g
  apart : (pl.map Plan.core).Nodup
  stays : ∃ n ∈ clusters, ∀ p ∈ pl, clusterOf p.core = n

theorem planGroups_spec {s : State} {r : LaunchRec} {comm allow full : Bool} {clusters : List Nat} {gs : List (List Nat)}
    {res res' : List CoreRes} {rows : List (Nat × Nat)} {acc ps : List Plan}
    (h : planGroups s r comm allow full clusters gs res rows acc = some (ps, res')) :
    ∃ new : List (List Plan), ps = acc ++ new.flatten ∧ List.Forall₂ (GroupPlan clusters) gs new := by
  induction gs generalizing res rows acc with
  | nil =>
    obtain ⟨rfl, -⟩ := Prod.mk.inj (Option.some.inj h)
    exact ⟨[], by simp, .nil⟩
  | cons g gs ih =>
    simp only [planGroups] at h
    split at h
    · contradiction
    next n pl res1 found =>
      obtain ⟨c, hc, found⟩ := List.exists_of_findSome?_eq_some found
      split at found
      · contradiction
      obtain ⟨⟨pl', res2⟩, planned, same⟩ := Option.map_eq_some_iff.mp found
      obtain ⟨rfl, rfl, rfl⟩ : c = n ∧ pl' = pl ∧ res2 = res1 := by simpa using same
      obtain ⟨new, rfl, blks, cores, apart⟩ := planBlocks_spec planned
      obtain ⟨rest, rfl, plans⟩ := ih h
      refine ⟨pl' :: rest, by simp, .cons ⟨blks, (apart rfl).1, c, hc, fun p hp => ?_⟩ plans⟩
      obtain ⟨l, hl, stands⟩ := cores p hp
      have among : ∃ l' ∈ s.candidates comm ((List.range 12).map fun i => c * 12 + i), p.core ∈ l' := by
        split at hl
        · exact mem_of_byRoom hl stands
        · exact ⟨l, hl, stands⟩
      obtain ⟨l', hl', stands⟩ := among
      obtain ⟨i, hi, core⟩ := List.mem_map.mp (State.mem_of_candidates hl' stands)
      rw [← core]
      exact clusterOf_core (List.mem_range.mp hi)

theorem GroupPlan.blks_flatten {clusters : List Nat} {gs : List (List Nat)} {new : List (List Plan)}
    (plans : List.Forall₂ (GroupPlan clusters) gs new) : new.flatten.map Plan.blk = gs.flatten := by
  induction plans with
  | nil => rfl
  | cons plan _ ih => rw [List.flatten_cons, List.map_append, plan.blks, ih, List.flatten_cons]

/-- Groups one after another are the blocks in order. -/
theorem flatten_groups (b g m : Nat) : ((List.range m).map (fun i => (List.range g).map (fun j => b + i * g + j))).flatten =
    (List.range (m * g)).map (fun i => b + i) := by
  induction m with
  | zero => simp
  | succ m ih =>
    rw [List.range_succ, List.map_append, List.flatten_append, ih, Nat.succ_mul, List.range_add, List.map_append]
    simp [Function.comp_def, Nat.add_assoc]

/-- A planned block of a cluster group is in the plan of its own group. -/
theorem GroupPlan.mem_group {clusters : List Nat} {b n g i : Nat} {new : List (List Plan)} {p : Plan}
    (plans : List.Forall₂ (GroupPlan clusters) (groupsOf b n g) new) (hp : p ∈ new.flatten) (named : p.blk = b + i) :
    ∃ pl, new[i / g]? = some pl ∧ p ∈ pl ∧ ∃ gr, GroupPlan clusters gr pl := by
  obtain ⟨pl, hpl, mem⟩ := List.mem_flatten.mp hp
  obtain ⟨k, hk, rfl⟩ := List.getElem_of_mem hpl
  obtain ⟨len, plan⟩ := List.forall₂_iff_get.mp plans
  have low : k < (groupsOf b n g).length := len ▸ hk
  have plan : GroupPlan clusters (groupsOf b n g)[k] new[k] := plan k low hk
  have blk : p.blk ∈ (groupsOf b n g)[k] := plan.blks ▸ List.mem_map_of_mem mem
  simp only [groupsOf, List.getElem_map, List.getElem_range, List.mem_map, List.mem_range] at blk
  obtain ⟨j, hj, place⟩ := blk
  have index : i / g = k := by
    have : i = g * k + j := by
      rw [Nat.mul_comm]
      omega
    rw [this, Nat.mul_add_div (by omega), Nat.div_eq_of_lt hj, Nat.add_zero]
  exact ⟨new[k], by rw [index]; exact List.getElem?_eq_getElem hk, mem, _, plan⟩

/-! A plan for the next unit of a launch (R196 to R198) -/

/-- Where a unit may stand: one cluster for a gang of DOMAIN cluster, and clusters of the queue's own die unless the gang is
device-wide. -/
theorem domainClusters_spec {die dom : Nat} {cl : List Nat} (h : cl ∈ domainClusters die dom) :
    (dom = 1 → ∃ n, cl = [n]) ∧ (dom ≠ 3 → ∀ c ∈ cl, c / 8 = die) := by
  have own {c : Nat} (hc : c ∈ (List.range 8).map (fun i => die * 8 + i)) : c / 8 = die := by
    obtain ⟨i, hi, rfl⟩ := List.mem_map.mp hc
    have := List.mem_range.mp hi
    omega
  unfold domainClusters at h
  simp only at h
  split at h
  · obtain ⟨c, hc, rfl⟩ := List.mem_map.mp h
    exact ⟨fun _ => ⟨c, rfl⟩, fun _ d hd => List.mem_singleton.mp hd ▸ own hc⟩
  · exact ⟨by simp, by simp⟩
  next not1 not3 =>
    obtain rfl := List.mem_singleton.mp h
    exact ⟨fun is1 => absurd is1 not1, fun _ c hc => own hc⟩

/-- What a plan for the next unit is: with cluster groups, plans of the groups; else the blocks in order, a gang of DOMAIN core on one core. -/
inductive UnitPlan (run : Run) (b n dom : Nat) (cl : List Nat) : List Plan → Prop
  | groups (grouped : run.lrec.groupLevel ≠ none) {new : List (List Plan)}
      (plans : List.Forall₂ (GroupPlan cl) (groupsOf b n run.lrec.groupSize) new) : UnitPlan run b n dom cl new.flatten
  | blocks (single : run.lrec.groupLevel = none) {ps : List Plan} (blks : ps.map Plan.blk = (List.range n).map (fun i => b + i))
      (stays : ∀ p ∈ ps, clusterOf p.core ∈ cl) (together : dom = 0 → 1 < n → ∃ c, ∀ p ∈ ps, p.core = c) : UnitPlan run b n dom cl ps

theorem State.planUnit_spec {s : State} {run : Run} {b n dom : Nat} {allow : Bool} {ps : List Plan}
    (h : s.planUnit run b n dom allow = some ps) : ∃ cl ∈ domainClusters (run.queue / 32) dom, UnitPlan run b n dom cl ps := by
  simp only [State.planUnit] at h
  obtain ⟨cl, hcl, h⟩ := List.exists_of_findSome?_eq_some h
  refine ⟨cl, hcl, ?_⟩
  have core {c : Nat} (hc : c ∈ cl.flatMap fun c => (List.range 12).map fun i => c * 12 + i) : clusterOf c ∈ cl := by
    obtain ⟨d, hd, hc⟩ := List.mem_flatMap.mp hc
    obtain ⟨i, hi, rfl⟩ := List.mem_map.mp hc
    rwa [clusterOf_core (List.mem_range.mp hi)]
  split at h
  next level grouped =>
    obtain ⟨full, -, h⟩ := List.exists_of_findSome?_eq_some h
    obtain ⟨⟨ps', res⟩, planned, rfl⟩ := Option.map_eq_some_iff.mp h
    obtain ⟨new, rfl, plans⟩ := planGroups_spec planned
    exact .groups (by simp [grouped]) plans
  next single =>
    split at h
    · obtain ⟨c, hc, h⟩ := List.exists_of_findSome?_eq_some h
      obtain ⟨⟨ps', res⟩, planned, rfl⟩ := Option.map_eq_some_iff.mp h
      obtain ⟨new, rfl, blks, cores, -⟩ := planBlocks_spec planned
      have alone : ∀ p ∈ ps', p.core = c := by simpa using cores
      obtain ⟨l, hl, hc⟩ := List.mem_flatten.mp hc
      exact .blocks single blks (fun p hp => alone p hp ▸ core (State.mem_of_candidates hl hc)) fun _ _ => ⟨c, alone⟩
    next many =>
      obtain ⟨⟨ps', res⟩, planned, rfl⟩ := Option.map_eq_some_iff.mp h
      obtain ⟨new, rfl, blks, cores, -⟩ := planBlocks_spec planned
      refine .blocks single blks (fun p hp => ?_) fun isCore several => absurd (by simp [isCore, several]) many
      obtain ⟨l, hl, hp⟩ := cores p hp
      exact core (State.mem_of_candidates hl hp)

section
variable {run : Run} {b n dom : Nat} {cl : List Nat} {ps : List Plan} (plan : UnitPlan run b n dom cl ps)
include plan

/-- A plan names the first whole groups of its unit in block order. -/
theorem UnitPlan.blks : ps.map Plan.blk = (List.range (n / run.lrec.groupSize * run.lrec.groupSize)).map (fun i => b + i) := by
  cases plan with
  | groups grouped plans => rw [GroupPlan.blks_flatten plans, groupsOf, flatten_groups]
  | blocks single blks => rw [blks, LaunchRec.groupSize, single, Nat.div_one, Nat.mul_one]

theorem UnitPlan.blks_whole (whole : run.lrec.groupLevel = none ∨ n % run.lrec.groupSize = 0) :
    ps.map Plan.blk = (List.range n).map (fun i => b + i) := by
  rw [plan.blks]
  rcases whole with single | whole
  · rw [LaunchRec.groupSize, single, Nat.div_one, Nat.mul_one]
  · rw [Nat.div_mul_cancel (Nat.dvd_of_mod_eq_zero whole)]

theorem UnitPlan.blks_nodup : (ps.map Plan.blk).Nodup := by
  rw [plan.blks]
  exact List.nodup_range.map fun i j same => by omega

theorem UnitPlan.clusters : ∀ p ∈ ps, clusterOf p.core ∈ cl := by
  cases plan with
  | groups grouped plans =>
    intro p hp
    obtain ⟨pl, hpl, hp⟩ := List.mem_flatten.mp hp
    obtain ⟨k, hk, rfl⟩ := List.getElem_of_mem hpl
    obtain ⟨len, plan⟩ := List.forall₂_iff_get.mp plans
    obtain ⟨c, hc, stays⟩ := (plan k (len ▸ hk) hk).stays
    rw [stays p hp]
    exact hc
  | blocks _ _ stays => exact stays

/-- A gang of DOMAIN core stands on one core. -/
theorem UnitPlan.together (single : run.lrec.groupLevel = none) (isCore : dom = 0) (several : 1 < n) : ∃ c, ∀ p ∈ ps, p.core = c := by
  cases plan with
  | groups grouped => exact absurd single grouped
  | blocks _ _ _ together => exact together isCore several

/-- Two blocks of one cluster group stand on distinct cores of one cluster. -/
theorem UnitPlan.group (grouped : run.lrec.groupLevel ≠ none) {i j : Nat} {p q : Plan} (hp : p ∈ ps) (hq : q ∈ ps) (bp : p.blk = b + i)
    (bq : q.blk = b + j) (same : i / run.lrec.groupSize = j / run.lrec.groupSize) :
    clusterOf p.core = clusterOf q.core ∧ (i ≠ j → p.core ≠ q.core) := by
  cases plan with
  | groups _ plans =>
    obtain ⟨pl, at_p, mem_p, gr, plan⟩ := GroupPlan.mem_group plans hp bp
    obtain ⟨pl', at_q, mem_q, -⟩ := GroupPlan.mem_group plans hq bq
    rw [← same, at_p] at at_q
    obtain rfl := Option.some.inj at_q
    obtain ⟨c, -, stays⟩ := plan.stays
    refine ⟨(stays p mem_p).trans (stays q mem_q).symm, fun differ cores => differ ?_⟩
    obtain rfl := List.inj_on_of_nodup_map plan.apart mem_p mem_q cores
    omega
  | blocks single => exact absurd single grouped

end

end Sys2Proof.Machine
end

