-- ==== Sys2Proof/Proofs/Placement.lean ====
section
/-! PROOF. The placement of blocks (R198, R199, R235): what one block and a whole plan leave of the state. -/

namespace Sys2Proof.Machine
open Sys2Proof.Claims

/-! What the power and the scheduling registers of clusters and dies take (R207, R213, R215) -/

/-- `t` is `s` but for the registers of clusters and dies and the events that fall due. -/
def State.PowerOnly (s t : State) : Prop := t = { s with clusters := t.clusters, dies := t.dies, timers := t.timers }

theorem State.PowerOnly.refl (s : State) : s.PowerOnly s := rfl

theorem State.PowerOnly.trans {s t u : State} (st : s.PowerOnly t) (tu : t.PowerOnly u) : s.PowerOnly u := by
  unfold State.PowerOnly at *
  rw [tu, st]

theorem State.PowerOnly.retarget (s : State) (n : Nat) : s.PowerOnly (s.retarget n) := by
  simp only [State.retarget]
  split
  · rfl
  split
  · rfl
  · rfl

theorem State.PowerOnly.perfRequest (s : State) (n x p : Nat) : s.PowerOnly (s.perfRequest n x p) := by
  unfold State.perfRequest
  split
  · refine .trans ?_ (.retarget ..)
    rfl
  · rfl

theorem State.PowerOnly.rouse (s : State) (who n : Nat) : s.PowerOnly (s.rouse who n).2 := by
  simp only [State.rouse]
  split
  · rfl
  split
  · rfl
  split
  · rfl
  split
  · split
    · rfl
    · split
      · rfl
      · rfl
  · rfl

theorem State.PowerOnly.rouseAll {s s1 : State} {who : Nat} {l : List Nat} {ok : Bool} (h : s.rouseAll who l = (ok, s1)) : s.PowerOnly s1 := by
  have go (l : List Nat) (acc : Bool × State) : acc.2.PowerOnly
      (l.foldl (fun (acc : Bool × State) n => let (ok, s) := acc.2.rouse who n; (acc.1 && ok, s)) acc).2 := by
    induction l generalizing acc with
    | nil => rfl
    | cons n l ih => exact (State.PowerOnly.rouse acc.2 who n).trans (ih _)
  have all := go l (true, s)
  rwa [show l.foldl _ (true, s) = (ok, s1) from h] at all

section
variable {s t : State} (only : s.PowerOnly t)
include only

theorem State.PowerOnly.mem : t.mem = s.mem := by rw [only]
theorem State.PowerOnly.core (c : Nat) : t.core c = s.core c := by rw [only]; rfl
theorem State.PowerOnly.run? (id : Nat) : t.run? id = s.run? id := by rw [only]; rfl

end

/-- A change of target leaves the relabel rows. -/
theorem State.relabel_retarget (s : State) (n j : Nat) : ((s.retarget n).cluster j).relabel = (s.cluster j).relabel := by
  have set (s : State) (c : Cluster) (h : c.relabel = (s.cluster n).relabel) : ((s.setCluster n c).cluster j).relabel = (s.cluster j).relabel := by
    by_cases same : j = n
    · rw [same, State.cluster_setCluster, h]
    · rw [State.cluster_setCluster_ne _ _ _ same]
  simp only [State.retarget]
  split
  · exact set _ _ rfl
  split
  · exact set _ _ rfl
  · simp only [State.updCluster_syncEdges, State.after, State.cluster_atTime, State.cluster_setCluster, State.setCluster_setCluster]
    exact set _ _ rfl

theorem State.relabel_perfRequest (s : State) (n x p j : Nat) : ((s.perfRequest n x p).cluster j).relabel = (s.cluster j).relabel := by
  unfold State.perfRequest
  split
  · rw [State.relabel_retarget]
    by_cases same : j = n
    · rw [same, State.updCluster, State.cluster_setCluster]
    · rw [State.updCluster, State.cluster_setCluster_ne _ _ _ same]
  · rfl

/-! One block (R198, R199) -/

/-- The block that `placeBlock` puts on its core. -/
def State.newBlock (s : State) (run : Run) (p : Plan) (row : Option Nat) (entry : Nat) : Block :=
  { launch := run.id, kid := p.blk, ctx := run.ctx, sbase := p.base, scrq := run.lrec.scrq, l1floor := run.lrec.l1floor, wpb := run.lrec.wpb
    row := row, entry := entry, waves := (s.freeWslots p.core).take run.lrec.wpb
    parts := ((s.coreRes p.core).partitions run.lrec).getD [], lregq := run.lrec.lregq }

/-- Wave `w` of that block. -/
def State.newWave (s : State) (run : Run) (p : Plan) (w : Nat) : Wave :=
  placedWave run p.blk (s.freeBslot p.core) w ((((s.coreRes p.core).partitions run.lrec).getD []).getD w 0) (s.nextId * 16 + w) (s.nextId * 16 + w)
    (if s.fdidValid then s.fdid.toNat else 0)

/-- Its waves with their slots. -/
def State.newWaves (s : State) (run : Run) (p : Plan) : List (Nat × Wave) :=
  (List.range run.lrec.wpb).map (fun w => (((s.freeWslots p.core).take run.lrec.wpb).getD w 0, s.newWave run p w))

/-- The core with the block on it. -/
def State.withBlock (s : State) (run : Run) (p : Plan) (row : Option Nat) (entry : Nat) : Core :=
  { s.core p.core with
    blocks := tset (s.core p.core).blocks (s.freeBslot p.core) (s.newBlock run p row entry)
    waves := (s.newWaves run p).foldl (fun t w => tset t w.1 w.2) (s.core p.core).waves }

/-- The relabel entries of a cluster once a block stands on one of its cores (R196). -/
def State.withEntry (s : State) (p : Plan) (row : Option Nat) (entry : Nat) : Tbl (Nat × Nat) :=
  match row with
  | some k => tset (s.cluster (clusterOf p.core)).relabel (k * 12 + entry) (p.core % 12, p.base)
  | none => (s.cluster (clusterOf p.core)).relabel

section
variable (s : State) (run : Run) (p : Plan) (row : Option Nat) (entry : Nat)

theorem State.placeBlock_eq : s.placeBlock run p row entry =
    (((({ s with nextId := s.nextId + 1 } : State).setCore p.core (s.withBlock run p row entry)).setCluster (clusterOf p.core)
      { s.cluster (clusterOf p.core) with idleSince := none, relabel := s.withEntry p row entry }).updRun run.id
        (fun r => { r with blocks := r.blocks.set p.blk (.on p.core (s.freeBslot p.core)) })).perfRequest (clusterOf p.core) run.ctx run.lrec.plreq :=
  rfl

theorem State.mem_placeBlock : (s.placeBlock run p row entry).mem = s.mem := by
  rw [State.placeBlock_eq, (State.PowerOnly.perfRequest ..).mem]
  rfl

theorem State.core_placeBlock : (s.placeBlock run p row entry).core p.core = s.withBlock run p row entry := by
  rw [State.placeBlock_eq, (State.PowerOnly.perfRequest ..).core]
  exact State.core_setCore ..

theorem State.core_placeBlock_ne {c : Nat} (other : c ≠ p.core) : (s.placeBlock run p row entry).core c = s.core c := by
  rw [State.placeBlock_eq, (State.PowerOnly.perfRequest ..).core]
  exact State.core_setCore_ne _ _ _ other

theorem State.run?_placeBlock {r : Run} (found : s.run? run.id = some r) : (s.placeBlock run p row entry).run? run.id =
    some { r with blocks := r.blocks.set p.blk (.on p.core (s.freeBslot p.core)) } := by
  rw [State.placeBlock_eq, (State.PowerOnly.perfRequest ..).run?]
  exact State.run?_updRun (s := (({ s with nextId := s.nextId + 1 } : State).setCore p.core _).setCluster _ _) found fun _ => rfl

theorem State.relabel_placeBlock : ((s.placeBlock run p row entry).cluster (clusterOf p.core)).relabel = s.withEntry p row entry := by
  rw [State.placeBlock_eq, State.relabel_perfRequest]
  exact congrArg Cluster.relabel (State.cluster_setCluster ..)

end

/-! Waves as they are placed (R235) -/

section
variable {α : Type} (l : List (Nat × α)) (t : Tbl α)

theorem tfind_sets_ne {k : Nat} (other : k ∉ l.map Prod.fst) : tfind (l.foldl (fun t p => tset t p.1 p.2) t) k = tfind t k := by
  induction l generalizing t with
  | nil => rfl
  | cons p l ih =>
    rw [List.map_cons, List.mem_cons, not_or] at other
    rw [List.foldl_cons, ih _ other.2, tfind_tset_ne _ _ other.1]

theorem tfind_sets (nodup : (l.map Prod.fst).Nodup) {k : Nat} {v : α} (h : (k, v) ∈ l) :
    tfind (l.foldl (fun t p => tset t p.1 p.2) t) k = some v := by
  induction l generalizing t with
  | nil => contradiction
  | cons p l ih =>
    rw [List.map_cons, List.nodup_cons] at nodup
    rw [List.foldl_cons]
    rcases List.mem_cons.mp h with rfl | h
    · rw [tfind_sets_ne _ _ nodup.1, tfind_tset_same]
    · exact ih _ nodup.2 h

end

theorem State.freeWslots_nodup (s : State) (c : Nat) : (s.freeWslots c).Nodup := List.nodup_range.filter _

theorem State.freeBslot_lowest {s : State} {c bs : Nat} (low : bs < 16) (free : tfind (s.core c).blocks bs = none)
    (lowest : ∀ j, j < bs → tfind (s.core c).blocks j ≠ none) : s.freeBslot c = bs := by
  have first : (List.range 16).find? (fun b => (tfind (s.core c).blocks b).isNone) = some bs := by
    refine List.find?_range_eq_some.mpr ⟨by rw [free]; rfl, List.mem_range.mpr low, fun j hj => ?_⟩
    simpa [Option.isSome_iff_ne_none] using lowest j hj
  rw [State.freeBslot, first, Option.getD_some]

section
variable {s : State} {run : Run} {p : Plan} {ws : List Nat} (slots : ws = (s.freeWslots p.core).take run.lrec.wpb) (full : ws.length = run.lrec.wpb)
include slots full

theorem State.newWaves_slots : (s.newWaves run p).map Prod.fst = ws := by
  refine List.ext_getElem (by simp [State.newWaves, full]) fun i h1 h2 => ?_
  simp only [State.newWaves, List.map_map, List.getElem_map, List.getElem_range, Function.comp_apply, ← slots]
  exact List.getD_eq_getElem _ _ h2

variable (row : Option Nat) (entry : Nat)

theorem State.withBlock_waves_ne {w : Nat} (other : w ∉ ws) : tfind (s.withBlock run p row entry).waves w = tfind (s.core p.core).waves w :=
  tfind_sets_ne _ _ (by rwa [State.newWaves_slots slots full])

theorem State.withBlock_waves {w : Nat} (h : w < run.lrec.wpb) :
    tfind (s.withBlock run p row entry).waves (ws.getD w 0) = some (s.newWave run p w) := by
  refine tfind_sets _ _ ?_ ?_
  · rw [State.newWaves_slots slots full, slots]
    exact (s.freeWslots_nodup p.core).sublist (List.take_sublist ..)
  · rw [slots]
    exact List.mem_map.mpr ⟨w, List.mem_range.mpr h, rfl⟩

end

/-- The registers of a placed wave: the argument pointer in s2 and s3, every lane in m0 to m2, and zeros (R235). -/
theorem placedWave_rd (run : Run) (kid bslot widx part order seed fdid : Nat) {r : Nat} (h : r < 64) :
    (placedWave run kid bslot widx part order seed fdid).rd (firstFragment run.lrec.sentry allLanes) r =
      if r = 2 then run.lrec.args.truncate 32 else if r = 3 then (run.lrec.args >>> 32).truncate 32 else if 61 ≤ r then 0xFFFFFFFF else 0 := by
  unfold Wave.rd
  by_cases zero : r = 0
  · simp [zero]
  rw [if_neg (by simpa using zero)]
  by_cases mask : 61 ≤ r
  · rw [if_pos mask, if_neg (by omega), if_neg (by omega), if_pos mask]
    have words : ∀ k, k < 3 → maskWord allLanes k = 0xFFFFFFFF := by decide
    exact words (r - 61) (by omega)
  rw [if_neg mask, if_neg mask]
  by_cases path : 56 ≤ r
  · rw [if_pos path, if_neg (by omega), if_neg (by omega)]
    have words : ∀ k, k < 5 → ([0, 0, 0, 0, 0] : List Word).getD k 0 = 0 := by decide
    exact words (r - 56) (by omega)
  · rw [if_neg path]
    simp only [placedWave, tget, tfind, eq_comm (a := r)]
    split
    · rfl
    split
    · rfl
    · rfl

/-! A plan (R196, R198) -/

/-- Some planned blocks of a launch take their places one after another, while clusters note the relabel rows that they use. -/
inductive Places (run : Run) : List Plan → State → State → Prop
  | nil (s : State) : Places run [] s s
  | cons {s u t : State} {p : Plan} {ps : List Plan} (row : Option Nat) (entry : Nat) (notes : s.PowerOnly u)
      (rest : Places run ps (u.placeBlock run p row entry) t) : Places run (p :: ps) s t

namespace Places
variable {run : Run}

theorem note {ps : List Plan} {p : Plan} {s u t : State} (notes : s.PowerOnly u) : Places run (p :: ps) u t → Places run (p :: ps) s t
  | .cons row entry notes' rest => .cons row entry (notes.trans notes') rest

theorem append {ps qs : List Plan} {s u t : State} (first : Places run ps s u) (second : Places run qs u t) : Places run (ps ++ qs) s t := by
  induction first with
  | nil => exact second
  | cons row entry notes _ ih => exact .cons row entry notes (ih second)

/-- The placement of one block in the course of the others. -/
theorem split {pre post : List Plan} {p : Plan} {s t : State} (h : Places run (pre ++ p :: post) s t) :
    ∃ u v row entry, Places run pre s u ∧ u.PowerOnly v ∧ Places run post (v.placeBlock run p row entry) t := by
  induction pre generalizing s with
  | nil =>
    cases h with
    | cons row entry notes rest => exact ⟨s, _, row, entry, .nil s, notes, rest⟩
  | cons q pre ih =>
    cases h with
    | cons row entry notes rest =>
      obtain ⟨u, v, row', entry', first, notes', last⟩ := ih rest
      exact ⟨u, v, row', entry', .cons row entry notes first, notes', last⟩

theorem each (row : Option Nat) (entry : Plan → Nat) (ps : List Plan) (s : State) :
    Places run ps s (s.each ps fun s p => s.placeBlock run p row (entry p)) := by
  induction ps generalizing s with
  | nil => exact .nil s
  | cons p ps ih => exact .cons row (entry p) (.refl s) (ih _)

variable {ps : List Plan} {s t : State}

theorem mem (h : Places run ps s t) : t.mem = s.mem := by
  induction h with
  | nil => rfl
  | cons row entry notes _ ih => rw [ih, State.mem_placeBlock, notes.mem]

theorem core {c : Nat} (h : Places run ps s t) (other : ∀ p ∈ ps, c ≠ p.core) : t.core c = s.core c := by
  induction h with
  | nil => rfl
  | cons row entry notes _ ih =>
    obtain ⟨here, there⟩ := List.forall_mem_cons.mp other
    rw [ih there, State.core_placeBlock_ne _ _ _ _ _ here, notes.core]

/-- Of the launch the places of the planned blocks change, and those of no other block. -/
theorem run? {r : Run} (h : Places run ps s t) (found : s.run? run.id = some r) : ∃ r', t.run? run.id = some r' ∧
    r'.blocks.length = r.blocks.length ∧ ∀ k, (∀ p ∈ ps, p.blk ≠ k) → r'.blocks[k]? = r.blocks[k]? := by
  induction h generalizing r with
  | nil => exact ⟨r, found, rfl, fun _ _ => rfl⟩
  | cons row entry notes _ ih =>
    obtain ⟨r', found', len, kept⟩ := ih (State.run?_placeBlock _ _ _ row entry ((notes.run? _).trans found))
    refine ⟨r', found', len.trans (List.length_set ..), fun k other => ?_⟩
    obtain ⟨here, there⟩ := List.forall_mem_cons.mp other
    rw [kept k there]
    exact List.getElem?_set_ne here

/-- Where each planned block stands at the end: the launch has it there, and a block that is alone on its core finds the core as it was. -/
theorem placed {r : Run} {p : Plan} (h : Places run ps s t) (found : s.run? run.id = some r) (nodup : (ps.map Plan.blk).Nodup) (hp : p ∈ ps) :
    ∃ (v : State) (row : Option Nat) (entry : Nat),
      (p.blk < r.blocks.length → ∃ r', t.run? run.id = some r' ∧ r'.blocks[p.blk]? = some (.on p.core (v.freeBslot p.core))) ∧
      ((∀ j ∈ ps, j.core = p.core → j = p) → v.core p.core = s.core p.core ∧ t.core p.core = v.withBlock run p row entry) := by
  obtain ⟨pre, post, rfl⟩ := List.append_of_mem hp
  obtain ⟨u, v, row, entry, before, notes, after⟩ := h.split
  rw [List.map_append, List.map_cons] at nodup
  obtain ⟨-, tail, apart⟩ := List.nodup_append.mp nodup
  have notBefore : ∀ q ∈ pre, q.blk ≠ p.blk := fun q hq => apart _ (List.mem_map_of_mem hq) _ List.mem_cons_self
  have notAfter : ∀ q ∈ post, q.blk ≠ p.blk := fun q hq same => (List.nodup_cons.mp tail).1 (same ▸ List.mem_map_of_mem hq)
  refine ⟨v, row, entry, fun low => ?_, fun alone => ?_⟩
  · obtain ⟨r1, found1, len, -⟩ := before.run? found
    obtain ⟨r2, found2, -, kept⟩ := after.run? (State.run?_placeBlock _ _ _ row entry ((notes.run? _).trans found1))
    refine ⟨r2, found2, (kept _ notAfter).trans ?_⟩
    exact List.getElem?_set_self (by omega)
  · have lone {q : Plan} (hq : q ∈ pre ++ p :: post) (differ : q.blk ≠ p.blk) : p.core ≠ q.core :=
      fun same => differ (congrArg Plan.blk (alone q hq same.symm))
    refine ⟨(notes.core _).trans (before.core fun q hq => lone (List.mem_append_left _ hq) (notBefore q hq)), ?_⟩
    rw [after.core fun q hq => lone (List.mem_append_right _ (List.mem_cons_of_mem _ hq)) (notAfter q hq), State.core_placeBlock]

end Places

/-! Relabel rows (R196) -/

/-- The lowest free row of a cluster's relabel table. -/
def State.freeRow (s : State) (n : Nat) : Nat := ((List.range 64).find? (fun k => !(s.cluster n).rows.contains k)).getD 0

theorem State.freeRow_lowest (s : State) (n : Nat) {j : Nat} (h : j < s.freeRow n) : (s.cluster n).rows.contains j = true := by
  unfold State.freeRow at h
  cases first : (List.range 64).find? (fun k => !(s.cluster n).rows.contains k) with
  | none =>
    rw [first] at h
    contradiction
  | some row =>
    rw [first] at h
    simpa using (List.find?_range_eq_some.mp first).2.2 j h

/-! Whole plans (R196, R198) -/

/-- One cluster group is placed block by block, under the lowest free row of its cluster. -/
def State.placeGroup (run : Run) (s : State) : List Plan → State
  | [] => s
  | p :: ps => (s.updCluster (clusterOf p.core) fun c => { c with rows := c.rows ++ [s.freeRow (clusterOf p.core)] }).each (p :: ps)
      fun t q => t.placeBlock run q (some (s.freeRow (clusterOf p.core))) (q.blk % run.lrec.groupSize)

/-- The cluster groups of a plan. -/
def groupsIn (g : Nat) (ps : List Plan) : List (List Plan) := (List.range (ps.length / g)).map (fun i => (ps.drop (i * g)).take g)

theorem State.placeAll_single {run : Run} (single : run.lrec.groupLevel = none) (s : State) (ps : List Plan) :
    s.placeAll run ps = s.each ps fun s p => s.placeBlock run p none 0 := by
  simp only [State.placeAll, single]

theorem State.placeAll_grouped {run : Run} (grouped : run.lrec.groupLevel ≠ none) (s : State) (ps : List Plan) :
    s.placeAll run ps = s.each (groupsIn run.lrec.groupSize ps) (State.placeGroup run) := by
  obtain ⟨k, level⟩ := Option.ne_none_iff_exists'.mp grouped
  simp only [State.placeAll, level]
  refine congrArg (State.each s _) (funext fun t => funext fun grp => ?_)
  cases grp with
  | nil => rfl
  | cons p ps => rfl

/-- Groups of `g` blocks, one after another, are the plan. -/
theorem flatten_groupsIn {g m : Nat} {ps : List Plan} (whole : ps.length = m * g) : (groupsIn g ps).flatten = ps := by
  have upTo (m : Nat) : ((List.range m).map (fun i => (ps.drop (i * g)).take g)).flatten = ps.take (m * g) := by
    induction m with
    | zero => simp
    | succ m ih =>
      rw [List.range_succ, List.map_append, List.flatten_append, ih, Nat.succ_mul, List.take_add]
      simp
  rw [groupsIn, upTo, Nat.div_mul_cancel ⟨m, by rw [whole, Nat.mul_comm]⟩, List.take_length]

/-- A plan of whole cluster groups is carried out block by block. -/
theorem Places.placeAll (s : State) {run : Run} {ps : List Plan} {m : Nat} (whole : ps.length = m * run.lrec.groupSize) :
    Places run ps s (s.placeAll run ps) := by
  have group (grp : List Plan) (s : State) : Places run grp s (s.placeGroup run grp) := by
    cases grp with
    | nil => exact .nil s
    | cons p ps => exact .note (u := s.updCluster (clusterOf p.core) _) rfl (.each ..)
  have groups (gs : List (List Plan)) (s : State) : Places run gs.flatten s (s.each gs (State.placeGroup run)) := by
    induction gs generalizing s with
    | nil => exact .nil s
    | cons grp gs ih => exact (group grp s).append (ih _)
  by_cases single : run.lrec.groupLevel = none
  · rw [State.placeAll_single single]
    exact .each ..
  · have placed := groups (groupsIn run.lrec.groupSize ps) s
    rwa [flatten_groupsIn whole, ← State.placeAll_grouped single] at placed

/-- Blocks of one cluster that are placed under row `row` fill the entries of their numbers in their group, and no other. -/
theorem State.relabel_each {run : Run} {row n g : Nat} {x : Nat × Nat} {k : Nat} (ps : List Plan) (s : State)
    (stays : ∀ p ∈ ps, clusterOf p.core = n) (agree : ∀ p ∈ ps, row * 12 + p.blk % g = k → (p.core % 12, p.base) = x)
    (filled : (∃ p ∈ ps, row * 12 + p.blk % g = k) ∨ tfind (s.cluster n).relabel k = some x) :
    tfind ((s.each ps fun s p => s.placeBlock run p (some row) (p.blk % g)).cluster n).relabel k = some x := by
  induction ps generalizing s with
  | nil => exact filled.resolve_left (by simp)
  | cons p ps ih =>
    obtain ⟨rfl, stays⟩ := List.forall_mem_cons.mp stays
    obtain ⟨here, agree⟩ := List.forall_mem_cons.mp agree
    refine ih _ stays agree ?_
    rw [State.relabel_placeBlock, State.withEntry]
    by_cases hit : row * 12 + p.blk % g = k
    · right
      rw [hit, tfind_tset_same, here hit]
    · rw [tfind_tset_ne _ _ (Ne.symm hit)]
      refine filled.imp_left ?_
      rintro ⟨q, hq, key⟩
      rcases List.mem_cons.mp hq with rfl | hq
      · exact absurd key hit
      · exact ⟨q, hq, key⟩

/-- A cluster group whose blocks differ in their numbers stands in the entries of one row of its cluster (R196). -/
theorem State.relabel_placeAll {s : State} {run : Run} {ps : List Plan} (grouped : run.lrec.groupLevel ≠ none)
    (one : ps.length = run.lrec.groupSize) (nonempty : ps ≠ []) (group : ∀ p ∈ ps, ∀ q ∈ ps, clusterOf p.core = clusterOf q.core ∧
      (p.blk % run.lrec.groupSize = q.blk % run.lrec.groupSize → p = q)) : ∀ p ∈ ps,
    tfind ((s.placeAll run ps).cluster (clusterOf p.core)).relabel
      (s.freeRow (clusterOf (ps.headD ⟨0, 0, 0, none⟩).core) * 12 + p.blk % run.lrec.groupSize) = some (p.core % 12, p.base) := by
  cases ps with
  | nil => contradiction
  | cons p0 ps =>
    have only : groupsIn run.lrec.groupSize (p0 :: ps) = [p0 :: ps] := by
      rw [groupsIn, ← one, Nat.div_self (by simp)]
      simp
    intro p hp
    rw [State.placeAll_grouped grouped, only, (group p hp p0 List.mem_cons_self).1]
    refine State.relabel_each _ _ (fun q hq => (group q hq p0 List.mem_cons_self).1) (fun q hq key => ?_) (.inl ⟨p, hp, rfl⟩)
    rw [(group q hq p hp).2 (by simpa using key)]

end Sys2Proof.Machine
end

