-- ==== Sys2Proof/Proofs/PlacementAndPhases.lean ====
section
/-! PROOF. BLOCK_PLACE, cluster groups and gangs, carve-outs and phases (R196 to R199, R203 to R205, R235, R252); and the settling
of the obligation on them. -/

namespace Sys2Proof.Machine
open Sys2Proof.Claims

/-! Placement (R198, R199, R235) -/

section
variable {q : BitVec 6} {s s1 : State} {id : Nat} {rest : List Nat} {run : Run} {b n dom : Nat} {ps : List Plan}
  (steady : s.switching (1 + q.toNat / 32) = false) (unasked : (s.hq q.toNat).asked = []) (placing : (s.hq q.toNat).placing = id :: rest)
  (found : s.run? id = some run) (live : ∃ c, s.ctx? run.ctx = some c ∧ c.pmst = 0) (unit : run.nextUnit = some (b, n, dom))
  (planned : s.planUnit run b n dom false = some ps)
include steady unasked placing found live unit planned

/-- BLOCK_PLACE carries out a plan for which no dispatcher switches and every cluster is awake (R183, R198, R207). -/
theorem exec_blockPlace (steadies : ∀ p ∈ ps, s.switching (1 + dieOf p.core) = false)
    (roused : s.rouseAll q.toNat (dedup (ps.map (fun p => clusterOf p.core))) = (true, s1)) : exec (.blockPlace q) s =
      .next (((s1.setHq q.toNat { s1.hq q.toNat with asked := [] }).placeAll run ps).post (.blockPlace q)) := by
  obtain ⟨c, ctx, pmst⟩ := live
  have runs : ¬(s.ctx? run.ctx).all (fun c => c.pmst != 0) = true := by simp [ctx, pmst]
  have free : ¬ps.any (fun p => s.switching (1 + dieOf p.core)) = true := by simpa using steadies
  change execBlockPlace q s = _
  simp only [execBlockPlace, placing, steady, unasked, List.any_nil, Bool.or_self, Bool.false_eq_true, if_false, found, if_neg runs, unit, planned,
    if_neg free, roused, if_true]

end

@[simp] theorem State.core_post (s : State) (i : Instr) (c : Nat) : (s.post i).core c = s.core c := by rw [State.post_eq]; rfl
@[simp] theorem State.run?_post (s : State) (i : Instr) (id : Nat) : (s.post i).run? id = s.run? id := by rw [State.post_eq]; rfl
@[simp] theorem State.wave?_post (s : State) (i : Instr) (r : WaveRef) : (s.post i).wave? r = s.wave? r := by rw [State.post_eq]; rfl

theorem State.wave?_of_core {s t : State} {r : WaveRef} (h : t.core r.core = s.core r.core) : t.wave? r = s.wave? r := by
  rw [State.wave?, h, State.wave?]

/-- A block on its core: its resources, and its waves as they start (R199, R235). -/
theorem State.withBlock_stands {v t : State} {run : Run} {p : Plan} {row : Option Nat} {entry bs : Nat} {ws parts : List Nat}
    (after : t.core p.core = v.withBlock run p row entry) (bslot : v.freeBslot p.core = bs)
    (slots : ws = (v.freeWslots p.core).take run.lrec.wpb) (full : ws.length = run.lrec.wpb)
    (fits : (v.coreRes p.core).partitions run.lrec = some parts) :
    (∃ k : Block, tfind (t.core p.core).blocks bs = some k ∧ k.launch = run.id ∧ k.kid = p.blk ∧ k.ctx = run.ctx ∧ k.sbase = p.base ∧
      k.scrq = run.lrec.scrq ∧ k.l1floor = run.lrec.l1floor ∧ k.waves = ws ∧ k.parts = parts ∧ k.lregq = run.lrec.lregq) ∧
    (∀ w, w ∉ ws → t.wave? ⟨p.core, w⟩ = tfind (v.core p.core).waves w) ∧
    ∀ w, w < run.lrec.wpb → ∃ y f, t.wave? ⟨p.core, ws.getD w 0⟩ = some y ∧ y.frags = [f] ∧ f.pc = run.lrec.sentry ∧ f.lanes = BitVec.allOnes 96 ∧
      f.queue = [] ∧ f.run = none ∧ f.st = .ready ∧ (∀ r, r < 64 → y.rd f r =
        if r = 2 then run.lrec.args.truncate 32 else if r = 3 then (run.lrec.args >>> 32).truncate 32 else if 61 ≤ r then 0xFFFFFFFF else 0) ∧
      (∀ g, g ≠ 0 → y.guard g = 0) ∧ (∀ k, tget 0 y.flags k = 0) ∧ y.tickets = [] ∧ y.xslot = [] ∧ y.trapv = run.lrec.trape ∧ y.phase = 0 ∧
      y.handler = false ∧ y.ops = [] ∧ y.ctx = run.ctx ∧ y.launch = run.id ∧ y.kid = p.blk ∧ y.bslot = bs ∧ y.widx = w ∧
      y.part = parts.getD w 0 ∧ y.nregs = 16 * run.lrec.lregq := by
  have inParts : ((v.coreRes p.core).partitions run.lrec).getD [] = parts := by rw [fits, Option.getD_some]
  refine ⟨⟨v.newBlock run p row entry, ?_, rfl, rfl, rfl, rfl, rfl, rfl, slots.symm, inParts, rfl⟩, fun w other => ?_,
    fun w low => ⟨v.newWave run p w, firstFragment run.lrec.sentry allLanes, ?_, rfl, rfl, rfl, rfl, rfl, rfl,
      fun r => placedWave_rd run _ _ _ _ _ _ _,
      fun g nonzero => if_neg (by simpa using nonzero), fun k => rfl, rfl, rfl, rfl, rfl, rfl, rfl, rfl, rfl, rfl, bslot, rfl,
      congrArg (List.getD · w 0) inParts, rfl⟩⟩
  · rw [after, ← bslot]
    exact tfind_tset_same ..
  · rw [State.wave?, after]
    exact State.withBlock_waves_ne slots full row entry other
  · rw [State.wave?, after]
    exact State.withBlock_waves slots full row entry low

theorem blockPlacement : BlockPlacement := by
  intro q s id rest run b n dom ps s1 h l steady unasked placing found live unit planned steadies roused
  have named : run.id = id := by simpa using List.find?_some (show s.runs.find? (fun r => r.id == id) = some run from found)
  obtain ⟨cl, -, plan⟩ := State.planUnit_spec planned
  have power := State.PowerOnly.rouseAll roused
  refine ⟨_, exec_blockPlace steady unasked placing found live unit planned steadies roused, ?_⟩
  generalize hs2 : s1.setHq q.toNat { s1.hq q.toNat with asked := [] } = s2
  have core (c : Nat) : s2.core c = s.core c := by rw [← hs2, State.core_setHq, power.core]
  have found2 : s2.run? run.id = some run := by
    rw [← hs2, named]
    exact (power.run? id).trans found
  have whole : ps.length = n / run.lrec.groupSize * run.lrec.groupSize := by simpa using congrArg List.length plan.blks
  have places := Places.placeAll s2 whole
  obtain ⟨r', found', len, kept⟩ := places.run? found2
  simp only [State.post_mem, State.core_post, State.run?_post, State.wave?_post]
  refine ⟨?mem, fun r other => ?waves, ⟨r', found', len, kept, fun p hp low => ?places⟩,
    fun p hp alone _ bs low free lowest ws slots full parts fits => ?block⟩
  case mem =>
    rw [places.mem, ← hs2]
    exact power.mem
  case waves => exact State.wave?_of_core ((places.core other).trans (core r.core))
  case places =>
    obtain ⟨v, row, entry, place, -⟩ := places.placed found2 plan.blks_nodup hp
    obtain ⟨r, found, stands⟩ := place low
    obtain rfl : r' = r := Option.some.inj (found'.symm.trans found)
    exact ⟨_, stands⟩
  case block =>
    obtain ⟨v, row, entry, place, stands⟩ := places.placed found2 plan.blks_nodup hp
    obtain ⟨before, after⟩ := stands alone
    have before : v.core p.core = s.core p.core := before.trans (core p.core)
    rw [← before] at free lowest slots
    have bslot := State.freeBslot_lowest low free lowest
    have fits : (v.coreRes p.core).partitions run.lrec = some parts := by rwa [State.coreRes, before]
    obtain ⟨block, others, waves⟩ := State.withBlock_stands after bslot slots full fits
    exact ⟨block, bslot ▸ place, fun w other => (others w other).trans (by rw [before]; rfl), waves⟩

/-! Cluster groups, gangs and partitions (R196, R197, R198) -/

theorem groupsAndGangs : GroupsAndGangs := by
  intro s run b n dom ps l g
  refine ⟨fun planned => ?plan, fun k grouped one together nonempty _ => ?rows, fun core parts fits => State.partitions_spec fits⟩
  case plan =>
    obtain ⟨cl, hcl, plan⟩ := State.planUnit_spec planned
    obtain ⟨cluster, die⟩ := domainClusters_spec hcl
    refine ⟨plan.blks_whole, fun grouped i j p hp q hq bp bq same => plan.group grouped hp hq bp bq same, fun single isCore p hp q hq several => ?_,
      fun isCluster p hp q hq => ?_, fun bounded p hp => ?_⟩
    · obtain ⟨c, stands⟩ := plan.together single isCore several
      rw [stands p hp, stands q hq]
    · obtain ⟨c, rfl⟩ := cluster isCluster
      rw [List.mem_singleton.mp (plan.clusters p hp), List.mem_singleton.mp (plan.clusters q hq)]
    · rw [← die bounded _ (plan.clusters p hp), dieOf, clusterOf, Nat.div_div_eq_div_mul]
  case rows =>
    exact ⟨s.freeRow (clusterOf (ps.headD ⟨0, 0, 0, none⟩).core), fun j low => s.freeRow_lowest _ low,
      State.relabel_placeAll (Option.ne_none_iff_exists'.mpr ⟨k, grouped⟩) one nonempty together⟩

/-! Carve-outs (R252) -/

theorem carveOutChangeDone_ends {core : BitVec 8} {s : State} (pend : (s.core core.toNat).pend = true)
    (fits : (s.core core.toNat).blocks.all (fun b => decide (b.2.sbase + b.2.scrq ≤ (s.core core.toNat).tgt * 32 || b.2.scrq = 0) &&
      decide (b.2.l1floor + (s.core core.toNat).tgt ≤ 8)) = true) (empty : (s.core core.toNat).wcb = [])
    (last : (s.core core.toNat).nextTgt = none) : Ends (.carveOutChangeDone core) s (fun t => t.mem = s.mem ∧
      t.core core.toNat = { s.core core.toNat with l1 := [], scr := (s.core core.toNat).tgt, pend := false } ∧
      ∀ j, j ≠ core.toNat → t.core j = s.core j) := by
  have go : ¬(!(s.core core.toNat).pend || !(s.core core.toNat).blocks.all (fun b => decide (b.2.sbase + b.2.scrq ≤ (s.core core.toNat).tgt * 32 ||
      b.2.scrq = 0) && decide (b.2.l1floor + (s.core core.toNat).tgt ≤ 8))) = true := by
    rw [pend, fits]
    decide
  have drained : (s.setCore core.toNat { s.core core.toNat with l1 := [] }).drainAll core.toNat =
      s.setCore core.toNat { s.core core.toNat with l1 := [] } :=
    State.drainAll_of_empty (by rw [State.core_setCore]; exact empty)
  refine ⟨_, (if_neg go).trans (by rw [drained, last]), ?_⟩
  rw [State.tryPlace_eq, State.updCore, State.core_setCore, State.setCore_setCore]
  refine ⟨rfl, (State.core_setCore ..).trans (by simp [last]), fun j other => State.core_setCore_ne _ _ _ other⟩

/-! Phases (R203 to R205) -/

/-- A wave of a block that starts a phase, with the number `j + 1`, at `pc`. -/
def Wave.resumed (j : Nat) (pc : DWord) (w : Wave) : Wave :=
  { w with phase := j + 1, frags := w.frags.map (fun f => { f with pc := pc, st := .ready, waitSince := none }) }

theorem Wave.resumed_resumed (j : Nat) (pc : DWord) (w : Wave) : (w.resumed j pc).resumed j pc = w.resumed j pc := by
  simp [Wave.resumed]

theorem State.wave?_updWave (s : State) (r q : WaveRef) (f : Wave → Wave) :
    (s.updWave r f).wave? q = if q = r then (s.wave? q).map f else s.wave? q := by
  cases wave : s.wave? r with
  | none =>
    have stays : s.updWave r f = s := by rw [State.updWave, wave]
    rw [stays]
    split
    next same => rw [same, wave, Option.map_none]
    next => rfl
  | some w =>
    rw [State.updWave_eq wave]
    split
    next same => rw [same, State.wave?_setWave, wave, Option.map_some]
    next other => exact State.wave?_setWave_ne s r q _ other

/-- A change that need not be made twice reaches every wave of a list of slots that is there, also where the list repeats it. -/
theorem State.wave?_each_updWave {f : Wave → Wave} (idem : ∀ w, f (f w) = f w) {core k : Nat} {y : Wave} {ws : List Nat} (hk : k ∈ ws)
    {s : State} (wave : s.wave? ⟨core, k⟩ = some y) : (s.each ws fun s k => s.updWave ⟨core, k⟩ f).wave? ⟨core, k⟩ = some (f y) := by
  have keeps (s : State) (i : Nat) (h : s.wave? ⟨core, k⟩ = some (f y)) : (s.updWave ⟨core, i⟩ f).wave? ⟨core, k⟩ = some (f y) := by
    rw [State.wave?_updWave, h, Option.map_some, idem, ite_self]
  induction ws generalizing s with
  | nil => contradiction
  | cons i ws ih =>
    by_cases same : i = k
    · refine State.each_keeps keeps ws ?_
      rw [State.wave?_updWave, if_pos (by rw [same]), wave, Option.map_some]
    · refine ih ((List.mem_cons.mp hk).resolve_left (Ne.symm same)) ?_
      rw [State.wave?_updWave, if_neg (by simpa using Ne.symm same), wave]

/-- With empty write-combining buffers under its blocks a launch has nothing to drain. -/
theorem State.drainLaunch_of_empty {s : State} {r : Run} (empty : ∀ c b, .on c b ∈ r.blocks → (s.core c).wcb = []) : s.drainLaunch r = s := by
  refine State.each_id fun c hc => State.drainAll_of_empty ?_
  obtain ⟨place, hp, on⟩ := List.mem_filterMap.mp (mem_dedup.mp hc)
  split at on
  next core b =>
    obtain rfl := Option.some.inj on
    exact empty _ b hp
  next => contradiction

/-- Waves and blocks stay as L1 lines are dropped. -/
theorem State.core_dropL1 (s : State) (core x c : Nat) : ((s.dropL1 core x).core c).waves = (s.core c).waves ∧
    ((s.dropL1 core x).core c).blocks = (s.core c).blocks := by
  rw [State.dropL1, State.updCore]
  by_cases same : c = core
  · rw [same, State.core_setCore]
    exact ⟨rfl, rfl⟩
  · rw [State.core_setCore_ne _ _ _ same]
    exact ⟨rfl, rfl⟩

section
variable {s : State} {id blk cr bs j lev : Nat} {r : Run} {pc : DWord} (found : s.run? id = some r) (parked : tfind r.parked blk = some j)
  (phase : r.lrec.phases.getD j (0, 2) = (pc, lev))
include found parked phase

/-- A parked block that is on a core resumes there, behind the ordering of its level (R203). -/
theorem State.resumeBlock_eq (stands : r.blocks[blk]? = some (.on cr bs)) (empty : ∀ c b, .on c b ∈ r.blocks → (s.core c).wcb = []) :
    ∃ u, (u = s ∨ u = s.dropL1 cr r.ctx) ∧ s.resumeBlock id blk =
      (u.each (u.blockWaves cr bs) fun t k => t.updWave ⟨cr, k⟩ (Wave.resumed j pc)).updRun id
        (fun r => { r with parked := tdel r.parked blk, phaseOf := tset r.phaseOf blk (j + 1) }) := by
  simp only [State.resumeBlock, found, stands, parked, phase, State.drainLaunch_of_empty empty]
  exact ⟨_, (ite_eq_or_eq ..).symm, rfl⟩

theorem leadPhaseStart_ends (live : ∃ c, s.ctx? r.ctx = some c ∧ c.pmst = 0) (lead : r.leadOk lev blk (j + 1) = true)
    (stands : r.blocks[blk]? = some (.on cr bs)) (empty : ∀ c b, .on c b ∈ r.blocks → (s.core c).wcb = []) :
    Ends (.leadPhaseStart id blk) s (fun t => t.mem = s.mem ∧
      (∃ r', t.run? id = some r' ∧ tfind r'.parked blk = none ∧ tget 0 r'.phaseOf blk = j + 1 ∧ r'.blocks = r.blocks) ∧
      ∀ w ∈ s.blockWaves cr bs, ∀ y, s.wave? ⟨cr, w⟩ = some y → t.wave? ⟨cr, w⟩ = some (y.resumed j pc)) := by
  obtain ⟨c, ctx, pmst⟩ := live
  have run : exec (.leadPhaseStart id blk) s = .next (s.resumeBlock id blk) := by
    have go : ¬((s.ctx? r.ctx).all (fun c => c.pmst != 0) || !r.leadOk (r.lrec.phases.getD j (0, 2)).2 blk (j + 1)) = true := by
      rw [phase]
      simp [ctx, pmst, lead]
    change execLeadPhaseStart id blk s = _
    simp only [execLeadPhaseStart, found, parked, if_neg go]
  obtain ⟨u, ordered, resumed⟩ := State.resumeBlock_eq found parked phase stands empty
  have kept : u.mem = s.mem ∧ u.run? id = s.run? id ∧ u.blockWaves cr bs = s.blockWaves cr bs ∧ ∀ k, u.wave? ⟨cr, k⟩ = s.wave? ⟨cr, k⟩ := by
    rcases ordered with rfl | rfl
    · exact ⟨rfl, rfl, rfl, fun _ => rfl⟩
    · obtain ⟨waves, blocks⟩ := s.core_dropL1 cr r.ctx cr
      exact ⟨rfl, rfl, by simp only [State.blockWaves, waves, blocks], fun k => by simp only [State.wave?, waves]⟩
  obtain ⟨mem, runs, slots, waves⟩ := kept
  rw [slots] at resumed
  have others (t : State) (k : Nat) : (t.updWave ⟨cr, k⟩ (Wave.resumed j pc)).mem = t.mem ∧
      (t.updWave ⟨cr, k⟩ (Wave.resumed j pc)).run? id = t.run? id := by
    unfold State.updWave
    split
    · exact ⟨rfl, rfl⟩
    · exact ⟨rfl, rfl⟩
  refine ⟨_, run, ?_⟩
  rw [resumed]
  refine ⟨(State.each_same State.mem _ (fun t k => (others t k).1) _ u).trans mem, ⟨_, State.run?_updRun ?_ fun _ => rfl, ?_, ?_, rfl⟩,
    fun w hw y wave => ?_⟩
  · exact (State.each_same (State.run? · id) _ (fun t k => (others t k).2) _ u).trans (runs.trans found)
  · exact (tfind_tdel ..).trans (if_pos rfl)
  · exact tget_tset_same ..
  · exact State.wave?_each_updWave (Wave.resumed_resumed j pc) hw ((waves w).trans wave)

end

theorem carveOutsAndPhases : CarveOutsAndPhases := fun _ _ =>
  ⟨carveOutChangeDone_ends, fun _ _ _ _ _ _ _ _ found parked live phase lead stands empty =>
    leadPhaseStart_ends found parked phase live lead stands empty⟩

/-- Settles O47: the claims on the placement of blocks, on cluster groups, gangs and partitions, and on carve-outs and phases. -/
theorem placementAndPhases : Obligations.PlacementAndPhases := ⟨blockPlacement, groupsAndGangs, carveOutsAndPhases⟩

end Sys2Proof.Machine
end
